-- ==== Sys2Proof/Word.lean ====
section
/-! DEFINITION. The plain types the whole model is written in: bytes, byte strings, sparse maps and the names of the
physical units (01_organisation R19). -/

namespace Sys2Proof

/-- One byte. -/
abbrev Byte := BitVec 8

/-- A byte string, lowest address first (R10). -/
abbrev Bytes := List (BitVec 8)

/-- A file of like things by index, kept sparse: an index that is not listed holds the file's reset value. The canonical
form (indexes strictly rising, no entry equal to the reset value) is kept by `SMap.set`. -/
abbrev SMap (α : Type) := List (Nat × α)

/-- A physical cluster of the package (R19). -/
structure ClusterAt where
  die : Fin 24
  pcl : Fin 288
  deriving DecidableEq, Repr

/-- A core of a physical cluster (R19). -/
structure CoreAt where
  die : Fin 24
  pcl : Fin 288
  core : Fin 64
  deriving DecidableEq, Repr

/-- A core named logically, as fabric addresses, headers and endpoints name it (R25, R233). -/
structure LCore where
  pkg : BitVec 12
  die : BitVec 5
  cl : BitVec 9
  core : BitVec 6
  deriving DecidableEq, Repr

end Sys2Proof
end

