-- ==== Sys2Proof/Syntax.lean ====
section
/-! DEFINITION. The commands of the block: one constructor per row of spec/opcode_table.json, in the table's order.

A command of a core names the core only: its operands are the fields of the issue word at the core's slot (Table 4.1). A command
that is the arrival of traffic carries the traffic's header bits and bytes. A command that reports a fact from outside the block (a
sensor, a host read, the result of a signature check) carries the fact. -/

namespace Sys2Proof

/-- What a TELEMETRY_INTERVAL samples (R391, Table 14.4): the quantities of one cluster, one domain or the package, or the
counters of one unit (R411), as the sensors read them. Temperatures are in 0.125 K, two's complement. -/
inductive Sample where
  /-- Currents of both branches (4 mA), sensors 0 and 1, minimum rail (mV), stretched cycles, mean frequency (4 MHz). -/
  | cluster (at_ : ClusterAt) (iCore iUngated : BitVec 12) (t0 t1 : BitVec 12) (vmin : BitVec 10) (stretched : BitVec 16)
      (fMean : BitVec 10)
  /-- Domain VCORE (mV), current (0.1 A), hull diode. -/
  | domain (d : Fin 61) (vcore : BitVec 10) (idom : BitVec 14) (hullT : BitVec 12)
  /-- Input voltage (10 mV), current (0.1 A), mean power (W), coolant inlet and outlet, flow (0.1 L/min). -/
  | package (vin : BitVec 14) (iin : BitVec 13) (pin : BitVec 16) (inlet outlet flow : BitVec 10)
  /-- The counters of one unit (Table 15.6, Table 15.8). -/
  | counters (ukind : BitVec 4) (udie : BitVec 5) (ucluster : BitVec 9) (ucore : BitVec 6) (sub : BitVec 8) (group : BitVec 4)
  deriving DecidableEq, Repr

/-- The part that enters or leaves QUIESCE (R373, Table 13.7 byte 16). -/
inductive Part where
  | cluster (at_ : ClusterAt)
  | halfDie (d : Fin 48)
  | moon (m : Fin 4)
  | link (l : Fin 8)
  | host
  | package
  deriving DecidableEq, Repr

/-- A tile that failed its known-answer run (R104): cluster, core, kind of Table 3.10, and its first differing output. -/
structure TileFail where
  at_ : ClusterAt
  core : Fin 64
  kind : Fin 4
  out : BitVec 512
  deriving DecidableEq, Repr

/-- The outcome of a stress test or known-answer run of one cluster (Table 13.7, TEST_RESULT): with a failure, the first failing
core and tile kind, and the first differing output (R104). -/
inductive Verdict where
  | pass
  | fail (core : Fin 64) (tile : Fin 4) (out : BitVec 512)
  | void
  deriving DecidableEq, Repr

/-- A part of a diagnostic tile that Genhan writes or reads (Table 3.10). -/
inductive TileReg where
  -- Multiplier tile
  | latchA | latchB | metadata | scaleA | scaleB | eaIn | teOut
  | anchor (n : Fin 16)
  | ea (n : Fin 16)
  -- Special-function tile
  | vreg (r : Fin 32)
  | kreg (r : Fin 16)
  | mreg (r : Fin 4)
  | veCfg (n : Fin 32)
  | lane (n : Fin 16)
  | numStatus
  -- Memory tile: a granule of the scratchpad, a descriptor, the words in error
  | granule (n : Fin 4096)
  | descriptor (n : Fin 16)
  | syndromes
  | spadCe
  | draocGen | draocChk
  -- I/O tile
  | ptOut (o : Fin 16)
  | ptIn (o : Fin 16)
  | sendEp (n : Fin 16)
  | recvEp (n : Fin 16)
  deriving DecidableEq, Repr

/-- What the receiver finds in the training steps of Table 10.7 (R290, R293): this end's lane findings. `peerMask`, `peerMin` and the
peer's ID come by the ID exchange. -/
structure Training where
  /-- Lanes whose termination was found, and lanes whose conductors are shorted (step 1). -/
  terminated : BitVec 8
  shorted : BitVec 8 := 0
  /-- All eight lanes reversed, lanes of inverted polarity, and a lane order that no reversal corrects (step 2). -/
  reversed : Bool := false
  inverted : BitVec 8 := 0
  laneOrderBad : Bool
  /-- The identity of the peer in the training pattern, its serial number and port, and whether the peer has saved settings (R291, R348). -/
  seen : Option (BitVec 64 × BitVec 6) := none
  peerSaved : Bool := false
  /-- Step 3 succeeded with the saved settings; the lanes that then passed the error-rate qualification (step 4). -/
  savedOk : Bool := false
  savedQualified : BitVec 8 := 0
  /-- Full adaptation succeeded (step 3); the lanes that then, or in a retrain, passed the error-rate qualification (step 4). -/
  eqOk : Bool
  qualified : BitVec 8
  /-- Codeword boundaries, deskew and frame lock reached (steps 5, 6). -/
  lockOk : Bool
  /-- The peer's ID message, as received, when one came (R291). -/
  peerId : Option Bytes
  deriving DecidableEq, Repr

/-- One edit of the route tables (R217): the waypoint that cox `at_` uses toward a cluster index (R213), or toward the edge of a die. -/
structure RouteEdit where
  at_ : ClusterAt
  edge : Bool
  index : BitVec 13
  waypoint : Option (BitVec 7 × BitVec 7)
  deriving DecidableEq, Repr

/-- A packet on the mesh or between a link die and the mesh (R204, R271, R282): its kind (Table 7.2), the emitting core, the
destination, the header bits of its body (low-order bits used) and the bytes that follow. -/
structure Packet where
  pkind : BitVec 4
  src : LCore
  /-- EXIT of Table 7.1: 0 core, 1 moon die, 2 link die, 3 host interface die, 4 Genhan die. -/
  exit : BitVec 3
  comp : BitVec 3
  dst : LCore
  hdr : BitVec 256
  hdr2 : BitVec 128
  data : Bytes
  /-- Routing header (Table 7.1), formed at injection. -/
  route : BitVec 128
  /-- The router (package column, row) that holds the packet. -/
  col : BitVec 10
  row : BitVec 10
  /-- HOPS and DL of the crossing header (Table 10.3). -/
  hops : BitVec 4
  dl : Bool
  /-- The count before which a link delay (R416) holds the packet. -/
  wait : Option (BitVec 64)
  /-- Where it stands at its router (R203, R207): in the buffer of an input port (0 north, 1 east, 2 south, 3 west, 4 local, 5 that of the
  reduction unit), taken by the core or cox (6), or by the companion (7). A packet that has not entered the mesh waits at that port. -/
  port : BitVec 3 := 4
  /-- Its number, as the model counts the packets of the package. -/
  id : Nat := 0
  /-- Its flits that have come to where it stands, and those that have gone on (R204). A packet that stands in several routers has an entry in
  each. -/
  come : Nat := 0
  gone : Nat := 0
  /-- The transaction that it belongs to, as its requester counts its own (log entry 99): an answer carries the number of its request. -/
  txn : Option Nat := none
  /-- The link die by which it came from another package. -/
  via : Option Nat := none
  deriving DecidableEq, Repr

/-- What Genhan does at a tile over the test network (R102, Table 3.10). -/
inductive TileOp where
  | write (r : TileReg) (v : BitVec 1280)
  | read (r : TileReg)
  /-- The operations of an issue word that belong to the tile's units. -/
  | issue (w : BitVec 128)
  /-- A run of the Draoc generator and checker over a block. -/
  | draoc (block : Bytes)
  /-- Flits put into the buffer of a router port, and taken from it: 0 north, 1 east, 2 south, 3 west, 4 local. -/
  | inject (port : Fin 5) (p : Packet)
  | capture (port : Fin 5)
  deriving DecidableEq, Repr

/-- A part that returns (R373), and the tiles of its clusters that failed their known-answer runs (R104). -/
structure PartReturn where
  part : Part
  fails : List TileFail := []
  deriving DecidableEq, Repr

/-- The test of one cluster: what Genhan did on the test network, at tiles by address (R102), and the outcome. -/
structure TestRun where
  ops : List (BitVec 22 × TileOp) := []
  verdict : Verdict
  deriving DecidableEq, Repr

/-- The tests of a TEST descriptor: what Genhan does on the test network, and the outcomes by cluster. -/
structure TestRuns where
  ops : List (BitVec 22 × TileOp) := []
  results : List (ClusterAt × Verdict)
  deriving DecidableEq, Repr

/-- The hull channels that phase 4 finds in error (R342), each by a router and port that it serves, and the detours around them. -/
structure HullChannels where
  bad : List (BitVec 10 × BitVec 10 × Fin 4) := []
  edits : List RouteEdit := []
  deriving DecidableEq, Repr

/-- The commands, one constructor per row of the opcode table. -/
inductive Instr where
  -- Sequencer (04_spatial_schedules)
  | next (c : CoreAt)
  | jump (c : CoreAt)
  | branch (c : CoreAt)
  | nest (c : CoreAt)
  | halt (c : CoreAt)
  | stallCycle (k : ClusterAt)
  -- Tensor engine
  | teMma (c : CoreAt)
  | teCvt (c : CoreAt)
  | teEastore (c : CoreAt)
  | teEaload (c : CoreAt)
  | teEaadd (c : CoreAt)
  | teReanchor (c : CoreAt)
  -- Vector engine
  | vePipelined (c : CoreAt)
  | veSumx (c : CoreAt)
  | veSqsumx (c : CoreAt)
  | veFold (c : CoreAt)
  | veEaout (c : CoreAt)
  | veEaload (c : CoreAt)
  | veEastore (c : CoreAt)
  | veStatus (c : CoreAt)
  | vePrune (c : CoreAt)
  | veCompress (c : CoreAt)
  | pselThreshold (c : CoreAt)
  | pselTopK (c : CoreAt)
  | pselVerdict (c : CoreAt)
  | pselCounts (c : CoreAt)
  | pselRate (c : CoreAt)
  | pselQuant4 (c : CoreAt)
  -- Memory engine
  | agRead (c : CoreAt) (g : Fin 2)
  | agWrite (c : CoreAt) (g : Fin 2)
  | agReset (c : CoreAt) (g : Fin 2)
  | ptForward (c : CoreAt) (o : Fin 16)
  | deliveryLanding (c : CoreAt)
  | transposeCheck (c : CoreAt)
  | fabricAccess (c : CoreAt)
  | spadWriteback (c : CoreAt)
  -- Channel engine
  | send (c : CoreAt)
  | tileSend (c : CoreAt)
  | streamDemand (c : CoreAt)
  | streamWrite (c : CoreAt)
  | msend (c : CoreAt)
  | recvWait (c : CoreAt)
  | release (c : CoreAt)
  | rwrite (c : CoreAt)
  | rread (c : CoreAt)
  | ratomic (c : CoreAt)
  | ratomicLocal (c : CoreAt)
  | reduceContribute (c : CoreAt)
  | requestRecordCheck (c : CoreAt)
  | requestLaunch (c : CoreAt)
  | fence (c : CoreAt)
  | catch_ (c : CoreAt)
  | catchWait (c : CoreAt)
  | steerArm (c : CoreAt)
  | steerWait (c : CoreAt)
  | steerCycle (c : CoreAt)
  | open_ (c : CoreAt)
  | close (c : CoreAt)
  -- Cluster
  | clusterLaunch (k : ClusterAt)
  | clusterComplete (k : ClusterAt)
  -- Mesh and arrivals
  | packetHop (i : Nat)
  | meshLinkFail (col row : BitVec 10) (port : Fin 5) (hull : Bool)
  | channelRecordArrival (c : CoreAt) (hdr : BitVec 128) (payload : Bytes)
  | tileSegmentArrival (c : CoreAt) (hdr : BitVec 128) (seg : Bytes)
  | creditReturn (c : CoreAt) (body : BitVec 128)
  | remoteWrite (c : CoreAt) (acc : BitVec 256) (data : Bytes)
  | remoteReadRequest (c : CoreAt) (acc : BitVec 256) (host : Option Bytes)
  | remoteAtomicRequest (c : CoreAt) (acc : BitVec 256)
  | reply (c : CoreAt) (pos : BitVec 11) (msg rep : BitVec 128) (data : Bytes)
  | writeAck (c : CoreAt) (body : BitVec 128)
  | requestNoPathTimeout (c : CoreAt) (n : Nat)
  | reductionContribution (k : ClusterAt) (hdr : BitVec 128) (link : BitVec 3) (elems : Bytes)
  | reductionReturn (k : ClusterAt) (hdr : BitVec 128) (elems : Bytes)
  | reductionResult (c : CoreAt) (hdr : BitVec 128) (elems : Bytes)
  | catchJoin (k : ClusterAt) (id : Fin 16) (arg : Option (BitVec 8)) (faulted : Bool) (src : LCore)
  | catchRelease (k : ClusterAt) (id : Fin 16) (arg : BitVec 8) (faulted : Bool)
  | phaseTransferComplete
  | stop (at_ : Option ClusterAt) (tag : BitVec 32) (origin : BitVec 12)
  | stallAge (c : CoreAt) (isCatch : Bool) (ep : Fin 32)
  | openRequest (l : Fin 8) (body : BitVec 256)
  | answer (c : CoreAt) (body : BitVec 256)
  | closeRequest (l : Fin 8) (body : BitVec 256)
  | closeAnswer (c : CoreAt) (body : BitVec 256)
  | broken (c : CoreAt) (body : BitVec 256)
  -- Deep memory
  | demand (m : Fin 4) (hdr : BitVec 128)
  | segmentWrite (m : Fin 4) (hdr : BitVec 128) (seg : Bytes)
  | partRead (m : Fin 4) (hdr : BitVec 128)
  | partWrite (m : Fin 4) (hdr : BitVec 128) (data : Bytes)
  | dmaRead (m : Fin 4) (hdr : BitVec 128)
  | dmaWrite (m : Fin 4) (hdr : BitVec 128) (data : Bytes)
  | deliver (c : CoreAt) (hdr : BitVec 128) (seg : Bytes)
  | scrub (m : Fin 4)
  -- Telemetry, heat, faults, digests, relaunch, moves
  | telemetrySample (entry : BitVec 512)
  | telemetryInterval (x : Sample)
  | heatAlarm (k : ClusterAt) (sensor : Bool) (temp : BitVec 12)
  | eclipseReturn (d : Fin 48) (fails : List TileFail)
  | configurationWrite (k : ClusterAt) (data : Bytes) (final : Option Bytes)
  | heartbeat (k : ClusterAt)
  | heartbeatLost (k : ClusterAt)
  | faultReport
  | digestResult (rid : BitVec 8) (step : BitVec 48) (elems : List (BitVec 64))
  | checkpointDrainDone
  | relaunchReady (child : BitVec 12)
  | relaunchNotReady (child : BitVec 12)
  | relaunch (tag : BitVec 32) (count : BitVec 64)
  | relaunchHold (tag : BitVec 32)
  | relaunchTimeout
  | clusterMove (die : Fin 24) (logical : BitVec 9) (spare : Fin 288) (rotation : Bool)
  | routeTableChange (edits : List RouteEdit)
  | quiesce (p : Part)
  | quiesceReturn (p : PartReturn)
  | stressTestDue (k : ClusterAt)
  | stressTestDone (k : ClusterAt) (v : TestRun)
  | testOverdue (k : ClusterAt)
  -- Vevas links and time
  -- bad: the codewords that the decoder could not correct, by active lane and number since the training (R279)
  | dataFrame (port : Fin 64) (frame : Bytes) (bad : List (Nat × Nat))
  | idleFrame (port : Fin 64) (frame : Bytes) (bad : List (Nat × Nat))
  | linkFrame (port : Fin 64) (frame : Bytes) (bad : List (Nat × Nat))
  | replayTimeout (port : Fin 64)
  | frameLockLoss (port : Fin 64)
  | id (port : Fin 64) (msg : Bytes)
  | idTimer (port : Fin 64)
  | timeProbe (port : Fin 64) (t1 t2 : BitVec 80)
  | timeProbeTimer
  | timeReply (port : Fin 64) (t1 t2 t3 t4 : BitVec 80) (depth : BitVec 8) (tstate : BitVec 8)
  | timeHoldover
  | retrain (port : Fin 64) (t : Training)
  | retrainTimeout (port : Fin 64)
  | offline (port : Fin 64) (reason : BitVec 8)
  | portTraining (port : Fin 64) (t : Training)
  | portRetryTimer (port : Fin 64)
  | linkDieIngress (l : Fin 8) (port : Fin 64) (p : Packet)
  | linkDieEgress (l : Fin 8) (p : Packet)
  -- Host interface
  | sqTailDoorbell (page : BitVec 7) (value : BitVec 32)
  | cqHeadDoorbell (page : BitVec 7) (value : BitVec 32)
  | descriptorFetch (r : Fin 64) (d : Option (BitVec 512))
  | completionDecision (r : Fin 64) (tag : BitVec 16)
  | msixModerationExpiry (vector : Fin 64)
  | nop (r : Fin 64) (tag : BitVec 16)
  | loadImage (r : Fin 64) (tag : BitVec 16)
  | dmaToDeep (r : Fin 64) (tag : BitVec 16) (run : Option Bytes)
  | dmaFromDeep (r : Fin 64) (tag : BitVec 16) (segments : Nat)
  | armLaunch (r : Fin 64) (tag : BitVec 16)
  | signal (r : Fin 64) (tag : BitVec 16)
  | wait (r : Fin 64) (tag : BitVec 16)
  | waitPoll (r : Fin 64) (tag : BitVec 16)
  | waitTimeLimit (r : Fin 64) (tag : BitVec 16)
  | catchStop (r : Fin 64) (tag : BitVec 16)
  | drain (r : Fin 64) (tag : BitVec 16)
  | restore (r : Fin 64) (tag : BitVec 16)
  | digest (r : Fin 64) (tag : BitVec 16)
  | test (r : Fin 64) (tag : BitVec 16) (runs : TestRuns)
  | abort (r : Fin 64) (tag : BitVec 16)
  | sqEnableWrite (page : Fin 81) (value : BitVec 32)
  | cqEnableWrite (page : Fin 81) (value : BitVec 32)
  | eventLostClear (value : BitVec 32) (deviceSets : Bool)
  | registerWrite (offset : BitVec 26) (wide : Bool) (value : BitVec 64)
  | writeImage (image : Option Bytes) (certOk sigOk flashOk : Bool)
  | requestReport (nonce : Option (BitVec 256)) (sig certs : Bytes)
  | loadToken (token : Option Bytes) (certOk sigOk : Bool)
  | unloadToken
  | setCascade (cfg : Option Bytes) (flashOk : Bool)
  | setWaitMask (flashOk : Bool)
  | reportSuspect
  | packageReset
  | mailboxCommandEnd
  | linkDelay (slot : Fin 16) (i : Nat) (due : Bool)
  | creditCut (slot : Fin 16)
  | forcedStall (slot : Fin 16)
  | clockSkew (slot : Fin 16)
  | checkInsertion (slot : Fin 16) (i : Nat)
  | perturbationSlotClear (slot : Fin 16)
  | flr
  | perst (asserted : Bool)
  | d3hotEntry
  | d0Return
  | pkgResetPin (heldMicros : Nat)
  -- Pins, input and power
  | leak
  | inputInRange (vin : Nat)
  | busSample (vin iin pin : Nat)
  | orderlyStop (vin : Nat)
  | inputLoss (cause : Fin 4)
  | surge (peak duration : Nat)
  | overVoltage (vin : Nat)
  | inputSwitchReclose
  | inputReversed (volts : Nat)
  | busModule (m : Fin 12) (ok : Bool)
  | domainFault (d : Fin 61) (cause : Fin 3)
  | thermalTrip (d : Fin 61)
  | powerLoop (parts : List (Nat × Fin 8)) (fm : Nat)
  | coolantStop (inlet flow : Nat)
  -- Bring-up
  | powerGood (railsOk clockOk : Bool)
  | boot
  | smiImage (image : Bytes) (certOk sigOk : Bool)
  | grade (record : Bytes) (certOk sigOk : Bool)
  | hull (ppm : Int) (diesAnswer : BitVec 24) (channels : HullChannels) (inlet flow : Nat)
  | noCoolant (inlet flow : Nat)
  | domains (regulatorFault : BitVec 61)
  | repair
  | firmware (failed : List ClusterAt)
  | knownAnswer (failed : List TileFail)
  | memory (verifyOk fullOk : BitVec 16)
  | links
  | hostReady
  | powerDrainDone
  | leakRelease
  | pcieLinkDown
  | pcieLinkUp
  deriving DecidableEq, Repr

end Sys2Proof
end

