-- ==== Sys2Proof/Machine/Checks.lean ====
section
/-! DEFINITION. Check codes and generators over byte strings: little-endian fields (R10), CRC-32C (R274), the CRC-64 of frames (R278),
SHAKE256 (FIPS 202) and Philox4x32-10 (R406). -/

namespace Sys2Proof.Machine

/-- The number that bytes spell, lowest address first (R10). -/
def leNat : Bytes → Nat
  | [] => 0
  | b :: r => b.toNat + 256 * leNat r

/-- The `n` bytes of a number, lowest address first (R10). -/
def leBytes (n x : Nat) : Bytes :=
  match n with
  | 0 => []
  | k + 1 => BitVec.ofNat 8 x :: leBytes k (x / 256)

/-- `n` bytes of a string from offset `o` on. -/
def bytesAt (b : Bytes) (o n : Nat) : Bytes := (b.drop o).take n

/-- The little-endian number of `n` bytes at offset `o`. -/
def numAt (b : Bytes) (o n : Nat) : Nat := leNat (bytesAt b o n)

/-- Bits [hi:lo] of a number. -/
def bitsOf (x hi lo : Nat) : Nat := (x >>> lo) % 2 ^ (hi + 1 - lo)

/-- Whether every byte is zero. -/
def allZero (b : Bytes) : Bool := b.all (fun x => x == 0)

/-! ### Reflected CRCs -/

/-- One bit of a reflected CRC. -/
def crcBit {w : Nat} (poly c : BitVec w) : BitVec w := if c.getLsbD 0 then (c >>> 1) ^^^ poly else c >>> 1

/-- One byte of a reflected CRC. -/
def crcByte {w : Nat} (poly c : BitVec w) (b : Byte) : BitVec w :=
  let c := c ^^^ b.setWidth w
  crcBit poly (crcBit poly (crcBit poly (crcBit poly (crcBit poly (crcBit poly (crcBit poly (crcBit poly c)))))))

/-- CRC-32C (R274). -/
def crc32c (b : Bytes) : BitVec 32 := ~~~(b.foldl (crcByte 0x82F63B78) (BitVec.allOnes 32))

/-- The CRC-64 of a frame (R278): polynomial 0x42F0_E1EB_A9EA_3693 reflected. -/
def crc64 (b : Bytes) : BitVec 64 := ~~~(b.foldl (crcByte 0xC96C5795D7870F42) (BitVec.allOnes 64))

/-! ### SHAKE256

The whole sponge is one word of 1,600 bits, read from its bytes lowest first (R10): plane `y` is its bits from 320y on and lane
`(x, y)` the 64 bits from 64x of that plane. A plane is worked as a whole, so that a neighbour in x is a rotation by a lane. -/

/-- A plane of the sponge. -/
def planeOf (s : BitVec 1600) (y : Nat) : BitVec 320 := s.extractLsb' (320 * y) 320

/-- Five planes as one sponge, plane 0 lowest. -/
def ofPlanes (f : Nat → BitVec 320) : BitVec 1600 := f 4 ++ f 3 ++ f 2 ++ f 1 ++ f 0

/-- A plane with the bits of each of its lanes moved up by one place, the top one coming round. -/
def turnLanes (p : BitVec 320) : BitVec 320 :=
  let low : BitVec 320 := 1#320 ||| 1#320 <<< 64 ||| 1#320 <<< 128 ||| 1#320 <<< 192 ||| 1#320 <<< 256
  ((p <<< 1) &&& ~~~low) ||| ((p >>> 63) &&& low)

/-- Every column mixed with the parity of its two neighbours. -/
def mixColumns (s : BitVec 1600) : BitVec 1600 :=
  let sum := planeOf s 0 ^^^ planeOf s 1 ^^^ planeOf s 2 ^^^ planeOf s 3 ^^^ planeOf s 4
  let mask := sum.rotateLeft 64 ^^^ turnLanes (sum.rotateRight 64)
  ofPlanes fun y => planeOf s y ^^^ mask

/-- The walk that turns and moves the lanes: step `t` takes the lane at `(x, y)`, turns it by the `t`-th triangular number and lays it
at `(y, 2x + 3y)`, where the next step begins. -/
def moveLanes (left t x y : Nat) (s out : BitVec 1600) : BitVec 1600 :=
  match left with
  | 0 => out
  | n + 1 =>
    let turned := (s.extractLsb' (64 * x + 320 * y) 64).rotateLeft (t * (t + 1) / 2)
    let down := (2 * x + 3 * y) % 5
    moveLanes n (t + 1) y down s (out ||| turned.setWidth 1600 <<< (64 * y + 320 * down))

/-- The nonlinear step, plane by plane. -/
def bendPlanes (s : BitVec 1600) : BitVec 1600 :=
  ofPlanes fun y =>
    let p := planeOf s y
    p ^^^ (p.rotateRight 128 &&& ~~~p.rotateRight 64)

/-- The shift register of the round constants (x^8 + x^6 + x^5 + x^4 + 1), moved on by one. -/
def nextTap (r : BitVec 8) : BitVec 8 := (r <<< 1) ^^^ (if r.getLsbD 7 then 0x71 else 0)

/-- A round's constant from the register: the bits it shifts out stand at places 0, 1, 3, 7, 15, 31 and 63 of lane (0, 0). -/
def tapWord (left place : Nat) (r : BitVec 8) (w : BitVec 1600) : BitVec 8 × BitVec 1600 :=
  match left with
  | 0 => (r, w)
  | n + 1 => tapWord n (2 * place) (nextTap r) (if r.getLsbD 0 then w ||| 1#1600 <<< (place - 1) else w)

/-- `left` rounds of the permutation, the register carried from one to the next. -/
def permute (left : Nat) (r : BitVec 8) (s : BitVec 1600) : BitVec 1600 :=
  match left with
  | 0 => s
  | n + 1 =>
    let (r', k) := tapWord 7 1 r 0
    let m := mixColumns s
    permute n r' (bendPlanes (moveLanes 24 1 1 0 m (m &&& BitVec.ofNat 1600 (2 ^ 64 - 1))) ^^^ k)

/-- The sponge over `blocks` blocks of 136 bytes, the permutation's 24 rounds after each. -/
def soak (blocks : Nat) (s : BitVec 1600) (b : Bytes) : BitVec 1600 :=
  match blocks with
  | 0 => s
  | n + 1 => soak n (permute 24 1 (s ^^^ BitVec.ofNat 1600 (leNat (b.take 136)))) (b.drop 136)

/-- SHAKE256 with an output of `out` bytes, at most 136: the message is followed by 0x1F, and the last bit of its last block is turned
over. -/
def shake256 (out : Nat) (b : Bytes) : Bytes :=
  let blocks := b.length / 136 + 1
  let ended := BitVec.ofNat 8 0x1F :: List.replicate (136 * blocks - b.length - 1) 0
  let full := b ++ ended
  leBytes out (soak blocks 0 (full.modify (136 * blocks - 1) (· ^^^ 0x80))).toNat

/-! ### Philox4x32-10 -/

/-- One round on four words under a two-word key. -/
def philoxRound (k0 k1 : BitVec 32) (c : BitVec 128) : BitVec 128 :=
  let p0 := 0xD2511F53 * (c.extractLsb' 0 32).toNat
  let p1 := 0xCD9E8D57 * (c.extractLsb' 64 32).toNat
  let w0 := BitVec.ofNat 32 (p1 / 2 ^ 32) ^^^ c.extractLsb' 32 32 ^^^ k0
  let w1 := BitVec.ofNat 32 p1
  let w2 := BitVec.ofNat 32 (p0 / 2 ^ 32) ^^^ c.extractLsb' 96 32 ^^^ k1
  let w3 := BitVec.ofNat 32 p0
  w3 ++ w2 ++ w1 ++ w0

/-- `n` rounds, the key advanced by the Weyl constants between them. -/
def philoxRounds (n : Nat) (k0 k1 : BitVec 32) (c : BitVec 128) : BitVec 128 :=
  match n with
  | 0 => c
  | j + 1 => philoxRounds j (k0 + 0x9E3779B9) (k1 + 0xBB67AE85) (philoxRound k0 k1 c)

/-- Philox4x32-10 of a 128-bit counter under a 64-bit key, low words first (R406). -/
def philox (key : BitVec 64) (ctr : BitVec 128) : BitVec 128 :=
  philoxRounds 10 (key.extractLsb' 0 32) (key.extractLsb' 32 32) ctr

end Sys2Proof.Machine
end

