-- ==== Sys2Proof/Machine/SMap.lean ====
section
/-! DEFINITION. Sparse maps: reading, writing and their canonical form. One pair of operations serves memories, register files and
the files of cores and clusters, so that equal contents are equal data. -/

namespace Sys2Proof.SMap

/-- What index `k` holds: the listed value, else the default `d`. -/
def get {α : Type} (d : α) (m : SMap α) (k : Nat) : α :=
  match m with
  | [] => d
  | (i, v) :: r => if i = k then v else get d r k

/-- Replaces the entries of `n` indexes from `a` on by `new`. -/
def splice {α : Type} (m : SMap α) (a n : Nat) (new : SMap α) : SMap α :=
  m.filter (fun p => decide (p.1 < a)) ++ (new ++ m.filter (fun p => decide (a + n ≤ p.1)))

/-- Writes `v` at index `k`; an entry equal to the default is not listed. -/
def set {α : Type} [DecidableEq α] (d : α) (m : SMap α) (k : Nat) (v : α) : SMap α :=
  splice m k 1 (if v = d then [] else [(k, v)])

/-- The entries of consecutive values from index `k` on, those equal to the default left out. -/
def run {α : Type} [DecidableEq α] (d : α) (k : Nat) (vs : List α) : SMap α :=
  match vs with
  | [] => []
  | v :: r => if v = d then run d (k + 1) r else (k, v) :: run d (k + 1) r

/-- Writes consecutive values from index `k` on. -/
def setRun {α : Type} [DecidableEq α] (d : α) (m : SMap α) (k : Nat) (vs : List α) : SMap α :=
  splice m k vs.length (run d k vs)

/-- Reads `n` consecutive values from index `k` on. -/
def getRun {α : Type} (d : α) (m : SMap α) (k n : Nat) : List α :=
  (List.range n).map fun j => get d m (k + j)

/-- Changes every listed value; an entry that becomes the default is no longer listed. -/
def mapVals {α : Type} [DecidableEq α] (d : α) (f : α → α) (m : SMap α) : SMap α :=
  (m.map fun p => (p.1, f p.2)).filter fun p => decide (p.2 ≠ d)

/-- Indexes strictly rising from `lo` on and no entry equal to the default. -/
def wfFrom {α : Type} [DecidableEq α] (d : α) (lo : Nat) (m : SMap α) : Bool :=
  match m with
  | [] => true
  | (i, v) :: r => decide (lo ≤ i) && decide (v ≠ d) && wfFrom d (i + 1) r

/-- The canonical form. -/
def wf {α : Type} [DecidableEq α] (d : α) (m : SMap α) : Bool := wfFrom d 0 m

end Sys2Proof.SMap
end

