-- ==== Sys2Proof/Config.lean ====
section
/-! DEFINITION. What the spec leaves to the implementation, as constants without a body: nothing can be proved of their values. -/

namespace Sys2Proof

/-- The free values (log entry 3): the n-th value that the spec leaves open, 256 bits of it. State's `freeCtr` counts the draws. -/
opaque Config.freeValue : Nat → BitVec 256

/-- Whether the VE detects tininess before rounding (log entry 8): IEEE 754 lets an implementation choose, R54 says only that a tiny
and inexact result sets VE_UNDERFLOW. -/
opaque Config.tinyBeforeRounding : Bool

/-- Which element of a tensor lane `lane` of a conversion writes (log entry 43): the tensor, its logical shape and the element's coordinates in it, the
outermost first. No field of a word says it, and R63 rounds by it. The conversion is named as the program has it: the image, the logical core
(64·(512·(32·package + die) + cluster) + core) and its issue cycle since launch, so that no spare, move or delay changes the answer (R65). -/
opaque Config.roundsInto (image : BitVec 64) (core cycle lane : Nat) : Option (BitVec 32 × List Nat × List Nat)

/-- The bitmap word that VERDICT gives for an h that is neither 0 nor 1, by the word, h and the row (log entry 106): R166 states none. -/
opaque Config.verdictWord : BitVec 32 → BitVec 32 → BitVec 16 → BitVec 32

/-- The version of the moon-die training firmware that a management image carries, by the image's digest (R345, R347): the layout of an image's
payload is not stated. -/
opaque Config.moonFirmware : BitVec 512 → BitVec 64

/-- The digest of the core firmware that a management image carries, by the image's digest (R345, R350): the same. -/
opaque Config.coreFirmware : BitVec 512 → BitVec 512

/-- The contents of a repair map copy over which its digest is taken, by sequence number and entries (R344, R350): their layout is not stated. -/
opaque Config.mapContents : BitVec 64 → List (Nat × BitVec 32) → List (BitVec 8)

/-- The subsystem ID and the revision ID of configuration space (R303): Table 11.1 gives no values. -/
opaque Config.subsystemId : BitVec 16
opaque Config.revisionId : BitVec 8

end Sys2Proof
end

