-- ==== Sys2Proof/Machine/State.lean ====
section
/-! DEFINITION. The state of one package, as plain data, and the state after reset. Values at reset: the Reset columns of the
spec's maps; where the spec gives none, the value named in log entry 4 (registers), 5 (memories) or 6 (non-volatile contents).
Every file of like things is sparse (`SMap`): an index that is not listed holds the reset value. -/

namespace Sys2Proof.Machine

/-- Why a step stops the whole model. -/
inductive Fault where
  /-- Raised by `inputReversed` on an input below −80 V, beyond the absolute maximum ratings of Table 17.1: the package may be damaged (R441)
  and the spec gives no behaviour. Safe: the model stops where the hardware may do anything. -/
  | beyondAbsoluteMaximum
  deriving DecidableEq, Repr

/-- Why a command has no meaning in the model. -/
inductive Refusal where
  /-- Raised by a dispatch arm of a command that is not modelled yet. Safe. -/
  | notModelled (mnemonic : String)
  deriving DecidableEq, Repr

/-! ### Core -/

/-- A fault as its detector names it: the core, the slot of the faulting word, the code, 64 bits of detail, the class, and what else
Table 13.1 suspects: a producing or sending cluster, an offset of deep memory. -/
structure Raised where
  core : Fin 64
  slot : BitVec 10
  code : Nat
  detail : BitVec 64 := 0
  cls : BitVec 2
  suspect : Option ClusterAt := none
  offset : Option (BitVec 48) := none
  deriving DecidableEq, Repr

/-- A fault report on its way to Genhan (R353): its log entry, a further cluster and an offset of deep memory that Table 13.1 suspects. A quiet one
only opens an incident: a moon die's finding, where the fault of the job stands in another report. -/
structure Report where
  entry : BitVec 256
  other : Option ClusterAt := none
  offset : Option (BitVec 48) := none
  quiet : Bool := false
  deriving DecidableEq, Repr

/-- An exact accumulator (R37): A (two's complement; the least value is the NaN code), the anchor e it holds, and EA_OVF. -/
structure EA where
  a : BitVec 80 := 0
  e : BitVec 10 := 0
  ovf : Bool := false
  deriving DecidableEq, Repr

/-- A lane accumulator of the VE (R87). -/
structure LaneEA where
  ea : EA := {}
  anchored : Bool := false
  deriving DecidableEq, Repr

/-- The loop nest of a sequencer (R108, R109): the loaded header bits and the counters i0 to i5. -/
structure Nest where
  active : Bool := false
  header : BitVec 256 := 0
  i : SMap (BitVec 16) := []
  deriving DecidableEq, Repr

/-- Where an address-generator read lands (R91, Table 4.4), or the request record read of R238. -/
inductive Dest where
  | latchA (half : Bool)
  | latchB (half : Bool)
  | metadata
  | scaleA
  | scaleB
  | eaIn (fifth : Fin 5)
  | transpose (t : Bool)
  | vreg (r : Fin 32) (half : Bool)
  | kreg (r : Fin 16)
  | ptOut (o : Fin 16)
  | request (serial : Nat)
  deriving DecidableEq, Repr

/-- What one product or summed value adds to an accumulator (R38): the NaN code, or q in integer units. -/
inductive Term where
  | nan
  | q (x : Int)
  deriving DecidableEq, Repr

/-- An effect of an issued word that has not landed (R113). -/
inductive Effect where
  /-- Bank operation of a schedule read (R69); then it becomes a `land` due in cycle `landAt`. -/
  | bankRead (addr width : Nat) (dest : Dest) (landAt : Nat)
  | land (dest : Dest) (data : Bytes)
  /-- Bank operation of a schedule write. -/
  | bankWrite (addr : Nat) (data : Bytes)
  /-- The first bank cycle of a local atomic (R94), at the address of its AG0 descriptor, and the register that takes the prior value in
  cycle `landAt`. The model reads and writes at once: no access of either side falls between the two bank cycles. -/
  | atomic (addr : Nat) (atop : BitVec 2) (cond : BitVec 2) (v : BitVec 32) (r : Fin 16) (landAt : Nat)
  /-- The second bank cycle of a local atomic: its bank is taken (R71). -/
  | atomicSecond (addr : Nat)
  /-- TE.MMA: the terms of each EA in ascending k (R452). -/
  | eaMma (overwrite : Bool) (anchor : BitVec 10) (terms : List (List Term))
  /-- The second cycle of a sparse BF16 TE.MMA (R79): the word and the latches as the first cycle read them. -/
  | mmaUpper (word : BitVec 128) (a b : BitVec 512) (codes : BitVec 128)
  | eaLoad (anchor : BitVec 10) (vals : List (BitVec 80))
  | eaAdd (vals : List (BitVec 80))
  | eaReanchor (anchor : BitVec 10)
  | teOut (off : Nat) (data : Bytes) (flags : BitVec 8)
  /-- Lanes 0 to n − 1 of a vector register, with the mask register it writes beside them and the flags it sets. -/
  | vreg (r : Fin 32) (n : Nat) (data : BitVec 512) (mask : Option (Fin 4 × BitVec 16)) (flags : BitVec 8)
  | laneSum (anchor : BitVec 10) (terms : List Term)
  | laneFold
  | laneLoad (anchor : BitVec 10) (a : BitVec 80)
  | statusClear (mask : BitVec 8)
  | statusSet (mask : BitVec 8)
  /-- COMPRESS: the excess it counts, and whether it traps (R152). -/
  | excess (n : Nat) (trap : Bool)
  | psel (s u : BitVec 16)
  | audit (audits misses : Nat)
  | clearCounts
  /-- A mask register alone (a compare, PRUNE or PSELECT writes it beside its other results). -/
  | maskOnly (m : Fin 4) (x : BitVec 16)
  /-- PSELECT RATE raises its event (R167). -/
  | missRate (miss audit : BitVec 64)
  | ptIn (reg : Fin 16) (data : BitVec 256)
  deriving DecidableEq, Repr

/-- An effect with the issue cycle in which it lands and the slot of the word that caused it. -/
structure Pending where
  due : Nat
  slot : BitVec 10
  eff : Effect
  deriving DecidableEq, Repr

/-- State of a connection's send endpoint (R185). -/
inductive ConnState where
  | closed
  | pending
  | open_
  | failed
  | closing
  deriving DecidableEq, Repr

/-- A send endpoint: its entry (Table 6.1) and the state of R175, R184 and R185. -/
structure SendEp where
  entry : BitVec 128 := 0
  credits : Nat := 0
  wpos : Nat := 0
  srcPos : Nat := 0
  seq : BitVec 24 := 0
  /-- Credits per target of a multicast group, in group order. -/
  tcredits : List Nat := []
  /-- RSLOTS in force: the entry's, or the answer's for a REMOTE endpoint. -/
  rslots : Nat := 0
  conn : ConnState := .closed
  openStatus : BitVec 4 := 0
  broken : Bool := false
  /-- CLOSE issued while PENDING: the CLOSE follows the answer (Table 6.10). -/
  closeAfter : Bool := false
  connIndex : BitVec 12 := 0
  tgtLinkDie : BitVec 3 := 0
  /-- The connection was opened through ALT_LINK_DIE (R185). -/
  viaAlt : Bool := false
  /-- Credits held back, and to be held back as they return, by a credit cut (R416). -/
  withheld : Nat := 0
  toWithhold : Nat := 0
  /-- The same of a multicast endpoint, per target. -/
  twithheld : List Nat := []
  deriving DecidableEq, Repr

/-- A record in a ring, oldest first (R177, R178). `status` is a reply's STATUS; `fcode` and `ovf` are a reduction record's (R226). -/
structure Rec where
  kind : BitVec 2
  pos : Nat
  slots : Nat
  waited : Bool := false
  status : BitVec 4 := 0
  fcode : BitVec 2 := 0
  ovf : Bool := false
  /-- Its last granule has been written: the record is recorded (R242). -/
  landed : Bool := true
  deriving DecidableEq, Repr

/-- Slots reserved in a reply ring (R239), in ring order: for a request (its serial number) or a reduction entry; the record, once it
arrived before those ahead of it (R241). -/
structure Resv where
  pos : Nat
  slots : Nat
  skip : Bool := false
  serial : Nat := 0
  /-- Its record has arrived and is being written. -/
  filling : Bool := false
  red : Option (Fin 16) := none
  arrived : Option Rec := none
  deriving DecidableEq, Repr

/-- The peer of a connection that feeds a receive endpoint (R185, R296). -/
structure Peer where
  linkDie : BitVec 3
  conn : BitVec 12
  src : LCore
  ep : BitVec 4
  deriving DecidableEq, Repr

/-- A receive endpoint: its entry (Table 6.2) and its ring (R177-R182). -/
structure RecvEp where
  entry : BitVec 128 := 0
  wpos : Nat := 0
  expSeq : BitVec 24 := 0
  recs : List Rec := []
  resv : List Resv := []
  tile : Nat := 0
  seg : Nat := 0
  peer : Option Peer := none
  /-- The producer within the package: the send endpoint that the image names (credit returns go to it), or none. -/
  feed : Option (LCore × BitVec 4) := none
  deriving DecidableEq, Repr

/-- The steering unit (R125, R126): unpaired tokens and data messages that are admitted, as many of the oldest records of the
two endpoints. -/
structure Steer where
  cfg : BitVec 64 := 0
  tq : Nat := 0
  dq : Nat := 0
  /-- The admitted tokens that the unit has read, oldest first. -/
  toks : List (BitVec 32) := []
  pending : Nat := 0
  k : Nat := 0
  deriving DecidableEq, Repr

/-- A remote request in a core's queue (R239): operation (0 write, 1 read, 2 atomic), reply endpoint, its record once read, whether the
record passed R238, the slot and the issue cycle of its word. -/
structure Request where
  serial : Nat
  op : BitVec 2
  ep : BitVec 4
  record : Option (BitVec 256) := none
  checked : Bool := false
  slot : BitVec 10
  cycle : Nat
  deriving DecidableEq, Repr

/-- A launched request, record or segment that is not answered yet (R242, R243): KIND of Table 8.9 for a write (false) or a record
(true); for a read or atomic its reserved slots. -/
structure Outstanding where
  serial : Nat
  op : BitVec 2
  isRecord : Bool
  tag : BitVec 8
  scope : BitVec 3
  ep : BitVec 4
  pos : Nat
  fa : BitVec 64
  linkDie : BitVec 3
  /-- Its record declares an alternate for that link die (R237). -/
  alt : Bool := false
  /-- Its reply has arrived and is being written (R241). -/
  answered : Bool := false
  deriving DecidableEq, Repr

/-- One bank operation of a fabric access (R67, R70): it moves bytes of one aligned 32 B granule. An atomic takes its bank for two cycles
(R94). -/
inductive FabricOp where
  | read (addr n : Nat)
  | write (addr : Nat) (data : Bytes)
  | atomic (addr : Nat) (atop cond : BitVec 2) (v : BitVec 32)
  deriving DecidableEq, Repr

/-- What follows the last bank operation of a fabric access. -/
inductive FabricEnd where
  /-- A source has been read (R96): the packets leave with its bytes; with `seg` the bytes are the packed slots of a tile segment with that
  header (R157); `release` names the steering data endpoint whose record is freed after the last word (R126). -/
  | send (pkts : List Packet) (seg : Option Bytes) (release : Option (Fin 16))
  /-- A record stands in the ring of an endpoint: it is recorded, and acknowledged to the sender that the header names, if one is given
  (R179, R182, R242). -/
  | recorded (ep : Nat) (ack : Option (BitVec 128))
  /-- A remote write with this access header is performed (R242). -/
  | written (acc : BitVec 256)
  /-- A remote read or atomic with this access header is performed: the bytes read are its reply (R241). -/
  | replied (acc : BitVec 256)
  /-- A reply stands in its reserved slots: for the request with this serial, and its status (R241). -/
  | reply (ep : Nat) (serial : Nat) (status : BitVec 4)
  /-- A reduction record stands in its reserved slots: entry, fault code, OVF (R224, R225). -/
  | reduced (ep : Nat) (red : Fin 16) (fcode : BitVec 2) (ovf : Bool)
  /-- The 64 B header of a tile SEND that waits to issue has been read (R181). -/
  | header
  /-- The steering unit has read a token (R125). -/
  | token
  /-- The reduction unit has read the elements of slot `j` of an entry, to combine a packet with them: its header, way in and elements (R223). -/
  | combine (red : Fin 16) (j : Fin 2) (h : BitVec 128) (link : BitVec 3) (elems : Bytes)
  /-- A slot of an entry stands in the buffer area (R223). -/
  | slot (red : Fin 16) (j : Fin 2)
  /-- The elements of a complete slot have been read, for the parent, or for the return of the root (R223, R225). -/
  | partial_ (red : Fin 16) (j : Fin 2)
  | return_ (red : Fin 16) (j : Fin 2)
  /-- Nothing follows. -/
  | done
  deriving DecidableEq, Repr

/-- An access on the fabric side (R70, R72): the bank operations still to be performed, in ascending order of address within a write or a
read (R250), the bytes read, and what follows the last one. -/
structure FabricJob where
  ops : List FabricOp
  got : Bytes := []
  fin : FabricEnd
  /-- Issue cycle of the word it acts for, or of its arrival: a source read sees every schedule write issued before it (R246), and the
  older head of the three queues goes first (R72). -/
  cycle : Nat := 0
  /-- The transaction of the packet that asked for it. -/
  txn : Option Nat := none
  deriving DecidableEq, Repr

/-- A tile in the run-ahead buffer (R270): stream, sweep, index, its segments, whether delivered whole, and the receive endpoint. -/
structure RunTile where
  stream : Nat
  sweep : Nat
  index : Nat
  need : Nat
  /-- Its segments, each with the mark of an inserted check error (R418). -/
  segs : List (Bytes × Bool) := []
  /-- The transaction of its demand, which its segments carry. -/
  txn : Nat := 0
  deriving DecidableEq, Repr

/-- A demand of a read stream that the receiving core has not seen whole (R267, R270): its stream, the segments still to land, and the
buffered copy that it claimed. -/
structure DemandTag where
  stream : Nat
  left : Nat
  copy : List (Bytes × Bool) := []
  deriving DecidableEq, Repr

/-- The unit operations of the accepted word that are not performed yet (R113). -/
structure Todo where
  te : Bool := false
  ve : Bool := false
  ag0 : Bool := false
  ag1 : Bool := false
  ce : Bool := false
  pt : BitVec 16 := 0
  /-- The word's branch condition as it stood at the start of the cycle (R107). -/
  cond : Bool := false
  deriving DecidableEq, Repr

/-- Stall classes (R117). -/
inductive StallClass where
  | receive
  | credit
  | steering
  deriving DecidableEq, Repr

/-- The state of one core (Table 3.8). -/
structure Core where
  spad : SMap Byte := []
  /-- Words in error by word number: false a single-bit error, true an uncorrectable one (R73, R74). -/
  ecc : SMap (Option Bool) := []
  wback : List Nat := []
  store : SMap (BitVec 128) := []
  marks : List Nat := []
  slot : BitVec 10 := 0
  halted : Bool := false
  nest : Nest := {}
  ea : SMap EA := []
  teK : BitVec 5 := 0
  teMx : Bool := false
  teOpen : Bool := false
  teIss : Option (BitVec 10) := none
  latchA : BitVec 512 := 0
  latchB : BitVec 512 := 0
  metadata : BitVec 128 := 0
  scaleA : BitVec 32 := 0
  scaleB : BitVec 32 := 0
  eaIn : BitVec 1280 := 0
  teOut : BitVec 1280 := 0
  ax : SMap (BitVec 32) := []
  numStatus : BitVec 32 := 0
  numCtrl : BitVec 32 := 0
  v : SMap (BitVec 512) := []
  k : SMap (BitVec 32) := []
  m : SMap (BitVec 16) := []
  lane : SMap LaneEA := []
  /-- Lane anchors in issue order (R87, R40). -/
  laneIss : SMap (Option (BitVec 10)) := []
  veCfg : SMap (BitVec 64) := []
  /-- AG descriptors, at 8g + d. -/
  agd : SMap (BitVec 256) := []
  /-- AG loop counters, at 6(8g + d) + n. -/
  agi : SMap (BitVec 16) := []
  wrapped : BitVec 16 := 0
  draocGen : BitVec 64 := 0
  draocChk : BitVec 64 := 0
  ptOut : SMap (BitVec 256) := []
  ptIn : SMap (BitVec 256) := []
  ptRoute : SMap (BitVec 8) := []
  se : SMap SendEp := []
  re : SMap RecvEp := []
  steer : Steer := {}
  win : SMap (BitVec 128) := []
  reqBase : BitVec 11 := 0
  reqQ : List Request := []
  outstanding : List Outstanding := []
  /-- Requests that have completed without their answer, which is still to come (R243). -/
  late : List Outstanding := []
  /-- Serial number of the next request (the model's own, to match a reply with its reserved slots). -/
  serial : Nat := 0
  /-- Status of a write acknowledged with an error, not yet consumed (R243). -/
  ackErr : Option (BitVec 4) := none
  sparseCtrl : BitVec 32 := 0
  excess : BitVec 32 := 0
  audits : BitVec 32 := 0
  misses : BitVec 32 := 0
  pselS : BitVec 16 := 0
  pselU : BitVec 16 := 0
  runAhead : List RunTile := []
  demands : List DemandTag := []
  fqReduce : List FabricJob := []
  fqBulk : List FabricJob := []
  fqMgmt : List FabricJob := []
  /-- Source reads of the channel engine that wait for an entry of their queue: the queue (0 Reduce, 1 Bulk, 2 Management) and the read. -/
  ceWait : List (Nat × FabricJob) := []
  /-- Segments whose payload has been read and whose Draoc code is not ready, with the cycles until it is (R95, Table 3.6). -/
  generating : List (Nat × FabricJob) := []
  pipe : List Pending := []
  /-- Issue cycle and interval of the last TE.MMA, issue cycle of the last VE.PRUNE (R98). -/
  lastMma : Option (Nat × Nat) := none
  lastPrune : Option Nat := none
  todo : Todo := {}
  blocked : Option StallClass := none
  /-- Banks with a schedule bank operation in the present cycle, and whether the fabric side has made its access (R70, R72). -/
  busyBanks : BitVec 8 := 0
  fabUsed : Bool := false
  /-- Banks that the fabric side and write-backs have used in the present cycle, and the bank of a remote atomic's second cycle, which
  falls in the next (R70, R94). -/
  fabBanks : BitVec 8 := 0
  fabNext : Option Nat := none
  /-- A tile SEND that waits to issue: its header read has been asked for, and the header once read (R181). -/
  hdrAsked : Bool := false
  hdrRead : Option Bytes := none
  /-- Reduction credits spent, per entry of the cluster (R224: of two). -/
  redSpent : SMap Nat := []
  /-- Catches joined, and catch releases waited for, per ID (R193). -/
  joined : SMap Nat := []
  waited : SMap Nat := []
  joinArg : SMap (BitVec 8) := []
  /-- Stall ages: send endpoints 0-15, receive endpoints 16-31, catch IDs 32-47 (R191); and those whose event is raised. -/
  age : SMap Nat := []
  ageRaised : SMap Bool := []
  /-- The scratchpad words that a drain recorded as lost and a restore put back into this core, by word number (R74). -/
  lost : List Nat := []
  deriving DecidableEq, Repr

/-! ### Cluster -/

/-- What a cluster's cores are doing (R116, R56, R129). -/
inductive Run where
  /-- Powered with no job loaded (the state a reset leaves). -/
  | idle
  /-- Held before the first word (R116). -/
  | held
  | running
  /-- Halted on a fault (R56). -/
  | halted
  /-- Stopped at a word boundary (R129, R200). -/
  | stopped
  | complete
  deriving DecidableEq, Repr

/-- A catch entry of a cox (Table 6.11) with the round in progress (R193, R194). -/
structure CatchSt where
  entry : BitVec 64 := 0
  children : List LCore := []
  arg : Option (BitVec 8) := none
  bad : Bool := false
  sent : Bool := false
  /-- Rounds joined (sent to the parent) and released. -/
  released : Nat := 0
  /-- Rounds whose release was faulted. -/
  faultRounds : List Nat := []
  relArg : BitVec 8 := 0
  deriving DecidableEq, Repr

/-- A buffer slot of a reduction entry (Table 7.9), but for its elements, which stand in the scratchpad of BUF_CORE. -/
structure RedSlot where
  state : BitVec 2 := 0
  header : BitVec 128 := 0
  entered : BitVec 64 := 0
  children : List (BitVec 3 × LCore) := []
  /-- Order of opening among the two slots: the older has the lower number. -/
  order : Nat := 0
  /-- Complete, waiting for a parent credit (R223, R224). -/
  waiting : Bool := false
  deriving DecidableEq, Repr

/-- A reduction entry of a cluster (Table 7.7) and its unit's state (R223-R225). -/
structure RedSt where
  entry : BitVec 256 := 0
  s0 : RedSlot := {}
  s1 : RedSlot := {}
  opened : Nat := 0
  parentSpent : Nat := 0
  /-- Marked by Genhan as the root of a digest reduction (R357). -/
  digest : Bool := false
  deriving DecidableEq, Repr

/-- The state of one cluster controller and its clock island. -/
structure Cluster where
  run : Run := .idle
  /-- Armed at the Launch Count (R116, R197). -/
  armed : Bool := false
  faultCode : Option (BitVec 16) := none
  cycle : Nat := 0
  stallLine : Bool := false
  accepted : Bool := false
  issued : BitVec 64 := 0
  /-- Faults found in this cycle that halt the cluster at its end (R145, R238, R226). -/
  endFaults : List Raised := []
  /-- Clock edges while running, issue and stall cycles together (R417). -/
  clocks : Nat := 0
  step : BitVec 48 := 0
  catches : SMap CatchSt := []
  reds : SMap RedSt := []
  /-- Multicast groups: header of group g at 65g, target entry i at 65g + 1 + i (Tables 6.6, 6.7). -/
  groups : SMap (BitVec 32) := []
  /-- Waypoint fields of the route table by index (Table 7.6): WP_CCOL and WP_CROW. -/
  wp : SMap (Option (BitVec 7 × BitVec 7)) := []
  /-- Edge detour table (R216). -/
  edge : SMap (Option (BitVec 7 × BitVec 7)) := []
  diag : Bool := false
  /-- The local power gate cuts the cores (R386). -/
  gated : Bool := true
  /-- Drained and not yet started or restored: the fabric side and the reduction unit have stopped (R76, R219). -/
  drained : Bool := false
  quiesced : Bool := false
  fifoReset : Bool := false
  fwBuf : Bytes := []
  fwOk : Bool := false
  fwTries : Nat := 0
  /-- Issue and stall counts at the end of the last telemetry interval (R391). -/
  lastIssue : Nat := 0
  lastStall : Nat := 0
  ceiling : Nat := 3300
  hotRun : Nat := 0
  /-- Stroke Counter at the last passed stress test, none for never (R369); hours a due test has been deferred; test in progress, whether it is
  the stress test, what the trim takes off the rail in 0.1 mV, and that its conditions cannot be held (R368). -/
  passed : Option (BitVec 64) := none
  deferred : Option Nat := none
  testing : Bool := false
  stress : Bool := false
  trim : Nat := 0
  testVoid : Bool := false
  /-- A release with CKPT is recorded and the stop after its CATCH_WAIT is owed (R196): the catch ID. -/
  ckptId : Option (Fin 16) := none
  ckptStopped : Bool := false
  region : BitVec 14 := 0
  /-- Period and ceiling of a perturbation (R416). -/
  forcedStall : Option Nat := none
  skew : Option Nat := none
  deriving DecidableEq, Repr

/-! ### Deep memory -/

/-- What a home moon die still owes a stream, in demand order (R267, R270): a segment to deliver with its header, or, without one, the ring
slots of a claimed tile. `last` is the end of a demand, whose credit then returns. -/
structure Owed where
  hdr : BitVec 128
  seg : Option Bytes
  slots : Nat
  last : Bool
  deriving DecidableEq, Repr

/-- A stream entry of a moon die (Table 9.3) with the stream's state (R267-R270). -/
structure Stream where
  entry : BitVec 256 := 0
  sweep : Nat := 0
  last : Option Nat := none
  k : Nat := 0
  /-- Segments of tile k that have arrived and wait for the rest of it (R268): offset within the tile and bytes, and whether each passed
  its check. -/
  held : List (Nat × Bytes × Bool) := []
  /-- Credits of the receive ring that the home holds for its deliveries. -/
  dcredits : Nat := 0
  owed : List Owed := []
  faulted : Bool := false
  deriving DecidableEq, Repr

/-- An access to segments of deep memory, done segment by segment at the home of each (R260). -/
inductive HomeOp where
  /-- A demand with header `h` of a stream of moon die `m`: the tile, the number and offset of the segment in progress, the bytes left of the
  tile's extent, what has been read of that segment, and the segments read whole. -/
  | read (m : Nat) (h : BitVec 128) (txn : Option Nat) (tile sg o left : Nat) (got : Bytes) (segs : List Bytes)
  /-- A tile of write stream `n` of moon die `m`: the offset of the segment in progress, the segments still to be written, with their offset in
  the tile and whether they passed, and what is left of the first. -/
  | write (m n tile o : Nat) (todo : List (Nat × Bytes × Bool)) (rest : Bytes)
  /-- A DMA_READ of up to `n` bytes at `o`, and what has been read. -/
  | get (o n : Nat) (txn : Option Nat) (got : Bytes)
  /-- A DMA_WRITE of `n` bytes at `o`, and what is left of them. -/
  | put (o n : Nat) (txn : Option Nat) (rest : Bytes)
  deriving DecidableEq, Repr

/-! ### Vevas ports, connections, time -/

/-- Port states (Table 10.8, in table order). -/
inductive PortState where
  | disabled
  | down
  | held
  | training
  | retrain
  | up
  | upNarrow
  deriving DecidableEq, Repr

/-- One Vevas port (R278-R295, Table 16.8). -/
structure Port where
  state : PortState := .disabled
  reason : BitVec 4 := 0
  width : BitVec 4 := 0
  good : BitVec 8 := 0
  /-- The lanes that passed steps 1 and 2 of the last training: what a retrain tries again (R288, R293). -/
  lanes : BitVec 8 := 0
  /-- Lanes of the group in use (R294); drivers that are disabled, reversal and polarity as corrected in training (R293). -/
  group : BitVec 8 := 0
  driversOff : BitVec 8 := 0
  reversed : Bool := false
  polarity : BitVec 8 := 0
  peerSerial : BitVec 64 := 0
  peerPort : BitVec 6 := 0
  peerStepping : BitVec 8 := 0
  peerGrade : BitVec 4 := 0
  peerPkg : BitVec 12 := 0
  peerDepth : BitVec 8 := 0
  /-- Frame lock and the runs of good and bad frames (R280). -/
  lock : Bool := false
  goodRun : Nat := 0
  badRun : Nat := 0
  /-- Frames received since the training set the codeword boundaries, and codewords that could not be corrected and that a later frame may still
  overlap, by lane and number (R279). -/
  rxFrames : Nat := 0
  /-- Frames sent since then. -/
  txFrames : Nat := 0
  badWords : List (Nat × Nat) := []
  /-- Receiver: next expected SEQ, whether a DATA frame was accepted, whether the present loss has been NAKed (R286). -/
  rxExp : BitVec 12 := 0
  rxAny : Bool := false
  nakSent : Bool := false
  /-- Flits accepted and not yet taken by the link die, with their class; credits to return, at 8·set + class. -/
  rxFlits : List (Nat × Bytes) := []
  freed : SMap Nat := []
  /-- Sender: next SEQ, unacknowledged frames oldest first (their 336 bytes with ACK and credits zero), replays without progress of the
  oldest, and the ACK at which the latest replay began (R287). -/
  txSeq : BitVec 12 := 0
  /-- Packets that wait for the port at the link die, in order, and the round-robin pointer of its slots (R281, R288). -/
  txWait : List Packet := []
  txRr : Nat := 0
  replay : List (BitVec 12 × Bytes) := []
  /-- The packets of those frames, each with the SEQ of its last frame (R288: what the loss of the buffer loses). -/
  unacked : List (BitVec 12 × Packet) := []
  replays : Nat := 0
  naked : Option (BitVec 12) := none
  /-- Credits of the far receiver's buffers, at 8·set + class (R285). -/
  txCredits : SMap Nat := []
  idAccepted : Bool := false
  peerAccepted : Bool := false
  offline : Option (BitVec 8) := none
  /-- The peer lost its way to this port's replay (R288): retries made in the background (R348). -/
  retries : Nat := 0
  deriving DecidableEq, Repr

/-- Time states (Table 10.11; codes of Table 16.7). -/
inductive TimeState where
  | starter
  | acquire
  | locked
  | slewing
  | holdover
  deriving DecidableEq, Repr

/-- The Stroke Counter and its discipline (R298, R299; Table 16.7). -/
structure Time where
  running : Bool := false
  sc : BitVec 64 := 0
  frac : BitVec 16 := 0
  state : TimeState := .starter
  depth : BitVec 4 := 0
  onAlt : Bool := false
  lastOffset : BitVec 64 := 0
  settings : BitVec 32 := 1
  /-- The frequency correction, in 2^-16 tick a probe interval (of 1,000,000 ticks). -/
  freq : Int := 0
  /-- What the latest reply adds over the probe interval after it, and the ticks left of that interval; in SLEWING the offset still to be closed. -/
  slew : Int := 0
  left : Nat := 0
  /-- What is left of the corrections of the ticks so far, in 10^-6 of 2^-16 tick. -/
  acc : Nat := 0
  /-- ACQUIRE has stepped the counter at its first reply. -/
  stepped : Bool := false
  unanswered : Nat := 0
  inBound : Nat := 0
  /-- The TIME_PROBE outstanding. -/
  probe : Option (BitVec 80) := none
  deriving DecidableEq, Repr

/-! ### Host interface -/

/-- A descriptor that the command processor has taken and not decided (R316, R317). -/
structure Desc where
  bits : BitVec 512
  /-- Order in which descriptors were taken, over all rings. -/
  serial : Nat
  started : Bool := false
  /-- Its work has ended: status and RESULT. -/
  ended : Option (BitVec 8 × BitVec 32) := none
  /-- ABORTs that wait for its decision, by ring and serial. -/
  abortedBy : List (Fin 64 × Nat) := []
  /-- Progress of a DMA: segments moved, and bytes of the run that they took. -/
  moved : Nat := 0
  bytes : Nat := 0
  /-- The segment in progress: its bytes, and the extent of deep memory that a request to its home is out for (R271, R272). -/
  got : Bytes := []
  part : Option (Nat × Nat) := none
  /-- A DMA that an ABORT ended at a segment boundary, before its last segment was begun (Table 11.6). -/
  cut : Bool := false
  /-- WAIT: the last value read; the Stroke Counter when it started. -/
  value : BitVec 32 := 0
  startSc : BitVec 64 := 0
  /-- TEST: what Genhan does on the test network, the outcomes of the clusters still to be tested and of those under test; `moved` counts the failures. -/
  ops : List (BitVec 22 × TileOp) := []
  verdicts : List (ClusterAt × Verdict) := []
  batch : List (ClusterAt × Verdict) := []
  /-- DRAIN: the area it writes. -/
  area : Bool := false
  deriving DecidableEq, Repr

/-- A ring page (Table 16.4) with the device's view of its ring. -/
structure Ring where
  sqBase : BitVec 64 := 0
  sqEnable : Bool := false
  sqSize : BitVec 5 := 0
  sqWb : BitVec 64 := 0
  sqStopped : Bool := false
  sqCause : BitVec 4 := 0
  sqHead : BitVec 16 := 0
  sqTail : BitVec 16 := 0
  cqBase : BitVec 64 := 0
  cqEnable : Bool := false
  cqMod : BitVec 10 := 0
  cqVec : BitVec 6 := 0
  cqSize : BitVec 5 := 0
  cqHost : BitVec 16 := 0
  cqPhase : Bool := false
  cqWr : BitVec 16 := 0
  /-- Entries written and not consumed. -/
  cqUsed : Nat := 0
  lost : BitVec 16 := 0
  inProgress : List Desc := []
  /-- Tags and opcodes of the last 64 descriptors decided, newest first (R326). -/
  decided : List (BitVec 16 × BitVec 8) := []
  /-- Completions decided and not yet written (R310, R449), with their IRQ bit. -/
  heldC : List (BitVec 128 × Bool) := []
  deriving DecidableEq, Repr

/-- What the package sends out of itself, in order (the model's record). -/
inductive Output where
  /-- A posted write to host memory. -/
  | hostWrite (addr : BitVec 64) (data : Bytes)
  | msix (vector : Fin 64) (addr : BitVec 64) (data : BitVec 32)
  /-- A frame of 344 bytes on a Vevas port (R280). -/
  | frame (port : Fin 64) (bytes : Bytes)
  deriving DecidableEq, Repr

/-- The management mailbox (Table 16.13). -/
structure Mailbox where
  args : SMap (BitVec 64) := []
  opcode : BitVec 8 := 0
  busy : Bool := false
  seq : BitVec 8 := 0
  status : BitVec 8 := 0
  lastOp : BitVec 8 := 0
  result : BitVec 64 := 0
  vector : BitVec 6 := 0
  irqEn : Bool := false
  /-- Arguments latched with GO, and the outcome of the running command once its work is done. -/
  latched : SMap (BitVec 64) := []
  outcome : Option (BitVec 8 × BitVec 64) := none
  deriving DecidableEq, Repr

/-- A perturbation slot (Table 16.16). -/
structure Slot where
  target : BitVec 64 := 0
  param : BitVec 32 := 0
  /-- The parameter in force: that of the latest write of the target word (R439). -/
  live : BitVec 32 := 0
  /-- Segments still to be changed by a check insertion (R418). -/
  left : Nat := 0
  deriving DecidableEq, Repr

/-- The debug block (Table 16.16). -/
structure Debug where
  loaded : Bool := false
  perms : BitVec 8 := 0
  nonce : BitVec 256 := 0
  slots : SMap Slot := []
  deriving DecidableEq, Repr

/-- A read of host memory that failed, as Advanced Error Reporting logs it (R304). -/
inductive FailedRead where
  | fetch
  | dma
  | window
  deriving DecidableEq, Repr

/-- The host interface: PCI Express state, rings, interrupts, windows, mailbox, telemetry selection, debug. -/
structure HostIf where
  linkUp : Bool := false
  /-- PERST# is asserted (R330). -/
  perst : Bool := false
  d3hot : Bool := false
  /-- The link was lost: a reset is needed before descriptors (R449, R331). -/
  needReset : Bool := false
  /-- The log of Advanced Error Reporting, oldest first (R304). -/
  aer : List FailedRead := []
  /-- DMA descriptors that a reset abandoned while a segment of theirs was begun (R330). -/
  abandoned : List Desc := []
  rings : SMap Ring := []
  /-- Descriptors taken so far (the serial of the next). -/
  taken : Nat := 0
  eventLost : Bool := false
  /-- Events that wait for the link (R449) are written once it returns. -/
  heldEvents : List (BitVec 512) := []
  msix : SMap (BitVec 128) := []
  pba : BitVec 64 := 0
  /-- Moderation intervals running and causes waiting for their end (R313). -/
  modRun : BitVec 64 := 0
  modWait : BitVec 64 := 0
  /-- The interval, in µs, that each vector's latest cause brought. -/
  modIval : SMap (BitVec 10) := []
  hwBase : BitVec 52 := 0
  hwPages : BitVec 36 := 0
  hwEnable : Bool := false
  powerLimit : BitVec 9 := 270
  maxDefer : BitVec 10 := 24
  testPolicy : BitVec 2 := 1
  mbox : Mailbox := {}
  telem : SMap (BitVec 128) := []
  dbg : Debug := {}
  deriving DecidableEq, Repr

/-! ### Job, Genhan -/

/-- Job states (Table 11.9). -/
inductive JobState where
  | idle
  | loaded
  | armed
  | running
  | halting
  | halted
  | faulted
  deriving DecidableEq, Repr

/-- What Genhan does between two starts of a job (R133, R196, R369). -/
inductive Between where
  | none
  /-- A checkpoint drain, of the step index, in the drain area. -/
  | checkpoint (step : BitVec 48) (area : Bool)
  /-- The change into a phase: the clusters come to their stop, or (loaded) its transfer schedule waits for its start or runs. -/
  | transfer (dest : BitVec 3) (loaded : Bool)
  /-- The record run of a phase is loaded and waits for its start. -/
  | phaseRun (dest : BitVec 3)
  deriving DecidableEq, Repr

/-- The job (R323, Table 16.5). -/
structure Job where
  state : JobState := .idle
  tag : BitVec 32 := 0
  imageOffset : BitVec 48 := 0
  imageLength : BitVec 32 := 0
  image : Bytes := []
  launch : BitVec 64 := 0
  phase : BitVec 3 := 0
  /-- Reason and status of the entry into HALTING, and whether a fault caused or arose during the stop (Table 11.10). -/
  reason : BitVec 8 := 0
  status : BitVec 8 := 0
  faultArose : Bool := false
  /-- Physical clusters of the loaded phase. -/
  members : List ClusterAt := []
  record : BitVec 768 := 0
  seed : BitVec 64 := 0
  /-- Target frequency in MHz (R387). -/
  target : Nat := 3300
  between : Between := .none
  nextPhase : Option (BitVec 3) := none
  phaseReported : Bool := false
  /-- The catch of the last STEP release: the package tree's children of this package and its parent (R197). -/
  relChildren : List (BitVec 12) := []
  relParent : Option (BitVec 12) := none
  relReady : List (BitVec 12) := []
  relOwnDone : Bool := false
  /-- A checkpoint's drain is done and its test window open (R369); the dies that have rotated in it (R370). -/
  window : Bool := false
  rotated : List (Fin 24) := []
  /-- Clusters that are tested in place, and the drain area that holds their records (R369). -/
  inPlace : List ClusterAt := []
  windowArea : Bool := false
  /-- Digest layout (R357): interval, replicas (RID and root package), shards. -/
  digD : BitVec 8 := 0
  digReplicas : List (BitVec 32) := []
  digShards : BitVec 8 := 0
  digPlaces : List (BitVec 32) := []
  deriving DecidableEq, Repr

/-- A drained cluster (Table 4.13), as read back: its logical place, its cox state and its cores by core number. -/
structure Snapshot where
  die : Fin 24
  logical : BitVec 9
  cluster : Cluster
  cores : SMap Core
  /-- The words recorded as lost (R74), in the list of the cluster header: core number and word number. -/
  lost : List (Nat × Nat)
  /-- The streams that its cores own (R269), at 32,768·moon + number. -/
  streams : SMap Stream := []
  /-- Index of the first free value that stands for the bytes of the record whose place Table 4.13 does not give (log entry 24). -/
  free : Nat := 0
  deriving DecidableEq, Repr

/-- The drain areas (R263): contents of each, segments that the host rewrote since, and which holds the latest complete checkpoint. -/
structure Checkpoints where
  area0 : List Snapshot := []
  area1 : List Snapshot := []
  /-- Connection entries saved with each drain (R189). -/
  conns0 : SMap (BitVec 128) := []
  conns1 : SMap (BitVec 128) := []
  image0 : Option (BitVec 64) := none
  image1 : Option (BitVec 64) := none
  /-- The phase that was loaded. -/
  phase0 : BitVec 3 := 0
  phase1 : BitVec 3 := 0
  /-- What was left of a phase change that the drain fell into (R133). -/
  between0 : Between := .none
  between1 : Between := .none
  latest : Option Bool := none
  /-- A complete drain that digests still to come may prove (R361): area and step. -/
  unproven : Option (Bool × BitVec 48) := none
  /-- 64 B words of the drain areas (by offset div 64) that the host has rewritten since their drain (R264). -/
  rewritten : List Nat := []
  deriving DecidableEq, Repr

/-- Who is suspected of an H fault (Table 13.1). -/
structure Suspects where
  clusters : List ClusterAt := []
  offset : Option (BitVec 48) := none
  deriving DecidableEq, Repr

/-- An incident (R362): verdict 0 open, 1 transient, 2 permanent, 3 undecided. -/
structure Incident where
  code : BitVec 16
  suspects : Suspects
  step : BitVec 48
  shard : Option (BitVec 16) := none
  verdict : BitVec 8 := 0
  deriving DecidableEq, Repr

/-- Genhan's records. -/
structure Genhan where
  log : List (BitVec 256) := []
  numOr : BitVec 8 := 0
  /-- What Genhan logs beside the job fault log: a code and a place (R205, R223, R274; Table 9.6). -/
  notes : List (BitVec 16 × BitVec 64) := []
  /-- Fault reports on their way to Genhan (R353). -/
  reports : List Report := []
  incidents : List Incident := []
  digests : List (BitVec 512) := []
  digLost : Nat := 0
  /-- Replica digests that wait for their comparison: replica, step, count at receipt, elements (R359). -/
  digPending : List (BitVec 8 × BitVec 48 × BitVec 48 × List (BitVec 64)) := []
  /-- Steps of the job whose digests have been compared, and whether all matched (R361). -/
  digSeen : List (BitVec 48 × Bool) := []
  /-- Stops that Genhan has injected or received: tag, origin, and the count at which they were injected (R200). -/
  stopsSeen : List (BitVec 32 × BitVec 12 × BitVec 64) := []
  /-- Every cox holds new injection on the Reduce, Bulk and Management virtual channels (R217). -/
  held : Bool := false
  /-- Failed mesh links and excluded hull channels (R206, R342): the column and row of the sending router and its port. -/
  deadLinks : List (Nat × Nat × Nat) := []
  /-- Clusters and half-die domains that the installed detours keep clear of, those for which detours are still to be installed, and those whose
  detours are still to be removed (R103, R216, R373). -/
  avoid : List Part := []
  wanted : List Part := []
  unwanted : List Part := []
  /-- Windows of telemetry: package quantities of the last interval. -/
  inlet : Nat := 256
  flow : Nat := 480
  /-- Telemetry entries that wait for those of an earlier interval, oldest first; and the latest interval in which entries were forwarded, with how
  many (R414). -/
  samples : List (BitVec 512) := []
  sentIn : Nat := 0
  sent : Nat := 0
  /-- Clusters whose retirement waits for their move (R363, R364). -/
  toRetire : List ClusterAt := []
  /-- The diagnostic report: the tiles that failed, with the first differing output (R104). -/
  diags : List TileFail := []
  /-- What Genhan has read at tiles over the test network, with the tile's address (R102). -/
  tileOut : List (BitVec 22 × BitVec 1280) := []
  /-- Permanent incidents whose suspects are still under test: code, step, clusters, whether one has failed (R363). -/
  suspectTests : List (BitVec 16 × BitVec 48 × List ClusterAt × Bool) := []
  deriving DecidableEq, Repr

/-! ### Power, bring-up, non-volatile -/

/-- What the ROM finds of a slot (R337): it passes, or the first check that fails; a write that was cut short fails as its digest does (R338). -/
inductive SlotCheck where
  | passed
  | magic
  | zeroField
  | usage
  | certificate
  | signature
  | digest
  | version
  | empty
  deriving DecidableEq, Repr

/-- A management image slot of the flash, as the ROM reads it (Table 12.3): the checks of R337 on its contents as they stand, its
version, its SV and its digest. -/
structure ImageSlot where
  check : SlotCheck
  version : BitVec 64
  sv : BitVec 32
  digest : BitVec 512
  deriving DecidableEq, Repr

/-- A copy of the repair map in flash (R344): sequence number, whether its digest matches, the entries. -/
structure RepairCopy where
  seq : BitVec 64
  ok : Bool
  entries : SMap (BitVec 32)
  deriving DecidableEq, Repr

/-- The record of a loss of input (R381; detail of POWER_LOSS in Table 14.7). -/
structure PowerRecord where
  cause : BitVec 8
  jobState : BitVec 8
  drainDone : Bool
  stacksKept : Bool
  area : Bool
  tag : BitVec 32
  step : BitVec 48
  sc : BitVec 64
  deriving DecidableEq, Repr

/-- Management flash and the key store (R335, R338, R344, R348, R381, R438): kept through every reset and loss of input. -/
structure NonVolatile where
  slotA : Option ImageSlot := none
  slotB : Option ImageSlot := none
  minSv : BitVec 32 := 0
  serial : BitVec 64 := 0
  /-- Manufacture map: physical clusters withheld (true: defective, false: spare), at 288·die + cluster. -/
  manufacture : SMap (Option Bool) := []
  repair0 : Option RepairCopy := none
  repair1 : Option RepairCopy := none
  /-- The copy that is being written (false: `repair0`): until the write ends its digest does not match (R352). -/
  repairBusy : Option Bool := none
  waitMask : BitVec 64 := BitVec.allOnes 64
  cascade : Option Bytes := none
  powerRecord : Option PowerRecord := none
  incidents : List Incident := []
  /-- Stacks with saved settings, and the version of the training firmware that produced each (R347). -/
  stackSaved : BitVec 16 := 0
  stackFw : SMap (Option (BitVec 64)) := []
  /-- Saved settings that are being written, and their version; those of the ports, likewise (R352). -/
  newStacks : List (Nat × BitVec 64) := []
  newPairings : List (Nat × BitVec 64 × BitVec 6) := []
  /-- Clusters marked defective since manufacture, at 288·die + cluster (R104, R345, R363). -/
  defects : List Nat := []
  /-- The grade record (R340), once it has been read: what the flash has held since manufacture. -/
  grade : Option Bytes := none
  /-- The attestation key pair (R338, R350): public key and private key. -/
  publicKey : Bytes := []
  privateKey : Bytes := []
  /-- Pairings with saved port settings: own port, peer serial number, peer port (R291). -/
  pairings : List (Nat × BitVec 64 × BitVec 6) := []
  /-- The area of the latest complete checkpoint and the image identity of it (R263). -/
  ckptArea : Option (Bool × BitVec 64) := none
  /-- V/F tables by cluster (R388), in 4 MHz units at 0.60 V, 0.63 V, ..., 0.81 V; an unlisted table reaches every cap. -/
  vf : SMap (List Nat) := []
  /-- Clusters whose V/F table fails its CRC-32C (R388), at 288·die + cluster. -/
  vfBad : List Nat := []
  reversals : Nat := 0
  reversalsReported : Nat := 0
  deriving DecidableEq, Repr

/-- Bands of the input (Table 14.1). -/
inductive Band where
  | off
  | retention
  | reduced
  | full
  | surge
  | overVoltage
  | reversed
  deriving DecidableEq, Repr

/-- Input, bus stage, power loop, coolant (14_power_clocks_cooling). -/
structure Power where
  band : Band := .off
  switchOpen : Bool := false
  level : Fin 8 := 0
  /-- The highest level in the present telemetry interval, and in the one before. -/
  topLevel : Fin 8 := 0
  lastTop : Fin 8 := 0
  sag : Bool := false
  sagLevel : Fin 8 := 0
  sagVin : Nat := 0
  /-- Samples since the last change of the level, and samples in which the end condition of the sag has held. -/
  sinceChange : Nat := 0
  sagQuiet : Nat := 0
  plim : Nat := 27000
  modules : BitVec 12 := BitVec.allOnes 12
  fPkg : Nat := 3300
  pLim : Nat := 27000
  belowTarget : Bool := false
  coolLimit : Nat := 27000
  /-- Consecutive intervals with the coolant within its limits and LEAK# released (R396, R449). -/
  coolantRun : Nat := 0
  derating : Bool := false
  coldOrHigh : Bool := false
  coolantStop : Bool := false
  leak : Bool := false
  orderly : Bool := false
  drainOwed : Bool := false
  drainDone : Bool := false
  stacksKept : Bool := false
  retention : Bool := false
  /-- Genhan's image still runs where a loss of range before host-ready has taken the domains off (R381). -/
  managed : Bool := false
  /-- Half-die domains whose eclipse waits for the drain of the stop. -/
  eclipseOwed : List (Fin 48) := []
  /-- Half-die domains in QUIESCE that go off once their detours stand (R217, R395): cause, and whether their clusters become unmapped. -/
  eclipsing : List (Fin 48 × Nat × Bool) := []
  deriving DecidableEq, Repr

/-- One switched domain (Table 14.3). -/
structure Domain where
  powered : Bool := false
  eclipsed : Bool := false
  /-- Cause of an eclipse: 1 heat, 2 coolant. -/
  cause : BitVec 8 := 0
  vcore : Nat := 660
  hullT : BitVec 12 := 0
  coolRun : Nat := 0
  quiesced : Bool := false
  /-- The boundary FIFOs of its neighbours are held in reset (R395). -/
  fifoReset : Bool := false
  lost : Bool := false
  /-- Count at the last THROTTLE event of the domain (R393). -/
  throttled : Option (BitVec 64) := none
  deriving DecidableEq, Repr

/-- Halting outcomes of bring-up (Table 12.2). -/
inductive Halted where
  | none
  | recovery
  | gradeFail
  | hullFail
  | noCoolant
  deriving DecidableEq, Repr

/-- The report fields of the bring-up status block (Table 16.3), as phase 11 writes them (R349, R423). -/
structure BringUpReport where
  deepUnavailable : Bool := false
  domainOff : BitVec 61 := 0
  dieLost : BitVec 24 := 0
  dieUnmappable : BitVec 24 := 0
  spareLow : BitVec 24 := 0
  stackFail : BitVec 16 := 0
  deriving DecidableEq, Repr

/-- Bring-up status (Table 16.3) and identification (Table 16.2). -/
structure Boot where
  phase : BitVec 4 := 0
  /-- The phase in `phase` has finished: the next may start. -/
  done : Bool := true
  started : Bool := false
  halted : Halted := .none
  outcome : BitVec 22 := 0
  slot : Bool := false
  hostReady : Bool := false
  /-- What the phases have found so far; the host reads it in `report`, once phase 11 has written that. -/
  deepUnavailable : Bool := false
  domainOff : BitVec 61 := 0
  dieLost : BitVec 24 := 0
  dieUnmappable : BitVec 24 := 0
  spareLow : BitVec 24 := 0
  stackFail : BitVec 16 := 0
  report : BringUpReport := {}
  /-- The wait mask that stood when this bring-up started (R348, R437). -/
  waitMask : BitVec 64 := BitVec.allOnes 64
  /-- Why each slot failed, as the serial management interface reads it in RECOVERY (R339). -/
  failA : SlotCheck := .passed
  failB : SlotCheck := .passed
  /-- Mailbox image write in progress: the slot it fills holds nothing valid until the command ends (R338). -/
  writing : Option ImageSlot := none
  /-- The accepted grade record's body (R341), zero before. -/
  record : BitVec 512 := 0
  version : BitVec 64 := 0
  sv : BitVec 32 := 0
  digest : BitVec 512 := 0
  deriving DecidableEq, Repr

/-- The state of the package. -/
structure State where
  /-- Commands that wait, oldest first (the row's cut). -/
  pending : List Instr := []
  cores : SMap Core := []
  clusters : SMap Cluster := []
  /-- The packets in the routers' buffers and those that have left the mesh for a core or companion, in the order in which their first flit came
  there; a packet in several buffers stands in the list once for each (R204, R207, R210). -/
  mesh : List Packet := []
  /-- Credits spent by the output ports of the routers, for the buffers at the far end (R207), and the round-robin pointer of each output
  port (R208); an unlisted port has spent none and points at Reduce. -/
  spent : SMap Nat := []
  rr : SMap Nat := []
  /-- Credit cuts of router buffers (R416), by the key of `spent`: credits to withhold, and those withheld so far. -/
  cuts : SMap (Nat × Nat) := []
  /-- Packets that have not entered the mesh whole, oldest first, each at its source (R213, R217). -/
  waiting : List Packet := []
  /-- Packets emitted so far (the model's own: the next packet's number). -/
  emitted : Nat := 0
  /-- Physical cluster entries (Table 16.11), at 288·die + cluster, and REPAIR_SEQ. -/
  repairMap : SMap (BitVec 32) := []
  repairSeq : BitVec 64 := 0
  deep : SMap Byte := []
  /-- 64 B words of deep memory (by offset div 64) in error: false corrected, true uncorrectable (R275). -/
  deepErr : SMap (Option Bool) := []
  /-- Streams, at 32,768·moon + number (R266). -/
  streams : SMap Stream := []
  /-- What each moon die waits for as a home, and the accesses that wait for a home, oldest first (R260). -/
  homes : SMap (Option HomeOp) := []
  homeWait : List HomeOp := []
  ports : SMap Port := []
  /-- Connection tables, at 4,096·link die + index (Table 6.8). -/
  conns : SMap (BitVec 128) := []
  /-- Cascade route tables, at 4,096·link die + package (Table 10.5). -/
  croutes : SMap (BitVec 16) := []
  time : Time := {}
  cascadeId : BitVec 32 := 0
  pkg : BitVec 12 := 0
  /-- Port entries of the cascade configuration (Table 16.10). -/
  expect : SMap (BitVec 32) := []
  domains : SMap Domain := []
  power : Power := {}
  boot : Boot := {}
  nv : NonVolatile := {}
  job : Job := {}
  ckpt : Checkpoints := {}
  genhan : Genhan := {}
  host : HostIf := {}
  /-- Counters of Table 15.6 by packed unit, group and number (R409). -/
  ctr : SMap Nat := []
  out : List Output := []
  /-- Free values drawn so far (log entry 3; the model's own). -/
  freeCtr : Nat := 0
  deriving DecidableEq, Repr

/-- The package before its first bring-up: every register at the Reset column of its map (R13), nothing powered, memories as log
entries 4 to 6 say. -/
def State.reset : State := {}

end Sys2Proof.Machine
end

