-- ==== Sys2Proof/Machine/Ops.lean ====
section
/-! DEFINITION. The operations that every family shares: access to clusters and cores, names, memories, counters, free values, rings and
events, and the halt of a cluster on a fault. -/

namespace Sys2Proof.Machine

/-! ### Clusters and cores -/

/-- The index of a physical cluster (Table 16.11). -/
def clusterKey (k : ClusterAt) : Nat := k.die.val * 288 + k.pcl.val

/-- The index of a core. -/
def coreKey (c : CoreAt) : Nat := (c.die.val * 288 + c.pcl.val) * 64 + c.core.val

/-- The cluster of a core. -/
def clusterOf (c : CoreAt) : ClusterAt := ⟨c.die, c.pcl⟩

/-- A core of a cluster. -/
def coreIn (k : ClusterAt) (i : Fin 64) : CoreAt := ⟨k.die, k.pcl, i⟩

def State.cluster (s : State) (k : ClusterAt) : Cluster := SMap.get {} s.clusters (clusterKey k)

def State.putCluster (s : State) (k : ClusterAt) (x : Cluster) : State :=
  { s with clusters := SMap.set {} s.clusters (clusterKey k) x }

def State.core (s : State) (c : CoreAt) : Core := SMap.get {} s.cores (coreKey c)

def State.putCore (s : State) (c : CoreAt) (x : Core) : State :=
  { s with cores := SMap.set {} s.cores (coreKey c) x }

/-- Changes one cluster. -/
def State.modCluster (s : State) (k : ClusterAt) (f : Cluster → Cluster) : State := s.putCluster k (f (s.cluster k))

/-- Changes one core. -/
def State.modCore (s : State) (c : CoreAt) (f : Core → Core) : State := s.putCore c (f (s.core c))

/-- The 64 cores of a cluster, in number order. -/
def coresOf (k : ClusterAt) : List CoreAt := (List.finRange 64).map (coreIn k)

/-- Changes every core of a cluster. -/
def State.modCores (s : State) (k : ClusterAt) (f : CoreAt → Core → Core) : State :=
  (coresOf k).foldl (fun s c => s.modCore c (f c)) s

/-- Every physical cluster. -/
def allClusters : List ClusterAt :=
  (List.finRange 24).flatMap fun d => (List.finRange 288).map fun p => ⟨d, p⟩

/-- The clusters of an SMap index, when it is in range. -/
def clusterAtKey (n : Nat) : Option ClusterAt :=
  if h : n / 288 < 24 then some ⟨⟨n / 288, h⟩, ⟨n % 288, Nat.mod_lt _ (by decide)⟩⟩ else none

/-- The core of an SMap index, when it is in range. -/
def coreAtKey (n : Nat) : Option CoreAt := (clusterAtKey (n / 64)).map fun k => coreIn k ⟨n % 64, Nat.mod_lt _ (by decide)⟩

/-! ### Logical names (R24, R25, Table 16.11) -/

/-- A physical cluster entry: its role (0 mapped, 1 spare, 2 defective, 3 unmapped) and logical number. -/
def State.entryOf (s : State) (k : ClusterAt) : BitVec 32 := SMap.get 0 s.repairMap (clusterKey k)

def roleOf (e : BitVec 32) : BitVec 2 := e.extractLsb' 30 2
def logicalIn (e : BitVec 32) : BitVec 9 := e.extractLsb' 0 9

/-- The logical number of a mapped physical cluster. -/
def State.logical (s : State) (k : ClusterAt) : Option (BitVec 9) :=
  let e := s.entryOf k
  if roleOf e = 0 then some (logicalIn e) else none

/-- The physical cluster that carries a logical cluster of a die (R24). -/
def State.physical (s : State) (die : Nat) (cl : BitVec 9) : Option ClusterAt :=
  if h : die < 24 then
    (List.finRange 288).findSome? fun p =>
      let k : ClusterAt := ⟨⟨die, h⟩, p⟩
      if s.logical k = some cl then some k else none
  else none

/-- The logical name of a core. -/
def State.lcore (s : State) (c : CoreAt) : LCore :=
  ⟨s.pkg, BitVec.ofNat 5 c.die.val, (s.logical (clusterOf c)).getD 0, BitVec.ofNat 6 c.core.val⟩

/-- The core that a logical name of this package means. -/
def State.coreAt (s : State) (l : LCore) : Option CoreAt :=
  (s.physical l.die.toNat l.cl).map fun k => coreIn k l.core.toFin

/-- The die domain of a cluster: the north half of die d is domain 2d, the south half 2d + 1 (R20, R22). -/
def domainOf (k : ClusterAt) : Fin 61 := ⟨2 * k.die.val + k.pcl.val / 144, by have := k.die.isLt; have := k.pcl.isLt; omega⟩

def State.domain (s : State) (d : Fin 61) : Domain := SMap.get {} s.domains d.val

def State.modDomain (s : State) (d : Fin 61) (f : Domain → Domain) : State :=
  { s with domains := SMap.set {} s.domains d.val (f (s.domain d)) }

/-! ### The grade record (Table 12.4) -/

/-- Field of `n` bytes at offset `o` of the accepted grade record (Table 12.4); zero before bring-up has accepted one. -/
def State.grade (s : State) (o n : Nat) : Nat := bitsOf s.boot.record.toNat (8 * (o + n) - 1) (8 * o)
def State.mappedPerDie (s : State) : Nat := s.grade 34 2
def State.clockCap (s : State) : Nat := s.grade 36 2
def State.spareMinimum (s : State) : Nat := s.grade 38 2
def State.portMask (s : State) : BitVec 64 := BitVec.ofNat 64 (s.grade 40 8)
def State.stackMask (s : State) : BitVec 16 := BitVec.ofNat 16 (s.grade 48 2)

/-- The identity of the loaded image (Table 15.1). -/
def State.imageId (s : State) : BitVec 64 := s.job.record.extractLsb' 704 64

/-! ### Memories -/

/-- An accumulator as a number: A, e, OVF in that order from bit 0 (R130, log entry 24). -/
def EA.packed (a : EA) : Nat := a.a.toNat + a.e.toNat * 2 ^ 80 + (if a.ovf then 2 ^ 90 else 0)
def EA.unpack (v : Nat) : EA := { a := BitVec.ofNat 80 v, e := BitVec.ofNat 10 (v / 2 ^ 80), ovf := v.testBit 90 }

/-- `n` bytes of a core's scratchpad (R67). -/
def Core.read (c : Core) (a n : Nat) : Bytes := SMap.getRun 0 c.spad a n

/-- Writes bytes into a scratchpad; whole words that are replaced lose a recorded error, and a pending write-back of a written word
is cancelled (R73, R75). -/
def Core.write (c : Core) (a : Nat) (b : Bytes) : Core :=
  let lo := a / 8
  let hi := (a + b.length + 7) / 8
  { c with
    spad := SMap.setRun 0 c.spad a b
    ecc := c.ecc.filter (fun p => decide (p.1 < lo) || decide (hi ≤ p.1))
    wback := c.wback.filter (fun w => decide (w < lo) || decide (hi ≤ w)) }

/-- Whether some word of an access holds an uncorrectable error. -/
def Core.badWord (c : Core) (a n : Nat) : Bool :=
  c.ecc.any fun p => decide (p.2 = some true) && decide (a / 8 ≤ p.1) && decide (p.1 < (a + n + 7) / 8)

/-- A write narrower than a word that meets an uncorrectable error in it (R75). -/
def Core.badMerge (c : Core) (a n : Nat) : Bool := decide (n < 8) && c.badWord a n

/-- Words of an access with a single-bit error. -/
def Core.softWords (c : Core) (a n : Nat) : List Nat :=
  (c.ecc.filter fun p => decide (p.2 = some false) && decide (a / 8 ≤ p.1) && decide (p.1 < (a + n + 7) / 8)).map (·.1)

/-- Schedules the write-back of corrected words (R73). -/
def Core.noteSoft (c : Core) (a n : Nat) : Core :=
  { c with wback := c.wback ++ (c.softWords a n).filter (fun w => !c.wback.contains w) }

/-- The words of an access of `n` bytes at `a` that it takes only in part. -/
def partWords (a n : Nat) : List (Nat × Nat) :=
  (if a % 8 = 0 then [] else [(a, min n (8 - a % 8))]) ++
    (if (a + n) % 8 = 0 ∨ (a / 8 = (a + n) / 8 ∧ a % 8 ≠ 0) then [] else [(a + n - (a + n) % 8, (a + n) % 8)])

/-- The bank of a scratchpad offset (R67). -/
def bankOf (a : Nat) : Nat := a / 16384

/-- `n` bytes of deep memory (R258). -/
def State.deepRead (s : State) (a n : Nat) : Bytes := SMap.getRun 0 s.deep a n

/-- Writes deep memory; the written 64 B words lose a recorded error. -/
def State.deepWrite (s : State) (a : Nat) (b : Bytes) : State :=
  { s with
    deep := SMap.setRun 0 s.deep a b
    deepErr := s.deepErr.filter (fun p => decide (p.1 < a / 64) || decide ((a + b.length + 63) / 64 ≤ p.1)) }

/-! ### Counters (R409, Table 15.6) -/

/-- The index of counter `n` of a unit's group; `sub` as in Table 15.6. -/
def ctrKey (group unit sub n : Nat) : Nat := ((unit * 128 + sub) * 16 + group) * 8 + n

/-- A packed unit (KIND 4 of Table 15.8): UKIND, UDIE, UCLUSTER, UCORE. -/
def unitNum (kind die cluster core : Nat) : Nat := ((kind * 32 + die) * 512 + cluster) * 64 + core
def coreUnit (c : CoreAt) : Nat := unitNum 0 c.die.val c.pcl.val c.core.val
def coxUnit (k : ClusterAt) : Nat := unitNum 1 k.die.val k.pcl.val 0

/-- The width of a counter: SPAD_CE 16, DENY_COUNT and DEEP_CE 32, the others 48. -/
def ctrMax (group n : Nat) : Nat :=
  if group = 1 ∧ n = 4 then 2 ^ 16 - 1
  else if (group = 1 ∧ n = 5) ∨ (group = 7 ∧ n = 4) then 2 ^ 32 - 1
  else 2 ^ 48 - 1

def State.counter (s : State) (group unit sub n : Nat) : Nat := SMap.get 0 s.ctr (ctrKey group unit sub n)

/-- Adds to a saturating counter. -/
def State.count (s : State) (group unit sub n : Nat) (by_ : Nat := 1) : State :=
  { s with ctr := SMap.set 0 s.ctr (ctrKey group unit sub n) (min (ctrMax group n) (s.counter group unit sub n + by_)) }

/-- Single-bit errors that reads of a core corrected, counted in SPAD_CE (R73). -/
def State.countSoft (s : State) (c : CoreAt) (n : Nat) : State := if n = 0 then s else s.count 1 (coreUnit c) 0 4 n

/-! ### Perturbation slots (R416, R419, Table 16.16) -/

/-- Field of a target word. -/
def slotField (t : BitVec 64) (hi lo : Nat) : Nat := bitsOf t.toNat hi lo
def slotControl (t : BitVec 64) : Nat := slotField t 63 60

/-- The cluster that a target word names. -/
def slotCluster (t : BitVec 64) : Option ClusterAt :=
  if h : slotField t 49 45 < 24 ∧ slotField t 44 36 < 288 then some ⟨⟨slotField t 49 45, h.1⟩, ⟨slotField t 44 36, h.2⟩⟩ else none

/-- Pending check insertions at some targets are discarded (Table 15.11). -/
def HostIf.dropInsertions (h : HostIf) (f : BitVec 64 → Bool) : HostIf :=
  { h with dbg := { h.dbg with slots := SMap.mapVals {} (fun x => if slotControl x.target = 5 ∧ f x.target then { x with left := 0 } else x) h.dbg.slots } }

/-! ### Free values (log entry 3) -/

/-- A value that the spec leaves open, and the state after drawing it. -/
def State.draw (s : State) : BitVec 256 × State := (Config.freeValue s.freeCtr, { s with freeCtr := s.freeCtr + 1 })

/-! ### Rings, interrupts and events (R304, R307-R313, R327) -/

/-- A failed read of host memory is logged (R304). -/
def State.logRead (s : State) (k : FailedRead) : State := { s with host := { s.host with aer := s.host.aer ++ [k] } }

def State.emit (s : State) (o : Output) : State := { s with out := s.out ++ [o] }

def State.ring (s : State) (p : Nat) : Ring := SMap.get {} s.host.rings p

def State.putRing (s : State) (p : Nat) (r : Ring) : State :=
  { s with host := { s.host with rings := SMap.set {} s.host.rings p r } }

def State.modRing (s : State) (p : Nat) (f : Ring → Ring) : State := s.putRing p (f (s.ring p))

/-! ### Descriptors (R314) -/

def Desc.tag (d : Desc) : BitVec 16 := d.bits.extractLsb' 16 16
def Desc.op (d : Desc) : Nat := bitsOf d.bits.toNat 7 0
def Desc.irq (d : Desc) : Bool := d.bits.getLsbD 14
def Desc.order (d : Desc) : Bool := d.bits.getLsbD 15
def Desc.q1 (d : Desc) : BitVec 64 := d.bits.extractLsb' 64 64
def Desc.q2 (d : Desc) : BitVec 64 := d.bits.extractLsb' 128 64
def Desc.q3 (d : Desc) : BitVec 64 := d.bits.extractLsb' 192 64

/-- Replaces a descriptor in progress. -/
def State.putDesc (s : State) (p : Nat) (d : Desc) : State :=
  s.modRing p fun r => { r with inProgress := r.inProgress.map fun x => if x.serial = d.serial then d else x }

/-- The work of a descriptor has ended; its decision is due. -/
def State.endDesc (s : State) (p : Nat) (d : Desc) (status : Nat) (result : Nat) : State :=
  s.putDesc p { d with ended := some (BitVec.ofNat 8 status, BitVec.ofNat 32 result) }

/-- Free entries of a completion, event or telemetry ring of 2^n slots: it holds at most 2^n − 1 (log entry 10). -/
def ringFree (r : Ring) : Nat := 2 ^ r.cqSize.toNat - 1 - r.cqUsed

/-- The write index and phase after one entry (R311). -/
def ringAdvance (r : Ring) : Ring :=
  let i := r.cqWr.toNat + 1
  if 2 ^ r.cqSize.toNat ≤ i then { r with cqWr := 0, cqPhase := !r.cqPhase, cqUsed := r.cqUsed + 1 }
  else { r with cqWr := BitVec.ofNat 16 i, cqUsed := r.cqUsed + 1 }

/-- A vector that nothing has written: masked (R426). -/
def msixReset : BitVec 128 := BitVec.ofNat 128 (2 ^ 96)

def State.msixEntry (s : State) (v : Nat) : BitVec 128 := SMap.get msixReset s.host.msix v

/-- Whether posted writes and messages reach the host. -/
def State.linkLive (s : State) : Bool := s.host.linkUp

/-- A message of a vector can go out: not masked, in D0, the link up (R305, R313, R449). -/
def State.msixOpen (s : State) (v : Nat) : Bool := !(s.msixEntry v).getLsbD 96 && !s.host.d3hot && s.linkLive

/-- Sends the message of a vector, or sets its pending bit while it is masked or the function is in D3hot (R305, R313, R426). -/
def State.sendMsix (s : State) (v : Nat) : State :=
  let e := s.msixEntry v
  if !s.msixOpen v then
    { s with host := { s.host with pba := s.host.pba ||| BitVec.ofNat 64 (2 ^ v) } }
  else if h : v < 64 then s.emit (.msix ⟨v, h⟩ (e.extractLsb' 0 64) (e.extractLsb' 64 32))
  else s

/-- A message that goes out starts its vector's interval (R313). -/
def State.sendPaced (s : State) (v : Nat) : State :=
  let t := s.sendMsix v
  if SMap.get 0 s.host.modIval v = 0 || !s.msixOpen v then t else { t with host := { t.host with modRun := t.host.modRun ||| BitVec.ofNat 64 (2 ^ v) } }

/-- A vector becomes pending with the moderation interval (in µs) of the ring that caused it (R313). -/
def State.pend (s : State) (v : Nat) (interval : BitVec 10) : State :=
  let s : State := { s with host := { s.host with modIval := SMap.set 0 s.host.modIval v interval } }
  if s.host.modRun.getLsbD v then
    { s with host := { s.host with modWait := s.host.modWait ||| BitVec.ofNat 64 (2 ^ v) } }
  else s.sendPaced v

/-- The header of an event entry but for LOST and PHASE (Table 11.11). -/
def eventHeader (s : State) (code : Nat) (src : Option LCore) : Nat :=
  let l := src.getD ⟨0, 0, 0, 0⟩
  (s.time.sc.toNat % 2 ^ 48) * 2 ^ 80 + code * 2 ^ 64 + l.pkg.toNat * 2 ^ 20 + l.die.toNat * 2 ^ 15 + l.cl.toNat * 2 ^ 6 + l.core.toNat

/-- A dropped event (R312). -/
def State.dropEvent (s : State) : State :=
  let r := s.ring 64
  let s := s.putRing 64 { r with lost := if r.lost = 0xFFFF then r.lost else r.lost + 1 }
  { s with host := { s.host with eventLost := true } }

/-- Writes one event entry, header and 48 detail bytes; a ring without a free entry or not enabled drops it (R312, R425). -/
def State.writeEvent (s : State) (header : Nat) (detail : Bytes) : State :=
  let r := s.ring 64
  if r.cqEnable && decide (0 < ringFree r) then
    let h := header + r.lost.toNat * 2 ^ 48 + (if r.cqPhase then 2 ^ 47 else 0)
    let s := s.emit (.hostWrite (r.cqBase + BitVec.ofNat 64 (64 * r.cqWr.toNat))
      (leBytes 16 h ++ (detail ++ List.replicate 48 0).take 48))
    (s.putRing 64 { ringAdvance r with lost := 0 }).pend r.cqVec.toNat r.cqMod
  else s.dropEvent

/-- An event whose entry waits for the PCI Express link (R449): header and detail. -/
def heldEvent (header : Nat) (detail : Bytes) : BitVec 512 :=
  BitVec.ofNat 512 (leNat (leBytes 16 header ++ (detail ++ List.replicate 48 0).take 48))

/-- Raises an event; `detail` starts at byte 16. While the PCI Express link is down the entry is held as ring space allows (R449). -/
def State.raiseEvent (s : State) (code : Nat) (src : Option LCore) (detail : Bytes) : State :=
  let h := eventHeader s code src
  if s.linkLive then s.writeEvent h detail
  else if (s.ring 64).cqEnable && decide (s.host.heldEvents.length < ringFree (s.ring 64)) then
    { s with host := { s.host with heldEvents := s.host.heldEvents ++ [heldEvent h detail] } }
  else s.dropEvent

/-! ### Faults (R353, R354, Table 13.1, Table 16.6) -/

/-- The class of a fault code: 0 program, 1 environment, 2 hardware suspect. DATA_ERROR and CHECK_FAIL depend on where the error
lies and are given their class by the raiser. -/
def faultClass (code : Nat) : BitVec 2 :=
  if [0x06, 0x0A, 0x12, 0x1E, 0x1F, 0x21].contains code then 2
  else if [0x13, 0x14, 0x1B, 0x1C, 0x22, 0x23].contains code then 1
  else 0

def fNumFormat : Nat := 0x01
def fAnchorMismatch : Nat := 0x02
def fNumTrap : Nat := 0x03
def fBankConflict : Nat := 0x04
def fSpadAddr : Nat := 0x05
def fSpadUe : Nat := 0x06
def fDataError : Nat := 0x07
def fAtomicAlign : Nat := 0x08
def fIllegalIssue : Nat := 0x09
def fCheckFail : Nat := 0x0A
def fLandingConflict : Nat := 0x0B
def fSteerToken : Nat := 0x0C
def fSparseMeta : Nat := 0x0D
def fSparseRange : Nat := 0x0E
def fSparseExcess : Nat := 0x0F
def fChannelLen : Nat := 0x10
def fReleaseRange : Nat := 0x11
def fChannelProto : Nat := 0x12
def fOpenFail : Nat := 0x13
def fConnLost : Nat := 0x14
def fCatchArg : Nat := 0x15
def fRouteInvalid : Nat := 0x16
def fReduceProto : Nat := 0x17
def fReduceMismatch : Nat := 0x18
def fFaInvalid : Nat := 0x19
def fWindowDeny : Nat := 0x1A
def fTargetOffline : Nat := 0x1B
def fNoPath : Nat := 0x1C
def fStreamRange : Nat := 0x1D
def fHeartbeatLost : Nat := 0x1E
def fDigestMismatch : Nat := 0x1F
def fPhaseUnknown : Nat := 0x20
def fMeshLinkFail : Nat := 0x21
def fReducePathLost : Nat := 0x22
def fDeepUnavailable : Nat := 0x23

/-- The order in which the faults of one word are recorded (R100): Table 3.9, then Table 2.9, then the others by code (log entry 11). -/
def faultRank (code : Nat) : Nat :=
  if 4 ≤ code ∧ code ≤ 0x0A then code else if code ≤ 3 then 0x10 + code else 0x20 + code

/-- The fault of a word that is recorded among those that arose in it. -/
def firstFault (l : List Nat) : Option Nat :=
  l.foldl (fun a c => match a with
    | none => some c
    | some b => if faultRank c < faultRank b then some c else some b) none

/-- A fault of a word of a core with the class of its code. -/
def raised (core : Fin 64) (slot : BitVec 10) (code : Nat) (detail : BitVec 64 := 0) : Raised :=
  { core := core, slot := slot, code := code, detail := detail, cls := faultClass code }

/-- The job fault log entry of a report (Table 16.6). -/
def faultEntry (s : State) (k : ClusterAt) (f : Raised) : BitVec 256 :=
  let x := s.cluster k
  f.detail ++ x.step ++ BitVec.ofNat 48 x.cycle ++ f.slot ++ BitVec.ofNat 6 f.core.val ++ ((s.logical k).getD 0) ++
    BitVec.ofNat 5 k.die.val ++ BitVec.ofNat 9 k.pcl.val ++ BitVec.ofNat 5 k.die.val ++ f.cls ++ (0 : BitVec 33) ++ (1 : BitVec 1) ++
    BitVec.ofNat 16 f.code

/-- A fault of the job as a whole: zero in the location fields (R429). -/
def jobFaultEntry (code : Nat) (detail : BitVec 64) (cls : BitVec 2 := faultClass code) : BitVec 256 :=
  detail ++ (0 : BitVec 140) ++ cls ++ (0 : BitVec 33) ++ (1 : BitVec 1) ++ BitVec.ofNat 16 code

/-- The faults that are recorded of those that arose in one cycle: of each word of a core the one of the lowest rank (R100). -/
def onePerWord (fs : List Raised) : List Raised :=
  fs.foldl (fun a f =>
    if a.any fun g => decide (g.core = f.core) && decide (g.slot = f.slot) then
      a.map fun g => if g.core = f.core ∧ g.slot = f.slot ∧ faultRank f.code < faultRank g.code then f else g
    else a ++ [f]) []

/-- Halts a cluster on the faults of one cycle; one of each word is reported to Genhan (R56, R100, R353). A cluster that has halted on a fault
reports no later one. -/
def State.haltOn (s : State) (k : ClusterAt) (fs : List Raised) : State :=
  match onePerWord fs with
  | [] => s
  | f :: r =>
    if (s.cluster k).run = .halted then s
    else
      let rs := (f :: r).map fun g => ({ entry := faultEntry s k g, other := g.suspect, offset := g.offset } : Report)
      let s := s.modCluster k fun x => { x with run := .halted, faultCode := some (BitVec.ofNat 16 f.code), stallLine := false }
      { s with genhan := { s.genhan with reports := s.genhan.reports ++ rs } }

/-- Halts a cluster on a fault that no issue word caused: the report names the next word of the given core (R353). -/
def State.haltBy (s : State) (c : CoreAt) (code : Nat) (detail : BitVec 64 := 0) (suspect : Option ClusterAt := none) : State :=
  s.haltOn (clusterOf c) [{ raised c.core (s.core c).slot code detail with suspect := suspect }]

/-- A fault of the job as a whole, reported to Genhan at once. -/
def State.jobFault (s : State) (code : Nat) (detail : BitVec 64 := 0) : State :=
  { s with genhan := { s.genhan with reports := s.genhan.reports ++ [{ entry := jobFaultEntry code detail }] } }

end Sys2Proof.Machine
end

