-- ==== Sys2Proof/Machine/Route.lean ====
section
/-! DEFINITION. Positions, routes and injection (R19, R213 to R216, R259, R283): how a packet gets its routing header. -/

namespace Sys2Proof.Machine

/-- The virtual channel and class of a packet kind (Table 7.2): 0 Control, 1 Reduce, 2 Bulk, 3 Management. -/
def kindVc (k : Nat) : Nat × Nat :=
  match k with
  | 0x0 | 0x2 | 0x3 | 0xA => (2, 0)
  | 0x4 | 0xB => (2, 1)
  | 0x6 | 0x7 => (1, 0)
  | 0xC | 0xD => (3, 0)
  | _ => (0, 0)

/-- Core (0, 0) of a waypoint cluster (R216). -/
def wayPos (w : BitVec 7 × BitVec 7) : Nat × Nat := (w.1.toNat * 8, w.2.toNat * 8)

end Sys2Proof.Machine

namespace Sys2Proof
open Machine

/-! ### Where a packet stands and goes (R213, R230) -/

/-- A Control packet (Table 7.2). -/
def Packet.control (p : Packet) : Bool := decide (kindVc p.pkind.toNat = (0, 0))

def Packet.at_ (p : Packet) : Nat × Nat := (p.col.toNat, p.row.toNat)
def Packet.dest (p : Packet) : Nat × Nat := (bitsOf p.route.toNat 127 118, bitsOf p.route.toNat 117 108)
def Packet.wayIn (p : Packet) : Nat × Nat := wayPos (p.route.extractLsb' 101 7, p.route.extractLsb' 94 7)
def Packet.detour (p : Packet) : Bool := p.route.getLsbD 90
def Packet.phase (p : Packet) : Bool := p.route.getLsbD 89
def Packet.setPhase (p : Packet) : Packet := { p with route := p.route ||| BitVec.ofNat 128 (2 ^ 89) }

/-- PHASE once the waypoint is reached: by a Control packet, anywhere in the waypoint's cluster (R213, R230). -/
def Packet.passing (p : Packet) : Packet :=
  let w := p.wayIn
  let a := p.at_
  if p.detour && !p.phase && (if p.control then decide ((a.1 / 8, a.2 / 8) = (w.1 / 8, w.2 / 8)) else decide (a = w)) then p.setPhase else p

/-- The position that a packet makes for now. -/
def Packet.target (p : Packet) : Nat × Nat := if p.detour && !p.phase then p.wayIn else p.dest

/-- Output ports: 0 north, 1 east, 2 south, 3 west, none for local or the edge port to the companion (R213). -/
def portToward (a t : Nat × Nat) : Option Nat :=
  if a.1 < t.1 then some 1
  else if t.1 < a.1 then some 3
  else if a.2 < t.2 then some 2
  else if t.2 < a.2 then some 0
  else none

/-- The neighbour beyond a port. -/
def beyond (a : Nat × Nat) (port : Nat) : Nat × Nat :=
  match port with
  | 0 => (a.1, a.2 - 1)
  | 1 => (a.1 + 1, a.2)
  | 2 => (a.1, a.2 + 1)
  | _ => (a.1 - 1, a.2)

/-- Where the cox bypass takes a Control packet (R230): to the near edge of the next cluster. -/
def bypass (a : Nat × Nat) (port : Nat) : Nat × Nat :=
  match port with
  | 0 => (a.1, a.2 / 8 * 8 - 1)
  | 1 => ((a.1 / 8 + 1) * 8, a.2)
  | 2 => (a.1, (a.2 / 8 + 1) * 8)
  | _ => (a.1 / 8 * 8 - 1, a.2)

/-- A Control packet for a cox or for a companion: the bypass carries it in its destination cluster too (R230). -/
def Packet.bypassed (p : Packet) : Bool := p.control && (decide (p.pkind = 8) || decide (p.exit ≠ 0))

/-- One hop of a unicast: the port and the next router. A Control packet outside its destination cluster goes cluster by cluster, and only
one for a core takes the routers of that cluster (R230). -/
def Packet.step (p : Packet) : Option (Nat × Nat × Nat) :=
  let t := p.target
  let a := p.at_
  if p.control && decide ((a.1 / 8, a.2 / 8) ≠ (t.1 / 8, t.2 / 8)) then
    (portToward (a.1 / 8, a.2 / 8) (t.1 / 8, t.2 / 8)).map fun d => (d, bypass a d)
  else if p.bypassed then none
  else (portToward a t).map fun d => (d, beyond a d)

/-- The router at which a hop leaves its cluster or its link: the last one on this side. -/
def leaves (a b : Nat × Nat) (port : Nat) : Nat × Nat :=
  match port with
  | 0 => (a.1, b.2 + 1)
  | 1 => (b.1 - 1, a.2)
  | 2 => (a.1, b.2 - 1)
  | _ => (b.1 + 1, a.2)

/-- A packet before its first flit has come to where it will stand. -/
def Packet.arriving (p : Packet) : Packet := { p with wait := none, come := 0, gone := 0 }

/-- A packet in the buffer of the router `b` at the far end of an output port (0 north to 3 west). -/
def Packet.moved (p : Packet) (b : Nat × Nat) (port : Nat) : Packet :=
  { p.arriving with col := BitVec.ofNat 10 b.1, row := BitVec.ofNat 10 b.2, port := BitVec.ofNat 3 ((port + 2) % 4) }

/-- A packet that leaves the mesh at its router: through the local port to a core or cox, or through the edge port to a companion (R213). -/
def Packet.taken (p : Packet) : Packet := { p.arriving with port := if p.exit = 0 then 6 else 7 }

/-! ### Multicast forks (R218) -/

/-- The cores of CMASK at a column and row of the cluster that pass a test. -/
def maskWhere (m : BitVec 128) (f : Nat → Nat → Bool) : BitVec 128 :=
  (List.range 64).foldl (fun r i => if m.getLsbD i && f (i % 8) (i / 8) then r ||| BitVec.ofNat 128 (2 ^ i) else r) 0

/-- The branches of a multicast copy at its fork: along the row of its fork core to the columns that hold targets, then along each column.
Each branch, with its port (none: this core), carries the targets beyond it. -/
def Packet.fork (p : Packet) : List (Option Nat × Packet) :=
  let a := p.at_
  let c := a.1 % 8
  let r := a.2 % 8
  let inRow := decide (a.2 = p.dest.2)
  let part (f : Nat → Nat → Bool) : BitVec 128 := maskWhere p.route f
  let l := [(none, part fun x y => decide (x = c) && decide (y = r)),
    (some 1, if inRow then part fun x _ => decide (c < x) else 0),
    (some 3, if inRow then part fun x _ => decide (x < c) else 0),
    (some 0, part fun x y => decide (x = c) && decide (y < r)),
    (some 2, part fun x y => decide (x = c) && decide (r < y))]
  (l.filter fun b => decide (b.2 ≠ 0)).map fun b =>
    let head : BitVec 128 := if b.1.isSome then p.setPhase.route else p.route
    (b.1, { p with route := head >>> 64 <<< 64 ||| b.2 })

/-- A copy is at its fork core, or on a branch beyond it: the fork core is the lowest target, so a branch no longer names it. -/
def Packet.forking (p : Packet) : Bool :=
  let a := p.at_
  let t := p.dest
  p.route.getLsbD 71 && decide ((a.1 / 8, a.2 / 8) = (t.1 / 8, t.2 / 8)) &&
  (decide (a = t) || (!p.route.getLsbD (t.2 % 8 * 8 + t.1 % 8) &&
    (decide (a.2 = t.2) || decide (maskWhere p.route (fun x _ => decide (x ≠ a.1 % 8)) = 0))))

/-! ### Links and hull channels (R206, R212) -/

/-- The link of an output port of the router at `a`, by its sending end. A hull channel serves the eight edge cores of a cluster row or
column (Table 7.5), so all of them name it by the first. -/
def linkKey (a : Nat × Nat) (port : Nat) : Nat × Nat × Nat :=
  if (port = 1 ∧ a.1 % 96 = 95) ∨ (port = 3 ∧ a.1 % 96 = 0) then (a.1, a.2 / 8 * 8, port)
  else if (port = 0 ∧ a.2 % 192 = 0) ∨ (port = 2 ∧ a.2 % 192 = 191) then (a.1 / 8 * 8, a.2, port)
  else (a.1, a.2, port)

/-- The edge port to a companion (Table 1.3): EXIT 1 moon die, 2 link die, 3 host interface die, 4 Genhan die. -/
def edgePort (exit comp : Nat) : Nat :=
  match exit with
  | 1 => if comp < 2 then 0 else 2
  | 2 => if comp < 4 then 3 else 1
  | 3 => 3
  | _ => 1

/-- No router lies beyond a port: the edge of the package, where companions attach. -/
def atEdge (a : Nat × Nat) (port : Nat) : Bool :=
  (decide (port = 0) && decide (a.2 = 0)) || (decide (port = 1) && decide (a.1 = 767)) || (decide (port = 2) && decide (a.2 = 575)) ||
    (decide (port = 3) && decide (a.1 = 0))

/-- The link that comes in by input port `port` (0 north to 3 west) of the router at `a`: that of the router beyond, or, at the edge of the package,
the hull channel from the companions there, whose direction has the number of its port and 4. -/
def linkInto (a : Nat × Nat) (port : Nat) : Nat × Nat × Nat :=
  if atEdge a port then ((linkKey a port).1, (linkKey a port).2.1, port + 4) else linkKey (beyond a port) ((port + 2) % 4)

/-- The link by which a packet comes to where it stands (or will enter the mesh): into a router's buffer; 8 from the core of the router, 9 from the
reduction unit; 10 to the core, 11 to the cox of a cluster, 12 to a boundary router that answers for the core behind it, and the edge channel to the
companions. -/
def Packet.link (p : Packet) : Nat × Nat × Nat :=
  let a := p.at_
  match p.port.toNat with
  | 4 => (a.1, a.2, 8)
  | 5 => (a.1, a.2, 9)
  | 6 => if p.bypassed then (a.1 / 8 * 8, a.2 / 8 * 8, 11) else (a.1, a.2, 10)
  | 7 => if p.exit = 0 then (a.1, a.2, 12) else linkKey p.dest (edgePort p.exit.toNat p.comp.toNat)
  | d => linkInto a d

/-! ### Buffers (R204, R207, R210) -/

/-- The buffer set of a packet at an input port: 0 Control, 1 Reduce, 2 Bulk request, 3 Bulk response, 4 Management. -/
def Packet.lane (p : Packet) : Nat :=
  match kindVc p.pkind.toNat with
  | (0, _) => 0
  | (1, _) => 1
  | (2, 0) => 2
  | (2, _) => 3
  | _ => 4

/-- Size of an input buffer in flits (Table 7.3). -/
def bufferSize (lane : Nat) (escape : Bool) : Nat :=
  if lane = 0 ∨ lane = 4 then (if escape then 1 else 2) else (if escape then 2 else 4)

/-- A link as one number. -/
def linkNo (l : Nat × Nat × Nat) : Nat := (l.2.1 * 1024 + l.1) * 16 + l.2.2

/-- A buffer at the far end of a link as one number: that of the credit counter of the output port (R207). -/
def bufferNo (l : Nat × Nat × Nat) (lane : Nat) (escape : Bool) : Nat := (linkNo l * 5 + lane) * 2 + (if escape then 1 else 0)

/-- The packet has left the mesh: what it stands in holds one packet of a virtual channel and class at a time. -/
def Packet.out (p : Packet) : Bool := decide (6 ≤ p.port.toNat)

/-- The buffer that holds a packet. -/
def Packet.buffer (p : Packet) : Nat := bufferNo p.link p.lane (p.phase && !p.out)

/-- Two packets stand in one buffer. -/
def sameBuffer (p q : Packet) : Bool := decide (p.buffer = q.buffer)

/-- The i-th packet is the first of its buffer. -/
def firstInBuffer (l : List Packet) (i : Nat) (p : Packet) : Bool := (l.take i).all fun q => !sameBuffer q p

/-- Flits of a routed packet (R204). -/
def Packet.flits (p : Packet) : Nat := bitsOf p.route.toNat 88 82 + 1

/-- Flits of it that stand here. -/
def Packet.here (p : Packet) : Nat := p.come - p.gone

/-- All its flits have come. -/
def Packet.whole (p : Packet) : Bool := decide (p.come = p.flits)

/-- Where a packet goes from its router: for each output, its number (0 north to 3 west, 4 local, 5 the edge port to the companion) and the packet as it
will stand beyond. -/
def Packet.asks (p : Packet) : List (Nat × Packet) :=
  if p.out then []
  else if p.forking then p.fork.map fun b => match b.1 with
    | some d => (d, b.2.moved (beyond p.at_ d) d)
    | none => (4, b.2.taken)
  else match p.passing.step with
    | some (d, b) => [(d, p.passing.moved b d)]
    | none => [(if p.exit = 0 then 4 else 5, p.passing.taken)]

/-- Priority among the Control packets of an output port (Table 7.3): 0 a stop, 1 a catch, 2 another. -/
def Packet.rank (p : Packet) : Nat := if p.pkind ≠ 8 then 2 else if bitsOf p.hdr.toNat 4 0 = 2 then 0 else 1

/-- Whose flit leaves an output port next among the packets whose next flit could (R208), each with its place in a list: Control first, by rank;
otherwise the next in round-robin order after the pointer among Reduce, Bulk request, Bulk response and Management. The order among the input
ports is not given; the model takes the packet that has waited longest (log entry 12). -/
def winner (ptr : Nat) (l : List (Nat × Packet)) : Option Nat :=
  match (List.range 3).findSome? fun r => l.find? fun q => decide (q.2.lane = 0) && decide (q.2.rank = r) with
  | some q => some q.1
  | none => ((List.range 4).findSome? fun i => l.find? fun q => decide (q.2.lane = 1 + (ptr + i) % 4)).map (·.1)

/-- The pointer after a flit of a lane has left (R208). -/
def ptrAfter (ptr lane : Nat) : Nat := if lane = 0 then ptr else lane % 4

end Sys2Proof

namespace Sys2Proof.Machine

/-- Package core column and row of a core (R19). -/
def corePos (c : CoreAt) : Nat × Nat :=
  (c.die.val % 8 * 96 + c.pcl.val % 12 * 8 + c.core.val % 8, c.die.val / 8 * 192 + c.pcl.val / 12 * 8 + c.core.val / 8)

/-- The core of a die at a column and row of the die. -/
def dieCore (die col row : Nat) : Nat × Nat := (die % 8 * 96 + col, die / 8 * 192 + row)

/-- The half-die domain that holds a package position. -/
def domainAt (col row : Nat) : Nat := 2 * (row / 192 * 8 + col / 96) + (row % 192) / 96

/-- Whether the half-die domain at a position is switched on. -/
def State.onAt (s : State) (col row : Nat) : Bool := (SMap.get {} s.domains (domainAt col row)).powered

/-- The positions, one in each half die, that a dimension-ordered leg passes: along the row, then along the column (R213). -/
def legHalves (a b : Nat × Nat) : List (Nat × Nat) :=
  let xs := (List.range 8).filter fun d => decide (min a.1 b.1 / 96 ≤ d) && decide (d ≤ max a.1 b.1 / 96)
  let ys := (List.range 6).filter fun h => decide (min a.2 b.2 / 96 ≤ h) && decide (h ≤ max a.2 b.2 / 96)
  xs.map (fun d => (d * 96, a.2)) ++ ys.map (fun h => (b.1, h * 96))

/-- The cluster column and row of a physical cluster in the package. -/
def clusterCell (k : ClusterAt) : Nat × Nat := (k.die.val % 8 * 12 + k.pcl.val % 12, k.die.val / 8 * 24 + k.pcl.val / 12)

def cellOf (a : Nat × Nat) : Nat × Nat := (a.1 / 8, a.2 / 8)

def between (x a b : Nat) : Bool := decide (min a b ≤ x) && decide (x ≤ max a b)

/-- A leg passes through a cluster that is neither its first nor its last. -/
def legEnters (a b x : Nat × Nat) : Bool :=
  let p := cellOf a
  let q := cellOf b
  decide (x ≠ p) && decide (x ≠ q) && ((decide (x.2 = p.2) && between x.1 p.1 q.1) || (decide (x.1 = q.1) && between x.2 p.2 q.2))

/-- A leg uses the link with this sending end. -/
def legUses (a b : Nat × Nat) (l : Nat × Nat × Nat) : Bool :=
  match l.2.2 with
  | 1 => decide (a.1 ≤ l.1) && decide (l.1 < b.1) && decide (linkKey (l.1, a.2) 1 = l)
  | 3 => decide (b.1 < l.1) && decide (l.1 ≤ a.1) && decide (linkKey (l.1, a.2) 3 = l)
  | 2 => decide (a.2 ≤ l.2.1) && decide (l.2.1 < b.2) && decide (linkKey (b.1, l.2.1) 2 = l)
  | _ => decide (b.2 < l.2.1) && decide (l.2.1 ≤ a.2) && decide (linkKey (b.1, l.2.1) 0 = l)

/-- A position of the mesh lies in a part. -/
def inPart (q : Part) (a : Nat × Nat) : Bool :=
  match q with
  | .cluster k => decide (clusterCell k = cellOf a)
  | .halfDie d => decide (domainAt a.1 a.2 = d.val)
  | _ => false

/-- A leg passes through a part that holds neither of its ends. -/
def partOnLeg (a b : Nat × Nat) (q : Part) : Bool :=
  match q with
  | .cluster k => legEnters a b (clusterCell k)
  | .halfDie d => !inPart q a && !inPart q b && (legHalves a b).any fun x => decide (domainAt x.1 x.2 = d.val)
  | _ => false

/-- A leg enters no blocked area: no switched-off domain, no part that the detours keep clear of, no failed link (R206, R215, R216). -/
def State.legClear (s : State) (a b : Nat × Nat) : Bool :=
  ((legHalves a b).all fun p => s.onAt p.1 p.2) && !s.genhan.avoid.any (partOnLeg a b) && !s.genhan.deadLinks.any (legUses a b)

/-- A route from a to b, through the waypoint if there is one, enters no blocked area (R215, R216). -/
def State.routeClear (s : State) (a b : Nat × Nat) (w : Option (BitVec 7 × BitVec 7)) : Bool :=
  match w with
  | none => s.legClear a b
  | some w => s.legClear a (wayPos w) && s.legClear (wayPos w) b && !s.genhan.avoid.any fun q => inPart q (wayPos w)

/-- The waypoint that a cluster uses toward a logical cluster (R213), or toward the edge of a die (R216). -/
def Cluster.wayTo (x : Cluster) (die cl : Nat) : Option (BitVec 7 × BitVec 7) := SMap.get none x.wp (die * 288 + cl)
def Cluster.wayEdge (x : Cluster) (die : Nat) : Option (BitVec 7 × BitVec 7) := SMap.get none x.edge die

/-- A destination in this package is VALID, switched on and reachable from a core (R215). -/
def State.routeValid (s : State) (c : CoreAt) (l : LCore) : Bool :=
  match s.coreAt l with
  | none => false
  | some d => (s.domain (domainOf (clusterOf d))).powered &&
      s.routeClear (corePos c) (corePos d) ((s.cluster (clusterOf c)).wayTo l.die.toNat l.cl.toNat)

/-- The attach die of a companion for a packet from a position, and the edge core there (R214, R259, R283): EXIT 1 moon die, 2 link die,
3 host interface die, 4 Genhan die. -/
def edgeCore (exit comp : Nat) (a : Nat × Nat) : Nat × Nat × Nat :=
  let dx := a.1 / 96
  let row := a.2 % 192
  match exit with
  | 1 =>
    let x := if comp % 2 = 0 then min dx 3 else max dx 4
    let die := (if comp < 2 then 0 else 16) + x
    let p := dieCore die (a.1 % 96) (if comp < 2 then 0 else 191)
    (die, p.1, p.2)
  | 2 =>
    let die := [0, 8, 8, 16, 7, 15, 15, 23].getD comp 0
    let p := dieCore die (if comp < 4 then 0 else 95) row
    (die, p.1, p.2)
  | 3 => let p := dieCore 8 0 row; (8, p.1, p.2)
  | _ => let p := dieCore 15 95 row; (15, p.1, p.2)

/-- A packet's body (Table 7.2): the header of its kind and the data. -/
def packetBody (p : Packet) : Bytes :=
  (match p.pkind.toNat with
    | 0x2 | 0x3 | 0x9 => leBytes 32 p.hdr.toNat
    | 0x4 => leBytes 16 p.hdr.toNat ++ leBytes 16 p.hdr2.toNat
    | 0xC | 0xD => []
    | _ => leBytes 16 p.hdr.toNat) ++ p.data

/-- Bytes of a packet's body. -/
def bodyLen (p : Packet) : Nat :=
  p.data.length + (match p.pkind.toNat with
    | 0x2 | 0x3 | 0x4 | 0x9 => 32
    | 0xC | 0xD => 0
    | _ => 16)

/-- The flits of a packet behind a header of 16 B (R204). -/
def cutFlits (p : Packet) (header : BitVec 128) : List Bytes :=
  let b := leBytes 16 header.toNat ++ packetBody p ++ List.replicate 64 0
  (List.range ((16 + bodyLen p + 63) / 64)).map fun i => bytesAt b (64 * i) 64

/-- A routing header (Table 7.1). -/
def routeHeader (col row : Nat) (w : Option (BitVec 7 × BitVec 7)) (p : Packet) : BitVec 128 :=
  let vc := kindVc p.pkind.toNat
  let wp := w.getD (0, 0)
  BitVec.ofNat 10 col ++ BitVec.ofNat 10 row ++ wp.1 ++ wp.2 ++ BitVec.ofNat 2 vc.1 ++ BitVec.ofNat 1 vc.2 ++
    (if w.isSome then (1 : BitVec 1) else 0) ++ (0 : BitVec 1) ++ BitVec.ofNat 7 ((16 + bodyLen p + 63) / 64 - 1) ++ p.pkind ++
    p.exit ++ (if p.exit = 1 ∨ p.exit = 2 then p.comp else 0) ++ (0 : BitVec 72)

/-- A packet with the fields that every emitter sets; the rest are zero. -/
def packet (kind : Nat) (src dst : LCore) (hdr : BitVec 256) (data : Bytes := []) (hdr2 : BitVec 128 := 0) : Packet :=
  { pkind := BitVec.ofNat 4 kind, src := src, exit := 0, comp := 0, dst := dst, hdr := hdr, hdr2 := hdr2, data := data,
    route := 0, col := 0, row := 0, hops := 0, dl := false, wait := none }

/-- A packet that leaves for a companion. -/
def toComp (p : Packet) (exit comp : Nat) : Packet := { p with exit := BitVec.ofNat 3 exit, comp := BitVec.ofNat 3 comp }

/-- A packet for its destination: by the link die `link` when that is another package. -/
def toward (p : Packet) (pkg : BitVec 12) (link : BitVec 3) : Packet :=
  if p.dst.pkg = pkg then p else toComp p 2 link.toNat

/-- MCAST and CMASK of a multicast copy (Table 7.1, R218), set before its injection. -/
def copyMask (cmask : BitVec 64) : BitVec 128 := BitVec.ofNat 128 (2 ^ 71) ||| cmask.setWidth 128

/-- The cluster that holds a package position. -/
def clusterAtPos (col row : Nat) : ClusterAt :=
  ⟨⟨(row / 192 % 3) * 8 + col / 96 % 8, by omega⟩, ⟨(row % 192 / 8) * 12 + col % 96 / 8, by omega⟩⟩

/-! ### Boundaries in reset (R373 steps 3 and 4, R395) -/

/-- Nothing passes the boundary of a half-die domain: held in reset, or the domain is off. -/
def State.shut (s : State) (d : Nat) : Bool :=
  let x : Domain := SMap.get {} s.domains d
  x.fifoReset || !x.powered

/-- The boundary FIFOs between two routers are in reset: those of a cluster, or of a half-die domain. -/
def State.barred (s : State) (a b : Nat × Nat) : Bool :=
  decide (cellOf a ≠ cellOf b) && ((s.cluster (clusterAtPos a.1 a.2)).fifoReset || (s.cluster (clusterAtPos b.1 b.2)).fifoReset ||
    (decide (domainAt a.1 a.2 ≠ domainAt b.1 b.2) && (s.shut (domainAt a.1 a.2) || s.shut (domainAt b.1 b.2))))

/-- A position lies behind boundary FIFOs in reset. -/
def State.behind (s : State) (a : Nat × Nat) : Bool := (s.cluster (clusterAtPos a.1 a.2)).fifoReset || s.shut (domainAt a.1 a.2)

/-- Two positions lie behind one such boundary. -/
def State.behindWith (s : State) (a b : Nat × Nat) : Bool :=
  (decide (cellOf a = cellOf b) && (s.cluster (clusterAtPos b.1 b.2)).fifoReset) ||
    (decide (domainAt a.1 a.2 = domainAt b.1 b.2) && s.shut (domainAt b.1 b.2))

/-- From a position behind such a boundary, cluster by cluster toward `t`: the first outside. -/
def State.outside (fuel : Nat) (s : State) (a t : Nat × Nat) : Nat × Nat :=
  match fuel with
  | 0 => a
  | n + 1 =>
    if !s.behind a then a
    else match portToward (cellOf a) (cellOf t) with
      | none => a
      | some d => s.outside n (bypass a d) t

/-- Where a packet makes for from a position. -/
def State.goal (s : State) (a : Nat × Nat) (p : Packet) : Nat × Nat :=
  if p.exit = 0 then (match s.coreAt p.dst with
    | some d => corePos d
    | none => a)
  else let e := edgeCore p.exit.toNat p.comp.toNat a; (e.2.1, e.2.2)

/-- The router at which what a position sends enters the mesh: its own, or, behind a boundary in reset, the boundary router on the way, which answers
for it (R373 step 3). -/
def State.sourceAt (s : State) (a : Nat × Nat) (p : Packet) : Nat × Nat := if s.behind a then s.outside 168 a (s.goal a p) else a

/-- The core behind a boundary in reset that a packet is addressed to lies beyond its next crossing: the boundary router takes it (R373 step 3). -/
def State.stopsAt (s : State) (p : Packet) : Bool :=
  decide (p.exit = 0) && !p.out && !p.forking && (match p.passing.step with
    | some o => s.barred p.at_ o.2 && s.behindWith o.2 p.dest
    | none => false)

/-- Where a packet goes from its router, as `Packet.asks`; output 6: a boundary router takes it. -/
def State.asks (s : State) (p : Packet) : List (Nat × Packet) :=
  if s.stopsAt p then [(6, { p.arriving with port := 7 })] else p.asks

/-- The way of a packet from its source enters no blocked area, but for the one that its destination core lies in (R216); no other is injected. -/
def State.wayOpen (s : State) (p : Packet) : Bool :=
  let t := p.dest
  let leg (a b : Nat × Nat) : Bool :=
    ((legHalves a b).all fun x => s.onAt x.1 x.2 || decide (domainAt x.1 x.2 = domainAt t.1 t.2)) && !s.genhan.avoid.any (partOnLeg a b) &&
      !s.genhan.deadLinks.any (legUses a b)
  (if p.detour then leg p.at_ p.wayIn && leg p.wayIn t && !s.genhan.avoid.any (fun q => inPart q p.wayIn) else leg p.at_ t) &&
    !s.behind p.at_ && (decide (p.exit = 0) || (!s.behind t && !s.genhan.deadLinks.contains (linkKey t (edgePort p.exit.toNat p.comp.toNat))))

/-- Emits a packet at a position: it waits at a port of the router there until its flits enter the mesh (R203, R213). -/
def State.emitAt (s : State) (a : Nat × Nat) (port : Nat) (p : Packet) : State :=
  { s with
    waiting := s.waiting ++ [{ p.arriving with col := BitVec.ofNat 10 a.1, row := BitVec.ofNat 10 a.2, port := BitVec.ofNat 3 port, id := s.emitted }]
    emitted := s.emitted + 1 }

/-- Injects a packet at a core. -/
def State.inject (s : State) (c : CoreAt) (p : Packet) : State := s.emitAt (s.sourceAt (corePos c) p) 4 p

/-- A cluster's reduction unit injects a packet at its own port of core 36's router (R219). -/
def State.injectUnit (s : State) (k : ClusterAt) (p : Packet) : State := s.emitAt (corePos (coreIn k 36)) 5 p

/-- The edge core by which a companion's packet enters that faces a position; where that core lies behind a boundary in reset, the next along the edge,
cluster by cluster, that does not (DESIGN CHOICE, log entry 100). -/
def State.entry (s : State) (exit comp : Nat) (a : Nat × Nat) : Nat × Nat :=
  let e := (edgeCore exit comp a).2
  let base := if comp % 2 = 0 then 0 else 384
  let l := if exit = 1 then (List.range 48).map fun j => (base + (e.1 - base + 8 * j) % 384, e.2)
    else (List.range 24).map fun j => (e.1, e.2 / 192 * 192 + (e.2 + 8 * j) % 192)
  (l.find? fun x => !s.behind x).getD e

/-- A companion sends a packet: it enters by the hull channel at an edge core, whose cox routes it (R214). Which edge core the spec leaves open but
for a link die; `a` is the position whose row or column it faces (DESIGN CHOICE, log entry 100). -/
def State.injectComp (s : State) (exit comp : Nat) (a : Nat × Nat) (p : Packet) : State :=
  s.emitAt (s.entry exit comp a) (edgePort exit comp) p

/-- A packet from a companion to a core, at the edge core that faces the core's column or row (DESIGN CHOICE, log entry 100). -/
def State.injectFrom (s : State) (exit comp : Nat) (dst : CoreAt) (p : Packet) : State := s.injectComp exit comp (corePos dst) p

/-- The cox at a packet's source routes it (R213, R214); none when it names no mapped core. -/
def State.routed (s : State) (p : Packet) : Option Packet :=
  if p.gone ≠ 0 then some p
  else
    let x := s.cluster (clusterAtPos p.at_.1 p.at_.2)
    if p.exit = 0 then (s.coreAt p.dst).map fun d =>
      { p with route := routeHeader (corePos d).1 (corePos d).2 (x.wayTo p.dst.die.toNat p.dst.cl.toNat) p ||| p.route }
    else
      let e := edgeCore p.exit.toNat p.comp.toNat p.at_
      some { p with route := routeHeader e.2.1 e.2.2 (x.wayEdge e.1) p ||| p.route }

/-- A link die has formed a packet that it will itself send on (R284): it stands there, whole. -/
def State.atLink (s : State) (l : Nat) (p : Packet) : State :=
  let e := edgeCore 2 l (0, 0)
  let q := toComp p 2 l
  let q := { q.arriving with route := routeHeader e.2.1 e.2.2 none q, col := BitVec.ofNat 10 e.2.1, row := BitVec.ofNat 10 e.2.2, port := 7, id := s.emitted }
  { s with mesh := s.mesh ++ [{ q with come := q.flits }], emitted := s.emitted + 1 }

/-- The coxes hold new injection (R217). -/
def State.hold (s : State) : State := { s with genhan := { s.genhan with held := true } }

/-- The coxes release injection: what was held enters by the tables as they now stand (R217). -/
def State.release (s : State) : State := { s with genhan := { s.genhan with held := false } }

/-- Every router reports the held virtual channels empty. -/
def State.heldEmpty (s : State) : Bool :=
  (s.mesh.all fun p => p.control || p.out) && s.waiting.all fun p => p.control || decide (p.gone = 0)

/-! ### Arrivals -/

/-- The packet has come whole to where core `i` of its cluster, or its companion, takes it. -/
def delivers (i : Nat) (p : Packet) : Bool :=
  p.whole && (decide (p.port = 7) || (decide (p.port = 6) && (p.bypassed || decide (p.row.toNat % 8 * 8 + p.col.toNat % 8 = i))))

/-- The first packet of the mesh that answers a description and has come whole to its taker: its place in the list. -/
def State.arrivingAt (s : State) (f : Packet → Bool) (i : Nat) : Option Nat :=
  (List.range s.mesh.length).find? fun n => match s.mesh[n]? with
    | some p => f p && delivers i p && firstInBuffer s.mesh n p
    | none => false

def State.arriving (s : State) (f : Packet → Bool) (i : Nat := 0) : Option Packet := (s.arrivingAt f i).bind fun n => s.mesh[n]?

/-- The transaction of the packet that arrives. -/
def State.txnOf (s : State) (f : Packet → Bool) (i : Nat := 0) : Option Nat := (s.arriving f i).bind (·.txn)

/-- A packet of that description is on its way and cannot be taken yet: the arrival has not taken place. -/
def State.waits (s : State) (f : Packet → Bool) (i : Nat := 0) : Bool := (s.mesh ++ s.waiting).any f && (s.arrivingAt f i).isNone

/-- `n` flits of a packet leave its buffer: its credits return (R207), but for those that a cut holds back until it has its count (R416). -/
def State.freeFlits (s : State) (p : Packet) (n : Nat) : State :=
  if p.out then s
  else
    let c := SMap.get (0, 0) s.cuts p.buffer
    { s with
      spent := SMap.set 0 s.spent p.buffer (SMap.get 0 s.spent p.buffer - n)
      cuts := SMap.set (0, 0) s.cuts p.buffer (c.1, min c.1 (c.2 + n)) }

/-- The n-th packet of the mesh leaves it. -/
def State.removeAt (s : State) (n : Nat) (p : Packet) : State := { s with mesh := s.mesh.eraseIdx n }.freeFlits p p.here

/-- The n-th packet of the mesh changes where it stands. -/
def State.setPacket (s : State) (n : Nat) (p : Packet) : State := { s with mesh := s.mesh.set n p }

/-- A packet is lost with every flit of it, wherever they stand. -/
def State.lose (s : State) (id : Nat) : State :=
  let s := (s.mesh.filter fun q => decide (q.id = id)).foldl (fun s q => s.freeFlits q q.here) s
  { s with mesh := s.mesh.filter fun q => decide (q.id ≠ id), waiting := s.waiting.filter fun q => decide (q.id ≠ id) }

/-- A packet that answers the description is taken; when none of the mesh does, it came from outside the model (log entry 12). -/
def State.arrived (s : State) (f : Packet → Bool) (i : Nat := 0) : State :=
  match s.arrivingAt f i with
  | some n => match s.mesh[n]? with
    | some p => s.removeAt n p
    | none => s
  | none => s

/-- What the arrival of a packet does, once it can be taken. -/
def State.onArrival (s : State) (f : Packet → Bool) (i : Nat) (act : State → State) : State := if s.waits f i then s else act (s.arrived f i)

/-- The packet that answers a description carries an inserted check error (R418; the model marks it in bit 0 of `hdr2`). -/
def State.injectedIn (s : State) (f : Packet → Bool) (i : Nat := 0) : Bool :=
  match s.arriving f i with
  | some p => p.hdr2.getLsbD 0
  | none => false

/-- A packet of a kind bound for a core with this header and these bytes. -/
def State.isFor (s : State) (c : CoreAt) (kind : Nat) (hdr : BitVec 256) (data : Bytes) (p : Packet) : Bool :=
  decide (p.pkind.toNat = kind) && decide (p.exit = 0) && decide (p.hdr = hdr) && decide (p.data = data) &&
  (if p.route.getLsbD 71 then decide ((s.coreAt p.dst).map clusterOf = some (clusterOf c)) && p.route.getLsbD c.core.val
   else decide (s.coreAt p.dst = some c))

/-- A packet of a kind bound for a companion with this header and these bytes. -/
def isForComp (exit comp kind : Nat) (hdr : BitVec 256) (data : Bytes) (p : Packet) : Bool :=
  decide (p.pkind.toNat = kind) && decide (p.exit.toNat = exit) && decide (p.comp.toNat = comp) && decide (p.hdr = hdr) &&
  decide (p.data = data)

/-- A link die injects a packet that came from another package (R283). -/
def State.injectLink (s : State) (link : Nat) (p : Packet) : State :=
  let k := p.src.pkg.toNat * 2 ^ 20 + p.src.die.toNat * 2 ^ 15 + p.src.cl.toNat * 2 ^ 6 + p.src.core.toNat
  s.injectComp 2 link (0, k % 192) { p with via := if p.src.pkg = s.pkg then p.via else some link }

/-- The scope of a target from an issuing core (Table 8.4). -/
def scopeOf (self target : LCore) : BitVec 3 :=
  if target.pkg ≠ self.pkg then 4
  else if target.die ≠ self.die then 3
  else if target.cl ≠ self.cl then 2
  else if target.core ≠ self.core then 1
  else 0

end Sys2Proof.Machine
end

