-- ==== Sys2Proof/Machine/Numeric.lean ====
section
/-! DEFINITION. Numbers of the arithmetic contract (02_arithmetic_contract): element formats, exact products, rounding, the exact
accumulator, conversions, FP32 and its correctly rounded functions. -/

namespace Sys2Proof.Machine

/-! ### Formats (R31, R32) -/

/-- Format codes of Table 2.1. -/
inductive Fmt where
  | int8 | e4m3 | e5m2 | mx8e4m3 | mx8e5m2 | mx6e3m2 | mx6e2m3 | mx4 | bf16 | fp32 | int4 | int32 | eaRaw | int64
  deriving DecidableEq, Repr

/-- The format of a code; 0xE and 0xF are reserved (R31). -/
def fmtOf (c : Nat) : Option Fmt :=
  [Fmt.int8, .e4m3, .e5m2, .mx8e4m3, .mx8e5m2, .mx6e3m2, .mx6e2m3, .mx4, .bf16, .fp32, .int4, .int32, .eaRaw, .int64][c]?

/-- An MX format: its blocks carry scale codes (R34). -/
def Fmt.isMx : Fmt → Bool
  | .mx8e4m3 | .mx8e5m2 | .mx6e3m2 | .mx6e2m3 | .mx4 => true
  | _ => false

/-- Bits of one element. -/
def Fmt.bits : Fmt → Nat
  | .int8 | .e4m3 | .e5m2 | .mx8e4m3 | .mx8e5m2 => 8
  | .mx6e3m2 | .mx6e2m3 => 6
  | .mx4 | .int4 => 4
  | .bf16 => 16
  | .fp32 | .int32 => 32
  | .eaRaw => 80
  | .int64 => 64

/-- Special encodings of a floating-point element (Table 2.2). -/
inductive Special where
  | none | nanOnly | ieee
  deriving DecidableEq, Repr

/-- A floating-point layout: exponent bits, fraction bits, bias, special encodings. -/
structure FloatSpec where
  eb : Nat
  mb : Nat
  bias : Int
  special : Special
  deriving DecidableEq, Repr

/-- Layouts of Table 2.2. -/
def Fmt.float : Fmt → Option FloatSpec
  | .e4m3 | .mx8e4m3 => some ⟨4, 3, 7, .nanOnly⟩
  | .e5m2 | .mx8e5m2 => some ⟨5, 2, 15, .ieee⟩
  | .mx6e3m2 => some ⟨3, 2, 3, .none⟩
  | .mx6e2m3 => some ⟨2, 3, 1, .none⟩
  | .mx4 => some ⟨2, 1, 1, .none⟩
  | .bf16 => some ⟨8, 7, 127, .ieee⟩
  | .fp32 => some ⟨8, 23, 127, .ieee⟩
  | _ => none

/-- L of Table 2.2: the exponent of the smallest non-zero magnitude. -/
def Fmt.low : Fmt → Int
  | .e4m3 | .mx8e4m3 => -9
  | .e5m2 | .mx8e5m2 => -16
  | .mx6e3m2 => -4
  | .mx6e2m3 => -3
  | .mx4 => -1
  | .bf16 => -133
  | .fp32 => -149
  | _ => 0

/-- The value of an encoding: NaN, an infinity, or ±m · 2^x (the sign of a zero is kept). -/
inductive Num where
  | nan
  | inf (neg : Bool)
  | fin (neg : Bool) (m : Nat) (x : Int)
  deriving DecidableEq, Repr

/-- The value of a floating-point encoding (R32; subnormals take their exact values, R33). -/
def FloatSpec.val (f : FloatSpec) (b : Nat) : Num :=
  let neg := b.testBit (f.eb + f.mb)
  let e := (b >>> f.mb) % 2 ^ f.eb
  let m := b % 2 ^ f.mb
  let top := 2 ^ f.eb - 1
  if f.special = .ieee ∧ e = top then (if m = 0 then .inf neg else .nan)
  else if f.special = .nanOnly ∧ e = top ∧ m = 2 ^ f.mb - 1 then .nan
  else if e = 0 then .fin neg m (1 - f.bias - f.mb)
  else .fin neg (2 ^ f.mb + m) (e - f.bias - f.mb)

/-- Two's complement of `n` bits. -/
def toSigned (n b : Nat) : Int :=
  let b := b % 2 ^ n
  if b < 2 ^ (n - 1) then (b : Int) else (b : Int) - (2 ^ n : Nat)

/-- The low `n` bits of an integer. -/
def ofSigned (n : Nat) (x : Int) : Nat := (x % ((2 ^ n : Nat) : Int)).toNat

/-- The value of an element of any format. -/
def Fmt.val (f : Fmt) (b : Nat) : Num :=
  match f.float with
  | some s => s.val b
  | none => let x := toSigned f.bits b; .fin (decide (x < 0)) x.natAbs 0

/-! ### Rounding -/

/-- `m · 2^x` rounded to an integer, ties to even; `sticky` adds a part of a unit of the last place that is neither zero nor one. -/
def rneNat (m : Nat) (x : Int) (sticky : Bool := false) : Nat :=
  match x with
  | .ofNat d => m <<< d
  | .negSucc d =>
    let n := d + 1
    let k := m >>> n
    let r := m % 2 ^ n
    let h := 2 ^ (n - 1)
    if h < r ∨ (r = h ∧ (sticky ∨ k % 2 = 1)) then k + 1 else k

/-- Whether `m · 2^x` (with a sticky part) is an integer. -/
def isExact (m : Nat) (x : Int) (sticky : Bool := false) : Bool :=
  !sticky && (match x with
    | .ofNat _ => true
    | .negSucc d => m % 2 ^ (d + 1) == 0)

/-- A signed integer from a sign and a magnitude. -/
def signed (neg : Bool) (m : Nat) : Int := if neg then -(m : Int) else m

/-- The floor of log2 (m · 2^x), m ≠ 0. -/
def log2Floor (m : Nat) (x : Int) : Int := (Nat.log2 m : Int) + x

/-- The exponent of the target quantum of R46 for magnitude m · 2^x: precision p, least exponent emin. -/
def quantumExp (p : Nat) (emin : Int) (m : Nat) (x : Int) : Int := max (log2Floor m x) emin - p + 1

/-- The encoding of a magnitude without its sign after one rounding, exponent unbounded above (R46, R61, R62). Fields grow with the
magnitude, so that a saturation test compares encodings. -/
def encodeMag (p : Nat) (emin : Int) (m : Nat) (x : Int) (sticky : Bool := false) : Nat :=
  if m = 0 then 0 else
  let q := quantumExp p emin m x
  ((q - (emin - p + 1)).toNat) * 2 ^ (p - 1) + rneNat m (x - q) sticky

/-- A floating-point target (Table 2.5 and the MX elements of R62): p, emin, largest finite encoding, canonical NaN, bits, infinity. -/
structure Target where
  p : Nat
  emin : Int
  maxBits : Nat
  nan : Nat
  bits : Nat
  infBits : Option Nat
  deriving DecidableEq, Repr

def tgtE4M3 : Target := ⟨4, -6, 0x7E, 0x7F, 8, none⟩
def tgtE5M2 : Target := ⟨3, -14, 0x7B, 0x7F, 8, some 0x7C⟩
def tgtBF16 : Target := ⟨8, -126, 0x7F7F, 0x7FC0, 16, some 0x7F80⟩
def tgtFP32 : Target := ⟨24, -126, 0x7F7FFFFF, 0x7FC00000, 32, some 0x7F800000⟩
def tgtE3M2 : Target := ⟨3, -2, 0x1F, 0, 6, none⟩
def tgtE2M3 : Target := ⟨4, 0, 0x1F, 0, 6, none⟩
def tgtE2M1 : Target := ⟨2, 0, 0x7, 0, 4, none⟩

/-- The sign bit of a target's encoding. -/
def signBit (bits : Nat) (neg : Bool) : Nat := if neg then 2 ^ (bits - 1) else 0

/-- A magnitude rounded into a target, saturating at the largest finite value; whether it saturated. -/
def Target.round (t : Target) (neg : Bool) (m : Nat) (x : Int) : Nat × Bool :=
  let e := encodeMag t.p t.emin m x
  if t.maxBits < e then (signBit t.bits neg + t.maxBits, true) else (signBit t.bits neg + e, false)

/-- A signed integer rounded into bounds (ea_to_int of R46, R61). -/
def roundInt (neg : Bool) (m : Nat) (x lo hi : Int) : Int × Bool :=
  let r := signed neg (rneNat m x)
  if r < lo then (lo, true) else if hi < r then (hi, true) else (r, false)

/-! ### NUM_STATUS (Table 2.7) -/

def flEaOvf : BitVec 8 := 1
def flInvalid : BitVec 8 := 2
def flOutSat : BitVec 8 := 4
def flVeInvalid : BitVec 8 := 8
def flVeDivZero : BitVec 8 := 16
def flVeOverflow : BitVec 8 := 32
def flVeUnderflow : BitVec 8 := 64
def flVeInexact : BitVec 8 := 128

/-- A flag when a condition holds. -/
def flagIf (b : Bool) (f : BitVec 8) : BitVec 8 := if b then f else 0

/-! ### The exact accumulator (R37, R38) -/

/-- The bound 2^79 − 1 of a number in an EA. -/
def eaMax : Int := 2 ^ 79 - 1

/-- The NaN code −2^79. -/
def eaNan : BitVec 80 := BitVec.ofNat 80 (2 ^ 79)

/-- `ea_add_int` of R38 on the contents of an EA; true when it saturates. -/
def eaAddInt (a : BitVec 80) (t : Term) : BitVec 80 × Bool :=
  if a = eaNan then (a, false)
  else match t with
    | .nan => (eaNan, false)
    | .q x =>
      let s := a.toInt + x
      if eaMax < s then (BitVec.ofInt 80 eaMax, true)
      else if s < -eaMax then (BitVec.ofInt 80 (-eaMax), true)
      else (BitVec.ofInt 80 s, false)

/-- An EA after one contribution. -/
def EA.add (x : EA) (t : Term) : EA :=
  let r := eaAddInt x.a t
  { x with a := r.1, ovf := x.ovf || r.2 }

/-- The contribution that EA raw data makes. -/
def rawTerm (a : BitVec 80) : Term := if a = eaNan then .nan else .q a.toInt

/-- Contributions in order (R452); whether any of them saturated. -/
def EA.addAll (x : EA) (ts : List Term) : EA × Bool :=
  ts.foldl (fun p t => let r := eaAddInt p.1.a t; ({ p.1 with a := r.1, ovf := p.1.ovf || r.2 }, p.2 || r.2)) (x, false)

/-- The product of two values and a scale sum in units of 2^(e − 63), rounded once (R38). -/
def productTerm (u v : Num) (sigma e : Int) : Term :=
  match u, v with
  | .fin na ma xa, .fin nb mb xb => .q (signed (na != nb) (rneNat (ma * mb) (xa + xb + sigma - (e - 63))))
  | _, _ => .nan

/-- One value in units of 2^(e − 63), rounded once (R59). -/
def valueTerm (u : Num) (e : Int) : Term :=
  match u with
  | .fin n m x => .q (signed n (rneNat m (x - (e - 63))))
  | _ => .nan

/-- Re-anchoring (R47): the new EA, and whether it saturated. -/
def EA.reanchor (x : EA) (e' : BitVec 10) : EA × Bool :=
  if x.a = eaNan then ({ x with e := e' }, false)
  else
    let r := signed (decide (x.a.toInt < 0)) (rneNat x.a.toInt.natAbs (x.e.toInt - e'.toInt))
    if eaMax < r then ({ a := BitVec.ofInt 80 eaMax, e := e', ovf := true }, true)
    else if r < -eaMax then ({ a := BitVec.ofInt 80 (-eaMax), e := e', ovf := true }, true)
    else ({ x with a := BitVec.ofInt 80 r, e := e' }, false)

/-- `ea_to_float` of R46: encoding and flags. -/
def eaToFloat (x : EA) (t : Target) : Nat × BitVec 8 :=
  if x.a = eaNan then (t.nan, flInvalid)
  else if x.a = 0 then (0, 0)
  else
    let r := t.round (decide (x.a.toInt < 0)) x.a.toInt.natAbs (x.e.toInt - 63)
    (r.1, flagIf r.2 flOutSat)

/-- `ea_to_int` of R46. -/
def eaToInt (x : EA) (bits : Nat) : Nat × BitVec 8 :=
  if x.a = eaNan then (0, flInvalid)
  else
    let r := roundInt (decide (x.a.toInt < 0)) x.a.toInt.natAbs (x.e.toInt - 63) (-(2 ^ (bits - 1))) (2 ^ (bits - 1) - 1)
    (ofSigned bits r.1, flagIf r.2 flOutSat)

/-- The TE output formats (R83): width in bits, encoding and flags; none for a format that TE.CVT does not produce. -/
def eaConvert (f : Fmt) (x : EA) : Option (Nat × Nat × BitVec 8) :=
  match f with
  | .e4m3 => some (8, eaToFloat x tgtE4M3)
  | .e5m2 => some (8, eaToFloat x tgtE5M2)
  | .int8 => some (8, eaToInt x 8)
  | .bf16 => some (16, eaToFloat x tgtBF16)
  | .fp32 => some (32, eaToFloat x tgtFP32)
  | .int32 => some (32, eaToInt x 32)
  | _ => none

/-! ### Anchor registers (R42, R43, R453) -/

/-- What an anchor register names. -/
structure Anchor where
  fa : Fmt
  fb : Fmt
  e : BitVec 10
  /-- MODE = 1. -/
  explicit : Bool
  deriving DecidableEq, Repr

/-- The check of a whole anchor register at any use (R453); none raises NUM_FORMAT. -/
def anchorOf (r : BitVec 32) : Option Anchor :=
  match fmtOf (r.extractLsb' 20 4).toNat, fmtOf (r.extractLsb' 24 4).toNat with
  | some fa, some fb =>
    if r.extractLsb' 28 3 ≠ 0 then none
    else if r.getLsbD 31 then some ⟨fa, fb, r.extractLsb' 0 10, true⟩
    else if [fa, fb].any (fun f => f == .bf16 || f == .fp32 || f == .eaRaw) then none
    else
      let e := fa.low + fb.low + 63 + (r.extractLsb' 10 10).toInt
      if e < -512 ∨ 511 < e then none else some ⟨fa, fb, BitVec.ofInt 10 e, false⟩
  | _, _ => none

/-- How a legal pair runs on the TE (R33, Table 3.3). -/
inductive PairKind where
  | eight | mx4 | bf16 | int4
  deriving DecidableEq, Repr

/-- The pairs that the TE multiplies (R33). -/
def pairKind (a b : Fmt) : Option PairKind :=
  let e : Fmt → Bool := fun f => match f with
    | .e4m3 | .e5m2 | .mx8e4m3 | .mx8e5m2 | .mx6e3m2 | .mx6e2m3 => true
    | _ => false
  if e a && e b then some .eight
  else match a, b with
    | .int8, .int8 => some .eight
    | .mx4, .mx4 => some .mx4
    | .bf16, .bf16 => some .bf16
    | .int4, .int4 => some .int4
    | _, _ => none

/-! ### FP32 in the vector engine (R57) -/

/-- The value of an FP32 encoding. -/
def fpVal (b : BitVec 32) : Num := (FloatSpec.mk 8 23 127 .ieee).val b.toNat

def fpNan : BitVec 32 := 0x7FC00000
def fpInf (neg : Bool) : BitVec 32 := if neg then 0xFF800000 else 0x7F800000
def fpZero (neg : Bool) : BitVec 32 := if neg then 0x80000000 else 0

/-- A result with its flags. -/
abbrev Fl := BitVec 32 × BitVec 8

/-- A magnitude m · 2^x (plus a sticky part of a unit of x) rounded into FP32: overflow gives infinity, nothing is flushed. Tininess is
detected as `Config.tinyBeforeRounding` says. -/
def fpRound (neg : Bool) (m : Nat) (x : Int) (sticky : Bool := false) : Fl :=
  if m = 0 then (fpZero neg, 0)
  else
    let e := encodeMag 24 (-126) m x sticky
    if tgtFP32.maxBits < e then (fpInf neg, flVeOverflow ||| flVeInexact)
    else
      let inexact := !isExact m (x - quantumExp 24 (-126) m x) sticky
      let tiny :=
        if log2Floor m x < -126 then
          (if rneNat m (x - (log2Floor m x - 23)) sticky < 2 ^ 24 ∨ log2Floor m x < -127 then true
           else Config.tinyBeforeRounding)
        else false
      (BitVec.ofNat 32 (signBit 32 neg + e), flagIf inexact flVeInexact ||| flagIf (inexact && tiny) flVeUnderflow)

/-- The exact sum of two finite values: sign, magnitude, exponent; an exact zero has the sign that both have, else plus. -/
def finSum (n1 : Bool) (m1 : Nat) (x1 : Int) (n2 : Bool) (m2 : Nat) (x2 : Int) : Bool × Nat × Int :=
  let x := min x1 x2
  let s := signed n1 (m1 <<< (x1 - x).toNat) + signed n2 (m2 <<< (x2 - x).toNat)
  if s = 0 then (n1 && n2, 0, x) else (decide (s < 0), s.natAbs, x)

/-- The sum of two values, the first of which may be an exact product (fadd and fma share it). -/
def numAdd (u v : Num) : Fl :=
  match u, v with
  | .nan, _ | _, .nan => (fpNan, 0)
  | .inf a, .inf b => if a = b then (fpInf a, 0) else (fpNan, flVeInvalid)
  | .inf a, _ => (fpInf a, 0)
  | _, .inf b => (fpInf b, 0)
  | .fin n1 m1 x1, .fin n2 m2 x2 => let r := finSum n1 m1 x1 n2 m2 x2; fpRound r.1 r.2.1 r.2.2

/-- The exact product; none for 0 × ∞ (both inputs other than NaN). -/
def numMul (u v : Num) : Option Num :=
  match u, v with
  | .nan, _ | _, .nan => some .nan
  | .inf a, .inf b => some (.inf (a != b))
  | .inf a, .fin b m _ => if m = 0 then none else some (.inf (a != b))
  | .fin a m _, .inf b => if m = 0 then none else some (.inf (a != b))
  | .fin a m x, .fin b n y => some (.fin (a != b) (m * n) (x + y))

def fadd (a b : BitVec 32) : Fl := numAdd (fpVal a) (fpVal b)

/-- The exact flip of a sign bit (NEG2 of Table 3.4). -/
def fneg (a : BitVec 32) : BitVec 32 := a ^^^ 0x80000000

def fsub (a b : BitVec 32) : Fl := fadd a (fneg b)

def fmul (a b : BitVec 32) : Fl :=
  match numMul (fpVal a) (fpVal b) with
  | none => (fpNan, flVeInvalid)
  | some .nan => (fpNan, 0)
  | some (.inf n) => (fpInf n, 0)
  | some (.fin n m x) => fpRound n m x

/-- a · b + c with one rounding. A NaN input sets no flag (R57). -/
def ffma (a b c : BitVec 32) : Fl :=
  if fpVal c = .nan then (fpNan, 0)
  else match numMul (fpVal a) (fpVal b) with
    | none => (fpNan, flVeInvalid)
    | some p => numAdd p (fpVal c)

/-- Order of two values other than NaN: first less than second. -/
def numLt (u v : Num) : Bool :=
  match u, v with
  | .nan, _ | _, .nan => false
  | .inf a, .inf b => a && !b
  | .inf a, _ => a
  | _, .inf b => !b
  | .fin n1 m1 x1, .fin n2 m2 x2 =>
    let x := min x1 x2
    decide (signed n1 (m1 <<< (x1 - x).toNat) < signed n2 (m2 <<< (x2 - x).toNat))

def flt (a b : BitVec 32) : Bool := numLt (fpVal a) (fpVal b)

/-- IEEE equality: neither less, neither NaN. -/
def feq (a b : BitVec 32) : Bool :=
  decide (fpVal a ≠ .nan) && decide (fpVal b ≠ .nan) && !flt a b && !flt b a

/-- fmax: NaN if either is; +0 above −0 (R57). -/
def fmax (a b : BitVec 32) : BitVec 32 :=
  if fpVal a = .nan ∨ fpVal b = .nan then fpNan
  else if flt a b then b else if flt b a then a
  else if a.getLsbD 31 then b else a

/-- fmin: NaN if either is; −0 below +0 (R57). -/
def fmin (a b : BitVec 32) : BitVec 32 :=
  if fpVal a = .nan ∨ fpVal b = .nan then fpNan
  else if flt a b then a else if flt b a then b
  else if a.getLsbD 31 then a else b

/-! ### Correctly rounded functions (R58, Table 2.10) -/

/-- Integer square root, one result bit a step from bit `n − 1` down. -/
def isqrtFrom (n : Nat) (v r : Nat) : Nat :=
  match n with
  | 0 => r
  | k + 1 => let t := r + 2 ^ k; isqrtFrom k v (if t * t ≤ v then t else r)

/-- The integer square root. -/
def isqrt (v : Nat) : Nat := isqrtFrom (Nat.log2 v / 2 + 1) v 0

def frcp (a : BitVec 32) : Fl :=
  match fpVal a with
  | .nan => (fpNan, 0)
  | .inf n => (fpZero n, 0)
  | .fin n m x =>
    if m = 0 then (fpInf n, flVeDivZero)
    else let q := 2 ^ 80 / m; fpRound n q (-80 - x) (decide (q * m ≠ 2 ^ 80))

/-- An even exponent for a magnitude. -/
def evenExp (m : Nat) (x : Int) : Nat × Int := if x % 2 = 0 then (m, x) else (2 * m, x - 1)

def fsqrt (a : BitVec 32) : Fl :=
  match fpVal a with
  | .nan => (fpNan, 0)
  | .inf n => if n then (fpNan, flVeInvalid) else (fpInf false, 0)
  | .fin n m x =>
    if m = 0 then (fpZero n, 0)
    else if n then (fpNan, flVeInvalid)
    else
      let p := evenExp m x
      let v := p.1 <<< 60
      let r := isqrt v
      fpRound false r (p.2 / 2 - 30) (decide (r * r ≠ v))

def frsqrt (a : BitVec 32) : Fl :=
  match fpVal a with
  | .nan => (fpNan, 0)
  | .inf n => if n then (fpNan, flVeInvalid) else (fpZero false, 0)
  | .fin n m x =>
    if m = 0 then (fpInf n, flVeDivZero)
    else if n then (fpNan, flVeInvalid)
    else
      let p := evenExp m x
      let r := isqrt (2 ^ 120 / p.1)
      fpRound false r (-60 - p.2 / 2) (decide (r * r * p.1 ≠ 2 ^ 120))

/-- ln 2 in units of 2^−192. -/
def ln2Fix : Nat := 0xb17217f7d1cf79abc9e3b39803f2f6af40f343267298b62d

/-- The series of e^t in units of 2^−192, from term `i` on. -/
def expSeries (fuel i : Nat) (t term acc : Nat) : Nat :=
  match fuel with
  | 0 => acc
  | k + 1 => let u := (term * t) >>> 192; let v := u / i; expSeries k (i + 1) t v (acc + v)

/-- 2^f for a fraction f of `n` bits, in units of 2^−192, within 2^−180 (log entry 9). -/
def exp2Frac (f n : Nat) : Nat := expSeries 48 1 ((f * ln2Fix) >>> n) (2 ^ 192) (2 ^ 192)

def fexp2 (a : BitVec 32) : Fl :=
  match fpVal a with
  | .nan => (fpNan, 0)
  | .inf n => if n then (fpZero false, 0) else (fpInf false, 0)
  | .fin n m x =>
    if m = 0 then (0x3F800000, 0)
    else if log2Floor m x < -27 then (0x3F800000, flVeInexact)
    else if 8 ≤ log2Floor m x then
      (if n then (fpZero false, flVeUnderflow ||| flVeInexact) else (fpInf false, flVeOverflow ||| flVeInexact))
    else
      let d := (-x).toNat
      let v := signed n (m <<< x.toNat)
      let i := v / ((2 ^ d : Nat) : Int)
      let f := (v % ((2 ^ d : Nat) : Int)).toNat
      if f = 0 then fpRound false 1 i else fpRound false (exp2Frac f d) (i - 192) true

/-- Bits of log2 y for 1 ≤ y < 2 in units of 2^−512: one bit a squaring. -/
def log2Bits (n : Nat) (y acc : Nat) : Nat :=
  match n with
  | 0 => acc
  | k + 1 =>
    let z := (y * y) >>> 512
    if 2 ^ 513 ≤ z then log2Bits k (z >>> 1) (2 * acc + 1) else log2Bits k z (2 * acc)

def flog2 (a : BitVec 32) : Fl :=
  match fpVal a with
  | .nan => (fpNan, 0)
  | .inf n => if n then (fpNan, flVeInvalid) else (fpInf false, 0)
  | .fin n m x =>
    if m = 0 then (fpInf true, flVeDivZero)
    else if n then (fpNan, flVeInvalid)
    else
      let l := Nat.log2 m
      let i : Int := l + x
      if m = 2 ^ l then fpRound (decide (i < 0)) i.natAbs 0
      else
        let b := log2Bits 130 ((m <<< 512) >>> l) 0
        let v : Int := i * ((2 ^ 130 : Nat) : Int) + b
        if v < 0 then fpRound true (v.natAbs - 1) (-130) true else fpRound false v.natAbs (-130) true

/-! ### Conversions in the vector engine (R61-R63) -/

/-- FP32 to a narrower floating-point target (R61). -/
def cvtFloat (t : Target) (a : BitVec 32) : Nat × BitVec 8 :=
  match fpVal a with
  | .nan => (t.nan, 0)
  | .inf n =>
    match t.infBits with
    | some i => (signBit t.bits n + i, 0)
    | none => (signBit t.bits n + t.maxBits, flOutSat)
  | .fin n m x => let r := t.round n m x; (r.1, flagIf r.2 flOutSat)

/-- FP32 to an integer of `bits` bits (R61). -/
def cvtInt (bits : Nat) (a : BitVec 32) : Nat × BitVec 8 :=
  match fpVal a with
  | .nan => (0, flVeInvalid)
  | .inf n => (if n then 2 ^ (bits - 1) else 2 ^ (bits - 1) - 1, flOutSat)
  | .fin n m x =>
    let r := roundInt n m x (-(2 ^ (bits - 1))) (2 ^ (bits - 1) - 1)
    (ofSigned bits r.1, flagIf r.2 flOutSat)

/-- A value that FP32 holds exactly. -/
def numToFp (u : Num) : BitVec 32 :=
  match u with
  | .nan => fpNan
  | .inf n => fpInf n
  | .fin n m x => (fpRound n m x).1

/-- FP32 from a narrower format (R61): exact. -/
def widen (f : Fmt) (b : Nat) : BitVec 32 := numToFp (f.val b)

/-- The MX element targets with emax_elem of R62. -/
def mxTarget : Fmt → Option (Target × Int)
  | .mx8e4m3 => some (tgtE4M3, 8)
  | .mx8e5m2 => some (tgtE5M2, 15)
  | .mx6e3m2 => some (tgtE3M2, 4)
  | .mx6e2m3 => some (tgtE2M3, 2)
  | .mx4 => some (tgtE2M1, 2)
  | _ => none

/-- The floor of log2 of a value's magnitude; none for zero. -/
def numExp (u : Num) : Option Int :=
  match u with
  | .fin _ m x => if m = 0 then none else some (log2Floor m x)
  | _ => none

/-- The largest of some exponents. -/
def maxExp (l : List Num) : Option Int :=
  l.foldl (fun a u => match a, numExp u with
    | none, r => r
    | some p, none => some p
    | some p, some q => some (max p q)) none

/-- One MX block from its values (R62): elements, scale code, flags. -/
def mxBlock (t : Target) (emax : Int) (vs : List (BitVec 32)) : List Nat × Nat × BitVec 8 :=
  let us := vs.map fpVal
  if us.any (fun u => match u with | .fin _ _ _ => false | _ => true) then (us.map fun _ => 0, 0xFF, 0)
  else match maxExp us with
    | none => (us.map fun _ => 0, 0, 0)
    | some top =>
      let x := max (-127) (min 127 (top - emax))
      let rs := us.map fun u => match u with
        | .fin n m y => t.round n m (y - x)
        | _ => (0, false)
      (rs.map (·.1), (x + 127).toNat, flagIf (rs.any (·.2)) flOutSat)

/-- The floor of m·2^x plus u·2^−16 quanta, in quanta 2^q (R63). -/
def floorRandom (m : Nat) (x q : Int) (u : BitVec 16) : Nat :=
  match x - q with
  | .ofNat d => m <<< d
  | .negSucc d => ((m <<< 16) + (u.toNat <<< (d + 1))) >>> (d + 17)

/-- Stochastic rounding of R63 into an integer, with the range test of R61. -/
def cvtIntStochastic (bits : Nat) (u : BitVec 16) (a : BitVec 32) : Nat × BitVec 8 :=
  match fpVal a with
  | .fin n m x =>
    let r := signed n (floorRandom m x 0 u)
    let lo : Int := -(2 ^ (bits - 1))
    let hi : Int := 2 ^ (bits - 1) - 1
    if r < lo then (ofSigned bits lo, flOutSat) else if hi < r then (ofSigned bits hi, flOutSat) else (ofSigned bits r, 0)
  | _ => cvtInt bits a

/-- Stochastic rounding of R63 with the 16 random bits `u`, into a floating-point target. -/
def cvtStochastic (t : Target) (u : BitVec 16) (a : BitVec 32) : Nat × BitVec 8 :=
  match fpVal a with
  | .fin n m x =>
    if m = 0 then (signBit t.bits n, 0)
    else
      let q := quantumExp t.p t.emin m x
      let e := ((q - (t.emin - t.p + 1)).toNat) * 2 ^ (t.p - 1) + floorRandom m x q u
      if t.maxBits < e then (signBit t.bits n + t.maxBits, flOutSat) else (signBit t.bits n + e, 0)
  | _ => cvtFloat t a

end Sys2Proof.Machine
end

