-- ==== Sys2Proof/Machine/Operands.lean ====
section
/-! DEFINITION. The operand forms of an issue word (Table 4.1, Tables 4.2 to 4.7): its fields, loop-nest headers, address-generator
descriptors and ports, VE configuration words, with the checks that need nothing but the word and the core's own tables. -/

namespace Sys2Proof.Machine

/-- An issue word. -/
abbrev Word := BitVec 128

/-- Field [hi:lo] of a word. -/
def fld (w : Word) (hi lo : Nat) : Nat := bitsOf w.toNat hi lo

def seqOp (w : Word) : Nat := fld w 127 124
def seqArg (w : Word) : Nat := fld w 123 112
def seqTarget (w : Word) : Nat := fld w 121 112
def teOp (w : Word) : Nat := fld w 111 108
def teAx (w : Word) : Nat := fld w 107 104
def teOvw (w : Word) : Bool := w.getLsbD 103
def teSpa (w : Word) : Bool := w.getLsbD 102
def teSpb (w : Word) : Bool := w.getLsbD 101
def teArg (w : Word) : Nat := fld w 100 96
def veOp (w : Word) : Nat := fld w 95 92
def veCfgN (w : Word) : Nat := fld w 91 87
def veX (w : Word) : Nat := fld w 86 82
def veY (w : Word) : Nat := fld w 81 77
def veZ (w : Word) : Nat := fld w 76 72
def veD (w : Word) : Nat := fld w 71 67
def ceOp (w : Word) : Nat := fld w 32 29
def ceEp (w : Word) : Nat := fld w 28 25
def ceArg (w : Word) : Nat := fld w 24 17
def ptEn (w : Word) : BitVec 16 := w.extractLsb' 0 16

/-- The five fields of AG g (Table 4.1): operation, advance, descriptor, port, part. -/
def agBase (g : Fin 2) : Nat := if g = 0 then 50 else 33
def agOp (w : Word) (g : Fin 2) : Nat := fld w (agBase g + 16) (agBase g + 15)
def agAdv (w : Word) (g : Fin 2) : Bool := w.getLsbD (agBase g + 14)
def agDesc (w : Word) (g : Fin 2) : Nat := fld w (agBase g + 13) (agBase g + 11)
def agPort (w : Word) (g : Fin 2) : Nat := fld w (agBase g + 10) (agBase g + 6)
def agPart (w : Word) (g : Fin 2) : Nat := fld w (agBase g + 5) (agBase g)

/-! ### Registers of a core -/

def Core.ax' (c : Core) (i : Nat) : BitVec 32 := SMap.get 0 c.ax i
def Core.vreg (c : Core) (i : Nat) : BitVec 512 := SMap.get 0 c.v i
def Core.kreg (c : Core) (i : Nat) : BitVec 32 := SMap.get 0 c.k i
def Core.mreg (c : Core) (i : Nat) : BitVec 16 := SMap.get 0 c.m i
def Core.teEA (c : Core) (i : Nat) : EA := SMap.get {} c.ea i
def Core.laneEA (c : Core) (i : Nat) : LaneEA := SMap.get {} c.lane i
def Core.cfgWord (c : Core) (i : Nat) : BitVec 64 := SMap.get 0 c.veCfg i
def Core.desc (c : Core) (g : Fin 2) (d : Nat) : BitVec 256 := SMap.get 0 c.agd (8 * g.val + d)
def Core.wrappedBit (c : Core) (g : Fin 2) (d : Nat) : Bool := c.wrapped.getLsbD (8 * g.val + d)
def Core.slotWord (c : Core) (p : Nat) : Word := SMap.get 0 c.store p
def Core.sendEp (c : Core) (i : Nat) : SendEp := SMap.get {} c.se i
def Core.recvEp (c : Core) (i : Nat) : RecvEp := SMap.get {} c.re i
/-- The word that the core issues next. -/
def Core.word (c : Core) : Word := c.slotWord c.slot.toNat

/-- Lane i of a vector register (R84). -/
def laneOf (v : BitVec 512) (i : Nat) : BitVec 32 := v.extractLsb' (32 * i) 32

/-- A vector register of 16 lanes. -/
def ofLanes (l : List (BitVec 32)) : BitVec 512 :=
  BitVec.ofNat 512 ((l.take 16).foldr (fun x r => x.toNat + 2 ^ 32 * r) 0)

/-- The 16 lanes of a vector register. -/
def lanes (v : BitVec 512) : List (BitVec 32) := (List.range 16).map (laneOf v)

/-! ### Sequencer -/

/-- Offsets of level n in a header (Table 4.6). -/
def nestFirst (h : BitVec 256) (n : Nat) : Nat := bitsOf h.toNat (36 * n + 9) (36 * n)
def nestLast (h : BitVec 256) (n : Nat) : Nat := bitsOf h.toNat (36 * n + 19) (36 * n + 10)
def nestCount (h : BitVec 256) (n : Nat) : Nat := bitsOf h.toNat (36 * n + 35) (36 * n + 20)
def nestLevels (h : BitVec 256) : Nat := bitsOf h.toNat 218 216
/-- The outermost level of a loaded header. -/
def nestTop (h : BitVec 256) : Nat := nestLevels h - 1

/-- The header at a slot. -/
def Core.headerAt (c : Core) (p : Nat) : BitVec 256 := c.slotWord (p + 1) ++ c.slotWord p

/-- The checks of a NEST on its header (R108); `p` is the header's lower slot. R108 rejects a header whose own two slots lie within the outermost
level; that either of the two suffices is the model's choice (DESIGN CHOICE, log entry 108). -/
def nestOk (h : BitVec 256) (p : Nat) : Bool :=
  let n := nestLevels h
  decide (bitsOf h.toNat 255 219 = 0) && decide (1 ≤ n) && decide (n ≤ 6) &&
  (List.range 6).all (fun j => decide (j < n) || decide (bitsOf h.toNat (36 * j + 35) (36 * j) = 0)) &&
  decide (nestFirst h 0 ≤ nestLast h 0) &&
  (List.range 6).all (fun j => decide (n ≤ j) || decide (j = 0) ||
    (decide (nestFirst h j ≤ nestFirst h (j - 1)) && decide (nestLast h (j - 1) ≤ nestLast h j))) &&
  (decide (p + 1 < nestFirst h (n - 1)) || decide (nestLast h (n - 1) < p))

/-- A slot that is the LAST of some active level. -/
def Core.atLast (c : Core) : Bool :=
  c.nest.active && (List.range (nestTop c.nest.header + 1)).any (fun n => decide (nestLast c.nest.header n = c.slot.toNat))

/-- The branch condition of a word (R107), from the core as it stands. -/
def Core.cond (c : Core) (w : Word) : Bool :=
  match fld w 123 122 with
  | 0 => c.wrappedBit 0 (agDesc w 0)
  | 1 => c.wrappedBit 1 (agDesc w 1)
  | 2 => (c.mreg 0).getLsbD 0
  | _ => decide (c.mreg 0 ≠ 0)

/-- The loop rules of R109 from level n on, with `fuel` levels left: the slot to go to, if any level repeats, and the counters. -/
def loopStep (h : BitVec 256) (p : Nat) (fuel n : Nat) (i : SMap (BitVec 16)) : Option Nat × SMap (BitVec 16) :=
  match fuel with
  | 0 => (none, i)
  | k + 1 =>
    if p = nestLast h n then
      if (SMap.get 0 i n).toNat < nestCount h n then
        (some (nestFirst h n), SMap.set 0 i n (SMap.get 0 i n + 1))
      else loopStep h p k (n + 1) (SMap.set 0 i n 0)
    else loopStep h p k (n + 1) i

/-- The next slot by the loop rules of R109, otherwise p + 1; none past slot 1,023. -/
def Core.fall (c : Core) : Option Nat × Nest :=
  let p := c.slot.toNat
  let next := if p = 1023 then none else some (p + 1)
  if c.nest.active then
    let h := c.nest.header
    match loopStep h p (nestTop h + 1) 0 c.nest.i with
    | (some t, i) => (some t, { c.nest with i := i })
    | (none, i) =>
      if p = nestLast h (nestTop h) then (next, { c.nest with active := false, i := i }) else (next, { c.nest with i := i })
  else (next, c.nest)

/-- The nest after a jump to slot t: leaving the outermost level ends it (R109). -/
def Core.leave (c : Core) (t : Nat) : Nest :=
  let h := c.nest.header
  if c.nest.active && (decide (t < nestFirst h (nestTop h)) || decide (nestLast h (nestTop h) < t)) then
    { c.nest with active := false, i := [] }
  else c.nest

/-- The checks of the sequencer's fields (R105 to R109): true when the word raises ILLEGAL_ISSUE. `cond` is the branch condition. At the LAST slot
of an active level R109 demands NEXT and names the fault for JUMP and BRANCH; that HALT and NEST raise it too is the model's choice (DESIGN
CHOICE, log entry 109). -/
def Core.seqIllegal (c : Core) (w : Word) (cond : Bool) : Bool :=
  let a := seqArg w
  c.marks.contains c.slot.toNat ||
  (match seqOp w with
    | 0 => decide (a ≠ 0) || (c.fall).1.isNone
    | 1 => decide (1024 ≤ a) || c.atLast
    | 2 => c.atLast || (!cond && (c.fall).1.isNone)
    | 3 => decide (1023 ≤ a) || c.atLast || c.nest.active || !nestOk (c.headerAt a) a
    | 4 => decide (a ≠ 0) || c.atLast
    | _ => true)

/-! ### Address generators -/

def descWidth (d : BitVec 256) : Nat := 4 * 2 ^ bitsOf d.toNat 241 240
def descBase (d : BitVec 256) : Nat := bitsOf d.toNat 232 216
def descCount (d : BitVec 256) (n : Nat) : Nat := bitsOf d.toNat (36 * n + 35) (36 * n + 20)
def descStride (d : BitVec 256) (n : Nat) : Int := toSigned 20 (bitsOf d.toNat (36 * n + 19) (36 * n))

def Core.agI (c : Core) (g : Fin 2) (d n : Nat) : BitVec 16 := SMap.get 0 c.agi (6 * (8 * g.val + d) + n)

/-- ag_address of R90. -/
def Core.agAddr (c : Core) (g : Fin 2) (d : Nat) : Int :=
  let x := c.desc g d
  (List.range 6).foldl (fun a n => a + ((c.agI g d n).toNat : Int) * descStride x n) (descBase x : Int)

/-- ag_advance of R90 from level n on: the counters, and whether the nest wrapped. -/
def advanceFrom (x : BitVec 256) (fuel n : Nat) (i : List (BitVec 16)) : List (BitVec 16) × Bool :=
  match fuel with
  | 0 => (i, true)
  | k + 1 =>
    let v := i.getD n 0
    if v.toNat + 1 ≤ descCount x n then (i.set n (v + 1), false) else advanceFrom x k (n + 1) (i.set n 0)

/-- A descriptor advanced (R90). -/
def Core.agAdvance (c : Core) (g : Fin 2) (d : Nat) : Core :=
  let b := 8 * g.val + d
  let r := advanceFrom (c.desc g d) 6 0 (SMap.getRun 0 c.agi (6 * b) 6)
  { c with agi := SMap.setRun 0 c.agi (6 * b) r.1,
           wrapped := if r.2 then c.wrapped ||| BitVec.ofNat 16 (2 ^ b) else c.wrapped }

/-- AG.RESET (R90). -/
def Core.agReset (c : Core) (g : Fin 2) (d : Nat) : Core :=
  let b := 8 * g.val + d
  { c with agi := SMap.setRun 0 c.agi (6 * b) (List.replicate 6 0), wrapped := c.wrapped &&& ~~~(BitVec.ofNat 16 (2 ^ b)) }

/-- The neighbour of a core of its cluster in a direction (0 N, 1 E, 2 S, 3 W); none at the cluster edge (R97). -/
def neighbour (i : Fin 64) (dir : Nat) : Option (Fin 64) :=
  let x := i.val % 8
  let y := i.val / 8
  match dir with
  | 0 => if y = 0 then none else some ⟨i.val - 8, by omega⟩
  | 1 => if h : x = 7 then none else some ⟨i.val + 1, by omega⟩
  | 2 => if h : y = 7 then none else some ⟨i.val + 8, by omega⟩
  | _ => if x = 0 then none else some ⟨i.val - 1, by omega⟩

/-- The destination of an AG read (Table 4.4): none for a code, part or width that does not exist. The transpose unit is code 0x06. -/
def readDest (port part width : Nat) : Option Dest :=
  match port with
  | 0x00 => if part < 2 ∧ 16 ≤ width then some (.latchA (part == 1)) else none
  | 0x01 => if part < 2 ∧ 16 ≤ width then some (.latchB (part == 1)) else none
  | 0x02 => if part = 0 ∧ width ≤ 16 then some .metadata else none
  | 0x03 => if part = 0 ∧ width = 4 then some .scaleA else none
  | 0x04 => if part = 0 ∧ width = 4 then some .scaleB else none
  | 0x05 => if h : part < 5 then (if width = 32 then some (.eaIn ⟨part, h⟩) else none) else none
  | 0x06 => if part < 2 ∧ width = 32 then some (.transpose (part == 1)) else none
  | 0x07 => if h : part / 2 < 32 then (if width = 32 then some (.vreg ⟨part / 2, h⟩ (part % 2 == 1)) else none) else none
  | 0x08 => if h : part < 16 then (if width = 4 then some (.kreg ⟨part, h⟩) else none) else none
  | 0x09 => if h : part < 16 then (if width = 32 then some (.ptOut ⟨part, h⟩) else none) else none
  | _ => none

/-- The bytes that a write source offers, in the part named (R83, R91, Table 4.4): none where the source does not exist. -/
def Core.writeSource (c : Core) (port part width : Nat) : Option Bytes :=
  match port with
  | 0x07 => if part < 64 ∧ width = 32 then some ((leBytes 64 (c.vreg (part / 2)).toNat).drop (32 * (part % 2))) else none
  | 0x0A => if part < 5 then some ((leBytes 160 c.teOut.toNat).drop (32 * part)) else none
  | 0x0B => if part < 16 then some (leBytes 32 (SMap.get 0 c.ptIn part).toNat) else none
  | _ => none

/-- An AG read or write of a word names something that does not exist, or the unused fields of an idle or resetting AG are not zero
(R106, R111). A branch on the AG's condition may name a descriptor beside an idle AG. -/
def Core.agIllegal (c : Core) (i : Fin 64) (w : Word) (g : Fin 2) : Bool :=
  let port := agPort w g
  let part := agPart w g
  let width := descWidth (c.desc g (agDesc w g))
  match agOp w g with
  | 0 => agAdv w g || decide (port ≠ 0) || decide (part ≠ 0) ||
      (decide (agDesc w g ≠ 0) && !(decide (seqOp w = 2) && decide (fld w 123 122 = g.val)))
  | 1 => (match readDest port part width with
      | none => true
      | some (.ptOut o) => (neighbour i (o.val / 4)).isNone
      | some _ => false)
  | 2 => (c.writeSource port part width).isNone
  | _ => agAdv w g || decide (port ≠ 0) || decide (part ≠ 0)

/-- Both AGs name one port with one part (R111). -/
def agClash (w : Word) : Bool :=
  let busy : Fin 2 → Bool := fun g => decide (agOp w g = 1) || decide (agOp w g = 2)
  busy 0 && busy 1 && decide (agPort w 0 = agPort w 1) && decide (agPart w 0 = agPart w 1)

/-- A schedule access out of range or misaligned (R68). -/
def Core.agBadAddr (c : Core) (w : Word) (g : Fin 2) : Bool :=
  if agOp w g = 1 ∨ agOp w g = 2 then
    let a := c.agAddr g (agDesc w g)
    let n := descWidth (c.desc g (agDesc w g))
    decide (a < 0) || decide (131072 ≤ a) || decide (a % n ≠ 0)
  else false

/-- The local form of RATOMIC (R240). -/
def localAtomic (w : Word) : Bool := decide (ceOp w = 7) && decide (128 ≤ ceArg w)

/-- The local form carries an AG0 read into a constant register (R240). -/
def Core.localForm (c : Core) (w : Word) : Bool :=
  decide (agOp w 0 = 1) && decide (agPort w 0 = 8) && decide (descWidth (c.desc 0 (agDesc w 0)) = 4) && decide (agPart w 0 < 16)

/-- The alignment of an atomic (R93): FETCH_ADD32 4, COMPARE_COUNT 8, HIST16 64. -/
def atopAlign (atop : Nat) : Nat := if atop = 0 then 4 else if atop = 1 then 8 else 64

/-! ### VE configuration words (Table 3.4, Table 3.5) -/

/-- A stage byte (stage 1 to 6). -/
def stageByte (x : BitVec 64) (s : Nat) : Nat := bitsOf x.toNat (8 * s - 1) (8 * s - 8)
def stageOn (x : BitVec 64) (s : Nat) : Bool := x.getLsbD (8 * s - 1)
def stageFn (x : BitVec 64) (s : Nat) : Nat := bitsOf x.toNat (8 * s - 2) (8 * s - 4)
def stageIn2 (x : BitVec 64) (s : Nat) : Nat := bitsOf x.toNat (8 * s - 5) (8 * s - 6)
def stageNeg (x : BitVec 64) (s : Nat) : Bool := x.getLsbD (8 * s - 7)
def stageLow (x : BitVec 64) (s : Nat) : Bool := x.getLsbD (8 * s - 8)
def cfgFmt (x : BitVec 64) : Nat := bitsOf x.toNat 59 56
def cfgKsel (x : BitVec 64) : Nat := bitsOf x.toNat 55 52
def cfgMsel (x : BitVec 64) : Nat := bitsOf x.toNat 51 50

/-- The highest FN of a stage (Table 3.5). -/
def stageFnMax (s : Nat) : Nat := [0, 0, 1, 3, 4, 6, 0].getD s 0

/-- A configuration word that raises ILLEGAL_ISSUE when it is used (R85, R86). -/
def cfgIllegal (x : BitVec 64) : Bool :=
  decide (bitsOf x.toNat 63 60 ≠ 0) || decide (bitsOf x.toNat 49 48 ≠ 0) ||
  [1, 2, 3, 4, 5, 6].any (fun s => stageOn x s &&
    (decide (stageFnMax s < stageFn x s) || decide (stageIn2 x s = 3) || (stageLow x s && decide (s ≠ 2)))) ||
  (stageOn x 2 && stageLow x 2 && !stageOn x 1) ||
  (stageOn x 5 && decide (stageFn x 5 = 5) && [1, 2, 3, 4, 6].any (stageOn x)) ||
  (if stageOn x 5 && decide (stageFn x 5 = 5) then !(decide (3 ≤ cfgFmt x) && decide (cfgFmt x ≤ 7))
   else if stageOn x 5 && decide (stageFn x 5 = 6) then !([0, 1, 2, 8, 0xA].contains (cfgFmt x))
   else decide (cfgFmt x ≠ 0))

/-! ### Static checks of the TE and VE fields -/

/-- TE fields that raise ILLEGAL_ISSUE (R106, R110). -/
def teIllegal (w : Word) : Bool :=
  let flags := teOvw w || teSpa w || teSpb w
  match teOp w with
  | 0 => decide (teAx w ≠ 0) || flags || decide (teArg w ≠ 0)
  | 1 => (teSpa w && teSpb w) || decide (teArg w ≠ 0)
  | 2 => decide (teAx w ≠ 0) || flags || decide (16 ≤ teArg w)
  | 3 => decide (teAx w ≠ 0) || flags || decide (teArg w ≠ 0)
  | 4 | 5 | 6 => flags || decide (teArg w ≠ 0)
  | _ => true

/-- The modes of PSELECT (Table 5.9): which of X, Y, Z, D and MSEL a mode uses. -/
def pselIllegal (w : Word) : Bool :=
  let x := decide (veX w ≠ 0); let y := decide (veY w ≠ 0); let z := decide (veZ w ≠ 0); let d := decide (veD w ≠ 0)
  let m := decide (veCfgN w % 4 ≠ 0)
  match veCfgN w / 4 with
  | 0 | 1 => y
  | 2 => false
  | 3 => x || y || z || m
  | 4 => y || d
  | 5 => y || m
  | _ => true

/-- VE fields that raise ILLEGAL_ISSUE (R106, R110, R148, R151, R163). -/
def Core.veIllegal (c : Core) (w : Word) : Bool :=
  let g := decide (veCfgN w ≠ 0); let x := decide (veX w ≠ 0); let y := decide (veY w ≠ 0)
  let z := decide (veZ w ≠ 0); let d := decide (veD w ≠ 0)
  let top := decide (16 ≤ veCfgN w)
  match veOp w with
  | 0 => g || x || y || z || d
  | 1 => cfgIllegal (c.cfgWord (veCfgN w))
  | 2 | 3 => top || y || z || d
  | 4 => g || x || y || z || d
  | 5 => g || x || z || decide (16 ≤ veY w)
  | 6 => top || y || z || d
  | 7 => g || x || y || z
  | 8 => decide (veCfgN w % 4 ≠ 0) || y || z
  | 9 => decide (veCfgN w % 8 ≠ 0) || decide (veCfgN w / 8 = 3) || !([0, 1, 2, 8, 9].contains (veY w)) || z
  | 0xA => pselIllegal w
  | 0xB => top || x || y || z
  | _ => true

/-! ### Pass-through (Table 4.7, R115) -/

def Core.ptEntry (c : Core) (o : Nat) : BitVec 8 := SMap.get 0 c.ptRoute o

/-- PT_EN bits that raise ILLEGAL_ISSUE (R115). -/
def Core.ptIllegal (c : Core) (i : Fin 64) (w : Word) : Bool :=
  (List.range 16).any fun o => (ptEn w).getLsbD o && (!(c.ptEntry o).getLsbD 4 || (neighbour i (o / 4)).isNone)

end Sys2Proof.Machine
end

