-- ==== Sys2Proof/Machine/Flags.lean ====
section
/-! DEFINITION. NUM_STATUS and its traps (R54, R55). -/

namespace Sys2Proof.Machine

/-- Sets flags of NUM_STATUS (Table 2.7). -/
def Core.setFlags (c : Core) (f : BitVec 8) : Core := { c with numStatus := c.numStatus ||| f.setWidth 32 }

/-- The W1C action on NUM_STATUS (R54, R87). -/
def Core.clearFlags (c : Core) (f : BitVec 8) : Core := { c with numStatus := c.numStatus &&& ~~~(f.setWidth 32) }

/-- Whether setting these flags traps: OVF_TRAP, INVALID_TRAP and SAT_TRAP stand at the places of EA_OVF, INVALID and OUT_SAT
(Table 2.7, Table 2.8). -/
def Core.traps (c : Core) (f : BitVec 8) : Bool := decide ((f.setWidth 3 &&& c.numCtrl.setWidth 3) ≠ 0)

end Sys2Proof.Machine
end

