-- ==== Sys2Proof/Machine/Tensor.lean ====
section
/-! DEFINITION. The tensor engine's arithmetic: tiles, sparse operands, products, conversions (R77 to R83, R139 to R142), and what its
operations do to the accumulators when they land. -/

namespace Sys2Proof.Machine

/-- The latches as one TE.MMA reads them. -/
structure Latches where
  a : BitVec 512
  b : BitVec 512
  codes : BitVec 128
  sa : BitVec 32
  sb : BitVec 32
  deriving DecidableEq, Repr

/-- The latches of a core as they stand. -/
def Core.latches (c : Core) : Latches := ⟨c.latchA, c.latchB, c.metadata, c.scaleA, c.scaleB⟩

/-- Logical Kc of Table 3.3. -/
def kcOf (p : PairKind) (sparse : Bool) : Nat :=
  match p with
  | .eight | .bf16 => if sparse then 8 else 4
  | .mx4 => if sparse then 16 else 8
  | .int4 => 8

/-- Latency of TE.MMA (Table 3.6). -/
def mmaLatency (p : PairKind) (sparse : Bool) : Nat :=
  match p with
  | .bf16 => if sparse then 6 else 5
  | _ => if sparse then 5 else 4

/-- Issue interval of TE.MMA (Table 3.6). -/
def mmaInterval (p : PairKind) : Nat := if p = .bf16 then 2 else 1

/-- Element j of a latch (R79). -/
def latchElem (f : Fmt) (l : BitVec 512) (j : Nat) : Num := f.val ((l.toNat >>> (f.bits * j)) % 2 ^ f.bits)

/-- The code of group g of row r (R140). -/
def groupCode (p : PairKind) (codes : BitVec 128) (r g : Nat) : Nat :=
  (codes.toNat >>> ((if p = .mx4 then 16 else 8) * r + 4 * g)) % 16

/-- Whether a code is valid for its form (Table 5.2). -/
def codeValid (s14 : Bool) (c : Nat) : Bool := if s14 then decide (c < 4) else decide (c % 4 < c / 4)

/-- Every code of the four rows is valid (R142). -/
def codesValid (p : PairKind) (codes : BitVec 128) (s14 : Bool) : Bool :=
  (List.range 4).all fun r => (List.range (kcOf p true / 4)).all fun g => codeValid s14 (groupCode p codes r g)

/-- The slot of a sparse operand that holds position k of row r, if any (R139). -/
def slotOf (p : PairKind) (codes : BitVec 128) (s14 : Bool) (r k : Nat) : Option Nat :=
  let g := k / 4
  let c := groupCode p codes r g
  if c % 4 = k % 4 then some (2 * g)
  else if !s14 && decide (c / 4 = k % 4) then some (2 * g + 1)
  else none

/-- The element of an operand at row (or column) r and position k; none at a skipped position. -/
def operandElem (f : Fmt) (l : BitVec 512) (kc : Nat) (sparse : Option (PairKind × BitVec 128 × Bool)) (r k : Nat) : Option Num :=
  match sparse with
  | none => some (latchElem f l (r * kc + k))
  | some (p, codes, s14) => (slotOf p codes s14 r k).map fun j => latchElem f l (r * (kc / 2) + j)

/-- The scale code of row r of an operand: 127 for a format without scales (R81). -/
def scaleCode (f : Fmt) (s : BitVec 32) (r : Nat) : Nat := if f.isMx then (s.toNat >>> (8 * r)) % 256 else 127

/-- Whether a value is NaN or infinite. -/
def Num.special : Num → Bool
  | .fin _ _ _ => false
  | _ => true

/-- What one logical position contributes (R38, R40): a product, or at a skipped position zero unless NaN rules apply. -/
def positionTerm (u v : Option Num) (sa sb : Nat) (e : Int) : Term :=
  if sa = 255 ∨ sb = 255 then .nan
  else match u, v with
    | some a, some b => productTerm a b ((sa : Int) - 127 + (sb - 127)) e
    | some a, none => if a.special then .nan else .q 0
    | none, some b => if b.special then .nan else .q 0
    | none, none => .q 0

/-- The terms of the 16 EAs, each in ascending k (R78, R452). -/
def mmaTerms (l : Latches) (sparseCtrl : BitVec 32) (w : Word) (p : PairKind) (an : Anchor) : List (List Term) :=
  let kc := kcOf p (teSpa w || teSpb w)
  let spa := if teSpa w then some (p, l.codes, sparseCtrl.getLsbD 0) else none
  let spb := if teSpb w then some (p, l.codes, sparseCtrl.getLsbD 1) else none
  (List.range 16).map fun i =>
    (List.range kc).map fun k =>
      positionTerm (operandElem an.fa l.a kc spa (i / 4) k) (operandElem an.fb l.b kc spb (i % 4) k)
        (scaleCode an.fa l.sa (i / 4)) (scaleCode an.fb l.sb (i % 4)) an.e.toInt

/-- The anchor that the EAs hold in issue order (R40). -/
def Core.issueAnchor (c : Core) : BitVec 10 :=
  match c.teIss with
  | some e => e
  | none => (c.teEA 0).e

/-- The K extent fails at the closing of an operation (R35). -/
def Core.badExtent (c : Core) : Bool := c.teOpen && c.teMx && decide (c.teK ≠ 0)

/-- The faults of a word's TE operation other than ILLEGAL_ISSUE from its fields; `t` is the issue cycle. -/
def Core.teFaults (c : Core) (w : Word) (t : Nat) : List Nat :=
  let num (b : Bool) : List Nat := if b then [fNumFormat] else []
  match teOp w with
  | 1 =>
    let late := match c.lastMma with
      | some (t0, n) => if t < t0 + n then [fIllegalIssue] else []
      | none => []
    late ++ (match anchorOf (c.ax' (teAx w)) with
      | none => [fNumFormat]
      | some an =>
        match pairKind an.fa an.fb with
        | none => [fNumFormat]
        | some p =>
          let sparse := teSpa w || teSpb w
          (if sparse && p == .int4 then [fIllegalIssue] else []) ++
          num (teOvw w && c.badExtent) ++
          (if !teOvw w && decide (an.e ≠ c.issueAnchor) then [fAnchorMismatch] else []) ++
          (if sparse && p != .int4 &&
              !codesValid p c.metadata (c.sparseCtrl.getLsbD (if teSpa w then 0 else 1)) then [fSparseMeta] else []))
  | 2 => num (c.badExtent || (match fmtOf (teArg w) with
      | none => true
      | some f => (eaConvert f {}).isNone))
  | 3 => num c.badExtent
  | 4 | 6 => num (c.badExtent || (anchorOf (c.ax' (teAx w))).isNone)
  | 5 => match anchorOf (c.ax' (teAx w)) with
    | none => [fNumFormat]
    | some an => if an.e ≠ c.issueAnchor then [fAnchorMismatch] else []
  | _ => []

/-! ### Landing -/

/-- The 16 EAs changed one by one; whether any saturated. -/
def mapEAs (c : Core) (f : Nat → EA → EA × Bool) : SMap EA × Bool :=
  (List.range 16).foldl (fun p i => let r := f i (c.teEA i); (SMap.set {} p.1 i r.1, p.2 || r.2)) (c.ea, false)

/-- The EAs after a TE.MMA and the flags it sets (R38, R40). -/
def Core.landMma (c : Core) (ovw : Bool) (anchor : BitVec 10) (terms : List (List Term)) : Core × BitVec 8 :=
  let r := mapEAs c fun i x => (if ovw then { a := 0, e := anchor, ovf := false } else x : EA).addAll (terms.getD i [])
  ({ c with ea := r.1 }, flagIf r.2 flEaOvf ||| flagIf (terms.any fun l => l.any (· == .nan)) flInvalid)

def Core.landEaLoad (c : Core) (anchor : BitVec 10) (vals : List (BitVec 80)) : Core × BitVec 8 :=
  let r := mapEAs c fun i _ => ({ a := vals.getD i 0, e := anchor, ovf := false }, false)
  ({ c with ea := r.1 }, 0)

def Core.landEaAdd (c : Core) (vals : List (BitVec 80)) : Core × BitVec 8 :=
  let r := mapEAs c fun i x => x.addAll [rawTerm (vals.getD i 0)]
  ({ c with ea := r.1 }, flagIf r.2 flEaOvf)

def Core.landReanchor (c : Core) (anchor : BitVec 10) : Core × BitVec 8 :=
  let r := mapEAs c fun _ x => x.reanchor anchor
  ({ c with ea := r.1 }, flagIf r.2 flEaOvf)

/-- The 16 values of the EA-in latch (R77). -/
def Core.eaInVals (c : Core) : List (BitVec 80) := (List.range 16).map fun i => c.eaIn.extractLsb' (80 * i) 80

/-- The bytes of TE.CVT's output tile and its flags (R83). -/
def Core.cvtTile (c : Core) (f : Fmt) : Bytes × BitVec 8 :=
  (List.range 16).foldl (fun p i => match eaConvert f (c.teEA i) with
    | some (n, v, fl) => (p.1 ++ leBytes (n / 8) v, p.2 ||| fl)
    | none => p) ([], 0)

/-- The bytes of TE.EASTORE and its flags (R48, R83). -/
def Core.eaStoreBytes (c : Core) : Bytes × BitVec 8 :=
  ((List.range 16).flatMap fun i => leBytes 10 (c.teEA i).a.toNat,
   flagIf ((List.range 16).any fun i => (c.teEA i).ovf) flEaOvf)

/-- Replaces bytes of a wide register from byte `off` on. -/
def putBytes {n : Nat} (x : BitVec n) (off : Nat) (b : Bytes) : BitVec n :=
  let m := BitVec.ofNat n ((2 ^ (8 * b.length) - 1) <<< (8 * off))
  (x &&& ~~~m) ||| BitVec.ofNat n (leNat b <<< (8 * off))

/-! ### Transpose unit (R92, R144, R145) -/

/-- The 16 elements of an 8-bit block in block form. -/
def blockElems (b : Bytes) : List (Option Byte) :=
  let mask := numAt b 8 2
  ((List.range 16).foldl (fun (p : List (Option Byte) × Nat) i =>
    if mask.testBit i then (p.1 ++ [some (b.getD p.2 0)], p.2 + 1) else (p.1 ++ [none], p.2)) ([], 0)).1

/-- The checks of R143 on a block that do not depend on the transposition. -/
def blockClean (b : Bytes) : Bool :=
  let mask := numAt b 8 2
  let n := (List.range 16).countP fun i => mask.testBit i
  decide (n ≤ 8) && allZero (bytesAt b 10 6) && allZero ((b.take 8).drop n)

/-- The transpose of 16 elements (R144). -/
def transposeElems (l : List (Option Byte)) : List (Option Byte) :=
  (List.range 16).map fun i => l.getD ((i % 4) * 4 + i / 4) none

/-- One delivered row in S24 row form: its two slot values and its code (R92); none when it has more than two set bits. -/
def rowForm (row : List (Option Byte)) : Option (Byte × Byte × Nat) :=
  let set := (List.range 4).filter fun c => (row.getD c none).isSome
  let v (c : Nat) : Byte := (row.getD c none).getD 0
  match set with
  | [] => some (0, 0, 4)
  | [c] => if c = 0 then some (v 0, 0, 4) else some (0, v c, 4 * c)
  | [c, d] => some (v c, v d, c + 4 * d)
  | _ => none

/-- What the transpose unit delivers from 32 B: 16 value bytes and four code bytes; none when a check fails (R145). -/
def transposeDeliver (t : Bool) (b : Bytes) : Option (Bytes × Bytes) :=
  let blk (i : Nat) : Bytes := bytesAt b (16 * i) 16
  let el (i : Nat) : List (Option Byte) := if t then transposeElems (blockElems (blk i)) else blockElems (blk i)
  if !blockClean (blk 0) || !blockClean (blk 1) then none
  else
    let rows := (List.range 4).map fun r => (rowForm (((el 0).drop (4 * r)).take 4), rowForm (((el 1).drop (4 * r)).take 4))
    if rows.all fun p => p.1.isSome && p.2.isSome then
      some (rows.flatMap (fun p => match p with
          | (some (a, b, _), some (c, d, _)) => [a, b, c, d]
          | _ => []),
        rows.map (fun p => match p with
          | (some (_, _, g), some (_, _, h)) => BitVec.ofNat 8 (g + 16 * h)
          | _ => 0))
    else none

end Sys2Proof.Machine
end

