-- ==== Sys2Proof/Machine/Segments.lean ====
section
/-! DEFINITION. Tiles and segments (R143, R153 to R158, R273, R274): the block header, its checks, packing from a frame and unpacking into
one. A segment is its 64 B header followed by its payload, padded to a multiple of 16 B. -/

namespace Sys2Proof.Machine

/-! ### Header fields (Table 9.5, Table 5.6) -/

/-- Field [hi:lo] of bytes 16 to 63. -/
def b4 (h : Bytes) (hi lo : Nat) : Nat := bitsOf (numAt h 16 48) hi lo

def segCode (h : Bytes) : Nat := numAt h 0 4
def segTensor (h : Bytes) : Nat := numAt h 6 4
def segRow (h : Bytes) : Nat := numAt h 10 2
def segCol (h : Bytes) : Nat := numAt h 12 2
def segStep (h : Bytes) : Nat := numAt h 14 2
def segKind (h : Bytes) : Nat := b4 h 3 0
def segFmt (h : Bytes) : Nat := b4 h 7 4
def segBform (h : Bytes) : Nat := b4 h 9 8
def segSeglog (h : Bytes) : Nat := b4 h 12 11
def segSeg (h : Bytes) : Nat := b4 h 15 13
def segExtRows (h : Bytes) : Nat := b4 h 79 64
def segExtCols (h : Bytes) : Nat := b4 h 95 80
def segCount (h : Bytes) : Nat := b4 h 111 96
def segPlen (h : Bytes) : Nat := b4 h 127 112
def segBitmap (h : Bytes) : Nat := b4 h 383 128

/-- Tensor ID and block coordinates of bytes 0 to 15, as a fault's detail (R160), in the order of the header: TILE_COL's bit 15
then stands in bit 63 (R160 gives no order: DESIGN CHOICE, log entry 140). -/
def segDetail (h : Bytes) : BitVec 64 := BitVec.ofNat 64 (segTensor h + segRow h * 2 ^ 32 + segCol h * 2 ^ 48)

/-- What Table 5.5 fixes for a format: SEGLOG, bytes of a packed dense block, element bytes of a block form (zero: none), slot size,
whether its blocks are paired, MX scale bytes of a segment. -/
structure FmtRow where
  seglog : Nat
  dense : Nat
  w : Nat
  z : Nat
  paired : Bool
  scale : Nat
  deriving DecidableEq, Repr

/-- Table 5.5. -/
def fmtRow (fmt : Nat) : Option FmtRow :=
  match fmt with
  | 0 | 1 | 2 => some ⟨1, 16, 1, 16, false, 0⟩
  | 3 | 4 => some ⟨1, 16, 0, 16, false, 64⟩
  | 5 | 6 => some ⟨0, 12, 0, 16, false, 128⟩
  | 7 => some ⟨0, 8, 0, 8, true, 128⟩
  | 8 => some ⟨2, 32, 2, 32, false, 0⟩
  | 9 => some ⟨3, 64, 4, 64, false, 0⟩
  | 0xA => some ⟨0, 8, 0, 8, true, 0⟩
  | _ => none

/-- Bytes of a packed block. -/
def FmtRow.packed (f : FmtRow) (bform : Nat) : Nat := if bform = 0 then f.dense else 8 * f.w + 2

/-- FMT, BFORM and KIND form a combination that Table 5.5 and R143 allow. -/
def comboOk (fmt bform kind : Nat) : Bool :=
  match fmtRow fmt with
  | none => false
  | some f => (decide (bform = 0) || (decide (bform ≤ 2) && decide (f.w ≠ 0))) &&
      (decide (kind = 1) || (decide (kind = 2) && decide (f.scale = 0)))

/-- The reserved bits of Tables 9.5 and 5.6 are zero. -/
def reservedOk (h : Bytes) : Bool :=
  decide (numAt h 4 2 = 0) && decide (b4 h 63 16 = 0) && decide (b4 h 10 10 = 0)

/-- The header of a frame that a tile SEND may pack (R181). -/
def frameHeaderOk (h : Bytes) : Bool := decide (segKind h = 1) && comboOk (segFmt h) (segBform h) 1 && reservedOk h

def pad16 (n : Nat) : Nat := (n + 15) / 16 * 16
def pad64 (n : Nat) : Nat := (n + 63) / 64 * 64

/-- Bytes of a segment, padding included. -/
def segLen (h : Bytes) : Nat := 64 + pad16 (segPlen h)

/-- The check of R274 without identity or step: CRC-32C and the bound on PLEN. -/
def draocOk (seg : Bytes) : Bool :=
  decide (segPlen seg ≤ 4016) && decide (segLen seg ≤ seg.length) &&
  decide ((crc32c (List.replicate 4 0 ++ (seg.take (segLen seg)).drop 4)).toNat = segCode seg)

/-- A segment with its code formed (R95, R274). -/
def withCode (seg : Bytes) : Bytes := leBytes 4 (crc32c (List.replicate 4 0 ++ seg.drop 4)).toNat ++ seg.drop 4

/-- The identity check of R274. -/
def identityOk (seg : Bytes) (tensor row col sg : Nat) : Bool :=
  decide (segTensor seg = tensor) && decide (segRow seg = row) && decide (segCol seg = col) && decide (segSeg seg = sg)

/-- Block rows of a segment: the first, and how many (R153). -/
def segRows (f : FmtRow) (sg : Nat) : Nat × Nat := (sg * (16 / 2 ^ f.seglog), 16 / 2 ^ f.seglog)

/-- The block positions of a bitmap in ascending bit order (R155). -/
def bitmapBlocks (bm : Nat) : List (Nat × Nat) := ((List.range 256).filter bm.testBit).map fun i => (i / 16, i % 16)

/-- The coordinate entries of a list-form segment. -/
def listBlocks (seg : Bytes) : List (Nat × Nat) :=
  (List.range (segCount seg)).map fun i => (numAt seg (64 + 4 * i) 2, numAt seg (66 + 4 * i) 2)

/-- Strictly ascending by row, then by column. -/
def ascending (l : List (Nat × Nat)) : Bool :=
  match l with
  | a :: b :: r => (decide (a.1 < b.1) || (decide (a.1 = b.1) && decide (a.2 < b.2))) && ascending (b :: r)
  | _ => true

/-- The bitmap bits of the block rows of a segment. -/
def rowsMask (f : FmtRow) (sg : Nat) : Nat := (2 ^ (16 * (segRows f sg).2) - 1) <<< (16 * (segRows f sg).1)

/-- Number of set bits below 2^256. -/
def popcount256 (x : Nat) : Nat := (List.range 256).countP x.testBit

/-- The header and payload checks of step 2 of R158: false raises SPARSE_META. In list form the model demands SEG = 0 (DESIGN CHOICE, log entry
110): R154 says 'below SEGS', whose count in list form is not given. -/
def segmentOk (seg : Bytes) : Bool :=
  match fmtRow (segFmt seg) with
  | none => false
  | some f =>
    reservedOk seg && comboOk (segFmt seg) (segBform seg) (segKind seg) &&
    allZero (bytesAt seg (64 + segPlen seg) (pad16 (segPlen seg) - segPlen seg)) &&
    (if segKind seg = 1 then
      decide (segSeglog seg = f.seglog) && decide (segSeg seg < 2 ^ f.seglog) &&
      decide (segExtRows seg = 0) && decide (segExtCols seg = 0) &&
      decide (segBitmap seg &&& rowsMask f (segSeg seg) = segBitmap seg) &&
      decide (segCount seg = popcount256 (segBitmap seg)) &&
      decide (segPlen seg = f.scale + segCount seg * f.packed (segBform seg))
    else
      decide (segSeglog seg = 0) && decide (segSeg seg = 0) && decide (segBitmap seg = 0) &&
      decide (1 ≤ segExtRows seg) && decide (1 ≤ segExtCols seg) && decide (segCount seg ≤ 256) &&
      decide (segPlen seg = segCount seg * (4 + f.packed (segBform seg))) && ascending (listBlocks seg))

/-! ### Blocks in a destination (Table 5.7, R156) -/

/-- The byte ranges, from the destination's start, that hold the packed bytes of a block, in order: one slot, or the four rows of a block
in its pair slot. -/
def blockRanges (f : FmtRow) (bform cols row col : Nat) : List (Nat × Nat) :=
  if f.paired then
    let a := 64 + (row * ((cols + 1) / 2) + col / 2) * 16 + 2 * (col % 2)
    [(a, 2), (a + 4, 2), (a + 8, 2), (a + 12, 2)]
  else [(64 + (row * cols + col) * f.z, f.packed bform)]

/-- The last byte, plus one, that a block's slot takes. -/
def slotEnd (f : FmtRow) (cols row col : Nat) : Nat :=
  if f.paired then 64 + (row * ((cols + 1) / 2) + col / 2 + 1) * 16 else 64 + (row * cols + col + 1) * f.z

/-- Bytes of a whole frame of a format (Table 5.7). -/
def frameBytes (f : FmtRow) : Nat := 64 + 256 * f.z + (if f.scale = 0 then 0 else 128)

/-- The rules of R143 on a packed block in block form: popcount, unused slots, rows, and in T24 columns. -/
def blockOk (w bform : Nat) (b : Bytes) : Bool :=
  if bform = 0 then true
  else
    let mask := numAt b (8 * w) 2
    let n := (List.range 16).countP mask.testBit
    decide (n ≤ 8) && allZero ((b.take (8 * w)).drop (n * w)) &&
    (List.range 4).all (fun r => decide ((List.range 4).countP (fun c => mask.testBit (4 * r + c)) ≤ 2)) &&
    (decide (bform ≠ 2) || (List.range 4).all (fun c => decide ((List.range 4).countP (fun r => mask.testBit (4 * r + c)) ≤ 2)))

/-- Cuts bytes into pieces at the places of some ranges. -/
def atRanges (rs : List (Nat × Nat)) (b : Bytes) : List (Nat × Bytes) :=
  match rs with
  | [] => []
  | (a, n) :: r => (a, b.take n) :: atRanges r (b.drop n)

/-- The writes that put a packed block into its slot, padded under R156. -/
def blockWrites (f : FmtRow) (bform cols row col : Nat) (b : Bytes) : List (Nat × Bytes) :=
  if f.paired then atRanges (blockRanges f bform cols row col) b
  else [(64 + (row * cols + col) * f.z, b ++ List.replicate (f.z - b.length) 0)]

/-- The writes of one segment into its destination, in the order of R158, and whether a block broke R143 (the writes stop there). The header
in bitmap form replaces the bitmap rows of the segment only. -/
def unpackWrites (seg : Bytes) : List (Nat × Bytes) × Bool :=
  match fmtRow (segFmt seg) with
  | none => ([], true)
  | some f =>
    let bform := segBform seg
    let n := f.packed bform
    let bitmap := segKind seg = 1
    let cols := if bitmap then 16 else segExtCols seg
    let present := if bitmap then bitmapBlocks (segBitmap seg) else listBlocks seg
    let data := 64 + (if bitmap then f.scale else 4 * segCount seg)
    let rows := segRows f (segSeg seg)
    let todo : List (Nat × Nat) := if bitmap
      then (List.range (16 * rows.2)).map fun i => (rows.1 + i / 16, i % 16) else present
    let blockAt (p : Nat × Nat) : Bytes := match present.findIdx? (· == p) with
      | some i => bytesAt seg (data + i * n) n
      | none => List.replicate n 0
    let good := todo.takeWhile fun p => blockOk f.w bform (blockAt p)
    let ws := good.flatMap fun p => blockWrites f bform cols p.1 p.2 (blockAt p)
    if good.length < todo.length then (ws, true)
    else
      let scales := if f.scale = 0 then [] else [(64 + 256 * f.z + 8 * rows.1, bytesAt seg 64 f.scale)]
      let header := if bitmap then [(0, seg.take 32), (32 + 2 * rows.1, bytesAt seg (32 + 2 * rows.1) (2 * rows.2))] else [(0, seg.take 64)]
      (ws ++ scales ++ header, false)

/-- Whether every list coordinate is inside the extent and every slot inside a destination of `extent` bytes (R158). -/
def rangeOk (seg : Bytes) (extent : Nat) : Bool :=
  match fmtRow (segFmt seg) with
  | none => false
  | some f =>
    if segKind seg = 1 then
      let rows := segRows f (segSeg seg)
      decide (slotEnd f 16 (rows.1 + rows.2 - 1) 15 ≤ extent) &&
      (decide (f.scale = 0) || decide (64 + 256 * f.z + 8 * rows.1 + f.scale ≤ extent))
    else
      (listBlocks seg).all fun p => decide (p.1 < segExtRows seg) && decide (p.2 < segExtCols seg) &&
        decide (slotEnd f (segExtCols seg) p.1 p.2 ≤ extent)

/-! ### Packing (R157) -/

/-- The blocks of segment `sg` of a frame, in payload order. -/
def packBlocks (h : Bytes) (f : FmtRow) (sg : Nat) : List (Nat × Nat) := bitmapBlocks (segBitmap h &&& rowsMask f sg)

/-- The ranges of a frame at byte `base` that segment `sg` carries, in payload order. -/
def packRanges (h : Bytes) (f : FmtRow) (base sg : Nat) : List (Nat × Nat) :=
  (if f.scale = 0 then [] else [(base + 64 + 256 * f.z + 8 * (segRows f sg).1, f.scale)]) ++
  (packBlocks h f sg).flatMap fun p => (blockRanges f (segBform h) 16 p.1 p.2).map fun r => (base + r.1, r.2)

/-- The header of segment `sg` of a frame with header `h`, its code not yet formed. -/
def packHeader (h : Bytes) (f : FmtRow) (sg : Nat) : Bytes :=
  let n := (packBlocks h f sg).length
  let plen := f.scale + n * f.packed (segBform h)
  h.take 16 ++ leBytes 48 (1 + segFmt h * 2 ^ 4 + segBform h * 2 ^ 8 + f.seglog * 2 ^ 11 + sg * 2 ^ 13 + n * 2 ^ 96 +
    plen * 2 ^ 112 + (segBitmap h &&& rowsMask f sg) * 2 ^ 128)

/-- A segment from its header and the payload read, padded, with its code. -/
def packSegment (h payload : Bytes) : Bytes :=
  withCode (h ++ payload ++ List.replicate (pad16 payload.length - payload.length) 0)

end Sys2Proof.Machine
end

