-- ==== Sys2Proof/Machine/Channel.lean ====
section
/-! DEFINITION. Endpoints, rings, credits and the tests that decide whether a channel-engine operation issues, stalls or faults
(R171 to R194, R221, R236 to R243). -/

namespace Sys2Proof.Machine

/-! ### Endpoint fields (Tables 6.1, 6.2, 6.11, 7.7, 4.11) -/

def SendEp.f (e : SendEp) (hi lo : Nat) : Nat := bitsOf e.entry.toNat hi lo
def SendEp.valid (e : SendEp) : Bool := e.entry.getLsbD 127
def SendEp.type (e : SendEp) : Nat := e.f 126 125
def SendEp.mcast (e : SendEp) : Bool := e.entry.getLsbD 124
def SendEp.remote (e : SendEp) : Bool := e.entry.getLsbD 123
def SendEp.srcBase (e : SendEp) : Nat := e.f 107 97 * 64
def SendEp.srcSize (e : SendEp) : Nat := e.f 96 86
def SendEp.group (e : SendEp) : Nat := e.f 85 80
def SendEp.dieField (e : SendEp) : Nat := e.f 67 63
def SendEp.dstEp (e : SendEp) : Nat := e.f 47 44
def SendEp.linkDie (e : SendEp) : Nat := e.f 43 41
def SendEp.altLinkDie (e : SendEp) : Nat := e.f 40 38
def SendEp.altValid (e : SendEp) : Bool := e.entry.getLsbD 37
/-- A stream of a moon die (R265): the endpoint's RSLOTS tells a read stream (15) from a write stream. -/
def SendEp.stream (e : SendEp) : Bool := decide (e.type = 1) && !e.remote && decide (24 ≤ e.dieField)
def SendEp.readStream (e : SendEp) : Bool := e.stream && decide (e.f 118 108 = 15)
def SendEp.moon (e : SendEp) : Nat := e.dieField - 24
def SendEp.streamNo (e : SendEp) : Nat := e.f 62 48
/-- The core named by an endpoint that is not multicast. -/
def SendEp.dst (e : SendEp) (pkg : BitVec 12) : LCore :=
  ⟨if e.remote then e.entry.extractLsb' 68 12 else pkg, e.entry.extractLsb' 63 5, e.entry.extractLsb' 54 9, e.entry.extractLsb' 48 6⟩

def RecvEp.f (e : RecvEp) (hi lo : Nat) : Nat := bitsOf e.entry.toNat hi lo
def RecvEp.valid (e : RecvEp) : Bool := e.entry.getLsbD 127
def RecvEp.type (e : RecvEp) : Nat := e.f 126 125
def RecvEp.remoteOk (e : RecvEp) : Bool := e.entry.getLsbD 124
def RecvEp.seglog (e : RecvEp) : Nat := e.f 119 118
def RecvEp.frames (e : RecvEp) : Nat := e.f 117 110 + 1
def RecvEp.frameStride (e : RecvEp) : Nat := e.f 109 99 * 64
def RecvEp.frameBase (e : RecvEp) : Nat := e.f 98 88 * 64
def RecvEp.slots (e : RecvEp) : Nat := e.f 87 77 + 1
def RecvEp.base (e : RecvEp) : Nat := e.f 76 66 * 64

/-- Slots of a ring that are taken: by records not released, and reserved. -/
def RecvEp.used (e : RecvEp) : Nat := (e.recs.map (·.slots)).sum + (e.resv.map (·.slots)).sum
def RecvEp.free (e : RecvEp) : Nat := e.slots - e.used

/-- A reply ring has room to reserve `n` slots (R239). -/
def RecvEp.canReserve (e : RecvEp) (n : Nat) : Bool :=
  let tail := e.slots - e.wpos
  decide ((if n ≤ tail then n else tail + n) ≤ e.free)

def CatchSt.valid (c : CatchSt) : Bool := c.entry.getLsbD 63
def CatchSt.root (c : CatchSt) : Bool := c.entry.getLsbD 62
def CatchSt.childCount (c : CatchSt) : Nat := bitsOf c.entry.toNat 57 51
def CatchSt.parent (c : CatchSt) : LCore :=
  ⟨c.entry.extractLsb' 39 12, c.entry.extractLsb' 34 5, c.entry.extractLsb' 25 9, 0⟩

def Cluster.catchOf (x : Cluster) (i : Nat) : CatchSt := SMap.get {} x.catches i
def Cluster.putCatch (x : Cluster) (i : Nat) (c : CatchSt) : Cluster := { x with catches := SMap.set {} x.catches i c }

def RedSt.f (r : RedSt) (hi lo : Nat) : Nat := bitsOf r.entry.toNat hi lo
def RedSt.valid (r : RedSt) : Bool := r.entry.getLsbD 255
def RedSt.root (r : RedSt) : Bool := r.entry.getLsbD 254
def RedSt.ret (r : RedSt) : Bool := r.entry.getLsbD 253
def RedSt.mode (r : RedSt) : Nat := r.f 252 251
def RedSt.fmt (r : RedSt) : Nat := r.f 250 247
def RedSt.ax (r : RedSt) : Nat := r.f 246 243
def RedSt.rid (r : RedSt) : Nat := r.f 242 235
def RedSt.elems (r : RedSt) : Nat := r.f 234 225 + 1
def RedSt.children (r : RedSt) : Nat := r.f 224 218
def RedSt.parent (r : RedSt) : LCore := ⟨r.entry.extractLsb' 206 12, r.entry.extractLsb' 201 5, r.entry.extractLsb' 192 9, 0⟩
def RedSt.parentLink (r : RedSt) : BitVec 3 := r.entry.extractLsb' 189 3
def RedSt.target (r : RedSt) : LCore :=
  ⟨r.entry.extractLsb' 177 12, r.entry.extractLsb' 172 5, r.entry.extractLsb' 163 9, r.entry.extractLsb' 157 6⟩
def RedSt.srcBase (r : RedSt) : Nat := r.f 156 146 * 64
def RedSt.replyEp (r : RedSt) : Nat := r.f 145 142
def RedSt.bufCore (r : RedSt) : Fin 64 := ⟨r.f 141 136 % 64, by omega⟩
def RedSt.bufBase (r : RedSt) : Nat := r.f 135 125 * 64
def RedSt.mask (r : RedSt) : BitVec 64 := r.entry.extractLsb' 0 64
/-- Bytes of one element: 10 raw, 8 INT64, 4 FP32. -/
def elemBytes (fmt : Nat) : Nat := if fmt = 0xC then 10 else if fmt = 0xD then 8 else 4
/-- P, W and L of Table 7.7. -/
def RedSt.p (r : RedSt) : Nat := r.elems * elemBytes r.fmt
def RedSt.w (r : RedSt) : Nat := (r.p + 63) / 64
def RedSt.l (r : RedSt) : Nat := (32 + r.p + 63) / 64

def Cluster.redOf (x : Cluster) (i : Nat) : RedSt := SMap.get {} x.reds i
def Cluster.putRed (x : Cluster) (i : Nat) (r : RedSt) : Cluster := { x with reds := SMap.set {} x.reds i r }

def Steer.enabled (t : Steer) : Bool := t.cfg.getLsbD 32
def Steer.tokenEp (t : Steer) : Nat := bitsOf t.cfg.toNat 7 0
def Steer.dataEp (t : Steer) : Nat := bitsOf t.cfg.toNat 15 8
def Steer.outMask (t : Steer) : BitVec 16 := t.cfg.extractLsb' 16 16

/-- Where group `g` begins in a cluster's groups: a header and up to 64 target entries (R183). -/
def groupAt (g : Nat) : Nat := 65 * g

/-- A multicast group's targets, in entry order (Tables 6.6, 6.7), whatever its VALID bit says (R183 states no outcome for an endpoint that
names a group out of use: DESIGN CHOICE, log entry 141). -/
def Cluster.groupTargets (x : Cluster) (pkg : BitVec 12) (g : Nat) : List LCore :=
  let h := SMap.get 0 x.groups (groupAt g)
  (List.range (bitsOf h.toNat 16 11 + 1)).map fun i =>
    let e := SMap.get 0 x.groups (groupAt g + 1 + i)
    ⟨pkg, e.extractLsb' 15 5, e.extractLsb' 6 9, e.extractLsb' 0 6⟩

def Cluster.groupEp (x : Cluster) (g : Nat) : Nat := bitsOf (SMap.get 0 x.groups (groupAt g)).toNat 3 0

/-- The targets of an endpoint. -/
def State.targetsOf (s : State) (c : CoreAt) (e : SendEp) : List LCore :=
  if e.mcast then (s.cluster (clusterOf c)).groupTargets s.pkg e.group else [e.dst s.pkg]

/-- Message header (Table 6.3). -/
def msgHeader (src : LCore) (srcEp : Nat) (seq : BitVec 24) (seg dstEp kind len : Nat) : BitVec 128 :=
  src.pkg ++ src.die ++ src.cl ++ src.core ++ BitVec.ofNat 4 srcEp ++ (0 : BitVec 4) ++ seq ++ (0 : BitVec 8) ++ BitVec.ofNat 3 seg ++
    (0 : BitVec 37) ++ BitVec.ofNat 4 dstEp ++ (0 : BitVec 4) ++ BitVec.ofNat 2 kind ++ BitVec.ofNat 6 len

/-! ### Tests of the channel-engine operations -/

/-- What the test of a word's CE operation answers. -/
inductive CeTest where
  | ok
  | stall (cls : StallClass)
  | fault (code : Nat) (detail : BitVec 64)
  deriving DecidableEq, Repr

/-- ILLEGAL_ISSUE. -/
def ceIllegal : CeTest := .fault fIllegalIssue 0

/-- The fault of a request status (Table 8.10); reserved codes count as NO_PATH. -/
def statusFault (st : BitVec 4) : Nat :=
  match st.toNat with
  | 1 => fWindowDeny
  | 2 => fAtomicAlign
  | 3 => fDataError
  | 4 => fTargetOffline
  | _ => fNoPath

/-- A write acknowledged with an error and not yet consumed (R243). -/
def ackTest (x : Core) : CeTest :=
  match x.ackErr with
  | some st => .fault (statusFault st) 0
  | none => .ok

/-- Slots that a record of `n` slots needs at the sender (R175): with a skip when it would wrap. -/
def SendEp.need (e : SendEp) (n : Nat) : Nat :=
  let tail := e.rslots + 1 - e.wpos
  if n ≤ tail then n else tail + n

/-- Every target has `n` credits. -/
def SendEp.hasCredit (e : SendEp) (n : Nat) : Bool :=
  if e.mcast then e.tcredits.all (fun c => decide (n ≤ c)) else decide (n ≤ e.credits)

/-! ### Atomics (R93) -/

/-- The bytes that an atomic touches: offset and length (R93, R245). -/
def atomicSpan (addr : Nat) (atop : BitVec 2) (v : BitVec 32) : Nat × Nat :=
  match atop.toNat with
  | 0 => (addr, 4)
  | 1 => (addr, 8)
  | _ => (addr + 4 * (v.toNat % 16), 4)

/-- The test of COMPARE_COUNT (R93). -/
def condHolds (cond : BitVec 2) (w v : BitVec 32) : Bool :=
  match cond.toNat with
  | 0 => w == v
  | 1 => w != v
  | 2 => w.slt v
  | _ => !w.slt v

/-- An atomic (R93): the core after it and the prior value. -/
def Core.atomic (x : Core) (addr : Nat) (atop cond : BitVec 2) (v : BitVec 32) : Core × BitVec 32 :=
  let load (a : Nat) : BitVec 32 := BitVec.ofNat 32 (leNat (x.read a 4))
  match atop.toNat with
  | 0 => (x.write addr (leBytes 4 (load addr + v).toNat), load addr)
  | 1 =>
    let c := load (addr + 4)
    (if condHolds cond (load addr) v then x.write (addr + 4) (leBytes 4 (c + 1).toNat) else x, c)
  | _ =>
    let a := addr + 4 * (v.toNat % 16)
    (x.write a (leBytes 4 (load a + 1).toNat), load a)

/-- A core as an access for a word of cycle `u` finds its scratchpad: every schedule write and local atomic issued before `u` has been made
(R246). -/
def Core.asOf (x : Core) (u : Nat) : Core :=
  x.pipe.foldl (fun y p =>
    if p.due < u + 2 then match p.eff with
      | .bankWrite b d => y.write b d
      | .atomic a op cond v _ _ => (y.atomic a op cond v).1
      | _ => y
    else y) x

/-- The bytes at an offset as a read for a word of cycle `u` sees them (R246). -/
def Core.sourceRead (x : Core) (u a n : Nat) : Bytes := (x.asOf u).read a n

/-! ### The queues of the fabric side (R70, R72) -/

/-- A range cut at the granules (R67), in ascending order. -/
def granules (fuel a n : Nat) : List (Nat × Nat) :=
  match fuel with
  | 0 => []
  | k + 1 => if n = 0 then [] else
      let m := min n (32 - a % 32)
      (a, m) :: granules k (a + m) (n - m)

/-- The bank operations of a read and of a write of `n` bytes at `a` (R67, R250). -/
def readOps (a n : Nat) : List FabricOp := (granules (n / 32 + 2) a n).map fun g => .read g.1 g.2
def writeOps (a : Nat) (b : Bytes) : List FabricOp :=
  (granules (b.length / 32 + 2) a b.length).map fun g => .write g.1 ((b.drop (g.1 - a)).take g.2)

/-- The queue of a virtual channel: 0 Reduce, 1 Bulk, 2 Management. -/
def Core.fq (x : Core) (q : Nat) : List FabricJob :=
  match q with
  | 0 => x.fqReduce
  | 1 => x.fqBulk
  | _ => x.fqMgmt

def Core.setFq (x : Core) (q : Nat) (l : List FabricJob) : Core :=
  match q with
  | 0 => { x with fqReduce := l }
  | 1 => { x with fqBulk := l }
  | _ => { x with fqMgmt := l }

/-- An entry of a queue is free for what arrives: eight entries, after the source reads that wait (R72). -/
def Core.fabricRoom (x : Core) (q : Nat) : Bool := decide ((x.fq q).length < 8) && !x.ceWait.any fun w => decide (w.1 = q)

/-- An access enters its queue; a source read that finds it full waits in the channel engine. -/
def Core.enqueue (x : Core) (q : Nat) (j : FabricJob) : Core :=
  if x.fabricRoom q then x.setFq q (x.fq q ++ [j]) else { x with ceWait := x.ceWait ++ [(q, j)] }

/-- The head of a queue leaves; the oldest source read that waits for the queue enters. -/
def Core.popHead (x : Core) (q : Nat) : Core :=
  let y := x.setFq q ((x.fq q).drop 1)
  match y.ceWait.find? fun w => decide (w.1 = q) with
  | none => y
  | some w => { y.setFq q (y.fq q ++ [w.2]) with ceWait := y.ceWait.erase w }

/-- The head of a queue is changed. -/
def Core.setHead (x : Core) (q : Nat) (j : FabricJob) : Core := x.setFq q (j :: (x.fq q).drop 1)

/-- Accesses of a core that are not finished. -/
def Core.fabricJobs (x : Core) : List FabricJob := x.fqReduce ++ x.fqBulk ++ x.fqMgmt ++ (x.ceWait ++ x.generating).map (·.2)

/-- A source read of the channel engine (R248). -/
def FabricJob.isSource (j : FabricJob) : Bool :=
  match j.fin with
  | .send _ _ _ => true
  | _ => false

/-- The packets that leave with what an access reads. -/
def FabricJob.sends (j : FabricJob) : List Packet :=
  match j.fin with
  | .send ps _ _ => ps
  | _ => []

/-- The source frame of a tile SEND. -/
def SendEp.frameAt (e : SendEp) (i : Nat) : Nat := e.srcBase + i * e.srcSize * 64

/-- Whether an operation of this endpoint reaches every target (R215); a stream and a remote endpoint consult no route entry. -/
def State.epRouted (s : State) (c : CoreAt) (e : SendEp) : Bool :=
  e.stream || e.remote || (s.targetsOf c e).all (s.routeValid c)

/-- SEND and MSEND (R174, R175, R181, R184, R187, R215, R217). -/
def State.sendTest (s : State) (c : CoreAt) (w : Word) (multi : Bool) : CeTest :=
  let x := s.core c
  let e := x.sendEp (ceEp w)
  let a := ceArg w
  let hold := s.genhan.held
  let credit (n : Nat) : CeTest :=
    if hold then .stall .credit
    else if !s.epRouted c e then .fault fRouteInvalid 0
    else if e.hasCredit n then .ok else .stall .credit
  if !e.valid || (e.mcast != multi) || (decide (e.type = 0) && a.testBit 6) then ceIllegal
  else if e.remote && (decide (e.conn = .closed) || decide (e.conn = .closing)) then ceIllegal
  else if e.remote && decide (e.conn = .failed) then .fault fOpenFail (e.openStatus.setWidth 64)
  else if e.remote && e.broken then .fault fConnLost 0
  else if e.remote && decide (e.conn = .pending) then .stall .credit
  else if e.type = 0 then
    let n := a % 64 + 1
    if e.rslots + 1 < e.need n then .fault fChannelLen 0 else credit (e.need n)
  else if e.readStream then credit 1
  else
    let at_ := e.frameAt a
    if 131072 < at_ + 64 then .fault fSpadAddr 0
    else match x.hdrRead with
    | none => .stall .credit
    | some h =>
    if !frameHeaderOk h then .fault fSparseMeta (segDetail h)
    else match fmtRow (segFmt h) with
      | none => .fault fSparseMeta (segDetail h)
      | some f =>
        if 131072 < at_ + frameBytes f then .fault fSpadAddr 0
        else if e.rslots + 1 < 2 ^ f.seglog then .fault fChannelLen 0
        else credit (2 ^ f.seglog)

/-- Records recorded and not yet waited for, skips left out. -/
def RecvEp.unwaited (e : RecvEp) : List Rec := (e.recs.takeWhile (·.landed)).filter fun r => !r.waited && decide (r.kind ≠ 1)

/-- An endpoint of an enabled steering unit (R174). -/
def Core.steers (x : Core) (ep : Nat) : Bool := x.steer.enabled && (decide (ep = x.steer.tokenEp) || decide (ep = x.steer.dataEp))

/-- The fault of a record at the RECV_WAIT that counts it (R226, R243). -/
def recFault (r : Rec) : Option Nat :=
  if r.fcode = 1 then some fAnchorMismatch
  else if r.fcode = 2 then some fReduceMismatch
  else if r.status ≠ 0 then some (statusFault r.status)
  else none

/-- RECV_WAIT (R174, R177, R226, R243). -/
def Core.recvTest (x : Core) (w : Word) : CeTest :=
  let e := x.recvEp (ceEp w)
  let n := ceArg w + 1
  if !e.valid || x.steers (ceEp w) || decide (64 ≤ ceArg w) then ceIllegal
  else if e.unwaited.length < n then .stall .receive
  else match (e.unwaited.take n).findSome? recFault with
    | some f => .fault f 0
    | none => .ok

/-- RELEASE (R174, R178). -/
def Core.releaseTest (x : Core) (w : Word) : CeTest :=
  let e := x.recvEp (ceEp w)
  if !e.valid || x.steers (ceEp w) || decide (64 ≤ ceArg w) then ceIllegal
  else if (e.recs.filter fun r => r.waited && decide (r.kind ≠ 1)).length < ceArg w + 1 then .fault fReleaseRange 0
  else .ok

/-- A reply endpoint that a remote read or atomic may name (R236). -/
def State.replyOk (s : State) (c : CoreAt) (ep : Nat) : Bool :=
  let e := (s.core c).recvEp ep
  e.valid && decide (e.type = 2) &&
  !(s.cluster (clusterOf c)).reds.any (fun r => r.2.valid && decide (r.2.replyEp = ep))

/-- Remote form of RWRITE, RREAD, RATOMIC (R217, R236, R239). -/
def State.requestTest (s : State) (c : CoreAt) (w : Word) : CeTest :=
  let x := s.core c
  let write := ceOp w = 5
  let writes := (x.reqQ.filter fun r => decide (r.op = 0)).length +
    (x.outstanding.filter fun o => decide (o.op = 0) && !o.isRecord).length
  if (if write then decide (ceEp w ≠ 0) else !s.replyOk c (ceEp w)) then ceIllegal
  else if s.genhan.held || decide (8 ≤ x.reqQ.length) || (decide write && decide (64 ≤ writes)) then
    .stall .credit
  else .ok

/-- The clusters of this package that a reduction's packets name from a node: the parent, and from the root the TARGET (R215, R225). -/
def RedSt.dests (r : RedSt) (pkg : BitVec 12) : List LCore :=
  if !r.root then (if r.parent.pkg = pkg then [r.parent] else [])
  else if !r.ret && decide (r.target.pkg = pkg) then [r.target] else []

/-- Every destination of a reduction at this node is VALID, switched on and reachable (R215). -/
def State.redRouted (s : State) (c : CoreAt) (r : RedSt) : Bool := (r.dests s.pkg).all (s.routeValid (coreIn (clusterOf c) 36))

/-- Reduce form of RWRITE (R215, R221). -/
def State.reduceTest (s : State) (c : CoreAt) (w : Word) : CeTest :=
  let x := s.core c
  let r := (s.cluster (clusterOf c)).redOf (ceEp w)
  let slot := ceArg w % 128
  if !r.valid || !r.mask.getLsbD c.core.val then ceIllegal
  else if 131072 < r.srcBase + (slot + 1) * r.w * 64 then .fault fSpadAddr 0
  else if decide (r.mode = 0) && (anchorOf (x.ax' r.ax)).isNone then .fault fNumFormat 0
  else if s.genhan.held then .stall .credit
  else if !s.redRouted c r then .fault fRouteInvalid 0
  else if decide (2 ≤ SMap.get 0 x.redSpent (ceEp w)) || !(x.recvEp r.replyEp).canReserve r.l then .stall .credit
  else .ok

/-- Local form of RATOMIC (R236, R240); the alignment of R93 against the address of its AG0 descriptor. -/
def Core.localTest (x : Core) (w : Word) : CeTest :=
  let atop := fld w 23 22
  if decide (fld w 19 17 ≠ 0) || decide (atop = 3) || (decide (atop ≠ 1) && decide (fld w 21 20 ≠ 0)) || !x.localForm w then ceIllegal
  else if x.agAddr 0 (agDesc w 0) % (atopAlign atop : Int) ≠ 0 then .fault fAtomicAlign 0
  else .ok

/-- The scope of an unlaunched request: known once its record has been read. -/
def Request.scopeIn (r : Request) (self : LCore) : Nat :=
  match r.record with
  | none => 0
  | some b => (scopeOf self ⟨b.extractLsb' 52 12, b.extractLsb' 43 5, b.extractLsb' 34 9, b.extractLsb' 28 6⟩).toNat

/-- A write, record or atomic of scope `sc` or narrower is unacknowledged, or a source unread (R248). -/
def Core.fencePending (x : Core) (self : LCore) (sc : Nat) : Bool :=
  x.fabricJobs.any FabricJob.isSource ||
  x.reqQ.any (fun r => decide (r.op = 0) || (decide (r.op = 2) && decide (r.scopeIn self ≤ sc))) ||
  x.outstanding.any (fun o => (o.isRecord || decide (o.op ≠ 1)) && decide (o.scope.toNat ≤ sc))

/-- FENCE (R235, R236, R243, R248). -/
def State.fenceTest (s : State) (c : CoreAt) (w : Word) : CeTest :=
  let x := s.core c
  if decide (ceEp w ≠ 0) || decide (5 ≤ ceArg w) then ceIllegal
  else if x.fencePending (s.lcore c) (ceArg w) then .stall .credit
  else ackTest x

/-- CATCH (R174, R192, R193, R243). -/
def State.catchTest (s : State) (c : CoreAt) (w : Word) : CeTest :=
  let x := s.core c
  let k := (s.cluster (clusterOf c)).catchOf (ceEp w)
  let a := ceArg w
  if !k.valid || decide (bitsOf a 4 3 ≠ 0) || (!a.testBit 5 && decide (a % 8 ≠ 0)) then ceIllegal
  else if k.released < SMap.get 0 x.joined (ceEp w) then .stall .credit
  else ackTest x

/-- CATCH_WAIT (R174, R192 to R194). -/
def State.catchWaitTest (s : State) (c : CoreAt) (w : Word) : CeTest :=
  let k := (s.cluster (clusterOf c)).catchOf (ceEp w)
  let n := SMap.get 0 (s.core c).joined (ceEp w)
  if !k.valid || decide (ceArg w ≠ 0) then ceIllegal
  else if k.released < n then .stall .receive
  else if k.faultRounds.contains n then .fault fCatchArg 0
  else .ok

/-! ### Steering (R125 to R127) -/

/-- The oldest message of a steering endpoint that is not paired yet. -/
def RecvEp.head (e : RecvEp) : Option Rec := e.unwaited.head?

/-- The token at the head of the token queue, once it has been read (Table 4.12). -/
def Core.token (x : Core) : Option (BitVec 32) := x.steer.toks.head?

/-- Send endpoints that a token names. -/
def tokenTargets (t : BitVec 32) : List (Fin 16) :=
  match bitsOf t.toNat 31 30 with
  | 0 => [⟨bitsOf t.toNat 3 0 % 16, by omega⟩]
  | 1 => (List.finRange 16).filter fun i => t.getLsbD i.val
  | _ => []

/-- A valid token (R126, Table 4.12). -/
def tokenOk (t : BitVec 32) (mask : BitVec 16) : Bool :=
  decide (bitsOf t.toNat 29 16 = 0) &&
  (match bitsOf t.toNat 31 30 with
    | 0 => decide (bitsOf t.toNat 15 4 = 0)
    | 1 => decide (2 ≤ (tokenTargets t).length)
    | 2 => decide (bitsOf t.toNat 15 0 = 0)
    | _ => false) &&
  (tokenTargets t).all (fun i => mask.getLsbD i.val)

/-- A pair stands in the buffer and waits only for credits of its targets. -/
def Core.steerCreditWait (x : Core) : Bool :=
  match x.token, (if x.steer.dq = 0 then none else (x.recvEp x.steer.dataEp).head) with
  | some t, some d => tokenOk t x.steer.outMask &&
      !(tokenTargets t).all (fun i => (x.sendEp i.val).hasCredit ((x.sendEp i.val).need d.slots))
  | _, _ => false

/-- STEER_WAIT (R126, R127). -/
def Core.steerTest (x : Core) (w : Word) : CeTest :=
  if decide (ceEp w ≠ 0) || decide (ceArg w ≠ 0) then ceIllegal
  else if x.steer.pending = 0 then .ok
  else .stall (if x.steerCreditWait then .credit else .steering)

/-- OPEN (R174, R187). -/
def Core.openTest (x : Core) (w : Word) : CeTest :=
  let e := x.sendEp (ceEp w)
  if !e.valid || !e.remote || decide (ceArg w ≠ 0) then ceIllegal
  else match e.conn with
    | .closed | .failed => .ok
    | .closing => .stall .credit
    | _ => ceIllegal

/-- CLOSE (R174, R187). -/
def Core.closeTest (x : Core) (w : Word) : CeTest :=
  let e := x.sendEp (ceEp w)
  if !e.valid || !e.remote || decide (ceArg w ≠ 0) then ceIllegal else .ok

/-- The test of a word's CE operation (Table 4.5). -/
def State.ceTest (s : State) (c : CoreAt) (w : Word) : CeTest :=
  let x := s.core c
  match ceOp w with
  | 0 => if decide (ceEp w ≠ 0) || decide (ceArg w ≠ 0) then ceIllegal else .ok
  | 1 => s.sendTest c w false
  | 2 => s.sendTest c w true
  | 3 => x.recvTest w
  | 4 => x.releaseTest w
  | 5 => if 128 ≤ ceArg w then s.reduceTest c w else s.requestTest c w
  | 6 => if 128 ≤ ceArg w then ceIllegal else s.requestTest c w
  | 7 => if 128 ≤ ceArg w then x.localTest w else s.requestTest c w
  | 8 => s.fenceTest c w
  | 9 => s.catchTest c w
  | 10 => s.catchWaitTest c w
  | 11 => if ceEp w ≠ 0 then ceIllegal else .ok
  | 12 => x.steerTest w
  | 13 => x.openTest w
  | 14 => x.closeTest w
  | _ => ceIllegal

end Sys2Proof.Machine
end

