-- ==== Sys2Proof/Machine/Vector.lean ====
section
/-! DEFINITION. The vector engine's arithmetic: the pipelined stages (R85, R86), exact sums (R87), PRUNE, COMPRESS and PSELECT
(R146 to R167), and what its operations do when they land. -/

namespace Sys2Proof.Machine

/-! ### Pipelined operation -/

/-- Flags of a list of lane results. -/
def allFlags (l : List Fl) : BitVec 8 := l.foldl (fun f x => f ||| x.2) 0

/-- A function of two inputs over the lanes. -/
def lanes2 (f : BitVec 32 → BitVec 32 → Fl) (a b : List (BitVec 32)) : List Fl := List.zipWith f a b

/-- The second input of a stage (Table 3.4): Y, Z or the constant, its sign flipped when NEG2 is set. -/
def Core.second (c : Core) (w : Word) (x : BitVec 64) (s : Nat) : List (BitVec 32) :=
  let l := match stageIn2 x s with
    | 0 => lanes (c.vreg (veY w))
    | 1 => lanes (c.vreg (veZ w))
    | _ => List.replicate 16 (c.kreg (cfgKsel x))
  if stageNeg x s then l.map fneg else l

/-- The special functions by FN (Table 3.5). -/
def specialFn (fn : Nat) : BitVec 32 → Fl :=
  match fn with
  | 0 => fexp2
  | 1 => flog2
  | 2 => frcp
  | 3 => fsqrt
  | _ => frsqrt

/-- The bits of some lane results as a mask. -/
def maskOf (l : List Bool) : BitVec 16 :=
  BitVec.ofNat 16 (l.foldr (fun b r => (if b then 1 else 0) + 2 * r) 0)

/-- Elements of `w` bytes packed from byte 0 (Table 3.5). -/
def packBytes (w : Nat) (l : List Nat) : BitVec 512 := BitVec.ofNat 512 (leNat (l.flatMap (leBytes w)))

/-- Elements of `n` bits packed from bit 0 (R79). -/
def packBits (n : Nat) (l : List Nat) : Nat := l.foldr (fun x r => x + 2 ^ n * r) 0

/-- An MX block from 32 values, elements then scale code (R86). -/
def mxPack (f : Fmt) (vs : List (BitVec 32)) : BitVec 512 × BitVec 8 :=
  match mxTarget f with
  | none => (0, 0)
  | some (t, emax) =>
    let r := mxBlock t emax vs
    (BitVec.ofNat 512 (packBits f.bits r.1 + r.2.1 * 2 ^ (32 * f.bits)), r.2.2)

/-- The convert stage on a 64 B value (Table 3.5); a lane that `u` gives random bits rounds stochastically (R63). -/
def Core.convert (c : Core) (w : Word) (x : BitVec 64) (v : BitVec 512) (u : Nat → Option (BitVec 16)) : BitVec 512 × BitVec 8 :=
  let pack (n : Nat) (r : List (Nat × BitVec 8)) : BitVec 512 × BitVec 8 := (packBytes n (r.map (·.1)), r.foldl (fun g y => g ||| y.2) 0)
  let each (n : Nat) (near : BitVec 32 → Nat × BitVec 8) (random : BitVec 16 → BitVec 32 → Nat × BitVec 8) : BitVec 512 × BitVec 8 :=
    pack n ((lanes v).zipIdx.map fun p => match u p.2 with
      | none => near p.1
      | some b => random b p.1)
  match stageFn x 5 with
  | 0 => each 2 (cvtFloat tgtBF16) (cvtStochastic tgtBF16)
  | 1 => each 1 (cvtFloat tgtE4M3) (cvtStochastic tgtE4M3)
  | 2 => each 1 (cvtFloat tgtE5M2) (cvtStochastic tgtE5M2)
  | 3 => each 1 (cvtInt 8) (cvtIntStochastic 8)
  | 4 => each 4 (cvtInt 32) (cvtIntStochastic 32)
  | 5 => match fmtOf (cfgFmt x) with
    | some f => mxPack f (lanes (c.vreg (veX w)) ++ lanes (c.vreg (veY w)))
    | none => (v, 0)
  | _ => match fmtOf (cfgFmt x) with
    | some f => (ofLanes ((List.range 16).map fun i => widen f ((v.toNat >>> (f.bits * i)) % 2 ^ f.bits)), 0)
    | none => (v, 0)

/-- A pipelined operation (R85): result, the mask that a compare writes, flags. A fused add rounds once (R57). -/
def Core.pipelined (c : Core) (w : Word) (u : Nat → Option (BitVec 16) := fun _ => none) : BitVec 512 × Option (BitVec 16) × BitVec 8 :=
  let x := c.cfgWord (veCfgN w)
  let v0 := lanes (c.vreg (veX w))
  let fused := stageOn x 2 && stageLow x 2
  let r1 := if stageOn x 1 && !fused then lanes2 fmul v0 (c.second w x 1) else v0.map (·, 0)
  let v1 := r1.map (·.1)
  let b2 := let b := c.second w x 2; if stageFn x 2 = 1 then b.map fneg else b
  let r2 :=
    if !stageOn x 2 then v1.map (·, 0)
    else if fused then List.zipWith (fun p b => ffma p.1 p.2 b) (List.zip v0 (c.second w x 1)) b2
    else lanes2 fadd v1 b2
  let v2 := r2.map (·.1)
  let in3 := c.second w x 3
  let v3 := if stageOn x 3 ∧ stageFn x 3 = 0 then List.zipWith fmax v2 in3
    else if stageOn x 3 ∧ stageFn x 3 = 1 then List.zipWith fmin v2 in3 else v2
  let mask := if stageOn x 3 ∧ 2 ≤ stageFn x 3
    then some (maskOf (List.zipWith (if stageFn x 3 = 2 then flt else feq) v2 in3)) else none
  let r4 := if stageOn x 4 then v3.map (specialFn (stageFn x 4)) else v3.map (·, 0)
  let v4 := ofLanes (r4.map (·.1))
  let r5 := if stageOn x 5 then c.convert w x v4 u else (v4, 0)
  let v6 := if stageOn x 6 then
      ofLanes (List.zipWith (fun (p : Nat × BitVec 32) b => if (c.mreg (cfgMsel x)).getLsbD p.1 then p.2 else b)
        (List.zip (List.range 16) (lanes r5.1)) (c.second w x 6))
    else r5.1
  (v6, mask, allFlags r1 ||| allFlags r2 ||| allFlags r4 ||| r5.2)

/-! ### Exact sums (R59, R87) -/

/-- The anchors of the lanes in issue order: what the latest issued operation makes of them, else what the lanes hold. -/
def Core.laneAnchor (c : Core) (i : Nat) : Option (BitVec 10) :=
  match (SMap.get (some 0) c.laneIss i : Option (BitVec 10)), c.laneIss.any (fun p => decide (p.1 = i)) with
  | a, true => a
  | _, false => if (c.laneEA i).anchored then some (c.laneEA i).ea.e else none

/-- Records lane anchors in issue order. -/
def Core.noteLanes (c : Core) (l : List (Nat × Option (BitVec 10))) : Core :=
  { c with laneIss := l.foldl (fun m p => SMap.splice m p.1 1 [p]) c.laneIss }

/-- The anchored lanes' anchors in issue order. -/
def Core.laneAnchors (c : Core) : List (BitVec 10) := (List.range 16).filterMap c.laneAnchor

/-- All of some anchors are equal. -/
def allEqual (l : List (BitVec 10)) : Bool :=
  match l with
  | [] => true
  | a :: r => r.all (· == a)

/-- The faults of a word's VE operation other than ILLEGAL_ISSUE from its fields. -/
def Core.veFaults (c : Core) (w : Word) (t : Nat) : List Nat :=
  match veOp w with
  | 2 | 3 => match anchorOf (c.ax' (veCfgN w)) with
    | none => [fNumFormat]
    | some an =>
      (if an.explicit && an.fa == .fp32 && an.fb == .fp32 then [] else [fNumFormat]) ++
      (if c.laneAnchors.any (· != an.e) then [fAnchorMismatch] else [])
  | 4 => if allEqual c.laneAnchors then [] else [fAnchorMismatch]
  | 5 => match fmtOf (veY w) with
    | none => [fNumFormat]
    | some f => if (eaConvert f {}).isNone then [fNumFormat] else []
  | 6 => if (anchorOf (c.ax' (veCfgN w))).isNone then [fNumFormat] else []
  | 8 => match c.lastPrune with
    | some t0 => if t < t0 + 4 then [fIllegalIssue] else []
    | none => []
  | _ => []

/-- The terms of VE.SUMX, or with `sq` of VE.SQSUMX. -/
def sumTerms (sq : Bool) (v : BitVec 512) (e : BitVec 10) : List Term :=
  (lanes v).map fun x => if sq then productTerm (fpVal x) (fpVal x) 0 e.toInt else valueTerm (fpVal x) e.toInt

/-- Lane EAs after a sum (R87) and its flags. -/
def Core.landSum (c : Core) (e : BitVec 10) (ts : List Term) : Core × BitVec 8 :=
  let r := (List.range 16).foldl (fun (p : SMap LaneEA × Bool) i =>
    let x := c.laneEA i
    let b : EA := if x.anchored then x.ea else { a := 0, e := e, ovf := false }
    let y := b.addAll [ts.getD i (.q 0)]
    (SMap.set {} p.1 i { ea := y.1, anchored := true }, p.2 || y.2)) (c.lane, false)
  ({ c with lane := r.1 }, flagIf r.2 flEaOvf ||| flagIf (ts.any (· == .nan)) flInvalid)

/-- VE.FOLD (R87): lane EA 0 takes the sum, lanes 1 to 15 become unanchored. -/
def Core.landFold (c : Core) : Core × BitVec 8 :=
  let rest := (List.range 15).map (fun i => c.laneEA (i + 1))
  let anchored := rest.filter (·.anchored)
  let l0 := c.laneEA 0
  let e := match l0.anchored, anchored with
    | true, _ => l0.ea.e
    | false, x :: _ => x.ea.e
    | false, [] => l0.ea.e
  let b : EA := { l0.ea with e := e, ovf := l0.ea.ovf || anchored.any (·.ea.ovf) }
  let r := b.addAll (anchored.map fun x => rawTerm x.ea.a)
  let z := if l0.anchored || !anchored.isEmpty then { ea := r.1, anchored := true } else l0
  ({ c with lane := SMap.set {} [] 0 z }, flagIf r.2 flEaOvf)

/-- VE.EALOAD (R87). -/
def Core.landLaneLoad (c : Core) (e : BitVec 10) (a : BitVec 80) : Core :=
  { c with lane := SMap.set {} c.lane 0 { ea := { a := a, e := e, ovf := false }, anchored := true } }

/-- VE.EAOUT (R87): lane EA 0 in lane 0 of the result, zero-extended from a narrow format; unanchored converts as zero. -/
def Core.eaOut (c : Core) (f : Fmt) : BitVec 512 × BitVec 8 :=
  let x := c.laneEA 0
  match eaConvert f (if x.anchored then x.ea else {}) with
  | some (_, v, fl) => (BitVec.ofNat 512 v, fl)
  | none => (0, 0)

/-! ### PRUNE and COMPRESS (R146 to R152) -/

/-- The key of the magnitude order (R146). -/
def magKey (x : BitVec 32) : Nat := x.toNat % 2 ^ 31

/-- An index into a list ranked by R146: larger key first, then lower index. -/
def rankInsert (keys : List Nat) (i : Nat) (l : List Nat) : List Nat :=
  match l with
  | [] => [i]
  | j :: r => if keys.getD i 0 > keys.getD j 0 ∨ (keys.getD i 0 = keys.getD j 0 ∧ i < j) then i :: l else j :: rankInsert keys i r

/-- Indexes ranked by R146. -/
def rankOrder (keys : List Nat) (idx : List Nat) : List Nat := idx.foldr (rankInsert keys) []

/-- The acceptance walk of R147: mask bits, and the counts per row and column. -/
def acceptWalk (s24 : Bool) (order : List Nat) : List Nat :=
  order.foldl (fun kept i =>
    let row := kept.countP fun j => decide (j / 4 = i / 4)
    let col := kept.countP fun j => decide (j % 4 = i % 4)
    if row < 2 ∧ (s24 ∨ col < 2) then kept ++ [i] else kept) []

/-- A mask from the indexes kept. -/
def maskFrom (kept : List Nat) : BitVec 16 := maskOf ((List.range 16).map kept.contains)

/-- VE.PRUNE (R147): mask and lanes. -/
def prune (s24 : Bool) (v : BitVec 512) : BitVec 16 × BitVec 512 :=
  let m := maskFrom (acceptWalk s24 (rankOrder ((lanes v).map magKey) (List.range 16)))
  (m, ofLanes ((List.range 16).map fun i => if m.getLsbD i then laneOf v i else 0))

/-- A kept value in the element format of COMPRESS (R61, R150, R151), rounded stochastically where it is given random bits (R63); in FP32 a NaN
becomes the canonical one (R57). -/
def compressElem (fmt : Nat) (u : Option (BitVec 16)) (x : BitVec 32) : Nat × BitVec 8 :=
  match fmt, u with
  | 0, none => cvtInt 8 x
  | 0, some b => cvtIntStochastic 8 b x
  | 1, none => cvtFloat tgtE4M3 x
  | 1, some b => cvtStochastic tgtE4M3 b x
  | 2, none => cvtFloat tgtE5M2 x
  | 2, some b => cvtStochastic tgtE5M2 b x
  | 8, none => cvtFloat tgtBF16 x
  | 8, some b => cvtStochastic tgtBF16 b x
  | _, _ => match fpVal x with
    | .nan => (fpNan.toNat, 0)
    | _ => (x.toNat, 0)

/-- Width in bytes of an element format of Table 5.4. -/
def elemWidth (fmt : Nat) : Nat := if fmt = 8 then 2 else if fmt = 9 then 4 else 1

/-- One group of COMPRESS in S24 or S14 form: the two slots (a position, or none for an added or unused slot), the code, the excess. -/
def compressGroup (s14 : Bool) (keys : List Nat) (g : Nat) : List (Option Nat) × Nat × Nat :=
  let nz := (List.range 4).map (4 * g + ·) |>.filter fun i => decide (keys.getD i 0 ≠ 0)
  let n := if s14 then 1 else 2
  let keep := (rankOrder keys nz).take n
  let excess := if n < nz.length then 1 else 0
  if s14 then
    match keep with
    | [] => ([none, none], 0, excess)
    | i :: _ => ([some i, none], i % 4, excess)
  else
    let has (p : Nat) : Bool := keep.contains (4 * g + p)
    let added := ((List.range 4).filter fun p => !has p).take (2 - keep.length)
    let pos := (List.range 4).filter fun p => has p || added.contains p
    (pos.map fun p => if has p then some (4 * g + p) else none,
      pos.getD 0 0 + 4 * pos.getD 1 0, excess)

/-- VE.COMPRESS (R150, R151): result, excess, flags. FORM 0 S24, 1 S14, 2 T24. Lane i takes the random bits `u i` (R63). -/
def compress (form fmt : Nat) (v : BitVec 512) (u : Nat → Option (BitVec 16) := fun _ => none) : BitVec 512 × Nat × BitVec 8 :=
  let keys := (lanes v).map magKey
  let width := elemWidth fmt
  let slotsOf (l : List (Option Nat)) : List (Nat × BitVec 8) := l.map fun o => match o with
    | some i => compressElem fmt (u i) (laneOf v i)
    | none => (0, 0)
  if form = 2 then
    let nz := (List.range 16).filter fun i => decide (keys.getD i 0 ≠ 0)
    let kept := acceptWalk false (rankOrder keys nz)
    let sl := slotsOf (((List.range 16).filter kept.contains).map some)
    (BitVec.ofNat 512 ((packBytes width (sl.map (·.1))).toNat + (maskFrom kept).toNat * 2 ^ (64 * width)),
      if kept.length < nz.length then 1 else 0, sl.foldl (fun f x => f ||| x.2) 0)
  else
    let gs := (List.range 4).map (compressGroup (form == 1) keys)
    let sl := slotsOf (gs.flatMap (·.1))
    (BitVec.ofNat 512 ((packBytes width (sl.map (·.1))).toNat + packBits 4 (gs.map (·.2.1)) * 2 ^ 256),
      (gs.map (·.2.2)).sum, sl.foldl (fun f x => f ||| x.2) 0)

/-! ### PSELECT (R161 to R167) -/

/-- x ≥ y in the IEEE sense. -/
def fge (x y : BitVec 32) : Bool := flt y x || feq x y

/-- S under the threshold rule (R164). -/
def selectThreshold (x : BitVec 512) (tau : BitVec 32) : BitVec 16 := maskOf ((lanes x).map fun v => fge v tau)

/-- S under the top-k rule (R164). Whether k is signed before its clamp is not said; the model reads it unsigned, so that a negative k gives
16 (DESIGN CHOICE, log entry 107). -/
def selectTopK (x : BitVec 512) (k : BitVec 32) : BitVec 16 :=
  maskFrom ((rankOrder ((lanes x).map magKey) (List.range 16)).take (max 1 (min 16 k.toNat)))

/-- The Philox word that samples a lane for the audit (R165). -/
def auditWord (seed : BitVec 64) (tid block : BitVec 32) (step : BitVec 48) : BitVec 32 :=
  (philox seed ((0xA0D1 : BitVec 16) ++ step.extractLsb' 32 16 ++ step.extractLsb' 0 32 ++ tid ++ block)).extractLsb' 0 32

/-- The 16 random bits of element i of a tensor for stochastic rounding (Table 15.4). -/
def roundingBits (seed : BitVec 64) (tid : BitVec 32) (step : BitVec 48) (i : Nat) : BitVec 16 :=
  let ctr := (0x5A0D : BitVec 16) ++ step.extractLsb' 32 16 ++ step.extractLsb' 0 32 ++ tid ++ BitVec.ofNat 32 (i / 8)
  (philox seed ctr).extractLsb' (32 * (i % 8 / 2) + 16 * (i % 2)) 16

/-- U: the sampled lanes outside S (R165). -/
def auditSet (seed : BitVec 64) (rate : Nat) (tid block : BitVec 32) (step : BitVec 48) (sel : BitVec 16) : BitVec 16 :=
  if rate = 0 then 0
  else maskOf ((List.range 16).map fun b =>
    !sel.getLsbD b && decide ((auditWord seed tid (block + BitVec.ofNat 32 b) step).toNat % 2 ^ rate = 0))

def auditRate (c : Core) : Nat := bitsOf c.sparseCtrl.toNat 19 16
def makeUp (c : Core) : Bool := c.sparseCtrl.getLsbD 15
def excessTrap (c : Core) : Bool := c.sparseCtrl.getLsbD 2

/-- Number of set bits of a 16-bit mask. -/
def popcount16 (m : BitVec 16) : Nat := (List.range 16).countP fun i => m.getLsbD i

/-- VERDICT (R166): final row, audits, misses. -/
def Core.verdict (c : Core) (x : BitVec 512) (tau : BitVec 32) : BitVec 16 × Nat × Nat :=
  (if makeUp c then c.pselS ||| c.pselU else c.pselS, popcount16 c.pselU,
   (List.range 16).countP fun b => c.pselU.getLsbD b && fge (laneOf x b) tau)

/-- The bitmap word with row h replaced (Table 5.9); for another h its value is free (log entry 106). -/
def placeRow (y : BitVec 32) (h : Nat) (row : BitVec 16) : BitVec 32 :=
  if h = 0 then y.extractLsb' 16 16 ++ row else if h = 1 then row ++ y.extractLsb' 0 16 else Config.verdictWord y (BitVec.ofNat 32 h) row

/-- One QUANT4 element (R161). -/
def quant4 (x k : BitVec 32) : Nat :=
  match fpVal (fmul x k).1 with
  | .nan => 0
  | .inf n => if n then 8 else 7
  | .fin n m e => ofSigned 4 (roundInt n m e (-8) 7).1

/-- A 64-bit integer in lanes 2j, 2j + 1 (R163). -/
def lane64 (v : BitVec 512) (j : Nat) : BitVec 64 := v.extractLsb' (64 * j) 64

/-- Whether the miss rate exceeds its limit (R167); the sums are INT64 values (Table 2.1). -/
def rateExceeded (miss audit : BitVec 64) (limit : BitVec 32) : Bool :=
  decide (0 < audit.toInt) && decide ((limit.toNat : Int) * audit.toInt < miss.toInt * 2 ^ 20)

/-- A 32-bit counter that saturates (R167). -/
def sat32 (x : BitVec 32) (n : Nat) : BitVec 32 := BitVec.ofNat 32 (min (2 ^ 32 - 1) (x.toNat + n))

/-- The six words of COUNTS: each counter as an INT64. -/
def Core.countsWord (c : Core) : BitVec 512 :=
  BitVec.ofNat 512 (c.misses.toNat + c.audits.toNat * 2 ^ 64 + c.excess.toNat * 2 ^ 128)

end Sys2Proof.Machine
end

