-- ==== Sys2Proof/Machine/Issue.lean ====
section
/-! DEFINITION. The issue cycle of a cluster (R56, R69 to R75, R100, R113, R114, R117, R118, R145, R238): the effects that land, the checks
of the words, the stall test, and the end of the cycle. -/

namespace Sys2Proof.Machine

/-! ### Targets (R82, R113, R114) -/

/-- The targets of a delivery: (kind, index). Kinds up to 8 are those of R114. -/
def Dest.targets : Dest → List (Nat × Nat)
  | .latchA _ => [(0, 0)]
  | .latchB _ => [(1, 0)]
  | .metadata => [(2, 0)]
  | .scaleA => [(3, 0)]
  | .scaleB => [(4, 0)]
  | .eaIn _ => [(5, 0)]
  | .transpose _ => [(0, 0), (2, 0)]
  | .vreg r h => [(6, 2 * r.val + if h then 1 else 0)]
  | .kreg r => [(7, r.val)]
  | .ptOut o => [(8, o.val)]
  | .request _ => []

/-- The targets of an effect. -/
def Effect.targets : Effect → List (Nat × Nat)
  | .bankRead _ _ d _ => d.targets
  | .land d _ => d.targets
  | .atomic _ _ _ _ r _ => [(7, r.val)]
  | .vreg r n _ m _ => (if n ≤ 8 then [(6, 2 * r.val)] else [(6, 2 * r.val), (6, 2 * r.val + 1)]) ++
      (match m with
        | some (i, _) => [(14, i.val)]
        | none => [])
  | .teOut _ _ _ => [(9, 0)]
  | .eaMma _ _ _ | .eaLoad _ _ | .eaAdd _ | .eaReanchor _ => [(10, 0)]
  | .laneSum _ _ | .laneFold | .laneLoad _ _ => [(11, 0)]
  | .psel _ _ => [(12, 0)]
  | .audit _ _ | .clearCounts | .excess _ _ => [(13, 0)]
  | .maskOnly i _ => [(14, i.val)]
  | _ => []

/-- The cycle in which an effect lands on its targets. -/
def Pending.lands (p : Pending) : Nat :=
  match p.eff with
  | .bankRead _ _ _ t | .atomic _ _ _ _ _ t => t
  | _ => p.due

/-- The landing cycle of an effect due in `due`: never before an effect of an earlier word on the same target (R113). -/
def Core.hold (x : Core) (due : Nat) (ts : List (Nat × Nat)) : Nat :=
  x.pipe.foldl (fun d p => if decide (due < p.lands) && p.eff.targets.any ts.contains then max d (p.lands + 1) else d) due

/-- The result time of an operation on accumulators of a kind (R82): after that of the previous one. -/
def Core.eaDue (x : Core) (due kind : Nat) : Nat :=
  x.pipe.foldl (fun d p => if p.eff.targets.contains (kind, 0) then max d (p.due + 1) else d) due

/-- Adds an effect of the word being issued. -/
def Core.push (x : Core) (due : Nat) (e : Effect) : Core := { x with pipe := x.pipe ++ [⟨due, x.slot, e⟩] }

/-- Adds an effect held under R113. -/
def Core.pushHeld (x : Core) (due : Nat) (e : Effect) : Core := x.push (x.hold due e.targets) e

/-! ### Landing -/

/-- What a landing does to a core, and beyond it: faults, events of RATE, words written to outbound registers, corrected words. -/
structure Landed where
  core : Core
  faults : List Raised := []
  events : List (BitVec 64 × BitVec 64) := []
  outs : List (Fin 16 × BitVec 256) := []
  soft : Nat := 0
  deriving DecidableEq, Repr

/-- Bytes read land at their destination (R79, R81, R84, R91). -/
def Core.deliver (x : Core) (d : Dest) (b : Bytes) : Core :=
  match d with
  | .latchA h => { x with latchA := putBytes x.latchA (if h then 32 else 0) b }
  | .latchB h => { x with latchB := putBytes x.latchB (if h then 32 else 0) b }
  | .metadata => { x with metadata := putBytes x.metadata 0 b }
  | .scaleA => { x with scaleA := putBytes x.scaleA 0 b }
  | .scaleB => { x with scaleB := putBytes x.scaleB 0 b }
  | .eaIn f => { x with eaIn := putBytes x.eaIn (32 * f.val) b }
  | .vreg r h => { x with v := SMap.set 0 x.v r.val (putBytes (x.vreg r.val) (if h then 32 else 0) b) }
  | .kreg r => { x with k := SMap.set 0 x.k r.val (BitVec.ofNat 32 (leNat b)) }
  | .ptOut o => { x with ptOut := SMap.set 0 x.ptOut o.val (BitVec.ofNat 256 (leNat b)) }
  | .transpose _ => x
  | .request n => { x with reqQ := x.reqQ.map fun r => if r.serial = n then { r with record := some (BitVec.ofNat 256 (leNat b)) } else r }

/-- A landed operation sets flags and traps on them (R54, R55). -/
def Core.flagged (x : Core) (self : Fin 64) (slot : BitVec 10) (f : BitVec 8) : Landed :=
  { core := x.setFlags f, faults := if x.traps f then [raised self slot fNumTrap] else [] }

/-- Lanes 0 to n − 1 of a register. -/
def mergeLanes (n : Nat) (old new : BitVec 512) : BitVec 512 := putBytes old 0 ((leBytes 64 new.toNat).take (4 * n))

/-- Replaces the terms of the latest pending TE.MMA. -/
def replaceTerms (ts : List (List Term)) (l : List Pending) : List Pending :=
  match l with
  | [] => []
  | p :: r =>
    match p.eff with
    | .eaMma o a _ => if r.any (fun q => match q.eff with
        | .eaMma _ _ _ => true
        | _ => false) then p :: replaceTerms ts r else { p with eff := .eaMma o a ts } :: r
    | _ => p :: replaceTerms ts r

/-- A latch whose lower half is `a`'s and whose upper half is `b`'s. -/
def upperFrom (a b : BitVec 512) : BitVec 512 := b.extractLsb' 256 256 ++ a.extractLsb' 0 256

/-- One effect lands. -/
def Core.landOne (x : Core) (self : Fin 64) (p : Pending) : Landed :=
  let bad : Landed := { core := x, faults := [raised self p.slot fSpadUe] }
  match p.eff with
  | .bankRead a n d at_ =>
    if x.badWord a n then bad
    else
      let y := x.noteSoft a n
      let b := x.read a n
      { core := match d with
          | .request _ => y.deliver d b
          | _ => { y with pipe := y.pipe ++ [⟨at_, p.slot, .land d b⟩] },
        soft := (x.softWords a n).length }
  | .land d b => { core := x.deliver d b, outs := match d with
      | .ptOut o => [(o, BitVec.ofNat 256 (leNat b))]
      | _ => [] }
  | .bankWrite a b =>
    if x.badMerge a b.length then bad
    else { core := x.write a b, soft := ((partWords a b.length).map fun p => (x.softWords p.1 p.2).length).sum }
  | .atomic a op cond v r at_ =>
    let sp := atomicSpan a op v
    if x.badWord sp.1 sp.2 then bad
    else
      let y := (x.noteSoft sp.1 sp.2).atomic a op cond v
      { core := { y.1 with pipe := y.1.pipe ++ [⟨at_, p.slot, .land (.kreg r) (leBytes 4 y.2.toNat)⟩] },
        soft := (x.softWords sp.1 sp.2).length }
  | .atomicSecond _ => { core := x }
  | .eaMma o a ts => let r := x.landMma o a ts; r.1.flagged self p.slot r.2
  | .mmaUpper w a b codes =>
    match anchorOf (x.ax' (teAx w)) with
    | none => { core := x }
    | some an =>
      let l : Latches := ⟨if teSpb w then upperFrom a x.latchA else a, if teSpa w then upperFrom b x.latchB else b, codes, 0, 0⟩
      { core := { x with pipe := replaceTerms (mmaTerms l x.sparseCtrl w .bf16 an) x.pipe } }
  | .eaLoad a vs => let r := x.landEaLoad a vs; r.1.flagged self p.slot r.2
  | .eaAdd vs => let r := x.landEaAdd vs; r.1.flagged self p.slot r.2
  | .eaReanchor a => let r := x.landReanchor a; r.1.flagged self p.slot r.2
  | .teOut o b f => ({ x with teOut := putBytes x.teOut o b } : Core).flagged self p.slot f
  | .vreg r n d m f =>
    let ms := match m with
      | some (i, b) => SMap.set 0 x.m i.val b
      | none => x.m
    ({ x with v := SMap.set 0 x.v r.val (mergeLanes n (x.vreg r.val) d), m := ms } : Core).flagged self p.slot f
  | .laneSum a ts => let r := x.landSum a ts; r.1.flagged self p.slot r.2
  | .laneFold => let r := x.landFold; r.1.flagged self p.slot r.2
  | .laneLoad a v => { core := x.landLaneLoad a v }
  | .statusClear m => { core := x.clearFlags m }
  | .statusSet m => x.flagged self p.slot m
  | .excess n trap =>
    { core := { x with excess := sat32 x.excess n }
      faults := if trap && decide (n ≠ 0) then [raised self p.slot fSparseExcess] else [] }
  | .psel a b => { core := { x with pselS := a, pselU := b } }
  | .audit a m => { core := { x with audits := sat32 x.audits a, misses := sat32 x.misses m } }
  | .clearCounts => { core := { x with audits := 0, misses := 0, excess := 0 } }
  | .maskOnly i b => { core := { x with m := SMap.set 0 x.m i.val b } }
  | .missRate a b => { core := x, events := [(a, b)] }
  | .ptIn r d => { core := { x with ptIn := SMap.set 0 x.ptIn r.val d } }

/-- Effects that act before or after the others of their cycle: a status clear first (R87), the second half of an MMA's operand last. -/
def Effect.early : Effect → Bool
  | .statusClear _ => true
  | _ => false
def Effect.late : Effect → Bool
  | .mmaUpper _ _ _ _ => true
  | _ => false
/-- An effect that only performs its bank operation when due. -/
def Effect.bankOnly : Effect → Bool
  | .bankRead _ _ _ _ | .atomic _ _ _ _ _ _ => true
  | _ => false

/-- What is left of a delivery that collides (R114): its effects on other targets. A result of 64 B that collides in one half of its register is
dropped whole (R114 does not say whether the other half lands: DESIGN CHOICE, log entry 144). -/
def afterClash (p : Pending) : List Pending :=
  match p.eff with
  | .vreg _ _ _ (some (i, b)) f => [{ p with eff := .maskOnly i b }, { p with eff := .statusSet f }]
  | .vreg _ _ _ none f => [{ p with eff := .statusSet f }]
  | _ => []

/-- The bank of an effect's bank operation. -/
def Effect.bank : Effect → Option Nat
  | .bankRead a _ _ _ | .bankWrite a _ | .atomic a _ _ _ _ _ | .atomicSecond a => some (bankOf a)
  | _ => none

/-- The outbound registers that the core's word forwards into. -/
def Core.forwards (x : Core) : List (Nat × Nat) :=
  if x.halted then [] else (List.range 16).filterMap fun o => if (ptEn x.word).getLsbD o then some (8, o) else none

/-- All effects of a core that are due in issue cycle `t` (R113, R114). -/
def Core.landCore (x : Core) (self : Fin 64) (t : Nat) : Landed :=
  let due := x.pipe.filter fun p => decide (p.due ≤ t)
  let ts := (due.filter (fun p => !p.eff.bankOnly)).flatMap (fun p => p.eff.targets.filter fun g => decide (g.1 ≤ 8)) ++ x.forwards
  let clash := ts.filter fun g => decide (1 < ts.count g)
  let hit (p : Pending) : Bool := !p.eff.bankOnly && p.eff.targets.any clash.contains
  let keep := due.flatMap fun p => if hit p then afterClash p else [p]
  let order := keep.filter (·.eff.early) ++ keep.filter (fun p => !p.eff.early && !p.eff.late) ++ keep.filter (·.eff.late)
  let busy := due.foldl (fun b p => match p.eff.bank with
    | some n => b ||| BitVec.ofNat 8 (2 ^ n)
    | none => b) 0
  let x0 : Core := { x with pipe := x.pipe.filter (fun p => !decide (p.due ≤ t)), busyBanks := x.busyBanks ||| busy }
  let r := order.foldl (fun (a : Landed) p =>
    let b := a.core.landOne self p
    { core := b.core, faults := a.faults ++ b.faults, events := a.events ++ b.events, outs := a.outs ++ b.outs,
      soft := a.soft + b.soft }) { core := x0 }
  if clash.isEmpty then r else { r with faults := raised self x.slot fLandingConflict :: r.faults }

/-- The inbound register of the neighbour that outbound register `o` feeds (R97). -/
def inboundOf (o : Fin 16) : Fin 16 := ⟨(o.val / 4 + 2) % 4 * 4 + o.val % 4, by omega⟩

/-- A word in outbound register `o` reaches the neighbour in issue cycle `t` (R97). -/
def State.toNeighbour (s : State) (c : CoreAt) (o : Fin 16) (d : BitVec 256) (t : Nat) : State :=
  match neighbour c.core (o.val / 4) with
  | none => s
  | some n => s.modCore (coreIn (clusterOf c) n) fun y => y.push t (.ptIn (inboundOf o) d)

/-- The event PREDICT_MISS_RATE (R167): step index, both sums. -/
def State.missEvent (s : State) (c : CoreAt) (e : BitVec 64 × BitVec 64) : State :=
  s.raiseEvent 0x0004 (some (s.lcore c))
    (leBytes 8 0 ++ leBytes 8 (s.cluster (clusterOf c)).step.toNat ++ leBytes 8 e.1.toNat ++ leBytes 8 e.2.toNat)

/-- The effects of one core in the cluster's present issue cycle. -/
def State.landAt (s : State) (c : CoreAt) : State × List Raised :=
  let t := (s.cluster (clusterOf c)).cycle
  let r := (s.core c).landCore c.core t
  let s := s.putCore c r.core
  let s := r.outs.foldl (fun s o => s.toNeighbour c o.1 o.2 (t + 1)) s
  let s := r.events.foldl (fun s e => s.missEvent c e) s
  let s := s.countSoft c r.soft
  ({ s with genhan := { s.genhan with numOr := s.genhan.numOr ||| r.core.numStatus.setWidth 8 } }, r.faults)

/-- The effects of every core of a cluster. -/
def State.landAll (s : State) (k : ClusterAt) : State × List Raised :=
  (coresOf k).foldl (fun p c => let r := p.1.landAt c; (r.1, p.2 ++ r.2)) (s, [])

/-! ### The checks of a word (R56, R100) -/

/-- Banks that the word of issue cycle `t` uses in cycle t + 2 (R71, R94, R238). -/
def Core.banksOf (x : Core) (w : Word) : List Nat :=
  let ag (g : Fin 2) : List Nat := if agOp w g = 1 ∨ agOp w g = 2 then
    (if x.agBadAddr w g then [] else [bankOf (x.agAddr g (agDesc w g)).toNat]) else []
  let req := if (ceOp w = 5 ∨ ceOp w = 6 ∨ ceOp w = 7) ∧ ceArg w < 128
    then [bankOf (x.reqBase.toNat * 64 + ceArg w * 32)] else []
  ag 0 ++ ag 1 ++ req

/-- Banks of earlier words in cycle t + 2. -/
def Core.banksDue (x : Core) (t : Nat) : List Nat :=
  (x.pipe.filter fun p => decide (p.due = t + 2)).filterMap fun p => p.eff.bank

/-- The faults of the word that a core would issue now. -/
def State.wordFaults (s : State) (c : CoreAt) : List (Nat × BitVec 64) :=
  let x := s.core c
  let w := x.word
  let t := (s.cluster (clusterOf c)).cycle
  let illegal := x.seqIllegal w (x.cond w) || w.getLsbD 16 || teIllegal w || x.veIllegal w || x.agIllegal c.core w 0 ||
    x.agIllegal c.core w 1 || agClash w || x.ptIllegal c.core w
  let ce := match s.ceTest c w with
    | .fault n d => [(n, d)]
    | _ => []
  let halt := if seqOp w = 4 then (match ackTest x with
      | .fault n d => [(n, d)]
      | _ => []) else []
  let banks := x.banksOf w
  (if illegal then [(fIllegalIssue, 0)] else []) ++
  (if x.agBadAddr w 0 || x.agBadAddr w 1 then [(fSpadAddr, 0)] else []) ++
  (if banks.any (fun b => decide (1 < banks.count b)) || banks.any (x.banksDue t).contains then [(fBankConflict, 0)] else []) ++
  (if teIllegal w then [] else (x.teFaults w t).map (·, 0)) ++
  (if x.veIllegal w then [] else (x.veFaults w t).map (·, 0)) ++ ce ++ halt

/-- A core that was restored with words recorded as lost raises SPAD_UE at the first issue word of its cluster (R74). -/
def State.lostFault (s : State) (c : CoreAt) : Option Raised :=
  if !(s.core c).lost.isEmpty then some (raised c.core (s.core c).slot fSpadUe) else none

/-- The fault of a word that is recorded (R100). -/
def State.wordFault (s : State) (c : CoreAt) : Option Raised :=
  let fs := s.wordFaults c
  (firstFault (fs.map (·.1))).map fun n =>
    raised c.core (s.core c).slot n (((fs.find? fun f => decide (f.1 = n)).map (·.2)).getD 0)

/-! ### Stall and acceptance (R117 to R119) -/

/-- The cores of a cluster that have not executed HALT. -/
def State.live (s : State) (k : ClusterAt) : List CoreAt := (coresOf k).filter fun c => !(s.core c).halted

/-- The stall class of a core's word, if it cannot issue. -/
def State.stallOf (s : State) (c : CoreAt) : Option StallClass :=
  match s.ceTest c (s.core c).word with
  | .stall x => some x
  | _ => none

/-- A forced stall is due in this clock edge (R417). -/
def Cluster.forcedNow (x : Cluster) : Bool :=
  match x.forcedStall with
  | some n => decide (0 < n) && decide (x.clocks % n = n - 1)
  | none => false

/-- The unit operations of a word that issues. -/
def Core.start (x : Core) : Core :=
  let w := x.word
  { x with
    todo := { te := decide (teOp w ≠ 0), ve := decide (veOp w ≠ 0), ag0 := decide (agOp w 0 ≠ 0) && !localAtomic w,
              ag1 := decide (agOp w 1 ≠ 0), ce := decide (ceOp w ≠ 0), pt := ptEn w, cond := x.cond w },
    blocked := none, age := [], ageRaised := [] }

/-- Some core of a cluster has a word that cannot issue now, or a forced stall is due. -/
def State.stallsNow (s : State) (k : ClusterAt) : Bool :=
  (s.cluster k).forcedNow || (s.live k).any (fun c => (s.stallOf c).isSome)

/-- The header of a frame that a core's stalled tile SEND needs read (R181): its address. -/
def State.headerWanted (s : State) (c : CoreAt) : Option Nat :=
  let x := s.core c
  let w := x.word
  let e := x.sendEp (ceEp w)
  if (ceOp w = 1 ∨ ceOp w = 2) ∧ e.type = 1 ∧ e.readStream = false ∧ x.hdrRead = none ∧ x.hdrAsked = false ∧ s.stallOf c = some .credit then
    some (e.frameAt (ceArg w))
  else none

/-- The channel engine asks the fabric side for the header of a stalled tile SEND (R181, R246). -/
def State.askHeader (s : State) (c : CoreAt) : State :=
  match s.headerWanted c with
  | none => s
  | some a => s.modCore c fun x =>
      { x.enqueue 1 { ops := readOps a 64, fin := .header, cycle := (s.cluster (clusterOf c)).cycle } with hdrAsked := true }

/-- An earlier access that a colliding word would meet at its bank completes (R71): the bank operations of issue cycle `t` + 2 on those
banks, a local atomic from its first cycle on. -/
def Core.finishAccess (x : Core) (self : Fin 64) (t : Nat) : Landed :=
  let bs := x.banksOf x.word
  let hit (p : Pending) : Bool := (p.eff.bank.any bs.contains) &&
    (decide (p.due = t + 2) || (decide (p.due = t + 1) && (match p.eff with
      | .atomic _ _ _ _ _ _ => true
      | _ => false)))
  (x.pipe.filter hit).foldl (fun y p => let r := y.core.landOne self p; { r with soft := y.soft + r.soft })
    { core := { x with pipe := x.pipe.filter fun p => !hit p } }

/-- What completes as a cluster halts on its words: the accesses that BANK_CONFLICT names (R71). -/
def State.finishAll (s : State) (live : List CoreAt) : State :=
  live.foldl (fun s c => if (s.wordFault c).any (fun f => decide (f.code = fBankConflict))
    then
      let r := (s.core c).finishAccess c.core (s.cluster (clusterOf c)).cycle
      (s.putCore c r.core).countSoft c r.soft
    else s) s

/-- Tries to begin the issue cycle of a running cluster: stalls it, halts it on a fault, or accepts the words of all its cores. -/
def State.accept (s : State) (k : ClusterAt) : State :=
  let x := s.cluster k
  if decide (x.run ≠ .running) || x.accepted || x.stallLine || x.diag then s
  else
    let live := s.live k
    if live.isEmpty then s
    else if s.stallsNow k then
      let s := live.foldl (fun s' c => (s'.modCore c fun y => { y with blocked := s.stallOf c }).askHeader c) s
      s.modCluster k fun y => { y with stallLine := true }
    else
      let l := s.landAll k
      let r := (l.1, x.endFaults ++ l.2)
      if r.2.isEmpty then
        let fs := (coresOf k).filterMap r.1.lostFault ++ live.filterMap r.1.wordFault
        if fs.isEmpty then
          (live.foldl (fun s c => s.modCore c Core.start) r.1).modCluster k fun y => { y with accepted := true, issued := 0 }
        else (r.1.finishAll live).haltOn k fs
      else r.1.haltOn k r.2

/-- The cycle of a core's cluster is begun, and a unit operation of its word is waiting. -/
def State.ready (s : State) (c : CoreAt) (f : Todo → Bool) : Bool :=
  (s.cluster (clusterOf c)).accepted && !(s.core c).halted && f (s.core c).todo

/-- The issue cycle that the present commands belong to. -/
def State.now (s : State) (c : CoreAt) : Nat := (s.cluster (clusterOf c)).cycle

/-- A unit operation of a core's word: the cycle is begun if it is not yet, and the operation performs once (R113). -/
def State.unitOp (s : State) (c : CoreAt) (f : Todo → Bool) (op : Word → Bool) (act : State → Core → Word → Nat → Core) : State :=
  let s := s.accept (clusterOf c)
  let x := s.core c
  if s.ready c f && op x.word then s.putCore c (act s x x.word (s.now c)) else s

/-! ### The end of a cycle -/

/-- The transpose unit's check of the blocks read in this cycle (R145): they become deliveries to latch A and the metadata latch. -/
def Core.transposeChecks (x : Core) (self : Fin 64) : Core × List Raised :=
  x.pipe.foldl (fun (p : Core × List Raised) e =>
    match e.eff with
    | .land (.transpose t) b =>
      match transposeDeliver t b with
      | some (v, g) => ({ p.1 with pipe := p.1.pipe ++ [⟨e.due, e.slot, .land (.latchA false) v⟩, ⟨e.due, e.slot, .land .metadata g⟩] }, p.2)
      | none => (p.1, p.2 ++ [raised self e.slot fSparseMeta])
    | _ => ({ p.1 with pipe := p.1.pipe ++ [e] }, p.2)) ({ x with pipe := [] }, [])

/-! ### Request records (Table 8.6, R238) -/

def recFA (b : BitVec 256) : BitVec 64 := b.extractLsb' 0 64
def recLocal (b : BitVec 256) : Nat := bitsOf b.toNat 178 162
def recLength (b : BitVec 256) : Nat := bitsOf b.toNat 191 179
def recAtop (b : BitVec 256) : BitVec 2 := b.extractLsb' 222 2
def recTag (b : BitVec 256) : BitVec 8 := b.extractLsb' 205 8

def faPkg (fa : BitVec 64) : BitVec 12 := fa.extractLsb' 52 12
def faSpace (fa : BitVec 64) : Nat := bitsOf fa.toNat 51 48
def faCore (fa : BitVec 64) : LCore := ⟨faPkg fa, fa.extractLsb' 43 5, fa.extractLsb' 34 9, fa.extractLsb' 28 6⟩
def faOffset (fa : BitVec 64) : Nat := bitsOf fa.toNat 16 0

/-- FA_INVALID (R238): the record breaks a rule for its operation (0 write, 1 read, 2 atomic). -/
def recordInvalid (op : BitVec 2) (pkg : BitVec 12) (b : BitVec 256) : Bool :=
  let fa := recFA b
  let sp := faSpace fa
  let len := recLength b
  let value := bitsOf b.toNat 255 224
  let cond := bitsOf b.toNat 221 220
  decide (bitsOf b.toNat 204 192 ≠ 0) || decide (bitsOf b.toNat 161 64 ≠ 0) ||
  !(decide (sp = 0) || decide (sp = 3)) ||
  (decide (sp = 0) && decide (bitsOf fa.toNat 27 17 ≠ 0)) ||
  (decide (sp = 3) && (decide (faPkg fa ≠ pkg) || decide (op = 2))) ||
  (match op.toNat with
    | 2 => decide (len ≠ 0) || decide (recLocal b ≠ 0) || decide (recAtop b = 3) || (decide (recAtop b ≠ 1) && decide (cond ≠ 0))
    | 1 => decide (len < 4) || decide (4032 < len) || decide (recLocal b ≠ 0) || decide (value ≠ 0) || decide (recAtop b ≠ 0) ||
        decide (cond ≠ 0)
    | _ => decide (len < 4) || decide (4064 < len) || decide (recLocal b % 4 ≠ 0) || decide (131072 < recLocal b + len) ||
        decide (value ≠ 0) || decide (recAtop b ≠ 0) || decide (cond ≠ 0)) ||
  decide (len % 4 ≠ 0) ||
  (decide (sp = 0) && decide (131072 < faOffset fa + len)) ||
  (decide (op ≠ 2) && decide (bitsOf fa.toNat 1 0 ≠ 0))

/-- The fault of a request's record (R238, R215), if any. -/
def State.recordFault (s : State) (c : CoreAt) (r : Request) (b : BitVec 256) : Option Nat :=
  if recordInvalid r.op s.pkg b then some fFaInvalid
  else if faSpace (recFA b) = 0 ∧ faPkg (recFA b) = s.pkg ∧ !s.routeValid c (faCore (recFA b)) then some fRouteInvalid
  else none

/-- The check, in the third cycle after the word, of the records read by now (R238). -/
def State.requestChecks (s : State) (c : CoreAt) : State × List Raised :=
  let x := s.core c
  let t := (s.cluster (clusterOf c)).cycle
  let due (r : Request) : Bool := !r.checked && r.record.isSome && decide (r.cycle + 3 ≤ t)
  let fs := (x.reqQ.filter due).filterMap fun r =>
    match r.record with
    | none => none
    | some b => (s.recordFault c r b).map fun n => raised c.core r.slot n (recFA b)
  let broken (r : Request) : Bool := due r && (match r.record with
    | none => false
    | some b => (s.recordFault c r b).isSome)
  (s.putCore c { x with reqQ := (x.reqQ.filter fun r => !broken r).map fun r => if due r then { r with checked := true } else r }, fs)

/-- A cycle passes for the Draoc codes that are being formed (R95). -/
def Core.genTick (x : Core) : Core := { x with generating := x.generating.map fun p => (p.1 - 1, p.2) }

/-- The fabric side at the end of a cycle: the second cycle of a remote atomic takes its bank in the next (R70, R94). -/
def Core.fabricTick (x : Core) : Core :=
  { x.genTick with
    busyBanks := 0
    fabUsed := x.fabNext.isSome
    fabNext := none
    fabBanks := (match x.fabNext with
      | some b => BitVec.ofNat 8 (2 ^ b)
      | none => 0) }

/-- The occupancy of the three queues, and the cycles with one of them full, counted (Table 15.6). -/
def State.countQueues (s : State) (c : CoreAt) : State :=
  let x := s.core c
  let n := x.fqReduce.length + x.fqBulk.length + x.fqMgmt.length
  if n = 0 then s
  else
    let s := s.count 1 (coreUnit c) 0 2 n
    if (x.fqReduce.length = 8 ∨ x.fqBulk.length = 8 ∨ x.fqMgmt.length = 8) then s.count 1 (coreUnit c) 0 3 else s

/-- Slots of the target ring that a send endpoint has not been credited; of a multicast one, the most of any target; none while a remote one has no
ring. -/
def SendEp.notCredited (e : SendEp) : Nat :=
  if e.remote && [ConnState.closed, .pending, .failed].contains e.conn then 0 else e.rslots + 1 - (if e.mcast then (e.tcredits.min?.getD (e.rslots + 1)) else e.credits)

/-- The occupancy of the endpoints of a core, counted (Table 15.6, group 3). -/
def State.countEndpoints (s : State) (c : CoreAt) : State :=
  let x := s.core c
  let add (s : State) (n by_ : Nat) : State := if by_ = 0 then s else s.count 3 (coreUnit c) n 2 by_
  let s := x.se.foldl (fun s p => if p.2.valid then add s p.1 p.2.notCredited else s) s
  x.re.foldl (fun s p => if p.2.valid then add s (16 + p.1) p.2.used else s) s

/-- The occupancy of the reduction slots of a cluster, counted (Table 15.6, group 8). -/
def State.countSlots (s : State) (k : ClusterAt) : State :=
  let n := ((s.cluster k).reds.map fun q => ([q.2.s0, q.2.s1].filter fun z => decide (z.state ≠ 0)).length).sum
  if n = 0 then s else s.count 8 (coxUnit k) 0 4 n

/-- The checks that close an issue cycle of a core. -/
def State.closeCore (s : State) (c : CoreAt) : State × List Raised :=
  let x := (s.core c).transposeChecks c.core
  let n := x.1.busyBanks.cpop.toNat
  let s := if n = 0 then s else s.count 1 (coreUnit c) 0 0 n
  let r := (((s.countQueues c).countEndpoints c).putCore c x.1.fabricTick).requestChecks c
  (r.1, x.2 ++ r.2)

/-- The end of an issue cycle: late checks, the counts, and the stop that a checkpoint owes (R196). -/
def State.endCycle (s : State) (k : ClusterAt) : State :=
  let r := (coresOf k).foldl (fun (p : State × List Raised) c => let r := p.1.closeCore c; (r.1, p.2 ++ r.2)) (s, (s.cluster k).endFaults)
  let s := r.1.haltOn k r.2
  let s := s.modCluster k fun x => { x with
    cycle := x.cycle + 1, clocks := x.clocks + 1, accepted := false, issued := 0, endFaults := [],
    run := if x.ckptStopped && decide (x.run = .running) then .stopped else x.run }
  (s.countSlots k).count 8 (coxUnit k) 0 0

end Sys2Proof.Machine
end

