-- ==== Sys2Proof/Machine/Streams.lean ====
section
/-! DEFINITION. What a moon die does for a stream toward its core (R266, R267, R270): its entry, deliveries against the ring's credits. -/

namespace Sys2Proof.Machine

def State.stream (s : State) (m n : Nat) : Stream := SMap.get {} s.streams (32768 * m + n)
def State.putStream (s : State) (m n : Nat) (t : Stream) : State := { s with streams := SMap.set {} s.streams (32768 * m + n) t }

def Stream.f (t : Stream) (hi lo : Nat) : Nat := bitsOf t.entry.toNat hi lo
def Stream.valid (t : Stream) : Bool := t.entry.getLsbD 255
def Stream.isWrite (t : Stream) : Bool := t.entry.getLsbD 254
def Stream.tiles (t : Stream) : Nat := t.f 239 224 + 1
def Stream.tcols (t : Stream) : Nat := t.f 223 208 + 1
def Stream.stride (t : Stream) : Nat := t.f 207 192 * 64
def Stream.tensor (t : Stream) : Nat := t.f 191 160
/-- The start of tile T (R266). -/
def Stream.tileAt (t : Stream) (n : Nat) : Nat := (t.f 153 112 + n * t.f 207 192) * 64
/-- The receiving core and endpoint of a read stream, and the owner and its send endpoint. -/
def Stream.rcv (t : Stream) (pkg : BitVec 12) : LCore :=
  ⟨pkg, t.entry.extractLsb' 107 5, t.entry.extractLsb' 98 9, t.entry.extractLsb' 92 6⟩
def Stream.rcvEp (t : Stream) : Nat := t.f 91 88
def Stream.owner (t : Stream) (pkg : BitVec 12) : LCore :=
  ⟨pkg, t.entry.extractLsb' 83 5, t.entry.extractLsb' 74 9, t.entry.extractLsb' 68 6⟩
def Stream.ownEp (t : Stream) : BitVec 4 := t.entry.extractLsb' 64 4

/-- Run-ahead tiles of the streams that some cores own are discarded, wherever they are buffered: a claim of theirs never returns them (R253). -/
def State.dropOwned (s : State) (cs : List CoreAt) : State :=
  s.streams.foldl (fun s p => match s.coreAt (p.2.owner s.pkg), s.coreAt (p.2.rcv s.pkg) with
    | some c, some r => if cs.contains c then s.modCore r fun y => { y with runAhead := y.runAhead.filter fun b => decide (b.stream ≠ p.1) } else s
    | _, _ => s) s

/-- Credit return body (Table 10.10). -/
def creditBody (conn : BitVec 12) (link : BitVec 3) (cross : Bool) (slots : Nat) (target : LCore) (ep : BitVec 4) : BitVec 128 :=
  conn ++ link ++ (if cross then (1 : BitVec 1) else 0) ++ BitVec.ofNat 12 slots ++ target.die ++ target.cl ++ target.core ++ ep ++ (0 : BitVec 76)

/-- The name a companion sends under. -/
def State.companion (s : State) : LCore := ⟨s.pkg, 0, 0, 0⟩
/-- A moon die in the names of R265. -/
def State.moonName (s : State) (m : Nat) : LCore := ⟨s.pkg, BitVec.ofNat 5 (24 + m), 0, 0⟩

/-- A packet from moon die `m` to a core. -/
def State.moonSend (s : State) (m : Nat) (p : Packet) : State :=
  match s.coreAt p.dst with
  | some c => s.injectFrom 1 m c p
  | none => s

/-- A credit of the owner's send endpoint returns (R267, R268). -/
def State.streamCredit (s : State) (m : Nat) (t : Stream) (n : Nat) : State :=
  s.moonSend m (packet 1 (s.moonName m) (t.owner s.pkg) ((creditBody 0 0 false n s.companion t.ownEp).setWidth 256))

/-- Deliveries owed to a stream leave in demand order while its ring has credits (R267). -/
def State.pump (fuel : Nat) (s : State) (m n : Nat) : State :=
  match fuel with
  | 0 => s
  | k + 1 =>
    let t := s.stream m n
    match t.owed with
    | [] => s
    | o :: r =>
      if t.dcredits < o.slots then s
      else
        let s := s.putStream m n { t with owed := r, dcredits := t.dcredits - o.slots }
        let s := match o.seg with
          | some b => s.moonSend m (packet 0xB (s.moonName m) (t.rcv s.pkg) (o.hdr.setWidth 256) b)
          | none => s
        (if o.last then s.streamCredit m t 1 else s).pump k m n

/-- Deliveries of a stream after a change. -/
def State.pumpStream (s : State) (m n : Nat) : State := s.pump ((s.stream m n).owed.length + 1) m n

/-- Slots of the receive ring return to the home (R267). -/
def State.ringCredit (s : State) (m n slots : Nat) : State :=
  let t := s.stream m n
  (s.putStream m n { t with dcredits := t.dcredits + slots }).pumpStream m n

end Sys2Proof.Machine
end

