-- ==== Sys2Proof/Machine/MemoryUnit.lean ====
section
/-! DEFINITION. The memory engine (R69 to R75, R89 to R97, R115): address-generator accesses, pass-through, the early landing and check
of one core, the fabric side's bank operations and write-backs. -/

namespace Sys2Proof.Machine

/-- The operation of AG g is done. -/
def Core.agDone (x : Core) (g : Fin 2) : Core :=
  { x with todo := if g = 0 then { x.todo with ag0 := false } else { x.todo with ag1 := false } }

/-- The operation of AG g of the word is waiting. -/
def agTodo (g : Fin 2) (d : Todo) : Bool := if g = 0 then d.ag0 else d.ag1

/-- The descriptor advances after the access when the word says so (R90). -/
def Core.advanceIf (x : Core) (w : Word) (g : Fin 2) : Core := if agAdv w g then x.agAdvance g (agDesc w g) else x

/-- The landing cycle of a read (R69, R92, R113); a pass-through register is never held (R115). -/
def Core.readLands (x : Core) (d : Dest) (t : Nat) : Nat :=
  match d with
  | .ptOut _ => t + 5
  | .transpose _ => x.hold (t + 7) d.targets
  | _ => x.hold (t + 5) d.targets

/-- An AG read (R69, R90, R91). -/
def Core.agReadOp (g : Fin 2) (x : Core) (w : Word) (t : Nat) : Core :=
  let d := agDesc w g
  let width := descWidth (x.desc g d)
  match readDest (agPort w g) (agPart w g) width with
  | none => x
  | some dest => (x.push (t + 2) (.bankRead (x.agAddr g d).toNat width dest (x.readLands dest t))).advanceIf w g

/-- An AG write (R69, R83, R90, R91): the low bytes of the source as it stands. -/
def Core.agWriteOp (g : Fin 2) (x : Core) (w : Word) (t : Nat) : Core :=
  let d := agDesc w g
  let width := descWidth (x.desc g d)
  match x.writeSource (agPort w g) (agPart w g) width with
  | none => x
  | some b => (x.push (t + 2) (.bankWrite (x.agAddr g d).toNat (b.take width))).advanceIf w g

/-- A local atomic (R94): two bank cycles at the address of the word's AG0 descriptor, and the prior value for a constant register. -/
def Core.localAtomicOp (x : Core) (w : Word) (t : Nat) : Core :=
  let addr := (x.agAddr 0 (agDesc w 0)).toNat
  let r : Fin 16 := ⟨agPart w 0 % 16, by omega⟩
  let y := x.push (t + 2) (.atomic addr (BitVec.ofNat 2 (fld w 23 22)) (BitVec.ofNat 2 (fld w 21 20)) (x.kreg (ceEp w)) r (x.hold (t + 7) [(7, r.val)]))
  (y.push (t + 3) (.atomicSecond addr)).advanceIf w 0

/-- An AG operation of a core's word. -/
def State.agUnit (s : State) (c : CoreAt) (g : Fin 2) (op : Nat) (act : Core → Word → Nat → Core) : State :=
  s.unitOp c (agTodo g) (fun w => decide (agOp w g = op)) fun _ x w t => (act x w t).agDone g

def execAgRead (c : CoreAt) (g : Fin 2) (s : State) : Host.Outcome State Fault Refusal := .next (s.agUnit c g 1 (Core.agReadOp g))
def execAgWrite (c : CoreAt) (g : Fin 2) (s : State) : Host.Outcome State Fault Refusal := .next (s.agUnit c g 2 (Core.agWriteOp g))
/-- AG.RESET (R90). -/
def execAgReset (c : CoreAt) (g : Fin 2) (s : State) : Host.Outcome State Fault Refusal :=
  .next (s.agUnit c g 3 fun x w _ => x.agReset g (agDesc w g))

/-- The source inbound register of a route entry (Table 4.7). -/
def ptSource (e : BitVec 8) : Nat := bitsOf e.toNat 3 0

/-- PT_EN bit o (R97, R115): the word is in the outbound register in the cycle of its word, and at the neighbour in the next. -/
def State.ptForward (s : State) (c : CoreAt) (o : Fin 16) : State :=
  let s := s.accept (clusterOf c)
  let x := s.core c
  if s.ready c (fun d => d.pt.getLsbD o.val) then
    let d := SMap.get 0 x.ptIn (ptSource (x.ptEntry o.val))
    (s.putCore c { x with ptOut := SMap.set 0 x.ptOut o.val d,
                          todo := { x.todo with pt := x.todo.pt &&& ~~~(BitVec.ofNat 16 (2 ^ o.val)) } }).toNeighbour c o d (s.now c + 1)
  else s

def execPtForward (c : CoreAt) (o : Fin 16) (s : State) : Host.Outcome State Fault Refusal := .next (s.ptForward c o)

/-- Faults that halt the cluster with the cycle they arose in (R56). -/
def State.addFaults (s : State) (k : ClusterAt) (fs : List Raised) : State :=
  s.modCluster k fun x => { x with endFaults := x.endFaults ++ fs }

/-- The deliveries due to one core in the issue cycle about to begin (R69, R113, R114). A fault halts the cluster before the words of the
cycle. In a stall cycle nothing lands, the read of a request record among it (DESIGN CHOICE, log entry 111). -/
def execDeliveryLanding (c : CoreAt) (s : State) : Host.Outcome State Fault Refusal :=
  let k := clusterOf c
  let x := s.cluster k
  if decide (x.run = .running) && !x.accepted && !x.stallLine && !s.stallsNow k then
    let r := s.landAt c
    .next (r.1.addFaults k r.2)
  else .next s

/-- The transpose unit checks the blocks of this cycle (R145); the halt falls at its end. -/
def execTransposeCheck (c : CoreAt) (s : State) : Host.Outcome State Fault Refusal :=
  if (s.cluster (clusterOf c)).accepted then
    let r := (s.core c).transposeChecks c.core
    .next ((s.putCore c r.1).addFaults (clusterOf c) r.2)
  else .next s

/-! ### Fabric side (R70, R72, R96) -/

/-- A bank that neither a schedule access nor the fabric side uses in the present cycle (R67, R70). -/
def State.bankFree (s : State) (c : CoreAt) (b : Nat) : Bool :=
  let k := s.cluster (clusterOf c)
  let x := s.core c
  if k.run ≠ .running then true
  else !x.fabBanks.getLsbD b &&
    (if k.stallLine then true
     else if k.accepted then !x.busyBanks.getLsbD b
     else !(x.pipe.any fun p => decide (p.due ≤ k.cycle) && decide (p.eff.bank = some b)))

/-- No schedule access is due at a bank in the next cycle, stall or not (R70, R94). -/
def State.bankFreeNext (s : State) (c : CoreAt) (b : Nat) : Bool :=
  let k := s.cluster (clusterOf c)
  decide (k.run ≠ .running) ||
    !((s.core c).pipe.any fun p => decide (p.due ≤ if k.stallLine then k.cycle else k.cycle + 1) && decide (p.eff.bank = some b))

/-- The address of a bank operation of the fabric side. -/
def FabricOp.addr : FabricOp → Nat
  | .read a _ => a
  | .write a _ => a
  | .atomic a op _ v => (atomicSpan a op v).1

/-- A bank operation can be made now: an atomic needs its bank in this cycle and the next (R70, R94). -/
def State.opFree (s : State) (c : CoreAt) (o : FabricOp) : Bool :=
  s.bankFree c (bankOf o.addr) && (match o with
    | .atomic _ _ _ _ => s.bankFreeNext c (bankOf o.addr)
    | _ => true)

/-- The parts of the scratchpad whose check bits a bank operation tests: what it reads, and the words into which a write merges (R73 to R75). -/
def FabricOp.tested : FabricOp → List (Nat × Nat)
  | .read a n => [(a, n)]
  | .write a b => partWords a b.length
  | .atomic a op _ v => [atomicSpan a op v]

/-- A bank operation meets an uncorrectable error (R74, R75). -/
def Core.opBad (x : Core) (o : FabricOp) : Bool := o.tested.any fun p => x.badWord p.1 p.2

/-- Single-bit errors that a bank operation corrects (R73). -/
def Core.opSoft (x : Core) (o : FabricOp) : Nat := (o.tested.map fun p => (x.softWords p.1 p.2).length).sum

/-- One bank operation of an access is performed: the core after it, and the access with what it read. -/
def Core.performOp (x : Core) (j : FabricJob) (o : FabricOp) : Core × FabricJob :=
  let y := o.tested.foldl (fun y p => y.noteSoft p.1 p.2) x
  match o with
  | .read a n =>
    let b := match j.fin with
      | .send _ _ _ | .header => x.sourceRead j.cycle a n
      | _ => x.read a n
    (y, { j with got := j.got ++ b })
  | .write a b => (y.write a b, j)
  | .atomic a op cond v => let r := y.atomic a op cond v; (r.1, { j with got := leBytes 4 r.2.toNat })

/-- The packets of a source read: a skip record carries no bytes, a segment its packed bytes and its code (R95, R157). -/
def sendPackets (pkts : List Packet) (seg : Option Bytes) (got : Bytes) : List Packet :=
  let data := match seg with
    | some h => packSegment h got
    | none => got
  pkts.map fun p => if decide (p.pkind = 0) && decide (bitsOf p.hdr.toNat 7 6 = 1) then p else { p with data := data }

/-- The Draoc code of what has passed so far of a segment (R95). -/
def partialCode (b : Bytes) : BitVec 64 := (crc32c (List.replicate 4 0 ++ b.drop 4)).setWidth 64

/-- The Draoc generator follows the words of a segment as they pass to the channel engine (R95). -/
def Core.generate (x : Core) (j : FabricJob) : Core :=
  match j.fin with
  | .send _ (some h) _ => { x with draocGen := partialCode (h ++ j.got) }
  | _ => x

/-- Frees the oldest `n` records that have been waited for, with every skip that then stands oldest; the slots freed (R178). -/
def freeRecs (fuel n : Nat) (l : List Rec) : List Rec × Nat :=
  match fuel, l with
  | 0, _ => (l, 0)
  | _, [] => ([], 0)
  | k + 1, r :: t =>
    if r.kind = 1 then let p := freeRecs k n t; (p.1, p.2 + r.slots)
    else match n with
      | 0 => (l, 0)
      | m + 1 => let p := freeRecs k m t; (p.1, p.2 + r.slots)

/-- Returns freed slots to the producer of a ring (R178, R267, R297): the peer of a connection, the sender in this package, or the home of
a read stream. A reply ring's producer is the core itself. -/
def State.returnCredits (s : State) (c : CoreAt) (ep : Nat) (slots : Nat) : State :=
  let e := (s.core c).recvEp ep
  let self := s.lcore c
  if slots = 0 ∨ e.type = 2 then s
  else match e.peer with
    | some p => s.inject c (toComp (packet 1 self p.src ((creditBody p.conn p.linkDie true slots self p.ep).setWidth 256)) 2 p.linkDie.toNat)
    | none => match e.feed with
      | some (l, sep) =>
        if 24 ≤ l.die.toNat then s.ringCredit (l.die.toNat - 24) (l.cl.toNat * 64 + l.core.toNat) slots
        else s.inject c (packet 1 self l ((creditBody 0 0 false slots self sep).setWidth 256))
      | none => s

/-- Releases the oldest `n` waited records of an endpoint and returns the credits. -/
def State.releaseRecs (s : State) (c : CoreAt) (ep n : Nat) : State :=
  let x := s.core c
  let e := x.recvEp ep
  let r := freeRecs (e.recs.length + 1) n e.recs
  (s.putCore c { x with re := SMap.set {} x.re ep { e with recs := r.1 } }).returnCredits c ep r.2

/-- The heads of the three queues. -/
def Core.heads (x : Core) : List (Nat × FabricJob) :=
  (x.fqReduce.head?.map (0, ·)).toList ++ (x.fqBulk.head?.map (1, ·)).toList ++ (x.fqMgmt.head?.map (2, ·)).toList

/-- The oldest queue head whose bank is free (R72). -/
def State.fabricPick (s : State) (c : CoreAt) : Option (Nat × FabricJob) :=
  let free := (s.core c).heads.filter fun h => match h.2.ops with
    | [] => true
    | o :: _ => s.opFree c o
  free.foldl (fun a h => match a with
    | none => some h
    | some b => if h.2.cycle < b.2.cycle then some h else some b) none

/-- A corrected word is written back in a free cycle of its bank (R73). -/
def execSpadWriteback (c : CoreAt) (s : State) : Host.Outcome State Fault Refusal :=
  let x := s.core c
  match x.wback.find? fun w => s.bankFree c (bankOf (8 * w)) with
  | none => .next s
  | some w => .next (s.putCore c { x with wback := x.wback.erase w, ecc := x.ecc.filter (fun p => decide (p.1 ≠ w)),
                                          fabBanks := x.fabBanks ||| BitVec.ofNat 8 (2 ^ bankOf (8 * w)) })

end Sys2Proof.Machine
end

