-- ==== Sys2Proof/Machine/Arrive.lean ====
section
/-! DEFINITION. What arrives at a core's channel engine: records, tile segments, replies in their reserved slots, acknowledgements
(R173, R178, R179, R182, R239, R241 to R243). -/

namespace Sys2Proof.Machine

/-- A cluster that takes no request: in QUIESCE, in diagnostic fabric mode, or in a domain that is (R101, R254, R373) or is off. -/
def State.offline (s : State) (k : ClusterAt) : Bool :=
  (s.cluster k).quiesced || (s.cluster k).diag || (s.domain (domainOf k)).quiesced || !(s.domain (domainOf k)).powered

/-- A link die that is on, where no rule names one: which, the model does not fix (log entry 21). -/
def State.anyLink (s : State) : State × Nat :=
  let on := (List.range 8).filter fun m => (SMap.get {} s.domains (48 + m)).powered
  let d := s.draw
  (d.2, on.getD (d.1.toNat % on.length) 0)

/-- A packet to another package for which no rule names a link die leaves through any one. -/
def State.toPackage (s : State) (p : Packet) : State × Packet :=
  if p.dst.pkg = s.pkg then (s, p)
  else let d := s.anyLink; (d.1, toComp p 2 d.2)

/-- Injects at a core a packet whose destination may be in another package. -/
def State.injectAny (s : State) (c : CoreAt) (p : Packet) : State :=
  let r := s.toPackage p
  r.1.inject c r.2

/-- Acknowledgement body (Table 8.9). -/
def ackBody (tag : BitVec 8) (status : BitVec 4) (scope : BitVec 3) (isRecord : Bool) : BitVec 128 :=
  tag ++ status ++ scope ++ (if isRecord then (1 : BitVec 1) else 0) ++ (0 : BitVec 112)

/-- The sender named by a message header (Table 6.3). -/
def hdrSrc (h : BitVec 128) : LCore := ⟨h.extractLsb' 116 12, h.extractLsb' 111 5, h.extractLsb' 102 9, h.extractLsb' 96 6⟩
def hdrEp (h : BitVec 128) : Nat := bitsOf h.toNat 15 12
def hdrKind (h : BitVec 128) : Nat := bitsOf h.toNat 7 6
def hdrSlots (h : BitVec 128) : Nat := bitsOf h.toNat 5 0 + 1
def hdrSeq (h : BitVec 128) : BitVec 24 := h.extractLsb' 64 24
/-- The reserved fields are zero. -/
def hdrClean (h : BitVec 128) : Bool :=
  decide (bitsOf h.toNat 91 88 = 0) && decide (bitsOf h.toNat 52 16 = 0) && decide (bitsOf h.toNat 11 8 = 0)

/-- The physical cluster of a core of this package by its name. -/
def State.clusterNamed (s : State) (l : LCore) : Option ClusterAt := if l.pkg = s.pkg then (s.coreAt l).map clusterOf else none

/-- Acknowledges a record to its sender (R242). -/
def State.ackRecord (s : State) (c : CoreAt) (h : BitVec 128) (status : BitVec 4) : State :=
  let src := hdrSrc h
  s.injectAny c (packet 5 (s.lcore c) src ((ackBody 0 status (scopeOf src (s.lcore c)) true).setWidth 256))

/-- Adds a record at the write position of a ring; it is recorded once its bytes stand there (R179, R242). -/
def RecvEp.append (e : RecvEp) (kind : BitVec 2) (slots : Nat) : RecvEp :=
  { e with recs := e.recs ++ [{ kind := kind, pos := e.wpos, slots := slots, landed := false }], wpos := (e.wpos + slots) % e.slots,
           expSeq := e.expSeq + 1 }

/-- The oldest record that is not recorded yet stands in its ring. -/
def landFirst (l : List Rec) : List Rec :=
  match l with
  | [] => []
  | r :: t => if r.landed then r :: landFirst t else { r with landed := true } :: t

/-- The router holds what arrives for a core on a virtual channel whose queue is full (R72): 0 Reduce, 1 Bulk, 2 Management. -/
def State.routerHolds (s : State) (c : CoreAt) (q : Nat) : Bool := !s.offline (clusterOf c) && !(s.core c).fabricRoom q

/-- An arrival on a virtual channel that has a queue at the core. -/
def State.onQueue (s : State) (c : CoreAt) (q : Nat) (f : Packet → Bool) (i : Nat) (act : State → State) : State :=
  if s.routerHolds c q then s else s.onArrival f i act

def Core.putRecv (x : Core) (i : Nat) (e : RecvEp) : Core := { x with re := SMap.set {} x.re i e }
def Core.putSend (x : Core) (i : Nat) (e : SendEp) : Core := { x with se := SMap.set {} x.se i e }

/-- A data or skip record is in sequence, in position, has room, is of an allowed kind and clean (R173, R179). A payload of another
length than LEN gives, and a skip that does not end at the last slot, fail too, though R179 does not list them (DESIGN CHOICE, log entry 142). -/
def RecvEp.takes (e : RecvEp) (h : BitVec 128) (payload : Bytes) : Bool :=
  let l := hdrSlots h
  e.valid && decide (e.type = 0) && decide (hdrKind h ≤ 1) && hdrClean h && decide (bitsOf h.toNat 63 53 = 0) && decide (hdrSeq h = e.expSeq) &&
  decide (e.wpos + l ≤ e.slots) && decide (l ≤ e.free) &&
  (if hdrKind h = 0 then decide (payload.length = 64 * l - 16) else decide (e.wpos + l = e.slots) && payload.isEmpty)

/-- Records of an endpoint and their slots, counted (Table 15.6). -/
def State.countRecord (s : State) (c : CoreAt) (sub slots : Nat) : State :=
  (s.count 3 (coreUnit c) sub 0).count 3 (coreUnit c) sub 1 slots

/-- A data or skip record arrives (R96, R179, R180): it is tested, and its bytes go to the fabric side. -/
def State.recordArrives (s : State) (c : CoreAt) (h : BitVec 128) (payload : Bytes) : State :=
  let x := s.core c
  let e := x.recvEp (hdrEp h)
  if s.offline (clusterOf c) then s.ackRecord c h 4
  else if e.takes h payload then
    s.putCore c ((x.putRecv (hdrEp h) (e.append (BitVec.ofNat 2 (hdrKind h)) (hdrSlots h))).enqueue 1
      { ops := writeOps (e.base + e.wpos * 64) (leBytes 16 h.toNat ++ payload), fin := .recorded (hdrEp h) (some h), cycle := s.now c })
  else s.haltBy c fChannelProto 0 (s.clusterNamed (hdrSrc h))

/-- A record stands in its ring (R182, R242): it is recorded, counted and acknowledged to a sender. -/
def State.recorded (s : State) (c : CoreAt) (ep : Nat) (ack : Option (BitVec 128)) : State :=
  let e := (s.core c).recvEp ep
  let slots := (e.recs.find? fun r => !r.landed).elim 0 (·.slots)
  let s := (s.modCore c fun x => x.putRecv ep { e with recs := landFirst e.recs }).countRecord c (16 + ep) slots
  match ack with
  | some h => s.ackRecord c h 0
  | none => s

/-- Detail of CHECK_FAIL: the segment's identity, and in bit 63 whether the error was inserted (R418, R429). -/
def checkDetail (seg : Bytes) (inj : Bool) : BitVec 64 := (if inj then (1 : BitVec 1) else 0) ++ (segDetail seg).extractLsb' 0 63

/-- A segment arrives for the frame of a tile endpoint (R95, R158, R182). It passes the checker whole, and its blocks, scale codes and header
go to the fabric side with the tile record behind them. `mk` makes the message header from the frame number, `ack` is the header of the
message that is acknowledged, `inj` says whether the code carries an inserted error (R418). A failed check halts the cluster; the slots
written before a failing block stay. -/
def State.landSegment (s : State) (c : CoreAt) (ep : Nat) (seg : Bytes) (mk : RecvEp → Nat → BitVec 128) (ack : Option (BitVec 128))
    (inj : Bool := false) : State × Bool :=
  let x := { s.core c with draocChk := partialCode seg }
  let e := x.recvEp ep
  let frame := e.tile % e.frames
  let base := e.frameBase + frame * e.frameStride
  if !draocOk seg then ((s.putCore c x).haltBy c fCheckFail (checkDetail seg inj) (e.feed.bind fun f => s.clusterNamed f.1), false)
  else if !segmentOk seg || decide (segSeg seg ≠ e.seg) || decide (segSeglog seg ≠ e.seglog) then
    ((s.putCore c x).haltBy c fSparseMeta (segDetail seg), false)
  else if !rangeOk seg e.frameStride then ((s.putCore c x).haltBy c fSparseRange (segDetail seg), false)
  else
    let w := unpackWrites seg
    let ops := w.1.flatMap fun p => writeOps (base + p.1) p.2
    if w.2 then ((s.putCore c (x.enqueue 1 { ops := ops, fin := .done, cycle := s.now c })).haltBy c fSparseMeta (segDetail seg), false)
    else
      let rec_ := writeOps (e.base + e.wpos * 64) (leBytes 16 (mk e frame).toNat ++ List.replicate 48 0)
      let last := e.seg + 1 = 2 ^ e.seglog
      let e' := { e.append 2 1 with seg := if last then 0 else e.seg + 1, tile := if last then e.tile + 1 else e.tile }
      (s.putCore c ((x.putRecv ep e').enqueue 1 { ops := ops ++ rec_, fin := .recorded ep ack, cycle := s.now c }), true)

/-- A tile record's header as it stands in the ring: FRAME set (Table 6.3). -/
def withFrame (h : BitVec 128) (frame : Nat) : BitVec 128 := (h &&& ~~~(BitVec.ofNat 128 (255 * 2 ^ 56))) ||| BitVec.ofNat 128 (frame % 256 * 2 ^ 56)

/-- A tile segment arrives in a message (R179, R182). -/
def State.segmentArrives (s : State) (c : CoreAt) (h : BitVec 128) (seg : Bytes) (inj : Bool) : State :=
  let e := (s.core c).recvEp (hdrEp h)
  if s.offline (clusterOf c) then s.ackRecord c h 4
  else if e.valid && decide (e.type = 1) && decide (hdrKind h = 2) && hdrClean h && decide (hdrSeq h = e.expSeq) && decide (1 ≤ e.free) &&
      decide (hdrSlots h = 1) then (s.landSegment c (hdrEp h) seg (fun _ frame => withFrame h frame) (some h) inj).1
  else s.haltBy c fChannelProto 0 (s.clusterNamed (hdrSrc h))

/-! ### Reserved slots of a reply ring (R239, R241) -/

/-- Records that stand at the head of the reservations and have arrived are recorded, in ring order. -/
def settle (fuel : Nat) (e : RecvEp) : RecvEp :=
  match fuel, e.resv with
  | 0, _ => e
  | _, [] => e
  | k + 1, r :: t =>
    if r.skip then settle k { e with recs := e.recs ++ [({ kind := 1, pos := r.pos, slots := r.slots } : Rec)], resv := t }
    else match r.arrived with
      | some q => settle k { e with recs := e.recs ++ [q], resv := t }
      | none => e

def RecvEp.settled (e : RecvEp) : RecvEp := settle (e.resv.length + 1) e

/-- Reserves `n` slots, behind a skip record where they would wrap (R239); the position reserved. -/
def Core.reserve (x : Core) (ep n serial : Nat) (red : Option (Fin 16)) (now : Nat) : Core × Nat :=
  let e := x.recvEp ep
  let tail := e.slots - e.wpos
  if n ≤ tail then
    let r : Resv := { pos := e.wpos, slots := n, serial := serial, red := red }
    (x.putRecv ep { e with resv := e.resv ++ [r], wpos := (e.wpos + n) % e.slots }, e.wpos)
  else
    let y := x.enqueue 1 { ops := writeOps (e.base + e.wpos * 64) (leBytes 16 (msgHeader ⟨0, 0, 0, 0⟩ 0 0 0 ep 1 (tail - 1)).toNat), fin := .done, cycle := now }
    let skip : Resv := { pos := e.wpos, slots := tail, skip := true }
    let r : Resv := { pos := 0, slots := n, serial := serial, red := red }
    let e' : RecvEp := { e with resv := e.resv ++ [skip, r], wpos := n % e.slots }
    (y.putRecv ep e'.settled, 0)

/-- The header of a KIND 3 record (R241). -/
def replyHeader (ep slots : Nat) : BitVec 128 := msgHeader ⟨0, 0, 0, 0⟩ 0 0 0 ep 3 (slots - 1)

/-- Changes the first of a list that a test picks. -/
def changeFirst {α : Type} (f : α → Bool) (g : α → α) (l : List α) : List α :=
  match l with
  | [] => []
  | r :: t => if f r then g r :: t else r :: changeFirst f g t

/-- A reservation that still takes its record. -/
def Resv.open_ (r : Resv) : Bool := !r.filling && r.arrived.isNone && !r.skip

/-- A KIND 3 record goes to the fabric side, for the slots reserved for it (R241). -/
def Core.fillReserved (x : Core) (q ep : Nat) (f : Resv → Bool) (bytes : Bytes) (fin : FabricEnd) (now : Nat) : Core :=
  let e := x.recvEp ep
  match e.resv.find? fun r => f r && r.open_ with
  | none => x
  | some r => (x.putRecv ep { e with resv := changeFirst (fun r => f r && r.open_) (fun r => { r with filling := true }) e.resv }).enqueue q
      { ops := writeOps (e.base + r.pos * 64) (leBytes 16 (replyHeader ep r.slots).toNat ++ bytes), fin := fin, cycle := now }

/-- A KIND 3 record stands in its slots: it is recorded, in ring order (R241). -/
def Core.filled (x : Core) (ep : Nat) (f : Resv → Bool) (status : BitVec 4) (fcode : BitVec 2) (ovf : Bool) : Core :=
  let e := x.recvEp ep
  let g (r : Resv) : Resv :=
    { r with arrived := some { kind := 3, pos := r.pos, slots := r.slots, status := status, fcode := fcode, ovf := ovf } }
  let e' : RecvEp := { e with resv := changeFirst (fun r => f r && r.filling && r.arrived.isNone) g e.resv }
  x.putRecv ep e'.settled

/-- Reply header (Table 8.8). -/
def replyInfo (prior : BitVec 32) (tag : BitVec 8) (status : BitVec 4) (op : BitVec 2) (fa : BitVec 64) : BitVec 128 :=
  prior ++ tag ++ status ++ op ++ (0 : BitVec 18) ++ fa

/-- A reservation for a request. -/
def Resv.isFor (r : Resv) (serial : Nat) : Bool := decide (r.serial = serial) && r.red.isNone

/-- The reply of an outstanding request goes into its reserved slots (R241, R243). -/
def State.replyArrives (s : State) (c : CoreAt) (o : Outstanding) (info : BitVec 128) (data : Bytes) : State :=
  let status := info.extractLsb' 84 4
  let bytes := leBytes 16 info.toNat ++ (if o.op = 1 ∧ status = 0 then data else [])
  s.modCore c fun x =>
    let y := x.fillReserved 1 o.ep.toNat (·.isFor o.serial) bytes (.reply o.ep.toNat o.serial status) (s.now c)
    { y with outstanding := y.outstanding.map fun p => if p = o then { p with answered := true } else p }

/-- The slots reserved for a request. -/
def Core.slotsFor (x : Core) (ep serial : Nat) : Nat := (((x.recvEp ep).resv.find? (·.isFor serial)).map (·.slots)).getD 0

/-- The reply of a request stands in its slots: the request is no longer outstanding (R241). -/
def State.replied (s : State) (c : CoreAt) (ep serial : Nat) (status : BitVec 4) : State :=
  (s.modCore c fun x =>
    let y := x.filled ep (·.isFor serial) status 0 false
    { y with outstanding := y.outstanding.filter fun o => !(decide (o.serial = serial) && decide (o.op ≠ 0)) }).countRecord c (16 + ep) ((s.core c).slotsFor ep serial)

/-- What answers a request: the one with the number that the answer carries, or, for an answer from another package, the first that agrees
with it in what it names (log entry 99). -/
def answersTo (txn : Option Nat) (f : Outstanding → Bool) (o : Outstanding) : Bool :=
  f o && (match txn with
    | some n => decide (o.serial = n)
    | none => true)

/-- An answer too late for its request is discarded and counted (R243). -/
def State.lateAnswer (s : State) (c : CoreAt) (f : Outstanding → Bool) : State :=
  (s.modCore c fun x => { x with late := match x.late.find? f with
    | some o => x.late.erase o
    | none => x.late }).count 2 (coreUnit c) 0 5

/-- A write acknowledgement is recorded: the first write of its tag and scope, or record of its scope, is no longer outstanding; an error
waits for the FENCE, CATCH or HALT that consumes it (R242, R243). -/
def State.ackArrives (s : State) (c : CoreAt) (body : BitVec 128) (txn : Option Nat) : State :=
  let x := s.core c
  let kind := body.getLsbD 112
  let scope := body.extractLsb' 113 3
  let status := body.extractLsb' 116 4
  let f (o : Outstanding) : Bool := decide (o.op = 0) && (o.isRecord == kind) && decide (o.scope = scope) &&
      (kind || (decide (o.tag = body.extractLsb' 120 8) && answersTo txn (fun _ => true) o))
  if x.late.any f then s.lateAnswer c f
  else match x.outstanding.find? f with
    | none => s.lateAnswer c f
    | some o =>
      let err := if x.ackErr.isNone && decide (status ≠ 0) then some status else x.ackErr
      s.putCore c { x with outstanding := x.outstanding.erase o, ackErr := err }

end Sys2Proof.Machine
end

