-- ==== Sys2Proof/Machine/Image.lean ====
section
/-! DEFINITION. Schedule images (R121 to R123, R134, R135, R171, R172, R192, R220, R237, R244, R265, R266, R402 to R404, R454, R455): the
records, the checks of LOAD_IMAGE. Bodies of the record types that the spec does not lay out: log entry 20. -/

namespace Sys2Proof.Machine

/-- What the checks know of the package: grade, mapped clusters of a die, which logical clusters are mapped, the package number, the end
of the job area (Table 9.2). -/
structure ImgCtx where
  grade : Nat
  mapped : Nat → Nat → Bool
  pkg : Nat
  jobEnd : Nat

/-- One record: its offset in the image, header and body. -/
structure ImgRec where
  off : Nat
  hdr : BitVec 128
  body : Bytes
  deriving DecidableEq, Repr

def ImgRec.f (r : ImgRec) (hi lo : Nat) : Nat := bitsOf r.hdr.toNat hi lo
def ImgRec.typ (r : ImgRec) : Nat := r.f 15 0
def ImgRec.die (r : ImgRec) : Nat := r.f 95 91
def ImgRec.cl (r : ImgRec) : Nat := r.f 90 82
def ImgRec.core (r : ImgRec) : Nat := r.f 81 76
def ImgRec.all (r : ImgRec) : Bool := r.hdr.getLsbD 75
/-- Field of n bytes at offset o of the body. -/
def ImgRec.n (r : ImgRec) (o n : Nat) : Nat := numAt r.body o n

/-- The records from offset `o` on, in order, and the offset of a record whose length ends the walk. R122 does not say what may follow the
last record: an all-zero rest is taken as the padding of the last container segment (DESIGN CHOICE, log entry 121). -/
def parseRecs (fuel : Nat) (o : Nat) (b : Bytes) : List ImgRec × List Nat :=
  match fuel with
  | 0 => ([], [])
  | k + 1 =>
    if allZero b then ([], [])
    else
      let len := numAt b 4 4
      if len < 16 ∨ len % 16 ≠ 0 ∨ b.length < len then ([], [o])
      else
        let r := parseRecs k (o + len) (b.drop len)
        (⟨o, BitVec.ofNat 128 (numAt b 0 16), bytesAt b 16 (len - 16)⟩ :: r.1, r.2)

/-- All records of an image. -/
def imageRecs (img : Bytes) : List ImgRec × List Nat := parseRecs (img.length / 16 + 1) 0 img

/-- Types that name no core: identity, region table, phase table, transfer. -/
def ImgRec.common (r : ImgRec) : Bool := decide (r.typ = 1) || decide (r.typ = 2) || decide (r.typ = 0xD) || decide (r.typ = 0xE)

/-- Body lengths of the fixed-length types (log entry 20). -/
def ImgRec.lengthOk (r : ImgRec) : Bool :=
  match r.typ with
  | 3 => decide (r.body.length = 16384)
  | 4 => decide (r.body.length = 512)
  | 5 => decide (r.body.length = 80)
  | 6 => decide (r.body.length = 320)
  | 7 => decide (r.body.length = 16)
  | 8 => decide (r.body.length = if r.all then 17280 else 512)
  | 9 => decide (r.body.length = 16)
  | 0xA => decide (r.body.length = 144)
  | 0xB => decide (r.body.length = 512) && r.all
  | 0xE => decide (r.body.length = 16)
  | _ => true

/-- Header rules of R122 (Table 4.9). -/
def ImgRec.headerOk (x : ImgCtx) (r : ImgRec) : Bool :=
  decide (r.f 127 96 = 0) && decide (r.f 74 64 = 0) && decide (r.f 31 16 = 0) && decide (1 ≤ r.typ) && decide (r.typ ≤ 0xE) &&
  (if r.common then !r.all && decide (r.die = 0) && decide (r.cl = 0) && decide (r.core = 0)
   else (!r.all || decide (r.core = 0)) && decide (r.die < 24) && x.mapped r.die r.cl) && r.lengthOk

/-! ### Identity record (R402 to R404) -/

def settingAt (r : ImgRec) (i : Nat) : Nat := r.n (64 + 32 * i) 32

/-- Audit rates that SPARSE_CTRL allows (Table 5.3). -/
def auditOk (a : Nat) : Bool := decide (a = 0) || (decide (3 ≤ a) && decide (a ≤ 10))

/-- One settings entry (Table 15.3). -/
def settingOk (e : Nat) : Bool :=
  let f (hi lo : Nat) : Nat := bitsOf e hi lo
  decide (f 100 0 = 0) && decide (f 151 150 ≠ 3) && decide (f 139 138 ≠ 3) &&
  decide (f 223 220 < 0xE) && decide (f 219 216 < 0xE) && decide (f 105 102 < 0xE) && decide (f 214 212 = 0) &&
  decide (f 211 208 < 0xE) && decide (f 207 204 < 0xE) &&
  (decide (f 151 150 = 1) || decide (f 183 152 = 0)) &&
  (if f 151 150 = 2 then decide (1 ≤ f 149 145) && decide (f 149 145 ≤ 16) else decide (f 149 145 = 0)) &&
  auditOk (f 144 141) &&
  (if f 139 138 = 0 then decide (f 137 122 = 0) && decide (f 121 106 = 0) else decide (1 ≤ f 137 122) && decide (f 121 106 < f 137 122))

/-- Strictly ascending numbers. -/
def rising (l : List Nat) : Bool :=
  match l with
  | a :: b :: r => decide (a < b) && rising (b :: r)
  | _ => true

/-- The identity record names the package's grade and levels (R404): NCL 1, CA level 1. -/
def gradeOk (x : ImgCtx) (r : ImgRec) : Bool := decide (r.n 40 1 = 1) && decide (r.n 41 1 = 1) && decide (r.n 42 1 = x.grade)

def identCounts (r : ImgRec) : Nat × Nat × Nat × Nat × Nat := (r.n 56 2, r.n 58 2, r.n 60 1, r.n 61 1, r.n 62 1)

/-- Offset of the replica entries and of the shard placements in the body. -/
def replicaOff (r : ImgRec) : Nat := 64 + 32 * r.n 56 2 + 4 * r.n 58 2
def placeOff (r : ImgRec) : Nat := replicaOff r + 4 * r.n 61 1
/-- The shard placements: those up to the padding, of which there are at most 12 B; up to three words of zeros at the end are taken as padding
(R402 gives no number of placements: DESIGN CHOICE, log entry 139). -/
def placements (r : ImgRec) : List Nat :=
  let l := (List.range ((r.body.length - placeOff r) / 4)).map fun i => r.n (placeOff r + 4 * i) 4
  l.take (l.length - ((l.reverse.take 3).takeWhile (· == 0)).length)

/-- R404 but for the grade. -/
def identityRecOk (x : ImgCtx) (r : ImgRec) : Bool :=
  let n := r.n 56 2; let t := r.n 58 2; let d := r.n 60 1; let rr := r.n 61 1; let s := r.n 62 1
  let tids := (List.range t).map fun i => r.n (64 + 32 * n + 4 * i) 4
  decide (64 ≤ r.body.length) && decide (r.n 43 1 = 0) && decide (r.n 63 1 = 0) && decide (1 ≤ n) && decide (n ≤ 4096) && decide (t ≤ 1024) &&
  decide (d ≤ 64) && decide (rr ≤ 64) && decide (s ≤ 128) && decide (placeOff r ≤ r.body.length) &&
  (if t = 0 then decide (d = 0) && decide (rr = 0) && decide (s = 0) && (placements r).isEmpty
   else decide (1 ≤ d) && decide (1 ≤ rr) && decide (1 ≤ s)) &&
  (List.range n).all (fun i => settingOk (settingAt r i)) &&
  rising ((List.range n).map fun i => settingAt r i / 2 ^ 224) && rising tids &&
  (List.range rr).all (fun i => let e := r.n (replicaOff r + 4 * i) 4; decide (bitsOf e 15 8 = 0) && decide (bitsOf e 31 28 = 0)) &&
  (placements r).all (fun e => decide (bitsOf e 31 27 = 0) && decide (bitsOf e 5 0 < rr) && decide (bitsOf e 12 6 < s) &&
    x.mapped (bitsOf e 17 13) (bitsOf e 26 18))

/-! ### Phases (R134, R135) -/

/-- A phase: number, record run, transfer run (offset, length each). -/
structure PhaseEntry where
  num : Nat
  run : Nat × Nat
  xfer : Nat × Nat
  deriving DecidableEq, Repr

/-- The entries of a phase table record (Tables 4.17, 4.18). -/
def phaseEntries (r : ImgRec) : List PhaseEntry :=
  (List.range (r.n 0 1)).map fun i => let o := 16 + 32 * i; ⟨r.n o 1, (r.n (o + 8) 8, r.n (o + 16) 4), (r.n (o + 24) 8, r.n (o + 20) 4)⟩

def phaseTable (recs : List ImgRec) : Option ImgRec := recs.find? fun r => decide (r.typ = 0xD)

/-- Records inside a byte range of the image: those that begin in it. One that begins in a run and reaches past its end stands in the run by
its first byte (R134 does not say: DESIGN CHOICE, log entry 136). -/
def inRange (recs : List ImgRec) (g : Nat × Nat) : List ImgRec := recs.filter fun r => decide (g.1 ≤ r.off) && decide (r.off < g.1 + g.2)

/-- The record run of a phase: all records that configure cores, in an image without a phase table. -/
def phaseRun (recs : List ImgRec) (q : Nat) : Option (List ImgRec) :=
  match phaseTable recs with
  | none => if q = 0 then some (recs.filter fun r => !r.common) else none
  | some t => ((phaseEntries t).find? fun e => decide (e.num = q)).map fun e => inRange recs e.run

def initialPhase (recs : List ImgRec) : Nat :=
  match phaseTable recs with
  | none => 0
  | some t => t.n 1 1

/-- The transfer schedules of a run: each transfer record with the records behind it. -/
def splitTransfers (l : List ImgRec) : List (ImgRec × List ImgRec) :=
  l.foldl (fun a r => if r.typ = 0xE then a ++ [(r, [])] else match a.reverse with
    | [] => a
    | (h, t) :: rest => (((h, t ++ [r]) :: rest).reverse)) []

/-- The transfer schedule from phase p into phase q (R135). -/
def transferFor (recs : List ImgRec) (p q : Nat) : Option (List ImgRec) :=
  match phaseTable recs with
  | none => none
  | some t => match (phaseEntries t).find? fun e => decide (e.num = q) with
    | none => none
    | some e => ((splitTransfers (inRange recs e.xfer)).find? fun s => decide (s.1.n 0 1 = p)).map (·.2)

/-- Types that a transfer run allows (R135). -/
def transferType (t : Nat) : Bool := [3, 4, 5, 6, 7, 8, 0xA, 0xB, 0xE].contains t

/-- Two byte ranges overlap. -/
def overlap (a b : Nat × Nat) : Bool := decide (a.1 < b.1 + b.2) && decide (b.1 < a.1 + a.2)

/-- No two of some ranges overlap. -/
def disjoint (l : List (Nat × Nat)) : Bool :=
  match l with
  | [] => true
  | a :: r => r.all (fun b => !overlap a b) && disjoint r

/-- The phase table record (R134, R135). -/
def phaseOk (recs : List ImgRec) (len : Nat) (r : ImgRec) : Bool :=
  let es := phaseEntries r
  let runs := (es.flatMap fun e => [e.run, e.xfer]).filter fun g => decide (g.2 ≠ 0)
  let nums := es.map (·.num)
  decide (1 ≤ r.n 0 1) && decide (r.n 0 1 ≤ 8) && decide (r.body.length = 16 + 32 * r.n 0 1) && allZero (bytesAt r.body 2 14) &&
  (List.range (r.n 0 1)).all (fun i => decide (r.n (17 + 32 * i) 7 = 0)) &&
  rising nums && nums.all (fun n => decide (n < 8)) && nums.contains (r.n 1 1) &&
  es.all (fun e => decide (e.run.1 % 16 = 0) && decide (e.run.2 % 16 = 0) && decide (e.run.1 + e.run.2 ≤ len) &&
    decide (e.xfer.1 % 16 = 0) && decide (e.xfer.1 + e.xfer.2 ≤ len) && (decide (e.xfer.2 ≠ 0) || decide (e.xfer.1 = 0))) &&
  disjoint (runs ++ (recs.filter fun q => q.common && decide (q.typ ≠ 0xE)).map fun q => (q.off, q.body.length + 16)) &&
  es.all (fun e => (inRange recs e.run).all (fun q => !q.common)) &&
  es.all (fun e => (inRange recs e.xfer).all (fun q => transferType q.typ) && (decide (e.xfer.2 = 0) || !(inRange recs e.xfer).isEmpty))

/-- The records that make a transfer run bad (R135): one of a type that it does not allow, one in front of the first transfer record, and a
transfer record whose TO is not the phase of the run, whose FROM no entry of the phase table has, or whose FROM an earlier one of the run has.
R135 rejects the run and names no offset; each of these is rejected at its own offset (DESIGN CHOICE, log entry 135). -/
def transferBad (recs : List ImgRec) : List Nat :=
  match phaseTable recs with
  | none => []
  | some t =>
    let es := phaseEntries t
    es.flatMap fun e =>
      let l := inRange recs e.xfer
      let bad (r : ImgRec) : Bool := decide (r.n 1 1 ≠ e.num) || !(es.map (·.num)).contains (r.n 0 1) ||
        l.any fun q => decide (q.typ = 0xE) && decide (q.off < r.off) && decide (q.n 0 1 = r.n 0 1)
      ((l.takeWhile fun r => decide (r.typ ≠ 0xE)) ++ l.filter fun r => !transferType r.typ || (decide (r.typ = 0xE) && bad r)).map (·.off)

/-! ### Region table (R123, R266) -/

def memberAt (r : ImgRec) (i : Nat) : Nat := r.n (16 + 4 * i) 4
def members (r : ImgRec) : List Nat := (List.range (r.n 0 4)).map (memberAt r)
def memPhase (e : Nat) : Nat := bitsOf e 30 28
def memRegion (e : Nat) : Nat := bitsOf e 27 14
def memCl (e : Nat) : Nat := bitsOf e 13 5
def memDie (e : Nat) : Nat := bitsOf e 4 0

/-- The stream list: moon die, stream number, entry (Table 4.10A). -/
def streamList (r : ImgRec) : List (Nat × Nat × BitVec 256) :=
  let o := pad16 (16 + 4 * r.n 0 4)
  (List.range (r.n 4 4)).map fun i =>
    (bitsOf (r.n (o + 48 * i) 4) 1 0, bitsOf (r.n (o + 48 * i) 4) 16 2, BitVec.ofNat 256 (r.n (o + 48 * i + 16) 32))

/-- A stream entry by itself (Table 9.3, R266). -/
def streamOk (x : ImgCtx) (e : BitVec 256) : Bool :=
  let f (hi lo : Nat) : Nat := bitsOf e.toNat hi lo
  decide (f 159 154 = 0) && decide (f 63 0 = 0) &&
  (if f 254 254 = 0 then decide (f 251 250 ≤ 1)
   else decide (f 253 252 = 0) && decide (f 251 250 = 0) && decide (f 249 248 = 0) && decide (f 247 240 = 0) && decide (f 111 88 = 0)) &&
  decide ((f 153 112 + (f 239 224 + 1) * f 207 192) * 64 ≤ x.jobEnd)

/-- The region table record by itself. -/
def regionOk (x : ImgCtx) (phases : List Nat) (r : ImgRec) : Bool :=
  let g := r.n 0 4; let s := r.n 4 4
  let o := pad16 (16 + 4 * g)
  let keys := (members r).map fun e => (memPhase e * 32 + memDie e) * 512 + memCl e
  decide (16 ≤ r.body.length) && decide (1 ≤ g) && decide (g ≤ 51840) && decide (s ≤ 131072) && decide (r.n 8 8 = 0) &&
  decide (r.body.length = o + 48 * s) && allZero (bytesAt r.body (16 + 4 * g) (o - (16 + 4 * g))) &&
  (members r).all (fun e => decide (bitsOf e 31 31 = 0) && phases.contains (memPhase e) && x.mapped (memDie e) (memCl e)) &&
  rising keys &&
  (List.range s).all (fun i => decide (bitsOf (r.n (o + 48 * i) 4) 31 17 = 0) && allZero (bytesAt r.body (o + 48 * i + 4) 12)) &&
  decide (((streamList r).map fun e => (e.1, e.2.1)).Nodup) && (streamList r).all (fun e => streamOk x e.2.2)

/-! ### Configuration records by themselves -/

def wordAt (b : Bytes) (o : Nat) : BitVec 128 := BitVec.ofNat 128 (numAt b o 16)
def recSend (r : ImgRec) (i : Nat) : SendEp := { entry := wordAt r.body (16 * i) }
def recRecv (r : ImgRec) (i : Nat) : RecvEp := { entry := wordAt r.body (256 + 16 * i) }
def recGroup (r : ImgRec) (g i : Nat) : BitVec 32 := BitVec.ofNat 32 (r.n (512 + 4 * groupAt g + 4 * i) 4)
def recCatch (r : ImgRec) (i : Nat) : BitVec 64 := BitVec.ofNat 64 (r.n (17152 + 8 * i) 8)
def recRed (r : ImgRec) (i : Nat) : RedSt := { entry := BitVec.ofNat 256 (r.n (32 * i) 32) }
def recWin (r : ImgRec) (i : Nat) : Nat := r.n (16 * i) 16

/-- A send endpoint by itself (Table 6.1, R16, R172, R265); DST_DIE from 24 to 27 names a stream also with MCAST = 1. -/
def sendOk (e : SendEp) : Bool :=
  decide (e.f 36 0 = 0) && decide (e.dieField < 28) && (!e.valid || (decide (e.type < 2) && !(e.mcast && e.remote) &&
    (e.mcast || decide (e.group = 0)) && (!e.mcast || decide (e.dstEp = 0)) && (e.remote || decide (e.f 79 68 = 0)) &&
    (!e.remote || decide (e.f 118 108 = 0)) &&
    (decide (e.type ≠ 0) || decide (e.srcBase + (e.srcSize + 1) * 64 ≤ 131072)) &&
    (e.remote || decide (e.dieField < 24) ||
      (decide (e.type = 1) && decide (e.dstEp = 0) && (decide (e.f 118 108 = 15) || decide (e.f 118 108 = 31))))))

/-- The ring of a receive endpoint. -/
def RecvEp.span (e : RecvEp) : Nat × Nat := (e.base, e.slots * 64)

/-- A receive endpoint by itself (Table 6.2, R16, R172). SEGLOG and FRAME_COUNT are zero where TYPE is not 1; Table 6.2 does not say so of
FRAME_STRIDE and FRAME_BASE, which may then hold anything. -/
def recvOk (e : RecvEp) : Bool :=
  decide (e.f 65 0 = 0) && (!e.valid || (decide (e.type < 3) && decide (e.base + e.slots * 64 ≤ 131072) &&
    (if e.type = 1 then decide (e.slots = e.frames * 2 ^ e.seglog) && decide (e.frameBase + e.frames * e.frameStride ≤ 131072)
     else decide (e.f 119 110 = 0))))

/-- The rings of a core. -/
def recRings (r : ImgRec) : List (Nat × Nat) :=
  ((List.range 16).map (recRecv r)).filterMap fun e => if e.valid then some e.span else none

/-- A multicast group: header and target entries (R16, Tables 6.6 and 6.7). -/
def groupOk (r : ImgRec) (g : Nat) : Bool :=
  let h := (recGroup r g 0).toNat
  decide (bitsOf h 30 17 = 0) && decide (bitsOf h 10 4 = 0) &&
  (List.range 64).all (fun i => decide (bitsOf (recGroup r g (1 + i)).toNat 31 20 = 0)) &&
  (decide (bitsOf h 31 31 = 0) || decide (1 ≤ bitsOf h 16 11))

/-- A catch entry by itself (Table 6.11, R16, R192). -/
def catchOk (e : BitVec 64) : Bool :=
  let f (hi lo : Nat) : Nat := bitsOf e.toNat hi lo
  decide (f 24 0 = 0) && (decide (f 63 63 = 0) || (decide (f 57 51 ≤ 64) && (decide (f 62 62 = 0) || decide (f 50 25 = 0))))

/-- A window, whatever its VALID says (Table 8.11, R244). -/
def winOk (w : Nat) : Bool :=
  decide (bitsOf w 47 0 = 0) && decide ((bitsOf w 123 112 + bitsOf w 111 100 + 1) * 32 ≤ 131072) &&
  decide (bitsOf w 87 76 ≤ bitsOf w 99 88) && decide (bitsOf w 70 66 ≤ bitsOf w 75 71) && decide (bitsOf w 56 48 ≤ bitsOf w 65 57)

/-- A reduction entry by itself (Table 7.7, R16, R220). -/
def redOk (e : RedSt) : Bool :=
  decide (e.f 124 64 = 0) && (!e.valid || (
    (match e.mode with
      | 0 => decide (e.fmt = 0xC)
      | 1 => decide (e.fmt = 0xD)
      | _ => decide (e.fmt = 9) || decide (e.fmt = 0xD)) &&
    decide (e.p ≤ 1024) && (decide (e.mask ≠ 0) || decide (e.children ≠ 0)) && decide (e.children ≤ 64) &&
    (!e.root || decide (e.f 217 192 = 0)) && decide (e.bufBase + 2688 ≤ 131072) && decide (e.srcBase + e.w * 64 ≤ 131072)))

/-- The placements of a record of initial contents: frame offset and segments; none where the record is broken (R454). -/
def spadPieces (fuel : Nat) (b : Bytes) : Option (List (Nat × List Bytes)) :=
  match fuel with
  | 0 => none
  | k + 1 =>
    if b.isEmpty then some []
    else
      let w := numAt b 0 16
      let n := bitsOf w 23 20
      let take (p : Option (List Bytes × Bytes)) : Option (List Bytes × Bytes) := match p with
        | none => none
        | some (l, r) => if r.length < segLen r ∨ 4016 < segPlen r then none else some (l ++ [r.take (segLen r)], r.drop (segLen r))
      if decide (w ≠ bitsOf w 16 0 + n * 2 ^ 20) || decide (n < 1) || decide (8 < n) || decide (bitsOf w 16 0 % 64 ≠ 0) then none
      else match (List.range n).foldl (fun p _ => take p) (some ([], b.drop 16)) with
        | none => none
        | some (l, r) => (spadPieces k r).map fun t => (bitsOf w 16 0, l) :: t

/-- A segment of initial contents passes every check of R454. -/
def pieceOk (at_ : Nat) (seg : Bytes) : Bool :=
  draocOk seg && segmentOk seg && rangeOk seg (131072 - at_) && !(unpackWrites seg).2

/-- A record by itself. -/
def ImgRec.bodyOk (x : ImgCtx) (recs : List ImgRec) (len : Nat) (r : ImgRec) : Bool :=
  match r.typ with
  | 1 => identityRecOk x r
  | 2 => regionOk x (match phaseTable recs with
      | none => [0]
      | some t => (phaseEntries t).map (·.num)) r
  | 4 => (List.range 16).all fun i => decide (bitsOf (r.n (32 * i) 32) 255 242 = 0) && decide (bitsOf (r.n (32 * i) 32) 239 233 = 0)
  | 5 => decide (bitsOf (r.n 64 4) 31 3 = 0) && decide (bitsOf (r.n 68 4) 31 20 = 0) && decide (bitsOf (r.n 68 4) 14 3 = 0) &&
      auditOk (bitsOf (r.n 68 4) 19 16) && decide (r.n 72 8 = 0)
  | 7 => r.body.all fun b => decide (bitsOf b.toNat 7 5 = 0)
  | 8 => (List.range 16).all (fun i => sendOk (recSend r i) && recvOk (recRecv r i)) && disjoint (recRings r) &&
      decide (((List.range 16).filter fun i => (recSend r i).valid && (recSend r i).mcast).length ≤ 2) &&
      (!r.all || ((List.range 64).all (groupOk r) && (List.range 16).all fun i => catchOk (recCatch r i)))
  | 9 => decide (bitsOf (r.n 0 8) 63 33 = 0) && decide (r.n 8 8 = 0) && decide (bitsOf (r.n 0 8) 15 8 < 16) && decide (bitsOf (r.n 0 8) 7 0 < 16) &&
      (decide (bitsOf (r.n 0 8) 32 32 = 0) || decide (bitsOf (r.n 0 8) 15 8 ≠ bitsOf (r.n 0 8) 7 0))
  | 0xA => (List.range 8).all (fun i => winOk (recWin r i)) && decide (bitsOf (r.n 128 16) 127 11 = 0) &&
      decide (bitsOf (r.n 128 16) 10 0 * 64 + 4096 ≤ 131072)
  | 0xB => (List.range 16).all (fun i => redOk (recRed r i)) &&
      decide ((((List.range 16).map (recRed r)).filter (·.valid)).map (·.rid)).Nodup
  | 0xC => match spadPieces (r.body.length + 1) r.body with
    | none => false
    | some l => l.all fun p => p.2.all (pieceOk p.1)
  | 0xD => phaseOk recs len r
  | 0xE => allZero (r.body.drop 2)
  | _ => true

/-! ### Checks across the records of one configuration -/

/-- The record of a type that configures a core: the last that names it. -/
def recFor (rs : List ImgRec) (typ die cl core : Nat) : Option ImgRec :=
  rs.reverse.find? fun r => decide (r.typ = typ) && decide (r.die = die) && decide (r.cl = cl) && (r.all || decide (r.core = core))

/-- The record of a type that configures a cluster. -/
def recForAll (rs : List ImgRec) (typ die cl : Nat) : Option ImgRec :=
  rs.reverse.find? fun r => decide (r.typ = typ) && decide (r.die = die) && decide (r.cl = cl) && r.all

/-- The clusters that some records name. -/
def clustersIn (rs : List ImgRec) : List (Nat × Nat) := (rs.map fun r => (r.die, r.cl)).dedup

/-- One feed of a receive endpoint: the record and sender, and the target. -/
structure Feed where
  off : Nat
  src : Nat × Nat × Nat
  ep : Nat
  e : SendEp
  dst : Nat × Nat × Nat
  dep : Nat

/-- The feeds of the cores of one cluster. -/
def feedsOf (rs : List ImgRec) (k : Nat × Nat) : List Feed :=
  (List.range 64).flatMap fun c =>
    match recFor rs 8 k.1 k.2 c with
    | none => []
    | some r => (List.range 16).flatMap fun i =>
      let e := recSend r i
      if !e.valid || e.remote || (!e.mcast && decide (24 ≤ e.dieField)) then []
      else if e.mcast then
        match recForAll rs 8 k.1 k.2 with
        | none => [⟨r.off, (k.1, k.2, c), i, e, (31, 0, 0), 0⟩]
        | some a =>
          let h := (recGroup a e.group 0).toNat
          (List.range (bitsOf h 16 11 + 1)).map fun j =>
            let t := (recGroup a e.group (1 + j)).toNat
            ⟨r.off, (k.1, k.2, c), i, e, (bitsOf t 19 15, bitsOf t 14 6, bitsOf t 5 0), bitsOf h 3 0⟩
      else [⟨r.off, (k.1, k.2, c), i, e, (e.dieField, e.f 62 54, e.f 53 48), e.dstEp⟩]

/-- Every feed of a configuration. -/
def feeds (rs : List ImgRec) : List Feed := (clustersIn rs).flatMap (feedsOf rs)

/-- The receive endpoint of a core in a configuration. -/
def recvIn (rs : List ImgRec) (d : Nat × Nat × Nat) (ep : Nat) : Option RecvEp :=
  (recFor rs 8 d.1 d.2.1 d.2.2).map fun r => recRecv r ep

/-- A feed agrees with the receive endpoint it names, and is its only one (R172). -/
def feedOk (rs : List ImgRec) (fs : List Feed) (f : Feed) : Bool :=
  match recvIn rs f.dst f.dep with
  | none => false
  | some t => t.valid && !t.remoteOk && decide (t.type = f.e.type) && decide (t.slots = f.e.f 118 108 + 1) &&
      decide ((fs.filter fun g => decide (g.dst = f.dst) && decide (g.dep = f.dep)).length = 1)

/-- Offsets of endpoint records that break R172 across records. -/
def feedBad (rs : List ImgRec) : List Nat := ((feeds rs).filter fun f => !feedOk rs (feeds rs) f).map (·.off)

/-- Multicast groups in use whose targets differ in ring size or TYPE (R172), whether an endpoint names the group or not. -/
def groupBad (rs : List ImgRec) : List Nat :=
  (clustersIn rs).flatMap fun k =>
    match recForAll rs 8 k.1 k.2 with
    | none => []
    | some a => (List.range 64).filterMap fun g =>
      let h := (recGroup a g 0).toNat
      let l := (List.range (bitsOf h 16 11 + 1)).filterMap fun j =>
        let t := (recGroup a g (1 + j)).toNat
        (recvIn rs (bitsOf t 19 15, bitsOf t 14 6, bitsOf t 5 0) (bitsOf h 3 0)).map fun e => (e.slots, e.type)
      if bitsOf h 31 31 = 1 ∧ 1 < l.dedup.length then some a.off else none

/-- The send endpoints of a configuration that name streams: record offset, endpoint number, endpoint, core. -/
def streamEps (rs : List ImgRec) : List (Nat × Nat × SendEp × Nat × Nat × Nat) :=
  (clustersIn rs).flatMap fun k => (List.range 64).flatMap fun c =>
    match recFor rs 8 k.1 k.2 c with
    | none => []
    | some r => (List.range 16).filterMap fun i =>
      let e := recSend r i
      if e.valid && !e.remote && decide (24 ≤ e.dieField) then some (r.off, i, e, k.1, k.2, c) else none

/-- Endpoint records that name a stream which no list entry holds (R266). -/
def streamEpBad (rs : List ImgRec) (region : ImgRec) : List Nat :=
  (streamEps rs).filterMap fun n =>
    if (streamList region).any fun s => decide (s.1 = n.2.2.1.moon) && decide (s.2.1 = n.2.2.1.streamNo) then none else some n.1

/-- The send endpoints of a configuration that name a stream of the list. -/
def ownersOf (rs : List ImgRec) (s : Nat × Nat × BitVec 256) : List (Nat × Nat × SendEp × Nat × Nat × Nat) :=
  (streamEps rs).filter fun n => decide (n.2.2.1.moon = s.1) && decide (n.2.2.1.streamNo = s.2.1)

/-- A send endpoint is the owner that a stream's entry names, with the RSLOTS of its direction (R265, R266). -/
def isOwner (e : BitVec 256) (n : Nat × Nat × SendEp × Nat × Nat × Nat) : Bool :=
  let f (hi lo : Nat) : Nat := bitsOf e.toNat hi lo
  decide (n.2.1 = f 67 64) && decide ((n.2.2.2.1, n.2.2.2.2.1, n.2.2.2.2.2) = (f 87 83, f 82 74, f 73 68)) &&
  decide (n.2.2.1.f 118 108 = if f 254 254 = 0 then 15 else 31)

/-- The receive endpoint of a stream is right in a configuration, with no other feed (R172, R266). -/
def streamFeeds (rs : List ImgRec) (e : BitVec 256) : Bool :=
  let f (hi lo : Nat) : Nat := bitsOf e.toNat hi lo
  decide (f 254 254 = 1) || (match recvIn rs (f 111 107, f 106 98, f 97 92) (f 91 88) with
    | none => false
    | some t => t.valid && decide (t.type = 1) && !t.remoteOk &&
      !(feeds rs).any (fun g => decide (g.dst = (f 111 107, f 106 98, f 97 92)) && decide (g.dep = f 91 88)))

/-- A stream of the region table breaks R172 or R266 in the configurations of an image, one for each phase and each transfer schedule: none serves it, or one
has an endpoint name it that is not its owner, two endpoints name it, or a receive endpoint that is wrong; or another read stream feeds its
receive endpoint. -/
def streamBad (runs : List (List ImgRec)) (all : List (Nat × Nat × BitVec 256)) (s : Nat × Nat × BitVec 256) : Bool :=
  let e := s.2.2
  let read (e : BitVec 256) : Bool := e.getLsbD 255 && !e.getLsbD 254
  e.getLsbD 255 &&
  (!runs.any (fun rs => !(ownersOf rs s).isEmpty) ||
    runs.any (fun rs => let l := ownersOf rs s
      l.any (fun n => !isOwner e n) || decide (1 < l.length) || (!l.isEmpty && !streamFeeds rs e)) ||
    (read e && decide (1 < (all.filter fun t => read t.2.2 && decide (t.2.2.extractLsb' 88 24 = e.extractLsb' 88 24)).length)))

/-- Request tables over rings (R237). -/
def tableBad (rs : List ImgRec) : List Nat :=
  (clustersIn rs).flatMap fun k => (List.range 64).filterMap fun c =>
    match recFor rs 0xA k.1 k.2 c, recFor rs 8 k.1 k.2 c with
    | some w, some r => if (recRings r).any (overlap (bitsOf (w.n 128 16) 10 0 * 64, 4096)) then some w.off else none
    | _, _ => none

/-- Catch entries across clusters (R192). -/
def catchBad (x : ImgCtx) (rs : List ImgRec) : List Nat :=
  let es : List (Nat × Nat × Nat × Nat × Nat) := (clustersIn rs).flatMap fun k =>
    match recForAll rs 8 k.1 k.2 with
    | none => []
    | some r => (List.range 16).filterMap fun i =>
      let e := (recCatch r i).toNat
      if bitsOf e 63 63 = 1 then some (r.off, k.1, k.2, i, e) else none
  let parentIs (e : Nat) (d c : Nat) : Bool :=
    decide (bitsOf e 62 62 = 0) && decide (bitsOf e 50 39 = x.pkg) && decide (bitsOf e 38 34 = d) && decide (bitsOf e 33 25 = c)
  es.filterMap fun t =>
    let e := t.2.2.2.2
    let here := decide (bitsOf e 62 62 = 0) && decide (bitsOf e 50 39 = x.pkg)
    let parentOk := !here || es.any fun u => decide (u.2.2.2.1 = t.2.2.2.1) && decide (u.2.1 = bitsOf e 38 34) && decide (u.2.2.1 = bitsOf e 33 25)
    let kids := (es.filter fun u => decide (u.2.2.2.1 = t.2.2.2.1) && parentIs u.2.2.2.2 t.2.1 t.2.2.1).length
    if parentOk && decide (kids ≤ bitsOf e 57 51) then none else some t.1

/-- Reduction entries across cores and clusters (R220). -/
def redBad (x : ImgCtx) (rs : List ImgRec) : List Nat :=
  let es : List (Nat × Nat × Nat × RedSt) := (clustersIn rs).flatMap fun k =>
    match recForAll rs 0xB k.1 k.2 with
    | none => []
    | some r => (List.range 16).filterMap fun i => let e := recRed r i; if e.valid then some (r.off, k.1, k.2, e) else none
  es.filterMap fun t =>
    let e := t.2.2.2
    let same := es.filter fun u => decide (u.2.2.2.rid = e.rid)
    let ringsOf (c : Nat) : List (Nat × Nat) := match recFor rs 8 t.2.1 t.2.2.1 c with
      | none => []
      | some r => recRings r
    let coresOk := (List.range 64).all fun c => !e.mask.getLsbD c ||
      (!(ringsOf c).any (overlap (e.srcBase, e.w * 64)) &&
        (match recvIn rs (t.2.1, t.2.2.1, c) e.replyEp with
          | none => false
          | some q => q.valid && decide (q.type = 2)))
    let kids := (same.filter fun u => !u.2.2.2.root && decide (u.2.2.2.parent.pkg.toNat = x.pkg) &&
      decide (u.2.2.2.parent.die.toNat = t.2.1) && decide (u.2.2.2.parent.cl.toNat = t.2.2.1)).length
    let parentOk := e.root || decide (e.parent.pkg.toNat ≠ x.pkg) ||
      same.any fun u => decide (u.2.1 = e.parent.die.toNat) && decide (u.2.2.1 = e.parent.cl.toNat)
    let targetOk := e.ret || decide (e.target.pkg.toNat ≠ x.pkg) || same.any fun u =>
      decide (u.2.1 = e.target.die.toNat) && decide (u.2.2.1 = e.target.cl.toNat) && u.2.2.2.mask.getLsbD e.target.core.toNat
    let agree := same.all fun u => decide ((u.2.2.2.ret, u.2.2.2.mode, u.2.2.2.fmt, u.2.2.2.elems, u.2.2.2.f 188 157) =
      (e.ret, e.mode, e.fmt, e.elems, e.f 188 157))
    if coresOk && !(ringsOf e.bufCore.val).any (overlap (e.bufBase, 2688)) && decide (kids ≤ e.children) && parentOk && targetOk && agree
    then none else some t.1

/-- Rejections across the records of one configuration. -/
def configBad (x : ImgCtx) (rs : List ImgRec) : List Nat := feedBad rs ++ groupBad rs ++ tableBad rs ++ catchBad x rs ++ redBad x rs

/-- Clusters that the record run of a phase names without a membership entry (R123). The records of a transfer run are not counted as records
of the phase they lead into (R123 does not say: DESIGN CHOICE, log entry 137). -/
def membersMissing (region : ImgRec) (rs : List ImgRec) (q : Nat) : Bool :=
  (clustersIn rs).any fun k => !(members region).any fun e => decide (memPhase e = q) && decide (memDie e = k.1) && decide (memCl e = k.2)

/-- Offsets of the records after the first of a type. -/
def repeats (recs : List ImgRec) (t : Nat) : List Nat := ((recs.filter fun r => decide (r.typ = t)).drop 1).map (·.off)

/-- The phases of an image. -/
def phasesOf (recs : List ImgRec) : List Nat :=
  match phaseTable recs with
  | none => [0]
  | some t => (phaseEntries t).map (·.num)

/-- Records that stand in no run although the image has a phase table (R134). In an image without one, a transfer record is stray: no transfer
run holds it (R134 makes all records phase 0 and says no more: DESIGN CHOICE, log entry 136). -/
def stray (recs : List ImgRec) : List Nat :=
  match phaseTable recs with
  | none => (recs.filter fun r => decide (r.typ = 0xE)).map (·.off)
  | some t =>
    let runs := (phaseEntries t).flatMap fun e => [e.run, e.xfer]
    (recs.filter fun r => (!r.common || decide (r.typ = 0xE)) && !runs.any (fun g => decide (g.1 ≤ r.off) && decide (r.off < g.1 + g.2))).map (·.off)

/-- Every rejected offset of an image (R455). -/
def rejected (x : ImgCtx) (img : Bytes) : List Nat :=
  let p := imageRecs img
  let recs := p.1
  let alone := (recs.filter fun r => !(r.headerOk x && r.bodyOk x recs img.length)).map (·.off)
  let missing (t : Nat) : List Nat := if recs.any fun r => decide (r.typ = t) then [] else [img.length]
  let across := (phasesOf recs).flatMap fun q =>
    let run := (phaseRun recs q).getD []
    configBad x run ++ (match recs.find? fun r => decide (r.typ = 2) with
      | none => []
      | some g => (if membersMissing g run q then [g.off] else []) ++ streamEpBad run g)
  let transfers := match phaseTable recs with
    | none => []
    | some t => (phaseEntries t).flatMap fun e => (splitTransfers (inRange recs e.xfer)).map (·.2)
  let moves := transfers.flatMap fun run => configBad x run ++ (match recs.find? fun r => decide (r.typ = 2) with
    | none => []
    | some g => streamEpBad run g)
  let streams := match recs.find? fun r => decide (r.typ = 2) with
    | none => []
    | some g =>
      let runs := ((phasesOf recs).map fun q => (phaseRun recs q).getD []) ++ transfers
      if (streamList g).any (streamBad runs (streamList g)) then [g.off] else []
  p.2 ++ alone ++ streams ++ repeats recs 1 ++ repeats recs 2 ++ repeats recs 0xD ++ missing 1 ++ missing 2 ++ stray recs ++ transferBad recs ++ across ++ moves

/-- The verdict of LOAD_IMAGE on an image (R404, R455): none, or the status and the offset. The first identity record names a grade and levels
where its body reaches past byte 42. -/
def imageVerdict (x : ImgCtx) (img : Bytes) : Option (Nat × Nat) :=
  match (imageRecs img).1.find? fun r => decide (r.typ = 1) with
  | some r => if 43 ≤ r.body.length ∧ !gradeOk x r then some (0x05, r.off) else (rejected x img).min?.map fun o => (0x04, o)
  | none => (rejected x img).min?.map fun o => (0x04, o)

end Sys2Proof.Machine
end

