-- ==== Sys2Proof/Machine/Incident.lean ====
section
/-! DEFINITION. Incidents and digest records as Genhan keeps them (R357 to R362). -/

namespace Sys2Proof.Machine

/-! ### Incidents (R362, Table 13.7) -/

/-- The event INCIDENT, and the incident's line in management flash. -/
def State.incidentEvent (s : State) (x : Incident) (verdict : BitVec 8) : State :=
  let k := x.suspects.clusters.head?
  let s : State := { s with nv := { s.nv with incidents := s.nv.incidents ++ [{ x with verdict := verdict }] } }
  s.raiseEvent 0x0012 none ([verdict] ++ leBytes 2 x.code.toNat ++ [BitVec.ofNat 8 ((k.map (·.die.val)).getD 0)] ++
    leBytes 2 ((k.map (·.pcl.val)).getD 0xFFFF) ++ [0, 0] ++ leBytes 6 x.step.toNat ++ [0, 0] ++ leBytes 6 ((x.suspects.offset.map (·.toNat)).getD 0))

/-- Open incidents that a test picks get a verdict. -/
def State.decideIncidents (s : State) (f : Incident → Bool) (verdict : BitVec 8) : State :=
  let hit (x : Incident) : Bool := decide (x.verdict = 0) && f x
  let l := s.genhan.incidents.filter hit
  l.foldl (fun s x => s.incidentEvent x verdict)
    { s with genhan := { s.genhan with incidents := s.genhan.incidents.map fun x => if hit x then { x with verdict := verdict } else x } }

/-- Two sets of suspects have one in common. -/
def Suspects.meets (a b : Suspects) : Bool := a.clusters.any b.clusters.contains || (a.offset.isSome && decide (a.offset = b.offset))

/-- A fault of class H (R362): an open incident of the same code with a common suspect becomes permanent (for a digest: of the same shard
and step); otherwise a new one opens. `sure`: permanent at once. Answers whether the incident is permanent now. -/
def State.openIncident (s : State) (x : Incident) (sure : Bool := false) : State × Bool :=
  let again (y : Incident) : Bool := decide (y.verdict = 0) && decide (y.code = x.code) &&
    (if x.shard.isSome then decide (y.shard = x.shard) && decide (y.step = x.step) else y.suspects.meets x.suspects)
  if s.genhan.incidents.any again then (s.decideIncidents again 2, true)
  else
    let s : State := { s with genhan := { s.genhan with incidents := s.genhan.incidents ++ [{ x with verdict := if sure then 2 else 0 }] } }
    let s := s.incidentEvent x 0
    if sure then (s.incidentEvent x 2, true) else (s, false)

/-- A step release has taken the step index to `step`: incidents behind it have not recurred. -/
def State.incidentsPass (s : State) (step : BitVec 48) : State := s.decideIncidents (fun x => decide (x.step < step)) 1

/-- An image load or a reset leaves the open ones undecided. -/
def State.incidentsUndecided (s : State) : State := s.decideIncidents (fun _ => true) 3

/-! ### Digest records (R360, Table 13.2) -/

/-- A record without LOST. -/
def digestRecord (pkg : BitVec 12) (digest : BitVec 64) (step : BitVec 48) (replica shard result rid : Nat) (sc : BitVec 48) : BitVec 512 :=
  digest ++ step ++ BitVec.ofNat 16 replica ++ BitVec.ofNat 16 shard ++ BitVec.ofNat 8 result ++ BitVec.ofNat 8 rid ++ (0 : BitVec 16) ++ pkg ++ sc ++
    (0 : BitVec 276)

/-- Adds a record; the oldest of a full buffer is discarded. -/
def State.addDigest (s : State) (r : BitVec 512) : State :=
  let g := s.genhan
  if 16384 ≤ g.digests.length then { s with genhan := { g with digests := g.digests.drop 1 ++ [r], digLost := g.digLost + 1 } }
  else { s with genhan := { g with digests := g.digests ++ [r] } }

/-- The sum of all elements: the replica digest (R358). -/
def digestSum (l : List (BitVec 64)) : BitVec 64 := l.foldl (· + ·) 0

/-- RID of a declared replica. -/
def State.replicaRid (s : State) (i : Nat) : Nat := bitsOf (s.job.digReplicas.getD i 0).toNat 7 0

/-- The records of one replica: one for each shard and one for the whole, with the results given. -/
def State.addReplica (s : State) (r : BitVec 8) (step sc : BitVec 48) (elems : List (BitVec 64)) (shard : Nat → Nat) (whole : Nat) : State :=
  let rid := s.replicaRid r.toNat
  let s := elems.zipIdx.foldl (fun s e => s.addDigest (digestRecord s.pkg e.1 step r.toNat e.2 (shard e.2) rid sc)) s
  s.addDigest (digestRecord s.pkg (digestSum elems) step r.toNat 0xFFFF whole rid sc)

/-- A stop comes before every replica of the package has reported (R360, RESULT 3). -/
def State.flushDigests (s : State) : State :=
  let l := s.genhan.digPending
  l.foldl (fun s p => s.addReplica p.1 p.2.1 p.2.2.1 p.2.2.2 (fun _ => 3) 3) { s with genhan := { s.genhan with digPending := [] } }

end Sys2Proof.Machine
end

