-- ==== Sys2Proof/Machine/Catch.lean ====
section
/-! DEFINITION. Catches (R192 to R197): joins, the releases, and what a release sets going in the job. -/

namespace Sys2Proof.Machine

/-- What a packet between coxes or Genhan dies says (PKIND 0x8; the spec lays out no body, log entry 22): kind 0 join, 1 release, 2 stop,
3 READY, 4 NOT_READY, 5 RELAUNCH, 6 HOLD. -/
def coxBody (kind id : Nat) (arg : Option (BitVec 8)) (faulted : Bool) (tag : BitVec 32 := 0) (count : BitVec 64 := 0) : BitVec 256 :=
  (0 : BitVec 141) ++ count ++ tag ++ (if faulted then (1 : BitVec 1) else 0) ++ (if arg.isSome then (1 : BitVec 1) else 0) ++
    arg.getD 0 ++ BitVec.ofNat 4 id ++ BitVec.ofNat 5 kind

/-- The logical name of a cluster's cox. -/
def State.coxName (s : State) (k : ClusterAt) : LCore := s.lcore (coreIn k 0)

/-- A cox sends to another cox. -/
def State.coxSend (s : State) (k : ClusterAt) (dst : LCore) (body : BitVec 256) : State :=
  s.injectAny (coreIn k 0) (packet 8 (s.coxName k) { dst with core := 0 } body)

/-- Every core of a cluster has joined the round in progress, or executed HALT (R193). -/
def State.coresJoined (s : State) (k : ClusterAt) (id : Nat) : Bool :=
  let n := ((s.cluster k).catchOf id).released + 1
  (coresOf k).all fun c => (s.core c).halted || decide (n ≤ SMap.get 0 (s.core c).joined id)

/-- The round in progress is complete at this cox: every core and every child has joined. A cluster halted on a fault never joins. -/
def State.catchComplete (s : State) (k : ClusterAt) (id : Nat) : Bool :=
  let x := s.cluster k
  let e := x.catchOf id
  e.valid && !e.sent && decide (x.run ≠ .halted) && decide (e.children.length = e.childCount) && s.coresJoined k id

/-- One more argument in a round (R194); a cluster whose cores have all executed HALT contributes none. -/
def CatchSt.merge (e : CatchSt) (a : Option (BitVec 8)) (faulted : Bool) : CatchSt :=
  { e with arg := if e.arg.isNone then a else e.arg,
           bad := e.bad || faulted || (e.arg.isSome && a.isSome && decide (e.arg ≠ a)) }

/-- A complete round below the root: one join goes to the parent (R193, R194). -/
def State.catchSendJoin (s : State) (k : ClusterAt) (id : Nat) : State :=
  let e := (s.cluster k).catchOf id
  if s.catchComplete k id && !e.root then
    (s.modCluster k fun x => x.putCatch id { e with sent := true }).coxSend k e.parent (coxBody 0 id e.arg e.bad)
  else s

/-- The phase change that a release names is possible (R133): the phase is in the table and a transfer leads into it. -/
def Job.phaseKnown (j : Job) (q : Nat) : Bool := (transferFor (imageRecs j.image).1 j.phase.toNat q).isSome

/-- A release changes the phase: it carries the number of the next phase together with a step boundary (R133). -/
def changesPhase (arg : BitVec 8) : Bool := arg.getLsbD 7 && arg.getLsbD 5

/-- What a release with CKPT or PHASE sets going in Genhan (R133, R196, R197): the drain, the phase, the packages of the tree. -/
def State.noteRelease (s : State) (k : ClusterAt) (e : CatchSt) (arg : BitVec 8) : State :=
  let ckpt := arg.getLsbD 6
  let phase := changesPhase arg
  let q := arg.extractLsb' 0 3
  if s.job.state ≠ .running ∨ (!ckpt ∧ !phase) then s
  else
    let kids := (e.children.map (·.pkg)).filter fun p => decide (p ≠ s.pkg)
    let j : Job := { s.job with
      relChildren := (s.job.relChildren ++ kids).dedup,
      relParent := if !e.root && decide (e.parent.pkg ≠ s.pkg) then some e.parent.pkg else s.job.relParent }
    let area := match s.ckpt.latest with
      | some a => !a
      | none => false
    let j : Job := if ckpt && decide (j.between = Between.none) then { j with between := .checkpoint (s.cluster k).step area } else j
    if !phase then { s with job := j }
    else if s.job.phaseKnown q.toNat then
      { s with job := { j with nextPhase := some q, between := if j.between = Between.none then (.transfer q false) else j.between } }
    else if s.job.phaseReported then { s with job := j }
    else ({ s with job := { j with phaseReported := true } } : State).jobFault fPhaseUnknown

/-- The stop of a cluster for a checkpoint (R196) or a phase change: once the last of its live cores has issued the CATCH_WAIT of the released round. -/
def State.ckptCheck (s : State) (k : ClusterAt) : State :=
  let x := s.cluster k
  match x.ckptId with
  | none => s
  | some id =>
    let n := (x.catchOf id.val).released
    if (s.live k).all fun c => decide (n ≤ SMap.get 0 (s.core c).waited id.val) then
      s.modCluster k fun y => { y with ckptStopped := true, ckptId := none }
    else s

/-- A cox records a release (R193, R194): it sends it on to its join sources, counts the round, and applies the flags. -/
def State.catchRelease (s : State) (k : ClusterAt) (id : Fin 16) (arg : BitVec 8) (faulted : Bool) : State :=
  let e := (s.cluster k).catchOf id.val
  let s := e.children.foldl (fun s c => s.coxSend k c (coxBody 1 id.val (some arg) faulted)) s
  let n := e.released + 1
  let e' : CatchSt := { e with children := [], arg := none, bad := false, sent := false, released := n, relArg := arg,
                               faultRounds := if faulted then e.faultRounds ++ [n] else e.faultRounds }
  let s := s.modCluster k fun x =>
    let y := x.putCatch id.val e'
    if faulted then y
    else { y with step := if arg.getLsbD 7 then y.step + 1 else y.step, ckptId := if arg.getLsbD 6 || (changesPhase arg && s.job.phaseKnown (bitsOf arg.toNat 2 0)) then some id else y.ckptId }
  let s := (s.modCores k fun _ y => { y with runAhead := [] }).dropOwned (coresOf k)
  let s := if !faulted && arg.getLsbD 7 then s.incidentsPass (s.cluster k).step else s
  let s := (if faulted then s else (s.noteRelease k e arg).ckptCheck k).count 8 (coxUnit k) 0 2
  s.catchSendJoin k id.val

/-- A round may be complete now: a join to the parent, or at the root the release. A round that no CATCH joined is not released. -/
def State.catchTry (s : State) (k : ClusterAt) (id : Fin 16) : State :=
  let e := (s.cluster k).catchOf id.val
  if !e.root then s.catchSendJoin k id.val
  else if s.catchComplete k id.val then
    match e.arg with
    | some a => s.catchRelease k id a e.bad
    | none => if e.bad then s.catchRelease k id 0 true else s
  else s

/-- A core joins (R193, R194). -/
def State.coreJoins (s : State) (c : CoreAt) (id : Fin 16) (arg : BitVec 8) : State :=
  let k := clusterOf c
  let s := s.modCore c fun x => { x with joined := SMap.set 0 x.joined id.val (((s.cluster k).catchOf id.val).released + 1),
                                         joinArg := SMap.set 0 x.joinArg id.val arg }
  (s.modCluster k fun x => x.putCatch id.val ((x.catchOf id.val).merge (some arg) false)).catchTry k id

/-- A core that executes HALT counts as joined in every catch (R193). -/
def State.catchHalted (s : State) (k : ClusterAt) : State :=
  ((List.finRange 16).foldl (fun s id => s.catchTry k id) s).ckptCheck k

/-- A child's join arrives (R192 to R194). -/
def State.childJoins (s : State) (k : ClusterAt) (id : Fin 16) (arg : Option (BitVec 8)) (faulted : Bool) (src : LCore) : State :=
  let e := (s.cluster k).catchOf id.val
  if !e.valid || decide (e.childCount ≤ e.children.length) then s.haltBy (coreIn k 0) fCatchArg
  else
    (s.modCluster k fun x => x.putCatch id.val { e.merge arg faulted with children := e.children ++ [src] }).catchTry k id

/-- A catch packet on its way to a cox. -/
def State.isCatch (s : State) (k : ClusterAt) (kind id : Nat) (p : Packet) : Bool :=
  decide (p.pkind = 8) && decide (bitsOf p.hdr.toNat 4 0 = kind) && decide (bitsOf p.hdr.toNat 8 5 = id) &&
  decide ((s.coreAt p.dst).map clusterOf = some k)

/-- A join of a child on its way to a cox. -/
def State.isJoin (s : State) (k : ClusterAt) (id : Nat) (src : LCore) (p : Packet) : Bool := s.isCatch k 0 id p && decide (p.src = src)

end Sys2Proof.Machine
end

