-- ==== Sys2Proof/Machine/Idle.lean ====
section
/-! DEFINITION. What the block does with no command waiting. -/

namespace Sys2Proof.Machine

/-! ### Time settings (R298) -/

def Time.starterBit (t : Time) : Bool := t.settings.getLsbD 0
def Time.parentPort (t : Time) : Option Nat := if t.settings.getLsbD 1 then some (bitsOf t.settings.toNat 7 2) else none

/-- 100 ppm of one probe interval of 1,000,000 ticks, in 2^-16 tick. -/
def clamp100 (x : Int) : Int := max (-6553600) (min 6553600 x)

/-- The correction of the Stroke Counter in its present state, in 2^-16 tick a million ticks, by 100 ppm (6,553,600 such units) at most (R299). SLEWING
closes the offset at the limit. -/
def Time.rate (t : Time) : Int :=
  match t.state with
  | .starter | .acquire => 0
  | .locked => clamp100 (t.freq + if t.left = 0 then 0 else t.slew)
  | .slewing => if 0 < t.slew then 6553600 else if t.slew < 0 then -6553600 else clamp100 t.freq
  | .holdover => clamp100 t.freq

/-- The offset of SLEWING that is left after `m` of it has been closed. -/
def slewLeft (x m : Int) : Int := if 0 < x then max 0 (x - m) else min 0 (x - m)

/-- One tick of a counter that runs (R298). -/
def Time.tick (t : Time) : Time :=
  let a : Int := t.acc + t.rate
  let m := a / 1000000
  let v := t.sc.toNat * 65536 + t.frac.toNat + (65536 + m).toNat
  { t with
    sc := BitVec.ofNat 64 (v / 65536), frac := BitVec.ofNat 16 (v % 65536), acc := (a % 1000000).toNat, left := t.left - 1
    slew := if t.state = .slewing then slewLeft t.slew m else t.slew }

/-- The writes to management flash that are under way come to their end. -/
def NonVolatile.finishWrites (n : NonVolatile) : NonVolatile :=
  { n with
    repair0 := if n.repairBusy = some false then n.repair0.map fun c => { c with ok := true } else n.repair0
    repair1 := if n.repairBusy = some true then n.repair1.map fun c => { c with ok := true } else n.repair1
    repairBusy := none
    stackSaved := n.newStacks.foldl (fun b x => b ||| BitVec.ofNat 16 (2 ^ x.1)) n.stackSaved
    stackFw := n.newStacks.foldl (fun m x => SMap.set none m x.1 (some x.2)) n.stackFw
    newStacks := []
    pairings := (n.pairings ++ n.newPairings).dedup
    newPairings := [] }

/-- A telemetry interval ends as the count reaches a multiple of 100,000 (R391): the highest stretch level of the new one starts from the level. -/
def Power.newInterval (p : Power) : Power := { p with lastTop := p.topLevel, topLevel := p.level }

/-- The Stroke Counter, once started, counts one tick with the correction that its discipline owes (R298, R299), and a write to management flash that was
under way ends (log entry 123); nothing else happens without a command (log entry 1). -/
def idleTick (s : State) : State :=
  let s : State := { s with nv := s.nv.finishWrites }
  if s.time.running then
    let t := s.time.tick
    { s with time := t, power := if t.sc.toNat / 100000 = s.time.sc.toNat / 100000 then s.power else s.power.newInterval }
  else s

end Sys2Proof.Machine
end

