-- ==== Sys2Proof/Machine/JobCtl.lean ====
section
/-! DEFINITION. The job as Genhan and the coxes run it (R116, R129, R133, R196, R197, R200, R201, R323, R324): its states, stops, the loading
of a run of records, phase changes and relaunches. -/

namespace Sys2Proof.Machine

/-! ### States and stops -/

/-- Code of a job state (Table 11.9). -/
def jobCode : JobState → Nat
  | .idle => 0
  | .loaded => 1
  | .armed => 2
  | .running => 3
  | .halting => 4
  | .halted => 5
  | .faulted => 6

/-- The job enters a state; every change raises JOB_STATE (R323, Table 11.12). Once it is not live, no check insertion is pending (Table 15.11). -/
def State.setJob (s : State) (st : JobState) (status reason : Nat) (src : Option LCore := none) (step : BitVec 48 := 0) : State :=
  if s.job.state = st then s
  else
    let detail := [BitVec.ofNat 8 (jobCode s.job.state), BitVec.ofNat 8 (jobCode st), BitVec.ofNat 8 status, BitVec.ofNat 8 reason] ++
      leBytes 4 s.job.tag.toNat ++ leBytes 6 step.toNat ++ leBytes 2 (bitsOf (s.genhan.log.headD 0).toNat 15 0)
    let s : State := { s with
      job := { s.job with state := st }
      host := if st = .armed ∨ st = .running then s.host else s.host.dropInsertions fun _ => true }
    s.raiseEvent 0x0001 src detail

/-- Genhan's packet to a core of this package, or to Genhan of another package through a link die that no rule names (log entry 21). The edge core at
which it enters is open: that of the destination's core row, and row 0 toward another package (DESIGN CHOICE, log entry 100). -/
def State.genhanSend (s : State) (p : Packet) : State :=
  if p.dst.pkg = s.pkg then
    match s.coreAt p.dst with
    | some c => s.injectFrom 4 0 c p
    | none => s
  else
    let d := s.anyLink
    d.1.injectComp 4 0 (0, 0) (toComp p 2 d.2)

/-- A cluster issues no word now: stopped, complete, halted, or held with no launch ahead. -/
def Cluster.quiet (x : Cluster) : Bool := decide (x.run ≠ .running) && !(decide (x.run = .held) && x.armed)

/-- Every cluster of the job in this package is stopped. -/
def State.membersQuiet (s : State) : Bool := s.job.members.all fun k => (s.cluster k).quiet

/-- A stop to every cox of the job in this package (R200). -/
def State.stopCoxes (s : State) (tag : BitVec 32) : State :=
  s.job.members.foldl (fun s k => s.genhanSend (packet 8 s.companion (s.coxName k) (coxBody 2 0 none false tag))) s

/-- HALTING has ended (Table 11.10): every cluster of the job has stopped. -/
def State.checkHalted (s : State) : State :=
  if s.job.state = .halting ∧ s.membersQuiet then
    let fault := s.job.faultArose || s.genhan.reports.any (!·.quiet) || s.job.members.any fun k => decide ((s.cluster k).run = .halted)
    s.flushDigests.setJob (if fault then .faulted else .halted) s.job.status.toNat s.job.reason.toNat
  else s

/-- What a phase change has left to do (R133). -/
def Between.change : Between → Between
  | .transfer q l => .transfer q l
  | .phaseRun q => .phaseRun q
  | _ => .none

/-- The drain of a checkpoint is in progress: every cluster has stopped behind the release (R196). -/
def State.drainBegun (s : State) : Bool :=
  s.job.members.all fun k => decide ((s.cluster k).run = .stopped) || decide ((s.cluster k).run = .complete)

/-- A phase change that a checkpoint had before it. -/
def Job.phaseLeft (j : Job) : Between :=
  match j.nextPhase with
  | some q => .transfer q false
  | none => .none

/-- What a stop leaves of Genhan's work: a phase change goes on after the resume (R133, R324), and the drain of a checkpoint that has begun completes
(R375), with no test window any more. -/
def State.leftBetween (s : State) : Between :=
  match s.job.between with
  | .checkpoint step a => if s.drainBegun && !s.job.window then .checkpoint step a else s.job.phaseLeft
  | b => b

/-- The job goes from ARMED or RUNNING to HALTING, for a reason (Table 11.10). -/
def State.haltJob (s : State) (reason status : Nat) (fault : Bool) (src : Option LCore := none) (step : BitVec 48 := 0) : State :=
  if s.job.state = .armed ∨ s.job.state = .running then
    let s : State := { s with job := { s.job with
      reason := BitVec.ofNat 8 reason, status := BitVec.ofNat 8 status, faultArose := fault, between := s.leftBetween, window := false, relReady := [], relOwnDone := false } }
    s.setJob .halting status reason src step
  else s

/-- A cox records a stop (R200, R201): it issues no further word; a word held by a stall does not issue. -/
def State.stopCluster (s : State) (k : ClusterAt) : State :=
  let x := s.cluster k
  let s := s.modCluster k fun y =>
    if y.run = .running then
      if y.accepted then { y with ckptStopped := true, ckptId := none } else { y with run := .stopped, stallLine := false, ckptId := none }
    else { y with armed := false, ckptId := none }
  if x.run = .running ∨ x.run = .held then
    (s.modCores k fun _ y => { y with age := [], ageRaised := [], blocked := none }).modCluster k fun y => { y with armed := false }
  else s

/-! ### Loading a run of records (R116, R122, R123, R133) -/

/-- The settings of a core from one record. -/
def Core.applyRec (x : Core) (r : ImgRec) : Core :=
  match r.typ with
  | 3 => { x with store := SMap.run 0 0 ((List.range 1024).map fun i => wordAt r.body (16 * i)), marks := [] }
  | 4 => { x with agd := SMap.run 0 0 ((List.range 16).map fun i => BitVec.ofNat 256 (r.n (32 * i) 32)), agi := [], wrapped := 0 }
  | 5 => { x with ax := SMap.run 0 0 ((List.range 16).map fun i => BitVec.ofNat 32 (r.n (4 * i) 4)),
                  numCtrl := BitVec.ofNat 32 (r.n 64 4), sparseCtrl := BitVec.ofNat 32 (r.n 68 4) }
  | 6 => { x with veCfg := SMap.run 0 0 ((List.range 32).map fun i => BitVec.ofNat 64 (r.n (8 * i) 8)),
                  k := SMap.run 0 0 ((List.range 16).map fun i => BitVec.ofNat 32 (r.n (256 + 4 * i) 4)) }
  | 7 => { x with ptRoute := SMap.run 0 0 ((List.range 16).map fun i => BitVec.ofNat 8 (r.n i 1)) }
  | 8 => { x with
      se := SMap.run {} 0 ((List.range 16).map fun i =>
        let e := recSend r i
        let n := e.f 118 108
        if e.remote then e else if e.mcast then { e with rslots := n } else { e with rslots := n, credits := if e.valid then n + 1 else 0 })
      re := SMap.run {} 0 ((List.range 16).map (recRecv r))
      joined := [], waited := [], joinArg := [] }
  | 9 => { x with steer := { cfg := BitVec.ofNat 64 (r.n 0 8) } }
  | 0xA => { x with win := SMap.run 0 0 ((List.range 8).map fun i => BitVec.ofNat 128 (recWin r i)), reqBase := BitVec.ofNat 11 (r.n 128 16) }
  | 0xC => match spadPieces (r.body.length + 1) r.body with
    | none => x
    | some l => l.foldl (fun x p => p.2.foldl (fun x seg => (unpackWrites seg).1.foldl (fun x w => x.write (p.1 + w.1) w.2) x) x) x
  | _ => x

/-- The settings of a cluster from a record with ALL_CORES = 1. -/
def Cluster.applyRec (x : Cluster) (r : ImgRec) : Cluster :=
  match r.typ with
  | 8 => if r.all then { x with
      groups := SMap.run 0 0 ((List.range 4160).map fun i => recGroup r (i / 65) (i % 65)),
      catches := SMap.run {} 0 ((List.range 16).map fun i => ({ entry := recCatch r i } : CatchSt)) } else x
  | 0xB => { x with reds := SMap.run {} 0 ((List.range 16).map (recRed r)) }
  | _ => x

/-- What feeds a receive endpoint: a send endpoint of the run, or a read stream of the region table whose owner stands in the run. -/
def feedOf (pkg : BitVec 12) (fs : List Feed) (streams : List (Nat × Nat × BitVec 256)) (d : Nat × Nat × Nat) (ep : Nat) :
    Option (LCore × BitVec 4) :=
  match fs.find? fun f => decide (f.dst = d) && decide (f.dep = ep) with
  | some f => some (⟨pkg, BitVec.ofNat 5 f.src.1, BitVec.ofNat 9 f.src.2.1, BitVec.ofNat 6 f.src.2.2⟩, BitVec.ofNat 4 f.ep)
  | none =>
    (streams.find? fun t => let f (hi lo : Nat) : Nat := bitsOf t.2.2.toNat hi lo
      decide (f 255 254 = 2) && decide ((f 111 107, f 106 98, f 97 92) = d) && decide (f 91 88 = ep)).map fun t =>
        (⟨pkg, BitVec.ofNat 5 (24 + t.1), BitVec.ofNat 9 (t.2.1 / 64), BitVec.ofNat 6 (t.2.1 % 64)⟩, t.2.2.extractLsb' 64 4)

/-- The feeds of a core's receive endpoints, and the credits of its multicast endpoints. -/
def Core.linkEps (x : Core) (cl : Cluster) (pkg : BitVec 12) (fs : List Feed) (streams : List (Nat × Nat × BitVec 256)) (d : Nat × Nat × Nat) :
    Core :=
  { x with
    re := SMap.mapVals {} id (x.re.map fun p => (p.1, { p.2 with feed := feedOf pkg fs streams d p.1 }))
    se := SMap.mapVals {} (fun e : SendEp =>
      if e.valid && e.mcast then { e with tcredits := (cl.groupTargets pkg e.group).map fun _ => e.rslots + 1 } else e) x.se }

/-- The streams that a run's endpoints own. -/
def runStreams (rs : List ImgRec) (region : ImgRec) : List (Nat × Nat × BitVec 256) :=
  let named := streamEps rs
  (streamList region).filter fun t => named.any fun n => decide (n.2.2.1.moon = t.1) && decide (n.2.2.1.streamNo = t.2.1)

/-- A core before its first word (R116): slot 0, outside any loop. -/
def Core.restart (x : Core) : Core :=
  { x with slot := 0, halted := false, nest := {}, todo := {}, blocked := none, age := [], ageRaised := [], lost := [] }

/-- Loads the records of a run into one cluster and holds its cores. -/
def State.loadCluster (s : State) (rs : List ImgRec) (fs : List Feed) (streams : List (Nat × Nat × BitVec 256)) (d : Nat × Nat) : State :=
  match s.physical d.1 (BitVec.ofNat 9 d.2) with
  | none => s
  | some k =>
    let mine := rs.filter fun r => decide (r.die = d.1) && decide (r.cl = d.2)
    let s := s.modCluster k fun x =>
      { mine.foldl Cluster.applyRec x with
        run := .held, armed := false, stallLine := false, accepted := false, issued := 0, ckptId := none, ckptStopped := false, drained := false }
    let cl := s.cluster k
    s.modCores k fun c x =>
      (((mine.filter fun r => r.all || decide (r.core = c.core.val)).foldl Core.applyRec x).linkEps cl s.pkg fs streams (d.1, d.2, c.core.val)).restart

/-- Marks the root entries of the declared digest reductions of this package (R357). -/
def Cluster.markDigests (x : Cluster) (pkg : BitVec 12) (reps : List (BitVec 32)) : Cluster :=
  { x with reds := SMap.mapVals {} (fun r : RedSt =>
      { r with digest := r.valid && r.root && reps.any fun e => decide (bitsOf e.toNat 7 0 = r.rid) && decide (e.extractLsb' 16 12 = pkg) }) x.reds }

/-- The home of a read stream whose ring the run sets has the ring's credits and owes nothing. -/
def State.freshStreams (s : State) (rs : List ImgRec) (streams : List (Nat × Nat × BitVec 256)) : State :=
  streams.foldl (fun s t =>
    let f (hi lo : Nat) : Nat := bitsOf t.2.2.toNat hi lo
    match recvIn rs (f 111 107, f 106 98, f 97 92) (f 91 88) with
    | none => s
    | some e => s.putStream t.1 t.2.1 { s.stream t.1 t.2.1 with dcredits := e.slots, owed := [] }) s

/-- The region table of an image. -/
def regionOf (recs : List ImgRec) : ImgRec := (recs.find? fun r => decide (r.typ = 2)).getD ⟨0, 0, []⟩

/-- The physical clusters that carry logical ones. -/
def State.physicals (s : State) (l : List (Nat × Nat)) : List ClusterAt := l.filterMap fun d => s.physical d.1 (BitVec.ofNat 9 d.2)

/-- Loads a run into the clusters named, which become the clusters of the job. -/
def State.loadRun (s : State) (rs : List ImgRec) (cls : List (Nat × Nat)) : State :=
  let region := regionOf (imageRecs s.job.image).1
  let streams := runStreams rs region
  let fs := feeds rs
  let s := cls.foldl (fun s d => s.loadCluster rs fs streams d) s
  let ks := s.physicals cls
  let reps := s.job.digReplicas
  let s := ks.foldl (fun s k => s.modCluster k fun x => x.markDigests s.pkg reps) s
  let s := s.freshStreams rs streams
  { s with job := { s.job with members := ks } }

/-- The clusters of a phase, and the region of each (R123). -/
def phaseMembers (region : ImgRec) (q : Nat) : List (Nat × Nat) :=
  ((members region).filter fun e => decide (memPhase e = q)).map fun e => (memDie e, memCl e)

/-- Loads the record run of phase q. -/
def State.loadPhase (s : State) (q : Nat) : State :=
  let recs := (imageRecs s.job.image).1
  let region := regionOf recs
  let s := s.loadRun ((phaseRun recs q).getD []) (phaseMembers region q)
  ((members region).filter fun e => decide (memPhase e = q)).foldl (fun s e =>
    match s.physical (memDie e) (BitVec.ofNat 9 (memCl e)) with
    | none => s
    | some k => s.modCluster k fun x => { x with region := BitVec.ofNat 14 (memRegion e) }) s

/-! ### Arming and the relaunch procedure (R116, R197) -/

/-- A launch of the job: a second one is still to come where a transfer schedule runs; the record run of a phase makes it the job's (R133, R197). -/
def Job.launched (j : Job) : Job :=
  let b := match j.between with
    | .transfer q l => Between.transfer q l
    | _ => Between.none
  let again := decide (b ≠ .none)
  { j with
    between := b, relReady := [], relOwnDone := false
    phase := match j.between with
      | .phaseRun q => q
      | _ => j.phase
    nextPhase := if again then j.nextPhase else none
    relChildren := if again then j.relChildren else []
    relParent := if again then j.relParent else none }

/-- Arms every cluster of the job that is held or stopped; it resumes where it stands at the Launch Count. -/
def State.armAt (s : State) (count : BitVec 64) : State :=
  let s := s.job.members.foldl (fun s k => s.modCluster k fun x =>
    let y : Cluster := { x with ckptStopped := false, ckptId := none, drained := false }
    if x.run = .held ∨ x.run = .stopped then { y with run := .held, armed := true } else y) s
  let s : State := { s with job := { s.job with launch := count } }
  if s.job.state = .running ∧ s.job.between = Between.none ∧ s.job.members.all (fun k => decide ((s.cluster k).run = .complete)) then
    s.setJob .halted 0 1
  else s

/-- A packet of the relaunch procedure to Genhan of another package. -/
def State.relSend (s : State) (pkg : BitVec 12) (kind : Nat) (count : BitVec 64 := 0) : State :=
  s.genhanSend (packet 8 s.companion ⟨pkg, 0, 0, 0⟩ (coxBody kind 0 none false s.job.tag count))

/-- Whether Genhan has a start of the job ahead of it. -/
def Between.waits : Between → Bool
  | .none => false
  | .transfer _ loaded => loaded
  | _ => true

/-- The agreed Launch Count is passed on and the clusters are armed (R197 step 4). -/
def State.relaunchAt (s : State) (count : BitVec 64) : State :=
  let s := s.job.relChildren.foldl (fun s p => s.relSend p 5 count) s
  ({ s with job := s.job.launched } : State).armAt count

/-- The time state allows a launch (R301). -/
def State.timeOk (s : State) : Bool := s.time.starterBit || decide (s.time.state = .locked)

/-- Steps 2 and 4 of R197, once this package's own part is finished. -/
def State.relaunchTry (s : State) : State :=
  if s.job.state = .running ∧ s.job.relOwnDone ∧ s.timeOk ∧ s.job.relChildren.all s.job.relReady.contains then
    match s.job.relParent with
    | none => s.relaunchAt (s.time.sc + 10000000)
    | some p => ({ s with job := { s.job with relOwnDone := false } } : State).relSend p 3
  else s

/-- This package's own part of the work before a start is finished. -/
def State.ownDone (s : State) : State := ({ s with job := { s.job with relOwnDone := true } } : State).relaunchTry

/-- HOLD (R197 step 5): down the tree, and the job is left HALTED. What is left of a phase change goes on at the resume. -/
def State.relaunchHoldAll (s : State) : State :=
  let s := s.job.relChildren.foldl (fun s p => s.relSend p 6) s
  let s : State := { s with job := { s.job with between := s.job.between.change, relReady := [], relOwnDone := false } }
  s.setJob .halted 0x0B 4

/-- NOT_READY from a child, or formed here: to the parent at once, or HOLD at the root. -/
def State.notReady (s : State) : State :=
  match s.job.relParent with
  | none => s.relaunchHoldAll
  | some p => s.relSend p 4

/-! ### Phase changes (R133) -/

/-- No release is still on its way to a cox. -/
def State.releasesIn (s : State) : Bool := (s.mesh ++ s.waiting).all fun p => !(decide (p.pkind = 8) && decide (bitsOf p.hdr.toNat 4 0 = 1))

/-- Genhan loads the transfer schedule of a phase change into the clusters it names. -/
def State.transferIn (s : State) (q : BitVec 3) : State :=
  let rs := (transferFor (imageRecs s.job.image).1 s.job.phase.toNat q.toNat).getD []
  let s : State := { s with job := { s.job with between := .transfer q true, nextPhase := none } }
  s.loadRun rs (clustersIn rs)

/-- The transfer schedule is loaded, and its launch is agreed (R197). -/
def State.loadTransfer (s : State) (q : BitVec 3) : State := (s.transferIn q).ownDone

/-- What is due once every cluster of the job has come to a stop: the end of a stop, or the transfer of a phase change. -/
def State.jobStep (s : State) : State :=
  match s.job.state with
  | .halting => s.checkHalted
  | .running => match s.job.between with
    | .transfer q false => if s.membersQuiet && s.releasesIn then s.loadTransfer q else s
    | _ => s
  | _ => s

/-! ### Commands -/

/-- A child's join arrives at a cox (R193, R194). -/
def execCatchJoin (k : ClusterAt) (id : Fin 16) (arg : Option (BitVec 8)) (faulted : Bool) (src : LCore) (s : State) :
    Host.Outcome State Fault Refusal :=
  .next (s.onArrival (s.isJoin k id.val src) 0 fun s => (s.childJoins k id arg faulted src).jobStep)

/-- A release arrives from the parent (R193, R194). -/
def execCatchRelease (k : ClusterAt) (id : Fin 16) (arg : BitVec 8) (faulted : Bool) (s : State) : Host.Outcome State Fault Refusal :=
  .next (s.onArrival (s.isCatch k 1 id.val) 0 fun s =>
    if ((s.cluster k).catchOf id.val).valid then (s.catchRelease k id arg faulted).jobStep else s.haltBy (coreIn k 0) fCatchArg)

/-- A cluster begins to issue at its Launch Count (R116); the first makes the job RUNNING (Table 11.10). A job resumed with every cluster
complete is RUNNING and at once completed, unless a phase change is left to do. While a job is HALTING, a cluster that has not recorded the stop still launches, to stop at a word
boundary (R329). -/
def execClusterLaunch (k : ClusterAt) (s : State) : Host.Outcome State Fault Refusal :=
  let x := s.cluster k
  if decide (x.run = .held) && x.armed && (decide (s.job.state = .armed) || decide (s.job.state = .running) || decide (s.job.state = .halting)) && s.time.running &&
      decide (s.job.launch.toNat ≤ s.time.sc.toNat) then
    let s := s.modCluster k fun y => { y with run := .running, armed := false }
    .next (if s.job.state = .armed then s.setJob .running 0 0 (some (s.coxName k)) x.step else s)
  else if decide (x.run = .complete) && decide (s.job.state = .armed) && s.job.members.all (fun j => decide ((s.cluster j).run = .complete)) &&
      s.time.running && decide (s.job.launch.toNat ≤ s.time.sc.toNat) then
    .next (if s.job.between = Between.none then (s.setJob .running 0 0).setJob .halted 0 1 else (s.setJob .running 0 0).jobStep)
  else .next s

/-- Issue cycles in which the pipelines of a cluster complete, no core issuing (R116). -/
def State.drainPipes (fuel : Nat) (s : State) (k : ClusterAt) : State :=
  match fuel with
  | 0 => s
  | n + 1 =>
    if (s.cluster k).run ≠ .running ∨ (coresOf k).all (fun c => (s.core c).pipe.isEmpty) then s
    else
      let l := s.landAll k
      ((l.1.haltOn k l.2).endCycle k).drainPipes n k

/-- Nothing of a core's words is pending: pipelines, requests, sources still to be read. -/
def Core.settledAll (x : Core) : Bool :=
  x.pipe.isEmpty && x.reqQ.isEmpty && x.outstanding.isEmpty && !x.fabricJobs.any FabricJob.isSource && decide (x.steer.pending = 0)

/-- The cox reports its cluster complete (R116). When all are, the job has completed, or its transfer has (Table 11.10, R133). -/
def execClusterComplete (k : ClusterAt) (s : State) : Host.Outcome State Fault Refusal :=
  let x := s.cluster k
  if decide (x.run = .running) && !x.accepted && (coresOf k).all (fun c => (s.core c).halted) then
    let s := s.drainPipes (((coresOf k).map fun c => ((s.core c).pipe.map (·.due)).foldl max 0).foldl max 0 + 64) k
    if decide ((s.cluster k).run = .running) && (coresOf k).all (fun c => (s.core c).settledAll) then
      let s := s.modCluster k fun y => { y with run := .complete, stallLine := false }
      if s.job.state = .running ∧ s.job.between = Between.none ∧ s.job.members.all (fun j => decide ((s.cluster j).run = .complete)) then
        .next (s.setJob .halted 0 1)
      else .next s.jobStep
    else .next s
  else .next s

/-- The transfer schedule is complete in every region: the record run of the phase is loaded (R133). -/
def execPhaseTransferComplete (s : State) : Host.Outcome State Fault Refusal :=
  match s.job.between with
  | .transfer q true =>
    if decide (s.job.state = .running) && s.job.members.all (fun k => decide ((s.cluster k).run = .complete)) then
      .next (({ s.loadPhase q.toNat with job := { (s.loadPhase q.toNat).job with between := .phaseRun q } } : State).ownDone)
    else .next s
  | _ => .next s

/-- A packet for Genhan with a body of the relaunch procedure, or a stop: of a package, or of any. -/
def isForGenhan (src : Option (BitVec 12)) (body : BitVec 256) (p : Packet) : Bool :=
  decide (p.pkind = 8) && decide (p.exit = 4) && decide (p.hdr = body) && (match src with
    | some c => decide (p.src.pkg = c)
    | none => true)

/-- What a packet of the relaunch procedure does at Genhan, once it has come (R197). -/
def State.relArrival (s : State) (src : Option (BitVec 12)) (body : BitVec 256) (act : State → State) : State :=
  s.onArrival (isForGenhan src body) 0 act

/-- READY of a child package (R197 steps 2 and 4). -/
def execRelaunchReady (child : BitVec 12) (s : State) : Host.Outcome State Fault Refusal :=
  .next (s.relArrival (some child) (coxBody 3 0 none false s.job.tag) fun s =>
    ({ s with job := { s.job with relReady := (s.job.relReady ++ [child]).dedup } } : State).relaunchTry)

/-- NOT_READY of a child package: forwarded at once, or HOLD (R197 steps 3 and 5). -/
def execRelaunchNotReady (child : BitVec 12) (s : State) : Host.Outcome State Fault Refusal :=
  .next (s.relArrival (some child) (coxBody 4 0 none false s.job.tag) fun s => if s.job.state = .running then s.notReady else s)

/-- RELAUNCH from the parent: ignored by a job that has ended (R197). -/
def execRelaunch (tag : BitVec 32) (count : BitVec 64) (s : State) : Host.Outcome State Fault Refusal :=
  .next (s.relArrival none (coxBody 5 0 none false tag count) fun s =>
    if s.job.state = .running ∧ tag = s.job.tag ∧ s.job.between.waits then s.relaunchAt count else s)

/-- HOLD from the parent (R197 step 5). -/
def execRelaunchHold (tag : BitVec 32) (s : State) : Host.Outcome State Fault Refusal :=
  .next (s.relArrival none (coxBody 6 0 none false tag) fun s =>
    if s.job.state = .running ∧ tag = s.job.tag ∧ s.job.between.waits then s.relaunchHoldAll else s)

/-- The own part has been finished for 10 s and the time state still allows no launch (R197 step 3). -/
def execRelaunchTimeout (s : State) : Host.Outcome State Fault Refusal :=
  if s.job.state = .running ∧ s.job.relOwnDone ∧ ¬s.timeOk then
    .next ({ s with job := { s.job with relOwnDone := false } } : State).notReady
  else .next s

/-! ### Stall ages (R191) -/

/-- AGE_LOG of the endpoint or catch that an age counter stands for. -/
def State.ageLog (s : State) (c : CoreAt) (n : Nat) : Nat :=
  let x := s.core c
  if n < 16 then (x.sendEp n).f 122 119
  else if n < 32 then (x.recvEp (n - 16)).f 123 120
  else bitsOf ((s.cluster (clusterOf c)).catchOf (n - 32)).entry.toNat 61 58

/-- A wait has reached its limit: the event STALL_AGE, once in an episode (R191). Endpoints 0 to 15 are send endpoints, 16 to 31 receive
endpoints. -/
def execStallAge (c : CoreAt) (isCatch : Bool) (ep : Fin 32) (s : State) : Host.Outcome State Fault Refusal :=
  let x := s.core c
  let n := if isCatch then 32 + ep.val % 16 else ep.val
  let log := s.ageLog c n
  let age := SMap.get 0 x.age n
  if log ≠ 0 ∧ 2 ^ (log + 11) ≤ age ∧ SMap.get false x.ageRaised n = false then
    let cls : Nat := match x.blocked with
      | some .credit => 1
      | some .steering => 2
      | _ => 0
    let s := s.putCore c { x with ageRaised := SMap.set false x.ageRaised n true }
    .next (s.raiseEvent 0x0003 (some (s.lcore c))
      ([BitVec.ofNat 8 (ep.val % 16), BitVec.ofNat 8 cls, if isCatch then 1 else 0] ++ List.replicate 5 0 ++ leBytes 8 age))
  else .next s

end Sys2Proof.Machine
end

