-- ==== Sys2Proof/Machine/Sequencer.lean ====
section
/-! DEFINITION. The sequencer (R105 to R109, R116 to R118): the word's last operation, and the stall cycle of a cluster. -/

namespace Sys2Proof.Machine

/-- Every unit operation of the word has been performed. -/
def Core.unitsDone (x : Core) : Bool := decide (x.todo = { cond := x.todo.cond })

/-- The core's bit among those that have issued. -/
def coreBit (c : CoreAt) : BitVec 64 := BitVec.ofNat 64 (2 ^ c.core.val)

/-- All cores of a cluster that had to issue in this cycle have done so. -/
def State.allIssued (s : State) (k : ClusterAt) : Bool :=
  (coresOf k).all fun c => (s.core c).halted || (s.cluster k).issued.getLsbD c.core.val

/-- Words, TE and VE operations of a core (Table 15.6). -/
def State.countWord (s : State) (c : CoreAt) (w : Word) : State :=
  ((s.count 0 (coreUnit c) 0 0).count 0 (coreUnit c) 0 1 (if teOp w = 0 then 0 else 1)).count 0 (coreUnit c) 0 2 (if veOp w = 0 then 0 else 1)

/-- Closes the cycle once every core has issued. -/
def State.closeIfDone (s : State) (k : ClusterAt) : State := if s.allIssued k then (s.endCycle k).jobStep else s

/-- A sequencer operation: the last of a word (R109). `act` gives the core with its next position. -/
def State.seqUnit (s : State) (c : CoreAt) (op : Nat) (act : Core → Word → Core) (after : State → State) : State :=
  let k := clusterOf c
  let s := s.accept k
  let x := s.core c
  let w := x.word
  if (s.cluster k).accepted && !x.halted && !(s.cluster k).issued.getLsbD c.core.val && x.unitsDone && decide (seqOp w = op) then
    let s := (s.putCore c (act x w)).modCluster k fun y => { y with issued := y.issued ||| coreBit c }
    (after (s.countWord c w)).closeIfDone k
  else s

/-- The core at its next slot by the loop rules (R109). -/
def Core.goOn (x : Core) : Core :=
  match x.fall with
  | (some t, n) => { x with slot := BitVec.ofNat 10 t, nest := n }
  | (none, n) => { x with nest := n }

/-- The core at the target of a jump (R109). -/
def Core.jumpTo (x : Core) (t : Nat) : Core := { x with slot := BitVec.ofNat 10 t, nest := x.leave t }

/-- NEST: the header is loaded and marked, and the outermost level begins (R105, R109). -/
def Core.loadNest (x : Core) (w : Word) : Core :=
  let a := seqTarget w
  let h := x.headerAt a
  { x with nest := { active := true, header := h, i := [] }, marks := x.marks ++ [a, a + 1], slot := BitVec.ofNat 10 (nestFirst h (nestTop h)) }

def execNext (c : CoreAt) (s : State) : Host.Outcome State Fault Refusal := .next (s.seqUnit c 0 (fun x _ => x.goOn) id)

def execJump (c : CoreAt) (s : State) : Host.Outcome State Fault Refusal := .next (s.seqUnit c 1 (fun x w => x.jumpTo (seqTarget w)) id)

/-- BRANCH, on its condition as it stood at the start of the cycle (R107). -/
def execBranch (c : CoreAt) (s : State) : Host.Outcome State Fault Refusal :=
  .next (s.seqUnit c 2 (fun x w => if x.todo.cond then x.jumpTo (seqTarget w) else x.goOn) id)

def execNest (c : CoreAt) (s : State) : Host.Outcome State Fault Refusal := .next (s.seqUnit c 3 Core.loadNest id)

/-- HALT: the core issues nothing further, and counts as joined in every catch (R107, R116, R193). -/
def execHalt (c : CoreAt) (s : State) : Host.Outcome State Fault Refusal :=
  .next (s.seqUnit c 4 (fun x _ => { x with halted := true }) fun s => s.catchHalted (clusterOf c))

/-- The counter of a stall class (Table 15.6). -/
def stallCounter (x : StallClass) : Nat :=
  match x with
  | .receive => 3
  | .credit => 4
  | .steering => 5

/-- The age counter that a blocked word advances (R191): send endpoints 0 to 15, receive endpoints 16 to 31, catch IDs 32 to 47. -/
def Core.ageKey (x : Core) : Option Nat :=
  let w := x.word
  match ceOp w with
  | 1 | 2 | 13 => some (ceEp w)
  | 3 | 6 | 7 => some (16 + ceEp w)
  | 10 => some (32 + ceEp w)
  | 12 => some (16 + x.steer.dataEp)
  | _ => none

/-- One stall cycle of a core: its age counter rises while its own word is blocked. -/
def Core.ages (x : Core) : Core :=
  let y := x.fabricTick
  match x.blocked, x.ageKey with
  | some _, some n => { y with age := SMap.set 0 y.age n (SMap.get 0 y.age n + 1) }
  | _, _ => y

/-- The endpoint that a blocked word names has one more stall cycle, and its longest episode follows (Table 15.6, group 3). -/
def State.countEpisode (s : State) (c : CoreAt) : State :=
  match (s.core c).blocked, (s.core c).ageKey with
  | some _, some n =>
    let now := SMap.get 0 (s.core c).age n + 1
    if n < 32 then (s.count 3 (coreUnit c) n 3).count 3 (coreUnit c) n 4 (now - s.counter 3 (coreUnit c) n 4) else s
  | _, _ => s

/-- What a stall cycle counts (Table 15.6): its class at each blocked core, queues, endpoints and reduction slots. -/
def State.countStall (s : State) (k : ClusterAt) : State :=
  let s := (coresOf k).foldl (fun s c => match (s.core c).blocked with
    | some b => (s.count 0 (coreUnit c) 0 (stallCounter b)).countEpisode c
    | none => s) s
  (coresOf k).foldl (fun s c => (s.countQueues c).countEndpoints c) (s.countSlots k)

/-- A cycle in which no core of the cluster issues (R118): only the counts move, and the words are tested again next. -/
def execStallCycle (k : ClusterAt) (s : State) : Host.Outcome State Fault Refusal :=
  let s := s.accept k
  if (s.cluster k).stallLine then
    let s := (s.countStall k).modCores k fun _ x => x.ages
    .next ((s.modCluster k fun x => { x with stallLine := false, clocks := x.clocks + 1 }).count 8 (coxUnit k) 0 1)
  else .next s

end Sys2Proof.Machine
end

