-- ==== Sys2Proof/Machine/ChannelUnit.lean ====
section
/-! DEFINITION. The CE operations of a word (Table 4.5) and the channel engine's own work: requests launched, the steering unit
(R125 to R127, R175 to R188, R221, R236 to R249, R265 to R270). -/

namespace Sys2Proof.Machine

/-- A CE operation of a core's word. -/
def State.ceUnit (s : State) (c : CoreAt) (op : Word → Core → Bool) (act : State → CoreAt → Word → State) : State :=
  let s := s.accept (clusterOf c)
  let x := s.core c
  if s.ready c (·.ce) && op x.word x then
    (act s c x.word).modCore c fun y => { y with todo := { y.todo with ce := false } }
  else s

/-! ### Sends -/

/-- The link die through which an endpoint's connection runs. -/
def SendEp.link (e : SendEp) : Nat := if e.viaAlt then e.altLinkDie else e.linkDie

/-- The clusters of a group's targets in the order of their first entry, with CMASK and the lowest core (R218). -/
def groupCopies (ts : List LCore) : List (LCore × BitVec 64) :=
  let ks := (ts.map fun t => (t.die, t.cl)).foldl (fun l k => if l.contains k then l else l ++ [k]) []
  ks.filterMap fun k =>
    let cores := (ts.filter fun t => decide ((t.die, t.cl) = k)).map (·.core)
    match ts.find? fun t => decide ((t.die, t.cl) = k) with
    | none => none
    | some t => some ({ t with core := cores.foldl (fun m x => if x.toNat < m.toNat then x else m) t.core },
        cores.foldl (fun m x => m ||| BitVec.ofNat 64 (2 ^ x.toNat)) 0)

/-- The packets that carry one record of an endpoint: one, or a copy for each cluster of its group. -/
def State.recordPackets (s : State) (c : CoreAt) (e : SendEp) (h : BitVec 128) : List Packet :=
  let self := s.lcore c
  if e.mcast then
    (groupCopies (s.targetsOf c e)).map fun t => { packet 0 self t.1 (h.setWidth 256) with route := copyMask t.2 }
  else
    let p := packet 0 self (e.dst s.pkg) (h.setWidth 256)
    [if e.remote then toComp p 2 e.link else p]

/-- The receive endpoint that an endpoint's records name. -/
def State.dstEpOf (s : State) (c : CoreAt) (e : SendEp) : Nat := if e.mcast then (s.cluster (clusterOf c)).groupEp e.group else e.dstEp

/-- The records of an endpoint that are to be acknowledged: one for each target (R242). -/
def State.awaitRecords (s : State) (c : CoreAt) (e : SendEp) (ep : Nat) (x : Core) : Core :=
  let self := s.lcore c
  let scopes := if e.stream then [3] else (s.targetsOf c e).map (scopeOf self)
  let os := scopes.map fun (sc : BitVec 3) =>
    ({ serial := 0, op := 0, isRecord := true, tag := 0, scope := sc, ep := BitVec.ofNat 4 ep, pos := 0, fa := 0,
       linkDie := BitVec.ofNat 3 e.link } : Outstanding)
  { x with outstanding := x.outstanding ++ os }

/-- Debits credits. -/
def SendEp.debit (e : SendEp) (n : Nat) : SendEp :=
  if e.mcast then { e with tcredits := e.tcredits.map (· - n) } else { e with credits := e.credits - n }

/-- A record of `n` slots whose bytes stand at `from_` leaves on an endpoint, behind a skip record where it would wrap (R175, R184). -/
def State.launchRecord (s : State) (c : CoreAt) (ep n from_ : Nat) (release : Option (Fin 16) := none) : State :=
  let x := s.core c
  let e := x.sendEp ep
  let size := e.rslots + 1
  let tail := size - e.wpos
  let self := s.lcore c
  let dep := s.dstEpOf c e
  let wrap := decide (tail < n)
  let seq1 := if wrap then e.seq + 1 else e.seq
  let pos := if wrap then 0 else e.wpos
  let skips := if wrap then s.recordPackets c e (msgHeader self ep e.seq 0 dep 1 (tail - 1)) else []
  let data := s.recordPackets c e (msgHeader self ep seq1 0 dep 0 (n - 1))
  let e' := { e.debit (e.need n) with seq := seq1 + 1, wpos := (pos + n) % size }
  let y := s.awaitRecords c e ep (if wrap then s.awaitRecords c e ep x else x)
  let job : FabricJob := { ops := readOps from_ (64 * n - 16), fin := .send (skips ++ data) none release, cycle := s.now c }
  (s.putCore c ((y.putSend ep e').enqueue 1 job)).countRecord c ep (e.need n)

/-- SEND and MSEND of a byte message (R175, R184). -/
def State.sendBytes (s : State) (c : CoreAt) (w : Word) : State :=
  let ep := ceEp w
  let e := (s.core c).sendEp ep
  let n := ceArg w % 64 + 1
  let src := if (ceArg w).testBit 7 || decide (e.srcSize + 1 < e.srcPos + n) then 0 else e.srcPos
  let s := s.launchRecord c ep n (e.srcBase + src * 64 + 16)
  s.modCore c fun x => x.putSend ep { x.sendEp ep with srcPos := src + n }

/-- Deep-memory header (Table 9.4). -/
def deepHeader (op : Nat) (spec claim : Bool) (stream index offset length : Nat) (step : BitVec 16) : BitVec 128 :=
  BitVec.ofNat 4 op ++ (if spec then (1 : BitVec 1) else 0) ++ (if claim then (1 : BitVec 1) else 0) ++ BitVec.ofNat 15 stream ++
    BitVec.ofNat 8 index ++ (0 : BitVec 3) ++ BitVec.ofNat 48 offset ++ BitVec.ofNat 13 length ++ step ++ (0 : BitVec 19)

/-- A tile SEND or MSEND (R157, R181, R184), and on a write stream the store of R268: every segment in order, each with the next SEQ. -/
def State.sendTile (s : State) (c : CoreAt) (w : Word) : State :=
  let ep := ceEp w
  let x := s.core c
  let e := x.sendEp ep
  let at_ := e.frameAt (ceArg w)
  let h := x.hdrRead.getD []
  match fmtRow (segFmt h) with
  | none => s
  | some f =>
    let n := 2 ^ f.seglog
    let self := s.lcore c
    let dep := s.dstEpOf c e
    let jobs : List FabricJob := (List.range n).map fun i =>
      let pkts := if e.stream then
          [toComp (packet 0xA self (e.dst s.pkg) ((deepHeader 2 false false e.streamNo 0 0 0 0).setWidth 256)) 1 e.moon]
        else s.recordPackets c e (msgHeader self ep (e.seq + BitVec.ofNat 24 i) i dep 2 0)
      { ops := (packRanges h f at_ i).flatMap fun r => readOps r.1 r.2, fin := .send pkts (some (packHeader h f i)) none, cycle := s.now c }
    let y := (List.range n).foldl (fun y _ => s.awaitRecords c e ep y) { x with hdrRead := none, hdrAsked := false }
    let e' := { e.debit n with seq := e.seq + BitVec.ofNat 24 n, wpos := (e.wpos + n) % (e.rslots + 1) }
    (s.putCore c (jobs.foldl (fun y j => y.enqueue 1 j) (y.putSend ep e'))).countRecord c ep n

def execSend (c : CoreAt) (s : State) : Host.Outcome State Fault Refusal :=
  .next (s.ceUnit c (fun w x => decide (ceOp w = 1) && decide ((x.sendEp (ceEp w)).type = 0)) State.sendBytes)

def execTileSend (c : CoreAt) (s : State) : Host.Outcome State Fault Refusal :=
  .next (s.ceUnit c (fun w x => decide (ceOp w = 1) && decide ((x.sendEp (ceEp w)).type = 1) && !(x.sendEp (ceEp w)).stream) State.sendTile)

def execStreamWrite (c : CoreAt) (s : State) : Host.Outcome State Fault Refusal :=
  .next (s.ceUnit c (fun w x => decide (ceOp w = 1) && (x.sendEp (ceEp w)).stream && !(x.sendEp (ceEp w)).readStream) State.sendTile)

/-- MSEND of a message, or of a tile (R184, R218). -/
def execMsend (c : CoreAt) (s : State) : Host.Outcome State Fault Refusal :=
  .next (s.ceUnit c (fun w _ => decide (ceOp w = 2)) fun s c w =>
    if ((s.core c).sendEp (ceEp w)).type = 0 then s.sendBytes c w else s.sendTile c w)

/-! ### Demands of a read stream (R267, R270) -/

/-- The stream that feeds a ring, as its endpoint's `feed` names it. -/
def feedStream (l : LCore) : Nat := 32768 * (l.die.toNat - 24) + l.cl.toNat * 64 + l.core.toNat

/-- The segments of buffered tiles, counted whole (R270). -/
def Core.bufferUse (x : Core) : Nat := (x.runAhead.map (·.need)).sum

/-- Speculative demands after a demand of index i in sweep g, for the indices l, while the buffer has room (R270). -/
def State.speculate (s : State) (r : CoreAt) (m n g need : Nat) (step : BitVec 16) (l : List Nat) : State :=
  match l with
  | [] => s
  | j :: t =>
    let x := s.core r
    let s' :=
      if x.runAhead.any (fun b => decide (b.stream = 32768 * m + n) && decide (b.sweep = g) && decide (b.index = j)) ||
          decide (8 < x.bufferUse + need) then s
      else
        let y := { x with runAhead := x.runAhead ++ [{ stream := 32768 * m + n, sweep := g, index := j, need := need, txn := x.serial }],
                          serial := x.serial + 1 }
        let p := toComp (packet 0xA (s.lcore r) (s.lcore r) ((deepHeader 1 true false n j 0 0 step).setWidth 256)) 1 m
        ((s.putCore r y).inject r { p with txn := some x.serial }).count 2 (coreUnit r) 0 0
    s'.speculate r m n g need step t

/-- The tile record of a delivery, formed by the receiving CE (R267). -/
def deliveryHeader (ep : Nat) (e : RecvEp) (frame : Nat) : BitVec 128 :=
  withFrame (msgHeader ⟨0, 0, 0, 0⟩ 0 e.expSeq e.seg ep 2 0) frame

/-- Claimed copies at the head of a ring's demands land while it has room (R270). -/
def State.landClaimsN (fuel : Nat) (s : State) (r : CoreAt) (ep : Nat) : State :=
  match fuel with
  | 0 => s
  | k + 1 =>
    let x := s.core r
    let e := x.recvEp ep
    match x.demands.find? fun d => decide ((e.feed.map fun f => feedStream f.1) = some d.stream) with
    | none => s
    | some d =>
      if d.copy.isEmpty || decide (e.free < d.left) then s
      else
        let p := d.copy.foldl (fun (p : State × Bool) seg => if p.2 then p.1.landSegment r ep seg.1 (deliveryHeader ep) none seg.2 else p)
          (s.putCore r { x with demands := x.demands.erase d }, true)
        if p.2 then p.1.landClaimsN k r ep else p.1

def State.landClaims (s : State) (r : CoreAt) (ep : Nat) : State := s.landClaimsN ((s.core r).demands.length + 1) r ep

/-- SEND on a read-stream endpoint: a demand for index i. A buffered tile of the same sweep and index is claimed, and lands in demand
order (R270); then the receiving core's run-ahead follows. The endpoint's WPOS counts the sweeps and its SRC_POS holds the last index plus one. -/
def State.demandOp (s : State) (c : CoreAt) (w : Word) : State :=
  let ep := ceEp w
  let x := s.core c
  let e := x.sendEp ep
  let i := ceArg w
  let m := e.moon
  let n := e.streamNo
  let t := s.stream m n
  let g := if e.srcPos ≠ 0 ∧ i + 1 ≤ e.srcPos then e.wpos + 1 else e.wpos
  let step := ((s.cluster (clusterOf c)).step).extractLsb' 0 16
  let s := s.putCore c (x.putSend ep { e.debit 1 with wpos := g, srcPos := i + 1 })
  let rc := s.coreAt (t.rcv s.pkg)
  let rep := t.f 91 88
  let s := match rc with
    | none => s
    | some r => if g = e.wpos then s else s.modCore r fun y => { y with runAhead := y.runAhead.filter fun b => decide (b.stream ≠ 32768 * m + n) }
  let hit : Option RunTile := match rc with
    | none => none
    | some r => (s.core r).runAhead.find? fun b => decide (b.stream = 32768 * m + n) && decide (b.sweep = g) && decide (b.index = i) &&
        decide (b.segs.length = b.need)
  let s := s.inject c (toComp (packet 0xA (s.lcore c) (s.lcore c) ((deepHeader 1 false hit.isSome n i 0 0 step).setWidth 256)) 1 m)
  match rc with
  | none => s
  | some r =>
    let need := 2 ^ ((s.core r).recvEp rep).seglog
    let copy := match hit with
      | none => []
      | some b => b.segs
    let s := s.modCore r fun y => { y with
      runAhead := y.runAhead.filter (fun b => !(decide (b.stream = 32768 * m + n) && decide (b.sweep = g) && decide (b.index = i))),
      demands := y.demands ++ [{ stream := 32768 * m + n, left := need, copy := copy }] }
    let s := (if hit.isSome then s.count 2 (coreUnit r) 0 1 else s).landClaims r rep
    s.speculate r m n g need step ((List.range (t.f 253 252)).filterMap fun j => if i + 1 + j ≤ t.f 247 240 then some (i + 1 + j) else none)

def execStreamDemand (c : CoreAt) (s : State) : Host.Outcome State Fault Refusal :=
  .next (s.ceUnit c (fun w x => decide (ceOp w = 1) && (x.sendEp (ceEp w)).readStream) State.demandOp)

/-! ### Receives -/

/-- Marks records as waited for up to and with the n-th that is no skip (R177). -/
def waitRecs (n : Nat) (l : List Rec) : List Rec :=
  match l with
  | [] => []
  | r :: t =>
    if r.waited then r :: waitRecs n t
    else match n with
      | 0 => l
      | m + 1 => { r with waited := true } :: waitRecs (if r.kind = 1 then m + 1 else m) t

/-- RECV_WAIT (R177); the EA_OVF of a counted reduction record sets the flag after it (R226). -/
def State.recvOp (s : State) (c : CoreAt) (w : Word) : State :=
  let x := s.core c
  let e := x.recvEp (ceEp w)
  let n := ceArg w + 1
  let y := x.putRecv (ceEp w) { e with recs := waitRecs n e.recs }
  s.putCore c (if (e.unwaited.take n).any (·.ovf) then y.push (s.now c + 1) (.statusSet flEaOvf) else y)

def execRecvWait (c : CoreAt) (s : State) : Host.Outcome State Fault Refusal := .next (s.ceUnit c (fun w _ => decide (ceOp w = 3)) State.recvOp)

/-- RELEASE (R178). -/
def execRelease (c : CoreAt) (s : State) : Host.Outcome State Fault Refusal :=
  .next (s.ceUnit c (fun w _ => decide (ceOp w = 4)) fun s c w =>
    (s.releaseRecs c (ceEp w) (ceArg w + 1)).landClaims c (ceEp w))

/-! ### Remote operations -/

/-- A remote-form word: an entry of the request queue, and the schedule read of its record (R238, R239). The read and the check of the record stand
still in stall cycles, as the other pipelines do (DESIGN CHOICE, log entry 111: R118 does not say). -/
def State.requestOp (s : State) (op : BitVec 2) (c : CoreAt) (w : Word) : State :=
  let x := s.core c
  let t := s.now c
  let r : Request := { serial := x.serial, op := op, ep := BitVec.ofNat 4 (ceEp w), slot := x.slot, cycle := t }
  let y := { x with serial := x.serial + 1, reqQ := x.reqQ ++ [r] }
  s.putCore c (y.push (t + 2) (.bankRead (x.reqBase.toNat * 64 + ceArg w * 32) 32 (.request x.serial) (t + 2)))

def execRwrite (c : CoreAt) (s : State) : Host.Outcome State Fault Refusal :=
  .next (s.ceUnit c (fun w _ => decide (ceOp w = 5) && decide (ceArg w < 128)) (State.requestOp · 0))
def execRread (c : CoreAt) (s : State) : Host.Outcome State Fault Refusal :=
  .next (s.ceUnit c (fun w _ => decide (ceOp w = 6)) (State.requestOp · 1))
def execRatomic (c : CoreAt) (s : State) : Host.Outcome State Fault Refusal :=
  .next (s.ceUnit c (fun w _ => decide (ceOp w = 7) && decide (ceArg w < 128)) (State.requestOp · 2))

/-- The local form of RATOMIC, with the AG0 read of its word (R94, R240). -/
def State.localOp (s : State) (c : CoreAt) (w : Word) : State := s.putCore c ((s.core c).localAtomicOp w (s.now c))

def execRatomicLocal (c : CoreAt) (s : State) : Host.Outcome State Fault Refusal := .next (s.ceUnit c (fun w _ => localAtomic w) State.localOp)

/-- Reduction header (Table 7.8). -/
def redHeader (r : RedSt) (anchor : BitVec 10) (src : LCore) : BitVec 128 :=
  BitVec.ofNat 8 r.rid ++ BitVec.ofNat 10 (r.elems - 1) ++ anchor ++ BitVec.ofNat 4 r.fmt ++ BitVec.ofNat 2 r.mode ++ (0 : BitVec 30) ++
    src.pkg ++ src.die ++ src.cl ++ src.core ++ (0 : BitVec 32)

/-- The core whose router carries the reduction unit (R219). -/
def unitCore : BitVec 6 := 36

/-- The reduce form of RWRITE (R221). -/
def State.reduceOp (s : State) (c : CoreAt) (w : Word) : State :=
  let i : Fin 16 := ⟨ceEp w % 16, by omega⟩
  let x := s.core c
  let r := (s.cluster (clusterOf c)).redOf i.val
  let self := s.lcore c
  let anchor := if r.mode = 0 then ((anchorOf (x.ax' r.ax)).map (·.e)).getD 0 else 0
  let y := (x.reserve r.replyEp r.l 0 (some i) (s.now c)).1
  let p := packet 6 self { self with core := unitCore } ((redHeader r anchor self).setWidth 256)
  let job : FabricJob := { ops := readOps (r.srcBase + ceArg w % 128 * r.w * 64) r.p, fin := .send [p] none none, cycle := s.now c }
  s.putCore c { y.enqueue 0 job with redSpent := SMap.set 0 y.redSpent i.val (SMap.get 0 y.redSpent i.val + 1) }

def execReduceContribute (c : CoreAt) (s : State) : Host.Outcome State Fault Refusal :=
  .next (s.ceUnit c (fun w _ => decide (ceOp w = 5) && decide (128 ≤ ceArg w)) State.reduceOp)

/-- The CE checks the records read (R238); the halt falls at the end of the cycle. -/
def execRequestRecordCheck (c : CoreAt) (s : State) : Host.Outcome State Fault Refusal :=
  if (s.cluster (clusterOf c)).accepted then
    let r := s.requestChecks c
    .next (r.1.addFaults (clusterOf c) r.2)
  else .next s

/-- Some port of a link die carries traffic (R185, R237). -/
def State.linkUp (s : State) (l : Nat) : Bool :=
  (List.range 8).any fun i =>
    let p : Port := SMap.get {} s.ports (8 * l + i)
    decide (p.state = .up) || decide (p.state = .upNarrow)

/-- Access header (Table 8.7). -/
def accessHeader (b : BitVec 256) (src : LCore) (ep : BitVec 4) (pos : Nat) (scope : BitVec 3) (op : BitVec 2) : BitVec 256 :=
  b.extractLsb' 220 36 ++ src.pkg ++ src.die ++ src.cl ++ src.core ++ ep ++ recTag b ++ (0 : BitVec 1) ++ BitVec.ofNat 11 pos ++
    BitVec.ofNat 13 (recLength b) ++ scope ++ op ++ (0 : BitVec 82) ++ recFA b

/-- Slots of a request's reply (R239). -/
def replySlots (op : BitVec 2) (b : BitVec 256) : Nat := if op = 1 then (32 + recLength b + 63) / 64 else 1

/-- A request's target as a name: in the host window, the issuing package's host interface die. -/
def State.requestScope (s : State) (c : CoreAt) (fa : BitVec 64) : BitVec 3 := if faSpace fa = 3 then 4 else scopeOf (s.lcore c) (faCore fa)

/-- The oldest request leaves the queue (R239, R241), once its record has passed its check and a read or atomic can reserve its reply. -/
def execRequestLaunch (c : CoreAt) (s : State) : Host.Outcome State Fault Refusal :=
  let x := s.core c
  let k := s.cluster (clusterOf c)
  match x.reqQ with
  | [] => .next s
  | r :: rest =>
    match r.record with
    | none => .next s
    | some b =>
      let n := replySlots r.op b
      let ready := r.checked && !s.genhan.held && decide (k.run ≠ .halted) && decide (k.run ≠ .stopped) &&
        (decide (r.op = 0) || (x.recvEp r.ep.toNat).canReserve n)
      if !ready then .next s
      else
        let fa := recFA b
        let v := if r.op = 0 then (x, 0) else x.reserve r.ep.toNat n r.serial none (s.now c)
        let scope := s.requestScope c fa
        let named := bitsOf b.toNat 219 217
        let alt := !s.linkUp named && b.getLsbD 213
        let link := if alt then bitsOf b.toNat 216 214 else named
        let h := accessHeader b (s.lcore c) r.ep v.2 scope r.op
        let p := packet (if r.op = 0 then 2 else 3) (s.lcore c) (if faSpace fa = 3 then s.lcore c else faCore fa) h
        let p := { (if faSpace fa = 3 then toComp p 3 0 else if faPkg fa = s.pkg then p else toComp p 2 link) with txn := some r.serial }
        let o : Outstanding := { serial := r.serial, op := r.op, isRecord := false, tag := recTag b, scope := scope, ep := r.ep,
                                 pos := v.2, fa := fa, linkDie := BitVec.ofNat 3 link, alt := b.getLsbD 213 && !alt }
        let y := { v.1 with reqQ := rest, outstanding := v.1.outstanding ++ [o] }
        if r.op = 0 then
          .next (s.putCore c (y.enqueue 1 { ops := readOps (recLocal b) (recLength b), fin := .send [p] none none, cycle := r.cycle }))
        else .next ((s.putCore c y).inject c p)

/-- FENCE (R248, R253): at package or fabric scope it discards the run-ahead buffer, and what other cores hold of the streams that the core owns,
which it could otherwise claim. -/
def execFence (c : CoreAt) (s : State) : Host.Outcome State Fault Refusal :=
  .next (s.ceUnit c (fun w _ => decide (ceOp w = 8)) fun s c w =>
    if 3 ≤ ceArg w then (s.modCore c fun x => { x with runAhead := [] }).dropOwned [c] else s)

/-- CATCH (R193). -/
def execCatch (c : CoreAt) (s : State) : Host.Outcome State Fault Refusal :=
  .next (s.ceUnit c (fun w _ => decide (ceOp w = 9)) fun s c w => s.coreJoins c ⟨ceEp w % 16, by omega⟩ (BitVec.ofNat 8 (ceArg w)))

/-- CATCH_WAIT (R193, R196). -/
def execCatchWait (c : CoreAt) (s : State) : Host.Outcome State Fault Refusal :=
  .next (s.ceUnit c (fun w _ => decide (ceOp w = 10)) fun s c w =>
    (s.modCore c fun x => { x with waited := SMap.set 0 x.waited (ceEp w) (SMap.get 0 x.joined (ceEp w)) }).ckptCheck (clusterOf c))

/-! ### Steering -/

/-- STEER_ARM (R126). -/
def execSteerArm (c : CoreAt) (s : State) : Host.Outcome State Fault Refusal :=
  .next (s.ceUnit c (fun w _ => decide (ceOp w = 11)) fun s c w =>
    s.modCore c fun x => { x with steer := { x.steer with pending := x.steer.pending + ceArg w + 1 } })

/-- STEER_WAIT (R126): it issues once the count of armed pairs is zero. -/
def execSteerWait (c : CoreAt) (s : State) : Host.Outcome State Fault Refusal :=
  .next (s.ceUnit c (fun w _ => decide (ceOp w = 12)) fun s _ _ => s)

/-- Records of a steering endpoint that are not admitted yet. -/
def Core.unadmitted (x : Core) (ep admitted : Nat) : Bool := decide (admitted < (x.recvEp ep).unwaited.length)

/-- The unit admits the oldest message of an endpoint, a token first (R126, R127), and has a token read (R70, R125). "Oldest" orders the messages of one
endpoint: a token goes before a data message of any age (DESIGN CHOICE, log entry 124). -/
def Core.takeIn (x : Core) (now : Nat) : Core :=
  let t := x.steer
  if 4 ≤ t.tq + t.dq then x
  else match (x.recvEp t.tokenEp).unwaited[t.tq]? with
    | some r => ({ x with steer := { t with tq := t.tq + 1 } } : Core).enqueue 1
        { ops := readOps ((x.recvEp t.tokenEp).base + r.pos * 64 + 16) 4, fin := .token, cycle := now }
    | none => if x.unadmitted t.dataEp t.dq then { x with steer := { t with dq := t.dq + 1 } } else x

/-- The pair at the heads leaves the queues. -/
def Core.pairDone (x : Core) : Core :=
  let t := x.steer
  { x with steer := { t with tq := t.tq - 1, dq := t.dq - 1, toks := t.toks.drop 1, pending := t.pending - 1, k := t.k + 1 } }

/-- The message at the head of a steering endpoint is taken: marked, so that it can be released. -/
def Core.takeHead (x : Core) (ep : Nat) : Core := x.putRecv ep { x.recvEp ep with recs := waitRecs 1 (x.recvEp ep).recs }

/-- One cycle of the steering unit (R126): one message is admitted, one pair completed. It stops pairing when its cluster stops (R129). -/
def State.steerCycle (s : State) (c : CoreAt) : State :=
  let x := (s.core c).takeIn (s.now c)
  let s := s.putCore c x
  let data := x.recvEp x.steer.dataEp
  if x.steer.pending = 0 ∨ x.steer.dq = 0 then s
  else match x.token, data.head with
    | some t, some d =>
      if !tokenOk t x.steer.outMask then s.haltBy c fSteerToken
      else
        let y := ((x.takeHead x.steer.tokenEp).takeHead x.steer.dataEp).pairDone
        if bitsOf t.toNat 31 30 = 2 then
          ((s.putCore c y).releaseRecs c x.steer.dataEp 1).releaseRecs c x.steer.tokenEp 1
        else
          let ts := tokenTargets t
          if s.genhan.held || !ts.all (fun i => (x.sendEp i.val).hasCredit ((x.sendEp i.val).need d.slots)) then s
          else
            let from_ := data.base + d.pos * 64 + 16
            let last := ts.length - 1
            let s := (s.putCore c y).releaseRecs c x.steer.tokenEp 1
            ((ts.zipIdx).foldl (fun s p => s.launchRecord c p.1.val d.slots from_
              (if p.2 = last then some ⟨x.steer.dataEp % 16, by omega⟩ else none)) s)
    | _, _ => s

def execSteerCycle (c : CoreAt) (s : State) : Host.Outcome State Fault Refusal :=
  if (s.core c).steer.enabled && decide ((s.cluster (clusterOf c)).run = .running) then .next (s.steerCycle c) else .next s

/-! ### Connections -/

/-- Connection-control body (Table 10.9). -/
def connBody (op : Nat) (status : BitVec 4) (conn : BitVec 12) (tlink : BitVec 3) (src : LCore) (ep : BitVec 4) (slink : BitVec 3) (dst : LCore)
    (dep : BitVec 4) (type : BitVec 2) (rslots wpos : BitVec 11) (free : BitVec 12) (seq : BitVec 24) : BitVec 256 :=
  BitVec.ofNat 4 op ++ status ++ conn ++ tlink ++ src.die ++ src.cl ++ src.core ++ ep ++ slink ++ src.pkg ++ dst.die ++ dst.cl ++ dst.core ++
    dep ++ dst.pkg ++ type ++ rslots ++ wpos ++ free ++ seq ++ (0 : BitVec 98)

/-- OPEN (R185, R187): the request leaves through LINK_DIE, or the declared alternate when that is down. -/
def State.openOp (s : State) (c : CoreAt) (w : Word) : State :=
  let ep := ceEp w
  let e := (s.core c).sendEp ep
  let alt := !s.linkUp e.linkDie && e.altValid
  let e' := { e with conn := .pending, viaAlt := alt, broken := false, closeAfter := false }
  let b := connBody 1 0 0 0 (s.lcore c) (BitVec.ofNat 4 ep) (BitVec.ofNat 3 e'.link) (e.dst s.pkg) (BitVec.ofNat 4 e.dstEp) (BitVec.ofNat 2 e.type) 0 0 0 0
  (s.modCore c fun x => x.putSend ep e').inject c (toComp (packet 9 (s.lcore c) (e.dst s.pkg) b) 2 e'.link)

def execOpen (c : CoreAt) (s : State) : Host.Outcome State Fault Refusal := .next (s.ceUnit c (fun w _ => decide (ceOp w = 13)) State.openOp)

/-- The CLOSE of an open connection goes out (R186). -/
def State.sendClose (s : State) (c : CoreAt) (ep : Nat) : State :=
  let e := (s.core c).sendEp ep
  let b := connBody 3 0 e.connIndex e.tgtLinkDie (s.lcore c) (BitVec.ofNat 4 ep) (BitVec.ofNat 3 e.link) (e.dst s.pkg) (BitVec.ofNat 4 e.dstEp)
    (BitVec.ofNat 2 e.type) 0 0 0 0
  let p := toComp (packet 9 (s.lcore c) (e.dst s.pkg) b) 2 e.link
  let y := (s.core c).putSend ep { e with conn := .closing }
  if y.fabricJobs.any fun j => j.sends.any fun q => decide (q.pkind = 0) && decide (q.dst = e.dst s.pkg) then
    s.putCore c (y.enqueue 1 { ops := [], fin := .send [p] none none, cycle := s.now c })
  else (s.putCore c y).inject c p

/-- CLOSE (R186, R187). -/
def State.closeOp (s : State) (c : CoreAt) (w : Word) : State :=
  let ep := ceEp w
  let e := (s.core c).sendEp ep
  match e.conn with
  | .pending => s.modCore c fun x => x.putSend ep { e with closeAfter := true }
  | .open_ => s.sendClose c ep
  | .failed => s.modCore c fun x => x.putSend ep { e with conn := .closed, openStatus := 0 }
  | _ => s

def execClose (c : CoreAt) (s : State) : Host.Outcome State Fault Refusal := .next (s.ceUnit c (fun w _ => decide (ceOp w = 14)) State.closeOp)

end Sys2Proof.Machine
end

