-- ==== Sys2Proof/Machine/Arrivals.lean ====
section
/-! DEFINITION. The arrival commands of a core (R158, R178, R179, R225, R241 to R245, R251, R254): what reaches its channel engine and
its scratchpad from the fabric. -/

namespace Sys2Proof.Machine

def execChannelRecordArrival (c : CoreAt) (hdr : BitVec 128) (payload : Bytes) (s : State) : Host.Outcome State Fault Refusal :=
  .next (s.onQueue c 1 (s.isFor c 0 (hdr.setWidth 256) payload) c.core.val fun s => s.recordArrives c hdr payload)

def execTileSegmentArrival (c : CoreAt) (hdr : BitVec 128) (seg : Bytes) (s : State) : Host.Outcome State Fault Refusal :=
  let f := s.isFor c 0 (hdr.setWidth 256) seg
  .next (s.onQueue c 1 f c.core.val fun t => t.segmentArrives c hdr seg (s.injectedIn f c.core.val))

/-! ### Credit returns (R178, R179, R184, R297, R416) -/

def creditSlots (b : BitVec 128) : Nat := bitsOf b.toNat 111 100
def creditEp (b : BitVec 128) : Nat := bitsOf b.toNat 79 76
/-- The target that returns the credits. -/
def creditFrom (pkg : BitVec 12) (b : BitVec 128) : LCore := ⟨pkg, b.extractLsb' 95 5, b.extractLsb' 86 9, b.extractLsb' 80 6⟩

/-- Returned credits are first held back as a credit cut asks (R416). -/
def SendEp.credited (e : SendEp) (n : Nat) : SendEp :=
  let h := min n e.toWithhold
  { e with credits := e.credits + (n - h), withheld := e.withheld + h, toWithhold := e.toWithhold - h }

/-- Adds `n` credits of target `i`. -/
def creditAt (i n : Nat) (l : List Nat) : List Nat := l.zipIdx.map fun p => if p.2 = i then p.1 + n else p.1

/-- The same for target `j` of a multicast endpoint: a cut withholds its count from every target. -/
def SendEp.creditedBy (e : SendEp) (j n : Nat) : SendEp :=
  let h := min n (e.toWithhold - e.twithheld.getD j 0)
  { e with tcredits := creditAt j (n - h) e.tcredits, twithheld := creditAt j h e.twithheld }

/-- A sender records a credit return. One that would lift the credits above the ring's size is discarded with CHANNEL_PROTO. -/
def State.creditArrives (s : State) (c : CoreAt) (b : BitVec 128) : State :=
  let x := s.core c
  let i := creditEp b
  let e := x.sendEp i
  let n := creditSlots b
  if e.mcast then
    match (s.targetsOf c e).findIdx? fun t => decide (t = creditFrom s.pkg b) with
    | none => s.haltBy c fChannelProto 0 (s.clusterNamed (creditFrom s.pkg b))
    | some j =>
      if e.rslots + 1 < e.tcredits.getD j 0 + e.twithheld.getD j 0 + n then s.haltBy c fChannelProto 0 (s.clusterNamed (creditFrom s.pkg b))
      else s.putCore c (x.putSend i (e.creditedBy j n))
  else if e.rslots + 1 < e.credits + e.withheld + n then s.haltBy c fChannelProto 0 (s.clusterNamed (creditFrom s.pkg b))
  else s.putCore c (x.putSend i (e.credited n))

def execCreditReturn (c : CoreAt) (body : BitVec 128) (s : State) : Host.Outcome State Fault Refusal :=
  .next (s.onArrival (s.isFor c 1 (body.setWidth 256) []) c.core.val fun s => s.creditArrives c body)

/-! ### Remote requests at their target -/

def accFA (a : BitVec 256) : BitVec 64 := a.extractLsb' 0 64
def accOp (a : BitVec 256) : BitVec 2 := a.extractLsb' 146 2
def accScope (a : BitVec 256) : BitVec 3 := a.extractLsb' 148 3
def accLength (a : BitVec 256) : Nat := bitsOf a.toNat 163 151
def accPos (a : BitVec 256) : BitVec 11 := a.extractLsb' 164 11
def accTag (a : BitVec 256) : BitVec 8 := a.extractLsb' 176 8
def accEp (a : BitVec 256) : Nat := bitsOf a.toNat 187 184
def accSrc (a : BitVec 256) : LCore := ⟨a.extractLsb' 208 12, a.extractLsb' 203 5, a.extractLsb' 194 9, a.extractLsb' 188 6⟩
def accCond (a : BitVec 256) : BitVec 2 := a.extractLsb' 220 2
def accAtop (a : BitVec 256) : BitVec 2 := a.extractLsb' 222 2
def accValue (a : BitVec 256) : BitVec 32 := a.extractLsb' 224 32

/-- An answer to the issuer of a request; the host's logical place is die 31 (R318). -/
def State.answer (s : State) (c : CoreAt) (p : Packet) (txn : Option Nat) : State :=
  let p := { p with txn := txn }
  if p.dst.die = 31 then s.inject c (toComp p 3 0) else s.injectAny c p

/-- The acknowledgement of a remote write (R242). -/
def State.ackWrite (s : State) (c : CoreAt) (a : BitVec 256) (status : BitVec 4) (txn : Option Nat) : State :=
  s.answer c (packet 5 (s.lcore c) (accSrc a) ((ackBody (accTag a) status (accScope a) false).setWidth 256)) txn

/-- The header bits of a reply packet: the reserved position and the message header (R241). -/
def replyBits (pos : BitVec 11) (msg : BitVec 128) : BitVec 256 := (0 : BitVec 117) ++ pos ++ msg

/-- The reply to a remote read or atomic (R241). -/
def State.replyTo (s : State) (c : CoreAt) (a : BitVec 256) (status : BitVec 4) (prior : BitVec 32) (data : Bytes) (txn : Option Nat) : State :=
  let slots := if accOp a = 1 then (32 + accLength a + 63) / 64 else 1
  let rep := replyInfo prior (accTag a) status (accOp a) (accFA a)
  s.answer c (packet 4 (s.lcore c) (accSrc a) (replyBits (accPos a) (replyHeader (accEp a) slots)) data rep) txn

/-- Window entry `i` of a core (Table 8.11) admits an access (R245). -/
def winAdmits (w : BitVec 128) (perm off n : Nat) (src : LCore) : Bool :=
  let f (hi lo : Nat) : Nat := bitsOf w.toNat hi lo
  w.getLsbD 127 && w.getLsbD perm && decide (f 123 112 * 32 ≤ off) && decide (off + n ≤ (f 123 112 + f 111 100 + 1) * 32) &&
  decide (f 87 76 ≤ src.pkg.toNat) && decide (src.pkg.toNat ≤ f 99 88) && decide (f 70 66 ≤ src.die.toNat) && decide (src.die.toNat ≤ f 75 71) &&
  decide (f 56 48 ≤ src.cl.toNat) && decide (src.cl.toNat ≤ f 65 57)

/-- Some window admits the access of a request. -/
def Core.admits (x : Core) (perm off n : Nat) (src : LCore) : Bool :=
  (List.range 8).any fun i => winAdmits (SMap.get 0 x.win i) perm off n src

/-- One more request refused (R245). -/
def State.denied (s : State) (c : CoreAt) : State := s.count 1 (coreUnit c) 0 5

/-- An access of a request goes to the fabric side (R72). -/
def State.toFabric (s : State) (c : CoreAt) (ops : List FabricOp) (fin : FabricEnd) (txn : Option Nat) : State :=
  s.modCore c fun x => x.enqueue 1 { ops := ops, fin := fin, cycle := s.now c, txn := txn }

/-- A remote write at its target (R72, R242, R245, R254). -/
def State.writeArrives (s : State) (c : CoreAt) (a : BitVec 256) (data : Bytes) (txn : Option Nat) : State :=
  let off := faOffset (accFA a)
  if s.offline (clusterOf c) then s.ackWrite c a 4 txn
  else if !(s.core c).admits 125 off (accLength a) (accSrc a) then (s.denied c).ackWrite c a 1 txn
  else s.toFabric c (writeOps off (data.take (accLength a))) (.written a) txn

/-! The host window (R242, R304, R428): a space 3 request is answered by the host interface die. -/

/-- Offset of a space 3 address. -/
def hostOffset (fa : BitVec 64) : Nat := bitsOf fa.toNat 47 0

/-- The host window is open and holds the bytes of a request. -/
def State.windowHolds (s : State) (a : BitVec 256) : Bool :=
  s.host.hwEnable && decide (hostOffset (accFA a) + accLength a ≤ (s.host.hwPages.toNat + 1) * 4096)

/-- Host address of a space 3 request. -/
def State.windowAddr (s : State) (a : BitVec 256) : BitVec 64 := BitVec.ofNat 64 (s.host.hwBase.toNat * 4096 + hostOffset (accFA a))

/-- The host interface die answers an issuer of this package. -/
def State.hostAnswer (s : State) (p : Packet) : State :=
  match s.coreAt p.dst with
  | some c => s.injectFrom 3 0 c p
  | none => s

/-- A space 3 write: acknowledged once its posted write is issued. -/
def State.hostWriteArrives (s : State) (a : BitVec 256) (data : Bytes) (txn : Option Nat) : State :=
  let ok := s.windowHolds a
  let s := if ok then s.emit (.hostWrite (s.windowAddr a) (data.take (accLength a))) else s
  s.hostAnswer { packet 5 s.companion (accSrc a) ((ackBody (accTag a) (if ok then 0 else 1) (accScope a) false).setWidth 256) with txn := txn }

/-- A space 3 read, with what the host memory returned; an error of the read is DATA_ERROR. -/
def State.hostReadArrives (s : State) (a : BitVec 256) (host : Option Bytes) (txn : Option Nat) : State :=
  let r : BitVec 4 × Bytes := if s.windowHolds a then (match host with
    | some b => (0, b.take (accLength a))
    | none => (3, [])) else (1, [])
  let s := if r.1 = 3 then s.logRead .window else s
  let rep := replyInfo 0 (accTag a) r.1 (accOp a) (accFA a)
  s.hostAnswer { packet 4 s.companion (accSrc a) (replyBits (accPos a) (replyHeader (accEp a) ((32 + accLength a + 63) / 64))) r.2 rep with txn := txn }

def execRemoteWrite (c : CoreAt) (acc : BitVec 256) (data : Bytes) (s : State) : Host.Outcome State Fault Refusal :=
  let g := isForComp 3 0 2 acc data
  let f := s.isFor c 2 acc data
  if faSpace (accFA acc) = 3 then .next (s.onArrival g 0 fun t => t.hostWriteArrives acc data (s.txnOf g))
  else .next (s.onQueue c 1 f c.core.val fun t => t.writeArrives c acc data (s.txnOf f c.core.val))

/-- A remote read at its target (R72, R241, R245, R254). -/
def State.readArrives (s : State) (c : CoreAt) (a : BitVec 256) (txn : Option Nat) : State :=
  let off := faOffset (accFA a)
  if s.offline (clusterOf c) then s.replyTo c a 4 0 [] txn
  else if !(s.core c).admits 126 off (accLength a) (accSrc a) then (s.denied c).replyTo c a 1 0 [] txn
  else s.toFabric c (readOps off (accLength a)) (.replied a) txn

def execRemoteReadRequest (c : CoreAt) (acc : BitVec 256) (host : Option Bytes) (s : State) : Host.Outcome State Fault Refusal :=
  let g := isForComp 3 0 3 acc []
  let f := s.isFor c 3 acc []
  if faSpace (accFA acc) = 3 then .next (s.onArrival g 0 fun t => t.hostReadArrives acc host (s.txnOf g))
  else .next (s.onQueue c 1 f c.core.val fun t => t.readArrives c acc (s.txnOf f c.core.val))

/-- Bytes that a window must hold for an atomic (R245): the word, the pair, or the bin word. -/
def atomicWindow (off : Nat) (a : BitVec 256) : Nat × Nat :=
  if accAtop a = 1 then (off, 8) else atomicSpan off (accAtop a) (accValue a)

/-- A remote atomic at its target (R72, R93, R94, R245, R251, R254). -/
def State.atomicArrives (s : State) (c : CoreAt) (a : BitVec 256) (txn : Option Nat) : State :=
  let off := faOffset (accFA a)
  let span := atomicWindow off a
  if s.offline (clusterOf c) then s.replyTo c a 4 0 [] txn
  else if !(s.core c).admits 124 span.1 span.2 (accSrc a) then (s.denied c).replyTo c a 1 0 [] txn
  else if off % atopAlign (accAtop a).toNat ≠ 0 then s.replyTo c a 2 0 [] txn
  else s.toFabric c [.atomic off (accAtop a) (accCond a) (accValue a)] (.replied a) txn

def execRemoteAtomicRequest (c : CoreAt) (acc : BitVec 256) (s : State) : Host.Outcome State Fault Refusal :=
  let f := s.isFor c 3 acc []
  .next (s.onQueue c 1 f c.core.val fun t => t.atomicArrives c acc (s.txnOf f c.core.val))

/-! ### Answers at the issuer -/

/-- A reply packet for a core. -/
def State.isReply (s : State) (c : CoreAt) (pos : BitVec 11) (msg rep : BitVec 128) (data : Bytes) (p : Packet) : Bool :=
  s.isFor c 4 (replyBits pos msg) data p && decide (p.hdr2 = rep)

/-- A reply record stands where slots are reserved for it, all of them (R179, R239). -/
def RecvEp.takesReply (e : RecvEp) (serial : Nat) (msg : BitVec 128) (pos : BitVec 11) : Bool :=
  e.valid && decide (e.type = 2) && e.resv.any fun r => r.isFor serial && r.open_ && decide (r.pos = pos.toNat) && decide (r.slots = hdrSlots msg)

/-- A reply record (R179, R239, R241, R243): a late one is discarded and counted; one that is no KIND 3 record, or not in the slots reserved
for it, breaks the protocol. -/
def State.replyRecord (s : State) (c : CoreAt) (pos : BitVec 11) (msg rep : BitVec 128) (data : Bytes) (txn : Option Nat) : State :=
  let x := s.core c
  let f := answersTo txn fun o => decide (o.op ≠ 0) && decide (o.ep.toNat = hdrEp msg) && decide (o.pos = pos.toNat)
  let proto := s.haltBy c fChannelProto 0 (s.clusterNamed (faCore (rep.extractLsb' 0 64)))
  if decide (hdrKind msg ≠ 3) || !hdrClean msg then proto
  else if x.late.any f then s.lateAnswer c f
  else match x.outstanding.find? fun o => f o && !o.answered with
    | some o => if (x.recvEp (hdrEp msg)).takesReply o.serial msg pos then s.replyArrives c o rep data else proto
    | none => proto

def execReply (c : CoreAt) (pos : BitVec 11) (msg rep : BitVec 128) (data : Bytes) (s : State) : Host.Outcome State Fault Refusal :=
  let f := s.isReply c pos msg rep data
  .next (s.onQueue c 1 f c.core.val fun t => t.replyRecord c pos msg rep data (s.txnOf f c.core.val))

def execWriteAck (c : CoreAt) (body : BitVec 128) (s : State) : Host.Outcome State Fault Refusal :=
  let f := s.isFor c 5 (body.setWidth 256) []
  .next (s.onArrival f c.core.val fun t => t.ackArrives c body (s.txnOf f c.core.val))

/-- An outstanding request of a core completes with a status of its own channel engine (R243). An answer that still comes is late. -/
def State.completeRequest (s : State) (c : CoreAt) (o : Outstanding) (status : BitVec 4) : State :=
  let s := s.modCore c fun x => { x with late := x.late ++ [o] }
  if o.op ≠ 0 then s.replyArrives c o (replyInfo 0 o.tag status o.op o.fa) []
  else
    let x := s.core c
    s.putCore c { x with outstanding := x.outstanding.erase o, ackErr := if x.ackErr.isNone then some status else x.ackErr }

/-- The n-th outstanding request of a core has had no answer for 10,000,000 ticks (R243). -/
def execRequestNoPathTimeout (c : CoreAt) (n : Nat) (s : State) : Host.Outcome State Fault Refusal :=
  match (s.core c).outstanding[n]? with
  | none => .next s
  | some o => if o.isRecord || o.answered then .next s else .next (s.completeRequest c o 5)

end Sys2Proof.Machine
end

