-- ==== Sys2Proof/Machine/Clocks.lean ====
section
/-! DEFINITION. The clocks and voltages of the clusters (R368, R387 to R389, R393). -/

namespace Sys2Proof.Machine

/-- The voltages of a V/F table in mV (R388). -/
def tableVolts : List Nat := (List.range 8).map fun i => 600 + 30 * i

/-- F_c at a domain voltage in mV: the highest table point at or below it (R388). A cluster that `vf` does not list reaches the cap. -/
def State.fAt (s : State) (k : ClusterAt) (mv : Nat) : Nat :=
  match SMap.get [] s.nv.vf (clusterKey k) with
  | [] => s.clockCap
  | l => if mv < 600 then 0 else 4 * l.getD (min 7 ((mv - 600) / 30)) 0

/-- V_cap,c in mV: the lowest table point whose frequency reaches the cap (R388); none where no point does. -/
def State.vCap (s : State) (k : ClusterAt) : Option Nat := tableVolts.find? fun v => decide (s.clockCap ≤ s.fAt k v)

/-- The target frequency: the job's, or with none loaded the cap (R387). -/
def State.target (s : State) : Nat := if s.job.state = .idle then s.clockCap else min s.clockCap s.job.target

/-- The thermal ceiling of a cluster: it starts at the cap (R393). -/
def State.ceilingOf (s : State) (k : ClusterAt) : Nat := min s.clockCap (s.cluster k).ceiling

/-- The set point of a cluster in MHz (R387): 4 % above the cap under a stress test (R368), 500 MHz from an orderly stop on (R379). A clock skew is one
more bound (R416). -/
def State.setPoint (s : State) (k : ClusterAt) : Nat :=
  let x := s.cluster k
  let f := min (min s.target (s.fAt k (s.domain (domainOf k)).vcore)) (min (s.ceilingOf k) s.power.fPkg)
  let g := match x.skew with
    | some c => min f c
    | none => f
  if s.power.orderly then 500 else if x.testing && x.stress then s.clockCap * 104 / 100 else max 500 (g / 4 * 4)

/-- The clusters of half-die domain `d`. -/
def halfClusters (d : Nat) : List ClusterAt := allClusters.filter fun k => decide ((domainOf k).val = d)

/-- The clusters that are mapped in the loaded job: those that its image names, and those loaded now. -/
def State.jobClusters (s : State) : List ClusterAt :=
  if s.job.state = .idle then []
  else (s.job.members ++ s.physicals ((members (regionOf (imageRecs s.job.image).1)).map fun e => (memDie e, memCl e))).dedup

/-- The lowest table voltage that a cluster's stress test needs: at or above 0.95 of V_cap,c (R368). -/
def State.testVolts (s : State) (k : ClusterAt) : Nat :=
  match s.vCap k with
  | none => 0
  | some v => (tableVolts.find? fun u => decide (95 * v ≤ 100 * u)).getD 810

/-- The VCORE of a half-die domain in mV: for the loaded job (R389), and for the stress tests in it (R368). -/
def State.voltageFor (s : State) (ks : List ClusterAt) (d : Nat) : Nat :=
  let mine := ks.filter fun k => decide ((domainOf k).val = d)
  let job := if mine = [] then 660 else (tableVolts.find? fun v => mine.all fun k => decide (s.target ≤ s.fAt k v)).getD 810
  let tests := (s.clusters.filterMap fun q => clusterAtKey q.1).filter fun k => decide ((domainOf k).val = d) && (s.cluster k).testing && (s.cluster k).stress
  tests.foldl (fun v k => max v (s.testVolts k)) job

/-- The trim of a cluster under a stress test, to a rail of 0.95 V_cap,c; a test that needs more than 8 %, or a cluster that never reaches the cap, cannot
be held to its conditions (R368). -/
def State.setTrim (s : State) (k : ClusterAt) : State :=
  let v := (s.domain (domainOf k)).vcore
  match s.vCap k with
  | none => s.modCluster k fun x => { x with testVoid := true }
  | some c =>
    let t := 10 * v - 95 * c / 10
    s.modCluster k fun x => { x with trim := t, testVoid := x.testVoid || decide (80 * v < 100 * t) }

/-- Genhan sets the voltage of every powered half-die domain, and the trims of the stress tests follow. -/
def State.setVoltages (s : State) : State :=
  let ks := s.jobClusters
  let s := (List.finRange 61).foldl (fun t d =>
    if d.val < 48 ∧ (t.domain d).powered then t.modDomain d fun x => { x with vcore := s.voltageFor ks d.val } else t) s
  ((s.clusters.filterMap fun q => clusterAtKey q.1).filter fun k => (s.cluster k).testing && (s.cluster k).stress).foldl State.setTrim s

end Sys2Proof.Machine
end

