-- ==== Sys2Proof/Machine/Reduce.lean ====
section
/-! DEFINITION. The reduction unit of a cluster (R49 to R53, R219 to R228): contributions, returns and the records of the local cores. The
bytes of a buffer slot stand in the scratchpad of BUF_CORE (Table 7.9). -/

namespace Sys2Proof.Machine

/-! ### Reduction header (Table 7.8) -/

def redRid (h : BitVec 128) : Nat := bitsOf h.toNat 127 120
def redElems (h : BitVec 128) : Nat := bitsOf h.toNat 119 110 + 1
def redAnchor (h : BitVec 128) : Nat := bitsOf h.toNat 109 100
def redFmt (h : BitVec 128) : Nat := bitsOf h.toNat 99 96
def redMode (h : BitVec 128) : Nat := bitsOf h.toNat 95 94
def redOvf (h : BitVec 128) : Bool := h.getLsbD 93
def redData (h : BitVec 128) : Bool := h.getLsbD 91
def redFault (h : BitVec 128) : Bool := h.getLsbD 90
def redCode (h : BitVec 128) : BitVec 2 := h.extractLsb' 88 2
def redSrc (h : BitVec 128) : LCore := ⟨h.extractLsb' 52 12, h.extractLsb' 47 5, h.extractLsb' 38 9, h.extractLsb' 32 6⟩

/-- A header with bit `i` set or cleared. -/
def setBit (h : BitVec 128) (i : Nat) (b : Bool) : BitVec 128 :=
  if b then h ||| BitVec.ofNat 128 (2 ^ i) else h &&& ~~~(BitVec.ofNat 128 (2 ^ i))

/-- A header that marks its chunk as faulted (R223). -/
def markFault (h : BitVec 128) (code : BitVec 2) : BitVec 128 :=
  ((setBit h 90 true) &&& ~~~(BitVec.ofNat 128 (3 * 2 ^ 88))) ||| BitVec.ofNat 128 (code.toNat * 2 ^ 88)

/-- A header sent by a node: its SRC fields, RESULT and DATA. -/
def nodeHeader (h : BitVec 128) (node : LCore) (result data : Bool) : BitVec 128 :=
  let src : BitVec 128 := (0 : BitVec 64) ++ node.pkg ++ node.die ++ node.cl ++ (0 : BitVec 6) ++ (0 : BitVec 32)
  setBit (setBit ((h &&& ~~~(BitVec.ofNat 128 ((2 ^ 32 - 1) * 2 ^ 32))) ||| src) 92 result) 91 data

/-! ### Combining (Table 2.6) -/

/-- One pair of elements combined, and whether it saturated. -/
def combineElem (mode fmt : Nat) (x y : Nat) : Nat × Bool :=
  if mode = 0 then
    let r := eaAddInt (BitVec.ofNat 80 x) (rawTerm (BitVec.ofNat 80 y))
    (r.1.toNat, r.2)
  else if mode = 1 then ((x + y) % 2 ^ 64, false)
  else if fmt = 9 then
    ((if mode = 2 then fmax (BitVec.ofNat 32 x) (BitVec.ofNat 32 y) else fmin (BitVec.ofNat 32 x) (BitVec.ofNat 32 y)).toNat, false)
  else
    let less := (BitVec.ofNat 64 x).slt (BitVec.ofNat 64 y)
    (if (mode = 2) = (less = true) then y else x, false)

/-- The elements of two payloads combined, and whether any saturated. -/
def combineAll (mode fmt n : Nat) (a b : Bytes) : Bytes × Bool :=
  let w := elemBytes fmt
  let rs := (List.range n).map fun i => combineElem mode fmt (numAt a (i * w) w) (numAt b (i * w) w)
  (rs.flatMap fun r => leBytes w r.1, rs.any (·.2))

/-! ### The unit -/

/-- The node of a cluster as a name. -/
def State.node (s : State) (k : ClusterAt) : LCore := s.coxName k

/-- The entry of a cluster for a reduction. -/
def Cluster.redIndex (x : Cluster) (rid : Nat) : Option (Fin 16) :=
  (List.finRange 16).find? fun i => (x.redOf i.val).valid && decide ((x.redOf i.val).rid = rid)

def RedSt.slot (r : RedSt) (i : Fin 2) : RedSlot := if i = 0 then r.s0 else r.s1
def RedSt.putSlot (r : RedSt) (i : Fin 2) (t : RedSlot) : RedSt := if i = 0 then { r with s0 := t } else { r with s1 := t }

/-- Byte offset of buffer slot `i` (R223). -/
def RedSt.slotBase (r : RedSt) (i : Fin 2) : Nat := r.bufBase + 1344 * i.val

/-- Whether a source has entered a slot. -/
def RedSlot.has (t : RedSlot) (node src : LCore) : Bool :=
  if (src.pkg, src.die, src.cl) = (node.pkg, node.die, node.cl) then t.entered.getLsbD src.core.toNat
  else t.children.any fun c => decide ((c.2.pkg, c.2.die, c.2.cl) = (src.pkg, src.die, src.cl))

/-- The older of the slots that satisfy a condition. -/
def RedSt.oldest (r : RedSt) (f : RedSlot → Bool) : Option (Fin 2) :=
  match f r.s0, f r.s1 with
  | true, true => some (if r.s0.order ≤ r.s1.order then 0 else 1)
  | true, false => some 0
  | false, true => some 1
  | false, false => none

/-- The slot that an arriving packet of a source enters (R223). -/
def RedSt.slotFor (r : RedSt) (node src : LCore) : Option (Fin 2) :=
  match r.oldest fun t => decide (t.state = 1) && !t.has node src with
  | some i => some i
  | none => r.oldest fun t => decide (t.state = 0)

/-- A child of the list of Table 7.9. -/
def childEntry (c : BitVec 3 × LCore) : Nat :=
  c.1.toNat * 2 ^ 26 + c.2.pkg.toNat * 2 ^ 14 + c.2.die.toNat * 2 ^ 9 + c.2.cl.toNat

/-- The first 320 bytes of a buffer slot (Table 7.9). -/
def slotBytes (t : RedSlot) : Bytes :=
  leBytes 16 t.header.toNat ++ leBytes 8 t.entered.toNat ++ leBytes 1 t.children.length ++ leBytes 1 t.state.toNat ++ List.replicate 38 0 ++
    t.children.flatMap (fun c => leBytes 4 (childEntry c)) ++ List.replicate (256 - 4 * t.children.length) 0

/-- An access of the unit goes to the Reduce queue of BUF_CORE (R219). -/
def State.unitAccess (s : State) (k : ClusterAt) (r : RedSt) (ops : List FabricOp) (fin : FabricEnd) : State :=
  let c := coreIn k r.bufCore
  s.modCore c fun x => x.enqueue 0 { ops := ops, fin := fin, cycle := s.now c }

/-- The unit reads the partial elements of a slot. -/
def State.readSlot (s : State) (k : ClusterAt) (r : RedSt) (j : Fin 2) (fin : FabricEnd) : State :=
  s.unitAccess k r (readOps (r.slotBase j + 320) r.p) fin

/-- The unit waits for an access of its own: it takes no packet (R223). -/
def FabricJob.ofUnit (j : FabricJob) : Bool :=
  match j.fin with
  | .combine _ _ _ _ _ | .slot _ _ | .partial_ _ _ | .return_ _ _ => true
  | _ => false

def State.unitBusy (s : State) (k : ClusterAt) : Bool := (coresOf k).any fun c => (s.core c).fabricJobs.any FabricJob.ofUnit

/-- REDUCE_PROTO: the packet is discarded and the cluster halts (R223, R225, R227). -/
def State.reduceProto (s : State) (k : ClusterAt) : State := s.haltBy (coreIn k 36) fReduceProto

/-- Genhan notes where a chunk faulted (R223). -/
def State.noteRed (s : State) (k : ClusterAt) (h : BitVec 128) (code : BitVec 2) : State :=
  let n := s.node k
  let src := redSrc h
  let place : BitVec 64 := (0 : BitVec 10) ++ n.die ++ n.cl ++ BitVec.ofNat 8 (redRid h) ++ src.pkg ++ src.die ++ src.cl ++ src.core
  let c := BitVec.ofNat 16 (if code = 1 then fAnchorMismatch else fReduceMismatch)
  { s with genhan := { s.genhan with notes := s.genhan.notes ++ [(c, place)] } }

/-- The unit sends a packet from its port on the router of core 36. -/
def State.unitSend (s : State) (k : ClusterAt) (kind : Nat) (dst : LCore) (link : BitVec 3) (h : BitVec 128) (elems : Bytes) : State :=
  let c := coreIn k 36
  s.injectUnit k (toward (packet kind (s.lcore c) dst (h.setWidth 256) elems) s.pkg link)

/-! ### Records of local contributors (R224, R225) -/

/-- Reservations of an entry that stand in a ring. -/
def redReserved (e : RecvEp) (i : Fin 16) : Nat := (e.resv.filter fun r => decide (r.red = some i)).length

/-- A reservation for a record of an entry. -/
def Resv.isRed (v : Resv) (i : Fin 16) : Bool := decide (v.red = some i)

/-- A core has slots reserved for a record of an entry. -/
def Core.redRoom (x : Core) (r : RedSt) (i : Fin 16) : Bool := (x.recvEp r.replyEp).resv.any fun v => v.isRed i && v.open_

/-- A record of a chunk goes to the fabric side, on the Reduce queue, for a core's reserved slots (R72, R225). -/
def Core.redRecord (x : Core) (r : RedSt) (i : Fin 16) (h : BitVec 128) (elems : Bytes) (now : Nat) : Core :=
  let bytes := leBytes 16 h.toNat ++ (if redData h then elems else [])
  x.fillReserved 0 r.replyEp (·.isRed i) bytes (.reduced r.replyEp i (if redFault h then redCode h else 0) (redOvf h)) now

/-- The record of a chunk stands in its slots; each chunk recorded returns a credit of its entry (R224). -/
def Core.redRecorded (x : Core) (ep : Nat) (i : Fin 16) (fcode : BitVec 2) (ovf : Bool) : Core :=
  let y := x.filled ep (·.isRed i) 0 fcode ovf
  { y with redSpent := (List.finRange 16).foldl (fun m j =>
      SMap.set 0 m j.val (SMap.get 0 m j.val - (redReserved (x.recvEp ep) j - redReserved (y.recvEp ep) j))) y.redSpent }

/-- The local contributors that get a tree record: not the TARGET core of a reduction to one target that is not faulted. -/
def State.treeCores (s : State) (k : ClusterAt) (r : RedSt) (h : BitVec 128) : List (Fin 64) :=
  let n := s.node k
  (List.finRange 64).filter fun c => r.mask.getLsbD c.val &&
    !(!r.ret && !redFault h && decide (r.target = { n with core := BitVec.ofNat 6 c.val }))

/-- A return reaches the local contributors and the children, and the slot is freed (R225). A node at which some contributor has reserved
nothing discards it. -/
def State.returnChunk (s : State) (k : ClusterAt) (i : Fin 16) (j : Fin 2) (h : BitVec 128) (elems : Bytes) : State :=
  let r := (s.cluster k).redOf i.val
  let cores := s.treeCores k r h
  if !cores.all (fun c => (s.core (coreIn k c)).redRoom r i) then s.reduceProto k
  else
    let h := nodeHeader h (s.node k) true (redData h)
    let s := cores.foldl (fun s c => s.modCore (coreIn k c) fun x => x.redRecord r i h elems (s.now (coreIn k c))) s
    let kids := (r.slot j).children
    let s := kids.foldl (fun s c => s.unitSend k 7 { c.2 with core := unitCore } c.1 h (if redData h then elems else [])) s
    (s.modCluster k fun x => x.putRed i.val ((x.redOf i.val).putSlot j {})).unitAccess k r (writeOps (r.slotBase j + 25) [0]) .done

/-- The root of a digest reduction copies each result to Genhan (R357), with the step index of its cluster. -/
def State.copyDigest (s : State) (k : ClusterAt) (r : RedSt) (h : BitVec 128) (elems : Bytes) : State :=
  if r.digest then
    let c := coreIn k 36
    let body : BitVec 256 := (0 : BitVec 80) ++ (s.cluster k).step ++ h
    s.injectUnit k (toComp (packet 0xC (s.lcore c) (s.lcore c) body elems) 4 0)
  else s

/-- The root starts the return of a complete slot, with its elements unless it is faulted (R225). -/
def State.startReturn (s : State) (k : ClusterAt) (i : Fin 16) (j : Fin 2) (elems : Bytes) : State :=
  let r := (s.cluster k).redOf i.val
  let t := r.slot j
  let good := !redFault t.header
  let h := nodeHeader t.header (s.node k) true (good && r.ret)
  let s := if good then s.copyDigest k r h elems else s
  let s := if good && !r.ret then s.unitSend k 7 r.target r.parentLink (setBit h 91 true) elems else s
  s.returnChunk k i j h elems

/-- A complete slot below the root: its elements are read for the parent against a parent credit, or it waits for one (R223, R224). -/
def State.sendPartial (s : State) (k : ClusterAt) (i : Fin 16) (j : Fin 2) : State :=
  let r := (s.cluster k).redOf i.val
  let t := r.slot j
  if 2 ≤ r.parentSpent then s.modCluster k fun x => x.putRed i.val (r.putSlot j { t with waiting := true })
  else (s.modCluster k fun x => x.putRed i.val { r.putSlot j { t with waiting := false } with parentSpent := r.parentSpent + 1 }).readSlot k r j (.partial_ i j)

/-- The partial of a slot goes to the parent (R223, R227). -/
def State.partialRead (s : State) (k : ClusterAt) (i : Fin 16) (j : Fin 2) (elems : Bytes) : State :=
  let r := (s.cluster k).redOf i.val
  s.unitSend k 6 { r.parent with core := unitCore } r.parentLink (nodeHeader (r.slot j).header (s.node k) false false) elems

/-- Whether a packet agrees with its entry in MODE, FMT and ELEMS. -/
def redAgrees (r : RedSt) (h : BitVec 128) : Bool := decide (redMode h = r.mode) && decide (redFmt h = r.fmt) && decide (redElems h = r.elems)

/-- The header and elements of a slot after a packet (R223), and the fault it met there. -/
def RedSt.combine (r : RedSt) (t : RedSlot) (old : Bytes) (h : BitVec 128) (elems : Bytes) : BitVec 128 × Bytes × Option (BitVec 2) :=
  let wrong : Option (BitVec 2) := if redFault h then some (redCode h) else if !redAgrees r h then some 2 else none
  if t.state = 0 then
    match wrong with
    | some c => (markFault h c, elems, some c)
    | none => (h, elems, none)
  else if redFault t.header then (t.header, old, none)
  else match wrong with
    | some c => (markFault t.header c, old, some c)
    | none =>
      if r.mode = 0 ∧ redAnchor h ≠ redAnchor t.header then (markFault t.header 1, old, some 1)
      else
        let v := combineAll r.mode r.fmt r.elems old elems
        (setBit t.header 93 (redOvf t.header || redOvf h || v.2), v.1, none)

/-- A packet enters slot `j` with the elements that stood there (R223): the slot goes to the buffer area. A child of this package has no link die
(Table 7.9). -/
def State.combined (s : State) (k : ClusterAt) (i : Fin 16) (j : Fin 2) (h : BitVec 128) (link : BitVec 3) (elems old : Bytes) : State :=
  let r := (s.cluster k).redOf i.val
  let n := s.node k
  let src := redSrc h
  let isLocal := (src.pkg, src.die, src.cl) = (n.pkg, n.die, n.cl)
  let t := if (r.slot j).state = 0 then ({ order := r.opened } : RedSlot) else r.slot j
  let v := r.combine t old h elems
  let s := match v.2.2 with
    | some c => s.noteRed k h c
    | none => s
  let entered := if isLocal then t.entered ||| BitVec.ofNat 64 (2 ^ src.core.toNat) else t.entered
  let kids := if isLocal then t.children else t.children ++ [(if src.pkg = n.pkg then 0 else link, { src with core := 0 })]
  let full := decide (entered.cpop.toNat + kids.length = r.mask.cpop.toNat + r.children)
  let t' : RedSlot := { t with state := if full then 2 else 1, header := v.1, entered := entered, children := kids }
  let s := s.modCluster k fun x =>
    let e := (x.redOf i.val).putSlot j t'
    x.putRed i.val { e with opened := if t.state = 0 then e.opened + 1 else e.opened }
  s.unitAccess k r (writeOps (r.slotBase j) (slotBytes t' ++ v.2.1)) (.slot i j)

/-- A contribution or partial arrives at a node (R223): the elements of a slot that it joins are read first. -/
def State.nodeArrive (s : State) (k : ClusterAt) (i : Fin 16) (h : BitVec 128) (link : BitVec 3) (elems : Bytes) : State :=
  let r := (s.cluster k).redOf i.val
  let n := s.node k
  let src := redSrc h
  let isLocal := (src.pkg, src.die, src.cl) = (n.pkg, n.die, n.cl)
  match r.slotFor n src with
  | none => s.reduceProto k
  | some j =>
    if (decide isLocal && !r.mask.getLsbD src.core.toNat) || (!decide isLocal && decide ((r.slot j).children.length = r.children)) then s.reduceProto k
    else if (r.slot j).state ≠ 0 ∧ redFault (r.slot j).header = false then s.readSlot k r j (.combine i j h link elems)
    else s.combined k i j h link elems []

/-- A slot stands in the buffer area: a complete one goes up, or back from the root (R223, R225). -/
def State.redSlotWritten (s : State) (k : ClusterAt) (i : Fin 16) (j : Fin 2) : State :=
  let r := (s.cluster k).redOf i.val
  if (r.slot j).state ≠ 2 then s
  else
    let s := s.count 8 (coxUnit k) 0 3
    if !r.root then s.sendPartial k i j
    else if redFault (r.slot j).header then s.startReturn k i j []
    else s.readSlot k r j (.return_ i j)

/-- A reduction packet that finds its path lost: discarded, and the job stops (R227, R373). -/
def State.reducePathLost (s : State) (h : BitVec 128) : State := s.jobFault fReducePathLost (h.extractLsb' 64 64)

/-- A reduction packet that reaches a part in QUIESCE or switched off (R373). -/
def State.redOffline (s : State) (h : BitVec 128) : State := if (redSrc h).pkg = s.pkg then s else s.reducePathLost h

/-- The unit of a cluster takes no packet: it is drained (R219), or still has one in hand (R223). -/
def State.unitStopped (s : State) (k : ClusterAt) : Bool := !s.offline k && ((s.cluster k).drained || s.unitBusy k)

/-- A reduction packet of a kind for a cluster's unit. -/
def State.isRed (s : State) (k : ClusterAt) (kind : Nat) (h : BitVec 128) (elems : Bytes) : Packet → Bool :=
  s.isFor (coreIn k 36) kind (h.setWidth 256) elems

def execReductionContribution (k : ClusterAt) (hdr : BitVec 128) (link : BitVec 3) (elems : Bytes) (s : State) :
    Host.Outcome State Fault Refusal :=
  if s.unitStopped k then .next s
  else .next (s.onArrival (s.isRed k 6 hdr elems) 36 fun s =>
    if s.offline k then s.redOffline hdr
    else match (s.cluster k).redIndex (redRid hdr) with
      | none => s.reduceProto k
      | some i => s.nodeArrive k i hdr link elems)

/-- A return applies to the oldest returning slot, and frees a parent credit (R224, R225). -/
def State.returnArrives (s : State) (k : ClusterAt) (i : Fin 16) (h : BitVec 128) (elems : Bytes) : State :=
  let r := (s.cluster k).redOf i.val
  match r.oldest fun t => decide (t.state = 2) && !t.waiting with
  | none => s.reduceProto k
  | some j =>
    let s := s.modCluster k fun x => let e := x.redOf i.val; x.putRed i.val { e with parentSpent := e.parentSpent - 1 }
    let s := s.returnChunk k i j h elems
    match ((s.cluster k).redOf i.val).oldest fun t => t.waiting with
    | some w => s.sendPartial k i w
    | none => s

def execReductionReturn (k : ClusterAt) (hdr : BitVec 128) (elems : Bytes) (s : State) : Host.Outcome State Fault Refusal :=
  if s.unitStopped k then .next s
  else .next (s.onArrival (s.isRed k 7 hdr elems) 36 fun s =>
    if s.offline k then s.redOffline hdr
    else match (s.cluster k).redIndex (redRid hdr) with
      | none => s.reduceProto k
      | some i => s.returnArrives k i hdr elems)

/-- The root's direct packet is recorded at the TARGET core (R225). -/
def execReductionResult (c : CoreAt) (hdr : BitVec 128) (elems : Bytes) (s : State) : Host.Outcome State Fault Refusal :=
  let k := clusterOf c
  .next (s.onQueue c 0 (s.isFor c 7 (hdr.setWidth 256) elems) c.core.val fun s =>
    if s.offline k then s.redOffline hdr
    else match (s.cluster k).redIndex (redRid hdr) with
      | none => s.reduceProto k
      | some i =>
        let r := (s.cluster k).redOf i.val
        if (s.core c).redRoom r i then s.modCore c fun x => x.redRecord r i hdr elems (s.now c) else s.reduceProto k)

end Sys2Proof.Machine
end

