-- ==== Sys2Proof/Machine/Fabric.lean ====
section
/-! DEFINITION. The fabric side of a scratchpad (R67, R70, R72 to R76, R94 to R96, R241, R242, R246, R250): one bank operation of the access at the
head of a queue, and what follows the last. -/

namespace Sys2Proof.Machine

/-- An access meets an uncorrectable error: the cluster halts, nothing of this bank operation happens, and a request is answered with
DATA_ERROR (R74, R75). -/
def State.fabricBad (s : State) (c : CoreAt) (j : FabricJob) : State :=
  let s := s.haltBy c fSpadUe
  match j.fin with
  | .written a => s.ackWrite c a 3 j.txn
  | .replied a => s.replyTo c a 3 0 [] j.txn
  | _ => s

/-- The reply to a performed read or atomic (R241): the bytes read, or the prior value. -/
def State.sendReply (s : State) (c : CoreAt) (a : BitVec 256) (got : Bytes) (txn : Option Nat) : State :=
  if accOp a = 2 then s.replyTo c a 0 (BitVec.ofNat 32 (leNat got)) [] txn else s.replyTo c a 0 0 got txn

/-- What follows the last bank operation of an access. -/
def State.fabricEnd (s : State) (c : CoreAt) (j : FabricJob) : State :=
  match j.fin with
  | .send ps seg rel =>
    let s := (sendPackets ps seg j.got).foldl (fun s p => s.inject c p) s
    match rel with
    | some ep => s.releaseRecs c ep.val 1
    | none => s
  | .recorded ep ack => s.recorded c ep ack
  | .written a => s.ackWrite c a 0 j.txn
  | .replied a => s.sendReply c a j.got j.txn
  | .reply ep serial status => s.replied c ep serial status
  | .reduced ep i fcode ovf =>
    let slots := (((s.core c).recvEp ep).resv.find? fun v => v.isRed i && v.filling).elim 0 (·.slots)
    (s.modCore c fun x => x.redRecorded ep i fcode ovf).countRecord c (16 + ep) slots
  | .header => s.modCore c fun x => { x with hdrRead := some j.got }
  | .token => s.modCore c fun x => { x with steer := { x.steer with toks := x.steer.toks ++ [BitVec.ofNat 32 (leNat j.got)] } }
  | .combine i n h link elems => s.combined (clusterOf c) i n h link elems j.got
  | .slot i n => s.redSlotWritten (clusterOf c) i n
  | .partial_ i n => s.partialRead (clusterOf c) i n j.got
  | .return_ i n => s.startReturn (clusterOf c) i n j.got
  | .done => s

/-- The fabric side has used a bank in the present cycle; a remote atomic keeps it in the next (R70, R72, R94). -/
def Core.usedBank (x : Core) (o : FabricOp) : Core :=
  { x with
    fabUsed := true
    fabBanks := x.fabBanks ||| BitVec.ofNat 8 (2 ^ bankOf o.addr)
    fabNext := (match o with
      | .atomic _ _ _ _ => some (bankOf o.addr)
      | _ => x.fabNext) }

/-- The bank cycles of an operation (R94). -/
def FabricOp.cycles (o : FabricOp) : Nat :=
  match o with
  | .atomic _ _ _ _ => 2
  | _ => 1

/-- What the last bank operation of an access leads to: a segment waits three cycles more for its code (R95, Table 3.6). -/
def State.fabricDone (s : State) (c : CoreAt) (j : FabricJob) : State :=
  match j.fin with
  | .send _ (some _) _ => s.modCore c fun x => { x with generating := x.generating ++ [(3, j)] }
  | _ => s.fabricEnd c j

/-- The access `j` at the head of queue `q` makes its next bank operation, or ends if none is left. -/
def State.fabricStep (s : State) (c : CoreAt) (q : Nat) (j : FabricJob) : State :=
  let x := s.core c
  let running := decide ((s.cluster (clusterOf c)).run = .running)
  match j.ops with
  | [] => (s.putCore c (x.popHead q)).fabricDone c j
  | o :: rest =>
    if x.opBad o then (s.putCore c (x.popHead q)).fabricBad c j
    else
      let n := x.opSoft o
      let p := x.performOp j o
      let y := p.1.generate p.2
      let y := if running then y.usedBank o else y
      let k := { p.2 with ops := rest }
      let s := s.countSoft c n
      let s := s.count 1 (coreUnit c) 0 1 o.cycles
      if rest.isEmpty then (s.putCore c (y.popHead q)).fabricDone c k else s.putCore c (y.setHead q k)

/-- The fabric side of a core works: not drained, not in QUIESCE or off, not in diagnostic fabric mode (R76, R101). -/
def State.fabricWorks (s : State) (c : CoreAt) : Bool :=
  let k := s.cluster (clusterOf c)
  !k.drained && !k.diag && !s.offline (clusterOf c)

/-- The Draoc code of the oldest segment that waits for its own is ready: the segment leaves (R95). -/
def State.codeReady (s : State) (c : CoreAt) (j : FabricJob) : State :=
  (s.modCore c fun x => { x with generating := x.generating.drop 1 }).fabricEnd c j

/-- The fabric side's access of a cycle (R72): the oldest queue head whose bank is free makes one bank operation. A segment whose code is ready leaves
before that. In a cluster that does not run each access is a cycle of its own. -/
def State.fabricCycle (s : State) (c : CoreAt) : State :=
  let running := decide ((s.cluster (clusterOf c)).run = .running)
  let x := if running then s.core c else (s.core c).genTick
  match x.generating with
  | (0, j) :: _ => (s.putCore c x).codeReady c j
  | _ =>
    if x.fabUsed && running then s
    else match s.fabricPick c with
      | none => s.putCore c x
      | some h => (s.putCore c x).fabricStep c h.1 h.2

def execFabricAccess (c : CoreAt) (s : State) : Host.Outcome State Fault Refusal :=
  .next (if s.fabricWorks c then s.fabricCycle c else s)

end Sys2Proof.Machine
end

