-- ==== Sys2Proof/Machine/Deep.lean ====
section
/-! DEFINITION. Deep memory (R257 to R277): the address map, the areas, streams at their home moon die, reads and writes of segments and
the scrub. -/

namespace Sys2Proof.Machine

/-! ### Grade, address map, areas -/

/-- Enabled stacks. -/
def State.stacks (s : State) : Nat := s.stackMask.cpop.toNat
/-- The exposed capacity C: 36 GB for each stack. -/
def State.capacity (s : State) : Nat := if s.boot.deepUnavailable then 0 else 36000000000 * s.stacks
/-- The record of one cluster, and the size D of a drain area (R261, R263). -/
def drainSize : Nat := 10276992
def State.areaSize (s : State) : Nat := 24 * s.mappedPerDie * drainSize
/-- The base of drain area `a` (Table 9.2). -/
def State.areaBase (s : State) (a : Nat) : Nat := s.capacity - (2 - a) * s.areaSize

/-- The moon die, the stack and the byte in the stack of an offset (R258). The map is a bijection, so the model keeps deep memory by offset. -/
def State.locate (s : State) (o : Nat) : Nat × Nat × Nat :=
  let g := o / 2048
  let q := g / 2
  let m := q % 4
  if s.stacks = 16 then (m, 4 * m + 2 * (q / 4 % 2) + g % 2, q / 8 * 2048 + o % 2048) else (m, 4 * m + g % 2, q / 4 * 2048 + o % 2048)

def moonOf (o : Nat) : Nat := o / 4096 % 4
def State.stackOf (s : State) (o : Nat) : Nat := (s.locate o).2.1

/-! ### Drain records as bytes (R130, R263) -/

/-- An item of Table 3.8 in a drain record: its size in bytes, its value, and the core with another. -/
structure Scan where
  size : Nat
  get : Core → Nat
  set : Core → Nat → Core

/-- `n` registers of one kind, each in `size` bytes. -/
def scanFile {w : Nat} (n size : Nat) (f : Core → SMap (BitVec w)) (g : Core → SMap (BitVec w) → Core) : List Scan :=
  (List.range n).map fun i => ⟨size, fun x => (SMap.get 0 (f x) i).toNat, fun x v => g x (SMap.set 0 (f x) i (BitVec.ofNat w v))⟩

/-- One register. -/
def scanReg {w : Nat} (size : Nat) (f : Core → BitVec w) (g : Core → BitVec w → Core) : Scan :=
  ⟨size, fun x => (f x).toNat, fun x v => g x (BitVec.ofNat w v)⟩

/-- The items of Table 3.8 behind the schedule position, in table order, as far as the table gives their sizes. -/
def scanList : List Scan :=
  ((List.range 16).map fun i => ⟨12, fun x => (SMap.get {} x.ea i).packed, fun x v => { x with ea := SMap.set {} x.ea i (EA.unpack v) }⟩) ++
  [⟨1, fun x => x.teK.toNat + (if x.teMx then 32 else 0), fun x v => { x with teK := BitVec.ofNat 5 v, teMx := v.testBit 5 }⟩,
   scanReg 64 (·.latchA) fun x v => { x with latchA := v }, scanReg 64 (·.latchB) fun x v => { x with latchB := v },
   scanReg 16 (·.metadata) fun x v => { x with metadata := v }, scanReg 4 (·.scaleA) fun x v => { x with scaleA := v },
   scanReg 4 (·.scaleB) fun x v => { x with scaleB := v }, scanReg 160 (·.eaIn) fun x v => { x with eaIn := v },
   scanReg 160 (·.teOut) fun x v => { x with teOut := v }] ++
  scanFile 16 4 (·.ax) (fun x m => { x with ax := m }) ++
  [scanReg 4 (·.numStatus) fun x v => { x with numStatus := v }, scanReg 4 (·.numCtrl) fun x v => { x with numCtrl := v }] ++
  scanFile 32 64 (·.v) (fun x m => { x with v := m }) ++ scanFile 16 4 (·.k) (fun x m => { x with k := m }) ++
  scanFile 4 2 (·.m) (fun x m => { x with m := m }) ++
  ((List.range 16).map fun i => ⟨12, fun x => (SMap.get {} x.lane i).ea.packed + (if (SMap.get {} x.lane i).anchored then 2 ^ 91 else 0),
    fun x v => { x with lane := SMap.set {} x.lane i ⟨EA.unpack v, v.testBit 91⟩ }⟩) ++
  scanFile 32 8 (·.veCfg) (fun x m => { x with veCfg := m }) ++
  ((List.range 16).flatMap fun d =>
    ⟨32, fun x => (SMap.get 0 x.agd d).toNat, fun x v => { x with agd := SMap.set 0 x.agd d (BitVec.ofNat 256 v) }⟩ ::
    ((List.range 6).map fun n => ⟨2, fun x => (SMap.get 0 x.agi (6 * d + n)).toNat, fun x v => { x with agi := SMap.set 0 x.agi (6 * d + n) (BitVec.ofNat 16 v) }⟩) ++
    [⟨4, fun x => if x.wrapped.getLsbD d then 1 else 0, fun x v => { x with wrapped :=
      (x.wrapped &&& ~~~(BitVec.ofNat 16 (2 ^ d))) ||| (if v.testBit 0 then BitVec.ofNat 16 (2 ^ d) else 0) }⟩]) ++
  [scanReg 8 (·.draocGen) fun x v => { x with draocGen := v }, scanReg 8 (·.draocChk) fun x v => { x with draocChk := v }] ++
  scanFile 16 32 (·.ptOut) (fun x m => { x with ptOut := m })

/-- Where the items of `scanList` begin in the remaining state: behind the 64 B of the schedule position. -/
def scanBase : Nat := 64

/-- The bytes of those items. -/
def Core.scanned (x : Core) : Bytes := scanList.flatMap fun f => leBytes f.size (f.get x)

/-- A core with those items taken from bytes. -/
def Core.unscan (x : Core) (b : Bytes) : Core :=
  (scanList.foldl (fun (p : Core × Bytes) f => (f.set p.1 (leNat (p.2.take f.size)), p.2.drop f.size)) (x, b)).1

/-- Byte `i` of the record's part that the spec does not lay out (log entry 24). -/
def Snapshot.openByte (x : Snapshot) (i : Nat) : Byte := BitVec.ofNat 8 (bitsOf (Config.freeValue (x.free + i / 32)).toNat (8 * (i % 32) + 7) (8 * (i % 32)))

/-- Byte `p` of the drain record of a cluster (Table 4.13). -/
def Snapshot.byte (x : Snapshot) (p : Nat) : Byte :=
  if p < 0x1000 then x.openByte p
  else
    let c := (p - 0x1000) / 0x26000
    let r := (p - 0x1000) % 0x26000
    let y := SMap.get {} x.cores c
    if r < 0x20000 then SMap.get 0 y.spad r
    else if r < 0x24000 then BitVec.ofNat 8 (bitsOf (SMap.get 0 y.store ((r - 0x20000) / 16)).toNat (8 * (r % 16) + 7) (8 * (r % 16)))
    else match (if r < 0x24000 + scanBase then none else y.scanned[r - 0x24000 - scanBase]?) with
      | some b => b
      | none => x.openByte (0x1000 + 0x2000 * c + (r - 0x24000))

/-- Header of container segment `n` of a record (R263), its code not formed. -/
def containerHeader (tensor row col step n : Nat) : Bytes :=
  packHeader (leBytes 4 0 ++ leBytes 2 0 ++ leBytes 4 tensor ++ leBytes 2 row ++ leBytes 2 col ++ leBytes 2 step ++ leBytes 16 1 ++ leBytes 32 (2 ^ 256 - 1))
    ⟨1, 16, 1, 16, false, 0⟩ (n % 2)

/-- Container segment `n` of the record of cluster `j` in area `a`. -/
def Snapshot.segment (x : Snapshot) (a j n : Nat) : Bytes :=
  packSegment (containerHeader (0xFFFFFF00 + a) j (n / 2) x.cluster.step.toNat n) ((List.range 2048).map fun i => x.byte (2048 * n + i))

/-- The snapshot of cluster index `j` in area `a`. -/
def State.record (s : State) (a j : Nat) : Option Snapshot :=
  (if a = 0 then s.ckpt.area0 else s.ckpt.area1).find? fun x => decide (x.die.val * s.mappedPerDie + x.logical.toNat = j)

/-- The 64 B word `i` of deep memory: a drain record's, unless the host rewrote it. -/
def State.deepWord (s : State) (i : Nat) : Bytes :=
  let o := 64 * i
  if o < s.areaBase 0 ∨ s.ckpt.rewritten.contains i then s.deepRead o 64
  else
    let a := if o < s.areaBase 1 then 0 else 1
    let r := o - s.areaBase a
    match s.record a (r / drainSize) with
    | none => s.deepRead o 64
    | some x => bytesAt (x.segment a (r / drainSize) (r % drainSize / 2112)) (r % drainSize % 2112) 64

/-- `n` bytes of deep memory. -/
def State.deepBytes (s : State) (o n : Nat) : Bytes :=
  if o + n ≤ s.areaBase 0 then s.deepRead o n
  else bytesAt ((List.range (n / 64 + 2)).flatMap fun i => s.deepWord (o / 64 + i)) (o % 64) n

/-- Adds to a counter of a stack (Table 15.6, group 7). -/
def State.countStack (s : State) (stack n : Nat) (by_ : Nat := 1) : State := s.count 7 (unitNum 4 (stack / 4) 0 0) stack n by_

/-- Adds the bytes of an extent to counter `n` of the stacks that hold them. -/
def State.countBytes (s : State) (n o len : Nat) : State :=
  (List.range ((o + len + 2047) / 2048 - o / 2048)).foldl (fun s i =>
    let lo := max o ((o / 2048 + i) * 2048)
    s.countStack (s.stackOf lo) n (min (o + len) ((o / 2048 + i + 1) * 2048) - lo)) s

/-- Writes deep memory; words of a drain area are noted as rewritten. -/
def State.deepPut (s : State) (o : Nat) (b : Bytes) : State :=
  let s := s.countBytes 2 o b.length
  if o + b.length ≤ s.areaBase 0 then s.deepWrite o b
  else
    let lo := o / 64 * 64
    let hi := (o + b.length + 63) / 64 * 64
    let full := s.deepBytes lo (o - lo) ++ b ++ s.deepBytes (o + b.length) (hi - (o + b.length))
    let ws := (List.range ((hi - lo) / 64)).map (lo / 64 + ·)
    let s := s.deepWrite lo full
    { s with ckpt := { s.ckpt with rewritten := s.ckpt.rewritten ++ ws.filter fun w => !s.ckpt.rewritten.contains w } }

/-! ### Errors in the stacks (R275) -/

/-- A word of an extent holds an uncorrectable error: its number. -/
def State.deepBad (s : State) (o n : Nat) : Option Nat :=
  (s.deepErr.find? fun p => decide (p.2 = some true) && decide (o / 64 ≤ p.1) && decide (p.1 < (o + n + 63) / 64)).map (·.1)

/-- The counter of corrected errors of a stack (Table 15.6). -/
def State.countDeepCe (s : State) (stack : Nat) : State := s.countStack stack 4

/-- The corrected words of an extent are written back and counted. -/
def State.deepSoft (s : State) (o n : Nat) : State :=
  let hit (p : Nat × Option Bool) : Bool := decide (p.2 = some false) && decide (o / 64 ≤ p.1) && decide (p.1 < (o + n + 63) / 64)
  let ws := s.deepErr.filter hit
  ws.foldl (fun s w => s.countDeepCe (s.stackOf (64 * w.1))) { s with deepErr := s.deepErr.filter fun p => !hit p }

/-- The event DEEP_UE. -/
def State.deepUe (s : State) (o : Nat) : State := s.raiseEvent 0x0008 none (leBytes 8 (s.stackOf o) ++ leBytes 6 o)

/-- The event CHECK_FAIL: 1 moon die, 2 link die, 3 host die; the unit; the offset. -/
def State.checkEvent (s : State) (checker unit o : Nat) : State := s.raiseEvent 0x0009 none ([BitVec.ofNat 8 checker, BitVec.ofNat 8 unit] ++ List.replicate 6 0 ++ leBytes 6 o)

/-! ### Halts by a moon die (R276) -/

/-- Detail of a fault of a stream: offset in 64 B units, index, stream, moon die (the packing is log entry 25's). -/
def streamDetail (m n i o : Nat) : BitVec 64 :=
  (0 : BitVec 5) ++ BitVec.ofNat 2 m ++ BitVec.ofNat 15 n ++ BitVec.ofNat 8 i ++ BitVec.ofNat 34 (o / 64)

/-- The class of a fault that a moon die raises: an error in deep memory is hardware. -/
def moonClass (code : Nat) : BitVec 2 := if code = fDataError then 2 else faultClass code

/-- The cluster that produced the segment at an offset: the owner of the write stream whose tiles cover it (Table 13.1). -/
def State.producerOf (s : State) (o : Nat) : Option ClusterAt :=
  (s.streams.find? fun q => q.2.valid && q.2.isWrite && (List.range q.2.tiles).any fun i =>
    decide (q.2.tileAt i ≤ o) && decide (o < q.2.tileAt i + q.2.stride)).bind fun q => s.clusterNamed (q.2.owner s.pkg)

/-- A moon die faults a stream: the owner's cluster halts, and the stream's other demands complete without data. -/
def State.streamFault (s : State) (m n i o code : Nat) : State :=
  let t := s.stream m n
  let left := (t.owed.filter (·.last)).length
  let s := s.putStream m n { t with faulted := true, owed := [] }
  let s := if left = 0 then s else s.streamCredit m t left
  match s.coreAt (t.owner s.pkg) with
  | none => s
  | some c => s.haltOn (clusterOf c) [{
      core := c.core, slot := (s.core c).slot, code := code, detail := streamDetail m n i o, cls := moonClass code
      suspect := if code = fCheckFail then s.producerOf o else none
      offset := if code = fCheckFail ∨ code = fDataError then some (BitVec.ofNat 48 o) else none }]

/-! ### Header fields (Table 9.4) -/

def dhSpec (h : BitVec 128) : Bool := h.getLsbD 123
def dhClaim (h : BitVec 128) : Bool := h.getLsbD 122
def dhStream (h : BitVec 128) : Nat := bitsOf h.toNat 121 107
def dhIndex (h : BitVec 128) : Nat := bitsOf h.toNat 106 99
def dhOffset (h : BitVec 128) : Nat := bitsOf h.toNat 95 48
def dhLength (h : BitVec 128) : Nat := bitsOf h.toNat 47 35
def dhStep (h : BitVec 128) : BitVec 16 := h.extractLsb' 19 16

/-! ### Demands (R267, R270) -/

/-- A moon die takes no request: it is off, or in QUIESCE (R373). -/
def State.moonOff (s : State) (m : Nat) : Bool :=
  let d : Domain := SMap.get {} s.domains (56 + m)
  !d.powered || d.quiesced

/-- A moon die is lost or switched off. -/
def State.moonGone (s : State) (m : Nat) : Bool := !(SMap.get {} s.domains (56 + m) : Domain).powered

/-- A property of some moon die that holds a part of an extent (R258, R260). -/
def anyPart (f : Nat → Bool) (o n : Nat) : Bool := (List.range ((o + n + 4095) / 4096 - o / 4096)).any fun i => f ((o / 4096 + i) % 4)

/-- The step that a demand expects in its segments, when the stream checks it (R274). -/
def Stream.stepOk (t : Stream) (step : BitVec 16) (seg : Bytes) : Bool :=
  decide (t.f 251 250 ≠ 1) || decide (BitVec.ofNat 16 (segStep seg) = step - BitVec.ofNat 16 (t.f 249 248))

/-- Delivery header of a demand's segments. -/
def deliverHeader (h : BitVec 128) : BitVec 128 := deepHeader 7 (dhSpec h) false (dhStream h) (dhIndex h) 0 0 0

/-- Entries owed for the segments of a demand; the last ends it. -/
def owedOf (h : BitVec 128) (segs : List Bytes) : List Owed :=
  segs.zipIdx.map fun p => { hdr := deliverHeader h, seg := some p.1, slots := 1, last := decide (p.2 + 1 = segs.length) }

/-- A demand has read its tile. -/
def State.demandServed (s : State) (t : Stream) (tile : Nat) (segs : List Bytes) : State :=
  (s.countStack (s.stackOf (t.tileAt tile)) 0).countBytes 1 (t.tileAt tile) (segs.map fun b => pad64 b.length).sum

/-- A buffered tile that a speculative segment or failure belongs to: by the transaction that it carries, or else by stream and index
(R253, R270, log entry 99). -/
def RunTile.fits (b : RunTile) (stream index : Nat) (txn : Option Nat) : Bool :=
  decide (b.stream = stream) && decide (b.index = index) && (match txn with
    | some n => decide (b.txn = n)
    | none => true)

/-- A moon die sends to a companion: the model puts the packet at the edge core that its own column and row give. -/
def State.moonToComp (s : State) (m exit comp : Nat) (p : Packet) : State :=
  s.injectComp 1 m (0, 0) (toComp p exit comp)

def State.home (s : State) (m : Nat) : Option HomeOp := SMap.get none s.homes m
def State.setHome (s : State) (m : Nat) (x : Option HomeOp) : State := { s with homes := SMap.set none s.homes m x }

/-- No access to a segment is under way. -/
def State.homesFree (s : State) : Bool := s.homes.all (fun h => h.2.isNone) && s.homeWait.isEmpty

/-- The offset of the segment in progress: its home is the moon die that holds its first byte (R260). -/
def HomeOp.off (x : HomeOp) : Nat :=
  match x with
  | .read _ _ _ _ _ o _ _ _ => o
  | .write _ _ _ o _ _ => o
  | .get o _ _ _ => o
  | .put o _ _ _ => o

/-- The moon die whose stream an access is of. -/
def HomeOp.die (x : HomeOp) : Option Nat :=
  match x with
  | .read m _ _ _ _ _ _ _ _ => some m
  | .write m _ _ _ _ _ => some m
  | .get _ _ _ _ => none
  | .put _ _ _ _ => none

/-- Bytes that the first of some segments occupies. -/
def firstSize (l : List (Nat × Bytes × Bool)) : Nat :=
  match l with
  | x :: _ => pad64 x.2.1.length
  | [] => 0

/-- The offset up to which an access has come. -/
def HomeOp.upTo (x : HomeOp) : Nat :=
  match x with
  | .read _ _ _ _ _ o _ got _ => o + got.length
  | .write _ _ _ o todo rest => o + (firstSize todo - rest.length)
  | .get o _ _ got => o + got.length
  | .put o n _ rest => o + (n - rest.length)

/-- An access waits until its segment's home is free. -/
def State.homeLater (s : State) (x : HomeOp) : State := { s with homeWait := s.homeWait ++ [x] }

/-- A stream of a moon die is being read or written: its next demand or segment waits, so that demands and tiles keep their order (R269). -/
def State.serving (s : State) (m : Nat) : Bool :=
  s.homes.any (fun h => h.2.any fun x => decide (x.die = some m)) || s.homeWait.any fun x => decide (x.die = some m)

/-- A home asks another moon die for a part of a segment, or sends it one (R260): PART_READ or PART_WRITE. -/
def State.askPart (s : State) (m op o n : Nat) (data : Bytes := []) : State :=
  s.moonToComp m 1 (moonOf o) (packet 0xA (s.moonName m) s.companion ((deepHeader op false false 0 0 o n 0).setWidth 256) data)

/-- The home of an access's segment waits for a part of it, `n` bytes at `o`: to be read (`op` 3) or written (4). -/
def State.awaitPart (s : State) (x : HomeOp) (op o n : Nat) (data : Bytes := []) : State :=
  (s.setHome (moonOf x.off) (some x)).askPart (moonOf x.off) op o n data

/-- The bytes of an extent up to the end of the region that its first byte lies in. -/
def regionCut (o n : Nat) : Nat := min n (4096 - o % 4096)

/-- A read of an extent at a moon die: its bytes, or the word in error (R275). -/
def State.moonRead (s : State) (o n : Nat) : State × (Bytes ⊕ Nat) :=
  let s := s.deepSoft o n
  match s.deepBad o n with
  | some w => (s.deepUe (64 * w), .inr w)
  | none => (s, .inl (s.deepBytes o n))

/-! ### The host interface die's side of a DMA (R264, R272, R316, R320) -/

/-- Bytes that the segment with a header occupies (R262). -/
def segSpace (header : Bytes) : Nat := 64 + pad64 (segPlen header)

/-- What stops a DMA at the segment of its run that the bytes begin with: its status, and whether the host die's check failed. -/
def dmaBad (d : Desc) (b : Bytes) : Option (Nat × Bool) :=
  if 4016 < segPlen b then some (8, true)
  else if d.q3.toNat < d.bytes + segSpace b then some (6, false)
  else if !draocOk b then some (8, true)
  else none

/-- The segment in progress is the last of its run. -/
def Desc.atLast (d : Desc) : Bool := decide (d.got ≠ []) && decide (d.q3.toNat ≤ d.bytes + d.got.length)

/-- A DMA ends with a status and the count of segments moved (R272), unless an ABORT met it before its last segment was begun. -/
def State.dmaEnds (s : State) (p : Nat) (d : Desc) (e : Nat × Bool) : State :=
  (if e.2 then s.checkEvent 3 0 (d.q2.toNat + d.bytes) else s).endDesc p { d with part := none, cut := !d.abortedBy.isEmpty && !d.atLast } e.1 d.moved

/-- The segment in progress has moved. An ABORT that waits for it ends the run here, but at its end (Table 11.6). -/
def State.dmaMoved (s : State) (p : Nat) (d : Desc) : State :=
  let e := { d with moved := d.moved + 1, bytes := d.bytes + d.got.length, got := [], part := none }
  if e.bytes = d.q3.toNat then s.endDesc p e 0 e.moved
  else if d.abortedBy = [] then s.putDesc p e
  else s.endDesc p { e with cut := true } 0 e.moved

/-- The host interface die sends a DMA request to the home of a segment (R271): DMA_READ or DMA_WRITE. It carries the descriptor's transaction. -/
def State.dmaAsk (s : State) (p : Nat) (d : Desc) (op o n : Nat) (data : Bytes) : State :=
  (s.putDesc p { d with part := some (o, n) }).injectComp 3 0 (0, 0)
    { toComp (packet 0xA s.companion s.companion ((deepHeader op false false 0 0 o n 0).setWidth 256) data) 1 (moonOf o) with txn := some d.serial }

/-- A segment of the run is sent whole to its home. -/
def State.dmaPut (s : State) (p : Nat) (d : Desc) (seg : Bytes) : State :=
  s.dmaAsk p { d with got := seg } 6 (d.q2.toNat + d.bytes) seg.length seg

/-- The next segment of the run is asked for at its home. Its length stands in its header, so LENGTH is the most it can be, and the home answers
with the segment (the spec does not say how the host die learns the length: DESIGN CHOICE, log entry 145). -/
def State.dmaGet (s : State) (p : Nat) (d : Desc) : State :=
  s.dmaAsk p { d with got := [] } 5 (d.q2.toNat + d.bytes) (min 4096 (d.q3.toNat - d.bytes)) []

/-- A descriptor waits for an extent. -/
def Desc.waitsFor (d : Desc) (o n : Nat) (txn : Option Nat) : Bool :=
  d.ended.isNone && decide (d.part = some (o, n)) && (match txn with
    | some k => decide (d.serial = k)
    | none => true)

/-- The descriptor that waits for an extent. -/
def State.dmaFor (s : State) (o n : Nat) (txn : Option Nat) : Option (Nat × Desc) :=
  s.host.rings.findSome? fun r => (r.2.inProgress.find? fun d => d.started && d.waitsFor o n txn).map fun d => (r.1, d)

/-- A segment read goes to host memory. -/
def State.dmaOut (s : State) (d : Desc) (b : Bytes) : State := s.emit (.hostWrite (d.q1 + BitVec.ofNat 64 d.bytes) b)

/-- The segment of an abandoned DMA completes (R330). -/
def State.dmaLeft (s : State) (o n : Nat) (txn : Option Nat) (a : Nat ⊕ Bytes) : State :=
  match s.host.abandoned.find? fun d => d.waitsFor o n txn with
  | none => s
  | some d =>
    let s : State := { s with host := { s.host with abandoned := s.host.abandoned.erase d } }
    match a with
    | .inl _ => s
    | .inr b => if d.op = 3 ∧ (dmaBad d b).isNone ∧ s.linkLive then s.dmaOut d b else s

/-- A home answers a DMA request: with the segment read, with none once it is written, or with the status that ends the descriptor. No row of
the command table receives the answer at the host interface die, so its way back is part of the moon die's command (log entry 105). -/
def State.dmaAnswer (s : State) (o n : Nat) (txn : Option Nat) (a : Nat ⊕ Bytes) : State :=
  match s.dmaFor o n txn with
  | none => s.dmaLeft o n txn a
  | some (p, d) => match a with
    | .inl e => s.dmaEnds p d (e, false)
    | .inr b =>
      if d.op = 2 then s.dmaMoved p d
      else
        let d := { d with got := b }
        match dmaBad d b with
        | some e => s.dmaEnds p d e
        | none => (s.dmaOut d b).dmaMoved p d

/-- A DMA_TO_DEEP may not write an extent now: it passes into a drain area (R264). -/
def State.areaClosed (s : State) (o n : Nat) : Bool :=
  decide (s.areaBase 0 < o + n) && !([JobState.idle, .loaded, .halted].contains s.job.state)

/-! ### Accesses at the homes (R260) -/

/-- A demand has been read as far as it goes: whole, or up to the fault of a segment with its offset. A run-ahead read is delivered at once; its
failure is discarded and counted at the reader, whose buffer no longer waits for the tile (R252, R270). -/
def State.readDone (s : State) (m : Nat) (h : BitVec 128) (txn : Option Nat) (tile : Nat) (segs : List Bytes) (err : Option (Nat × Nat)) : State :=
  let n := dhStream h
  let t := s.stream m n
  if dhSpec h then
    match err with
    | none => segs.foldl (fun s b => s.moonSend m { packet 0xB (s.moonName m) (t.rcv s.pkg) ((deliverHeader h).setWidth 256) b with txn := txn })
        (s.demandServed t tile segs)
    | some _ => match s.coreAt (t.rcv s.pkg) with
      | some c => (s.count 2 (coreUnit c) 0 3).modCore c fun x => { x with
          runAhead := x.runAhead.filter fun b => !b.fits (32768 * m + n) (dhIndex h) txn }
      | none => s
  else
    let os := owedOf h segs
    match err with
    | none => ((s.demandServed t tile segs).putStream m n { t with owed := t.owed ++ os }).pumpStream m n
    | some f =>
      let s := (s.putStream m n { t with owed := t.owed ++ os.map fun o => { o with last := false } }).pumpStream m n
      s.streamFault m n (dhIndex h) f.2 f.1

/-- The acknowledgement of a segment of a write stream, with its credit (R242, R268). -/
def State.ackSegment (s : State) (m : Nat) (t : Stream) (status : BitVec 4) : State :=
  (s.moonSend m (packet 5 (s.moonName m) (t.owner s.pkg) ((ackBody 0 status 3 true).setWidth 256))).streamCredit m t 1

/-- The first of some segments, padded to whole 64 B. -/
def firstPadded (l : List (Nat × Bytes × Bool)) : Bytes :=
  match l with
  | x :: _ => x.2.1 ++ List.replicate (pad64 x.2.1.length - x.2.1.length) 0
  | [] => []

/-- The writing of a tile's next segment, after the first of those to do. -/
def nextWrite (m n tile base : Nat) (todo : List (Nat × Bytes × Bool)) : HomeOp :=
  .write m n tile (base + ((todo.drop 1).head?.map (·.1)).getD 0) (todo.drop 1) (firstPadded (todo.drop 1))

/-- An access goes on, segment by segment (R260). The home of a segment reads or writes what lies in its own region itself, and the rest by
PART_READ or PART_WRITE, for which it waits; it does one segment at a time, so an access whose segment's home waits is put off. Nothing is said of
how a stream of one moon die comes to a home that is another: its work goes on there (DESIGN CHOICE, log entry 145).
- A demand reads its tile in ascending SEG (R267); `left` is what is left of the tile's extent. A part in a moon die that is off, or a stream's
  die that is, makes it TARGET_OFFLINE (R277).
- A tile's segments are written in order, and each is acknowledged when all its parts are written (R268); one that failed its check is answered
  with DATA_ERROR and not stored.
- A DMA_READ reads the segment that begins at its offset, as its header gives it; a DMA_WRITE stores its bytes, into a drain area only while R264
  allows. -/
def State.homeOn (fuel : Nat) (s : State) (x : HomeOp) : State :=
  match fuel with
  | 0 => s
  | k + 1 =>
    let busy := (s.home (moonOf x.off)).isSome
    match x with
    | .read m h txn tile sg o left got segs =>
      let t := s.stream m (dhStream h)
      let want := if got.length < 64 then 64 else pad64 (segLen got)
      let seg := got.take (segLen got)
      let fail (s : State) (code o : Nat) : State := s.readDone m h txn tile segs (some (code, o))
      if left < 64 then fail s fStreamRange o
      else if s.moonOff m || anyPart s.moonOff o 64 then fail s fTargetOffline o
      else if 64 ≤ got.length ∧ 4016 < segPlen got then fail s fCheckFail o
      else if left < want then fail s fStreamRange o
      else if anyPart s.moonOff o want then fail s fTargetOffline o
      else if got.length < want then
        if got = [] ∧ busy then s.homeLater x
        else
          let a := o + got.length
          let c := regionCut a (want - got.length)
          if moonOf a = moonOf o then
            let r := s.moonRead a c
            match r.2 with
            | .inr w => fail r.1 fDataError (64 * w)
            | .inl b => r.1.homeOn k (.read m h txn tile sg o left (got ++ b) segs)
          else s.awaitPart x 3 a c
      else if !draocOk seg || !identityOk seg t.tensor (tile / t.tcols) (tile % t.tcols) sg || !t.stepOk (dhStep h) seg then fail s fCheckFail o
      else if sg + 1 = 2 ^ segSeglog got then s.readDone m h txn tile (segs ++ [seg]) none
      else s.homeOn k (.read m h txn tile (sg + 1) (o + want) (left - want) [] (segs ++ [seg]))
    | .write m n tile o todo rest =>
      match todo with
      | [] => s
      | y :: _ =>
        let t := s.stream m n
        let next := nextWrite m n tile (t.tileAt tile) todo
        if !y.2.2 then (s.ackSegment m t 3).homeOn k next
        else if rest = [] then (s.ackSegment m t 0).homeOn k next
        else if s.moonGone m || anyPart s.moonGone o (firstSize todo) then s.streamFault m n 0 o fTargetOffline
        else if s.moonOff m || anyPart s.moonOff o (firstSize todo) then (s.ackSegment m t 4).homeOn k next
        else if rest.length = firstSize todo ∧ busy then s.homeLater x
        else
          let c := regionCut x.upTo rest.length
          if moonOf x.upTo = moonOf o then (s.deepPut x.upTo (rest.take c)).homeOn k (.write m n tile o todo (rest.drop c))
          else s.awaitPart x 4 x.upTo c (rest.take c)
    | .get o n txn got =>
      let want := if got.length < 64 then min 64 n else if segPlen got ≤ 4016 then min n (segSpace got) else got.length
      if anyPart s.moonOff o want then s.dmaAnswer o n txn (.inl 0x0E)
      else if want ≤ got.length then s.dmaAnswer o n txn (.inr got)
      else if got = [] ∧ busy then s.homeLater x
      else
        let a := o + got.length
        let c := regionCut a (want - got.length)
        if moonOf a = moonOf o then
          let r := s.moonRead a c
          match r.2 with
          | .inr _ => r.1.dmaAnswer o n txn (.inl 9)
          | .inl b => (r.1.countBytes 1 a c).homeOn k (.get o n txn (got ++ b))
        else s.awaitPart x 3 a c
    | .put o n txn rest =>
      if rest = [] then s.dmaAnswer o n txn (.inr [])
      else if rest.length = n ∧ s.areaClosed o n then s.dmaAnswer o n txn (.inl 7)
      else if anyPart s.moonOff o n then s.dmaAnswer o n txn (.inl 0x0E)
      else if rest.length = n ∧ busy then s.homeLater x
      else
        let c := regionCut x.upTo rest.length
        if moonOf x.upTo = moonOf o then (s.deepPut x.upTo (rest.take c)).homeOn k (.put o n txn (rest.drop c))
        else s.awaitPart x 4 x.upTo c (rest.take c)

/-- Steps enough for an access: eight segments, each in at most four pieces, with their checks. -/
def homeFuel : Nat := 64

/-- The accesses that wait for a home that is free now go on, oldest first. -/
def State.wake (fuel : Nat) (s : State) : State :=
  match fuel with
  | 0 => s
  | k + 1 => match s.homeWait.find? fun x => (s.home (moonOf x.off)).isNone with
    | none => s
    | some x => (({ s with homeWait := s.homeWait.erase x } : State).homeOn homeFuel x).wake k

/-- A home is free again, and goes on with the access it had. -/
def State.homeFree (s : State) (m : Nat) (act : State → State) : State :=
  let t := act (s.setHome m none)
  t.wake (9 * (t.homeWait.length + 1))

/-- A moon die starts to read a tile of a stream. -/
def State.readTile (s : State) (m : Nat) (h : BitVec 128) (txn : Option Nat) (tile : Nat) : State :=
  let t := s.stream m (dhStream h)
  s.homeOn homeFuel (.read m h txn tile 0 (t.tileAt tile) t.stride [] [])

/-- A demand at its home (R267, R270, R276). The record of a fault for an index above SWEEP, or at a moon die that is off, names the start of
tile 0: the spec gives no offset for it (DESIGN CHOICE, log entry 103). -/
def State.demandAt (s : State) (m : Nat) (h : BitVec 128) (txn : Option Nat) : State :=
  let n := dhStream h
  let i := dhIndex h
  let t := s.stream m n
  if !t.valid || t.isWrite then s
  else if dhSpec h then
    if t.faulted || s.moonOff m || decide (t.f 247 240 < i) then s else s.readTile m h txn ((t.sweep * (t.f 247 240 + 1) + i) % t.tiles)
  else if t.faulted then s.streamCredit m t 1
  else if s.moonOff m then s.streamFault m n i (t.tileAt 0) fTargetOffline
  else if t.f 247 240 < i then s.streamFault m n i (t.tileAt 0) fStreamRange
  else
    let g := match t.last with
      | some l => if i ≤ l then t.sweep + 1 else t.sweep
      | none => t.sweep
    let t := { t with sweep := g, last := some i }
    let tile := (g * (t.f 247 240 + 1) + i) % t.tiles
    if dhClaim h then
      let slots := match s.coreAt (t.rcv s.pkg) with
        | some c => 2 ^ ((s.core c).recvEp t.rcvEp).seglog
        | none => 1
      let s := s.countStack (s.stackOf (t.tileAt tile)) 5
      (s.putStream m n { t with owed := t.owed ++ [{ hdr := deliverHeader h, seg := none, slots := slots, last := true }] }).pumpStream m n
    else (s.putStream m n t).readTile m h txn tile

/-- A deep-memory header as Table 9.4 has it for an operation: its OP, the fields that are zero for it, and its LENGTH. A moon die does nothing
for another one: the spec gives it no effect (DESIGN CHOICE, log entry 104). -/
def deepHeaderOk (op : Nat) (h : BitVec 128) : Bool :=
  let f (hi lo : Nat) : Nat := bitsOf h.toNat hi lo
  decide (f 127 124 = op) && decide (f 98 96 = 0) && decide (f 18 0 = 0) &&
  (if op = 1 ∨ op = 2 ∨ op = 7 then decide (dhOffset h = 0) && decide (dhLength h = 0) && (decide (op = 1) || decide (dhStep h = 0)) &&
      (decide (op = 1) || !dhClaim h) && (decide (op ≠ 2) || (!dhSpec h && decide (dhIndex h = 0)))
   else !dhSpec h && !dhClaim h && decide (dhStream h = 0) && decide (dhIndex h = 0) && decide (dhStep h = 0) &&
      decide (1 ≤ dhLength h) && decide (dhLength h ≤ 4096))

/-- A request for a stream at its moon die: it waits while one before it is being served (R269). -/
def State.atHome (s : State) (m : Nat) (f : Packet → Bool) (ok : Bool) (act : State → State) : State :=
  if s.serving m then s else s.onArrival f 0 fun t => if ok then act t else t

def execDemand (m : Fin 4) (hdr : BitVec 128) (s : State) : Host.Outcome State Fault Refusal :=
  let f := isForComp 1 m.val 0xA (hdr.setWidth 256) []
  .next (s.atHome m.val f (deepHeaderOk 1 hdr) fun t => t.demandAt m.val hdr (s.txnOf f))

/-! ### Writes (R260, R268) -/

/-- A segment arrives for a write stream. The tile is written when its last segment is there, so that none of it is when it passes its
extent (R268); a segment that fails its check is not stored (Table 9.6). -/
def State.segmentAt (s : State) (m : Nat) (h : BitVec 128) (seg : Bytes) (inj : Bool := false) : State :=
  let n := dhStream h
  let t := s.stream m n
  let tile := t.k % t.tiles
  let sg := t.held.length
  let pos := (t.held.map fun x => pad64 x.2.1.length).sum
  let o := t.tileAt tile + pos
  if !t.valid || !t.isWrite then s
  else if t.faulted then s.ackSegment m t 3
  else if s.moonGone m || anyPart s.moonGone o (pad64 seg.length) then s.streamFault m n 0 o fTargetOffline
  else if s.moonOff m || anyPart s.moonOff o (pad64 seg.length) then s.ackSegment m t 4
  else
    let good := draocOk seg && identityOk seg t.tensor (tile / t.tcols) (tile % t.tcols) sg
    let s := if good then s
      else
        let detail := streamDetail m n 0 o ||| (if inj then BitVec.ofNat 64 (2 ^ 63) else 0)
        let s := { s with genhan := { s.genhan with notes := s.genhan.notes ++ [(BitVec.ofNat 16 fCheckFail, detail)] } }
        let s := s.checkEvent 1 m o
        match s.coreAt (t.owner s.pkg) with
        | none => s
        | some c =>
          let e := faultEntry s (clusterOf c) { core := c.core, slot := (s.core c).slot, code := fCheckFail, detail := detail, cls := 2 }
          let r : Report := { entry := e, other := some (clusterOf c), offset := some (BitVec.ofNat 48 o), quiet := true }
          { s with genhan := { s.genhan with reports := s.genhan.reports ++ [r] } }
    let held := t.held ++ [(pos, seg, good)]
    if sg + 1 < 2 ^ segSeglog seg then s.putStream m n { t with held := held }
    else
      let s := s.putStream m n { t with held := [], k := t.k + 1 }
      if t.stride < pos + pad64 seg.length then s.streamFault m n 0 (t.tileAt tile) fStreamRange
      else s.homeOn homeFuel (.write m n tile (t.tileAt tile) held (firstPadded held))

/-- The offset of the part that a home waits for. -/
def State.partAt (s : State) (m : Nat) : Option Nat := (s.home m).map (·.upTo)

/-- An access whose part or home cannot come ends with TARGET_OFFLINE (R276, R277). -/
def State.accessLost (s : State) (x : HomeOp) : State :=
  match x with
  | .read m h txn tile _ o _ _ segs => s.readDone m h txn tile segs (some (fTargetOffline, o))
  | .write m n tile _ _ _ => s.streamFault m n 0 ((s.stream m n).tileAt tile) fTargetOffline
  | .get o n txn _ => s.dmaAnswer o n txn (.inl 0x0E)
  | .put o n txn _ => s.dmaAnswer o n txn (.inl 0x0E)

/-- A moon die has a part in an access: as the die of its stream, as the home of its segment, or for the part waited for. -/
def HomeOp.needs (x : HomeOp) (m : Nat) : Bool := decide (x.die = some m) || decide (moonOf x.off = m) || decide (moonOf x.upTo = m)

/-- The accesses that need a moon die end. -/
def State.accessesLost (s : State) (m : Nat) : State :=
  let l := s.homeWait.filter (·.needs m)
  let s := l.foldl State.accessLost { s with homeWait := s.homeWait.filter fun x => !x.needs m }
  (List.range 4).foldl (fun s j => match s.home j with
    | some x => if x.needs m then s.homeFree j fun s => s.accessLost x else s
    | none => s) s

/-- The demands and writes outstanding at a moon die that is lost (`gone`) or enters QUIESCE, and those at another whose part lies in it:
owners halt with TARGET_OFFLINE (R276, R277); in a QUIESCE the segments of an incomplete tile are answered (R373). -/
def State.dropStreams (s : State) (m : Nat) (gone : Bool) : State :=
  let s := s.accessesLost m
  s.streams.foldl (fun s p =>
    let n := p.1 % 32768
    let t := p.2
    if p.1 / 32768 ≠ m ∨ !t.valid ∨ t.faulted then s
    else if t.owed ≠ [] ∨ (gone ∧ t.held ≠ []) then s.streamFault m n (t.last.getD 0) (t.tileAt 0) fTargetOffline
    else t.held.foldl (fun s _ => s.ackSegment m t 4) (s.putStream m n { t with held := [] })) s

def execSegmentWrite (m : Fin 4) (hdr : BitVec 128) (seg : Bytes) (s : State) : Host.Outcome State Fault Refusal :=
  let f := isForComp 1 m.val 0xA (hdr.setWidth 256) seg
  .next (s.atHome m.val f (deepHeaderOk 2 hdr) fun t => t.segmentAt m.val hdr seg (s.injectedIn f))

/-! ### Parts (R260, R271) -/

/-- The home that a PART request comes from, as its packet names it: one that waits for this offset. -/
def State.asker (s : State) (f : Packet → Bool) (o : Nat) : Option Nat :=
  (s.arriving f).bind fun p => if s.partAt (p.src.die.toNat - 24) = some o then some (p.src.die.toNat - 24) else none

/-- The home goes on with what a PART_READ brought, or with the word that it could not read. No row of the command table receives the data at
the home, so its way back is part of this command (log entry 105). -/
def State.partCame (s : State) (m : Nat) (b : Bytes ⊕ Nat) : State :=
  match s.home m, b with
  | some (.read d h txn tile sg o left got segs), .inl b => s.homeFree m fun s => s.homeOn homeFuel (.read d h txn tile sg o left (got ++ b) segs)
  | some (.read d h txn tile _ _ _ _ segs), .inr w => s.homeFree m fun s => s.readDone d h txn tile segs (some (fDataError, 64 * w))
  | some (.get o n txn got), .inl b => s.homeFree m fun s => s.homeOn homeFuel (.get o n txn (got ++ b))
  | some (.get o n txn _), .inr _ => s.homeFree m fun s => s.dmaAnswer o n txn (.inl 9)
  | _, _ => s

/-- The home goes on once a PART_WRITE is done. -/
def State.partWritten (s : State) (m n : Nat) : State :=
  match s.home m with
  | some (.write d st tile o todo rest) => s.homeFree m fun s => s.homeOn homeFuel (.write d st tile o todo (rest.drop n))
  | some (.put o l txn rest) => s.homeFree m fun s => s.homeOn homeFuel (.put o l txn (rest.drop n))
  | _ => s

/-- An extent that a moon die holds, below the exposed capacity (R258). -/
def State.holdsPart (s : State) (m o n : Nat) : Bool := decide (moonOf o = m) && decide (o % 4096 + n ≤ 4096) && decide (o + n ≤ s.capacity)

def execPartRead (m : Fin 4) (hdr : BitVec 128) (s : State) : Host.Outcome State Fault Refusal :=
  let f := isForComp 1 m.val 0xA (hdr.setWidth 256) []
  let o := dhOffset hdr
  .next (s.onArrival f 0 fun t =>
    if deepHeaderOk 3 hdr && t.holdsPart m.val o (dhLength hdr) then
      let r := t.moonRead o (dhLength hdr)
      let u := match r.2 with
        | .inl _ => r.1.countBytes 1 o (dhLength hdr)
        | .inr _ => r.1
      match s.asker f o with
      | some j => u.partCame j r.2
      | none => u
    else t)

def execPartWrite (m : Fin 4) (hdr : BitVec 128) (data : Bytes) (s : State) : Host.Outcome State Fault Refusal :=
  let f := isForComp 1 m.val 0xA (hdr.setWidth 256) data
  let o := dhOffset hdr
  .next (s.onArrival f 0 fun t =>
    if deepHeaderOk 4 hdr && t.holdsPart m.val o (dhLength hdr) then
      let u := t.deepPut o (data.take (dhLength hdr))
      match s.asker f o with
      | some j => u.partWritten j (dhLength hdr)
      | none => u
    else t)

/-! ### Deliveries (R182, R252, R267, R270) -/

/-- A speculative segment: into the run-ahead buffer, or discarded when the tile it was read for is no longer wanted (R253, R270). -/
def State.bufferSegment (s : State) (c : CoreAt) (stream : Nat) (h : BitVec 128) (seg : Bytes) (inj : Bool) (txn : Option Nat) : State :=
  let x := s.core c
  match x.runAhead.find? fun b => b.fits stream (dhIndex h) txn && decide (b.segs.length < b.need) with
  | none => s.count 2 (coreUnit c) 0 2
  | some b =>
    let s := s.putCore c { x with runAhead := x.runAhead.map fun y => if y = b then { b with segs := b.segs ++ [(seg, inj)] } else y }
    s.count 2 (coreUnit c) 0 4

/-- One segment of the oldest demand of a stream has landed. -/
def Core.demandDone (x : Core) (stream : Nat) : Core :=
  match x.demands.find? fun d => decide (d.stream = stream) with
  | none => x
  | some d => { x with demands := if d.left ≤ 1 then x.demands.erase d else x.demands.map fun e => if e = d then { d with left := d.left - 1 } else e }

/-- The run-ahead goes on, as far as the last demand allows, once the buffer has room again (R270). The owner's endpoint holds the sweep and
the index of that demand. -/
def State.speculateOn (s : State) (r : CoreAt) (m n : Nat) : State :=
  let t := s.stream m n
  match s.coreAt (t.owner s.pkg) with
  | none => s
  | some c =>
    let e := (s.core c).sendEp t.ownEp.toNat
    s.speculate r m n e.wpos (2 ^ ((s.core r).recvEp t.rcvEp).seglog) ((s.cluster (clusterOf c)).step.extractLsb' 0 16)
      ((List.range (t.f 253 252)).filterMap fun j => if e.srcPos ≠ 0 ∧ e.srcPos + j ≤ t.f 247 240 then some (e.srcPos + j) else none)

/-- A delivery at the receiving core; `m` is the moon die it comes from. -/
def State.deliverAt (s : State) (c : CoreAt) (m : Nat) (h : BitVec 128) (seg : Bytes) (inj : Bool) (txn : Option Nat) : State :=
  let n := dhStream h
  let ep := (s.stream m n).rcvEp
  let e := (s.core c).recvEp ep
  if s.offline (clusterOf c) then s
  else if dhSpec h then s.bufferSegment c (32768 * m + n) h seg inj txn
  else if !e.valid || decide (e.type ≠ 1) || decide (e.free = 0) then s.haltBy c fChannelProto
  else
    let r := s.landSegment c ep seg (deliveryHeader ep) none inj
    if r.2 then ((r.1.modCore c fun x => x.demandDone (32768 * m + n)).landClaims c ep).speculateOn c m n else r.1

/-- The moon die that a delivery on the mesh comes from, else one with a stream of that number to this core. -/
def State.moonFrom (s : State) (c : CoreAt) (f : Packet → Bool) (n : Nat) : Nat :=
  match s.arriving f c.core.val with
  | some p => p.src.die.toNat - 24
  | none => ((List.range 4).find? fun m => (s.stream m n).valid && decide ((s.stream m n).rcv s.pkg = s.lcore c)).getD 0

def execDeliver (c : CoreAt) (hdr : BitVec 128) (seg : Bytes) (s : State) : Host.Outcome State Fault Refusal :=
  let f := s.isFor c 0xB (hdr.setWidth 256) seg
  let i := c.core.val
  .next (s.onQueue c 1 f i fun t =>
    if deepHeaderOk 7 hdr then t.deliverAt c (s.moonFrom c f (dhStream hdr)) hdr seg (s.injectedIn f i) (s.txnOf f i) else t)

/-! ### DMA at its home (R260, R264, R272) -/

/-- The segment of a host DMA is read at its home. -/
def execDmaRead (m : Fin 4) (hdr : BitVec 128) (s : State) : Host.Outcome State Fault Refusal :=
  let f := isForComp 1 m.val 0xA (hdr.setWidth 256) []
  let o := dhOffset hdr
  let n := dhLength hdr
  .next (s.onArrival f 0 fun t =>
    if deepHeaderOk 5 hdr && decide (moonOf o = m.val) && decide (o + n ≤ t.capacity) then t.homeOn homeFuel (.get o n (s.txnOf f) []) else t)

/-- The segment of a host DMA is written at its home. -/
def execDmaWrite (m : Fin 4) (hdr : BitVec 128) (data : Bytes) (s : State) : Host.Outcome State Fault Refusal :=
  let f := isForComp 1 m.val 0xA (hdr.setWidth 256) data
  let o := dhOffset hdr
  let n := dhLength hdr
  .next (s.onArrival f 0 fun t =>
    if deepHeaderOk 6 hdr && decide (moonOf o = m.val) && decide (o + n ≤ t.capacity) && decide (data.length = n) then
      t.homeOn homeFuel (.put o n (s.txnOf f) data)
    else t)

/-- The background read of every stack of a moon die (R275). -/
def execScrub (m : Fin 4) (s : State) : Host.Outcome State Fault Refusal :=
  let here (p : Nat × Option Bool) : Bool := decide (moonOf (64 * p.1) = m.val)
  let soft := s.deepErr.filter fun p => here p && decide (p.2 = some false)
  let bad := s.deepErr.filter fun p => here p && decide (p.2 = some true)
  let s := { s with deepErr := s.deepErr.filter fun p => !(here p && decide (p.2 = some false)) }
  let s := soft.foldl (fun s p => s.countDeepCe (s.stackOf (64 * p.1))) s
  .next (bad.foldl (fun s p => s.deepUe (64 * p.1)) s)

end Sys2Proof.Machine
end

