-- ==== Sys2Proof/Machine/Connect.lean ====
section
/-! DEFINITION. Connections at their link dies and at their senders (R185 to R188, R296, Tables 6.8 to 6.10 and 10.9). -/

namespace Sys2Proof.Machine

/-! ### Fields -/

def ccConn (b : BitVec 256) : BitVec 12 := b.extractLsb' 236 12
def ccStatus (b : BitVec 256) : BitVec 4 := b.extractLsb' 248 4
def ccTgtLink (b : BitVec 256) : BitVec 3 := b.extractLsb' 233 3
def ccSrc (b : BitVec 256) : LCore := ⟨b.extractLsb' 194 12, b.extractLsb' 228 5, b.extractLsb' 219 9, b.extractLsb' 213 6⟩
def ccSrcEp (b : BitVec 256) : BitVec 4 := b.extractLsb' 209 4
def ccSrcLink (b : BitVec 256) : BitVec 3 := b.extractLsb' 206 3
def ccDst (b : BitVec 256) : LCore := ⟨b.extractLsb' 158 12, b.extractLsb' 189 5, b.extractLsb' 180 9, b.extractLsb' 174 6⟩
def ccDstEp (b : BitVec 256) : BitVec 4 := b.extractLsb' 170 4
def ccType (b : BitVec 256) : BitVec 2 := b.extractLsb' 156 2

/-- A control body that returns to the sender of another: its operation, status, index and the answer's fields. -/
def ccReply (b : BitVec 256) (op : Nat) (status : BitVec 4) (conn : BitVec 12) (link : Nat) (rslots wpos : BitVec 11) (free : BitVec 12)
    (seq : BitVec 24) : BitVec 256 :=
  connBody op status conn (BitVec.ofNat 3 link) (ccSrc b) (ccSrcEp b) (ccSrcLink b) (ccDst b) (ccDstEp b) (ccType b) rslots wpos free seq

/-- A connection table entry (Table 6.8). -/
def connEntry (b : BitVec 256) : BitVec 128 :=
  let s := ccSrc b
  let t := ccDst b
  (1 : BitVec 1) ++ s.pkg ++ s.die ++ s.cl ++ s.core ++ ccSrcEp b ++ ccSrcLink b ++ (0 : BitVec 56) ++ t.die ++ t.cl ++ t.core ++ ccDstEp b ++ (0 : BitVec 8)

def entryPeer (e : BitVec 128) : LCore := ⟨e.extractLsb' 115 12, e.extractLsb' 110 5, e.extractLsb' 101 9, e.extractLsb' 95 6⟩
def entryPeerEp (e : BitVec 128) : BitVec 4 := e.extractLsb' 91 4
def entryPeerLink (e : BitVec 128) : BitVec 3 := e.extractLsb' 88 3
def entryTarget (pkg : BitVec 12) (e : BitVec 128) : LCore := ⟨pkg, e.extractLsb' 27 5, e.extractLsb' 18 9, e.extractLsb' 12 6⟩
def entryEp (e : BitVec 128) : Nat := bitsOf e.toNat 11 8

def State.conn (s : State) (l i : Nat) : BitVec 128 := SMap.get 0 s.conns (4096 * l + i)
def State.putConn (s : State) (l i : Nat) (e : BitVec 128) : State := { s with conns := SMap.set 0 s.conns (4096 * l + i) e }

/-! ### At the link die that holds the entries -/

/-- Indexes that no entry of a link die takes. -/
def State.freeConns (s : State) (l : Nat) : List Nat := (List.range 4096).filter fun i => !(s.conn l i).getLsbD 127

/-- The status of an OPEN whose entry is there (Table 6.9). When several apply the spec gives no order: the model answers, in this order,
NO_ENDPOINT for a target that is not mapped, TARGET_OFFLINE, NO_ENDPOINT, BUSY, and NO_ENTRY before all of them (DESIGN CHOICE, log entry 102). -/
def State.openStatus (s : State) (b : BitVec 256) : BitVec 4 :=
  match s.coreAt (ccDst b) with
  | none => 2
  | some c =>
    let e := (s.core c).recvEp (ccDstEp b).toNat
    if s.offline (clusterOf c) then 5
    else if !e.valid || !e.remoteOk || decide (e.type ≠ (ccType b).toNat) then 2
    else if e.peer.isSome then 3
    else 0

/-- An OPEN at its link die (R185): the entry is allocated, the target checked and the answer formed. The index is any free one. -/
def State.openArrives (s : State) (l : Nat) (b : BitVec 256) : State :=
  let back (s : State) (body : BitVec 256) : State := s.atLink l (packet 9 s.companion (ccSrc b) body)
  let free := s.freeConns l
  if free.isEmpty then back s (ccReply b 2 1 0 l 0 0 0 0)
  else
    let st := s.openStatus b
    if st ≠ 0 then back s (ccReply b 2 st 0 l 0 0 0 0)
    else match s.coreAt (ccDst b) with
      | none => s
      | some c =>
        let d := s.draw
        let i := free.getD (d.1.toNat % free.length) 0
        let ep := (ccDstEp b).toNat
        let e := (s.core c).recvEp ep
        let peer : Peer := { linkDie := BitVec.ofNat 3 l, conn := BitVec.ofNat 12 i, src := ccSrc b, ep := ccSrcEp b }
        let s := (d.2.putConn l i (connEntry b)).modCore c fun x => x.putRecv ep { e with peer := some peer, tile := 0, seg := 0 }
        back s (ccReply b 2 0 (BitVec.ofNat 12 i) l (BitVec.ofNat 11 (e.slots - 1)) (BitVec.ofNat 11 e.wpos) (BitVec.ofNat 12 e.free) e.expSeq)

def execOpenRequest (l : Fin 8) (body : BitVec 256) (s : State) : Host.Outcome State Fault Refusal :=
  .next (s.onArrival (isForComp 2 l.val 9 body []) 0 fun s => s.openArrives l.val body)

/-- The connection of an entry leaves its receive endpoint. -/
def State.dropPeer (s : State) (l i : Nat) : State :=
  let e := s.conn l i
  match s.coreAt (entryTarget s.pkg e) with
  | none => s
  | some c => s.modCore c fun x =>
      let r := x.recvEp (entryEp e)
      match r.peer with
      | some p => if p.linkDie.toNat = l ∧ p.conn.toNat = i then x.putRecv (entryEp e) { r with peer := none } else x
      | none => x

/-- A CLOSE at its link die (R186): the sender's entry is freed, and the answer formed in every case. -/
def State.closeArrives (s : State) (l : Nat) (b : BitVec 256) : State :=
  let i := (ccConn b).toNat
  let e := s.conn l i
  let s := if e.getLsbD 127 && decide (entryPeer e = ccSrc b) && decide (entryPeerEp e = ccSrcEp b) then (s.dropPeer l i).putConn l i 0 else s
  s.atLink l (packet 9 s.companion (ccSrc b) (ccReply b 4 0 (ccConn b) l 0 0 0 0))

def execCloseRequest (l : Fin 8) (body : BitVec 256) (s : State) : Host.Outcome State Fault Refusal :=
  .next (s.onArrival (isForComp 2 l.val 9 body []) 0 fun s => s.closeArrives l.val body)

/-! ### At the sender -/

/-- An answer reaches a PENDING endpoint (R185); a reserved status counts as NO_ENDPOINT. A CLOSE issued meanwhile follows (Table 6.10).
R175 has OPEN set SRC_POS, and R185 gives it no value: the model leaves it as it was (DESIGN CHOICE, log entry 101). -/
def State.answerArrives (s : State) (c : CoreAt) (b : BitVec 256) : State :=
  let ep := (ccSrcEp b).toNat
  let e := (s.core c).sendEp ep
  let st : BitVec 4 := if 6 ≤ ccStatus b then 2 else ccStatus b
  if e.conn ≠ .pending then s
  else if st = 0 then
    let e' : SendEp := { e with
      conn := .open_, openStatus := 0, broken := false, closeAfter := false, connIndex := ccConn b, tgtLinkDie := ccTgtLink b,
      rslots := bitsOf b.toNat 155 145, wpos := bitsOf b.toNat 144 134, credits := bitsOf b.toNat 133 122, seq := b.extractLsb' 98 24 }
    let s := s.modCore c fun x => x.putSend ep e'
    if e.closeAfter then s.sendClose c ep else s
  else
    s.modCore c fun x => x.putSend ep (if e.closeAfter then { e with conn := .closed, openStatus := 0, closeAfter := false }
      else { e with conn := .failed, openStatus := st })

def execAnswer (c : CoreAt) (body : BitVec 256) (s : State) : Host.Outcome State Fault Refusal :=
  .next (s.onArrival (s.isFor c 9 body []) c.core.val fun s => s.answerArrives c body)

/-- The answer of a CLOSE (R186). -/
def State.closeAnswered (s : State) (c : CoreAt) (b : BitVec 256) : State :=
  let ep := (ccSrcEp b).toNat
  let e := (s.core c).sendEp ep
  if e.conn = .closing then s.modCore c fun x => x.putSend ep { e with conn := .closed, credits := 0, broken := false } else s

def execCloseAnswer (c : CoreAt) (body : BitVec 256) (s : State) : Host.Outcome State Fault Refusal :=
  .next (s.onArrival (s.isFor c 9 body []) c.core.val fun s => s.closeAnswered c body)

end Sys2Proof.Machine
end

