-- ==== Sys2Proof/Machine/Mesh.lean ====
section
/-! DEFINITION. Routers, mesh links and route tables (R203 to R206, R213 to R218, R230): one hop of a packet, the failure of a link, and the
change of waypoints. -/

namespace Sys2Proof
open Machine

/-- The virtual channel and class that Table 7.2 gives a kind stand in the header, no reserved kind or exit, no reserved bit (R205). -/
def Packet.proper (p : Packet) : Bool :=
  let f (hi lo : Nat) : Nat := bitsOf p.route.toNat hi lo
  decide (f 81 78 < 0xE) && decide (f 77 75 < 5) && decide ((f 93 92, f 91 91) = kindVc (f 81 78)) && decide (f 70 64 = 0)

end Sys2Proof

namespace Sys2Proof.Machine

/-! ### Hops -/

/-- A flit may pass from the router at `a` by an output: to another router, that one's domain is on and no boundary FIFO between them is in reset. -/
def State.passable (s : State) (a : Nat × Nat) (o : Nat × Packet) : Bool :=
  decide (4 ≤ o.1) || (s.onAt o.2.at_.1 o.2.at_.2 && !s.barred a o.2.at_)

/-- An active link delay on a crossing out of one cluster and into another (R416), none on the side of a companion: its count of ticks. Boundary
directions are 0 N, 1 E, 2 S, 3 W; outward from the named cluster, or inward to it. -/
def State.delayBetween (s : State) (out inn : Option ClusterAt) (port : Nat) : Option Nat :=
  let hit (t : BitVec 64) : Bool :=
    let inward := t.getLsbD 56
    decide (slotControl t = 1) && decide (slotField t 59 57 = 0) && (slotCluster t).isSome &&
    decide (slotCluster t = if inward then inn else out) && decide (slotField t 29 26 = if inward then (port + 2) % 4 else port)
  (s.host.dbg.slots.find? fun q => hit q.2.target).map fun q => q.2.live.toNat

/-- The link delay on the crossing of a packet at `a` by an output. -/
def State.crossDelay (s : State) (a : Nat × Nat) (o : Nat × Packet) : Option Nat :=
  let b := o.2.at_
  if o.1 = 5 then s.delayBetween (some (clusterAtPos a.1 a.2)) none (edgePort o.2.exit.toNat o.2.comp.toNat)
  else if cellOf a = cellOf b then none
  else s.delayBetween (some (clusterAtPos a.1 a.2)) (some (clusterAtPos b.1 b.2)) o.1

/-- The link delay on the crossing by which a packet enters from a companion. -/
def State.entryDelay (s : State) (p : Packet) : Option Nat :=
  if 4 ≤ p.port.toNat then none else s.delayBetween none (some (clusterAtPos p.at_.1 p.at_.2)) ((p.port.toNat + 2) % 4)

/-- One flit counts (Table 15.6): out of a router's port by virtual channel, but for the cox bypass; and over a hull channel or boundary, out of one
cluster and into the next. Output 4 is the local port, 5 the edge port to a companion. -/
def State.countFlit (s : State) (p : Packet) (o : Nat × Packet) : State :=
  let a := p.at_
  let b := o.2.at_
  let k := clusterAtPos a.1 a.2
  let j := clusterAtPos b.1 b.2
  let d := if o.1 = 5 then edgePort p.exit.toNat p.comp.toNat else o.1
  let cross := decide (cellOf a ≠ cellOf b)
  let s := if (cross && p.control) || p.bypassed || o.1 = 6 then s
    else s.count 4 (unitNum 2 k.die.val k.pcl.val (a.2 % 8 * 8 + a.1 % 8)) d (kindVc p.pkind.toNat).1
  if cross then (s.count 5 (unitNum 3 k.die.val k.pcl.val 0) d 0).count 5 (unitNum 3 j.die.val j.pcl.val 0) ((d + 2) % 4) 1
  else if o.1 = 5 then s.count 5 (unitNum 3 k.die.val k.pcl.val 0) d 0
  else s

/-- The buffer that a flit would enter holds a credit for it (R207), those that a cut withholds aside (R416); a core, cox or companion takes one packet
of a virtual channel and class at a time. -/
def State.hasRoom (s : State) (p q : Packet) : Bool :=
  if q.out then p.gone ≠ 0 || s.mesh.all fun r => !sameBuffer r q
  else decide (SMap.get 0 s.spent q.buffer + 1 + (SMap.get (0, 0) s.cuts q.buffer).2 ≤ bufferSize q.lane q.phase)

/-- No other packet of this virtual channel and class has flits still to leave by a link (R204). -/
def State.linkFree (s : State) (p q : Packet) : Bool :=
  p.gone ≠ 0 || s.mesh.all fun r => r.gone = 0 || r.lane ≠ p.lane || (s.asks r).all fun o => o.2.link ≠ q.link

/-- The next flit of a packet could leave its router now: it has come, and all its outputs may pass it and hold a credit for it (R207, R218). -/
def State.mayGo (s : State) (p : Packet) : Bool :=
  decide (p.gone < p.come) && !(s.asks p).isEmpty && (s.asks p).all fun o => s.passable p.at_ o && s.hasRoom p o.2 && s.linkFree p o.2

/-- The first flit of a packet is under a link delay (R416). -/
def State.delayedAt (s : State) (p : Packet) : Bool :=
  decide (p.gone = 0) && (p.wait.isSome || (s.asks p).any fun o => (s.crossDelay p.at_ o).isSome)

/-- The packets that contend for a link: each first in its buffer, its next flit free to go. The i-th is under no link delay any more. -/
def State.contenders (s : State) (i : Nat) (l : Nat × Nat × Nat) : List (Nat × Packet) :=
  (s.mesh.zipIdx.filter fun q => firstInBuffer s.mesh q.2 q.1 && s.onAt q.1.at_.1 q.1.at_.2 && q.1.proper && s.mayGo q.1 &&
    (decide (q.2 = i) || !s.delayedAt q.1) && (s.asks q.1).any fun o => decide (o.2.link = l)).map fun q => (q.2, q.1)

/-- The i-th packet wins every link that it asks for (R208). -/
def State.wins (s : State) (i : Nat) (p : Packet) : Bool :=
  (s.asks p).all fun o => decide (winner (SMap.get 0 s.rr (linkNo o.2.link)) (s.contenders i o.2.link) = some i)

/-- The list with one more flit of a packet in the buffer beyond: the entry that its first flit opened there, or a new one, last of all (R210). -/
def oneMore (l : List Packet) (first : Bool) (q : Packet) : List Packet :=
  if first then l ++ [{ q with come := 1 }]
  else l.map fun r => if r.id = q.id ∧ r.come < r.flits ∧ sameBuffer r q then { r with come := r.come + 1 } else r

/-- One flit of `p` enters the buffer beyond an output, or is taken; the output's pointer moves on (R207, R208). -/
def State.enter (s : State) (p : Packet) (o : Nat × Packet) : State :=
  let s := s.countFlit p o
  let n := linkNo o.2.link
  { s with
    mesh := oneMore s.mesh (decide (p.gone = 0)) o.2
    spent := if o.2.out then s.spent else SMap.set 0 s.spent o.2.buffer (SMap.get 0 s.spent o.2.buffer + 1)
    rr := SMap.set 0 s.rr n (ptrAfter (SMap.get 0 s.rr n) p.lane) }

/-- A packet after one more of its flits has left where it stands; none after the last. -/
def oneLess (p : Packet) : Option Packet := if p.gone + 1 = p.flits then none else some { p with gone := p.gone + 1, wait := none }

/-- A list whose i-th packet has lost a flit. -/
def lessAt (l : List Packet) (i : Nat) (p : Packet) : List Packet :=
  match oneLess p with
  | some q => l.set i q
  | none => l.eraseIdx i

/-- One flit of the i-th packet leaves its router by every output that it asks for, in one cycle (R218). -/
def State.advance (s : State) (i : Nat) (p : Packet) : State :=
  (s.asks p).foldl (fun s o => s.enter p o) ({ s with mesh := lessAt s.mesh i p }.freeFlits p 1)

/-- The router discards a packet and Genhan logs it (R205). -/
def State.meshProto (s : State) (p : Packet) : State :=
  let s : State := { s with genhan := { s.genhan with notes := s.genhan.notes ++ [(0x000A, BitVec.ofNat 64 (p.row.toNat * 1024 + p.col.toNat))] } }
  (s.lose p.id).raiseEvent 0x000A none (leBytes 2 p.col.toNat ++ leBytes 2 p.row.toNat ++ [BitVec.ofNat 8 p.port.toNat])

/-- An output that a packet asks for leads over a failed link: the flits that it sends there are lost (R206, R232). -/
def State.intoDead (s : State) (p : Packet) : Bool := (s.asks p).any fun o => s.genhan.deadLinks.contains o.2.link

/-- One flit of the packet at index i moves when the packet is the first of its buffer and wins its output ports; a packet that a core, cox or companion
has taken stays for its arrival. The first flit of a packet that crosses a boundary under a link delay waits for its due count, which LINK_DELAY sets
(`delayed`: it is due). -/
def State.hop (s : State) (i : Nat) (p : Packet) (delayed : Bool) : State :=
  if p.out || !s.onAt p.at_.1 p.at_.2 || !firstInBuffer s.mesh i p then s
  else if !p.proper then s.meshProto p
  else if s.intoDead p then s.lose p.id
  else if (!delayed && s.delayedAt p) || !s.mayGo p || !s.wins i p then s
  else s.advance i p

/-! ### Injection (R203, R212 to R214, R217) -/

/-- The i-th packet that waits is the first of its virtual channel and class at its source (R210). -/
def State.firstAtSource (s : State) (i : Nat) (p : Packet) : Bool :=
  (s.waiting.take i).all fun q => decide (q.link ≠ p.link) || decide (q.lane ≠ p.lane)

/-- The next flit of a routed packet could enter the mesh: its source and its link work, the buffer of its input port holds a credit, and, for the first
one, its way is open and the coxes do not hold its injection (R207, R216, R217). -/
def State.mayEnter (s : State) (p : Packet) : Bool :=
  s.onAt p.at_.1 p.at_.2 && !s.genhan.deadLinks.contains p.link && s.hasRoom p p &&
    (decide (p.gone ≠ 0) || (s.wayOpen p && (p.control || !s.genhan.held)))

/-- The companions' end of a hull channel chooses as every output port does (R208, R212). -/
def State.winsEdge (s : State) (i : Nat) (p : Packet) : Bool :=
  decide (4 ≤ p.port.toNat) || decide (winner (SMap.get 0 s.rr (linkNo p.link))
    ((s.waiting.zipIdx.filter fun q => decide (q.1.link = p.link) && s.firstAtSource q.2 q.1 &&
      (match s.routed q.1 with
        | some r => s.mayEnter r
        | none => false)).map fun q => (q.2, q.1)) = some i)

/-- One flit of a routed packet enters the mesh from its source. -/
def State.comeIn (s : State) (i : Nat) (p : Packet) : State :=
  let n := linkNo p.link
  let k := clusterAtPos p.at_.1 p.at_.2
  let s := if p.port.toNat < 4 then s.count 5 (unitNum 3 k.die.val k.pcl.val 0) p.port.toNat 1 else s
  { s with
    waiting := lessAt s.waiting i p
    mesh := oneMore s.mesh (decide (p.gone = 0)) { p.arriving with gone := 0 }
    spent := SMap.set 0 s.spent p.buffer (SMap.get 0 s.spent p.buffer + 1)
    rr := if p.port.toNat < 4 then SMap.set 0 s.rr n (ptrAfter (SMap.get 0 s.rr n) p.lane) else s.rr }

/-! ### Answers for a part that cannot give them (R254, R373 step 3) -/

/-- What TARGET_OFFLINE answers of a packet: a record or tile segment, a remote write, a remote read or atomic. -/
def offlineAnswer (p : Packet) : Option Packet :=
  let h : BitVec 128 := p.hdr.setWidth 128
  match p.pkind.toNat with
  | 0 => some (packet 5 p.dst (hdrSrc h) ((ackBody 0 4 (scopeOf (hdrSrc h) p.dst) true).setWidth 256))
  | 2 => some { packet 5 p.dst (accSrc p.hdr) ((ackBody (accTag p.hdr) 4 (accScope p.hdr) false).setWidth 256) with txn := p.txn }
  | 3 =>
    let slots := if accOp p.hdr = 1 then (32 + accLength p.hdr + 63) / 64 else 1
    some { packet 4 p.dst (accSrc p.hdr) (replyBits (accPos p.hdr) (replyHeader (accEp p.hdr) slots)) []
      (replyInfo 0 (accTag p.hdr) 4 (accOp p.hdr) (accFA p.hdr)) with txn := p.txn }
  | _ => none

/-- A packet whose target takes no request any more is answered from a position, or, a reduction packet, discarded with its fault (R373). -/
def State.answerOffline (s : State) (a : Nat × Nat) (p : Packet) : State :=
  if p.pkind = 6 ∨ p.pkind = 7 then s.redOffline (p.hdr.setWidth 128)
  else match offlineAnswer p with
    | none => s
    | some q =>
      if q.dst.die = 31 then s.emitAt (s.sourceAt a (toComp q 3 0)) 4 (toComp q 3 0)
      else let r := s.toPackage q; r.1.emitAt (r.1.sourceAt a r.2) 4 r.2

/-- One flit of the i-th packet that waits is injected; one that names no mapped core is answered where it stands. The first flit of one under a link delay waits for its
due count (`delayed`: it is due). -/
def State.injectFlit (s : State) (i : Nat) (p : Packet) (delayed : Bool) : State :=
  if !s.firstAtSource i p || (!delayed && decide (p.gone = 0) && (p.wait.isSome || (s.entryDelay p).isSome)) then s
  else match s.routed p with
    | none => ({ s with waiting := s.waiting.eraseIdx i } : State).answerOffline p.at_ p
    | some q => if s.mayEnter q && s.winsEdge i p then s.comeIn i q else s

/-- PACKET_HOP: one flit of the packet at place i of the mesh moves on; places beyond those of the mesh are the packets that wait at their source. -/
def execPacketHop (i : Nat) (s : State) : Host.Outcome State Fault Refusal :=
  match s.mesh[i]? with
  | some p => .next (s.hop i p false)
  | none => match s.waiting[i - s.mesh.length]? with
    | some p => .next (s.injectFlit (i - s.mesh.length) p false)
    | none => .next s

/-! ### Failed links (R206, Table 7.12) -/

/-- The packet whose flit failed is lost: the first one, at a router that the link serves, that would leave through it. -/
def State.dropFailed (s : State) (l : Nat × Nat × Nat) : State :=
  match s.mesh.zipIdx.find? fun q => firstInBuffer s.mesh q.2 q.1 && (s.asks q.1).any fun o => decide (o.2.link = l) with
  | some q => s.lose q.1.id
  | none => s

/-- A link is used no more; a hull channel in neither direction. -/
def State.killLink (s : State) (a : Nat × Nat) (port : Nat) (hull : Bool) : State :=
  { s with genhan := { s.genhan with deadLinks := s.genhan.deadLinks ++ (if hull then [linkKey a port, linkInto a port] else [linkKey a port]) } }

/-- The flit that failed was sent again fifteen times before the link failed: MESH_RETRY of a hull channel or cluster boundary (R206, Table 15.6). -/
def State.countRetries (s : State) (a : Nat × Nat) (port : Nat) : State :=
  let k := clusterAtPos a.1 a.2
  if port < 4 ∧ (atEdge a port ∨ cellOf (beyond a port) ≠ cellOf a) then s.count 5 (unitNum 3 k.die.val k.pcl.val 0) port 4 15 else s

/-- A mesh link or hull channel fails: flits in it are lost, the link is used no more, and Genhan learns of it. Within a die the cluster of
the receiving router is a permanent suspect; a hull channel is excluded by detours, and the job stops. -/
def execMeshLinkFail (col row : BitVec 10) (port : Fin 5) (hull : Bool) (s : State) : Host.Outcome State Fault Refusal :=
  let a := (col.toNat, row.toNat)
  let b := if atEdge a port.val then a else beyond a port.val
  let k := clusterAtPos b.1 b.2
  let s := ((s.dropFailed (linkKey a port.val)).killLink a port.val hull).countRetries a port.val
  let s := if hull then s.hold else s
  let s := s.raiseEvent 0x000B none (leBytes 2 col.toNat ++ leBytes 2 row.toNat ++ [BitVec.ofNat 8 port.val, if hull then 1 else 0])
  let d := BitVec.ofNat 64 (port.val * 2 ^ 20 + row.toNat * 1024 + col.toNat)
  let f : Raised := { core := 0, slot := 0, code := fMeshLinkFail, detail := d, cls := if hull then 1 else 2 }
  .next { s with genhan := { s.genhan with reports := s.genhan.reports ++ [{ entry := faultEntry s k f }] } }

/-! ### Route tables (R216, R217) -/

/-- The places that a field of the route table or of the edge detour table leads to. -/
def State.editTargets (s : State) (e : RouteEdit) : List (Nat × Nat) :=
  let a := clusterCell e.at_
  if e.edge then
    ([(3, 0), (4, 0)] ++ (List.range 4).map (fun m => (1, m)) ++ (List.range 8).map fun l => (2, l)).filterMap fun (x : Nat × Nat) =>
      let c := edgeCore x.1 x.2 (a.1 * 8, a.2 * 8)
      if c.1 = e.index.toNat then some (c.2.1, c.2.2) else none
  else ((s.physical (e.index.toNat / 288) (BitVec.ofNat 9 (e.index.toNat % 288))).map fun k => ((clusterCell k).1 * 8, (clusterCell k).2 * 8)).toList

/-- Genhan sets no waypoint with a leg that enters a blocked area (R216). -/
def State.editOk (s : State) (e : RouteEdit) : Bool :=
  e.waypoint.isNone || (s.editTargets e).all fun b => s.routeClear ((clusterCell e.at_).1 * 8, (clusterCell e.at_).2 * 8) b e.waypoint

/-- Writes one waypoint field. -/
def State.applyEdit (s : State) (e : RouteEdit) : State :=
  if s.editOk e then
    s.modCluster e.at_ fun x =>
      if e.edge then { x with edge := SMap.set none x.edge e.index.toNat e.waypoint } else { x with wp := SMap.set none x.wp e.index.toNat e.waypoint }
  else s

end Sys2Proof.Machine
end

