-- ==== Sys2Proof/Machine/TensorUnit.lean ====
section
/-! DEFINITION. The TE operations of a word (Table 3.2, Table 4.3). Latencies: Table 3.6. -/

namespace Sys2Proof.Machine

/-- The TE operation of the word is done. -/
def Core.teDone (x : Core) : Core := { x with todo := { x.todo with te := false } }

/-- The 16 EAs are anchored at `e` in issue order (R40). -/
def Core.anchorEAs (x : Core) (e : BitVec 10) : Core := { x with teIss := some e }

/-- A closing of an operation (R35). -/
def Core.closeK (x : Core) : Core := { x with teOpen := false }

/-- An opening (R35). -/
def Core.openK (x : Core) : Core := { x with teOpen := true, teK := 0, teMx := false }

/-- TE.MMA issued in cycle t (R35, R40, R77 to R82). A dense BF16 operand, which R79 has read across both cycles, is taken whole as the
latches stand in t (R82; which bytes the second cycle takes is not said: DESIGN CHOICE, log entry 138). -/
def Core.mma (x : Core) (w : Word) (t : Nat) : Core :=
  match anchorOf (x.ax' (teAx w)) with
  | none => x
  | some an =>
    match pairKind an.fa an.fb with
    | none => x
    | some p =>
      let sparse := teSpa w || teSpb w
      let y := if teOvw w then x.openK.anchorEAs an.e else x
      let y := { y with teK := y.teK + BitVec.ofNat 5 (kcOf p sparse), teMx := y.teMx || an.fa.isMx || an.fb.isMx,
                        lastMma := some (t, mmaInterval p) }
      let y := y.push (y.eaDue (t + mmaLatency p sparse) 10) (.eaMma (teOvw w) an.e (mmaTerms x.latches x.sparseCtrl w p an))
      if sparse && p == .bf16 then y.push (t + 1) (.mmaUpper w x.latchA x.latchB x.metadata) else y

/-- TE.CVT (R46, R82, R83). -/
def Core.cvt (x : Core) (w : Word) (t : Nat) : Core :=
  match fmtOf (teArg w) with
  | none => x
  | some f => let r := x.cvtTile f; x.closeK.pushHeld (t + 3) (.teOut 0 r.1 r.2)

/-- TE.EASTORE (R48, R83). -/
def Core.eaStore (x : Core) (t : Nat) : Core :=
  let r := x.eaStoreBytes
  x.closeK.pushHeld (t + 2) (.teOut 0 r.1 r.2)

/-- TE.EALOAD (R77). -/
def Core.eaLoadOp (x : Core) (w : Word) (t : Nat) : Core :=
  match anchorOf (x.ax' (teAx w)) with
  | none => x
  | some an => (x.openK.anchorEAs an.e).push (x.eaDue (t + 2) 10) (.eaLoad an.e x.eaInVals)

/-- TE.EAADD (R77). -/
def Core.eaAddOp (x : Core) (t : Nat) : Core := x.push (x.eaDue (t + 3) 10) (.eaAdd x.eaInVals)

/-- TE.REANCHOR (R47). -/
def Core.reanchorOp (x : Core) (w : Word) (t : Nat) : Core :=
  match anchorOf (x.ax' (teAx w)) with
  | none => x
  | some an => (x.closeK.anchorEAs an.e).push (x.eaDue (t + 2) 10) (.eaReanchor an.e)

/-- A TE operation of a core's word. -/
def State.teUnit (s : State) (c : CoreAt) (op : Nat) (act : Core → Word → Nat → Core) : State :=
  s.unitOp c (·.te) (fun w => decide (teOp w = op)) fun _ x w t => (act x w t).teDone

def execTeMma (c : CoreAt) (s : State) : Host.Outcome State Fault Refusal := .next (s.teUnit c 1 Core.mma)
def execTeCvt (c : CoreAt) (s : State) : Host.Outcome State Fault Refusal := .next (s.teUnit c 2 Core.cvt)
def execTeEastore (c : CoreAt) (s : State) : Host.Outcome State Fault Refusal := .next (s.teUnit c 3 fun x _ t => x.eaStore t)
def execTeEaload (c : CoreAt) (s : State) : Host.Outcome State Fault Refusal := .next (s.teUnit c 4 Core.eaLoadOp)
def execTeEaadd (c : CoreAt) (s : State) : Host.Outcome State Fault Refusal := .next (s.teUnit c 5 fun x _ t => x.eaAddOp t)
def execTeReanchor (c : CoreAt) (s : State) : Host.Outcome State Fault Refusal := .next (s.teUnit c 6 Core.reanchorOp)

end Sys2Proof.Machine
end

