-- ==== Sys2Proof/Machine/VectorUnit.lean ====
section
/-! DEFINITION. The VE operations of a word (R84 to R88, R146 to R169). Latencies: Table 3.6. -/

namespace Sys2Proof.Machine

/-- The VE operation of the word is done. -/
def Core.veDone (x : Core) : Core := { x with todo := { x.todo with ve := false } }

/-- Register numbers of a word's VE fields. -/
def regD (w : Word) : Fin 32 := ⟨veD w % 32, by omega⟩
def mselOf (n : Nat) : Fin 4 := ⟨n % 4, by omega⟩

/-- A result for destination D. -/
def Core.toD (x : Core) (w : Word) (due : Nat) (n : Nat) (d : BitVec 512) (m : Option (Fin 4 × BitVec 16) := none)
    (f : BitVec 8 := 0) : Core := x.pushHeld due (.vreg (regD w) n d m f)

/-- A pipelined operation (R85, R86). -/
def Core.pipelinedOp (u : Nat → Option (BitVec 16)) (x : Core) (w : Word) (t : Nat) : Core :=
  let r := x.pipelined w u
  x.toD w (t + 9) 16 r.1 (r.2.1.map fun m => (mselOf (cfgMsel (x.cfgWord (veCfgN w))), m)) r.2.2

/-- VE.SUMX, and with `sq` VE.SQSUMX (R59, R87). -/
def Core.sumOp (sq : Bool) (x : Core) (w : Word) (t : Nat) : Core :=
  match anchorOf (x.ax' (veCfgN w)) with
  | none => x
  | some an =>
    (x.noteLanes ((List.range 16).map fun i => (i, some an.e))).push (x.eaDue (t + 10) 11)
      (.laneSum an.e (sumTerms sq (x.vreg (veX w)) an.e))

/-- VE.FOLD (R87). -/
def Core.foldOp (x : Core) (t : Nat) : Core :=
  (x.noteLanes ((List.range 16).map fun i => (i, if i = 0 then x.laneAnchors.head? else none))).push (x.eaDue (t + 6) 11) .laneFold

/-- VE.EAOUT (R87). -/
def Core.eaOutOp (x : Core) (w : Word) (t : Nat) : Core :=
  match fmtOf (veY w) with
  | none => x
  | some f => let r := x.eaOut f; x.toD w (t + 4) 16 r.1 none r.2

/-- VE.EALOAD (R87). -/
def Core.laneLoadOp (x : Core) (w : Word) (t : Nat) : Core :=
  match anchorOf (x.ax' (veCfgN w)) with
  | none => x
  | some an => (x.noteLanes [(0, some an.e)]).push (x.eaDue (t + 2) 11) (.laneLoad an.e ((x.vreg (veX w)).extractLsb' 0 80))

/-- VE.EASTORE (R48, R87). -/
def Core.laneStoreOp (x : Core) (w : Word) (t : Nat) : Core :=
  let l := x.laneEA 0
  x.toD w (t + 2) 16 (if l.anchored then l.ea.a.setWidth 512 else 0) none (flagIf (l.anchored && l.ea.ovf) flEaOvf)

/-- VE.STATUS (R54, R87). -/
def Core.statusOp (x : Core) (w : Word) (t : Nat) : Core :=
  (x.toD w (t + 2) 16 (x.numStatus.setWidth 512)).push (t + 2) (.statusClear ((x.kreg (veCfgN w % 16)).extractLsb' 0 8))

/-- VE.PRUNE (R147, R148). -/
def Core.pruneOp (x : Core) (w : Word) (t : Nat) : Core :=
  let r := prune (decide (16 ≤ veCfgN w)) (x.vreg (veX w))
  ({ x with lastPrune := some t } : Core).toD w (t + 14) 16 r.2 (some (mselOf (veCfgN w / 4), r.1))

/-- VE.COMPRESS (R150 to R152): the excess is counted, and traps, with D written. -/
def Core.compressOp (u : Nat → Option (BitVec 16)) (x : Core) (w : Word) (t : Nat) : Core :=
  let r := compress (veCfgN w / 8) (veY w) (x.vreg (veX w)) u
  let d : Effect := .vreg (regD w) 16 r.1 none r.2.2
  let e : Effect := .excess r.2.1 (excessTrap x)
  let due := x.hold (t + 6) d.targets
  (x.push due d).push (x.hold due e.targets) e

/-- What SELECT does with S (R163 to R165): D lanes 0 to 2, M[MSEL], PSEL_S and PSEL_U. -/
def Core.selectWrite (x : Core) (w : Word) (t : Nat) (seed : BitVec 64) (step : BitVec 48) (sel : BitVec 16) : Core :=
  let z := x.vreg (veZ w)
  let u := auditSet seed (auditRate x) (laneOf z 2) (laneOf z 3) step sel
  let c := sel ||| u
  (x.toD w (t + 8) 3 (ofLanes [c.setWidth 32, sel.setWidth 32, u.setWidth 32]) (some (mselOf (veCfgN w), c))).push (t + 8) (.psel sel u)

/-- VERDICT (R166). -/
def Core.verdictOp (x : Core) (w : Word) (t : Nat) : Core :=
  let z := x.vreg (veZ w)
  let r := x.verdict (x.vreg (veX w)) (laneOf z 0)
  (x.toD w (t + 8) 1 (ofLanes [placeRow (laneOf (x.vreg (veY w)) 0) (laneOf z 1).toNat r.1]) (some (mselOf (veCfgN w), r.1))).push (t + 8)
    (.audit r.2.1 r.2.2)

/-- COUNTS (R163, R167). -/
def Core.countsOp (x : Core) (w : Word) (t : Nat) : Core :=
  (x.toD w (t + 8) 6 x.countsWord).push (t + 8) .clearCounts

/-- RATE (R163, R167). -/
def Core.rateOp (x : Core) (w : Word) (t : Nat) : Core :=
  let v := x.vreg (veX w)
  let hit := rateExceeded (lane64 v 0) (lane64 v 1) (laneOf (x.vreg (veZ w)) 0)
  let y := x.pushHeld (t + 8) (.maskOnly (mselOf (veCfgN w)) (if hit then 1 else 0))
  if hit then y.push (t + 8) (.missRate (lane64 v 0) (lane64 v 1)) else y

/-- QUANT4 (R161). -/
def Core.quantOp (x : Core) (w : Word) (t : Nat) : Core :=
  x.toD w (t + 8) 16 (BitVec.ofNat 512 (packBits 4 ((lanes (x.vreg (veX w))).map fun v => quant4 v (laneOf (x.vreg (veZ w)) 0))))

/-- A VE operation of a core's word. -/
def State.veUnit (s : State) (c : CoreAt) (op : Nat) (act : State → Core → Word → Nat → Core) : State :=
  s.unitOp c (·.ve) (fun w => decide (veOp w = op)) fun s x w t => (act s x w t).veDone

/-- A mode of VE.PSELECT (Table 5.9). -/
def State.pselUnit (s : State) (c : CoreAt) (mode : Nat) (act : State → Core → Word → Nat → Core) : State :=
  s.unitOp c (·.ve) (fun w => decide (veOp w = 0xA) && decide (veCfgN w / 4 = mode)) fun s x w t => (act s x w t).veDone

/-- The seed of the job and the step index of a core's cluster (R165, R195). -/
def State.stepOf (s : State) (c : CoreAt) : BitVec 48 := (s.cluster (clusterOf c)).step

/-- The tensors of the loaded image whose conversions round stochastically: SR of their settings entries (Table 15.3). -/
def State.srTensors (s : State) : List (BitVec 32) :=
  match (imageRecs s.job.image).1.find? fun r => decide (r.typ = 1) with
  | none => []
  | some r => ((List.range (identCounts r).1).filter fun i => decide (bitsOf (settingAt r i) 101 101 = 1)).map fun i =>
      BitVec.ofNat 32 (bitsOf (settingAt r i) 255 224)

/-- The number of a logical core name. -/
def lcoreNumber (l : LCore) : Nat := ((l.pkg.toNat * 32 + l.die.toNat) * 512 + l.cl.toNat) * 64 + l.core.toNat

/-- The row-major index of an element in a tensor's logical shape (R407). -/
def rowMajor (shape coords : List Nat) : Nat := (shape.zip coords).foldl (fun i p => i * p.1 + p.2) 0

/-- The random bits of a lane of a conversion in the present cycle of a core, where it rounds stochastically into the tensor that it writes (R63, R406,
R407). -/
def State.rounding (s : State) (c : CoreAt) (lane : Nat) : Option (BitVec 16) :=
  match Config.roundsInto s.imageId (lcoreNumber (s.lcore c)) (s.now c) lane with
  | none => none
  | some (t, shape, coords) => if s.srTensors.contains t then some (roundingBits s.job.seed t (s.stepOf c) (rowMajor shape coords)) else none

def execVePipelined (c : CoreAt) (s : State) : Host.Outcome State Fault Refusal :=
  .next (s.veUnit c 1 fun s => Core.pipelinedOp (s.rounding c))
def execVeSumx (c : CoreAt) (s : State) : Host.Outcome State Fault Refusal := .next (s.veUnit c 2 fun _ => Core.sumOp false)
def execVeSqsumx (c : CoreAt) (s : State) : Host.Outcome State Fault Refusal := .next (s.veUnit c 3 fun _ => Core.sumOp true)
def execVeFold (c : CoreAt) (s : State) : Host.Outcome State Fault Refusal := .next (s.veUnit c 4 fun _ x _ t => x.foldOp t)
def execVeEaout (c : CoreAt) (s : State) : Host.Outcome State Fault Refusal := .next (s.veUnit c 5 fun _ => Core.eaOutOp)
def execVeEaload (c : CoreAt) (s : State) : Host.Outcome State Fault Refusal := .next (s.veUnit c 6 fun _ => Core.laneLoadOp)
def execVeEastore (c : CoreAt) (s : State) : Host.Outcome State Fault Refusal := .next (s.veUnit c 7 fun _ => Core.laneStoreOp)
def execVeStatus (c : CoreAt) (s : State) : Host.Outcome State Fault Refusal := .next (s.veUnit c 0xB fun _ => Core.statusOp)
def execVePrune (c : CoreAt) (s : State) : Host.Outcome State Fault Refusal := .next (s.veUnit c 8 fun _ => Core.pruneOp)
def execVeCompress (c : CoreAt) (s : State) : Host.Outcome State Fault Refusal := .next (s.veUnit c 9 fun s => Core.compressOp (s.rounding c))

/-- SELECT by threshold (R164). -/
def execPselThreshold (c : CoreAt) (s : State) : Host.Outcome State Fault Refusal :=
  .next (s.pselUnit c 0 fun s x w t =>
    x.selectWrite w t s.job.seed (s.stepOf c) (selectThreshold (x.vreg (veX w)) (laneOf (x.vreg (veZ w)) 0)))

/-- SELECT by top-k (R164). -/
def execPselTopK (c : CoreAt) (s : State) : Host.Outcome State Fault Refusal :=
  .next (s.pselUnit c 1 fun s x w t =>
    x.selectWrite w t s.job.seed (s.stepOf c) (selectTopK (x.vreg (veX w)) (laneOf (x.vreg (veZ w)) 1)))

def execPselVerdict (c : CoreAt) (s : State) : Host.Outcome State Fault Refusal := .next (s.pselUnit c 2 fun _ => Core.verdictOp)
def execPselCounts (c : CoreAt) (s : State) : Host.Outcome State Fault Refusal := .next (s.pselUnit c 3 fun _ => Core.countsOp)
def execPselRate (c : CoreAt) (s : State) : Host.Outcome State Fault Refusal := .next (s.pselUnit c 4 fun _ => Core.rateOp)
def execPselQuant4 (c : CoreAt) (s : State) : Host.Outcome State Fault Refusal := .next (s.pselUnit c 5 fun _ => Core.quantOp)

end Sys2Proof.Machine
end

