-- ==== Sys2Proof/Machine/Diag.lean ====
section
/-! DEFINITION. The test network (R101, R102, Table 3.10): the address of a tile, what Genhan writes, issues and reads there in diagnostic fabric
mode. Which operations a test consists of is in the firmware (R346); the commands of a test bring them. -/

namespace Sys2Proof.Machine

/-! ### Addresses (R102) -/

/-- The test-network address of a tile. -/
def tileAddr (c : CoreAt) (kind : Fin 4) : BitVec 22 :=
  BitVec.ofNat 5 c.die.val ++ BitVec.ofNat 9 c.pcl.val ++ BitVec.ofNat 6 c.core.val ++ BitVec.ofNat 2 kind.val

/-- The tile that an address names. -/
def tileOf (a : BitVec 22) : Option (CoreAt × Fin 4) :=
  let die := bitsOf a.toNat 21 17
  let pcl := bitsOf a.toNat 16 8
  if h : die < 24 ∧ pcl < 288 then
    some (⟨⟨die, h.1⟩, ⟨pcl, h.2⟩, ⟨bitsOf a.toNat 7 2 % 64, Nat.mod_lt _ (by decide)⟩⟩, ⟨bitsOf a.toNat 1 0 % 4, Nat.mod_lt _ (by decide)⟩)
  else none

def TileFail.coreAt (f : TileFail) : CoreAt := coreIn f.at_ f.core

/-! ### Registers of a tile (Table 3.10) -/

/-- The kind of tile that holds a part. -/
def tileKind : TileReg → Fin 4
  | .latchA | .latchB | .metadata | .scaleA | .scaleB | .eaIn | .teOut | .anchor _ | .ea _ => 0
  | .vreg _ | .kreg _ | .mreg _ | .veCfg _ | .lane _ | .numStatus => 1
  | .granule _ | .descriptor _ | .syndromes | .spadCe | .draocGen | .draocChk => 2
  | .ptOut _ | .ptIn _ | .sendEp _ | .recvEp _ => 3

/-- The words of a scratchpad in error, one bit for each word that any error names, as the syndromes tell them apart (R73, R74). -/
def Core.errorWords (x : Core) : Nat := x.ecc.foldl (fun n p => if p.2.isSome then n ||| 2 ^ (p.1 % 1280) else n) 0

/-- What Genhan reads of a part. -/
def State.tileRead (s : State) (c : CoreAt) (r : TileReg) : BitVec 1280 :=
  let x := s.core c
  match r with
  | .latchA => x.latchA.setWidth 1280
  | .latchB => x.latchB.setWidth 1280
  | .metadata => x.metadata.setWidth 1280
  | .scaleA => x.scaleA.setWidth 1280
  | .scaleB => x.scaleB.setWidth 1280
  | .eaIn => x.eaIn
  | .teOut => x.teOut
  | .anchor n => (SMap.get 0 x.ax n.val).setWidth 1280
  | .ea n => BitVec.ofNat 1280 (SMap.get {} x.ea n.val).packed
  | .vreg v => (x.vreg v.val).setWidth 1280
  | .kreg k => (x.kreg k.val).setWidth 1280
  | .mreg m => (x.mreg m.val).setWidth 1280
  | .veCfg n => (SMap.get 0 x.veCfg n.val).setWidth 1280
  | .lane n => BitVec.ofNat 1280 (x.laneEA n.val).ea.packed
  | .numStatus => x.numStatus.setWidth 1280
  | .granule n => BitVec.ofNat 1280 (leNat (x.read (32 * n.val) 32))
  | .descriptor n => (SMap.get 0 x.agd n.val).setWidth 1280
  | .syndromes => BitVec.ofNat 1280 x.errorWords
  | .spadCe => BitVec.ofNat 1280 (s.counter 1 (coreUnit c) 0 4)
  | .draocGen => x.draocGen.setWidth 1280
  | .draocChk => x.draocChk.setWidth 1280
  | .ptOut o => (SMap.get 0 x.ptOut o.val).setWidth 1280
  | .ptIn o => (SMap.get 0 x.ptIn o.val).setWidth 1280
  | .sendEp n => (SMap.get {} x.se n.val).entry.setWidth 1280
  | .recvEp n => (SMap.get {} x.re n.val).entry.setWidth 1280

/-- What Genhan writes: latches and anchor registers; registers and configuration words; scratchpad and descriptors; pass-through registers and
endpoints. A part that Table 3.10 lets it only read stays. -/
def Core.tileWrite (x : Core) (r : TileReg) (v : BitVec 1280) : Core :=
  match r with
  | .latchA => { x with latchA := v.setWidth 512 }
  | .latchB => { x with latchB := v.setWidth 512 }
  | .metadata => { x with metadata := v.setWidth 128 }
  | .scaleA => { x with scaleA := v.setWidth 32 }
  | .scaleB => { x with scaleB := v.setWidth 32 }
  | .eaIn => { x with eaIn := v }
  | .anchor n => { x with ax := SMap.set 0 x.ax n.val (v.setWidth 32) }
  | .vreg r => { x with v := SMap.set 0 x.v r.val (v.setWidth 512) }
  | .kreg r => { x with k := SMap.set 0 x.k r.val (v.setWidth 32) }
  | .mreg r => { x with m := SMap.set 0 x.m r.val (v.setWidth 16) }
  | .veCfg n => { x with veCfg := SMap.set 0 x.veCfg n.val (v.setWidth 64) }
  | .granule n => x.write (32 * n.val) (leBytes 32 v.toNat)
  | .descriptor n => { x with agd := SMap.set 0 x.agd n.val (v.setWidth 256) }
  | .ptOut o => { x with ptOut := SMap.set 0 x.ptOut o.val (v.setWidth 256) }
  | .ptIn o => { x with ptIn := SMap.set 0 x.ptIn o.val (v.setWidth 256) }
  | .sendEp n => { x with se := SMap.set {} x.se n.val { entry := v.setWidth 128 } }
  | .recvEp n => { x with re := SMap.set {} x.re n.val { entry := v.setWidth 128 } }
  | .ea _ | .teOut | .lane _ | .numStatus | .syndromes | .spadCe | .draocGen | .draocChk => x

/-! ### Operations of a tile -/

/-- The TE operation of a word. -/
def Core.teOf (x : Core) (w : Word) (t : Nat) : Core :=
  match teOp w with
  | 1 => x.mma w t
  | 2 => x.cvt w t
  | 3 => x.eaStore t
  | 4 => x.eaLoadOp w t
  | 5 => x.eaAddOp t
  | 6 => x.reanchorOp w t
  | _ => x

/-- The VE operation of a word; `seed` and `step` are those of an audit (R165). -/
def Core.veOf (x : Core) (w : Word) (t : Nat) (seed : BitVec 64) (step : BitVec 48) : Core :=
  match veOp w with
  | 1 => x.pipelinedOp (fun _ => none) w t
  | 2 => Core.sumOp false x w t
  | 3 => Core.sumOp true x w t
  | 4 => x.foldOp t
  | 5 => x.eaOutOp w t
  | 6 => x.laneLoadOp w t
  | 7 => x.laneStoreOp w t
  | 8 => x.pruneOp w t
  | 9 => Core.compressOp (fun _ => none) x w t
  | 0xA => match veCfgN w / 4 with
    | 0 => x.selectWrite w t seed step (selectThreshold (x.vreg (veX w)) (laneOf (x.vreg (veZ w)) 0))
    | 1 => x.selectWrite w t seed step (selectTopK (x.vreg (veX w)) (laneOf (x.vreg (veZ w)) 1))
    | 2 => x.verdictOp w t
    | 3 => x.countsOp w t
    | 4 => x.rateOp w t
    | _ => x.quantOp w t
  | 0xB => x.statusOp w t
  | _ => x

/-- The AG operations of a word, or its local atomic. -/
def Core.meOf (x : Core) (w : Word) (t : Nat) : Core :=
  let ag (g : Fin 2) (x : Core) : Core :=
    match agOp w g with
    | 1 => Core.agReadOp g x w t
    | 2 => Core.agWriteOp g x w t
    | 3 => x.agReset g (agDesc w g)
    | _ => x
  if localAtomic w then x.localAtomicOp w t else ag 1 (ag 0 x)

/-- One cycle of a core's pipelines, with the soft errors that its reads correct. -/
def State.dryCycle (s : State) (c : CoreAt) (t : Nat) : State :=
  let r := (s.core c).landCore c.core t
  let s := s.putCore c (r.core.transposeChecks c.core).1
  s.countSoft c r.soft

/-- The pipelines of a core run dry: every effect lands in its cycle, with the arithmetic of normal operation (R102). -/
def State.runDry (s : State) (c : CoreAt) (t : Nat) : State := (List.range 24).foldl (fun s i => s.dryCycle c (t + i)) s

/-- The fabric side of a core performs what stands in its queues. -/
def State.fabricDry (fuel : Nat) (s : State) (c : CoreAt) : State :=
  match fuel with
  | 0 => s
  | n + 1 => match (s.core c).generating, (s.core c).heads with
    | g :: _, _ => (s.codeReady c g.2).fabricDry n c
    | [], h :: _ => (s.fabricStep c h.1 h.2).fabricDry n c
    | [], [] => s

/-- The channel operation of a word at an I/O tile (R102): a record, a tile or a demand leaves on an endpoint, records are waited for and released, a
connection is opened or closed. The cluster takes part in no catch, and in no reduction (R101). -/
def State.ceOf (s : State) (c : CoreAt) (w : Word) : State :=
  let e := (s.core c).sendEp (ceEp w)
  match ceOp w with
  | 1 | 2 =>
    if e.readStream then s.demandOp c w
    else if e.type = 0 then s.sendBytes c w
    else (s.modCore c fun x => { x with hdrRead := some (x.read (e.frameAt (ceArg w)) 64) }).sendTile c w
  | 3 => s.recvOp c w
  | 4 => s.releaseRecs c (ceEp w) (ceArg w + 1)
  | 5 => if ceArg w < 128 then s.requestOp 0 c w else s
  | 6 => s.requestOp 1 c w
  | 7 => if ceArg w < 128 then s.requestOp 2 c w else s
  | 13 => s.openOp c w
  | 14 => s.closeOp c w
  | _ => s

/-- A pass-through hop of a word at an I/O tile, to the neighbour's inbound register (R97). -/
def State.hopOf (s : State) (c : CoreAt) (w : Word) (t : Nat) (o : Fin 16) : State :=
  if !(ptEn w).getLsbD o.val then s
  else
    let x := s.core c
    let d := SMap.get 0 x.ptIn (ptSource (x.ptEntry o.val))
    let s := (s.putCore c { x with ptOut := SMap.set 0 x.ptOut o.val d }).toNeighbour c o d t
    match neighbour c.core (o.val / 4) with
    | none => s
    | some n => s.dryCycle (coreIn (clusterOf c) n) t

/-- An issue word at one tile: the operations that belong to its units. -/
def State.tileIssue (s : State) (c : CoreAt) (kind : Fin 4) (w : Word) : State :=
  let t := s.now c
  match kind.val with
  | 0 => (s.modCore c fun x => x.teOf w t).runDry c t
  | 1 => (s.modCore c fun x => x.veOf w t s.job.seed (s.stepOf c)).runDry c t
  | 2 => (s.modCore c fun x => x.meOf w t).runDry c t
  | _ => (((List.finRange 16).foldl (fun s o => s.hopOf c w t o) (s.ceOf c w)).runDry c t).fabricDry 4096 c

/-- A run of the Draoc generator over a block, and of the checker over what it gave (R95). -/
def Core.draocRun (x : Core) (block : Bytes) : Core := { x with draocGen := partialCode block, draocChk := partialCode block }

/-- Genhan's record of what it read at a tile. -/
def State.noteTile (s : State) (a : BitVec 22) (v : BitVec 1280) : State :=
  { s with genhan := { s.genhan with tileOut := s.genhan.tileOut ++ [(a, v)] } }

/-- Flits put into the buffer of a router port: 0 north, 1 east, 2 south, 3 west, 4 local. -/
def State.tileInject (s : State) (c : CoreAt) (port : Fin 5) (p : Packet) : State :=
  let a := corePos c
  let q := { p.arriving with col := BitVec.ofNat 10 a.1, row := BitVec.ofNat 10 a.2, port := BitVec.ofNat 3 port.val, id := s.emitted }
  { s with
    mesh := s.mesh ++ [{ q with come := q.flits }]
    spent := SMap.set 0 s.spent q.buffer (SMap.get 0 s.spent q.buffer + q.flits)
    emitted := s.emitted + 1 }

/-- The oldest flit in the buffer of a router port is captured. -/
def State.tileCapture (s : State) (a : BitVec 22) (c : CoreAt) (port : Fin 5) : State :=
  match s.mesh.zipIdx.find? fun q => decide (q.1.at_ = corePos c) && decide (q.1.port.toNat = port.val) && decide (q.1.gone < q.1.come) with
  | none => s
  | some q => (({ s with mesh := lessAt s.mesh q.2 q.1 }).freeFlits q.1 1).noteTile a
      (BitVec.ofNat 1280 (leNat ((cutFlits q.1 q.1.route).getD q.1.gone [])))

/-- One operation on the test network, at a tile of a cluster in diagnostic fabric mode (R101, R102). -/
def State.tileDo (s : State) (a : BitVec 22) (o : TileOp) : State :=
  match tileOf a with
  | none => s
  | some (c, kind) =>
    let k := clusterOf c
    if !(s.cluster k).diag then s
    else match o with
      | .write r v => if tileKind r = kind then s.modCore c fun x => x.tileWrite r v else s
      | .read r => if tileKind r = kind then s.noteTile a (s.tileRead c r) else s
      | .issue w => s.tileIssue c kind w
      | .draoc b => if kind = 2 then s.modCore c fun x => x.draocRun b else s
      | .inject port p => if kind = 3 then s.tileInject c port p else s
      | .capture port => if kind = 3 then s.tileCapture a c port else s

/-- The operations of a test, in order. -/
def State.tileRun (s : State) (l : List (BitVec 22 × TileOp)) : State := l.foldl (fun s o => s.tileDo o.1 o.2) s

/-- The diagnostic report of a failing tile (R104). -/
def State.noteDiag (s : State) (f : TileFail) : State := { s with genhan := { s.genhan with diags := s.genhan.diags ++ [f] } }

end Sys2Proof.Machine
end

