-- ==== Sys2Proof/Machine/Ports.lean ====
section
/-! DEFINITION. Vevas ports: states, frames, what leaves a port, and what the loss of a path brings (R278 to R285, R288 to R295, R302). -/

namespace Sys2Proof.Machine

def State.port (s : State) (i : Nat) : Port := SMap.get {} s.ports i
def State.putPort (s : State) (i : Nat) (p : Port) : State := { s with ports := SMap.set {} s.ports i p }
def State.modPort (s : State) (i : Nat) (f : Port → Port) : State := s.putPort i (f (s.port i))

/-- Codes of the states (Table 10.8) and of the reasons (R295, from 1). -/
def portCode : PortState → Nat
  | .disabled => 0
  | .down => 1
  | .held => 2
  | .training => 3
  | .retrain => 4
  | .up => 5
  | .upNarrow => 6

def rNoPeer : Nat := 1
def rOpenLanes : Nat := 2
def rLaneOrder : Nat := 3
def rEqFail : Nat := 4
def rBerFail : Nat := 5
def rLockFail : Nat := 6
def rIdTimeout : Nat := 7
def rRetrainFail : Nat := 8
def rMiswire : Nat := 9
def rNarrow : Nat := 10

/-- The port carries traffic (Table 10.8). -/
def Port.carries (p : Port) : Bool := decide (p.state = .up) || decide (p.state = .upNarrow)
/-- Traffic may be sent to the port, be it to wait for a retrain (R284, R288). A port whose peer said OFFLINE takes none (R302). -/
def Port.usable (p : Port) : Bool := (p.carries || decide (p.state = .retrain)) && p.offline.isNone

/-- The port entry of the cascade configuration (Table 16.10); 0x0400_0000 where none is stored. -/
def State.portEntry (s : State) (i : Nat) : BitVec 32 := SMap.get 0x04000000 s.expect i
def State.dateline (s : State) (i : Nat) : Bool := (s.portEntry i).getLsbD 30

/-- Unit number and SUB of a port's counters (Table 15.6, group 6). -/
def State.countPort (s : State) (i n : Nat) (by_ : Nat := 1) : State := s.count 6 (unitNum 5 (i / 8) 0 0) i n by_

/-- The counter of a non-starter enters ACQUIRE when its time parent port first carries (R348). -/
def State.parentUp (s : State) (i : Nat) (st : PortState) : State :=
  let t := s.time
  if (st = .up ∨ st = .upNarrow) ∧ t.state = .starter ∧ !t.starterBit ∧ t.parentPort = some i then { s with time := { t with state := .acquire } } else s

/-- A port enters a state: after host-ready the change is an event (R295, R348). -/
def State.setPortState (s : State) (i : Nat) (st : PortState) (reason width : Nat) : State :=
  let p := s.port i
  let s := (s.putPort i { p with state := st, reason := BitVec.ofNat 4 reason, width := BitVec.ofNat 4 width }).parentUp i st
  if p.state = st ∨ !s.boot.hostReady then s
  else s.raiseEvent 0x0005 none ([BitVec.ofNat 8 i, BitVec.ofNat 8 (portCode st), BitVec.ofNat 8 reason, BitVec.ofNat 8 width] ++
    leBytes 8 p.peerSerial.toNat ++ leBytes 2 p.peerPkg.toNat ++ [p.peerPort.setWidth 8])

/-! ### Frames (R280, R281, R286) -/

def kData : Nat := 1
def kIdle : Nat := 2
def kLink : Nat := 3

/-- The 336 bytes of a frame but for ACK and credits: up to five slots with their classes. -/
def frameBody (kind : Nat) (seq : BitVec 12) (slots : List (Nat × Bytes)) : Bytes :=
  let used := slots.length
  let classes := (slots.zipIdx.map fun (x : (Nat × Bytes) × Nat) => x.1.1 * 8 ^ x.2).sum
  let h := kind * 2 ^ 124 + seq.toNat * 2 ^ 112 + (2 ^ used - 1) * 2 ^ 93 + (if kind = kData then classes * 2 ^ 78 else 0)
  leBytes 16 h ++ ((slots.flatMap fun (x : Nat × Bytes) => (x.2 ++ List.replicate 64 (0 : Byte)).take 64) ++ List.replicate 320 0).take 320

/-- Credits of up to 255 flits of each class of one buffer set (R285); set 0 first. -/
def Port.creditSet (p : Port) : Nat := if (List.range 5).any (fun c => decide (SMap.get 0 p.freed c ≠ 0)) then 0 else 1
def Port.creditOf (p : Port) (c : Nat) : Nat := min 255 (SMap.get 0 p.freed (8 * p.creditSet + c))

/-- A body with ACK, NAK and credits, and the CRC-64 behind it. -/
def Port.frameBytes (p : Port) (nak : Bool) (body : Bytes) : Bytes :=
  let credits := ((List.range 5).map fun c => p.creditOf c * 2 ^ (8 * c)).sum
  let h := leNat (body.take 16) + (if p.rxAny then (p.rxExp - 1).toNat * 2 ^ 100 + 2 ^ 99 else 0) + (if nak then 2 ^ 98 else 0) + credits * 2 ^ 38 +
    p.creditSet * 2 ^ 37
  let b := leBytes 16 h ++ body.drop 16
  b ++ leBytes 8 (crc64 b).toNat

/-- A frame leaves the port with what the port has to acknowledge. -/
def State.sendFrame (s : State) (i : Nat) (body : Bytes) (nak : Bool := false) : State :=
  let p := s.port i
  let freed := (List.range 5).foldl (fun m c => SMap.set 0 m (8 * p.creditSet + c) (SMap.get 0 m (8 * p.creditSet + c) - p.creditOf c)) p.freed
  let s := s.putPort i { p with freed := freed, txFrames := p.txFrames + 1 }
  if h : i < 64 then s.emit (.frame ⟨i, h⟩ (p.frameBytes nak body)) else s

/-- An IDLE frame. -/
def State.sendIdle (s : State) (i : Nat) (nak : Bool := false) : State := s.sendFrame i (frameBody kIdle 0 []) nak

/-- A LINK frame with one message. -/
def State.sendLink (s : State) (i : Nat) (msg : Bytes) : State := s.sendFrame i (frameBody kLink 0 [(0, msg)])

/-- An 80-bit stamp of the counter as it stands (R289). -/
def State.stamp (s : State) : BitVec 80 := s.time.sc ++ s.time.frac

/-- Every unacknowledged frame goes out again (R287), which begins a replay at the ACK before the oldest; the eighth replay without progress of the
oldest starts a retrain. -/
def State.replayAll (s : State) (i : Nat) : State :=
  let p := s.port i
  if p.replay.isEmpty then s
  else
  let s := p.replay.foldl (fun s f => s.sendFrame i f.2) s
  (s.countPort i 2 p.replay.length).modPort i fun q => { q with
    replays := q.replays + 1
    naked := match p.replay.head? with
      | some f => some (f.1 - 1)
      | none => q.naked }

/-- A retrain begins in service: the peer is told, and traffic waits (R288). -/
def State.beginRetrain (s : State) (i : Nat) : State :=
  if (s.port i).carries then (s.sendLink i [4]).setPortState i .retrain 0 0 else s

def State.replayOrRetrain (s : State) (i : Nat) : State :=
  let s := s.replayAll i
  if 8 ≤ (s.port i).replays then s.beginRetrain i else s

/-! ### Flits of a packet (R281, R282, Table 10.3) -/

/-- Buffer class of a kind (R285): Control, Reduce, Bulk request, Bulk response, Management. -/
def linkClass (k : Nat) : Nat :=
  match kindVc k with
  | (0, _) => 0
  | (1, _) => 1
  | (2, 0) => 2
  | (2, _) => 3
  | _ => 4

/-- DST_UNIT: a CLOSE goes to the link die that holds the entry, a stop or relaunch message to Genhan (Table 10.3, Table 10.4). -/
def dstUnit (p : Packet) : Nat :=
  if p.pkind = 9 ∧ bitsOf p.hdr.toNat 255 252 = 3 then 1 else if p.pkind = 8 ∧ 2 ≤ bitsOf p.hdr.toNat 4 0 then 2 else 0

def flitCount (p : Packet) : Nat := (16 + bodyLen p + 63) / 64

/-- The crossing header (Table 10.3). -/
def crossHeader (p : Packet) : BitVec 128 :=
  let vc := kindVc p.pkind.toNat
  let u := dstUnit p
  p.dst.pkg ++ p.src.pkg ++ p.dst.die ++ p.dst.cl ++ p.dst.core ++ BitVec.ofNat 2 u ++ (if u = 1 then ccTgtLink p.hdr else 0) ++ BitVec.ofNat 2 vc.1 ++
    BitVec.ofNat 1 vc.2 ++ p.pkind ++ BitVec.ofNat 7 (flitCount p - 1) ++ p.hops ++ (if p.dl then (1 : BitVec 1) else 0) ++ p.src.die ++ p.src.cl ++
    p.src.core ++ (0 : BitVec 40)

/-- The bytes of a packet on a link, cut into flits of 64. -/
def packetFlits (p : Packet) : List Bytes := cutFlits p (crossHeader p)

/-- A flit that leaves: its class, its bytes, and with the last flit of a packet the packet. -/
abbrev OutFlit := Nat × Bytes × Option Packet

def outFlits (p : Packet) : List OutFlit :=
  let fl := packetFlits p
  fl.zipIdx.map fun x => (linkClass p.pkind.toNat, x.1, if x.2 + 1 = fl.length then some p else none)

/-- The flit for the next slot (R281): Control before any other class, the others in turn after the pointer. -/
def nextFlit (ptr : Nat) (l : List OutFlit) : Option OutFlit :=
  match l.find? fun f => decide (f.1 = 0) with
  | some f => some f
  | none => (List.range 4).findSome? fun i => l.find? fun f => decide (f.1 = 1 + (ptr + i) % 4)

/-- Up to `n` slots of a frame from the flits that wait: the slots, the pointer after them, and the flits left. -/
def fillSlots (n ptr : Nat) (l : List OutFlit) : List OutFlit × Nat × List OutFlit :=
  match n with
  | 0 => ([], ptr, l)
  | n + 1 => match nextFlit ptr l with
    | none => ([], ptr, l)
    | some f =>
      let r := fillSlots n (ptrAfter ptr f.1) (l.erase f)
      (f :: r.1, r.2)

/-- Flits leave through a port in DATA frames, which stay in the replay buffer (R281, R287). -/
def State.sendFlits (fuel : Nat) (s : State) (i : Nat) (l : List OutFlit) : State :=
  match fuel with
  | 0 => s
  | n + 1 =>
    if l.isEmpty then s
    else
      let q := s.port i
      let r := fillSlots 5 q.txRr l
      let body := frameBody kData q.txSeq (r.1.map fun f => (f.1, f.2.1))
      let s := s.putPort i { q with
        txRr := r.2.1, txSeq := q.txSeq + 1, replay := q.replay ++ [(q.txSeq, body)]
        unacked := q.unacked ++ (r.1.filterMap (·.2.2)).map fun p => (q.txSeq, p) }
      State.sendFlits n ((s.sendFrame i body).countPort i 0) i r.2.2

/-- A packet as it crosses a port (R284, R285). -/
def crossing (p : Packet) (dateline : Bool) : Packet := { p with hops := p.hops + 1, dl := p.dl || dateline, route := 0, wait := none }

/-- The credits that a packet needs, at 8·set + class. -/
def creditClass (p : Packet) : Nat := 8 * (if p.dl then 1 else 0) + linkClass p.pkind.toNat

/-- The next packet that waits goes with the flits that leave, where no earlier one of its class and set stays, the receiver has credits for it,
and the replay buffer has room (R281, R285, R287); otherwise it stays. -/
def Port.admitOne (dateline : Bool) (x : Port × List OutFlit) (p : Packet) : Port × List OutFlit :=
  let o := crossing p dateline
  let key := creditClass o
  let need := flitCount o
  if (x.1.txWait.any fun w => decide (creditClass (crossing w dateline) = key)) || decide (SMap.get 0 x.1.txCredits key < need) ||
      decide (1024 < x.1.replay.length + (x.2.length + need + 4) / 5) then ({ x.1 with txWait := x.1.txWait ++ [p] }, x.2)
  else ({ x.1 with txCredits := SMap.set 0 x.1.txCredits key (SMap.get 0 x.1.txCredits key - need) }, x.2 ++ outFlits o)

/-- What waits for a port and may leave does so (R281, R288). -/
def State.flush (s : State) (i : Nat) : State :=
  let p := s.port i
  if p.carries && p.offline.isNone then
    let r := p.txWait.foldl (Port.admitOne (s.dateline i)) ({ p with txWait := [] }, [])
    State.sendFlits r.2.length (s.putPort i r.1) i r.2
  else s

/-- A packet is handed to a port, last of all that wait there. -/
def State.sendPacket (s : State) (i : Nat) (p : Packet) : State := (s.modPort i fun q => { q with txWait := q.txWait ++ [p] }).flush i

/-! ### Routes between packages (R284) -/

def State.croute (s : State) (l : Nat) (pkg : BitVec 12) : BitVec 16 := SMap.get 0 s.croutes (4096 * l + pkg.toNat)

/-- K of a source (R283). -/
def sourceK (l : LCore) : Nat := l.pkg.toNat * 2 ^ 20 + l.die.toNat * 2 ^ 15 + l.cl.toNat * 2 ^ 6 + l.core.toNat

/-- The ports that may be used toward a package from an egress link die. -/
def State.portsToward (s : State) (e : BitVec 16) : List Nat :=
  let eg := bitsOf e.toNat 14 12
  ((List.range 8).filter fun i => e.getLsbD (4 + i) && (s.port (8 * eg + i)).usable).map (8 * eg + ·)

/-- The port that a source's packets to a package take from link die `l`, by way of the link die that it names. -/
def State.pathPort (s : State) (l : Nat) (src : LCore) (pkg : BitVec 12) (fuel : Nat := 8) : Option Nat :=
  match fuel with
  | 0 => none
  | n + 1 =>
    let e := s.croute l pkg
    let eg := bitsOf e.toNat 14 12
    let ps := s.portsToward e
    if !e.getLsbD 15 then none
    else if eg ≠ l then s.pathPort eg src pkg n
    else if ps.isEmpty then none
    else ps[sourceK src % ps.length]?

/-! ### Loss of a path (R188, R227, R243, R284, R302) -/

/-- REDUCE_PATH_LOST: the event, and the fault that makes Genhan stop the job. -/
def State.reduceLost (s : State) (l port rid : Nat) : State :=
  (s.raiseEvent 0x000C none [BitVec.ofNat 8 l, BitVec.ofNat 8 port, BitVec.ofNat 8 rid]).jobFault fReducePathLost (BitVec.ofNat 64 rid)

/-- A connection as a notice names it (Table 10.9): its sender with endpoint and link die, its index at the link die that holds the entry, its target, and
its TYPE. -/
structure ConnName where
  src : LCore
  ep : BitVec 4
  link : BitVec 3
  conn : BitVec 12
  tgtLink : BitVec 3
  dst : LCore
  dep : BitVec 4
  type : BitVec 2

/-- The connection of an open send endpoint. -/
def SendEp.name (e : SendEp) (self : LCore) (ep : Nat) : ConnName :=
  { src := self, ep := BitVec.ofNat 4 ep, link := BitVec.ofNat 3 e.link, conn := e.connIndex, tgtLink := e.tgtLinkDie, dst := e.dst self.pkg
    dep := BitVec.ofNat 4 e.dstEp, type := BitVec.ofNat 2 e.type }

/-- The connection of entry `i` of link die `l`; its endpoints have one TYPE (Table 6.9). -/
def State.entryName (s : State) (l i : Nat) : ConnName :=
  let e := SMap.get 0 s.conns (4096 * l + i)
  let t := entryTarget s.pkg e
  { src := entryPeer e, ep := entryPeerEp e, link := entryPeerLink e, conn := BitVec.ofNat 12 i, tgtLink := BitVec.ofNat 3 l, dst := t
    dep := BitVec.ofNat 4 (entryEp e)
    type := match s.coreAt t with
      | some c => BitVec.ofNat 2 ((s.core c).recvEp (entryEp e)).type
      | none => 0 }

/-- The connection of a channel record that link die `l` drops. The record names neither the entry nor its link die, and the notice has zero for both
(DESIGN CHOICE, log entry 133). -/
def recordConn (l : Nat) (p : Packet) : ConnName :=
  { src := hdrSrc (p.hdr.setWidth 128), ep := p.hdr.extractLsb' 92 4, link := BitVec.ofNat 3 l, conn := 0, tgtLink := 0, dst := p.dst
    dep := p.hdr.extractLsb' 12 4, type := if hdrKind (p.hdr.setWidth 128) = 2 then 1 else 0 }

/-- The notice BROKEN to the sender of a connection: through the mesh, or out of the package again. -/
def State.notifyBroken (s : State) (l : Nat) (n : ConnName) : State :=
  let src := n.src
  let b := connBody 5 0 n.conn n.tgtLink src n.ep n.link n.dst n.dep n.type 0 0 0 0
  let p := packet 9 s.companion src b
  if src.pkg = s.pkg then s.injectLink l p else s.atLink l p

/-- A packet is discarded by a link die that has no path for it (R284, Table 10.4). -/
def State.noRoute (s : State) (l : Nat) (p : Packet) : State :=
  let send (s : State) (q : Packet) : State := if q.dst.pkg = s.pkg then s.injectLink l q else s.atLink l q
  match p.pkind.toNat with
  | 0x0 => s.notifyBroken l (recordConn l p)
  | 0x1 => s.notifyBroken l (s.entryName (bitsOf p.hdr.toNat 115 113) (bitsOf p.hdr.toNat 127 116))
  | 0x2 => send s (packet 5 s.companion (accSrc p.hdr) ((ackBody (accTag p.hdr) 5 (accScope p.hdr) false).setWidth 256))
  | 0x3 =>
    let slots := if accOp p.hdr = 1 then (32 + accLength p.hdr + 63) / 64 else 1
    send s (packet 4 s.companion (accSrc p.hdr) (replyBits (accPos p.hdr) (replyHeader (accEp p.hdr) slots)) []
      (replyInfo 0 (accTag p.hdr) 5 (accOp p.hdr) (accFA p.hdr)))
  | 0x6 | 0x7 => s.reduceLost l 0 (bitsOf p.hdr.toNat 127 120)
  | 0x9 =>
    let s := s.raiseEvent 0x000D none ([BitVec.ofNat 8 l, 0] ++ leBytes 2 p.dst.pkg.toNat ++ [9])
    if bitsOf p.hdr.toNat 255 252 = 1 then send s (packet 9 s.companion (ccSrc p.hdr) (ccReply p.hdr 2 4 0 l 0 0 0 0)) else s
  | 0xA | 0xB | 0xC | 0xD => { s with genhan := { s.genhan with notes := s.genhan.notes ++ [(0x000A, BitVec.ofNat 64 l)] } }
  | _ => s.raiseEvent 0x000D none ([BitVec.ofNat 8 l, 0] ++ leBytes 2 p.dst.pkg.toNat ++ [p.pkind.setWidth 8])

/-- A connection may go on through its declared alternate: it does not run through it yet, and a path leads that way (R27, R188; log entry 131). -/
def State.hasAlt (s : State) (c : CoreAt) (e : SendEp) : Bool :=
  e.altValid && !e.viaAlt && (SMap.get {} s.domains (48 + e.altLinkDie)).powered && (s.pathPort e.altLinkDie (s.lcore c) (e.dst s.pkg).pkg).isSome

/-- Connections of this package's senders whose records took the port (in `o`, the state before the loss): each goes on through its alternate, or is
broken (R188). -/
def State.breakSenders (s o : State) (i : Nat) : State :=
  s.cores.foldl (fun t q => match coreAtKey q.1 with
    | none => t
    | some c => q.2.se.foldl (fun t e =>
        if decide (e.2.conn = .open_) && decide (o.pathPort e.2.link (s.lcore c) (e.2.dst s.pkg).pkg = some i) then
          if s.hasAlt c e.2 then t.modCore c fun x => x.putSend e.1 { x.sendEp e.1 with viaAlt := true }
          else t.notifyBroken (i / 8) (e.2.name (s.lcore c) e.1)
        else t) t) s

/-- The notice that a connection is broken (R188): it goes on through a declared alternate, and a notice about the path that it has left for it changes
nothing (log entry 131). -/
def State.breakSender (s : State) (c : CoreAt) (b : BitVec 256) : State :=
  let ep := (ccSrcEp b).toNat
  let e := (s.core c).sendEp ep
  if e.conn ≠ .open_ ∨ (e.viaAlt ∧ (ccSrcLink b).toNat ≠ e.link) then s
  else if s.hasAlt c e then s.modCore c fun x => x.putSend ep { e with viaAlt := true }
  else s.modCore c fun x => x.putSend ep { e with broken := true }

def execBroken (c : CoreAt) (body : BitVec 256) (s : State) : Host.Outcome State Fault Refusal :=
  .next (s.onArrival (s.isFor c 9 body []) c.core.val fun s => s.breakSender c body)

/-- Connections into this package whose credits took the port: their senders are told by any way that is left. -/
def State.breakPeers (s o : State) (i : Nat) : State :=
  s.conns.foldl (fun t q =>
    let tgt := entryTarget s.pkg q.2
    if q.2.getLsbD 127 && decide (o.pathPort (q.1 / 4096) tgt (entryPeer q.2).pkg = some i) then
      t.notifyBroken (q.1 / 4096) (s.entryName (q.1 / 4096) (q.1 % 4096))
    else t) s

/-- Requests outstanding through the port complete with a status. -/
def State.failRequests (s o : State) (i : Nat) (status : BitVec 4) : State :=
  s.cores.foldl (fun t q => match coreAtKey q.1 with
    | none => t
    | some c => q.2.outstanding.foldl (fun t r =>
        if !r.isRecord && decide (faSpace r.fa = 0) && decide (faPkg r.fa ≠ s.pkg) &&
            decide (o.pathPort r.linkDie.toNat (s.lcore c) (faPkg r.fa) = some i) then t.completeRequest c r status
        else t) t) s

/-- A chunk of a slot came from a child whose returns take the port. -/
def State.childBeyond (s o : State) (k : ClusterAt) (i : Nat) (t : RedSlot) : Bool :=
  decide (t.state ≠ 0) && t.children.any fun c =>
    decide (c.2.pkg ≠ s.pkg) && decide (o.pathPort c.1.toNat { s.coxName k with core := unitCore } c.2.pkg = some i)

/-- Reductions whose parent or a child stands beyond the port, with a chunk in progress. -/
def State.failReductions (s o : State) (i : Nat) : State :=
  s.clusters.foldl (fun t q => match clusterAtKey q.1 with
    | none => t
    | some k => q.2.reds.foldl (fun t r =>
        let r := r.2
        if r.valid && ((!r.root && decide (r.parent.pkg ≠ s.pkg) && (decide (r.s0.state ≠ 0) || decide (r.s1.state ≠ 0)) &&
            decide (o.pathPort r.parentLink.toNat { s.coxName k with core := unitCore } r.parent.pkg = some i)) ||
            s.childBeyond o k i r.s0 || s.childBeyond o k i r.s1) then t.reduceLost (i / 8) i r.rid
        else t) t) s

/-- What a link die does when a port's peer goes offline (TARGET_OFFLINE, 4) or the port goes down (NO_PATH, 5); the paths that are lost are those
in `o`, the state before the loss, and the notices take those that are left. -/
def State.losePort (s o : State) (i : Nat) (status : BitVec 4) : State :=
  (((s.breakSenders o i).breakPeers o i).failRequests o i status).failReductions o i

/-- What waits for a port goes back to its link die, which routes it anew (R284); with the die it is lost. -/
def State.reroute (s : State) (i : Nat) : State :=
  let w := (s.port i).txWait
  let s := s.modPort i fun q => { q with txWait := [] }
  if (SMap.get {} s.domains (48 + i / 8)).powered then w.foldl (fun s p => s.atLink (i / 8) p) s else s

/-- A port goes down: the path is lost, and what its replay buffer held, with the outcome of R284 for each packet (R288). The records,
credits and requests of this package are covered by their paths. -/
def State.dropPort (s o : State) (i : Nat) : State :=
  let s := ((s.modPort i fun q => { q with replay := [], unacked := [], replays := 0, naked := none }).losePort o i 5).reroute i
  (o.port i).unacked.foldl (fun s p => if p.2.src.pkg ≠ s.pkg ∨ 4 ≤ p.2.pkind.toNat then s.noRoute (i / 8) p.2 else s) s

/-- A port leaves its traffic for a state that carries none: one that carried, or was in a retrain, loses what it held. -/
def State.takeDown (s : State) (i : Nat) (st : PortState) (reason : Nat) : State :=
  let p := s.port i
  let t := s.setPortState i st reason 0
  if p.carries || decide (p.state = .retrain) then t.dropPort s i else t

/-- A port is taken out of service in a QUIESCE, by the host or with its die; what takes it is told (R302). -/
def State.takeOffline (s : State) (i : Nat) : State :=
  let t := s.setPortState i .disabled 0 0
  if (s.port i).usable then (t.losePort s i 4).reroute i else t

/-! ### Stops over the links (R200) -/

/-- A stop of Genhan, or one that came through a port, goes out over every trained port but that one, to the Genhan of the peer. -/
def State.stopOut (s : State) (tag : BitVec 32) (origin : BitVec 12) (count : BitVec 64) (skip : Option Nat) : State :=
  ((List.range 64).filter fun i => (s.port i).usable && decide (some i ≠ skip)).foldl (fun s i =>
    s.sendPacket i (packet 8 ⟨origin, 0, 0, 0⟩ ⟨(s.port i).peerPkg, 0, 0, 0⟩ (coxBody 2 0 none false tag count))) s

/-- A stop is recorded by its tag, its origin and the count at which it was injected. -/
def State.recordStop (s : State) (tag : BitVec 32) (origin : BitVec 12) (count : BitVec 64) : State :=
  { s with genhan := { s.genhan with stopsSeen := s.genhan.stopsSeen ++ [(tag, origin, count)] } }

/-- Genhan injects a stop with the job's tag: to every cox of the job, and over the trained ports. It carries the count, by which other stops of the
same job are told from it (log entry 22). -/
def State.injectStop (s : State) : State :=
  ((s.stopCoxes s.job.tag).recordStop s.job.tag s.pkg s.time.sc).stopOut s.job.tag s.pkg s.time.sc none

/-- A stop that Genhan receives from another package, through a port (R200, R201): each is recorded; a new one goes on, and stops a job of its
tag. -/
def State.stopReceived (s : State) (tag : BitVec 32) (origin : BitVec 12) (count : BitVec 64) (port : Option Nat) : State :=
  if s.genhan.stopsSeen.contains (tag, origin, count) then s
  else
    let s := (s.recordStop tag origin count).stopOut tag origin count port
    if tag = s.job.tag ∧ (s.job.state = .armed ∨ s.job.state = .running) then (s.haltJob 2 0 false).stopCoxes tag else s

/-- A stop with a tag on its way to a cox (R200). -/
def State.isStop (s : State) (k : ClusterAt) (tag : BitVec 32) (p : Packet) : Bool :=
  decide (p.pkind = 8) && decide (p.exit = 0) && decide (p.hdr = coxBody 2 0 none false tag) && decide ((s.coreAt p.dst).map clusterOf = some k)

/-- A stop with a tag, of an origin, on its way to Genhan. -/
def isStopFor (tag : BitVec 32) (origin : BitVec 12) (p : Packet) : Bool :=
  decide (p.pkind = 8) && decide (p.exit = 4) && decide (p.src.pkg = origin) &&
  decide (p.hdr = coxBody 2 0 none false tag (p.hdr.extractLsb' 51 64))

/-- A stop reaches Genhan from a port, which its link die names beside it, or a cox of the job (R200, R201). -/
def execStop (at_ : Option ClusterAt) (tag : BitVec 32) (origin : BitVec 12) (s : State) : Host.Outcome State Fault Refusal :=
  match at_ with
  | none =>
    let f := isStopFor tag origin
    let port := (s.arriving f).bind fun p => if p.hdr2 = 0 then none else some (p.hdr2.toNat - 1)
    let count := match s.arriving f with
      | some p => p.hdr.extractLsb' 51 64
      | none => s.time.sc
    .next (s.onArrival f 0 fun s => s.stopReceived tag origin count port)
  | some k =>
    .next (s.onArrival (s.isStop k tag) 0 fun s => if tag = s.job.tag then (s.stopCluster k).jobStep else s)

end Sys2Proof.Machine
end

