-- ==== Sys2Proof/Machine/Links.lean ====
section
/-! DEFINITION. What reaches a Vevas port or a link die (R280 to R302): frames, link messages, time, training, retrains and packets that cross. -/

namespace Sys2Proof.Machine

/-! ### Time (R298, R299) -/

def Time.altPort (t : Time) : Option Nat := if t.settings.getLsbD 8 then some (bitsOf t.settings.toNat 14 9) else none
def Time.expectedStarter (t : Time) : BitVec 12 := t.settings.extractLsb' 16 12
/-- The port the package is disciplined through. -/
def Time.activePort (t : Time) : Option Nat := if t.onAlt then t.altPort else t.parentPort
/-- Code of a time state (Table 16.7). -/
def timeCode : TimeState → Nat
  | .starter => 0
  | .acquire => 1
  | .locked => 2
  | .slewing => 3
  | .holdover => 4

/-- A job is ARMED or RUNNING. -/
def State.jobLive (s : State) : Bool := decide (s.job.state = .armed) || decide (s.job.state = .running)

/-- The state of a package with a new time parent, or without lock. -/
def State.unlockedState (s : State) : TimeState := if s.jobLive then .slewing else .acquire

/-- 2 ns and 50 ns, in 2^-16 tick. -/
def near2 (x : Int) : Bool := decide (x.natAbs ≤ 2 * 65536)
def far50 (x : Int) : Bool := decide (50 * 65536 < x.natAbs)

/-- The counter stepped by an offset (R299). -/
def Time.stepBy (t : Time) (x : Int) : Time :=
  let v := ((t.sc.toNat * 65536 + t.frac.toNat : Nat) + x).toNat
  { t with sc := BitVec.ofNat 64 (v / 65536), frac := BitVec.ofNat 16 (v % 65536) }

/-- The package enters SLEWING, which raises TIME_UNLOCKED, or acquires anew (R299). -/
def State.unlock (s : State) (st : TimeState) : State :=
  let t := s.time
  let s : State := { s with time := { t with state := st } }
  if st = .slewing then
    s.raiseEvent 0x0006 none ([BitVec.ofNat 8 (t.activePort.getD 0)] ++ List.replicate 7 0 ++ leBytes 10 (t.lastOffset.signExtend 80).toNat)
  else s

/-- One reply in the present state: the step of ACQUIRE, the slew of LOCKED and SLEWING, and the count toward LOCKED. SLEWING owes the whole offset,
at the limit, where LOCKED adds a quarter over the next probe interval. -/
def State.discipline (s : State) (x : Int) : State :=
  let t := s.time
  let n := if near2 x then t.inBound + 1 else 0
  match t.state with
  | .starter => s
  | .acquire =>
    let t := if t.stepped then t else t.stepBy x
    { s with time := { t with stepped := true, inBound := n, state := if 3 ≤ n then .locked else .acquire } }
  | .locked =>
    if far50 x then
      let st := s.unlockedState
      ({ s with time := { t with inBound := 0, stepped := false, slew := if st = .slewing then x else 0 } } : State).unlock st
    else { s with time := { t with freq := t.freq + x / 64, slew := x / 4, left := 1000000 } }
  | .slewing => { s with time := { t with
      inBound := n, state := if 3 ≤ n then .locked else .slewing, freq := t.freq + x / 64, slew := if 3 ≤ n then x / 4 else x, left := 1000000 } }
  | .holdover =>
    let st := if s.jobLive || decide (s.job.state = .halting) then TimeState.slewing else .acquire
    ({ s with time := { t with inBound := 0, stepped := false, slew := if st = .slewing then x else 0 } } : State).unlock st

/-- A reply is taken from the port in use; in HOLDOVER from either time port. -/
def Time.listens (t : Time) (port : Nat) : Bool :=
  decide (t.activePort = some port) || (decide (t.state = .holdover) && (decide (t.parentPort = some port) || decide (t.altPort = some port)))

/-- TIME_REPLY at a child (R298): delay, offset, depth and the discipline. With lock regained a relaunch goes on (R197). -/
def State.timeReplied (s : State) (port : Nat) (t1 t2 t3 t4 : BitVec 80) (depth : BitVec 8) : State :=
  let t := s.time
  if t.starterBit || !t.listens port || decide (t.probe ≠ some t1) then s
  else
    let delay : Int := (((t4.toNat : Int) - t1.toNat) - ((t3.toNat : Int) - t2.toNat)) / 2
    let x : Int := ((t2.toNat : Int) - t1.toNat) - delay
    let s : State := { s with time := { t with
      probe := none, unanswered := 0, depth := (depth + 1).setWidth 4, lastOffset := BitVec.ofInt 64 x, onAlt := decide (t.parentPort ≠ some port) } }
    let u := s.discipline x
    if u.timeOk && !s.timeOk then u.relaunchTry else u

/-- TIME_PROBE at a parent: the reply with the arrival and departure stamps. -/
def State.probed (s : State) (port : Nat) (t1 t2 : BitVec 80) : State :=
  if (s.port port).carries then
    s.sendLink port ([3] ++ List.replicate 7 0 ++ leBytes 10 t1.toNat ++ leBytes 10 t2.toNat ++ leBytes 10 s.stamp.toNat ++
      [BitVec.ofNat 8 s.time.depth.toNat, BitVec.ofNat 8 (timeCode s.time.state)])
  else s

def execTimeProbe (port : Fin 64) (t1 t2 : BitVec 80) (s : State) : Host.Outcome State Fault Refusal := .next (s.probed port.val t1 t2)

/-- The ports that a non-starter probes: the one in use, and in HOLDOVER both time ports. -/
def Time.probes (t : Time) : List Nat :=
  if t.state = .holdover then (t.parentPort.toList ++ t.altPort.toList).dedup else t.activePort.toList

/-- A TIME_PROBE leaves a port that carries. -/
def State.sendProbe (s : State) (i : Nat) : State :=
  if (s.port i).carries then s.sendLink i ([2] ++ List.replicate 7 0 ++ leBytes 10 s.stamp.toNat) else s

/-- A non-starter that disciplines its counter probes; a probe still out counts as unanswered. -/
def execTimeProbeTimer (s : State) : Host.Outcome State Fault Refusal :=
  let t := s.time
  if t.starterBit || decide (t.state = .starter) || t.probes.isEmpty then .next s
  else
    let n := if t.probe.isSome then t.unanswered + 1 else t.unanswered
    let s : State := { s with time := { t with probe := some s.stamp, unanswered := n } }
    .next (t.probes.foldl State.sendProbe s)

def execTimeReply (port : Fin 64) (t1 t2 t3 t4 : BitVec 80) (depth _tstate : BitVec 8) (s : State) : Host.Outcome State Fault Refusal :=
  .next (s.timeReplied port.val t1 t2 t3 t4 depth)

/-- Eight probes unanswered: the alternate parent, in the state of a new parent, or HOLDOVER. -/
def execTimeHoldover (s : State) : Host.Outcome State Fault Refusal :=
  let t := s.time
  if t.starterBit || decide (t.state = .starter) || decide (t.unanswered < 8) || decide (t.state = .holdover) then .next s
  else if !t.onAlt && t.altPort.isSome then
    .next (({ s with time := { t with onAlt := true, unanswered := 0, probe := none, inBound := 0, stepped := false, slew := 0 } } : State).unlock s.unlockedState)
  else
    let s : State := { s with time := { t with state := .holdover } }
    .next (s.raiseEvent 0x0007 none [BitVec.ofNat 8 (t.parentPort.getD 0)])

/-! ### Identity, width and training (R290 to R294) -/

/-- The message ID of a port (Table 10.6). -/
def State.ownId (s : State) (i : Nat) : Bytes :=
  let e := s.portEntry i
  let p := s.port i
  let t := s.time
  let flags : Nat := (if t.starterBit then 1 else 0) + (if p.idAccepted then 2 else 0) + (if s.dateline i then 4 else 0)
  [1, BitVec.ofNat 8 flags] ++ leBytes 8 (s.grade 8 8) ++ leBytes 2 s.pkg.toNat ++ [BitVec.ofNat 8 i, p.good, BitVec.ofNat 8 (bitsOf e.toNat 27 24)] ++
    leBytes 1 (s.grade 33 1 % 16) ++ leBytes 4 s.cascadeId.toNat ++ leBytes 2 (bitsOf e.toNat 11 0) ++
    [BitVec.ofNat 8 (bitsOf e.toNat 21 16), if e.getLsbD 31 then 1 else 0] ++
    leBytes 2 (if t.starterBit then s.pkg.toNat else t.expectedStarter.toNat) ++ [BitVec.ofNat 8 t.depth.toNat, BitVec.ofNat 8 (s.grade 32 1)]

/-- A received ID is accepted on a port (R292). -/
def State.idOk (s : State) (i : Nat) (m : Bytes) : Bool :=
  let e := s.portEntry i
  decide (numAt m 16 4 = s.cascadeId.toNat) && decide (numAt m 24 2 = s.time.expectedStarter.toNat) &&
  (!e.getLsbD 31 || (decide (numAt m 10 2 = bitsOf e.toNat 11 0) && decide (numAt m 12 1 = bitsOf e.toNat 21 16)))

/-- The peer's identity is recorded. -/
def State.noteId (s : State) (i : Nat) (m : Bytes) : State :=
  s.modPort i fun p => { p with
    peerSerial := BitVec.ofNat 64 (numAt m 2 8), peerPkg := BitVec.ofNat 12 (numAt m 10 2), peerPort := BitVec.ofNat 6 (numAt m 12 1),
    peerGrade := BitVec.ofNat 4 (numAt m 15 1), peerDepth := BitVec.ofNat 8 (numAt m 26 1), peerStepping := BitVec.ofNat 8 (numAt m 27 1),
    peerAccepted := decide (numAt m 1 1 / 2 % 2 = 1) }

/-- Well-formed link messages (Table 10.6): a known kind, unused bytes and bits zero. -/
def linkMsgOk (m : Bytes) : Bool :=
  let z (a b : Nat) : Bool := allZero (bytesAt m a (b - a))
  match numAt m 0 1 with
  | 1 => decide (numAt m 1 1 < 8) && decide (numAt m 15 1 < 16) && decide (numAt m 23 1 < 2) && z 28 64
  | 2 => z 1 8 && z 18 64
  | 3 => z 1 8 && z 40 64
  | 4 => z 1 64
  | 5 => z 2 64
  | _ => false

/-- The identity in a message is another peer's than the port has recorded (Table 10.12). -/
def Port.otherId (p : Port) (m : Bytes) : Bool := decide (numAt m 2 8 ≠ p.peerSerial.toNat) || decide (numAt m 12 1 ≠ p.peerPort.toNat)

/-- An ID message (R291, R292): refused, it holds the port as MISWIRE. Another identity on a port that carried brings a full training (Table 10.12). -/
def State.idArrives (s : State) (i : Nat) (m : Bytes) : State :=
  let p := s.port i
  if p.state = .disabled then s
  else if (p.carries || decide (p.state = .retrain)) && p.otherId m then s.takeDown i .training 0
  else
    let s := s.noteId i m
    if s.idOk i m then s.modPort i fun q => { q with idAccepted := true }
    else
      s.takeDown i .held rMiswire

def execId (port : Fin 64) (msg : Bytes) (s : State) : Host.Outcome State Fault Refusal :=
  if linkMsgOk msg && decide (numAt msg 0 1 = 1) then .next (s.idArrives port.val msg) else .next (s.countPort port.val 5)

/-- Every 1 ms from frame lock until both ends have accepted (R291). -/
def execIdTimer (port : Fin 64) (s : State) : Host.Outcome State Fault Refusal :=
  let p := s.port port.val
  if p.lock && !(p.idAccepted && p.peerAccepted) then .next (s.sendLink port.val (s.ownId port.val)) else .next s

/-- The lowest aligned group of w lanes that a mask holds (R294). -/
def groupOf (m : BitVec 8) (w : Nat) : Option Nat :=
  (List.range (8 / w)).find? fun g => decide (m.toNat / 2 ^ (g * w) % 2 ^ w = 2 ^ w - 1)

/-- The largest width whose aligned group both masks share (R294). -/
def widthOf (a b : BitVec 8) : Nat := ([8, 4, 2, 1].find? fun w => (groupOf (a &&& b) w).isSome).getD 0

/-- The lanes of the group in use. -/
def groupMask (a b : BitVec 8) : BitVec 8 :=
  let w := widthOf a b
  match groupOf (a &&& b) w with
  | some g => BitVec.ofNat 8 ((2 ^ w - 1) * 2 ^ (g * w))
  | none => 0

/-- The flit credits of one port at its start (R285). -/
def startCredits : SMap Nat := [(0, 32), (1, 1024), (2, 1024), (3, 1024), (4, 64), (8, 32), (9, 1024), (10, 1024), (11, 1024), (12, 64)]

/-- A training ends without the port. A port that carried traffic, or was in a retrain, loses what it held. -/
def State.portDown (s : State) (i : Nat) (reason : Nat) : State :=
  ((s.takeDown i .down reason).modPort i fun q => { q with replay := [], unacked := [], replays := 0, naked := none, lock := false })

/-- What waited for a port goes on: after a retrain its replay first (R288). -/
def State.resume (s : State) (i : Nat) (fresh : Bool) : State := (if fresh then s else s.replayAll i).flush i

/-- Steps 5 to 7 of Table 10.7 with the lanes that passed step 4: the port goes UP, UP_NARROW, HELD or DOWN. Without a width the reason is
OPEN_LANES when either mask is empty, so that both ends give the same (log entry 113). `fresh` tells a full training, which starts the sequence
numbers and credits anew, from a retrain, which keeps them (R288). -/
def State.finishTraining (s : State) (i : Nat) (fresh : Bool) (good : BitVec 8) (t : Training) : State :=
  let s := s.modPort i fun p => { p with good := good, group := 0, rxFrames := 0, txFrames := 0, badWords := [] }
  if good = 0 then s.portDown i rOpenLanes
  else if !t.lockOk then s.portDown i rLockFail
  else match t.peerId with
    | none => s.portDown i rIdTimeout
    | some m =>
      let s := s.noteId i m
      let peerGood := BitVec.ofNat 8 (numAt m 13 1)
      let w := widthOf good peerGood
      let least := max (bitsOf (s.portEntry i).toNat 27 24) (numAt m 14 1)
      if !s.idOk i m then
        s.takeDown i .held rMiswire
      else if w = 0 then s.portDown i (if peerGood = 0 then rOpenLanes else rBerFail)
      else if w < least then s.takeDown i .held rNarrow
      else
        let s := s.modPort i fun p =>
          let q : Port := { p with lock := true, goodRun := 4, badRun := 0, idAccepted := true, offline := none, retries := 0, group := groupMask good peerGood }
          if fresh then { q with rxExp := 0, rxAny := false, nakSent := false, rxFlits := [], freed := [], txSeq := 0, replay := [], unacked := [], replays := 0,
                                 naked := none, txCredits := startCredits }
          else { q with replays := 0 }
        (s.setPortState i (if w = 8 then .up else .upNarrow) 0 w).resume i fresh

/-- The port may be trained: enabled by the grade record and not disabled by the host (R278, R295). -/
def State.portEnabled (s : State) (i : Nat) : Bool :=
  s.portMask.getLsbD i && !(s.portEntry i).getLsbD 29 && (SMap.get {} s.domains (48 + i / 8)).powered

/-- The lanes that pass step 1: neither open nor shorted (R293). -/
def laneSet (t : Training) : BitVec 8 := t.terminated &&& ~~~t.shorted

/-- Both ends have saved settings for the pairing that the training pattern shows (R291, R348). -/
def State.savedFor (s : State) (i : Nat) (t : Training) : Bool :=
  match t.seen with
  | some k => s.nv.pairings.contains (i, k.1, k.2) && t.peerSaved
  | none => false

/-- Saved settings are used and stand: step 3 succeeds with them and step 4 leaves a lane (R291). -/
def State.savedStand (s : State) (i : Nat) (t : Training) : Bool := s.savedFor i t && t.savedOk && decide (laneSet t &&& t.savedQualified ≠ 0)

/-- The settings of a full adaptation replace those saved for the pairing. -/
def State.savePairing (s : State) (i : Nat) (t : Training) : State :=
  match t.seen with
  | some k => { s with nv := { s.nv with newPairings := s.nv.newPairings ++ [(i, k.1, k.2)] } }
  | none => s

/-- Steps 3 and 4: with saved settings, or where there are none or they fail by full adaptation (R291); then steps 5 to 7. -/
def State.equalise (s : State) (i : Nat) (t : Training) : State :=
  if s.savedStand i t then s.finishTraining i true (laneSet t &&& t.savedQualified) t
  else if !t.eqOk then s.portDown i rEqFail
  else
    let good := laneSet t &&& t.qualified
    (if good = 0 then s else s.savePairing i t).finishTraining i true good t

/-- Steps 1 to 7 (R290, R293). The mask of the lanes that pass step 1 stands from there on; a shorted lane's driver is disabled. -/
def State.train (s : State) (i : Nat) (t : Training) : State :=
  let s := s.modPort i fun p => { p with good := laneSet t, lanes := laneSet t, group := 0, driversOff := t.shorted, reversed := false, polarity := 0 }
  if t.terminated = 0 then s.portDown i rNoPeer
  else if laneSet t = 0 then s.portDown i rOpenLanes
  else if t.laneOrderBad then s.portDown i rLaneOrder
  else (s.modPort i fun p => { p with reversed := t.reversed, polarity := t.inverted }).equalise i t

def execPortTraining (port : Fin 64) (t : Training) (s : State) : Host.Outcome State Fault Refusal :=
  let i := port.val
  let p := s.port i
  if !s.portEnabled i || p.carries || decide (p.state = .retrain) then .next s
  else .next ((s.setPortState i .training 0 0).train i t)

/-- A retry in the background (R348): a DOWN port trains anew; its findings come with PORT_TRAINING. -/
def execPortRetryTimer (port : Fin 64) (s : State) : Host.Outcome State Fault Refusal :=
  let i := port.val
  if s.portEnabled i && decide ((s.port i).state = .down) then
    .next ((s.modPort i fun p => { p with retries := p.retries + 1 }).setPortState i .training 0 0)
  else .next s

/-! ### Retrains (R288) -/

/-- The identity that a retrain shows is another peer's (Table 10.12). -/
def Port.otherPeer (p : Port) (t : Training) : Bool :=
  match t.peerId with
  | some m => p.otherId m
  | none => false

/-- A retrain begins, by a message or by this end's own doing, and its findings come with it: steps 4 to 7 on the lanes that are neither open nor shorted,
or with another peer a full training. -/
def execRetrain (port : Fin 64) (t : Training) (s : State) : Host.Outcome State Fault Refusal :=
  let i := port.val
  let p := s.port i
  if p.carries || decide (p.state = .retrain) then
    let s := if p.state = .retrain then s else s.setPortState i .retrain 0 0
    .next (if p.otherPeer t then (s.takeDown i .training 0).train i t
      else if t.qualified ≠ 0 ∧ t.lockOk ∧ t.peerId.isSome then s.finishTraining i false (p.lanes &&& t.qualified) t
      else s)
  else .next s

/-- A retrain has not ended within 50 ms: the port goes down and what it held is lost. -/
def execRetrainTimeout (port : Fin 64) (s : State) : Host.Outcome State Fault Refusal :=
  if (s.port port.val).state = .retrain then .next (s.portDown port.val rRetrainFail) else .next s

/-- Eight bad frames in a row (R280): the receiver has left frame lock, and the port retrains. -/
def execFrameLockLoss (port : Fin 64) (s : State) : Host.Outcome State Fault Refusal :=
  let p := s.port port.val
  if p.lock && decide (8 ≤ p.badRun) then .next ((s.putPort port.val { p with lock := false, goodRun := 0 }).beginRetrain port.val) else .next s

/-- 4 µs without ACK progress while frames are unacknowledged (R287). -/
def execReplayTimeout (port : Fin 64) (s : State) : Host.Outcome State Fault Refusal :=
  let p := s.port port.val
  if p.carries && !p.replay.isEmpty then .next (s.replayOrRetrain port.val) else .next s

/-- OFFLINE from the peer (R302). -/
def State.offlineArrives (s : State) (i : Nat) (reason : BitVec 8) : State :=
  if (s.port i).carries then ((s.modPort i fun p => { p with offline := some reason }).losePort s i 4).reroute i else s

def execOffline (port : Fin 64) (reason : BitVec 8) (s : State) : Host.Outcome State Fault Refusal := .next (s.offlineArrives port.val reason)

/-! ### Frames (R280, R286, R287) -/

/-- A frame with a good CRC breaks a rule (R286). -/
def malformed (b : Bytes) : Bool :=
  let h := numAt b 0 16
  let used (i : Nat) : Bool := h.testBit (93 + i)
  decide (bitsOf h 127 124 = 0) || decide (3 < bitsOf h 127 124) || decide (bitsOf h 36 0 ≠ 0) ||
  (List.range 5).any fun i =>
    if used i then decide (bitsOf h 127 124 = kData) && decide (5 ≤ bitsOf h (3 * i + 80) (3 * i + 78)) else !allZero (bytesAt b (16 + 64 * i) 64)

/-- The used slots of a frame: class and content. -/
def slotsOf (b : Bytes) : List (Nat × Bytes) :=
  let h := numAt b 0 16
  ((List.range 5).filter fun i => h.testBit (93 + i)).map fun i => (bitsOf h (3 * i + 80) (3 * i + 78), bytesAt b (16 + 64 * i) 64)

/-- Frames up to an acknowledged one leave the replay buffer. -/
def ackReplay (a : BitVec 12) (l : List (BitVec 12 × Bytes)) : List (BitVec 12 × Bytes) :=
  match l.findIdx? fun f => decide (f.1 = a) with
  | none => l
  | some n => l.drop (n + 1)

/-- a names an ACK at or before b (modulo 4,096). -/
def atOrBefore (a b : BitVec 12) : Bool := decide ((b - a).toNat < 2048)

/-- The ACK, NAK and credits of a frame (R285 to R287). -/
def State.takeAcks (s : State) (i : Nat) (b : Bytes) : State :=
  let h := numAt b 0 16
  let a := BitVec.ofNat 12 (bitsOf h 111 100)
  let valid := h.testBit 99
  let set := bitsOf h 37 37
  let s := s.modPort i fun p =>
    let r := if valid then ackReplay a p.replay else p.replay
    let moved := decide (r.length < p.replay.length)
    { p with
      replay := r
      unacked := p.unacked.filter fun u => r.any fun f => decide (f.1 = u.1)
      replays := if moved then 0 else p.replays
      naked := if moved && p.naked ≠ some a then none else p.naked
      txCredits := (List.range 5).foldl (fun m c => SMap.set 0 m (8 * set + c) (SMap.get 0 m (8 * set + c) + bitsOf h (8 * c + 45) (8 * c + 38))) p.txCredits }
  let p := s.port i
  let known := match p.replay.head? with
    | none => false
    | some f => !valid || decide (f.1 - 1 = a)
  let stale := match p.naked with
    | none => false
    | some n => atOrBefore a n
  (if h.testBit 98 && known && !stale then s.replayOrRetrain i else s).flush i

/-- A bad or out-of-order DATA frame: the first of a loss draws NAK. -/
def State.nakOnce (s : State) (i : Nat) : State :=
  if (s.port i).nakSent then s else (s.modPort i fun p => { p with nakSent := true }).sendIdle i true

/-- One link message (R289): stamps of arrival are the counter's. -/
def State.linkMsg (s : State) (i : Nat) (m : Bytes) : State :=
  if !linkMsgOk m then s.countPort i 5
  else match numAt m 0 1 with
    | 1 => s.idArrives i m
    | 2 => s.probed i (BitVec.ofNat 80 (numAt m 8 10)) s.stamp
    | 3 => s.timeReplied i (BitVec.ofNat 80 (numAt m 8 10)) (BitVec.ofNat 80 (numAt m 18 10)) (BitVec.ofNat 80 (numAt m 28 10)) s.stamp
        (BitVec.ofNat 8 (numAt m 38 1))
    | 4 => if (s.port i).carries then s.setPortState i .retrain 0 0 else s
    | _ => s.offlineArrives i (BitVec.ofNat 8 (numAt m 1 1))

/-- A frame in order is accepted; its flits wait for the link die, and an IDLE frame carries the acknowledgement back. -/
def State.acceptData (s : State) (i : Nat) (b : Bytes) : State :=
  let p := s.port i
  if BitVec.ofNat 12 (bitsOf (numAt b 0 16) 123 112) = p.rxExp then
    let s := s.putPort i { p with rxExp := p.rxExp + 1, rxAny := true, nakSent := false, rxFlits := p.rxFlits ++ slotsOf b }
    (s.countPort i 1).sendIdle i
  else s.nakOnce i

/-- The first and the last symbol of frame f since the training (R279): 344 B are 275.2 symbols of 10 bits. -/
def firstSymbol (f : Nat) : Nat := 2752 * f / 10
def lastSymbol (f : Nat) : Nat := (2752 * f + 2751) / 10

/-- The codeword of symbol j at width w: symbol j goes to lane j mod w, 514 message symbols to a codeword (R279). -/
def codewordOf (w j : Nat) : Nat × Nat := (j % w, j / w / 514)

/-- Frame f overlaps a codeword. -/
def overlaps (w f : Nat) (c : Nat × Nat) : Bool :=
  (List.range (lastSymbol f + 1 - firstSymbol f)).any fun d => decide (codewordOf w (firstSymbol f + d) = c)

/-- A codeword reaches beyond frame f. -/
def reachesPast (w f : Nat) (c : Nat × Nat) : Bool := decide (firstSymbol (f + 1) ≤ (514 * c.2 + 513) * w + c.1)

/-- Lanes that the symbols go to: the width; all eight while none is chosen (log entry 114). -/
def Port.lanesUsed (p : Port) : Nat := if p.width = 0 then 8 else p.width.toNat

/-- A codeword that could not be corrected overlaps the frame that has come. -/
def Port.badFrame (p : Port) (bad : List (Nat × Nat)) : Bool := (p.badWords ++ bad).any (overlaps p.lanesUsed p.rxFrames)

/-- The frame is counted, and the bad codewords that reach past it are kept. -/
def Port.noteFrame (p : Port) (bad : List (Nat × Nat)) : Port :=
  { p with rxFrames := p.rxFrames + 1, badWords := (p.badWords ++ bad).dedup.filter (reachesPast p.lanesUsed p.rxFrames) }

/-- Symbols of a frame that the decoder corrected, counted: a free value up to 15 for each codeword that it lies in, all that RS(544,514) can correct
(Table 15.6; what the decoder finds comes with no command: log entry 94). -/
def State.countCorrected (s : State) (i : Nat) : State :=
  let p := s.port i
  let f := p.rxFrames
  let n := ((List.range (lastSymbol f + 1 - firstSymbol f)).map fun d => codewordOf p.lanesUsed (firstSymbol f + d)).dedup.length
  let d := s.draw
  d.2.countPort i 3 (d.1.toNat % (15 * n + 1))

/-- The run of good or bad frames and the frame lock (R280). -/
def Port.noteRun (p : Port) (bad : Bool) : Port :=
  if bad then { p with goodRun := 0, badRun := p.badRun + 1 } else { p with goodRun := p.goodRun + 1, badRun := 0, lock := p.lock || decide (3 ≤ p.goodRun) }

/-- A frame at a port; `data`: in the position of a DATA frame; `bad`: codewords that could not be corrected (R279, R280, R286). A frame with a good
CRC gives its ACK and credits even where a codeword marks it as bad. -/
def State.frameIn (s : State) (i : Nat) (b : Bytes) (bad : List (Nat × Nat)) (data : Bool) : State :=
  let hit := (s.port i).badFrame bad
  let s := ((s.countCorrected i).modPort i fun p => p.noteFrame bad).countPort i 4 bad.length
  let crc := decide (b.length = 344) && decide ((crc64 (b.take 336)).toNat = numAt b 336 8)
  let s := s.modPort i fun p => p.noteRun (hit || !crc)
  if !crc then (if data && (s.port i).carries then s.nakOnce i else s)
  else if malformed b then
    let s := s.countPort i 5
    if data && (s.port i).carries then s.nakOnce i else s
  else
    let kind := bitsOf (numAt b 0 16) 127 124
    let s := if (s.port i).carries then s.takeAcks i b else s
    if kind = kData then (if !(s.port i).carries then s else if hit then s.nakOnce i else s.acceptData i b)
    else if kind = kLink ∧ !hit then (slotsOf b).foldl (fun s m => s.linkMsg i m.2) s
    else s

def execDataFrame (port : Fin 64) (frame : Bytes) (bad : List (Nat × Nat)) (s : State) : Host.Outcome State Fault Refusal :=
  .next (s.frameIn port.val frame bad true)
def execIdleFrame (port : Fin 64) (frame : Bytes) (bad : List (Nat × Nat)) (s : State) : Host.Outcome State Fault Refusal :=
  .next (s.frameIn port.val frame bad false)
def execLinkFrame (port : Fin 64) (frame : Bytes) (bad : List (Nat × Nat)) (s : State) : Host.Outcome State Fault Refusal :=
  .next (s.frameIn port.val frame bad false)

/-! ### Packets that come in (R282 to R284) -/

/-- The flits of a packet leave the receiver's buffer, and their credits go back. -/
def State.takeFlits (s : State) (i : Nat) (p : Packet) : State :=
  let cls := linkClass p.pkind.toNat
  let fl := packetFlits p
  let q := s.port i
  let mine := (q.rxFlits.filter fun f => decide (f.1 = cls)).take fl.length
  if mine.map (·.2) = fl then
    let key := 8 * (if p.dl then 1 else 0) + cls
    s.putPort i { q with
      rxFlits := (fl.foldl (fun l f => l.erase (cls, f)) q.rxFlits)
      freed := SMap.set 0 q.freed key (SMap.get 0 q.freed key + fl.length) }
  else s

/-- A packet that arrives from a port: for this package it enters the mesh; for another it stays at the link die, to go on. A packet for Genhan has
its port beside it, so that a stop is not sent back (R200). -/
def State.ingress (s : State) (l i : Nat) (p : Packet) : State :=
  let s := s.takeFlits i p
  let p := { p with route := 0, wait := none }
  if p.dst.pkg ≠ s.pkg then (if p.hops = 15 then s.noRoute l p else s.atLink l p)
  else match p.pkind.toNat with
    | 0xA | 0xB | 0xC | 0xD => s.noRoute l p
    | 0x9 =>
      match bitsOf p.hdr.toNat 255 252 with
      | 1 => s.atLink l p
      | 3 => s.injectLink l (toComp p 2 (ccTgtLink p.hdr).toNat)
      | _ => s.injectLink l { p with exit := 0, comp := 0 }
    | 0x8 => if dstUnit p = 2 then s.injectLink l { toComp p 4 0 with hdr2 := BitVec.ofNat 128 (i + 1) } else s.injectLink l { p with exit := 0, comp := 0 }
    | k =>
      if (k = 2 ∨ k = 3) ∧ (s.coreAt p.dst).isNone then
        let q := if k = 2 then packet 5 s.companion (accSrc p.hdr) ((ackBody (accTag p.hdr) 4 (accScope p.hdr) false).setWidth 256)
          else packet 4 s.companion (accSrc p.hdr) (replyBits (accPos p.hdr) (replyHeader (accEp p.hdr)
            (if accOp p.hdr = 1 then (32 + accLength p.hdr + 63) / 64 else 1))) [] (replyInfo 0 (accTag p.hdr) 4 (accOp p.hdr) (accFA p.hdr))
        s.atLink l q
      else s.injectLink l { p with exit := 0, comp := 0 }

/-- An active link delay at a Vevas port (R416), outward or inward. -/
def State.portDelay (s : State) (i : Nat) (inward : Bool) : Option Nat :=
  (s.host.dbg.slots.find? fun q => let f (hi lo : Nat) : Nat := bitsOf q.2.target.toNat hi lo
    decide (f 63 60 = 1) && decide (f 59 57 = 1) && decide (f 55 50 = i) && (q.2.target.getLsbD 56 == inward)).map fun q => q.2.live.toNat

/-- A packet that comes in through a port with an inward delay first waits; its waiting copy stands at the link die with its due count. -/
def execLinkDieIngress (l : Fin 8) (port : Fin 64) (p : Packet) (s : State) : Host.Outcome State Fault Refusal :=
  if port.val / 8 = l.val then
    let n := s.mesh.length
    let m := s.waiting.length
    let s := s.ingress l.val port.val p
    match s.portDelay port.val true with
    | none => .next s
    | some d =>
      let late (l : List Packet) (n : Nat) : List Packet := l.take n ++ (l.drop n).map fun q => { q with wait := some (s.time.sc + BitVec.ofNat 64 d) }
      .next { s with mesh := late s.mesh n, waiting := late s.waiting m }
  else .next s

/-! ### Packets that go out (R284, R285, Table 9.6) -/

/-- A link die has found a bad segment: discarded, logged, and the job stopped. -/
def State.linkCheckFail (s : State) (l : Nat) (p : Packet) : State :=
  let s := s.checkEvent 2 l 0
  let f := jobFaultEntry fCheckFail (checkDetail p.data (p.hdr2.getLsbD 0)) 1
  { s with genhan := { s.genhan with reports := s.genhan.reports ++ [{ entry := f }] } }

/-- A record whose payload is a tile segment. -/
def tilePacket (p : Packet) : Bool := decide (p.pkind = 0) && decide (hdrKind (p.hdr.setWidth 128) = 2)

/-- A credit return that crosses finds the entry of its connection (R186, R297). -/
def State.creditKnown (s : State) (l : Nat) (p : Packet) : Bool :=
  decide (p.pkind ≠ 1) || !p.hdr.getLsbD 112 || decide (bitsOf p.hdr.toNat 115 113 ≠ l) || (s.conn l (bitsOf p.hdr.toNat 127 116)).getLsbD 127

/-- A packet for another package at link die `l`; `s` no longer holds it: on to the link die that the table names, or to its port, where it waits
for credits, room and a retrain (R284 to R288). None: a link delay holds it where it is. -/
def State.egress (s : State) (l : Nat) (p : Packet) (delayed : Bool) : Option State :=
  let e := s.croute l p.dst.pkg
  let eg := bitsOf e.toNat 14 12
  let ps := s.portsToward e
  if !s.creditKnown l p then some s
  else if [0xA, 0xB, 0xC, 0xD].contains p.pkind.toNat then some (s.noRoute l p)
  else if !e.getLsbD 15 then some (s.noRoute l p)
  else if tilePacket p && !draocOk p.data then some (s.linkCheckFail l p)
  else if eg ≠ l then some (s.injectLink l (toComp { p with route := 0, wait := none } 2 eg))
  else match ps[sourceK p.src % ps.length]? with
    | none => some (s.noRoute l p)
    | some i => if !delayed && (s.portDelay i false).isSome then none else some (s.sendPacket i { p with route := 0, wait := none })

def execLinkDieEgress (l : Fin 8) (p : Packet) (s : State) : Host.Outcome State Fault Refusal :=
  if p.dst.pkg = s.pkg ∨ p.wait.isSome then .next s
  else .next (s.onArrival (fun q => decide (q = p)) 0 fun t => (t.egress l.val p false).getD s)

end Sys2Proof.Machine
end

