-- ==== Sys2Proof/Machine/Drain.lean ====
section
/-! DEFINITION. Draining a job into a drain area, the promotion of a checkpoint, and restoring (R128 to R132, R189, R263, R269, R361, R419). -/

namespace Sys2Proof.Machine

/-! ### Drains -/

/-- An endpoint as drained: withheld credits are its own (R419). -/
def SendEp.drained (e : SendEp) : SendEp :=
  { e with
    credits := e.credits + e.withheld, withheld := 0, toWithhold := 0
    tcredits := e.tcredits.zipIdx.map fun p => p.1 + e.twithheld.getD p.2 0, twithheld := [] }

/-- A core as drained (Table 3.8): counters of stalls, header marks (R105) and the run-ahead buffer (R252) are no part of it. -/
def Core.drained (x : Core) : Core :=
  { x with
    se := SMap.mapVals {} SendEp.drained x.se, age := [], ageRaised := [], blocked := none, busyBanks := 0, fabUsed := false, fabBanks := 0
    fabNext := none, hdrAsked := false, hdrRead := none, marks := [], runAhead := [], ecc := [], wback := [] }

/-! ### When a drain may scan (R129 step 3) -/

/-- A packet is addressed to a cluster, or comes from one of its cores and asks for an answer. -/
def State.addressed (s : State) (k : ClusterAt) (p : Packet) : Bool :=
  decide (p.exit = 0) && decide ((s.coreAt p.dst).map clusterOf = some k) || decide ((s.clusterNamed p.src) = some k)

/-- An answer to a launched request or record is still due: a request ends at the latest with NO_PATH (R243), a record of a connection that is
broken has none. -/
def Core.awaits (x : Core) (o : Outstanding) : Bool :=
  let e := x.sendEp o.ep.toNat
  !o.isRecord || !e.remote || (!e.broken && (decide (e.conn = .open_) || decide (e.conn = .closing)))

/-- The packets that link dies hold for their ports, and those in the retry buffers (R129). -/
def State.linkTraffic (s : State) : List Packet := s.ports.flatMap fun p => p.2.txWait ++ p.2.unacked.map (·.2)

/-- Nothing is on its way to or from some clusters, in the mesh, the link dies with their retry buffers or the moon dies, no acknowledgement or reply
is due to them, and their fabric-side queues are empty. A cluster in QUIESCE or off does not settle (R365), and one
under test has no state of its job. -/
def State.settled (s : State) (ks : List ClusterAt) : Bool :=
  s.homesFree && s.ports.all (fun p => p.2.rxFlits.isEmpty) &&
  ks.all fun k => !(s.cluster k).testing && (s.offline k || ((s.mesh ++ s.waiting ++ s.linkTraffic).all (fun p => !s.addressed k p) &&
    (coresOf k).all fun c => (s.core c).fabricJobs.isEmpty && !(s.core c).outstanding.any (s.core c).awaits))

/-- The words of a scratchpad that a scan records as lost (R74): those it finds uncorrectable, and those recorded before. -/
def Core.lostWords (x : Core) : List Nat := (x.lost ++ (x.ecc.filter fun p => decide (p.2 = some true)).map (·.1)).dedup

/-- A core as its record holds it: a lost word delivers no data (R74), and what stands in its place is a free value (log entry 24); `n` numbers the
free value of word 0. -/
def Core.recorded (x : Core) (n : Nat) : Core :=
  x.lostWords.foldl (fun y w => { y with spad := SMap.setRun 0 y.spad (8 * w) (leBytes 8 (Config.freeValue (n + w)).toNat) }) x.drained

/-- The scan reads a whole scratchpad: it corrects the single-bit errors, counts them, and has the words written back (R73). The run-ahead buffer is
discarded (R277). -/
def State.scanSpad (s : State) (c : CoreAt) : State :=
  (s.modCore c fun x => { x.noteSoft 0 131072 with runAhead := [] }).countSoft c ((s.core c).softWords 0 131072).length

/-- Streams owned by cores of a logical cluster. -/
def State.ownedStreams (s : State) (die : Nat) (cl : BitVec 9) : SMap Stream :=
  s.streams.filter fun t => let o := t.2.owner s.pkg
    t.2.valid && decide (o.die.toNat = die) && decide (o.cl = cl)

/-- The drain record of a cluster (Table 4.13), and the free values for the bytes of it that the spec does not place (log entry 24). -/
def State.drainCluster (s : State) (k : ClusterAt) : Option Snapshot × State :=
  match s.logical k with
  | none => (none, s)
  | some cl =>
    let cores := SMap.run {} 0 ((coresOf k).map fun c => (s.core c).recorded (s.freeCtr + 16512 + 16384 * c.core.val))
    let lost := (coresOf k).flatMap fun c => (s.core c).lostWords.map fun w => (c.core.val, w)
    (some { die := k.die, logical := cl, cluster := s.cluster k, cores := cores, lost := lost, streams := s.ownedStreams k.die.val cl, free := s.freeCtr },
     (coresOf k).foldl State.scanSpad (({ s with freeCtr := s.freeCtr + 16512 + 16384 * 64 } : State).modCluster k fun x => { x with drained := true }))

/-- Drain records of clusters, one after the other. -/
def State.drainList (s : State) (ks : List ClusterAt) : List Snapshot × State :=
  match ks with
  | [] => ([], s)
  | k :: r =>
    let a := s.drainCluster k
    let b := a.2.drainList r
    (a.1.toList ++ b.1, b.2)

/-- The area that the next drain writes (R263). -/
def State.nextArea (s : State) : Bool := match s.ckpt.latest with
  | some a => !a
  | none => false

/-- A word of deep memory inside a drain area. -/
def State.inArea (s : State) (a w : Nat) : Bool := decide (s.areaBase a ≤ 64 * w) && decide (64 * w < s.areaBase a + s.areaSize)

/-- Every region of the job is drained into an area; an area that held the latest checkpoint holds it no more. -/
def State.drainJob (s : State) (area : Bool) : State :=
  let r := s.drainList s.job.members
  let s := r.2
  let a := if area then 1 else 0
  let keep := s.ckpt.rewritten.filter fun w => !s.inArea a w
  let latest := if s.ckpt.latest = some area then none else s.ckpt.latest
  { s with ckpt :=
    if area then { s.ckpt with area1 := r.1, conns1 := s.conns, image1 := some s.imageId, phase1 := s.job.phase, between1 := s.job.between.change, rewritten := keep, latest := latest }
    else { s.ckpt with area0 := r.1, conns0 := s.conns, image0 := some s.imageId, phase0 := s.job.phase, between0 := s.job.between.change, rewritten := keep, latest := latest } }

/-- Genhan compares digests of a step (R357, R359): it is a multiple of the interval, and two replicas or more have their roots in this package. -/
def State.comparesAt (s : State) (step : BitVec 48) : Bool :=
  decide (s.job.digD ≠ 0) && decide (step.toNat % s.job.digD.toNat = 0) &&
    decide (2 ≤ (s.job.digReplicas.filter fun e => decide (e.extractLsb' 16 12 = s.pkg)).length)

/-- A mismatch of a step or of an earlier one is open (R361). -/
def State.mismatchOpen (s : State) (step : BitVec 48) : Bool :=
  s.genhan.incidents.any fun x => decide (x.code.toNat = fDigestMismatch) && decide (x.verdict = 0) && decide (x.step ≤ step)

/-- Every digest of a step that Genhan compares has matched, and no mismatch of it or of an earlier step is open (R361). -/
def State.digestsMatched (s : State) (step : BitVec 48) : Bool :=
  (!s.comparesAt step || s.genhan.digSeen.contains (step, true)) && !s.mismatchOpen step

/-- A completed drain becomes the latest complete checkpoint where R361 allows; Genhan writes its area and image identity to management flash
(R263); then the event CHECKPOINT. A drain whose digests are still to come waits for them. -/
def State.promote (s : State) (area : Bool) (step : BitVec 48) : State :=
  if s.digestsMatched step then
    let s : State := { s with ckpt := { s.ckpt with latest := some area, unproven := none }, nv := { s.nv with ckptArea := some (area, s.imageId) } }
    s.raiseEvent 0x0002 none ([if area then 1 else 0] ++ List.replicate 7 0 ++ leBytes 6 step.toNat)
  else { s with ckpt := { s.ckpt with unproven := if s.mismatchOpen step || s.genhan.digSeen.any (fun d => decide (d.1 = step)) then none else some (area, step) } }

/-- The digests of a step have been compared: where all matched, a complete drain of it that waits for them is promoted. -/
def State.seeDigests (s : State) (step : BitVec 48) (ok : Bool) : State :=
  let s : State := { s with genhan := { s.genhan with digSeen := (s.genhan.digSeen.filter fun d => decide (d.1 ≠ step)) ++ [(step, ok)] } }
  if !ok then { s with ckpt := { s.ckpt with unproven := none } }
  else match s.ckpt.unproven with
  | some (a, t) => if t = step then s.promote a t else s
  | none => s

/-- The step index of a drain: the cox's of the first cluster. -/
def State.jobStepIndex (s : State) : BitVec 48 := match s.job.members with
  | k :: _ => (s.cluster k).step
  | [] => 0

/-! ### Restores (R132, R263) -/

/-- A container segment as RESTORE demands it: code, identity and form. -/
def containerOk (a j n : Nat) (seg : Bytes) : Bool :=
  draocOk seg && decide (segTensor seg = 0xFFFFFF00 + a) && decide (segRow seg = j) && decide (segCol seg = n / 2) &&
  decide (bytesAt seg 16 48 = bytesAt (containerHeader (0xFFFFFF00 + a) j (n / 2) 0 n) 16 48)

/-- Payload byte run of container segment `n` written over a snapshot: scratchpads, schedule stores and the items of Table 3.8 whose place
Table 4.13 gives (log entry 24). -/
def Snapshot.patch (x : Snapshot) (n : Nat) (b : Bytes) : Snapshot :=
  b.zipIdx.foldl (fun x v =>
    let p := 2048 * n + v.2
    if p < 0x1000 then x
    else
      let c := (p - 0x1000) / 0x26000
      let r := (p - 0x1000) % 0x26000
      let y := SMap.get {} x.cores c
      if r < 0x20000 then { x with cores := SMap.set {} x.cores c { y with spad := SMap.set 0 y.spad r v.1 } }
      else if r < 0x24000 then
        let i := (r - 0x20000) / 16
        let sh := 8 * (r % 16)
        let w := (SMap.get 0 y.store i) &&& ~~~(BitVec.ofNat 128 (255 * 2 ^ sh)) ||| BitVec.ofNat 128 (v.1.toNat * 2 ^ sh)
        { x with cores := SMap.set {} x.cores c { y with store := SMap.set 0 y.store i w } }
      else if r < 0x24000 + scanBase then x
      else
        let old := y.scanned
        let i := r - 0x24000 - scanBase
        if i < old.length ∧ old[i]? ≠ some v.1 then { x with cores := SMap.set {} x.cores c (y.unscan (old.set i v.1)) } else x) x

/-- Container segments of record `j` of an area that hold a word the host rewrote. -/
def State.touched (s : State) (a j : Nat) : List Nat :=
  ((s.ckpt.rewritten.filterMap fun w =>
    let o := 64 * w
    let lo := s.areaBase a + j * drainSize
    if lo ≤ o ∧ o < lo + drainSize then some ((o - lo) / 2112) else none).dedup)

/-- The record of a snapshot as RESTORE reads it back: none where a segment fails its check. -/
def State.readBack (s : State) (a : Nat) (x : Snapshot) : Option Snapshot :=
  let j := x.die.val * s.mappedPerDie + x.logical.toNat
  (s.touched a j).foldl (fun r n => match r with
    | none => none
    | some y =>
      let o := s.areaBase a + j * drainSize + 2112 * n
      let seg := s.deepBytes o 2112
      if (s.deepBad o 2112).isSome || !containerOk a j n seg then none else some (y.patch n (bytesAt seg 64 2048))) (some x)

/-- What a restored cluster takes from its record; what belongs to the physical cluster stays. -/
def Cluster.restoreFrom (x r : Cluster) : Cluster :=
  { r with
    run := (match r.run with
      | .running => Run.stopped
      | .halted => .stopped
      | o => o)
    armed := false, faultCode := none, stallLine := false, endFaults := [], drained := false
    wp := x.wp, edge := x.edge, diag := false, gated := false, quiesced := x.quiesced, fifoReset := x.fifoReset, fwBuf := x.fwBuf, fwOk := x.fwOk,
    fwTries := x.fwTries, lastIssue := x.lastIssue, lastStall := x.lastStall, ceiling := x.ceiling, hotRun := x.hotRun,
    passed := x.passed, deferred := x.deferred, testing := x.testing, stress := x.stress, trim := x.trim, testVoid := x.testVoid
    forcedStall := x.forcedStall, skew := x.skew }

/-- A record goes into the physical cluster that now carries its logical number (R132); its streams run again (R276). Where an anchor-setting
operation is still pending in the saved pipelines, R40's 'the anchor is the one the EAs hold' and R65 differ; the model keeps the anchors in
issue order (`teIss`, `laneIss`) across drain and restore, so that neither changes a result (DESIGN CHOICE, log entry 112). -/
def State.restoreCluster (s : State) (x : Snapshot) : State :=
  match s.physical x.die.val x.logical with
  | none => s
  | some k =>
    let s := s.modCluster k fun y => y.restoreFrom x.cluster
    let s := s.modCores k fun c _ => { SMap.get {} x.cores c.core.val with lost := (x.lost.filter fun p => decide (p.1 = c.core.val)).map (·.2) }
    x.streams.foldl (fun s t => { s with streams := SMap.set {} s.streams t.1 { t.2 with faulted := false } }) s

end Sys2Proof.Machine
end

