-- ==== Sys2Proof/Machine/Faults.lean ====
section
/-! DEFINITION. Fault reports, digests, incidents, spares and moves, QUIESCE, stress tests and the checkpoint (R25, R196, R353 to R376). -/

namespace Sys2Proof.Machine

/-! ### The repair map and spares (R24, R344, R434) -/

def rMapped : Nat := 0
def rSpare : Nat := 1
def rDefective : Nat := 2
def rUnmapped : Nat := 3

/-- An entry of the map (Table 16.11); STRESS_AGE is read from the cluster. -/
def mapEntry (role : Nat) (cl : BitVec 9) : BitVec 32 := BitVec.ofNat 2 role ++ (0 : BitVec 21) ++ cl

def State.setEntry (s : State) (k : ClusterAt) (role : Nat) (cl : BitVec 9) : State :=
  { s with repairMap := SMap.set 0 s.repairMap (clusterKey k) (mapEntry role cl) }

def State.role (s : State) (k : ClusterAt) : Nat := (roleOf (s.entryOf k)).toNat

/-- The clusters of a die. -/
def dieClusters (die : Fin 24) : List ClusterAt := (List.finRange 288).map fun p => ⟨die, p⟩

def State.sparesOf (s : State) (die : Fin 24) : List ClusterAt := (dieClusters die).filter fun k => decide (s.role k = rSpare)

/-- The half-die domain of a cluster is about to go off for heat (R394). -/
def State.eclipseDue (s : State) (k : ClusterAt) : Bool :=
  s.power.eclipseOwed.any (fun d => decide (d.val = (domainOf k).val)) || s.power.eclipsing.any fun e => decide (e.1.val = (domainOf k).val) && decide (e.2.1 = 1)

/-- The spares of a die that can be mapped: their half of the die is on, in no QUIESCE and not about to be eclipsed (R400). -/
def State.usableSpares (s : State) (die : Fin 24) : List ClusterAt :=
  (s.sparesOf die).filter fun k => (s.domain (domainOf k)).powered && !(s.domain (domainOf k)).quiesced && !s.eclipseDue k

/-- The empty spares that a die has left: those, and those that a coolant stop has taken for a time (R398). -/
def State.sparesLeft (s : State) (die : Fin 24) : List ClusterAt :=
  (s.sparesOf die).filter fun k => let x := s.domain (domainOf k); (x.powered && !s.eclipseDue k) || (x.eclipsed && decide (x.cause = 2))

/-- The map is written as the copy with the next sequence number, over the copy that is not in force (R344), after a write that is still under way. Its
digest matches once the write ends (R352). -/
def State.writeRepair (s : State) : State :=
  let n := s.nv.finishWrites
  let c : RepairCopy := { seq := s.repairSeq + 1, ok := false, entries := s.repairMap }
  let first := match n.repair0 with
    | some r => r.ok && decide (r.seq = s.repairSeq)
    | none => false
  { s with
    repairSeq := s.repairSeq + 1
    nv := if first then { n with repair1 := some c, repairBusy := some true } else { n with repair0 := some c, repairBusy := some false } }

/-- SPARE_LOW (R371). -/
def State.spareCheck (s : State) (die : Fin 24) : State :=
  let n := (s.sparesOf die).length
  if n < s.spareMinimum then s.raiseEvent 0x0018 none [BitVec.ofNat 8 die.val, BitVec.ofNat 8 n] else s

/-- REMAP_REQUIRED (Table 13.4). -/
def State.remapRequired (s : State) (cause unit : Nat) (cl : BitVec 9 := 0) : State :=
  s.raiseEvent 0x0014 none ([BitVec.ofNat 8 cause, BitVec.ofNat 8 unit] ++ leBytes 2 cl.toNat)

/-- CLUSTER_RETIRED. -/
def State.retiredEvent (s : State) (k : ClusterAt) (cl : BitVec 9) (new : Option (Fin 288)) : State :=
  s.raiseEvent 0x0013 none ([BitVec.ofNat 8 k.die.val] ++ leBytes 2 k.pcl.val ++ leBytes 2 cl.toNat ++
    leBytes 2 ((new.map (·.val)).getD 0xFFFF) ++ [BitVec.ofNat 8 (s.sparesOf k.die).length])

/-- The cores of a cluster hold the reset state of Table 3.8 (R101), and the gate cuts them where no logical cluster is carried (R386). -/
def State.clearCluster (s : State) (k : ClusterAt) : State :=
  let s := s.modCores k fun _ _ => {}
  let off := decide (s.role k ≠ rMapped)
  s.modCluster k fun x =>
    let y : Cluster := { x with
      run := .idle, armed := false, faultCode := none, cycle := 0, stallLine := false, accepted := false, issued := 0
      endFaults := [], clocks := 0, step := 0, catches := [], reds := [], groups := [], ckptId := none, ckptStopped := false, region := 0
      drained := false }
    { y with diag := false, testing := false, stress := false, trim := 0, testVoid := false, gated := off }

/-! ### QUIESCE (R373, R374) -/

/-- Code and unit number of a part (Table 13.7). -/
def partCode : Part → Nat × Nat
  | .cluster k => (0, k.pcl.val)
  | .halfDie d => (1, d.val)
  | .moon m => (2, m.val)
  | .link l => (3, l.val)
  | .host => (4, 0)
  | .package => (5, 0)

/-- OFFLINE on every port of a link die that carries traffic (R302). -/
def State.sendOffline (s : State) (l : Nat) (reason : Nat) : State :=
  (List.range 8).foldl (fun s j => if (s.port (8 * l + j)).carries then s.sendLink (8 * l + j) [5, BitVec.ofNat 8 reason] else s) s

/-- A part takes no further request, or takes them again, and its boundary FIFOs pass flits. -/
def State.setQuiesce (s : State) (p : Part) (q : Bool) : State :=
  let dom (s : State) (d : Fin 61) : State := s.modDomain d fun x => { x with quiesced := q, fifoReset := q && x.fifoReset }
  match p with
  | .cluster k => s.modCluster k fun x => { x with quiesced := q, fifoReset := q && x.fifoReset }
  | .halfDie d => dom s ⟨d.val, by omega⟩
  | .moon m => dom s ⟨56 + m.val, by omega⟩
  | .link l => dom (if q then s.sendOffline l.val 1 else s) ⟨48 + l.val, by omega⟩
  | .host => dom s 60
  | .package => (List.finRange 61).foldl dom (if q then (List.range 8).foldl (fun s l => s.sendOffline l 1) s else s)

def State.quiesceEvent (s : State) (p : Part) (returned : Bool) : State :=
  let c := partCode p
  s.raiseEvent 0x0019 none [BitVec.ofNat 8 c.1, BitVec.ofNat 8 c.2, if returned then 1 else 0]

/-- Clusters of a part. -/
def partClusters : Part → List ClusterAt
  | .cluster k => [k]
  | .halfDie d => allClusters.filter fun k => decide ((domainOf k).val = d.val)
  | .package => allClusters
  | _ => []

/-- Bytes that an access has still to write. -/
def FabricJob.unwritten (j : FabricJob) : Nat :=
  (j.ops.map fun o => match o with
    | .write _ b => b.length
    | _ => 0).sum

/-- The writes of an access that has begun are all performed. -/
def State.finishWrite (s : State) (c : CoreAt) (j : FabricJob) : State :=
  s.modCore c fun x => j.ops.foldl (fun x o => match o with
    | .write a b => x.write a b
    | _ => x) x

/-- An access that waits on the fabric side is not performed: a request or record is answered with TARGET_OFFLINE (R254, R373 step 3). A write that has
begun is performed whole, and acknowledged with OK; so is a record all of whose bytes stand (R374). -/
def State.refuseJob (s : State) (c : CoreAt) (j : FabricJob) : State :=
  match j.ops, j.fin with
  | [], .recorded ep ack => s.recorded c ep ack
  | _, .written a => if j.unwritten < accLength a then (s.finishWrite c j).ackWrite c a 0 j.txn else s.ackWrite c a 4 j.txn
  | _, .replied a => s.replyTo c a 4 0 [] j.txn
  | _, .recorded _ (some h) => s.ackRecord c h 4
  | _, _ => s

/-- A cluster belongs to a part. -/
def partHas (p : Part) (k : ClusterAt) : Bool :=
  match p with
  | .cluster j => decide (j = k)
  | .halfDie d => decide ((domainOf k).val = d.val)
  | .package => true
  | _ => false

/-- The fabric side of a core stops for good, and what waits there is answered. -/
def State.flushCore (s : State) (c : CoreAt) : State :=
  (s.core c).fabricJobs.foldl (fun s j => s.refuseJob c j) (s.modCore c fun x => { x with fqReduce := [], fqBulk := [], fqMgmt := [], ceWait := [], generating := [] })

/-- The fabric side of the clusters of a part stops for good (R76). -/
def State.flushPart (s : State) (p : Part) : State :=
  let cs := (s.cores.filterMap fun q => coreAtKey q.1).filter fun c => partHas p (clusterOf c) && !(s.core c).fabricJobs.isEmpty
  cs.foldl State.flushCore s

/-- Detours around a part are to be installed: the channels are held for it (R103, R216, R217, R373). -/
def State.fence (s : State) (q : Part) : State :=
  let g := s.genhan
  ({ s with genhan := { g with
    wanted := if g.avoid.contains q || g.wanted.contains q then g.wanted else g.wanted ++ [q], unwanted := g.unwanted.erase q } } : State).hold

/-- A part is on the mesh: its QUIESCE has detours. -/
def onMesh : Part → Bool
  | .cluster _ | .halfDie _ => true
  | _ => false

/-- Steps 1 to 3 of R373: the part takes no request, what waits there is answered, and where it is on the mesh detours are wanted. Step 4 follows with the
tables (ROUTE_TABLE_CHANGE). -/
def State.enterQuiesce (s : State) (p : Part) : State :=
  let s := ((s.setQuiesce p true).quiesceEvent p false).flushPart p
  if onMesh p then s.fence p else s

def State.coolantEvent (s : State) (kind : Nat) : State :=
  s.raiseEvent 0x002A none ([BitVec.ofNat 8 kind] ++ leBytes 2 s.genhan.inlet ++ leBytes 2 s.genhan.flow ++ leBytes 2 (s.power.coolLimit / 100))

/-- An eclipsed domain is back behind no boundary (R396): the event, and that of a coolant stop with the last one (R398). -/
def State.eclipseOver (s : State) (d : Fin 48) : State :=
  let x := s.domain ⟨d.val, by omega⟩
  if x.cause = 0 || x.eclipsed then s
  else
    let s := (s.modDomain ⟨d.val, by omega⟩ fun y => { y with cause := 0 }).raiseEvent 0x0029 none [BitVec.ofNat 8 d.val, 1, x.cause]
    if s.power.coolantStop && s.power.eclipsing.isEmpty && (List.finRange 48).all fun e => decide ((s.domain ⟨e.val, by omega⟩).cause ≠ 2) then
      ({ s with power := { s.power with coolantStop := false } } : State).coolantEvent 3
    else s

/-- A part takes requests again. -/
def State.leaveQuiesce (s : State) (p : Part) : State :=
  let s := (s.setQuiesce p false).quiesceEvent p true
  match p with
  | .halfDie d => s.eclipseOver d
  | _ => s

/-- A part returns: behind installed detours it stays in QUIESCE until the tables are restored (R374); else it takes requests again at once. -/
def State.returnPart (s : State) (q : Part) : State :=
  let g := s.genhan
  let s : State := { s with genhan := { g with
    wanted := g.wanted.erase q, unwanted := if g.avoid.contains q && !g.unwanted.contains q then g.unwanted ++ [q] else g.unwanted } }
  if g.avoid.contains q then s.hold else s.leaveQuiesce q

/-- A packet is addressed to a core of a part. -/
def State.isTo (s : State) (q : Part) (p : Packet) : Bool :=
  decide (p.exit = 0) && (match s.coreAt p.dst with
    | some c => partHas q (clusterOf c)
    | none => false)

/-- A packet of the mesh stands in a part, or its way passes through it. -/
def meets (q : Part) (p : Packet) : Bool :=
  !p.out && (inPart q p.at_ || partOnLeg p.at_ p.target q || (p.detour && !p.phase && (partOnLeg p.wayIn p.dest q || inPart q p.wayIn)))

/-- A part that is cut off takes nothing any more: what is on its way to it is answered (R373 step 3), and what passes through it is lost (DESIGN CHOICE,
log entry 125: nothing passes an orderly QUIESCE any more, and of a part that fails the spec does not say). -/
def State.evict (s : State) (q : Part) : State :=
  let mine := (s.mesh ++ s.waiting).filter (s.isTo q)
  let through := s.mesh.filter fun p => !s.isTo q p && meets q p
  let s := (through.map (·.id)).dedup.foldl State.lose s
  (mine.map (·.id)).dedup.foldl (fun s i => match mine.find? fun p => decide (p.id = i) with
    | some p => (s.lose i).answerOffline p.at_ p
    | none => s) s

/-- The boundary FIFOs of a part are held in reset (R373 step 4, R395); what its cores have not injected yet enters at the boundary. -/
def State.seal (s : State) (q : Part) : State :=
  let s := match q with
    | .cluster k => s.modCluster k fun x => { x with fifoReset := true }
    | .halfDie d => s.modDomain ⟨d.val, by omega⟩ fun x => { x with fifoReset := true }
    | _ => s
  { s with waiting := s.waiting.map fun p =>
      if p.gone = 0 ∧ inPart q p.at_ ∧ 4 ≤ p.port.toNat then
        let a := s.sourceAt p.at_ p
        { p with col := BitVec.ofNat 10 a.1, row := BitVec.ofNat 10 a.2 }
      else p }

/-- A cluster fails at once: it enters QUIESCE without its order (R365). -/
def State.cutOff (s : State) (k : ClusterAt) : State :=
  let s := if (s.cluster k).quiesced then s else s.enterQuiesce (.cluster k)
  (s.evict (.cluster k)).seal (.cluster k)

/-- The tables may be written: the channels are held and empty (R217). -/
def State.mayWriteTables (s : State) : Bool := s.genhan.held && s.heldEmpty

/-- A part enters QUIESCE; the ports of a link die go down, as the host asked or the die is to be switched off; what is outstanding at a
moon die is answered. -/
def execQuiesce (p : Part) (s : State) : Host.Outcome State Fault Refusal :=
  let s := s.enterQuiesce p
  .next (match p with
    | .link l => (List.range 8).foldl (fun s j =>
        let i := 8 * l.val + j
        if (s.port i).state = .disabled then s else s.takeOffline i) s
    | .moon m => s.dropStreams m.val false
    | _ => s)

/-! ### Retirement and moves (R25, R363 to R367, R370) -/

/-- A cluster is marked defective (R104, R363). -/
def State.markDefective (s : State) (k : ClusterAt) : State :=
  { s.setEntry k rDefective 0 with nv := { s.nv with defects := s.nv.defects ++ [clusterKey k] } }

/-- A defective cluster whose logical number finds no spare: the number is left unmapped (R27, R363, R367). The entry of Table 16.11 has one role
for both, and the model gives it the one that keeps the number. -/
def State.strandOne (s : State) (k : ClusterAt) : State :=
  match s.logical k with
  | none => s
  | some cl =>
    let s := (s.markDefective k).setEntry k rUnmapped cl
    let s := (({ s with genhan := { s.genhan with toRetire := s.genhan.toRetire.erase k } } : State)).clearCluster k
    (s.writeRepair.retiredEvent k cl none).remapRequired 5 k.die.val cl

/-- With no usable spare left on a die, the clusters that wait there for a move lose their numbers. -/
def State.strand (s : State) (die : Fin 24) : State :=
  if s.sparesLeft die = [] then (s.genhan.toRetire.filter fun k => decide (k.die = die)).foldl State.strandOne s else s

/-- A cluster is marked defective, and enters QUIESCE (R373). A mapped one waits for its move to a spare; with no empty spare on the die its logical
cluster is left unmapped, and a job that uses it cannot stand. -/
def State.retire (s : State) (k : ClusterAt) : State :=
  let s := if (s.cluster k).quiesced then s else s.enterQuiesce (.cluster k)
  match s.logical k with
  | none => ((s.markDefective k).writeRepair.spareCheck k.die).strand k.die
  | some _ =>
    let s : State := { s with genhan := { s.genhan with toRetire := (s.genhan.toRetire ++ [k]).dedup } }
    s.strand k.die

/-- The drain record of a logical cluster in an area. -/
def State.recordOf (s : State) (area : Bool) (die : Fin 24) (cl : BitVec 9) : Option Snapshot :=
  (if area then s.ckpt.area1 else s.ckpt.area0).find? fun x => decide (x.die = die) && decide (x.logical = cl)

/-- A cluster that carries a loaded job's records gets them from the image. -/
def State.reloadCluster (s : State) (die : Fin 24) (cl : BitVec 9) : State :=
  let recs := (imageRecs s.job.image).1
  let rs := (phaseRun recs s.job.phase.toNat).getD []
  let s := s.loadCluster rs (feeds rs) (runStreams rs (regionOf recs)) (die.val, cl.toNat)
  match s.physical die.val cl with
  | some k => s.modCluster k fun x => x.markDigests s.pkg s.job.digReplicas
  | none => s

/-- A logical cluster moves to a spare of its die, which gets its schedule image. `keep`: the released cluster stays a spare (rotation); `rec`: its
state, from the drain. -/
def State.moveCluster (s : State) (k sp : ClusterAt) (cl : BitVec 9) (keep : Bool) (rec : Option Snapshot) : State :=
  let s := (if keep then s.setEntry k rSpare 0 else s.markDefective k).setEntry sp rMapped cl
  let s := (s.clearCluster k).clearCluster sp
  let s : State := { s with
    job := { s.job with members := s.job.members.map fun j => if j = k then sp else j }
    genhan := { s.genhan with toRetire := s.genhan.toRetire.erase k } }
  let s := match rec with
    | some x => s.restoreCluster x
    | none => if decide (s.job.state ≠ JobState.idle) && s.job.members.contains sp then s.reloadCluster sp.die cl else s
  let s := s.writeRepair.setVoltages
  if keep then s else ((s.retiredEvent k cl (some sp.pcl)).spareCheck k.die).strand k.die

/-- Ticks of the Stroke Counter since a cluster's last passed stress test (R369). -/
def State.sincePass (s : State) (k : ClusterAt) : Option Nat := (s.cluster k).passed.map fun t => s.time.sc.toNat - t.toNat

/-- An hour in ticks. -/
def hourTicks : Nat := 3600000000000

/-- A cluster has passed its stress test within 168 h (R369, R372). -/
def State.passedLately (s : State) (k : ClusterAt) : Bool := (s.sincePass k).any fun n => decide (n ≤ 168 * hourTicks)

/-- A spare may be mapped: usable, in no QUIESCE, its last stress test passed within 168 h (R372). -/
def State.spareFit (s : State) (sp : ClusterAt) : Bool :=
  (s.usableSpares sp.die).contains sp && !s.offline sp && !(s.cluster sp).testing && s.passedLately sp

/-- The spare that step 4 of Table 13.3 takes: the lowest-numbered empty one; one that is in QUIESCE for another reason than a test is passed over. -/
def State.chosenSpare (s : State) (die : Fin 24) : Option ClusterAt :=
  (s.usableSpares die).find? fun k => !(s.cluster k).quiesced || (s.cluster k).testing || s.genhan.unwanted.contains (.cluster k)

/-- The job stands in the test window of a checkpoint: drained and not yet relaunched (R369). -/
def State.atCheckpoint (s : State) : Option Bool :=
  match s.job.between with
  | .checkpoint _ a => if s.job.window ∧ s.job.state = .running then some a else none
  | _ => none

/-! ### Stress tests (R368 to R372) -/

/-- Clusters of a die under test. -/
def State.testsOn (s : State) (die : Fin 24) : Nat := ((dieClusters die).filter fun k => (s.cluster k).testing).length

/-- A cluster goes into QUIESCE and diagnostic fabric mode for a stress test, or for the plain known-answer runs, with detours around it, as the test
covers its I/O tiles (R101, R103, R373); its stall line is inactive; of a stress test the voltages follow (R368). With eight clusters of its die under
test, it is deferred. -/
def State.startTest (s : State) (stress : Bool) (k : ClusterAt) : State :=
  if 8 ≤ s.testsOn k.die then s.modCluster k fun x => { x with deferred := if x.deferred.isNone then some 0 else x.deferred }
  else
    let s := if (s.cluster k).quiesced then s else s.enterQuiesce (.cluster k)
    let s := s.modCluster k fun x => { x with testing := true, stress := stress, diag := true, gated := false, stallLine := false, testVoid := false }
    if stress then s.setVoltages else s

/-- Genhan's work after a checkpoint drain is finished: a recorded phase change goes on, else the relaunch (R133, R197). -/
def State.afterCheckpoint (s : State) : State := match s.job.nextPhase with
  | some q => s.loadTransfer q
  | none => s.ownDone

/-- A rotation that a die can make (R370): a due member, a fit spare of the die, the number and its record. -/
def State.rotation (s : State) (a : Bool) (k sp : ClusterAt) : Option (BitVec 9 × Snapshot) :=
  if s.host.testPolicy = 1 && s.job.members.contains k && (s.cluster k).deferred.isSome && !s.job.rotated.contains k.die && decide (sp.die = k.die) &&
      s.spareFit sp then
    (s.logical k).bind fun cl => (s.recordOf a k.die cl).map fun x => (cl, x)
  else none

/-- Some die has a rotation still to make. -/
def State.rotationDue (s : State) (a : Bool) : Bool :=
  s.job.members.any fun k => (s.sparesOf k.die).any fun sp => (s.rotation a k sp).isSome

/-- The test window ends once no rotation is due and every cluster of the job is back (R369, R370). -/
def State.tryWindow (s : State) : State :=
  match s.atCheckpoint with
  | some a =>
    if s.rotationDue a || s.job.members.any fun k => (s.cluster k).testing || (s.cluster k).quiesced then s
    else ({ s with job := { s.job with window := false, rotated := [] } } : State).afterCheckpoint
  | none => s

/-- A rotation at a checkpoint (R370): the member moves to the spare with its record, and the released cluster is tested. -/
def State.rotate (s : State) (a : Bool) (k sp : ClusterAt) : State :=
  match s.rotation a k sp with
  | none => s
  | some q =>
    if !s.mayWriteTables then s.hold
    else
      let s : State := { s with job := { s.job with rotated := s.job.rotated ++ [k.die] } }
      (((s.moveCluster k sp q.1 true (some q.2)).release).startTest true k).tryWindow

/-- The move of a retired cluster's number (R25, R364, R365): once the job is halted and has settled, to the lowest-numbered spare of the die, which passes
the stress test first. -/
def State.recover (s : State) (k sp : ClusterAt) (cl : BitVec 9) : State :=
  if s.genhan.toRetire.contains k && !s.jobLive && decide (s.job.state ≠ .halting) && s.settled s.job.members && decide (s.chosenSpare k.die = some sp) then
    if (s.cluster sp).quiesced then s
    else if !s.passedLately sp then s.startTest true sp
    else if s.mayWriteTables then (s.moveCluster k sp cl false none).release
    else s.hold
  else s

/-- Genhan moves a logical cluster: in a rotation, or to replace a retired one. Tables are written only while the held virtual channels are empty (R217). -/
def execClusterMove (die : Fin 24) (logical : BitVec 9) (spare : Fin 288) (rotation : Bool) (s : State) : Host.Outcome State Fault Refusal :=
  match s.physical die.val logical with
  | none => .next s
  | some k =>
    if rotation then .next (match s.atCheckpoint with
      | some a => s.rotate a k ⟨die, spare⟩
      | none => s)
    else .next (s.recover k ⟨die, spare⟩ logical)

/-- A suspect of a permanent incident under test (R363). -/
def State.suspect (s : State) (k : ClusterAt) : Bool := s.genhan.suspectTests.any fun q => q.2.2.1.contains k

/-- A cluster of the job is halted and drained (R101): its job is stopped, or stands at a checkpoint, and its drain is done; for a suspect a
settling drain (R365) is enough. -/
def State.haltedDrained (s : State) (k : ClusterAt) : Bool :=
  (s.atCheckpoint.isSome || decide (s.job.state = .halted) || decide (s.job.state = .faulted)) &&
  ((s.cluster k).drained || (s.suspect k && s.settled [k]))

/-- Eligible (R101): a spare, not mapped in the loaded job, or halted and drained. -/
def State.eligible (s : State) (k : ClusterAt) : Bool :=
  decide (s.role k ≠ rDefective) && !s.nv.defects.contains (clusterKey k) && !s.offline k && (!s.job.members.contains k || s.haltedDrained k)

/-- A cluster is due for a stress test: 168 h after its last pass, with none passed at once, or as a suspect (R363, R369). -/
def State.testDue (s : State) (k : ClusterAt) : Bool :=
  s.suspect k || (match s.sincePass k with
    | some n => decide (168 * hourTicks ≤ n)
    | none => true)

/-- A cluster falls due: tested at once, or deferred. -/
def execStressTestDue (k : ClusterAt) (s : State) : Host.Outcome State Fault Refusal :=
  if s.role k = rDefective ∨ (s.cluster k).testing ∨ !s.testDue k then .next s
  else if s.eligible k && (!s.job.members.contains k || s.suspect k) then .next (s.startTest true k)
  else .next (s.modCluster k fun x => { x with deferred := if x.deferred.isNone then some 0 else x.deferred })

/-- A deferral has reached its maximum, or a further one. -/
def execTestOverdue (k : ClusterAt) (s : State) : Host.Outcome State Fault Refusal :=
  match (s.cluster k).deferred with
  | none => .next s
  | some h =>
    let n := h + s.host.maxDefer.toNat
    let s := s.modCluster k fun x => { x with deferred := some n }
    .next (s.raiseEvent 0x0017 none ([BitVec.ofNat 8 k.die.val] ++ leBytes 2 k.pcl.val ++ List.replicate 5 0 ++ leBytes 4 n))

def State.testEvent (s : State) (k : ClusterAt) (v : Verdict) : State :=
  let r : Nat × Nat × Nat := match v with
    | .pass => (0, 0, 0)
    | .fail c t _ => (1, c.val, t.val)
    | .void => (2, 0, 0)
  s.raiseEvent 0x0016 none ([BitVec.ofNat 8 k.die.val] ++ leBytes 2 k.pcl.val ++ [BitVec.ofNat 8 r.1, BitVec.ofNat 8 r.2.1, BitVec.ofNat 8 r.2.2])

/-- The outcome of a test is noted: of a stress test the count of its pass or its deferral, and the role of a cluster that failed (R104, R371). -/
def State.noteVerdict (s : State) (stress : Bool) (k : ClusterAt) (v : Verdict) : State :=
  match v with
  | .pass => if stress then s.modCluster k fun x => { x with passed := some s.time.sc, deferred := none } else s
  | .void => if stress then s.modCluster k fun x => { x with deferred := if x.deferred.isNone then some 0 else x.deferred } else s
  | .fail c t out => (s.noteDiag ⟨k, c, t, out⟩).retire k

/-- The verdict on a test whose conditions could not be held is void (R368). -/
def State.ruled (s : State) (k : ClusterAt) (v : Verdict) : Verdict := if (s.cluster k).testVoid then .void else v

/-- A test of a cluster ends: it leaves diagnostic fabric mode with the reset state (R101), and unless it failed it returns from QUIESCE (R103, R374); the
outcome is reported and noted. -/
def State.endTest (s : State) (k : ClusterAt) (v : Verdict) : State :=
  let stress := (s.cluster k).stress
  let v := s.ruled k v
  let s := s.clearCluster k
  let s := match v with
    | .fail _ _ _ => s
    | _ => s.returnPart (.cluster k)
  let s := if stress then s.setVoltages else s
  (s.testEvent k v).noteVerdict stress k v

/-- Suspects of a permanent incident under test (R363): one more has been tested; answers with the incident that ends without a failure. -/
def suspectStep (k : ClusterAt) (failed : Bool) (q : BitVec 16 × BitVec 48 × List ClusterAt × Bool) : BitVec 16 × BitVec 48 × List ClusterAt × Bool :=
  if q.2.2.1.contains k then (q.1, q.2.1, q.2.2.1.erase k, q.2.2.2 || failed) else q

/-- Each failing suspect is retired; with none, INCIDENT_UNRESOLVED. -/
def State.suspectDone (s : State) (k : ClusterAt) (failed : Bool) : State :=
  let l := s.genhan.suspectTests.map (suspectStep k failed)
  let s : State := { s with genhan := { s.genhan with suspectTests := l.filter fun q => decide (q.2.2.1 ≠ []) } }
  (l.filter fun q => decide (q.2.2.1 = []) && !q.2.2.2).foldl (fun s q =>
    s.raiseEvent 0x0015 none ([0] ++ leBytes 2 q.1.toNat ++ List.replicate 5 0 ++ leBytes 6 q.2.1.toNat)) s

def verdictFailed (v : Verdict) : Bool := match v with
  | .fail _ _ _ => true
  | _ => false

/-- The fit spare to which a mapped cluster moves (R370, R372). -/
def State.spareFor (s : State) (k : ClusterAt) : Option ClusterAt := (s.sparesOf k.die).find? s.spareFit

/-- A test of a cluster in place at a checkpoint ends (R369): its state comes back from its record; a failing one moves to a fit spare of the die
with it, and where there is none the job cannot go on. One whose job has been stopped meanwhile waits for the recovery. -/
def State.inPlaceDone (s : State) (k : ClusterAt) (failed : Bool) : State :=
  let s : State := { s with job := { s.job with inPlace := s.job.inPlace.erase k } }
  match (s.logical k).bind fun cl => (s.recordOf s.job.windowArea k.die cl).map fun x => (cl, x) with
  | none => s
  | some q =>
    if !failed then s.restoreCluster q.2
    else if s.atCheckpoint.isNone then s
    else match s.spareFor k with
      | some sp => (s.moveCluster k sp q.1 false (some q.2)).release
      | none => (s.haltJob 4 0 true).jobStep

/-- A test of a cluster ends with a verdict. A void one leaves a suspect still to be tested; a cluster in place at a checkpoint gets its state back. -/
def State.testOver (s : State) (k : ClusterAt) (v : Verdict) : State :=
  let v := s.ruled k v
  let failed := verdictFailed v
  let t := s.endTest k v
  let t := if v = .void then t else t.suspectDone k failed
  if s.job.inPlace.contains k then t.inPlaceDone k failed else t

/-- The same, and the test window of a checkpoint may end with it. -/
def State.testEnds (s : State) (k : ClusterAt) (v : Verdict) : State := (s.testOver k v).tryWindow

/-- A stress test ends; its operations on the test network come with it. It runs only behind its detours (R103), and a failing cluster that is
to move at a checkpoint waits for the held channels (R217). -/
def execStressTestDone (k : ClusterAt) (run : TestRun) (s : State) : Host.Outcome State Fault Refusal :=
  if !(s.cluster k).testing || s.genhan.wanted.contains (.cluster k) then .next s
  else if s.job.members.contains k && verdictFailed (s.ruled k run.verdict) && s.atCheckpoint.isSome && (s.spareFor k).isSome && !s.mayWriteTables then
    .next s.hold
  else .next ((s.tileRun run.ops).testEnds k run.verdict)

/-! ### A part returns (R373) -/

/-- The clusters of a part after their known-answer runs (R104): one that failed is retired, the others hold the reset state. -/
def State.clustersReturn (s : State) (ks : List ClusterAt) (fails : List TileFail) : State :=
  ks.foldl (fun s k =>
    let s := if s.job.members.contains k then s else s.clearCluster k
    match fails.find? fun f => decide (f.at_ = k) with
    | some f => (s.noteDiag f).retire k
    | none => s) s

/-- A part returns: its clusters through their known-answer runs, of which `r.fails` did not pass, its ports with PORT_TRAINING; the route tables are
restored by the procedure of R217. Until then it answers TARGET_OFFLINE (R374). -/
def execQuiesceReturn (r : PartReturn) (s : State) : Host.Outcome State Fault Refusal :=
  .next ((s.clustersReturn (partClusters r.part) r.fails).returnPart r.part)

/-! ### Incidents by fault (R354, R362, R363, Table 13.1) -/

/-- What a permanent incident leads to, by its suspects (R363); a suspect that is not yet halted and drained is tested once it is (R101). A cluster suspected
beside an offset of deep memory is tested as one of several suspects (DESIGN CHOICE, log entry 126: Table 13.1 names both, R363 has no row for the pair). -/
def State.resolve (s : State) (x : Incident) : State :=
  match x.suspects.clusters, x.suspects.offset with
  | [], _ => s
  | [k], none => s.retire k
  | ks, _ =>
    let s : State := { s with genhan := { s.genhan with suspectTests := s.genhan.suspectTests ++ [(x.code, x.step, ks, false)] } }
    ks.foldl (fun s k => if s.eligible k then s.startTest true k else s) s

/-- An incident is opened or decided, and a permanent one resolved. -/
def State.incident (s : State) (x : Incident) (sure : Bool) : State :=
  let r := s.openIncident x sure
  if r.2 then r.1.resolve x else r.1

/-- Suspects of a report (Table 13.1): its cluster and the other one it names; of an error in deep memory the offset, of a check that a moon die fails the
producing cluster and the offset. -/
def suspectsOf (r : Report) : Suspects :=
  let f (hi lo : Nat) : Nat := bitsOf r.entry.toNat hi lo
  let k : Option ClusterAt := if h : f 56 52 < 24 ∧ f 65 57 < 288 then some ⟨⟨f 56 52, h.1⟩, ⟨f 65 57, h.2⟩⟩ else none
  if r.offset.isSome then { clusters := r.other.toList, offset := r.offset } else { clusters := (r.other.toList ++ k.toList).dedup }

/-- A report is a fault of the job as a whole (R429). -/
def jobWide (e : BitVec 256) : Bool :=
  let code := bitsOf e.toNat 15 0
  decide (code = fDigestMismatch) || decide (code = fPhaseUnknown) || decide (code = fReducePathLost) || decide (code = fMeshLinkFail) ||
  (decide (code = fCheckFail) && decide (bitsOf e.toNat 51 50 = 1))

/-- The logical name in a log entry. -/
def entryCore (pkg : BitVec 12) (e : BitVec 256) : LCore := ⟨pkg, e.extractLsb' 66 5, e.extractLsb' 71 9, e.extractLsb' 80 6⟩

/-- A report of class H opens an incident (R354); one of an inserted error does not (R418). -/
def State.reportIncident (s : State) (r : Report) : State :=
  let code := bitsOf r.entry.toNat 15 0
  let sure := decide (code = fHeartbeatLost) || decide (code = fMeshLinkFail)
  if bitsOf r.entry.toNat 51 50 = 2 ∧ !(decide (code = fCheckFail) && r.entry.getLsbD 255) ∧ code ≠ fDigestMismatch then
    s.incident { code := BitVec.ofNat 16 code, suspects := suspectsOf r, step := r.entry.extractLsb' 144 48 } sure
  else s

/-- Genhan takes the oldest report (R353): the log keeps the first 64, a class H fault opens an incident, a live job is stopped. -/
def State.takeReport (s : State) (r : Report) : State :=
  let e := r.entry
  let code := bitsOf e.toNat 15 0
  let s : State := if r.quiet then s
    else { s with genhan := { s.genhan with log := if s.genhan.log.length < 64 then s.genhan.log ++ [e] else s.genhan.log } }
  let s := s.reportIncident r
  if r.quiet then s
  else if s.jobLive then
    (if jobWide e then s.haltJob 4 (if code = fPhaseUnknown then 0x12 else 0) true
      else s.haltJob 3 0x13 true (some (entryCore s.pkg e)) (e.extractLsb' 144 48)).injectStop.jobStep
  else if s.job.state = .halting then ({ s with job := { s.job with faultArose := true } } : State).jobStep
  else s

def execFaultReport (s : State) : Host.Outcome State Fault Refusal :=
  match s.genhan.reports with
  | [] => .next s
  | r :: l => .next (({ s with genhan := { s.genhan with reports := l } } : State).takeReport r)

/-! ### Heartbeats (R355) -/

/-- A heartbeat of a powered cox that is not in diagnostic fabric mode; Genhan counts it (Table 15.6). -/
def execHeartbeat (k : ClusterAt) (s : State) : Host.Outcome State Fault Refusal :=
  if (s.domain (domainOf k)).powered && !(s.cluster k).diag then .next (s.count 8 (coxUnit k) 0 5) else .next s

/-- Eight heartbeats missed (at the test port in diagnostic fabric mode): a fault of a mapped cluster, whose boundary FIFOs are held in reset, whose
waiting accesses are answered as in a QUIESCE (R365), and around which detours are wanted; an unmapped one is marked defective. -/
def execHeartbeatLost (k : ClusterAt) (s : State) : Host.Outcome State Fault Refusal :=
  if !(s.domain (domainOf k)).powered then .next s
  else
    let s := s.raiseEvent 0x0010 none ([BitVec.ofNat 8 k.die.val] ++ leBytes 2 k.pcl.val ++ leBytes 2 ((s.logical k).getD 0).toNat)
    let s := (s.modCluster k fun x => { x with run := if x.run = .idle then .idle else .halted, stallLine := false }).cutOff k
    match s.logical k with
    | none => .next (s.retire k)
    | some _ =>
      let e := faultEntry s k (raised 0 (s.core (coreIn k 0)).slot fHeartbeatLost)
      .next { s with genhan := { s.genhan with reports := s.genhan.reports ++ [{ entry := e }] } }

/-! ### Digests (R357 to R359) -/

/-- The value that most of a list hold, when there is one. -/
def majority (l : List (BitVec 64)) : Option (BitVec 64) :=
  l.find? fun v => l.dedup.all fun w => decide (w = v) || decide (l.count w < l.count v)

/-- RESULT of each replica for one compared quantity (R360): 1 matched, 2 mismatched. -/
def resultOf (l : List (BitVec 64)) (v : BitVec 64) : Nat :=
  if l.all fun w => decide (w = v) then 1
  else match majority l with
    | some m => if v = m then 1 else 2
    | none => 2

/-- Logical clusters that hold a shard in a replica of this package: placements by replica, then shard. -/
def State.shardClusters (s : State) (replica shard : Nat) : List ClusterAt :=
  (s.job.digPlaces.filter fun e => decide (bitsOf e.toNat 5 0 = replica) && decide (bitsOf e.toNat 12 6 = shard)).filterMap fun e =>
    s.physical (bitsOf e.toNat 17 13) (e.extractLsb' 18 9)

/-- A mismatch is found (R359, R361, R362). -/
def State.digestMismatch (s : State) (step : BitVec 48) (shard : Nat) (minority : Option Nat) (replicas : List Nat) : State :=
  let s := s.raiseEvent 0x0011 none (leBytes 2 shard ++ leBytes 2 (minority.getD 0xFFFF) ++ List.replicate 4 0 ++ leBytes 6 step.toNat)
  let ks := (replicas.flatMap fun r => s.shardClusters r shard).dedup
  let s := s.incident { code := BitVec.ofNat 16 fDigestMismatch, suspects := { clusters := ks }, step := step, shard := some (BitVec.ofNat 16 shard) } false
  s.jobFault fDigestMismatch (BitVec.ofNat 64 (minority.getD 0xFFFF * 65536 + shard))

/-- Every replica of this package has reported a step: the comparison, and the records. -/
def State.compareDigests (s : State) (step : BitVec 48) : State :=
  let l := s.genhan.digPending.filter fun p => decide (p.2.1 = step)
  let s : State := { s with genhan := { s.genhan with digPending := s.genhan.digPending.filter fun p => decide (p.2.1 ≠ step) } }
  let one := decide (l.length < 2)
  let sums := l.map fun p => digestSum p.2.2.2
  let col (i : Nat) : List (BitVec 64) := l.map fun p => p.2.2.2.getD i 0
  let s := l.foldl (fun s p => s.addReplica p.1 step p.2.2.1 p.2.2.2
    (fun i => if one then 0 else resultOf (col i) (p.2.2.2.getD i 0)) (if one then 0 else resultOf sums (digestSum p.2.2.2))) s
  let bad := l.filter fun p => decide (resultOf sums (digestSum p.2.2.2) = 2)
  if one then s
  else if bad.isEmpty then s.seeDigests step true
  else
    let s := s.seeDigests step false
    let shard := ((List.range s.job.digShards.toNat).find? fun i => (col i).any fun v => decide (v ≠ (col i).headD 0)).getD 0xFFFF
    let who := (bad.map fun p => p.1.toNat)
    s.digestMismatch step shard (if l.length ≤ 2 then none else who.head?) who

/-- The result of a digest reduction for Genhan. -/
def isDigest (rid : BitVec 8) (elems : List (BitVec 64)) (p : Packet) : Bool :=
  decide (p.pkind = 0xC) && decide (p.exit = 4) && decide (bitsOf p.hdr.toNat 127 120 = rid.toNat) &&
  decide (p.data = elems.flatMap fun v => leBytes 8 v.toNat)

/-- The result of a digest reduction reaches Genhan (R357, R359). -/
def execDigestResult (rid : BitVec 8) (step : BitVec 48) (elems : List (BitVec 64)) (s : State) : Host.Outcome State Fault Refusal :=
  let mine := (s.job.digReplicas.zipIdx.filter fun e => decide (e.1.extractLsb' 16 12 = s.pkg)).map (·.2)
  match mine.find? fun i => decide (s.replicaRid i = rid.toNat) with
  | none => .next s
  | some i =>
    let p := (BitVec.ofNat 8 i, step, s.time.sc.setWidth 48, elems)
    .next (s.onArrival (isDigest rid elems) 0 fun s =>
      let s : State := { s with genhan := { s.genhan with digPending := s.genhan.digPending ++ [p] } }
      if mine.all fun j => s.genhan.digPending.any fun q => decide (q.1.toNat = j) && decide (q.2.1 = step) then s.compareDigests step else s)

/-! ### Checkpoints (R196, R361, R369, R375) -/

/-- In-place tests: up to eight due members of each die. -/
def State.testInPlace (s : State) : State :=
  let ks := (List.finRange 24).flatMap fun d => (s.job.members.filter fun k => decide (k.die = d) && (s.cluster k).deferred.isSome).take (8 - s.testsOn d)
  ks.foldl (State.startTest · true) { s with job := { s.job with inPlace := ks } }

/-- The drain of a checkpoint is complete, once the job has settled (R129): the records stand, the checkpoint is promoted where its digests allow, and the
test window opens, from which the job goes on to its relaunch or its phase change. Of a job that a stop has halted meanwhile the drain completes alike
(R375), with no window; a power drain that is owed takes its place (R400). -/
def execCheckpointDrainDone (s : State) : Host.Outcome State Fault Refusal :=
  match s.job.between with
  | .checkpoint step area =>
    if s.job.window || s.power.drainOwed || !s.membersQuiet || !s.settled s.job.members then .next s
    else
      let s := (s.drainJob area).promote area step
      if s.job.state = .running then
        let s : State := { s with job := { s.job with window := true, rotated := [], windowArea := area, inPlace := [] } }
        .next (if s.host.testPolicy = 2 then s.testInPlace else s).tryWindow
      else .next { s with job := { s.job with between := s.job.phaseLeft } }
  | _ => .next s

/-! ### Firmware of a cox (R345) -/

/-- A cluster whose firmware copy has failed twice is marked defective (R345); a mapped one's number moves with the procedure of a retirement. -/
def State.firmwareBad (s : State) (k : ClusterAt) : State :=
  { s.retire k with nv := { (s.retire k).nv with defects := ((s.retire k).nv.defects ++ [clusterKey k]).dedup } }

/-- A configuration packet for the cox of a cluster. -/
def State.isConfig (s : State) (k : ClusterAt) (data : Bytes) (p : Packet) : Bool :=
  decide (p.pkind = 0xD) && decide (p.data = data) && decide ((s.coreAt p.dst).map clusterOf = some k)

/-- A configuration packet: its bytes join the copy; the final one carries the digest, and a copy that fails twice marks the cluster. -/
def execConfigurationWrite (k : ClusterAt) (data : Bytes) (final : Option Bytes) (s : State) : Host.Outcome State Fault Refusal :=
  .next (s.onArrival (s.isConfig k data) 0 fun s =>
    let x := s.cluster k
    let buf := x.fwBuf ++ data
    match final with
    | none => s.putCluster k { x with fwBuf := buf }
    | some d =>
      if shake256 64 buf = d then s.putCluster k { x with fwBuf := [], fwOk := true, fwTries := 0 }
      else
        let s := s.putCluster k { x with fwBuf := [], fwOk := false, fwTries := x.fwTries + 1 }
        if 1 ≤ x.fwTries then s.firmwareBad k else s)

end Sys2Proof.Machine
end

