-- ==== Sys2Proof/Machine/Telemetry.lean ====
section
/-! DEFINITION. Telemetry and its rings, thermal control, coolant (R390 to R398, R409 to R414, R435). -/

namespace Sys2Proof.Machine

/-! ### Telemetry entries (Tables 15.7 and 15.8) -/

/-- The common fields of an entry; the payload occupies the low 420 bits. -/
def telemEntry (sc : Nat) (kind : Nat) (die pcl lcl : Nat) (payload : BitVec 420) : BitVec 512 :=
  BitVec.ofNat 48 sc ++ BitVec.ofNat 4 kind ++ (0 : BitVec 17) ++ BitVec.ofNat 5 die ++ (0 : BitVec 18) ++ payload ||| BitVec.ofNat 512 (pcl * 2 ^ 429 + lcl * 2 ^ 420)

/-- The count at the end of the latest interval (R391). -/
def State.intervalEnd (s : State) : Nat := s.time.sc.toNat / 100000 * 100000

/-- KIND 1. -/
def State.clusterEntry (s : State) (k : ClusterAt) (iCore iUngated t0 t1 : BitVec 12) (vmin : BitVec 10) (stretched : BitVec 16) (fMean : BitVec 10) :
    BitVec 512 :=
  let x := s.cluster k
  let issue := s.counter 8 (coxUnit k) 0 0 - x.lastIssue
  let stall := s.counter 8 (coxUnit k) 0 1 - x.lastStall
  telemEntry s.intervalEnd 1 k.die.val k.pcl.val (match s.logical k with
    | some cl => cl.toNat
    | none => 0x1FF)
    (iCore ++ iUngated ++ t0 ++ t1 ++ vmin ++ stretched ++ fMean ++ BitVec.ofNat 10 (s.setPoint k / 4) ++ BitVec.ofNat 10 (s.ceilingOf k / 4) ++
      BitVec.ofNat 3 s.power.lastTop.val ++ BitVec.ofNat 24 issue ++ BitVec.ofNat 24 stall ++ (0 : BitVec 265))

/-- KIND 2; bit 5 of the domain number stands in bit 437. -/
def State.domainEntry (s : State) (d : Fin 61) (vcore : BitVec 10) (idom : BitVec 14) (hullT : BitVec 12) : BitVec 512 :=
  let x := s.domain d
  telemEntry s.intervalEnd 2 (d.val % 32) (d.val / 32 * 256) 0
    (vcore ++ idom ++ hullT ++ BitVec.ofBool x.powered ++ BitVec.ofBool x.eclipsed ++ (0 : BitVec 382))

/-- KIND 3. -/
def State.packageEntry (s : State) (vin : BitVec 14) (iin : BitVec 13) (pin : BitVec 16) (inlet outlet flow : BitVec 10) : BitVec 512 :=
  let p := s.power
  telemEntry s.intervalEnd 3 0 0 0
    (vin ++ iin ++ pin ++ inlet ++ outlet ++ flow ++ BitVec.ofNat 10 (p.fPkg / 4) ++ BitVec.ofNat 9 (p.pLim / 100) ++ BitVec.ofNat 3 p.level.val ++
      BitVec.ofNat 4 p.modules.cpop.toNat ++ BitVec.ofBool s.host.dbg.loaded ++ (0 : BitVec 320))

/-- KIND 4: the six counters of a unit (R410, R411). -/
def State.counterEntry (s : State) (ukind : BitVec 4) (udie : BitVec 5) (ucluster : BitVec 9) (ucore : BitVec 6) (sub : BitVec 8) (group : BitVec 4) :
    BitVec 512 :=
  let c (n : Nat) : BitVec 64 := BitVec.ofNat 64 (s.counter group.toNat (unitNum ukind.toNat udie.toNat ucluster.toNat ucore.toNat) sub.toNat n)
  telemEntry s.intervalEnd 4 0 0 0 (ukind ++ udie ++ ucluster ++ ucore ++ sub ++ group ++ (c 5 ++ c 4 ++ c 3 ++ c 2 ++ c 1 ++ c 0))

/-! ### Rings (R412 to R414, R435) -/

/-- The selection of ring `t` admits an entry of the interval that ended at count `sc` (Table 16.12). -/
def selects (sel : BitVec 128) (e : BitVec 512) (sc : Nat) : Bool :=
  let f (hi lo : Nat) : Nat := bitsOf sel.toNat hi lo
  let g (hi lo : Nat) : Nat := bitsOf e.toNat hi lo
  let kind := g 463 460
  decide (1 ≤ kind) && sel.getLsbD (kind - 1) && decide (kind ≤ 4) && decide (sc / 100000 % (f 25 16 + 1) = 0) &&
  (decide (kind ≠ 4) ||
    (sel.getLsbD (32 + g 387 384) && decide (g 387 384 ≤ 8) && decide (f 52 48 ≤ g 415 411) && decide (g 415 411 ≤ f 60 56) &&
      (decide (4 ≤ g 419 416) || (decide (f 72 64 ≤ g 410 402) && decide (g 410 402 ≤ f 88 80)))))

/-- Entries of 64 B that Genhan forwards in an interval of 100 µs at 16 GB/s (R414; by the interval: DESIGN CHOICE, log entry 94). -/
def telemetryLimit : Nat := 25000

/-- Entries forwarded in the present interval. -/
def State.sentNow (s : State) : Nat := if s.genhan.sentIn = s.time.sc.toNat / 100000 then s.genhan.sent else 0

/-- Writes an entry into a telemetry ring, or drops it where the ring is full or the limit of forwarding is reached (R414). -/
def State.writeTelemetry (s : State) (page : Nat) (e : BitVec 512) : State :=
  let r := s.ring page
  if 0 < ringFree r ∧ s.sentNow < telemetryLimit then
    let s : State := { s with genhan := { s.genhan with sentIn := s.time.sc.toNat / 100000, sent := s.sentNow + 1 } }
    let h := e ||| BitVec.ofNat 512 (r.lost.toNat * 2 ^ 443 + if r.cqPhase then 2 ^ 459 else 0)
    let s := s.emit (.hostWrite (r.cqBase + BitVec.ofNat 64 (64 * r.cqWr.toNat)) (leBytes 64 h.toNat))
    (s.putRing page { ringAdvance r with lost := 0 }).pend r.cqVec.toNat r.cqMod
  else s.putRing page { r with lost := if r.lost = 0xFFFF then r.lost else r.lost + 1 }

/-- The count whose low bits an entry carries: the latest one not after now. -/
def State.fullCount (s : State) (low : Nat) : Nat := s.time.sc.toNat - (s.time.sc.toNat + 2 ^ 48 - low % 2 ^ 48) % 2 ^ 48

/-- Genhan forwards an entry to every ring that selects it. While the link is down nothing reaches the host. -/
def State.forward (s : State) (e : BitVec 512) : State :=
  if s.linkLive then
    (List.range 16).foldl (fun s t =>
      if (s.ring (65 + t)).cqEnable && selects (SMap.get 0 s.host.telem t) e (s.fullCount (bitsOf e.toNat 511 464)) then s.writeTelemetry (65 + t) e
      else s) s
  else s

/-- The count that an entry carries. -/
def State.countOf (s : State) (e : BitVec 512) : Nat := s.fullCount (bitsOf e.toNat 511 464)

/-- A sample of an earlier interval is still on its way to Genhan. -/
def State.olderDue (s : State) (n : Nat) : Bool :=
  (s.mesh ++ s.waiting).any fun p => decide (p.pkind = 0xC) && decide (p.exit = 4) && decide (s.countOf (BitVec.ofNat 512 (leNat p.data)) < n)

/-- The entries that wait are forwarded, oldest first, up to the first that has to wait for those of an earlier interval (R414). -/
def State.sendSamples (s : State) (l : List (BitVec 512)) : State :=
  match l with
  | [] => { s with genhan := { s.genhan with samples := [] } }
  | e :: r => if s.olderDue (s.countOf e) then { s with genhan := { s.genhan with samples := l } } else (s.forward e).sendSamples r

/-- Genhan has an entry: it goes to the rings once every entry of the earlier intervals has (R414). -/
def State.toRings (s : State) (e : BitVec 512) : State :=
  let l := s.genhan.samples
  s.sendSamples ((l.filter fun x => decide (s.countOf x ≤ s.countOf e)) ++ [e] ++ l.filter fun x => decide (s.countOf e < s.countOf x))

/-- A sample for Genhan. -/
def isSample (entry : BitVec 512) (p : Packet) : Bool :=
  decide (p.pkind = 0xC) && decide (p.exit = 4) && decide (p.data = leBytes 64 entry.toNat)

def execTelemetrySample (entry : BitVec 512) (s : State) : Host.Outcome State Fault Refusal :=
  .next (s.onArrival (isSample entry) 0 fun s => s.toRings entry)

/-! ### Thermal control (R393, Table 14.5) -/

/-- A temperature in 0.125 K reaches so many °C. -/
def atLeast (t : BitVec 12) (celsius : Int) : Bool := decide (8 * celsius ≤ t.toInt)

/-- A cluster's ceiling and its run of hot samples after one sample. A cluster under a stress test is not throttled. -/
def Cluster.heated (x : Cluster) (cap : Nat) (t0 t1 : BitVec 12) : Cluster :=
  let c := min cap x.ceiling
  let c := if x.testing then c
    else if atLeast t0 95 || atLeast t1 95 then max 500 (c - 100)
    else if !atLeast t0 92 && !atLeast t1 92 then min cap (c + 100)
    else c
  { x with ceiling := c, hotRun := if atLeast t0 105 || atLeast t1 105 then x.hotRun + 1 else 0 }

/-- THROTTLE, at most once a second for a domain. -/
def State.throttleCheck (s : State) (d : Fin 61) : State :=
  let low := (halfClusters d.val).filter fun k => decide (s.ceilingOf k < s.target)
  let due := match (s.domain d).throttled with
    | none => true
    | some t => decide (t.toNat + 1000000000 ≤ s.time.sc.toNat)
  if !low.isEmpty && due then
    let least := (low.map s.ceilingOf).foldl min s.clockCap
    let s := s.modDomain d fun x => { x with throttled := some s.time.sc }
    s.raiseEvent 0x0027 none ([BitVec.ofNat 8 d.val] ++ leBytes 2 low.length ++ leBytes 2 least)
  else s

/-! ### Coolant (Table 14.6) -/

/-- Outside the limits of a coolant stop: inlet in 0.125 K, flow in 0.1 L/min. -/
def coolantOut (inlet flow : Nat) : Bool := decide (320 < inlet) || decide (inlet < 80) || decide (flow < 200)

/-- The coolant limit in W: the least of the two deratings. -/
def coolantLimit (inlet flow : Nat) : Nat := min (27000 - 1500 * (min inlet 320 - 256) / 8) (if flow < 450 then 27000 * flow / 450 else 27000)

/-- Outside the requirement without derating: a cold inlet or a high flow. -/
def coolantBand (inlet flow : Nat) : Bool := (decide (80 ≤ inlet) && decide (inlet < 120)) || decide (600 < flow)

/-- A reading of the coolant: limit, events, and how long it has been within its limits (R396, R449). -/
def State.readCoolant (s : State) (inlet flow : Nat) : State :=
  let p := s.power
  let lim := coolantLimit inlet flow
  let der := decide (lim < 27000)
  let band := coolantBand inlet flow
  let s : State := { s with
    genhan := { s.genhan with inlet := inlet, flow := flow }
    power := { p with coolLimit := lim, derating := der, coldOrHigh := band, coolantRun := if p.leak || coolantOut inlet flow then 0 else p.coolantRun + 1 } }
  let s := if der ≠ p.derating then s.coolantEvent (if der then 0 else 1) else s
  if band ≠ p.coldOrHigh then s.coolantEvent (if band then 4 else 5) else s

/-! ### The interval (R391, R411) -/

/-- A sample on its way to Genhan on the Management virtual channel. -/
def State.sendSample (s : State) (k : ClusterAt) (e : BitVec 512) : State :=
  s.inject (coreIn k 0) (toComp (packet 0xC (s.coxName k) s.companion 0 (leBytes 64 e.toNat)) 4 0)

/-- A sample from a moon or link die, at the edge core that faces Genhan's row. -/
def State.compSample (s : State) (exit comp : Nat) (e : BitVec 512) : State :=
  s.injectComp exit comp (0, (edgeCore 4 0 (0, 0)).2.2) (toComp (packet 0xC s.companion s.companion 0 (leBytes 64 e.toNat)) 4 0)

/-- A cox samples its cluster (R391), and the thermal ceiling follows (R393). -/
def State.sampleCluster (s : State) (k : ClusterAt) (iCore iUngated t0 t1 : BitVec 12) (vmin : BitVec 10) (stretched : BitVec 16) (fMean : BitVec 10) :
    State :=
  let cap := s.clockCap
  let s := s.modCluster k fun x => x.heated cap t0 t1
  let e := s.clusterEntry k iCore iUngated t0 t1 vmin stretched fMean
  let i := s.counter 8 (coxUnit k) 0 0
  let t := s.counter 8 (coxUnit k) 0 1
  let s := s.modCluster k fun x => { x with lastIssue := i, lastStall := t }
  (s.sendSample k e).throttleCheck (domainOf k)

/-- The cluster that UDIE and UCLUSTER name. -/
def unitCluster (udie : BitVec 5) (ucluster : BitVec 9) : Option ClusterAt :=
  if h : udie.toNat < 24 ∧ ucluster.toNat < 288 then some ⟨⟨udie.toNat, h.1⟩, ⟨ucluster.toNat, h.2⟩⟩ else none

/-- One unit samples and latches at the end of an interval: a cox, Genhan, or the holder of a unit's counters. -/
def execTelemetryInterval (x : Sample) (s : State) : Host.Outcome State Fault Refusal :=
  if !s.time.running then .next s
  else match x with
    | .cluster k iCore iUngated t0 t1 vmin stretched fMean =>
      .next (if (s.domain (domainOf k)).powered then s.sampleCluster k iCore iUngated t0 t1 vmin stretched fMean else s)
    | .domain d vcore idom hullT =>
      let s := s.modDomain d fun x => { x with hullT := hullT, coolRun := if hullT.toInt ≤ 600 then x.coolRun + 1 else 0 }
      .next (s.toRings (s.domainEntry d vcore idom hullT))
    | .package vin iin pin inlet outlet flow =>
      let s := s.readCoolant inlet.toNat flow.toNat
      .next (s.toRings (s.packageEntry vin iin pin inlet outlet flow))
    | .counters ukind udie ucluster ucore sub group =>
      let e := s.counterEntry ukind udie ucluster ucore sub group
      .next (if ukind = 4 then s.compSample 1 (udie.toNat % 4) e
        else if ukind = 5 then s.compSample 2 (udie.toNat % 8) e
        else match unitCluster udie ucluster with
          | some k => if (s.domain (domainOf k)).powered then s.sendSample k e else s
          | none => s)

/-! ### Stops of the job for power or heat (R379, R394, R398) -/

/-- A stop of a live job by Genhan, with its JOB_STATE reason (R200, R379, R394). One that is HALTING is stopped again, and takes the reason: R379 and R394
say so of it, against the last column of Table 11.10 (log entry 127). -/
def State.stopFor (s : State) (reason : Nat) : State :=
  if s.jobLive then (s.haltJob reason 0 true).injectStop.jobStep
  else if s.job.state = .halting then
    ({ s with job := { s.job with faultArose := true, reason := BitVec.ofNat 8 reason } } : State).injectStop.jobStep
  else s

/-- The job holds state that a stop has to drain. -/
def State.holdsState (s : State) : Bool :=
  decide (s.job.state ≠ .idle) && decide (s.job.state ≠ .loaded) && !s.job.members.isEmpty

/-- A half-die domain is to go off: it enters QUIESCE, and goes off once its detours stand (R217, R395). `unmap`: its logical clusters become unmapped
(R367). -/
def State.eclipse (s : State) (d : Fin 48) (cause : Nat) (unmap : Bool) : State :=
  let x := s.domain ⟨d.val, by omega⟩
  if !x.powered || s.power.eclipsing.any (fun e => decide (e.1 = d)) then s
  else
    let s : State := { s with power := { s.power with eclipsing := s.power.eclipsing ++ [(d, cause, unmap)] } }
    if x.quiesced then s.fence (.halfDie d) else s.enterQuiesce (.halfDie d)

/-- Its detours stand: what is still on its way to it is answered, and VCORE goes off (R373 steps 3 and 4, R395). -/
def State.switchOff (s : State) (e : Fin 48 × Nat × Bool) : State :=
  let d := e.1
  let dom : Fin 61 := ⟨d.val, by omega⟩
  let s := (s.flushPart (.halfDie d)).evict (.halfDie d)
  let s := (halfClusters d.val).foldl (fun s k =>
    (if e.2.2 then (match s.logical k with
      | some cl => s.setEntry k rUnmapped cl
      | none => s) else s).clearCluster k) s
  let s := s.modDomain dom fun x => { x with powered := false, eclipsed := true, cause := BitVec.ofNat 8 e.2.1, coolRun := 0 }
  let s : State := { s with host := s.host.dropInsertions fun t => (slotCluster t).any fun k => decide ((domainOf k).val = d.val) }
  s.raiseEvent 0x0029 none [BitVec.ofNat 8 d.val, 0, BitVec.ofNat 8 e.2.1]

/-- Clusters of a domain that the job maps. -/
def State.jobIn (s : State) (d : Nat) : Bool := decide (s.job.state ≠ .idle) && s.job.members.any fun k => decide ((domainOf k).val = d)

/-- Outcome row of R394 for a domain. -/
def State.heatRow (s : State) (d : Nat) : Nat :=
  if !s.jobIn d then 0
  else match s.job.state with
    | .armed | .running | .halting => 1
    | .halted | .faulted => 2
    | .loaded => 3
    | .idle => 0

/-- Ten samples at 105 °C in a row: a cluster under a stress test has its test void (R393); else the outcome is the row's. A domain whose job must be
drained first is eclipsed after the drain. The tests in the domain are void, and heat that takes the last spare of a die strands the clusters that wait
there for one (R400). -/
def execHeatAlarm (k : ClusterAt) (sensor : Bool) (temp : BitVec 12) (s : State) : Host.Outcome State Fault Refusal :=
  let d : Fin 48 := ⟨(domainOf k).val, by have := k.die.isLt; have := k.pcl.isLt; simp only [domainOf]; omega⟩
  let x := s.cluster k
  if x.testing then
    .next (if 10 ≤ x.hotRun then (s.testEnds k .void).modCluster k fun y => { y with hotRun := 0 } else s)
  else if decide (x.hotRun < 10) || !(s.domain (domainOf k)).powered || s.eclipseDue k then .next s
  else
    let row := s.heatRow d.val
    let s := s.raiseEvent 0x0028 none ([BitVec.ofNat 8 d.val] ++ leBytes 2 k.pcl.val ++ [if sensor then 1 else 0] ++ leBytes 2 temp.toNat ++ [BitVec.ofNat 8 row])
    let s := (halfClusters d.val).foldl (fun s j => if (s.cluster j).testing then s.testOver j .void else s) s
    let s := if row = 0 then s else s.remapRequired 4 d.val
    if row = 1 ∨ row = 2 then
      .next ((({ s with power := { s.power with drainOwed := true, eclipseOwed := s.power.eclipseOwed ++ [d] } } : State).stopFor 4).strand k.die)
    else .next ((s.eclipse d 1 true).strand k.die)

/-- A coolant stop (R398): a heat alarm of every half-die domain at once, without unmapping. -/
def State.coolantStop (s : State) : State :=
  if s.power.coolantStop then s
  else
    let s := (({ s with power := { s.power with coolantStop := true, coolantRun := 0 } } : State).coolantEvent 2).stopFor 4
    if s.holdsState then { s with power := { s.power with drainOwed := true } }
    else (List.finRange 48).foldl (fun s d => s.eclipse d 2 (s.power.eclipseOwed.contains d)) s

/-- The coolant has been outside its limits for 1 s. -/
def execCoolantStop (inlet flow : Nat) (s : State) : Host.Outcome State Fault Refusal :=
  .next (if coolantOut inlet flow then (({ s with genhan := { s.genhan with inlet := inlet, flow := flow } } : State)).coolantStop else s)

/-- LEAK# is asserted: a coolant stop at once (R449). -/
def execLeak (s : State) : Host.Outcome State Fault Refusal :=
  .next ({ s with power := { s.power with leak := true, coolantRun := 0 } } : State).coolantStop

/-- LEAK# is released; the 10 s of R449 start. -/
def execLeakRelease (s : State) : Host.Outcome State Fault Refusal :=
  .next { s with power := { s.power with leak := false, coolantRun := 0 } }

/-- Intervals of R391 in 10 s. -/
def tenSeconds : Nat := 100000

/-- An eclipsed domain returns (R396): powered, its clusters through their known-answer runs, of which `fails` did not pass. It stays in QUIESCE until the
tables are restored by the procedure of R217. -/
def execEclipseReturn (d : Fin 48) (fails : List TileFail) (s : State) : Host.Outcome State Fault Refusal :=
  let dom : Fin 61 := ⟨d.val, by omega⟩
  let x := s.domain dom
  if x.eclipsed && decide (tenSeconds ≤ x.coolRun) && decide (tenSeconds ≤ s.power.coolantRun) then
    let s := s.modDomain dom fun y => { y with powered := true, eclipsed := false, quiesced := true, fifoReset := true }
    let s := ((halfClusters d.val).foldl (fun s k => s.clearCluster k) s).setVoltages
    let s := fails.foldl (fun s f => if (domainOf f.at_).val = d.val then
      ((s.testEvent f.at_ (.fail f.core f.kind f.out)).noteDiag f).retire f.at_ else s) s
    .next (s.returnPart (.halfDie d))
  else .next s

end Sys2Proof.Machine
end

