-- ==== Sys2Proof/Machine/Detours.lean ====
section
/-! DEFINITION. The change of the route tables (R217), and what follows it: parts that are sealed off behind their detours, domains that go off, and parts
that return (R216, R373, R374, R395, R396). -/

namespace Sys2Proof.Machine

/-- No packet that the tables in force lead through a part that is to be sealed off is in the mesh. -/
def State.partsClear (s : State) : Bool := s.mesh.all fun p => s.genhan.wanted.all fun q => !meets q p || s.isTo q p

/-- The blocked areas as the new tables respect them. -/
def State.detoured (s : State) : State :=
  let g := s.genhan
  { s with genhan := { g with avoid := (g.avoid.filter fun k => !g.unwanted.contains k) ++ g.wanted, wanted := [], unwanted := [] } }

/-- A waypoint is needed: without it some route of its field would enter a blocked area. -/
def State.stillDetours (s : State) (at_ : ClusterAt) (edge : Bool) (index : Nat) : Bool :=
  let a := clusterCell at_
  !(s.editTargets ⟨at_, edge, BitVec.ofNat 13 index, none⟩).all fun b => s.legClear (a.1 * 8, a.2 * 8) b

/-- Waypoints around what has returned go. -/
def State.dropDetours (s : State) : State :=
  (s.clusters.filterMap fun q => clusterAtKey q.1).foldl (fun s k => s.modCluster k fun x =>
    { x with wp := x.wp.filter fun w => s.stillDetours k false w.1, edge := x.edge.filter fun w => s.stillDetours k true w.1 }) s

/-- Steps 3 and 4 of R217 once the channels are empty, and no packet is left on a way through what is to be sealed off; before that, step 1. The parts that
wanted detours are sealed off, the domains among them that are to go off do, and the parts that return take requests again. -/
def execRouteTableChange (edits : List RouteEdit) (s : State) : Host.Outcome State Fault Refusal :=
  if s.mayWriteTables && s.partsClear then
    let old := s.genhan.unwanted
    let new := s.genhan.wanted
    let s := if old = [] then s.detoured else s.detoured.dropDetours
    let s := new.foldl State.seal (edits.foldl State.applyEdit s)
    let off := s.power.eclipsing.filter fun e => s.genhan.avoid.contains (.halfDie e.1)
    let s : State := { s with power := { s.power with eclipsing := s.power.eclipsing.filter fun e => !s.genhan.avoid.contains (.halfDie e.1) } }
    .next ((old.foldl State.leaveQuiesce (off.foldl State.switchOff s)).release.tryWindow)
  else .next s.hold

end Sys2Proof.Machine
end

