-- ==== Sys2Proof/Machine/Power.lean ====
section
/-! DEFINITION. Input, bus stage, package power loop, domain faults, retention and the starts of a bring-up (R332, R377 to R385, R392, R397). -/

namespace Sys2Proof.Machine

/-! ### Starts and losses of power -/

/-- What was being written to management flash is cut short: a repair map copy fails its digest, and saved settings stay as they were (R352). -/
def NonVolatile.cutShort (n : NonVolatile) : NonVolatile := { n with repairBusy := none, newStacks := [], newPairings := [] }

/-- The package with every volatile part at its reset value: what stays is the queue, the record of outputs, the non-volatile memories, the
input's state with the pins that are driven from outside and, where `keep` says that the stacks kept power, deep memory with its checkpoints (Table 12.1). -/
def State.fresh (s : State) (keep : Bool) : State :=
  let base : State := { State.reset with
    pending := s.pending, out := s.out, freeCtr := s.freeCtr, nv := s.nv.cutShort
    power := {
      band := s.power.band, switchOpen := s.power.switchOpen, modules := s.power.modules, leak := s.power.leak, level := s.power.level
      sag := s.power.sag, sagLevel := s.power.sagLevel, sagVin := s.power.sagVin, sinceChange := s.power.sinceChange
      sagQuiet := s.power.sagQuiet, plim := s.power.plim, stacksKept := keep }
    genhan := { inlet := s.genhan.inlet, flow := s.genhan.flow }
    host := { perst := s.host.perst } }
  if keep then
    { base with
      deep := s.deep, deepErr := s.deepErr
      ckpt := s.ckpt }
  else base

/-- Nothing is powered (R377). -/
def State.powerOff (s : State) : State := s.fresh false

/-- A package that powers down tells its peers first (R302). -/
def State.offlineAll (s : State) : State := (List.range 8).foldl (fun s l => s.sendOffline l 3) s

/-- Only the always-on parts and the moon dies are powered (R379). -/
def State.enterRetention (s : State) : State :=
  let s := s.offlineAll
  let moons := (List.finRange 61).filter fun d => decide (56 ≤ d.val) && decide (d.val < 60) && (s.domain d).powered
  let t := s.fresh true
  let t := moons.foldl (fun t d => t.modDomain d fun x => { x with powered := true }) t
  { t with power := { t.power with retention := true }, time := s.time }

/-- A bring-up starts: phase `first` is the next to run (R332). -/
def State.startBringUp (s : State) (first : Nat) (keep : Bool) : State :=
  let t := s.fresh keep
  { t with boot := { phase := BitVec.ofNat 4 (first - 1), done := true, started := true, waitMask := t.nv.waitMask } }

/-- The input is in one of its operating bands. -/
def Power.operating (p : Power) : Bool := decide (p.band = .reduced) || decide (p.band = .full) || decide (p.band = .surge)

/-- The input feeds the package, if only its always-on parts (Table 14.1). -/
def Power.supplied (p : Power) : Bool := p.operating || decide (p.band = .retention)

/-- The band of an input from 44 V up (Table 14.1); `vin` in 10 mV. -/
def bandOf (vin : Nat) : Band := if vin < 4800 then .reduced else if vin ≤ 7200 then .full else .surge

/-- The input rises through 46 V: a bring-up starts at phase 1 (R332, R380), once a power drain in progress has completed (R400). -/
def execInputInRange (vin : Nat) (s : State) : Host.Outcome State Fault Refusal :=
  if 4600 ≤ vin ∧ vin ≤ 7200 ∧ !s.power.operating ∧ !s.power.switchOpen then
    let s : State := { s with power := { s.power with band := bandOf vin } }
    .next (if s.power.drainOwed then s else s.startBringUp 1 s.power.retention)
  else .next s

/-- The management image runs: Genhan can write its record (R335, R381). -/
def State.managed (s : State) : Bool := s.boot.hostReady || decide (3 ≤ s.boot.phase.toNat) || (decide (s.boot.phase = 2) && s.boot.done)

/-- Records the loss of input that is under way (R381). An orderly stop before it has left its record. -/
def State.recordLoss (s : State) (cause : Nat) : State :=
  let new : PowerRecord := {
    cause := BitVec.ofNat 8 cause, jobState := BitVec.ofNat 8 (jobCode s.job.state), drainDone := false, stacksKept := false
    area := s.nextArea, tag := s.job.tag, step := s.jobStepIndex, sc := s.time.sc }
  match s.nv.powerRecord with
  | some r => { s with nv := { s.nv with powerRecord := some { r with cause := BitVec.ofNat 8 cause, stacksKept := false } } }
  | none => if s.managed || s.power.managed then { s with nv := { s.nv with powerRecord := some new } } else s

/-- The input leaves its range: Genhan writes its record on held energy, and the package is off. Cause 0 stands for a broken busbar: the
input is below 36 V. -/
def execInputLoss (cause : Fin 4) (s : State) : Host.Outcome State Fault Refusal :=
  let s := (s.recordLoss (max 1 cause.val)).powerOff
  .next { s with power := { s.power with band := .off } }

/-- The over-voltage band: the input switch opens (R382). -/
def State.overVoltage (s : State) : State :=
  let s := (s.recordLoss 2).powerOff
  { s with power := { s.power with band := .overVoltage, switchOpen := true } }

/-- Above 100 V, or above 72 V for more than 100 ms. -/
def execOverVoltage (vin : Nat) (s : State) : Host.Outcome State Fault Refusal :=
  .next (if 7200 < vin then s.overVoltage else s)

/-- A surge: its peak in 0.1 V and its duration in ms. One beyond its band is over-voltage. -/
def execSurge (peak duration : Nat) (s : State) : Host.Outcome State Fault Refusal :=
  if peak ≤ 720 then .next s
  else if 1000 < peak ∨ 100 < duration then .next s.overVoltage
  else .next (s.raiseEvent 0x0023 none (leBytes 2 peak ++ leBytes 2 duration))

/-- The input has stayed at or below 72 V for 1 s: the switch closes. -/
def execInputSwitchReclose (s : State) : Host.Outcome State Fault Refusal :=
  .next (if s.power.switchOpen then { s with power := { s.power with switchOpen := false, band := .off } } else s)

/-- A reversed input, in volts below zero: blocked down to 80 V, REV_FAULT driven, the reversal counted; a loss of input where the package was supplied (R377,
R383). -/
def execInputReversed (volts : Nat) (s : State) : Host.Outcome State Fault Refusal :=
  if 80 < volts then .fault .beyondAbsoluteMaximum
  else
    let s := if s.power.supplied then (s.recordLoss 3).powerOff else s
    .next { s with nv := { s.nv with reversals := s.nv.reversals + 1 }, power := { s.power with band := .reversed } }

/-! ### Orderly stop (R379) -/

/-- Input below 44 V for 100 µs. Before host-ready the domains go off and a bring-up waits for the input (Table 12.6). -/
def execOrderlyStop (vin : Nat) (s : State) : Host.Outcome State Fault Refusal :=
  if vin < 4400 ∧ s.power.operating then
    let before := jobCode s.job.state
    let s : State := { s with power := { s.power with band := .retention } }
    if !s.boot.hostReady then
      let t := s.offlineAll.fresh false
      .next { t with
        power := { t.power with managed := s.managed }, nv := { t.nv with powerRecord := t.nv.powerRecord.map fun r => { r with stacksKept := false } } }
    else
      let drain := s.holdsState
      let s := s.raiseEvent 0x0021 none ([BitVec.ofNat 8 before, if drain then 1 else 0] ++ leBytes 2 (vin / 10))
      let r : PowerRecord := {
        cause := 0, jobState := BitVec.ofNat 8 before, drainDone := false, stacksKept := true, area := s.nextArea, tag := s.job.tag
        step := s.jobStepIndex, sc := s.time.sc }
      let s : State := { s with power := { s.power with orderly := true }, nv := { s.nv with powerRecord := some r } }
      let s := s.stopFor 6
      .next (if drain then { s with power := { s.power with drainOwed := true } } else s.enterRetention)
  else .next s

/-- The drain of a stop for power or heat: every region of the job, promoted where R263 and R361 allow. A cluster whose domain was lost
leaves the drain incomplete (R385). -/
def State.stopDrain (s : State) : State :=
  if s.holdsState then
    let area := s.nextArea
    let whole := s.job.members.all fun k => (s.domain (domainOf k)).powered
    let step := s.jobStepIndex
    let s := s.drainJob area
    let s := if whole then s.promote area step else s
    { s with power := { s.power with drainDone := whole }, nv := { s.nv with powerRecord := s.nv.powerRecord.map fun r => { r with drainDone := whole, area := area } } }
  else s

/-- The drain is complete, once what was on its way to the clusters has come (R129): the domains go off into retention, or those that wait are eclipsed (R379, R394, R398, R400). -/
def execPowerDrainDone (s : State) : Host.Outcome State Fault Refusal :=
  if s.power.drainOwed && s.membersQuiet && !s.jobLive && s.settled s.job.members then
    let s := s.stopDrain
    let s : State := { s with power := { s.power with drainOwed := false } }
    if s.power.orderly then
      let t := s.enterRetention
      .next (if t.power.operating then t.startBringUp 1 true else t)
    else
      let owed := s.power.eclipseOwed
      let s : State := { s with power := { s.power with eclipseOwed := [] } }
      .next ((List.finRange 48).foldl (fun s d =>
        if owed.contains d then s.eclipse d (if s.power.coolantStop then 2 else 1) true
        else if s.power.coolantStop then s.eclipse d 2 false
        else s) s)
  else .next s

/-! ### Bus stage (R378, R384) -/

/-- Bus modules that work. -/
def Power.working (p : Power) : Nat := p.modules.cpop.toNat

/-- plim of R378; `vin` in 10 mV. -/
def Power.limitAt (p : Power) (vin : Nat) : Nat := min (min (563 * vin / 100) (2564 * p.working)) 27000

/-- The level that a sample needs: the smallest at which the draw fits, else 7. -/
def Power.need (p : Power) (plim pin : Nat) : Fin 8 :=
  ((List.finRange 8).find? fun n => decide (pin * (8 - n.val) ≤ plim * (8 - p.level.val))).getD 7

/-- The level after one sample of the sag procedure. -/
def Power.nextLevel (p : Power) (plim pin : Nat) : Fin 8 :=
  let need := p.need plim pin
  if p.level < need then need
  else if need < p.level ∧ 100 ≤ p.sinceChange + 1 then ⟨p.level.val - 1, by omega⟩
  else p.level

def State.sagEvent (s : State) (ended : Bool) : State :=
  s.raiseEvent 0x0020 none ([if ended then 1 else 0, BitVec.ofNat 8 s.power.sagLevel.val] ++ leBytes 2 (s.power.sagVin / 10))

/-- One sample (R378): voltage in 10 mV, current in 0.1 A, power in W. A power drain is sampled too; in retention after it nothing draws, and no sample is
taken. -/
def execBusSample (vin iin pin : Nat) (s : State) : Host.Outcome State Fault Refusal :=
  let p := s.power
  if !(p.operating || (decide (p.band = .retention) && p.drainOwed)) then .next s
  else
    let plim := p.limitAt vin
    let p := { p with plim := plim, band := if p.operating && decide (4400 ≤ vin) then bandOf vin else p.band }
    let begins := !p.sag && (decide (vin < 4800) || decide (5630 ≤ iin) || decide (plim < pin))
    if !(p.sag || begins) then .next { s with power := p }
    else
      let lv := p.nextLevel plim pin
      let quiet := if 4900 ≤ vin ∧ lv = 0 then p.sagQuiet + 1 else 0
      let ends := decide (10000 ≤ quiet)
      let q : Power := { p with
        sag := !ends, level := lv, topLevel := max p.topLevel lv, sinceChange := if lv = p.level then p.sinceChange + 1 else 0
        sagQuiet := if ends then 0 else quiet, sagLevel := if begins then lv else max p.sagLevel lv
        sagVin := if begins then vin else min p.sagVin vin }
      let s : State := { s with power := q }
      .next (if begins then s.sagEvent false else if ends then s.sagEvent true else s)

/-- A bus module fails or recovers; plim falls at once (R384, R400). -/
def execBusModule (m : Fin 12) (ok : Bool) (s : State) : Host.Outcome State Fault Refusal :=
  let p := s.power
  if p.modules.getLsbD m.val = ok then .next s
  else
    let mods := p.modules ^^^ BitVec.ofNat 12 (2 ^ m.val)
    let q := { p with modules := mods }
    let q := if ok then q else { q with plim := min q.plim (2564 * q.working) }
    .next (({ s with power := q } : State).raiseEvent 0x0025 none [BitVec.ofNat 8 m.val, if ok then 1 else 0, BitVec.ofNat 8 q.working])

/-! ### Package power loop (R392) -/

/-- 840 times the sum over the parts of their draws, taken back to level 0; the divisors 1 to 8 divide 840. -/
def drawSum (parts : List (Nat × Fin 8)) : Nat := (parts.map fun q => q.1 * 8 * 840 / (8 - q.2.val)).sum

/-- The limit that governs: 1 host, 2 input, 3 bus modules, 4 coolant. -/
def State.governing (s : State) : Nat :=
  let p := s.power
  let host := 100 * s.host.powerLimit.toNat
  if host ≤ p.plim ∧ host ≤ p.coolLimit then 1
  else if p.plim ≤ p.coolLimit then (if p.plim = 2564 * p.working then 3 else 2)
  else 4

/-- One run of the loop: the draw in W with the stretch level of each part of the millisecond, and the mean set point in MHz. -/
def execPowerLoop (parts : List (Nat × Fin 8)) (fm : Nat) (s : State) : Host.Outcome State Fault Refusal :=
  if parts = [] then .next s
  else
    let p := s.power
    let lim := min (min (100 * s.host.powerLimit.toNat) p.plim) p.coolLimit
    let t := drawSum parts
    let unit := 840 * parts.length
    let f := if 97 * lim * unit < 100 * t then 97 * lim * fm * unit / (100 * t) / 4 * 4
      else if 100 * t < 94 * lim * unit then min s.clockCap (p.fPkg + 100)
      else p.fPkg
    let below := decide (f < s.target)
    let s : State := { s with power := { p with pLim := lim, fPkg := f, belowTarget := below } }
    .next (if below = p.belowTarget then s
      else s.raiseEvent 0x002B none ([if below then 0 else 1] ++ leBytes 2 f ++ leBytes 2 (lim / 100) ++ [BitVec.ofNat 8 s.governing]))

/-! ### Domain faults (R366, R385, R397) -/

/-- A reduction of a cluster goes to or comes from another package through link die `l`. -/
def RedSt.usesLink (r : RedSt) (pkg : BitVec 12) (l : Nat) : Bool :=
  r.valid && ((!r.root && decide (r.parent.pkg ≠ pkg) && decide (r.parentLink.toNat = l)) ||
    (r.s0.children ++ r.s1.children).any fun c => decide (c.2.pkg ≠ pkg) && decide (c.1.toNat = l))

/-- A send endpoint has no other way than link die `l`: it names it without an alternate, or its connection runs through it as the alternate. -/
def SendEp.needsLink (e : SendEp) (l : Nat) : Bool :=
  e.valid && e.remote && if e.viaAlt then decide (e.conn ≠ .closed) && decide (e.altLinkDie = l) else decide (e.linkDie = l) && !e.altValid

/-- A request names link die `l` without an alternate for another package. -/
def Request.needsLink (r : Request) (pkg : BitVec 12) (l : Nat) : Bool :=
  r.record.any fun b => decide (faSpace (recFA b) = 0) && decide (faPkg (recFA b) ≠ pkg) && decide (bitsOf b.toNat 219 217 = l) && !b.getLsbD 213

/-- A core has a use of link die `l` with no alternate: a connection out, a connection in with its credit returns, which declares none here, or a request
waiting or outstanding. -/
def Core.usesLink (x : Core) (pkg : BitVec 12) (l : Nat) : Bool :=
  (x.se.any fun p => p.2.needsLink l) || (x.re.any fun p => p.2.valid && p.2.peer.any fun q => decide (q.linkDie.toNat = l)) ||
  (x.reqQ.any fun r => r.needsLink pkg l) ||
  x.outstanding.any fun r => !r.isRecord && !r.alt && decide (faSpace r.fa = 0) && decide (faPkg r.fa ≠ pkg) && decide (r.linkDie.toNat = l)

/-- Every way that is left to another package leads through link die `l`. -/
def State.onlyVia (s : State) (l : Nat) (src : LCore) (pkg : BitVec 12) : Bool :=
  let ways := (List.range 8).filterMap fun m => if (SMap.get {} s.domains (48 + m)).powered then s.pathPort m src pkg else none
  !ways.isEmpty && ways.all fun i => decide (i / 8 = l)

/-- A catch of a cluster has its parent or a child in a package that only link die `l` leads to. A join names no link die. -/
def State.catchesVia (s : State) (k : ClusterAt) (l : Nat) : Bool :=
  (s.cluster k).catches.any fun q => q.2.valid &&
    ((if q.2.root then [] else [q.2.parent]) ++ q.2.children).any fun o => decide (o.pkg ≠ s.pkg) && s.onlyVia l (s.coxName k) o.pkg

/-- The job has a use of link die `l` with no alternate: a connection, a reduction, a catch or a request (R27, R366). -/
def State.needsLink (s : State) (l : Nat) : Bool :=
  s.job.members.any fun k => ((s.cluster k).reds.any fun q => q.2.usesLink s.pkg l) || s.catchesVia k l ||
    (coresOf k).any fun c => (s.core c).usesLink s.pkg l

/-- A job stopped by a loss drains what it still holds (R29). -/
def State.stopAndDrain (s : State) : State :=
  let s := s.stopFor 4
  if s.holdsState then { s with power := { s.power with drainOwed := true } } else s

/-- A half-die domain is lost: what is on its way to it is answered, its clusters hold nothing, and their logical numbers are unmapped (R366, R367, R373 step
3); detours are to be installed around it; the job halts and drains. REMAP_REQUIRED comes with every such loss, as R366 says; R385 names only the case of
a mapped job (DEDUCED, log entry 146). -/
def State.loseHalf (s : State) (d : Fin 48) : State :=
  let mapped := s.jobIn d.val
  let s := (s.flushPart (.halfDie d)).evict (.halfDie d)
  let s := (halfClusters d.val).foldl (fun s k =>
    let s := match s.logical k with
      | some cl => s.setEntry k rUnmapped cl
      | none => s
    s.clearCluster k) s
  let s : State := { s with power := { s.power with eclipsing := s.power.eclipsing.filter fun e => decide (e.1 ≠ d) } }
  let s := ((s.fence (.halfDie d)).strand ⟨d.val / 2, by omega⟩).remapRequired 4 d.val
  if mapped then s.stopAndDrain else s

/-- A link die is lost: its ports go down, what took them finds no path (R254, R302), and its connection table is gone (R433). Table 10.8 has no reason for
it: 0. -/
def State.loseLink (s : State) (l : Nat) : State :=
  let need := s.needsLink l
  let s := (List.range 8).foldl (fun s j =>
    let i := 8 * l + j
    if (s.port i).state = .disabled then s else s.takeDown i .down 0) s
  let s : State := { s with conns := s.conns.filter fun q => decide (q.1 / 4096 ≠ l) }
  let s := s.remapRequired 2 l
  if need then s.stopFor 4 else s

/-- A moon die is lost: nothing of deep memory is usable, and the owners of outstanding demands and writes halt (R277). The
job halts (R29). -/
def State.loseMoon (s : State) (m : Nat) : State :=
  let s : State := { s with boot := { s.boot with deepUnavailable := true } }
  ((s.dropStreams m true).remapRequired 1 m).stopFor 4

/-- The host interface die is lost: the job halts (R29). -/
def State.loseHost (s : State) : State :=
  let s := (s.remapRequired 3 0).stopFor 4
  { s with host := { s.host with linkUp := false, needReset := true } }

/-- The Genhan die is lost (R29): the package stops, with every cluster at a word boundary, its ports down and its host interface without an answer; only a
package reset recovers it. No command of the table brings this loss (log entry 132). -/
def State.loseGenhan (s : State) : State :=
  let s := (s.clusters.filterMap fun q => clusterAtKey q.1).foldl (fun s k => if (s.cluster k).run = .running then s.stopCluster k else s) s
  let s := (List.range 64).foldl (fun s i => if (s.port i).usable then s.takeDown i .down 0 else s) s
  { s with host := { s.host with linkUp := false, needReset := true } }

/-- The domain goes off at once, without QUIESCE; one that is off already stays as it is (R400). -/
def State.domainLost (s : State) (d : Fin 61) (cause : Nat) : State :=
  let was := (s.domain d).powered
  let s := s.raiseEvent 0x0026 none [BitVec.ofNat 8 d.val, BitVec.ofNat 8 cause]
  if !was then s
  else
    let s := s.modDomain d fun x => { x with powered := false, lost := true }
    if h : d.val < 48 then s.loseHalf ⟨d.val, h⟩
    else if d.val < 56 then s.loseLink (d.val - 48)
    else if d.val < 60 then s.loseMoon (d.val - 56)
    else s.loseHost

/-- A regulator fault: cause 0 over-current, 1 over-temperature, 2 rail out of range. -/
def execDomainFault (d : Fin 61) (cause : Fin 3) (s : State) : Host.Outcome State Fault Refusal := .next (s.domainLost d (cause.val + 1))

/-- A trip threshold: the regulator goes off in hardware. -/
def execThermalTrip (d : Fin 61) (s : State) : Host.Outcome State Fault Refusal := .next (s.domainLost d 4)

end Sys2Proof.Machine
end

