-- ==== Sys2Proof/Machine/Bringup.lean ====
section
/-! DEFINITION. Bring-up: its phases and what they find (R332 to R349, R438). The results of signature checks, tests and training are the
commands' operands. -/

namespace Sys2Proof.Machine

/-! ### Phases -/

/-- Phase `k` may run: the phase before it has finished and nothing has halted (R333). -/
def State.mayRun (s : State) (k : Nat) : Bool :=
  s.boot.started && s.boot.done && decide (s.boot.halted = .none) && decide (s.boot.phase.toNat + 1 = k) && !s.boot.hostReady

/-- Phase `k` has finished: 1 passed, 2 passed with findings (Table 16.3). -/
def State.phaseDone (s : State) (k : Nat) (findings : Bool) : State :=
  { s with boot := { s.boot with
    phase := BitVec.ofNat 4 k, done := true
    outcome := s.boot.outcome &&& ~~~(BitVec.ofNat 22 (3 * 4 ^ (k - 1))) ||| BitVec.ofNat 22 ((if findings then 2 else 1) * 4 ^ (k - 1)) } }

/-- A halting outcome; ALERT goes low with it (R448). -/
def State.bootHalt (s : State) (k : Nat) (h : Halted) : State :=
  { s with boot := { s.boot with phase := BitVec.ofNat 4 k, done := false, halted := h } }

/-- A clear after a halting outcome. -/
def State.bootRelease (s : State) : State := { s with boot := { s.boot with halted := .none } }

/-- Always-on rails and reference clock. -/
def execPowerGood (railsOk clockOk : Bool) (s : State) : Host.Outcome State Fault Refusal :=
  .next (if s.mayRun 1 && s.power.operating && railsOk && clockOk then s.phaseDone 1 false else s)

/-! ### Management boot (R335 to R339) -/

/-- What the ROM finds of a slot (R337): the checks of its contents as they stand, then its security version. -/
def slotCheck (minSv : BitVec 32) (x : Option ImageSlot) : SlotCheck :=
  match x with
  | none => .empty
  | some i => if i.check = .passed ∧ i.sv < minSv then .version else i.check

def slotPasses (minSv : BitVec 32) (x : Option ImageSlot) : Bool := decide (slotCheck minSv x = .passed)

/-- The slot that starts: the higher version first, A first at equal versions; false is A. -/
def NonVolatile.startSlot (n : NonVolatile) : Option (Bool × ImageSlot) :=
  let ver (x : Option ImageSlot) : Nat := (x.map fun i => i.version.toNat).getD 0
  let a := n.slotA.filter fun _ => slotPasses n.minSv n.slotA
  let b := n.slotB.filter fun _ => slotPasses n.minSv n.slotB
  let bFirst := decide (ver n.slotA < ver n.slotB)
  match a, b with
  | some x, some y => if bFirst then some (true, y) else some (false, x)
  | some x, none => some (false, x)
  | none, some y => some (true, y)
  | none, none => none

/-- A slot starts, or the package enters RECOVERY; what was found of each stands for the serial management interface (R339). -/
def State.bootSlots (s : State) : State :=
  let s : State := { s with boot := { s.boot with failA := slotCheck s.nv.minSv s.nv.slotA, failB := slotCheck s.nv.minSv s.nv.slotB } }
  match s.nv.startSlot with
  | some (b, i) => ({ s with boot := { s.boot with slot := b, version := i.version, sv := i.sv, digest := i.digest } } : State).phaseDone 2 false
  | none => s.bootHalt 2 .recovery

def execBoot (s : State) : Host.Outcome State Fault Refusal := .next (if s.mayRun 2 then s.bootSlots else s)

/-- The payload of an image has the length of its header, in its bounds, and its digest. -/
def payloadOk (b : Bytes) : Bool :=
  let payload := b.drop 4608
  decide (payload.length = numAt b 20 4) && decide (payload.length % 64 = 0) && decide (payload.length ≤ 67108864) &&
    decide (shake256 64 payload = bytesAt b 32 64)

/-- The first check of R337 that an image fails: header of 4,608 B and payload (R336). -/
def imageCheck (b : Bytes) (certOk sigOk : Bool) : SlotCheck :=
  if !(decide (bytesAt b 0 4 = [0x47, 0x4E, 0x48, 0x4E]) && decide (numAt b 4 4 = 1)) then .magic
  else if !(allZero (bytesAt b 24 8) && allZero (bytesAt b 4512 96) && allZero (bytesAt b 3173 59)) then .zeroField
  else if numAt b 96 4 ≠ 1 then .usage
  else if !certOk then .certificate
  else if !sigOk then .signature
  else if payloadOk b then .passed
  else .digest

/-- A management image as a slot holds it (R336, R337). -/
def imageSlot (b : Bytes) (certOk sigOk : Bool) : ImageSlot :=
  { check := imageCheck b certOk sigOk, version := BitVec.ofNat 64 (numAt b 8 8), sv := BitVec.ofNat 32 (numAt b 16 4), digest := BitVec.ofNat 512 (numAt b 32 64) }

/-- An image on the serial interface in RECOVERY: written to slot A once it has passed, then a restart at phase 2. -/
def execSmiImage (image : Bytes) (certOk sigOk : Bool) (s : State) : Host.Outcome State Fault Refusal :=
  let x := some (imageSlot image certOk sigOk)
  if decide (s.boot.halted = .recovery) && slotPasses s.nv.minSv x then
    let s : State := { s with nv := { s.nv with slotA := x } }
    .next (({ s.bootRelease with boot := { s.bootRelease.boot with phase := 1, done := true } } : State).bootSlots)
  else .next s

/-! ### Grade record (R340, R341) -/

/-- Bits 8k + a to 8k + b of every byte set and no others: the halved masks. -/
def halvedPorts : Nat := 0x0F0F0F0F0F0F0F0F
def halvedStacks : Nat := 0x3333

/-- Part number, grade, mapped count, clock cap and spare minimum form a row of Tables 0.1 and 1.5; the masks fit the part. -/
def gradeRow (r : Nat) : Bool :=
  let f (o n : Nat) : Nat := bitsOf r (8 * (o + n) - 1) (8 * o)
  let part := leBytes 16 (f 16 16)
  let name (l : List Nat) : Bool := decide (part = (l ++ List.replicate 7 0).map (BitVec.ofNat 8))
  let gradeA := decide (f 33 1 = 0xA) && decide (f 34 2 = 270) && decide (f 36 2 = 3300) && decide (f 38 2 = 6)
  let gradeB := decide (f 33 1 = 0xB) && decide (f 34 2 = 252) && decide (f 36 2 = 3000) && decide (f 38 2 = 12)
  let full := decide (f 40 8 = 2 ^ 64 - 1) && decide (f 48 2 = 0xFFFF)
  let half := decide (f 40 8 = halvedPorts) && decide (f 48 2 = halvedStacks)
  (name [0x43, 0x57, 0x32, 0x34, 0x2D, 0x41, 0x35, 0x37, 0x36] && gradeA && full) ||
  (name [0x43, 0x57, 0x32, 0x34, 0x2D, 0x42, 0x35, 0x37, 0x36] && gradeB && full) ||
  (name [0x43, 0x57, 0x32, 0x34, 0x2D, 0x42, 0x32, 0x38, 0x38] && gradeB && (full || half))

/-- The body of a grade record: its bytes 0 to 63. -/
def gradeBody (b : Bytes) : BitVec 512 := BitVec.ofNat 512 (leNat (b.take 64))

/-- The certificate of a grade record: key usage 2, and the zero bytes of Table 12.3 (R340). -/
def gradeCertOk (b : Bytes) : Bool := decide (b.length = 4480) && decide (numAt b 64 4 = 2) && allZero (bytesAt b 3141 59)

/-- Genhan accepts a record. The silicon is of stepping B1, the only one of Table 17.8. -/
def gradeAccepted (serial : BitVec 64) (b : Bytes) (certOk sigOk : Bool) : Bool :=
  let r := (gradeBody b).toNat
  let f (o n : Nat) : Nat := bitsOf r (8 * (o + n) - 1) (8 * o)
  decide (leBytes 4 (f 0 4) = [0x47, 0x52, 0x44, 0x31]) && decide (f 4 4 = 1) && decide (f 8 8 = serial.toNat) && decide (f 32 1 = 0xB1) && decide (f 50 1 = 1) &&
  decide (f 51 1 = 1) && decide (f 52 12 = 0) && gradeRow r && gradeCertOk b && certOk && sigOk

/-- The grade record that management flash holds (R340): what the first GRADE has read of it. -/
def State.gradeRecord (s : State) (record : Bytes) : Bytes := s.nv.grade.getD record

/-- Phase 3: the record of the flash is checked, and in force where it is accepted. The flash holds it since manufacture; the first GRADE brings its
bytes (log entry 115). -/
def execGrade (record : Bytes) (certOk sigOk : Bool) (s : State) : Host.Outcome State Fault Refusal :=
  if s.mayRun 3 then
    let b := s.gradeRecord record
    let s : State := { s with nv := { s.nv with grade := some b } }
    .next (if gradeAccepted s.nv.serial b certOk sigOk then ({ s with boot := { s.boot with record := gradeBody b } } : State).phaseDone 3 false
      else s.bootHalt 3 .gradeFail)
  else .next s

/-! ### Hull (R342) -/

/-- The coolant check of phase 4: its limits are those of a coolant stop, and LEAK# holds it too, as it asks for a coolant stop (R448; log entry 130). -/
def State.hullCoolant (s : State) (inlet flow : Nat) : State :=
  let findings := decide (s.boot.dieLost ≠ 0) || decide (s.genhan.notes.any fun n => n.1 = 0x000B)
  let s : State := { s with genhan := { s.genhan with inlet := inlet, flow := flow }, power := { s.power with coolLimit := coolantLimit inlet flow } }
  if coolantOut inlet flow || s.power.leak then (if s.boot.halted = .noCoolant then s else s.bootHalt 4 .noCoolant)
  else (if s.boot.halted = .noCoolant then s.bootRelease else s).phaseDone 4 findings

/-- A hull channel with an error is used no more in either direction, and noted with its place. -/
def State.excludeChannel (s : State) (c : BitVec 10 × BitVec 10 × Fin 4) : State :=
  let a := (c.1.toNat, c.2.1.toNat)
  let l := linkKey a c.2.2.val
  let s := s.killLink a c.2.2.val true
  { s with genhan := { s.genhan with notes := s.genhan.notes ++ [(0x000B, BitVec.ofNat 64 (l.2.2 * 2 ^ 20 + l.2.1 * 1024 + l.1))] } }

/-- The tests of phase 4. Channels with an error, each named by a router and port that it serves, are excluded, by the detours given. -/
def execHull (ppm : Int) (diesAnswer : BitVec 24) (channels : HullChannels) (inlet flow : Nat) (s : State) : Host.Outcome State Fault Refusal :=
  if s.mayRun 4 then
    if 50 < ppm.natAbs ∨ diesAnswer = 0 then .next (s.bootHalt 4 .hullFail)
    else
      let s : State := { s with time := { running := true }, boot := { s.boot with dieLost := ~~~diesAnswer } }
      let s := channels.edits.foldl State.applyEdit (channels.bad.foldl State.excludeChannel s)
      .next (s.hullCoolant inlet flow)
  else .next s

/-- The coolant check is repeated while phase 4 holds. -/
def execNoCoolant (inlet flow : Nat) (s : State) : Host.Outcome State Fault Refusal :=
  .next (if s.boot.halted = .noCoolant then s.hullCoolant inlet flow else s)

/-! ### Domains, map, firmware, known-answer runs (R343 to R346) -/

/-- The dies of a half-die domain that did not answer. -/
def State.dieGone (s : State) (d : Fin 61) : Bool := decide (d.val < 48) && s.boot.dieLost.getLsbD (d.val / 2)

/-- The switched domains come up; one whose regulator reports a fault, or whose die is lost, stays off. -/
def execDomains (regulatorFault : BitVec 61) (s : State) : Host.Outcome State Fault Refusal :=
  if s.mayRun 5 then
    let on (d : Fin 61) : Bool := !regulatorFault.getLsbD d.val && !s.dieGone d
    let s := (List.finRange 61).foldl (fun s d => s.modDomain d fun x => { x with powered := on d, vcore := 660 }) s
    let s : State := { s with boot := { s.boot with domainOff := regulatorFault }, power := { s.power with retention := false } }
    .next (s.phaseDone 5 (decide (regulatorFault ≠ 0)))
  else .next s

/-- A cluster is marked defective: in the manufacture map, or since (R344). -/
def NonVolatile.marked (n : NonVolatile) (k : Nat) : Bool := decide (SMap.get none n.manufacture k = some true) || n.defects.contains k

/-- A map that Genhan accepts (R344): the grade's count of logical clusters on each die, none twice, none on a cluster marked defective. -/
def mapOk (bad : Nat → Bool) (mapped : Nat) (m : SMap (BitVec 32)) : Bool :=
  (List.range 24).all fun d =>
    let l := ((List.range 288).map fun p => SMap.get 0 m (d * 288 + p)).filter fun e => decide (roleOf e = 0) || decide (roleOf e = 3)
    let names := l.map fun e => (logicalIn e).toNat
    decide (l.length = mapped) && decide (names.dedup = names) && names.all (fun n => decide (n < mapped)) &&
    (List.range 288).all fun p => !(decide (roleOf (SMap.get 0 m (d * 288 + p)) = 0) && bad (d * 288 + p))

/-- The map that the manufacture map gives: withheld clusters apart, logical numbers ascend over the others (R24), as many as the grade maps on a
die (R18); what it leaves over is spare. -/
def builtMap (n : NonVolatile) (mapped : Nat) : SMap (BitVec 32) :=
  (List.range 24).foldl (fun m d =>
    ((List.range 288).foldl (fun (r : SMap (BitVec 32) × Nat) p =>
      let k := d * 288 + p
      match SMap.get none n.manufacture k with
      | none =>
        if r.2 < mapped then (SMap.set 0 r.1 k (mapEntry rMapped (BitVec.ofNat 9 r.2)), r.2 + 1) else (SMap.set 0 r.1 k (mapEntry rSpare 0), r.2)
      | some bad => (SMap.set 0 r.1 k (mapEntry (if bad then rDefective else rSpare) 0), r.2)) (m, 0)).1) []

/-- The copy in force: the higher sequence number among those that hold a map. -/
def NonVolatile.bestCopy (n : NonVolatile) (mapped : Nat) : Option RepairCopy :=
  let ok (c : Option RepairCopy) : Option RepairCopy := c.filter fun x => x.ok && mapOk n.marked mapped x.entries
  match ok n.repair0, ok n.repair1 with
  | some a, some b => if a.seq < b.seq then some b else some a
  | some a, none => some a
  | none, b => b

/-- The map is loaded, or rebuilt as the copy with sequence number 1, with the marks of the manufacture map only. -/
def State.loadMap (s : State) : State × Bool :=
  match s.nv.bestCopy s.mappedPerDie with
  | some c => ({ s with repairMap := c.entries, repairSeq := c.seq }, false)
  | none =>
    let c : RepairCopy := { seq := 1, ok := true, entries := builtMap s.nv s.mappedPerDie }
    ({ s with repairMap := c.entries, repairSeq := 1, nv := { s.nv with repair0 := some { c with ok := false }, repair1 := none, repairBusy := some false, defects := [] } }, true)

/-- A logical cluster that a cause of Table 13.4 left unmapped is mapped again, where its physical cluster is powered and not defective (R367). -/
def State.mapAgain (s : State) : State :=
  allClusters.foldl (fun s k =>
    if s.role k = rUnmapped ∧ !s.nv.marked (clusterKey k) ∧ (s.domain (domainOf k)).powered then s.setEntry k rMapped (logicalIn (s.entryOf k)) else s) s

/-- Unmaps what lies in domains that are off (R344); phase 8 finds it another place or reports its die (R346). -/
def State.unmapOff (s : State) : State :=
  allClusters.foldl (fun s k =>
    if (s.domain (domainOf k)).powered then s
    else match s.logical k with
      | none => s
      | some cl => s.setEntry k rUnmapped cl) s

/-- A cluster has no logical number to give, or the number has no place: the die is reported (R346). -/
def State.unmappable (s : State) (die : Fin 24) : State :=
  { s with boot := { s.boot with dieUnmappable := s.boot.dieUnmappable ||| BitVec.ofNat 24 (2 ^ die.val) } }

/-- The logical number of a cluster that cannot carry it moves to the lowest-numbered spare of the die that is powered and not among `others`, or is
left unmapped (R25, R346). The cluster itself is defective, or where only its domain is off a spare that none can use; with its number left
unmapped the one role of Table 16.11 keeps the number (log entry 116). -/
def State.rehome (s : State) (others : List ClusterAt) (k : ClusterAt) (cl : BitVec 9) : State :=
  match (s.usableSpares k.die).find? fun sp => !others.contains sp with
  | some sp => (s.setEntry sp rMapped cl).setEntry k (if s.nv.marked (clusterKey k) then rDefective else rSpare) 0
  | none => (s.setEntry k rUnmapped cl).unmappable k.die

/-- A cluster that fails in bring-up is marked defective, and the logical number that it has moves (R345, R346). -/
def State.failInBoot (s : State) (others : List ClusterAt) (k : ClusterAt) : State :=
  if s.nv.marked (clusterKey k) ∨ s.role k = rDefective ∨ !(s.domain (domainOf k)).powered then s
  else if s.role k = rSpare then s.markDefective k
  else
    let cl := logicalIn (s.entryOf k)
    let s := s.markDefective k
    s.rehome others k cl

/-- Logical clusters that the map leaves unmapped get a place, or their dies are reported (R344, R346). -/
def State.placeUnmapped (s : State) (others : List ClusterAt) : State :=
  (allClusters.filter fun k => decide (s.role k = rUnmapped)).foldl (fun s k => s.rehome others k (logicalIn (s.entryOf k))) s

/-- Powered clusters in use whose V/F table fails its CRC (R388). -/
def State.vfFailed (s : State) : List ClusterAt :=
  allClusters.filter fun k => s.nv.vfBad.contains (clusterKey k) && decide (s.role k ≤ rSpare) && (s.domain (domainOf k)).powered

/-- Those are marked defective (R388). -/
def State.checkVf (s : State) : State :=
  let bad := s.vfFailed
  if bad = [] then s else (bad.foldl (State.failInBoot · bad) s).writeRepair

/-- Phase 6. The V/F tables are checked with the map (log entry 122). -/
def execRepair (s : State) : Host.Outcome State Fault Refusal :=
  if s.mayRun 6 then
    let r := s.loadMap
    let s := r.1.mapAgain.unmapOff.checkVf
    .next (s.phaseDone 6 (r.2 || decide (s.repairMap ≠ r.1.repairMap)))
  else .next s

/-- The clusters that take firmware: all that are powered (R345). -/
def State.fwClusters (s : State) : List ClusterAt := allClusters.filter fun k => (s.domain (domainOf k)).powered

/-- Those of them whose copy has failed once. -/
def State.fwOwed (s : State) : List ClusterAt := s.fwClusters.filter fun k => decide ((s.cluster k).fwTries = 1)

/-- The clusters that firmware goes to: at first all, then, once, those whose copy failed (R345). -/
def State.fwTargets (s : State) : List ClusterAt := if s.fwOwed = [] then s.fwClusters else s.fwOwed

/-- A cox has checked its copy of the firmware. -/
def Cluster.fwChecked (x : Cluster) (bad : Bool) : Cluster :=
  if bad then { x with fwOk := false, fwTries := x.fwTries + 1 } else { x with fwOk := true, fwTries := 0 }

/-- Phase 7: the broadcast, of which the copies in `failed` do not check; a second FIRMWARE is the unicast to those, and a copy that fails again marks
its cluster. -/
def execFirmware (failed : List ClusterAt) (s : State) : Host.Outcome State Fault Refusal :=
  if s.mayRun 7 then
    let s := s.fwTargets.foldl (fun s k => s.modCluster k fun x => x.fwChecked (failed.contains k)) s
    let bad := allClusters.filter fun k => decide (2 ≤ (s.cluster k).fwTries)
    let t := bad.foldl (State.failInBoot · bad) s
    let t := if t.repairMap = s.repairMap then t else t.writeRepair
    .next (if t.fwOwed = [] then t.phaseDone 7 (!bad.isEmpty) else t)
  else .next s

/-- Dies with fewer empty spares than the grade's minimum. -/
def State.spareLowDies (s : State) : BitVec 24 :=
  BitVec.ofNat 24 (((List.finRange 24).filter fun d => decide ((s.sparesOf d).length < s.spareMinimum)).map fun d => 2 ^ d.val).sum

/-- Known-answer runs of every powered cluster not yet marked; each failing tile is logged with its first differing output (R104), the map is
completed, and only mapped clusters keep their cores powered (R386). -/
def execKnownAnswer (failed : List TileFail) (s : State) : Host.Outcome State Fault Refusal :=
  if s.mayRun 8 then
    let ks := (failed.map (·.at_)).dedup
    let t := (ks.foldl (State.failInBoot · ks) (failed.foldl State.noteDiag s)).placeUnmapped ks
    let t := if t.repairMap = s.repairMap then t else t.writeRepair
    let t : State := { t with boot := { t.boot with spareLow := t.spareLowDies } }
    let t := allClusters.foldl (fun t k => if (t.logical k).isSome then t.modCluster k fun x => { x with gated := false } else t) t
    .next (t.phaseDone 8 (!failed.isEmpty || decide (t.boot.spareLow ≠ 0) || decide (t.boot.dieUnmappable ≠ 0)))
  else .next s

/-! ### Deep memory (R347) -/

/-- The stacks whose saved settings are usable: those of the version of the training firmware that runs. -/
def State.usableSettings (s : State) : BitVec 16 :=
  BitVec.ofNat 16 (((List.range 16).filter fun k =>
    s.nv.stackSaved.getLsbD k && decide (SMap.get none s.nv.stackFw k = some (Config.moonFirmware s.boot.digest))).map fun k => 2 ^ k).sum

/-- Stacks that end training unusable: usable settings that verify, or a full training, make a stack usable; a moon die that is off has none. -/
def State.failedStacks (s : State) (verifyOk fullOk : BitVec 16) : BitVec 16 :=
  let off := (List.range 16).filter fun k => !(SMap.get {} s.domains (56 + k / 4)).powered
  let offMask := BitVec.ofNat 16 (off.map fun k => 2 ^ k).sum
  s.stackMask &&& (~~~((s.usableSettings &&& verifyOk) ||| fullOk) ||| offMask)

/-- The settings of the stacks that come out of a full training are written over the saved ones, with the version that produced them (R347). -/
def NonVolatile.saveStacks (n : NonVolatile) (trained : BitVec 16) (version : BitVec 64) : NonVolatile :=
  { n with newStacks := ((List.range 16).filter trained.getLsbD).map fun k => (k, version) }

/-! ### Cascade configuration (R431, R438, Tables 16.9 and 16.10) -/

def cfgEntry (c : Bytes) (i : Nat) : BitVec 32 := BitVec.ofNat 32 (numAt c (16 + 4 * i) 4)
def cfgRoute (c : Bytes) (l pkg : Nat) : BitVec 16 := BitVec.ofNat 16 (numAt c (272 + 8192 * l + 2 * pkg) 2)

/-- A configuration that Genhan takes: zero fields zero, widths legal, one of STARTER and PARENT_VALID, time ports enabled. -/
def State.cascadeOk (s : State) (c : Bytes) : Bool :=
  let t := numAt c 8 4
  decide (c.length = 65808) && decide (numAt c 0 2 < 4096) && decide (numAt c 2 2 = 0) && decide (numAt c 12 4 = 0) && decide (bitsOf t 15 15 = 0) &&
  decide (bitsOf t 31 28 = 0) && !(decide (bitsOf t 0 0 = 1) && decide (bitsOf t 1 1 = 1)) &&
  (decide (bitsOf t 1 1 = 0) || s.portMask.getLsbD (bitsOf t 7 2)) && (decide (bitsOf t 8 8 = 0) || s.portMask.getLsbD (bitsOf t 14 9)) &&
  ((List.range 64).all fun i =>
    let e := (cfgEntry c i).toNat
    decide (bitsOf e 28 28 = 0) && decide (bitsOf e 23 22 = 0) && decide (bitsOf e 15 12 = 0) && [1, 2, 4, 8].contains (bitsOf e 27 24)) &&
  ((List.range 8).all fun l => (List.range 4096).all fun p => decide (bitsOf (cfgRoute c l p).toNat 3 0 = 0))

/-- A change of settings gives the package another parent: the starter bit, the parent port, or the alternate where it is the one in use (R299). -/
def Time.newParent (t : Time) (settings : BitVec 32) : Bool :=
  decide (settings.extractLsb' 0 8 ≠ t.settings.extractLsb' 0 8) || (t.onAlt && decide (settings.extractLsb' 8 7 ≠ t.settings.extractLsb' 8 7))

/-- The settings of a configuration, its tables and its time parent (R299); `st` is the time state of a new parent. -/
def State.setCascadeFields (s : State) (c : Bytes) (st : TimeState) : State :=
  let settings := BitVec.ofNat 32 (numAt c 8 4)
  let t := s.time
  let time : Time := if !t.newParent settings then { t with settings := settings }
    else { t with settings := settings, onAlt := false, depth := 0, probe := none, unanswered := 0, inBound := 0, stepped := false, slew := 0, freq := 0
                  state := if settings.getLsbD 0 then .starter else st }
  { s with
    pkg := BitVec.ofNat 12 (numAt c 0 2), cascadeId := BitVec.ofNat 32 (numAt c 4 4), time := time
    expect := SMap.run 0x04000000 0 ((List.range 64).map (cfgEntry c))
    croutes := SMap.run 0 0 ((List.range 8).flatMap fun l => (List.range 4096).map (cfgRoute c l)) }

/-- A port after a change of its entry: DISABLE takes it through QUIESCE to DISABLED, any other change trains it anew. R373 has a part's entry into
QUIESCE raise QUIESCE, but Table 13.7 has no code for a port: none is raised (DEDUCED, log entry 128). -/
def State.portChanged (s : State) (old : SMap (BitVec 32)) (i : Nat) : State :=
  if !s.portMask.getLsbD i || decide (SMap.get 0x04000000 old i = s.portEntry i) then s
  else
    let p := s.port i
    if (s.portEntry i).getLsbD 29 then
      if p.state = .disabled then s
      else
        (if p.carries then s.sendLink i [5, 1] else s).takeOffline i
    else if s.portEnabled i then s.takeDown i .training 0
    else s

/-- Genhan applies a configuration. -/
def State.applyCascade (s : State) (c : Bytes) : State :=
  let old := s.expect
  (List.range 64).foldl (fun s i => s.portChanged old i) (s.setCascadeFields c s.unlockedState)

/-- Before phase 10 the stored configuration, or the defaults, are in force and every enabled port starts its training (R348, R438). The counter of a
non-starter runs free until its time parent port carries. -/
def State.beforeLinks (s : State) : State :=
  let s := match s.nv.cascade with
    | some c => s.setCascadeFields c .starter
    | none => s
  (List.range 64).foldl (fun s i => if s.portEnabled i then s.setPortState i .training 0 0 else s) s

/-- Phase 9: the stacks are trained, new settings saved, deep memory zeroed unless the stacks kept power (R347, R380). -/
def execMemory (verifyOk fullOk : BitVec 16) (s : State) : Host.Outcome State Fault Refusal :=
  if s.mayRun 9 then
    let bad := s.failedStacks verifyOk fullOk
    let trained := s.stackMask &&& ~~~bad &&& ~~~(s.usableSettings &&& verifyOk)
    let kept := s.power.stacksKept
    let s : State := { s with
      boot := { s.boot with stackFail := bad, deepUnavailable := decide (bad ≠ 0) }
      nv := { s.nv.saveStacks trained (Config.moonFirmware s.boot.digest) with ckptArea := if kept then s.nv.ckptArea else none }
      deep := if kept then s.deep else [], deepErr := if kept then s.deepErr else [], ckpt := if kept then s.ckpt else {}
      power := { s.power with stacksKept := false } }
    .next (s.beforeLinks.phaseDone 9 (decide (bad ≠ 0)))
  else .next s

/-! ### Links and host-ready (R348, R349) -/

/-- A port has ended its training. -/
def Port.settled (p : Port) : Bool := p.carries || decide (p.state = .held) || decide (p.state = .down)

/-- Phase 10 has finished once every enabled port of the wait mask has settled. -/
def execLinks (s : State) : Host.Outcome State Fault Refusal :=
  let waited := (List.range 64).filter fun i => s.boot.waitMask.getLsbD i && s.portEnabled i
  if s.mayRun 10 && waited.all fun i => (s.port i).settled then
    .next (s.phaseDone 10 (waited.any fun i => !(s.port i).carries && decide ((s.port i).reason.toNat ≠ rNoPeer)))
  else .next s

/-- POWER_LOSS and INPUT_REVERSED, owed since before the bring-up (R381, R383). -/
def State.owedReports (s : State) : State :=
  let s := match s.nv.powerRecord with
    | none => s
    | some r =>
      ({ s with nv := { s.nv with powerRecord := none } } : State).raiseEvent 0x0022 none
        ([r.cause, r.jobState, (if r.drainDone then 1 else 0) + (if r.stacksKept then 2 else 0), if r.area then 1 else 0] ++
          leBytes 4 r.tag.toNat ++ leBytes 6 r.step.toNat ++ [0, 0] ++ leBytes 8 r.sc.toNat)
  if s.nv.reversals = s.nv.reversalsReported then s
  else
    let n := s.nv.reversals - s.nv.reversalsReported
    ({ s with nv := { s.nv with reversalsReported := s.nv.reversals } } : State).raiseEvent 0x0024 none (leBytes 2 n)

/-- A new device nonce (R415). -/
def State.newNonce (s : State) : State :=
  let d := s.draw
  { d.2 with host := { d.2.host with dbg := { d.2.host.dbg with nonce := d.1 } } }

/-- The report fields (R349, R423). -/
def Boot.written (b : Boot) : BringUpReport :=
  { deepUnavailable := b.deepUnavailable, domainOff := b.domainOff, dieLost := b.dieLost, dieUnmappable := b.dieUnmappable, spareLow := b.spareLow
    stackFail := b.stackFail }

/-- Host-ready: the report is written, rings are accepted, MIN_SV rises (R338), a new nonce is drawn. -/
def execHostReady (s : State) : Host.Outcome State Fault Refusal :=
  if s.mayRun 11 then
    let s := s.phaseDone 11 false
    let s : State := { s with
      boot := { s.boot with hostReady := true, report := s.boot.written }
      nv := { s.nv with minSv := if s.nv.minSv < s.boot.sv then s.boot.sv else s.nv.minSv } }
    .next s.newNonce.owedReports
  else .next s

end Sys2Proof.Machine
end

