-- ==== Sys2Proof/Machine/Host.lean ====
section
/-! DEFINITION. Rings, doorbells, descriptors in progress, completions and interrupts (R303 to R317, R321, R325, R326, R425, R449). -/

namespace Sys2Proof.Machine

/-! ### Doorbells (R306, R308, R309, R311) -/

/-- A write of the host reaches the registers: host-ready, link up, not in D3hot (R305, R334). -/
def State.hears (s : State) : Bool := s.boot.hostReady && s.host.linkUp && !s.host.d3hot

/-- The command processor stops a submission ring (R308): 1 index out of range, 2 fetch failed, 3 CQ_HEAD beyond the written entries. -/
def State.stopRing (s : State) (p : Nat) (cause : Nat) : State :=
  (s.modRing p fun r => { r with sqEnable := false, sqStopped := true, sqCause := BitVec.ofNat 4 cause }).raiseEvent 0x000E none
    [BitVec.ofNat 8 p, BitVec.ofNat 8 cause]

/-- Entries that a CQ_HEAD write claims to have consumed. -/
def Ring.claimed (r : Ring) (v : Nat) : Nat := (v + 2 ^ r.cqSize.toNat - r.cqHost.toNat) % 2 ^ r.cqSize.toNat

/-- A completion as written: its PHASE is the ring's (R311). -/
def State.writeCompletion (s : State) (p : Nat) (e : BitVec 128) (irq : Bool) : State :=
  let r := s.ring p
  let h := if r.cqPhase then e ||| BitVec.ofNat 128 (2 ^ 53) else e
  let s := (s.emit (.hostWrite (r.cqBase + BitVec.ofNat 64 (16 * r.cqWr.toNat)) (leBytes 16 h.toNat))).putRing p (ringAdvance r)
  if irq then s.pend r.cqVec.toNat r.cqMod else s

/-- Held completions are written while the link and the ring take them (R310, R449). -/
def State.flushHeld (fuel : Nat) (s : State) (p : Nat) : State :=
  match fuel, (s.ring p).heldC with
  | 0, _ => s
  | _, [] => s
  | n + 1, (e, irq) :: rest =>
    if s.linkLive && decide (0 < ringFree (s.ring p)) then
      State.flushHeld n ((s.modRing p fun r => { r with heldC := rest }).writeCompletion p e irq) p
    else s

def State.flushRing (s : State) (p : Nat) : State := s.flushHeld ((s.ring p).heldC.length) p

/-- SQ_TAIL. -/
def execSqTailDoorbell (page : BitVec 7) (value : BitVec 32) (s : State) : Host.Outcome State Fault Refusal :=
  let p := page.toNat
  let r := s.ring p
  let v := value.toNat % 65536
  if !s.hears || decide (63 < p) || !r.sqEnable then .next s
  else if 2 ^ r.sqSize.toNat ≤ v then .next (s.stopRing p 1)
  else .next (s.putRing p { r with sqTail := BitVec.ofNat 16 v })

/-- CQ_HEAD. A bad index on a page without a submission ring is ignored. -/
def execCqHeadDoorbell (page : BitVec 7) (value : BitVec 32) (s : State) : Host.Outcome State Fault Refusal :=
  let p := page.toNat
  let r := s.ring p
  let v := value.toNat % 65536
  if !s.hears || decide (80 < p) || !r.cqEnable then .next s
  else
    let bad := if 2 ^ r.cqSize.toNat ≤ v then 1 else if r.cqUsed < r.claimed v then 3 else 0
    if bad ≠ 0 then .next (if p ≤ 63 then s.stopRing p bad else s)
    else .next ((s.putRing p { r with cqHost := BitVec.ofNat 16 v, cqUsed := r.cqUsed - r.claimed v }).flushRing p)

/-! ### Ring enables (R307, R425) -/

def sizeOk (n : Nat) : Bool := decide (4 ≤ n) && decide (n ≤ 16)

/-- The word at 0x08 of a ring page: a refused write is ignored as a whole, and what is written with ENABLE takes effect with it (R425). A write that leaves
an enabled ring enabled changes nothing (R307). -/
def State.writeSqControl (s : State) (p : Nat) (v : BitVec 32) : State :=
  let r := s.ring p
  let size := v.extractLsb' 0 5
  if 63 < p then s
  else if v.getLsbD 31 then
    if r.sqEnable then s
    else if !r.cqEnable || !sizeOk size.toNat then s
    else s.putRing p { r with sqEnable := true, sqSize := size, sqStopped := false, sqCause := 0, sqHead := 0, sqTail := 0 }
  else s.putRing p { r with sqEnable := false, sqSize := size }

/-- The word at 0x28 of a ring page. -/
def State.writeCqControl (s : State) (p : Nat) (v : BitVec 32) : State :=
  let r := s.ring p
  let size := v.extractLsb' 0 5
  let set (r : Ring) : Ring := { r with cqSize := size, cqVec := v.extractLsb' 8 6, cqMod := v.extractLsb' 16 10 }
  if 80 < p then s
  else if v.getLsbD 31 then
    if r.cqEnable then s
    else if !sizeOk size.toNat then s
    else s.putRing p { set r with cqEnable := true, cqHost := 0, cqPhase := true, cqWr := 0, cqUsed := 0 }
  else if r.cqEnable && (r.sqEnable || !r.inProgress.isEmpty) then s
  else s.putRing p { set r with cqEnable := false }

def execSqEnableWrite (page : Fin 81) (value : BitVec 32) (s : State) : Host.Outcome State Fault Refusal :=
  .next (if s.hears then s.writeSqControl page.val value else s)

def execCqEnableWrite (page : Fin 81) (value : BitVec 32) (s : State) : Host.Outcome State Fault Refusal :=
  .next (if s.hears then s.writeCqControl page.val value else s)

/-! ### Classes of descriptors (R314, Tables 11.4 and 11.5) -/

/-- LOAD_IMAGE, ARM_LAUNCH, DRAIN, RESTORE. -/
def Desc.isJob (d : Desc) : Bool := [1, 4, 8, 9].contains d.op
/-- CATCH_STOP, ABORT. -/
def Desc.isImmediate (d : Desc) : Bool := [7, 0xC].contains d.op
def Desc.isDma (d : Desc) : Bool := [2, 3].contains d.op

/-- Every descriptor in progress, with its ring. -/
def State.allDescs (s : State) : List (Nat × Desc) :=
  s.host.rings.flatMap fun p => if p.1 < 64 then p.2.inProgress.map fun d => (p.1, d) else []

/-- A descriptor may start (R317). -/
def State.mayStart (s : State) (p : Nat) (d : Desc) : Bool :=
  let ahead := (s.ring p).inProgress.filter fun x => decide (x.serial < d.serial)
  !d.started && !(d.order && !ahead.isEmpty) && (d.isImmediate || !(ahead.any fun x => x.order && !x.started)) &&
  (!d.isJob || !(s.allDescs.any fun q => q.2.isJob && (q.2.started || decide (q.2.serial < d.serial))))

/-! ### Checks at the start (R315) -/

/-- Bits of the three operand words that each opcode assigns (Table 11.5). -/
def operandMasks (op : Nat) : Nat × Nat × Nat :=
  match op with
  | 1 => (2 ^ 48 - 1, 2 ^ 32 - 1, 0)
  | 2 | 3 => (2 ^ 64 - 1, 2 ^ 48 - 1, 2 ^ 32 - 1)
  | 4 => (2 ^ 64 - 1, 2 ^ 48 - 1, 2 ^ 32 - 1)
  | 5 => (2 ^ 64 - 1, 2 ^ 32 - 1, 0)
  | 6 => (2 ^ 64 - 1, 2 ^ 34 - 1, 2 ^ 32 - 1)
  | 0xA => (2 ^ 64 - 1, 2 ^ 32 - 1, 0)
  | 0xB => (2 ^ 15 - 1, 1, 0)
  | 0xC => (0xFFFF003F, 0, 0)
  | _ => (0, 0, 0)

/-- A word is within its mask. -/
def within (x : BitVec 64) (m : Nat) : Bool := decide (x.toNat &&& m = x.toNat)

/-- FA of SIGNAL and WAIT: space 0 of this package, aligned, its logical cluster mapped. -/
def State.hostFaOk (s : State) (fa : BitVec 64) : Bool :=
  decide (faSpace fa = 0) && decide (faPkg fa = s.pkg) && decide (bitsOf fa.toNat 27 17 = 0) && decide (fa.toNat % 4 = 0) && (s.coreAt (faCore fa)).isSome

/-- A reserved field is set, or an operand breaks its alignment or range. -/
def State.descMalformed (s : State) (d : Desc) : Bool :=
  let m := operandMasks d.op
  let f (q : BitVec 64) (n : Nat) : Bool := decide (q.toNat % n = 0)
  decide (bitsOf d.bits.toNat 511 256 ≠ 0) || decide (bitsOf d.bits.toNat 63 32 ≠ 0) || decide (bitsOf d.bits.toNat 13 8 ≠ 0) ||
  !(within d.q1 m.1 && within d.q2 m.2.1 && within d.q3 m.2.2) ||
  !(match d.op with
    | 1 => f d.q1 64 && f d.q2 64
    | 2 | 3 => f d.q1 64 && f d.q2 64 && f d.q3 64 && decide (64 ≤ d.q3.toNat)
    | 5 | 6 => s.hostFaOk d.q1
    | 0xA => f d.q1 64 && f d.q2 64
    | 0xB => if d.q1.getLsbD 14 then decide (d.q1.toNat = 2 ^ 14) else decide (bitsOf d.q1.toNat 4 0 < 24) && decide (bitsOf d.q1.toNat 13 5 < 288)
    | _ => true)

/-- Job states of Table 11.6. -/
def stateAllowed (op : Nat) (st : JobState) : Bool :=
  match op with
  | 1 => [JobState.idle, .loaded, .halted, .faulted].contains st
  | 4 => [JobState.loaded, .halted].contains st
  | 5 | 6 => decide (st ≠ .idle)
  | 7 => [JobState.armed, .running, .halting, .halted, .faulted].contains st
  | 8 => [JobState.halted, .faulted].contains st
  | 9 => [JobState.loaded, .halted, .faulted].contains st
  | _ => true

/-- The first check that fails: BAD_OPCODE, MALFORMED, BAD_STATE. -/
def State.startFault (s : State) (d : Desc) : Option Nat :=
  if 0xC < d.op then some 1
  else if s.descMalformed d then some 2
  else if !stateAllowed d.op s.job.state then some 3
  else none

/-! ### Decisions (R321, R325) -/

/-- A completion entry but for PHASE (Table 11.7). -/
def completionEntry (sc : BitVec 48) (tag : BitVec 16) (status : Nat) (aborted late : Bool) (ring : Nat) (result : BitVec 32) : BitVec 128 :=
  sc ++ tag ++ BitVec.ofNat 8 status ++ BitVec.ofBool aborted ++ BitVec.ofBool late ++ (0 : BitVec 6) ++ BitVec.ofNat 6 ring ++ (0 : BitVec 10) ++ result

/-- Replies on their way to the host interface die that no descriptor waits for any more are discarded there. -/
def State.dropReplies (s : State) : State :=
  let live (n : Option Nat) : Bool := s.allDescs.any fun q => [5, 6].contains q.2.op && q.2.started && decide (some q.2.serial = n)
  (((s.mesh ++ s.waiting).filter fun p => decide (p.pkind = 4) && decide (p.exit = 3) && decide (p.dst.die = 31) && !live p.txn).map (·.id)).foldl State.lose s

/-- One descriptor is decided: it leaves those in progress, and its completion is written or held. -/
def State.decideOne (s : State) (p : Nat) (d : Desc) (status : Nat) (result : BitVec 32) (aborted late : Bool) : State :=
  let e := completionEntry (s.time.sc.setWidth 48) d.tag status aborted late p result
  let s := s.modRing p fun r => { r with
    inProgress := r.inProgress.filter fun x => decide (x.serial ≠ d.serial)
    decided := ((d.tag, BitVec.ofNat 8 d.op) :: r.decided).take 64
    heldC := r.heldC ++ [(e, d.irq)] }
  s.flushRing p

/-- A decision, and that of the ABORTs that wait for it (R326). -/
def State.conclude (s : State) (p : Nat) (d : Desc) (status : Nat) (result : BitVec 32) (aborted : Bool := false) (late : Bool := false) : State :=
  let s := s.decideOne p d status result aborted late
  let s := d.abortedBy.foldl (fun s a => match (s.ring a.1.val).inProgress.find? fun x => decide (x.serial = a.2) with
    | some x => s.decideOne a.1.val x 0 0 false (!aborted)
    | none => s) s
  s.dropReplies

/-- The oldest descriptor of ring `p` with a tag and an opcode that a test picks. -/
def State.findDesc (s : State) (p : Nat) (tag : BitVec 16) (f : Desc → Bool) : Option Desc :=
  (s.ring p).inProgress.find? fun d => decide (d.tag = tag) && f d

/-- A descriptor starts: the first check that fails decides it (R315), else `go` is its work. What has been taken goes on in D3hot (R329). -/
def State.begin (s : State) (r : Fin 64) (tag : BitVec 16) (op : Nat) (go : State → Desc → State) : State :=
  match s.findDesc r.val tag fun d => decide (d.op = op) && s.mayStart r.val d with
  | none => s
  | some d => match s.startFault d with
    | some st => s.conclude r.val d st 0
    | none =>
      let d := { d with started := true, startSc := s.time.sc }
      go (s.putDesc r.val d) d

/-! ### Fetch (R309, R310, R317) -/

/-- The oldest unfetched descriptor may be taken. -/
def State.mayFetch (s : State) (p : Nat) : Bool :=
  let r := s.ring p
  s.hears && !s.host.needReset && r.sqEnable && decide (r.sqHead ≠ r.sqTail) && decide (r.inProgress.length < 16) &&
  decide (r.inProgress.length + r.heldC.length < ringFree r)

/-- A fetch returns the descriptor, or an error (R304, R308). The new head is written back. -/
def execDescriptorFetch (r : Fin 64) (d : Option (BitVec 512)) (s : State) : Host.Outcome State Fault Refusal :=
  if !s.mayFetch r.val then .next s
  else match d with
    | none => .next ((s.logRead .fetch).stopRing r.val 2)
    | some b =>
      let g := s.ring r.val
      let head := (g.sqHead.toNat + 1) % 2 ^ g.sqSize.toNat
      let x : Desc := { bits := b, serial := s.host.taken }
      let s := s.emit (.hostWrite g.sqWb (leBytes 4 head))
      let s := s.putRing r.val { g with sqHead := BitVec.ofNat 16 head, inProgress := g.inProgress ++ [x] }
      .next { s with host := { s.host with taken := s.host.taken + 1 } }

/-! ### Interrupts (R305, R313) -/

/-- The end of a moderation interval: causes that came within it send one message, which starts the next (R313). -/
def execMsixModerationExpiry (vector : Fin 64) (s : State) : Host.Outcome State Fault Refusal :=
  let m := BitVec.ofNat 64 (2 ^ vector.val)
  let h := s.host
  if !h.modRun.getLsbD vector.val then .next s
  else
    let t : State := { s with host := { h with modRun := h.modRun &&& ~~~m, modWait := h.modWait &&& ~~~m } }
    .next (if h.modWait.getLsbD vector.val then t.sendPaced vector.val else t)

/-- Sends what is pending and not masked, each vector's message in its interval at most once. -/
def State.flushPending (s : State) : State :=
  (List.range 64).foldl (fun s v =>
    if s.host.pba.getLsbD v && s.msixOpen v then
      let t : State := { s with host := { s.host with pba := s.host.pba &&& ~~~(BitVec.ofNat 64 (2 ^ v)) } }
      if s.host.modRun.getLsbD v then { t with host := { t.host with modWait := t.host.modWait ||| BitVec.ofNat 64 (2 ^ v) } } else t.sendPaced v
    else s) s

def execD3hotEntry (s : State) : Host.Outcome State Fault Refusal :=
  .next (if s.host.linkUp then { s with host := { s.host with d3hot := true } } else s)

/-- Interrupts that waited go out. -/
def execD0Return (s : State) : Host.Outcome State Fault Refusal :=
  .next (if s.host.d3hot then ({ s with host := { s.host with d3hot := false } } : State).flushPending else s)

/-! ### The PCI Express link (R334, R449) -/

/-- The link goes down: DMA descriptors in progress complete with HOST_ERROR, and completions and events are held. -/
def execPcieLinkDown (s : State) : Host.Outcome State Fault Refusal :=
  if s.host.linkUp then
    let s : State := { s with host := { s.host with linkUp := false, needReset := true } }
    .next ((s.allDescs.filter fun q => q.2.isDma).foldl (fun s q => s.conclude q.1 q.2 0xA (BitVec.ofNat 32 q.2.moved)) s)
  else .next s

/-- Events held while the link was down. -/
def State.flushEvents (s : State) : State :=
  let l := s.host.heldEvents
  l.foldl (fun s e => s.writeEvent (bitsOf e.toNat 127 0) ((leBytes 64 e.toNat).drop 16)) { s with host := { s.host with heldEvents := [] } }

/-- Training ends and the link comes up. -/
def execPcieLinkUp (s : State) : Host.Outcome State Fault Refusal :=
  if (s.domain 60).powered && !s.host.perst && !s.host.linkUp then
    let s : State := { s with host := { s.host with linkUp := true } }
    let s := s.flushEvents
    .next ((List.range 64).foldl State.flushRing s).flushPending
  else .next s

end Sys2Proof.Machine
end

