-- ==== Sys2Proof/Machine/Opcodes.lean ====
section
/-! DEFINITION. The opcodes of descriptors (R262 to R264, R272, R301, R315 to R326, R401, R404, R455). -/

namespace Sys2Proof.Machine

/-! ### The job's end (R330, Table 11.6) -/

/-- Every counter clears, and what the intervals remember of them (R409). -/
def State.clearCounters (s : State) : State :=
  { s with ctr := [], clusters := SMap.mapVals {} (fun x : Cluster => { x with lastIssue := 0, lastStall := 0 }) s.clusters }

/-- The image is discarded and the job IDLE; its clusters hold the reset state. JOB_TAG stays but for a reset (Table 16.5, R13). -/
def State.discardJob (s : State) (status reason : Nat) : State :=
  let s := s.job.members.foldl (fun s k => s.clearCluster k) s
  let s := s.setJob .idle status reason
  ({ s with job := { tag := s.job.tag }, streams := [], conns := [] } : State).setVoltages

/-! ### NOP -/

def execNop (r : Fin 64) (tag : BitVec 16) (s : State) : Host.Outcome State Fault Refusal := .next (s.begin r tag 0 fun s d => s.conclude r.val d 0 0)

/-! ### LOAD_IMAGE (R401 to R404, R455) -/

/-- Deep memory cannot be used: DEEP_UNAVAILABLE (R347). -/
def State.deepOff (s : State) : Bool := s.boot.deepUnavailable

/-- The bytes that `n` container segments from offset `o` on carry, or the status that stops the read. -/
def State.readContainers (s : State) (o n : Nat) : State × (Nat ⊕ Bytes) :=
  match n with
  | 0 => (s, .inr [])
  | k + 1 =>
    let r := s.moonRead o 2112
    match r.2 with
    | .inr _ => (r.1, .inl 9)
    | .inl b =>
      let s := r.1.countBytes 1 o 2112
      if !draocOk b then (s.checkEvent 3 0 o, .inl 8)
      else
        let t := s.readContainers (o + 2112) k
        match t.2 with
        | .inl e => (t.1, .inl e)
        | .inr l => (t.1, .inr (bytesAt b 64 2048 ++ l))

/-- What Genhan knows of the package when it checks an image. -/
def State.imgCtx (s : State) : ImgCtx :=
  { grade := s.grade 33 1, mapped := fun die cl => decide (cl < s.mappedPerDie) && (s.physical die (BitVec.ofNat 9 cl)).isSome, pkg := s.pkg.toNat, jobEnd := s.areaBase 0 }

/-- The Reproducibility Record (Table 15.1). -/
def State.reproRecord (s : State) (r : ImgRec) : BitVec 768 :=
  let digest := leNat (shake256 32 (bytesAt r.body 64 (32 * r.n 56 2)))
  BitVec.ofNat 64 (r.n 0 8) ++ BitVec.ofNat 256 digest ++ BitVec.ofNat 256 (r.n 8 32) ++ BitVec.ofNat 64 (r.n 48 8) ++ BitVec.ofNat 32 (r.n 44 4) ++
    BitVec.ofNat 8 (r.n 41 1) ++ BitVec.ofNat 8 (r.n 40 1) ++ BitVec.ofNat 8 (s.grade 33 1) ++ BitVec.ofNat 8 (s.grade 32 1) ++ BitVec.ofNat 64 (s.grade 8 8)

/-- Records whose remote endpoints name a link die with no port that carries traffic, and no alternate (R367). -/
def State.linklessRecs (s : State) (recs : List ImgRec) : List Nat :=
  (recs.filter fun r => decide (r.typ = 8) && (List.range 16).any fun i =>
    let e := recSend r i
    e.valid && e.remote && !s.linkUp e.linkDie && !e.altValid).map (·.off)

/-- The verdict on an image: that of the checks of R404 and R455 with those of R367. -/
def State.verdictOf (s : State) (img : Bytes) : Option (Nat × Nat) :=
  match imageVerdict s.imgCtx img, (s.linklessRecs (imageRecs img).1).min? with
  | some (0x05, o), _ => some (0x05, o)
  | some (_, o), some q => some (0x04, min o q)
  | some v, none => some v
  | none, some q => some (0x04, q)
  | none, none => none

/-- What a cluster keeps through an image load: what belongs to the physical cluster. -/
def Cluster.physicalOnly (x : Cluster) : Cluster :=
  { wp := x.wp, edge := x.edge, diag := x.diag, gated := x.gated, quiesced := x.quiesced, fifoReset := x.fifoReset, fwBuf := x.fwBuf, fwOk := x.fwOk,
    fwTries := x.fwTries, ceiling := x.ceiling, hotRun := x.hotRun, passed := x.passed, deferred := x.deferred, testing := x.testing,
    stress := x.stress, trim := x.trim, testVoid := x.testVoid, forcedStall := x.forcedStall, skew := x.skew }

/-- What a core keeps through an image load: its scratchpad (log entry 23). -/
def Core.scratchOnly (x : Core) : Core := { spad := x.spad, ecc := x.ecc, wback := x.wback }

/-- The job that an image makes; the target frequency stands in no field of the image and is a free value up to the cap. -/
def State.jobFrom (s : State) (off len : Nat) (img : Bytes) : Job × State :=
  let recs := (imageRecs img).1
  let id := (recs.find? fun r => decide (r.typ = 1)).getD ⟨0, 0, []⟩
  let d := s.draw
  let words (o n : Nat) : List (BitVec 32) := (List.range n).map fun i => BitVec.ofNat 32 (id.n (o + 4 * i) 4)
  ({ state := s.job.state, tag := s.job.tag, imageOffset := BitVec.ofNat 48 off, imageLength := BitVec.ofNat 32 len, image := img
     phase := BitVec.ofNat 3 (initialPhase recs), record := s.reproRecord id, seed := BitVec.ofNat 64 (id.n 48 8)
     target := d.1.toNat % (s.clockCap + 1), digD := BitVec.ofNat 8 (id.n 60 1), digShards := BitVec.ofNat 8 (id.n 62 1)
     digReplicas := words (replicaOff id) (id.n 61 1), digPlaces := (placements id).map (BitVec.ofNat 32) }, d.2)

/-- The image is written: every core held before slot 0, the job LOADED. -/
def State.writeImage (s : State) (off len : Nat) (img : Bytes) : State :=
  let s := s.clearCounters.incidentsUndecided
  let s : State := { s with
    cores := SMap.mapVals {} Core.scratchOnly s.cores, clusters := SMap.mapVals {} Cluster.physicalOnly s.clusters, streams := [], conns := [] }
  let j := s.jobFrom off len img
  let s : State := { j.2 with job := j.1, ckpt := { j.2.ckpt with unproven := none }, genhan := { j.2.genhan with digSeen := [] } }
  let recs := (imageRecs img).1
  let s := (streamList (regionOf recs)).foldl (fun s t => s.putStream t.1 t.2.1 { entry := t.2.2 }) s
  ((s.loadPhase j.1.phase.toNat).setJob .loaded 0 0).setVoltages

/-- The start of LOAD_IMAGE: what it finds decides it at once, else the image stands and its decision is due. -/
def State.loadImage (s : State) (p : Nat) (d : Desc) : State :=
  let off := d.q1.toNat
  let len := d.q2.toNat
  if s.deepOff || s.power.coolantStop then s.conclude p d 0x0E 0
  else if len % 2112 ≠ 0 ∨ s.areaBase 0 < off + len then s.conclude p d 0x04 0
  else
    let r := s.readContainers off (len / 2112)
    match r.2 with
    | .inl e => r.1.conclude p d e 0
    | .inr img => match r.1.verdictOf img with
      | some v => r.1.conclude p d v.1 (BitVec.ofNat 32 v.2)
      | none => (r.1.writeImage off len img).endDesc p d 0 0

/-- LOAD_IMAGE (R121, R455). Its reads wait while an access to a segment is under way at a home (R260). -/
def execLoadImage (r : Fin 64) (tag : BitVec 16) (s : State) : Host.Outcome State Fault Refusal :=
  .next (if s.homesFree then s.begin r tag 1 fun s d => s.loadImage r.val d else s)

/-! ### DMA (R264, R272, R320) -/

/-- What stops a DMA before anything moves. -/
def State.dmaRefused (s : State) (d : Desc) : Option Nat :=
  let o := d.q2.toNat
  let n := d.q3.toNat
  if s.deepOff then some 0x0E
  else if s.capacity < o + n then some 6
  else if d.op = 2 ∧ s.areaClosed o n then some 7
  else none

/-- A DMA descriptor in progress, or one that starts now; `go` moves the next segment. A drain area that has become reserved meanwhile stops
it (R264); a request that is out is waited for. -/
def State.dma (s : State) (r : Fin 64) (tag : BitVec 16) (op : Nat) (go : State → Desc → State) : State :=
  let try_ (s : State) (d : Desc) (stop : State → Nat → State) : State := match s.dmaRefused d with
    | some st => stop s st
    | none => if d.part.isSome then s else go s d
  match s.findDesc r.val tag fun d => decide (d.op = op) && d.started && d.ended.isNone with
  | some d => try_ s d fun s st => s.dmaEnds r.val d (st, false)
  | none => s.begin r tag op fun s d => try_ s d fun s st => s.conclude r.val d st 0

/-- The next bytes of the run come from host memory, or their read fails: the first whole segment of them is checked and sent. -/
def State.dmaIn (s : State) (p : Nat) (d : Desc) (run : Bytes) : State :=
  let n := segSpace run
  if run.length < 64 ∨ (run.length < n ∧ d.bytes + n ≤ d.q3.toNat ∧ segPlen run ≤ 4016) then s
  else match dmaBad d (run.take n) with
    | some e => s.dmaEnds p d e
    | none => s.dmaPut p d (run.take n)

def execDmaToDeep (r : Fin 64) (tag : BitVec 16) (run : Option Bytes) (s : State) : Host.Outcome State Fault Refusal :=
  .next (s.dma r tag 2 fun s d => match run with
    | none => (s.logRead .dma).dmaEnds r.val d (0x0A, false)
    | some b => s.dmaIn r.val d (b.take (d.q3.toNat - d.bytes)))

/-- The next segment of deep memory is read for the host, unless none is asked for. -/
def execDmaFromDeep (r : Fin 64) (tag : BitVec 16) (segments : Nat) (s : State) : Host.Outcome State Fault Refusal :=
  .next (s.dma r tag 3 fun s d => if segments = 0 then s else s.dmaGet r.val d)

/-! ### ARM_LAUNCH (R301, R427) -/

/-- Some cluster that the image names is unmapped (R394). -/
def State.namesUnmapped (s : State) : Bool :=
  (members (regionOf (imageRecs s.job.image).1)).any fun e => (s.physical (memDie e) (BitVec.ofNat 9 (memCl e))).isNone

/-- The job is armed at a count; from LOADED with a fresh log and the given step index; from HALTED what was left of a phase change goes on (R197), with the
load of its transfer schedule where that was still to come. -/
def State.armJob (s : State) (d : Desc) : State :=
  let first := decide (s.job.state = .loaded)
  let s : State := if first then { s with genhan := { s.genhan with log := [], numOr := 0 } } else s
  let s := if first then s.job.members.foldl (fun s k => s.modCluster k fun x => { x with step := d.q2.extractLsb' 0 48 }) s else s
  let s : State := { s with job := Job.launched { s.job with tag := d.q3.extractLsb' 0 32, reason := 0, status := 0, faultArose := false, phaseReported := false } }
  let s := s.setJob .armed 0 0
  (match s.job.between with
    | .transfer q false => s.transferIn q
    | _ => s).armAt d.q1

/-- ARM_LAUNCH (R197, R301, R325). Where the package is not locked and the Launch Count is too near at once, the status is TIME_NOT_LOCKED (R301
gives no order: DESIGN CHOICE, log entry 143). -/
def execArmLaunch (r : Fin 64) (tag : BitVec 16) (s : State) : Host.Outcome State Fault Refusal :=
  .next (s.begin r tag 4 fun s d =>
    if s.namesUnmapped then s.conclude r.val d 3 0
    else if !s.timeOk then s.conclude r.val d 0x0B 0
    else if d.q1.toNat < s.time.sc.toNat + 100000 then s.conclude r.val d 0x0C 0
    else (s.armJob d).conclude r.val d 0 0)

/-! ### SIGNAL and WAIT (R318) -/

/-- The host's requests carry this name. -/
def State.hostName (s : State) : LCore := ⟨s.pkg, 31, 511, 0⟩

/-- A request of the host interface die to a scratchpad word: a FETCH_ADD32 of a value, or a read of the word. -/
def State.hostRequest (s : State) (d : Desc) (atomic : Bool) : State :=
  match s.coreAt (faCore d.q1) with
  | none => s
  | some c =>
    let n := s.hostName
    let v : BitVec 32 := if atomic then d.q2.extractLsb' 0 32 else 0
    let a : BitVec 256 := v ++ (0 : BitVec 4) ++ n.pkg ++ n.die ++ n.cl ++ n.core ++ (0 : BitVec 4) ++ (0 : BitVec 8) ++ (0 : BitVec 1) ++
      BitVec.ofNat 11 d.serial ++ BitVec.ofNat 13 (if atomic then 0 else 4) ++ (3 : BitVec 3) ++ (if atomic then (2 : BitVec 2) else 1) ++
      (0 : BitVec 82) ++ d.q1
    s.injectFrom 3 0 c ({ packet 3 n (faCore d.q1) a with txn := some d.serial })

/-- The reply to the host's request of a descriptor, at the host interface die: it carries the transaction of its request (log entry 99). -/
def isHostReply (serial : Nat) (p : Packet) : Bool :=
  decide (p.pkind = 4) && decide (p.exit = 3) && decide (p.dst.die = 31) && decide (p.txn = some serial)

/-- The status of a completion for a reply's STATUS (Table 8.10). -/
def replyStatusCode (st : Nat) : Nat := if st = 0 then 0 else if st = 1 then 0x0D else if st = 4 then 0x0E else 9

def execSignal (r : Fin 64) (tag : BitVec 16) (s : State) : Host.Outcome State Fault Refusal :=
  .next (s.begin r tag 5 fun s d => s.hostRequest d true)

def execWait (r : Fin 64) (tag : BitVec 16) (s : State) : Host.Outcome State Fault Refusal :=
  .next (s.begin r tag 6 fun s d => s.hostRequest d false)

/-- One poll of a WAIT: the reply to its read is compared; a read that did not decide it is repeated. -/
def State.pollWait (s : State) (p : Nat) (d : Desc) : State :=
  match s.arriving (isHostReply d.serial) with
  | none => s
  | some q =>
    let s := s.arrived (isHostReply d.serial)
    let st := bitsOf q.hdr2.toNat 87 84
    let w := BitVec.ofNat 32 (leNat (q.data.take 4))
    if st ≠ 0 then s.conclude p d (replyStatusCode st) d.value
    else if condHolds (d.q2.extractLsb' 32 2) w (d.q2.extractLsb' 0 32) then s.conclude p d 0 w
    else (s.putDesc p { d with value := w }).hostRequest d false

def execWaitPoll (r : Fin 64) (tag : BitVec 16) (s : State) : Host.Outcome State Fault Refusal :=
  match s.findDesc r.val tag fun d => decide (d.op = 6) && d.started && (s.arriving (isHostReply d.serial)).isSome with
  | none => .next s
  | some d => .next (s.pollWait r.val d)

/-- The time limit of a WAIT, 1,000 ticks to the microsecond, has passed. -/
def execWaitTimeLimit (r : Fin 64) (tag : BitVec 16) (s : State) : Host.Outcome State Fault Refusal :=
  match s.findDesc r.val tag fun d => decide (d.op = 6) && d.started && decide (d.q3.toNat ≠ 0) &&
      decide (d.startSc.toNat + 1000 * d.q3.toNat ≤ s.time.sc.toNat) with
  | none => .next s
  | some d => .next (s.conclude r.val d 0x0F d.value)

/-! ### CATCH_STOP, DRAIN, RESTORE -/

/-- A stop of the job; with nothing running it has no effect (R200, R329). -/
def execCatchStop (r : Fin 64) (tag : BitVec 16) (s : State) : Host.Outcome State Fault Refusal :=
  .next (s.begin r tag 7 fun s _ => if s.jobLive then (s.haltJob 0 0 false).injectStop.jobStep else s)

/-- Every record is written to the area that holds no latest checkpoint (R263), once what was on its way to the region has come (R129 step 3);
until then the drain waits. -/
def State.drainOn (s : State) (p : Nat) (d : Desc) : State :=
  if s.membersQuiet && s.settled s.job.members then (s.drainJob d.area).endDesc p d 0 (if d.area then 1 else 0) else s

/-- A drain starts; a cluster that is off cannot be drained. -/
def State.drainStart (s : State) (p : Nat) (d : Desc) : State :=
  if s.deepOff || s.job.members.any s.offline then s.conclude p d 0x0E 0
  else
    let d := { d with area := s.nextArea }
    (s.putDesc p d).drainOn p d

def execDrain (r : Fin 64) (tag : BitVec 16) (s : State) : Host.Outcome State Fault Refusal := .next (s.begin r tag 8 fun s d => s.drainStart r.val d)

/-- The records of an area, read back and checked one after the other; each goes into its cluster. Answers how many were loaded, and the
status that stopped the restore. Words in error are corrected and counted, or raise DEEP_UE (R275). -/
def State.restoreAll (s : State) (a : Nat) (l : List Snapshot) (n : Nat) : State × Nat × Option Nat :=
  match l with
  | [] => (s, n, none)
  | x :: rest =>
    let o := s.areaBase a + (x.die.val * s.mappedPerDie + x.logical.toNat) * drainSize
    let s := s.deepSoft o drainSize
    match s.deepBad o drainSize with
    | some w => (s.deepUe (64 * w), n, some 9)
    | none => match s.readBack a x with
      | none => (s, n, some 8)
      | some y => (s.restoreCluster y).restoreAll a rest (n + 1)

/-- The latest complete checkpoint goes into the mapped clusters (R132, R189); an error after the first record leaves the job IDLE. -/
def State.restoreStart (s : State) (p : Nat) (d : Desc) : State :=
  match s.ckpt.latest with
  | none => s.conclude p d 0x11 0
  | some a =>
    let l := if a then s.ckpt.area1 else s.ckpt.area0
    let n := if a then 1 else 0
    if s.deepOff || s.power.coolantStop || (l.filterMap fun x => s.physical x.die.val x.logical).any s.offline then s.conclude p d 0x0E 0
    else if (if a then s.ckpt.image1 else s.ckpt.image0) ≠ some s.imageId then s.conclude p d 0x11 0
    else
      let r := s.clearCounters.restoreAll n l 0
      match r.2.2 with
      | some st => (if r.2.1 = 0 then r.1 else r.1.discardJob st 0).conclude p d st (BitVec.ofNat 32 n)
      | none =>
        let t : State := { r.1 with
          conns := if a then s.ckpt.conns1 else s.ckpt.conns0
          job := { r.1.job with
            members := l.filterMap fun x => r.1.physical x.die.val x.logical
            phase := if a then s.ckpt.phase1 else s.ckpt.phase0
            between := if a then s.ckpt.between1 else s.ckpt.between0
            nextPhase := none, window := false }
          ckpt := { r.1.ckpt with unproven := none }, genhan := { r.1.genhan with digSeen := [] } }
        t.endDesc p { d with area := a } 0 n

/-- RESTORE (R132, R263). Its reads wait while an access to a segment is under way at a home (R260). -/
def execRestore (r : Fin 64) (tag : BitVec 16) (s : State) : Host.Outcome State Fault Refusal :=
  .next (if s.homesFree then s.begin r tag 9 fun s d => s.restoreStart r.val d else s)

/-! ### DIGEST (R320, R360) -/

/-- A record with LOST set. -/
def withLost (r : BitVec 512) (n : Nat) : BitVec 512 := r ||| BitVec.ofNat 512 (min n 65535 * 2 ^ 336)

/-- The oldest records go to the buffer; the first carries what was discarded since the last DIGEST. -/
def State.digestOut (s : State) (p : Nat) (d : Desc) : State :=
  let n := min (d.q2.toNat / 64) s.genhan.digests.length
  let out := (s.genhan.digests.take n).zipIdx
  let lost := s.genhan.digLost
  let s := out.foldl (fun s e => s.emit (.hostWrite (d.q1 + BitVec.ofNat 64 (64 * e.2)) (leBytes 64 (if e.2 = 0 then withLost e.1 lost else e.1).toNat))) s
  let left := s.genhan.digests.drop n
  let s : State := { s with genhan := { s.genhan with digests := left, digLost := if n = 0 then lost else 0 } }
  s.conclude p d (if left = [] then 0 else 0x14) (BitVec.ofNat 32 n)

def execDigest (r : Fin 64) (tag : BitVec 16) (s : State) : Host.Outcome State Fault Refusal := .next (s.begin r tag 0xA fun s d => s.digestOut r.val d)

/-! ### TEST (R101, R320, R371) -/

/-- The clusters that a TEST names; none where a named one is not eligible. -/
def State.testNamed (s : State) (d : Desc) : Option (List ClusterAt) :=
  if d.q1.getLsbD 14 then some (allClusters.filter s.eligible)
  else if h : bitsOf d.q1.toNat 4 0 < 24 ∧ bitsOf d.q1.toNat 13 5 < 288 then
    let k : ClusterAt := ⟨⟨bitsOf d.q1.toNat 4 0, h.1⟩, ⟨bitsOf d.q1.toNat 13 5, h.2⟩⟩
    if s.eligible k then some [k] else none
  else none

/-- The outcome of one cluster among the results; a test without a result is void. -/
def verdictFor (l : List (ClusterAt × Verdict)) (k : ClusterAt) : Verdict := ((l.find? fun x => decide (x.1 = k)).map (·.2)).getD .void

/-- The clusters whose turn it is go under test, up to eight of a die (R368); one that is not eligible any more has no test. STRESS is bit 0 of the third
word (Table 11.13). -/
def State.testTurn (s : State) (d : Desc) : State × Desc :=
  d.verdicts.foldl (fun r v =>
    if 8 ≤ r.1.testsOn v.1.die then (r.1, { r.2 with verdicts := r.2.verdicts ++ [v] })
    else if r.1.eligible v.1 then (r.1.startTest (d.q2.getLsbD 0) v.1, { r.2 with batch := r.2.batch ++ [v] })
    else r) (s, { d with verdicts := [], batch := [] })

/-- The next clusters are tested; with none left the descriptor is decided, with the count of failures. -/
def State.testOn (s : State) (p : Nat) (d : Desc) : State :=
  let r := s.testTurn d
  if r.2.batch = [] then r.1.conclude p r.2 0 r.2.moved else r.1.putDesc p r.2

def State.testStart (s : State) (p : Nat) (d : Desc) (runs : TestRuns) : State :=
  match s.testNamed d with
  | none => s.conclude p d 3 0
  | some ks => s.testOn p { d with ops := runs.ops, verdicts := ks.map fun k => (k, verdictFor runs.results k) }

/-- The clusters under test have been tested, but for those whose test became void meanwhile (R400). -/
def State.testBatch (s : State) (p : Nat) (d : Desc) : State :=
  let s := s.tileRun d.ops
  let l := d.batch.filter fun v => (s.cluster v.1).testing
  let n := (l.filter fun v => verdictFailed (s.ruled v.1 v.2)).length
  (l.foldl (fun s v => s.testOver v.1 v.2) s).testOn p { d with moved := d.moved + n }

/-- The clusters go into diagnostic fabric mode, to be tested behind their detours; what Genhan does on the test network, and what it finds, come with
the command (R101 to R103). -/
def execTest (r : Fin 64) (tag : BitVec 16) (runs : TestRuns) (s : State) : Host.Outcome State Fault Refusal :=
  .next (s.begin r tag 0xB fun s d => s.testStart r.val d runs)

/-! ### Decisions (R325) -/

/-- What a decision brings with it: the promotion of a drain, the end of a restore. -/
def State.atDecision (s : State) (d : Desc) (status : Nat) : State :=
  if status ≠ 0 then s
  else match d.op with
    | 8 => s.promote d.area s.jobStepIndex
    | 9 => s.setJob .halted 0 0
    | _ => s

/-- The descriptor's decision, or the drain that it waits for, is due: its work has ended, its reply has come, every
cluster has stopped, the region has settled, its tests stand behind their detours, or it is a reserved opcode that may start. -/
def State.ripe (s : State) (p : Nat) (d : Desc) : Bool :=
  match d.ended with
  | some _ => true
  | none =>
    if !d.started then decide (0xC < d.op) && s.mayStart p d
    else match d.op with
      | 5 => (s.arriving (isHostReply d.serial)).isSome
      | 7 => s.membersQuiet && (decide (s.job.state = .halted) || decide (s.job.state = .faulted))
      | 8 => s.membersQuiet && s.settled s.job.members
      | 0xB => d.batch.all fun v => !s.genhan.wanted.contains (.cluster v.1)
      | _ => false

/-- The decision of a descriptor that is ripe for it (R325); a drain whose region has settled is made first. -/
def State.tryDecide (s : State) (p : Nat) (d : Desc) : State :=
  match d.ended with
  | some e => if d.cut then s.conclude p d 0 e.2 true else (s.atDecision d e.1.toNat).conclude p d e.1.toNat e.2
  | none =>
    if !d.started then s.conclude p d 1 0
    else match d.op with
      | 5 => match s.arriving (isHostReply d.serial) with
        | none => s
        | some q => (s.arrived (isHostReply d.serial)).conclude p d (replyStatusCode (bitsOf q.hdr2.toNat 87 84)) (q.hdr2.extractLsb' 96 32)
      | 7 => s.conclude p d 0 0
      | 0xB => s.testBatch p d
      | _ => s.drainOn p d

/-- The oldest descriptor with a tag that is ripe. -/
def execCompletionDecision (r : Fin 64) (tag : BitVec 16) (s : State) : Host.Outcome State Fault Refusal :=
  match s.findDesc r.val tag (s.ripe r.val) with
  | none => .next s
  | some d => .next (s.tryDecide r.val d)

/-! ### ABORT (R326) -/

/-- A descriptor can be aborted at once (Table 11.6): a DMA between two segments. One that moves a segment ends when that has moved, unless it is
the last (`State.dmaMoved`). -/
def Desc.abortable (d : Desc) : Bool :=
  !d.started || (match d.op with
    | 2 | 3 => d.ended.isNone && d.part.isNone
    | 6 | 8 | 9 | 0xB => true
    | _ => false)

/-- A test is given up: its cluster leaves diagnostic fabric mode and QUIESCE, with no verdict. -/
def State.dropTest (s : State) (k : ClusterAt) : State := ((s.clearCluster k).returnPart (.cluster k)).setVoltages

/-- The effect of an abort, and the RESULT of the target. -/
def State.abortEffect (s : State) (d : Desc) : State × Nat :=
  if !d.started then (s, 0)
  else match d.op with
    | 2 | 3 => (s, d.moved)
    | 6 => (s, d.value.toNat)
    | 8 | 9 =>
      let n := if d.area then 1 else 0
      (if d.op = 9 then s.discardJob 0 0 else s, n)
    | 0xB => ((d.batch.filter fun v => (s.cluster v.1).testing).foldl (fun s v => s.dropTest v.1) s, 0)
    | _ => (s, 0)

/-- An ABORT meets its target. -/
def State.abort (s : State) (r : Fin 64) (d : Desc) : State :=
  let p := bitsOf d.q1.toNat 5 0
  let tag := d.q1.extractLsb' 16 16
  match s.findDesc p tag fun _ => true with
  | some x =>
    if x.op = 0xC then s.conclude r.val d 0x10 0
    else if x.abortable then
      let e := s.abortEffect x
      ((e.1.conclude p x 0 (BitVec.ofNat 32 e.2) true false)).conclude r.val d 0 0
    else s.putDesc p { x with abortedBy := x.abortedBy ++ [(r, d.serial)] }
  | none =>
    match (s.ring p).decided.find? fun x => decide (x.1 = tag) with
    | some x => if x.2 = 0xC then s.conclude r.val d 0x10 0 else s.conclude r.val d 0 0 false true
    | none => s.conclude r.val d 0x10 0

def execAbort (r : Fin 64) (tag : BitVec 16) (s : State) : Host.Outcome State Fault Refusal := .next (s.begin r tag 0xC fun s d => s.abort r d)

end Sys2Proof.Machine
end

