-- ==== Sys2Proof/Machine/Registers.lean ====
section
/-! DEFINITION. Writes of BAR0 and the management mailbox (R12 to R15, R337, R350, R351, R415, R420 to R440). -/

namespace Sys2Proof.Machine

/-! ### Fields (R15, R421) -/

/-- A write of a 64-bit register whose writable bits are `m`, those of fields that span both halves `span`: `lo` and `hi` tell which
halves the write covers. Reserved and read-only bits keep their value; a spanning field changes only when both halves are written. -/
def maskedWrite (old v m span : BitVec 64) (lo hi : Bool) : BitVec 64 :=
  let halves : BitVec 64 := (if hi then 0xFFFFFFFF00000000 else 0) ||| (if lo then 0xFFFFFFFF else 0)
  let w := m &&& halves &&& (if lo && hi then BitVec.allOnes 64 else ~~~span)
  (old &&& ~~~w) ||| (v &&& w)

/-- The low bits of a doubleword written at an aligned offset. -/
def clampNat (lo hi x : Nat) : Nat := max lo (min hi x)

def State.modHost (s : State) (f : HostIf → HostIf) : State := { s with host := f s.host }

/-! ### Ring pages and telemetry selection (Tables 16.4 and 16.12) -/

/-- Bits 63 to 12, and bits 63 to 3. -/
def baseMask : BitVec 64 := 0xFFFFFFFFFFFFF000
def wbMask : BitVec 64 := 0xFFFFFFFFFFFFFFF8

/-- An address register of a ring page, by a 64-bit write. Set-up fields change only while their ring is disabled (R307). -/
def State.writeRingBase (s : State) (p o : Nat) (v : BitVec 64) : State :=
  let r := s.ring p
  match o with
  | 0x00 => if p ≤ 63 ∧ !r.sqEnable then s.putRing p { r with sqBase := v &&& baseMask } else s
  | 0x10 => if p ≤ 63 ∧ !r.sqEnable then s.putRing p { r with sqWb := v &&& wbMask } else s
  | 0x20 => if !r.cqEnable then s.putRing p { r with cqBase := v &&& baseMask } else s
  | _ => s

/-- A 32-bit word of a ring page. -/
def State.writeRingWord (s : State) (p o : Nat) (v : BitVec 32) : State :=
  match o with
  | 0x08 => s.writeSqControl p v
  | 0x28 => s.writeCqControl p v
  | _ => s

/-- Writable bits of the two words of a telemetry selection. -/
def selMask (second : Bool) : BitVec 64 := if second then 0x01FF01FF else 0x1F1F01FF03FF000F

/-- A selection word of telemetry ring `t`, ignored while the ring is enabled. -/
def State.writeSelection (s : State) (t : Nat) (second : Bool) (v : BitVec 64) (lo hi : Bool) : State :=
  if (s.ring (65 + t)).cqEnable then s
  else
    let e := SMap.get 0 s.host.telem t
    let sh := if second then 64 else 0
    let new := maskedWrite (e.extractLsb' sh 64) v (selMask second) 0 lo hi
    let e' : BitVec 128 := if second then new ++ e.extractLsb' 0 64 else e.extractLsb' 64 64 ++ new
    s.modHost fun h => { h with telem := SMap.set 0 h.telem t e' }

/-! ### MSI-X table (R426) -/

/-- Writable bits of the four words of an entry: address, data, the mask bit. -/
def msixMask (i : Nat) : BitVec 32 :=
  match i with
  | 0 => 0xFFFFFFFC
  | 1 | 2 => 0xFFFFFFFF
  | _ => 1

/-- Word `i` of entry `v`; what a mask held back goes out once it is clear. -/
def State.writeMsix (s : State) (v i : Nat) (x : BitVec 32) : State :=
  let e := s.msixEntry v
  let m : BitVec 128 := (msixMask i).setWidth 128 <<< (32 * i)
  let e' := (e &&& ~~~m) ||| (x.setWidth 128 <<< (32 * i) &&& m)
  (s.modHost fun h => { h with msix := SMap.set msixReset h.msix v e' }).flushPending

/-! ### Job control block (Table 16.5, R427, R428) -/

/-- The host window is closed to changes. -/
def State.windowLocked (s : State) : Bool := s.jobLive || decide (s.job.state = .halting)

/-- HW_BASE and HW_PAGES. -/
def State.writeWindow (s : State) (pages : Bool) (v : BitVec 64) : State :=
  if s.windowLocked then s
  else if pages then s.modHost fun h => { h with hwPages := v.extractLsb' 0 36 }
  else s.modHost fun h => { h with hwBase := v.extractLsb' 12 52 }

/-- EVENT_LOST is cleared by writing 1 (R14). -/
def State.clearEventLost (s : State) (v : BitVec 32) : State := if v.getLsbD 0 then s.modHost fun h => { h with eventLost := false } else s

/-- A 32-bit word of the block: EVENT_LOST, HW_ENABLE, POWER_LIMIT, and MAX_DEFER with TEST_POLICY. -/
def State.writeJobWord (s : State) (o : Nat) (v : BitVec 32) : State :=
  match o with
  | 0x10 => s.clearEventLost v
  | 0x90 => if s.windowLocked then s else s.modHost fun h => { h with hwEnable := v.getLsbD 0 }
  | 0xC0 => s.modHost fun h => { h with powerLimit := BitVec.ofNat 9 (clampNat 10 270 (bitsOf v.toNat 8 0)) }
  | 0xC4 => s.modHost fun h => { h with
      maxDefer := BitVec.ofNat 10 (clampNat 1 720 (bitsOf v.toNat 25 16))
      testPolicy := if v.extractLsb' 0 2 = 3 then 0 else v.extractLsb' 0 2 }
  | _ => s

/-! ### Mailbox registers (R436, Table 16.13, Table 16.17) -/

def State.modMbox (s : State) (f : Mailbox → Mailbox) : State := s.modHost fun h => { h with mbox := f h.mbox }

/-- MBX_ARG0 to MBX_ARG3. -/
def State.writeArg (s : State) (i : Nat) (v : BitVec 64) : State :=
  if s.host.mbox.busy then s else s.modMbox fun m => { m with args := SMap.set 0 m.args i v }

def sBusy : BitVec 8 := 4

/-- MBX_CMD: the opcode, and with GO a command is taken. While one runs both are ignored (R440), but for a report that is asked for while another is being
answered: STATUS tells that it is refused (R351), until the running command ends (log entry 74). -/
def Mailbox.command (m : Mailbox) (v : BitVec 32) : Mailbox :=
  let op := v.extractLsb' 0 8
  if m.busy then (if v.getLsbD 31 ∧ op = 2 ∧ m.lastOp = 2 then { m with status := sBusy } else m)
  else if v.getLsbD 31 then { m with opcode := op, busy := true, lastOp := op, latched := m.args, outcome := none }
  else { m with opcode := op }

/-- A 32-bit word of the mailbox. -/
def State.writeMboxWord (s : State) (o : Nat) (v : BitVec 32) : State :=
  match o with
  | 0x20 => s.modMbox fun m => m.command v
  | 0x38 => s.modMbox fun m => { m with vector := v.extractLsb' 8 6, irqEn := v.getLsbD 0 }
  | _ => s

/-! ### Perturbation slots (R416, R439, Tables 15.10, 15.11 and 16.16) -/

/-- The send endpoint that a target word names. -/
def State.slotEndpoint (s : State) (t : BitVec 64) : Option (CoreAt × SendEp) :=
  (slotCluster t).map fun k =>
    let c := coreIn k ⟨slotField t 35 30 % 64, Nat.mod_lt _ (by decide)⟩
    (c, SMap.get {} (s.core c).se (slotField t 29 26))

/-- A cluster has a neighbour in a boundary direction (0 N, 1 E, 2 S, 3 W), or a hull channel to companions there (Table 1.3). -/
def hasNeighbour (k : ClusterAt) (dir : Nat) : Bool :=
  let p := corePos (coreIn k 0)
  let companion (exit n : Nat) : Bool := (List.range n).any fun c =>
    decide (edgePort exit c = dir) && (match exit with
      | 1 => decide (k.die.val / 8 = if c < 2 then 0 else 2)
      | _ => decide ((edgeCore exit c (0, 0)).1 = k.die.val))
  match dir with
  | 0 => decide (8 ≤ p.2) || companion 1 4
  | 1 => decide (p.1 + 8 < 768) || companion 2 8 || companion 4 1
  | 2 => decide (p.2 + 8 < 576) || companion 1 4
  | 3 => decide (8 ≤ p.1) || companion 2 8 || companion 3 1
  | _ => false

/-- The target of a control exists, and its parameter is in range. -/
def State.slotOk (s : State) (t : BitVec 64) (param : Nat) : Bool :=
  let k := slotField t 59 57
  let named := (slotCluster t).isSome
  let span (lo hi : Nat) : Bool := decide (lo ≤ param) && decide (param ≤ hi)
  match slotControl t with
  | 1 => span 1 10000 && (match k with
    | 0 => (slotCluster t).any fun c => hasNeighbour c (slotField t 29 26)
    | 1 => s.portMask.getLsbD (slotField t 55 50)
    | _ => false)
  | 2 => match k with
    | 2 => (s.slotEndpoint t).any fun e => e.2.valid && span 1 e.2.rslots
    | 3 => named && decide (slotField t 29 26 < 5) && decide (slotField t 25 23 < 5)
    | _ => false
  | 3 => decide (k = 4) && named && span 2 65535
  | 4 => decide (k = 4) && named && span 500 s.clockCap && decide (param % 4 = 0)
  | 5 => span 1 255 && (match k with
    | 5 => named
    | 6 => decide (slotField t 55 50 < 4)
    | 7 => decide (slotField t 55 50 < 8)
    | _ => false)
  | _ => false

/-- The token permits a control (Table 15.9). -/
def Debug.permits (d : Debug) (control : Nat) : Bool := d.loaded && decide (1 ≤ control) && decide (control ≤ 5) && d.perms.getLsbD (control - 1)

def State.pert (s : State) (n : Nat) : Slot := SMap.get {} s.host.dbg.slots n
def State.putPert (s : State) (n : Nat) (x : Slot) : State :=
  s.modHost fun h => { h with dbg := { h.dbg with slots := SMap.set {} h.dbg.slots n x } }

/-- The credit counters of the router buffer that a target word names: its virtual channel, and the escape part of it (Table 7.3); ports 0 N, 1 E, 2 S,
3 W, 4 local. -/
def bufferKeys (t : BitVec 64) : List (Nat × Nat) :=
  match slotCluster t with
  | none => []
  | some k =>
    let a := corePos (coreIn k ⟨slotField t 35 30 % 64, Nat.mod_lt _ (by decide)⟩)
    let port := slotField t 29 26
    let l := if port < 4 then linkInto a port else (a.1, a.2, 8)
    [false, true].map fun e => (bufferNo l (slotField t 25 23) e, bufferSize (slotField t 25 23) e - 1)

/-- A cut of a router buffer begins, or ends, and the credits withheld are back at once (R419). -/
def State.cutBuffer (s : State) (t : BitVec 64) (on : Bool) : State :=
  { s with cuts := (bufferKeys t).foldl (fun m e => SMap.set (0, 0) m e.1 (if on then (e.2, (SMap.get (0, 0) m e.1).2) else (0, 0))) s.cuts }

/-- Parameters of the other slots that hold a control on a cluster. -/
def State.otherParams (s : State) (n control : Nat) (k : ClusterAt) : List Nat :=
  (s.host.dbg.slots.filter fun q => decide (q.1 ≠ n) && decide (slotControl q.2.target = control) && decide (slotCluster q.2.target = some k)).map
    fun q => q.2.live.toNat

/-- A slot clears: withheld credits return at once, a forced stall or clock skew ends (Table 15.11). Packets that wait keep their due time. -/
def State.clearSlot (s : State) (n : Nat) : State :=
  let t := (s.pert n).target
  let s := match slotControl t with
    | 2 => match s.slotEndpoint t with
      | some e => if slotField t 59 57 = 2 then
          s.modCore e.1 fun x => { x with se := SMap.set {} x.se (slotField t 29 26) e.2.drained }
        else s.cutBuffer t false
      | none => s.cutBuffer t false
    | 3 => match slotCluster t with
      | some k => let l := s.otherParams n 3 k; s.modCluster k fun x => { x with forcedStall := l.head? }
      | none => s
    | 4 => match slotCluster t with
      | some k => let l := s.otherParams n 4 k; s.modCluster k fun x => { x with skew := l.min? }
      | none => s
    | _ => s
  s.putPert n {}

/-- The target word is written: the slot holds the control, or reads zero. What the slot held before ends. -/
def State.writeTarget (s : State) (n : Nat) (v : BitVec 64) (lo hi : Bool) : State :=
  let old := s.pert n
  let t := maskedWrite old.target v 0xFFFFFFFFFF800000 0x0000000FC0000000 lo hi
  let s := s.clearSlot n
  if s.host.dbg.permits (slotControl t) && s.slotOk t old.param.toNat then
    s.putPert n { target := t, param := old.param, live := old.param, left := if slotControl t = 5 then old.param.toNat else 0 }
  else s

/-- PARAM is written; it takes effect with the next write of the target word. -/
def State.writeParam (s : State) (n : Nat) (v : BitVec 32) : State := s.putPert n { s.pert n with param := v }

/-- A write to a slot; ignored while no token is loaded. -/
def State.writeSlot (s : State) (o : Nat) (v : BitVec 64) (lo hi : Bool) : State :=
  let n := o / 16
  if !s.host.dbg.loaded then s
  else if o % 16 < 8 then s.writeTarget n v lo hi
  else if lo then s.writeParam n (v.extractLsb' 0 32)
  else s

/-- Every slot clears. -/
def State.clearSlots (s : State) : State := (List.range 16).foldl State.clearSlot s

/-! ### Identification (R303, R422, Table 16.2) -/

/-- The identifiers of the function, in configuration space and in the identification block. -/
def vendorId : BitVec 16 := 0x1FE4
def deviceId : BitVec 16 := 0x0024

/-- The 32-bit word at an offset of the identification block. -/
def State.idWord (s : State) (o : Nat) : BitVec 32 :=
  let r := s.boot.record
  let cap := BitVec.ofNat 64 s.capacity
  match o with
  | 0x00 => deviceId ++ vendorId
  | 0x04 => r.extractLsb' (8 * 33) 8 ++ r.extractLsb' (8 * 32) 8 ++ r.extractLsb' (8 * 50) 8 ++ r.extractLsb' (8 * 51) 8
  | 0x08 | 0x0C | 0x10 | 0x14 => r.extractLsb' (8 * (16 + (o - 8))) 32
  | 0x18 | 0x1C => r.extractLsb' (8 * (8 + (o - 0x18))) 32
  | 0x20 => r.extractLsb' (8 * 36) 16 ++ r.extractLsb' (8 * 34) 16
  | 0x24 => (0 : BitVec 8) ++ r.extractLsb' (8 * 38) 8 ++ r.extractLsb' (8 * 48) 16
  | 0x28 | 0x2C => r.extractLsb' (8 * (40 + (o - 0x28))) 32
  | 0x30 | 0x34 => cap.extractLsb' (8 * (o - 0x30)) 32
  | 0x38 | 0x3C => s.boot.version.extractLsb' (8 * (o - 0x38)) 32
  | 0x40 => s.boot.sv
  | _ => 0

/-! ### BAR0 (R420, R421) -/

/-- A write of the 64-bit register at `o` (a multiple of 8); `lo` and `hi` tell the halves written. Registers of 32 bits take their half. -/
def State.writeBar0 (s : State) (o : Nat) (v : BitVec 64) (lo hi : Bool) : State :=
  let whole := lo && hi
  let words (f : State → Nat → BitVec 32 → State) (s : State) (o : Nat) : State :=
    let s := if lo then f s o (v.extractLsb' 0 32) else s
    if hi then f s (o + 4) (v.extractLsb' 32 32) else s
  if 0x4000 ≤ o ∧ o < 0x5000 then
    if o < 0x4020 then (if whole then s.writeArg ((o - 0x4000) / 8) v else s) else words State.writeMboxWord s (o - 0x4000)
  else if !s.boot.hostReady then s
  else if 0x2000 ≤ o ∧ o < 0x3000 then
    if o = 0x2080 ∨ o = 0x2088 then (if whole then s.writeWindow (decide (o = 0x2088)) v else s) else words State.writeJobWord s (o - 0x2000)
  else if 0x10000 ≤ o ∧ o < 0x10000 + 81 * 0x80 then
    let p := (o - 0x10000) / 0x80
    let q := (o - 0x10000) % 0x80
    if q = 0 ∨ q = 0x10 ∨ q = 0x20 then (if whole then s.writeRingBase p q v else s) else words (fun s o w => s.writeRingWord p o w) s q
  else if 0x14000 ≤ o ∧ o < 0x14200 then
    let t := (o - 0x14000) / 0x20
    let q := (o - 0x14000) % 0x20
    if q = 0 ∨ q = 8 then s.writeSelection t (decide (q = 8)) v lo hi else s
  else if 0x20000 ≤ o ∧ o < 0x20400 then
    words (fun s o w => s.writeMsix (o / 16) (o % 16 / 4) w) s (o - 0x20000)
  else if 0x400100 ≤ o ∧ o < 0x400200 then s.writeSlot (o - 0x400100) v lo hi
  else s

/-- A host write reaches BAR0: the host die answers, in D0. -/
def State.bar0Open (s : State) : Bool := s.host.linkUp && !s.host.d3hot

/-- A write of a whole aligned 32-bit or 64-bit quantity; any other is ignored. -/
def execRegisterWrite (offset : BitVec 26) (wide : Bool) (value : BitVec 64) (s : State) : Host.Outcome State Fault Refusal :=
  let o := offset.toNat
  if !s.bar0Open then .next s
  else if wide then .next (if o % 8 = 0 then s.writeBar0 o value true true else s)
  else if o % 8 = 0 then .next (s.writeBar0 o value true false)
  else if o % 8 = 4 then .next (s.writeBar0 (o - 4) (value <<< 32) false true)
  else .next s

/-- A write to EVENT_LOST; `deviceSets`: an event is dropped in the same cycle, and the bit ends set (R14). -/
def execEventLostClear (value : BitVec 32) (deviceSets : Bool) (s : State) : Host.Outcome State Fault Refusal :=
  let t := if s.hears then s.clearEventLost value else s
  .next (if deviceSets then t.modHost fun h => { h with eventLost := true } else t)

/-! ### Mailbox commands (R437, Table 16.14) -/

/-- Genhan is at work on an opcode and has not ended it. -/
def State.mboxAt (s : State) (op : BitVec 8) : Bool := s.host.mbox.busy && decide (s.host.mbox.lastOp = op) && s.host.mbox.outcome.isNone

def State.mboxArg (s : State) (i : Nat) : BitVec 64 := SMap.get 0 s.host.mbox.latched i

/-- The work of the command has ended with OK and a result. -/
def State.mboxDone (s : State) (result : BitVec 64) : State := s.modMbox fun m => { m with outcome := some (0, result) }

/-- The work has ended with another status: the spec states no MBX_RESULT then, which is a free value. -/
def State.mboxFail (s : State) (status : BitVec 8) : State :=
  let d := s.draw
  d.2.modMbox fun m => { m with outcome := some (status, d.1.setWidth 64) }

def sBadCommand : BitVec 8 := 1
def sMalformed : BitVec 8 := 2
def sNotReady : BitVec 8 := 3
def sBadState : BitVec 8 := 5
def sVerifyFail : BitVec 8 := 6
def sHostError : BitVec 8 := 7
def sFlashError : BitVec 8 := 8
def sBufferShort : BitVec 8 := 9

/-- A command that needs host-ready does its work, or ends NOT_READY. -/
def State.mboxRun (s : State) (op : BitVec 8) (go : State → State) : State :=
  if !s.mboxAt op then s else if !s.boot.hostReady then s.mboxFail sNotReady else go s

/-- A host address is a multiple of 64 (R437). -/
def State.mboxAligned (s : State) : Bool := decide ((s.mboxArg 0).toNat % 64 = 0)

/-- What the slot that is not running holds. -/
def State.putIdleSlot (s : State) (i : ImageSlot) : State :=
  { s with nv := if s.boot.slot then { s.nv with slotA := some i } else { s.nv with slotB := some i } }

/-- The image goes into the slot that is not running, and is verified (R337, R437). Until the command ends the write may be cut short, and the slot
fails (R338). -/
def State.storeImage (s : State) (b : Bytes) (certOk sigOk : Bool) : State :=
  let i := imageSlot b certOk sigOk
  let toB := !s.boot.slot
  let s := s.putIdleSlot { i with check := .digest }
  let s : State := { s with boot := { s.boot with writing := some i } }
  if slotPasses s.nv.minSv (some i) then s.mboxDone (if toB then 1 else 0) else s.mboxFail sVerifyFail

def execWriteImage (image : Option Bytes) (certOk sigOk flashOk : Bool) (s : State) : Host.Outcome State Fault Refusal :=
  .next (s.mboxRun 1 fun s =>
    let len := (s.mboxArg 1).toNat
    if !s.mboxAligned || decide (len < 4608) || decide (4608 + 67108864 < len) then s.mboxFail sMalformed
    else match image with
      | none => s.mboxFail sHostError
      | some b => if b.length ≠ len then s else if !flashOk then s.mboxFail sFlashError else s.storeImage b certOk sigOk)

/-- Bytes 0 to 383 of the report (Table 12.5). -/
def State.report (s : State) (nonce : BitVec 256) : Bytes :=
  [0x4D, 0x45, 0x41, 0x53] ++ leBytes 4 1 ++ leBytes 8 s.nv.serial.toNat ++ leBytes 8 s.time.sc.toNat ++ leBytes 32 nonce.toNat ++
    leBytes 64 s.boot.digest.toNat ++ leBytes 64 (Config.coreFirmware s.boot.digest).toNat ++ shake256 64 (leBytes 64 s.boot.record.toNat) ++
    shake256 64 (Config.mapContents s.repairSeq s.repairMap) ++
    (if s.job.state = .idle then List.replicate 64 0 else shake256 64 s.job.image) ++ leBytes 4 s.boot.sv.toNat ++
    [BitVec.ofNat 8 (jobCode s.job.state), 0, 0, 0]

/-- The report over the buffer, with its signature, and the two certificates after it. -/
def execRequestReport (nonce : Option (BitVec 256)) (sig certs : Bytes) (s : State) : Host.Outcome State Fault Refusal :=
  .next (s.mboxRun 2 fun s =>
    if !s.mboxAligned then s.mboxFail sMalformed
    else if (s.mboxArg 1).toNat < 7936 then s.mboxFail sBufferShort
    else match nonce with
      | none => s.mboxFail sHostError
      | some n => if sig.length ≠ 1280 ∨ certs.length ≠ 6272 then s
        else (s.emit (.hostWrite (s.mboxArg 0) (s.report n ++ sig ++ certs))).mboxDone 7936)

/-- Genhan accepts a token (R415, Table 15.9). -/
def State.tokenOk (s : State) (b : Bytes) (certOk sigOk : Bool) : Bool :=
  decide (b.length = 4480) && decide (bytesAt b 0 4 = [0x44, 0x42, 0x47, 0x54]) && decide (numAt b 4 4 = 1) && decide (numAt b 8 8 = s.nv.serial.toNat) &&
  decide (numAt b 16 32 = s.host.dbg.nonce.toNat) && decide (numAt b 48 1 < 32) && allZero (bytesAt b 49 15) && decide (numAt b 64 4 = 4) &&
  allZero (bytesAt b 3141 59) && certOk && sigOk

/-- The token's permissions are in force, and its nonce is spent. -/
def State.loadToken (s : State) (perms : BitVec 8) : State :=
  (s.modHost fun h => { h with dbg := { h.dbg with loaded := true, perms := perms } }).newNonce

def execLoadToken (token : Option Bytes) (certOk sigOk : Bool) (s : State) : Host.Outcome State Fault Refusal :=
  .next (s.mboxRun 3 fun s =>
    if !s.mboxAligned then s.mboxFail sMalformed
    else match token with
      | none => s.mboxFail sHostError
      | some b =>
        if s.tokenOk b certOk sigOk then
          let p := BitVec.ofNat 8 (numAt b 48 1)
          (s.loadToken p).mboxDone (p.setWidth 64)
        else s.mboxFail sVerifyFail)

/-- The token unloads: every slot clears, and a new nonce is drawn. -/
def State.dropToken (s : State) : State :=
  (s.clearSlots.modHost fun h => { h with dbg := { h.dbg with loaded := false, perms := 0, slots := [] } }).newNonce

def execUnloadToken (s : State) : Host.Outcome State Fault Refusal := .next (s.mboxRun 4 fun s => s.dropToken.mboxDone 0)

/-- A configuration is checked, stored and applied (R438). -/
def execSetCascade (cfg : Option Bytes) (flashOk : Bool) (s : State) : Host.Outcome State Fault Refusal :=
  .next (s.mboxRun 5 fun s =>
    if !s.mboxAligned || decide ((s.mboxArg 1).toNat ≠ 65808) then s.mboxFail sMalformed
    else match cfg with
      | none => s.mboxFail sHostError
      | some c =>
        if !s.cascadeOk c then s.mboxFail sMalformed
        else if s.jobLive then s.mboxFail sBadState
        else if !flashOk then s.mboxFail sFlashError
        else (({ s with nv := { s.nv with cascade := some c } } : State).applyCascade c).mboxDone 0)

/-- The wait mask is stored, before host-ready too (R348, R437). -/
def execSetWaitMask (flashOk : Bool) (s : State) : Host.Outcome State Fault Refusal :=
  if !s.mboxAt 6 then .next s
  else if !flashOk then .next (s.mboxFail sFlashError)
  else .next (({ s with nv := { s.nv with waitMask := s.mboxArg 0 } } : State).mboxDone 0)

/-- The host reports a mismatch across packages: the incident is opened as for a finding of Genhan's own (R359). -/
def execReportSuspect (s : State) : Host.Outcome State Fault Refusal :=
  .next (s.mboxRun 7 fun s =>
    let shard := bitsOf (s.mboxArg 1).toNat 15 0
    let replica := bitsOf (s.mboxArg 1).toNat 31 16
    let x : Incident := {
      code := BitVec.ofNat 16 fDigestMismatch, suspects := { clusters := s.shardClusters replica shard }
      step := (s.mboxArg 0).extractLsb' 0 48, shard := some (BitVec.ofNat 16 shard) }
    (s.incident x false).mboxDone 0)

/-- The status with which the command at work ends now, if it does; a reserved opcode ends BAD_COMMAND. -/
def Mailbox.ending (m : Mailbox) : Option (BitVec 8 × Option (BitVec 64)) :=
  if !m.busy then none
  else match m.outcome with
    | some o => some (o.1, some o.2)
    | none => if m.lastOp = 0 ∨ 8 < m.lastOp then some (sBadCommand, none) else none

/-- A write of an image has come to its end: the slot holds it. -/
def State.slotWritten (s : State) : State :=
  match s.boot.writing with
  | some i => { s.putIdleSlot i with boot := { s.boot with writing := none } }
  | none => s

/-- A command ends: STATUS and MBX_RESULT, SEQ, BUSY, and the vector with no interval (R436). -/
def execMailboxCommandEnd (s : State) : Host.Outcome State Fault Refusal :=
  match s.host.mbox.ending with
  | none => .next s
  | some e =>
    let s := s.slotWritten
    let d := s.draw
    let r : BitVec 64 × State := match e.2 with
      | some x => (x, s)
      | none => (d.1.setWidth 64, d.2)
    let s := r.2.modMbox fun m => { m with busy := false, seq := m.seq + 1, status := e.1, result := r.1, outcome := none }
    .next (if s.host.mbox.irqEn then s.pend s.host.mbox.vector.toNat 0 else s)

end Sys2Proof.Machine
end

