-- ==== Sys2Proof/Machine/Perturb.lean ====
section
/-! DEFINITION. The perturbation controls at work (R416 to R419, Tables 15.10 and 15.11). A slot was written through its registers
(Registers); these commands are its effects, each within 1 ms of the write, and on the traffic that passes. -/

namespace Sys2Proof.Machine

/-- The state with perturbation slot `n` alone: what that slot delays. -/
def State.onlySlot (s : State) (n : Nat) : State :=
  s.modHost fun h => { h with dbg := { h.dbg with slots := SMap.set {} [] n (SMap.get {} h.dbg.slots n) } }

/-- The count of ticks for which slot `n` delays the next crossing of a packet: from cluster to cluster or over a hull channel, or out of a Vevas
port. -/
def State.delayOf (s : State) (n : Nat) (p : Packet) : Option Nat :=
  let t := s.onlySlot n
  if p.exit = 2 ∧ p.port = 7 ∧ p.dst.pkg ≠ s.pkg ∧ slotField (s.pert n).target 59 57 = 1 then
    match s.pathPort p.comp.toNat p.src p.dst.pkg with
    | some i => if i / 8 = p.comp.toNat then t.portDelay i false else none
    | none => none
  else (s.asks p).findSome? fun o => t.crossDelay p.at_ o

/-- The due count of a wait that begins now. -/
def State.dueAfter (s : State) (d : Nat) : Option (BitVec 64) := some (s.time.sc + BitVec.ofNat 64 d)

/-- A wait is over: the packet that waits in the mesh goes on. -/
def State.waited (s : State) (i : Nat) (p : Packet) : State :=
  if !firstInBuffer s.mesh i p then s
  else if !p.out then s.hop i p true
  else if p.exit = 2 ∧ p.dst.pkg ≠ s.pkg then ((s.removeAt i p).egress p.comp.toNat p true).getD s
  else s.setPacket i { p with wait := none }

/-- Packet `i` begins its wait (`due` false), or leaves at its due time. Places beyond those of the mesh are the packets at their sources. A packet that
waits leaves at that time though the slot has been cleared since, or as soon as the next buffer has room for it. -/
def State.linkDelay (s : State) (n i : Nat) (due : Bool) : State :=
  let j := i - s.mesh.length
  match s.mesh[i]?, s.waiting[j]? with
  | some p, _ => match p.wait with
    | none => if due then s else match s.delayOf n p with
      | none => s
      | some d => s.setPacket i { p with wait := s.dueAfter d }
    | some w => if !due || decide (s.time.sc < w) then s else s.waited i p
  | none, some p => match p.wait with
    | none => if due || decide (p.gone ≠ 0) then s else match (s.onlySlot n).entryDelay p with
      | none => s
      | some d => { s with waiting := s.waiting.set j { p with wait := s.dueAfter d } }
    | some w => if !due || decide (s.time.sc < w) then s else s.injectFlit j p true
  | none, none => s

def execLinkDelay (slot : Fin 16) (i : Nat) (due : Bool) (s : State) : Host.Outcome State Fault Refusal := .next (s.linkDelay slot.val i due)

/-- The cut takes effect: so many returned credits will be held back, of a router's buffer all but one. -/
def State.creditCut (s : State) (n : Nat) : State :=
  let x := s.pert n
  if slotControl x.target = 2 ∧ slotField x.target 59 57 = 2 then
    match s.slotEndpoint x.target with
    | some e =>
      let f : SendEp := { e.2 with toWithhold := x.live.toNat - e.2.withheld, twithheld := e.2.tcredits.map fun _ => 0 }
      s.modCore e.1 fun y => { y with se := SMap.set {} y.se (slotField x.target 29 26) f }
    | none => s
  else if slotControl x.target = 2 then s.cutBuffer x.target true
  else s

def execCreditCut (slot : Fin 16) (s : State) : Host.Outcome State Fault Refusal := .next (s.creditCut slot.val)

/-- The cox holds the stall line for one cycle in every N from now on (R417). -/
def execForcedStall (slot : Fin 16) (s : State) : Host.Outcome State Fault Refusal :=
  let x := s.pert slot.val
  .next (if slotControl x.target = 3 then (match slotCluster x.target with
    | some k => s.modCluster k fun y => { y with forcedStall := some x.live.toNat }
    | none => s) else s)

/-- One more bound in the minimum of R387. -/
def execClockSkew (slot : Fin 16) (s : State) : Host.Outcome State Fault Refusal :=
  let x := s.pert slot.val
  .next (if slotControl x.target = 4 then (match slotCluster x.target with
    | some k => s.modCluster k fun y => { y with skew := some (match y.skew with
        | some f => min f x.live.toNat
        | none => x.live.toNat) }
    | none => s) else s)

/-- A packet carries a segment that the slot's target produced or forwards: a core's tile or stream write, a moon die's delivery, a segment
that crosses by a link die. -/
def State.segmentOf (s : State) (t : BitVec 64) (p : Packet) : Bool :=
  let own := decide (p.pkind = 0xB) && decide (p.exit = 0)
  match slotField t 59 57 with
  | 5 => match slotCluster t with
    | some k => decide (p.src = s.lcore (coreIn k ⟨slotField t 35 30 % 64, Nat.mod_lt _ (by decide)⟩)) &&
        (tilePacket p || (decide (p.pkind = 0xA) && !p.data.isEmpty))
    | none => false
  | 6 => own && decide (p.src = s.moonName (slotField t 55 50))
  | 7 => tilePacket p && (decide (p.via = some (slotField t 55 50)) || (decide (p.exit = 2) && decide (p.comp.toNat = slotField t 55 50)))
  | _ => false

/-- Bit 0 of CODE, the first bit of a segment, inverted (R418). -/
def flipCode (b : Bytes) : Bytes :=
  match b with
  | [] => []
  | x :: r => (x ^^^ 1) :: r

/-- The domain of the target is powered. -/
def State.targetOn (s : State) (t : BitVec 64) : Bool :=
  match slotField t 59 57 with
  | 5 => (slotCluster t).any fun k => (s.domain (domainOf k)).powered
  | 6 => (SMap.get {} s.domains (56 + slotField t 55 50)).powered
  | _ => (SMap.get {} s.domains (48 + slotField t 55 50)).powered

/-- A packet with an inverted bit in its code, marked. -/
def Packet.flipped (p : Packet) : Packet := { p with data := flipCode p.data, hdr2 := p.hdr2 ||| 1 }

/-- One of the next segments of the target gets its error: packet `i` of the mesh, or, beyond those, of the packets at their sources. The count is
discarded once the target is off, or the job is not live. -/
def State.insertError (s : State) (n i : Nat) : State :=
  let x := s.pert n
  if slotControl x.target ≠ 5 then s
  else if !s.targetOn x.target || !s.jobLive then s.putPert n { x with left := 0 }
  else match (s.mesh ++ s.waiting)[i]? with
    | none => s
    | some p =>
      if 0 < x.left ∧ s.segmentOf x.target p ∧ !p.hdr2.getLsbD 0 then
        let g (q : Packet) : Packet := if q.id = p.id then Packet.flipped q else q
        ({ s with mesh := s.mesh.map g, waiting := s.waiting.map g }).putPert n { x with left := x.left - 1 }
      else s

def execCheckInsertion (slot : Fin 16) (i : Nat) (s : State) : Host.Outcome State Fault Refusal := .next (s.insertError slot.val i)

/-- CONTROL = 0 is written (R439). -/
def execPerturbationSlotClear (slot : Fin 16) (s : State) : Host.Outcome State Fault Refusal :=
  .next (if s.hears && s.host.dbg.loaded then s.clearSlot slot.val else s)

end Sys2Proof.Machine
end

