-- ==== Sys2Proof/Machine/Resets.lean ====
section
/-! DEFINITION. Resets (R13, R302, R330, R352, R415, R437, R440, R448). -/

namespace Sys2Proof.Machine

/-! ### FLR and PERST# -/

/-- The mailbox after FLR or PERST#: BUSY, SEQ, STATUS, MBX_RESULT and LAST_OPCODE stay, and a running command its arguments (Table 16.17). -/
def Mailbox.afterReset (m : Mailbox) : Mailbox :=
  { busy := m.busy, seq := m.seq, status := m.status, result := m.result, lastOp := m.lastOp, latched := m.latched, outcome := m.outcome }

/-- The registers of the host interface at their Reset values: rings and their descriptors are gone, interrupts masked, the window closed, the
debug block clear. The log of Advanced Error Reporting is no register of BAR0 and stays. Of a DMA, the segment that is begun completes (R330). -/
def HostIf.afterReset (h : HostIf) : HostIf :=
  { linkUp := h.linkUp, perst := h.perst, taken := h.taken, mbox := h.mbox.afterReset, aer := h.aer
    abandoned := h.abandoned ++ h.rings.flatMap fun r => r.2.inProgress.filter fun d => d.isDma && d.ended.isNone && d.part.isSome }

/-- The events of a reset meet a disabled ring and are dropped; EVENT_LOST and LOST end at their Reset values (R13, R331, log entry 79). -/
def HostIf.noLoss (h : HostIf) : HostIf := { h with eventLost := false, rings := [] }

/-- JOB_TAG, the job fault log with its count and record, and NUM_STATUS_OR at their Reset values (R13, Table 16.5). Reports still on their way are
no longer of a job: a hardware fault among them opens its incident and enters no log (R331). -/
def State.jobRegsReset (s : State) : State :=
  { s with job := { s.job with tag := 0 }, genhan := { s.genhan with log := [], numOr := 0, reports := s.genhan.reports.map fun r => { r with quiet := true } } }

/-- The job is stopped and discarded; a live one's stop goes to the cascade (R200, R330). -/
def State.resetJob (s : State) : State :=
  let live := s.jobLive || decide (s.job.state = .halting)
  let s := if live then s.injectStop.flushDigests else s
  let s := s.clearCounters.incidentsUndecided
  (s.discardJob 0 5).jobRegsReset

/-- The effects that FLR and PERST# share. The rings are reset first, and the loss of the events of the reset last. A token unloads,
which draws a new nonce (R415); with none loaded DEVICE_NONCE is at its Reset value, as its access is RO (R13, log entry 117). -/
def State.functionReset (s : State) : State :=
  let had := s.host.dbg.loaded
  let s := (if had then s.clearSlots else s).modHost HostIf.afterReset
  let s := if had then s.newNonce else s
  let s := s.dropReplies
  (if s.boot.hostReady then s.resetJob else s).modHost HostIf.noLoss

/-- A Function Level Reset. -/
def execFlr (s : State) : Host.Outcome State Fault Refusal := .next (if s.host.linkUp then s.functionReset else s)

/-- PERST# is asserted or released; the link then trains (PCIE_LINK_UP). -/
def execPerst (asserted : Bool) (s : State) : Host.Outcome State Fault Refusal :=
  if asserted then
    if s.host.perst then .next s
    else .next ((s.modHost fun h => { h with perst := true, linkUp := false }).functionReset)
  else .next (s.modHost fun h => { h with perst := false })

/-! ### Package reset -/

/-- A package that runs management: its always-on rails are up and phase 1 has finished (Table 12.6). -/
def State.canReset (s : State) : Bool :=
  s.boot.started && s.power.operating && (decide (2 ≤ s.boot.phase.toNat) || (decide (s.boot.phase = 1) && s.boot.done) || decide (s.boot.halted ≠ .none))

/-- A package reset through management: the package enters QUIESCE (R373), of which the peers learn, incidents stay undecided, and bring-up restarts at
phase 2. -/
def State.packageReset (s : State) : State :=
  let s := (List.range 8).foldl (fun s l => s.sendOffline l 2) s
  let s := (s.quiesceEvent .package false).flushPart .package
  let s := s.clearSlots.incidentsUndecided
  s.startBringUp 2 false

/-- The mailbox command: no status is written (R437). -/
def execPackageReset (s : State) : Host.Outcome State Fault Refusal :=
  .next (if s.mboxAt 8 && s.canReset then s.packageReset else s)

/-- A pulse on PKG_RESET#: from 10 ms on a reset, below 1 ms nothing; between them a free value says which (R448). -/
def execPkgResetPin (heldMicros : Nat) (s : State) : Host.Outcome State Fault Refusal :=
  if !s.canReset || decide (heldMicros < 1000) then .next s
  else if 10000 ≤ heldMicros then .next s.packageReset
  else
    let d := s.draw
    .next (if d.1.getLsbD 0 then d.2.packageReset else d.2)

end Sys2Proof.Machine
end

