-- ==== Sys2Proof/Machine/Dispatch.lean ====
section
/-! DEFINITION. Each command to its meaning, one arm per constructor in the order of the opcode table. -/

namespace Sys2Proof.Machine

def exec (i : Instr) (s : State) : Host.Outcome State Fault Refusal :=
  match i with
  | .next c => Sys2Proof.Machine.execNext c s
  | .jump c => Sys2Proof.Machine.execJump c s
  | .branch c => Sys2Proof.Machine.execBranch c s
  | .nest c => Sys2Proof.Machine.execNest c s
  | .halt c => Sys2Proof.Machine.execHalt c s
  | .stallCycle k => Sys2Proof.Machine.execStallCycle k s
  | .teMma c => Sys2Proof.Machine.execTeMma c s
  | .teCvt c => Sys2Proof.Machine.execTeCvt c s
  | .teEastore c => Sys2Proof.Machine.execTeEastore c s
  | .teEaload c => Sys2Proof.Machine.execTeEaload c s
  | .teEaadd c => Sys2Proof.Machine.execTeEaadd c s
  | .teReanchor c => Sys2Proof.Machine.execTeReanchor c s
  | .vePipelined c => Sys2Proof.Machine.execVePipelined c s
  | .veSumx c => Sys2Proof.Machine.execVeSumx c s
  | .veSqsumx c => Sys2Proof.Machine.execVeSqsumx c s
  | .veFold c => Sys2Proof.Machine.execVeFold c s
  | .veEaout c => Sys2Proof.Machine.execVeEaout c s
  | .veEaload c => Sys2Proof.Machine.execVeEaload c s
  | .veEastore c => Sys2Proof.Machine.execVeEastore c s
  | .veStatus c => Sys2Proof.Machine.execVeStatus c s
  | .vePrune c => Sys2Proof.Machine.execVePrune c s
  | .veCompress c => Sys2Proof.Machine.execVeCompress c s
  | .pselThreshold c => Sys2Proof.Machine.execPselThreshold c s
  | .pselTopK c => Sys2Proof.Machine.execPselTopK c s
  | .pselVerdict c => Sys2Proof.Machine.execPselVerdict c s
  | .pselCounts c => Sys2Proof.Machine.execPselCounts c s
  | .pselRate c => Sys2Proof.Machine.execPselRate c s
  | .pselQuant4 c => Sys2Proof.Machine.execPselQuant4 c s
  | .agRead c g => Sys2Proof.Machine.execAgRead c g s
  | .agWrite c g => Sys2Proof.Machine.execAgWrite c g s
  | .agReset c g => Sys2Proof.Machine.execAgReset c g s
  | .ptForward c o => Sys2Proof.Machine.execPtForward c o s
  | .deliveryLanding c => Sys2Proof.Machine.execDeliveryLanding c s
  | .transposeCheck c => Sys2Proof.Machine.execTransposeCheck c s
  | .fabricAccess c => Sys2Proof.Machine.execFabricAccess c s
  | .spadWriteback c => Sys2Proof.Machine.execSpadWriteback c s
  | .send c => Sys2Proof.Machine.execSend c s
  | .tileSend c => Sys2Proof.Machine.execTileSend c s
  | .streamDemand c => Sys2Proof.Machine.execStreamDemand c s
  | .streamWrite c => Sys2Proof.Machine.execStreamWrite c s
  | .msend c => Sys2Proof.Machine.execMsend c s
  | .recvWait c => Sys2Proof.Machine.execRecvWait c s
  | .release c => Sys2Proof.Machine.execRelease c s
  | .rwrite c => Sys2Proof.Machine.execRwrite c s
  | .rread c => Sys2Proof.Machine.execRread c s
  | .ratomic c => Sys2Proof.Machine.execRatomic c s
  | .ratomicLocal c => Sys2Proof.Machine.execRatomicLocal c s
  | .reduceContribute c => Sys2Proof.Machine.execReduceContribute c s
  | .requestRecordCheck c => Sys2Proof.Machine.execRequestRecordCheck c s
  | .requestLaunch c => Sys2Proof.Machine.execRequestLaunch c s
  | .fence c => Sys2Proof.Machine.execFence c s
  | .catch_ c => Sys2Proof.Machine.execCatch c s
  | .catchWait c => Sys2Proof.Machine.execCatchWait c s
  | .steerArm c => Sys2Proof.Machine.execSteerArm c s
  | .steerWait c => Sys2Proof.Machine.execSteerWait c s
  | .steerCycle c => Sys2Proof.Machine.execSteerCycle c s
  | .open_ c => Sys2Proof.Machine.execOpen c s
  | .close c => Sys2Proof.Machine.execClose c s
  | .clusterLaunch k => Sys2Proof.Machine.execClusterLaunch k s
  | .clusterComplete k => Sys2Proof.Machine.execClusterComplete k s
  | .packetHop idx => Sys2Proof.Machine.execPacketHop idx s
  | .meshLinkFail col row port hull => Sys2Proof.Machine.execMeshLinkFail col row port hull s
  | .channelRecordArrival c hdr payload => Sys2Proof.Machine.execChannelRecordArrival c hdr payload s
  | .tileSegmentArrival c hdr seg => Sys2Proof.Machine.execTileSegmentArrival c hdr seg s
  | .creditReturn c body => Sys2Proof.Machine.execCreditReturn c body s
  | .remoteWrite c acc data => Sys2Proof.Machine.execRemoteWrite c acc data s
  | .remoteReadRequest c acc host => Sys2Proof.Machine.execRemoteReadRequest c acc host s
  | .remoteAtomicRequest c acc => Sys2Proof.Machine.execRemoteAtomicRequest c acc s
  | .reply c pos msg rep data => Sys2Proof.Machine.execReply c pos msg rep data s
  | .writeAck c body => Sys2Proof.Machine.execWriteAck c body s
  | .requestNoPathTimeout c n => Sys2Proof.Machine.execRequestNoPathTimeout c n s
  | .reductionContribution k hdr link elems => Sys2Proof.Machine.execReductionContribution k hdr link elems s
  | .reductionReturn k hdr elems => Sys2Proof.Machine.execReductionReturn k hdr elems s
  | .reductionResult c hdr elems => Sys2Proof.Machine.execReductionResult c hdr elems s
  | .catchJoin k id arg faulted src => Sys2Proof.Machine.execCatchJoin k id arg faulted src s
  | .catchRelease k id arg faulted => Sys2Proof.Machine.execCatchRelease k id arg faulted s
  | .phaseTransferComplete => Sys2Proof.Machine.execPhaseTransferComplete s
  | .stop at_ tag origin => Sys2Proof.Machine.execStop at_ tag origin s
  | .stallAge c isCatch ep => Sys2Proof.Machine.execStallAge c isCatch ep s
  | .openRequest l body => Sys2Proof.Machine.execOpenRequest l body s
  | .answer c body => Sys2Proof.Machine.execAnswer c body s
  | .closeRequest l body => Sys2Proof.Machine.execCloseRequest l body s
  | .closeAnswer c body => Sys2Proof.Machine.execCloseAnswer c body s
  | .broken c body => Sys2Proof.Machine.execBroken c body s
  | .demand m hdr => Sys2Proof.Machine.execDemand m hdr s
  | .segmentWrite m hdr seg => Sys2Proof.Machine.execSegmentWrite m hdr seg s
  | .partRead m hdr => Sys2Proof.Machine.execPartRead m hdr s
  | .partWrite m hdr data => Sys2Proof.Machine.execPartWrite m hdr data s
  | .dmaRead m hdr => Sys2Proof.Machine.execDmaRead m hdr s
  | .dmaWrite m hdr data => Sys2Proof.Machine.execDmaWrite m hdr data s
  | .deliver c hdr seg => Sys2Proof.Machine.execDeliver c hdr seg s
  | .scrub m => Sys2Proof.Machine.execScrub m s
  | .telemetrySample entry => Sys2Proof.Machine.execTelemetrySample entry s
  | .telemetryInterval x => Sys2Proof.Machine.execTelemetryInterval x s
  | .heatAlarm k sensor temp => Sys2Proof.Machine.execHeatAlarm k sensor temp s
  | .eclipseReturn d fails => Sys2Proof.Machine.execEclipseReturn d fails s
  | .configurationWrite k data final => Sys2Proof.Machine.execConfigurationWrite k data final s
  | .heartbeat k => Sys2Proof.Machine.execHeartbeat k s
  | .heartbeatLost k => Sys2Proof.Machine.execHeartbeatLost k s
  | .faultReport => Sys2Proof.Machine.execFaultReport s
  | .digestResult rid step elems => Sys2Proof.Machine.execDigestResult rid step elems s
  | .checkpointDrainDone => Sys2Proof.Machine.execCheckpointDrainDone s
  | .relaunchReady child => Sys2Proof.Machine.execRelaunchReady child s
  | .relaunchNotReady child => Sys2Proof.Machine.execRelaunchNotReady child s
  | .relaunch tag count => Sys2Proof.Machine.execRelaunch tag count s
  | .relaunchHold tag => Sys2Proof.Machine.execRelaunchHold tag s
  | .relaunchTimeout => Sys2Proof.Machine.execRelaunchTimeout s
  | .clusterMove die logical spare rotation => Sys2Proof.Machine.execClusterMove die logical spare rotation s
  | .routeTableChange edits => Sys2Proof.Machine.execRouteTableChange edits s
  | .quiesce p => Sys2Proof.Machine.execQuiesce p s
  | .quiesceReturn p => Sys2Proof.Machine.execQuiesceReturn p s
  | .stressTestDue k => Sys2Proof.Machine.execStressTestDue k s
  | .stressTestDone k v => Sys2Proof.Machine.execStressTestDone k v s
  | .testOverdue k => Sys2Proof.Machine.execTestOverdue k s
  | .dataFrame port frame bad => Sys2Proof.Machine.execDataFrame port frame bad s
  | .idleFrame port frame bad => Sys2Proof.Machine.execIdleFrame port frame bad s
  | .linkFrame port frame bad => Sys2Proof.Machine.execLinkFrame port frame bad s
  | .replayTimeout port => Sys2Proof.Machine.execReplayTimeout port s
  | .frameLockLoss port => Sys2Proof.Machine.execFrameLockLoss port s
  | .id port msg => Sys2Proof.Machine.execId port msg s
  | .idTimer port => Sys2Proof.Machine.execIdTimer port s
  | .timeProbe port t1 t2 => Sys2Proof.Machine.execTimeProbe port t1 t2 s
  | .timeProbeTimer => Sys2Proof.Machine.execTimeProbeTimer s
  | .timeReply port t1 t2 t3 t4 depth tstate => Sys2Proof.Machine.execTimeReply port t1 t2 t3 t4 depth tstate s
  | .timeHoldover => Sys2Proof.Machine.execTimeHoldover s
  | .retrain port t => Sys2Proof.Machine.execRetrain port t s
  | .retrainTimeout port => Sys2Proof.Machine.execRetrainTimeout port s
  | .offline port reason => Sys2Proof.Machine.execOffline port reason s
  | .portTraining port t => Sys2Proof.Machine.execPortTraining port t s
  | .portRetryTimer port => Sys2Proof.Machine.execPortRetryTimer port s
  | .linkDieIngress l port p => Sys2Proof.Machine.execLinkDieIngress l port p s
  | .linkDieEgress l p => Sys2Proof.Machine.execLinkDieEgress l p s
  | .sqTailDoorbell page value => Sys2Proof.Machine.execSqTailDoorbell page value s
  | .cqHeadDoorbell page value => Sys2Proof.Machine.execCqHeadDoorbell page value s
  | .descriptorFetch r d => Sys2Proof.Machine.execDescriptorFetch r d s
  | .completionDecision r tag => Sys2Proof.Machine.execCompletionDecision r tag s
  | .msixModerationExpiry vector => Sys2Proof.Machine.execMsixModerationExpiry vector s
  | .nop r tag => Sys2Proof.Machine.execNop r tag s
  | .loadImage r tag => Sys2Proof.Machine.execLoadImage r tag s
  | .dmaToDeep r tag run => Sys2Proof.Machine.execDmaToDeep r tag run s
  | .dmaFromDeep r tag segments => Sys2Proof.Machine.execDmaFromDeep r tag segments s
  | .armLaunch r tag => Sys2Proof.Machine.execArmLaunch r tag s
  | .signal r tag => Sys2Proof.Machine.execSignal r tag s
  | .wait r tag => Sys2Proof.Machine.execWait r tag s
  | .waitPoll r tag => Sys2Proof.Machine.execWaitPoll r tag s
  | .waitTimeLimit r tag => Sys2Proof.Machine.execWaitTimeLimit r tag s
  | .catchStop r tag => Sys2Proof.Machine.execCatchStop r tag s
  | .drain r tag => Sys2Proof.Machine.execDrain r tag s
  | .restore r tag => Sys2Proof.Machine.execRestore r tag s
  | .digest r tag => Sys2Proof.Machine.execDigest r tag s
  | .test r tag runs => Sys2Proof.Machine.execTest r tag runs s
  | .abort r tag => Sys2Proof.Machine.execAbort r tag s
  | .sqEnableWrite page value => Sys2Proof.Machine.execSqEnableWrite page value s
  | .cqEnableWrite page value => Sys2Proof.Machine.execCqEnableWrite page value s
  | .eventLostClear value deviceSets => Sys2Proof.Machine.execEventLostClear value deviceSets s
  | .registerWrite offset wide value => Sys2Proof.Machine.execRegisterWrite offset wide value s
  | .writeImage image certOk sigOk flashOk => Sys2Proof.Machine.execWriteImage image certOk sigOk flashOk s
  | .requestReport nonce sig certs => Sys2Proof.Machine.execRequestReport nonce sig certs s
  | .loadToken token certOk sigOk => Sys2Proof.Machine.execLoadToken token certOk sigOk s
  | .unloadToken => Sys2Proof.Machine.execUnloadToken s
  | .setCascade cfg flashOk => Sys2Proof.Machine.execSetCascade cfg flashOk s
  | .setWaitMask flashOk => Sys2Proof.Machine.execSetWaitMask flashOk s
  | .reportSuspect => Sys2Proof.Machine.execReportSuspect s
  | .packageReset => Sys2Proof.Machine.execPackageReset s
  | .mailboxCommandEnd => Sys2Proof.Machine.execMailboxCommandEnd s
  | .linkDelay slot idx due => Sys2Proof.Machine.execLinkDelay slot idx due s
  | .creditCut slot => Sys2Proof.Machine.execCreditCut slot s
  | .forcedStall slot => Sys2Proof.Machine.execForcedStall slot s
  | .clockSkew slot => Sys2Proof.Machine.execClockSkew slot s
  | .checkInsertion slot idx => Sys2Proof.Machine.execCheckInsertion slot idx s
  | .perturbationSlotClear slot => Sys2Proof.Machine.execPerturbationSlotClear slot s
  | .flr => Sys2Proof.Machine.execFlr s
  | .perst asserted => Sys2Proof.Machine.execPerst asserted s
  | .d3hotEntry => Sys2Proof.Machine.execD3hotEntry s
  | .d0Return => Sys2Proof.Machine.execD0Return s
  | .pkgResetPin heldMicros => Sys2Proof.Machine.execPkgResetPin heldMicros s
  | .leak => Sys2Proof.Machine.execLeak s
  | .inputInRange vin => Sys2Proof.Machine.execInputInRange vin s
  | .busSample vin iin pin => Sys2Proof.Machine.execBusSample vin iin pin s
  | .orderlyStop vin => Sys2Proof.Machine.execOrderlyStop vin s
  | .inputLoss cause => Sys2Proof.Machine.execInputLoss cause s
  | .surge peak duration => Sys2Proof.Machine.execSurge peak duration s
  | .overVoltage vin => Sys2Proof.Machine.execOverVoltage vin s
  | .inputSwitchReclose => Sys2Proof.Machine.execInputSwitchReclose s
  | .inputReversed volts => Sys2Proof.Machine.execInputReversed volts s
  | .busModule m ok => Sys2Proof.Machine.execBusModule m ok s
  | .domainFault d cause => Sys2Proof.Machine.execDomainFault d cause s
  | .thermalTrip d => Sys2Proof.Machine.execThermalTrip d s
  | .powerLoop parts fm => Sys2Proof.Machine.execPowerLoop parts fm s
  | .coolantStop inlet flow => Sys2Proof.Machine.execCoolantStop inlet flow s
  | .powerGood railsOk clockOk => Sys2Proof.Machine.execPowerGood railsOk clockOk s
  | .boot => Sys2Proof.Machine.execBoot s
  | .smiImage image certOk sigOk => Sys2Proof.Machine.execSmiImage image certOk sigOk s
  | .grade record certOk sigOk => Sys2Proof.Machine.execGrade record certOk sigOk s
  | .hull ppm diesAnswer channels inlet flow => Sys2Proof.Machine.execHull ppm diesAnswer channels inlet flow s
  | .noCoolant inlet flow => Sys2Proof.Machine.execNoCoolant inlet flow s
  | .domains regulatorFault => Sys2Proof.Machine.execDomains regulatorFault s
  | .repair => Sys2Proof.Machine.execRepair s
  | .firmware failed => Sys2Proof.Machine.execFirmware failed s
  | .knownAnswer failed => Sys2Proof.Machine.execKnownAnswer failed s
  | .memory verifyOk fullOk => Sys2Proof.Machine.execMemory verifyOk fullOk s
  | .links => Sys2Proof.Machine.execLinks s
  | .hostReady => Sys2Proof.Machine.execHostReady s
  | .powerDrainDone => Sys2Proof.Machine.execPowerDrainDone s
  | .leakRelease => Sys2Proof.Machine.execLeakRelease s
  | .pcieLinkDown => Sys2Proof.Machine.execPcieLinkDown s
  | .pcieLinkUp => Sys2Proof.Machine.execPcieLinkUp s

end Sys2Proof.Machine
end

