-- ==== Sys2Proof/Machine/Lanes.lean ====
section
/-! DEFINITION. What a port puts on its lanes (R279, Table 10.1): symbols, lanes and RS(544,514) codewords. -/

namespace Sys2Proof.Machine

/-! ### The code -/

/-- The product in GF(2^10), with the primitive polynomial x^10 + x^3 + 1 of IEEE 802.3 (PRESUMED, log entry 134). -/
def gfMul (a b : Nat) : Nat :=
  ((List.range 10).foldl (fun (r : Nat × Nat) i =>
    let x := 2 * r.2
    (if b.testBit i then r.1 ^^^ r.2 else r.1, if x.testBit 10 then x ^^^ 0x409 else x)) (0, a)).1

/-- The coefficients below the leading one of the product of x - α^j for j from 0 to n − 1, the highest first (PRESUMED, log entry 134). -/
def rsGenerator : Nat → List Nat
  | 0 => []
  | n + 1 =>
    let g := rsGenerator n
    let root := (List.range n).foldl (fun a _ => gfMul a 2) 1
    List.zipWith (· ^^^ ·) (g ++ [0]) (((1 :: g).map fun c => gfMul c root))

/-- The 30 parity symbols of a message: the remainder of its division by the generator. -/
def rsParity (msg : List Nat) : List Nat :=
  let g := rsGenerator 30
  msg.foldl (fun r m => match r with
    | [] => []
    | a :: t => let f := a ^^^ m; List.zipWith (· ^^^ ·) (t ++ [0]) (g.map (gfMul f ·))) (List.replicate 30 0)

/-! ### Symbols and lanes -/

/-- A byte string cut into 10-bit symbols, the low bit of the first byte first (DESIGN CHOICE, log entry 134); a last piece of fewer bits waits for more. -/
def symbolsOf (b : Bytes) : List Nat :=
  let v := leNat b
  (List.range (b.length * 8 / 10)).map fun j => v / 2 ^ (10 * j) % 1024

/-- Full groups of 514. -/
def messages (fuel : Nat) (l : List Nat) : List (List Nat) :=
  match fuel with
  | 0 => []
  | n + 1 => if l.length < 514 then [] else l.take 514 :: messages n (l.drop 514)

/-- The frames that a port has sent since its training. -/
def State.sentFrames (s : State) (i : Nat) : List Bytes :=
  let l := s.out.filterMap fun o => match o with
    | .frame p b => if p.val = i then some b else none
    | _ => none
  l.drop (l.length - (s.port i).txFrames)

/-- The codewords that have formed on logical lane `lane` of a port of width `w`: symbol j goes to lane j mod w, and 514 message symbols are followed by 30
parity symbols. -/
def State.codewords (s : State) (i lane : Nat) : List (List Nat) :=
  let w := (s.port i).lanesUsed
  let sym := symbolsOf (s.sentFrames i).flatten
  let mine := (sym.zipIdx.filter fun x => decide (x.2 % w = lane)).map (·.1)
  (messages mine.length mine).map fun m => m ++ rsParity m

/-- The physical lane of a logical one: the active lanes in ascending order. -/
def Port.physicalLane (p : Port) (lane : Nat) : Option Nat := ((List.range 8).filter p.group.getLsbD)[lane]?

end Sys2Proof.Machine
end

