-- ==== Sys2Proof/Machine/ReadOut.lean ====
section
/-! DEFINITION. What the host reads: the identity of the function (R303), and BAR0 by block (R420 to R440). The table has no command for a read, and no
register changes by one (log entry 93). -/

namespace Sys2Proof.Machine

/-! ### The function (Table 11.1) -/

/-- The class code: processing accelerator. -/
def classCode : BitVec 24 := 0x120000

/-- BAR0 and BAR2 in bytes. -/
def bar0Size : Nat := 64 * 2 ^ 20
def bar2Size : Nat := 512 * 2 ^ 10

/-- The MSI-X vectors. -/
def msixVectors : Nat := 64

/-- A word of the Type 0 configuration header: its identifiers and class code. The revision ID, which Table 11.1 leaves out, and every other word are not
given. The places are those of the PCI Express specification (PRESUMED, log entry 129). -/
def configWord (o : Nat) : Option (BitVec 32) :=
  match o with
  | 0x00 => some (deviceId ++ vendorId)
  | 0x08 => some (classCode ++ Config.revisionId)
  | 0x2C => some (Config.subsystemId ++ vendorId)
  | _ => none

/-! ### The management connector (Table 17.6) -/

/-- The open-drain outputs of M0. -/
inductive OutPin where
  | hostPwrOk
  | revFault
  | alert
  deriving DecidableEq, Repr

/-- An open-drain output pulls low or is released, or, without a supply, floats. -/
inductive Level where
  | low
  | released
  | highZ
  deriving DecidableEq, Repr

/-- What an output drives. REV_FAULT is powered from the reversed input; with no input every output is high-impedance (Table 17.7; for an input that is off
DEDUCED from Table 14.1, log entry 130). -/
def State.pinLevel (s : State) (pin : OutPin) : Level :=
  let ifSupplied (l : Level) : Level := if s.power.supplied then l else .highZ
  match pin with
  | .revFault => if s.power.band = .reversed then .low else ifSupplied .released
  | .hostPwrOk => ifSupplied (if (s.domain 60).powered then .released else .low)
  | .alert => ifSupplied (if s.boot.halted = .none then .released else .low)

/-! ### The blocks of BAR0, as words at their offset in the block -/

/-- The 32-bit word of a wide value at byte offset `o` of it. -/
def wordOf {n : Nat} (v : BitVec n) (o : Nat) : BitVec 32 := v.extractLsb' (8 * o) 32

/-- Table 16.3. -/
def Boot.word (b : Boot) (o : Nat) : BitVec 32 :=
  let r := b.report
  match o with
  | 0x00 => (0 : BitVec 25) ++ BitVec.ofBool r.deepUnavailable ++ BitVec.ofBool b.slot ++ BitVec.ofBool b.hostReady ++ b.phase
  | 0x08 => b.outcome.setWidth 32
  | 0x10 | 0x14 => wordOf (r.domainOff.setWidth 64) (o - 0x10)
  | 0x18 => r.dieLost.setWidth 32
  | 0x1C => r.dieUnmappable.setWidth 32
  | 0x20 => r.spareLow.setWidth 32
  | 0x24 => r.stackFail.setWidth 32
  | _ => 0

/-- Table 16.4, of page `p`; the SQ offsets of the event and telemetry pages are reserved. -/
def Ring.word (r : Ring) (p o : Nat) : BitVec 32 :=
  match o with
  | 0x20 | 0x24 => wordOf r.cqBase (o - 0x20)
  | 0x28 => BitVec.ofBool r.cqEnable ++ (0 : BitVec 5) ++ r.cqMod ++ (0 : BitVec 2) ++ r.cqVec ++ (0 : BitVec 3) ++ r.cqSize
  | 0x30 => (0 : BitVec 15) ++ BitVec.ofBool r.cqPhase ++ r.cqWr
  | 0x34 => r.cqHost.setWidth 32
  | _ =>
    if 63 < p then 0
    else match o with
      | 0x00 | 0x04 => wordOf r.sqBase o
      | 0x08 => BitVec.ofBool r.sqEnable ++ (0 : BitVec 26) ++ r.sqSize
      | 0x10 | 0x14 => wordOf r.sqWb (o - 0x10)
      | 0x18 => BitVec.ofBool r.sqStopped ++ (0 : BitVec 3) ++ r.sqCause ++ BitVec.ofNat 8 r.inProgress.length ++ r.sqHead
      | _ => 0

/-- Table 16.5. -/
def State.jobWord (s : State) (o : Nat) : BitVec 32 :=
  let h := s.host
  if 0x20 ≤ o ∧ o < 0x40 then wordOf (s.genhan.log.headD 0) (o - 0x20)
  else match o with
    | 0x00 => BitVec.ofNat 32 (jobCode s.job.state)
    | 0x04 => s.job.tag
    | 0x08 | 0x0C => if s.job.state = .idle then 0 else wordOf (s.job.imageOffset.setWidth 64) (o - 0x08)
    | 0x10 => (BitVec.ofBool h.eventLost).setWidth 32
    | 0x14 => BitVec.ofNat 32 s.genhan.log.length
    | 0x18 => s.genhan.numOr.setWidth 32
    | 0x80 | 0x84 => wordOf (h.hwBase ++ (0 : BitVec 12)) (o - 0x80)
    | 0x88 | 0x8C => wordOf (h.hwPages.setWidth 64) (o - 0x88)
    | 0x90 => (BitVec.ofBool h.hwEnable).setWidth 32
    | 0xC0 => h.powerLimit.setWidth 32
    | 0xC4 => (0 : BitVec 6) ++ h.maxDefer ++ (0 : BitVec 14) ++ h.testPolicy
    | _ => 0

/-- Table 16.7. -/
def State.timeWord (s : State) (o : Nat) : BitVec 32 :=
  let t := s.time
  match o with
  | 0x00 => (0 : BitVec 23) ++ BitVec.ofBool t.onAlt ++ t.depth ++ BitVec.ofNat 4 (timeCode t.state)
  | 0x08 | 0x0C => wordOf t.sc (o - 0x08)
  | 0x10 | 0x14 => wordOf t.lastOffset (o - 0x10)
  | 0x18 => t.settings
  | 0x20 => s.pkg.setWidth 32
  | 0x24 => s.cascadeId
  | _ => 0

/-- Table 16.13; GO is write-only and reads zero. -/
def Mailbox.word (m : Mailbox) (o : Nat) : BitVec 32 :=
  if o < 0x20 then wordOf (SMap.get 0 m.args (o / 8)) (o % 8)
  else match o with
    | 0x20 => m.opcode.setWidth 32
    | 0x28 => BitVec.ofBool m.busy ++ (0 : BitVec 7) ++ m.seq ++ m.status ++ m.lastOp
    | 0x30 | 0x34 => wordOf m.result (o - 0x30)
    | 0x38 => (0 : BitVec 18) ++ m.vector ++ (0 : BitVec 7) ++ BitVec.ofBool m.irqEn
    | _ => 0

/-- Table 16.8, of port `i`; a port outside PORT_MASK reads DISABLED and zero. -/
def State.portWord (s : State) (i o : Nat) : BitVec 32 :=
  let p := s.port i
  if !s.portMask.getLsbD i then 0
  else match o with
    | 0x00 => p.good ++ (0 : BitVec 4) ++ p.width ++ (0 : BitVec 4) ++ p.reason ++ BitVec.ofNat 8 (portCode p.state)
    | 0x08 | 0x0C => wordOf p.peerSerial (o - 0x08)
    | 0x10 => (0 : BitVec 2) ++ p.peerPort ++ p.peerStepping ++ p.peerGrade ++ p.peerPkg
    | 0x18 => s.portEntry i
    | _ => 0

/-- R433: an entry of a link die whose domain is off reads as zero. -/
def State.connWord (s : State) (o : Nat) : BitVec 32 :=
  let l := o / 0x10000
  if (SMap.get {} s.domains (48 + l)).powered then wordOf (s.conn l (o % 0x10000 / 16)) (o % 16) else 0

/-- STRESS_AGE (Table 16.11): whole hours, at most 4,095, which also says never. -/
def State.stressAge (s : State) (k : ClusterAt) : Nat := min 0xFFF (((s.sincePass k).map fun n => n / hourTicks).getD 0xFFF)

/-- An entry as it reads (Table 16.11); zero before a map is loaded. -/
def State.readEntry (s : State) (k : ClusterAt) : BitVec 32 :=
  if s.repairSeq = 0 then 0 else s.entryOf k ||| BitVec.ofNat 32 (s.stressAge k * 2 ^ 16)

/-- The grade and repair read-back block (R434). -/
def State.gradeWord (s : State) (o : Nat) : BitVec 32 :=
  let n := (o - 0x1000) / 4
  if o < 0x40 then wordOf s.boot.record o
  else if o = 0x40 ∨ o = 0x44 then wordOf s.repairSeq (o - 0x40)
  else if h : 0x1000 ≤ o ∧ n / 288 < 24 then s.readEntry ⟨⟨n / 288, h.2⟩, ⟨n % 288, Nat.mod_lt _ (by decide)⟩⟩
  else 0

/-- Table 16.16. PERMS and the slots read zero with no token loaded. -/
def Debug.word (d : Debug) (o : Nat) : BitVec 32 :=
  if 0x20 ≤ o ∧ o < 0x40 then wordOf d.nonce (o - 0x20)
  else if !d.loaded then 0
  else if o = 0 then (0 : BitVec 16) ++ d.perms ++ (0 : BitVec 7) ++ (1 : BitVec 1)
  else if 0x100 ≤ o ∧ o < 0x200 then
    let x := SMap.get {} d.slots ((o - 0x100) / 16)
    if o % 16 < 8 then wordOf x.target (o % 16) else if o % 16 = 8 then x.param else 0
  else 0

/-! ### BAR0 (R420, R421, R334) -/

/-- The aligned 32-bit word at offset `o`; an offset that Table 16.1 does not assign reads zero. -/
def State.barWord (s : State) (o : Nat) : BitVec 32 :=
  let within (lo n : Nat) : Bool := decide (lo ≤ o) && decide (o < lo + n)
  if within 0 0x1000 then s.idWord o
  else if within 0x1000 0x1000 then s.boot.word (o - 0x1000)
  else if within 0x2000 0x1000 then s.jobWord (o - 0x2000)
  else if within 0x3000 0x1000 then s.timeWord (o - 0x3000)
  else if within 0x4000 0x1000 then s.host.mbox.word (o - 0x4000)
  else if within 0x10000 (81 * 0x80) then (s.ring ((o - 0x10000) / 0x80)).word ((o - 0x10000) / 0x80) (o % 0x80)
  else if within 0x14000 (16 * 0x20) then
    if o % 0x20 < 16 then wordOf (SMap.get 0 s.host.telem ((o - 0x14000) / 0x20)) (o % 0x20) else 0
  else if within 0x20000 0x400 then wordOf (s.msixEntry ((o - 0x20000) / 16)) (o % 16)
  else if within 0x21000 8 then wordOf s.host.pba (o - 0x21000)
  else if within 0x40000 (64 * 32) then wordOf (s.genhan.log.getD ((o - 0x40000) / 32) 0) (o % 32)
  else if within 0x50000 96 then if s.job.state = .idle then 0 else wordOf s.job.record (o - 0x50000)
  else if within 0x100000 (64 * 0x20) then s.portWord ((o - 0x100000) / 0x20) (o % 0x20)
  else if within 0x200000 (8 * 0x10000) then s.connWord (o - 0x200000)
  else if within 0x300000 0x8000 then s.gradeWord (o - 0x300000)
  else if within 0x400000 0x1000 then s.host.dbg.word (o - 0x400000)
  else 0

/-- Before host-ready the identification block, the bring-up status and the mailbox are readable (R334), and DEVICE_NONCE always (R439). -/
def State.readable (s : State) (o : Nat) : Bool :=
  s.boot.hostReady || decide (o < 0x2000) || (decide (0x4000 ≤ o) && decide (o < 0x5000)) || (decide (0x400020 ≤ o) && decide (o < 0x400040))

/-- A read of BAR0 that the host die answers: an aligned 32-bit or 64-bit quantity, of one state (R421). `none`: the spec gives no value. -/
def State.readBar0 (s : State) (o : Nat) (wide : Bool) : Option (BitVec 64) :=
  if !s.bar0Open || !s.readable o || decide (bar0Size ≤ o) then none
  else if wide then (if o % 8 = 0 then some (s.barWord (o + 4) ++ s.barWord o) else none)
  else if o % 4 = 0 then some ((s.barWord o).setWidth 64)
  else none

/-- A read longer than 8 B from offset `o`: 8 B at a time in ascending order, each of its own state, as the device works on between them. -/
def readLong (states : List State) (o : Nat) : List (Option (BitVec 64)) :=
  states.zipIdx.map fun q => q.1.readBar0 (o + 8 * q.2) true

end Sys2Proof.Machine
end

