-- ==== Sys2Proof/WellFormed.lean ====
section
/-! DEFINITION. What a command must look like to be one that its sender can form: the lengths, ranges and alignments that the types of its
operands do not say. The meanings are total and do not rest on it. -/

namespace Sys2Proof

/-- An edit of the route tables names a cluster index of 24 dies, or the edge of a die, and a waypoint within the package (Table 7.6). -/
def RouteEdit.wf (e : RouteEdit) : Bool :=
  decide (e.index.toNat < if e.edge then 24 else 6912) &&
  (match e.waypoint with
    | none => true
    | some w => decide (w.1.toNat < 96) && decide (w.2.toNat < 72))

/-- Well-formed commands. -/
def Instr.wellFormed (i : Instr) : Bool :=
  match i with
  | .meshLinkFail col row port _ => decide (col.toNat < 768) && decide (row.toNat < 576) && decide (port.val < 4)
  | .channelRecordArrival _ _ payload => decide (payload.length ≤ 4080)
  | .tileSegmentArrival _ _ seg => decide (64 ≤ seg.length) && decide (seg.length ≤ 4080)
  | .stallAge _ isCatch ep => !isCatch || decide (ep.val < 16)
  | .segmentWrite _ _ seg => decide (64 ≤ seg.length) && decide (seg.length ≤ 4080)
  | .deliver _ _ seg => decide (64 ≤ seg.length) && decide (seg.length ≤ 4080)
  | .routeTableChange edits => edits.all RouteEdit.wf
  | .dataFrame _ frame bad => decide (frame.length = 344) && bad.all fun c => decide (c.1 < 8)
  | .idleFrame _ frame bad => decide (frame.length = 344) && bad.all fun c => decide (c.1 < 8)
  | .linkFrame _ frame bad => decide (frame.length = 344) && bad.all fun c => decide (c.1 < 8)
  | .id _ msg => decide (msg.length = 64)
  | .linkDieIngress l port _ => decide (port.val / 8 = l.val)
  | .sqTailDoorbell page _ => decide (page.toNat ≤ 63)
  | .cqHeadDoorbell page _ => decide (page.toNat ≤ 80)
  | .test _ _ runs => decide ((runs.results.map (·.1)).Nodup)
  | .registerWrite offset wide value => decide (offset.toNat % (if wide then 8 else 4) = 0) && (wide || decide (value.toNat < 2 ^ 32))
  | .requestReport _ sig certs => decide (sig.length = 1280) && decide (certs.length = 6272)
  | .loadToken token _ _ => (token.map (·.length)).all fun n => decide (n = 4480)
  | .setCascade cfg _ => (cfg.map (·.length)).all fun n => decide (n = 65808)
  | .busSample vin iin _ => decide (vin < 2 ^ 14) && decide (iin < 2 ^ 13)
  | .surge peak _ => decide (720 < peak)
  | .inputReversed volts => decide (0 < volts)
  | .powerLoop parts _ => !parts.isEmpty
  | .hull _ _ channels _ _ => (channels.bad.all fun c => decide (c.1.toNat < 768) && decide (c.2.1.toNat < 576)) && channels.edits.all RouteEdit.wf
  | .grade record _ _ => decide (record.length = 4480)
  | .firmware failed => decide failed.Nodup
  | .knownAnswer failed => decide ((failed.map fun f => (f.at_, f.core, f.kind)).Nodup)
  | .eclipseReturn _ fails => decide ((fails.map fun f => (f.at_, f.core, f.kind)).Nodup)
  | .quiesceReturn p => decide ((p.fails.map fun f => (f.at_, f.core, f.kind)).Nodup)
  | .partWrite _ _ data => decide (1 ≤ data.length) && decide (data.length ≤ 4096)
  | .dmaWrite _ _ data => decide (1 ≤ data.length) && decide (data.length ≤ 4096)
  | .next _ | .jump _ | .branch _ | .nest _ | .halt _ | .stallCycle _ | .teMma _ | .teCvt _ | .teEastore _ | .teEaload _ | .teEaadd _
  | .teReanchor _ | .vePipelined _ | .veSumx _ | .veSqsumx _ | .veFold _ | .veEaout _ | .veEaload _ | .veEastore _ | .veStatus _
  | .vePrune _ | .veCompress _ | .pselThreshold _ | .pselTopK _ | .pselVerdict _ | .pselCounts _ | .pselRate _ | .pselQuant4 _
  | .agRead _ _ | .agWrite _ _ | .agReset _ _ | .ptForward _ _ | .deliveryLanding _ | .transposeCheck _ | .fabricAccess _
  | .spadWriteback _ | .send _ | .tileSend _ | .streamDemand _ | .streamWrite _ | .msend _ | .recvWait _ | .release _ | .rwrite _
  | .rread _ | .ratomic _ | .ratomicLocal _ | .reduceContribute _ | .requestRecordCheck _ | .requestLaunch _ | .fence _ | .catch_ _
  | .catchWait _ | .steerArm _ | .steerWait _ | .steerCycle _ | .open_ _ | .close _ | .clusterLaunch _ | .clusterComplete _ | .packetHop _
  | .creditReturn _ _ | .remoteWrite _ _ _ | .remoteReadRequest _ _ _ | .remoteAtomicRequest _ _ | .reply _ _ _ _ _ | .writeAck _ _
  | .requestNoPathTimeout _ _ | .reductionContribution _ _ _ _ | .reductionReturn _ _ _ | .reductionResult _ _ _ | .catchJoin _ _ _ _ _
  | .catchRelease _ _ _ _ | .phaseTransferComplete | .stop _ _ _ | .openRequest _ _ | .answer _ _ | .closeRequest _ _ | .closeAnswer _ _
  | .broken _ _ | .demand _ _ | .partRead _ _ | .dmaRead _ _ | .scrub _ | .telemetrySample _
  | .telemetryInterval _ | .heatAlarm _ _ _ | .configurationWrite _ _ _ | .heartbeat _ | .heartbeatLost _
  | .faultReport | .digestResult _ _ _ | .checkpointDrainDone | .relaunchReady _ | .relaunchNotReady _ | .relaunch _ _ | .relaunchHold _
  | .relaunchTimeout | .clusterMove _ _ _ _ | .quiesce _ | .stressTestDue _ | .stressTestDone _ _ | .testOverdue _
  | .replayTimeout _ | .frameLockLoss _ | .idTimer _ | .timeProbe _ _ _ | .timeProbeTimer | .timeReply _ _ _ _ _ _ _ | .timeHoldover
  | .retrain _ _ | .retrainTimeout _ | .offline _ _ | .portTraining _ _ | .portRetryTimer _ | .linkDieEgress _ _ | .descriptorFetch _ _
  | .completionDecision _ _ | .msixModerationExpiry _ | .nop _ _ | .loadImage _ _ | .dmaToDeep _ _ _ | .dmaFromDeep _ _ _ | .armLaunch _ _
  | .signal _ _ | .wait _ _ | .waitPoll _ _ | .waitTimeLimit _ _ | .catchStop _ _ | .drain _ _ | .restore _ _ | .digest _ _ | .abort _ _
  | .sqEnableWrite _ _ | .cqEnableWrite _ _ | .eventLostClear _ _ | .writeImage _ _ _ _ | .unloadToken | .setWaitMask _ | .reportSuspect
  | .packageReset | .mailboxCommandEnd | .linkDelay _ _ _ | .creditCut _ | .forcedStall _ | .clockSkew _ | .checkInsertion _ _
  | .perturbationSlotClear _ | .flr | .perst _ | .d3hotEntry | .d0Return | .pkgResetPin _ | .leak | .inputInRange _ | .orderlyStop _
  | .inputLoss _ | .overVoltage _ | .inputSwitchReclose | .busModule _ _ | .domainFault _ _ | .thermalTrip _ | .coolantStop _ _
  | .powerGood _ _ | .boot | .smiImage _ _ _ | .noCoolant _ _ | .domains _ | .repair | .memory _ _ | .links | .hostReady
  | .powerDrainDone | .leakRelease | .pcieLinkDown | .pcieLinkUp => true

end Sys2Proof
end

