-- ==== Sys2Proof/Safety.lean ====
section
/-! DEFINITION. What the statements call a good state and a safe step. -/

namespace Sys2Proof.Machine

/-- A step that answers a next state: neither a fault nor a refusal. -/
def Completes (o : Host.Outcome State Fault Refusal) : Prop := ∃ t, o = .next t

/-- Every host limit is in the range to which a write clamps it (Table 16.5): POWER_LIMIT 10 to 270, MAX_DEFER 1 to 720, TEST_POLICY not 3. -/
def State.limitsOk (s : State) : Bool :=
  decide (10 ≤ s.host.powerLimit.toNat) && decide (s.host.powerLimit.toNat ≤ 270) && decide (1 ≤ s.host.maxDefer.toNat) &&
  decide (s.host.maxDefer.toNat ≤ 720) && decide (s.host.testPolicy ≠ 3)

/-- The job fault log holds at most the first 64 reports (R353, R429). -/
def State.logOk (s : State) : Bool := decide (s.genhan.log.length ≤ 64)

/-- Deep memory is in its canonical form: offsets strictly rising, no byte listed that an unlisted offset reads as. -/
def State.deepWf (s : State) : Bool := SMap.wf 0 s.deep

/-- The security version that the key store demands never falls (R338). -/
def State.svOf (s : State) : Nat := s.nv.minSv.toNat

/-- Ring `r` takes a completion at once: none is held before it, the link is up, and an entry is free (R310, R449). -/
def State.ringReady (s : State) (r : Fin 64) : Prop := (s.ring r.val).heldC = [] ∧ s.host.linkUp = true ∧ 0 < ringFree (s.ring r.val)

/-- A descriptor of ring `r` is decided between `s` and `t`: its completion entry (Table 11.7) stands at the write index of the ring's completion
ring with the PHASE of R311, and it is in progress no more. -/
def Decided (s t : State) (r : Fin 64) (d : Desc) (status : Nat) (result : BitVec 32) (aborted late : Bool) : Prop :=
  let g := s.ring r.val
  let e := completionEntry (s.time.sc.setWidth 48) d.tag status aborted late r.val result
  Output.hostWrite (g.cqBase + BitVec.ofNat 64 (16 * g.cqWr.toNat)) (leBytes 16 (if g.cqPhase then e ||| BitVec.ofNat 128 (2 ^ 53) else e).toNat) ∈ t.out ∧
  ∀ x ∈ (t.ring r.val).inProgress, x.serial ≠ d.serial

/-- The work of a descriptor has ended with a status and a RESULT, and it waits for its decision (R325). -/
def WorkEnded (t : State) (r : Fin 64) (d : Desc) (status : Nat) (result : Nat) : Prop :=
  ∃ x ∈ (t.ring r.val).inProgress, x.serial = d.serial ∧ x.ended = some (BitVec.ofNat 8 status, BitVec.ofNat 32 result)

/-- `d` is the descriptor of ring `r` with a tag and an opcode that starts now (R317). -/
def State.starts (s : State) (r : Fin 64) (tag : BitVec 16) (op : Nat) (d : Desc) : Prop :=
  s.findDesc r.val tag (fun x => decide (x.op = op) && s.mayStart r.val x) = some d

/-- The state in which a descriptor has started. -/
def State.begun (s : State) (r : Fin 64) (d : Desc) : State := s.putDesc r.val { d with started := true, startSc := s.time.sc }

end Sys2Proof.Machine
end

