-- ==== Sys2Proof/Certificates/Slice0/Obligations.lean ====
section
/-! DEFINITION. The statements about the model. -/

open Sys2Proof Sys2Proof.Machine

/-! ### The block and its queue -/

/-- A step takes the command at the front of the queue and runs it on the state with the queue's rest (the row's cut; the model's queue). -/
def Obligations.StepRunsFrontCommand : Prop :=
  ∀ (i : Instr) (q : List Instr) (s : State), step { s with pending := i :: q } = exec i { s with pending := q }

/-- With no command waiting the step answers a next state in which a counter that is not running stands still, one that nothing disciplines yet counts
one tick, and any running counter advances by one tick and a correction of at most 7/65,536 of it, 100 ppm (R298, R299); a write to management flash
ends; everything else but the telemetry interval's stretch levels stays (the model's choice, log entries 1 and 123). Time (R298, R299): a probe is
answered with a frame; a non-starter's timer sends one through its time port, in HOLDOVER through both, and counts those unanswered; a reply in
LOCKED corrects the frequency and slews a quarter of the offset over the next probe interval, and the first of ACQUIRE steps the counter; eight
unanswered probes lead to the alternate, or where there is none to HOLDOVER. The model's choices that it rests on: log entries 1, 59, 60, 119 and
123. -/
def Obligations.TimeAndIdleSteps : Prop :=
  (∀ s : State, s.pending = [] →
     (s.time.running = false → step s = .next { s with nv := s.nv.finishWrites }) ∧
     (s.time.running = true → s.time.acc < 1000000 → s.time.state = .starter ∨ s.time.state = .acquire → ∃ t, step s = .next t ∧
       t.time = { s.time with sc := s.time.sc + 1, left := s.time.left - 1 }) ∧
     (s.time.running = true → s.time.acc < 1000000 → ∃ (t : State) (m : Int), step s = .next t ∧ -7 ≤ m ∧ m ≤ 7 ∧ t.time.acc < 1000000 ∧
       t.time.sc.toNat * 65536 + t.time.frac.toNat = (s.time.sc.toNat * 65536 + s.time.frac.toNat + (65536 + m).toNat) % 2 ^ 80 ∧
       t = { s with time := t.time, nv := s.nv.finishWrites
                    power := { s.power with topLevel := t.power.topLevel, lastTop := t.power.lastTop } })) ∧
  (∀ (s : State),
     (∀ (port : Fin 64) t1 t2, (s.port port.val).carries = true → ∃ t b, exec (.timeProbe port t1 t2) s = .next t ∧ t.out = s.out ++ [.frame port b] ∧
       t.time = s.time ∧ t.cores = s.cores) ∧
     (∀ l, s.time.starterBit = false → s.time.state ≠ .starter →
       l = (if s.time.state = .holdover then (s.time.parentPort.toList ++ s.time.altPort.toList).dedup else s.time.activePort.toList) → l ≠ [] →
       ∃ t, exec .timeProbeTimer s = .next t ∧ t.time.probe = some s.stamp ∧
         t.time.unanswered = (if s.time.probe.isSome then s.time.unanswered + 1 else s.time.unanswered) ∧ t.time.sc = s.time.sc ∧
         t.out.length = s.out.length + (l.filter fun i => (s.port i).carries).length ∧ t.cores = s.cores) ∧
     (∀ (port : Fin 64) t1 t2 t3 t4 d st (x : Int), s.time.starterBit = false → s.time.activePort = some port.val → s.time.probe = some t1 →
       x = ((t2.toNat : Int) - t1.toNat) - (((t4.toNat : Int) - t1.toNat) - ((t3.toNat : Int) - t2.toNat)) / 2 →
       (s.time.state = .locked → far50 x = false → ∃ t, exec (.timeReply port t1 t2 t3 t4 d st) s = .next t ∧ t.time.state = .locked ∧
         t.time.freq = s.time.freq + x / 64 ∧ t.time.slew = x / 4 ∧ t.time.left = 1000000 ∧ t.time.sc = s.time.sc ∧
         t.time.rate = clamp100 (s.time.freq + x / 64 + x / 4) ∧ t.time.unanswered = 0 ∧ t.cores = s.cores) ∧
       (s.time.state = .acquire → s.time.stepped = false → s.job.relOwnDone = false → ∃ t, exec (.timeReply port t1 t2 t3 t4 d st) s = .next t ∧
         t.time.sc = BitVec.ofNat 64 (((s.time.sc.toNat * 65536 + s.time.frac.toNat : Nat) + x).toNat / 65536) ∧ t.time.stepped = true ∧
         t.time.state = (if near2 x = true ∧ 2 ≤ s.time.inBound then .locked else .acquire) ∧ t.cores = s.cores)) ∧
     (s.time.starterBit = false → s.time.state ≠ .starter → 8 ≤ s.time.unanswered → s.time.state ≠ .holdover → s.time.altPort = none →
       ∃ t, exec .timeHoldover s = .next t ∧ t.time = { s.time with state := .holdover } ∧ t.time.rate = clamp100 s.time.freq ∧ t.cores = s.cores) ∧
     (∀ i, s.time.starterBit = false → s.time.state ≠ .starter → 8 ≤ s.time.unanswered → s.time.state ≠ .holdover → s.time.onAlt = false →
       s.time.altPort = some i → ∃ t, exec .timeHoldover s = .next t ∧ t.time = { s.time with
         onAlt := true, unanswered := 0, probe := none, inBound := 0, stepped := false, slew := 0, state := s.unlockedState } ∧ t.cores = s.cores))

/-! ### Sequencer -/

/-- A sequencer operation moves its core to the next slot of R109 while another core of the cluster has still to issue. The sequencer operation of a
cluster's last core ends the issue cycle: the cluster's cycle count rises by one and the next cycle is not begun; nothing of deep memory, the host
interface's limits or the non-volatile contents moves. A stall cycle of a cluster: every core keeps its state but for its stall age and the bank
marks of the cycle, the issue cycle does not advance, and the clock does (R118). The model's choices that it rests on: log entries 2, 17, 108 and
109. -/
def Obligations.SequencerAndCycles : Prop :=
  (∀ (c : CoreAt) (s s' : State) (x : Core) (w : Word),
     s' = s.accept (clusterOf c) → x = s'.core c → w = x.word →
     (s'.cluster (clusterOf c)).accepted = true → x.halted = false → (s'.cluster (clusterOf c)).issued.getLsbD c.core.val = false →
     x.unitsDone = true →
     (∃ j : Fin 64, j ≠ c.core ∧ (s'.core (coreIn (clusterOf c) j)).halted = false ∧ (s'.cluster (clusterOf c)).issued.getLsbD j.val = false) →
     (seqOp w = 0 → x.nest.active = false → x.slot.toNat < 1023 →
       ∃ t, exec (.next c) s = .next t ∧ t.core c = { x with slot := x.slot + 1 }) ∧
     (seqOp w = 0 → x.nest.active = true → ∀ i n, loopStep x.nest.header x.slot.toNat (nestTop x.nest.header + 1) 0 x.nest.i = (some n, i) →
       ∃ t, exec (.next c) s = .next t ∧ t.core c = { x with slot := BitVec.ofNat 10 n, nest := { x.nest with i := i } }) ∧
     (seqOp w = 0 → x.nest.active = true → x.slot.toNat < 1023 → ∀ i,
       loopStep x.nest.header x.slot.toNat (nestTop x.nest.header + 1) 0 x.nest.i = (none, i) →
       ∃ t, exec (.next c) s = .next t ∧ t.core c = { x with
         slot := x.slot + 1
         nest := { x.nest with i := i, active := !decide (x.slot.toNat = nestLast x.nest.header (nestTop x.nest.header)) } }) ∧
     (seqOp w = 1 → ∃ t, exec (.jump c) s = .next t ∧ t.core c = { x with slot := BitVec.ofNat 10 (seqTarget w), nest := x.leave (seqTarget w) }) ∧
     (seqOp w = 2 → x.todo.cond = true →
       ∃ t, exec (.branch c) s = .next t ∧ t.core c = { x with slot := BitVec.ofNat 10 (seqTarget w), nest := x.leave (seqTarget w) }) ∧
     (seqOp w = 2 → x.todo.cond = false → x.nest.active = false → x.slot.toNat < 1023 →
       ∃ t, exec (.branch c) s = .next t ∧ t.core c = { x with slot := x.slot + 1 }) ∧
     (seqOp w = 3 → ∃ t, exec (.nest c) s = .next t ∧ t.core c = { x with
       slot := BitVec.ofNat 10 (nestFirst (x.headerAt (seqTarget w)) (nestTop (x.headerAt (seqTarget w))))
       nest := { active := true, header := x.headerAt (seqTarget w), i := [] }
       marks := x.marks ++ [seqTarget w, seqTarget w + 1] }) ∧
     (seqOp w = 4 → ∃ t, exec (.halt c) s = .next t ∧ (t.core c).halted = true ∧ (t.core c).slot = x.slot)) ∧
  (∀ (c : CoreAt) (s s' : State) (n : Nat) (i : Instr),
     s' = s.accept (clusterOf c) →
     (s'.cluster (clusterOf c)).accepted = true → (s'.core c).halted = false →
     (s'.cluster (clusterOf c)).issued.getLsbD c.core.val = false → (s'.core c).unitsDone = true →
     (∀ j : Fin 64, j ≠ c.core → (s'.core (coreIn (clusterOf c) j)).halted = true ∨ (s'.cluster (clusterOf c)).issued.getLsbD j.val = true) →
     s'.job.between = .none → s'.job.state = .running →
     seqOp (s'.core c).word = n →
     (n = 0 ∧ i = .next c) ∨ (n = 1 ∧ i = .jump c) ∨ (n = 2 ∧ i = .branch c) ∨ (n = 3 ∧ i = .nest c) →
     ∃ t, exec i s = .next t ∧
       (t.cluster (clusterOf c)).cycle = (s'.cluster (clusterOf c)).cycle + 1 ∧
       (t.cluster (clusterOf c)).clocks = (s'.cluster (clusterOf c)).clocks + 1 ∧
       (t.cluster (clusterOf c)).accepted = false ∧ (t.cluster (clusterOf c)).issued = 0 ∧
       t.deep = s'.deep ∧ t.nv = s'.nv ∧ t.host = s'.host) ∧
  (∀ (k : ClusterAt) (s s' : State), s' = s.accept k → (s'.cluster k).stallLine = true →
     ∃ t, exec (.stallCycle k) s = .next t ∧
       (∀ j : Fin 64, ∃ a, t.core (coreIn k j) = { (s'.core (coreIn k j)).fabricTick with age := a }) ∧
       t.cluster k = { s'.cluster k with stallLine := false, clocks := (s'.cluster k).clocks + 1 } ∧
       t.deep = s'.deep ∧ t.mesh = s'.mesh ∧ t.host = s'.host ∧ t.genhan = s'.genhan)

/-! ### Tensor engine -/

/-- Each TE operation enters the core's pipeline with the latency of Table 3.6, behind every earlier accumulator operation, and changes nothing else
than the TE's own issue state. The model's choices that it rests on: log entries 17 and 138. -/
def Obligations.TensorOperationsEnterThePipeline : Prop :=
  ∀ (c : CoreAt) (s s' : State) (x : Core) (w : Word) (t : Nat),
    s' = s.accept (clusterOf c) → x = s'.core c → w = x.word → t = s'.now c → s'.ready c (·.te) = true →
    (∀ an p, teOp w = 1 → anchorOf (x.ax' (teAx w)) = some an → pairKind an.fa an.fb = some p →
      ∃ y : Core, exec (.teMma c) s = .next (s'.putCore c y) ∧
        y.pipe = x.pipe ++ ⟨x.eaDue (t + mmaLatency p (teSpa w || teSpb w)) 10, x.slot,
            .eaMma (teOvw w) an.e (mmaTerms x.latches x.sparseCtrl w p an)⟩ ::
          (if (teSpa w || teSpb w) && p == .bf16 then [⟨t + 1, x.slot, .mmaUpper w x.latchA x.latchB x.metadata⟩] else []) ∧
        y.teK = (if teOvw w then 0 else x.teK) + BitVec.ofNat 5 (kcOf p (teSpa w || teSpb w)) ∧
        y.teIss = (if teOvw w then some an.e else x.teIss) ∧ y.lastMma = some (t, mmaInterval p) ∧
        y = { x with pipe := y.pipe, teK := y.teK, teIss := y.teIss, lastMma := y.lastMma, teMx := y.teMx, teOpen := y.teOpen, todo := { x.todo with te := false } }) ∧
    (∀ f, teOp w = 2 → fmtOf (teArg w) = some f → exec (.teCvt c) s = .next (s'.putCore c
      { x with teOpen := false, todo := { x.todo with te := false }, pipe := x.pipe ++ [⟨x.hold (t + 3) [(9, 0)], x.slot, .teOut 0 (x.cvtTile f).1 (x.cvtTile f).2⟩] })) ∧
    (teOp w = 3 → exec (.teEastore c) s = .next (s'.putCore c
      { x with teOpen := false, todo := { x.todo with te := false }, pipe := x.pipe ++ [⟨x.hold (t + 2) [(9, 0)], x.slot, .teOut 0 x.eaStoreBytes.1 x.eaStoreBytes.2⟩] })) ∧
    (∀ an, teOp w = 4 → anchorOf (x.ax' (teAx w)) = some an → exec (.teEaload c) s = .next (s'.putCore c
      { x with teOpen := true, teK := 0, teMx := false, teIss := some an.e, todo := { x.todo with te := false }, pipe := x.pipe ++ [⟨x.eaDue (t + 2) 10, x.slot, .eaLoad an.e x.eaInVals⟩] })) ∧
    (teOp w = 5 → exec (.teEaadd c) s = .next (s'.putCore c
      { x with todo := { x.todo with te := false }, pipe := x.pipe ++ [⟨x.eaDue (t + 3) 10, x.slot, .eaAdd x.eaInVals⟩] })) ∧
    (∀ an, teOp w = 6 → anchorOf (x.ax' (teAx w)) = some an → exec (.teReanchor c) s = .next (s'.putCore c
      { x with teOpen := false, teIss := some an.e, todo := { x.todo with te := false }, pipe := x.pipe ++ [⟨x.eaDue (t + 2) 10, x.slot, .eaReanchor an.e⟩] }))

/-! ### Vector engine -/

/-- Each arithmetic VE operation enters the pipeline with the latency of Table 3.6 and the value its rule gives; nothing else moves but the lanes'
anchors in issue order (SUMX, SQSUMX, FOLD, EALOAD). The model's choices that it rests on: log entries 17, 32 and 43. -/
def Obligations.VectorOperationsEnterThePipeline : Prop :=
  ∀ (c : CoreAt) (s s' : State) (x : Core) (w : Word) (t : Nat) (d : Todo),
    s' = s.accept (clusterOf c) → x = s'.core c → w = x.word → t = s'.now c → s'.ready c (·.ve) = true →
    d = { x.todo with ve := false } →
    (veOp w = 1 → exec (.vePipelined c) s = .next (s'.putCore c { x.pushHeld (t + 9) (.vreg (regD w) 16 (x.pipelined w (s'.rounding c)).1
      ((x.pipelined w (s'.rounding c)).2.1.map fun m => (mselOf (cfgMsel (x.cfgWord (veCfgN w))), m)) (x.pipelined w (s'.rounding c)).2.2) with todo := d })) ∧
    (∀ an, veOp w = 2 → anchorOf (x.ax' (veCfgN w)) = some an →
      ∃ l, exec (.veSumx c) s = .next (s'.putCore c { x with laneIss := l, todo := d, pipe := x.pipe ++ [⟨x.eaDue (t + 10) 11, x.slot, .laneSum an.e (sumTerms false (x.vreg (veX w)) an.e)⟩] })) ∧
    (∀ an, veOp w = 3 → anchorOf (x.ax' (veCfgN w)) = some an →
      ∃ l, exec (.veSqsumx c) s = .next (s'.putCore c { x with laneIss := l, todo := d, pipe := x.pipe ++ [⟨x.eaDue (t + 10) 11, x.slot, .laneSum an.e (sumTerms true (x.vreg (veX w)) an.e)⟩] })) ∧
    (veOp w = 4 → ∃ l, exec (.veFold c) s = .next (s'.putCore c { x with laneIss := l, todo := d, pipe := x.pipe ++ [⟨x.eaDue (t + 6) 11, x.slot, .laneFold⟩] })) ∧
    (∀ f, veOp w = 5 → fmtOf (veY w) = some f → exec (.veEaout c) s = .next (s'.putCore c
      { x.pushHeld (t + 4) (.vreg (regD w) 16 (x.eaOut f).1 none (x.eaOut f).2) with todo := d })) ∧
    (∀ an, veOp w = 6 → anchorOf (x.ax' (veCfgN w)) = some an →
      ∃ l, exec (.veEaload c) s = .next (s'.putCore c { x with laneIss := l, todo := d, pipe := x.pipe ++ [⟨x.eaDue (t + 2) 11, x.slot, .laneLoad an.e ((x.vreg (veX w)).extractLsb' 0 80)⟩] })) ∧
    (veOp w = 7 → exec (.veEastore c) s = .next (s'.putCore c { x.pushHeld (t + 2) (.vreg (regD w) 16
      (if (x.laneEA 0).anchored then (x.laneEA 0).ea.a.setWidth 512 else 0) none
      (flagIf ((x.laneEA 0).anchored && (x.laneEA 0).ea.ovf) flEaOvf)) with todo := d })) ∧
    (veOp w = 0xB → exec (.veStatus c) s = .next (s'.putCore c { (x.pushHeld (t + 2) (.vreg (regD w) 16 (x.numStatus.setWidth 512) none 0)).push
      (t + 2) (.statusClear ((x.kreg (veCfgN w % 16)).extractLsb' 0 8)) with todo := d }))

/-- The sparsity operations of the VE (R146 to R167): what each sends down the pipeline, with the latency of Table 3.6. The model's choices that it
rests on: log entries 17, 31, 43, 106 and 107. -/
def Obligations.SparsityOperationsEnterThePipeline : Prop :=
  ∀ (c : CoreAt) (s s' : State) (x : Core) (w : Word) (t : Nat) (d : Todo),
    s' = s.accept (clusterOf c) → x = s'.core c → w = x.word → t = s'.now c → s'.ready c (·.ve) = true →
    d = { x.todo with ve := false } →
    (veOp w = 8 → ∃ p m, prune (decide (16 ≤ veCfgN w)) (x.vreg (veX w)) = (m, p) ∧ exec (.vePrune c) s = .next (s'.putCore c
      { x.pushHeld (t + 14) (.vreg (regD w) 16 p (some (mselOf (veCfgN w / 4), m)) 0) with lastPrune := some t, todo := d })) ∧
    (veOp w = 9 → ∃ v n f, compress (veCfgN w / 8) (veY w) (x.vreg (veX w)) = (v, n, f) ∧ exec (.veCompress c) s = .next (s'.putCore c
      { (x.push (x.hold (t + 6) [(6, 2 * (regD w).val), (6, 2 * (regD w).val + 1)]) (.vreg (regD w) 16 v none f)).push
        (x.hold (x.hold (t + 6) [(6, 2 * (regD w).val), (6, 2 * (regD w).val + 1)]) [(13, 0)]) (.excess n (excessTrap x)) with todo := d })) ∧
    (∀ sel i, veOp w = 0xA → ((veCfgN w / 4 = 0 ∧ sel = selectThreshold (x.vreg (veX w)) (laneOf (x.vreg (veZ w)) 0) ∧ i = .pselThreshold c) ∨
        (veCfgN w / 4 = 1 ∧ sel = selectTopK (x.vreg (veX w)) (laneOf (x.vreg (veZ w)) 1) ∧ i = .pselTopK c)) →
      ∃ u, u = auditSet s'.job.seed (auditRate x) (laneOf (x.vreg (veZ w)) 2) (laneOf (x.vreg (veZ w)) 3) (s'.cluster (clusterOf c)).step sel ∧
        exec i s = .next (s'.putCore c { (x.pushHeld (t + 8) (.vreg (regD w) 3
          (ofLanes [(sel ||| u).setWidth 32, sel.setWidth 32, u.setWidth 32]) (some (mselOf (veCfgN w), sel ||| u)) 0)).push
          (t + 8) (.psel sel u) with todo := d })) ∧
    (veOp w = 0xA → veCfgN w / 4 = 2 → ∃ m a n, x.verdict (x.vreg (veX w)) (laneOf (x.vreg (veZ w)) 0) = (m, a, n) ∧
      exec (.pselVerdict c) s = .next (s'.putCore c { (x.pushHeld (t + 8) (.vreg (regD w) 1
        (ofLanes [placeRow (laneOf (x.vreg (veY w)) 0) (laneOf (x.vreg (veZ w)) 1).toNat m]) (some (mselOf (veCfgN w), m)) 0)).push
        (t + 8) (.audit a n) with todo := d })) ∧
    (veOp w = 0xA → veCfgN w / 4 = 3 → exec (.pselCounts c) s = .next (s'.putCore c
      { (x.pushHeld (t + 8) (.vreg (regD w) 6 x.countsWord none 0)).push (t + 8) .clearCounts with todo := d })) ∧
    (veOp w = 0xA → veCfgN w / 4 = 4 → ∀ a b, a = lane64 (x.vreg (veX w)) 0 → b = lane64 (x.vreg (veX w)) 1 →
      (rateExceeded a b (laneOf (x.vreg (veZ w)) 0) = true → exec (.pselRate c) s = .next (s'.putCore c
        { (x.pushHeld (t + 8) (.maskOnly (mselOf (veCfgN w)) 1)).push (t + 8) (.missRate a b) with todo := d })) ∧
      (rateExceeded a b (laneOf (x.vreg (veZ w)) 0) = false → exec (.pselRate c) s = .next (s'.putCore c
        { x.pushHeld (t + 8) (.maskOnly (mselOf (veCfgN w)) 0) with todo := d }))) ∧
    (veOp w = 0xA → veCfgN w / 4 = 5 → exec (.pselQuant4 c) s = .next (s'.putCore c { x.pushHeld (t + 8) (.vreg (regD w) 16
      (BitVec.ofNat 512 (packBits 4 ((lanes (x.vreg (veX w))).map fun v => quant4 v (laneOf (x.vreg (veZ w)) 0)))) none 0) with todo := d }))

/-! ### Memory engine -/

/-- Address-generator operations (R69, R90, R91): a read or a write is performed at the descriptor's address two cycles after its word, the descriptor
advances when the word says so, and a reset clears the counters and the WRAPPED bit. The model's choices that it rests on: log entry 17. -/
def Obligations.AddressGeneratorOperations : Prop :=
  ∀ (c : CoreAt) (g : Fin 2) (s s' : State) (x y : Core) (w : Word) (t : Nat),
    s' = s.accept (clusterOf c) → x = s'.core c → w = x.word → t = s'.now c → s'.ready c (agTodo g) = true →
    (∀ dest, agOp w g = 1 → readDest (agPort w g) (agPart w g) (descWidth (x.desc g (agDesc w g))) = some dest →
      y = { x with pipe := x.pipe ++ [⟨t + 2, x.slot, .bankRead (x.agAddr g (agDesc w g)).toNat (descWidth (x.desc g (agDesc w g))) dest (x.readLands dest t)⟩] } →
      exec (.agRead c g) s = .next (s'.putCore c ((if agAdv w g then y.agAdvance g (agDesc w g) else y).agDone g))) ∧
    (∀ b, agOp w g = 2 → x.writeSource (agPort w g) (agPart w g) (descWidth (x.desc g (agDesc w g))) = some b →
      y = { x with pipe := x.pipe ++ [⟨t + 2, x.slot, .bankWrite (x.agAddr g (agDesc w g)).toNat
        (b.take (descWidth (x.desc g (agDesc w g))))⟩] } →
      exec (.agWrite c g) s = .next (s'.putCore c ((if agAdv w g then y.agAdvance g (agDesc w g) else y).agDone g))) ∧
    (agOp w g = 3 → ∃ t, exec (.agReset c g) s = .next (s'.putCore c t) ∧ (∀ n, n < 6 → t.agI g (agDesc w g) n = 0) ∧
      t.wrappedBit g (agDesc w g) = false ∧ (∀ e, e < 8 → e ≠ agDesc w g → t.wrappedBit g e = x.wrappedBit g e) ∧
      t = { x with agi := t.agi, wrapped := t.wrapped, todo := t.todo })

/-- Pass-through (R97, R115): the outbound register takes the inbound register that its route entry names, and the neighbour's facing inbound register
receives the same word one cycle later. Deliveries (R69, R113, R114): the one delivery that is due lands at its destination; two that are due on one
target are a LANDING_CONFLICT, and neither lands. The transpose unit (R145): a clean pair of blocks becomes a delivery to the operand latch and one
to the metadata latch; a malformed one raises SPARSE_META, which halts the cluster at the end of the cycle. The fabric side of a scratchpad (R70 to
R74, R95, R96): the access at the oldest head whose bank is free makes its next bank operation; with the last one it ends, and a source read sends
its packets, but a tile segment waits three cycles for its code. A word with an uncorrectable error halts the cluster, and the access is dropped. A
write-back removes the recorded single-bit error. The model's choices that it rests on: log entries 17, 27 and 144. -/
def Obligations.DeliveriesAndTheFabricSide : Prop :=
  (∀ (c : CoreAt) (o : Fin 16) (s s' : State) (x : Core) (d : BitVec 256),
     s' = s.accept (clusterOf c) → x = s'.core c → s'.ready c (fun r => r.pt.getLsbD o.val) = true →
     d = SMap.get 0 x.ptIn (ptSource (x.ptEntry o.val)) →
     ∃ t, exec (.ptForward c o) s = .next t ∧ SMap.get 0 (t.core c).ptOut o.val = d ∧ (t.core c).todo.pt.getLsbD o.val = false ∧
       (t.core c).spad = x.spad ∧ (t.core c).ptIn = x.ptIn ∧ t.clusters = s'.clusters ∧ t.deep = s'.deep ∧
       (∀ n, neighbour c.core (o.val / 4) = some n →
         (t.core (coreIn (clusterOf c) n)).pipe = (s'.core (coreIn (clusterOf c) n)).pipe ++
           [⟨s'.now c + 1, (s'.core (coreIn (clusterOf c) n)).slot, .ptIn (inboundOf o) d⟩])) ∧
  (∀ (c : CoreAt) (s : State) (x : Core) (k : Cluster),
     x = s.core c → k = s.cluster (clusterOf c) →
     k.run = .running → k.accepted = false → k.stallLine = false → s.stallsNow (clusterOf c) = false → x.forwards = [] →
     (∀ p d b, x.pipe.filter (fun p => decide (p.due ≤ k.cycle)) = [p] → p.eff = .land d b → d.targets ≠ [] →
       ∃ t, exec (.deliveryLanding c) s = .next t ∧
         t.core c = ({ x with pipe := x.pipe.filter fun p => !decide (p.due ≤ k.cycle) } : Core).deliver d b ∧
         (t.cluster (clusterOf c)).endFaults = k.endFaults) ∧
     (∀ p q r a b, x.pipe.filter (fun p => decide (p.due ≤ k.cycle)) = [p, q] → p.eff = .land (.kreg r) a → q.eff = .land (.kreg r) b →
       ∃ t, exec (.deliveryLanding c) s = .next t ∧
         t.core c = { x with pipe := x.pipe.filter fun p => !decide (p.due ≤ k.cycle) } ∧
         (t.cluster (clusterOf c)).endFaults = k.endFaults ++ [raised c.core x.slot fLandingConflict])) ∧
  (∀ (c : CoreAt) (s : State) (p : Pending) (h : Bool) (b : Bytes),
     (s.cluster (clusterOf c)).accepted = true → (s.core c).pipe = [p] → p.eff = .land (.transpose h) b →
     (∀ v g, transposeDeliver h b = some (v, g) → ∃ t, exec (.transposeCheck c) s = .next t ∧
       (t.core c).pipe = [⟨p.due, p.slot, .land (.latchA false) v⟩, ⟨p.due, p.slot, .land .metadata g⟩] ∧
       (t.cluster (clusterOf c)).endFaults = (s.cluster (clusterOf c)).endFaults) ∧
     (transposeDeliver h b = none → ∃ t, exec (.transposeCheck c) s = .next t ∧ (t.core c).pipe = [] ∧
       (t.cluster (clusterOf c)).endFaults = (s.cluster (clusterOf c)).endFaults ++ [raised c.core p.slot fSparseMeta])) ∧
  ((∀ (c : CoreAt) (s : State) (x y : Core) (q : Nat) (j : FabricJob) (o : FabricOp) (rest : List FabricOp) (p : Core × FabricJob),
      x = s.core c → s.fabricWorks c = true → x.fabUsed = false → x.generating = [] → s.fabricPick c = some (q, j) → j.ops = o :: rest → p = x.performOp j o →
      y = (if (s.cluster (clusterOf c)).run = .running then (p.1.generate p.2).usedBank o else p.1.generate p.2) →
      (x.opBad o = false → rest ≠ [] → ∃ t, exec (.fabricAccess c) s = .next t ∧ t.core c = y.setHead q { p.2 with ops := rest } ∧
        t.mesh = s.mesh ∧ t.waiting = s.waiting ∧ t.clusters = s.clusters ∧ t.deep = s.deep) ∧
      (x.opBad o = false → rest = [] → j.fin = .header → ∃ t, exec (.fabricAccess c) s = .next t ∧
        t.core c = { y.popHead q with hdrRead := some p.2.got } ∧ t.mesh = s.mesh ∧ t.clusters = s.clusters) ∧
      (x.opBad o = false → rest = [] → j.fin = .done → ∃ t, exec (.fabricAccess c) s = .next t ∧ t.core c = y.popHead q ∧
        t.mesh = s.mesh ∧ t.clusters = s.clusters) ∧
      (∀ ps, x.opBad o = false → rest = [] → j.fin = .send ps none none →
        ∃ t, exec (.fabricAccess c) s = .next t ∧ t.core c = y.popHead q ∧ t.waiting.length = s.waiting.length + ps.length ∧
          (∀ (i : Nat) (a b : Packet), ps[i]? = some a → t.waiting[s.waiting.length + i]? = some b →
            b.pkind = a.pkind ∧ b.dst = a.dst ∧ b.hdr = a.hdr ∧ b.id = s.emitted + i ∧
            b.data = (if a.pkind = 0 ∧ bitsOf a.hdr.toNat 7 6 = 1 then a.data else p.2.got)) ∧
          t.mesh = s.mesh ∧ t.clusters = s.clusters) ∧
      (∀ ps h rel, x.opBad o = false → rest = [] → j.fin = .send ps (some h) rel → ∃ t, exec (.fabricAccess c) s = .next t ∧
        t.core c = { y.popHead q with generating := [(3, { p.2 with ops := [] })] } ∧ t.waiting = s.waiting ∧ t.mesh = s.mesh) ∧
      (x.opBad o = false → rest = [] → j.fin = .token → ∃ t, exec (.fabricAccess c) s = .next t ∧
        (t.core c).steer = { x.steer with toks := x.steer.toks ++ [BitVec.ofNat 32 (leNat p.2.got)] } ∧ (t.core c).spad = y.spad) ∧
      (∀ ep ack, x.opBad o = false → rest = [] → j.fin = .recorded ep ack → ∃ t, exec (.fabricAccess c) s = .next t ∧
        (t.core c).recvEp ep = { y.recvEp ep with recs := landFirst (y.recvEp ep).recs } ∧ (t.core c).spad = y.spad ∧
        t.clusters = s.clusters) ∧
      (∀ ep n st, x.opBad o = false → rest = [] → j.fin = .reply ep n st → ∃ t, exec (.fabricAccess c) s = .next t ∧
        (t.core c).outstanding = x.outstanding.filter (fun o => !(decide (o.serial = n) && decide (o.op ≠ 0))) ∧ (t.core c).spad = y.spad ∧
        t.clusters = s.clusters) ∧
      (x.opBad o = true → (s.cluster (clusterOf c)).run ≠ .halted → ∃ t, exec (.fabricAccess c) s = .next t ∧ t.core c = x.popHead q ∧
        (t.cluster (clusterOf c)).run = .halted ∧ (t.cluster (clusterOf c)).faultCode = some (BitVec.ofNat 16 fSpadUe))) ∧
   (∀ (c : CoreAt) (s : State) (x : Core) (j : FabricJob) (g : List (Nat × FabricJob)) (ps : List Packet) (h : Bytes),
      x = s.core c → s.fabricWorks c = true → (s.cluster (clusterOf c)).run = .running → x.generating = (0, j) :: g → j.fin = .send ps (some h) none →
      ∃ t, exec (.fabricAccess c) s = .next t ∧ t.core c = { x with generating := g } ∧ t.waiting.length = s.waiting.length + ps.length ∧
        t.mesh = s.mesh ∧ t.clusters = s.clusters) ∧
   (∀ (c : CoreAt) (s : State) (x : Core) (w : Nat), x = s.core c → x.wback.find? (fun w => s.bankFree c (bankOf (8 * w))) = some w →
      exec (.spadWriteback c) s = .next (s.putCore c { x with
        wback := x.wback.erase w
        ecc := x.ecc.filter (fun p => decide (p.1 ≠ w))
        fabBanks := x.fabBanks ||| BitVec.ofNat 8 (2 ^ bankOf (8 * w)) })))

/-! ### Channel engine -/

/-- SEND and MSEND of a byte message (R175, R184): credits fall by the record's slots, with those of a skip where it would wrap; SEQ rises once per
record; one source read joins the bulk queue, or waits for it while it is full; nothing leaves the core within the word. A tile SEND, a tile MSEND
and a write on a stream (R157, R181, R184, R268): one record for each segment of the tile, each with the next SEQ and one credit, of every target
where there are several, its granules read from the frame that the word names: SRC_BASE and the frame number times the frame's size. SEND on a read
stream is a demand (R267): it spends one credit, notes the index, and a demand packet leaves for the home moon die. The model's choices that it
rests on: log entries 19 and 141. -/
def Obligations.SendsDebitAndQueue : Prop :=
  (∀ (c : CoreAt) (s s' : State) (x : Core) (w : Word) (e e' : SendEp) (n src : Nat) (wrap : Bool) (i : Instr),
     s' = s.accept (clusterOf c) → x = s'.core c → w = x.word → s'.ready c (·.ce) = true →
     e = x.sendEp (ceEp w) → e.type = 0 →
     (ceOp w = 1 ∧ i = .send c) ∨ (ceOp w = 2 ∧ i = .msend c) →
     n = ceArg w % 64 + 1 → wrap = decide (e.rslots + 1 - e.wpos < n) →
     src = (if (ceArg w).testBit 7 || decide (e.srcSize + 1 < e.srcPos + n) then 0 else e.srcPos) →
     e' = (if e.mcast then { e with tcredits := e.tcredits.map (· - e.need n) } else { e with credits := e.credits - e.need n }) →
     ∃ t job, exec i s = .next t ∧
       (t.core c).sendEp (ceEp w) = { e' with
         seq := e.seq + (if wrap then 2 else 1)
         wpos := ((if wrap then 0 else e.wpos) + n) % (e.rslots + 1)
         srcPos := src + n } ∧
       (t.core c).fqBulk = (x.enqueue 1 job).fqBulk ∧ (t.core c).ceWait = (x.enqueue 1 job).ceWait ∧
       job.ops = readOps (e.srcBase + src * 64 + 16) (64 * n - 16) ∧ job.cycle = s'.now c ∧
       (∀ j, j ≠ ceEp w → (t.core c).sendEp j = x.sendEp j) ∧
       (t.core c).spad = x.spad ∧ (t.core c).re = x.re ∧ (t.core c).todo = { x.todo with ce := false } ∧
       t.mesh = s'.mesh ∧ t.waiting = s'.waiting ∧ t.deep = s'.deep ∧ t.clusters = s'.clusters) ∧
  (∀ (c : CoreAt) (s s' : State) (x : Core) (w : Word) (e : SendEp) (f : FmtRow) (i : Instr),
     s' = s.accept (clusterOf c) → x = s'.core c → w = x.word → s'.ready c (·.ce) = true →
     e = x.sendEp (ceEp w) → e.type = 1 →
     (ceOp w = 1 ∧ e.stream = false ∧ i = .tileSend c) ∨ (ceOp w = 1 ∧ e.stream = true ∧ e.readStream = false ∧ i = .streamWrite c) ∨
       (ceOp w = 2 ∧ i = .msend c) →
     fmtRow (segFmt (x.hdrRead.getD [])) = some f →
     ∃ (t : State) (jobs : List FabricJob), exec i s = .next t ∧ (t.core c).fqBulk = (jobs.foldl (fun y j => y.enqueue 1 j) x).fqBulk ∧
       (t.core c).ceWait = (jobs.foldl (fun y j => y.enqueue 1 j) x).ceWait ∧ jobs.length = 2 ^ f.seglog ∧ (t.core c).hdrRead = none ∧
       (∀ (i : Nat) (j : FabricJob), jobs[i]? = some j → j.cycle = s'.now c ∧
         j.ops = (packRanges (x.hdrRead.getD []) f (e.srcBase + ceArg w * e.srcSize * 64) i).flatMap fun r => readOps r.1 r.2) ∧
       ((t.core c).sendEp (ceEp w)).seq = e.seq + BitVec.ofNat 24 (2 ^ f.seglog) ∧
       (e.mcast = false → ((t.core c).sendEp (ceEp w)).credits = e.credits - 2 ^ f.seglog) ∧
       (e.mcast = true → ((t.core c).sendEp (ceEp w)).tcredits = e.tcredits.map (· - 2 ^ f.seglog)) ∧
       ((t.core c).sendEp (ceEp w)).wpos = (e.wpos + 2 ^ f.seglog) % (e.rslots + 1) ∧
       (∀ j, j ≠ ceEp w → (t.core c).sendEp j = x.sendEp j) ∧
       (t.core c).spad = x.spad ∧ (t.core c).todo = { x.todo with ce := false } ∧
       t.mesh = s'.mesh ∧ t.waiting = s'.waiting ∧ t.deep = s'.deep ∧ t.clusters = s'.clusters) ∧
  (∀ (c : CoreAt) (s s' : State) (x : Core) (w : Word) (e : SendEp),
     s' = s.accept (clusterOf c) → x = s'.core c → w = x.word → s'.ready c (·.ce) = true →
     e = x.sendEp (ceEp w) → ceOp w = 1 → e.readStream = true → e.mcast = false →
     ∃ t, exec (.streamDemand c) s = .next t ∧
       ((t.core c).sendEp (ceEp w)).credits = e.credits - 1 ∧ ((t.core c).sendEp (ceEp w)).srcPos = ceArg w + 1 ∧
       (∃ p ∈ t.waiting, p.pkind = 0xA ∧ p.exit = 1 ∧ p.comp = BitVec.ofNat 3 e.moon ∧ bitsOf p.hdr.toNat 121 107 = e.streamNo ∧
         bitsOf p.hdr.toNat 106 99 = ceArg w) ∧
       t.deep = s'.deep ∧ t.host = s'.host)

/-- RECV_WAIT and RELEASE (R177, R178): a wait marks the oldest records that no earlier wait marked; a release frees the oldest waited records and
returns their slots to the producer: the sending core of this package, the peer of the connection through its link die, or the home of the read
stream; a reply ring has no producer but the core itself. The model's choices that it rests on: log entry 17. -/
def Obligations.ReceivesWaitAndRelease : Prop :=
  ∀ (c : CoreAt) (s s' : State) (x : Core) (w : Word) (e : RecvEp) (n : Nat),
    s' = s.accept (clusterOf c) → x = s'.core c → w = x.word → s'.ready c (·.ce) = true →
    e = x.recvEp (ceEp w) → n = ceArg w + 1 →
    (ceOp w = 3 → (e.unwaited.take n).any (·.ovf) = false → exec (.recvWait c) s = .next (s'.putCore c { x with
      re := SMap.set {} x.re (ceEp w) { e with recs := waitRecs n e.recs }, todo := { x.todo with ce := false } })) ∧
    (ceOp w = 3 → (e.unwaited.take n).any (·.ovf) = true → ∃ t, exec (.recvWait c) s = .next t ∧
      (t.core c).recvEp (ceEp w) = { e with recs := waitRecs n e.recs } ∧
      (t.core c).pipe = x.pipe ++ [⟨s'.now c + 1, x.slot, .statusSet flEaOvf⟩]) ∧
    (ceOp w = 4 → x.demands = [] → ∃ t, exec (.release c) s = .next t ∧
      (t.core c).recvEp (ceEp w) = { e with recs := (freeRecs (e.recs.length + 1) n e.recs).1 } ∧
      (∀ j, j ≠ ceEp w → (t.core c).recvEp j = x.recvEp j) ∧ (t.core c).todo = { x.todo with ce := false } ∧
      (t.core c).spad = x.spad ∧ t.clusters = s'.clusters ∧ t.deep = s'.deep ∧
      (∀ l sep, e.type ≠ 2 → e.peer = none → e.feed = some (l, sep) → l.die.toNat < 24 → (freeRecs (e.recs.length + 1) n e.recs).2 ≠ 0 →
        ∃ p, t.waiting = s'.waiting ++ [p] ∧ p.pkind = 1 ∧ p.exit = 0 ∧ p.dst = l ∧
          p.hdr = (creditBody 0 0 false (freeRecs (e.recs.length + 1) n e.recs).2 (s'.lcore c) sep).setWidth 256) ∧
      (∀ p, e.type ≠ 2 → e.peer = some p → (freeRecs (e.recs.length + 1) n e.recs).2 ≠ 0 →
        ∃ q, t.waiting = s'.waiting ++ [q] ∧ q.pkind = 1 ∧ q.exit = 2 ∧ q.comp.toNat = p.linkDie.toNat ∧ q.dst = p.src ∧
          q.hdr = (creditBody p.conn p.linkDie true (freeRecs (e.recs.length + 1) n e.recs).2 (s'.lcore c) p.ep).setWidth 256) ∧
      (∀ l sep, e.type ≠ 2 → e.peer = none → e.feed = some (l, sep) → 24 ≤ l.die.toNat → (freeRecs (e.recs.length + 1) n e.recs).2 ≠ 0 →
        t.streams = (s'.ringCredit (l.die.toNat - 24) (l.cl.toNat * 64 + l.core.toNat) (freeRecs (e.recs.length + 1) n e.recs).2).streams) ∧
      (e.type = 2 → t.waiting = s'.waiting ∧ t.streams = s'.streams))

/-- The remote forms of RWRITE, RREAD and RATOMIC (R238, R239): one entry in the request queue, and the read of its 32-byte record two cycles after the
word. The local form of RATOMIC (R94, R240) takes its bank in two cycles at the address of its AG0 descriptor and delivers the prior value; the
reduce form of RWRITE (R221) spends a reduction credit, reserves the reply slots and queues its contribution. The model's choices that it rests on:
log entry 16. -/
def Obligations.RemoteRequestsAndLocalAtomics : Prop :=
  (∀ (c : CoreAt) (s s' : State) (x : Core) (w : Word) (t : Nat) (op : BitVec 2) (i : Instr),
     s' = s.accept (clusterOf c) → x = s'.core c → w = x.word → t = s'.now c → s'.ready c (·.ce) = true → ceArg w < 128 →
     (ceOp w = 5 ∧ op = 0 ∧ i = .rwrite c) ∨ (ceOp w = 6 ∧ op = 1 ∧ i = .rread c) ∨ (ceOp w = 7 ∧ op = 2 ∧ i = .ratomic c) →
     exec i s = .next (s'.putCore c { x with
       serial := x.serial + 1
       reqQ := x.reqQ ++ [{ serial := x.serial, op := op, ep := BitVec.ofNat 4 (ceEp w), slot := x.slot, cycle := t }]
       pipe := x.pipe ++ [⟨t + 2, x.slot, .bankRead (x.reqBase.toNat * 64 + ceArg w * 32) 32 (.request x.serial) (t + 2)⟩]
       todo := { x.todo with ce := false } })) ∧
  (∀ (c : CoreAt) (s s' : State) (x y : Core) (w : Word) (t : Nat) (r : Fin 16),
     s' = s.accept (clusterOf c) → x = s'.core c → w = x.word → t = s'.now c → s'.ready c (·.ce) = true →
     (localAtomic w = true → r.val = agPart w 0 % 16 → y = { x with pipe := x.pipe ++
         [⟨t + 2, x.slot, .atomic (x.agAddr 0 (agDesc w 0)).toNat (BitVec.ofNat 2 (fld w 23 22)) (BitVec.ofNat 2 (fld w 21 20))
             (x.kreg (ceEp w)) r (x.hold (t + 7) [(7, r.val)])⟩,
           ⟨t + 3, x.slot, .atomicSecond (x.agAddr 0 (agDesc w 0)).toNat⟩] } →
       ∃ z, z = (if agAdv w 0 then y.agAdvance 0 (agDesc w 0) else y) ∧
         exec (.ratomicLocal c) s = .next (s'.putCore c { z with todo := { z.todo with ce := false } })) ∧
     (∀ d, ceOp w = 5 → 128 ≤ ceArg w → d = (s'.cluster (clusterOf c)).redOf (ceEp w % 16) →
       ∃ t job, exec (.reduceContribute c) s = .next t ∧ (t.core c).fqReduce = (x.enqueue 0 job).fqReduce ∧
         (t.core c).ceWait = ((x.reserve d.replyEp d.l 0 (some ⟨ceEp w % 16, by omega⟩) (s'.now c)).1.enqueue 0 job).ceWait ∧
         job.ops = readOps (d.srcBase + ceArg w % 128 * d.w * 64) d.p ∧
         SMap.get 0 (t.core c).redSpent (ceEp w % 16) = SMap.get 0 x.redSpent (ceEp w % 16) + 1 ∧
         ((t.core c).recvEp d.replyEp).resv = ((x.reserve d.replyEp d.l 0 (some ⟨ceEp w % 16, by omega⟩) (s'.now c)).1.recvEp d.replyEp).resv ∧
         t.mesh = s'.mesh ∧ t.waiting = s'.waiting ∧ t.clusters = s'.clusters))

/-- The check of a request's record three cycles after its word (R238): a good record is marked, a bad one leaves the queue and its fault, with the
address as detail, halts the cluster at the end of the cycle. The oldest checked request leaves the queue (R239, R241): a write waits for its source
read, a read or an atomic goes out at once with its reply slots reserved, in a request packet to its target with the access header of Table 8.7;
each is outstanding from then on. The model's choices that it rests on: log entries 17, 99 and 111. -/
def Obligations.RequestRecordsAreCheckedAndLaunched : Prop :=
  (∀ (c : CoreAt) (s : State) (x : Core) (k : Cluster) (r : Request) (b : BitVec 256),
     x = s.core c → k = s.cluster (clusterOf c) → k.accepted = true →
     x.reqQ = [r] → r.checked = false → r.record = some b → r.cycle + 3 ≤ k.cycle →
     (s.recordFault c r b = none → ∃ t, exec (.requestRecordCheck c) s = .next t ∧
       t.core c = { x with reqQ := [{ r with checked := true }] } ∧ (t.cluster (clusterOf c)).endFaults = k.endFaults) ∧
     (∀ n, s.recordFault c r b = some n → ∃ t, exec (.requestRecordCheck c) s = .next t ∧
       t.core c = { x with reqQ := [] } ∧ (t.cluster (clusterOf c)).endFaults = k.endFaults ++ [raised c.core r.slot n (recFA b)])) ∧
  (∀ (c : CoreAt) (s : State) (x : Core) (r : Request) (q : List Request) (b : BitVec 256),
     x = s.core c → x.reqQ = r :: q → r.record = some b → r.checked = true → s.genhan.held = false →
     (s.cluster (clusterOf c)).run ≠ .halted → (s.cluster (clusterOf c)).run ≠ .stopped →
     (r.op = 0 → ∃ t job o, exec (.requestLaunch c) s = .next t ∧ (t.core c).reqQ = q ∧ (t.core c).fqBulk = (x.enqueue 1 job).fqBulk ∧
       (t.core c).ceWait = (x.enqueue 1 job).ceWait ∧ job.ops = readOps (recLocal b) (recLength b) ∧ (t.core c).outstanding = x.outstanding ++ [o] ∧
       o.serial = r.serial ∧ o.fa = recFA b ∧ o.tag = recTag b ∧ o.isRecord = false ∧ t.mesh = s.mesh ∧ t.waiting = s.waiting ∧ t.clusters = s.clusters) ∧
     (r.op ≠ 0 → (x.recvEp r.ep.toNat).canReserve (replySlots r.op b) = true → ∃ t o, exec (.requestLaunch c) s = .next t ∧
       (t.core c).reqQ = q ∧ (t.core c).fqBulk = (x.reserve r.ep.toNat (replySlots r.op b) r.serial none (s.now c)).1.fqBulk ∧ (t.core c).outstanding = x.outstanding ++ [o] ∧
       o.serial = r.serial ∧ o.fa = recFA b ∧ o.tag = recTag b ∧ o.isRecord = false ∧
       (t.core c).recvEp r.ep.toNat = (x.reserve r.ep.toNat (replySlots r.op b) r.serial none (s.now c)).1.recvEp r.ep.toNat ∧
       (∃ p, t.waiting = s.waiting ++ [p] ∧ p.pkind = 3 ∧ p.txn = some r.serial ∧ p.src = s.lcore c ∧ p.data = [] ∧
         p.hdr = accessHeader b (s.lcore c) r.ep (x.reserve r.ep.toNat (replySlots r.op b) r.serial none (s.now c)).2 (s.requestScope c (recFA b)) r.op ∧
         (faSpace (recFA b) = 3 → p.exit = 3 ∧ p.comp = 0) ∧
         (faSpace (recFA b) ≠ 3 → p.dst = faCore (recFA b)) ∧
         (faSpace (recFA b) ≠ 3 → faPkg (recFA b) = s.pkg → p.exit = 0) ∧
         (faSpace (recFA b) ≠ 3 → faPkg (recFA b) ≠ s.pkg → p.exit = 2 ∧ p.comp = BitVec.ofNat 3
           (if s.linkUp (bitsOf b.toNat 219 217) = false ∧ b.getLsbD 213 = true then bitsOf b.toNat 216 214 else bitsOf b.toNat 219 217))) ∧
       t.mesh = s.mesh ∧ t.clusters = s.clusters))

/-- FENCE, CATCH, CATCH_WAIT, STEER_ARM and STEER_WAIT as they issue (R126, R193, R248, R253). One cycle of the steering unit (R126): a pair at the
heads whose token drops it frees both records; a valid pair whose targets have the credits sends one record to each; a malformed token raises
STEER_TOKEN. The model's choices that it rests on: log entries 30 and 124. -/
def Obligations.OrderingCatchAndSteering : Prop :=
  (∀ (c : CoreAt) (s s' : State) (x : Core) (w : Word) (d : Todo),
     s' = s.accept (clusterOf c) → x = s'.core c → w = x.word → s'.ready c (·.ce) = true → d = { x.todo with ce := false } →
     (ceOp w = 8 → ceArg w < 3 → exec (.fence c) s = .next (s'.putCore c { x with todo := d })) ∧
     (ceOp w = 8 → 3 ≤ ceArg w → ∃ t, exec (.fence c) s = .next t ∧ t.core c = { x with runAhead := [], todo := d } ∧
       (∀ m st r b, (m, st) ∈ s'.streams → s'.coreAt (st.owner s'.pkg) = some c → s'.coreAt (st.rcv s'.pkg) = some r → b ∈ (t.core r).runAhead → b.stream ≠ m) ∧
       t.clusters = s'.clusters ∧ t.streams = s'.streams ∧ t.deep = s'.deep) ∧
     (ceOp w = 9 → ∃ t, exec (.catch_ c) s = .next t ∧
       SMap.get 0 (t.core c).joined (ceEp w % 16) = ((s'.cluster (clusterOf c)).catchOf (ceEp w % 16)).released + 1 ∧
       (t.core c).todo = d ∧ (t.core c).spad = x.spad ∧ t.deep = s'.deep) ∧
     (ceOp w = 10 → ∃ t, exec (.catchWait c) s = .next t ∧
       t.core c = { x with waited := SMap.set 0 x.waited (ceEp w) (SMap.get 0 x.joined (ceEp w)), todo := d } ∧ t.mesh = s'.mesh) ∧
     (ceOp w = 11 → exec (.steerArm c) s = .next (s'.putCore c { x with
       steer := { x.steer with pending := x.steer.pending + (ceArg w + 1) }, todo := d })) ∧
     (ceOp w = 12 → exec (.steerWait c) s = .next (s'.putCore c { x with todo := d }))) ∧
  (∀ (c : CoreAt) (s : State) (x : Core) (tk : BitVec 32) (d : Rec),
     (s.core c).steer.enabled = true → (s.cluster (clusterOf c)).run = .running → x = (s.core c).takeIn (s.now c) →
     x.steer.pending ≠ 0 → x.steer.dq ≠ 0 → x.token = some tk → (x.recvEp x.steer.dataEp).head = some d →
     (tokenOk tk x.steer.outMask = false → ∃ t, exec (.steerCycle c) s = .next t ∧ (t.cluster (clusterOf c)).run = .halted ∧
       (t.cluster (clusterOf c)).faultCode = some (BitVec.ofNat 16 fSteerToken) ∧ t.core c = x) ∧
     (tokenOk tk x.steer.outMask = true → bitsOf tk.toNat 31 30 = 2 → ∃ t, exec (.steerCycle c) s = .next t ∧
       (t.core c).steer = { x.steer with tq := x.steer.tq - 1, dq := x.steer.dq - 1, toks := x.steer.toks.drop 1, pending := x.steer.pending - 1, k := x.steer.k + 1 } ∧
       (t.core c).fqBulk = x.fqBulk ∧ (t.core c).spad = x.spad) ∧
     (tokenOk tk x.steer.outMask = true → bitsOf tk.toNat 31 30 < 2 → s.genhan.held = false →
       (∀ i ∈ tokenTargets tk, (x.sendEp i.val).hasCredit ((x.sendEp i.val).need d.slots) = true) → ∃ (t : State) (jobs : List FabricJob), exec (.steerCycle c) s = .next t ∧
       (t.core c).steer = { x.steer with tq := x.steer.tq - 1, dq := x.steer.dq - 1, toks := x.steer.toks.drop 1, pending := x.steer.pending - 1, k := x.steer.k + 1 } ∧
       (t.core c).fqBulk = (jobs.foldl (fun y j => y.enqueue 1 j) x).fqBulk ∧
       (t.core c).ceWait = (jobs.foldl (fun y j => y.enqueue 1 j) x).ceWait ∧ jobs.length = (tokenTargets tk).length ∧ (t.core c).spad = x.spad))

/-- OPEN and CLOSE (R185 to R187): an OPEN makes its connection PENDING and sends the request through the endpoint's link die, or through the declared
alternate when no port of it carries traffic; a CLOSE follows Table 6.10. OPEN and CLOSE at the link die (R185, R186): an OPEN whose entry is there
takes a free index of the connection table and ties the receive endpoint to it; a CLOSE of its owner frees the index. At the sender (R185, R186,
R188): the answer opens a PENDING endpoint with the ring's state, or fails it with its status; the answer of a CLOSE closes it; a BROKEN notice
marks an open one. The model's choices that it rests on: log entries 12, 48, 49, 101, 102 and 131. -/
def Obligations.ConnectionsThroughTheirLife : Prop :=
  (∀ (c : CoreAt) (s s' : State) (x : Core) (w : Word) (e : SendEp),
     s' = s.accept (clusterOf c) → x = s'.core c → w = x.word → s'.ready c (·.ce) = true → e = x.sendEp (ceEp w) →
     (ceOp w = 13 → ∃ t p, exec (.open_ c) s = .next t ∧
       (t.core c).sendEp (ceEp w) = { e with conn := .pending, viaAlt := !s'.linkUp e.linkDie && e.altValid, broken := false, closeAfter := false } ∧
       t.waiting = s'.waiting ++ [p] ∧ t.mesh = s'.mesh ∧ p.pkind = 9 ∧ p.exit = 2 ∧
       p.comp = BitVec.ofNat 3 (if !s'.linkUp e.linkDie && e.altValid then e.altLinkDie else e.linkDie) ∧
       (∀ j, j ≠ ceEp w → (t.core c).sendEp j = x.sendEp j) ∧ t.clusters = s'.clusters) ∧
     (ceOp w = 14 → e.conn = .open_ → ∃ t, exec (.close c) s = .next t ∧ (t.core c).sendEp (ceEp w) = { e with conn := .closing } ∧
       (∀ j, j ≠ ceEp w → (t.core c).sendEp j = x.sendEp j) ∧ t.clusters = s'.clusters) ∧
     (ceOp w = 14 → e.conn = .pending → exec (.close c) s = .next (s'.putCore c { x with
       se := SMap.set {} x.se (ceEp w) { e with closeAfter := true }, todo := { x.todo with ce := false } })) ∧
     (ceOp w = 14 → e.conn = .failed → exec (.close c) s = .next (s'.putCore c { x with
       se := SMap.set {} x.se (ceEp w) { e with conn := .closed, openStatus := 0 }, todo := { x.todo with ce := false } }))) ∧
  (∀ (l : Fin 8) (b : BitVec 256) (s : State), s.waits (isForComp 2 l.val 9 b []) = false →
     (∀ c, s.freeConns l.val ≠ [] → s.openStatus b = 0 → s.coreAt (ccDst b) = some c →
       ∃ t i, exec (.openRequest l b) s = .next t ∧ i ∈ s.freeConns l.val ∧ t.conn l.val i = connEntry b ∧
         ((t.core c).recvEp (ccDstEp b).toNat).peer = some { linkDie := BitVec.ofNat 3 l.val, conn := BitVec.ofNat 12 i, src := ccSrc b, ep := ccSrcEp b } ∧
         (∀ j, j < 4096 → j ≠ i → t.conn l.val j = s.conn l.val j) ∧ t.clusters = s.clusters) ∧
     (s.openStatus b ≠ 0 → ∃ t, exec (.openRequest l b) s = .next t ∧ t.conns = s.conns ∧ t.cores = s.cores) ∧
     (∀ i, i = (ccConn b).toNat → (s.conn l.val i).getLsbD 127 = true → entryPeer (s.conn l.val i) = ccSrc b →
       entryPeerEp (s.conn l.val i) = ccSrcEp b →
       ∃ t, exec (.closeRequest l b) s = .next t ∧ t.conn l.val i = 0 ∧ (∀ j, j < 4096 → j ≠ i → t.conn l.val j = s.conn l.val j))) ∧
  (∀ (c : CoreAt) (b : BitVec 256) (s : State) (e : SendEp), e = (s.core c).sendEp (ccSrcEp b).toNat → s.waits (s.isFor c 9 b []) c.core.val = false →
     (e.conn = .pending → e.closeAfter = false → ccStatus b = 0 → ∃ t, exec (.answer c b) s = .next t ∧
       (t.core c).sendEp (ccSrcEp b).toNat = { e with
         conn := .open_, openStatus := 0, broken := false, connIndex := ccConn b, tgtLinkDie := ccTgtLink b
         rslots := bitsOf b.toNat 155 145, wpos := bitsOf b.toNat 144 134, credits := bitsOf b.toNat 133 122, seq := b.extractLsb' 98 24 } ∧
       t.clusters = s.clusters) ∧
     (e.conn = .pending → e.closeAfter = false → ccStatus b ≠ 0 → ccStatus b < 6 → ∃ t, exec (.answer c b) s = .next t ∧
       (t.core c).sendEp (ccSrcEp b).toNat = { e with conn := .failed, openStatus := ccStatus b } ∧ t.clusters = s.clusters) ∧
     (e.conn = .closing → ∃ t, exec (.closeAnswer c b) s = .next t ∧
       (t.core c).sendEp (ccSrcEp b).toNat = { e with conn := .closed, credits := 0, broken := false } ∧ t.clusters = s.clusters) ∧
     (e.conn = .open_ → ∃ t, exec (.broken c b) s = .next t ∧ (t.core c).sendEp (ccSrcEp b).toNat = { e with broken := true } ∧
       t.clusters = s.clusters))

/-! ### Cluster -/

/-- An armed cluster starts in the first cycle at or after the Launch Count (R116), and the job runs; once every core has halted and nothing of theirs
is pending, the cluster is complete, and with the last of them the job (Table 11.10). The procedure between two starts of a job (R133, R197): a
finished transfer loads the phase's run; the root starts the job 10 ms after it is ready; READY is kept, NOT_READY or a time-out leads to HOLD at
the root, HOLD leaves the job HALTED, and RELAUNCH arms it at the count given. The model's choices that it rests on: log entries 12 and 39. -/
def Obligations.LaunchesAndRelaunches : Prop :=
  (∀ (k : ClusterAt) (s : State) (x : Cluster), x = s.cluster k →
     (x.run = .held → x.armed = true → s.time.running = true → s.job.launch.toNat ≤ s.time.sc.toNat → s.job.state = .running →
       exec (.clusterLaunch k) s = .next (s.putCluster k { x with run := .running, armed := false })) ∧
     (x.run = .held → x.armed = true → s.time.running = true → s.job.launch.toNat ≤ s.time.sc.toNat → s.job.state = .armed →
       ∃ t, exec (.clusterLaunch k) s = .next t ∧ t.cluster k = { x with run := .running, armed := false } ∧ t.job.state = .running ∧
         t.job = { s.job with state := .running } ∧ t.cores = s.cores ∧ t.deep = s.deep) ∧
     (x.run = .running → x.accepted = false → (∀ i, (s.core (coreIn k i)).halted = true) → (∀ i, (s.core (coreIn k i)).settledAll = true) →
       s.job.state = .running → s.job.between = .none →
       ∃ t, exec (.clusterComplete k) s = .next t ∧ t.cluster k = { x with run := .complete, stallLine := false } ∧ t.cores = s.cores ∧
         t.deep = s.deep ∧
         t.job.state = (if s.job.members.all (fun j => decide (j = k) || decide ((s.cluster j).run = .complete)) then .halted else .running))) ∧
  (∀ (s : State), s.job.state = .running →
     (∀ q, s.job.between = .transfer q true → (∀ k ∈ s.job.members, (s.cluster k).run = .complete) → s.timeOk = false →
       ∃ t, exec .phaseTransferComplete s = .next t ∧ t.job.between = .phaseRun q ∧ t.job.relOwnDone = true) ∧
     (∀ q, s.job.between = .transfer q true → (∀ k ∈ s.job.members, (s.cluster k).run = .complete) → s.timeOk = true →
       s.job.relParent = none → s.job.relChildren = [] →
       ∃ t, exec .phaseTransferComplete s = .next t ∧ t.job.phase = q ∧ t.job.launch = s.time.sc + 10000000) ∧
     (∀ child, s.waits (isForGenhan (some child) (coxBody 3 0 none false s.job.tag)) = false → s.job.relOwnDone = false → ∃ t, exec (.relaunchReady child) s = .next t ∧
       t.job = { s.job with relReady := (s.job.relReady ++ [child]).dedup } ∧ t.clusters = s.clusters) ∧
     (∀ child, s.waits (isForGenhan (some child) (coxBody 4 0 none false s.job.tag)) = false → s.job.relParent = none → ∃ t, exec (.relaunchNotReady child) s = .next t ∧ t.job.state = .halted ∧ t.job.between = s.job.between.change ∧
       t.job.tag = s.job.tag ∧ t.clusters = s.clusters) ∧
     (∀ tag count, s.waits (isForGenhan none (coxBody 5 0 none false tag count)) = false → tag = s.job.tag → s.job.between.waits = true → ∃ t, exec (.relaunch tag count) s = .next t ∧ t.job.launch = count ∧
       t.job.tag = s.job.tag ∧ t.cores = s.cores) ∧
     (∀ tag, s.waits (isForGenhan none (coxBody 6 0 none false tag)) = false → tag = s.job.tag → s.job.between.waits = true → ∃ t, exec (.relaunchHold tag) s = .next t ∧ t.job.state = .halted ∧
       t.job.between = s.job.between.change ∧ t.clusters = s.clusters) ∧
     (s.job.relOwnDone = true → s.timeOk = false → s.job.relParent = none → ∃ t, exec .relaunchTimeout s = .next t ∧ t.job.state = .halted ∧
       t.job.relOwnDone = false ∧ t.clusters = s.clusters))

/-! ### Mesh -/

/-- One hop of a flit (R203, R204, R207, R208, R213, R218): a packet that is the first of its buffer, and whose next flit may go and wins its output
ports, sends it on by its dimension order: the first flit opens the packet's place in the buffer beyond, last of all, a later one joins it there,
and the last leaves nothing behind; each takes a credit of that buffer and gives back one of the buffer it leaves. A multicast copy at its fork goes
on in all its branches at once. A packet that is not first, may not go or does not win stays. One with a reserved header is discarded and noted
(R205); one that is to go over a failed link is lost (R206). A packet at its source enters the mesh in the same way. A link or hull channel that
fails (R206) is used no more, the packet in it is lost, and Genhan receives MESH_LINK_FAIL: class H within a die, class E on a hull channel. A hull
channel fails as one for its eight edge cores (R212) and in both directions. The model's choices that it rests on: log entries 12, 55 and 100. -/
def Obligations.PacketsHopAndFailedLinks : Prop :=
  (∀ (s : State),
     (∀ (i : Nat) (p : Packet), s.mesh[i]? = some p → p.out = false → s.onAt p.at_.1 p.at_.2 = true →
       (firstInBuffer s.mesh i p = true → p.proper = true → s.intoDead p = false → s.delayedAt p = false → s.mayGo p = true → s.wins i p = true →
         (∀ o, p.forking = false → s.stopsAt p = false → o = (match p.passing.step with
             | some (d, b) => (d, p.passing.moved b d)
             | none => (if p.exit = 0 then 4 else 5, p.passing.taken)) →
           ∃ (t : State) (left : List Packet), exec (.packetHop i) s = .next t ∧
             left = (if p.gone + 1 = p.flits then s.mesh.eraseIdx i else s.mesh.set i { p with gone := p.gone + 1, wait := none }) ∧
             (p.gone = 0 → t.mesh = left ++ [{ o.2 with come := 1 }]) ∧
             (p.gone ≠ 0 → t.mesh = left.map fun r =>
               if r.id = o.2.id ∧ r.come < r.flits ∧ sameBuffer r o.2 = true then { r with come := r.come + 1 } else r) ∧
             t.spent = (let f := SMap.set 0 s.spent p.buffer (SMap.get 0 s.spent p.buffer - 1)
               if o.2.out then f else SMap.set 0 f o.2.buffer (SMap.get 0 f o.2.buffer + 1)) ∧
             t.rr = SMap.set 0 s.rr (linkNo o.2.link) (ptrAfter (SMap.get 0 s.rr (linkNo o.2.link)) p.lane) ∧
             t = { s with mesh := t.mesh, spent := t.spent, cuts := t.cuts, rr := t.rr, ctr := t.ctr }) ∧
         (p.forking = true → p.gone = 0 → p.flits = 1 → ∃ t, exec (.packetHop i) s = .next t ∧
           t.mesh = s.mesh.eraseIdx i ++ p.fork.map (fun b => match b.1 with
             | some d => { b.2.moved (beyond p.at_ d) d with come := 1 }
             | none => { b.2.taken with come := 1 }) ∧
           t = { s with mesh := t.mesh, spent := t.spent, cuts := t.cuts, rr := t.rr, ctr := t.ctr })) ∧
       (firstInBuffer s.mesh i p = false ∨ (p.proper = true ∧ s.intoDead p = false ∧ (s.delayedAt p = true ∨ s.mayGo p = false ∨ s.wins i p = false)) →
         exec (.packetHop i) s = .next s) ∧
       (firstInBuffer s.mesh i p = true → p.proper = false → ∃ t, exec (.packetHop i) s = .next t ∧
         t.mesh = s.mesh.filter (fun q => decide (q.id ≠ p.id)) ∧
         (∃ x, t.genhan.notes = s.genhan.notes ++ [(0x000A, x)]) ∧ t.cores = s.cores ∧ t.clusters = s.clusters ∧ t.deep = s.deep) ∧
       (firstInBuffer s.mesh i p = true → p.proper = true → s.intoDead p = true → ∃ t, exec (.packetHop i) s = .next t ∧
         t.mesh = s.mesh.filter (fun q => decide (q.id ≠ p.id)) ∧ t.cores = s.cores ∧ t.genhan = s.genhan)) ∧
     (∀ (j : Nat) (p q : Packet), s.waiting[j]? = some p → s.firstAtSource j p = true → p.gone = 0 → p.wait = none → s.entryDelay p = none →
       s.routed p = some q → s.mayEnter q = true → s.winsEdge j q = true →
       ∃ t, exec (.packetHop (s.mesh.length + j)) s = .next t ∧ t.mesh = s.mesh ++ [{ q.arriving with come := 1 }] ∧
         t.waiting = (if q.gone + 1 = q.flits then s.waiting.eraseIdx j else s.waiting.set j { q with gone := q.gone + 1, wait := none }) ∧
         t.spent = SMap.set 0 s.spent q.buffer (SMap.get 0 s.spent q.buffer + 1) ∧ t.cores = s.cores ∧ t.clusters = s.clusters ∧ t.deep = s.deep)) ∧
  (∀ (col row : BitVec 10) (port : Fin 5) (hull : Bool) (s : State) (l : Nat × Nat × Nat), l = linkKey (col.toNat, row.toNat) port.val →
     ∃ t e, exec (.meshLinkFail col row port hull) s = .next t ∧ t.genhan.reports = s.genhan.reports ++ [{ entry := e }] ∧
       e.extractLsb' 0 16 = 0x21 ∧ e.extractLsb' 50 2 = (if hull then 1 else 2) ∧
       t.genhan.deadLinks = s.genhan.deadLinks ++ (if hull then [l, linkInto (col.toNat, row.toNat) port.val] else [l]) ∧
       t.mesh = (s.dropFailed l).mesh ∧
       t.cores = s.cores ∧ t.clusters = s.clusters ∧ t.deep = s.deep ∧ t.job = s.job)

/-! ### Arrivals at a core -/

/-- A channel record (R96, R179, R180): one that is in sequence, in position and has room takes its slots at the write position of its ring, and its
bytes, header first, go to the fabric side; any other halts the cluster with CHANNEL_PROTO and writes nothing. A record for which the bulk queue has
no room (R72), or whose packet is not yet the first of its buffer (R210), is not taken. A tile segment (R158, R182): one whose check fails halts the
cluster and writes nothing; a good one goes to the fabric side for the frame of the tile with its tile record behind it, and the last segment of a
tile completes it. A credit return (R178, R179) adds its slots to the sender's credits; one that would lift them above the ring's size halts the
cluster with CHANNEL_PROTO. The model's choices that it rests on: log entries 12, 18, 110, 140 and 142. -/
def Obligations.ChannelArrivalsLand : Prop :=
  (∀ (c : CoreAt) (h : BitVec 128) (payload : Bytes) (s : State) (x : Core) (e : RecvEp) (f : Packet → Bool),
     x = s.core c → e = x.recvEp (hdrEp h) → s.offline (clusterOf c) = false → f = s.isFor c 0 (h.setWidth 256) payload →
     (x.fabricRoom 1 = false ∨ s.waits f c.core.val = true → exec (.channelRecordArrival c h payload) s = .next s) ∧
     (x.fabricRoom 1 = true → s.waits f c.core.val = false → e.takes h payload = true →
       ∃ t, exec (.channelRecordArrival c h payload) s = .next t ∧
       (t.core c).recvEp (hdrEp h) = { e with
         recs := e.recs ++ [{ kind := BitVec.ofNat 2 (hdrKind h), pos := e.wpos, slots := hdrSlots h, landed := false }]
         wpos := (e.wpos + hdrSlots h) % e.slots
         expSeq := e.expSeq + 1 } ∧
       (t.core c).fqBulk = x.fqBulk ++ [{
         ops := writeOps (e.base + e.wpos * 64) (leBytes 16 h.toNat ++ payload)
         fin := .recorded (hdrEp h) (some h), cycle := s.now c }] ∧
       (∀ j, j ≠ hdrEp h → (t.core c).recvEp j = x.recvEp j) ∧ (t.core c).se = x.se ∧ (t.core c).spad = x.spad ∧
       t.mesh = (s.arrived f c.core.val).mesh ∧ t.clusters = s.clusters ∧ t.deep = s.deep) ∧
     (x.fabricRoom 1 = true → s.waits f c.core.val = false → e.takes h payload = false → (s.cluster (clusterOf c)).run ≠ .halted →
       ∃ t, exec (.channelRecordArrival c h payload) s = .next t ∧
       (t.cluster (clusterOf c)).run = .halted ∧ (t.cluster (clusterOf c)).faultCode = some (BitVec.ofNat 16 fChannelProto) ∧
       t.cores = s.cores)) ∧
  (∀ (c : CoreAt) (h : BitVec 128) (seg : Bytes) (s : State) (x : Core) (e : RecvEp) (base : Nat),
     x = s.core c → e = x.recvEp (hdrEp h) → s.offline (clusterOf c) = false → x.fabricRoom 1 = true →
     s.waits (s.isFor c 0 (h.setWidth 256) seg) c.core.val = false →
     e.valid = true → e.type = 1 → hdrKind h = 2 → hdrClean h = true → hdrSeq h = e.expSeq → 1 ≤ e.free → hdrSlots h = 1 →
     base = e.frameBase + e.tile % e.frames * e.frameStride →
     (draocOk seg = false → (s.cluster (clusterOf c)).run ≠ .halted → ∃ t, exec (.tileSegmentArrival c h seg) s = .next t ∧
       (t.cluster (clusterOf c)).run = .halted ∧ (t.cluster (clusterOf c)).faultCode = some (BitVec.ofNat 16 fCheckFail) ∧
       t.core c = { x with draocChk := partialCode seg }) ∧
     (∀ w, draocOk seg = true → segmentOk seg = true → segSeg seg = e.seg → segSeglog seg = e.seglog → rangeOk seg e.frameStride = true →
       unpackWrites seg = (w, false) →
       ∃ t, exec (.tileSegmentArrival c h seg) s = .next t ∧
         (t.core c).recvEp (hdrEp h) = { e with
           recs := e.recs ++ [{ kind := 2, pos := e.wpos, slots := 1, landed := false }]
           wpos := (e.wpos + 1) % e.slots
           expSeq := e.expSeq + 1
           seg := if e.seg + 1 = 2 ^ e.seglog then 0 else e.seg + 1
           tile := if e.seg + 1 = 2 ^ e.seglog then e.tile + 1 else e.tile } ∧
         (t.core c).fqBulk = x.fqBulk ++ [{
           ops := (w.flatMap fun p => writeOps (base + p.1) p.2) ++
             writeOps (e.base + e.wpos * 64) (leBytes 16 (withFrame h (e.tile % e.frames)).toNat ++ List.replicate 48 0)
           fin := .recorded (hdrEp h) (some h), cycle := s.now c }] ∧
         (t.core c).spad = x.spad ∧ (t.core c).se = x.se ∧ t.clusters = s.clusters ∧ t.deep = s.deep)) ∧
  (∀ (c : CoreAt) (b : BitVec 128) (s : State) (x : Core) (e : SendEp),
     x = s.core c → e = x.sendEp (creditEp b) → s.waits (s.isFor c 1 (b.setWidth 256) []) c.core.val = false →
     (e.mcast = false → e.credits + e.withheld + creditSlots b ≤ e.rslots + 1 → e.toWithhold = 0 →
       ∃ t, exec (.creditReturn c b) s = .next t ∧ (t.core c).sendEp (creditEp b) = { e with credits := e.credits + creditSlots b } ∧
         (∀ j, j ≠ creditEp b → (t.core c).sendEp j = x.sendEp j) ∧ (t.core c).spad = x.spad ∧ t.clusters = s.clusters) ∧
     (∀ j, e.mcast = true → (s.targetsOf c e).findIdx? (fun t => decide (t = creditFrom s.pkg b)) = some j → e.toWithhold = 0 →
       e.tcredits.getD j 0 + e.twithheld.getD j 0 + creditSlots b ≤ e.rslots + 1 → j < e.tcredits.length →
       ∃ t, exec (.creditReturn c b) s = .next t ∧
         ((t.core c).sendEp (creditEp b)).tcredits.getD j 0 = e.tcredits.getD j 0 + creditSlots b ∧
         (∀ i, i ≠ j → ((t.core c).sendEp (creditEp b)).tcredits.getD i 0 = e.tcredits.getD i 0) ∧ t.clusters = s.clusters) ∧
     (e.mcast = false → e.rslots + 1 < e.credits + e.withheld + creditSlots b → (s.cluster (clusterOf c)).run ≠ .halted →
       ∃ t, exec (.creditReturn c b) s = .next t ∧ t.cores = s.cores ∧ (t.cluster (clusterOf c)).run = .halted ∧
         (t.cluster (clusterOf c)).faultCode = some (BitVec.ofNat 16 fChannelProto)))

/-- Remote accesses at their target (R72, R241, R242, R245): within a window they go to the fabric side; outside every window nothing is read or written
and the refusal is counted. The bank operations of remote accesses as the fabric side makes them (R93, R245, R246): a write stores its bytes; ADD,
COMPARE_COUNT and BIN change the one word that they name, and nothing else. An access to the host window (R242, R304) becomes a posted write to host
memory when the window is open and holds it; a request outside it reaches no host memory. No scratchpad changes. The model's choices that it rests
on: log entries 12, 16 and 97. -/
def Obligations.RemoteAccessesAndTheHostWindow : Prop :=
  (∀ (c : CoreAt) (a : BitVec 256) (s : State) (x : Core) (off n : Nat),
     x = s.core c → off = faOffset (accFA a) → n = accLength a → faSpace (accFA a) ≠ 3 → s.offline (clusterOf c) = false →
     x.fabricRoom 1 = true →
     (∀ data f, f = s.isFor c 2 a data → s.waits f c.core.val = false →
       (x.admits 125 off n (accSrc a) = true → ∃ t, exec (.remoteWrite c a data) s = .next t ∧
         t.core c = { x with fqBulk := x.fqBulk ++ [{
           ops := writeOps off (data.take n)
           fin := .written a, cycle := s.now c, txn := s.txnOf f c.core.val }] } ∧ t.clusters = s.clusters ∧ t.deep = s.deep) ∧
       (x.admits 125 off n (accSrc a) = false → ∃ t, exec (.remoteWrite c a data) s = .next t ∧ t.cores = s.cores ∧
         t.ctr = (s.count 1 (coreUnit c) 0 5).ctr)) ∧
     (∀ hst f, f = s.isFor c 3 a [] → s.waits f c.core.val = false →
       (x.admits 126 off n (accSrc a) = true → ∃ t, exec (.remoteReadRequest c a hst) s = .next t ∧
         t.core c = { x with fqBulk := x.fqBulk ++ [{ ops := readOps off n, fin := .replied a, cycle := s.now c, txn := s.txnOf f c.core.val }] } ∧
         t.clusters = s.clusters ∧ t.deep = s.deep) ∧
       (x.admits 126 off n (accSrc a) = false → ∃ t, exec (.remoteReadRequest c a hst) s = .next t ∧ t.cores = s.cores ∧
         t.ctr = (s.count 1 (coreUnit c) 0 5).ctr) ∧
       (∀ sp, sp = atomicWindow off a → x.admits 124 sp.1 sp.2 (accSrc a) = true → off % atopAlign (accAtop a).toNat = 0 →
         ∃ t, exec (.remoteAtomicRequest c a) s = .next t ∧
           t.core c = { x with fqBulk := x.fqBulk ++ [{
             ops := [.atomic off (accAtop a) (accCond a) (accValue a)], fin := .replied a
             cycle := s.now c, txn := s.txnOf f c.core.val }] } ∧ t.clusters = s.clusters) ∧
       (∀ sp, sp = atomicWindow off a → x.admits 124 sp.1 sp.2 (accSrc a) = false → ∃ t, exec (.remoteAtomicRequest c a) s = .next t ∧
         t.cores = s.cores ∧ t.ctr = (s.count 1 (coreUnit c) 0 5).ctr))) ∧
  (∀ (c : CoreAt) (s : State) (x : Core) (q : Nat) (j : FabricJob) (a : BitVec 256),
     x = s.core c → s.fabricWorks c = true → x.fabUsed = false → x.generating = [] → s.fabricPick c = some (q, j) → j.fin = .written a ∨ j.fin = .replied a →
     (∀ o b, j.ops = [.write o b] → x.opBad (.write o b) = false → ∃ t, exec (.fabricAccess c) s = .next t ∧
       (t.core c).spad = (x.write o b).spad ∧ t.clusters = s.clusters ∧ t.deep = s.deep) ∧
     (∀ o cd v, j.ops = [.atomic o 0 cd v] → x.opBad (.atomic o 0 cd v) = false → ∃ t, exec (.fabricAccess c) s = .next t ∧
       (t.core c).read o 4 = leBytes 4 (BitVec.ofNat 32 (leNat (x.read o 4)) + v).toNat ∧
       (∀ b, b < o ∨ o + 4 ≤ b → (t.core c).read b 1 = x.read b 1) ∧ t.clusters = s.clusters) ∧
     (∀ o cd v, j.ops = [.atomic o 1 cd v] → x.opBad (.atomic o 1 cd v) = false → ∃ t, exec (.fabricAccess c) s = .next t ∧
       (t.core c).read (o + 4) 4 = (if condHolds cd (BitVec.ofNat 32 (leNat (x.read o 4))) v then
         leBytes 4 (BitVec.ofNat 32 (leNat (x.read (o + 4) 4)) + 1).toNat else x.read (o + 4) 4) ∧
       (∀ b, b < o + 4 ∨ o + 8 ≤ b → (t.core c).read b 1 = x.read b 1) ∧ t.clusters = s.clusters) ∧
     (∀ o cd (v : BitVec 32) m, j.ops = [.atomic o 2 cd v] → m = o + 4 * (v.toNat % 16) → x.opBad (.atomic o 2 cd v) = false →
       ∃ t, exec (.fabricAccess c) s = .next t ∧
         (t.core c).read m 4 = leBytes 4 (BitVec.ofNat 32 (leNat (x.read m 4)) + 1).toNat ∧
         (∀ b, b < m ∨ m + 4 ≤ b → (t.core c).read b 1 = x.read b 1) ∧ t.clusters = s.clusters)) ∧
  (∀ (c : CoreAt) (a : BitVec 256) (data : Bytes) (hst : Option Bytes) (s : State), faSpace (accFA a) = 3 →
     s.waits (isForComp 3 0 2 a data) = false → s.waits (isForComp 3 0 3 a []) = false →
     (s.windowHolds a = true → ∃ t, exec (.remoteWrite c a data) s = .next t ∧ t.cores = s.cores ∧
       t.out = s.out ++ [.hostWrite (s.windowAddr a) (data.take (accLength a))]) ∧
     (s.windowHolds a = false → ∃ t, exec (.remoteWrite c a data) s = .next t ∧ t.cores = s.cores ∧ t.out = s.out) ∧
     (∃ t, exec (.remoteReadRequest c a hst) s = .next t ∧ t.cores = s.cores ∧ t.out = s.out ∧ t.deep = s.deep ∧
       (s.windowHolds a = true → hst = none → t.host.aer = (s.logRead .window).host.aer)))

/-- Answers at the issuer (R239, R241 to R243): a reply goes to the fabric side for its reserved slots, and an acknowledgement ends its outstanding
write; an error status waits for the word that consumes it; a request without an answer completes with NO_PATH, and an answer that still comes is
late: it is discarded and counted. The model's choices that it rests on: log entries 12 and 99. -/
def Obligations.AnswersEndRequests : Prop :=
  ∀ (c : CoreAt) (s : State) (x : Core), x = s.core c →
    (∀ pos msg rep data f g o, hdrKind msg = 3 → hdrClean msg = true → f = s.isReply c pos msg rep data → s.routerHolds c 1 = false →
      s.waits f c.core.val = false →
      g = answersTo (s.txnOf f c.core.val) (fun o => decide (o.op ≠ 0) && decide (o.ep.toNat = hdrEp msg) && decide (o.pos = pos.toNat)) →
      (x.late.any g = false → x.outstanding.find? (fun o => g o && !o.answered) = some o → (x.recvEp (hdrEp msg)).takesReply o.serial msg pos = true →
        ∃ t, exec (.reply c pos msg rep data) s = .next t ∧
          (t.core c).outstanding = x.outstanding.map (fun p => if p = o then { p with answered := true } else p) ∧
          (∀ r, (x.recvEp (hdrEp msg)).resv.find? (fun r => r.isFor o.serial && r.open_) = some r →
            (t.core c).fqBulk = x.fqBulk ++ [{
              ops := writeOps ((x.recvEp (hdrEp msg)).base + r.pos * 64) (leBytes 16 (replyHeader (hdrEp msg) r.slots).toNat ++
                (leBytes 16 rep.toNat ++ (if o.op = 1 ∧ rep.extractLsb' 84 4 = 0 then data else [])))
              fin := .reply (hdrEp msg) o.serial (rep.extractLsb' 84 4), cycle := s.now c }]) ∧
          (t.core c).ackErr = x.ackErr ∧ (t.core c).spad = x.spad ∧ t.clusters = s.clusters) ∧
      (x.late.any g = true → ∃ t, exec (.reply c pos msg rep data) s = .next t ∧ (t.core c).outstanding = x.outstanding ∧
        t.ctr = (s.count 2 (coreUnit c) 0 5).ctr ∧ (∀ o, x.late.find? g = some o → (t.core c).late = x.late.erase o) ∧
        (t.core c).re = x.re ∧ (t.core c).fqBulk = x.fqBulk ∧ t.clusters = s.clusters)) ∧
    (∀ b f g o, f = s.isFor c 5 (b.setWidth 256) [] → s.waits f c.core.val = false →
      g = (fun o => decide (o.op = 0) && (o.isRecord == b.getLsbD 112) && decide (o.scope = b.extractLsb' 113 3) &&
        (b.getLsbD 112 || (decide (o.tag = b.extractLsb' 120 8) && answersTo (s.txnOf f c.core.val) (fun _ => true) o))) →
      x.late.any g = false → x.outstanding.find? g = some o →
      ∃ t, exec (.writeAck c b) s = .next t ∧ t.core c = { x with
        outstanding := x.outstanding.erase o
        ackErr := if x.ackErr.isNone ∧ b.extractLsb' 116 4 ≠ 0 then some (b.extractLsb' 116 4) else x.ackErr } ∧ t.clusters = s.clusters) ∧
    (∀ b f g o, f = s.isFor c 5 (b.setWidth 256) [] → s.waits f c.core.val = false →
      g = (fun o => decide (o.op = 0) && (o.isRecord == b.getLsbD 112) && decide (o.scope = b.extractLsb' 113 3) &&
        (b.getLsbD 112 || (decide (o.tag = b.extractLsb' 120 8) && answersTo (s.txnOf f c.core.val) (fun _ => true) o))) →
      x.late.find? g = some o →
      ∃ t, exec (.writeAck c b) s = .next t ∧ t.core c = { x with late := x.late.erase o } ∧ t.ctr = (s.count 2 (coreUnit c) 0 5).ctr ∧
        t.clusters = s.clusters) ∧
    (∀ (n : Nat) (o : Outstanding), x.outstanding[n]? = some o → o.isRecord = false → o.answered = false → o.op = 0 →
      exec (.requestNoPathTimeout c n) s = .next (s.putCore c { x with
        late := x.late ++ [o], outstanding := x.outstanding.erase o, ackErr := if x.ackErr.isNone then some 5 else x.ackErr })) ∧
    (∀ (n : Nat) (o : Outstanding), x.outstanding[n]? = some o → o.isRecord = false → o.answered = false → o.op ≠ 0 →
      ∃ t, exec (.requestNoPathTimeout c n) s = .next t ∧ (t.core c).late = x.late ++ [o] ∧
        (t.core c).outstanding = x.outstanding.map (fun p => if p = o then { p with answered := true } else p))

/-! ### Reduction -/

/-- The reduction unit (R219, R223 to R225): a packet that joins a slot has the slot's elements read first, through the Reduce queue of BUF_CORE; one
that opens a slot, and one whose elements are read, enters it, and the slot goes back to the buffer area; a complete slot below the root spends a
parent credit and has its elements read, and they go to the parent. While such an access is under way the unit takes no packet. A return (R224,
R225) frees the slot whose chunk it carries and one parent credit when every contributor has its reply slots; a result at the target core is
recorded in the slots reserved for it. The model's choices that it rests on: log entries 12 and 38. -/
def Obligations.ReductionsAtTheirNodes : Prop :=
  ((∀ (k : ClusterAt) (h : BitVec 128) (link : BitVec 3) (elems : Bytes) (s : State) (i : Fin 16) (j : Fin 2) (r : RedSt) (v : BitVec 128 × Bytes × Option (BitVec 2))
      (t1 : RedSlot) (b : CoreAt),
      s.offline k = false → (s.cluster k).drained = false → s.unitBusy k = false → s.waits (s.isRed k 6 h elems) 36 = false →
      (s.cluster k).redIndex (redRid h) = some i → r = (s.cluster k).redOf i.val → b = coreIn k r.bufCore →
      r.slotFor (s.node k) (redSrc h) = some j →
      (redSrc h).pkg = (s.node k).pkg → (redSrc h).die = (s.node k).die → (redSrc h).cl = (s.node k).cl →
      r.mask.getLsbD (redSrc h).core.toNat = true →
      ((r.slot j).state ≠ 0 → redFault (r.slot j).header = false → ∃ t, exec (.reductionContribution k h link elems) s = .next t ∧
        t.core b = (s.core b).enqueue 0 { ops := readOps (r.slotBase j + 320) r.p, fin := .combine i j h link elems, cycle := s.now b } ∧
        t.clusters = s.clusters ∧ t.deep = s.deep) ∧
      ((r.slot j).state = 0 → v = r.combine { order := r.opened } [] h elems →
        t1 = { order := r.opened, state := if 1 = r.mask.cpop.toNat + r.children then 2 else 1, header := v.1
               entered := BitVec.ofNat 64 (2 ^ (redSrc h).core.toNat) } → ∃ t, exec (.reductionContribution k h link elems) s = .next t ∧
        ((t.cluster k).redOf i.val).slot j = t1 ∧ ((t.cluster k).redOf i.val).slot (1 - j) = r.slot (1 - j) ∧
        ((t.cluster k).redOf i.val).opened = r.opened + 1 ∧ (t.cluster k).run = (s.cluster k).run ∧
        t.core b = (s.core b).enqueue 0 { ops := writeOps (r.slotBase j) (slotBytes t1 ++ v.2.1), fin := .slot i j, cycle := s.now b } ∧
        t.deep = s.deep)) ∧
   (∀ (k : ClusterAt) (h : BitVec 128) (link : BitVec 3) (elems : Bytes) (s : State), s.offline k = false → s.unitBusy k = true →
      exec (.reductionContribution k h link elems) s = .next s ∧ exec (.reductionReturn k h elems) s = .next s) ∧
   (∀ (c : CoreAt) (s : State) (x : Core) (q : Nat) (job : FabricJob) (o : FabricOp) (i : Fin 16) (j : Fin 2) (r : RedSt),
      x = s.core c → s.fabricWorks c = true → x.fabUsed = false → x.generating = [] → s.fabricPick c = some (q, job) → job.ops = [o] →
      x.opBad o = false → r = (s.cluster (clusterOf c)).redOf i.val →
      (∀ h link elems v t0, job.fin = .combine i j h link elems → (r.slot j).state ≠ 0 →
        (redSrc h).pkg = (s.node (clusterOf c)).pkg → (redSrc h).die = (s.node (clusterOf c)).die → (redSrc h).cl = (s.node (clusterOf c)).cl →
        v = r.combine (r.slot j) (x.performOp job o).2.got h elems →
        t0 = (r.slot j).entered ||| BitVec.ofNat 64 (2 ^ (redSrc h).core.toNat) → ∃ t, exec (.fabricAccess c) s = .next t ∧
        ((t.cluster (clusterOf c)).redOf i.val).slot j = { r.slot j with
          header := v.1, entered := t0
          state := if t0.cpop.toNat + (r.slot j).children.length = r.mask.cpop.toNat + r.children then 2 else 1 } ∧
        ((t.cluster (clusterOf c)).redOf i.val).slot (1 - j) = r.slot (1 - j) ∧
        ((t.cluster (clusterOf c)).redOf i.val).parentSpent = r.parentSpent ∧ t.deep = s.deep) ∧
      (job.fin = .slot i j → (r.slot j).state = 2 → r.root = false → r.parentSpent < 2 → ∃ t, exec (.fabricAccess c) s = .next t ∧
        ((t.cluster (clusterOf c)).redOf i.val).slot j = { r.slot j with waiting := false } ∧
        ((t.cluster (clusterOf c)).redOf i.val).parentSpent = r.parentSpent + 1 ∧ t.waiting = s.waiting) ∧
      (job.fin = .slot i j → (r.slot j).state = 2 → r.root = false → 2 ≤ r.parentSpent → ∃ t, exec (.fabricAccess c) s = .next t ∧
        ((t.cluster (clusterOf c)).redOf i.val).slot j = { r.slot j with waiting := true } ∧
        ((t.cluster (clusterOf c)).redOf i.val).parentSpent = r.parentSpent ∧ t.waiting = s.waiting) ∧
      (job.fin = .partial_ i j → ∃ t p, exec (.fabricAccess c) s = .next t ∧ t.waiting = s.waiting ++ [p] ∧ p.pkind = 6 ∧
        p.dst = { r.parent with core := unitCore } ∧ p.data = (x.performOp job o).2.got ∧ p.port = 5 ∧ t.clusters = s.clusters))) ∧
  (∀ (h : BitVec 128) (elems : Bytes) (s : State) (i : Fin 16) (r : RedSt),
     (∀ (k : ClusterAt) (j : Fin 2), s.offline k = false → (s.cluster k).drained = false → s.unitBusy k = false → s.waits (s.isRed k 7 h elems) 36 = false →
       (s.cluster k).redIndex (redRid h) = some i → r = (s.cluster k).redOf i.val →
       r.oldest (fun t => decide (t.state = 2) && !t.waiting) = some j →
       (∀ c ∈ s.treeCores k r h, (s.core (coreIn k c)).redRoom r i = true) → (r.slot (1 - j)).waiting = false →
       ∃ t, exec (.reductionReturn k h elems) s = .next t ∧ ((t.cluster k).redOf i.val).slot j = {} ∧
         ((t.cluster k).redOf i.val).parentSpent = r.parentSpent - 1 ∧ (t.cluster k).run = (s.cluster k).run ∧ t.deep = s.deep) ∧
     (∀ c : CoreAt, s.offline (clusterOf c) = false → (s.core c).fabricRoom 0 = true →
       s.waits (s.isFor c 7 (h.setWidth 256) elems) c.core.val = false → (s.cluster (clusterOf c)).redIndex (redRid h) = some i →
       r = (s.cluster (clusterOf c)).redOf i.val → (s.core c).redRoom r i = true →
       ∃ t, exec (.reductionResult c h elems) s = .next t ∧ t.core c = (s.core c).redRecord r i h elems (s.now c) ∧ t.clusters = s.clusters))

/-! ### Catches, stops, stall ages -/

/-- Joins and releases of a catch (R193, R194): a join of a child that leaves the round open is kept with its argument; a join that the entry does not
expect raises CATCH_ARG; a release ends the round, and its STEP flag advances the step index of the cluster. A stop (R200, R201): a cluster of the
job issues no further word after the one it has begun; Genhan records a stop it has not seen and halts a job of its tag. A wait that reaches its
limit raises STALL_AGE once in an episode (R191). The model's choices that it rests on: log entries 12 and 22. -/
def Obligations.CatchesStopsAndStallAges : Prop :=
  (∀ (k : ClusterAt) (id : Fin 16) (s : State) (e : CatchSt), e = (s.cluster k).catchOf id.val → s.job.between = .none →
     (∀ arg faulted src, s.waits (s.isJoin k id.val src) = false → e.valid = true → e.children.length + 1 < e.childCount →
       ∃ t, exec (.catchJoin k id arg faulted src) s = .next t ∧
         (t.cluster k).catchOf id.val = { e.merge arg faulted with children := e.children ++ [src] } ∧ (t.cluster k).run = (s.cluster k).run) ∧
     (∀ arg faulted src, s.waits (s.isJoin k id.val src) = false → e.valid = false ∨ e.childCount ≤ e.children.length → (s.cluster k).run ≠ .halted →
       ∃ t, exec (.catchJoin k id arg faulted src) s = .next t ∧ (t.cluster k).run = .halted ∧
         (t.cluster k).faultCode = some (BitVec.ofNat 16 fCatchArg) ∧ (t.cluster k).catches = (s.cluster k).catches) ∧
     (∀ arg faulted, s.waits (s.isCatch k 1 id.val) = false → e.valid = true → faulted = true ∨ arg.getLsbD 5 = false →
       ∃ t, exec (.catchRelease k id arg faulted) s = .next t ∧ ((t.cluster k).catchOf id.val).released = e.released + 1 ∧
         ((t.cluster k).catchOf id.val).children = [] ∧
         (t.cluster k).step = (if faulted = false ∧ arg.getLsbD 7 = true then (s.cluster k).step + 1 else (s.cluster k).step) ∧ t.deep = s.deep)) ∧
  (∀ (s : State) (origin : BitVec 12) (tag : BitVec 32),
     (∀ k, s.waits (s.isStop k tag) = false → tag = s.job.tag → s.job.between = .none → (s.cluster k).run = .running → (s.cluster k).accepted = false →
       ∃ t, exec (.stop (some k) tag origin) s = .next t ∧ (t.cluster k).run = .stopped ∧ (t.cluster k).stallLine = false ∧ t.deep = s.deep) ∧
     (∀ k, s.waits (s.isStop k tag) = false → tag = s.job.tag → s.job.between = .none → (s.cluster k).run = .running → (s.cluster k).accepted = true →
       ∃ t, exec (.stop (some k) tag origin) s = .next t ∧ (t.cluster k).run = .running ∧ (t.cluster k).ckptStopped = true) ∧
     (∀ k, s.waits (s.isStop k tag) = false → tag = s.job.tag → s.job.between = .none → (s.cluster k).run = .held →
       ∃ t, exec (.stop (some k) tag origin) s = .next t ∧ (t.cluster k).run = .held ∧ (t.cluster k).armed = false) ∧
     (∀ n, s.waits (isStopFor tag origin) = false → tag = s.job.tag → s.job.state = .running →
       n = (match s.arriving (isStopFor tag origin) with
         | some p => p.hdr.extractLsb' 51 64
         | none => s.time.sc) →
       (s.genhan.stopsSeen.contains (tag, origin, n) = false →
         ∃ t, exec (.stop none tag origin) s = .next t ∧ t.job.state = .halting ∧ t.job.reason = 2 ∧
           t.genhan.stopsSeen = s.genhan.stopsSeen ++ [(tag, origin, n)] ∧ t.cores = s.cores ∧ t.clusters = s.clusters) ∧
       (s.genhan.stopsSeen.contains (tag, origin, n) = true →
         ∃ t, exec (.stop none tag origin) s = .next t ∧ t.job = s.job ∧ t.genhan = s.genhan ∧ t.cores = s.cores ∧ t.clusters = s.clusters))) ∧
  (∀ (c : CoreAt) (isCatch : Bool) (ep : Fin 32) (s : State) (n : Nat),
     n = (if isCatch then 32 + ep.val % 16 else ep.val) → s.ageLog c n ≠ 0 → 2 ^ (s.ageLog c n + 11) ≤ SMap.get 0 (s.core c).age n →
     SMap.get false (s.core c).ageRaised n = false →
     ∃ t, exec (.stallAge c isCatch ep) s = .next t ∧ t.core c = { s.core c with ageRaised := SMap.set false (s.core c).ageRaised n true } ∧
       t.clusters = s.clusters ∧ t.mesh = s.mesh ∧ exec (.stallAge c isCatch ep) t = .next t)

/-! ### Deep memory -/

/-- A demand at its moon die (R267, R269, R276): the stream notes the index, and a wrap of it begins the next sweep; an index above SWEEP, a die that is
off and a word that cannot be read fault the stream and halt the owner's cluster. No demand writes deep memory, and while one before it is being
served a demand waits. Segments of a write stream (R260, R268): a tile is stored when its last segment is there, at the place that the tile number
gives, in the region of the segment's home by that home, and in the next region by PART_WRITE, for which the home waits; before that, and when it
does not fit its extent, nothing is stored. A segment whose home waits for a part is put off. A delivery at the receiving core (R72, R182, R253,
R267, R270): a speculative segment joins the buffered tile it was read for; a demanded one that passes its check takes its place in the ring and
goes to the fabric side, and one that fails it halts the cluster. With no room in the bulk queue the router keeps it. The model's choices that it
rests on: log entries 12, 35, 36, 103, 104 and 145. -/
def Obligations.DeepMemoryStreams : Prop :=
  (∀ (m : Fin 4) (h : BitVec 128) (s : State) (t : Stream) (g tile : Nat),
     t = s.stream m.val (dhStream h) → t.valid = true → t.isWrite = false → t.faulted = false → dhSpec h = false → deepHeaderOk 1 h = true →
     s.waits (isForComp 1 m.val 0xA (h.setWidth 256) []) = false →
     g = (match t.last with
       | some l => if dhIndex h ≤ l then t.sweep + 1 else t.sweep
       | none => t.sweep) →
     tile = (g * (t.f 247 240 + 1) + dhIndex h) % t.tiles →
     (s.serving m.val = true → exec (.demand m h) s = .next s) ∧
     (s.serving m.val = false → s.moonOff m.val = false → dhIndex h ≤ t.f 247 240 → ∃ u, exec (.demand m h) s = .next u ∧
       (u.stream m.val (dhStream h)).last = some (dhIndex h) ∧ (u.stream m.val (dhStream h)).sweep = g ∧
       u.deep = s.deep ∧ u.cores = s.cores ∧ (dhClaim h = true → (u.stream m.val (dhStream h)).faulted = false ∧ u.clusters = s.clusters)) ∧
     (∀ c code, s.serving m.val = false → s.coreAt (t.owner s.pkg) = some c → (s.cluster (clusterOf c)).run ≠ .halted →
       (s.moonOff m.val = true ∧ code = fTargetOffline) ∨ (s.moonOff m.val = false ∧ t.f 247 240 < dhIndex h ∧ code = fStreamRange) ∨
       (s.moonOff m.val = false ∧ dhIndex h ≤ t.f 247 240 ∧ dhClaim h = false ∧ code = fDataError ∧ 64 ≤ t.stride ∧
         anyPart s.moonOff (t.tileAt tile) 64 = false ∧ s.home (moonOf (t.tileAt tile)) = none ∧
         (s.deepBad (t.tileAt tile) (regionCut (t.tileAt tile) 64)).isSome = true) →
       ∃ u, exec (.demand m h) s = .next u ∧ (u.stream m.val (dhStream h)).faulted = true ∧ (u.cluster (clusterOf c)).run = .halted ∧
         (u.cluster (clusterOf c)).faultCode = some (BitVec.ofNat 16 code) ∧ u.deep = s.deep ∧ u.cores = s.cores)) ∧
  (∀ (m : Fin 4) (h : BitVec 128) (seg : Bytes) (s : State) (t : Stream) (o n l : Nat) (b : Bytes),
     t = s.stream m.val (dhStream h) → t.valid = true → t.isWrite = true → t.faulted = false → (∀ j : Fin 4, s.moonOff j.val = false) →
     s.serving m.val = false → deepHeaderOk 2 h = true → s.waits (isForComp 1 m.val 0xA (h.setWidth 256) seg) = false →
     o = t.tileAt (t.k % t.tiles) → n = pad64 seg.length → l = 4096 - o % 4096 → b = seg ++ List.replicate (n - seg.length) 0 → draocOk seg = true →
     identityOk seg t.tensor (t.k % t.tiles / t.tcols) (t.k % t.tiles % t.tcols) t.held.length = true →
     (t.held.length + 1 < 2 ^ segSeglog seg → ∃ u, exec (.segmentWrite m h seg) s = .next u ∧
       (u.stream m.val (dhStream h)).held.length = t.held.length + 1 ∧ (u.stream m.val (dhStream h)).k = t.k ∧ u.deep = s.deep) ∧
     (t.held = [] → 2 ^ segSeglog seg = 1 → n ≤ t.stride → o + n ≤ s.areaBase 0 → s.home (moonOf o) = none → n ≤ l →
       ∃ u, exec (.segmentWrite m h seg) s = .next u ∧ (u.stream m.val (dhStream h)).k = t.k + 1 ∧ u.deepRead o n = b ∧
         (∀ a, a < o ∨ o + n ≤ a → u.deepRead a 1 = s.deepRead a 1) ∧ u.cores = s.cores ∧ u.clusters = s.clusters) ∧
     (t.held = [] → 2 ^ segSeglog seg = 1 → n ≤ t.stride → o + n ≤ s.areaBase 0 → s.home (moonOf o) = none → l < n →
       ∃ u p, exec (.segmentWrite m h seg) s = .next u ∧ (u.home (moonOf o)).isSome = true ∧ p ∈ u.waiting ∧ p.pkind = 0xA ∧ p.exit = 1 ∧
         p.comp.toNat = moonOf (o + l) ∧ p.hdr = (deepHeader 4 false false 0 0 (o + l) (regionCut (o + l) (n - l)) 0).setWidth 256 ∧
         p.data = (b.drop l).take (regionCut (o + l) (n - l)) ∧ u.deepRead o l = b.take l ∧
         (∀ a, a < o ∨ o + l ≤ a → u.deepRead a 1 = s.deepRead a 1) ∧ u.cores = s.cores ∧ u.clusters = s.clusters) ∧
     (t.held = [] → 2 ^ segSeglog seg = 1 → n ≤ t.stride → (s.home (moonOf o)).isSome = true → seg ≠ [] →
       ∃ u, exec (.segmentWrite m h seg) s = .next u ∧ u.homeWait.length = s.homeWait.length + 1 ∧ u.deep = s.deep ∧ u.waiting = s.waiting) ∧
     (t.held = [] → 2 ^ segSeglog seg = 1 → t.stride < n → ∃ u, exec (.segmentWrite m h seg) s = .next u ∧
       (u.stream m.val (dhStream h)).faulted = true ∧ u.deep = s.deep)) ∧
  (∀ (c : CoreAt) (h : BitVec 128) (seg : Bytes) (s : State) (x : Core) (f : Packet → Bool) (m ep : Nat) (e : RecvEp),
     x = s.core c → f = s.isFor c 0xB (h.setWidth 256) seg → m = s.moonFrom c f (dhStream h) → ep = (s.stream m (dhStream h)).rcvEp →
     e = x.recvEp ep → s.offline (clusterOf c) = false → s.waits f c.core.val = false → deepHeaderOk 7 h = true →
     (x.fabricRoom 1 = false → exec (.deliver c h seg) s = .next s) ∧
     (∀ b, x.fabricRoom 1 = true → dhSpec h = true →
       x.runAhead.find? (fun b => b.fits (32768 * m + dhStream h) (dhIndex h) (s.txnOf f c.core.val) && decide (b.segs.length < b.need)) = some b →
       ∃ t, exec (.deliver c h seg) s = .next t ∧ t.core c = { x with
         runAhead := x.runAhead.map fun y => if y = b then { b with segs := b.segs ++ [(seg, s.injectedIn f c.core.val)] } else y } ∧ t.clusters = s.clusters) ∧
     (x.fabricRoom 1 = true → dhSpec h = false → e.valid = true → e.type = 1 → e.free ≠ 0 → draocOk seg = false →
       (s.cluster (clusterOf c)).run ≠ .halted →
       ∃ t, exec (.deliver c h seg) s = .next t ∧ t.core c = { x with draocChk := partialCode seg } ∧ (t.cluster (clusterOf c)).run = .halted ∧
         (t.cluster (clusterOf c)).faultCode = some (BitVec.ofNat 16 fCheckFail)) ∧
     (∀ w, x.fabricRoom 1 = true → dhSpec h = false → e.valid = true → e.type = 1 → e.free ≠ 0 → draocOk seg = true → segmentOk seg = true → segSeg seg = e.seg →
       segSeglog seg = e.seglog → rangeOk seg e.frameStride = true → (∀ d ∈ x.demands, d.copy = []) →
       unpackWrites seg = (w, false) →
       ∃ t, exec (.deliver c h seg) s = .next t ∧
         ((t.core c).recvEp ep).recs = e.recs ++ [{ kind := 2, pos := e.wpos, slots := 1, landed := false }] ∧
         ((t.core c).recvEp ep).expSeq = e.expSeq + 1 ∧
         (t.core c).fqBulk = x.fqBulk ++ [{
           ops := (w.flatMap fun p => writeOps (e.frameBase + e.tile % e.frames * e.frameStride + p.1) p.2) ++
             writeOps (e.base + e.wpos * 64) (leBytes 16 (deliveryHeader ep e (e.tile % e.frames)).toNat ++ List.replicate 48 0)
           fin := .recorded ep none, cycle := s.now c }] ∧ t.clusters = s.clusters))

/-- Parts and host DMA at a moon die (R258, R260, R264, R271, R272): a write stores its bytes at its offset and nothing elsewhere; a read changes
nothing of deep memory. A home that waits for the part goes on: after its last PART_WRITE it waits no more, and a word that cannot be read ends the
read of its tile. A DMA_WRITE into a drain area is not made while the job may run, and one whose home waits for a part is put off. An extent that
the die does not hold is neither read nor written. The scrub of a moon die (R275) corrects every single-bit error of its stacks, keeps the
uncorrectable ones, and changes no byte. The model's choices that it rests on: log entries 12, 104, 105 and 145. -/
def Obligations.PartAndDmaAccessesAndScrub : Prop :=
  (∀ (m : Fin 4) (h : BitVec 128) (data : Bytes) (s : State) (o n : Nat), o = dhOffset h → n = dhLength h →
     (∀ f, f = isForComp 1 m.val 0xA (h.setWidth 256) data → s.waits f = false → data.length = n → s.holdsPart m.val o n = true →
       (deepHeaderOk 4 h = true → o + n ≤ s.areaBase 0 → s.asker f o = none → ∃ t, exec (.partWrite m h data) s = .next t ∧ t.deepRead o n = data ∧
         (∀ a, a < o ∨ o + n ≤ a → t.deepRead a 1 = s.deepRead a 1) ∧ t.cores = s.cores ∧ t.clusters = s.clusters ∧ t.streams = s.streams) ∧
       (∀ j d st tile o' x rest, deepHeaderOk 4 h = true → o + n ≤ s.areaBase 0 → s.asker f o = some j → s.home j = some (.write d st tile o' [x] rest) →
         rest.length ≤ n → s.homeWait = [] →
         ∃ t, exec (.partWrite m h data) s = .next t ∧ t.home j = none ∧ t.deepRead o n = data ∧
           (∀ a, a < o ∨ o + n ≤ a → t.deepRead a 1 = s.deepRead a 1) ∧ t.cores = s.cores) ∧
       (deepHeaderOk 6 h = true → o + n ≤ s.areaBase 0 → s.moonOff m.val = false → s.home m.val = none →
         ∃ t, exec (.dmaWrite m h data) s = .next t ∧ t.deepRead o n = data ∧
         (∀ a, a < o ∨ o + n ≤ a → t.deepRead a 1 = s.deepRead a 1) ∧ t.cores = s.cores ∧ t.clusters = s.clusters ∧ t.streams = s.streams) ∧
       (deepHeaderOk 6 h = true → s.areaBase 0 < o + n → s.job.state = .armed ∨ s.job.state = .running ∨ s.job.state = .halting →
         ∃ t, exec (.dmaWrite m h data) s = .next t ∧ t.deep = s.deep ∧ t.cores = s.cores ∧ t.clusters = s.clusters) ∧
       (∀ x, deepHeaderOk 6 h = true → o + n ≤ s.areaBase 0 → s.moonOff m.val = false → s.home m.val = some x →
         ∃ t, exec (.dmaWrite m h data) s = .next t ∧ t.homeWait = s.homeWait ++ [.put o n (s.txnOf f) data] ∧ t.deep = s.deep ∧ t.host = s.host)) ∧
     (∀ f, f = isForComp 1 m.val 0xA (h.setWidth 256) [] → s.waits f = false → s.holdsPart m.val o n = true →
       (deepHeaderOk 3 h = true → s.homeWait = [] → ∃ t, exec (.partRead m h) s = .next t ∧ t.deep = s.deep ∧ (∀ c, (t.core c).spad = (s.core c).spad)) ∧
       (∀ j d hd txn tile sg o' left got segs, deepHeaderOk 3 h = true → s.asker f o = some j →
         s.home j = some (.read d hd txn tile sg o' left got segs) → (s.deepBad o n).isSome = true → s.homeWait = [] →
         ∃ t, exec (.partRead m h) s = .next t ∧ t.home j = none) ∧
       (deepHeaderOk 5 h = true → ∃ t, exec (.dmaRead m h) s = .next t ∧ t.deep = s.deep ∧ t.cores = s.cores ∧
         t.clusters = s.clusters ∧ t.streams = s.streams)) ∧
     (s.holdsPart m.val o n = false → ∃ t u, exec (.partRead m h) s = .next t ∧ exec (.partWrite m h data) s = .next u ∧
       t.deep = s.deep ∧ u.deep = s.deep ∧ t.cores = s.cores ∧ u.cores = s.cores ∧ t.streams = s.streams ∧ u.streams = s.streams)) ∧
  (∀ (m : Fin 4) (s : State), ∃ t, exec (.scrub m) s = .next t ∧
     t.deepErr = s.deepErr.filter (fun p => !(decide (moonOf (64 * p.1) = m.val) && decide (p.2 = some false))) ∧
     t.deep = s.deep ∧ t.cores = s.cores ∧ t.clusters = s.clusters ∧ t.mesh = s.mesh ∧ t.streams = s.streams)

/-! ### Telemetry and heat -/

/-- Telemetry (R391, R414): an entry goes as one posted write to a ring that is enabled, selects it and has room, here the only enabled one; a full
ring, and the limit of forwarding, count the loss; with the link down nothing leaves. An entry waits while one of an earlier interval is still on
its way. The samples of an interval (R391, R393, R396) move only what the sample's kind names: a domain's its hull temperature and the run of cool
intervals, the package's the coolant reading; no interval touches cores, deep memory or the job. The model's choices that it rests on: log entries
10, 15, 66 and 94. -/
def Obligations.TelemetrySamplesAndRings : Prop :=
  (∀ (e : BitVec 512) (s : State), s.waits (isSample e) = false → s.genhan.samples = [] →
     ((s.arrived (isSample e)).olderDue (s.countOf e) = true → ∃ t, exec (.telemetrySample e) s = .next t ∧ t.genhan.samples = [e] ∧ t.out = s.out ∧
       t.host = s.host) ∧
     ((s.arrived (isSample e)).olderDue (s.countOf e) = false → s.linkLive = false → ∃ t, exec (.telemetrySample e) s = .next t ∧
       t = { s with mesh := t.mesh, spent := t.spent, cuts := t.cuts }) ∧
     (∀ j : Fin 16, (s.arrived (isSample e)).olderDue (s.countOf e) = false → s.linkLive = true → (∀ i : Fin 16, (s.ring (65 + i.val)).cqEnable = decide (i = j)) →
       selects (SMap.get 0 s.host.telem j.val) e (s.fullCount (bitsOf e.toNat 511 464)) = true →
       (0 < ringFree (s.ring (65 + j.val)) → s.sentNow < telemetryLimit → ∃ t b, exec (.telemetrySample e) s = .next t ∧
         Output.hostWrite ((s.ring (65 + j.val)).cqBase + BitVec.ofNat 64 (64 * (s.ring (65 + j.val)).cqWr.toNat)) b ∈ t.out ∧ b.length = 64 ∧
         (t.ring (65 + j.val)).cqUsed = (s.ring (65 + j.val)).cqUsed + 1 ∧ (t.ring (65 + j.val)).lost = 0 ∧ t.sentNow = s.sentNow + 1 ∧
         t.cores = s.cores ∧ t.deep = s.deep) ∧
       (ringFree (s.ring (65 + j.val)) = 0 ∨ telemetryLimit ≤ s.sentNow → (s.ring (65 + j.val)).lost ≠ 0xFFFF → ∃ t, exec (.telemetrySample e) s = .next t ∧
         t.out = s.out ∧ (t.ring (65 + j.val)).lost = (s.ring (65 + j.val)).lost + 1))) ∧
  (∀ (s : State), s.time.running = true →
     (∀ d vcore idom hullT, ∃ t, exec (.telemetryInterval (.domain d vcore idom hullT)) s = .next t ∧ (t.domain d).hullT = hullT ∧
       (t.domain d).coolRun = (if hullT.toInt ≤ 600 then (s.domain d).coolRun + 1 else 0) ∧
       (t.domain d).powered = (s.domain d).powered ∧ t.clusters = s.clusters) ∧
     (∀ vin iin pin inlet outlet flow, ∃ t, exec (.telemetryInterval (.package vin iin pin inlet outlet flow)) s = .next t ∧
       t.genhan.inlet = inlet.toNat ∧ t.genhan.flow = flow.toNat ∧ t.power.coolLimit = coolantLimit inlet.toNat flow.toNat ∧
       t.power.coolantRun = (if s.power.leak = true ∨ coolantOut inlet.toNat flow.toNat = true then 0 else s.power.coolantRun + 1) ∧
       t.clusters = s.clusters ∧ t.domains = s.domains) ∧
     (∀ k a b t0 t1 v st f, (s.domain (domainOf k)).powered = true →
       ∃ t, exec (.telemetryInterval (.cluster k a b t0 t1 v st f)) s = .next t ∧ (t.cluster k).lastIssue = s.counter 8 (coxUnit k) 0 0 ∧
         (t.cluster k).lastStall = s.counter 8 (coxUnit k) 0 1 ∧ (t.cluster k).run = (s.cluster k).run) ∧
     (∀ x, ∃ t, exec (.telemetryInterval x) s = .next t ∧ t.cores = s.cores ∧ t.deep = s.deep ∧ t.job = s.job ∧ t.nv = s.nv))

/-- Heat (R393 to R396): ten hot samples in a row make a stress test of the cluster void, and otherwise lead to the eclipse of the domain, after the
drain of the job's stop where a job maps it. The domain enters QUIESCE, and goes off once its detours stand (R217); one that has been cool for 10 s
returns powered, and takes requests again once the tables are restored. The coolant (R398, R449): coolant outside its limits, or a leak, begins a
coolant stop, which leaves no job running; the release of the leak only restarts the 10 s. The model's choices that it rests on: log entries 15, 65,
67 and 127. -/
def Obligations.HeatAndCoolant : Prop :=
  (∀ (k : ClusterAt) (d : Fin 48) (s : State), d.val = (domainOf k).val → (∀ j ∈ halfClusters d.val, j ≠ k → (s.cluster j).testing = false) →
     (∀ sensor temp, (s.cluster k).testing = false → 10 ≤ (s.cluster k).hotRun → (s.domain (domainOf k)).powered = true →
       s.eclipseDue k = false → (∀ e ∈ s.power.eclipsing, e.1 ≠ d) → s.heatRow d.val = 0 →
       ∃ t, exec (.heatAlarm k sensor temp) s = .next t ∧ (t.domain (domainOf k)).powered = true ∧ (t.domain (domainOf k)).quiesced = true ∧
         t.power.eclipsing = s.power.eclipsing ++ [(d, 1, true)] ∧ t.genhan.held = true ∧ (.halfDie d ∈ t.genhan.wanted ∨ .halfDie d ∈ t.genhan.avoid) ∧
         t.deep = s.deep) ∧
     (∀ edits c u, s.mayWriteTables = true → s.partsClear = true → s.genhan.wanted = [.halfDie d] → s.genhan.unwanted = [] →
       s.power.eclipsing = [(d, c, u)] → s.atCheckpoint = none →
       ∃ t, exec (.routeTableChange edits) s = .next t ∧ (t.domain (domainOf k)).powered = false ∧ (t.domain (domainOf k)).eclipsed = true ∧
         (t.domain (domainOf k)).fifoReset = true ∧ (t.domain (domainOf k)).cause = BitVec.ofNat 8 c ∧ t.power.eclipsing = [] ∧ t.genhan.held = false ∧
         t.deep = s.deep) ∧
     (∀ sensor temp, (s.cluster k).testing = false → 10 ≤ (s.cluster k).hotRun → (s.domain (domainOf k)).powered = true →
       s.eclipseDue k = false → (s.heatRow d.val = 1 ∨ s.heatRow d.val = 2) →
       ∃ t, exec (.heatAlarm k sensor temp) s = .next t ∧ t.power.drainOwed = true ∧ t.power.eclipseOwed = s.power.eclipseOwed ++ [d] ∧
         (t.domain (domainOf k)).powered = true ∧ t.job.state ≠ .running ∧ t.job.state ≠ .armed ∧ t.deep = s.deep) ∧
     (∀ sensor temp, (s.cluster k).testing = true → (s.cluster k).stress = true → 10 ≤ (s.cluster k).hotRun → s.atCheckpoint = none →
       s.job.inPlace.contains k = false → ∃ t, exec (.heatAlarm k sensor temp) s = .next t ∧
       (t.cluster k).testing = false ∧ (t.cluster k).hotRun = 0 ∧ (t.cluster k).deferred.isSome = true ∧ (t.cluster k).passed = (s.cluster k).passed ∧
       t.repairMap = s.repairMap ∧ t.deep = s.deep) ∧
     ((s.domain (domainOf k)).eclipsed = true → (s.domain (domainOf k)).coolRun < tenSeconds ∨ s.power.coolantRun < tenSeconds →
       ∀ fails, exec (.eclipseReturn d fails) s = .next s) ∧
     ((s.domain (domainOf k)).eclipsed = true → tenSeconds ≤ (s.domain (domainOf k)).coolRun → tenSeconds ≤ s.power.coolantRun →
       s.genhan.avoid.contains (.halfDie d) = true → ∀ fails, ∃ t, exec (.eclipseReturn d fails) s = .next t ∧ (t.domain (domainOf k)).powered = true ∧
         (t.domain (domainOf k)).eclipsed = false ∧ (t.domain (domainOf k)).quiesced = true ∧ .halfDie d ∈ t.genhan.unwanted ∧ t.genhan.held = true ∧
         t.deep = s.deep) ∧
     (s.mayWriteTables = true → s.partsClear = true → s.genhan.wanted = [] → s.genhan.unwanted = [.halfDie d] → s.power.eclipsing = [] →
       s.atCheckpoint = none → ∃ t, exec (.routeTableChange []) s = .next t ∧ (t.domain (domainOf k)).quiesced = false ∧
         (t.domain (domainOf k)).fifoReset = false ∧ t.genhan.held = false ∧ t.deep = s.deep)) ∧
  (∀ (s : State),
     (∀ inlet flow, coolantOut inlet flow = true → s.power.coolantStop = false →
       ∃ t, exec (.coolantStop inlet flow) s = .next t ∧ t.power.coolantStop = true ∧ t.job.state ≠ .running ∧ t.job.state ≠ .armed ∧
         t.genhan.inlet = inlet ∧ t.genhan.flow = flow ∧ t.deep = s.deep) ∧
     (s.power.coolantStop = false → ∃ t, exec .leak s = .next t ∧ t.power.leak = true ∧ t.power.coolantStop = true ∧ t.job.state ≠ .running ∧
       t.job.state ≠ .armed ∧ t.deep = s.deep) ∧
     exec .leakRelease s = .next { s with power := { s.power with leak := false, coolantRun := 0 } })

/-! ### Faults, digests, checkpoints, tests -/

/-- A heartbeat is counted; eight missed ones of a mapped cluster halt it behind reset boundary FIFOs, with detours wanted around it and what waits at
its fabric sides answered (R365), and are reported as HEARTBEAT_LOST, class H; an unmapped one is marked defective (R355). A fault report at Genhan
(R353, R429): the job fault log keeps it while it holds fewer than 64, and a job that was live is live no more. A report that only tells of an error
that halted no cluster enters no log and stops no job. The model's choices that it rests on: log entries 125 and 126. -/
def Obligations.HeartbeatsAndFaultReports : Prop :=
  (∀ (k : ClusterAt) (s : State), (s.domain (domainOf k)).powered = true →
     ((s.cluster k).diag = false → exec (.heartbeat k) s = .next (s.count 8 (coxUnit k) 0 5)) ∧
     (∀ cl, s.logical k = some cl → (s.cluster k).run ≠ .idle → (s.cluster k).quiesced = false → ∃ t e l, exec (.heartbeatLost k) s = .next t ∧
       (t.cluster k).run = .halted ∧ (t.cluster k).quiesced = true ∧ (t.cluster k).fifoReset = true ∧
       t.genhan.reports = s.genhan.reports ++ l ++ [{ entry := e }] ∧ ((∀ p ∈ s.mesh ++ s.waiting, s.isTo (.cluster k) p = false) → l = []) ∧
       e.extractLsb' 0 16 = 0x1E ∧ e.extractLsb' 50 2 = 2 ∧ t.job = s.job ∧
       t.genhan.held = true ∧ (.cluster k ∈ t.genhan.wanted ∨ .cluster k ∈ s.genhan.avoid) ∧
       (∀ c : CoreAt, clusterOf c ≠ k → t.core c = s.core c) ∧ (∀ c : CoreAt, clusterOf c = k → (t.core c).fabricJobs = []) ∧
       ((∀ c : CoreAt, clusterOf c = k → (s.core c).fabricJobs = []) → t.cores = s.cores)) ∧
     (s.logical k = none → (∀ j ∈ s.genhan.toRetire, j.die ≠ k.die) → ∃ t, exec (.heartbeatLost k) s = .next t ∧ roleOf (t.entryOf k) = 2 ∧
       t.repairSeq = s.repairSeq + 1 ∧ (∀ c : CoreAt, clusterOf c ≠ k → t.core c = s.core c))) ∧
  (∀ (s : State) (r : Report) (l : List Report), s.genhan.reports = r :: l →
     ∃ t, exec .faultReport s = .next t ∧
       t.genhan.log = (if r.quiet = false ∧ s.genhan.log.length < 64 then s.genhan.log ++ [r.entry] else s.genhan.log) ∧
       (r.quiet = false → s.jobLive = true → t.jobLive = false ∧ t.job.faultArose = true) ∧ (r.quiet = true → t.job.state = s.job.state) ∧ t.deep = s.deep)

/-- A digest result (R357 to R360) waits until every replica of the package has reported its step; then there is a record for each shard and one for the
whole, and the waiting results of the step are gone. The drain of a checkpoint (R129, R196, R263, R361, R375): once the job's clusters are quiet and
nothing is on its way to or from them, the area holds the records of its clusters, it is the latest complete checkpoint when no digest of the step
is open, and the job waits for its relaunch; of a job that has been stopped meanwhile the drain completes alike. The model's choices that it rests
on: log entries 24 and 39. -/
def Obligations.DigestsAndCheckpoints : Prop :=
  (∀ (rid : BitVec 8) (step : BitVec 48) (elems : List (BitVec 64)) (s : State) (mine : List Nat) (i : Nat),
     mine = ((s.job.digReplicas.zipIdx.filter fun e => decide (e.1.extractLsb' 16 12 = s.pkg)).map (·.2)) →
     mine.find? (fun i => decide (s.replicaRid i = rid.toNat)) = some i →
     s.waits (isDigest rid elems) = false →
     ((∃ j ∈ mine, j < 256 ∧ j ≠ i ∧ ∀ q ∈ s.genhan.digPending, q.1.toNat = j → q.2.1 ≠ step) → i < 256 →
       ∃ t, exec (.digestResult rid step elems) s = .next t ∧
         t.genhan.digPending = s.genhan.digPending ++ [(BitVec.ofNat 8 i, step, s.time.sc.setWidth 48, elems)] ∧
         t.genhan.digests = s.genhan.digests ∧ t.job = s.job ∧ t.cores = s.cores) ∧
     (mine = [i] → i < 256 → (∀ q ∈ s.genhan.digPending, q.2.1 ≠ step) → s.genhan.digests.length + elems.length < 16384 →
       ∃ t, exec (.digestResult rid step elems) s = .next t ∧ t.genhan.digPending = s.genhan.digPending ∧
         t.genhan.digests.length = s.genhan.digests.length + elems.length + 1 ∧ t.job = s.job ∧ t.cores = s.cores)) ∧
  (∀ (s : State) (step : BitVec 48) (area : Bool), s.job.between = .checkpoint step area → s.membersQuiet = true → s.job.window = false →
     s.power.drainOwed = false →
     (s.settled s.job.members = false → exec .checkpointDrainDone s = .next s) ∧
     (s.settled s.job.members = true → (∀ k ∈ s.job.members, (s.logical k).isSome = true) → ∃ t, exec .checkpointDrainDone s = .next t ∧
       (if area then t.ckpt.area1 else t.ckpt.area0).length = s.job.members.length ∧
       (if area then t.ckpt.area0 else t.ckpt.area1) = (if area then s.ckpt.area0 else s.ckpt.area1) ∧
       (s.digestsMatched step = true → t.ckpt.latest = some area) ∧
       (s.job.state ≠ .running → t.job = { s.job with between := s.job.phaseLeft } ∧ (∀ c, (t.core c).spad = (s.core c).spad)) ∧
       (s.job.state = .running → s.job.relOwnDone = false → s.host.testPolicy = 0 → s.job.nextPhase = none → s.timeOk = false →
         (∀ k ∈ s.job.members, (s.cluster k).testing = false ∧ (s.cluster k).quiesced = false) →
         t.job = { s.job with window := false, rotated := [], windowArea := area, inPlace := [], relOwnDone := true } ∧
         (∀ c, (t.core c).spad = (s.core c).spad) ∧
         (∀ k, t.cluster k = { s.cluster k with drained := (s.cluster k).drained || s.job.members.contains k }))))

/-- Firmware of a cox (R345): packets join the copy, a final digest that matches installs it, and one that does not discards it; a second failure marks
the cluster defective; one that carries a logical cluster goes into QUIESCE for its move. A move to a spare (R25, R217, R364, R365): only of a
cluster that is to be retired, only for a job that is stopped and has settled, to the chosen spare, which is tested first where its last pass is too
old, and only while the held virtual channels are held and empty; before that injection on them is held. The spare then carries the logical cluster,
and the retired one is defective. Route tables change under the same condition, and a waypoint with a leg into a blocked area is not set (R216);
with them the parts that wanted detours are sealed off. QUIESCE (R373, R374): a part in it takes no further request, and detours are wanted around a
part of the mesh in it (R217), whose boundary is held in reset only when they stand; a part that returns takes requests again, behind installed
detours once the tables are restored, and a cluster whose known-answer run failed is retired (R104). The model's choices that it rests on: log
entries 14, 63, 67 and 125. -/
def Obligations.PartsAreConfiguredMovedAndQuiesced : Prop :=
  (∀ (k : ClusterAt) (data : Bytes) (s : State) (x : Cluster), x = s.cluster k → s.waits (s.isConfig k data) = false →
     (∃ t, exec (.configurationWrite k data none) s = .next t ∧ t.cluster k = { x with fwBuf := x.fwBuf ++ data } ∧ t.cores = s.cores) ∧
     (∀ d, shake256 64 (x.fwBuf ++ data) = d → ∃ t, exec (.configurationWrite k data (some d)) s = .next t ∧
       t.cluster k = { x with fwBuf := [], fwOk := true, fwTries := 0 } ∧ t.repairMap = s.repairMap) ∧
     (∀ d, shake256 64 (x.fwBuf ++ data) ≠ d → x.fwTries = 0 → ∃ t, exec (.configurationWrite k data (some d)) s = .next t ∧
       t.cluster k = { x with fwBuf := [], fwOk := false, fwTries := 1 } ∧ t.repairMap = s.repairMap) ∧
     (∀ d, shake256 64 (x.fwBuf ++ data) ≠ d → 1 ≤ x.fwTries → s.logical k = none → ∃ t, exec (.configurationWrite k data (some d)) s = .next t ∧
       roleOf (t.entryOf k) = 2 ∧ (t.cluster k).fwOk = false) ∧
     (∀ d, shake256 64 (x.fwBuf ++ data) ≠ d → 1 ≤ x.fwTries → ∃ t, exec (.configurationWrite k data (some d)) s = .next t ∧
       clusterKey k ∈ t.nv.defects ∧ (t.cluster k).fwOk = false ∧ (∀ cl, s.logical k = some cl → (t.cluster k).quiesced = true))) ∧
  (∀ (s : State),
     (∀ logical spare k, s.physical k.die.val logical = some k → s.genhan.toRetire.contains k = false →
       exec (.clusterMove k.die logical spare false) s = .next s) ∧
     (∀ logical spare k, s.physical k.die.val logical = some k → s.genhan.toRetire.contains k = true → s.jobLive = false → s.job.state ≠ .halting →
       s.settled s.job.members = true → s.chosenSpare k.die = some ⟨k.die, spare⟩ → (s.cluster ⟨k.die, spare⟩).quiesced = false →
       (s.passedLately ⟨k.die, spare⟩ = true → s.mayWriteTables = false → exec (.clusterMove k.die logical spare false) s = .next s.hold) ∧
       (s.passedLately ⟨k.die, spare⟩ = false → s.testsOn k.die < 8 → ∃ t, exec (.clusterMove k.die logical spare false) s = .next t ∧
         (t.cluster ⟨k.die, spare⟩).testing = true ∧ (t.cluster ⟨k.die, spare⟩).stress = true ∧ t.repairMap = s.repairMap) ∧
       (s.passedLately ⟨k.die, spare⟩ = true → s.mayWriteTables = true → s.genhan.toRetire.contains ⟨k.die, spare⟩ = false → s.job.state = .idle →
         ∃ t, exec (.clusterMove k.die logical spare false) s = .next t ∧ t.logical ⟨k.die, spare⟩ = some logical ∧ roleOf (t.entryOf k) = 2 ∧
           t.genhan.held = false ∧ s.repairSeq + 1 ≤ t.repairSeq)) ∧
     (∀ edits, s.mayWriteTables = false ∨ s.partsClear = false → exec (.routeTableChange edits) s = .next s.hold) ∧
     (∀ edits, s.mayWriteTables = true → s.partsClear = true → s.genhan.unwanted = [] → s.atCheckpoint = none →
       ∃ t, exec (.routeTableChange edits) s = .next t ∧ t.genhan.wanted = [] ∧ t.genhan.avoid = s.genhan.avoid ++ s.genhan.wanted ∧
         t.genhan.held = false ∧ (∀ k, .cluster k ∈ s.genhan.wanted → (t.cluster k).fifoReset = true)) ∧
     (∀ (k : ClusterAt) (n : BitVec 13) w, s.mayWriteTables = true → s.genhan.wanted = [] → s.genhan.unwanted = [] → s.power.eclipsing = [] →
       s.atCheckpoint = none → ∃ t, exec (.routeTableChange [⟨k, false, n, w⟩]) s = .next t ∧
       SMap.get none (t.cluster k).wp n.toNat = (if s.editOk ⟨k, false, n, w⟩ = true then w else SMap.get none (s.cluster k).wp n.toNat) ∧
       t.genhan.held = false ∧ t.genhan.avoid = s.genhan.avoid ∧ t.waiting = s.waiting ∧ t.mesh = s.mesh ∧ t.cores = s.cores ∧
       (∀ j, j ≠ n.toNat → SMap.get none (t.cluster k).wp j = SMap.get none (s.cluster k).wp j))) ∧
  (∀ (s : State),
     (∀ k, ∃ t, exec (.quiesce (.cluster k)) s = .next t ∧ t.cluster k = { s.cluster k with quiesced := true } ∧ t.offline k = true ∧
       t.genhan.held = true ∧ (.cluster k ∈ t.genhan.wanted ∨ .cluster k ∈ t.genhan.avoid)) ∧
     (∀ d : Fin 48, ∃ t, exec (.quiesce (.halfDie d)) s = .next t ∧ (t.domain ⟨d.val, by omega⟩).quiesced = true ∧ t.clusters = s.clusters ∧
       t.genhan.held = true ∧ (.halfDie d ∈ t.genhan.wanted ∨ .halfDie d ∈ t.genhan.avoid)) ∧
     (∀ m : Fin 4, ∃ t, exec (.quiesce (.moon m)) s = .next t ∧ t.moonOff m.val = true ∧ (s.homesFree = true → t.deep = s.deep)) ∧
     (∀ (l : Fin 8) (j : Fin 8), ∃ t, exec (.quiesce (.link l)) s = .next t ∧ (t.port (8 * l.val + j.val)).state = .disabled) ∧
     (∀ k fails, s.job.members.contains k = false → s.genhan.avoid.contains (.cluster k) = false → (∀ f ∈ fails, f.at_ ≠ k) →
       ∃ t, exec (.quiesceReturn ⟨.cluster k, fails⟩) s = .next t ∧ (t.cluster k).quiesced = false ∧
       (t.cluster k).fifoReset = false ∧ (t.cluster k).run = .idle ∧ (∀ i, t.core (coreIn k i) = {})) ∧
     (∀ k fails, s.job.members.contains k = false → s.genhan.avoid.contains (.cluster k) = true → (∀ f ∈ fails, f.at_ ≠ k) →
       ∃ t, exec (.quiesceReturn ⟨.cluster k, fails⟩) s = .next t ∧ (t.cluster k).quiesced = (s.cluster k).quiesced ∧
       .cluster k ∈ t.genhan.unwanted ∧ t.genhan.held = true ∧ (∀ i, t.core (coreIn k i) = {})) ∧
     (∀ k, s.mayWriteTables = true → s.partsClear = true → s.genhan.wanted = [] → s.genhan.unwanted = [.cluster k] → s.power.eclipsing = [] →
       s.atCheckpoint = none → ∃ t, exec (.routeTableChange []) s = .next t ∧ (t.cluster k).quiesced = false ∧ (t.cluster k).fifoReset = false ∧
         .cluster k ∉ t.genhan.avoid ∧ t.genhan.held = false) ∧
     (∀ k f, s.job.members.contains k = false → f.at_ = k → s.logical k = none →
       ∃ t, exec (.quiesceReturn ⟨.cluster k, [f]⟩) s = .next t ∧ roleOf (t.entryOf k) = 2 ∧ t.genhan.diags = s.genhan.diags ++ [f]) ∧
     (∀ (m : Fin 4) fails, s.genhan.avoid.contains (.moon m) = false → ∃ t, exec (.quiesceReturn ⟨.moon m, fails⟩) s = .next t ∧
       t.moonOff m.val = !((SMap.get {} s.domains (56 + m.val) : Domain).powered) ∧ t.deep = s.deep))

/-- Stress tests (R101, R103, R104, R368 to R371): an eligible cluster that falls due, 168 h after its last pass, is tested, another is deferred; a test
ends only behind its detours; a passed one leaves the cores in their reset state and the count of the pass, a void one only a deferral, a failed one
of a spare the cluster defective and its report kept; an overdue one is deferred further by MAX_DEFER. The model's choices that it rests on: log
entries 14 and 95. -/
def Obligations.StressTests : Prop :=
  ∀ (k : ClusterAt) (s : State), s.role k ≠ rDefective →
    (s.testDue k = false → exec (.stressTestDue k) s = .next s) ∧
    ((s.cluster k).testing = false → s.testDue k = true → s.eligible k = true → s.job.members.contains k = false → s.testsOn k.die < 8 →
      ∃ t, exec (.stressTestDue k) s = .next t ∧ (t.cluster k).testing = true ∧ (t.cluster k).stress = true ∧ (t.cluster k).diag = true ∧
        (t.cluster k).quiesced = true ∧ (∀ c : CoreAt, clusterOf c ≠ k → t.core c = s.core c)) ∧
    ((s.cluster k).testing = false → s.testDue k = true → s.job.members.contains k = true → s.suspect k = false → (s.cluster k).deferred = none →
      ∃ t, exec (.stressTestDue k) s = .next t ∧ (t.cluster k).deferred = some 0 ∧ (t.cluster k).testing = false ∧ t.cores = s.cores) ∧
    (∀ run, s.genhan.wanted.contains (.cluster k) = true → exec (.stressTestDone k run) s = .next s) ∧
    (∀ run, (s.cluster k).testing = true → (s.cluster k).stress = true → s.genhan.wanted.contains (.cluster k) = false → s.atCheckpoint = none →
      s.genhan.suspectTests = [] → s.job.inPlace.contains k = false →
      ((s.cluster k).testVoid = false → run.verdict = .pass → ∃ t, exec (.stressTestDone k run) s = .next t ∧ (t.cluster k).testing = false ∧
        (t.cluster k).passed = some s.time.sc ∧ (t.cluster k).deferred = none ∧ (∀ i, t.core (coreIn k i) = {}) ∧ t.repairMap = s.repairMap) ∧
      ((s.cluster k).testVoid = true → ∃ t, exec (.stressTestDone k run) s = .next t ∧ (t.cluster k).testing = false ∧
        (t.cluster k).passed = (s.cluster k).passed ∧ (t.cluster k).deferred.isSome = true ∧ t.repairMap = s.repairMap) ∧
      (∀ c kd out, (s.cluster k).testVoid = false → run.verdict = .fail c kd out → s.logical k = none →
        ∃ t, exec (.stressTestDone k run) s = .next t ∧
        (t.cluster k).testing = false ∧ roleOf (t.entryOf k) = 2 ∧ t.genhan.diags = s.genhan.diags ++ [⟨k, c, kd, out⟩])) ∧
    (∀ n, (s.cluster k).deferred = some n → ∃ t, exec (.testOverdue k) s = .next t ∧
      t.cluster k = { s.cluster k with deferred := some (n + s.host.maxDefer.toNat) } ∧ t.cores = s.cores)

/-! ### Vevas links -/

/-- Frames at a port that carries traffic (R279, R280, R286): a good DATA frame in sequence is accepted whole and its flits wait for the link die; one
out of sequence, one whose CRC fails and one that an uncorrectable codeword overlaps is not, and the first of a loss is NAKed; with a good CRC the
last still gives its acknowledgement. A good IDLE frame only moves acknowledgements and credits. Loss of acknowledgement and of frame lock (R280,
R287, R288): every unacknowledged frame goes out again, the eighth replay without progress and eight bad frames in a row begin a retrain, and a
retrain that does not end takes the port down. A replay is noted at the ACK where it begins, so that a NAK there is ignored. The model's choices
that it rests on: log entries 53, 54, 94 and 114. -/
def Obligations.FramesAndReplays : Prop :=
  (∀ (port : Fin 64) (b : Bytes) (bad : List (Nat × Nat)) (s : State) (p : Port) (h good : Nat), p = s.port port.val → p.carries = true →
     p.txWait = [] → h = numAt b 0 16 →
     good = (if b.length = 344 ∧ (crc64 (b.take 336)).toNat = numAt b 336 8 ∧ malformed b = false then 1 else 0) →
     (good = 1 → p.badFrame bad = false → bitsOf h 127 124 = kData → h.testBit 98 = false → BitVec.ofNat 12 (bitsOf h 123 112) = p.rxExp →
       ∃ t, exec (.dataFrame port b bad) s = .next t ∧ (t.port port.val).rxExp = p.rxExp + 1 ∧
         (t.port port.val).rxFlits = p.rxFlits ++ slotsOf b ∧ (t.port port.val).nakSent = false ∧ (t.port port.val).badRun = 0 ∧
         (t.port port.val).state = p.state ∧ t.cores = s.cores ∧ t.mesh = s.mesh ∧ t.deep = s.deep) ∧
     (good = 1 → p.badFrame bad = false → bitsOf h 127 124 = kData → h.testBit 98 = false → BitVec.ofNat 12 (bitsOf h 123 112) ≠ p.rxExp →
       ∃ t, exec (.dataFrame port b bad) s = .next t ∧ (t.port port.val).rxExp = p.rxExp ∧ (t.port port.val).rxFlits = p.rxFlits ∧
         (t.port port.val).nakSent = true ∧ t.cores = s.cores ∧ t.mesh = s.mesh) ∧
     ((b.length ≠ 344 ∨ (crc64 (b.take 336)).toNat ≠ numAt b 336 8) ∨
         (good = 1 ∧ p.badFrame bad = true ∧ bitsOf h 127 124 = kData ∧ h.testBit 98 = false) →
       ∃ t, exec (.dataFrame port b bad) s = .next t ∧ (t.port port.val).rxExp = p.rxExp ∧ (t.port port.val).rxFlits = p.rxFlits ∧
         (t.port port.val).replay = (if good = 1 ∧ h.testBit 99 = true then ackReplay (BitVec.ofNat 12 (bitsOf h 111 100)) p.replay else p.replay) ∧
         (t.port port.val).nakSent = true ∧ (t.port port.val).badRun = p.badRun + 1 ∧ (t.port port.val).goodRun = 0 ∧ t.cores = s.cores ∧
         t.mesh = s.mesh) ∧
     (good = 1 → p.badFrame bad = false → bitsOf h 127 124 = kIdle → h.testBit 98 = false →
       ∃ t, exec (.idleFrame port b bad) s = .next t ∧ (t.port port.val).rxExp = p.rxExp ∧ (t.port port.val).rxFlits = p.rxFlits ∧
         (t.port port.val).replay = (if h.testBit 99 then ackReplay (BitVec.ofNat 12 (bitsOf h 111 100)) p.replay else p.replay) ∧
         (t.port port.val).goodRun = p.goodRun + 1 ∧ t.cores = s.cores ∧ t.mesh = s.mesh) ∧
     (∀ x m, good = 1 → p.badFrame bad = false → bitsOf h 127 124 = kLink → h.testBit 98 = false → slotsOf b = [(x, m)] → linkMsgOk m = true → numAt m 0 1 = 5 →
       ∃ t, exec (.linkFrame port b bad) s = .next t ∧ (t.port port.val).offline = some (BitVec.ofNat 8 (numAt m 1 1)) ∧
         (t.port port.val).rxExp = p.rxExp ∧ (t.port port.val).state = p.state ∧ t.deep = s.deep)) ∧
  (∀ (port : Fin 64) (s : State) (p : Port), p = s.port port.val →
     (p.carries = true → p.replay ≠ [] → p.replays < 7 → ∃ t, exec (.replayTimeout port) s = .next t ∧
       (t.port port.val).replays = p.replays + 1 ∧ (t.port port.val).replay = p.replay ∧ (t.port port.val).state = p.state ∧
       (∀ f r, p.replay = f :: r → (t.port port.val).naked = some (f.1 - 1)) ∧
       t.out.length = s.out.length + p.replay.length ∧ t.cores = s.cores) ∧
     (p.carries = true → p.replay ≠ [] → 7 ≤ p.replays → ∃ t, exec (.replayTimeout port) s = .next t ∧ (t.port port.val).state = .retrain ∧
       (t.port port.val).replay = p.replay ∧ t.cores = s.cores) ∧
     (p.lock = true → 8 ≤ p.badRun → p.carries = true → ∃ t, exec (.frameLockLoss port) s = .next t ∧ (t.port port.val).lock = false ∧
       (t.port port.val).state = .retrain ∧ (t.port port.val).replay = p.replay ∧ t.cores = s.cores) ∧
     (p.state = .retrain → ∃ t, exec (.retrainTimeout port) s = .next t ∧ (t.port port.val).state = .down ∧
       (t.port port.val).reason = BitVec.ofNat 4 rRetrainFail ∧ (t.port port.val).replay = [] ∧ t.deep = s.deep) ∧
     (∀ r, p.carries = true → ∃ t, exec (.offline port r) s = .next t ∧ (t.port port.val).offline = some r ∧
       (t.port port.val).state = p.state ∧ t.deep = s.deep))

/-- Training (R288, R290 to R294, R348): a port without a peer goes DOWN with NO_PEER, one with no lane left with OPEN_LANES; one that passes every
step, with settings saved at both ends or else by full adaptation, goes UP at the width both ends share, with fresh sequence numbers and credits,
and the settings of a full adaptation are to be saved for the pairing; a retrain tries every lane that is neither open nor shorted and keeps the
numbers, unless it shows another peer; a DOWN port retries. Identity (R291, R292): an accepted ID is recorded; one that names another cascade holds
the port as MISWIRE; until both ends have accepted, a locked port sends its own. Another identity on a port that carried brings a full training. The
model's choices that it rests on: log entries 14, 113 and 118. -/
def Obligations.PortTrainingAndIdentity : Prop :=
  (∀ (port : Fin 64) (tr : Training) (s : State) (p : Port), p = s.port port.val →
     (s.portEnabled port.val = true → p.carries = false → p.state ≠ .retrain → tr.terminated = 0 →
       ∃ t, exec (.portTraining port tr) s = .next t ∧ (t.port port.val).state = .down ∧ (t.port port.val).reason = BitVec.ofNat 4 rNoPeer ∧
         t.cores = s.cores ∧ t.deep = s.deep) ∧
     (s.portEnabled port.val = true → p.carries = false → p.state ≠ .retrain → tr.terminated ≠ 0 → laneSet tr = 0 →
       ∃ t, exec (.portTraining port tr) s = .next t ∧ (t.port port.val).state = .down ∧ (t.port port.val).reason = BitVec.ofNat 4 rOpenLanes ∧
         (t.port port.val).driversOff = tr.shorted ∧ t.cores = s.cores ∧ t.deep = s.deep) ∧
     (∀ m g w, s.portEnabled port.val = true → p.carries = false → p.state ≠ .retrain → p.txWait = [] → laneSet tr ≠ 0 → tr.laneOrderBad = false →
       s.savedStand port.val tr = true ∨ tr.eqOk = true → tr.lockOk = true → tr.peerId = some m → s.idOk port.val m = true →
       g = laneSet tr &&& (if s.savedStand port.val tr = true then tr.savedQualified else tr.qualified) → g ≠ 0 →
       w = widthOf g (BitVec.ofNat 8 (numAt m 13 1)) → w ≠ 0 → max (bitsOf (s.portEntry port.val).toNat 27 24) (numAt m 14 1) ≤ w →
       ∃ t, exec (.portTraining port tr) s = .next t ∧ (t.port port.val).state = (if w = 8 then .up else .upNarrow) ∧
         (t.port port.val).width = BitVec.ofNat 4 w ∧ (t.port port.val).good = g ∧ (t.port port.val).txSeq = 0 ∧ (t.port port.val).rxExp = 0 ∧
         (t.port port.val).replay = [] ∧ (t.port port.val).txCredits = startCredits ∧ (t.port port.val).peerSerial = BitVec.ofNat 64 (numAt m 2 8) ∧
         (t.port port.val).group = groupMask g (BitVec.ofNat 8 (numAt m 13 1)) ∧ (t.port port.val).reversed = tr.reversed ∧
         (t.port port.val).polarity = tr.inverted ∧ (t.port port.val).driversOff = tr.shorted ∧
         (∀ k, s.savedStand port.val tr = false → tr.seen = some k → (port.val, k.1, k.2) ∈ t.nv.newPairings) ∧
         t.cores = s.cores ∧ t.deep = s.deep) ∧
     (∀ m g w, p.carries = true → p.txWait = [] → p.otherPeer tr = false → tr.lockOk = true → tr.qualified ≠ 0 → tr.peerId = some m → s.idOk port.val m = true → g = p.lanes &&& tr.qualified →
       g ≠ 0 → w = widthOf g (BitVec.ofNat 8 (numAt m 13 1)) → w ≠ 0 → max (bitsOf (s.portEntry port.val).toNat 27 24) (numAt m 14 1) ≤ w →
       ∃ t, exec (.retrain port tr) s = .next t ∧ (t.port port.val).state = (if w = 8 then .up else .upNarrow) ∧
         (t.port port.val).width = BitVec.ofNat 4 w ∧ (t.port port.val).txSeq = p.txSeq ∧ (t.port port.val).rxExp = p.rxExp ∧
         (t.port port.val).replay = p.replay ∧ t.cores = s.cores ∧ t.deep = s.deep) ∧
     (p.carries = true → p.otherPeer tr = true → tr.terminated = 0 → ∃ t, exec (.retrain port tr) s = .next t ∧
       (t.port port.val).state = .down ∧ (t.port port.val).reason = BitVec.ofNat 4 rNoPeer ∧ (t.port port.val).replay = [] ∧ t.deep = s.deep) ∧
     (s.portEnabled port.val = true → p.state = .down → ∃ t, exec (.portRetryTimer port) s = .next t ∧ (t.port port.val).state = .training ∧
       (t.port port.val).retries = p.retries + 1 ∧ t.cores = s.cores)) ∧
  (∀ (port : Fin 64) (m : Bytes) (s : State) (p : Port), p = s.port port.val →
     (linkMsgOk m = true → numAt m 0 1 = 1 → p.state ≠ .disabled → (p.carries = true ∨ p.state = .retrain → p.otherId m = false) →
       s.idOk port.val m = true → ∃ t, exec (.id port m) s = .next t ∧
       t.port port.val = { p with
         idAccepted := true
         peerSerial := BitVec.ofNat 64 (numAt m 2 8), peerPkg := BitVec.ofNat 12 (numAt m 10 2), peerPort := BitVec.ofNat 6 (numAt m 12 1)
         peerGrade := BitVec.ofNat 4 (numAt m 15 1), peerDepth := BitVec.ofNat 8 (numAt m 26 1), peerStepping := BitVec.ofNat 8 (numAt m 27 1)
         peerAccepted := decide (numAt m 1 1 / 2 % 2 = 1) } ∧ t.cores = s.cores) ∧
     (linkMsgOk m = true → numAt m 0 1 = 1 → p.state ≠ .disabled → (p.carries = true ∨ p.state = .retrain → p.otherId m = false) → numAt m 16 4 ≠ s.cascadeId.toNat → ∃ t, exec (.id port m) s = .next t ∧
       (t.port port.val).state = .held ∧ (t.port port.val).reason = BitVec.ofNat 4 rMiswire ∧ t.deep = s.deep) ∧
     (linkMsgOk m = true → numAt m 0 1 = 1 → p.carries = true ∨ p.state = .retrain →
       numAt m 2 8 ≠ p.peerSerial.toNat ∨ numAt m 12 1 ≠ p.peerPort.toNat → ∃ t, exec (.id port m) s = .next t ∧
       (t.port port.val).state = .training ∧ (t.port port.val).replay = [] ∧ (t.port port.val).peerSerial = p.peerSerial ∧ t.deep = s.deep) ∧
     (p.lock = true → p.idAccepted = false ∨ p.peerAccepted = false → ∃ t b, exec (.idTimer port) s = .next t ∧ t.out = s.out ++ [.frame port b] ∧
       t.cores = s.cores ∧ t.mesh = s.mesh))

/-- Packets that cross (R281 to R285, R287): a write that comes in for a core of this package goes to the mesh from the link die; a packet whose route
leads through a port of this link die with credits leaves as frames, and without them it waits at the port; one whose route leads to another link
die goes there over the hull, and a kind that no link carries is discarded. The model's choices that it rests on: log entries 12, 52, 58, 131 and
133. -/
def Obligations.PacketsCrossLinkDies : Prop :=
  ∀ (l : Fin 8) (port : Fin 64) (p : Packet) (s : State),
    (port.val / 8 = l.val → p.dst.pkg = s.pkg → p.pkind = 2 → (s.coreAt p.dst).isSome = true → s.portDelay port.val true = none →
      ∃ t q, exec (.linkDieIngress l port p) s = .next t ∧ t.waiting = s.waiting ++ [q] ∧ q.pkind = 2 ∧ q.dst = p.dst ∧ q.hdr = p.hdr ∧ q.data = p.data ∧
        q.exit = 0 ∧ q.port = (if l.val < 4 then 3 else 1) ∧ t.mesh = s.mesh ∧ t.cores = s.cores ∧ t.deep = s.deep) ∧
    (∀ i f, f = (fun q => decide (q = p)) → p.dst.pkg ≠ s.pkg → p.wait = none → p.pkind = 2 → s.waits f = false → (s.croute l.val p.dst.pkg).getLsbD 15 = true →
      bitsOf (s.croute l.val p.dst.pkg).toNat 14 12 = l.val → (s.portsToward (s.croute l.val p.dst.pkg)) ≠ [] →
      (s.portsToward (s.croute l.val p.dst.pkg))[sourceK p.src % (s.portsToward (s.croute l.val p.dst.pkg)).length]? = some i →
      s.portDelay i false = none → (s.port i).carries = true → (s.port i).txWait = [] →
      (flitCount p ≤ SMap.get 0 (s.port i).txCredits (creditClass (crossing p (s.dateline i))) →
        (s.port i).replay.length + (flitCount p + 4) / 5 ≤ 1024 →
        ∃ t, exec (.linkDieEgress l p) s = .next t ∧ t.mesh = (s.arrived f).mesh ∧ (s.port i).replay.length < (t.port i).replay.length ∧
          (t.port i).txWait = [] ∧ t.cores = s.cores ∧ t.deep = s.deep) ∧
      (SMap.get 0 (s.port i).txCredits (creditClass (crossing p (s.dateline i))) < flitCount p →
        ∃ t, exec (.linkDieEgress l p) s = .next t ∧ t.mesh = (s.arrived f).mesh ∧ (t.port i).replay = (s.port i).replay ∧
          (t.port i).txWait = [{ p with route := 0, wait := none }] ∧ t.out = s.out ∧ t.cores = s.cores)) ∧
    (∀ f eg, f = (fun q => decide (q = p)) → p.dst.pkg ≠ s.pkg → p.wait = none → p.pkind = 2 → s.waits f = false →
      (s.croute l.val p.dst.pkg).getLsbD 15 = true → eg = bitsOf (s.croute l.val p.dst.pkg).toNat 14 12 → eg ≠ l.val →
      exec (.linkDieEgress l p) s = .next ((s.arrived f).injectLink l (toComp { p with route := 0, wait := none } 2 eg))) ∧
    (p.dst.pkg ≠ s.pkg → p.wait = none → p.pkind = 0xA → ∃ t, exec (.linkDieEgress l p) s = .next t ∧ t.cores = s.cores ∧ t.deep = s.deep ∧
      t.ports = s.ports)

/-! ### Rings and descriptors -/

/-- Doorbells and ring controls (R306 to R309, R311, R425): an index in range is taken; one out of range, or a CQ_HEAD beyond what was written, stops
the submission ring with its cause; a ring is enabled by a write that Table 16.4's interlocks admit, and a write that they refuse changes nothing.
Nothing but the host interface and the record of outputs moves. The model's choices that it rests on: log entries 10 and 68. -/
def Obligations.RingRegistersAndDoorbells : Prop :=
  ∀ (p : Nat) (page : BitVec 7) (pg : Fin 81) (v : BitVec 32) (s : State) (r : Ring) (i n : Nat),
    s.hears = true → r = s.ring p → page.toNat = p → pg.val = p → i = v.toNat % 65536 → n = (i + 2 ^ r.cqSize.toNat - r.cqHost.toNat) % 2 ^ r.cqSize.toNat →
    (p ≤ 63 → r.sqEnable = true → i < 2 ^ r.sqSize.toNat →
      ∃ t, exec (.sqTailDoorbell page v) s = .next t ∧ t.ring p = { r with sqTail := BitVec.ofNat 16 i } ∧ t = { s with host := t.host }) ∧
    (p ≤ 63 → r.sqEnable = true → 2 ^ r.sqSize.toNat ≤ i →
      ∃ t, exec (.sqTailDoorbell page v) s = .next t ∧ t.ring p = { r with sqEnable := false, sqStopped := true, sqCause := 1 } ∧
        t = { s with host := t.host, out := t.out }) ∧
    (p ≤ 80 → r.cqEnable = true → i < 2 ^ r.cqSize.toNat → n ≤ r.cqUsed → r.heldC = [] →
      ∃ t, exec (.cqHeadDoorbell page v) s = .next t ∧ t.ring p = { r with cqHost := BitVec.ofNat 16 i, cqUsed := r.cqUsed - n } ∧
        t = { s with host := t.host }) ∧
    (p ≤ 63 → r.cqEnable = true → (2 ^ r.cqSize.toNat ≤ i ∨ r.cqUsed < n) →
      ∃ t c, exec (.cqHeadDoorbell page v) s = .next t ∧ t.ring p = { r with sqEnable := false, sqStopped := true, sqCause := c } ∧
        (c = if 2 ^ r.cqSize.toNat ≤ i then 1 else 3) ∧ t = { s with host := t.host, out := t.out }) ∧
    (p ≤ 63 → v.getLsbD 31 = true → r.sqEnable = false → r.cqEnable = true → 4 ≤ (v.extractLsb' 0 5).toNat → (v.extractLsb' 0 5).toNat ≤ 16 →
      ∃ t, exec (.sqEnableWrite pg v) s = .next t ∧ t = { s with host := t.host } ∧
        t.ring p = { r with sqEnable := true, sqSize := v.extractLsb' 0 5, sqStopped := false, sqCause := 0, sqHead := 0, sqTail := 0 }) ∧
    (p ≤ 63 → v.getLsbD 31 = true → (r.sqEnable = true ∨ r.cqEnable = false ∨ (v.extractLsb' 0 5).toNat < 4 ∨ 16 < (v.extractLsb' 0 5).toNat) →
      exec (.sqEnableWrite pg v) s = .next s) ∧
    (v.getLsbD 31 = true → r.cqEnable = false → 4 ≤ (v.extractLsb' 0 5).toNat → (v.extractLsb' 0 5).toNat ≤ 16 →
      ∃ t, exec (.cqEnableWrite pg v) s = .next t ∧ t = { s with host := t.host } ∧ (t.ring p).cqEnable = true ∧ (t.ring p).cqSize = v.extractLsb' 0 5 ∧
        (t.ring p).cqHost = 0 ∧ (t.ring p).cqWr = 0 ∧ (t.ring p).cqUsed = 0 ∧ (t.ring p).cqPhase = true ∧ (t.ring p).sqEnable = r.sqEnable) ∧
    (v.getLsbD 31 = false → r.cqEnable = true → (r.sqEnable = true ∨ r.inProgress ≠ []) → exec (.cqEnableWrite pg v) s = .next s)

/-- A fetch takes the oldest descriptor of its ring, or stops the ring where it fails (R304, R308, R309, R317); a descriptor whose work has ended, or
whose opcode is reserved, is decided by its completion (R325, Table 11.7), a DMA that an ABORT cut as aborted (R326), and a RESTORE's decision
leaves the job HALTED. The model's choices that it rests on: log entry 14. -/
def Obligations.DescriptorsAreFetchedAndDecided : Prop :=
  ∀ (r : Fin 64) (tag : BitVec 16) (b : BitVec 512) (s : State) (g : Ring), g = s.ring r.val →
    (s.mayFetch r.val = true → ∃ t, exec (.descriptorFetch r (some b)) s = .next t ∧
      (t.ring r.val).inProgress = g.inProgress ++ [{ bits := b, serial := s.host.taken }] ∧ t.host.taken = s.host.taken + 1 ∧
      (t.ring r.val).sqHead.toNat = (g.sqHead.toNat + 1) % 2 ^ g.sqSize.toNat % 65536 ∧
      t.out = s.out ++ [.hostWrite g.sqWb (leBytes 4 ((g.sqHead.toNat + 1) % 2 ^ g.sqSize.toNat))]) ∧
    (s.mayFetch r.val = true → ∃ t, exec (.descriptorFetch r none) s = .next t ∧
      t.ring r.val = { g with sqEnable := false, sqStopped := true, sqCause := 2 } ∧ t.host.aer = (s.logRead .fetch).host.aer) ∧
    (∀ d st res, s.findDesc r.val tag (s.ripe r.val) = some d → d.ended = some (st, res) → d.cut = true → s.ringReady r →
      ∃ t, exec (.completionDecision r tag) s = .next t ∧ Decided s t r d 0 res true false ∧ t.job = s.job) ∧
    (∀ d st res, s.findDesc r.val tag (s.ripe r.val) = some d → d.ended = some (st, res) → d.cut = false → s.ringReady r →
      (st ≠ 0 ∨ (d.op ≠ 8 ∧ d.op ≠ 9 ∧ d.op ≠ 0xB) ∨ d.op = 9) →
      ∃ t, exec (.completionDecision r tag) s = .next t ∧ Decided s t r d st.toNat res false false ∧
        (st = 0 → d.op = 9 → t.job.state = .halted) ∧ (st ≠ 0 ∨ d.op ≠ 9 → t.job = s.job)) ∧
    (∀ d, s.findDesc r.val tag (s.ripe r.val) = some d → d.ended = none → d.started = false → s.ringReady r →
      ∃ t, exec (.completionDecision r tag) s = .next t ∧ Decided s t r d 1 0 false false) ∧
    (s.findDesc r.val tag (s.ripe r.val) = none → exec (.completionDecision r tag) s = .next s)

/-- A descriptor that fails a check when it starts is decided with that check's status and has no effect: BAD_OPCODE, then MALFORMED, then BAD_STATE
(R315); and a NOP that passes them is decided with 0 (Table 11.5). -/
def Obligations.DescriptorsThatFailTheirCheck : Prop :=
  ∀ (r : Fin 64) (tag : BitVec 16) (op : Nat) (i : Instr) (s : State) (d : Desc) (st : Nat),
    s.starts r tag op d → s.ringReady r →
    (op = 2 ∨ op = 3 → s.findDesc r.val tag (fun x => decide (x.op = op) && x.started && x.ended.isNone) = none) →
    (op, i) ∈ [(0, Instr.nop r tag), (1, .loadImage r tag), (2, .dmaToDeep r tag none), (3, .dmaFromDeep r tag 1), (4, .armLaunch r tag),
      (5, .signal r tag), (6, .wait r tag), (7, .catchStop r tag), (8, .drain r tag), (9, .restore r tag), (0xA, .digest r tag), (0xB, .test r tag { results := [] }),
      (0xC, .abort r tag)] →
    (op = 1 ∨ op = 9 → s.homesFree = true) →
    ((s.startFault d = some st ∨ (op = 0 ∧ s.startFault d = none ∧ st = 0)) →
      ∃ t, exec i s = .next t ∧ Decided s t r d st 0 false false ∧ 
        t = { s with host := t.host, out := t.out, mesh := t.mesh, waiting := t.waiting, spent := t.spent, cuts := t.cuts }) ∧
    (s.descMalformed d = true → s.startFault d = some 2) ∧
    (s.descMalformed d = false → stateAllowed op s.job.state = false → s.startFault d = some 3)

/-- LOAD_IMAGE and the two DMA descriptors (R260, R262, R264, R271, R272, R304, R320, R326, R404): a refused image is decided with its status and
offset, an accepted one leaves the job LOADED with the image in force. A DMA sends each segment of its run whole to the segment's home, or asks that
home for it. The home stores or reads what lies in its own region and has the rest stored by the moon die that holds it; with the last one the work
ends. A part in a moon die that is off ends it TARGET_OFFLINE, a drain area that is closed meanwhile with its status, a failed read of the host
HOST_ERROR, and an ABORT at the segment's end. The model's choices that it rests on: log entries 50, 51, 61, 88, 121, 135, 136, 137, 139 and 145. -/
def Obligations.ImagesAndSegmentsMove : Prop :=
  ∀ (r : Fin 64) (tag : BitVec 16) (s : State) (d : Desc),
    (s.homesFree = false → exec (.loadImage r tag) s = .next s) ∧
    (s.homesFree = true → s.starts r tag 1 d → s.startFault d = none →
      (s.deepOff = true ∨ s.power.coolantStop = true → s.ringReady r → ∃ t, exec (.loadImage r tag) s = .next t ∧ Decided s t r d 0x0E 0 false false) ∧
      (∀ b u img, b = s.begun r d → s.deepOff = false → s.power.coolantStop = false → d.q2.toNat % 2112 = 0 →
        d.q1.toNat + d.q2.toNat ≤ b.areaBase 0 → b.readContainers d.q1.toNat (d.q2.toNat / 2112) = (u, .inr img) → u.verdictOf img = none →
        ∃ t, exec (.loadImage r tag) s = .next t ∧ WorkEnded t r d 0 0 ∧ t.job.state = .loaded ∧ t.job.image = img ∧
          t.job.imageOffset = d.q1.setWidth 48 ∧ t.conns = [])) ∧
    (∀ op o, (op = 2 ∨ op = 3) → s.findDesc r.val tag (fun x => decide (x.op = op) && x.started && x.ended.isNone) = some d →
      s.dmaRefused d = none → d.part = none → o = d.q2.toNat + d.bytes →
      (∀ seg, op = 2 → 64 ≤ seg.length → seg.length = segSpace seg → segPlen seg ≤ 4016 → draocOk seg = true → d.bytes + seg.length ≤ d.q3.toNat →
        ∃ t p x, exec (.dmaToDeep r tag (some seg)) s = .next t ∧ t.waiting = s.waiting ++ [p] ∧ p.pkind = 0xA ∧ p.exit = 1 ∧ p.comp.toNat = moonOf o ∧
          p.hdr = (deepHeader 6 false false 0 0 o seg.length 0).setWidth 256 ∧ p.data = seg ∧ p.txn = some d.serial ∧ t.deep = s.deep ∧
          x ∈ (t.ring r.val).inProgress ∧ x.serial = d.serial ∧ x.part = some (o, seg.length) ∧ x.got = seg) ∧
      (op = 2 → ∃ t, exec (.dmaToDeep r tag none) s = .next t ∧ WorkEnded t r d 0x0A d.moved ∧ t.deep = s.deep ∧
        t.host.aer = (s.logRead .dma).host.aer) ∧
      (∀ n, op = 3 → n = min 4096 (d.q3.toNat - d.bytes) → ∃ t p x, exec (.dmaFromDeep r tag 1) s = .next t ∧ t.waiting = s.waiting ++ [p] ∧
        p.pkind = 0xA ∧ p.exit = 1 ∧ p.comp.toNat = moonOf o ∧ p.hdr = (deepHeader 5 false false 0 0 o n 0).setWidth 256 ∧ p.data = [] ∧
        p.txn = some d.serial ∧ t.deep = s.deep ∧ x ∈ (t.ring r.val).inProgress ∧ x.serial = d.serial ∧ x.part = some (o, n))) ∧
    (∀ (m : Fin 4) h o n data f i, o = dhOffset h → n = dhLength h → i = (if d.op = 2 then Instr.dmaWrite m h data else .dmaRead m h) →
      (d.op = 2 ∨ d.op = 3) → (d.op = 2 → deepHeaderOk 6 h = true ∧ data.length = n) → (d.op = 3 → deepHeaderOk 5 h = true ∧ data = []) →
      f = isForComp 1 m.val 0xA (h.setWidth 256) data → s.waits f = false → moonOf o = m.val → o + n ≤ s.capacity →
      s.dmaFor o n (s.txnOf f) = some (r.val, d) → d ∈ (s.ring r.val).inProgress →
      (s.moonOff m.val = true → (d.op = 2 → s.areaClosed o n = false) → ∃ t, exec i s = .next t ∧ WorkEnded t r d 0x0E d.moved ∧ t.deep = s.deep) ∧
      (d.op = 2 → s.areaClosed o n = true → ∃ t, exec i s = .next t ∧ WorkEnded t r d 7 d.moved ∧ t.deep = s.deep) ∧
      (d.op = 2 → s.areaClosed o n = false → s.moonOff m.val = false → s.home m.val = none → o % 4096 + n ≤ 4096 →
        ∃ t, exec i s = .next t ∧ t.deep = (s.deepPut o data).deep ∧ t.home m.val = none ∧
          (d.bytes + d.got.length = d.q3.toNat → WorkEnded t r d 0 (d.moved + 1)) ∧
          (d.bytes + d.got.length ≠ d.q3.toNat → d.abortedBy ≠ [] → WorkEnded t r d 0 (d.moved + 1) ∧
            ∃ x ∈ (t.ring r.val).inProgress, x.serial = d.serial ∧ x.cut = true)) ∧
      (∀ c, d.op = 2 → s.areaClosed o n = false → anyPart s.moonOff o n = false → s.home m.val = none → c = 4096 - o % 4096 → c < n →
        ∃ t p, exec i s = .next t ∧ t.deep = (s.deepPut o (data.take c)).deep ∧ t.home m.val = some (.put o n (s.txnOf f) (data.drop c)) ∧
          t.waiting = s.waiting ++ [p] ∧ p.pkind = 0xA ∧ p.exit = 1 ∧ p.comp.toNat = moonOf (o + c) ∧
          p.hdr = (deepHeader 4 false false 0 0 (o + c) (n - c) 0).setWidth 256 ∧ p.data = data.drop c) ∧
      (∀ g l b, d.op = 3 → s.moonOff m.val = false → s.home m.val = none → g = s.deepBytes o 64 → l = segSpace g → b = g ++ s.deepBytes (o + 64) (l - 64) →
        l ≤ n → o % 4096 + l ≤ 4096 → s.deepBad o l = none → b.length = l → segPlen b = segPlen g → segPlen b ≤ 4016 → draocOk b = true →
        d.bytes + l = d.q3.toNat → ∃ t, exec i s = .next t ∧ WorkEnded t r d 0 (d.moved + 1) ∧ t.deep = s.deep ∧
          Output.hostWrite (d.q1 + BitVec.ofNat 64 d.bytes) b ∈ t.out))

/-- ARM_LAUNCH, CATCH_STOP, DRAIN and RESTORE (R301, R197, R200, R129, R263, R132, Table 11.10): when each takes effect and on what; a drain waits until
nothing is on its way to or from the job's clusters; a job that was HALTED within a phase change resumes with its transfer schedule. The model's
choices that it rests on: log entries 76 and 143. -/
def Obligations.JobDescriptors : Prop :=
  ∀ (r : Fin 64) (tag : BitVec 16) (s b : State) (d : Desc), b = s.begun r d → s.startFault d = none →
    (s.starts r tag 4 d → s.namesUnmapped = false → s.timeOk = false → s.ringReady r →
      ∃ t, exec (.armLaunch r tag) s = .next t ∧ Decided s t r d 0x0B 0 false false ∧ t.job = s.job) ∧
    (s.starts r tag 4 d → s.namesUnmapped = false → s.timeOk = true → d.q1.toNat < s.time.sc.toNat + 100000 → s.ringReady r →
      ∃ t, exec (.armLaunch r tag) s = .next t ∧ Decided s t r d 0x0C 0 false false ∧ t.job = s.job) ∧
    (∀ q, s.starts r tag 4 d → s.namesUnmapped = false → s.timeOk = true → s.time.sc.toNat + 100000 ≤ d.q1.toNat → s.job.between = .transfer q false →
      ∃ t, exec (.armLaunch r tag) s = .next t ∧ t.job.state = .armed ∧ t.job.launch = d.q1 ∧ t.job.between = .transfer q true) ∧
    (s.starts r tag 4 d → s.namesUnmapped = false → s.timeOk = true → s.time.sc.toNat + 100000 ≤ d.q1.toNat →
      (∀ q, s.job.between ≠ .transfer q false) → ∃ t, exec (.armLaunch r tag) s = .next t ∧ t.job.state = .armed ∧ t.job.launch = d.q1 ∧ t.job.tag = d.q3.extractLsb' 0 32 ∧
        (s.job.state = .loaded → t.genhan.log = [] ∧ t.genhan.numOr = 0) ∧ (s.job.state ≠ .loaded → t.genhan.log = s.genhan.log) ∧
        (∀ k ∈ s.job.members, (s.cluster k).run = .held ∨ (s.cluster k).run = .stopped →
          (t.cluster k).run = .held ∧ (t.cluster k).armed = true ∧ (s.job.state = .loaded → (t.cluster k).step = d.q2.extractLsb' 0 48))) ∧
    (s.starts r tag 7 d → s.jobLive = true → ∃ t, exec (.catchStop r tag) s = .next t ∧ t.jobLive = false ∧ t.deep = s.deep) ∧
    (s.starts r tag 7 d → s.jobLive = false → exec (.catchStop r tag) s = .next b) ∧
    (s.starts r tag 8 d → s.deepOff = false → s.job.members.any s.offline = false →
      (s.membersQuiet && s.settled s.job.members) = true →
      ∃ t, exec (.drain r tag) s = .next t ∧ WorkEnded t r d 0 (if s.nextArea then 1 else 0) ∧ t.job = s.job ∧
        (∀ c, (t.core c).spad = (s.core c).spad ∧ (t.core c).v = (s.core c).v ∧ (t.core c).store = (s.core c).store) ∧
        (∀ c, clusterOf c ∈ s.job.members → (s.logical (clusterOf c)).isSome = true → (t.core c).runAhead = []) ∧
        (∀ k, t.cluster k = s.cluster k ∨ t.cluster k = { s.cluster k with drained := true }) ∧
        (s.nextArea = true → t.ckpt.image1 = some s.imageId ∧ t.ckpt.phase1 = s.job.phase ∧ t.ckpt.area0 = s.ckpt.area0) ∧
        (s.nextArea = false → t.ckpt.image0 = some s.imageId ∧ t.ckpt.phase0 = s.job.phase ∧ t.ckpt.area1 = s.ckpt.area1)) ∧
    (s.starts r tag 8 d → s.deepOff = false → s.job.members.any s.offline = false →
      (s.membersQuiet && s.settled s.job.members) = false →
      ∃ t, exec (.drain r tag) s = .next t ∧ t.ckpt = s.ckpt ∧ t.clusters = s.clusters ∧ t.cores = s.cores) ∧
    (s.homesFree = false → exec (.restore r tag) s = .next s) ∧
    (s.starts r tag 9 d → s.homesFree = true → s.ckpt.latest = none → s.ringReady r →
      ∃ t, exec (.restore r tag) s = .next t ∧ Decided s t r d 0x11 0 false false ∧ t.job = s.job) ∧
    (∀ a l u n, s.starts r tag 9 d → s.homesFree = true → s.ckpt.latest = some a → l = (if a then s.ckpt.area1 else s.ckpt.area0) →
      s.deepOff = false → s.power.coolantStop = false → (l.filterMap fun x => s.physical x.die.val x.logical).any s.offline = false →
      (if a then s.ckpt.image1 else s.ckpt.image0) = some s.imageId →
      b.clearCounters.restoreAll (if a then 1 else 0) l 0 = (u, n, none) →
      ∃ t, exec (.restore r tag) s = .next t ∧ WorkEnded t r d 0 (if a then 1 else 0) ∧ t.job.phase = (if a then s.ckpt.phase1 else s.ckpt.phase0) ∧
        t.conns = (if a then s.ckpt.conns1 else s.ckpt.conns0) ∧ t.clusters = u.clusters ∧ t.cores = u.cores ∧
        t.job.members = l.filterMap fun x => u.physical x.die.val x.logical)

/-- SIGNAL and WAIT (R318): each sends a remote request to the word it names; a WAIT's reply decides it where the condition holds, and is asked for anew
where it does not; its time limit decides it with the last value read. The model's choices that it rests on: log entry 75. -/
def Obligations.RequestDescriptors : Prop :=
  ∀ (r : Fin 64) (tag : BitVec 16) (s : State) (d : Desc) (c : CoreAt),
    (s.starts r tag 5 d → s.startFault d = none → s.coreAt (faCore d.q1) = some c →
      ∃ t p, exec (.signal r tag) s = .next t ∧ t.waiting = s.waiting ++ [p] ∧ p.pkind = 3 ∧ p.dst = faCore d.q1 ∧ p.src = s.hostName ∧
        p.txn = some d.serial ∧ accFA p.hdr = d.q1 ∧ accOp p.hdr = 2 ∧ accAtop p.hdr = 0 ∧ accValue p.hdr = d.q2.extractLsb' 0 32 ∧
        t.cores = s.cores) ∧
    (s.starts r tag 6 d → s.startFault d = none → s.coreAt (faCore d.q1) = some c →
      ∃ t p, exec (.wait r tag) s = .next t ∧ t.waiting = s.waiting ++ [p] ∧ p.pkind = 3 ∧ p.dst = faCore d.q1 ∧ p.src = s.hostName ∧
        p.txn = some d.serial ∧ accFA p.hdr = d.q1 ∧ accOp p.hdr = 1 ∧ accLength p.hdr = 4 ∧ t.cores = s.cores) ∧
    (∀ q w, s.findDesc r.val tag (fun x => decide (x.op = 6) && x.started && (s.arriving (isHostReply x.serial)).isSome) = some d →
      s.arriving (isHostReply d.serial) = some q → w = BitVec.ofNat 32 (leNat (q.data.take 4)) →
      (bitsOf q.hdr2.toNat 87 84 ≠ 0 → s.ringReady r → ∃ t, exec (.waitPoll r tag) s = .next t ∧
        Decided s t r d (replyStatusCode (bitsOf q.hdr2.toNat 87 84)) d.value false false) ∧
      (bitsOf q.hdr2.toNat 87 84 = 0 → condHolds (d.q2.extractLsb' 32 2) w (d.q2.extractLsb' 0 32) = true → s.ringReady r →
        ∃ t, exec (.waitPoll r tag) s = .next t ∧ Decided s t r d 0 w false false) ∧
      (bitsOf q.hdr2.toNat 87 84 = 0 → condHolds (d.q2.extractLsb' 32 2) w (d.q2.extractLsb' 0 32) = false →
        ∃ t x, exec (.waitPoll r tag) s = .next t ∧ x ∈ (t.ring r.val).inProgress ∧ x.serial = d.serial ∧ x.value = w ∧ t.out = s.out)) ∧
    (s.findDesc r.val tag (fun x => decide (x.op = 6) && x.started && decide (x.q3.toNat ≠ 0) &&
        decide (x.startSc.toNat + 1000 * x.q3.toNat ≤ s.time.sc.toNat)) = some d → s.ringReady r →
      ∃ t, exec (.waitTimeLimit r tag) s = .next t ∧ Decided s t r d 0x0F d.value false false)

/-- DIGEST, TEST and ABORT (R320, R326, R360, R371): the oldest records go out; a named cluster comes under test, and once it stands behind its detours
its verdict decides the descriptor; an abort of what has not started, or of a DMA between two segments, decides it as aborted, one of a DMA that
moves a segment waits for that, and one that finds no target answers 0x10. The model's choices that it rests on: log entries 14 and 69. -/
def Obligations.DigestTestAndAbortDescriptors : Prop :=
  ∀ (r : Fin 64) (tag : BitVec 16) (s : State) (d : Desc) (n : Nat), s.startFault d = none →
    (s.starts r tag 0xA d → n = min (d.q2.toNat / 64) s.genhan.digests.length → s.ringReady r →
      ∃ t, exec (.digest r tag) s = .next t ∧ t.genhan.digests = s.genhan.digests.drop n ∧
        Decided s t r d (if s.genhan.digests.drop n = [] then 0 else 0x14) (BitVec.ofNat 32 n) false false ∧
        (∀ j x, 0 < j → j < n → s.genhan.digests[j]? = some x → Output.hostWrite (d.q1 + BitVec.ofNat 64 (64 * j)) (leBytes 64 x.toNat) ∈ t.out)) ∧
    (∀ l : TestRuns, s.starts r tag 0xB d → s.testNamed d = none → s.ringReady r →
      ∃ t, exec (.test r tag l) s = .next t ∧ Decided s t r d 3 0 false false ∧ t.clusters = s.clusters) ∧
    (∀ l : TestRuns, s.starts r tag 0xB d → s.testNamed d = some [] → s.ringReady r →
      ∃ t, exec (.test r tag l) s = .next t ∧ Decided s t r d 0 (BitVec.ofNat 32 d.moved) false false ∧ t.clusters = s.clusters) ∧
    (∀ (l : TestRuns) k, s.starts r tag 0xB d → s.testNamed d = some [k] → s.testsOn k.die < 8 →
      ∃ t x, exec (.test r tag l) s = .next t ∧ (t.cluster k).testing = true ∧ (t.cluster k).diag = true ∧ (t.cluster k).quiesced = true ∧
        (t.cluster k).stress = d.q2.getLsbD 0 ∧ x ∈ (t.ring r.val).inProgress ∧ x.serial = d.serial ∧ x.ended = d.ended ∧
        x.batch = [(k, verdictFor l.results k)] ∧ x.verdicts = [] ∧ (∀ c : CoreAt, clusterOf c ≠ k → t.core c = s.core c)) ∧
    (∀ k v, s.findDesc r.val tag (s.ripe r.val) = some d → d.op = 0xB → d.started = true → d.ended = none → d.batch = [(k, v)] → d.verdicts = [] →
      d.ops = [] → (s.cluster k).testing = true → s.genhan.suspectTests = [] → s.job.inPlace.contains k = false → s.ringReady r →
      ∃ t, exec (.completionDecision r tag) s = .next t ∧ (t.cluster k).testing = false ∧
        Decided s t r d 0 (BitVec.ofNat 32 (d.moved + if verdictFailed (s.ruled k v) = true then 1 else 0)) false false) ∧
    (∀ p : Fin 64, p.val = bitsOf d.q1.toNat 5 0 → s.starts r tag 0xC d →
      (∀ x, (s.begun r d).findDesc p.val (d.q1.extractLsb' 16 16) (fun _ => true) = some x → x.op ≠ 0xC → x.started = false → s.ringReady p →
        ∃ t, exec (.abort r tag) s = .next t ∧ Decided s t p x 0 0 true false ∧ ∀ y ∈ (t.ring r.val).inProgress, y.serial ≠ d.serial) ∧
      (∀ x, (s.begun r d).findDesc p.val (d.q1.extractLsb' 16 16) (fun _ => true) = some x → (x.op = 2 ∨ x.op = 3) → x.started = true → x.ended = none →
        (x.part = none → s.ringReady p → ∃ t, exec (.abort r tag) s = .next t ∧ Decided s t p x 0 (BitVec.ofNat 32 x.moved) true false ∧
          t.deep = s.deep) ∧
        (x.part.isSome = true → ∃ t y, exec (.abort r tag) s = .next t ∧ y ∈ (t.ring p.val).inProgress ∧ y.serial = x.serial ∧ y.part = x.part ∧
          y.abortedBy = x.abortedBy ++ [(r, d.serial)] ∧ t.deep = s.deep ∧ t.out = s.out)) ∧
      ((s.begun r d).findDesc p.val (d.q1.extractLsb' 16 16) (fun _ => true) = none →
        (s.ring p.val).decided.find? (fun x => decide (x.1 = d.q1.extractLsb' 16 16)) = none → s.ringReady r →
        ∃ t, exec (.abort r tag) s = .next t ∧ Decided s t r d 0x10 0 false false))

/-! ### Interrupts, the link and registers -/

/-- Moderation, D3hot and the PCI Express link (R305, R313, R334, R449): causes that came within an interval send one message at its end, which starts
the next; the pending vectors go out on the return to D0, those within an interval at its end; a lost link ends the DMA descriptors with HOST_ERROR
and asks for a reset. The model's choices that it rests on: log entry 80. -/
def Obligations.InterruptsAndLinkStates : Prop :=
  ∀ (v : Fin 64) (s : State),
    (s.host.modRun.getLsbD v.val = true → s.host.modWait.getLsbD v.val = false → ∃ t, exec (.msixModerationExpiry v) s = .next t ∧
      t.host.modRun.getLsbD v.val = false ∧ (∀ j, j ≠ v.val → t.host.modRun.getLsbD j = s.host.modRun.getLsbD j) ∧ t.out = s.out) ∧
    (s.host.modRun.getLsbD v.val = true → s.host.modWait.getLsbD v.val = true → (s.msixEntry v.val).getLsbD 96 = false → s.host.d3hot = false →
      s.host.linkUp = true → ∃ t, exec (.msixModerationExpiry v) s = .next t ∧ t.host.modWait.getLsbD v.val = false ∧
        t.host.modRun.getLsbD v.val = decide (SMap.get 0 s.host.modIval v.val ≠ 0) ∧ t.out = s.out ++ [.msix v ((s.msixEntry v.val).extractLsb' 0 64) ((s.msixEntry v.val).extractLsb' 64 32)]) ∧
    (s.host.linkUp = true → exec .d3hotEntry s = .next { s with host := { s.host with d3hot := true } }) ∧
    (s.host.d3hot = true → s.host.linkUp = true → ∃ t, exec .d0Return s = .next t ∧ t.host.d3hot = false ∧
      (s.host.pba.getLsbD v.val = true → (s.msixEntry v.val).getLsbD 96 = false → t.host.pba.getLsbD v.val = false ∧
        (s.host.modRun.getLsbD v.val = false →
          Output.msix v ((s.msixEntry v.val).extractLsb' 0 64) ((s.msixEntry v.val).extractLsb' 64 32) ∈ t.out) ∧
        (s.host.modRun.getLsbD v.val = true → t.host.modWait.getLsbD v.val = true)) ∧
      ((s.msixEntry v.val).getLsbD 96 = true → t.host.pba.getLsbD v.val = s.host.pba.getLsbD v.val)) ∧
    (s.host.linkUp = true → ∃ t, exec .pcieLinkDown s = .next t ∧ t.host.linkUp = false ∧ t.host.needReset = true ∧
      (∀ p d, (p, d) ∈ s.allDescs → d.isDma = true → (∀ x ∈ (t.ring p).inProgress, x.serial ≠ d.serial) ∧
        ∃ e, (e, d.irq) ∈ (t.ring p).heldC ∧ e = completionEntry (s.time.sc.setWidth 48) d.tag 0xA false false p (BitVec.ofNat 32 d.moved)) ∧
      t.deep = s.deep ∧ t.job = s.job) ∧
    ((s.domain 60).powered = true → s.host.perst = false → s.host.linkUp = false → ∃ t, exec .pcieLinkUp s = .next t ∧ t.host.linkUp = true ∧
      t.host.heldEvents = [] ∧ t.host.needReset = s.host.needReset ∧ t.job = s.job)

/-- Writes of BAR0 (R420, R421, R427, R436, R439): a write that is not aligned, or that the host die does not take, changes nothing; the host limits are
clamped to Table 16.5; the host window is closed while the job is live; GO latches the arguments of the mailbox, and a report asked for while
another is answered is BUSY (R351); slots without a token ignore writes. What a 64-bit write puts into a register is what a read gives back. The
model's choices that it rests on: log entry 81. -/
def Obligations.RegisterWrites : Prop :=
  ∀ (o : BitVec 26) (wide : Bool) (v : BitVec 64) (s : State),
    (s.bar0Open = false ∨ (wide = true ∧ o.toNat % 8 ≠ 0) ∨ o.toNat % 4 ≠ 0 → exec (.registerWrite o wide v) s = .next s) ∧
    (s.bar0Open = true → s.boot.hostReady = true → o = 0x20C0 → wide = false → ∃ l, exec (.registerWrite o wide v) s =
        .next { s with host := { s.host with powerLimit := l } } ∧ l.toNat = max 10 (min 270 (v.toNat % 512))) ∧
    (s.bar0Open = true → s.boot.hostReady = true → o = 0x20C4 → wide = false → ∃ l q, exec (.registerWrite o wide v) s =
        .next { s with host := { s.host with maxDefer := l, testPolicy := q } } ∧ l.toNat = max 1 (min 720 (v.toNat / 65536 % 1024)) ∧
        q.toNat = (if v.toNat % 4 = 3 then 0 else v.toNat % 4)) ∧
    (s.bar0Open = true → s.boot.hostReady = true → o = 0x2080 → wide = true → exec (.registerWrite o wide v) s =
        .next (if s.windowLocked then s else { s with host := { s.host with hwBase := v.extractLsb' 12 52 } })) ∧
    (s.bar0Open = true → o = 0x4020 → wide = false → v.getLsbD 31 = true → s.host.mbox.busy = false → ∃ t, exec (.registerWrite o wide v) s = .next t ∧
        t.host.mbox.busy = true ∧ t.host.mbox.lastOp = v.extractLsb' 0 8 ∧ t.host.mbox.latched = s.host.mbox.args ∧ t.host.mbox.seq = s.host.mbox.seq) ∧
    (s.bar0Open = true → o = 0x4020 → wide = false → s.host.mbox.busy = true → v.getLsbD 31 = false ∨ v.extractLsb' 0 8 ≠ 2 ∨ s.host.mbox.lastOp ≠ 2 →
      exec (.registerWrite o wide v) s = .next s) ∧
    (s.bar0Open = true → o = 0x4020 → wide = false → s.host.mbox.busy = true → v.getLsbD 31 = true → v.extractLsb' 0 8 = 2 → s.host.mbox.lastOp = 2 →
      ∃ t, exec (.registerWrite o wide v) s = .next t ∧ t.host.mbox = { s.host.mbox with status := 4 } ∧ t.nv = s.nv) ∧
    (s.bar0Open = true → s.boot.hostReady = true → s.windowLocked = false → o = 0x2080 → wide = true → ∃ t, exec (.registerWrite o wide v) s = .next t ∧
      t.readBar0 0x2080 true = some (v &&& 0xFFFFFFFFFFFFF000) ∧ t.readBar0 0x3008 true = some s.time.sc) ∧
    (s.bar0Open = true → s.boot.hostReady = true → 0x400100 ≤ o.toNat → o.toNat < 0x400200 → o.toNat % 4 = 0 → s.host.dbg.loaded = false →
      exec (.registerWrite o wide v) s = .next s)

/-- A write of 1 to EVENT_LOST clears it, but where the device sets it in the same cycle the bit ends set (R14). -/
def Obligations.EventLostEndsSet : Prop :=
  ∀ (v : BitVec 32) (s : State), s.hears = true → v.getLsbD 0 = true →
    exec (.eventLostClear v true) s = .next { s with host := { s.host with eventLost := true } } ∧
    exec (.eventLostClear v false) s = .next { s with host := { s.host with eventLost := false } }

/-- The time and cascade settings change by no write of the host other than SET_CASCADE: not by a register write, a doorbell, a ring control or a
function reset (R431); SET_CASCADE stores the configuration and puts its package number and identity in force. -/
def Obligations.CascadeSettingsAreReadOnly : Prop :=
  ∀ (s : State) (i : Instr) (o : BitVec 26) (wide sets flash : Bool) (v : BitVec 64) (w : BitVec 32) (page : BitVec 7) (pg : Fin 81) (c : Bytes),
    (i ∈ [Instr.registerWrite o wide v, .sqTailDoorbell page w, .cqHeadDoorbell page w, .sqEnableWrite pg w, .cqEnableWrite pg w, .eventLostClear w sets, .flr] →
      ∃ t, exec i s = .next t ∧ t.time = s.time ∧ t.pkg = s.pkg ∧ t.cascadeId = s.cascadeId ∧ t.expect = s.expect ∧ t.croutes = s.croutes) ∧
    (s.mboxAt 5 = true → s.boot.hostReady = true → s.mboxAligned = true → (s.mboxArg 1).toNat = 65808 → s.cascadeOk c = true → s.jobLive = false →
      ∃ t, exec (.setCascade (some c) true) s = .next t ∧ t.nv.cascade = some c ∧ t.pkg = BitVec.ofNat 12 (numAt c 0 2) ∧
        t.cascadeId = BitVec.ofNat 32 (numAt c 4 4) ∧ t.host.mbox.outcome = some (0, 0)) ∧
    (s.mboxAt 5 = true → s.boot.hostReady = true → s.mboxAligned = true → (s.mboxArg 1).toNat = 65808 → s.cascadeOk c = true → s.jobLive = true →
      ∃ t x, exec (.setCascade (some c) flash) s = .next t ∧ t.host.mbox.outcome = some (5, x) ∧ t.nv = s.nv ∧ t.time = s.time)

/-- The commands of the management mailbox (R337, R348, R415, R436, R437): their work, its outcome, and how a command ends. Before host-ready all but
SET_WAIT_MASK end NOT_READY. An image stands in its slot once WRITE_IMAGE has ended: a write cut short leaves a slot that fails (R338). The model's
choices that it rests on: log entries 3, 14, 83, 84 and 123. -/
def Obligations.MailboxCommands : Prop :=
  ∀ (s : State) (img tok sig certs : Bytes) (nonce : BitVec 256) (cert sigOk flash : Bool) (op : BitVec 8) (i : Instr),
    (s.mboxAt op = true → s.boot.hostReady = false →
      (op, i) ∈ [(1, Instr.writeImage (some img) cert sigOk flash), (2, .requestReport (some nonce) sig certs), (3, .loadToken (some tok) cert sigOk),
        (4, .unloadToken), (5, .setCascade (some img) flash), (7, .reportSuspect)] →
      ∃ t x, exec i s = .next t ∧ t.host.mbox.outcome = some (3, x) ∧ t.nv = s.nv) ∧
    (∀ x, s.mboxAt 1 = true → s.boot.hostReady = true → s.mboxAligned = true → (s.mboxArg 1).toNat = img.length → 4608 ≤ img.length →
      img.length ≤ 4608 + 67108864 → x = imageSlot img cert sigOk →
      slotPasses s.nv.minSv (some x) = true → ∃ t, exec (.writeImage (some img) cert sigOk true) s = .next t ∧
        t.host.mbox.outcome = some (0, if s.boot.slot then 0 else 1) ∧ t.boot.writing = some x ∧
        (s.boot.slot = false → t.nv.slotB = some { x with check := .digest } ∧ t.nv.slotA = s.nv.slotA) ∧
        (s.boot.slot = true → t.nv.slotA = some { x with check := .digest } ∧ t.nv.slotB = s.nv.slotB)) ∧
    (s.mboxAt 2 = true → s.boot.hostReady = true → s.mboxAligned = true → 7936 ≤ (s.mboxArg 1).toNat → sig.length = 1280 → certs.length = 6272 →
      ∃ t, exec (.requestReport (some nonce) sig certs) s = .next t ∧
        t.out = s.out ++ [.hostWrite (s.mboxArg 0) (s.report nonce ++ sig ++ certs)] ∧ (s.report nonce).length = 384 ∧
        t.host.mbox.outcome = some (0, 7936)) ∧
    (s.mboxAt 3 = true → s.boot.hostReady = true → s.mboxAligned = true → s.tokenOk tok cert sigOk = true →
      ∃ t, exec (.loadToken (some tok) cert sigOk) s = .next t ∧ t.host.dbg.loaded = true ∧ t.host.dbg.perms = BitVec.ofNat 8 (numAt tok 48 1) ∧
        t.host.dbg.nonce = Config.freeValue s.freeCtr ∧ t.host.dbg.slots = s.host.dbg.slots) ∧
    (s.mboxAt 4 = true → s.boot.hostReady = true → ∃ t, exec .unloadToken s = .next t ∧ t.host.dbg.loaded = false ∧ t.host.dbg.perms = 0 ∧
      t.host.dbg.slots = [] ∧ t.host.mbox.outcome = some (0, 0)) ∧
    (s.mboxAt 6 = true → ∃ t, exec (.setWaitMask true) s = .next t ∧ t.nv = { s.nv with waitMask := s.mboxArg 0 } ∧ t.host.mbox.outcome = some (0, 0)) ∧
    (s.mboxAt 7 = true → s.boot.hostReady = true → ∃ t, exec .reportSuspect s = .next t ∧ t.host.mbox.outcome = some (0, 0) ∧
      ∃ x ∈ t.genhan.incidents, x.code = BitVec.ofNat 16 fDigestMismatch) ∧
    (∀ st x, s.host.mbox.busy = true → s.host.mbox.outcome = some (st, x) → ∃ t, exec .mailboxCommandEnd s = .next t ∧
      t.host.mbox.busy = false ∧ t.host.mbox.status = st ∧ t.host.mbox.result = x ∧ t.host.mbox.seq = s.host.mbox.seq + 1 ∧
      t.boot.writing = none ∧ (s.boot.writing = none → t.nv = s.nv) ∧
      ∀ w, s.boot.writing = some w → (if s.boot.slot then t.nv.slotA else t.nv.slotB) = some w) ∧
    (s.host.mbox.busy = true → s.host.mbox.outcome = none → (s.host.mbox.lastOp = 0 ∨ 8 < s.host.mbox.lastOp) → ∃ t, exec .mailboxCommandEnd s = .next t ∧
      t.host.mbox.busy = false ∧ t.host.mbox.status = 1 ∧ t.host.mbox.seq = s.host.mbox.seq + 1)

/-- The perturbation controls (R416 to R419, Table 15.10): what each does to its target, and what a cleared slot gives back. The model's choices that it
rests on: log entries 26 and 82. -/
def Obligations.PerturbationControls : Prop :=
  ∀ (n : Fin 16) (s : State) (x : Slot) (k : ClusterAt), x = s.pert n.val →
    (slotControl x.target = 3 → slotCluster x.target = some k → exec (.forcedStall n) s =
      .next (s.putCluster k { s.cluster k with forcedStall := some x.live.toNat })) ∧
    (slotControl x.target = 4 → slotCluster x.target = some k → ∃ f, exec (.clockSkew n) s = .next (s.putCluster k { s.cluster k with skew := some f }) ∧
      f ≤ x.live.toNat ∧ (∀ g, (s.cluster k).skew = some g → f ≤ g) ∧ ((s.cluster k).skew = none → f = x.live.toNat)) ∧
    (∀ c e, slotControl x.target = 2 → slotField x.target 59 57 = 2 → s.slotEndpoint x.target = some (c, e) → ∃ t f, exec (.creditCut n) s = .next t ∧
      SMap.get {} (t.core c).se (slotField x.target 29 26) = f ∧ f.toWithhold = x.live.toNat - e.withheld ∧ f.credits = e.credits ∧ t.mesh = s.mesh ∧
      (t.core c).spad = (s.core c).spad) ∧
    (∀ i p, slotControl x.target = 5 → s.targetOn x.target = true → s.jobLive = true → (s.mesh ++ s.waiting)[i]? = some p → 0 < x.left →
      s.segmentOf x.target p = true → p.hdr2.getLsbD 0 = false → ∃ t q, exec (.checkInsertion n i) s = .next t ∧ (t.mesh ++ t.waiting)[i]? = some q ∧
        q.data = flipCode p.data ∧ q.hdr2.getLsbD 0 = true ∧ t.mesh.length = s.mesh.length ∧ t.waiting.length = s.waiting.length ∧ (t.pert n.val).left = x.left - 1) ∧
    (∀ i p d, s.mesh[i]? = some p → p.wait = none → s.delayOf n.val p = some d → exec (.linkDelay n i false) s =
      .next (s.setPacket i { p with wait := some (s.time.sc + BitVec.ofNat 64 d) })) ∧
    (∀ i p d, s.mesh.length ≤ i → s.waiting[i - s.mesh.length]? = some p → p.wait = none → p.gone = 0 → (s.onlySlot n.val).entryDelay p = some d →
      exec (.linkDelay n i false) s =
        .next { s with waiting := s.waiting.set (i - s.mesh.length) { p with wait := some (s.time.sc + BitVec.ofNat 64 d) } }) ∧
    (slotControl x.target = 2 → slotField x.target 59 57 = 3 → ∃ t, exec (.creditCut n) s = .next t ∧ t = { s with cuts := t.cuts } ∧
      ∀ e ∈ bufferKeys x.target, (SMap.get (0, 0) t.cuts e.1).1 = e.2) ∧
    (∀ i p w, s.mesh[i]? = some p → p.wait = some w → s.time.sc < w → exec (.linkDelay n i true) s = .next s) ∧
    (s.hears = true → s.host.dbg.loaded = true → ∃ t, exec (.perturbationSlotClear n) s = .next t ∧ t.pert n.val = {} ∧
      (∀ m, m ≠ n.val → t.pert m = s.pert m) ∧ t.mesh = s.mesh ∧ t.deep = s.deep)

/-- Resets (R13, R330, R331, R448, Table 11.14): after FLR and PERST# every ring is disabled with nothing in progress, the vectors are masked, the host
window is closed, EVENT_LOST is clear and a job is gone, but for the segment of a DMA that is begun, which still completes; a package reset goes
back to the end of bring-up phase 1 and keeps the slots of management flash; a pulse on PKG_RESET# of 10 ms is one, and one below 1 ms is none. The
model's choices that it rests on: log entries 85 and 117. -/
def Obligations.ResetsReachTheirStates : Prop :=
  ∀ (s : State) (i : Instr) (held : Nat),
    ((i = .flr ∧ s.host.linkUp = true) ∨ (i = .perst true ∧ s.host.perst = false) →
      ∃ t, exec i s = .next t ∧
        (∀ p, (t.ring p).sqEnable = false ∧ (t.ring p).cqEnable = false ∧ (t.ring p).inProgress = [] ∧ (t.ring p).heldC = []) ∧
        (∀ v, t.msixEntry v = msixReset) ∧ t.host.pba = 0 ∧ t.host.hwEnable = false ∧ t.host.powerLimit = 270 ∧ t.host.dbg.loaded = false ∧
        t.host.mbox.seq = s.host.mbox.seq ∧ t.host.eventLost = false ∧
        (∀ p d, (p, d) ∈ s.allDescs → d.isDma = true → d.ended = none → d.part.isSome = true → d ∈ t.host.abandoned) ∧ (s.boot.hostReady = true → t.job = {} ∧ t.genhan.log = [] ∧ t.genhan.numOr = 0) ∧ t.deep = s.deep ∧
        t.host.linkUp = (if i = .flr then s.host.linkUp else false)) ∧
    (exec (.perst false) s = .next { s with host := { s.host with perst := false } }) ∧
    ((i = .packageReset ∧ s.mboxAt 8 = true ∧ s.canReset = true) ∨ (i = .pkgResetPin held ∧ 10000 ≤ held ∧ s.canReset = true) →
      ∃ t, exec i s = .next t ∧ t.boot = { phase := 1, done := true, started := true, waitMask := s.nv.waitMask } ∧ t.job = {} ∧ t.deep = [] ∧ t.nv.slotA = s.nv.slotA ∧
        t.nv.slotB = s.nv.slotB ∧ t.nv.minSv = s.nv.minSv ∧ t.power.band = s.power.band ∧ ∀ d, (t.domain d).powered = false) ∧
    (held < 1000 → exec (.pkgResetPin held) s = .next s)

/-! ### Input, bus stage and power -/

/-- Surge and over-voltage (R382): in the surge band operation is unchanged, and SURGE is raised with the peak and the duration; in the over-voltage
band the input switch opens; it closes again; and a bring-up starts, with phase 1 next, once the input has risen through 46 V. The model's choices
that it rests on: log entry 15. -/
def Obligations.SurgeAndOverVoltage : Prop :=
  ∀ (peak duration vin : Nat) (s : State) (g : Ring), g = s.ring 64 →
    (720 < peak → peak ≤ 1000 → duration ≤ 100 →
      ∃ t, exec (.surge peak duration) s = .next t ∧ t = { s with host := t.host, out := t.out } ∧
        (s.host.linkUp = true → g.cqEnable = true → 0 < ringFree g → ∃ h, h / 2 ^ 64 % 2 ^ 16 = 0x23 ∧
          Output.hostWrite (g.cqBase + BitVec.ofNat 64 (64 * g.cqWr.toNat))
            (leBytes 16 h ++ leBytes 2 peak ++ leBytes 2 duration ++ List.replicate 44 0) ∈ t.out)) ∧
    (∀ i, ((7200 < vin ∧ i = .overVoltage vin) ∨ ((1000 < peak ∨ (720 < peak ∧ 100 < duration)) ∧ i = .surge peak duration)) →
      ∃ t, exec i s = .next t ∧ t.power.band = .overVoltage ∧ t.power.switchOpen = true ∧ t.job = {} ∧ ∀ d, (t.domain d).powered = false) ∧
    (s.power.switchOpen = true → ∃ t, exec .inputSwitchReclose s = .next t ∧ t = { s with power := { s.power with switchOpen := false, band := .off } }) ∧
    (s.power.band = .off → s.power.switchOpen = false → s.power.drainOwed = false →
      (vin < 4600 → exec (.inputInRange vin) s = .next s) ∧
      (4600 ≤ vin → vin ≤ 7200 → ∃ t, exec (.inputInRange vin) s = .next t ∧ t.boot = { phase := 0, done := true, started := true, waitMask := s.nv.waitMask }))

/-- The bands of the input (R377, R380, R381, R383, R441): a rise into the range starts a bring-up; a loss leaves nothing powered and its record; a
reversed input is blocked and counted down to 80 V, with REV_FAULT low and the other outputs high-impedance, in a power drain or in retention a loss
of input as well; beyond it, outside the absolute maximum ratings, the model stops (its choice, log entry 91). The model's choices that it rests on:
log entries 6, 15, 73 and 130. -/
def Obligations.InputBands : Prop :=
  ∀ (s : State) (vin : Nat) (cause : Fin 4),
    (4600 ≤ vin → vin ≤ 7200 → s.power.operating = false → s.power.switchOpen = false → s.power.drainOwed = false →
      ∃ t, exec (.inputInRange vin) s = .next t ∧ t.boot = { phase := 0, done := true, started := true, waitMask := s.nv.waitMask } ∧
        t.power.band = (if vin < 4800 then .reduced else .full) ∧ t.deep = (if s.power.retention then s.deep else []) ∧ t.job = {}) ∧
    (∃ t, exec (.inputLoss cause) s = .next t ∧ t.power.band = .off ∧ t.job = {} ∧ t.deep = [] ∧ (∀ d, (t.domain d).powered = false) ∧
      (s.boot.hostReady = true → ∃ r, t.nv.powerRecord = some r ∧ r.cause = BitVec.ofNat 8 (max 1 cause.val) ∧ r.stacksKept = false)) ∧
    (vin ≤ 7200 → exec (.overVoltage vin) s = .next s) ∧
    (∀ volts, volts ≤ 80 → ∃ t, exec (.inputReversed volts) s = .next t ∧ t.power.band = .reversed ∧ t.nv.reversals = s.nv.reversals + 1 ∧
      t.pinLevel .revFault = .low ∧ t.pinLevel .hostPwrOk = .highZ ∧ t.pinLevel .alert = .highZ ∧
      (s.power.supplied = true → t.job = {} ∧ t.deep = [] ∧ (∀ d, (t.domain d).powered = false) ∧
        (s.boot.hostReady = true → ∃ r, t.nv.powerRecord = some r ∧ r.cause = 3 ∧ r.stacksKept = false)) ∧
      (s.power.supplied = false → t.job = s.job ∧ t.nv.powerRecord = s.nv.powerRecord)) ∧
    (∀ volts, 80 < volts → exec (.inputReversed volts) s = .fault .beyondAbsoluteMaximum)

/-- An orderly stop (R129, R379): with nothing to drain the package is at once in retention, its stacks powered and their contents kept; a job with
state is stopped and drained first; once the drain is complete, what was on its way to the clusters having come, the package follows, or the domains
that waited for it go into QUIESCE, to go off behind their detours (R217, R395). Before host-ready nothing is kept (Table 12.6). The model's choices
that it rests on: log entry 127. -/
def Obligations.OrderlyStops : Prop :=
  ∀ (s : State) (vin : Nat),
    (vin < 4400 → s.power.operating = true → s.boot.hostReady = true → s.holdsState = false → ∃ t, exec (.orderlyStop vin) s = .next t ∧
      t.power.retention = true ∧ t.power.band = .retention ∧ t.deep = s.deep ∧ t.job = {} ∧
      (∀ d : Fin 61, d.val < 56 ∨ d.val = 60 → (t.domain d).powered = false) ∧
      (∀ d : Fin 61, 56 ≤ d.val → d.val < 60 → (t.domain d).powered = (s.domain d).powered) ∧
      ∃ r, t.nv.powerRecord = some r ∧ r.cause = 0 ∧ r.stacksKept = true ∧ r.tag = s.job.tag ∧ r.sc = s.time.sc) ∧
    (vin < 4400 → s.power.operating = true → s.boot.hostReady = true → s.holdsState = true → ∃ t, exec (.orderlyStop vin) s = .next t ∧
      t.power.drainOwed = true ∧ t.power.orderly = true ∧ t.jobLive = false ∧ t.deep = s.deep) ∧
    (vin < 4400 → s.power.operating = true → s.boot.hostReady = false → ∃ t, exec (.orderlyStop vin) s = .next t ∧
      t.power.retention = false ∧ t.power.band = .retention ∧ t.deep = [] ∧ t.job = {} ∧ t.nv.slotA = s.nv.slotA ∧ t.nv.slotB = s.nv.slotB ∧
      (∀ r, t.nv.powerRecord = some r → r.stacksKept = false) ∧ ∀ d, (t.domain d).powered = false) ∧
    (4400 ≤ vin → exec (.orderlyStop vin) s = .next s) ∧
    (s.settled s.job.members = false → exec .powerDrainDone s = .next s) ∧
    (s.power.drainOwed = true → s.membersQuiet = true → s.settled s.job.members = true → s.jobLive = false → s.holdsState = false → s.power.orderly = true → s.power.operating = false →
      ∃ t, exec .powerDrainDone s = .next t ∧ t.power.retention = true ∧ t.deep = s.deep ∧ t.power.drainOwed = false) ∧
    (∀ d : Fin 48, s.power.drainOwed = true → s.membersQuiet = true → s.settled s.job.members = true → s.jobLive = false → s.holdsState = false → s.power.orderly = false →
      d ∈ s.power.eclipseOwed → (s.domain ⟨d.val, by omega⟩).powered = true → s.power.eclipsing = [] →
      ∃ t, exec .powerDrainDone s = .next t ∧ (d, (if s.power.coolantStop = true then 2 else 1), true) ∈ t.power.eclipsing ∧
        (t.domain ⟨d.val, by omega⟩).quiesced = true ∧ (t.domain ⟨d.val, by omega⟩).powered = true ∧ t.power.eclipseOwed = [] ∧
        t.power.drainOwed = false)

/-- The bus stage and the package power loop (R378, R384, R392): the limit of a sample, the sag procedure's level, the limit after a module's failure,
and the set point the loop gives the package. The model's choices that it rests on: log entry 15. -/
def Obligations.BusStageAndPowerLoop : Prop :=
  ∀ (s : State) (vin iin pin l n : Nat) (m : Fin 12) (ok : Bool) (parts : List (Nat × Fin 8)) (fm w : Nat),
    n = s.power.modules.cpop.toNat → l = min (min (563 * vin / 100) (2564 * n)) 27000 →
    (s.power.operating = true ∨ (s.power.band = .retention ∧ s.power.drainOwed = true) → s.power.sag = false → 4800 ≤ vin → iin < 5630 → pin ≤ l →
      ∃ t, exec (.busSample vin iin pin) s = .next t ∧ t.power.plim = l ∧ t.power.level = s.power.level ∧ t.power.sag = false ∧ t.out = s.out ∧
        t = { s with power := t.power }) ∧
    (s.power.operating = true ∨ (s.power.band = .retention ∧ s.power.drainOwed = true) → (s.power.sag = true ∨ vin < 4800 ∨ 5630 ≤ iin ∨ l < pin) →
      ∃ t, exec (.busSample vin iin pin) s = .next t ∧ t.power.plim = l ∧
        (∀ k : Fin 8, s.power.level < k → k = s.power.need l pin → t.power.level = k) ∧
        (s.power.need l pin < s.power.level → 100 ≤ s.power.sinceChange + 1 → t.power.level.val + 1 = s.power.level.val) ∧
        (s.power.need l pin < s.power.level → s.power.sinceChange + 1 < 100 → t.power.level = s.power.level ∧ t.power.sinceChange = s.power.sinceChange + 1) ∧
        (∀ k : Fin 8, k < s.power.need l pin → l * (8 - s.power.level.val) < pin * (8 - k.val))) ∧
    (s.power.modules.getLsbD m.val ≠ ok → ∃ t, exec (.busModule m ok) s = .next t ∧ t.power.modules.getLsbD m.val = ok ∧
      (∀ j, j ≠ m.val → t.power.modules.getLsbD j = s.power.modules.getLsbD j) ∧ (ok = false → t.power.plim ≤ 2564 * t.power.modules.cpop.toNat) ∧
      t.power.level = s.power.level) ∧
    (parts ≠ [] → w = min (min (100 * s.host.powerLimit.toNat) s.power.plim) s.power.coolLimit →
      ∃ t, exec (.powerLoop parts fm) s = .next t ∧ t.power.pLim = w ∧
        (97 * w * (840 * parts.length) < 100 * drawSum parts →
          t.power.fPkg = 97 * w * fm * (840 * parts.length) / (100 * drawSum parts) / 4 * 4 ∧ t.power.fPkg ≤ fm) ∧
        (100 * drawSum parts < 94 * w * (840 * parts.length) → t.power.fPkg = min s.clockCap (s.power.fPkg + 100)) ∧
        (100 * drawSum parts ≤ 97 * w * (840 * parts.length) → 94 * w * (840 * parts.length) ≤ 100 * drawSum parts → t.power.fPkg = s.power.fPkg))

/-- The bus modules (R384): with m of them working the input limit is at most 2,564 m W, so that a first failure leaves it at 27,000 W, a second lowers
it to 25,640 W and each further one by 2,564 W; each failure and each recovery raises BUS_MODULE. -/
def Obligations.BusModulesSetTheLimit : Prop :=
  ∀ (s : State) (g : Ring) (m : Fin 12) (ok : Bool), g = s.ring 64 →
    (s.power.modules.getLsbD m.val ≠ ok →
      ∃ t n, exec (.busModule m ok) s = .next t ∧ n = t.power.modules.cpop.toNat ∧ t.power.modules.getLsbD m.val = ok ∧
        (∀ j, j ≠ m.val → t.power.modules.getLsbD j = s.power.modules.getLsbD j) ∧
        t.power = { s.power with modules := t.power.modules, plim := t.power.plim } ∧
        t = { s with power := t.power, host := t.host, out := t.out } ∧
        (ok = true → t.power.plim = s.power.plim) ∧
        (ok = false → t.power.plim ≤ 2564 * n) ∧
        (ok = false → s.power.plim = min 27000 (2564 * (n + 1)) → t.power.plim = if 11 ≤ n then 27000 else 2564 * n) ∧
        (s.host.linkUp = true → g.cqEnable = true → 0 < ringFree g → ∃ h, h / 2 ^ 64 % 2 ^ 16 = 0x25 ∧
          Output.hostWrite (g.cqBase + BitVec.ofNat 64 (64 * g.cqWr.toNat))
            (leBytes 16 h ++ [BitVec.ofNat 8 m.val, if ok then 1 else 0, BitVec.ofNat 8 n] ++ List.replicate 45 0) ∈ t.out)) ∧
    (∀ vin iin pin, s.power.operating = true → ∃ t, exec (.busSample vin iin pin) s = .next t ∧ t.power.modules = s.power.modules ∧
      t.power.plim ≤ 2564 * s.power.modules.cpop.toNat ∧ t.power.plim ≤ 27000)

/-- A domain fault and a thermal trip take a powered domain off at once (R366, R385, R397); a moon die's loss makes deep memory unusable, the host die's
takes the PCI Express link down; neither management flash nor, but for accesses that waited for the one that the loss ends, deep memory's contents
move. The model's choices that it rests on: log entries 77, 125 and 146. -/
def Obligations.DomainLosses : Prop :=
  ∀ (d : Fin 61) (c : Fin 3) (s : State) (i : Instr), i ∈ [Instr.domainFault d c, .thermalTrip d] →
    ((s.domain d).powered = true → ∃ t, exec i s = .next t ∧ (t.domain d).powered = false ∧ (t.domain d).lost = true ∧
      (s.homesFree = true ∨ d.val < 56 ∨ d.val = 60 → t.deep = s.deep) ∧ t.nv.minSv = s.nv.minSv ∧ (∀ e, e ≠ d → (t.domain e).powered = (s.domain e).powered) ∧
      (56 ≤ d.val → d.val < 60 → t.boot.deepUnavailable = true) ∧ (d.val = 60 → t.host.linkUp = false ∧ t.host.needReset = true)) ∧
    ((s.domain d).powered = false → ∃ t, exec i s = .next t ∧ t = { s with host := t.host, out := t.out })

/-! ### Bring-up -/

/-- The first phases of bring-up (R332 to R342, Table 12.2): each runs only after the one before it, and ends passed, with findings or halted. The
model's choices that it rests on: log entries 6, 14, 115 and 130. -/
def Obligations.BringUpToTheHull : Prop :=
  ∀ (s : State) (cert sg : Bool) (rec : Bytes) (img : Bytes) (ppm : Int) (dies : BitVec 24) (ch : HullChannels) (inlet flow : Nat),
    (s.mayRun 1 = true → s.power.operating = true →
      ∃ t, exec (.powerGood true true) s = .next t ∧ t.boot.phase = 1 ∧ t.boot.done = true ∧ t.boot.outcome.extractLsb' 0 2 = 1) ∧
    (∀ b i, s.mayRun 2 = true → s.nv.startSlot = some (b, i) → ∃ t, exec .boot s = .next t ∧ t.boot.phase = 2 ∧ t.boot.done = true ∧ t.boot.slot = b ∧
      t.boot.version = i.version ∧ t.boot.sv = i.sv ∧ i.check = .passed ∧ s.nv.minSv ≤ i.sv ∧
      (b = false → ∀ j, s.nv.slotB = some j → slotPasses s.nv.minSv s.nv.slotB = true → j.version ≤ i.version)) ∧
    (s.mayRun 2 = true → s.nv.startSlot = none → ∃ t, exec .boot s = .next t ∧ t.boot.halted = .recovery ∧
      t.boot.failA = slotCheck s.nv.minSv s.nv.slotA ∧ t.boot.failB = slotCheck s.nv.minSv s.nv.slotB ∧
      (s.power.supplied = true → t.pinLevel .alert = .low)) ∧
    (s.boot.halted = .recovery → slotPasses s.nv.minSv (some (imageSlot img cert sg)) = true → ∃ t, exec (.smiImage img cert sg) s = .next t ∧
      t.nv.slotA = some (imageSlot img cert sg) ∧ t.nv.slotB = s.nv.slotB ∧ t.boot.halted = .none ∧ t.boot.phase = 2 ∧ t.boot.done = true) ∧
    (s.mayRun 3 = true → gradeAccepted s.nv.serial (s.gradeRecord rec) cert sg = true → ∃ t, exec (.grade rec cert sg) s = .next t ∧
      t.boot.record = gradeBody (s.gradeRecord rec) ∧ t.nv.grade = some (s.gradeRecord rec) ∧ t.boot.phase = 3 ∧ t.boot.done = true) ∧
    (s.mayRun 3 = true → gradeAccepted s.nv.serial (s.gradeRecord rec) cert sg = false → ∃ t, exec (.grade rec cert sg) s = .next t ∧ t.boot.halted = .gradeFail ∧
      t.boot.record = s.boot.record) ∧
    (s.mayRun 4 = true → ppm.natAbs ≤ 50 → dies ≠ 0 → coolantOut inlet flow = false → s.power.leak = false → ∃ t, exec (.hull ppm dies ch inlet flow) s = .next t ∧
      (∀ c ∈ ch.bad, linkKey (c.1.toNat, c.2.1.toNat) c.2.2.val ∈ t.genhan.deadLinks) ∧ t.boot.phase = 4 ∧ t.boot.done = true ∧ t.boot.dieLost = ~~~dies ∧
      t.boot.report = s.boot.report ∧ t.time.running = true ∧ t.time.sc = 0) ∧
    (s.mayRun 4 = true → 50 < ppm.natAbs ∨ dies = 0 → ∃ t, exec (.hull ppm dies ch inlet flow) s = .next t ∧ t.boot.halted = .hullFail) ∧
    (s.boot.halted = .noCoolant → coolantOut inlet flow = false → s.power.leak = false → ∃ t, exec (.noCoolant inlet flow) s = .next t ∧ t.boot.halted = .none ∧
      t.boot.phase = 4 ∧ t.boot.done = true) ∧
    (s.boot.halted = .noCoolant → coolantOut inlet flow = true ∨ s.power.leak = true → ∃ t, exec (.noCoolant inlet flow) s = .next t ∧ t.boot = s.boot ∧
      (s.power.supplied = true → t.pinLevel .alert = .low))

/-- Bring-up from the domains to host-ready (R343 to R349, R338, R367, R388): what each phase leaves; a logical cluster that was unmapped is mapped
again where its cluster is not defective; one whose V/F table fails is not in use; the security version in the key store never falls; and phase 11
writes the report. The model's choices that it rests on: log entries 3, 6, 70, 71, 116, 120, 122 and 123. -/
def Obligations.BringUpToHostReady : Prop :=
  ∀ (s : State) (bad : BitVec 61) (v f : BitVec 16) (fl : List TileFail) (fw : List ClusterAt),
    (s.mayRun 5 = true → ∃ t, exec (.domains bad) s = .next t ∧ t.boot.phase = 5 ∧ t.boot.done = true ∧ t.boot.domainOff = bad ∧ t.boot.report = s.boot.report ∧
      (∀ d : Fin 61, (t.domain d).powered = (!bad.getLsbD d.val && !s.dieGone d))) ∧
    (∀ c, s.mayRun 6 = true → s.nv.vfBad = [] → s.nv.bestCopy s.mappedPerDie = some c → (∀ d, (s.domain d).powered = true) → ∃ t, exec .repair s = .next t ∧
      t.boot.phase = 6 ∧ t.boot.done = true ∧ t.repairSeq = c.seq ∧ t.nv = s.nv ∧ ∀ (k : ClusterAt) e, e = SMap.get 0 c.entries (clusterKey k) →
        (roleOf e ≠ 3 ∨ s.nv.marked (clusterKey k) = true → t.entryOf k = e) ∧
        (roleOf e = 3 → s.nv.marked (clusterKey k) = false → t.logical k = some (logicalIn e))) ∧
    (s.mayRun 6 = true → s.nv.vfBad = [] → s.nv.bestCopy s.mappedPerDie = none → (∀ d, (s.domain d).powered = true) → ∃ t, exec .repair s = .next t ∧
      t.boot.phase = 6 ∧ t.repairMap = builtMap s.nv s.mappedPerDie ∧ t.repairSeq = 1 ∧ t.nv.defects = [] ∧
      t.nv.repair0 = some { seq := 1, ok := false, entries := builtMap s.nv s.mappedPerDie } ∧ t.nv.repairBusy = some false) ∧
    (∀ k : ClusterAt, s.mayRun 6 = true → clusterKey k ∈ s.nv.vfBad → s.nv.marked (clusterKey k) = false → (s.domain (domainOf k)).powered = true → ∃ t, exec .repair s = .next t ∧
      t.boot.phase = 6 ∧ t.boot.done = true ∧ (t.role k = rDefective ∨ t.role k = rUnmapped)) ∧
    (s.mayRun 7 = true → (∀ k, (s.cluster k).fwTries ≤ 1) →
      ((∀ k ∈ s.fwTargets, k ∉ fw) → ∃ t, exec (.firmware fw) s = .next t ∧ t.boot.phase = 7 ∧ t.boot.done = true ∧
        (∀ k ∈ s.fwTargets, (t.cluster k).fwOk = true)) ∧
      (∀ k ∈ s.fwTargets, k ∈ fw → (s.cluster k).fwTries = 0 → ∃ t, exec (.firmware fw) s = .next t ∧ t.boot = s.boot ∧
        (t.cluster k).fwOk = false ∧ (t.cluster k).fwTries = 1) ∧
      (∀ k ∈ s.fwTargets, k ∈ fw → (s.cluster k).fwTries = 1 → s.role k = rSpare → s.nv.marked (clusterKey k) = false → ∃ t, exec (.firmware fw) s = .next t ∧
        roleOf (t.entryOf k) = 2 ∧ (t.cluster k).fwOk = false)) ∧
    (s.mayRun 8 = true → ∃ t, exec (.knownAnswer fl) s = .next t ∧ t.boot.phase = 8 ∧ t.boot.done = true ∧ t.genhan.diags = s.genhan.diags ++ fl ∧
      (∀ f ∈ fl, s.role f.at_ ≠ rDefective → (s.domain (domainOf f.at_)).powered = true → t.nv.marked (clusterKey f.at_) = true) ∧
      (∀ k, (t.logical k).isSome = true → (t.cluster k).gated = false)) ∧
    (s.mayRun 9 = true → ∃ t, exec (.memory v f) s = .next t ∧ t.boot.phase = 9 ∧ t.boot.done = true ∧ t.boot.stackFail = s.failedStacks v f ∧
      t.boot.deepUnavailable = decide (s.failedStacks v f ≠ 0) ∧ t.deep = (if s.power.stacksKept then s.deep else [])) ∧
    (s.mayRun 10 = true → (∀ i, i < 64 → s.boot.waitMask.getLsbD i = true → s.portEnabled i = true → (s.port i).settled = true) →
      ∃ t, exec .links s = .next t ∧ t.boot.phase = 10 ∧ t.boot.done = true ∧ t.ports = s.ports) ∧
    (s.mayRun 11 = true → ∃ t, exec .hostReady s = .next t ∧ t.boot.hostReady = true ∧ t.boot.phase = 11 ∧ t.boot.report = s.boot.written ∧
      t.nv.minSv = (if s.nv.minSv < s.boot.sv then s.boot.sv else s.nv.minSv) ∧ t.host.dbg.nonce = Config.freeValue s.freeCtr ∧ t.nv.powerRecord = none)

/-! ### Reset and the invariants -/

/-- The state that the spec gives the package before its first bring-up: nothing is powered, no job is loaded, the host's limits stand at the Reset
column of Table 16.5, every ring is disabled and every vector masked (R13, R426, Table 16.4). The values that the spec does not give are the model's
(log entries 4 to 6). -/
def Obligations.ResetState : Prop :=
  State.reset.pending = [] ∧ State.reset.job.state = .idle ∧ State.reset.boot.started = false ∧ State.reset.boot.hostReady = false ∧
  State.reset.host.powerLimit = 270 ∧ State.reset.host.maxDefer = 24 ∧ State.reset.host.testPolicy = 1 ∧ State.reset.host.hwEnable = false ∧
  State.reset.host.dbg.loaded = false ∧ State.reset.host.pba = 0 ∧ State.reset.time.running = false ∧
  (∀ p, (State.reset.ring p).sqEnable = false ∧ (State.reset.ring p).cqEnable = false) ∧ (∀ v, State.reset.msixEntry v = msixReset) ∧
  (∀ d, (State.reset.domain d).powered = false) ∧ (∀ i, (State.reset.port i).state = .disabled)

/-- Reset satisfies the model's invariants. -/
def Obligations.ResetSatisfiesTheInvariants : Prop :=
  State.reset.limitsOk = true ∧ State.reset.logOk = true ∧ State.reset.deepWf = true

/-- Every step keeps the host limits within the ranges to which Table 16.5 clamps them. Every step keeps the job fault log within the first 64 reports
(R353, R429). -/
def Obligations.HostLimitsAndFaultLogStayInRange : Prop :=
  (∀ s t : State, s.limitsOk = true → step s = .next t → t.limitsOk = true) ∧
  (∀ s t : State, s.logOk = true → step s = .next t → t.logOk = true)

/-- Every step keeps deep memory in its canonical form, so that equal contents are equal states. -/
def Obligations.DeepMemoryStaysCanonical : Prop := ∀ s t : State, s.deepWf = true → step s = .next t → t.deepWf = true

/-- No step lowers the security version that a management image must reach (R338). -/
def Obligations.SecurityVersionNeverFalls : Prop := ∀ s t : State, step s = .next t → s.svOf ≤ t.svOf

/-- No command touches the commands that wait: with StepRunsFrontCommand the queue is served strictly first in, first out (the model's queue). -/
def Obligations.CommandsDoNotTouchTheQueue : Prop := ∀ (i : Instr) (s t : State), exec i s = .next t → t.pending = s.pending
end

