-- ==== Sys2Proof/Laws/Guarded.lean ====
section
/-! SUPPORT. What the invariants read is left alone: one lemma for each operation of the model that keeps the host limits, the job fault log,
deep memory, the security version and the queue. The operations that change one of them are in Laws/Keeps.lean. -/

set_option linter.unusedSimpArgs false

namespace Sys2Proof.Machine


/-- The host limits. -/
def HostIf.limits (h : HostIf) : BitVec 9 × BitVec 10 × BitVec 2 := (h.powerLimit, h.maxDefer, h.testPolicy)
/-- What the invariants read: the host limits, the job fault log, deep memory, the security version of the key store, and the queue. -/
def State.guarded (s : State) : (BitVec 9 × BitVec 10 × BitVec 2) × List (BitVec 256) × SMap Byte × BitVec 32 × List Instr :=
  (s.host.limits, s.genhan.log, s.deep, s.nv.minSv, s.pending)
@[simp] theorem guarded_mk (pending cores clusters mesh spent rr cuts waiting emitted repairMap repairSeq deep deepErr streams homes homeWait ports conns croutes time cascadeId pkg expect domains power boot nv job ckpt genhan host ctr out freeCtr) :
    State.guarded (State.mk pending cores clusters mesh spent rr cuts waiting emitted repairMap repairSeq deep deepErr streams homes homeWait ports conns croutes time cascadeId pkg expect domains power boot nv job ckpt genhan host ctr out freeCtr) =
    (host.limits, genhan.log, deep, nv.minSv, pending) := rfl
@[simp] theorem guarded_fold (s : State) : (s.host.limits, s.genhan.log, s.deep, s.nv.minSv, s.pending) = s.guarded := rfl
@[simp] theorem limits_mk (linkUp perst d3hot needReset aer abandoned rings taken eventLost heldEvents msix pba modRun modWait modIval hwBase hwPages hwEnable powerLimit maxDefer testPolicy mbox telem dbg) :
    HostIf.limits (HostIf.mk linkUp perst d3hot needReset aer abandoned rings taken eventLost heldEvents msix pba modRun modWait modIval hwBase hwPages hwEnable powerLimit maxDefer testPolicy mbox telem dbg) = (powerLimit, maxDefer, testPolicy) := rfl
@[simp] theorem limits_fold (h : HostIf) : (h.powerLimit, h.maxDefer, h.testPolicy) = h.limits := rfl
@[simp] theorem guarded_ite (c : Prop) [Decidable c] (a b : State) : State.guarded (if c then a else b) = if c then a.guarded else b.guarded := by split <;> rfl
theorem guarded_foldl {α : Type} (f : State → α → State) (h : ∀ s a, (f s a).guarded = s.guarded) (l : List α) (s : State) :
    (l.foldl f s).guarded = s.guarded := by
  induction l generalizing s with
  | nil => rfl
  | cons a r ih => rw [List.foldl_cons, ih, h]


theorem guarded_foldl_pair {α β : Type} (f : State × β → α → State × β) (h : ∀ p a, (f p a).1.guarded = p.1.guarded) (l : List α) (p : State × β) :
    (l.foldl f p).1.guarded = p.1.guarded := by
  induction l generalizing p with
  | nil => rfl
  | cons a r ih => rw [List.foldl_cons, ih, h]

@[simp] theorem finishWrites_minSv (n : NonVolatile) : n.finishWrites.minSv = n.minSv := rfl
@[simp] theorem limits_dropInsertions (h : HostIf) (f : BitVec 64 → Bool) : (h.dropInsertions f).limits = h.limits := rfl

@[simp] theorem guarded_putCluster (s : State) (k : ClusterAt) (x : Cluster) : (State.putCluster s k x).guarded = s.guarded := by
  simp [State.putCluster, guarded_foldl]

@[simp] theorem guarded_putCore (s : State) (c : CoreAt) (x : Core) : (State.putCore s c x).guarded = s.guarded := by
  simp [State.putCore, guarded_foldl]

@[simp] theorem guarded_modCluster (s : State) (k : ClusterAt) (f : Cluster → Cluster) : (State.modCluster s k f).guarded = s.guarded := by
  simp [State.modCluster, guarded_foldl]

@[simp] theorem guarded_modCore (s : State) (c : CoreAt) (f : Core → Core) : (State.modCore s c f).guarded = s.guarded := by
  simp [State.modCore, guarded_foldl]

@[simp] theorem guarded_modCores (s : State) (k : ClusterAt) (f : CoreAt → Core → Core) : (State.modCores s k f).guarded = s.guarded := by
  simp [State.modCores, guarded_foldl]

@[simp] theorem guarded_modDomain (s : State) (d : Fin 61) (f : Domain → Domain) : (State.modDomain s d f).guarded = s.guarded := by
  simp [State.modDomain, guarded_foldl]

@[simp] theorem guarded_count (s : State) (group unit sub n : Nat) (by_ : Nat) : (State.count s group unit sub n by_).guarded = s.guarded := by
  simp [State.count, guarded_foldl]

@[simp] theorem guarded_countSoft (s : State) (c : CoreAt) (n : Nat) : (State.countSoft s c n).guarded = s.guarded := by
  simp [State.countSoft, guarded_foldl]

@[simp] theorem guarded_draw (s : State) : (State.draw s).2.guarded = s.guarded := by
  simp [State.draw, guarded_foldl]

@[simp] theorem guarded_logRead (s : State) (k : FailedRead) : (State.logRead s k).guarded = s.guarded := by
  simp [State.logRead, guarded_foldl]

@[simp] theorem guarded_emit (s : State) (o : Output) : (State.emit s o).guarded = s.guarded := by
  simp [State.emit, guarded_foldl]

@[simp] theorem guarded_putRing (s : State) (p : Nat) (r : Ring) : (State.putRing s p r).guarded = s.guarded := by
  simp [State.putRing, guarded_foldl]

@[simp] theorem guarded_modRing (s : State) (p : Nat) (f : Ring → Ring) : (State.modRing s p f).guarded = s.guarded := by
  simp [State.modRing, guarded_foldl]

@[simp] theorem guarded_putDesc (s : State) (p : Nat) (d : Desc) : (State.putDesc s p d).guarded = s.guarded := by
  simp [State.putDesc, guarded_foldl]

@[simp] theorem guarded_endDesc (s : State) (p : Nat) (d : Desc) (status : Nat) (result : Nat) : (State.endDesc s p d status result).guarded = s.guarded := by
  simp [State.endDesc, guarded_foldl]

@[simp] theorem guarded_sendMsix (s : State) (v : Nat) : (State.sendMsix s v).guarded = s.guarded := by
  unfold State.sendMsix
  (repeat' split) <;> simp [guarded_foldl]

@[simp] theorem guarded_sendPaced (s : State) (v : Nat) : (State.sendPaced s v).guarded = s.guarded := by
  simp [State.sendPaced, guarded_foldl]

@[simp] theorem guarded_pend (s : State) (v : Nat) (interval : BitVec 10) : (State.pend s v interval).guarded = s.guarded := by
  simp [State.pend, guarded_foldl]

@[simp] theorem guarded_dropEvent (s : State) : (State.dropEvent s).guarded = s.guarded := by
  simp [State.dropEvent, guarded_foldl]

@[simp] theorem guarded_writeEvent (s : State) (header : Nat) (detail : Bytes) : (State.writeEvent s header detail).guarded = s.guarded := by
  simp [State.writeEvent, guarded_foldl]

@[simp] theorem guarded_raiseEvent (s : State) (code : Nat) (src : Option LCore) (detail : Bytes) : (State.raiseEvent s code src detail).guarded = s.guarded := by
  simp [State.raiseEvent, guarded_foldl]

@[simp] theorem guarded_haltOn (s : State) (k : ClusterAt) (fs : List Raised) : (State.haltOn s k fs).guarded = s.guarded := by
  unfold State.haltOn
  (repeat' split) <;> simp [guarded_foldl]

@[simp] theorem guarded_haltBy (s : State) (c : CoreAt) (code : Nat) (detail : BitVec 64) (suspect : Option ClusterAt) : (State.haltBy s c code detail suspect).guarded = s.guarded := by
  simp [State.haltBy, guarded_foldl]

@[simp] theorem guarded_jobFault (s : State) (code : Nat) (detail : BitVec 64) : (State.jobFault s code detail).guarded = s.guarded := by
  simp [State.jobFault, guarded_foldl]

@[simp] theorem guarded_emitAt (s : State) (a : Nat × Nat) (port : Nat) (p : Packet) : (State.emitAt s a port p).guarded = s.guarded := by
  simp [State.emitAt, guarded_foldl]

@[simp] theorem guarded_inject (s : State) (c : CoreAt) (p : Packet) : (State.inject s c p).guarded = s.guarded := by
  simp [State.inject, guarded_foldl]

@[simp] theorem guarded_injectUnit (s : State) (k : ClusterAt) (p : Packet) : (State.injectUnit s k p).guarded = s.guarded := by
  simp [State.injectUnit, guarded_foldl]

@[simp] theorem guarded_injectComp (s : State) (exit comp : Nat) (a : Nat × Nat) (p : Packet) : (State.injectComp s exit comp a p).guarded = s.guarded := by
  simp [State.injectComp, guarded_foldl]

@[simp] theorem guarded_injectFrom (s : State) (exit comp : Nat) (dst : CoreAt) (p : Packet) : (State.injectFrom s exit comp dst p).guarded = s.guarded := by
  simp [State.injectFrom, guarded_foldl]

@[simp] theorem guarded_atLink (s : State) (l : Nat) (p : Packet) : (State.atLink s l p).guarded = s.guarded := by
  simp [State.atLink, guarded_foldl]

@[simp] theorem guarded_hold (s : State) : (State.hold s).guarded = s.guarded := by
  simp [State.hold, guarded_foldl]

@[simp] theorem guarded_release (s : State) : (State.release s).guarded = s.guarded := by
  simp [State.release, guarded_foldl]

@[simp] theorem guarded_freeFlits (s : State) (p : Packet) (n : Nat) : (State.freeFlits s p n).guarded = s.guarded := by
  simp [State.freeFlits, guarded_foldl]

@[simp] theorem guarded_removeAt (s : State) (n : Nat) (p : Packet) : (State.removeAt s n p).guarded = s.guarded := by
  simp [State.removeAt, guarded_foldl]

@[simp] theorem guarded_setPacket (s : State) (n : Nat) (p : Packet) : (State.setPacket s n p).guarded = s.guarded := by
  simp [State.setPacket, guarded_foldl]

@[simp] theorem guarded_lose (s : State) (id : Nat) : (State.lose s id).guarded = s.guarded := by
  simp [State.lose, guarded_foldl]

@[simp] theorem guarded_arrived (s : State) (f : Packet → Bool) (i : Nat) : (State.arrived s f i).guarded = s.guarded := by
  unfold State.arrived
  (repeat' split) <;> simp [guarded_foldl]

@[simp] theorem guarded_onArrival (s : State) (f : Packet → Bool) (i : Nat) (act : State → State) (hact : ∀ s : State, (act s).guarded = s.guarded) : (State.onArrival s f i act).guarded = s.guarded := by
  unfold State.onArrival
  try dsimp only
  (repeat' (first | (refine (guarded_foldl _ (fun s a => ?_) _ _).trans ?_) | split)) <;> simp [*]

@[simp] theorem guarded_injectLink (s : State) (link : Nat) (p : Packet) : (State.injectLink s link p).guarded = s.guarded := by
  simp [State.injectLink, guarded_foldl]

@[simp] theorem guarded_toNeighbour (s : State) (c : CoreAt) (o : Fin 16) (d : BitVec 256) (t : Nat) : (State.toNeighbour s c o d t).guarded = s.guarded := by
  unfold State.toNeighbour
  (repeat' split) <;> simp [guarded_foldl]

@[simp] theorem guarded_missEvent (s : State) (c : CoreAt) (e : BitVec 64 × BitVec 64) : (State.missEvent s c e).guarded = s.guarded := by
  simp [State.missEvent, guarded_foldl]

@[simp] theorem guarded_landAt (s : State) (c : CoreAt) : (State.landAt s c).1.guarded = s.guarded := by
  simp [State.landAt, guarded_foldl]

@[simp] theorem guarded_landAll (s : State) (k : ClusterAt) : (s.landAll k).1.guarded = s.guarded := by
  unfold State.landAll
  rw [guarded_foldl_pair]
  intro p a
  simp

@[simp] theorem guarded_askHeader (s : State) (c : CoreAt) : (State.askHeader s c).guarded = s.guarded := by
  unfold State.askHeader
  (repeat' split) <;> simp [guarded_foldl]

@[simp] theorem guarded_finishAll (s : State) (live : List CoreAt) : (State.finishAll s live).guarded = s.guarded := by
  simp [State.finishAll, guarded_foldl]

@[simp] theorem guarded_accept (s : State) (k : ClusterAt) : (State.accept s k).guarded = s.guarded := by
  simp [State.accept, guarded_foldl]

@[simp] theorem guarded_unitOp (s : State) (c : CoreAt) (f : Todo → Bool) (op : Word → Bool) (act : State → Core → Word → Nat → Core) : (State.unitOp s c f op act).guarded = s.guarded := by
  simp [State.unitOp, guarded_foldl]

@[simp] theorem guarded_requestChecks (s : State) (c : CoreAt) : (State.requestChecks s c).1.guarded = s.guarded := by
  simp [State.requestChecks, guarded_foldl]

@[simp] theorem guarded_countQueues (s : State) (c : CoreAt) : (State.countQueues s c).guarded = s.guarded := by
  simp [State.countQueues, guarded_foldl]

@[simp] theorem guarded_countEndpoints (s : State) (c : CoreAt) : (State.countEndpoints s c).guarded = s.guarded := by
  unfold State.countEndpoints
  dsimp only
  rw [guarded_foldl, guarded_foldl] <;> intro t p <;> (repeat' split) <;> simp

@[simp] theorem guarded_countSlots (s : State) (k : ClusterAt) : (State.countSlots s k).guarded = s.guarded := by
  unfold State.countSlots
  dsimp only
  split <;> simp

@[simp] theorem guarded_closeCore (s : State) (c : CoreAt) : (State.closeCore s c).1.guarded = s.guarded := by
  simp [State.closeCore, guarded_foldl]

@[simp] theorem guarded_endCycle (s : State) (k : ClusterAt) : (s.endCycle k).guarded = s.guarded := by
  unfold State.endCycle
  simp only [guarded_count, guarded_countSlots, guarded_modCluster, guarded_haltOn]
  rw [guarded_foldl_pair]
  intro p a
  simp

@[simp] theorem guarded_putStream (s : State) (m n : Nat) (t : Stream) : (State.putStream s m n t).guarded = s.guarded := by
  simp [State.putStream, guarded_foldl]

@[simp] theorem guarded_dropOwned (s : State) (cs : List CoreAt) : (State.dropOwned s cs).guarded = s.guarded := by
  unfold State.dropOwned
  try dsimp only
  (repeat' (first | (refine (guarded_foldl _ (fun s a => ?_) _ _).trans ?_) | split)) <;> simp [*]

@[simp] theorem guarded_moonSend (s : State) (m : Nat) (p : Packet) : (State.moonSend s m p).guarded = s.guarded := by
  unfold State.moonSend
  (repeat' split) <;> simp [guarded_foldl]

@[simp] theorem guarded_streamCredit (s : State) (m : Nat) (t : Stream) (n : Nat) : (State.streamCredit s m t n).guarded = s.guarded := by
  simp [State.streamCredit, guarded_foldl]

@[simp] theorem guarded_pump (fuel : Nat) (s : State) (m n : Nat) : (s.pump fuel m n).guarded = s.guarded := by
  induction fuel generalizing s with
  | zero => rfl
  | succ k ih =>
    unfold State.pump
    dsimp only
    (repeat' split) <;> simp [ih]

@[simp] theorem guarded_pumpStream (s : State) (m n : Nat) : (State.pumpStream s m n).guarded = s.guarded := by
  simp [State.pumpStream, guarded_foldl]

@[simp] theorem guarded_ringCredit (s : State) (m n slots : Nat) : (State.ringCredit s m n slots).guarded = s.guarded := by
  simp [State.ringCredit, guarded_foldl]

@[simp] theorem guarded_agUnit (s : State) (c : CoreAt) (g : Fin 2) (op : Nat) (act : Core → Word → Nat → Core) : (State.agUnit s c g op act).guarded = s.guarded := by
  simp [State.agUnit, guarded_foldl]

@[simp] theorem guarded_ptForward (s : State) (c : CoreAt) (o : Fin 16) : (State.ptForward s c o).guarded = s.guarded := by
  simp [State.ptForward, guarded_foldl]

@[simp] theorem guarded_addFaults (s : State) (k : ClusterAt) (fs : List Raised) : (State.addFaults s k fs).guarded = s.guarded := by
  simp [State.addFaults, guarded_foldl]

@[simp] theorem guarded_returnCredits (s : State) (c : CoreAt) (ep : Nat) (slots : Nat) : (State.returnCredits s c ep slots).guarded = s.guarded := by
  unfold State.returnCredits
  try dsimp only
  (repeat' (first | (refine (guarded_foldl _ (fun s a => ?_) _ _).trans ?_) | split)) <;> simp [*]

@[simp] theorem guarded_releaseRecs (s : State) (c : CoreAt) (ep n : Nat) : (State.releaseRecs s c ep n).guarded = s.guarded := by
  simp [State.releaseRecs, guarded_foldl]

@[simp] theorem guarded_anyLink (s : State) : (State.anyLink s).1.guarded = s.guarded := by
  simp [State.anyLink, guarded_foldl]

@[simp] theorem guarded_toPackage (s : State) (p : Packet) : (State.toPackage s p).1.guarded = s.guarded := by
  unfold State.toPackage
  (repeat' split) <;> simp [guarded_foldl]

@[simp] theorem guarded_injectAny (s : State) (c : CoreAt) (p : Packet) : (State.injectAny s c p).guarded = s.guarded := by
  simp [State.injectAny, guarded_foldl]

@[simp] theorem guarded_ackRecord (s : State) (c : CoreAt) (h : BitVec 128) (status : BitVec 4) : (State.ackRecord s c h status).guarded = s.guarded := by
  simp [State.ackRecord, guarded_foldl]

@[simp] theorem guarded_onQueue (s : State) (c : CoreAt) (q : Nat) (f : Packet → Bool) (i : Nat) (act : State → State) (hact : ∀ s : State, (act s).guarded = s.guarded) : (State.onQueue s c q f i act).guarded = s.guarded := by
  unfold State.onQueue
  try dsimp only
  (repeat' (first | (refine (guarded_foldl _ (fun s a => ?_) _ _).trans ?_) | split)) <;> simp [*]

@[simp] theorem guarded_countRecord (s : State) (c : CoreAt) (sub slots : Nat) : (State.countRecord s c sub slots).guarded = s.guarded := by
  simp [State.countRecord, guarded_foldl]

@[simp] theorem guarded_recordArrives (s : State) (c : CoreAt) (h : BitVec 128) (payload : Bytes) : (State.recordArrives s c h payload).guarded = s.guarded := by
  simp [State.recordArrives, guarded_foldl]

@[simp] theorem guarded_recorded (s : State) (c : CoreAt) (ep : Nat) (ack : Option (BitVec 128)) : (State.recorded s c ep ack).guarded = s.guarded := by
  unfold State.recorded
  (repeat' split) <;> simp [guarded_foldl]

@[simp] theorem guarded_landSegment (s : State) (c : CoreAt) (ep : Nat) (seg : Bytes) (mk : RecvEp → Nat → BitVec 128) (ack : Option (BitVec 128)) (inj : Bool) : (State.landSegment s c ep seg mk ack inj).1.guarded = s.guarded := by
  unfold State.landSegment
  try dsimp only
  (repeat' (first | (refine (guarded_foldl _ (fun s a => ?_) _ _).trans ?_) | split)) <;> simp [*]

@[simp] theorem guarded_segmentArrives (s : State) (c : CoreAt) (h : BitVec 128) (seg : Bytes) (inj : Bool) : (State.segmentArrives s c h seg inj).guarded = s.guarded := by
  simp [State.segmentArrives, guarded_foldl]

@[simp] theorem guarded_replyArrives (s : State) (c : CoreAt) (o : Outstanding) (info : BitVec 128) (data : Bytes) : (State.replyArrives s c o info data).guarded = s.guarded := by
  simp [State.replyArrives, guarded_foldl]

@[simp] theorem guarded_replied (s : State) (c : CoreAt) (ep serial : Nat) (status : BitVec 4) : (State.replied s c ep serial status).guarded = s.guarded := by
  simp [State.replied, guarded_foldl]

@[simp] theorem guarded_lateAnswer (s : State) (c : CoreAt) (f : Outstanding → Bool) : (State.lateAnswer s c f).guarded = s.guarded := by
  simp [State.lateAnswer, guarded_foldl]

@[simp] theorem guarded_ackArrives (s : State) (c : CoreAt) (body : BitVec 128) (txn : Option Nat) : (State.ackArrives s c body txn).guarded = s.guarded := by
  unfold State.ackArrives
  try dsimp only
  (repeat' (first | (refine (guarded_foldl _ (fun s a => ?_) _ _).trans ?_) | split)) <;> simp [*]

@[simp] theorem guarded_incidentEvent (s : State) (x : Incident) (verdict : BitVec 8) : (State.incidentEvent s x verdict).guarded = s.guarded := by
  simp [State.incidentEvent, guarded_foldl]

@[simp] theorem guarded_decideIncidents (s : State) (f : Incident → Bool) (verdict : BitVec 8) : (State.decideIncidents s f verdict).guarded = s.guarded := by
  simp [State.decideIncidents, guarded_foldl]

@[simp] theorem guarded_openIncident (s : State) (x : Incident) (sure : Bool) : (State.openIncident s x sure).1.guarded = s.guarded := by
  unfold State.openIncident
  try dsimp only
  (repeat' (first | (refine (guarded_foldl _ (fun s a => ?_) _ _).trans ?_) | split)) <;> simp [*]

@[simp] theorem guarded_incidentsPass (s : State) (step : BitVec 48) : (State.incidentsPass s step).guarded = s.guarded := by
  simp [State.incidentsPass, guarded_foldl]

@[simp] theorem guarded_incidentsUndecided (s : State) : (State.incidentsUndecided s).guarded = s.guarded := by
  simp [State.incidentsUndecided, guarded_foldl]

@[simp] theorem guarded_addDigest (s : State) (r : BitVec 512) : (State.addDigest s r).guarded = s.guarded := by
  simp [State.addDigest, guarded_foldl]

@[simp] theorem guarded_addReplica (s : State) (r : BitVec 8) (step sc : BitVec 48) (elems : List (BitVec 64)) (shard : Nat → Nat) (whole : Nat) : (State.addReplica s r step sc elems shard whole).guarded = s.guarded := by
  simp [State.addReplica, guarded_foldl]

@[simp] theorem guarded_flushDigests (s : State) : (State.flushDigests s).guarded = s.guarded := by
  simp [State.flushDigests, guarded_foldl]

@[simp] theorem guarded_coxSend (s : State) (k : ClusterAt) (dst : LCore) (body : BitVec 256) : (State.coxSend s k dst body).guarded = s.guarded := by
  simp [State.coxSend, guarded_foldl]

@[simp] theorem guarded_catchSendJoin (s : State) (k : ClusterAt) (id : Nat) : (State.catchSendJoin s k id).guarded = s.guarded := by
  simp [State.catchSendJoin, guarded_foldl]

@[simp] theorem guarded_noteRelease (s : State) (k : ClusterAt) (e : CatchSt) (arg : BitVec 8) : (State.noteRelease s k e arg).guarded = s.guarded := by
  simp [State.noteRelease, guarded_foldl]

@[simp] theorem guarded_ckptCheck (s : State) (k : ClusterAt) : (State.ckptCheck s k).guarded = s.guarded := by
  unfold State.ckptCheck
  try dsimp only
  (repeat' (first | (refine (guarded_foldl _ (fun s a => ?_) _ _).trans ?_) | split)) <;> simp [*]

@[simp] theorem guarded_catchRelease (s : State) (k : ClusterAt) (id : Fin 16) (arg : BitVec 8) (faulted : Bool) : (State.catchRelease s k id arg faulted).guarded = s.guarded := by
  simp [State.catchRelease, guarded_foldl]

@[simp] theorem guarded_catchTry (s : State) (k : ClusterAt) (id : Fin 16) : (State.catchTry s k id).guarded = s.guarded := by
  unfold State.catchTry
  try dsimp only
  (repeat' (first | (refine (guarded_foldl _ (fun s a => ?_) _ _).trans ?_) | split)) <;> simp [*]

@[simp] theorem guarded_coreJoins (s : State) (c : CoreAt) (id : Fin 16) (arg : BitVec 8) : (State.coreJoins s c id arg).guarded = s.guarded := by
  simp [State.coreJoins, guarded_foldl]

@[simp] theorem guarded_catchHalted (s : State) (k : ClusterAt) : (State.catchHalted s k).guarded = s.guarded := by
  simp [State.catchHalted, guarded_foldl]

@[simp] theorem guarded_childJoins (s : State) (k : ClusterAt) (id : Fin 16) (arg : Option (BitVec 8)) (faulted : Bool) (src : LCore) : (State.childJoins s k id arg faulted src).guarded = s.guarded := by
  simp [State.childJoins, guarded_foldl]

@[simp] theorem guarded_idleTick (s : State) : (idleTick s).guarded = s.guarded := by
  unfold idleTick
  dsimp only
  split <;> rfl

@[simp] theorem guarded_setJob (s : State) (st : JobState) (status reason : Nat) (src : Option LCore) (step : BitVec 48) : (State.setJob s st status reason src step).guarded = s.guarded := by
  unfold State.setJob
  (repeat' split) <;> simp [guarded_foldl]

@[simp] theorem guarded_genhanSend (s : State) (p : Packet) : (State.genhanSend s p).guarded = s.guarded := by
  unfold State.genhanSend
  (repeat' split) <;> simp [guarded_foldl]

@[simp] theorem guarded_stopCoxes (s : State) (tag : BitVec 32) : (State.stopCoxes s tag).guarded = s.guarded := by
  simp [State.stopCoxes, guarded_foldl]

@[simp] theorem guarded_checkHalted (s : State) : (State.checkHalted s).guarded = s.guarded := by
  simp [State.checkHalted, guarded_foldl]

@[simp] theorem guarded_haltJob (s : State) (reason status : Nat) (fault : Bool) (src : Option LCore) (step : BitVec 48) : (State.haltJob s reason status fault src step).guarded = s.guarded := by
  simp [State.haltJob, guarded_foldl]

@[simp] theorem guarded_stopCluster (s : State) (k : ClusterAt) : (State.stopCluster s k).guarded = s.guarded := by
  simp [State.stopCluster, guarded_foldl]

@[simp] theorem guarded_loadCluster (s : State) (rs : List ImgRec) (fs : List Feed) (streams : List (Nat × Nat × BitVec 256)) (d : Nat × Nat) : (State.loadCluster s rs fs streams d).guarded = s.guarded := by
  unfold State.loadCluster
  (repeat' split) <;> simp [guarded_foldl]

@[simp] theorem guarded_freshStreams (s : State) (rs : List ImgRec) (streams : List (Nat × Nat × BitVec 256)) : (State.freshStreams s rs streams).guarded = s.guarded := by
  unfold State.freshStreams
  try dsimp only
  (repeat' (first | (refine (guarded_foldl _ (fun s a => ?_) _ _).trans ?_) | split)) <;> simp [*]

@[simp] theorem guarded_loadRun (s : State) (rs : List ImgRec) (cls : List (Nat × Nat)) : (State.loadRun s rs cls).guarded = s.guarded := by
  simp [State.loadRun, guarded_foldl]

@[simp] theorem guarded_loadPhase (s : State) (q : Nat) : (s.loadPhase q).guarded = s.guarded := by
  unfold State.loadPhase
  extract_lets recs region t
  rw [guarded_foldl]
  · simp [t]
  · intro u a
    split <;> simp

@[simp] theorem guarded_armAt (s : State) (count : BitVec 64) : (State.armAt s count).guarded = s.guarded := by
  simp [State.armAt, guarded_foldl]

@[simp] theorem guarded_relSend (s : State) (pkg : BitVec 12) (kind : Nat) (count : BitVec 64) : (State.relSend s pkg kind count).guarded = s.guarded := by
  simp [State.relSend, guarded_foldl]

@[simp] theorem guarded_relaunchAt (s : State) (count : BitVec 64) : (State.relaunchAt s count).guarded = s.guarded := by
  simp [State.relaunchAt, guarded_foldl]

@[simp] theorem guarded_relaunchTry (s : State) : (State.relaunchTry s).guarded = s.guarded := by
  unfold State.relaunchTry
  (repeat' split) <;> simp [guarded_foldl]

@[simp] theorem guarded_ownDone (s : State) : (State.ownDone s).guarded = s.guarded := by
  simp [State.ownDone, guarded_foldl]

@[simp] theorem guarded_relaunchHoldAll (s : State) : (State.relaunchHoldAll s).guarded = s.guarded := by
  simp [State.relaunchHoldAll, guarded_foldl]

@[simp] theorem guarded_notReady (s : State) : (State.notReady s).guarded = s.guarded := by
  unfold State.notReady
  (repeat' split) <;> simp [guarded_foldl]

@[simp] theorem guarded_transferIn (s : State) (q : BitVec 3) : (State.transferIn s q).guarded = s.guarded := by
  simp [State.transferIn, guarded_foldl]

@[simp] theorem guarded_loadTransfer (s : State) (q : BitVec 3) : (State.loadTransfer s q).guarded = s.guarded := by
  simp [State.loadTransfer, guarded_foldl]

@[simp] theorem guarded_jobStep (s : State) : (State.jobStep s).guarded = s.guarded := by
  unfold State.jobStep
  (repeat' split) <;> simp [guarded_foldl]

@[simp] theorem guarded_drainPipes (fuel : Nat) (s : State) (k : ClusterAt) : (s.drainPipes fuel k).guarded = s.guarded := by
  induction fuel generalizing s with
  | zero => rfl
  | succ n ih =>
    unfold State.drainPipes
    split
    · rfl
    · simp [ih]

@[simp] theorem guarded_relArrival (s : State) (src : Option (BitVec 12)) (body : BitVec 256) (act : State → State) (hact : ∀ s : State, (act s).guarded = s.guarded) : (State.relArrival s src body act).guarded = s.guarded := by
  unfold State.relArrival
  try dsimp only
  (repeat' (first | (refine (guarded_foldl _ (fun s a => ?_) _ _).trans ?_) | split)) <;> simp [*]

@[simp] theorem guarded_countWord (s : State) (c : CoreAt) (w : Word) : (State.countWord s c w).guarded = s.guarded := by
  simp [State.countWord, guarded_foldl]

@[simp] theorem guarded_closeIfDone (s : State) (k : ClusterAt) : (State.closeIfDone s k).guarded = s.guarded := by
  simp [State.closeIfDone, guarded_foldl]

@[simp] theorem guarded_seqUnit (s : State) (c : CoreAt) (op : Nat) (act : Core → Word → Core) (after : State → State)
    (h : ∀ t : State, (after t).guarded = t.guarded) : (s.seqUnit c op act after).guarded = s.guarded := by
  unfold State.seqUnit
  simp [h]

@[simp] theorem guarded_countEpisode (s : State) (c : CoreAt) : (State.countEpisode s c).guarded = s.guarded := by
  unfold State.countEpisode
  (repeat' split) <;> simp [guarded_foldl]

@[simp] theorem guarded_countStall (s : State) (k : ClusterAt) : (State.countStall s k).guarded = s.guarded := by
  unfold State.countStall
  dsimp only
  rw [guarded_foldl, guarded_countSlots, guarded_foldl]
  · intro t c
    split <;> simp
  · intro t c
    simp

@[simp] theorem guarded_ceUnit (s : State) (c : CoreAt) (op : Word → Core → Bool) (act : State → CoreAt → Word → State)
    (h : ∀ (t : State) d w, (act t d w).guarded = t.guarded) : (s.ceUnit c op act).guarded = s.guarded := by
  unfold State.ceUnit
  simp [h]

@[simp] theorem guarded_launchRecord (s : State) (c : CoreAt) (ep n from_ : Nat) (release : Option (Fin 16)) : (State.launchRecord s c ep n from_ release).guarded = s.guarded := by
  simp [State.launchRecord, guarded_foldl]

@[simp] theorem guarded_sendBytes (s : State) (c : CoreAt) (w : Word) : (State.sendBytes s c w).guarded = s.guarded := by
  simp [State.sendBytes, guarded_foldl]

@[simp] theorem guarded_sendTile (s : State) (c : CoreAt) (w : Word) : (State.sendTile s c w).guarded = s.guarded := by
  unfold State.sendTile
  try dsimp only
  (repeat' (first | (refine (guarded_foldl _ (fun s a => ?_) _ _).trans ?_) | split)) <;> simp [*]

@[simp] theorem guarded_speculate (s : State) (r : CoreAt) (m n g need : Nat) (step : BitVec 16) (l : List Nat) :
    (s.speculate r m n g need step l).guarded = s.guarded := by
  induction l generalizing s with
  | nil => rfl
  | cons j t ih =>
    unfold State.speculate
    simp [ih]

@[simp] theorem guarded_landClaimsN (fuel : Nat) (s : State) (r : CoreAt) (ep : Nat) : (s.landClaimsN fuel r ep).guarded = s.guarded := by
  induction fuel generalizing s with
  | zero => rfl
  | succ k ih =>
    unfold State.landClaimsN
    dsimp only
    split
    · rfl
    · split
      · rfl
      · rw [guarded_ite, ih, ite_self, guarded_foldl_pair]
        · simp
        · intro p a
          split <;> simp

@[simp] theorem guarded_landClaims (s : State) (r : CoreAt) (ep : Nat) : (State.landClaims s r ep).guarded = s.guarded := by
  simp [State.landClaims, guarded_foldl]

@[simp] theorem guarded_demandOp (s : State) (c : CoreAt) (w : Word) : (State.demandOp s c w).guarded = s.guarded := by
  unfold State.demandOp
  try dsimp only
  (repeat' (first | (refine (guarded_foldl _ (fun s a => ?_) _ _).trans ?_) | split)) <;> simp [*]

@[simp] theorem guarded_recvOp (s : State) (c : CoreAt) (w : Word) : (State.recvOp s c w).guarded = s.guarded := by
  simp [State.recvOp, guarded_foldl]

@[simp] theorem guarded_requestOp (s : State) (op : BitVec 2) (c : CoreAt) (w : Word) : (State.requestOp s op c w).guarded = s.guarded := by
  simp [State.requestOp, guarded_foldl]

@[simp] theorem guarded_localOp (s : State) (c : CoreAt) (w : Word) : (State.localOp s c w).guarded = s.guarded := by
  simp [State.localOp, guarded_foldl]

@[simp] theorem guarded_reduceOp (s : State) (c : CoreAt) (w : Word) : (State.reduceOp s c w).guarded = s.guarded := by
  simp [State.reduceOp, guarded_foldl]

@[simp] theorem guarded_steerCycle (s : State) (c : CoreAt) : (s.steerCycle c).guarded = s.guarded := by
  unfold State.steerCycle
  dsimp only
  repeat' (first | (refine (guarded_foldl _ (fun s a => ?_) _ _).trans ?_) | simp | split | intro _)

@[simp] theorem guarded_openOp (s : State) (c : CoreAt) (w : Word) : (State.openOp s c w).guarded = s.guarded := by
  simp [State.openOp, guarded_foldl]

@[simp] theorem guarded_sendClose (s : State) (c : CoreAt) (ep : Nat) : (State.sendClose s c ep).guarded = s.guarded := by
  simp [State.sendClose, guarded_foldl]

@[simp] theorem guarded_closeOp (s : State) (c : CoreAt) (w : Word) : (State.closeOp s c w).guarded = s.guarded := by
  unfold State.closeOp
  try dsimp only
  (repeat' (first | (refine (guarded_foldl _ (fun s a => ?_) _ _).trans ?_) | split)) <;> simp [*]

@[simp] theorem guarded_creditArrives (s : State) (c : CoreAt) (b : BitVec 128) : (State.creditArrives s c b).guarded = s.guarded := by
  unfold State.creditArrives
  try dsimp only
  (repeat' (first | (refine (guarded_foldl _ (fun s a => ?_) _ _).trans ?_) | split)) <;> simp [*]

@[simp] theorem guarded_answer (s : State) (c : CoreAt) (p : Packet) (txn : Option Nat) : (State.answer s c p txn).guarded = s.guarded := by
  simp [State.answer, guarded_foldl]

@[simp] theorem guarded_ackWrite (s : State) (c : CoreAt) (a : BitVec 256) (status : BitVec 4) (txn : Option Nat) : (State.ackWrite s c a status txn).guarded = s.guarded := by
  simp [State.ackWrite, guarded_foldl]

@[simp] theorem guarded_replyTo (s : State) (c : CoreAt) (a : BitVec 256) (status : BitVec 4) (prior : BitVec 32) (data : Bytes) (txn : Option Nat) : (State.replyTo s c a status prior data txn).guarded = s.guarded := by
  simp [State.replyTo, guarded_foldl]

@[simp] theorem guarded_denied (s : State) (c : CoreAt) : (State.denied s c).guarded = s.guarded := by
  simp [State.denied, guarded_foldl]

@[simp] theorem guarded_toFabric (s : State) (c : CoreAt) (ops : List FabricOp) (fin : FabricEnd) (txn : Option Nat) : (State.toFabric s c ops fin txn).guarded = s.guarded := by
  simp [State.toFabric, guarded_foldl]

@[simp] theorem guarded_writeArrives (s : State) (c : CoreAt) (a : BitVec 256) (data : Bytes) (txn : Option Nat) : (State.writeArrives s c a data txn).guarded = s.guarded := by
  simp [State.writeArrives, guarded_foldl]

@[simp] theorem guarded_hostAnswer (s : State) (p : Packet) : (State.hostAnswer s p).guarded = s.guarded := by
  unfold State.hostAnswer
  (repeat' split) <;> simp [guarded_foldl]

@[simp] theorem guarded_hostWriteArrives (s : State) (a : BitVec 256) (data : Bytes) (txn : Option Nat) : (State.hostWriteArrives s a data txn).guarded = s.guarded := by
  simp [State.hostWriteArrives, guarded_foldl]

@[simp] theorem guarded_hostReadArrives (s : State) (a : BitVec 256) (host : Option Bytes) (txn : Option Nat) : (State.hostReadArrives s a host txn).guarded = s.guarded := by
  simp [State.hostReadArrives, guarded_foldl]

@[simp] theorem guarded_readArrives (s : State) (c : CoreAt) (a : BitVec 256) (txn : Option Nat) : (State.readArrives s c a txn).guarded = s.guarded := by
  simp [State.readArrives, guarded_foldl]

@[simp] theorem guarded_atomicArrives (s : State) (c : CoreAt) (a : BitVec 256) (txn : Option Nat) : (State.atomicArrives s c a txn).guarded = s.guarded := by
  simp [State.atomicArrives, guarded_foldl]

@[simp] theorem guarded_replyRecord (s : State) (c : CoreAt) (pos : BitVec 11) (msg rep : BitVec 128) (data : Bytes) (txn : Option Nat) : (State.replyRecord s c pos msg rep data txn).guarded = s.guarded := by
  unfold State.replyRecord
  try dsimp only
  (repeat' (first | (refine (guarded_foldl _ (fun s a => ?_) _ _).trans ?_) | split)) <;> simp [*]

@[simp] theorem guarded_completeRequest (s : State) (c : CoreAt) (o : Outstanding) (status : BitVec 4) : (State.completeRequest s c o status).guarded = s.guarded := by
  simp [State.completeRequest, guarded_foldl]

@[simp] theorem guarded_unitAccess (s : State) (k : ClusterAt) (r : RedSt) (ops : List FabricOp) (fin : FabricEnd) : (State.unitAccess s k r ops fin).guarded = s.guarded := by
  simp [State.unitAccess, guarded_foldl]

@[simp] theorem guarded_readSlot (s : State) (k : ClusterAt) (r : RedSt) (j : Fin 2) (fin : FabricEnd) : (State.readSlot s k r j fin).guarded = s.guarded := by
  simp [State.readSlot, guarded_foldl]

@[simp] theorem guarded_reduceProto (s : State) (k : ClusterAt) : (State.reduceProto s k).guarded = s.guarded := by
  simp [State.reduceProto, guarded_foldl]

@[simp] theorem guarded_noteRed (s : State) (k : ClusterAt) (h : BitVec 128) (code : BitVec 2) : (State.noteRed s k h code).guarded = s.guarded := by
  simp [State.noteRed, guarded_foldl]

@[simp] theorem guarded_unitSend (s : State) (k : ClusterAt) (kind : Nat) (dst : LCore) (link : BitVec 3) (h : BitVec 128) (elems : Bytes) : (State.unitSend s k kind dst link h elems).guarded = s.guarded := by
  simp [State.unitSend, guarded_foldl]

@[simp] theorem guarded_returnChunk (s : State) (k : ClusterAt) (i : Fin 16) (j : Fin 2) (h : BitVec 128) (elems : Bytes) : (State.returnChunk s k i j h elems).guarded = s.guarded := by
  simp [State.returnChunk, guarded_foldl]

@[simp] theorem guarded_copyDigest (s : State) (k : ClusterAt) (r : RedSt) (h : BitVec 128) (elems : Bytes) : (State.copyDigest s k r h elems).guarded = s.guarded := by
  simp [State.copyDigest, guarded_foldl]

@[simp] theorem guarded_startReturn (s : State) (k : ClusterAt) (i : Fin 16) (j : Fin 2) (elems : Bytes) : (State.startReturn s k i j elems).guarded = s.guarded := by
  simp [State.startReturn, guarded_foldl]

@[simp] theorem guarded_sendPartial (s : State) (k : ClusterAt) (i : Fin 16) (j : Fin 2) : (State.sendPartial s k i j).guarded = s.guarded := by
  unfold State.sendPartial
  dsimp only
  repeat' (first | simp | split)

@[simp] theorem guarded_partialRead (s : State) (k : ClusterAt) (i : Fin 16) (j : Fin 2) (elems : Bytes) : (State.partialRead s k i j elems).guarded = s.guarded := by
  simp [State.partialRead, guarded_foldl]

@[simp] theorem guarded_combined (s : State) (k : ClusterAt) (i : Fin 16) (j : Fin 2) (h : BitVec 128) (link : BitVec 3) (elems old : Bytes) : (State.combined s k i j h link elems old).guarded = s.guarded := by
  unfold State.combined
  try dsimp only
  (repeat' (first | (refine (guarded_foldl _ (fun s a => ?_) _ _).trans ?_) | split)) <;> simp [*]

@[simp] theorem guarded_nodeArrive (s : State) (k : ClusterAt) (i : Fin 16) (h : BitVec 128) (link : BitVec 3) (elems : Bytes) :
    (s.nodeArrive k i h link elems).guarded = s.guarded := by
  unfold State.nodeArrive
  dsimp only
  repeat' (first | simp | split)

@[simp] theorem guarded_redSlotWritten (s : State) (k : ClusterAt) (i : Fin 16) (j : Fin 2) : (State.redSlotWritten s k i j).guarded = s.guarded := by
  simp [State.redSlotWritten, guarded_foldl]

@[simp] theorem guarded_reducePathLost (s : State) (h : BitVec 128) : (State.reducePathLost s h).guarded = s.guarded := by
  simp [State.reducePathLost, guarded_foldl]

@[simp] theorem guarded_redOffline (s : State) (h : BitVec 128) : (State.redOffline s h).guarded = s.guarded := by
  simp [State.redOffline, guarded_foldl]

@[simp] theorem guarded_returnArrives (s : State) (k : ClusterAt) (i : Fin 16) (h : BitVec 128) (elems : Bytes) : (State.returnArrives s k i h elems).guarded = s.guarded := by
  unfold State.returnArrives
  try dsimp only
  (repeat' (first | (refine (guarded_foldl _ (fun s a => ?_) _ _).trans ?_) | split)) <;> simp [*]

@[simp] theorem guarded_countStack (s : State) (stack n : Nat) (by_ : Nat) : (State.countStack s stack n by_).guarded = s.guarded := by
  simp [State.countStack, guarded_foldl]

@[simp] theorem guarded_countBytes (s : State) (n o len : Nat) : (State.countBytes s n o len).guarded = s.guarded := by
  simp [State.countBytes, guarded_foldl]

@[simp] theorem guarded_countDeepCe (s : State) (stack : Nat) : (State.countDeepCe s stack).guarded = s.guarded := by
  simp [State.countDeepCe, guarded_foldl]

@[simp] theorem guarded_deepSoft (s : State) (o n : Nat) : (State.deepSoft s o n).guarded = s.guarded := by
  simp [State.deepSoft, guarded_foldl]

@[simp] theorem guarded_deepUe (s : State) (o : Nat) : (State.deepUe s o).guarded = s.guarded := by
  simp [State.deepUe, guarded_foldl]

@[simp] theorem guarded_checkEvent (s : State) (checker unit o : Nat) : (State.checkEvent s checker unit o).guarded = s.guarded := by
  simp [State.checkEvent, guarded_foldl]

@[simp] theorem guarded_streamFault (s : State) (m n i o code : Nat) : (State.streamFault s m n i o code).guarded = s.guarded := by
  unfold State.streamFault
  try dsimp only
  (repeat' (first | (refine (guarded_foldl _ (fun s a => ?_) _ _).trans ?_) | split)) <;> simp [*]

@[simp] theorem guarded_demandServed (s : State) (t : Stream) (tile : Nat) (segs : List Bytes) : (State.demandServed s t tile segs).guarded = s.guarded := by
  simp [State.demandServed, guarded_foldl]

@[simp] theorem guarded_moonToComp (s : State) (m exit comp : Nat) (p : Packet) : (State.moonToComp s m exit comp p).guarded = s.guarded := by
  simp [State.moonToComp, guarded_foldl]

@[simp] theorem guarded_setHome (s : State) (m : Nat) (x : Option HomeOp) : (State.setHome s m x).guarded = s.guarded := by
  simp [State.setHome, guarded_foldl]

@[simp] theorem guarded_homeLater (s : State) (x : HomeOp) : (State.homeLater s x).guarded = s.guarded := by
  simp [State.homeLater, guarded_foldl]

@[simp] theorem guarded_askPart (s : State) (m op o n : Nat) (data : Bytes) : (State.askPart s m op o n data).guarded = s.guarded := by
  simp [State.askPart, guarded_foldl]

@[simp] theorem guarded_awaitPart (s : State) (x : HomeOp) (op o n : Nat) (data : Bytes) : (State.awaitPart s x op o n data).guarded = s.guarded := by
  simp [State.awaitPart, guarded_foldl]

@[simp] theorem guarded_moonRead (s : State) (o n : Nat) : (State.moonRead s o n).1.guarded = s.guarded := by
  unfold State.moonRead
  try dsimp only
  (repeat' (first | (refine (guarded_foldl _ (fun s a => ?_) _ _).trans ?_) | split)) <;> simp [*]

@[simp] theorem guarded_dmaEnds (s : State) (p : Nat) (d : Desc) (e : Nat × Bool) : (State.dmaEnds s p d e).guarded = s.guarded := by
  simp [State.dmaEnds, guarded_foldl]

@[simp] theorem guarded_dmaMoved (s : State) (p : Nat) (d : Desc) : (State.dmaMoved s p d).guarded = s.guarded := by
  simp [State.dmaMoved, guarded_foldl]

@[simp] theorem guarded_dmaAsk (s : State) (p : Nat) (d : Desc) (op o n : Nat) (data : Bytes) : (State.dmaAsk s p d op o n data).guarded = s.guarded := by
  simp [State.dmaAsk, guarded_foldl]

@[simp] theorem guarded_dmaPut (s : State) (p : Nat) (d : Desc) (seg : Bytes) : (State.dmaPut s p d seg).guarded = s.guarded := by
  simp [State.dmaPut, guarded_foldl]

@[simp] theorem guarded_dmaGet (s : State) (p : Nat) (d : Desc) : (State.dmaGet s p d).guarded = s.guarded := by
  simp [State.dmaGet, guarded_foldl]

@[simp] theorem guarded_dmaOut (s : State) (d : Desc) (b : Bytes) : (State.dmaOut s d b).guarded = s.guarded := by
  simp [State.dmaOut, guarded_foldl]

@[simp] theorem guarded_dmaLeft (s : State) (o n : Nat) (txn : Option Nat) (a : Nat ⊕ Bytes) : (State.dmaLeft s o n txn a).guarded = s.guarded := by
  unfold State.dmaLeft
  (repeat' split) <;> simp [guarded_foldl]

@[simp] theorem guarded_dmaAnswer (s : State) (o n : Nat) (txn : Option Nat) (a : Nat ⊕ Bytes) : (State.dmaAnswer s o n txn a).guarded = s.guarded := by
  unfold State.dmaAnswer
  try dsimp only
  (repeat' (first | (refine (guarded_foldl _ (fun s a => ?_) _ _).trans ?_) | split)) <;> simp [*]

@[simp] theorem guarded_readDone (s : State) (m : Nat) (h : BitVec 128) (txn : Option Nat) (tile : Nat) (segs : List Bytes) (err : Option (Nat × Nat)) : (State.readDone s m h txn tile segs err).guarded = s.guarded := by
  unfold State.readDone
  try dsimp only
  (repeat' (first | (refine (guarded_foldl _ (fun s a => ?_) _ _).trans ?_) | split)) <;> simp [*]

@[simp] theorem guarded_ackSegment (s : State) (m : Nat) (t : Stream) (status : BitVec 4) : (State.ackSegment s m t status).guarded = s.guarded := by
  simp [State.ackSegment, guarded_foldl]

@[simp] theorem guarded_atHome (s : State) (m : Nat) (f : Packet → Bool) (ok : Bool) (act : State → State) (hact : ∀ s : State, (act s).guarded = s.guarded) : (State.atHome s m f ok act).guarded = s.guarded := by
  unfold State.atHome
  try dsimp only
  (repeat' (first | (refine (guarded_foldl _ (fun s a => ?_) _ _).trans ?_) | split)) <;> simp [*]

@[simp] theorem guarded_accessLost (s : State) (x : HomeOp) : (State.accessLost s x).guarded = s.guarded := by
  unfold State.accessLost
  (repeat' split) <;> simp [guarded_foldl]

@[simp] theorem guarded_bufferSegment (s : State) (c : CoreAt) (stream : Nat) (h : BitVec 128) (seg : Bytes) (inj : Bool) (txn : Option Nat) : (State.bufferSegment s c stream h seg inj txn).guarded = s.guarded := by
  unfold State.bufferSegment
  try dsimp only
  (repeat' (first | (refine (guarded_foldl _ (fun s a => ?_) _ _).trans ?_) | split)) <;> simp [*]

@[simp] theorem guarded_speculateOn (s : State) (r : CoreAt) (m n : Nat) : (State.speculateOn s r m n).guarded = s.guarded := by
  unfold State.speculateOn
  try dsimp only
  split <;> simp

@[simp] theorem guarded_deliverAt (s : State) (c : CoreAt) (m : Nat) (h : BitVec 128) (seg : Bytes) (inj : Bool) (txn : Option Nat) : (State.deliverAt s c m h seg inj txn).guarded = s.guarded := by
  simp [State.deliverAt, guarded_foldl]

@[simp] theorem guarded_putConn (s : State) (l i : Nat) (e : BitVec 128) : (State.putConn s l i e).guarded = s.guarded := by
  simp [State.putConn, guarded_foldl]

@[simp] theorem guarded_openArrives (s : State) (l : Nat) (b : BitVec 256) : (State.openArrives s l b).guarded = s.guarded := by
  unfold State.openArrives
  (repeat' split) <;> simp [guarded_foldl]

@[simp] theorem guarded_dropPeer (s : State) (l i : Nat) : (State.dropPeer s l i).guarded = s.guarded := by
  unfold State.dropPeer
  try dsimp only
  (repeat' (first | (refine (guarded_foldl _ (fun s a => ?_) _ _).trans ?_) | split)) <;> simp [*]

@[simp] theorem guarded_closeArrives (s : State) (l : Nat) (b : BitVec 256) : (State.closeArrives s l b).guarded = s.guarded := by
  simp [State.closeArrives, guarded_foldl]

@[simp] theorem guarded_answerArrives (s : State) (c : CoreAt) (b : BitVec 256) : (State.answerArrives s c b).guarded = s.guarded := by
  simp [State.answerArrives, guarded_foldl]

@[simp] theorem guarded_closeAnswered (s : State) (c : CoreAt) (b : BitVec 256) : (State.closeAnswered s c b).guarded = s.guarded := by
  simp [State.closeAnswered, guarded_foldl]

@[simp] theorem guarded_countFlit (s : State) (p : Packet) (o : Nat × Packet) : (State.countFlit s p o).guarded = s.guarded := by
  simp [State.countFlit, guarded_foldl]

@[simp] theorem guarded_enter (s : State) (p : Packet) (o : Nat × Packet) : (State.enter s p o).guarded = s.guarded := by
  simp [State.enter, guarded_foldl]

@[simp] theorem guarded_advance (s : State) (i : Nat) (p : Packet) : (State.advance s i p).guarded = s.guarded := by
  simp [State.advance, guarded_foldl]

@[simp] theorem guarded_meshProto (s : State) (p : Packet) : (State.meshProto s p).guarded = s.guarded := by
  simp [State.meshProto, guarded_foldl]

@[simp] theorem guarded_hop (s : State) (i : Nat) (p : Packet) (delayed : Bool) : (State.hop s i p delayed).guarded = s.guarded := by
  simp [State.hop, guarded_foldl]

@[simp] theorem guarded_comeIn (s : State) (i : Nat) (p : Packet) : (State.comeIn s i p).guarded = s.guarded := by
  simp [State.comeIn, guarded_foldl]

@[simp] theorem guarded_answerOffline (s : State) (a : Nat × Nat) (p : Packet) : (State.answerOffline s a p).guarded = s.guarded := by
  unfold State.answerOffline
  (repeat' split) <;> simp [guarded_foldl]

@[simp] theorem guarded_injectFlit (s : State) (i : Nat) (p : Packet) (delayed : Bool) : (State.injectFlit s i p delayed).guarded = s.guarded := by
  unfold State.injectFlit
  (repeat' split) <;> simp [guarded_foldl]

@[simp] theorem guarded_dropFailed (s : State) (l : Nat × Nat × Nat) : (State.dropFailed s l).guarded = s.guarded := by
  unfold State.dropFailed
  (repeat' split) <;> simp [guarded_foldl]

@[simp] theorem guarded_killLink (s : State) (a : Nat × Nat) (port : Nat) (hull : Bool) : (State.killLink s a port hull).guarded = s.guarded := by
  simp [State.killLink, guarded_foldl]

@[simp] theorem guarded_countRetries (s : State) (a : Nat × Nat) (port : Nat) : (State.countRetries s a port).guarded = s.guarded := by
  simp [State.countRetries, guarded_foldl]

@[simp] theorem guarded_applyEdit (s : State) (e : RouteEdit) : (State.applyEdit s e).guarded = s.guarded := by
  simp [State.applyEdit, guarded_foldl]

@[simp] theorem guarded_putPort (s : State) (i : Nat) (p : Port) : (State.putPort s i p).guarded = s.guarded := by
  simp [State.putPort, guarded_foldl]

@[simp] theorem guarded_modPort (s : State) (i : Nat) (f : Port → Port) : (State.modPort s i f).guarded = s.guarded := by
  simp [State.modPort, guarded_foldl]

@[simp] theorem guarded_countPort (s : State) (i n : Nat) (by_ : Nat) : (State.countPort s i n by_).guarded = s.guarded := by
  simp [State.countPort, guarded_foldl]

@[simp] theorem guarded_parentUp (s : State) (i : Nat) (st : PortState) : (State.parentUp s i st).guarded = s.guarded := by
  simp [State.parentUp, guarded_foldl]

@[simp] theorem guarded_setPortState (s : State) (i : Nat) (st : PortState) (reason width : Nat) : (State.setPortState s i st reason width).guarded = s.guarded := by
  simp [State.setPortState, guarded_foldl]

@[simp] theorem guarded_sendFrame (s : State) (i : Nat) (body : Bytes) (nak : Bool) : (State.sendFrame s i body nak).guarded = s.guarded := by
  unfold State.sendFrame
  (repeat' split) <;> simp [guarded_foldl]

@[simp] theorem guarded_sendIdle (s : State) (i : Nat) (nak : Bool) : (State.sendIdle s i nak).guarded = s.guarded := by
  simp [State.sendIdle, guarded_foldl]

@[simp] theorem guarded_sendLink (s : State) (i : Nat) (msg : Bytes) : (State.sendLink s i msg).guarded = s.guarded := by
  simp [State.sendLink, guarded_foldl]

@[simp] theorem guarded_replayAll (s : State) (i : Nat) : (State.replayAll s i).guarded = s.guarded := by
  simp [State.replayAll, guarded_foldl]

@[simp] theorem guarded_beginRetrain (s : State) (i : Nat) : (State.beginRetrain s i).guarded = s.guarded := by
  simp [State.beginRetrain, guarded_foldl]

@[simp] theorem guarded_replayOrRetrain (s : State) (i : Nat) : (State.replayOrRetrain s i).guarded = s.guarded := by
  simp [State.replayOrRetrain, guarded_foldl]

@[simp] theorem guarded_sendFlits (fuel : Nat) (s : State) (i : Nat) (l : List OutFlit) : (s.sendFlits fuel i l).guarded = s.guarded := by
  induction fuel generalizing s l with
  | zero => rfl
  | succ n ih =>
    unfold State.sendFlits
    split
    · rfl
    · exact (ih _ _).trans (by simp)

@[simp] theorem guarded_flush (s : State) (i : Nat) : (State.flush s i).guarded = s.guarded := by
  simp [State.flush, guarded_foldl]

@[simp] theorem guarded_sendPacket (s : State) (i : Nat) (p : Packet) : (State.sendPacket s i p).guarded = s.guarded := by
  simp [State.sendPacket, guarded_foldl]

@[simp] theorem guarded_reduceLost (s : State) (l port rid : Nat) : (State.reduceLost s l port rid).guarded = s.guarded := by
  simp [State.reduceLost, guarded_foldl]

@[simp] theorem guarded_notifyBroken (s : State) (l : Nat) (n : ConnName) : (State.notifyBroken s l n).guarded = s.guarded := by
  simp [State.notifyBroken, guarded_foldl]

@[simp] theorem guarded_noRoute (s : State) (l : Nat) (p : Packet) : (State.noRoute s l p).guarded = s.guarded := by
  unfold State.noRoute
  (repeat' split) <;> simp [guarded_foldl]

@[simp] theorem guarded_breakSenders (s o : State) (i : Nat) : (State.breakSenders s o i).guarded = s.guarded := by
  unfold State.breakSenders
  try dsimp only
  (repeat' (first | (refine (guarded_foldl _ (fun s a => ?_) _ _).trans ?_) | split)) <;> simp [*]

@[simp] theorem guarded_breakSender (s : State) (c : CoreAt) (b : BitVec 256) : (State.breakSender s c b).guarded = s.guarded := by
  simp [State.breakSender, guarded_foldl]

@[simp] theorem guarded_breakPeers (s o : State) (i : Nat) : (State.breakPeers s o i).guarded = s.guarded := by
  simp [State.breakPeers, guarded_foldl]

@[simp] theorem guarded_failRequests (s o : State) (i : Nat) (status : BitVec 4) : (State.failRequests s o i status).guarded = s.guarded := by
  unfold State.failRequests
  try dsimp only
  (repeat' (first | (refine (guarded_foldl _ (fun s a => ?_) _ _).trans ?_) | split)) <;> simp [*]

@[simp] theorem guarded_failReductions (s o : State) (i : Nat) : (State.failReductions s o i).guarded = s.guarded := by
  unfold State.failReductions
  try dsimp only
  (repeat' (first | (refine (guarded_foldl _ (fun s a => ?_) _ _).trans ?_) | split)) <;> simp [*]

@[simp] theorem guarded_losePort (s o : State) (i : Nat) (status : BitVec 4) : (State.losePort s o i status).guarded = s.guarded := by
  simp [State.losePort, guarded_foldl]

@[simp] theorem guarded_reroute (s : State) (i : Nat) : (State.reroute s i).guarded = s.guarded := by
  simp [State.reroute, guarded_foldl]

@[simp] theorem guarded_dropPort (s o : State) (i : Nat) : (State.dropPort s o i).guarded = s.guarded := by
  unfold State.dropPort
  dsimp only
  refine (guarded_foldl _ (fun s a => ?_) _ _).trans ?_
  · split <;> simp
  · simp

@[simp] theorem guarded_takeDown (s : State) (i : Nat) (st : PortState) (reason : Nat) : (State.takeDown s i st reason).guarded = s.guarded := by
  unfold State.takeDown
  dsimp only
  split <;> simp

@[simp] theorem guarded_takeOffline (s : State) (i : Nat) : (State.takeOffline s i).guarded = s.guarded := by
  unfold State.takeOffline
  dsimp only
  split <;> simp

@[simp] theorem guarded_stopOut (s : State) (tag : BitVec 32) (origin : BitVec 12) (count : BitVec 64) (skip : Option Nat) : (State.stopOut s tag origin count skip).guarded = s.guarded := by
  simp [State.stopOut, guarded_foldl]

@[simp] theorem guarded_recordStop (s : State) (tag : BitVec 32) (origin : BitVec 12) (count : BitVec 64) : (State.recordStop s tag origin count).guarded = s.guarded := by
  simp [State.recordStop, guarded_foldl]

@[simp] theorem guarded_injectStop (s : State) : (State.injectStop s).guarded = s.guarded := by
  simp [State.injectStop, guarded_foldl]

@[simp] theorem guarded_stopReceived (s : State) (tag : BitVec 32) (origin : BitVec 12) (count : BitVec 64) (port : Option Nat) : (State.stopReceived s tag origin count port).guarded = s.guarded := by
  simp [State.stopReceived, guarded_foldl]

@[simp] theorem guarded_unlock (s : State) (st : TimeState) : (State.unlock s st).guarded = s.guarded := by
  unfold State.unlock
  dsimp only
  split
  · exact (guarded_raiseEvent _ _ _ _).trans rfl
  · rfl

@[simp] theorem guarded_discipline (s : State) (x : Int) : (State.discipline s x).guarded = s.guarded := by
  unfold State.discipline
  try dsimp only
  (repeat' (first | (refine (guarded_foldl _ (fun s a => ?_) _ _).trans ?_) | split)) <;> simp [*]

@[simp] theorem guarded_timeReplied (s : State) (port : Nat) (t1 t2 t3 t4 : BitVec 80) (depth : BitVec 8) : (State.timeReplied s port t1 t2 t3 t4 depth).guarded = s.guarded := by
  simp [State.timeReplied, guarded_foldl]

@[simp] theorem guarded_probed (s : State) (port : Nat) (t1 t2 : BitVec 80) : (State.probed s port t1 t2).guarded = s.guarded := by
  simp [State.probed, guarded_foldl]

@[simp] theorem guarded_sendProbe (s : State) (i : Nat) : (State.sendProbe s i).guarded = s.guarded := by
  simp [State.sendProbe, guarded_foldl]

@[simp] theorem guarded_noteId (s : State) (i : Nat) (m : Bytes) : (State.noteId s i m).guarded = s.guarded := by
  simp [State.noteId, guarded_foldl]

@[simp] theorem guarded_idArrives (s : State) (i : Nat) (m : Bytes) : (State.idArrives s i m).guarded = s.guarded := by
  simp [State.idArrives, guarded_foldl]

@[simp] theorem guarded_portDown (s : State) (i : Nat) (reason : Nat) : (State.portDown s i reason).guarded = s.guarded := by
  simp [State.portDown, guarded_foldl]

@[simp] theorem guarded_resume (s : State) (i : Nat) (fresh : Bool) : (State.resume s i fresh).guarded = s.guarded := by
  simp [State.resume, guarded_foldl]

@[simp] theorem guarded_finishTraining (s : State) (i : Nat) (fresh : Bool) (lanes : BitVec 8) (t : Training) : (State.finishTraining s i fresh lanes t).guarded = s.guarded := by
  unfold State.finishTraining
  (repeat' split) <;> simp [guarded_foldl]

@[simp] theorem guarded_savePairing (s : State) (i : Nat) (t : Training) : (State.savePairing s i t).guarded = s.guarded := by
  unfold State.savePairing
  (repeat' split) <;> simp [guarded_foldl]

@[simp] theorem guarded_equalise (s : State) (i : Nat) (t : Training) : (State.equalise s i t).guarded = s.guarded := by
  simp [State.equalise, guarded_foldl]

@[simp] theorem guarded_train (s : State) (i : Nat) (t : Training) : (State.train s i t).guarded = s.guarded := by
  simp [State.train, guarded_foldl]

@[simp] theorem guarded_offlineArrives (s : State) (i : Nat) (reason : BitVec 8) : (State.offlineArrives s i reason).guarded = s.guarded := by
  simp [State.offlineArrives, guarded_foldl]

@[simp] theorem guarded_takeAcks (s : State) (i : Nat) (b : Bytes) : (State.takeAcks s i b).guarded = s.guarded := by
  simp [State.takeAcks, guarded_foldl]

@[simp] theorem guarded_nakOnce (s : State) (i : Nat) : (State.nakOnce s i).guarded = s.guarded := by
  simp [State.nakOnce, guarded_foldl]

@[simp] theorem guarded_linkMsg (s : State) (i : Nat) (m : Bytes) : (State.linkMsg s i m).guarded = s.guarded := by
  unfold State.linkMsg
  (repeat' split) <;> simp [guarded_foldl]

@[simp] theorem guarded_acceptData (s : State) (i : Nat) (b : Bytes) : (State.acceptData s i b).guarded = s.guarded := by
  simp [State.acceptData, guarded_foldl]

@[simp] theorem guarded_countCorrected (s : State) (i : Nat) : (State.countCorrected s i).guarded = s.guarded := by
  simp [State.countCorrected, guarded_foldl]

@[simp] theorem guarded_frameIn (s : State) (i : Nat) (b : Bytes) (bad : List (Nat × Nat)) (data : Bool) : (State.frameIn s i b bad data).guarded = s.guarded := by
  simp [State.frameIn, guarded_foldl]

@[simp] theorem guarded_takeFlits (s : State) (i : Nat) (p : Packet) : (State.takeFlits s i p).guarded = s.guarded := by
  simp [State.takeFlits, guarded_foldl]

@[simp] theorem guarded_ingress (s : State) (l i : Nat) (p : Packet) : (State.ingress s l i p).guarded = s.guarded := by
  unfold State.ingress
  try dsimp only
  (repeat' (first | (refine (guarded_foldl _ (fun s a => ?_) _ _).trans ?_) | split)) <;> simp [*]

@[simp] theorem guarded_linkCheckFail (s : State) (l : Nat) (p : Packet) : (State.linkCheckFail s l p).guarded = s.guarded := by
  simp [State.linkCheckFail, guarded_foldl]

@[simp] theorem guarded_egress (s : State) (l : Nat) (p : Packet) (delayed : Bool) : ∀ t, State.egress s l p delayed = some t → t.guarded = s.guarded := by
  unfold State.egress
  try dsimp only
  (repeat' (first | (refine (guarded_foldl _ (fun s a => ?_) _ _).trans ?_) | split)) <;> simp [*]

@[simp] theorem guarded_scanSpad (s : State) (c : CoreAt) : (State.scanSpad s c).guarded = s.guarded := by
  simp [State.scanSpad, guarded_foldl]

@[simp] theorem guarded_drainCluster (s : State) (k : ClusterAt) : (State.drainCluster s k).2.guarded = s.guarded := by
  unfold State.drainCluster
  (repeat' split) <;> simp [guarded_foldl]

@[simp] theorem guarded_drainList (s : State) (ks : List ClusterAt) : (s.drainList ks).2.guarded = s.guarded := by
  induction ks generalizing s with
  | nil => rfl
  | cons k r ih =>
    unfold State.drainList
    simp [ih]

@[simp] theorem guarded_drainJob (s : State) (area : Bool) : (State.drainJob s area).guarded = s.guarded := by
  simp [State.drainJob, guarded_foldl]

@[simp] theorem guarded_promote (s : State) (area : Bool) (step : BitVec 48) : (State.promote s area step).guarded = s.guarded := by
  simp [State.promote, guarded_foldl]

@[simp] theorem guarded_seeDigests (s : State) (step : BitVec 48) (ok : Bool) : (State.seeDigests s step ok).guarded = s.guarded := by
  unfold State.seeDigests
  try dsimp only
  (repeat' (first | (refine (guarded_foldl _ (fun s a => ?_) _ _).trans ?_) | split)) <;> simp [*]

@[simp] theorem guarded_restoreCluster (s : State) (x : Snapshot) : (State.restoreCluster s x).guarded = s.guarded := by
  unfold State.restoreCluster
  try dsimp only
  (repeat' (first | (refine (guarded_foldl _ (fun s a => ?_) _ _).trans ?_) | split)) <;> simp [*]

@[simp] theorem guarded_fabricBad (s : State) (c : CoreAt) (j : FabricJob) : (State.fabricBad s c j).guarded = s.guarded := by
  unfold State.fabricBad
  (repeat' split) <;> simp [guarded_foldl]

@[simp] theorem guarded_sendReply (s : State) (c : CoreAt) (a : BitVec 256) (got : Bytes) (txn : Option Nat) : (State.sendReply s c a got txn).guarded = s.guarded := by
  simp [State.sendReply, guarded_foldl]

@[simp] theorem guarded_fabricEnd (s : State) (c : CoreAt) (j : FabricJob) : (State.fabricEnd s c j).guarded = s.guarded := by
  unfold State.fabricEnd
  (repeat' split) <;> simp [guarded_foldl]

@[simp] theorem guarded_fabricDone (s : State) (c : CoreAt) (j : FabricJob) : (State.fabricDone s c j).guarded = s.guarded := by
  unfold State.fabricDone
  (repeat' split) <;> simp [guarded_foldl]

@[simp] theorem guarded_fabricStep (s : State) (c : CoreAt) (q : Nat) (j : FabricJob) : (State.fabricStep s c q j).guarded = s.guarded := by
  unfold State.fabricStep
  (repeat' split) <;> simp [guarded_foldl]

@[simp] theorem guarded_codeReady (s : State) (c : CoreAt) (j : FabricJob) : (State.codeReady s c j).guarded = s.guarded := by
  simp [State.codeReady, guarded_foldl]

@[simp] theorem guarded_fabricCycle (s : State) (c : CoreAt) : (State.fabricCycle s c).guarded = s.guarded := by
  unfold State.fabricCycle
  try dsimp only
  (repeat' (first | (refine (guarded_foldl _ (fun s a => ?_) _ _).trans ?_) | split)) <;> simp [*]

@[simp] theorem guarded_teUnit (s : State) (c : CoreAt) (op : Nat) (act : Core → Word → Nat → Core) : (State.teUnit s c op act).guarded = s.guarded := by
  simp [State.teUnit, guarded_foldl]

@[simp] theorem guarded_veUnit (s : State) (c : CoreAt) (op : Nat) (act : State → Core → Word → Nat → Core) : (State.veUnit s c op act).guarded = s.guarded := by
  simp [State.veUnit, guarded_foldl]

@[simp] theorem guarded_pselUnit (s : State) (c : CoreAt) (mode : Nat) (act : State → Core → Word → Nat → Core) : (State.pselUnit s c mode act).guarded = s.guarded := by
  simp [State.pselUnit, guarded_foldl]

@[simp] theorem guarded_dryCycle (s : State) (c : CoreAt) (t : Nat) : (State.dryCycle s c t).guarded = s.guarded := by
  simp [State.dryCycle, guarded_foldl]

@[simp] theorem guarded_runDry (s : State) (c : CoreAt) (t : Nat) : (State.runDry s c t).guarded = s.guarded := by
  simp [State.runDry, guarded_foldl]

@[simp] theorem guarded_fabricDry (fuel : Nat) (s : State) (c : CoreAt) : (s.fabricDry fuel c).guarded = s.guarded := by
  induction fuel generalizing s with
  | zero => rfl
  | succ n ih => unfold State.fabricDry; split <;> simp [ih]

@[simp] theorem guarded_ceOf (s : State) (c : CoreAt) (w : Word) : (State.ceOf s c w).guarded = s.guarded := by
  unfold State.ceOf
  (repeat' split) <;> simp [guarded_foldl]

@[simp] theorem guarded_hopOf (s : State) (c : CoreAt) (w : Word) (t : Nat) (o : Fin 16) : (State.hopOf s c w t o).guarded = s.guarded := by
  unfold State.hopOf
  (repeat' split) <;> simp [guarded_foldl]

@[simp] theorem guarded_tileIssue (s : State) (c : CoreAt) (kind : Fin 4) (w : Word) : (State.tileIssue s c kind w).guarded = s.guarded := by
  unfold State.tileIssue
  (repeat' split) <;> simp [guarded_foldl]

@[simp] theorem guarded_noteTile (s : State) (a : BitVec 22) (v : BitVec 1280) : (State.noteTile s a v).guarded = s.guarded := by
  simp [State.noteTile, guarded_foldl]

@[simp] theorem guarded_tileInject (s : State) (c : CoreAt) (port : Fin 5) (p : Packet) : (State.tileInject s c port p).guarded = s.guarded := by
  simp [State.tileInject, guarded_foldl]

@[simp] theorem guarded_tileCapture (s : State) (a : BitVec 22) (c : CoreAt) (port : Fin 5) : (State.tileCapture s a c port).guarded = s.guarded := by
  unfold State.tileCapture
  (repeat' split) <;> simp [guarded_foldl]

@[simp] theorem guarded_tileDo (s : State) (a : BitVec 22) (o : TileOp) : (State.tileDo s a o).guarded = s.guarded := by
  unfold State.tileDo
  (repeat' split) <;> simp [guarded_foldl]

@[simp] theorem guarded_tileRun (s : State) (l : List (BitVec 22 × TileOp)) : (State.tileRun s l).guarded = s.guarded := by
  simp [State.tileRun, guarded_foldl]

@[simp] theorem guarded_noteDiag (s : State) (f : TileFail) : (State.noteDiag s f).guarded = s.guarded := by
  simp [State.noteDiag, guarded_foldl]

@[simp] theorem guarded_setTrim (s : State) (k : ClusterAt) : (State.setTrim s k).guarded = s.guarded := by
  unfold State.setTrim
  (repeat' split) <;> simp [guarded_foldl]

@[simp] theorem guarded_setVoltages (s : State) : (State.setVoltages s).guarded = s.guarded := by
  simp [State.setVoltages, guarded_foldl]

@[simp] theorem guarded_setEntry (s : State) (k : ClusterAt) (role : Nat) (cl : BitVec 9) : (State.setEntry s k role cl).guarded = s.guarded := by
  simp [State.setEntry, guarded_foldl]

@[simp] theorem guarded_writeRepair (s : State) : (State.writeRepair s).guarded = s.guarded := by
  unfold State.writeRepair
  (repeat' (first | (refine (guarded_foldl _ (fun s a => ?_) _ _).trans ?_) | split)) <;> (try simp [*]) <;> (repeat' split) <;> simp [*]

@[simp] theorem guarded_spareCheck (s : State) (die : Fin 24) : (State.spareCheck s die).guarded = s.guarded := by
  simp [State.spareCheck, guarded_foldl]

@[simp] theorem guarded_remapRequired (s : State) (cause unit : Nat) (cl : BitVec 9) : (State.remapRequired s cause unit cl).guarded = s.guarded := by
  simp [State.remapRequired, guarded_foldl]

@[simp] theorem guarded_retiredEvent (s : State) (k : ClusterAt) (cl : BitVec 9) (new : Option (Fin 288)) : (State.retiredEvent s k cl new).guarded = s.guarded := by
  simp [State.retiredEvent, guarded_foldl]

@[simp] theorem guarded_clearCluster (s : State) (k : ClusterAt) : (State.clearCluster s k).guarded = s.guarded := by
  simp [State.clearCluster, guarded_foldl]

@[simp] theorem guarded_sendOffline (s : State) (l : Nat) (reason : Nat) : (State.sendOffline s l reason).guarded = s.guarded := by
  simp [State.sendOffline, guarded_foldl]

@[simp] theorem guarded_setQuiesce (s : State) (p : Part) (q : Bool) : (State.setQuiesce s p q).guarded = s.guarded := by
  unfold State.setQuiesce
  (repeat' split) <;> simp [guarded_foldl]

@[simp] theorem guarded_quiesceEvent (s : State) (p : Part) (returned : Bool) : (State.quiesceEvent s p returned).guarded = s.guarded := by
  simp [State.quiesceEvent, guarded_foldl]

@[simp] theorem guarded_finishWrite (s : State) (c : CoreAt) (j : FabricJob) : (State.finishWrite s c j).guarded = s.guarded := by
  simp [State.finishWrite, guarded_foldl]

@[simp] theorem guarded_refuseJob (s : State) (c : CoreAt) (j : FabricJob) : (State.refuseJob s c j).guarded = s.guarded := by
  unfold State.refuseJob
  (repeat' split) <;> simp [guarded_foldl]

@[simp] theorem guarded_flushCore (s : State) (c : CoreAt) : (State.flushCore s c).guarded = s.guarded := by
  simp [State.flushCore, guarded_foldl]

@[simp] theorem guarded_flushPart (s : State) (p : Part) : (State.flushPart s p).guarded = s.guarded := by
  simp [State.flushPart, guarded_foldl]

@[simp] theorem guarded_fence (s : State) (q : Part) : (State.fence s q).guarded = s.guarded := by
  simp [State.fence, guarded_foldl]

@[simp] theorem guarded_enterQuiesce (s : State) (p : Part) : (State.enterQuiesce s p).guarded = s.guarded := by
  simp [State.enterQuiesce, guarded_foldl]

@[simp] theorem guarded_coolantEvent (s : State) (kind : Nat) : (State.coolantEvent s kind).guarded = s.guarded := by
  simp [State.coolantEvent, guarded_foldl]

@[simp] theorem guarded_eclipseOver (s : State) (d : Fin 48) : (State.eclipseOver s d).guarded = s.guarded := by
  simp [State.eclipseOver, guarded_foldl]

@[simp] theorem guarded_leaveQuiesce (s : State) (p : Part) : (State.leaveQuiesce s p).guarded = s.guarded := by
  unfold State.leaveQuiesce
  (repeat' split) <;> simp [guarded_foldl]

@[simp] theorem guarded_returnPart (s : State) (q : Part) : (State.returnPart s q).guarded = s.guarded := by
  simp [State.returnPart, guarded_foldl]

@[simp] theorem guarded_evict (s : State) (q : Part) : (State.evict s q).guarded = s.guarded := by
  unfold State.evict
  try dsimp only
  (repeat' (first | (refine (guarded_foldl _ (fun s a => ?_) _ _).trans ?_) | split)) <;> simp [*]

@[simp] theorem guarded_seal (s : State) (q : Part) : (State.seal s q).guarded = s.guarded := by
  unfold State.seal
  (repeat' split) <;> simp [guarded_foldl]

@[simp] theorem guarded_cutOff (s : State) (k : ClusterAt) : (State.cutOff s k).guarded = s.guarded := by
  simp [State.cutOff, guarded_foldl]

@[simp] theorem guarded_markDefective (s : State) (k : ClusterAt) : (s.markDefective k).guarded = s.guarded := by
  unfold State.markDefective
  exact guarded_setEntry s k rDefective 0

@[simp] theorem guarded_strandOne (s : State) (k : ClusterAt) : (State.strandOne s k).guarded = s.guarded := by
  unfold State.strandOne
  (repeat' split) <;> simp [guarded_foldl]

@[simp] theorem guarded_strand (s : State) (die : Fin 24) : (State.strand s die).guarded = s.guarded := by
  simp [State.strand, guarded_foldl]

@[simp] theorem guarded_retire (s : State) (k : ClusterAt) : (State.retire s k).guarded = s.guarded := by
  unfold State.retire
  try dsimp only
  (repeat' (first | (refine (guarded_foldl _ (fun s a => ?_) _ _).trans ?_) | split)) <;> simp [*]

@[simp] theorem guarded_reloadCluster (s : State) (die : Fin 24) (cl : BitVec 9) : (State.reloadCluster s die cl).guarded = s.guarded := by
  unfold State.reloadCluster
  try dsimp only
  (repeat' (first | (refine (guarded_foldl _ (fun s a => ?_) _ _).trans ?_) | split)) <;> simp [*]

@[simp] theorem guarded_moveCluster (s : State) (k sp : ClusterAt) (cl : BitVec 9) (keep : Bool) (rec : Option Snapshot) : (State.moveCluster s k sp cl keep rec).guarded = s.guarded := by
  unfold State.moveCluster
  (repeat' split) <;> simp [guarded_foldl]

@[simp] theorem guarded_startTest (s : State) (stress : Bool) (k : ClusterAt) : (State.startTest s stress k).guarded = s.guarded := by
  simp [State.startTest, guarded_foldl]

@[simp] theorem guarded_afterCheckpoint (s : State) : (State.afterCheckpoint s).guarded = s.guarded := by
  unfold State.afterCheckpoint
  (repeat' split) <;> simp [guarded_foldl]

@[simp] theorem guarded_tryWindow (s : State) : (State.tryWindow s).guarded = s.guarded := by
  unfold State.tryWindow
  (repeat' split) <;> simp [guarded_foldl]

@[simp] theorem guarded_rotate (s : State) (a : Bool) (k sp : ClusterAt) : (State.rotate s a k sp).guarded = s.guarded := by
  unfold State.rotate
  (repeat' split) <;> simp [guarded_foldl]

@[simp] theorem guarded_recover (s : State) (k sp : ClusterAt) (cl : BitVec 9) : (State.recover s k sp cl).guarded = s.guarded := by
  simp [State.recover, guarded_foldl]

@[simp] theorem guarded_testEvent (s : State) (k : ClusterAt) (v : Verdict) : (State.testEvent s k v).guarded = s.guarded := by
  simp [State.testEvent, guarded_foldl]

@[simp] theorem guarded_noteVerdict (s : State) (stress : Bool) (k : ClusterAt) (v : Verdict) : (State.noteVerdict s stress k v).guarded = s.guarded := by
  unfold State.noteVerdict
  (repeat' split) <;> simp [guarded_foldl]

@[simp] theorem guarded_endTest (s : State) (k : ClusterAt) (v : Verdict) : (State.endTest s k v).guarded = s.guarded := by
  unfold State.endTest
  try dsimp only
  (repeat' (first | (refine (guarded_foldl _ (fun s a => ?_) _ _).trans ?_) | split)) <;> simp [*]

@[simp] theorem guarded_suspectDone (s : State) (k : ClusterAt) (failed : Bool) : (State.suspectDone s k failed).guarded = s.guarded := by
  unfold State.suspectDone
  (repeat' split) <;> simp [guarded_foldl]

@[simp] theorem guarded_inPlaceDone (s : State) (k : ClusterAt) (failed : Bool) : (State.inPlaceDone s k failed).guarded = s.guarded := by
  unfold State.inPlaceDone
  try dsimp only
  (repeat' (first | (refine (guarded_foldl _ (fun s a => ?_) _ _).trans ?_) | split)) <;> simp [*]

@[simp] theorem guarded_testOver (s : State) (k : ClusterAt) (v : Verdict) : (State.testOver s k v).guarded = s.guarded := by
  simp [State.testOver, guarded_foldl]

@[simp] theorem guarded_testEnds (s : State) (k : ClusterAt) (v : Verdict) : (State.testEnds s k v).guarded = s.guarded := by
  simp [State.testEnds, guarded_foldl]

@[simp] theorem guarded_clustersReturn (s : State) (ks : List ClusterAt) (fails : List TileFail) : (s.clustersReturn ks fails).guarded = s.guarded := by
  unfold State.clustersReturn
  refine guarded_foldl _ (fun s k => ?_) _ _
  dsimp only
  split <;> simp

@[simp] theorem guarded_resolve (s : State) (x : Incident) : (State.resolve s x).guarded = s.guarded := by
  unfold State.resolve
  (repeat' split) <;> simp [guarded_foldl]

@[simp] theorem guarded_incident (s : State) (x : Incident) (sure : Bool) : (State.incident s x sure).guarded = s.guarded := by
  simp [State.incident, guarded_foldl]

@[simp] theorem guarded_reportIncident (s : State) (r : Report) : (State.reportIncident s r).guarded = s.guarded := by
  simp [State.reportIncident, guarded_foldl]

@[simp] theorem guarded_digestMismatch (s : State) (step : BitVec 48) (shard : Nat) (minority : Option Nat) (replicas : List Nat) : (State.digestMismatch s step shard minority replicas).guarded = s.guarded := by
  simp [State.digestMismatch, guarded_foldl]

@[simp] theorem guarded_compareDigests (s : State) (step : BitVec 48) : (State.compareDigests s step).guarded = s.guarded := by
  simp [State.compareDigests, guarded_foldl]

@[simp] theorem guarded_testInPlace (s : State) : (State.testInPlace s).guarded = s.guarded := by
  simp [State.testInPlace, guarded_foldl]

@[simp] theorem guarded_firmwareBad (s : State) (k : ClusterAt) : (State.firmwareBad s k).guarded = s.guarded := by
  simp [State.firmwareBad, guarded_foldl]

@[simp] theorem guarded_writeTelemetry (s : State) (page : Nat) (e : BitVec 512) : (State.writeTelemetry s page e).guarded = s.guarded := by
  simp [State.writeTelemetry, guarded_foldl]

@[simp] theorem guarded_forward (s : State) (e : BitVec 512) : (State.forward s e).guarded = s.guarded := by
  simp [State.forward, guarded_foldl]

@[simp] theorem guarded_sendSamples (s : State) (l : List (BitVec 512)) : (s.sendSamples l).guarded = s.guarded := by
  induction l generalizing s with
  | nil => rfl
  | cons e r ih =>
    unfold State.sendSamples
    split
    · rfl
    · rw [ih]; simp

@[simp] theorem guarded_toRings (s : State) (e : BitVec 512) : (State.toRings s e).guarded = s.guarded := by
  simp [State.toRings, guarded_foldl]

@[simp] theorem guarded_throttleCheck (s : State) (d : Fin 61) : (State.throttleCheck s d).guarded = s.guarded := by
  simp [State.throttleCheck, guarded_foldl]

@[simp] theorem guarded_readCoolant (s : State) (inlet flow : Nat) : (State.readCoolant s inlet flow).guarded = s.guarded := by
  simp [State.readCoolant, guarded_foldl]

@[simp] theorem guarded_sendSample (s : State) (k : ClusterAt) (e : BitVec 512) : (State.sendSample s k e).guarded = s.guarded := by
  simp [State.sendSample, guarded_foldl]

@[simp] theorem guarded_compSample (s : State) (exit comp : Nat) (e : BitVec 512) : (State.compSample s exit comp e).guarded = s.guarded := by
  simp [State.compSample, guarded_foldl]

@[simp] theorem guarded_sampleCluster (s : State) (k : ClusterAt) (iCore iUngated t0 t1 : BitVec 12) (vmin : BitVec 10) (stretched : BitVec 16) (fMean : BitVec 10) : (State.sampleCluster s k iCore iUngated t0 t1 vmin stretched fMean).guarded = s.guarded := by
  simp [State.sampleCluster, guarded_foldl]

@[simp] theorem guarded_stopFor (s : State) (reason : Nat) : (State.stopFor s reason).guarded = s.guarded := by
  simp [State.stopFor, guarded_foldl]

@[simp] theorem guarded_eclipse (s : State) (d : Fin 48) (cause : Nat) (unmap : Bool) : (State.eclipse s d cause unmap).guarded = s.guarded := by
  simp [State.eclipse, guarded_foldl]

@[simp] theorem guarded_switchOff (s : State) (e : Fin 48 × Nat × Bool) : (s.switchOff e).guarded = s.guarded := by
  have h : ∀ (l : List ClusterAt) (t : State), (l.foldl (fun s k =>
      (if e.2.2 then (match s.logical k with
        | some cl => s.setEntry k rUnmapped cl
        | none => s) else s).clearCluster k) t).guarded = t.guarded := by
    intro l t
    rw [guarded_foldl]
    intro u a
    rw [guarded_clearCluster]
    repeat' split
    all_goals simp
  unfold State.switchOff
  simp
  exact (h _ _).trans (by simp)

@[simp] theorem guarded_coolantStop (s : State) : (State.coolantStop s).guarded = s.guarded := by
  simp [State.coolantStop, guarded_foldl]

@[simp] theorem guarded_detoured (s : State) : (State.detoured s).guarded = s.guarded := by
  simp [State.detoured, guarded_foldl]

@[simp] theorem guarded_dropDetours (s : State) : (State.dropDetours s).guarded = s.guarded := by
  simp [State.dropDetours, guarded_foldl]

@[simp] theorem guarded_offlineAll (s : State) : (State.offlineAll s).guarded = s.guarded := by
  simp [State.offlineAll, guarded_foldl]

@[simp] theorem guarded_recordLoss (s : State) (cause : Nat) : (State.recordLoss s cause).guarded = s.guarded := by
  unfold State.recordLoss
  (repeat' split) <;> simp [guarded_foldl]

@[simp] theorem guarded_stopDrain (s : State) : (State.stopDrain s).guarded = s.guarded := by
  simp [State.stopDrain, guarded_foldl]

@[simp] theorem guarded_sagEvent (s : State) (ended : Bool) : (State.sagEvent s ended).guarded = s.guarded := by
  simp [State.sagEvent, guarded_foldl]

@[simp] theorem guarded_stopAndDrain (s : State) : (State.stopAndDrain s).guarded = s.guarded := by
  simp [State.stopAndDrain, guarded_foldl]

@[simp] theorem guarded_loseHalf (s : State) (d : Fin 48) : (s.loseHalf d).guarded = s.guarded := by
  have h : ∀ (l : List ClusterAt) (t : State), (l.foldl (fun s k => State.clearCluster (match s.logical k with
      | some cl => s.setEntry k rUnmapped cl
      | none => s) k) t).guarded = t.guarded := by
    intro l t
    rw [guarded_foldl]
    intro u a
    rw [guarded_clearCluster]
    repeat' split
    all_goals simp
  unfold State.loseHalf
  dsimp only
  split
  · rw [guarded_stopAndDrain, guarded_remapRequired, guarded_strand, guarded_fence]; exact (h _ _).trans (by simp)
  · rw [guarded_remapRequired, guarded_strand, guarded_fence]; exact (h _ _).trans (by simp)

@[simp] theorem guarded_loseLink (s : State) (l : Nat) : (State.loseLink s l).guarded = s.guarded := by
  simp [State.loseLink, guarded_foldl]

@[simp] theorem guarded_loseHost (s : State) : (State.loseHost s).guarded = s.guarded := by
  simp [State.loseHost, guarded_foldl]

@[simp] theorem guarded_loseGenhan (s : State) : (State.loseGenhan s).guarded = s.guarded := by
  simp [State.loseGenhan, guarded_foldl]

@[simp] theorem guarded_phaseDone (s : State) (k : Nat) (findings : Bool) : (State.phaseDone s k findings).guarded = s.guarded := by
  simp [State.phaseDone, guarded_foldl]

@[simp] theorem guarded_bootHalt (s : State) (k : Nat) (h : Halted) : (State.bootHalt s k h).guarded = s.guarded := by
  simp [State.bootHalt, guarded_foldl]

@[simp] theorem guarded_bootRelease (s : State) : (State.bootRelease s).guarded = s.guarded := by
  simp [State.bootRelease, guarded_foldl]

@[simp] theorem guarded_bootSlots (s : State) : (State.bootSlots s).guarded = s.guarded := by
  unfold State.bootSlots
  try dsimp only
  (repeat' (first | (refine (guarded_foldl _ (fun s a => ?_) _ _).trans ?_) | split)) <;> simp [*]

@[simp] theorem guarded_hullCoolant (s : State) (inlet flow : Nat) : (State.hullCoolant s inlet flow).guarded = s.guarded := by
  simp [State.hullCoolant, guarded_foldl]

@[simp] theorem guarded_excludeChannel (s : State) (c : BitVec 10 × BitVec 10 × Fin 4) : (State.excludeChannel s c).guarded = s.guarded := by
  simp [State.excludeChannel, guarded_foldl]

@[simp] theorem guarded_loadMap (s : State) : (State.loadMap s).1.guarded = s.guarded := by
  unfold State.loadMap
  (repeat' split) <;> simp [guarded_foldl]

@[simp] theorem guarded_mapAgain (s : State) : (State.mapAgain s).guarded = s.guarded := by
  simp [State.mapAgain, guarded_foldl]

@[simp] theorem guarded_unmapOff (s : State) : (State.unmapOff s).guarded = s.guarded := by
  unfold State.unmapOff
  try dsimp only
  (repeat' (first | (refine (guarded_foldl _ (fun s a => ?_) _ _).trans ?_) | split)) <;> simp [*]

@[simp] theorem guarded_unmappable (s : State) (die : Fin 24) : (State.unmappable s die).guarded = s.guarded := by
  simp [State.unmappable, guarded_foldl]

@[simp] theorem guarded_rehome (s : State) (others : List ClusterAt) (k : ClusterAt) (cl : BitVec 9) : (State.rehome s others k cl).guarded = s.guarded := by
  unfold State.rehome
  (repeat' split) <;> simp [guarded_foldl]

@[simp] theorem guarded_failInBoot (s : State) (others : List ClusterAt) (k : ClusterAt) : (State.failInBoot s others k).guarded = s.guarded := by
  unfold State.failInBoot
  (repeat' split) <;> simp [guarded_foldl]

@[simp] theorem guarded_placeUnmapped (s : State) (others : List ClusterAt) : (State.placeUnmapped s others).guarded = s.guarded := by
  simp [State.placeUnmapped, guarded_foldl]

@[simp] theorem guarded_checkVf (s : State) : (State.checkVf s).guarded = s.guarded := by
  unfold State.checkVf
  dsimp only
  split <;> simp [guarded_foldl]

@[simp] theorem guarded_setCascadeFields (s : State) (c : Bytes) (st : TimeState) : (State.setCascadeFields s c st).guarded = s.guarded := by
  simp [State.setCascadeFields, guarded_foldl]

@[simp] theorem guarded_portChanged (s : State) (old : SMap (BitVec 32)) (i : Nat) : (State.portChanged s old i).guarded = s.guarded := by
  simp [State.portChanged, guarded_foldl]

@[simp] theorem guarded_applyCascade (s : State) (c : Bytes) : (State.applyCascade s c).guarded = s.guarded := by
  simp [State.applyCascade, guarded_foldl]

@[simp] theorem guarded_beforeLinks (s : State) : (State.beforeLinks s).guarded = s.guarded := by
  unfold State.beforeLinks
  (repeat' split) <;> simp [guarded_foldl]

@[simp] theorem guarded_owedReports (s : State) : (State.owedReports s).guarded = s.guarded := by
  unfold State.owedReports
  (repeat' split) <;> simp [guarded_foldl]

@[simp] theorem guarded_newNonce (s : State) : (State.newNonce s).guarded = s.guarded := by
  simp [State.newNonce, guarded_foldl]

@[simp] theorem guarded_stopRing (s : State) (p : Nat) (cause : Nat) : (State.stopRing s p cause).guarded = s.guarded := by
  simp [State.stopRing, guarded_foldl]

@[simp] theorem guarded_writeCompletion (s : State) (p : Nat) (e : BitVec 128) (irq : Bool) : (State.writeCompletion s p e irq).guarded = s.guarded := by
  simp [State.writeCompletion, guarded_foldl]

@[simp] theorem guarded_flushHeld (fuel : Nat) (s : State) (p : Nat) : (s.flushHeld fuel p).guarded = s.guarded := by
  induction fuel generalizing s with
  | zero => rfl
  | succ n ih =>
    unfold State.flushHeld
    repeat' split
    all_goals simp_all

@[simp] theorem guarded_flushRing (s : State) (p : Nat) : (State.flushRing s p).guarded = s.guarded := by
  simp [State.flushRing, guarded_foldl]

@[simp] theorem guarded_writeSqControl (s : State) (p : Nat) (v : BitVec 32) : (State.writeSqControl s p v).guarded = s.guarded := by
  simp [State.writeSqControl, guarded_foldl]

@[simp] theorem guarded_writeCqControl (s : State) (p : Nat) (v : BitVec 32) : (State.writeCqControl s p v).guarded = s.guarded := by
  simp [State.writeCqControl, guarded_foldl]

@[simp] theorem guarded_dropReplies (s : State) : (State.dropReplies s).guarded = s.guarded := by
  simp [State.dropReplies, guarded_foldl]

@[simp] theorem guarded_decideOne (s : State) (p : Nat) (d : Desc) (status : Nat) (result : BitVec 32) (aborted late : Bool) : (State.decideOne s p d status result aborted late).guarded = s.guarded := by
  simp [State.decideOne, guarded_foldl]

@[simp] theorem guarded_conclude (s : State) (p : Nat) (d : Desc) (status : Nat) (result : BitVec 32) (aborted : Bool) (late : Bool) : (State.conclude s p d status result aborted late).guarded = s.guarded := by
  unfold State.conclude
  try dsimp only
  (repeat' (first | (refine (guarded_foldl _ (fun s a => ?_) _ _).trans ?_) | split)) <;> simp [*]

@[simp] theorem guarded_begin (s : State) (r : Fin 64) (tag : BitVec 16) (op : Nat) (go : State → Desc → State)
    (h : ∀ (t : State) d, (go t d).guarded = t.guarded) : (s.begin r tag op go).guarded = s.guarded := by
  unfold State.begin
  (repeat' split) <;> simp [h]

@[simp] theorem guarded_flushPending (s : State) : (State.flushPending s).guarded = s.guarded := by
  simp [State.flushPending, guarded_foldl]

@[simp] theorem guarded_flushEvents (s : State) : (State.flushEvents s).guarded = s.guarded := by
  simp [State.flushEvents, guarded_foldl]

@[simp] theorem guarded_clearCounters (s : State) : (State.clearCounters s).guarded = s.guarded := by
  simp [State.clearCounters, guarded_foldl]

@[simp] theorem guarded_discardJob (s : State) (status reason : Nat) : (State.discardJob s status reason).guarded = s.guarded := by
  simp [State.discardJob, guarded_foldl]

@[simp] theorem guarded_readContainers (s : State) (o n : Nat) : (s.readContainers o n).1.guarded = s.guarded := by
  induction n generalizing s o with
  | zero => rfl
  | succ k ih =>
    unfold State.readContainers
    dsimp only
    repeat' split
    all_goals simp_all

@[simp] theorem guarded_jobFrom (s : State) (off len : Nat) (img : Bytes) : (State.jobFrom s off len img).2.guarded = s.guarded := by
  simp [State.jobFrom, guarded_foldl]

@[simp] theorem guarded_writeImage (s : State) (off len : Nat) (img : Bytes) : (State.writeImage s off len img).guarded = s.guarded := by
  simp [State.writeImage, guarded_foldl]

@[simp] theorem guarded_loadImage (s : State) (p : Nat) (d : Desc) : (State.loadImage s p d).guarded = s.guarded := by
  simp [State.loadImage]; (repeat' (first | (refine (guarded_foldl _ (fun s a => ?_) _ _).trans ?_) | split | simp))

@[simp] theorem guarded_dma (s : State) (r : Fin 64) (tag : BitVec 16) (op : Nat) (go : State → Desc → State)
    (h : ∀ (t : State) d, (go t d).guarded = t.guarded) : (s.dma r tag op go).guarded = s.guarded := by
  unfold State.dma
  extract_lets try_
  have hr : ∀ (t : State) (d : Desc) (stop : State → Nat → State), (∀ v n, (stop v n).guarded = v.guarded) → (try_ t d stop).guarded = t.guarded := by
    intro t d stop hs
    simp only [try_]
    repeat' split
    all_goals simp [h, hs]
  split
  · apply hr
    intro v n
    exact guarded_dmaEnds _ _ _ _
  · refine guarded_begin _ _ _ _ _ fun t d => ?_
    apply hr
    intro v n
    simp

@[simp] theorem guarded_dmaIn (s : State) (p : Nat) (d : Desc) (run : Bytes) : (s.dmaIn p d run).guarded = s.guarded := by
  unfold State.dmaIn
  dsimp only
  repeat' split
  all_goals simp

@[simp] theorem guarded_hostRequest (s : State) (d : Desc) (atomic : Bool) : (State.hostRequest s d atomic).guarded = s.guarded := by
  unfold State.hostRequest
  (repeat' split) <;> simp [guarded_foldl]

@[simp] theorem guarded_pollWait (s : State) (p : Nat) (d : Desc) : (State.pollWait s p d).guarded = s.guarded := by
  unfold State.pollWait
  (repeat' split) <;> simp [guarded_foldl]

@[simp] theorem guarded_drainOn (s : State) (p : Nat) (d : Desc) : (State.drainOn s p d).guarded = s.guarded := by
  simp [State.drainOn, guarded_foldl]

@[simp] theorem guarded_drainStart (s : State) (p : Nat) (d : Desc) : (State.drainStart s p d).guarded = s.guarded := by
  simp [State.drainStart, guarded_foldl]

@[simp] theorem guarded_restoreAll (s : State) (a : Nat) (l : List Snapshot) (n : Nat) : (s.restoreAll a l n).1.guarded = s.guarded := by
  induction l generalizing s n with
  | nil => rfl
  | cons x r ih =>
    unfold State.restoreAll
    dsimp only
    repeat' split
    all_goals simp_all

@[simp] theorem guarded_restoreStart (s : State) (p : Nat) (d : Desc) : (s.restoreStart p d).guarded = s.guarded := by
  unfold State.restoreStart
  dsimp only
  repeat' (first | simp | split)

@[simp] theorem guarded_digestOut (s : State) (p : Nat) (d : Desc) : (State.digestOut s p d).guarded = s.guarded := by
  simp [State.digestOut, guarded_foldl]

@[simp] theorem guarded_testTurn (s : State) (d : Desc) : (s.testTurn d).1.guarded = s.guarded := by
  unfold State.testTurn
  refine guarded_foldl_pair _ (fun p v => ?_) _ _
  repeat' split
  all_goals simp

@[simp] theorem guarded_testOn (s : State) (p : Nat) (d : Desc) : (State.testOn s p d).guarded = s.guarded := by
  simp [State.testOn, guarded_foldl]

@[simp] theorem guarded_testStart (s : State) (p : Nat) (d : Desc) (runs : TestRuns) : (State.testStart s p d runs).guarded = s.guarded := by
  unfold State.testStart
  (repeat' split) <;> simp [guarded_foldl]

@[simp] theorem guarded_testBatch (s : State) (p : Nat) (d : Desc) : (State.testBatch s p d).guarded = s.guarded := by
  simp [State.testBatch, guarded_foldl]

@[simp] theorem guarded_atDecision (s : State) (d : Desc) (status : Nat) : (State.atDecision s d status).guarded = s.guarded := by
  unfold State.atDecision
  (repeat' split) <;> simp [guarded_foldl]

@[simp] theorem guarded_tryDecide (s : State) (p : Nat) (d : Desc) : (State.tryDecide s p d).guarded = s.guarded := by
  unfold State.tryDecide
  (repeat' split) <;> simp [guarded_foldl]

@[simp] theorem guarded_dropTest (s : State) (k : ClusterAt) : (State.dropTest s k).guarded = s.guarded := by
  simp [State.dropTest, guarded_foldl]

@[simp] theorem guarded_abortEffect (s : State) (d : Desc) : (State.abortEffect s d).1.guarded = s.guarded := by
  unfold State.abortEffect
  (repeat' split) <;> simp [guarded_foldl]

@[simp] theorem guarded_abort (s : State) (r : Fin 64) (d : Desc) : (State.abort s r d).guarded = s.guarded := by
  unfold State.abort
  try dsimp only
  (repeat' (first | (refine (guarded_foldl _ (fun s a => ?_) _ _).trans ?_) | split)) <;> simp [*]

@[simp] theorem guarded_modHost (s : State) (f : HostIf → HostIf) :
    (s.modHost f).guarded = ((f s.host).limits, s.genhan.log, s.deep, s.nv.minSv, s.pending) := rfl

@[simp] theorem guarded_writeRingBase (s : State) (p o : Nat) (v : BitVec 64) : (State.writeRingBase s p o v).guarded = s.guarded := by
  unfold State.writeRingBase
  (repeat' split) <;> simp [guarded_foldl]

@[simp] theorem guarded_writeRingWord (s : State) (p o : Nat) (v : BitVec 32) : (State.writeRingWord s p o v).guarded = s.guarded := by
  unfold State.writeRingWord
  (repeat' split) <;> simp [guarded_foldl]

@[simp] theorem guarded_writeSelection (s : State) (t : Nat) (second : Bool) (v : BitVec 64) (lo hi : Bool) : (State.writeSelection s t second v lo hi).guarded = s.guarded := by
  simp [State.writeSelection, guarded_foldl]

@[simp] theorem guarded_writeMsix (s : State) (v i : Nat) (x : BitVec 32) : (State.writeMsix s v i x).guarded = s.guarded := by
  simp [State.writeMsix, guarded_foldl]

@[simp] theorem guarded_writeWindow (s : State) (pages : Bool) (v : BitVec 64) : (State.writeWindow s pages v).guarded = s.guarded := by
  simp [State.writeWindow, guarded_foldl]

@[simp] theorem guarded_clearEventLost (s : State) (v : BitVec 32) : (State.clearEventLost s v).guarded = s.guarded := by
  simp [State.clearEventLost, guarded_foldl]

@[simp] theorem guarded_modMbox (s : State) (f : Mailbox → Mailbox) : (State.modMbox s f).guarded = s.guarded := by
  simp [State.modMbox, guarded_foldl]

@[simp] theorem guarded_writeArg (s : State) (i : Nat) (v : BitVec 64) : (State.writeArg s i v).guarded = s.guarded := by
  simp [State.writeArg, guarded_foldl]

@[simp] theorem guarded_writeMboxWord (s : State) (o : Nat) (v : BitVec 32) : (State.writeMboxWord s o v).guarded = s.guarded := by
  unfold State.writeMboxWord
  (repeat' split) <;> simp [guarded_foldl]

@[simp] theorem guarded_putPert (s : State) (n : Nat) (x : Slot) : (State.putPert s n x).guarded = s.guarded := by
  simp [State.putPert, guarded_foldl]

@[simp] theorem guarded_cutBuffer (s : State) (t : BitVec 64) (on : Bool) : (State.cutBuffer s t on).guarded = s.guarded := by
  simp [State.cutBuffer, guarded_foldl]

@[simp] theorem guarded_clearSlot (s : State) (n : Nat) : (State.clearSlot s n).guarded = s.guarded := by
  unfold State.clearSlot
  try dsimp only
  (repeat' (first | (refine (guarded_foldl _ (fun s a => ?_) _ _).trans ?_) | split)) <;> simp [*]

@[simp] theorem guarded_writeTarget (s : State) (n : Nat) (v : BitVec 64) (lo hi : Bool) : (State.writeTarget s n v lo hi).guarded = s.guarded := by
  simp [State.writeTarget, guarded_foldl]

@[simp] theorem guarded_writeParam (s : State) (n : Nat) (v : BitVec 32) : (State.writeParam s n v).guarded = s.guarded := by
  simp [State.writeParam, guarded_foldl]

@[simp] theorem guarded_writeSlot (s : State) (o : Nat) (v : BitVec 64) (lo hi : Bool) : (State.writeSlot s o v lo hi).guarded = s.guarded := by
  simp [State.writeSlot, guarded_foldl]

@[simp] theorem guarded_clearSlots (s : State) : (State.clearSlots s).guarded = s.guarded := by
  unfold State.clearSlots
  try dsimp only
  (repeat' (first | (refine (guarded_foldl _ (fun s a => ?_) _ _).trans ?_) | split)) <;> simp [*]

@[simp] theorem guarded_mboxDone (s : State) (result : BitVec 64) : (State.mboxDone s result).guarded = s.guarded := by
  simp [State.mboxDone, guarded_foldl]

@[simp] theorem guarded_mboxFail (s : State) (status : BitVec 8) : (State.mboxFail s status).guarded = s.guarded := by
  simp [State.mboxFail, guarded_foldl]

@[simp] theorem guarded_mboxRun (s : State) (op : BitVec 8) (go : State → State) (h : ∀ t : State, (go t).guarded = t.guarded) :
    (s.mboxRun op go).guarded = s.guarded := by
  unfold State.mboxRun
  simp [h]

@[simp] theorem guarded_putIdleSlot (s : State) (i : ImageSlot) : (State.putIdleSlot s i).guarded = s.guarded := by
  unfold State.putIdleSlot
  (repeat' split) <;> simp [guarded_foldl]

@[simp] theorem guarded_storeImage (s : State) (b : Bytes) (certOk sigOk : Bool) : (State.storeImage s b certOk sigOk).guarded = s.guarded := by
  unfold State.storeImage
  try dsimp only
  (repeat' (first | (refine (guarded_foldl _ (fun s a => ?_) _ _).trans ?_) | split)) <;> simp [*]

@[simp] theorem guarded_loadToken (s : State) (perms : BitVec 8) : (State.loadToken s perms).guarded = s.guarded := by
  simp [State.loadToken, guarded_foldl]

@[simp] theorem guarded_dropToken (s : State) : (State.dropToken s).guarded = s.guarded := by
  simp [State.dropToken, guarded_foldl]

@[simp] theorem guarded_slotWritten (s : State) : (State.slotWritten s).guarded = s.guarded := by
  unfold State.slotWritten
  (repeat' split) <;> simp [guarded_foldl]

@[simp] theorem guarded_onlySlot (s : State) (n : Nat) : (State.onlySlot s n).guarded = s.guarded := by
  simp [State.onlySlot, guarded_foldl]

@[simp] theorem guarded_waited (s : State) (i : Nat) (p : Packet) : (s.waited i p).guarded = s.guarded := by
  have he : (((s.removeAt i p).egress p.comp.toNat p true).getD s).guarded = s.guarded := by
    cases h : (s.removeAt i p).egress p.comp.toNat p true with
    | none => rfl
    | some t => simpa using guarded_egress _ _ _ _ _ h
  unfold State.waited
  repeat' split
  all_goals first | rfl | simp [he]

@[simp] theorem guarded_linkDelay (s : State) (n i : Nat) (due : Bool) : (State.linkDelay s n i due).guarded = s.guarded := by
  unfold State.linkDelay
  try dsimp only
  (repeat' (first | (refine (guarded_foldl _ (fun s a => ?_) _ _).trans ?_) | split)) <;> simp [*]

@[simp] theorem guarded_creditCut (s : State) (n : Nat) : (State.creditCut s n).guarded = s.guarded := by
  unfold State.creditCut
  try dsimp only
  (repeat' (first | (refine (guarded_foldl _ (fun s a => ?_) _ _).trans ?_) | split)) <;> simp [*]

@[simp] theorem guarded_insertError (s : State) (n i : Nat) : (State.insertError s n i).guarded = s.guarded := by
  unfold State.insertError
  (repeat' split) <;> simp [guarded_foldl]

end Sys2Proof.Machine
end

