-- ==== Sys2Proof/Laws/GuardedCommands.lean ====
section
/-! SUPPORT. The commands that leave alone what the invariants read. -/

set_option linter.unusedSimpArgs false

namespace Sys2Proof.Machine


@[simp] theorem guarded_execAgRead (c : CoreAt) (g : Fin 2) (s : State) : ∀ u, execAgRead c g s = .next u → u.guarded = s.guarded := by
  simp [execAgRead, guarded_foldl]

@[simp] theorem guarded_execAgWrite (c : CoreAt) (g : Fin 2) (s : State) : ∀ u, execAgWrite c g s = .next u → u.guarded = s.guarded := by
  simp [execAgWrite, guarded_foldl]

@[simp] theorem guarded_execAgReset (c : CoreAt) (g : Fin 2) (s : State) : ∀ u, execAgReset c g s = .next u → u.guarded = s.guarded := by
  simp [execAgReset, guarded_foldl]

@[simp] theorem guarded_execPtForward (c : CoreAt) (o : Fin 16) (s : State) : ∀ u, execPtForward c o s = .next u → u.guarded = s.guarded := by
  simp [execPtForward, guarded_foldl]

@[simp] theorem guarded_execDeliveryLanding (c : CoreAt) (s : State) : ∀ u, execDeliveryLanding c s = .next u → u.guarded = s.guarded := by
  unfold execDeliveryLanding
  try dsimp only
  (repeat' (first | (refine (guarded_foldl _ (fun s a => ?_) _ _).trans ?_) | split)) <;> simp [*]

@[simp] theorem guarded_execTransposeCheck (c : CoreAt) (s : State) : ∀ u, execTransposeCheck c s = .next u → u.guarded = s.guarded := by
  unfold execTransposeCheck
  (repeat' split) <;> simp [guarded_foldl]

@[simp] theorem guarded_execFabricAccess (c : CoreAt) (s : State) : ∀ u, execFabricAccess c s = .next u → u.guarded = s.guarded := by
  unfold execFabricAccess
  try dsimp only
  (repeat' (first | (refine (guarded_foldl _ (fun s a => ?_) _ _).trans ?_) | split)) <;> simp [*]

@[simp] theorem guarded_execSpadWriteback (c : CoreAt) (s : State) : ∀ u, execSpadWriteback c s = .next u → u.guarded = s.guarded := by
  unfold execSpadWriteback
  try dsimp only
  (repeat' (first | (refine (guarded_foldl _ (fun s a => ?_) _ _).trans ?_) | split)) <;> simp [*]

@[simp] theorem guarded_execCatchJoin (k : ClusterAt) (id : Fin 16) (arg : Option (BitVec 8)) (faulted : Bool) (src : LCore) (s : State) : ∀ u, execCatchJoin k id arg faulted src s = .next u → u.guarded = s.guarded := by
  simp [execCatchJoin, guarded_foldl]

@[simp] theorem guarded_execCatchRelease (k : ClusterAt) (id : Fin 16) (arg : BitVec 8) (faulted : Bool) (s : State) : ∀ u, execCatchRelease k id arg faulted s = .next u → u.guarded = s.guarded := by
  unfold execCatchRelease
  try dsimp only
  (repeat' (first | (refine (guarded_foldl _ (fun s a => ?_) _ _).trans ?_) | split)) <;> simp [*]

@[simp] theorem guarded_execClusterLaunch (k : ClusterAt) (s : State) : ∀ u, execClusterLaunch k s = .next u → u.guarded = s.guarded := by
  unfold execClusterLaunch
  try dsimp only
  (repeat' (first | (refine (guarded_foldl _ (fun s a => ?_) _ _).trans ?_) | split)) <;> simp [*]

@[simp] theorem guarded_execClusterComplete (k : ClusterAt) (s : State) : ∀ u, execClusterComplete k s = .next u → u.guarded = s.guarded := by
  unfold execClusterComplete
  try dsimp only
  (repeat' (first | (refine (guarded_foldl _ (fun s a => ?_) _ _).trans ?_) | split)) <;> simp [*]

@[simp] theorem guarded_execPhaseTransferComplete (s : State) : ∀ u, execPhaseTransferComplete s = .next u → u.guarded = s.guarded := by
  unfold execPhaseTransferComplete
  (repeat' split) <;> simp [guarded_foldl]

@[simp] theorem guarded_execStop (at_ : Option ClusterAt) (tag : BitVec 32) (origin : BitVec 12) (s : State) : ∀ u, execStop at_ tag origin s = .next u → u.guarded = s.guarded := by
  simp [execStop]; (repeat' (first | (refine (guarded_foldl _ (fun s a => ?_) _ _).trans ?_) | split | simp))

@[simp] theorem guarded_execRelaunchReady (child : BitVec 12) (s : State) : ∀ u, execRelaunchReady child s = .next u → u.guarded = s.guarded := by
  simp [execRelaunchReady, guarded_foldl]

@[simp] theorem guarded_execRelaunchNotReady (child : BitVec 12) (s : State) : ∀ u, execRelaunchNotReady child s = .next u → u.guarded = s.guarded := by
  unfold execRelaunchNotReady
  try dsimp only
  (repeat' (first | (refine (guarded_foldl _ (fun s a => ?_) _ _).trans ?_) | split)) <;> simp [*]

@[simp] theorem guarded_execRelaunch (tag : BitVec 32) (count : BitVec 64) (s : State) : ∀ u, execRelaunch tag count s = .next u → u.guarded = s.guarded := by
  simp [execRelaunch]; (repeat' (first | (refine (guarded_foldl _ (fun s a => ?_) _ _).trans ?_) | split | simp))

@[simp] theorem guarded_execRelaunchHold (tag : BitVec 32) (s : State) : ∀ u, execRelaunchHold tag s = .next u → u.guarded = s.guarded := by
  simp [execRelaunchHold]; (repeat' (first | (refine (guarded_foldl _ (fun s a => ?_) _ _).trans ?_) | split | simp))

@[simp] theorem guarded_execRelaunchTimeout (s : State) : ∀ u, execRelaunchTimeout s = .next u → u.guarded = s.guarded := by
  unfold execRelaunchTimeout
  (repeat' split) <;> simp [guarded_foldl]

@[simp] theorem guarded_execStallAge (c : CoreAt) (isCatch : Bool) (ep : Fin 32) (s : State) : ∀ u, execStallAge c isCatch ep s = .next u → u.guarded = s.guarded := by
  unfold execStallAge
  try dsimp only
  (repeat' (first | (refine (guarded_foldl _ (fun s a => ?_) _ _).trans ?_) | split)) <;> simp [*]

@[simp] theorem guarded_execNext (c : CoreAt) (s : State) : ∀ u, execNext c s = .next u → u.guarded = s.guarded := by
  simp [execNext, guarded_foldl]

@[simp] theorem guarded_execJump (c : CoreAt) (s : State) : ∀ u, execJump c s = .next u → u.guarded = s.guarded := by
  simp [execJump, guarded_foldl]

@[simp] theorem guarded_execBranch (c : CoreAt) (s : State) : ∀ u, execBranch c s = .next u → u.guarded = s.guarded := by
  simp [execBranch, guarded_foldl]

@[simp] theorem guarded_execNest (c : CoreAt) (s : State) : ∀ u, execNest c s = .next u → u.guarded = s.guarded := by
  simp [execNest, guarded_foldl]

@[simp] theorem guarded_execHalt (c : CoreAt) (s : State) : ∀ u, execHalt c s = .next u → u.guarded = s.guarded := by
  simp [execHalt, guarded_foldl]

@[simp] theorem guarded_execStallCycle (k : ClusterAt) (s : State) : ∀ u, execStallCycle k s = .next u → u.guarded = s.guarded := by
  simp [execStallCycle]; (repeat' (first | split | simp))

@[simp] theorem guarded_execSend (c : CoreAt) (s : State) : ∀ u, execSend c s = .next u → u.guarded = s.guarded := by
  simp [execSend, guarded_foldl]

@[simp] theorem guarded_execTileSend (c : CoreAt) (s : State) : ∀ u, execTileSend c s = .next u → u.guarded = s.guarded := by
  simp [execTileSend, guarded_foldl]

@[simp] theorem guarded_execStreamWrite (c : CoreAt) (s : State) : ∀ u, execStreamWrite c s = .next u → u.guarded = s.guarded := by
  simp [execStreamWrite, guarded_foldl]

@[simp] theorem guarded_execMsend (c : CoreAt) (s : State) : ∀ u, execMsend c s = .next u → u.guarded = s.guarded := by
  simp [execMsend, guarded_foldl]

@[simp] theorem guarded_execStreamDemand (c : CoreAt) (s : State) : ∀ u, execStreamDemand c s = .next u → u.guarded = s.guarded := by
  simp [execStreamDemand, guarded_foldl]

@[simp] theorem guarded_execRecvWait (c : CoreAt) (s : State) : ∀ u, execRecvWait c s = .next u → u.guarded = s.guarded := by
  simp [execRecvWait, guarded_foldl]

@[simp] theorem guarded_execRelease (c : CoreAt) (s : State) : ∀ u, execRelease c s = .next u → u.guarded = s.guarded := by
  simp [execRelease, guarded_foldl]

@[simp] theorem guarded_execRwrite (c : CoreAt) (s : State) : ∀ u, execRwrite c s = .next u → u.guarded = s.guarded := by
  simp [execRwrite, guarded_foldl]

@[simp] theorem guarded_execRread (c : CoreAt) (s : State) : ∀ u, execRread c s = .next u → u.guarded = s.guarded := by
  simp [execRread, guarded_foldl]

@[simp] theorem guarded_execRatomic (c : CoreAt) (s : State) : ∀ u, execRatomic c s = .next u → u.guarded = s.guarded := by
  simp [execRatomic, guarded_foldl]

@[simp] theorem guarded_execRatomicLocal (c : CoreAt) (s : State) : ∀ u, execRatomicLocal c s = .next u → u.guarded = s.guarded := by
  simp [execRatomicLocal, guarded_foldl]

@[simp] theorem guarded_execReduceContribute (c : CoreAt) (s : State) : ∀ u, execReduceContribute c s = .next u → u.guarded = s.guarded := by
  simp [execReduceContribute, guarded_foldl]

@[simp] theorem guarded_execRequestRecordCheck (c : CoreAt) (s : State) : ∀ u, execRequestRecordCheck c s = .next u → u.guarded = s.guarded := by
  unfold execRequestRecordCheck
  (repeat' split) <;> simp [guarded_foldl]

@[simp] theorem guarded_execRequestLaunch (c : CoreAt) (s : State) : ∀ u, execRequestLaunch c s = .next u → u.guarded = s.guarded := by
  unfold execRequestLaunch
  try dsimp only
  (repeat' (first | (refine (guarded_foldl _ (fun s a => ?_) _ _).trans ?_) | split)) <;> simp [*]

@[simp] theorem guarded_execFence (c : CoreAt) (s : State) : ∀ u, execFence c s = .next u → u.guarded = s.guarded := by
  simp [execFence, guarded_foldl]

@[simp] theorem guarded_execCatch (c : CoreAt) (s : State) : ∀ u, execCatch c s = .next u → u.guarded = s.guarded := by
  simp [execCatch, guarded_foldl]

@[simp] theorem guarded_execCatchWait (c : CoreAt) (s : State) : ∀ u, execCatchWait c s = .next u → u.guarded = s.guarded := by
  simp [execCatchWait, guarded_foldl]

@[simp] theorem guarded_execSteerArm (c : CoreAt) (s : State) : ∀ u, execSteerArm c s = .next u → u.guarded = s.guarded := by
  simp [execSteerArm, guarded_foldl]

@[simp] theorem guarded_execSteerWait (c : CoreAt) (s : State) : ∀ u, execSteerWait c s = .next u → u.guarded = s.guarded := by
  simp [execSteerWait, guarded_foldl]

@[simp] theorem guarded_execSteerCycle (c : CoreAt) (s : State) : ∀ u, execSteerCycle c s = .next u → u.guarded = s.guarded := by
  unfold execSteerCycle
  try dsimp only
  (repeat' (first | (refine (guarded_foldl _ (fun s a => ?_) _ _).trans ?_) | split)) <;> simp [*]

@[simp] theorem guarded_execOpen (c : CoreAt) (s : State) : ∀ u, execOpen c s = .next u → u.guarded = s.guarded := by
  simp [execOpen, guarded_foldl]

@[simp] theorem guarded_execClose (c : CoreAt) (s : State) : ∀ u, execClose c s = .next u → u.guarded = s.guarded := by
  simp [execClose, guarded_foldl]

@[simp] theorem guarded_execChannelRecordArrival (c : CoreAt) (hdr : BitVec 128) (payload : Bytes) (s : State) : ∀ u, execChannelRecordArrival c hdr payload s = .next u → u.guarded = s.guarded := by
  unfold execChannelRecordArrival
  try dsimp only
  (repeat' (first | (refine (guarded_foldl _ (fun s a => ?_) _ _).trans ?_) | split)) <;> simp [*]

@[simp] theorem guarded_execTileSegmentArrival (c : CoreAt) (hdr : BitVec 128) (seg : Bytes) (s : State) : ∀ u, execTileSegmentArrival c hdr seg s = .next u → u.guarded = s.guarded := by
  simp [execTileSegmentArrival, guarded_foldl]

@[simp] theorem guarded_execCreditReturn (c : CoreAt) (body : BitVec 128) (s : State) : ∀ u, execCreditReturn c body s = .next u → u.guarded = s.guarded := by
  simp [execCreditReturn, guarded_foldl]

@[simp] theorem guarded_execRemoteWrite (c : CoreAt) (acc : BitVec 256) (data : Bytes) (s : State) : ∀ u, execRemoteWrite c acc data s = .next u → u.guarded = s.guarded := by
  unfold execRemoteWrite
  (repeat' split) <;> simp [guarded_foldl]

@[simp] theorem guarded_execRemoteReadRequest (c : CoreAt) (acc : BitVec 256) (host : Option Bytes) (s : State) : ∀ u, execRemoteReadRequest c acc host s = .next u → u.guarded = s.guarded := by
  unfold execRemoteReadRequest
  (repeat' split) <;> simp [guarded_foldl]

@[simp] theorem guarded_execRemoteAtomicRequest (c : CoreAt) (acc : BitVec 256) (s : State) : ∀ u, execRemoteAtomicRequest c acc s = .next u → u.guarded = s.guarded := by
  simp [execRemoteAtomicRequest, guarded_foldl]

@[simp] theorem guarded_execReply (c : CoreAt) (pos : BitVec 11) (msg rep : BitVec 128) (data : Bytes) (s : State) : ∀ u, execReply c pos msg rep data s = .next u → u.guarded = s.guarded := by
  simp [execReply, guarded_foldl]

@[simp] theorem guarded_execWriteAck (c : CoreAt) (body : BitVec 128) (s : State) : ∀ u, execWriteAck c body s = .next u → u.guarded = s.guarded := by
  simp [execWriteAck, guarded_foldl]

@[simp] theorem guarded_execRequestNoPathTimeout (c : CoreAt) (n : Nat) (s : State) : ∀ u, execRequestNoPathTimeout c n s = .next u → u.guarded = s.guarded := by
  unfold execRequestNoPathTimeout
  (repeat' split) <;> simp [guarded_foldl]

@[simp] theorem guarded_execReductionContribution (k : ClusterAt) (hdr : BitVec 128) (link : BitVec 3) (elems : Bytes) (s : State) : ∀ u, execReductionContribution k hdr link elems s = .next u → u.guarded = s.guarded := by
  intro u h
  unfold execReductionContribution at h
  split at h <;> rw [← Host.Outcome.next.inj h]
  refine guarded_onArrival _ _ _ _ fun t => ?_
  repeat' split
  all_goals simp

@[simp] theorem guarded_execReductionReturn (k : ClusterAt) (hdr : BitVec 128) (elems : Bytes) (s : State) : ∀ u, execReductionReturn k hdr elems s = .next u → u.guarded = s.guarded := by
  intro u h
  unfold execReductionReturn at h
  split at h <;> rw [← Host.Outcome.next.inj h]
  refine guarded_onArrival _ _ _ _ fun t => ?_
  repeat' split
  all_goals simp

@[simp] theorem guarded_execReductionResult (c : CoreAt) (hdr : BitVec 128) (elems : Bytes) (s : State) :
    ∀ u, execReductionResult c hdr elems s = .next u → u.guarded = s.guarded := by
  intro u h
  rw [← Host.Outcome.next.inj h]
  refine guarded_onQueue _ _ _ _ _ _ fun t => ?_
  repeat' split
  all_goals simp

@[simp] theorem guarded_execDeliver (c : CoreAt) (hdr : BitVec 128) (seg : Bytes) (s : State) : ∀ u, execDeliver c hdr seg s = .next u → u.guarded = s.guarded := by
  simp [execDeliver, guarded_foldl]

@[simp] theorem guarded_execScrub (m : Fin 4) (s : State) : ∀ u, execScrub m s = .next u → u.guarded = s.guarded := by
  simp [execScrub, guarded_foldl]

@[simp] theorem guarded_execOpenRequest (l : Fin 8) (body : BitVec 256) (s : State) : ∀ u, execOpenRequest l body s = .next u → u.guarded = s.guarded := by
  simp [execOpenRequest, guarded_foldl]

@[simp] theorem guarded_execCloseRequest (l : Fin 8) (body : BitVec 256) (s : State) : ∀ u, execCloseRequest l body s = .next u → u.guarded = s.guarded := by
  simp [execCloseRequest, guarded_foldl]

@[simp] theorem guarded_execAnswer (c : CoreAt) (body : BitVec 256) (s : State) : ∀ u, execAnswer c body s = .next u → u.guarded = s.guarded := by
  simp [execAnswer, guarded_foldl]

@[simp] theorem guarded_execCloseAnswer (c : CoreAt) (body : BitVec 256) (s : State) : ∀ u, execCloseAnswer c body s = .next u → u.guarded = s.guarded := by
  simp [execCloseAnswer, guarded_foldl]

@[simp] theorem guarded_execBroken (c : CoreAt) (body : BitVec 256) (s : State) : ∀ u, execBroken c body s = .next u → u.guarded = s.guarded := by
  intro u h
  unfold execBroken at h
  (repeat' split at h) <;> (rw [← Host.Outcome.next.inj h]) <;> (repeat' (first | (refine (guarded_foldl _ (fun s a => ?_) _ _).trans ?_) | split)) <;> (try simp [*]) <;> (repeat' split) <;> simp [*, guarded_foldl]

@[simp] theorem guarded_execPacketHop (i : Nat) (s : State) : ∀ u, execPacketHop i s = .next u → u.guarded = s.guarded := by
  unfold execPacketHop
  (repeat' split) <;> simp [guarded_foldl]

@[simp] theorem guarded_execMeshLinkFail (col row : BitVec 10) (port : Fin 5) (hull : Bool) (s : State) : ∀ u, execMeshLinkFail col row port hull s = .next u → u.guarded = s.guarded := by
  simp [execMeshLinkFail, guarded_foldl]

@[simp] theorem guarded_execRouteTableChange (edits : List RouteEdit) (s : State) : ∀ u, execRouteTableChange edits s = .next u → u.guarded = s.guarded := by
  unfold execRouteTableChange
  (repeat' split) <;> simp [guarded_foldl]

@[simp] theorem guarded_execTimeProbe (port : Fin 64) (t1 t2 : BitVec 80) (s : State) : ∀ u, execTimeProbe port t1 t2 s = .next u → u.guarded = s.guarded := by
  simp [execTimeProbe, guarded_foldl]

@[simp] theorem guarded_execTimeProbeTimer (s : State) : ∀ u, execTimeProbeTimer s = .next u → u.guarded = s.guarded := by
  intro u h
  unfold execTimeProbeTimer at h
  dsimp only at h
  (repeat' split at h) <;> (rw [← Host.Outcome.next.inj h]) <;> (repeat' split) <;> simp [*, guarded_foldl]

@[simp] theorem guarded_execTimeReply (port : Fin 64) (t1 t2 t3 t4 : BitVec 80) (depth _tstate : BitVec 8) (s : State) : ∀ u, execTimeReply port t1 t2 t3 t4 depth _tstate s = .next u → u.guarded = s.guarded := by
  simp [execTimeReply, guarded_foldl]

@[simp] theorem guarded_execTimeHoldover (s : State) : ∀ u, execTimeHoldover s = .next u → u.guarded = s.guarded := by
  unfold execTimeHoldover
  try dsimp only
  (repeat' (first | (refine (guarded_foldl _ (fun s a => ?_) _ _).trans ?_) | split)) <;> simp [*]

@[simp] theorem guarded_execId (port : Fin 64) (msg : Bytes) (s : State) : ∀ u, execId port msg s = .next u → u.guarded = s.guarded := by
  unfold execId
  (repeat' split) <;> simp [guarded_foldl]

@[simp] theorem guarded_execIdTimer (port : Fin 64) (s : State) : ∀ u, execIdTimer port s = .next u → u.guarded = s.guarded := by
  unfold execIdTimer
  try dsimp only
  (repeat' (first | (refine (guarded_foldl _ (fun s a => ?_) _ _).trans ?_) | split)) <;> simp [*]

@[simp] theorem guarded_execPortTraining (port : Fin 64) (t : Training) (s : State) : ∀ u, execPortTraining port t s = .next u → u.guarded = s.guarded := by
  unfold execPortTraining
  try dsimp only
  (repeat' (first | (refine (guarded_foldl _ (fun s a => ?_) _ _).trans ?_) | split)) <;> simp [*]

@[simp] theorem guarded_execPortRetryTimer (port : Fin 64) (s : State) : ∀ u, execPortRetryTimer port s = .next u → u.guarded = s.guarded := by
  unfold execPortRetryTimer
  try dsimp only
  (repeat' (first | (refine (guarded_foldl _ (fun s a => ?_) _ _).trans ?_) | split)) <;> simp [*]

@[simp] theorem guarded_execRetrain (port : Fin 64) (t : Training) (s : State) : ∀ u, execRetrain port t s = .next u → u.guarded = s.guarded := by
  unfold execRetrain
  try dsimp only
  (repeat' (first | (refine (guarded_foldl _ (fun s a => ?_) _ _).trans ?_) | split)) <;> simp [*]

@[simp] theorem guarded_execRetrainTimeout (port : Fin 64) (s : State) : ∀ u, execRetrainTimeout port s = .next u → u.guarded = s.guarded := by
  unfold execRetrainTimeout
  (repeat' split) <;> simp [guarded_foldl]

@[simp] theorem guarded_execFrameLockLoss (port : Fin 64) (s : State) : ∀ u, execFrameLockLoss port s = .next u → u.guarded = s.guarded := by
  unfold execFrameLockLoss
  try dsimp only
  (repeat' (first | (refine (guarded_foldl _ (fun s a => ?_) _ _).trans ?_) | split)) <;> simp [*]

@[simp] theorem guarded_execReplayTimeout (port : Fin 64) (s : State) : ∀ u, execReplayTimeout port s = .next u → u.guarded = s.guarded := by
  unfold execReplayTimeout
  try dsimp only
  (repeat' (first | (refine (guarded_foldl _ (fun s a => ?_) _ _).trans ?_) | split)) <;> simp [*]

@[simp] theorem guarded_execOffline (port : Fin 64) (reason : BitVec 8) (s : State) : ∀ u, execOffline port reason s = .next u → u.guarded = s.guarded := by
  simp [execOffline, guarded_foldl]

@[simp] theorem guarded_execDataFrame (port : Fin 64) (frame : Bytes) (bad : List (Nat × Nat)) (s : State) : ∀ u, execDataFrame port frame bad s = .next u → u.guarded = s.guarded := by
  simp [execDataFrame, guarded_foldl]

@[simp] theorem guarded_execIdleFrame (port : Fin 64) (frame : Bytes) (bad : List (Nat × Nat)) (s : State) : ∀ u, execIdleFrame port frame bad s = .next u → u.guarded = s.guarded := by
  simp [execIdleFrame, guarded_foldl]

@[simp] theorem guarded_execLinkFrame (port : Fin 64) (frame : Bytes) (bad : List (Nat × Nat)) (s : State) : ∀ u, execLinkFrame port frame bad s = .next u → u.guarded = s.guarded := by
  simp [execLinkFrame, guarded_foldl]

@[simp] theorem guarded_execLinkDieIngress (l : Fin 8) (port : Fin 64) (p : Packet) (s : State) : ∀ u, execLinkDieIngress l port p s = .next u → u.guarded = s.guarded := by
  unfold execLinkDieIngress
  try dsimp only
  (repeat' (first | (refine (guarded_foldl _ (fun s a => ?_) _ _).trans ?_) | split)) <;> simp [*]

@[simp] theorem guarded_execLinkDieEgress (l : Fin 8) (p : Packet) (s : State) : ∀ u, execLinkDieEgress l p s = .next u → u.guarded = s.guarded := by
  have he : ∀ t : State, ((t.egress l.val p false).getD s).guarded = (if (t.egress l.val p false).isSome then t.guarded else s.guarded) := by
    intro t
    cases h : t.egress l.val p false with
    | none => rfl
    | some v => exact guarded_egress _ _ _ _ v h
  intro u h
  unfold execLinkDieEgress at h
  split at h <;> rw [← Host.Outcome.next.inj h]
  unfold State.onArrival
  split
  · rfl
  · rw [he]; split <;> simp

@[simp] theorem guarded_execQuiesceReturn (r : PartReturn) (s : State) : ∀ u, execQuiesceReturn r s = .next u → u.guarded = s.guarded := by
  unfold execQuiesceReturn
  try dsimp only
  (repeat' (first | (refine (guarded_foldl _ (fun s a => ?_) _ _).trans ?_) | split)) <;> simp [*]

@[simp] theorem guarded_execClusterMove (die : Fin 24) (logical : BitVec 9) (spare : Fin 288) (rotation : Bool) (s : State) : ∀ u, execClusterMove die logical spare rotation s = .next u → u.guarded = s.guarded := by
  unfold execClusterMove
  try dsimp only
  (repeat' (first | (refine (guarded_foldl _ (fun s a => ?_) _ _).trans ?_) | split)) <;> simp [*]

@[simp] theorem guarded_execStressTestDue (k : ClusterAt) (s : State) : ∀ u, execStressTestDue k s = .next u → u.guarded = s.guarded := by
  unfold execStressTestDue
  try dsimp only
  (repeat' (first | (refine (guarded_foldl _ (fun s a => ?_) _ _).trans ?_) | split)) <;> simp [*]

@[simp] theorem guarded_execTestOverdue (k : ClusterAt) (s : State) : ∀ u, execTestOverdue k s = .next u → u.guarded = s.guarded := by
  unfold execTestOverdue
  (repeat' split) <;> simp [guarded_foldl]

@[simp] theorem guarded_execStressTestDone (k : ClusterAt) (run : TestRun) (s : State) : ∀ u, execStressTestDone k run s = .next u → u.guarded = s.guarded := by
  unfold execStressTestDone
  try dsimp only
  (repeat' (first | (refine (guarded_foldl _ (fun s a => ?_) _ _).trans ?_) | split)) <;> simp [*]

@[simp] theorem guarded_execHeartbeat (k : ClusterAt) (s : State) : ∀ u, execHeartbeat k s = .next u → u.guarded = s.guarded := by
  unfold execHeartbeat
  (repeat' split) <;> simp [guarded_foldl]

@[simp] theorem guarded_execHeartbeatLost (k : ClusterAt) (s : State) : ∀ u, execHeartbeatLost k s = .next u → u.guarded = s.guarded := by
  unfold execHeartbeatLost
  try dsimp only
  (repeat' (first | (refine (guarded_foldl _ (fun s a => ?_) _ _).trans ?_) | split)) <;> simp [*]

@[simp] theorem guarded_execDigestResult (rid : BitVec 8) (step : BitVec 48) (elems : List (BitVec 64)) (s : State) : ∀ u, execDigestResult rid step elems s = .next u → u.guarded = s.guarded := by
  unfold execDigestResult
  try dsimp only
  (repeat' (first | (refine (guarded_foldl _ (fun s a => ?_) _ _).trans ?_) | split)) <;> simp [*]

@[simp] theorem guarded_execCheckpointDrainDone (s : State) : ∀ u, execCheckpointDrainDone s = .next u → u.guarded = s.guarded := by
  simp [execCheckpointDrainDone]; (repeat' (first | (refine (guarded_foldl _ (fun s a => ?_) _ _).trans ?_) | split | simp))

@[simp] theorem guarded_execConfigurationWrite (k : ClusterAt) (data : Bytes) (final : Option Bytes) (s : State) : ∀ u, execConfigurationWrite k data final s = .next u → u.guarded = s.guarded := by
  unfold execConfigurationWrite
  try dsimp only
  (repeat' (first | (refine (guarded_foldl _ (fun s a => ?_) _ _).trans ?_) | split)) <;> simp [*]

@[simp] theorem guarded_execTelemetrySample (entry : BitVec 512) (s : State) : ∀ u, execTelemetrySample entry s = .next u → u.guarded = s.guarded := by
  simp [execTelemetrySample, guarded_foldl]

@[simp] theorem guarded_execTelemetryInterval (x : Sample) (s : State) : ∀ u, execTelemetryInterval x s = .next u → u.guarded = s.guarded := by
  unfold execTelemetryInterval
  (repeat' split) <;> simp [guarded_foldl]

@[simp] theorem guarded_execHeatAlarm (k : ClusterAt) (sensor : Bool) (temp : BitVec 12) (s : State) : ∀ u, execHeatAlarm k sensor temp s = .next u → u.guarded = s.guarded := by
  intro u h
  unfold execHeatAlarm at h
  dsimp only at h
  (repeat' split at h) <;> (rw [← Host.Outcome.next.inj h]) <;> (repeat' split) <;> simp [*, guarded_foldl]

@[simp] theorem guarded_execCoolantStop (inlet flow : Nat) (s : State) : ∀ u, execCoolantStop inlet flow s = .next u → u.guarded = s.guarded := by
  simp [execCoolantStop, guarded_foldl]

@[simp] theorem guarded_execLeak (s : State) : ∀ u, execLeak s = .next u → u.guarded = s.guarded := by
  simp [execLeak, guarded_foldl]

@[simp] theorem guarded_execLeakRelease (s : State) : ∀ u, execLeakRelease s = .next u → u.guarded = s.guarded := by
  simp [execLeakRelease, guarded_foldl]

@[simp] theorem guarded_execEclipseReturn (d : Fin 48) (fails : List TileFail) (s : State) : ∀ u, execEclipseReturn d fails s = .next u → u.guarded = s.guarded := by
  intro u h
  unfold execEclipseReturn at h
  dsimp only at h
  (repeat' split at h) <;> (rw [← Host.Outcome.next.inj h]) <;> (repeat' split) <;> simp [*, guarded_foldl]

@[simp] theorem guarded_execInputSwitchReclose (s : State) : ∀ u, execInputSwitchReclose s = .next u → u.guarded = s.guarded := by
  simp [execInputSwitchReclose, guarded_foldl]

@[simp] theorem guarded_execBusSample (vin iin pin : Nat) (s : State) : ∀ u, execBusSample vin iin pin s = .next u → u.guarded = s.guarded := by
  simp [execBusSample]; (repeat' (first | (refine (guarded_foldl _ (fun s a => ?_) _ _).trans ?_) | split | simp))

@[simp] theorem guarded_execBusModule (m : Fin 12) (ok : Bool) (s : State) : ∀ u, execBusModule m ok s = .next u → u.guarded = s.guarded := by
  unfold execBusModule
  try dsimp only
  (repeat' (first | (refine (guarded_foldl _ (fun s a => ?_) _ _).trans ?_) | split)) <;> simp [*]

@[simp] theorem guarded_execPowerLoop (parts : List (Nat × Fin 8)) (fm : Nat) (s : State) : ∀ u, execPowerLoop parts fm s = .next u → u.guarded = s.guarded := by
  unfold execPowerLoop
  (repeat' split) <;> simp [guarded_foldl]

@[simp] theorem guarded_execPowerGood (railsOk clockOk : Bool) (s : State) : ∀ u, execPowerGood railsOk clockOk s = .next u → u.guarded = s.guarded := by
  simp [execPowerGood, guarded_foldl]

@[simp] theorem guarded_execBoot (s : State) : ∀ u, execBoot s = .next u → u.guarded = s.guarded := by
  simp [execBoot, guarded_foldl]

@[simp] theorem guarded_execSmiImage (image : Bytes) (certOk sigOk : Bool) (s : State) : ∀ u, execSmiImage image certOk sigOk s = .next u → u.guarded = s.guarded := by
  unfold execSmiImage
  try dsimp only
  (repeat' (first | (refine (guarded_foldl _ (fun s a => ?_) _ _).trans ?_) | split)) <;> simp [*]

@[simp] theorem guarded_execGrade (record : Bytes) (certOk sigOk : Bool) (s : State) : ∀ u, execGrade record certOk sigOk s = .next u → u.guarded = s.guarded := by
  unfold execGrade
  (repeat' split) <;> simp [guarded_foldl]

@[simp] theorem guarded_execHull (ppm : Int) (diesAnswer : BitVec 24) (channels : HullChannels) (inlet flow : Nat) (s : State) : ∀ u, execHull ppm diesAnswer channels inlet flow s = .next u → u.guarded = s.guarded := by
  unfold execHull
  (repeat' split) <;> simp [guarded_foldl]

@[simp] theorem guarded_execNoCoolant (inlet flow : Nat) (s : State) : ∀ u, execNoCoolant inlet flow s = .next u → u.guarded = s.guarded := by
  simp [execNoCoolant, guarded_foldl]

@[simp] theorem guarded_execDomains (regulatorFault : BitVec 61) (s : State) : ∀ u, execDomains regulatorFault s = .next u → u.guarded = s.guarded := by
  unfold execDomains
  (repeat' split) <;> simp [guarded_foldl]

@[simp] theorem guarded_execRepair (s : State) : ∀ u, execRepair s = .next u → u.guarded = s.guarded := by
  unfold execRepair
  (repeat' split) <;> simp [guarded_foldl]

@[simp] theorem guarded_execFirmware (failed : List ClusterAt) (s : State) : ∀ u, execFirmware failed s = .next u → u.guarded = s.guarded := by
  unfold execFirmware
  (repeat' split) <;> simp [guarded_foldl]

@[simp] theorem guarded_execKnownAnswer (failed : List TileFail) (s : State) : ∀ u, execKnownAnswer failed s = .next u → u.guarded = s.guarded := by
  unfold execKnownAnswer
  (repeat' split) <;> simp [guarded_foldl]

@[simp] theorem guarded_execLinks (s : State) : ∀ u, execLinks s = .next u → u.guarded = s.guarded := by
  unfold execLinks
  try dsimp only
  (repeat' (first | (refine (guarded_foldl _ (fun s a => ?_) _ _).trans ?_) | split)) <;> simp [*]

@[simp] theorem guarded_execSqTailDoorbell (page : BitVec 7) (value : BitVec 32) (s : State) : ∀ u, execSqTailDoorbell page value s = .next u → u.guarded = s.guarded := by
  unfold execSqTailDoorbell
  try dsimp only
  (repeat' (first | (refine (guarded_foldl _ (fun s a => ?_) _ _).trans ?_) | split)) <;> simp [*]

@[simp] theorem guarded_execCqHeadDoorbell (page : BitVec 7) (value : BitVec 32) (s : State) : ∀ u, execCqHeadDoorbell page value s = .next u → u.guarded = s.guarded := by
  unfold execCqHeadDoorbell
  try dsimp only
  (repeat' (first | (refine (guarded_foldl _ (fun s a => ?_) _ _).trans ?_) | split)) <;> simp [*]

@[simp] theorem guarded_execSqEnableWrite (page : Fin 81) (value : BitVec 32) (s : State) : ∀ u, execSqEnableWrite page value s = .next u → u.guarded = s.guarded := by
  simp [execSqEnableWrite, guarded_foldl]

@[simp] theorem guarded_execCqEnableWrite (page : Fin 81) (value : BitVec 32) (s : State) : ∀ u, execCqEnableWrite page value s = .next u → u.guarded = s.guarded := by
  simp [execCqEnableWrite, guarded_foldl]

@[simp] theorem guarded_execDescriptorFetch (r : Fin 64) (d : Option (BitVec 512)) (s : State) : ∀ u, execDescriptorFetch r d s = .next u → u.guarded = s.guarded := by
  unfold execDescriptorFetch
  (repeat' split) <;> simp [guarded_foldl]

@[simp] theorem guarded_execMsixModerationExpiry (vector : Fin 64) (s : State) : ∀ u, execMsixModerationExpiry vector s = .next u → u.guarded = s.guarded := by
  unfold execMsixModerationExpiry
  try dsimp only
  (repeat' (first | (refine (guarded_foldl _ (fun s a => ?_) _ _).trans ?_) | split)) <;> simp [*]

@[simp] theorem guarded_execD3hotEntry (s : State) : ∀ u, execD3hotEntry s = .next u → u.guarded = s.guarded := by
  simp [execD3hotEntry, guarded_foldl]

@[simp] theorem guarded_execD0Return (s : State) : ∀ u, execD0Return s = .next u → u.guarded = s.guarded := by
  simp [execD0Return, guarded_foldl]

@[simp] theorem guarded_execPcieLinkDown (s : State) : ∀ u, execPcieLinkDown s = .next u → u.guarded = s.guarded := by
  unfold execPcieLinkDown
  (repeat' split) <;> simp [guarded_foldl]

@[simp] theorem guarded_execPcieLinkUp (s : State) : ∀ u, execPcieLinkUp s = .next u → u.guarded = s.guarded := by
  unfold execPcieLinkUp
  (repeat' split) <;> simp [guarded_foldl]

@[simp] theorem guarded_execNop (r : Fin 64) (tag : BitVec 16) (s : State) : ∀ u, execNop r tag s = .next u → u.guarded = s.guarded := by
  simp [execNop, guarded_foldl]

@[simp] theorem guarded_execLoadImage (r : Fin 64) (tag : BitVec 16) (s : State) : ∀ u, execLoadImage r tag s = .next u → u.guarded = s.guarded := by
  simp [execLoadImage, guarded_foldl]

@[simp] theorem guarded_execSignal (r : Fin 64) (tag : BitVec 16) (s : State) : ∀ u, execSignal r tag s = .next u → u.guarded = s.guarded := by
  simp [execSignal, guarded_foldl]

@[simp] theorem guarded_execWait (r : Fin 64) (tag : BitVec 16) (s : State) : ∀ u, execWait r tag s = .next u → u.guarded = s.guarded := by
  simp [execWait, guarded_foldl]

@[simp] theorem guarded_execWaitPoll (r : Fin 64) (tag : BitVec 16) (s : State) : ∀ u, execWaitPoll r tag s = .next u → u.guarded = s.guarded := by
  unfold execWaitPoll
  (repeat' split) <;> simp [guarded_foldl]

@[simp] theorem guarded_execWaitTimeLimit (r : Fin 64) (tag : BitVec 16) (s : State) : ∀ u, execWaitTimeLimit r tag s = .next u → u.guarded = s.guarded := by
  unfold execWaitTimeLimit
  (repeat' split) <;> simp [guarded_foldl]

@[simp] theorem guarded_execCatchStop (r : Fin 64) (tag : BitVec 16) (s : State) : ∀ u, execCatchStop r tag s = .next u → u.guarded = s.guarded := by
  simp [execCatchStop, guarded_foldl]

@[simp] theorem guarded_execDrain (r : Fin 64) (tag : BitVec 16) (s : State) : ∀ u, execDrain r tag s = .next u → u.guarded = s.guarded := by
  simp [execDrain, guarded_foldl]

@[simp] theorem guarded_execRestore (r : Fin 64) (tag : BitVec 16) (s : State) : ∀ u, execRestore r tag s = .next u → u.guarded = s.guarded := by
  simp [execRestore, guarded_foldl]

@[simp] theorem guarded_execDigest (r : Fin 64) (tag : BitVec 16) (s : State) : ∀ u, execDigest r tag s = .next u → u.guarded = s.guarded := by
  simp [execDigest, guarded_foldl]

@[simp] theorem guarded_execTest (r : Fin 64) (tag : BitVec 16) (runs : TestRuns) (s : State) : ∀ u, execTest r tag runs s = .next u → u.guarded = s.guarded := by
  simp [execTest, guarded_foldl]

@[simp] theorem guarded_execCompletionDecision (r : Fin 64) (tag : BitVec 16) (s : State) : ∀ u, execCompletionDecision r tag s = .next u → u.guarded = s.guarded := by
  unfold execCompletionDecision
  (repeat' split) <;> simp [guarded_foldl]

@[simp] theorem guarded_execAbort (r : Fin 64) (tag : BitVec 16) (s : State) : ∀ u, execAbort r tag s = .next u → u.guarded = s.guarded := by
  simp [execAbort, guarded_foldl]

@[simp] theorem guarded_execEventLostClear (value : BitVec 32) (deviceSets : Bool) (s : State) : ∀ u, execEventLostClear value deviceSets s = .next u → u.guarded = s.guarded := by
  simp [execEventLostClear, guarded_foldl]

@[simp] theorem guarded_execWriteImage (image : Option Bytes) (certOk sigOk flashOk : Bool) (s : State) : ∀ u, execWriteImage image certOk sigOk flashOk s = .next u → u.guarded = s.guarded := by
  unfold execWriteImage
  (repeat' split) <;> simp [guarded_foldl]

@[simp] theorem guarded_execRequestReport (nonce : Option (BitVec 256)) (measures : Bytes) (sig : Bytes) (s : State) : ∀ u, execRequestReport nonce measures sig s = .next u → u.guarded = s.guarded := by
  unfold execRequestReport
  (repeat' split) <;> simp [guarded_foldl]

@[simp] theorem guarded_execLoadToken (token : Option Bytes) (certOk sigOk : Bool) (s : State) : ∀ u, execLoadToken token certOk sigOk s = .next u → u.guarded = s.guarded := by
  unfold execLoadToken
  (repeat' split) <;> simp [guarded_foldl]

@[simp] theorem guarded_execUnloadToken (s : State) : ∀ u, execUnloadToken s = .next u → u.guarded = s.guarded := by
  simp [execUnloadToken, guarded_foldl]

@[simp] theorem guarded_execSetCascade (cfg : Option Bytes) (flashOk : Bool) (s : State) : ∀ u, execSetCascade cfg flashOk s = .next u → u.guarded = s.guarded := by
  unfold execSetCascade
  (repeat' split) <;> simp [guarded_foldl]

@[simp] theorem guarded_execSetWaitMask (flashOk : Bool) (s : State) : ∀ u, execSetWaitMask flashOk s = .next u → u.guarded = s.guarded := by
  unfold execSetWaitMask
  (repeat' split) <;> simp [guarded_foldl]

@[simp] theorem guarded_execReportSuspect (s : State) : ∀ u, execReportSuspect s = .next u → u.guarded = s.guarded := by
  simp [execReportSuspect, guarded_foldl]

@[simp] theorem guarded_execMailboxCommandEnd (s : State) : ∀ u, execMailboxCommandEnd s = .next u → u.guarded = s.guarded := by
  unfold execMailboxCommandEnd
  (repeat' split) <;> simp [guarded_foldl]

@[simp] theorem guarded_execLinkDelay (slot : Fin 16) (i : Nat) (due : Bool) (s : State) : ∀ u, execLinkDelay slot i due s = .next u → u.guarded = s.guarded := by
  simp [execLinkDelay, guarded_foldl]

@[simp] theorem guarded_execCreditCut (slot : Fin 16) (s : State) : ∀ u, execCreditCut slot s = .next u → u.guarded = s.guarded := by
  simp [execCreditCut, guarded_foldl]

@[simp] theorem guarded_execForcedStall (slot : Fin 16) (s : State) : ∀ u, execForcedStall slot s = .next u → u.guarded = s.guarded := by
  unfold execForcedStall
  try dsimp only
  (repeat' (first | (refine (guarded_foldl _ (fun s a => ?_) _ _).trans ?_) | split)) <;> simp [*]

@[simp] theorem guarded_execClockSkew (slot : Fin 16) (s : State) : ∀ u, execClockSkew slot s = .next u → u.guarded = s.guarded := by
  unfold execClockSkew
  try dsimp only
  (repeat' (first | (refine (guarded_foldl _ (fun s a => ?_) _ _).trans ?_) | split)) <;> simp [*]

@[simp] theorem guarded_execCheckInsertion (slot : Fin 16) (i : Nat) (s : State) : ∀ u, execCheckInsertion slot i s = .next u → u.guarded = s.guarded := by
  simp [execCheckInsertion, guarded_foldl]

@[simp] theorem guarded_execPerturbationSlotClear (slot : Fin 16) (s : State) : ∀ u, execPerturbationSlotClear slot s = .next u → u.guarded = s.guarded := by
  simp [execPerturbationSlotClear, guarded_foldl]

@[simp] theorem guarded_execTeMma (c : CoreAt) (s : State) : ∀ u, execTeMma c s = .next u → u.guarded = s.guarded := by
  simp [execTeMma, guarded_foldl]

@[simp] theorem guarded_execTeCvt (c : CoreAt) (s : State) : ∀ u, execTeCvt c s = .next u → u.guarded = s.guarded := by
  simp [execTeCvt, guarded_foldl]

@[simp] theorem guarded_execTeEastore (c : CoreAt) (s : State) : ∀ u, execTeEastore c s = .next u → u.guarded = s.guarded := by
  simp [execTeEastore, guarded_foldl]

@[simp] theorem guarded_execTeEaload (c : CoreAt) (s : State) : ∀ u, execTeEaload c s = .next u → u.guarded = s.guarded := by
  simp [execTeEaload, guarded_foldl]

@[simp] theorem guarded_execTeEaadd (c : CoreAt) (s : State) : ∀ u, execTeEaadd c s = .next u → u.guarded = s.guarded := by
  simp [execTeEaadd, guarded_foldl]

@[simp] theorem guarded_execTeReanchor (c : CoreAt) (s : State) : ∀ u, execTeReanchor c s = .next u → u.guarded = s.guarded := by
  simp [execTeReanchor, guarded_foldl]

@[simp] theorem guarded_execVePipelined (c : CoreAt) (s : State) : ∀ u, execVePipelined c s = .next u → u.guarded = s.guarded := by
  simp [execVePipelined, guarded_foldl]

@[simp] theorem guarded_execVeSumx (c : CoreAt) (s : State) : ∀ u, execVeSumx c s = .next u → u.guarded = s.guarded := by
  simp [execVeSumx, guarded_foldl]

@[simp] theorem guarded_execVeSqsumx (c : CoreAt) (s : State) : ∀ u, execVeSqsumx c s = .next u → u.guarded = s.guarded := by
  simp [execVeSqsumx, guarded_foldl]

@[simp] theorem guarded_execVeFold (c : CoreAt) (s : State) : ∀ u, execVeFold c s = .next u → u.guarded = s.guarded := by
  simp [execVeFold, guarded_foldl]

@[simp] theorem guarded_execVeEaout (c : CoreAt) (s : State) : ∀ u, execVeEaout c s = .next u → u.guarded = s.guarded := by
  simp [execVeEaout, guarded_foldl]

@[simp] theorem guarded_execVeEaload (c : CoreAt) (s : State) : ∀ u, execVeEaload c s = .next u → u.guarded = s.guarded := by
  simp [execVeEaload, guarded_foldl]

@[simp] theorem guarded_execVeEastore (c : CoreAt) (s : State) : ∀ u, execVeEastore c s = .next u → u.guarded = s.guarded := by
  simp [execVeEastore, guarded_foldl]

@[simp] theorem guarded_execVeStatus (c : CoreAt) (s : State) : ∀ u, execVeStatus c s = .next u → u.guarded = s.guarded := by
  simp [execVeStatus, guarded_foldl]

@[simp] theorem guarded_execVePrune (c : CoreAt) (s : State) : ∀ u, execVePrune c s = .next u → u.guarded = s.guarded := by
  simp [execVePrune, guarded_foldl]

@[simp] theorem guarded_execVeCompress (c : CoreAt) (s : State) : ∀ u, execVeCompress c s = .next u → u.guarded = s.guarded := by
  simp [execVeCompress, guarded_foldl]

@[simp] theorem guarded_execPselThreshold (c : CoreAt) (s : State) : ∀ u, execPselThreshold c s = .next u → u.guarded = s.guarded := by
  simp [execPselThreshold, guarded_foldl]

@[simp] theorem guarded_execPselTopK (c : CoreAt) (s : State) : ∀ u, execPselTopK c s = .next u → u.guarded = s.guarded := by
  simp [execPselTopK, guarded_foldl]

@[simp] theorem guarded_execPselVerdict (c : CoreAt) (s : State) : ∀ u, execPselVerdict c s = .next u → u.guarded = s.guarded := by
  simp [execPselVerdict, guarded_foldl]

@[simp] theorem guarded_execPselCounts (c : CoreAt) (s : State) : ∀ u, execPselCounts c s = .next u → u.guarded = s.guarded := by
  simp [execPselCounts, guarded_foldl]

@[simp] theorem guarded_execPselRate (c : CoreAt) (s : State) : ∀ u, execPselRate c s = .next u → u.guarded = s.guarded := by
  simp [execPselRate, guarded_foldl]

@[simp] theorem guarded_execPselQuant4 (c : CoreAt) (s : State) : ∀ u, execPselQuant4 c s = .next u → u.guarded = s.guarded := by
  simp [execPselQuant4, guarded_foldl]

@[simp] theorem guarded_execDmaToDeep (r : Fin 64) (tag : BitVec 16) (run : Option Bytes) (s : State) :
    ∀ u, execDmaToDeep r tag run s = .next u → u.guarded = s.guarded := by
  intro u h
  rw [← Host.Outcome.next.inj h]
  refine guarded_dma _ _ _ _ _ fun t d => ?_
  split <;> simp

@[simp] theorem guarded_execDmaFromDeep (r : Fin 64) (tag : BitVec 16) (n : Nat) (s : State) :
    ∀ u, execDmaFromDeep r tag n s = .next u → u.guarded = s.guarded := by
  intro u h
  rw [← Host.Outcome.next.inj h]
  refine guarded_dma _ _ _ _ _ fun t d => ?_
  split <;> simp

end Sys2Proof.Machine
end

