-- ==== Sys2Proof/Laws/SMap.lean ====
section
/-! SUPPORT. Sparse maps: what a write leaves readable, and that every operation keeps the canonical form. -/

namespace Sys2Proof.SMap

variable {α : Type}

/-! ### Reading -/

theorem get_append_left (d : α) (m n : SMap α) (k : Nat) (h : ∀ p ∈ n, p.1 ≠ k) : get d (m ++ n) k = get d m k := by
  induction m with
  | nil =>
    induction n with
    | nil => rfl
    | cons p r ih =>
      have hp : p.1 ≠ k := h p (by simp)
      simpa [get, hp] using ih fun q hq => h q (by simp [hq])
  | cons p r ih =>
    obtain ⟨i, v⟩ := p
    simp [get, ih]

theorem get_append_right (d : α) (m n : SMap α) (k : Nat) (h : ∀ p ∈ m, p.1 ≠ k) : get d (m ++ n) k = get d n k := by
  induction m with
  | nil => rfl
  | cons p r ih =>
    have hp : p.1 ≠ k := h p (by simp)
    simpa [get, hp] using ih fun q hq => h q (by simp [hq])

theorem get_of_not_mem (d : α) (m : SMap α) (k : Nat) (h : ∀ p ∈ m, p.1 ≠ k) : get d m k = d := by
  simpa [get] using get_append_right d m [] k h

theorem get_filter (d : α) (f : Nat → Bool) (m : SMap α) (k : Nat) (h : f k = true) : get d (m.filter fun p => f p.1) k = get d m k := by
  induction m with
  | nil => rfl
  | cons p r ih =>
    obtain ⟨i, v⟩ := p
    by_cases hi : i = k
    · subst hi; simp [h, get]
    · by_cases hf : f i = true <;> simp [hf, get, hi, ih]

theorem get_splice_out (d : α) (m new : SMap α) (a n k : Nat) (hn : ∀ p ∈ new, a ≤ p.1 ∧ p.1 < a + n) (hk : k < a ∨ a + n ≤ k) :
    get d (splice m a n new) k = get d m k := by
  have hnew : ∀ p ∈ new, p.1 ≠ k := fun p hp => by have := hn p hp; omega
  unfold splice
  rcases hk with hk | hk
  · rw [get_append_left _ _ _ _ ?_]
    · exact get_filter d (fun i => decide (i < a)) m k (by simpa using hk)
    · intro p hp
      rcases List.mem_append.1 hp with h | h
      · exact hnew p h
      · have h' := (List.mem_filter.1 h).2
        have : a + n ≤ p.1 := by simpa using h'
        omega
  · rw [get_append_right _ _ _ _ ?_, get_append_right _ _ _ _ hnew]
    · exact get_filter d (fun i => decide (a + n ≤ i)) m k (by simpa using hk)
    · intro p hp
      have h' := (List.mem_filter.1 hp).2
      have : p.1 < a := by simpa using h'
      omega

theorem get_splice_in (d : α) (m new : SMap α) (a n k : Nat) (h1 : a ≤ k) (h2 : k < a + n) : get d (splice m a n new) k = get d new k := by
  unfold splice
  rw [get_append_right _ _ _ _ ?_, get_append_left _ _ _ _ ?_]
  · intro p hp
    have h' := (List.mem_filter.1 hp).2
    have : a + n ≤ p.1 := by simpa using h'
    omega
  · intro p hp
    have h' := (List.mem_filter.1 hp).2
    have : p.1 < a := by simpa using h'
    omega

variable [DecidableEq α]

/-- A read of the index just written gives the value written. -/
@[simp] theorem get_set_same (d : α) (m : SMap α) (k : Nat) (v : α) : get d (set d m k v) k = v := by
  unfold set
  rw [get_splice_in d m _ k 1 k (by omega) (by omega)]
  split <;> simp_all [get]

/-- A write leaves every other index alone. -/
theorem get_set_ne (d : α) (m : SMap α) {k j : Nat} (v : α) (h : j ≠ k) : get d (set d m k v) j = get d m j := by
  unfold set
  apply get_splice_out
  · intro p hp
    split at hp
    · simp at hp
    · simp only [List.mem_singleton] at hp; subst hp; simp
  · omega

theorem get_set (d : α) (m : SMap α) (k j : Nat) (v : α) : get d (set d m k v) j = if j = k then v else get d m j := by
  by_cases h : j = k
  · subst h; simp
  · simp [h, get_set_ne]

theorem mem_run (d : α) (vs : List α) (k : Nat) (p : Nat × α) (h : p ∈ run d k vs) : k ≤ p.1 ∧ p.1 < k + vs.length ∧ p.2 ≠ d := by
  induction vs generalizing k with
  | nil => simp [run] at h
  | cons v r ih =>
    unfold run at h
    have tail : p ∈ run d (k + 1) r → k ≤ p.1 ∧ p.1 < k + (v :: r).length ∧ p.2 ≠ d := fun h => by
      obtain ⟨h1, h2, h3⟩ := ih (k + 1) h
      exact ⟨by omega, by simp only [List.length_cons]; omega, h3⟩
    split at h
    · exact tail h
    · rcases List.mem_cons.1 h with h | h
      · subst h; exact ⟨Nat.le_refl _, by simp, by assumption⟩
      · exact tail h

theorem get_run (d : α) (vs : List α) (k j : Nat) : get d (run d k vs) (k + j) = vs.getD j d := by
  induction vs generalizing k j with
  | nil => simp [run, get]
  | cons v r ih =>
    unfold run
    cases j with
    | zero =>
      split
      · rw [get_of_not_mem]
        · simp_all
        · intro p hp; have := mem_run d r (k + 1) p hp; omega
      · simp [get]
    | succ j =>
      have h := ih (k + 1) j
      rw [show k + 1 + j = k + (j + 1) by omega] at h
      split
      · simpa using h
      · simpa [get] using h

/-- A read inside a written run gives the byte written there. -/
theorem get_setRun_in (d : α) (m : SMap α) (k : Nat) (vs : List α) (j : Nat) (h : j < vs.length) : get d (setRun d m k vs) (k + j) = vs.getD j d := by
  unfold setRun
  rw [get_splice_in d m _ k vs.length (k + j) (by omega) (by omega), get_run]

/-- A run leaves every index outside it alone. -/
theorem get_setRun_out (d : α) (m : SMap α) (k : Nat) (vs : List α) (j : Nat) (h : j < k ∨ k + vs.length ≤ j) : get d (setRun d m k vs) j = get d m j := by
  unfold setRun
  exact get_splice_out d m _ k vs.length j (fun p hp => ⟨(mem_run d vs k p hp).1, (mem_run d vs k p hp).2.1⟩) h

/-! ### The canonical form -/

theorem wfFrom_iff (d : α) (m : SMap α) (lo : Nat) :
    wfFrom d lo m = true ↔ (∀ p ∈ m, lo ≤ p.1 ∧ p.2 ≠ d) ∧ m.Pairwise (fun p q => p.1 < q.1) := by
  induction m generalizing lo with
  | nil => simp [wfFrom]
  | cons p r ih =>
    obtain ⟨i, v⟩ := p
    simp only [wfFrom, Bool.and_eq_true, decide_eq_true_eq, ih, List.pairwise_cons, List.mem_cons, forall_eq_or_imp]
    constructor
    · rintro ⟨⟨h1, h2⟩, h3, h4⟩
      exact ⟨⟨⟨h1, h2⟩, fun q hq => ⟨by have := (h3 q hq).1; omega, (h3 q hq).2⟩⟩, fun q hq => by have := (h3 q hq).1; omega, h4⟩
    · rintro ⟨⟨⟨h1, h2⟩, h3⟩, h4, h5⟩
      exact ⟨⟨h1, h2⟩, fun q hq => ⟨by have := h4 q hq; omega, (h3 q hq).2⟩, h5⟩

theorem wf_iff (d : α) (m : SMap α) : wf d m = true ↔ (∀ p ∈ m, p.2 ≠ d) ∧ m.Pairwise (fun p q => p.1 < q.1) := by
  simp [wf, wfFrom_iff]

theorem wf_nil (d : α) : wf d ([] : SMap α) = true := rfl

theorem pairwise_run (d : α) (vs : List α) (k : Nat) : (run d k vs).Pairwise (fun p q => p.1 < q.1) := by
  induction vs generalizing k with
  | nil => simp [run]
  | cons v r ih =>
    unfold run
    split
    · exact ih _
    · refine List.pairwise_cons.2 ⟨fun q hq => ?_, ih _⟩
      have := mem_run d r (k + 1) q hq
      omega

theorem wf_splice (d : α) (m new : SMap α) (a n : Nat) (hm : wf d m = true) (hn : ∀ p ∈ new, a ≤ p.1 ∧ p.1 < a + n ∧ p.2 ≠ d)
    (hp : new.Pairwise (fun p q => p.1 < q.1)) : wf d (splice m a n new) = true := by
  rw [wf_iff] at hm ⊢
  obtain ⟨h1, h2⟩ := hm
  unfold splice
  refine ⟨fun p hp' => ?_, ?_⟩
  · simp only [List.mem_append, List.mem_filter] at hp'
    rcases hp' with h | h | h
    · exact h1 p h.1
    · exact (hn p h).2.2
    · exact h1 p h.1
  · refine List.pairwise_append.2 ⟨h2.filter _, List.pairwise_append.2 ⟨hp, h2.filter _, ?_⟩, ?_⟩
    · intro p hp' q hq
      have h := (List.mem_filter.1 hq).2
      have : a + n ≤ q.1 := by simpa using h
      have := hn p hp'
      omega
    · intro p hp' q hq
      have h := (List.mem_filter.1 hp').2
      have : p.1 < a := by simpa using h
      rcases List.mem_append.1 hq with hq | hq
      · have := hn q hq; omega
      · have h := (List.mem_filter.1 hq).2
        have : a + n ≤ q.1 := by simpa using h
        omega

/-- Writing one index keeps the canonical form. -/
theorem wf_set (d : α) (m : SMap α) (k : Nat) (v : α) (h : wf d m = true) : wf d (set d m k v) = true := by
  unfold set
  apply wf_splice d m _ k 1 h
  · intro p hp
    split at hp
    · simp at hp
    · simp only [List.mem_singleton] at hp; subst hp; exact ⟨Nat.le_refl _, by simp, by assumption⟩
  · split <;> simp

/-- Writing a run keeps the canonical form. -/
theorem wf_setRun (d : α) (m : SMap α) (k : Nat) (vs : List α) (h : wf d m = true) : wf d (setRun d m k vs) = true := by
  unfold setRun
  exact wf_splice d m _ k vs.length h (fun p hp => mem_run d vs k p hp) (pairwise_run d vs k)

/-- Changing every value keeps the canonical form. -/
theorem wf_mapVals (d : α) (f : α → α) (m : SMap α) (h : wf d m = true) : wf d (mapVals d f m) = true := by
  rw [wf_iff] at h ⊢
  unfold mapVals
  refine ⟨fun p hp => by simpa using (List.mem_filter.1 hp).2, ?_⟩
  have : (m.map fun p => (p.1, f p.2)).Pairwise (fun p q => p.1 < q.1) := by
    rw [List.pairwise_map]
    exact h.2
  exact this.filter _

/-- Equal canonical maps read equally, and two canonical maps that read equally are the same data. -/
theorem ext_of_wf (d : α) (m n : SMap α) (hm : wf d m = true) (hn : wf d n = true) (h : ∀ k, get d m k = get d n k) : m = n := by
  suffices H : ∀ lo, wfFrom d lo m = true → wfFrom d lo n = true → m = n from H 0 hm hn
  clear hm hn
  induction m generalizing n with
  | nil =>
    intro lo _ hn
    cases n with
    | nil => rfl
    | cons q r =>
      obtain ⟨i, v⟩ := q
      simp only [wfFrom, Bool.and_eq_true, decide_eq_true_eq] at hn
      have := h i
      simp [get] at this
      exact absurd this.symm hn.1.2
  | cons p r ih =>
    intro lo hm hn
    obtain ⟨i, v⟩ := p
    cases n with
    | nil =>
      simp only [wfFrom, Bool.and_eq_true, decide_eq_true_eq] at hm
      have := h i
      simp [get] at this
      exact absurd this hm.1.2
    | cons q t =>
      obtain ⟨j, w⟩ := q
      simp only [wfFrom, Bool.and_eq_true, decide_eq_true_eq] at hm hn
      have out (x : SMap α) (lo k : Nat) (hx : wfFrom d lo x = true) (hk : k < lo) : get d x k = d := by
        apply get_of_not_mem
        intro p hp
        have := ((wfFrom_iff d x lo).1 hx).1 p hp
        omega
      have hij : i = j := by
        rcases Nat.lt_trichotomy i j with hlt | heq | hgt
        · have := h i
          rw [show get d ((i, v) :: r) i = v by simp [get], show get d ((j, w) :: t) i = get d t i by simp [get, Nat.ne_of_gt hlt],
            out t (j + 1) i hn.2 (by omega)] at this
          exact absurd this hm.1.2
        · exact heq
        · have := h j
          rw [show get d ((j, w) :: t) j = w by simp [get], show get d ((i, v) :: r) j = get d r j by simp [get, Nat.ne_of_gt hgt],
            out r (i + 1) j hm.2 (by omega)] at this
          exact absurd this.symm hn.1.2
      subst hij
      have hv : v = w := by simpa [get] using h i
      subst hv
      congr 1
      refine ih t (fun k => ?_) (i + 1) hm.2 hn.2
      by_cases hk : k = i
      · subst hk; rw [out r (k + 1) k hm.2 (by omega), out t (k + 1) k hn.2 (by omega)]
      · simpa [get, Ne.symm hk] using h k

end Sys2Proof.SMap
end

