-- ==== Sys2Proof/Laws/Keeps.lean ====
section
/-! SUPPORT. The commands that change something the invariants read: each keeps every invariant all the same. -/

set_option linter.unusedSimpArgs false

namespace Sys2Proof.Machine

/-- A change that keeps the invariants: the queue stays, the security version does not fall, and limits, log and deep memory stay good. -/
def Keeps (s t : State) : Prop :=
  t.pending = s.pending ∧ s.svOf ≤ t.svOf ∧ (s.limitsOk = true → t.limitsOk = true) ∧ (s.logOk = true → t.logOk = true) ∧
  (s.deepWf = true → t.deepWf = true)

theorem Keeps.refl (s : State) : Keeps s s := ⟨rfl, Nat.le_refl _, id, id, id⟩

theorem Keeps.trans {s t u : State} (h : Keeps s t) (g : Keeps t u) : Keeps s u :=
  ⟨g.1.trans h.1, Nat.le_trans h.2.1 g.2.1, g.2.2.1 ∘ h.2.2.1, g.2.2.2.1 ∘ h.2.2.2.1, g.2.2.2.2 ∘ h.2.2.2.2⟩

theorem guarded_iff (s t : State) : t.guarded = s.guarded ↔
    t.host.limits = s.host.limits ∧ t.genhan.log = s.genhan.log ∧ t.deep = s.deep ∧ t.nv.minSv = s.nv.minSv ∧ t.pending = s.pending := by
  unfold State.guarded
  simp only [Prod.mk.injEq]

theorem limitsOk_of_limits {s t : State} (h : t.host.limits = s.host.limits) : t.limitsOk = s.limitsOk := by
  simp only [HostIf.limits, Prod.mk.injEq] at h
  simp [State.limitsOk, h]

theorem Keeps.of_guarded {s t : State} (h : t.guarded = s.guarded) : Keeps s t := by
  obtain ⟨h1, h2, h3, h4, h5⟩ := (guarded_iff s t).1 h
  refine ⟨h5, by simp [State.svOf, h4], fun k => ?_, fun k => ?_, fun k => ?_⟩
  · rw [limitsOk_of_limits h1]; exact k
  · simpa [State.logOk, h2] using k
  · simpa [State.deepWf, h3] using k

theorem Keeps.foldl {α : Type} (f : State → α → State) (h : ∀ s a, Keeps s (f s a)) (l : List α) (s : State) : Keeps s (l.foldl f s) := by
  induction l generalizing s with
  | nil => exact Keeps.refl s
  | cons a r ih => exact (h s a).trans (ih _)

/-! ### Deep memory -/

theorem keeps_deepWrite (s : State) (a : Nat) (b : Bytes) : Keeps s (s.deepWrite a b) :=
  ⟨rfl, Nat.le_refl _, id, id, fun h => SMap.wf_setRun _ _ _ _ h⟩

theorem keeps_deepPut (s : State) (o : Nat) (b : Bytes) : Keeps s (s.deepPut o b) := by
  unfold State.deepPut
  extract_lets u lo hi full ws v
  have hu : Keeps s u := Keeps.of_guarded (by simp +zetaDelta [u])
  split
  · exact hu.trans (keeps_deepWrite _ _ _)
  · exact (hu.trans (keeps_deepWrite u lo full)).trans (Keeps.of_guarded (by simp +zetaDelta [v]))

/-- An access at a home keeps the invariants, as far as it goes. -/
theorem keeps_homeOn (fuel : Nat) (s : State) (x : HomeOp) : Keeps s (s.homeOn fuel x) := by
  induction fuel generalizing s x with
  | zero => exact Keeps.refl s
  | succ k ih =>
    unfold State.homeOn
    have read : ∀ (a n : Nat), Keeps s (s.moonRead a n).1 := fun _ _ => Keeps.of_guarded (guarded_moonRead _ _ _)
    extract_lets busy
    split
    · extract_lets st want seg fail a c r
      have hf : ∀ t code o, Keeps t (fail t code o) := fun t code o => Keeps.of_guarded (guarded_readDone _ _ _ _ _ _ _)
      clear_value fail
      split
      · exact hf _ _ _
      split
      · exact hf _ _ _
      split
      · exact hf _ _ _
      split
      · exact hf _ _ _
      split
      · exact hf _ _ _
      split
      · split
        · exact Keeps.of_guarded (guarded_homeLater _ _)
        split
        · have hr : Keeps s r.1 := read _ _
          clear_value r
          split
          · exact hr.trans (hf _ _ _)
          · exact hr.trans (ih _ _)
        · exact Keeps.of_guarded (guarded_awaitPart _ _ _ _ _ _)
      split
      · exact hf _ _ _
      split
      · exact Keeps.of_guarded (guarded_readDone _ _ _ _ _ _ _)
      · exact ih _ _
    · split
      · exact Keeps.refl s
      · extract_lets st next c
        have ha : ∀ m t v, Keeps s (s.ackSegment m t v) := fun m t v => Keeps.of_guarded (guarded_ackSegment _ _ _ _)
        clear_value next
        split
        · exact (ha _ _ _).trans (ih _ _)
        split
        · exact (ha _ _ _).trans (ih _ _)
        split
        · exact Keeps.of_guarded (guarded_streamFault _ _ _ _ _ _)
        split
        · exact (ha _ _ _).trans (ih _ _)
        split
        · exact Keeps.of_guarded (guarded_homeLater _ _)
        split
        · exact (keeps_deepPut _ _ _).trans (ih _ _)
        · exact Keeps.of_guarded (guarded_awaitPart _ _ _ _ _ _)
    · extract_lets want a c r
      split
      · exact Keeps.of_guarded (guarded_dmaAnswer _ _ _ _ _)
      split
      · exact Keeps.of_guarded (guarded_dmaAnswer _ _ _ _ _)
      split
      · exact Keeps.of_guarded (guarded_homeLater _ _)
      split
      · have hr : Keeps s r.1 := read _ _
        clear_value r
        split
        · exact hr.trans (Keeps.of_guarded (guarded_dmaAnswer _ _ _ _ _))
        · exact (hr.trans (Keeps.of_guarded (guarded_countBytes _ _ _ _))).trans (ih _ _)
      · exact Keeps.of_guarded (guarded_awaitPart _ _ _ _ _ _)
    · extract_lets c
      split
      · exact Keeps.of_guarded (guarded_dmaAnswer _ _ _ _ _)
      split
      · exact Keeps.of_guarded (guarded_dmaAnswer _ _ _ _ _)
      split
      · exact Keeps.of_guarded (guarded_dmaAnswer _ _ _ _ _)
      split
      · exact Keeps.of_guarded (guarded_homeLater _ _)
      split
      · exact (keeps_deepPut _ _ _).trans (ih _ _)
      · exact Keeps.of_guarded (guarded_awaitPart _ _ _ _ _ _)

theorem keeps_wake (fuel : Nat) (s : State) : Keeps s (s.wake fuel) := by
  induction fuel generalizing s with
  | zero => exact Keeps.refl s
  | succ k ih =>
    unfold State.wake
    split
    · exact Keeps.refl s
    · exact ((Keeps.of_guarded (by simp)).trans (keeps_homeOn _ _ _)).trans (ih _)

theorem keeps_homeFree (s : State) (m : Nat) (act : State → State) (h : ∀ t, Keeps t (act t)) : Keeps s (s.homeFree m act) :=
  ((Keeps.of_guarded (guarded_setHome _ _ _)).trans (h _)).trans (keeps_wake _ _)

theorem keeps_readTile (s : State) (m : Nat) (h : BitVec 128) (txn : Option Nat) (tile : Nat) : Keeps s (s.readTile m h txn tile) := keeps_homeOn _ _ _

theorem keeps_demandAt (s : State) (m : Nat) (h : BitVec 128) (txn : Option Nat) : Keeps s (s.demandAt m h txn) := by
  unfold State.demandAt
  extract_lets n i t g t2 tile slots v
  split
  · exact Keeps.refl s
  split
  · split
    · exact Keeps.refl s
    · exact keeps_readTile _ _ _ _ _
  split
  · exact Keeps.of_guarded (guarded_streamCredit _ _ _ _)
  split
  · exact Keeps.of_guarded (guarded_streamFault _ _ _ _ _ _)
  split
  · exact Keeps.of_guarded (guarded_streamFault _ _ _ _ _ _)
  split
  · exact Keeps.of_guarded ((guarded_pumpStream _ _ _).trans ((guarded_putStream _ _ _ _).trans (guarded_countStack _ _ _ _)))
  · exact (Keeps.of_guarded (guarded_putStream _ _ _ _)).trans (keeps_readTile _ _ _ _ _)

theorem keeps_segmentAt (s : State) (m : Nat) (h : BitVec 128) (seg : Bytes) (inj : Bool) : Keeps s (s.segmentAt m h seg inj) := by
  unfold State.segmentAt
  extract_lets n t tile sg pos o good detail x1 v1 v2 x2 v3 held v4
  have h1 : v1.guarded = s.guarded := rfl
  have h2 : v2.guarded = s.guarded := (guarded_checkEvent _ _ _ _).trans h1
  have h3 : v3.guarded = s.guarded := by
    simp only [v3]
    clear_value v2
    split
    · rfl
    · split
      · exact h2
      · exact h2
  have h4 : v4.guarded = s.guarded := (guarded_putStream _ _ _ _).trans h3
  clear_value v3
  split
  · exact Keeps.refl s
  split
  · exact Keeps.of_guarded (guarded_ackSegment _ _ _ _)
  split
  · exact Keeps.of_guarded (guarded_streamFault _ _ _ _ _ _)
  split
  · exact Keeps.of_guarded (guarded_ackSegment _ _ _ _)
  split
  · exact Keeps.of_guarded ((guarded_putStream _ _ _ _).trans h3)
  split
  · exact Keeps.of_guarded ((guarded_streamFault _ _ _ _ _ _).trans h4)
  · exact (Keeps.of_guarded h4).trans (keeps_homeOn _ _ _)

theorem keeps_partCame (s : State) (m : Nat) (b : Bytes ⊕ Nat) : Keeps s (s.partCame m b) := by
  unfold State.partCame
  split
  · exact keeps_homeFree _ _ _ fun t => keeps_homeOn _ _ _
  · exact keeps_homeFree _ _ _ fun t => Keeps.of_guarded (by simp)
  · exact keeps_homeFree _ _ _ fun t => keeps_homeOn _ _ _
  · exact keeps_homeFree _ _ _ fun t => Keeps.of_guarded (by simp)
  · exact Keeps.refl s

theorem keeps_partWritten (s : State) (m n : Nat) : Keeps s (s.partWritten m n) := by
  unfold State.partWritten
  split
  · exact keeps_homeFree _ _ _ fun t => keeps_homeOn _ _ _
  · exact keeps_homeFree _ _ _ fun t => keeps_homeOn _ _ _
  · exact Keeps.refl s

theorem keeps_accessesLost (s : State) (m : Nat) : Keeps s (s.accessesLost m) := by
  unfold State.accessesLost
  extract_lets l t
  have ht : t.guarded = s.guarded := (guarded_foldl _ (fun _ _ => guarded_accessLost _ _) _ _).trans (by simp)
  refine (Keeps.of_guarded ht).trans (Keeps.foldl _ (fun u j => ?_) _ _)
  split
  · split
    · exact keeps_homeFree _ _ _ fun t => Keeps.of_guarded (guarded_accessLost _ _)
    · exact Keeps.refl u
  · exact Keeps.refl u

theorem keeps_dropStreams (s : State) (m : Nat) (gone : Bool) : Keeps s (s.dropStreams m gone) := by
  refine (keeps_accessesLost s m).trans (Keeps.of_guarded ?_)
  refine guarded_foldl _ (fun u p => ?_) _ _
  dsimp only
  (repeat' split)
  · rfl
  · simp
  · exact (guarded_foldl _ (fun _ _ => by simp) _ _).trans (by simp)

/-- What acts on an arrival keeps the invariants, with the arrival. -/
theorem keeps_onArrival (s : State) (f : Packet → Bool) (i : Nat) (act : State → State) (h : ∀ t, Keeps t (act t)) : Keeps s (s.onArrival f i act) := by
  unfold State.onArrival
  split
  · exact Keeps.refl s
  · exact (Keeps.of_guarded (guarded_arrived _ _ _)).trans (h _)

theorem keeps_atHome (s : State) (m : Nat) (f : Packet → Bool) (ok : Bool) (act : State → State) (h : ∀ t, Keeps t (act t)) :
    Keeps s (s.atHome m f ok act) := by
  unfold State.atHome
  split
  · exact Keeps.refl s
  · refine keeps_onArrival _ _ _ _ fun t => ?_
    split
    · exact h t
    · exact Keeps.refl t

theorem keeps_execDemand (m : Fin 4) (hdr : BitVec 128) (s u : State) (h : execDemand m hdr s = .next u) : Keeps s u := by
  rw [← Host.Outcome.next.inj h]
  exact keeps_atHome _ _ _ _ _ fun t => keeps_demandAt _ _ _ _

theorem keeps_execSegmentWrite (m : Fin 4) (hdr : BitVec 128) (seg : Bytes) (s u : State) (h : execSegmentWrite m hdr seg s = .next u) : Keeps s u := by
  rw [← Host.Outcome.next.inj h]
  exact keeps_atHome _ _ _ _ _ fun t => keeps_segmentAt _ _ _ _ _

theorem keeps_execPartRead (m : Fin 4) (hdr : BitVec 128) (s u : State) (h : execPartRead m hdr s = .next u) : Keeps s u := by
  rw [← Host.Outcome.next.inj h]
  refine keeps_onArrival _ _ _ _ fun t => ?_
  split
  · extract_lets r v
    have hv : v.guarded = t.guarded := by
      simp only [v, r]
      split <;> simp
    split
    · exact (Keeps.of_guarded hv).trans (keeps_partCame _ _ _)
    · exact Keeps.of_guarded hv
  · exact Keeps.refl t

theorem keeps_execPartWrite (m : Fin 4) (hdr : BitVec 128) (data : Bytes) (s u : State) (h : execPartWrite m hdr data s = .next u) : Keeps s u := by
  rw [← Host.Outcome.next.inj h]
  refine keeps_onArrival _ _ _ _ fun t => ?_
  split
  · dsimp only
    split
    · exact (keeps_deepPut _ _ _).trans (keeps_partWritten _ _ _)
    · exact keeps_deepPut _ _ _
  · exact Keeps.refl t

theorem keeps_execDmaRead (m : Fin 4) (hdr : BitVec 128) (s u : State) (h : execDmaRead m hdr s = .next u) : Keeps s u := by
  rw [← Host.Outcome.next.inj h]
  refine keeps_onArrival _ _ _ _ fun t => ?_
  split
  · exact keeps_homeOn _ _ _
  · exact Keeps.refl t

theorem keeps_execDmaWrite (m : Fin 4) (hdr : BitVec 128) (data : Bytes) (s u : State) (h : execDmaWrite m hdr data s = .next u) : Keeps s u := by
  rw [← Host.Outcome.next.inj h]
  refine keeps_onArrival _ _ _ _ fun t => ?_
  split
  · exact keeps_homeOn _ _ _
  · exact Keeps.refl t

theorem keeps_begin (s : State) (r : Fin 64) (tag : BitVec 16) (op : Nat) (go : State → Desc → State) (h : ∀ t d, Keeps t (go t d)) :
    Keeps s (s.begin r tag op go) := by
  unfold State.begin
  split
  · exact Keeps.refl s
  split
  · exact Keeps.of_guarded (by simp +zetaDelta)
  · exact (Keeps.of_guarded (by simp +zetaDelta)).trans (h _ _)

/-! ### Losses and starts of power -/

theorem keeps_fresh (s : State) (keep : Bool) : Keeps s (s.fresh keep) := by
  unfold State.fresh
  cases keep
  · exact ⟨rfl, Nat.le_refl _, fun _ => rfl, fun _ => rfl, fun _ => rfl⟩
  · exact ⟨rfl, Nat.le_refl _, fun _ => rfl, fun _ => rfl, id⟩

theorem keeps_startBringUp (s : State) (n : Nat) (keep : Bool) : Keeps s (s.startBringUp n keep) :=
  (keeps_fresh s keep).trans (Keeps.of_guarded (by simp +zetaDelta [State.startBringUp]))

theorem keeps_powerOff (s : State) : Keeps s s.powerOff := (Keeps.of_guarded (by simp +zetaDelta)).trans (keeps_fresh _ _)

theorem keeps_enterRetention (s : State) : Keeps s s.enterRetention := by
  unfold State.enterRetention
  extract_lets v moons t u
  have ht : Keeps s t := (Keeps.of_guarded (by simp +zetaDelta [v])).trans (keeps_fresh _ _)
  have hu : u.guarded = t.guarded := guarded_foldl _ (fun _ _ => by simp) _ _
  exact ht.trans (Keeps.of_guarded (by simp +zetaDelta [hu]))

theorem keeps_overVoltage (s : State) : Keeps s s.overVoltage := by
  unfold State.overVoltage
  extract_lets t
  have ht : Keeps s t := (Keeps.of_guarded (by simp +zetaDelta)).trans (keeps_powerOff _)
  exact ht.trans (Keeps.of_guarded (by simp +zetaDelta))

theorem keeps_execInputInRange (v : Nat) (s u : State) (h : execInputInRange v s = .next u) : Keeps s u := by
  unfold execInputInRange at h
  split at h
  · extract_lets x t at h
    have ht : Keeps s t := Keeps.of_guarded rfl
    clear_value t
    rw [← Host.Outcome.next.inj h]
    split
    · exact ht
    · exact ht.trans (keeps_startBringUp _ _ _)
  · rw [← Host.Outcome.next.inj h]; exact Keeps.refl s

theorem keeps_execInputLoss (c : Fin 4) (s u : State) (h : execInputLoss c s = .next u) : Keeps s u := by
  unfold execInputLoss at h
  extract_lets t at h
  have ht : Keeps s t := (Keeps.of_guarded (by simp +zetaDelta)).trans (keeps_powerOff _)
  rw [← Host.Outcome.next.inj h]
  exact ht.trans (Keeps.of_guarded (by simp +zetaDelta))

theorem keeps_execOverVoltage (v : Nat) (s u : State) (h : execOverVoltage v s = .next u) : Keeps s u := by
  rw [← Host.Outcome.next.inj h]
  split
  · exact keeps_overVoltage s
  · exact Keeps.refl s

theorem keeps_execSurge (p d : Nat) (s u : State) (h : execSurge p d s = .next u) : Keeps s u := by
  unfold execSurge at h
  (repeat' split at h) <;> rw [← Host.Outcome.next.inj h]
  · exact Keeps.refl s
  · exact keeps_overVoltage s
  · exact Keeps.of_guarded (by simp +zetaDelta)

theorem keeps_execInputReversed (v : Nat) (s u : State) (h : execInputReversed v s = .next u) : Keeps s u := by
  unfold execInputReversed at h
  extract_lets t at h
  have ht : Keeps s t := by
    simp only [t]
    split
    · exact (Keeps.of_guarded (guarded_recordLoss _ _)).trans (keeps_powerOff _)
    · exact Keeps.refl s
  clear_value t
  split at h
  · exact absurd h (by simp)
  · rw [← Host.Outcome.next.inj h]
    exact ht.trans (Keeps.of_guarded rfl)

theorem keeps_execOrderlyStop (v : Nat) (s u : State) (h : execOrderlyStop v s = .next u) : Keeps s u := by
  unfold execOrderlyStop at h
  split at h
  · extract_lets before x0 t0 t1 p1 n1 drain t2 r x2 x3 t3 t4 at h
    have h0 : t0.guarded = s.guarded := rfl
    clear_value t0
    have h2 : t2.guarded = s.guarded := (guarded_raiseEvent _ _ _ _).trans h0
    clear_value t2
    have h3 : t3.guarded = s.guarded := h2
    clear_value t3
    have h4 : Keeps s t4 := Keeps.of_guarded ((guarded_stopFor _ _).trans h3)
    clear_value t4
    have h1 : Keeps s t1 := (Keeps.of_guarded ((guarded_offlineAll _).trans h0)).trans (keeps_fresh _ _)
    clear_value t1
    split at h
    · rw [← Host.Outcome.next.inj h]
      exact h1.trans (Keeps.of_guarded rfl)
    · rw [← Host.Outcome.next.inj h]
      split
      · exact h4.trans (Keeps.of_guarded rfl)
      · exact h4.trans (keeps_enterRetention _)
  · rw [← Host.Outcome.next.inj h]; exact Keeps.refl s

theorem keeps_execPowerDrainDone (s u : State) (h : execPowerDrainDone s = .next u) : Keeps s u := by
  unfold execPowerDrainDone at h
  extract_lets t1 x1 t2 t3 owed x2 t4 at h
  have h2 : t2.guarded = s.guarded := guarded_stopDrain s
  split at h
  · split at h
    · rw [← Host.Outcome.next.inj h]
      have h3 : Keeps s t3 := (Keeps.of_guarded h2).trans (keeps_enterRetention _)
      split
      · exact h3.trans (keeps_startBringUp _ _ _)
      · exact h3
    · rw [← Host.Outcome.next.inj h]
      have h4 : t4.guarded = s.guarded := h2
      refine Keeps.of_guarded ((guarded_foldl _ (fun a b => ?_) _ _).trans h4)
      (repeat' split) <;> simp
  · rw [← Host.Outcome.next.inj h]; exact Keeps.refl s

theorem keeps_execMemory (v f : BitVec 16) (s u : State) (h : execMemory v f s = .next u) : Keeps s u := by
  unfold execMemory at h
  split at h
  · extract_lets bad trained kept x1 x2 x3 t at h
    have ht : Keeps s t := by
      refine ⟨rfl, Nat.le_refl _, id, id, fun k => ?_⟩
      simp only [State.deepWf, t]
      split
      · exact k
      · rfl
    clear_value t
    rw [← Host.Outcome.next.inj h]
    exact ht.trans (Keeps.of_guarded ((guarded_phaseDone _ _ _).trans (guarded_beforeLinks _)))
  · rw [← Host.Outcome.next.inj h]; exact Keeps.refl s

theorem keeps_execHostReady (s u : State) (h : execHostReady s = .next u) : Keeps s u := by
  unfold execHostReady at h
  extract_lets t1 x1 x2 t2 at h
  split at h
  · rw [← Host.Outcome.next.inj h]
    have h1 : Keeps s t1 := Keeps.of_guarded (guarded_phaseDone _ _ _)
    have h2 : Keeps t1 t2 := by
      refine ⟨rfl, ?_, id, id, id⟩
      show t1.nv.minSv.toNat ≤ (if t1.nv.minSv < t1.boot.sv then t1.boot.sv else t1.nv.minSv).toNat
      split
      · next hlt => exact Nat.le_of_lt hlt
      · exact Nat.le_refl _
    exact (h1.trans h2).trans (Keeps.of_guarded (by simp))
  · rw [← Host.Outcome.next.inj h]; exact Keeps.refl s

/-! ### Moon dies that go off -/

theorem keeps_execQuiesce (p : Part) (s u : State) (h : execQuiesce p s = .next u) : Keeps s u := by
  rw [← Host.Outcome.next.inj h]
  refine (Keeps.of_guarded (guarded_enterQuiesce s p)).trans ?_
  split
  · refine Keeps.of_guarded (guarded_foldl _ (fun t j => ?_) _ _)
    dsimp only
    split
    · rfl
    · exact guarded_takeOffline _ _
  · exact keeps_dropStreams _ _ _
  · exact Keeps.refl _

theorem keeps_loseMoon (s : State) (m : Nat) : Keeps s (s.loseMoon m) := by
  unfold State.loseMoon
  extract_lets x t
  have ht : t.guarded = s.guarded := rfl
  clear_value t
  exact ((Keeps.of_guarded ht).trans (keeps_dropStreams _ _ _)).trans (Keeps.of_guarded ((guarded_stopFor _ _).trans (guarded_remapRequired _ _ _ _)))

theorem keeps_domainLost (s : State) (d : Fin 61) (cause : Nat) : Keeps s (s.domainLost d cause) := by
  unfold State.domainLost
  extract_lets was t1 t2
  have h1 : t1.guarded = s.guarded := guarded_raiseEvent _ _ _ _
  clear_value t1
  have h2 : t2.guarded = t1.guarded := guarded_modDomain _ _ _
  clear_value t2
  have h3 : Keeps s t2 := Keeps.of_guarded (h2.trans h1)
  split
  · exact Keeps.of_guarded h1
  refine h3.trans ?_
  split
  · exact Keeps.of_guarded (guarded_loseHalf _ _)
  split
  · exact Keeps.of_guarded (guarded_loseLink _ _)
  split
  · exact keeps_loseMoon _ _
  · exact Keeps.of_guarded (guarded_loseHost _)

theorem keeps_execDomainFault (d : Fin 61) (cause : Fin 3) (s u : State) (h : execDomainFault d cause s = .next u) : Keeps s u := by
  rw [← Host.Outcome.next.inj h]; exact keeps_domainLost _ _ _

theorem keeps_execThermalTrip (d : Fin 61) (s u : State) (h : execThermalTrip d s = .next u) : Keeps s u := by
  rw [← Host.Outcome.next.inj h]; exact keeps_domainLost _ _ _

/-! ### The fault log -/

theorem keeps_logged (s : State) (l : List (BitVec 256)) (n : BitVec 8) (hl : s.genhan.log.length ≤ 64 → l.length ≤ 64) :
    Keeps s { s with genhan := { s.genhan with log := l, numOr := n } } :=
  ⟨rfl, Nat.le_refl _, id, fun h => by simpa [State.logOk] using hl (by simpa [State.logOk] using h), id⟩

theorem keeps_takeReport (s : State) (r : Report) : Keeps s (s.takeReport r) := by
  unfold State.takeReport
  extract_lets e code x t1 t2
  have h1 : Keeps s t1 := by
    simp only [t1]
    split
    · exact Keeps.refl s
    · refine keeps_logged s _ s.genhan.numOr fun hl => ?_
      split
      · rw [List.length_append, List.length_singleton]; omega
      · exact hl
  clear_value t1
  have h2 : t2.guarded = t1.guarded := guarded_reportIncident _ _
  clear_value t2
  have hj : ∀ j : Job, ({ t2 with job := j } : State).guarded = t2.guarded := fun _ => rfl
  refine (h1.trans (Keeps.of_guarded h2)).trans (Keeps.of_guarded ?_)
  split
  · rfl
  split
  · split
    · rw [guarded_jobStep, guarded_injectStop, guarded_haltJob]
    · rw [guarded_jobStep, guarded_injectStop, guarded_haltJob]
  · split
    · exact (guarded_jobStep _).trans (hj _)
    · rfl

theorem keeps_execFaultReport (s u : State) (h : execFaultReport s = .next u) : Keeps s u := by
  unfold execFaultReport at h
  split at h <;> rw [← Host.Outcome.next.inj h]
  · exact Keeps.refl s
  · exact (Keeps.of_guarded rfl).trans (keeps_takeReport _ _)

theorem keeps_armJob (s : State) (d : Desc) : Keeps s (s.armJob d) := by
  unfold State.armJob
  extract_lets first x t1 t2 y t3 t4
  have h1 : Keeps s t1 := by
    simp only [t1]
    split
    · exact keeps_logged s [] 0 (fun _ => by simp)
    · exact Keeps.refl s
  clear_value t1
  have h2 : t2.guarded = t1.guarded := by
    simp only [t2]
    split
    · exact guarded_foldl _ (fun _ _ => by simp) _ _
    · rfl
  clear_value t2
  have h3 : t3.guarded = t2.guarded := rfl
  clear_value t3
  have h4 : t4.guarded = t1.guarded := (guarded_setJob _ _ _ _ _ _).trans (h3.trans h2)
  clear_value t4
  refine h1.trans (Keeps.of_guarded ?_)
  rw [guarded_armAt]
  split
  · exact (guarded_transferIn _ _).trans h4
  · exact h4

theorem keeps_execArmLaunch (r : Fin 64) (tag : BitVec 16) (s u : State) (h : execArmLaunch r tag s = .next u) : Keeps s u := by
  cases h
  refine keeps_begin _ _ _ _ _ fun t d => ?_
  (repeat' split)
  · exact Keeps.of_guarded (by simp +zetaDelta)
  · exact Keeps.of_guarded (by simp +zetaDelta)
  · exact Keeps.of_guarded (by simp +zetaDelta)
  · exact (keeps_armJob t d).trans (Keeps.of_guarded (by simp +zetaDelta))

/-! ### Register writes and resets -/

theorem limitsOk_iff (s : State) : s.limitsOk = true ↔ 10 ≤ s.host.powerLimit.toNat ∧ s.host.powerLimit.toNat ≤ 270 ∧ 1 ≤ s.host.maxDefer.toNat ∧
    s.host.maxDefer.toNat ≤ 720 ∧ s.host.testPolicy ≠ 3 := by
  simp [State.limitsOk, and_assoc]

theorem clampNat_range (w lo hi x : Nat) (h : lo ≤ hi) (hw : hi < 2 ^ w) :
    lo ≤ (BitVec.ofNat w (clampNat lo hi x)).toNat ∧ (BitVec.ofNat w (clampNat lo hi x)).toNat ≤ hi := by
  have hc : clampNat lo hi x ≤ hi := by unfold clampNat; omega
  have hl : lo ≤ clampNat lo hi x := by unfold clampNat; omega
  rw [BitVec.toNat_ofNat, Nat.mod_eq_of_lt (by omega)]
  exact ⟨hl, hc⟩

/-- A word of the job control block keeps the limits in their ranges. -/
theorem keeps_writeJobWord (s : State) (o : Nat) (v : BitVec 32) : Keeps s (s.writeJobWord o v) := by
  unfold State.writeJobWord
  split
  · exact Keeps.of_guarded (guarded_clearEventLost _ _)
  · split
    · exact Keeps.refl s
    · exact Keeps.of_guarded rfl
  · refine ⟨rfl, Nat.le_refl _, fun h => ?_, id, id⟩
    rw [limitsOk_iff] at h ⊢
    have hc := clampNat_range 9 10 270 (bitsOf v.toNat 8 0) (by omega) (by omega)
    exact ⟨hc.1, hc.2, h.2.2⟩
  · refine ⟨rfl, Nat.le_refl _, fun h => ?_, id, id⟩
    rw [limitsOk_iff] at h ⊢
    have hc := clampNat_range 10 1 720 (bitsOf v.toNat 25 16) (by omega) (by omega)
    refine ⟨h.1, h.2.1, hc.1, hc.2, ?_⟩
    show (if v.extractLsb' 0 2 = 3 then 0 else v.extractLsb' 0 2) ≠ 3
    split
    · decide
    · assumption
  · exact Keeps.refl s

theorem keeps_writeBar0 (s : State) (o : Nat) (v : BitVec 64) (lo hi : Bool) : Keeps s (s.writeBar0 o v lo hi) := by
  unfold State.writeBar0
  extract_lets whole words
  have hw : ∀ f : State → Nat → BitVec 32 → State, (∀ t a w, Keeps t (f t a w)) → ∀ t a, Keeps t (words f t a) := by
    intro f hf t a
    simp only [words]
    cases lo <;> cases hi
    · exact Keeps.refl t
    · exact hf _ _ _
    · exact hf _ _ _
    · exact (hf _ _ _).trans (hf _ _ _)
  clear_value words
  split
  · split
    · split
      · exact Keeps.of_guarded (guarded_writeArg _ _ _)
      · exact Keeps.refl s
    · exact hw _ (fun t a w => Keeps.of_guarded (guarded_writeMboxWord _ _ _)) _ _
  split
  · exact Keeps.refl s
  split
  · split
    · split
      · exact Keeps.of_guarded (guarded_writeWindow _ _ _)
      · exact Keeps.refl s
    · exact hw _ (fun t a w => keeps_writeJobWord _ _ _) _ _
  split
  · split
    · split
      · exact Keeps.of_guarded (guarded_writeRingBase _ _ _ _)
      · exact Keeps.refl s
    · exact hw _ (fun t a w => Keeps.of_guarded (guarded_writeRingWord _ _ _ _)) _ _
  split
  · split
    · exact Keeps.of_guarded (guarded_writeSelection _ _ _ _ _ _)
    · exact Keeps.refl s
  split
  · exact hw _ (fun t a w => Keeps.of_guarded (guarded_writeMsix _ _ _ _)) _ _
  split
  · exact Keeps.of_guarded (guarded_writeSlot _ _ _ _ _)
  · exact Keeps.refl s

theorem keeps_execRegisterWrite (o : BitVec 26) (w : Bool) (v : BitVec 64) (s u : State) (h : execRegisterWrite o w v s = .next u) : Keeps s u := by
  unfold execRegisterWrite at h
  extract_lets n at h
  split at h
  · rw [← Host.Outcome.next.inj h]; exact Keeps.refl s
  split at h
  · rw [← Host.Outcome.next.inj h]
    split
    · exact keeps_writeBar0 _ _ _ _ _
    · exact Keeps.refl s
  split at h
  · rw [← Host.Outcome.next.inj h]; exact keeps_writeBar0 _ _ _ _ _
  split at h
  · rw [← Host.Outcome.next.inj h]; exact keeps_writeBar0 _ _ _ _ _
  · rw [← Host.Outcome.next.inj h]; exact Keeps.refl s

theorem keeps_jobRegsReset (s : State) : Keeps s s.jobRegsReset := ⟨rfl, Nat.le_refl _, id, fun _ => rfl, id⟩

theorem keeps_resetJob (s : State) : Keeps s s.resetJob := by
  unfold State.resetJob
  extract_lets live t u
  have ht : t.guarded = s.guarded := by
    simp only [t]
    split
    · exact (guarded_flushDigests _).trans (guarded_injectStop _)
    · rfl
  clear_value t
  have hu : u.guarded = t.guarded := (guarded_incidentsUndecided _).trans (guarded_clearCounters _)
  clear_value u
  exact (Keeps.of_guarded ((guarded_discardJob _ _ _).trans (hu.trans ht))).trans (keeps_jobRegsReset _)

theorem keeps_afterReset (s : State) : Keeps s (s.modHost HostIf.afterReset) := ⟨rfl, Nat.le_refl _, fun _ => rfl, id, id⟩

theorem keeps_noLoss (s : State) : Keeps s (s.modHost HostIf.noLoss) := Keeps.of_guarded rfl

theorem keeps_functionReset (s : State) : Keeps s s.functionReset := by
  unfold State.functionReset
  extract_lets had t1 t2 t3
  have h1 : Keeps s t1 := by
    refine Keeps.trans ?_ (keeps_afterReset _)
    split
    · exact Keeps.of_guarded (guarded_clearSlots _)
    · exact Keeps.refl s
  clear_value t1
  have h2 : t2.guarded = t1.guarded := by
    simp only [t2]
    split
    · exact guarded_newNonce _
    · rfl
  clear_value t2
  have h3 : Keeps s t3 := (h1.trans (Keeps.of_guarded h2)).trans (Keeps.of_guarded (guarded_dropReplies _))
  clear_value t3
  refine Keeps.trans ?_ (keeps_noLoss _)
  split
  · exact h3.trans (keeps_resetJob _)
  · exact h3

theorem keeps_execFlr (s u : State) (h : execFlr s = .next u) : Keeps s u := by
  rw [← Host.Outcome.next.inj h]
  split
  · exact keeps_functionReset s
  · exact Keeps.refl s

theorem keeps_execPerst (a : Bool) (s u : State) (h : execPerst a s = .next u) : Keeps s u := by
  unfold execPerst at h
  (repeat' split at h) <;> rw [← Host.Outcome.next.inj h]
  · exact Keeps.refl s
  · exact (Keeps.of_guarded (by simp +zetaDelta)).trans (keeps_functionReset _)
  · exact Keeps.of_guarded (by simp +zetaDelta)

theorem keeps_packageReset (s : State) : Keeps s s.packageReset := by
  unfold State.packageReset
  extract_lets t1 t2 t3
  have h1 : t1.guarded = s.guarded := guarded_foldl _ (fun _ _ => guarded_sendOffline _ _ _) _ _
  clear_value t1
  have h2 : t2.guarded = t1.guarded := (guarded_flushPart _ _).trans (guarded_quiesceEvent _ _ _)
  clear_value t2
  have h3 : t3.guarded = t2.guarded := (guarded_incidentsUndecided _).trans (guarded_clearSlots _)
  clear_value t3
  exact (Keeps.of_guarded (h3.trans (h2.trans h1))).trans (keeps_startBringUp _ _ _)

theorem keeps_execPackageReset (s u : State) (h : execPackageReset s = .next u) : Keeps s u := by
  rw [← Host.Outcome.next.inj h]
  split
  · exact keeps_packageReset s
  · exact Keeps.refl s

theorem keeps_execPkgResetPin (n : Nat) (s u : State) (h : execPkgResetPin n s = .next u) : Keeps s u := by
  unfold execPkgResetPin at h
  split at h
  · rw [← Host.Outcome.next.inj h]; exact Keeps.refl s
  split at h
  · rw [← Host.Outcome.next.inj h]; exact keeps_packageReset s
  · rw [← Host.Outcome.next.inj h]
    have hd : Keeps s s.draw.2 := Keeps.of_guarded (by simp +zetaDelta)
    split
    · exact hd.trans (keeps_packageReset _)
    · exact hd

end Sys2Proof.Machine
end

