-- ==== Sys2Proof/Laws/State.lean ====
section
/-! SUPPORT. What each named update of the state leaves alone, one lemma for each field, and reading back what was written. -/

namespace Sys2Proof.Machine

/-! ### Keys -/

theorem clusterKey_inj {k j : ClusterAt} (h : clusterKey k = clusterKey j) : k = j := by
  obtain ⟨d, p⟩ := k
  obtain ⟨e, q⟩ := j
  simp only [clusterKey] at h
  have hp := p.isLt
  have hq := q.isLt
  have h1 : d.val = e.val := by omega
  have h2 : p.val = q.val := by omega
  simp [Fin.ext h1, Fin.ext h2]

theorem coreKey_inj {c e : CoreAt} (h : coreKey c = coreKey e) : c = e := by
  obtain ⟨d, p, i⟩ := c
  obtain ⟨d', p', i'⟩ := e
  simp only [coreKey] at h
  have h1 := p.isLt
  have h2 := p'.isLt
  have h3 := i.isLt
  have h4 := i'.isLt
  have e3 : i.val = i'.val := by omega
  have e1 : d.val = d'.val := by omega
  have e2 : p.val = p'.val := by omega
  simp [Fin.ext e1, Fin.ext e2, Fin.ext e3]

/-! ### Reading back -/

@[simp] theorem State.core_putCore_same (s : State) (c : CoreAt) (x : Core) : (s.putCore c x).core c = x := SMap.get_set_same _ _ _ _
theorem State.core_putCore_ne (s : State) {c e : CoreAt} (x : Core) (h : e ≠ c) : (s.putCore c x).core e = s.core e :=
  SMap.get_set_ne _ _ _ fun k => h (coreKey_inj k)
@[simp] theorem State.cluster_putCluster_same (s : State) (k : ClusterAt) (x : Cluster) : (s.putCluster k x).cluster k = x := SMap.get_set_same _ _ _ _
theorem State.cluster_putCluster_ne (s : State) {k j : ClusterAt} (x : Cluster) (h : j ≠ k) : (s.putCluster k x).cluster j = s.cluster j :=
  SMap.get_set_ne _ _ _ fun e => h (clusterKey_inj e)
@[simp] theorem State.core_modCore_same (s : State) (c : CoreAt) (f : Core → Core) : (s.modCore c f).core c = f (s.core c) := SMap.get_set_same _ _ _ _
theorem State.core_modCore_ne (s : State) {c e : CoreAt} (f : Core → Core) (h : e ≠ c) : (s.modCore c f).core e = s.core e :=
  SMap.get_set_ne _ _ _ fun k => h (coreKey_inj k)
@[simp] theorem State.cluster_modCluster_same (s : State) (k : ClusterAt) (f : Cluster → Cluster) : (s.modCluster k f).cluster k = f (s.cluster k) :=
  SMap.get_set_same _ _ _ _
theorem State.cluster_modCluster_ne (s : State) {k j : ClusterAt} (f : Cluster → Cluster) (h : j ≠ k) : (s.modCluster k f).cluster j = s.cluster j :=
  SMap.get_set_ne _ _ _ fun e => h (clusterKey_inj e)
@[simp] theorem State.cluster_putCore (s : State) (c : CoreAt) (x : Core) (k : ClusterAt) : (s.putCore c x).cluster k = s.cluster k := rfl
@[simp] theorem State.core_putCluster (s : State) (k : ClusterAt) (x : Cluster) (c : CoreAt) : (s.putCluster k x).core c = s.core c := rfl
@[simp] theorem State.cluster_modCore (s : State) (c : CoreAt) (f : Core → Core) (k : ClusterAt) : (s.modCore c f).cluster k = s.cluster k := rfl
@[simp] theorem State.core_modCluster (s : State) (k : ClusterAt) (f : Cluster → Cluster) (c : CoreAt) : (s.modCluster k f).core c = s.core c := rfl
@[simp] theorem State.ring_putRing_same (s : State) (p : Nat) (r : Ring) : (s.putRing p r).ring p = r := SMap.get_set_same _ _ _ _
theorem State.ring_putRing_ne (s : State) {p q : Nat} (r : Ring) (h : q ≠ p) : (s.putRing p r).ring q = s.ring q := SMap.get_set_ne _ _ _ h
@[simp] theorem State.ring_modRing_same (s : State) (p : Nat) (f : Ring → Ring) : (s.modRing p f).ring p = f (s.ring p) := SMap.get_set_same _ _ _ _
theorem State.ring_modRing_ne (s : State) {p q : Nat} (f : Ring → Ring) (h : q ≠ p) : (s.modRing p f).ring q = s.ring q := SMap.get_set_ne _ _ _ h
@[simp] theorem State.domain_modDomain_same (s : State) (d : Fin 61) (f : Domain → Domain) : (s.modDomain d f).domain d = f (s.domain d) :=
  SMap.get_set_same _ _ _ _
theorem State.domain_modDomain_ne (s : State) {d e : Fin 61} (f : Domain → Domain) (h : e ≠ d) : (s.modDomain d f).domain e = s.domain e :=
  SMap.get_set_ne _ _ _ fun k => h (Fin.ext k)
@[simp] theorem State.port_putPort_same (s : State) (i : Nat) (p : Port) : (s.putPort i p).port i = p := SMap.get_set_same _ _ _ _
theorem State.port_putPort_ne (s : State) {i j : Nat} (p : Port) (h : j ≠ i) : (s.putPort i p).port j = s.port j := SMap.get_set_ne _ _ _ h
@[simp] theorem State.port_modPort_same (s : State) (i : Nat) (f : Port → Port) : (s.modPort i f).port i = f (s.port i) := SMap.get_set_same _ _ _ _
theorem State.port_modPort_ne (s : State) {i j : Nat} (f : Port → Port) (h : j ≠ i) : (s.modPort i f).port j = s.port j := SMap.get_set_ne _ _ _ h
@[simp] theorem State.stream_putStream_same (s : State) (m n : Nat) (t : Stream) : (s.putStream m n t).stream m n = t := SMap.get_set_same _ _ _ _

/-! ### Frames -/

@[simp] theorem State.putCluster_pending (s : State) (k : ClusterAt) (x : Cluster) : (s.putCluster k x).pending = s.pending := rfl
@[simp] theorem State.putCluster_cores (s : State) (k : ClusterAt) (x : Cluster) : (s.putCluster k x).cores = s.cores := rfl
@[simp] theorem State.putCluster_mesh (s : State) (k : ClusterAt) (x : Cluster) : (s.putCluster k x).mesh = s.mesh := rfl
@[simp] theorem State.putCluster_spent (s : State) (k : ClusterAt) (x : Cluster) : (s.putCluster k x).spent = s.spent := rfl
@[simp] theorem State.putCluster_rr (s : State) (k : ClusterAt) (x : Cluster) : (s.putCluster k x).rr = s.rr := rfl
@[simp] theorem State.putCluster_cuts (s : State) (k : ClusterAt) (x : Cluster) : (s.putCluster k x).cuts = s.cuts := rfl
@[simp] theorem State.putCluster_waiting (s : State) (k : ClusterAt) (x : Cluster) : (s.putCluster k x).waiting = s.waiting := rfl
@[simp] theorem State.putCluster_repairMap (s : State) (k : ClusterAt) (x : Cluster) : (s.putCluster k x).repairMap = s.repairMap := rfl
@[simp] theorem State.putCluster_repairSeq (s : State) (k : ClusterAt) (x : Cluster) : (s.putCluster k x).repairSeq = s.repairSeq := rfl
@[simp] theorem State.putCluster_deep (s : State) (k : ClusterAt) (x : Cluster) : (s.putCluster k x).deep = s.deep := rfl
@[simp] theorem State.putCluster_deepErr (s : State) (k : ClusterAt) (x : Cluster) : (s.putCluster k x).deepErr = s.deepErr := rfl
@[simp] theorem State.putCluster_streams (s : State) (k : ClusterAt) (x : Cluster) : (s.putCluster k x).streams = s.streams := rfl
@[simp] theorem State.putCluster_homes (s : State) (k : ClusterAt) (x : Cluster) : (s.putCluster k x).homes = s.homes := rfl
@[simp] theorem State.putCluster_homeWait (s : State) (k : ClusterAt) (x : Cluster) : (s.putCluster k x).homeWait = s.homeWait := rfl
@[simp] theorem State.putCluster_ports (s : State) (k : ClusterAt) (x : Cluster) : (s.putCluster k x).ports = s.ports := rfl
@[simp] theorem State.putCluster_conns (s : State) (k : ClusterAt) (x : Cluster) : (s.putCluster k x).conns = s.conns := rfl
@[simp] theorem State.putCluster_croutes (s : State) (k : ClusterAt) (x : Cluster) : (s.putCluster k x).croutes = s.croutes := rfl
@[simp] theorem State.putCluster_time (s : State) (k : ClusterAt) (x : Cluster) : (s.putCluster k x).time = s.time := rfl
@[simp] theorem State.putCluster_cascadeId (s : State) (k : ClusterAt) (x : Cluster) : (s.putCluster k x).cascadeId = s.cascadeId := rfl
@[simp] theorem State.putCluster_pkg (s : State) (k : ClusterAt) (x : Cluster) : (s.putCluster k x).pkg = s.pkg := rfl
@[simp] theorem State.putCluster_expect (s : State) (k : ClusterAt) (x : Cluster) : (s.putCluster k x).expect = s.expect := rfl
@[simp] theorem State.putCluster_domains (s : State) (k : ClusterAt) (x : Cluster) : (s.putCluster k x).domains = s.domains := rfl
@[simp] theorem State.putCluster_power (s : State) (k : ClusterAt) (x : Cluster) : (s.putCluster k x).power = s.power := rfl
@[simp] theorem State.putCluster_boot (s : State) (k : ClusterAt) (x : Cluster) : (s.putCluster k x).boot = s.boot := rfl
@[simp] theorem State.putCluster_nv (s : State) (k : ClusterAt) (x : Cluster) : (s.putCluster k x).nv = s.nv := rfl
@[simp] theorem State.putCluster_job (s : State) (k : ClusterAt) (x : Cluster) : (s.putCluster k x).job = s.job := rfl
@[simp] theorem State.putCluster_ckpt (s : State) (k : ClusterAt) (x : Cluster) : (s.putCluster k x).ckpt = s.ckpt := rfl
@[simp] theorem State.putCluster_genhan (s : State) (k : ClusterAt) (x : Cluster) : (s.putCluster k x).genhan = s.genhan := rfl
@[simp] theorem State.putCluster_host (s : State) (k : ClusterAt) (x : Cluster) : (s.putCluster k x).host = s.host := rfl
@[simp] theorem State.putCluster_ctr (s : State) (k : ClusterAt) (x : Cluster) : (s.putCluster k x).ctr = s.ctr := rfl
@[simp] theorem State.putCluster_out (s : State) (k : ClusterAt) (x : Cluster) : (s.putCluster k x).out = s.out := rfl
@[simp] theorem State.putCluster_freeCtr (s : State) (k : ClusterAt) (x : Cluster) : (s.putCluster k x).freeCtr = s.freeCtr := rfl
@[simp] theorem State.putCluster_emitted (s : State) (k : ClusterAt) (x : Cluster) : (s.putCluster k x).emitted = s.emitted := rfl

@[simp] theorem State.putCore_pending (s : State) (c : CoreAt) (x : Core) : (s.putCore c x).pending = s.pending := rfl
@[simp] theorem State.putCore_clusters (s : State) (c : CoreAt) (x : Core) : (s.putCore c x).clusters = s.clusters := rfl
@[simp] theorem State.putCore_mesh (s : State) (c : CoreAt) (x : Core) : (s.putCore c x).mesh = s.mesh := rfl
@[simp] theorem State.putCore_spent (s : State) (c : CoreAt) (x : Core) : (s.putCore c x).spent = s.spent := rfl
@[simp] theorem State.putCore_rr (s : State) (c : CoreAt) (x : Core) : (s.putCore c x).rr = s.rr := rfl
@[simp] theorem State.putCore_cuts (s : State) (c : CoreAt) (x : Core) : (s.putCore c x).cuts = s.cuts := rfl
@[simp] theorem State.putCore_waiting (s : State) (c : CoreAt) (x : Core) : (s.putCore c x).waiting = s.waiting := rfl
@[simp] theorem State.putCore_repairMap (s : State) (c : CoreAt) (x : Core) : (s.putCore c x).repairMap = s.repairMap := rfl
@[simp] theorem State.putCore_repairSeq (s : State) (c : CoreAt) (x : Core) : (s.putCore c x).repairSeq = s.repairSeq := rfl
@[simp] theorem State.putCore_deep (s : State) (c : CoreAt) (x : Core) : (s.putCore c x).deep = s.deep := rfl
@[simp] theorem State.putCore_deepErr (s : State) (c : CoreAt) (x : Core) : (s.putCore c x).deepErr = s.deepErr := rfl
@[simp] theorem State.putCore_streams (s : State) (c : CoreAt) (x : Core) : (s.putCore c x).streams = s.streams := rfl
@[simp] theorem State.putCore_homes (s : State) (c : CoreAt) (x : Core) : (s.putCore c x).homes = s.homes := rfl
@[simp] theorem State.putCore_homeWait (s : State) (c : CoreAt) (x : Core) : (s.putCore c x).homeWait = s.homeWait := rfl
@[simp] theorem State.putCore_ports (s : State) (c : CoreAt) (x : Core) : (s.putCore c x).ports = s.ports := rfl
@[simp] theorem State.putCore_conns (s : State) (c : CoreAt) (x : Core) : (s.putCore c x).conns = s.conns := rfl
@[simp] theorem State.putCore_croutes (s : State) (c : CoreAt) (x : Core) : (s.putCore c x).croutes = s.croutes := rfl
@[simp] theorem State.putCore_time (s : State) (c : CoreAt) (x : Core) : (s.putCore c x).time = s.time := rfl
@[simp] theorem State.putCore_cascadeId (s : State) (c : CoreAt) (x : Core) : (s.putCore c x).cascadeId = s.cascadeId := rfl
@[simp] theorem State.putCore_pkg (s : State) (c : CoreAt) (x : Core) : (s.putCore c x).pkg = s.pkg := rfl
@[simp] theorem State.putCore_expect (s : State) (c : CoreAt) (x : Core) : (s.putCore c x).expect = s.expect := rfl
@[simp] theorem State.putCore_domains (s : State) (c : CoreAt) (x : Core) : (s.putCore c x).domains = s.domains := rfl
@[simp] theorem State.putCore_power (s : State) (c : CoreAt) (x : Core) : (s.putCore c x).power = s.power := rfl
@[simp] theorem State.putCore_boot (s : State) (c : CoreAt) (x : Core) : (s.putCore c x).boot = s.boot := rfl
@[simp] theorem State.putCore_nv (s : State) (c : CoreAt) (x : Core) : (s.putCore c x).nv = s.nv := rfl
@[simp] theorem State.putCore_job (s : State) (c : CoreAt) (x : Core) : (s.putCore c x).job = s.job := rfl
@[simp] theorem State.putCore_ckpt (s : State) (c : CoreAt) (x : Core) : (s.putCore c x).ckpt = s.ckpt := rfl
@[simp] theorem State.putCore_genhan (s : State) (c : CoreAt) (x : Core) : (s.putCore c x).genhan = s.genhan := rfl
@[simp] theorem State.putCore_host (s : State) (c : CoreAt) (x : Core) : (s.putCore c x).host = s.host := rfl
@[simp] theorem State.putCore_ctr (s : State) (c : CoreAt) (x : Core) : (s.putCore c x).ctr = s.ctr := rfl
@[simp] theorem State.putCore_out (s : State) (c : CoreAt) (x : Core) : (s.putCore c x).out = s.out := rfl
@[simp] theorem State.putCore_freeCtr (s : State) (c : CoreAt) (x : Core) : (s.putCore c x).freeCtr = s.freeCtr := rfl
@[simp] theorem State.putCore_emitted (s : State) (c : CoreAt) (x : Core) : (s.putCore c x).emitted = s.emitted := rfl

@[simp] theorem State.modCluster_pending (s : State) (k : ClusterAt) (f : Cluster → Cluster) : (s.modCluster k f).pending = s.pending := rfl
@[simp] theorem State.modCluster_cores (s : State) (k : ClusterAt) (f : Cluster → Cluster) : (s.modCluster k f).cores = s.cores := rfl
@[simp] theorem State.modCluster_mesh (s : State) (k : ClusterAt) (f : Cluster → Cluster) : (s.modCluster k f).mesh = s.mesh := rfl
@[simp] theorem State.modCluster_spent (s : State) (k : ClusterAt) (f : Cluster → Cluster) : (s.modCluster k f).spent = s.spent := rfl
@[simp] theorem State.modCluster_rr (s : State) (k : ClusterAt) (f : Cluster → Cluster) : (s.modCluster k f).rr = s.rr := rfl
@[simp] theorem State.modCluster_cuts (s : State) (k : ClusterAt) (f : Cluster → Cluster) : (s.modCluster k f).cuts = s.cuts := rfl
@[simp] theorem State.modCluster_waiting (s : State) (k : ClusterAt) (f : Cluster → Cluster) : (s.modCluster k f).waiting = s.waiting := rfl
@[simp] theorem State.modCluster_repairMap (s : State) (k : ClusterAt) (f : Cluster → Cluster) : (s.modCluster k f).repairMap = s.repairMap := rfl
@[simp] theorem State.modCluster_repairSeq (s : State) (k : ClusterAt) (f : Cluster → Cluster) : (s.modCluster k f).repairSeq = s.repairSeq := rfl
@[simp] theorem State.modCluster_deep (s : State) (k : ClusterAt) (f : Cluster → Cluster) : (s.modCluster k f).deep = s.deep := rfl
@[simp] theorem State.modCluster_deepErr (s : State) (k : ClusterAt) (f : Cluster → Cluster) : (s.modCluster k f).deepErr = s.deepErr := rfl
@[simp] theorem State.modCluster_streams (s : State) (k : ClusterAt) (f : Cluster → Cluster) : (s.modCluster k f).streams = s.streams := rfl
@[simp] theorem State.modCluster_homes (s : State) (k : ClusterAt) (f : Cluster → Cluster) : (s.modCluster k f).homes = s.homes := rfl
@[simp] theorem State.modCluster_homeWait (s : State) (k : ClusterAt) (f : Cluster → Cluster) : (s.modCluster k f).homeWait = s.homeWait := rfl
@[simp] theorem State.modCluster_ports (s : State) (k : ClusterAt) (f : Cluster → Cluster) : (s.modCluster k f).ports = s.ports := rfl
@[simp] theorem State.modCluster_conns (s : State) (k : ClusterAt) (f : Cluster → Cluster) : (s.modCluster k f).conns = s.conns := rfl
@[simp] theorem State.modCluster_croutes (s : State) (k : ClusterAt) (f : Cluster → Cluster) : (s.modCluster k f).croutes = s.croutes := rfl
@[simp] theorem State.modCluster_time (s : State) (k : ClusterAt) (f : Cluster → Cluster) : (s.modCluster k f).time = s.time := rfl
@[simp] theorem State.modCluster_cascadeId (s : State) (k : ClusterAt) (f : Cluster → Cluster) : (s.modCluster k f).cascadeId = s.cascadeId := rfl
@[simp] theorem State.modCluster_pkg (s : State) (k : ClusterAt) (f : Cluster → Cluster) : (s.modCluster k f).pkg = s.pkg := rfl
@[simp] theorem State.modCluster_expect (s : State) (k : ClusterAt) (f : Cluster → Cluster) : (s.modCluster k f).expect = s.expect := rfl
@[simp] theorem State.modCluster_domains (s : State) (k : ClusterAt) (f : Cluster → Cluster) : (s.modCluster k f).domains = s.domains := rfl
@[simp] theorem State.modCluster_power (s : State) (k : ClusterAt) (f : Cluster → Cluster) : (s.modCluster k f).power = s.power := rfl
@[simp] theorem State.modCluster_boot (s : State) (k : ClusterAt) (f : Cluster → Cluster) : (s.modCluster k f).boot = s.boot := rfl
@[simp] theorem State.modCluster_nv (s : State) (k : ClusterAt) (f : Cluster → Cluster) : (s.modCluster k f).nv = s.nv := rfl
@[simp] theorem State.modCluster_job (s : State) (k : ClusterAt) (f : Cluster → Cluster) : (s.modCluster k f).job = s.job := rfl
@[simp] theorem State.modCluster_ckpt (s : State) (k : ClusterAt) (f : Cluster → Cluster) : (s.modCluster k f).ckpt = s.ckpt := rfl
@[simp] theorem State.modCluster_genhan (s : State) (k : ClusterAt) (f : Cluster → Cluster) : (s.modCluster k f).genhan = s.genhan := rfl
@[simp] theorem State.modCluster_host (s : State) (k : ClusterAt) (f : Cluster → Cluster) : (s.modCluster k f).host = s.host := rfl
@[simp] theorem State.modCluster_ctr (s : State) (k : ClusterAt) (f : Cluster → Cluster) : (s.modCluster k f).ctr = s.ctr := rfl
@[simp] theorem State.modCluster_out (s : State) (k : ClusterAt) (f : Cluster → Cluster) : (s.modCluster k f).out = s.out := rfl
@[simp] theorem State.modCluster_freeCtr (s : State) (k : ClusterAt) (f : Cluster → Cluster) : (s.modCluster k f).freeCtr = s.freeCtr := rfl
@[simp] theorem State.modCluster_emitted (s : State) (k : ClusterAt) (f : Cluster → Cluster) : (s.modCluster k f).emitted = s.emitted := rfl

@[simp] theorem State.modCore_pending (s : State) (c : CoreAt) (f : Core → Core) : (s.modCore c f).pending = s.pending := rfl
@[simp] theorem State.modCore_clusters (s : State) (c : CoreAt) (f : Core → Core) : (s.modCore c f).clusters = s.clusters := rfl
@[simp] theorem State.modCore_mesh (s : State) (c : CoreAt) (f : Core → Core) : (s.modCore c f).mesh = s.mesh := rfl
@[simp] theorem State.modCore_spent (s : State) (c : CoreAt) (f : Core → Core) : (s.modCore c f).spent = s.spent := rfl
@[simp] theorem State.modCore_rr (s : State) (c : CoreAt) (f : Core → Core) : (s.modCore c f).rr = s.rr := rfl
@[simp] theorem State.modCore_cuts (s : State) (c : CoreAt) (f : Core → Core) : (s.modCore c f).cuts = s.cuts := rfl
@[simp] theorem State.modCore_waiting (s : State) (c : CoreAt) (f : Core → Core) : (s.modCore c f).waiting = s.waiting := rfl
@[simp] theorem State.modCore_repairMap (s : State) (c : CoreAt) (f : Core → Core) : (s.modCore c f).repairMap = s.repairMap := rfl
@[simp] theorem State.modCore_repairSeq (s : State) (c : CoreAt) (f : Core → Core) : (s.modCore c f).repairSeq = s.repairSeq := rfl
@[simp] theorem State.modCore_deep (s : State) (c : CoreAt) (f : Core → Core) : (s.modCore c f).deep = s.deep := rfl
@[simp] theorem State.modCore_deepErr (s : State) (c : CoreAt) (f : Core → Core) : (s.modCore c f).deepErr = s.deepErr := rfl
@[simp] theorem State.modCore_streams (s : State) (c : CoreAt) (f : Core → Core) : (s.modCore c f).streams = s.streams := rfl
@[simp] theorem State.modCore_homes (s : State) (c : CoreAt) (f : Core → Core) : (s.modCore c f).homes = s.homes := rfl
@[simp] theorem State.modCore_homeWait (s : State) (c : CoreAt) (f : Core → Core) : (s.modCore c f).homeWait = s.homeWait := rfl
@[simp] theorem State.modCore_ports (s : State) (c : CoreAt) (f : Core → Core) : (s.modCore c f).ports = s.ports := rfl
@[simp] theorem State.modCore_conns (s : State) (c : CoreAt) (f : Core → Core) : (s.modCore c f).conns = s.conns := rfl
@[simp] theorem State.modCore_croutes (s : State) (c : CoreAt) (f : Core → Core) : (s.modCore c f).croutes = s.croutes := rfl
@[simp] theorem State.modCore_time (s : State) (c : CoreAt) (f : Core → Core) : (s.modCore c f).time = s.time := rfl
@[simp] theorem State.modCore_cascadeId (s : State) (c : CoreAt) (f : Core → Core) : (s.modCore c f).cascadeId = s.cascadeId := rfl
@[simp] theorem State.modCore_pkg (s : State) (c : CoreAt) (f : Core → Core) : (s.modCore c f).pkg = s.pkg := rfl
@[simp] theorem State.modCore_expect (s : State) (c : CoreAt) (f : Core → Core) : (s.modCore c f).expect = s.expect := rfl
@[simp] theorem State.modCore_domains (s : State) (c : CoreAt) (f : Core → Core) : (s.modCore c f).domains = s.domains := rfl
@[simp] theorem State.modCore_power (s : State) (c : CoreAt) (f : Core → Core) : (s.modCore c f).power = s.power := rfl
@[simp] theorem State.modCore_boot (s : State) (c : CoreAt) (f : Core → Core) : (s.modCore c f).boot = s.boot := rfl
@[simp] theorem State.modCore_nv (s : State) (c : CoreAt) (f : Core → Core) : (s.modCore c f).nv = s.nv := rfl
@[simp] theorem State.modCore_job (s : State) (c : CoreAt) (f : Core → Core) : (s.modCore c f).job = s.job := rfl
@[simp] theorem State.modCore_ckpt (s : State) (c : CoreAt) (f : Core → Core) : (s.modCore c f).ckpt = s.ckpt := rfl
@[simp] theorem State.modCore_genhan (s : State) (c : CoreAt) (f : Core → Core) : (s.modCore c f).genhan = s.genhan := rfl
@[simp] theorem State.modCore_host (s : State) (c : CoreAt) (f : Core → Core) : (s.modCore c f).host = s.host := rfl
@[simp] theorem State.modCore_ctr (s : State) (c : CoreAt) (f : Core → Core) : (s.modCore c f).ctr = s.ctr := rfl
@[simp] theorem State.modCore_out (s : State) (c : CoreAt) (f : Core → Core) : (s.modCore c f).out = s.out := rfl
@[simp] theorem State.modCore_freeCtr (s : State) (c : CoreAt) (f : Core → Core) : (s.modCore c f).freeCtr = s.freeCtr := rfl
@[simp] theorem State.modCore_emitted (s : State) (c : CoreAt) (f : Core → Core) : (s.modCore c f).emitted = s.emitted := rfl

@[simp] theorem State.modDomain_pending (s : State) (d : Fin 61) (f : Domain → Domain) : (s.modDomain d f).pending = s.pending := rfl
@[simp] theorem State.modDomain_cores (s : State) (d : Fin 61) (f : Domain → Domain) : (s.modDomain d f).cores = s.cores := rfl
@[simp] theorem State.modDomain_clusters (s : State) (d : Fin 61) (f : Domain → Domain) : (s.modDomain d f).clusters = s.clusters := rfl
@[simp] theorem State.modDomain_mesh (s : State) (d : Fin 61) (f : Domain → Domain) : (s.modDomain d f).mesh = s.mesh := rfl
@[simp] theorem State.modDomain_spent (s : State) (d : Fin 61) (f : Domain → Domain) : (s.modDomain d f).spent = s.spent := rfl
@[simp] theorem State.modDomain_rr (s : State) (d : Fin 61) (f : Domain → Domain) : (s.modDomain d f).rr = s.rr := rfl
@[simp] theorem State.modDomain_cuts (s : State) (d : Fin 61) (f : Domain → Domain) : (s.modDomain d f).cuts = s.cuts := rfl
@[simp] theorem State.modDomain_waiting (s : State) (d : Fin 61) (f : Domain → Domain) : (s.modDomain d f).waiting = s.waiting := rfl
@[simp] theorem State.modDomain_repairMap (s : State) (d : Fin 61) (f : Domain → Domain) : (s.modDomain d f).repairMap = s.repairMap := rfl
@[simp] theorem State.modDomain_repairSeq (s : State) (d : Fin 61) (f : Domain → Domain) : (s.modDomain d f).repairSeq = s.repairSeq := rfl
@[simp] theorem State.modDomain_deep (s : State) (d : Fin 61) (f : Domain → Domain) : (s.modDomain d f).deep = s.deep := rfl
@[simp] theorem State.modDomain_deepErr (s : State) (d : Fin 61) (f : Domain → Domain) : (s.modDomain d f).deepErr = s.deepErr := rfl
@[simp] theorem State.modDomain_streams (s : State) (d : Fin 61) (f : Domain → Domain) : (s.modDomain d f).streams = s.streams := rfl
@[simp] theorem State.modDomain_homes (s : State) (d : Fin 61) (f : Domain → Domain) : (s.modDomain d f).homes = s.homes := rfl
@[simp] theorem State.modDomain_homeWait (s : State) (d : Fin 61) (f : Domain → Domain) : (s.modDomain d f).homeWait = s.homeWait := rfl
@[simp] theorem State.modDomain_ports (s : State) (d : Fin 61) (f : Domain → Domain) : (s.modDomain d f).ports = s.ports := rfl
@[simp] theorem State.modDomain_conns (s : State) (d : Fin 61) (f : Domain → Domain) : (s.modDomain d f).conns = s.conns := rfl
@[simp] theorem State.modDomain_croutes (s : State) (d : Fin 61) (f : Domain → Domain) : (s.modDomain d f).croutes = s.croutes := rfl
@[simp] theorem State.modDomain_time (s : State) (d : Fin 61) (f : Domain → Domain) : (s.modDomain d f).time = s.time := rfl
@[simp] theorem State.modDomain_cascadeId (s : State) (d : Fin 61) (f : Domain → Domain) : (s.modDomain d f).cascadeId = s.cascadeId := rfl
@[simp] theorem State.modDomain_pkg (s : State) (d : Fin 61) (f : Domain → Domain) : (s.modDomain d f).pkg = s.pkg := rfl
@[simp] theorem State.modDomain_expect (s : State) (d : Fin 61) (f : Domain → Domain) : (s.modDomain d f).expect = s.expect := rfl
@[simp] theorem State.modDomain_power (s : State) (d : Fin 61) (f : Domain → Domain) : (s.modDomain d f).power = s.power := rfl
@[simp] theorem State.modDomain_boot (s : State) (d : Fin 61) (f : Domain → Domain) : (s.modDomain d f).boot = s.boot := rfl
@[simp] theorem State.modDomain_nv (s : State) (d : Fin 61) (f : Domain → Domain) : (s.modDomain d f).nv = s.nv := rfl
@[simp] theorem State.modDomain_job (s : State) (d : Fin 61) (f : Domain → Domain) : (s.modDomain d f).job = s.job := rfl
@[simp] theorem State.modDomain_ckpt (s : State) (d : Fin 61) (f : Domain → Domain) : (s.modDomain d f).ckpt = s.ckpt := rfl
@[simp] theorem State.modDomain_genhan (s : State) (d : Fin 61) (f : Domain → Domain) : (s.modDomain d f).genhan = s.genhan := rfl
@[simp] theorem State.modDomain_host (s : State) (d : Fin 61) (f : Domain → Domain) : (s.modDomain d f).host = s.host := rfl
@[simp] theorem State.modDomain_ctr (s : State) (d : Fin 61) (f : Domain → Domain) : (s.modDomain d f).ctr = s.ctr := rfl
@[simp] theorem State.modDomain_out (s : State) (d : Fin 61) (f : Domain → Domain) : (s.modDomain d f).out = s.out := rfl
@[simp] theorem State.modDomain_freeCtr (s : State) (d : Fin 61) (f : Domain → Domain) : (s.modDomain d f).freeCtr = s.freeCtr := rfl
@[simp] theorem State.modDomain_emitted (s : State) (d : Fin 61) (f : Domain → Domain) : (s.modDomain d f).emitted = s.emitted := rfl

@[simp] theorem State.count_pending (s : State) (group unit sub n : Nat) (by_ : Nat) : (s.count group unit sub n by_).pending = s.pending := rfl
@[simp] theorem State.count_cores (s : State) (group unit sub n : Nat) (by_ : Nat) : (s.count group unit sub n by_).cores = s.cores := rfl
@[simp] theorem State.count_clusters (s : State) (group unit sub n : Nat) (by_ : Nat) : (s.count group unit sub n by_).clusters = s.clusters := rfl
@[simp] theorem State.count_mesh (s : State) (group unit sub n : Nat) (by_ : Nat) : (s.count group unit sub n by_).mesh = s.mesh := rfl
@[simp] theorem State.count_spent (s : State) (group unit sub n : Nat) (by_ : Nat) : (s.count group unit sub n by_).spent = s.spent := rfl
@[simp] theorem State.count_rr (s : State) (group unit sub n : Nat) (by_ : Nat) : (s.count group unit sub n by_).rr = s.rr := rfl
@[simp] theorem State.count_cuts (s : State) (group unit sub n : Nat) (by_ : Nat) : (s.count group unit sub n by_).cuts = s.cuts := rfl
@[simp] theorem State.count_waiting (s : State) (group unit sub n : Nat) (by_ : Nat) : (s.count group unit sub n by_).waiting = s.waiting := rfl
@[simp] theorem State.count_repairMap (s : State) (group unit sub n : Nat) (by_ : Nat) : (s.count group unit sub n by_).repairMap = s.repairMap := rfl
@[simp] theorem State.count_repairSeq (s : State) (group unit sub n : Nat) (by_ : Nat) : (s.count group unit sub n by_).repairSeq = s.repairSeq := rfl
@[simp] theorem State.count_deep (s : State) (group unit sub n : Nat) (by_ : Nat) : (s.count group unit sub n by_).deep = s.deep := rfl
@[simp] theorem State.count_deepErr (s : State) (group unit sub n : Nat) (by_ : Nat) : (s.count group unit sub n by_).deepErr = s.deepErr := rfl
@[simp] theorem State.count_streams (s : State) (group unit sub n : Nat) (by_ : Nat) : (s.count group unit sub n by_).streams = s.streams := rfl
@[simp] theorem State.count_homes (s : State) (group unit sub n : Nat) (by_ : Nat) : (s.count group unit sub n by_).homes = s.homes := rfl
@[simp] theorem State.count_homeWait (s : State) (group unit sub n : Nat) (by_ : Nat) : (s.count group unit sub n by_).homeWait = s.homeWait := rfl
@[simp] theorem State.count_ports (s : State) (group unit sub n : Nat) (by_ : Nat) : (s.count group unit sub n by_).ports = s.ports := rfl
@[simp] theorem State.count_conns (s : State) (group unit sub n : Nat) (by_ : Nat) : (s.count group unit sub n by_).conns = s.conns := rfl
@[simp] theorem State.count_croutes (s : State) (group unit sub n : Nat) (by_ : Nat) : (s.count group unit sub n by_).croutes = s.croutes := rfl
@[simp] theorem State.count_time (s : State) (group unit sub n : Nat) (by_ : Nat) : (s.count group unit sub n by_).time = s.time := rfl
@[simp] theorem State.count_cascadeId (s : State) (group unit sub n : Nat) (by_ : Nat) : (s.count group unit sub n by_).cascadeId = s.cascadeId := rfl
@[simp] theorem State.count_pkg (s : State) (group unit sub n : Nat) (by_ : Nat) : (s.count group unit sub n by_).pkg = s.pkg := rfl
@[simp] theorem State.count_expect (s : State) (group unit sub n : Nat) (by_ : Nat) : (s.count group unit sub n by_).expect = s.expect := rfl
@[simp] theorem State.count_domains (s : State) (group unit sub n : Nat) (by_ : Nat) : (s.count group unit sub n by_).domains = s.domains := rfl
@[simp] theorem State.count_power (s : State) (group unit sub n : Nat) (by_ : Nat) : (s.count group unit sub n by_).power = s.power := rfl
@[simp] theorem State.count_boot (s : State) (group unit sub n : Nat) (by_ : Nat) : (s.count group unit sub n by_).boot = s.boot := rfl
@[simp] theorem State.count_nv (s : State) (group unit sub n : Nat) (by_ : Nat) : (s.count group unit sub n by_).nv = s.nv := rfl
@[simp] theorem State.count_job (s : State) (group unit sub n : Nat) (by_ : Nat) : (s.count group unit sub n by_).job = s.job := rfl
@[simp] theorem State.count_ckpt (s : State) (group unit sub n : Nat) (by_ : Nat) : (s.count group unit sub n by_).ckpt = s.ckpt := rfl
@[simp] theorem State.count_genhan (s : State) (group unit sub n : Nat) (by_ : Nat) : (s.count group unit sub n by_).genhan = s.genhan := rfl
@[simp] theorem State.count_host (s : State) (group unit sub n : Nat) (by_ : Nat) : (s.count group unit sub n by_).host = s.host := rfl
@[simp] theorem State.count_out (s : State) (group unit sub n : Nat) (by_ : Nat) : (s.count group unit sub n by_).out = s.out := rfl
@[simp] theorem State.count_freeCtr (s : State) (group unit sub n : Nat) (by_ : Nat) : (s.count group unit sub n by_).freeCtr = s.freeCtr := rfl
@[simp] theorem State.count_emitted (s : State) (group unit sub n : Nat) (by_ : Nat) : (s.count group unit sub n by_).emitted = s.emitted := rfl

@[simp] theorem State.emit_pending (s : State) (o : Output) : (s.emit o).pending = s.pending := rfl
@[simp] theorem State.emit_cores (s : State) (o : Output) : (s.emit o).cores = s.cores := rfl
@[simp] theorem State.emit_clusters (s : State) (o : Output) : (s.emit o).clusters = s.clusters := rfl
@[simp] theorem State.emit_mesh (s : State) (o : Output) : (s.emit o).mesh = s.mesh := rfl
@[simp] theorem State.emit_spent (s : State) (o : Output) : (s.emit o).spent = s.spent := rfl
@[simp] theorem State.emit_rr (s : State) (o : Output) : (s.emit o).rr = s.rr := rfl
@[simp] theorem State.emit_cuts (s : State) (o : Output) : (s.emit o).cuts = s.cuts := rfl
@[simp] theorem State.emit_waiting (s : State) (o : Output) : (s.emit o).waiting = s.waiting := rfl
@[simp] theorem State.emit_repairMap (s : State) (o : Output) : (s.emit o).repairMap = s.repairMap := rfl
@[simp] theorem State.emit_repairSeq (s : State) (o : Output) : (s.emit o).repairSeq = s.repairSeq := rfl
@[simp] theorem State.emit_deep (s : State) (o : Output) : (s.emit o).deep = s.deep := rfl
@[simp] theorem State.emit_deepErr (s : State) (o : Output) : (s.emit o).deepErr = s.deepErr := rfl
@[simp] theorem State.emit_streams (s : State) (o : Output) : (s.emit o).streams = s.streams := rfl
@[simp] theorem State.emit_homes (s : State) (o : Output) : (s.emit o).homes = s.homes := rfl
@[simp] theorem State.emit_homeWait (s : State) (o : Output) : (s.emit o).homeWait = s.homeWait := rfl
@[simp] theorem State.emit_ports (s : State) (o : Output) : (s.emit o).ports = s.ports := rfl
@[simp] theorem State.emit_conns (s : State) (o : Output) : (s.emit o).conns = s.conns := rfl
@[simp] theorem State.emit_croutes (s : State) (o : Output) : (s.emit o).croutes = s.croutes := rfl
@[simp] theorem State.emit_time (s : State) (o : Output) : (s.emit o).time = s.time := rfl
@[simp] theorem State.emit_cascadeId (s : State) (o : Output) : (s.emit o).cascadeId = s.cascadeId := rfl
@[simp] theorem State.emit_pkg (s : State) (o : Output) : (s.emit o).pkg = s.pkg := rfl
@[simp] theorem State.emit_expect (s : State) (o : Output) : (s.emit o).expect = s.expect := rfl
@[simp] theorem State.emit_domains (s : State) (o : Output) : (s.emit o).domains = s.domains := rfl
@[simp] theorem State.emit_power (s : State) (o : Output) : (s.emit o).power = s.power := rfl
@[simp] theorem State.emit_boot (s : State) (o : Output) : (s.emit o).boot = s.boot := rfl
@[simp] theorem State.emit_nv (s : State) (o : Output) : (s.emit o).nv = s.nv := rfl
@[simp] theorem State.emit_job (s : State) (o : Output) : (s.emit o).job = s.job := rfl
@[simp] theorem State.emit_ckpt (s : State) (o : Output) : (s.emit o).ckpt = s.ckpt := rfl
@[simp] theorem State.emit_genhan (s : State) (o : Output) : (s.emit o).genhan = s.genhan := rfl
@[simp] theorem State.emit_host (s : State) (o : Output) : (s.emit o).host = s.host := rfl
@[simp] theorem State.emit_ctr (s : State) (o : Output) : (s.emit o).ctr = s.ctr := rfl
@[simp] theorem State.emit_freeCtr (s : State) (o : Output) : (s.emit o).freeCtr = s.freeCtr := rfl
@[simp] theorem State.emit_emitted (s : State) (o : Output) : (s.emit o).emitted = s.emitted := rfl

@[simp] theorem State.putRing_pending (s : State) (p : Nat) (r : Ring) : (s.putRing p r).pending = s.pending := rfl
@[simp] theorem State.putRing_cores (s : State) (p : Nat) (r : Ring) : (s.putRing p r).cores = s.cores := rfl
@[simp] theorem State.putRing_clusters (s : State) (p : Nat) (r : Ring) : (s.putRing p r).clusters = s.clusters := rfl
@[simp] theorem State.putRing_mesh (s : State) (p : Nat) (r : Ring) : (s.putRing p r).mesh = s.mesh := rfl
@[simp] theorem State.putRing_spent (s : State) (p : Nat) (r : Ring) : (s.putRing p r).spent = s.spent := rfl
@[simp] theorem State.putRing_rr (s : State) (p : Nat) (r : Ring) : (s.putRing p r).rr = s.rr := rfl
@[simp] theorem State.putRing_cuts (s : State) (p : Nat) (r : Ring) : (s.putRing p r).cuts = s.cuts := rfl
@[simp] theorem State.putRing_waiting (s : State) (p : Nat) (r : Ring) : (s.putRing p r).waiting = s.waiting := rfl
@[simp] theorem State.putRing_repairMap (s : State) (p : Nat) (r : Ring) : (s.putRing p r).repairMap = s.repairMap := rfl
@[simp] theorem State.putRing_repairSeq (s : State) (p : Nat) (r : Ring) : (s.putRing p r).repairSeq = s.repairSeq := rfl
@[simp] theorem State.putRing_deep (s : State) (p : Nat) (r : Ring) : (s.putRing p r).deep = s.deep := rfl
@[simp] theorem State.putRing_deepErr (s : State) (p : Nat) (r : Ring) : (s.putRing p r).deepErr = s.deepErr := rfl
@[simp] theorem State.putRing_streams (s : State) (p : Nat) (r : Ring) : (s.putRing p r).streams = s.streams := rfl
@[simp] theorem State.putRing_homes (s : State) (p : Nat) (r : Ring) : (s.putRing p r).homes = s.homes := rfl
@[simp] theorem State.putRing_homeWait (s : State) (p : Nat) (r : Ring) : (s.putRing p r).homeWait = s.homeWait := rfl
@[simp] theorem State.putRing_ports (s : State) (p : Nat) (r : Ring) : (s.putRing p r).ports = s.ports := rfl
@[simp] theorem State.putRing_conns (s : State) (p : Nat) (r : Ring) : (s.putRing p r).conns = s.conns := rfl
@[simp] theorem State.putRing_croutes (s : State) (p : Nat) (r : Ring) : (s.putRing p r).croutes = s.croutes := rfl
@[simp] theorem State.putRing_time (s : State) (p : Nat) (r : Ring) : (s.putRing p r).time = s.time := rfl
@[simp] theorem State.putRing_cascadeId (s : State) (p : Nat) (r : Ring) : (s.putRing p r).cascadeId = s.cascadeId := rfl
@[simp] theorem State.putRing_pkg (s : State) (p : Nat) (r : Ring) : (s.putRing p r).pkg = s.pkg := rfl
@[simp] theorem State.putRing_expect (s : State) (p : Nat) (r : Ring) : (s.putRing p r).expect = s.expect := rfl
@[simp] theorem State.putRing_domains (s : State) (p : Nat) (r : Ring) : (s.putRing p r).domains = s.domains := rfl
@[simp] theorem State.putRing_power (s : State) (p : Nat) (r : Ring) : (s.putRing p r).power = s.power := rfl
@[simp] theorem State.putRing_boot (s : State) (p : Nat) (r : Ring) : (s.putRing p r).boot = s.boot := rfl
@[simp] theorem State.putRing_nv (s : State) (p : Nat) (r : Ring) : (s.putRing p r).nv = s.nv := rfl
@[simp] theorem State.putRing_job (s : State) (p : Nat) (r : Ring) : (s.putRing p r).job = s.job := rfl
@[simp] theorem State.putRing_ckpt (s : State) (p : Nat) (r : Ring) : (s.putRing p r).ckpt = s.ckpt := rfl
@[simp] theorem State.putRing_genhan (s : State) (p : Nat) (r : Ring) : (s.putRing p r).genhan = s.genhan := rfl
@[simp] theorem State.putRing_ctr (s : State) (p : Nat) (r : Ring) : (s.putRing p r).ctr = s.ctr := rfl
@[simp] theorem State.putRing_out (s : State) (p : Nat) (r : Ring) : (s.putRing p r).out = s.out := rfl
@[simp] theorem State.putRing_freeCtr (s : State) (p : Nat) (r : Ring) : (s.putRing p r).freeCtr = s.freeCtr := rfl
@[simp] theorem State.putRing_emitted (s : State) (p : Nat) (r : Ring) : (s.putRing p r).emitted = s.emitted := rfl

@[simp] theorem State.modRing_pending (s : State) (p : Nat) (f : Ring → Ring) : (s.modRing p f).pending = s.pending := rfl
@[simp] theorem State.modRing_cores (s : State) (p : Nat) (f : Ring → Ring) : (s.modRing p f).cores = s.cores := rfl
@[simp] theorem State.modRing_clusters (s : State) (p : Nat) (f : Ring → Ring) : (s.modRing p f).clusters = s.clusters := rfl
@[simp] theorem State.modRing_mesh (s : State) (p : Nat) (f : Ring → Ring) : (s.modRing p f).mesh = s.mesh := rfl
@[simp] theorem State.modRing_spent (s : State) (p : Nat) (f : Ring → Ring) : (s.modRing p f).spent = s.spent := rfl
@[simp] theorem State.modRing_rr (s : State) (p : Nat) (f : Ring → Ring) : (s.modRing p f).rr = s.rr := rfl
@[simp] theorem State.modRing_cuts (s : State) (p : Nat) (f : Ring → Ring) : (s.modRing p f).cuts = s.cuts := rfl
@[simp] theorem State.modRing_waiting (s : State) (p : Nat) (f : Ring → Ring) : (s.modRing p f).waiting = s.waiting := rfl
@[simp] theorem State.modRing_repairMap (s : State) (p : Nat) (f : Ring → Ring) : (s.modRing p f).repairMap = s.repairMap := rfl
@[simp] theorem State.modRing_repairSeq (s : State) (p : Nat) (f : Ring → Ring) : (s.modRing p f).repairSeq = s.repairSeq := rfl
@[simp] theorem State.modRing_deep (s : State) (p : Nat) (f : Ring → Ring) : (s.modRing p f).deep = s.deep := rfl
@[simp] theorem State.modRing_deepErr (s : State) (p : Nat) (f : Ring → Ring) : (s.modRing p f).deepErr = s.deepErr := rfl
@[simp] theorem State.modRing_streams (s : State) (p : Nat) (f : Ring → Ring) : (s.modRing p f).streams = s.streams := rfl
@[simp] theorem State.modRing_homes (s : State) (p : Nat) (f : Ring → Ring) : (s.modRing p f).homes = s.homes := rfl
@[simp] theorem State.modRing_homeWait (s : State) (p : Nat) (f : Ring → Ring) : (s.modRing p f).homeWait = s.homeWait := rfl
@[simp] theorem State.modRing_ports (s : State) (p : Nat) (f : Ring → Ring) : (s.modRing p f).ports = s.ports := rfl
@[simp] theorem State.modRing_conns (s : State) (p : Nat) (f : Ring → Ring) : (s.modRing p f).conns = s.conns := rfl
@[simp] theorem State.modRing_croutes (s : State) (p : Nat) (f : Ring → Ring) : (s.modRing p f).croutes = s.croutes := rfl
@[simp] theorem State.modRing_time (s : State) (p : Nat) (f : Ring → Ring) : (s.modRing p f).time = s.time := rfl
@[simp] theorem State.modRing_cascadeId (s : State) (p : Nat) (f : Ring → Ring) : (s.modRing p f).cascadeId = s.cascadeId := rfl
@[simp] theorem State.modRing_pkg (s : State) (p : Nat) (f : Ring → Ring) : (s.modRing p f).pkg = s.pkg := rfl
@[simp] theorem State.modRing_expect (s : State) (p : Nat) (f : Ring → Ring) : (s.modRing p f).expect = s.expect := rfl
@[simp] theorem State.modRing_domains (s : State) (p : Nat) (f : Ring → Ring) : (s.modRing p f).domains = s.domains := rfl
@[simp] theorem State.modRing_power (s : State) (p : Nat) (f : Ring → Ring) : (s.modRing p f).power = s.power := rfl
@[simp] theorem State.modRing_boot (s : State) (p : Nat) (f : Ring → Ring) : (s.modRing p f).boot = s.boot := rfl
@[simp] theorem State.modRing_nv (s : State) (p : Nat) (f : Ring → Ring) : (s.modRing p f).nv = s.nv := rfl
@[simp] theorem State.modRing_job (s : State) (p : Nat) (f : Ring → Ring) : (s.modRing p f).job = s.job := rfl
@[simp] theorem State.modRing_ckpt (s : State) (p : Nat) (f : Ring → Ring) : (s.modRing p f).ckpt = s.ckpt := rfl
@[simp] theorem State.modRing_genhan (s : State) (p : Nat) (f : Ring → Ring) : (s.modRing p f).genhan = s.genhan := rfl
@[simp] theorem State.modRing_ctr (s : State) (p : Nat) (f : Ring → Ring) : (s.modRing p f).ctr = s.ctr := rfl
@[simp] theorem State.modRing_out (s : State) (p : Nat) (f : Ring → Ring) : (s.modRing p f).out = s.out := rfl
@[simp] theorem State.modRing_freeCtr (s : State) (p : Nat) (f : Ring → Ring) : (s.modRing p f).freeCtr = s.freeCtr := rfl
@[simp] theorem State.modRing_emitted (s : State) (p : Nat) (f : Ring → Ring) : (s.modRing p f).emitted = s.emitted := rfl

@[simp] theorem State.sendMsix_pending (s : State) (v : Nat) : (s.sendMsix v).pending = s.pending := by unfold State.sendMsix; dsimp only; (repeat' split) <;> rfl
@[simp] theorem State.sendMsix_cores (s : State) (v : Nat) : (s.sendMsix v).cores = s.cores := by unfold State.sendMsix; dsimp only; (repeat' split) <;> rfl
@[simp] theorem State.sendMsix_clusters (s : State) (v : Nat) : (s.sendMsix v).clusters = s.clusters := by unfold State.sendMsix; dsimp only; (repeat' split) <;> rfl
@[simp] theorem State.sendMsix_mesh (s : State) (v : Nat) : (s.sendMsix v).mesh = s.mesh := by unfold State.sendMsix; dsimp only; (repeat' split) <;> rfl
@[simp] theorem State.sendMsix_spent (s : State) (v : Nat) : (s.sendMsix v).spent = s.spent := by unfold State.sendMsix; dsimp only; (repeat' split) <;> rfl
@[simp] theorem State.sendMsix_rr (s : State) (v : Nat) : (s.sendMsix v).rr = s.rr := by unfold State.sendMsix; dsimp only; (repeat' split) <;> rfl
@[simp] theorem State.sendMsix_cuts (s : State) (v : Nat) : (s.sendMsix v).cuts = s.cuts := by unfold State.sendMsix; dsimp only; (repeat' split) <;> rfl
@[simp] theorem State.sendMsix_waiting (s : State) (v : Nat) : (s.sendMsix v).waiting = s.waiting := by unfold State.sendMsix; dsimp only; (repeat' split) <;> rfl
@[simp] theorem State.sendMsix_repairMap (s : State) (v : Nat) : (s.sendMsix v).repairMap = s.repairMap := by unfold State.sendMsix; dsimp only; (repeat' split) <;> rfl
@[simp] theorem State.sendMsix_repairSeq (s : State) (v : Nat) : (s.sendMsix v).repairSeq = s.repairSeq := by unfold State.sendMsix; dsimp only; (repeat' split) <;> rfl
@[simp] theorem State.sendMsix_deep (s : State) (v : Nat) : (s.sendMsix v).deep = s.deep := by unfold State.sendMsix; dsimp only; (repeat' split) <;> rfl
@[simp] theorem State.sendMsix_deepErr (s : State) (v : Nat) : (s.sendMsix v).deepErr = s.deepErr := by unfold State.sendMsix; dsimp only; (repeat' split) <;> rfl
@[simp] theorem State.sendMsix_streams (s : State) (v : Nat) : (s.sendMsix v).streams = s.streams := by unfold State.sendMsix; dsimp only; (repeat' split) <;> rfl
@[simp] theorem State.sendMsix_homes (s : State) (v : Nat) : (s.sendMsix v).homes = s.homes := by unfold State.sendMsix; dsimp only; (repeat' split) <;> rfl
@[simp] theorem State.sendMsix_homeWait (s : State) (v : Nat) : (s.sendMsix v).homeWait = s.homeWait := by unfold State.sendMsix; dsimp only; (repeat' split) <;> rfl
@[simp] theorem State.sendMsix_ports (s : State) (v : Nat) : (s.sendMsix v).ports = s.ports := by unfold State.sendMsix; dsimp only; (repeat' split) <;> rfl
@[simp] theorem State.sendMsix_conns (s : State) (v : Nat) : (s.sendMsix v).conns = s.conns := by unfold State.sendMsix; dsimp only; (repeat' split) <;> rfl
@[simp] theorem State.sendMsix_croutes (s : State) (v : Nat) : (s.sendMsix v).croutes = s.croutes := by unfold State.sendMsix; dsimp only; (repeat' split) <;> rfl
@[simp] theorem State.sendMsix_time (s : State) (v : Nat) : (s.sendMsix v).time = s.time := by unfold State.sendMsix; dsimp only; (repeat' split) <;> rfl
@[simp] theorem State.sendMsix_cascadeId (s : State) (v : Nat) : (s.sendMsix v).cascadeId = s.cascadeId := by unfold State.sendMsix; dsimp only; (repeat' split) <;> rfl
@[simp] theorem State.sendMsix_pkg (s : State) (v : Nat) : (s.sendMsix v).pkg = s.pkg := by unfold State.sendMsix; dsimp only; (repeat' split) <;> rfl
@[simp] theorem State.sendMsix_expect (s : State) (v : Nat) : (s.sendMsix v).expect = s.expect := by unfold State.sendMsix; dsimp only; (repeat' split) <;> rfl
@[simp] theorem State.sendMsix_domains (s : State) (v : Nat) : (s.sendMsix v).domains = s.domains := by unfold State.sendMsix; dsimp only; (repeat' split) <;> rfl
@[simp] theorem State.sendMsix_power (s : State) (v : Nat) : (s.sendMsix v).power = s.power := by unfold State.sendMsix; dsimp only; (repeat' split) <;> rfl
@[simp] theorem State.sendMsix_boot (s : State) (v : Nat) : (s.sendMsix v).boot = s.boot := by unfold State.sendMsix; dsimp only; (repeat' split) <;> rfl
@[simp] theorem State.sendMsix_nv (s : State) (v : Nat) : (s.sendMsix v).nv = s.nv := by unfold State.sendMsix; dsimp only; (repeat' split) <;> rfl
@[simp] theorem State.sendMsix_job (s : State) (v : Nat) : (s.sendMsix v).job = s.job := by unfold State.sendMsix; dsimp only; (repeat' split) <;> rfl
@[simp] theorem State.sendMsix_ckpt (s : State) (v : Nat) : (s.sendMsix v).ckpt = s.ckpt := by unfold State.sendMsix; dsimp only; (repeat' split) <;> rfl
@[simp] theorem State.sendMsix_genhan (s : State) (v : Nat) : (s.sendMsix v).genhan = s.genhan := by unfold State.sendMsix; dsimp only; (repeat' split) <;> rfl
@[simp] theorem State.sendMsix_ctr (s : State) (v : Nat) : (s.sendMsix v).ctr = s.ctr := by unfold State.sendMsix; dsimp only; (repeat' split) <;> rfl
@[simp] theorem State.sendMsix_freeCtr (s : State) (v : Nat) : (s.sendMsix v).freeCtr = s.freeCtr := by unfold State.sendMsix; dsimp only; (repeat' split) <;> rfl
@[simp] theorem State.sendMsix_emitted (s : State) (v : Nat) : (s.sendMsix v).emitted = s.emitted := by unfold State.sendMsix; dsimp only; (repeat' split) <;> rfl

@[simp] theorem State.sendPaced_pending (s : State) (v : Nat) : (s.sendPaced v).pending = s.pending := by unfold State.sendPaced; dsimp only; split <;> simp
@[simp] theorem State.sendPaced_cores (s : State) (v : Nat) : (s.sendPaced v).cores = s.cores := by unfold State.sendPaced; dsimp only; split <;> simp
@[simp] theorem State.sendPaced_clusters (s : State) (v : Nat) : (s.sendPaced v).clusters = s.clusters := by unfold State.sendPaced; dsimp only; split <;> simp
@[simp] theorem State.sendPaced_mesh (s : State) (v : Nat) : (s.sendPaced v).mesh = s.mesh := by unfold State.sendPaced; dsimp only; split <;> simp
@[simp] theorem State.sendPaced_spent (s : State) (v : Nat) : (s.sendPaced v).spent = s.spent := by unfold State.sendPaced; dsimp only; split <;> simp
@[simp] theorem State.sendPaced_rr (s : State) (v : Nat) : (s.sendPaced v).rr = s.rr := by unfold State.sendPaced; dsimp only; split <;> simp
@[simp] theorem State.sendPaced_cuts (s : State) (v : Nat) : (s.sendPaced v).cuts = s.cuts := by unfold State.sendPaced; dsimp only; split <;> simp
@[simp] theorem State.sendPaced_waiting (s : State) (v : Nat) : (s.sendPaced v).waiting = s.waiting := by unfold State.sendPaced; dsimp only; split <;> simp
@[simp] theorem State.sendPaced_repairMap (s : State) (v : Nat) : (s.sendPaced v).repairMap = s.repairMap := by unfold State.sendPaced; dsimp only; split <;> simp
@[simp] theorem State.sendPaced_repairSeq (s : State) (v : Nat) : (s.sendPaced v).repairSeq = s.repairSeq := by unfold State.sendPaced; dsimp only; split <;> simp
@[simp] theorem State.sendPaced_deep (s : State) (v : Nat) : (s.sendPaced v).deep = s.deep := by unfold State.sendPaced; dsimp only; split <;> simp
@[simp] theorem State.sendPaced_deepErr (s : State) (v : Nat) : (s.sendPaced v).deepErr = s.deepErr := by unfold State.sendPaced; dsimp only; split <;> simp
@[simp] theorem State.sendPaced_streams (s : State) (v : Nat) : (s.sendPaced v).streams = s.streams := by unfold State.sendPaced; dsimp only; split <;> simp
@[simp] theorem State.sendPaced_homes (s : State) (v : Nat) : (s.sendPaced v).homes = s.homes := by unfold State.sendPaced; dsimp only; split <;> simp
@[simp] theorem State.sendPaced_homeWait (s : State) (v : Nat) : (s.sendPaced v).homeWait = s.homeWait := by unfold State.sendPaced; dsimp only; split <;> simp
@[simp] theorem State.sendPaced_ports (s : State) (v : Nat) : (s.sendPaced v).ports = s.ports := by unfold State.sendPaced; dsimp only; split <;> simp
@[simp] theorem State.sendPaced_conns (s : State) (v : Nat) : (s.sendPaced v).conns = s.conns := by unfold State.sendPaced; dsimp only; split <;> simp
@[simp] theorem State.sendPaced_croutes (s : State) (v : Nat) : (s.sendPaced v).croutes = s.croutes := by unfold State.sendPaced; dsimp only; split <;> simp
@[simp] theorem State.sendPaced_time (s : State) (v : Nat) : (s.sendPaced v).time = s.time := by unfold State.sendPaced; dsimp only; split <;> simp
@[simp] theorem State.sendPaced_cascadeId (s : State) (v : Nat) : (s.sendPaced v).cascadeId = s.cascadeId := by unfold State.sendPaced; dsimp only; split <;> simp
@[simp] theorem State.sendPaced_pkg (s : State) (v : Nat) : (s.sendPaced v).pkg = s.pkg := by unfold State.sendPaced; dsimp only; split <;> simp
@[simp] theorem State.sendPaced_expect (s : State) (v : Nat) : (s.sendPaced v).expect = s.expect := by unfold State.sendPaced; dsimp only; split <;> simp
@[simp] theorem State.sendPaced_domains (s : State) (v : Nat) : (s.sendPaced v).domains = s.domains := by unfold State.sendPaced; dsimp only; split <;> simp
@[simp] theorem State.sendPaced_power (s : State) (v : Nat) : (s.sendPaced v).power = s.power := by unfold State.sendPaced; dsimp only; split <;> simp
@[simp] theorem State.sendPaced_boot (s : State) (v : Nat) : (s.sendPaced v).boot = s.boot := by unfold State.sendPaced; dsimp only; split <;> simp
@[simp] theorem State.sendPaced_nv (s : State) (v : Nat) : (s.sendPaced v).nv = s.nv := by unfold State.sendPaced; dsimp only; split <;> simp
@[simp] theorem State.sendPaced_job (s : State) (v : Nat) : (s.sendPaced v).job = s.job := by unfold State.sendPaced; dsimp only; split <;> simp
@[simp] theorem State.sendPaced_ckpt (s : State) (v : Nat) : (s.sendPaced v).ckpt = s.ckpt := by unfold State.sendPaced; dsimp only; split <;> simp
@[simp] theorem State.sendPaced_genhan (s : State) (v : Nat) : (s.sendPaced v).genhan = s.genhan := by unfold State.sendPaced; dsimp only; split <;> simp
@[simp] theorem State.sendPaced_ctr (s : State) (v : Nat) : (s.sendPaced v).ctr = s.ctr := by unfold State.sendPaced; dsimp only; split <;> simp
@[simp] theorem State.sendPaced_freeCtr (s : State) (v : Nat) : (s.sendPaced v).freeCtr = s.freeCtr := by unfold State.sendPaced; dsimp only; split <;> simp
@[simp] theorem State.sendPaced_emitted (s : State) (v : Nat) : (s.sendPaced v).emitted = s.emitted := by unfold State.sendPaced; dsimp only; split <;> simp

@[simp] theorem State.pend_pending (s : State) (v : Nat) (interval : BitVec 10) : (s.pend v interval).pending = s.pending := by unfold State.pend; dsimp only; (repeat' split) <;> simp
@[simp] theorem State.pend_cores (s : State) (v : Nat) (interval : BitVec 10) : (s.pend v interval).cores = s.cores := by unfold State.pend; dsimp only; (repeat' split) <;> simp
@[simp] theorem State.pend_clusters (s : State) (v : Nat) (interval : BitVec 10) : (s.pend v interval).clusters = s.clusters := by unfold State.pend; dsimp only; (repeat' split) <;> simp
@[simp] theorem State.pend_mesh (s : State) (v : Nat) (interval : BitVec 10) : (s.pend v interval).mesh = s.mesh := by unfold State.pend; dsimp only; (repeat' split) <;> simp
@[simp] theorem State.pend_spent (s : State) (v : Nat) (interval : BitVec 10) : (s.pend v interval).spent = s.spent := by unfold State.pend; dsimp only; (repeat' split) <;> simp
@[simp] theorem State.pend_rr (s : State) (v : Nat) (interval : BitVec 10) : (s.pend v interval).rr = s.rr := by unfold State.pend; dsimp only; (repeat' split) <;> simp
@[simp] theorem State.pend_cuts (s : State) (v : Nat) (interval : BitVec 10) : (s.pend v interval).cuts = s.cuts := by unfold State.pend; dsimp only; (repeat' split) <;> simp
@[simp] theorem State.pend_waiting (s : State) (v : Nat) (interval : BitVec 10) : (s.pend v interval).waiting = s.waiting := by unfold State.pend; dsimp only; (repeat' split) <;> simp
@[simp] theorem State.pend_repairMap (s : State) (v : Nat) (interval : BitVec 10) : (s.pend v interval).repairMap = s.repairMap := by unfold State.pend; dsimp only; (repeat' split) <;> simp
@[simp] theorem State.pend_repairSeq (s : State) (v : Nat) (interval : BitVec 10) : (s.pend v interval).repairSeq = s.repairSeq := by unfold State.pend; dsimp only; (repeat' split) <;> simp
@[simp] theorem State.pend_deep (s : State) (v : Nat) (interval : BitVec 10) : (s.pend v interval).deep = s.deep := by unfold State.pend; dsimp only; (repeat' split) <;> simp
@[simp] theorem State.pend_deepErr (s : State) (v : Nat) (interval : BitVec 10) : (s.pend v interval).deepErr = s.deepErr := by unfold State.pend; dsimp only; (repeat' split) <;> simp
@[simp] theorem State.pend_streams (s : State) (v : Nat) (interval : BitVec 10) : (s.pend v interval).streams = s.streams := by unfold State.pend; dsimp only; (repeat' split) <;> simp
@[simp] theorem State.pend_homes (s : State) (v : Nat) (interval : BitVec 10) : (s.pend v interval).homes = s.homes := by unfold State.pend; dsimp only; (repeat' split) <;> simp
@[simp] theorem State.pend_homeWait (s : State) (v : Nat) (interval : BitVec 10) : (s.pend v interval).homeWait = s.homeWait := by unfold State.pend; dsimp only; (repeat' split) <;> simp
@[simp] theorem State.pend_ports (s : State) (v : Nat) (interval : BitVec 10) : (s.pend v interval).ports = s.ports := by unfold State.pend; dsimp only; (repeat' split) <;> simp
@[simp] theorem State.pend_conns (s : State) (v : Nat) (interval : BitVec 10) : (s.pend v interval).conns = s.conns := by unfold State.pend; dsimp only; (repeat' split) <;> simp
@[simp] theorem State.pend_croutes (s : State) (v : Nat) (interval : BitVec 10) : (s.pend v interval).croutes = s.croutes := by unfold State.pend; dsimp only; (repeat' split) <;> simp
@[simp] theorem State.pend_time (s : State) (v : Nat) (interval : BitVec 10) : (s.pend v interval).time = s.time := by unfold State.pend; dsimp only; (repeat' split) <;> simp
@[simp] theorem State.pend_cascadeId (s : State) (v : Nat) (interval : BitVec 10) : (s.pend v interval).cascadeId = s.cascadeId := by unfold State.pend; dsimp only; (repeat' split) <;> simp
@[simp] theorem State.pend_pkg (s : State) (v : Nat) (interval : BitVec 10) : (s.pend v interval).pkg = s.pkg := by unfold State.pend; dsimp only; (repeat' split) <;> simp
@[simp] theorem State.pend_expect (s : State) (v : Nat) (interval : BitVec 10) : (s.pend v interval).expect = s.expect := by unfold State.pend; dsimp only; (repeat' split) <;> simp
@[simp] theorem State.pend_domains (s : State) (v : Nat) (interval : BitVec 10) : (s.pend v interval).domains = s.domains := by unfold State.pend; dsimp only; (repeat' split) <;> simp
@[simp] theorem State.pend_power (s : State) (v : Nat) (interval : BitVec 10) : (s.pend v interval).power = s.power := by unfold State.pend; dsimp only; (repeat' split) <;> simp
@[simp] theorem State.pend_boot (s : State) (v : Nat) (interval : BitVec 10) : (s.pend v interval).boot = s.boot := by unfold State.pend; dsimp only; (repeat' split) <;> simp
@[simp] theorem State.pend_nv (s : State) (v : Nat) (interval : BitVec 10) : (s.pend v interval).nv = s.nv := by unfold State.pend; dsimp only; (repeat' split) <;> simp
@[simp] theorem State.pend_job (s : State) (v : Nat) (interval : BitVec 10) : (s.pend v interval).job = s.job := by unfold State.pend; dsimp only; (repeat' split) <;> simp
@[simp] theorem State.pend_ckpt (s : State) (v : Nat) (interval : BitVec 10) : (s.pend v interval).ckpt = s.ckpt := by unfold State.pend; dsimp only; (repeat' split) <;> simp
@[simp] theorem State.pend_genhan (s : State) (v : Nat) (interval : BitVec 10) : (s.pend v interval).genhan = s.genhan := by unfold State.pend; dsimp only; (repeat' split) <;> simp
@[simp] theorem State.pend_ctr (s : State) (v : Nat) (interval : BitVec 10) : (s.pend v interval).ctr = s.ctr := by unfold State.pend; dsimp only; (repeat' split) <;> simp
@[simp] theorem State.pend_freeCtr (s : State) (v : Nat) (interval : BitVec 10) : (s.pend v interval).freeCtr = s.freeCtr := by unfold State.pend; dsimp only; (repeat' split) <;> simp
@[simp] theorem State.pend_emitted (s : State) (v : Nat) (interval : BitVec 10) : (s.pend v interval).emitted = s.emitted := by unfold State.pend; dsimp only; (repeat' split) <;> simp

@[simp] theorem State.dropEvent_pending (s : State) : (s.dropEvent).pending = s.pending := rfl
@[simp] theorem State.dropEvent_cores (s : State) : (s.dropEvent).cores = s.cores := rfl
@[simp] theorem State.dropEvent_clusters (s : State) : (s.dropEvent).clusters = s.clusters := rfl
@[simp] theorem State.dropEvent_mesh (s : State) : (s.dropEvent).mesh = s.mesh := rfl
@[simp] theorem State.dropEvent_spent (s : State) : (s.dropEvent).spent = s.spent := rfl
@[simp] theorem State.dropEvent_rr (s : State) : (s.dropEvent).rr = s.rr := rfl
@[simp] theorem State.dropEvent_cuts (s : State) : (s.dropEvent).cuts = s.cuts := rfl
@[simp] theorem State.dropEvent_waiting (s : State) : (s.dropEvent).waiting = s.waiting := rfl
@[simp] theorem State.dropEvent_repairMap (s : State) : (s.dropEvent).repairMap = s.repairMap := rfl
@[simp] theorem State.dropEvent_repairSeq (s : State) : (s.dropEvent).repairSeq = s.repairSeq := rfl
@[simp] theorem State.dropEvent_deep (s : State) : (s.dropEvent).deep = s.deep := rfl
@[simp] theorem State.dropEvent_deepErr (s : State) : (s.dropEvent).deepErr = s.deepErr := rfl
@[simp] theorem State.dropEvent_streams (s : State) : (s.dropEvent).streams = s.streams := rfl
@[simp] theorem State.dropEvent_homes (s : State) : (s.dropEvent).homes = s.homes := rfl
@[simp] theorem State.dropEvent_homeWait (s : State) : (s.dropEvent).homeWait = s.homeWait := rfl
@[simp] theorem State.dropEvent_ports (s : State) : (s.dropEvent).ports = s.ports := rfl
@[simp] theorem State.dropEvent_conns (s : State) : (s.dropEvent).conns = s.conns := rfl
@[simp] theorem State.dropEvent_croutes (s : State) : (s.dropEvent).croutes = s.croutes := rfl
@[simp] theorem State.dropEvent_time (s : State) : (s.dropEvent).time = s.time := rfl
@[simp] theorem State.dropEvent_cascadeId (s : State) : (s.dropEvent).cascadeId = s.cascadeId := rfl
@[simp] theorem State.dropEvent_pkg (s : State) : (s.dropEvent).pkg = s.pkg := rfl
@[simp] theorem State.dropEvent_expect (s : State) : (s.dropEvent).expect = s.expect := rfl
@[simp] theorem State.dropEvent_domains (s : State) : (s.dropEvent).domains = s.domains := rfl
@[simp] theorem State.dropEvent_power (s : State) : (s.dropEvent).power = s.power := rfl
@[simp] theorem State.dropEvent_boot (s : State) : (s.dropEvent).boot = s.boot := rfl
@[simp] theorem State.dropEvent_nv (s : State) : (s.dropEvent).nv = s.nv := rfl
@[simp] theorem State.dropEvent_job (s : State) : (s.dropEvent).job = s.job := rfl
@[simp] theorem State.dropEvent_ckpt (s : State) : (s.dropEvent).ckpt = s.ckpt := rfl
@[simp] theorem State.dropEvent_genhan (s : State) : (s.dropEvent).genhan = s.genhan := rfl
@[simp] theorem State.dropEvent_ctr (s : State) : (s.dropEvent).ctr = s.ctr := rfl
@[simp] theorem State.dropEvent_out (s : State) : (s.dropEvent).out = s.out := rfl
@[simp] theorem State.dropEvent_freeCtr (s : State) : (s.dropEvent).freeCtr = s.freeCtr := rfl
@[simp] theorem State.dropEvent_emitted (s : State) : (s.dropEvent).emitted = s.emitted := rfl

@[simp] theorem State.writeEvent_pending (s : State) (header : Nat) (detail : Bytes) : (s.writeEvent header detail).pending = s.pending := by unfold State.writeEvent; dsimp only; split <;> simp
@[simp] theorem State.writeEvent_cores (s : State) (header : Nat) (detail : Bytes) : (s.writeEvent header detail).cores = s.cores := by unfold State.writeEvent; dsimp only; split <;> simp
@[simp] theorem State.writeEvent_clusters (s : State) (header : Nat) (detail : Bytes) : (s.writeEvent header detail).clusters = s.clusters := by unfold State.writeEvent; dsimp only; split <;> simp
@[simp] theorem State.writeEvent_mesh (s : State) (header : Nat) (detail : Bytes) : (s.writeEvent header detail).mesh = s.mesh := by unfold State.writeEvent; dsimp only; split <;> simp
@[simp] theorem State.writeEvent_spent (s : State) (header : Nat) (detail : Bytes) : (s.writeEvent header detail).spent = s.spent := by unfold State.writeEvent; dsimp only; split <;> simp
@[simp] theorem State.writeEvent_rr (s : State) (header : Nat) (detail : Bytes) : (s.writeEvent header detail).rr = s.rr := by unfold State.writeEvent; dsimp only; split <;> simp
@[simp] theorem State.writeEvent_cuts (s : State) (header : Nat) (detail : Bytes) : (s.writeEvent header detail).cuts = s.cuts := by unfold State.writeEvent; dsimp only; split <;> simp
@[simp] theorem State.writeEvent_waiting (s : State) (header : Nat) (detail : Bytes) : (s.writeEvent header detail).waiting = s.waiting := by unfold State.writeEvent; dsimp only; split <;> simp
@[simp] theorem State.writeEvent_repairMap (s : State) (header : Nat) (detail : Bytes) : (s.writeEvent header detail).repairMap = s.repairMap := by unfold State.writeEvent; dsimp only; split <;> simp
@[simp] theorem State.writeEvent_repairSeq (s : State) (header : Nat) (detail : Bytes) : (s.writeEvent header detail).repairSeq = s.repairSeq := by unfold State.writeEvent; dsimp only; split <;> simp
@[simp] theorem State.writeEvent_deep (s : State) (header : Nat) (detail : Bytes) : (s.writeEvent header detail).deep = s.deep := by unfold State.writeEvent; dsimp only; split <;> simp
@[simp] theorem State.writeEvent_deepErr (s : State) (header : Nat) (detail : Bytes) : (s.writeEvent header detail).deepErr = s.deepErr := by unfold State.writeEvent; dsimp only; split <;> simp
@[simp] theorem State.writeEvent_streams (s : State) (header : Nat) (detail : Bytes) : (s.writeEvent header detail).streams = s.streams := by unfold State.writeEvent; dsimp only; split <;> simp
@[simp] theorem State.writeEvent_homes (s : State) (header : Nat) (detail : Bytes) : (s.writeEvent header detail).homes = s.homes := by unfold State.writeEvent; dsimp only; split <;> simp
@[simp] theorem State.writeEvent_homeWait (s : State) (header : Nat) (detail : Bytes) : (s.writeEvent header detail).homeWait = s.homeWait := by unfold State.writeEvent; dsimp only; split <;> simp
@[simp] theorem State.writeEvent_ports (s : State) (header : Nat) (detail : Bytes) : (s.writeEvent header detail).ports = s.ports := by unfold State.writeEvent; dsimp only; split <;> simp
@[simp] theorem State.writeEvent_conns (s : State) (header : Nat) (detail : Bytes) : (s.writeEvent header detail).conns = s.conns := by unfold State.writeEvent; dsimp only; split <;> simp
@[simp] theorem State.writeEvent_croutes (s : State) (header : Nat) (detail : Bytes) : (s.writeEvent header detail).croutes = s.croutes := by unfold State.writeEvent; dsimp only; split <;> simp
@[simp] theorem State.writeEvent_time (s : State) (header : Nat) (detail : Bytes) : (s.writeEvent header detail).time = s.time := by unfold State.writeEvent; dsimp only; split <;> simp
@[simp] theorem State.writeEvent_cascadeId (s : State) (header : Nat) (detail : Bytes) : (s.writeEvent header detail).cascadeId = s.cascadeId := by unfold State.writeEvent; dsimp only; split <;> simp
@[simp] theorem State.writeEvent_pkg (s : State) (header : Nat) (detail : Bytes) : (s.writeEvent header detail).pkg = s.pkg := by unfold State.writeEvent; dsimp only; split <;> simp
@[simp] theorem State.writeEvent_expect (s : State) (header : Nat) (detail : Bytes) : (s.writeEvent header detail).expect = s.expect := by unfold State.writeEvent; dsimp only; split <;> simp
@[simp] theorem State.writeEvent_domains (s : State) (header : Nat) (detail : Bytes) : (s.writeEvent header detail).domains = s.domains := by unfold State.writeEvent; dsimp only; split <;> simp
@[simp] theorem State.writeEvent_power (s : State) (header : Nat) (detail : Bytes) : (s.writeEvent header detail).power = s.power := by unfold State.writeEvent; dsimp only; split <;> simp
@[simp] theorem State.writeEvent_boot (s : State) (header : Nat) (detail : Bytes) : (s.writeEvent header detail).boot = s.boot := by unfold State.writeEvent; dsimp only; split <;> simp
@[simp] theorem State.writeEvent_nv (s : State) (header : Nat) (detail : Bytes) : (s.writeEvent header detail).nv = s.nv := by unfold State.writeEvent; dsimp only; split <;> simp
@[simp] theorem State.writeEvent_job (s : State) (header : Nat) (detail : Bytes) : (s.writeEvent header detail).job = s.job := by unfold State.writeEvent; dsimp only; split <;> simp
@[simp] theorem State.writeEvent_ckpt (s : State) (header : Nat) (detail : Bytes) : (s.writeEvent header detail).ckpt = s.ckpt := by unfold State.writeEvent; dsimp only; split <;> simp
@[simp] theorem State.writeEvent_genhan (s : State) (header : Nat) (detail : Bytes) : (s.writeEvent header detail).genhan = s.genhan := by unfold State.writeEvent; dsimp only; split <;> simp
@[simp] theorem State.writeEvent_ctr (s : State) (header : Nat) (detail : Bytes) : (s.writeEvent header detail).ctr = s.ctr := by unfold State.writeEvent; dsimp only; split <;> simp
@[simp] theorem State.writeEvent_freeCtr (s : State) (header : Nat) (detail : Bytes) : (s.writeEvent header detail).freeCtr = s.freeCtr := by unfold State.writeEvent; dsimp only; split <;> simp
@[simp] theorem State.writeEvent_emitted (s : State) (header : Nat) (detail : Bytes) : (s.writeEvent header detail).emitted = s.emitted := by unfold State.writeEvent; dsimp only; split <;> simp

@[simp] theorem State.raiseEvent_pending (s : State) (code : Nat) (src : Option LCore) (detail : Bytes) : (s.raiseEvent code src detail).pending = s.pending := by unfold State.raiseEvent; dsimp only; (repeat' split) <;> simp
@[simp] theorem State.raiseEvent_cores (s : State) (code : Nat) (src : Option LCore) (detail : Bytes) : (s.raiseEvent code src detail).cores = s.cores := by unfold State.raiseEvent; dsimp only; (repeat' split) <;> simp
@[simp] theorem State.raiseEvent_clusters (s : State) (code : Nat) (src : Option LCore) (detail : Bytes) : (s.raiseEvent code src detail).clusters = s.clusters := by unfold State.raiseEvent; dsimp only; (repeat' split) <;> simp
@[simp] theorem State.raiseEvent_mesh (s : State) (code : Nat) (src : Option LCore) (detail : Bytes) : (s.raiseEvent code src detail).mesh = s.mesh := by unfold State.raiseEvent; dsimp only; (repeat' split) <;> simp
@[simp] theorem State.raiseEvent_spent (s : State) (code : Nat) (src : Option LCore) (detail : Bytes) : (s.raiseEvent code src detail).spent = s.spent := by unfold State.raiseEvent; dsimp only; (repeat' split) <;> simp
@[simp] theorem State.raiseEvent_rr (s : State) (code : Nat) (src : Option LCore) (detail : Bytes) : (s.raiseEvent code src detail).rr = s.rr := by unfold State.raiseEvent; dsimp only; (repeat' split) <;> simp
@[simp] theorem State.raiseEvent_cuts (s : State) (code : Nat) (src : Option LCore) (detail : Bytes) : (s.raiseEvent code src detail).cuts = s.cuts := by unfold State.raiseEvent; dsimp only; (repeat' split) <;> simp
@[simp] theorem State.raiseEvent_waiting (s : State) (code : Nat) (src : Option LCore) (detail : Bytes) : (s.raiseEvent code src detail).waiting = s.waiting := by unfold State.raiseEvent; dsimp only; (repeat' split) <;> simp
@[simp] theorem State.raiseEvent_repairMap (s : State) (code : Nat) (src : Option LCore) (detail : Bytes) : (s.raiseEvent code src detail).repairMap = s.repairMap := by unfold State.raiseEvent; dsimp only; (repeat' split) <;> simp
@[simp] theorem State.raiseEvent_repairSeq (s : State) (code : Nat) (src : Option LCore) (detail : Bytes) : (s.raiseEvent code src detail).repairSeq = s.repairSeq := by unfold State.raiseEvent; dsimp only; (repeat' split) <;> simp
@[simp] theorem State.raiseEvent_deep (s : State) (code : Nat) (src : Option LCore) (detail : Bytes) : (s.raiseEvent code src detail).deep = s.deep := by unfold State.raiseEvent; dsimp only; (repeat' split) <;> simp
@[simp] theorem State.raiseEvent_deepErr (s : State) (code : Nat) (src : Option LCore) (detail : Bytes) : (s.raiseEvent code src detail).deepErr = s.deepErr := by unfold State.raiseEvent; dsimp only; (repeat' split) <;> simp
@[simp] theorem State.raiseEvent_streams (s : State) (code : Nat) (src : Option LCore) (detail : Bytes) : (s.raiseEvent code src detail).streams = s.streams := by unfold State.raiseEvent; dsimp only; (repeat' split) <;> simp
@[simp] theorem State.raiseEvent_homes (s : State) (code : Nat) (src : Option LCore) (detail : Bytes) : (s.raiseEvent code src detail).homes = s.homes := by unfold State.raiseEvent; dsimp only; (repeat' split) <;> simp
@[simp] theorem State.raiseEvent_homeWait (s : State) (code : Nat) (src : Option LCore) (detail : Bytes) : (s.raiseEvent code src detail).homeWait = s.homeWait := by unfold State.raiseEvent; dsimp only; (repeat' split) <;> simp
@[simp] theorem State.raiseEvent_ports (s : State) (code : Nat) (src : Option LCore) (detail : Bytes) : (s.raiseEvent code src detail).ports = s.ports := by unfold State.raiseEvent; dsimp only; (repeat' split) <;> simp
@[simp] theorem State.raiseEvent_conns (s : State) (code : Nat) (src : Option LCore) (detail : Bytes) : (s.raiseEvent code src detail).conns = s.conns := by unfold State.raiseEvent; dsimp only; (repeat' split) <;> simp
@[simp] theorem State.raiseEvent_croutes (s : State) (code : Nat) (src : Option LCore) (detail : Bytes) : (s.raiseEvent code src detail).croutes = s.croutes := by unfold State.raiseEvent; dsimp only; (repeat' split) <;> simp
@[simp] theorem State.raiseEvent_time (s : State) (code : Nat) (src : Option LCore) (detail : Bytes) : (s.raiseEvent code src detail).time = s.time := by unfold State.raiseEvent; dsimp only; (repeat' split) <;> simp
@[simp] theorem State.raiseEvent_cascadeId (s : State) (code : Nat) (src : Option LCore) (detail : Bytes) : (s.raiseEvent code src detail).cascadeId = s.cascadeId := by unfold State.raiseEvent; dsimp only; (repeat' split) <;> simp
@[simp] theorem State.raiseEvent_pkg (s : State) (code : Nat) (src : Option LCore) (detail : Bytes) : (s.raiseEvent code src detail).pkg = s.pkg := by unfold State.raiseEvent; dsimp only; (repeat' split) <;> simp
@[simp] theorem State.raiseEvent_expect (s : State) (code : Nat) (src : Option LCore) (detail : Bytes) : (s.raiseEvent code src detail).expect = s.expect := by unfold State.raiseEvent; dsimp only; (repeat' split) <;> simp
@[simp] theorem State.raiseEvent_domains (s : State) (code : Nat) (src : Option LCore) (detail : Bytes) : (s.raiseEvent code src detail).domains = s.domains := by unfold State.raiseEvent; dsimp only; (repeat' split) <;> simp
@[simp] theorem State.raiseEvent_power (s : State) (code : Nat) (src : Option LCore) (detail : Bytes) : (s.raiseEvent code src detail).power = s.power := by unfold State.raiseEvent; dsimp only; (repeat' split) <;> simp
@[simp] theorem State.raiseEvent_boot (s : State) (code : Nat) (src : Option LCore) (detail : Bytes) : (s.raiseEvent code src detail).boot = s.boot := by unfold State.raiseEvent; dsimp only; (repeat' split) <;> simp
@[simp] theorem State.raiseEvent_nv (s : State) (code : Nat) (src : Option LCore) (detail : Bytes) : (s.raiseEvent code src detail).nv = s.nv := by unfold State.raiseEvent; dsimp only; (repeat' split) <;> simp
@[simp] theorem State.raiseEvent_job (s : State) (code : Nat) (src : Option LCore) (detail : Bytes) : (s.raiseEvent code src detail).job = s.job := by unfold State.raiseEvent; dsimp only; (repeat' split) <;> simp
@[simp] theorem State.raiseEvent_ckpt (s : State) (code : Nat) (src : Option LCore) (detail : Bytes) : (s.raiseEvent code src detail).ckpt = s.ckpt := by unfold State.raiseEvent; dsimp only; (repeat' split) <;> simp
@[simp] theorem State.raiseEvent_genhan (s : State) (code : Nat) (src : Option LCore) (detail : Bytes) : (s.raiseEvent code src detail).genhan = s.genhan := by unfold State.raiseEvent; dsimp only; (repeat' split) <;> simp
@[simp] theorem State.raiseEvent_ctr (s : State) (code : Nat) (src : Option LCore) (detail : Bytes) : (s.raiseEvent code src detail).ctr = s.ctr := by unfold State.raiseEvent; dsimp only; (repeat' split) <;> simp
@[simp] theorem State.raiseEvent_freeCtr (s : State) (code : Nat) (src : Option LCore) (detail : Bytes) : (s.raiseEvent code src detail).freeCtr = s.freeCtr := by unfold State.raiseEvent; dsimp only; (repeat' split) <;> simp
@[simp] theorem State.raiseEvent_emitted (s : State) (code : Nat) (src : Option LCore) (detail : Bytes) : (s.raiseEvent code src detail).emitted = s.emitted := by unfold State.raiseEvent; dsimp only; (repeat' split) <;> simp

@[simp] theorem State.setPacket_pending (s : State) (n : Nat) (p : Packet) : (s.setPacket n p).pending = s.pending := rfl
@[simp] theorem State.setPacket_cores (s : State) (n : Nat) (p : Packet) : (s.setPacket n p).cores = s.cores := rfl
@[simp] theorem State.setPacket_clusters (s : State) (n : Nat) (p : Packet) : (s.setPacket n p).clusters = s.clusters := rfl
@[simp] theorem State.setPacket_spent (s : State) (n : Nat) (p : Packet) : (s.setPacket n p).spent = s.spent := rfl
@[simp] theorem State.setPacket_rr (s : State) (n : Nat) (p : Packet) : (s.setPacket n p).rr = s.rr := rfl
@[simp] theorem State.setPacket_cuts (s : State) (n : Nat) (p : Packet) : (s.setPacket n p).cuts = s.cuts := rfl
@[simp] theorem State.setPacket_waiting (s : State) (n : Nat) (p : Packet) : (s.setPacket n p).waiting = s.waiting := rfl
@[simp] theorem State.setPacket_repairMap (s : State) (n : Nat) (p : Packet) : (s.setPacket n p).repairMap = s.repairMap := rfl
@[simp] theorem State.setPacket_repairSeq (s : State) (n : Nat) (p : Packet) : (s.setPacket n p).repairSeq = s.repairSeq := rfl
@[simp] theorem State.setPacket_deep (s : State) (n : Nat) (p : Packet) : (s.setPacket n p).deep = s.deep := rfl
@[simp] theorem State.setPacket_deepErr (s : State) (n : Nat) (p : Packet) : (s.setPacket n p).deepErr = s.deepErr := rfl
@[simp] theorem State.setPacket_streams (s : State) (n : Nat) (p : Packet) : (s.setPacket n p).streams = s.streams := rfl
@[simp] theorem State.setPacket_homes (s : State) (n : Nat) (p : Packet) : (s.setPacket n p).homes = s.homes := rfl
@[simp] theorem State.setPacket_homeWait (s : State) (n : Nat) (p : Packet) : (s.setPacket n p).homeWait = s.homeWait := rfl
@[simp] theorem State.setPacket_ports (s : State) (n : Nat) (p : Packet) : (s.setPacket n p).ports = s.ports := rfl
@[simp] theorem State.setPacket_conns (s : State) (n : Nat) (p : Packet) : (s.setPacket n p).conns = s.conns := rfl
@[simp] theorem State.setPacket_croutes (s : State) (n : Nat) (p : Packet) : (s.setPacket n p).croutes = s.croutes := rfl
@[simp] theorem State.setPacket_time (s : State) (n : Nat) (p : Packet) : (s.setPacket n p).time = s.time := rfl
@[simp] theorem State.setPacket_cascadeId (s : State) (n : Nat) (p : Packet) : (s.setPacket n p).cascadeId = s.cascadeId := rfl
@[simp] theorem State.setPacket_pkg (s : State) (n : Nat) (p : Packet) : (s.setPacket n p).pkg = s.pkg := rfl
@[simp] theorem State.setPacket_expect (s : State) (n : Nat) (p : Packet) : (s.setPacket n p).expect = s.expect := rfl
@[simp] theorem State.setPacket_domains (s : State) (n : Nat) (p : Packet) : (s.setPacket n p).domains = s.domains := rfl
@[simp] theorem State.setPacket_power (s : State) (n : Nat) (p : Packet) : (s.setPacket n p).power = s.power := rfl
@[simp] theorem State.setPacket_boot (s : State) (n : Nat) (p : Packet) : (s.setPacket n p).boot = s.boot := rfl
@[simp] theorem State.setPacket_nv (s : State) (n : Nat) (p : Packet) : (s.setPacket n p).nv = s.nv := rfl
@[simp] theorem State.setPacket_job (s : State) (n : Nat) (p : Packet) : (s.setPacket n p).job = s.job := rfl
@[simp] theorem State.setPacket_ckpt (s : State) (n : Nat) (p : Packet) : (s.setPacket n p).ckpt = s.ckpt := rfl
@[simp] theorem State.setPacket_genhan (s : State) (n : Nat) (p : Packet) : (s.setPacket n p).genhan = s.genhan := rfl
@[simp] theorem State.setPacket_host (s : State) (n : Nat) (p : Packet) : (s.setPacket n p).host = s.host := rfl
@[simp] theorem State.setPacket_ctr (s : State) (n : Nat) (p : Packet) : (s.setPacket n p).ctr = s.ctr := rfl
@[simp] theorem State.setPacket_out (s : State) (n : Nat) (p : Packet) : (s.setPacket n p).out = s.out := rfl
@[simp] theorem State.setPacket_freeCtr (s : State) (n : Nat) (p : Packet) : (s.setPacket n p).freeCtr = s.freeCtr := rfl
@[simp] theorem State.setPacket_emitted (s : State) (n : Nat) (p : Packet) : (s.setPacket n p).emitted = s.emitted := rfl

@[simp] theorem State.putStream_pending (s : State) (m n : Nat) (t : Stream) : (s.putStream m n t).pending = s.pending := rfl
@[simp] theorem State.putStream_cores (s : State) (m n : Nat) (t : Stream) : (s.putStream m n t).cores = s.cores := rfl
@[simp] theorem State.putStream_clusters (s : State) (m n : Nat) (t : Stream) : (s.putStream m n t).clusters = s.clusters := rfl
@[simp] theorem State.putStream_mesh (s : State) (m n : Nat) (t : Stream) : (s.putStream m n t).mesh = s.mesh := rfl
@[simp] theorem State.putStream_spent (s : State) (m n : Nat) (t : Stream) : (s.putStream m n t).spent = s.spent := rfl
@[simp] theorem State.putStream_rr (s : State) (m n : Nat) (t : Stream) : (s.putStream m n t).rr = s.rr := rfl
@[simp] theorem State.putStream_cuts (s : State) (m n : Nat) (t : Stream) : (s.putStream m n t).cuts = s.cuts := rfl
@[simp] theorem State.putStream_waiting (s : State) (m n : Nat) (t : Stream) : (s.putStream m n t).waiting = s.waiting := rfl
@[simp] theorem State.putStream_repairMap (s : State) (m n : Nat) (t : Stream) : (s.putStream m n t).repairMap = s.repairMap := rfl
@[simp] theorem State.putStream_repairSeq (s : State) (m n : Nat) (t : Stream) : (s.putStream m n t).repairSeq = s.repairSeq := rfl
@[simp] theorem State.putStream_deep (s : State) (m n : Nat) (t : Stream) : (s.putStream m n t).deep = s.deep := rfl
@[simp] theorem State.putStream_deepErr (s : State) (m n : Nat) (t : Stream) : (s.putStream m n t).deepErr = s.deepErr := rfl
@[simp] theorem State.putStream_homes (s : State) (m n : Nat) (t : Stream) : (s.putStream m n t).homes = s.homes := rfl
@[simp] theorem State.putStream_homeWait (s : State) (m n : Nat) (t : Stream) : (s.putStream m n t).homeWait = s.homeWait := rfl
@[simp] theorem State.putStream_ports (s : State) (m n : Nat) (t : Stream) : (s.putStream m n t).ports = s.ports := rfl
@[simp] theorem State.putStream_conns (s : State) (m n : Nat) (t : Stream) : (s.putStream m n t).conns = s.conns := rfl
@[simp] theorem State.putStream_croutes (s : State) (m n : Nat) (t : Stream) : (s.putStream m n t).croutes = s.croutes := rfl
@[simp] theorem State.putStream_time (s : State) (m n : Nat) (t : Stream) : (s.putStream m n t).time = s.time := rfl
@[simp] theorem State.putStream_cascadeId (s : State) (m n : Nat) (t : Stream) : (s.putStream m n t).cascadeId = s.cascadeId := rfl
@[simp] theorem State.putStream_pkg (s : State) (m n : Nat) (t : Stream) : (s.putStream m n t).pkg = s.pkg := rfl
@[simp] theorem State.putStream_expect (s : State) (m n : Nat) (t : Stream) : (s.putStream m n t).expect = s.expect := rfl
@[simp] theorem State.putStream_domains (s : State) (m n : Nat) (t : Stream) : (s.putStream m n t).domains = s.domains := rfl
@[simp] theorem State.putStream_power (s : State) (m n : Nat) (t : Stream) : (s.putStream m n t).power = s.power := rfl
@[simp] theorem State.putStream_boot (s : State) (m n : Nat) (t : Stream) : (s.putStream m n t).boot = s.boot := rfl
@[simp] theorem State.putStream_nv (s : State) (m n : Nat) (t : Stream) : (s.putStream m n t).nv = s.nv := rfl
@[simp] theorem State.putStream_job (s : State) (m n : Nat) (t : Stream) : (s.putStream m n t).job = s.job := rfl
@[simp] theorem State.putStream_ckpt (s : State) (m n : Nat) (t : Stream) : (s.putStream m n t).ckpt = s.ckpt := rfl
@[simp] theorem State.putStream_genhan (s : State) (m n : Nat) (t : Stream) : (s.putStream m n t).genhan = s.genhan := rfl
@[simp] theorem State.putStream_host (s : State) (m n : Nat) (t : Stream) : (s.putStream m n t).host = s.host := rfl
@[simp] theorem State.putStream_ctr (s : State) (m n : Nat) (t : Stream) : (s.putStream m n t).ctr = s.ctr := rfl
@[simp] theorem State.putStream_out (s : State) (m n : Nat) (t : Stream) : (s.putStream m n t).out = s.out := rfl
@[simp] theorem State.putStream_freeCtr (s : State) (m n : Nat) (t : Stream) : (s.putStream m n t).freeCtr = s.freeCtr := rfl
@[simp] theorem State.putStream_emitted (s : State) (m n : Nat) (t : Stream) : (s.putStream m n t).emitted = s.emitted := rfl

@[simp] theorem State.setHome_pending (s : State) (m : Nat) (x : Option HomeOp) : (s.setHome m x).pending = s.pending := rfl
@[simp] theorem State.setHome_cores (s : State) (m : Nat) (x : Option HomeOp) : (s.setHome m x).cores = s.cores := rfl
@[simp] theorem State.setHome_clusters (s : State) (m : Nat) (x : Option HomeOp) : (s.setHome m x).clusters = s.clusters := rfl
@[simp] theorem State.setHome_mesh (s : State) (m : Nat) (x : Option HomeOp) : (s.setHome m x).mesh = s.mesh := rfl
@[simp] theorem State.setHome_spent (s : State) (m : Nat) (x : Option HomeOp) : (s.setHome m x).spent = s.spent := rfl
@[simp] theorem State.setHome_rr (s : State) (m : Nat) (x : Option HomeOp) : (s.setHome m x).rr = s.rr := rfl
@[simp] theorem State.setHome_cuts (s : State) (m : Nat) (x : Option HomeOp) : (s.setHome m x).cuts = s.cuts := rfl
@[simp] theorem State.setHome_waiting (s : State) (m : Nat) (x : Option HomeOp) : (s.setHome m x).waiting = s.waiting := rfl
@[simp] theorem State.setHome_repairMap (s : State) (m : Nat) (x : Option HomeOp) : (s.setHome m x).repairMap = s.repairMap := rfl
@[simp] theorem State.setHome_repairSeq (s : State) (m : Nat) (x : Option HomeOp) : (s.setHome m x).repairSeq = s.repairSeq := rfl
@[simp] theorem State.setHome_deep (s : State) (m : Nat) (x : Option HomeOp) : (s.setHome m x).deep = s.deep := rfl
@[simp] theorem State.setHome_deepErr (s : State) (m : Nat) (x : Option HomeOp) : (s.setHome m x).deepErr = s.deepErr := rfl
@[simp] theorem State.setHome_streams (s : State) (m : Nat) (x : Option HomeOp) : (s.setHome m x).streams = s.streams := rfl
@[simp] theorem State.setHome_ports (s : State) (m : Nat) (x : Option HomeOp) : (s.setHome m x).ports = s.ports := rfl
@[simp] theorem State.setHome_conns (s : State) (m : Nat) (x : Option HomeOp) : (s.setHome m x).conns = s.conns := rfl
@[simp] theorem State.setHome_croutes (s : State) (m : Nat) (x : Option HomeOp) : (s.setHome m x).croutes = s.croutes := rfl
@[simp] theorem State.setHome_time (s : State) (m : Nat) (x : Option HomeOp) : (s.setHome m x).time = s.time := rfl
@[simp] theorem State.setHome_cascadeId (s : State) (m : Nat) (x : Option HomeOp) : (s.setHome m x).cascadeId = s.cascadeId := rfl
@[simp] theorem State.setHome_pkg (s : State) (m : Nat) (x : Option HomeOp) : (s.setHome m x).pkg = s.pkg := rfl
@[simp] theorem State.setHome_expect (s : State) (m : Nat) (x : Option HomeOp) : (s.setHome m x).expect = s.expect := rfl
@[simp] theorem State.setHome_domains (s : State) (m : Nat) (x : Option HomeOp) : (s.setHome m x).domains = s.domains := rfl
@[simp] theorem State.setHome_power (s : State) (m : Nat) (x : Option HomeOp) : (s.setHome m x).power = s.power := rfl
@[simp] theorem State.setHome_boot (s : State) (m : Nat) (x : Option HomeOp) : (s.setHome m x).boot = s.boot := rfl
@[simp] theorem State.setHome_nv (s : State) (m : Nat) (x : Option HomeOp) : (s.setHome m x).nv = s.nv := rfl
@[simp] theorem State.setHome_job (s : State) (m : Nat) (x : Option HomeOp) : (s.setHome m x).job = s.job := rfl
@[simp] theorem State.setHome_ckpt (s : State) (m : Nat) (x : Option HomeOp) : (s.setHome m x).ckpt = s.ckpt := rfl
@[simp] theorem State.setHome_genhan (s : State) (m : Nat) (x : Option HomeOp) : (s.setHome m x).genhan = s.genhan := rfl
@[simp] theorem State.setHome_host (s : State) (m : Nat) (x : Option HomeOp) : (s.setHome m x).host = s.host := rfl
@[simp] theorem State.setHome_ctr (s : State) (m : Nat) (x : Option HomeOp) : (s.setHome m x).ctr = s.ctr := rfl
@[simp] theorem State.setHome_out (s : State) (m : Nat) (x : Option HomeOp) : (s.setHome m x).out = s.out := rfl
@[simp] theorem State.setHome_freeCtr (s : State) (m : Nat) (x : Option HomeOp) : (s.setHome m x).freeCtr = s.freeCtr := rfl
@[simp] theorem State.setHome_emitted (s : State) (m : Nat) (x : Option HomeOp) : (s.setHome m x).emitted = s.emitted := rfl

@[simp] theorem State.putConn_pending (s : State) (l i : Nat) (e : BitVec 128) : (s.putConn l i e).pending = s.pending := rfl
@[simp] theorem State.putConn_cores (s : State) (l i : Nat) (e : BitVec 128) : (s.putConn l i e).cores = s.cores := rfl
@[simp] theorem State.putConn_clusters (s : State) (l i : Nat) (e : BitVec 128) : (s.putConn l i e).clusters = s.clusters := rfl
@[simp] theorem State.putConn_mesh (s : State) (l i : Nat) (e : BitVec 128) : (s.putConn l i e).mesh = s.mesh := rfl
@[simp] theorem State.putConn_spent (s : State) (l i : Nat) (e : BitVec 128) : (s.putConn l i e).spent = s.spent := rfl
@[simp] theorem State.putConn_rr (s : State) (l i : Nat) (e : BitVec 128) : (s.putConn l i e).rr = s.rr := rfl
@[simp] theorem State.putConn_cuts (s : State) (l i : Nat) (e : BitVec 128) : (s.putConn l i e).cuts = s.cuts := rfl
@[simp] theorem State.putConn_waiting (s : State) (l i : Nat) (e : BitVec 128) : (s.putConn l i e).waiting = s.waiting := rfl
@[simp] theorem State.putConn_repairMap (s : State) (l i : Nat) (e : BitVec 128) : (s.putConn l i e).repairMap = s.repairMap := rfl
@[simp] theorem State.putConn_repairSeq (s : State) (l i : Nat) (e : BitVec 128) : (s.putConn l i e).repairSeq = s.repairSeq := rfl
@[simp] theorem State.putConn_deep (s : State) (l i : Nat) (e : BitVec 128) : (s.putConn l i e).deep = s.deep := rfl
@[simp] theorem State.putConn_deepErr (s : State) (l i : Nat) (e : BitVec 128) : (s.putConn l i e).deepErr = s.deepErr := rfl
@[simp] theorem State.putConn_streams (s : State) (l i : Nat) (e : BitVec 128) : (s.putConn l i e).streams = s.streams := rfl
@[simp] theorem State.putConn_homes (s : State) (l i : Nat) (e : BitVec 128) : (s.putConn l i e).homes = s.homes := rfl
@[simp] theorem State.putConn_homeWait (s : State) (l i : Nat) (e : BitVec 128) : (s.putConn l i e).homeWait = s.homeWait := rfl
@[simp] theorem State.putConn_ports (s : State) (l i : Nat) (e : BitVec 128) : (s.putConn l i e).ports = s.ports := rfl
@[simp] theorem State.putConn_croutes (s : State) (l i : Nat) (e : BitVec 128) : (s.putConn l i e).croutes = s.croutes := rfl
@[simp] theorem State.putConn_time (s : State) (l i : Nat) (e : BitVec 128) : (s.putConn l i e).time = s.time := rfl
@[simp] theorem State.putConn_cascadeId (s : State) (l i : Nat) (e : BitVec 128) : (s.putConn l i e).cascadeId = s.cascadeId := rfl
@[simp] theorem State.putConn_pkg (s : State) (l i : Nat) (e : BitVec 128) : (s.putConn l i e).pkg = s.pkg := rfl
@[simp] theorem State.putConn_expect (s : State) (l i : Nat) (e : BitVec 128) : (s.putConn l i e).expect = s.expect := rfl
@[simp] theorem State.putConn_domains (s : State) (l i : Nat) (e : BitVec 128) : (s.putConn l i e).domains = s.domains := rfl
@[simp] theorem State.putConn_power (s : State) (l i : Nat) (e : BitVec 128) : (s.putConn l i e).power = s.power := rfl
@[simp] theorem State.putConn_boot (s : State) (l i : Nat) (e : BitVec 128) : (s.putConn l i e).boot = s.boot := rfl
@[simp] theorem State.putConn_nv (s : State) (l i : Nat) (e : BitVec 128) : (s.putConn l i e).nv = s.nv := rfl
@[simp] theorem State.putConn_job (s : State) (l i : Nat) (e : BitVec 128) : (s.putConn l i e).job = s.job := rfl
@[simp] theorem State.putConn_ckpt (s : State) (l i : Nat) (e : BitVec 128) : (s.putConn l i e).ckpt = s.ckpt := rfl
@[simp] theorem State.putConn_genhan (s : State) (l i : Nat) (e : BitVec 128) : (s.putConn l i e).genhan = s.genhan := rfl
@[simp] theorem State.putConn_host (s : State) (l i : Nat) (e : BitVec 128) : (s.putConn l i e).host = s.host := rfl
@[simp] theorem State.putConn_ctr (s : State) (l i : Nat) (e : BitVec 128) : (s.putConn l i e).ctr = s.ctr := rfl
@[simp] theorem State.putConn_out (s : State) (l i : Nat) (e : BitVec 128) : (s.putConn l i e).out = s.out := rfl
@[simp] theorem State.putConn_freeCtr (s : State) (l i : Nat) (e : BitVec 128) : (s.putConn l i e).freeCtr = s.freeCtr := rfl
@[simp] theorem State.putConn_emitted (s : State) (l i : Nat) (e : BitVec 128) : (s.putConn l i e).emitted = s.emitted := rfl

@[simp] theorem State.putPort_pending (s : State) (i : Nat) (p : Port) : (s.putPort i p).pending = s.pending := rfl
@[simp] theorem State.putPort_cores (s : State) (i : Nat) (p : Port) : (s.putPort i p).cores = s.cores := rfl
@[simp] theorem State.putPort_clusters (s : State) (i : Nat) (p : Port) : (s.putPort i p).clusters = s.clusters := rfl
@[simp] theorem State.putPort_mesh (s : State) (i : Nat) (p : Port) : (s.putPort i p).mesh = s.mesh := rfl
@[simp] theorem State.putPort_spent (s : State) (i : Nat) (p : Port) : (s.putPort i p).spent = s.spent := rfl
@[simp] theorem State.putPort_rr (s : State) (i : Nat) (p : Port) : (s.putPort i p).rr = s.rr := rfl
@[simp] theorem State.putPort_cuts (s : State) (i : Nat) (p : Port) : (s.putPort i p).cuts = s.cuts := rfl
@[simp] theorem State.putPort_waiting (s : State) (i : Nat) (p : Port) : (s.putPort i p).waiting = s.waiting := rfl
@[simp] theorem State.putPort_repairMap (s : State) (i : Nat) (p : Port) : (s.putPort i p).repairMap = s.repairMap := rfl
@[simp] theorem State.putPort_repairSeq (s : State) (i : Nat) (p : Port) : (s.putPort i p).repairSeq = s.repairSeq := rfl
@[simp] theorem State.putPort_deep (s : State) (i : Nat) (p : Port) : (s.putPort i p).deep = s.deep := rfl
@[simp] theorem State.putPort_deepErr (s : State) (i : Nat) (p : Port) : (s.putPort i p).deepErr = s.deepErr := rfl
@[simp] theorem State.putPort_streams (s : State) (i : Nat) (p : Port) : (s.putPort i p).streams = s.streams := rfl
@[simp] theorem State.putPort_homes (s : State) (i : Nat) (p : Port) : (s.putPort i p).homes = s.homes := rfl
@[simp] theorem State.putPort_homeWait (s : State) (i : Nat) (p : Port) : (s.putPort i p).homeWait = s.homeWait := rfl
@[simp] theorem State.putPort_conns (s : State) (i : Nat) (p : Port) : (s.putPort i p).conns = s.conns := rfl
@[simp] theorem State.putPort_croutes (s : State) (i : Nat) (p : Port) : (s.putPort i p).croutes = s.croutes := rfl
@[simp] theorem State.putPort_time (s : State) (i : Nat) (p : Port) : (s.putPort i p).time = s.time := rfl
@[simp] theorem State.putPort_cascadeId (s : State) (i : Nat) (p : Port) : (s.putPort i p).cascadeId = s.cascadeId := rfl
@[simp] theorem State.putPort_pkg (s : State) (i : Nat) (p : Port) : (s.putPort i p).pkg = s.pkg := rfl
@[simp] theorem State.putPort_expect (s : State) (i : Nat) (p : Port) : (s.putPort i p).expect = s.expect := rfl
@[simp] theorem State.putPort_domains (s : State) (i : Nat) (p : Port) : (s.putPort i p).domains = s.domains := rfl
@[simp] theorem State.putPort_power (s : State) (i : Nat) (p : Port) : (s.putPort i p).power = s.power := rfl
@[simp] theorem State.putPort_boot (s : State) (i : Nat) (p : Port) : (s.putPort i p).boot = s.boot := rfl
@[simp] theorem State.putPort_nv (s : State) (i : Nat) (p : Port) : (s.putPort i p).nv = s.nv := rfl
@[simp] theorem State.putPort_job (s : State) (i : Nat) (p : Port) : (s.putPort i p).job = s.job := rfl
@[simp] theorem State.putPort_ckpt (s : State) (i : Nat) (p : Port) : (s.putPort i p).ckpt = s.ckpt := rfl
@[simp] theorem State.putPort_genhan (s : State) (i : Nat) (p : Port) : (s.putPort i p).genhan = s.genhan := rfl
@[simp] theorem State.putPort_host (s : State) (i : Nat) (p : Port) : (s.putPort i p).host = s.host := rfl
@[simp] theorem State.putPort_ctr (s : State) (i : Nat) (p : Port) : (s.putPort i p).ctr = s.ctr := rfl
@[simp] theorem State.putPort_out (s : State) (i : Nat) (p : Port) : (s.putPort i p).out = s.out := rfl
@[simp] theorem State.putPort_freeCtr (s : State) (i : Nat) (p : Port) : (s.putPort i p).freeCtr = s.freeCtr := rfl
@[simp] theorem State.putPort_emitted (s : State) (i : Nat) (p : Port) : (s.putPort i p).emitted = s.emitted := rfl

@[simp] theorem State.modPort_pending (s : State) (i : Nat) (f : Port → Port) : (s.modPort i f).pending = s.pending := rfl
@[simp] theorem State.modPort_cores (s : State) (i : Nat) (f : Port → Port) : (s.modPort i f).cores = s.cores := rfl
@[simp] theorem State.modPort_clusters (s : State) (i : Nat) (f : Port → Port) : (s.modPort i f).clusters = s.clusters := rfl
@[simp] theorem State.modPort_mesh (s : State) (i : Nat) (f : Port → Port) : (s.modPort i f).mesh = s.mesh := rfl
@[simp] theorem State.modPort_spent (s : State) (i : Nat) (f : Port → Port) : (s.modPort i f).spent = s.spent := rfl
@[simp] theorem State.modPort_rr (s : State) (i : Nat) (f : Port → Port) : (s.modPort i f).rr = s.rr := rfl
@[simp] theorem State.modPort_cuts (s : State) (i : Nat) (f : Port → Port) : (s.modPort i f).cuts = s.cuts := rfl
@[simp] theorem State.modPort_waiting (s : State) (i : Nat) (f : Port → Port) : (s.modPort i f).waiting = s.waiting := rfl
@[simp] theorem State.modPort_repairMap (s : State) (i : Nat) (f : Port → Port) : (s.modPort i f).repairMap = s.repairMap := rfl
@[simp] theorem State.modPort_repairSeq (s : State) (i : Nat) (f : Port → Port) : (s.modPort i f).repairSeq = s.repairSeq := rfl
@[simp] theorem State.modPort_deep (s : State) (i : Nat) (f : Port → Port) : (s.modPort i f).deep = s.deep := rfl
@[simp] theorem State.modPort_deepErr (s : State) (i : Nat) (f : Port → Port) : (s.modPort i f).deepErr = s.deepErr := rfl
@[simp] theorem State.modPort_streams (s : State) (i : Nat) (f : Port → Port) : (s.modPort i f).streams = s.streams := rfl
@[simp] theorem State.modPort_homes (s : State) (i : Nat) (f : Port → Port) : (s.modPort i f).homes = s.homes := rfl
@[simp] theorem State.modPort_homeWait (s : State) (i : Nat) (f : Port → Port) : (s.modPort i f).homeWait = s.homeWait := rfl
@[simp] theorem State.modPort_conns (s : State) (i : Nat) (f : Port → Port) : (s.modPort i f).conns = s.conns := rfl
@[simp] theorem State.modPort_croutes (s : State) (i : Nat) (f : Port → Port) : (s.modPort i f).croutes = s.croutes := rfl
@[simp] theorem State.modPort_time (s : State) (i : Nat) (f : Port → Port) : (s.modPort i f).time = s.time := rfl
@[simp] theorem State.modPort_cascadeId (s : State) (i : Nat) (f : Port → Port) : (s.modPort i f).cascadeId = s.cascadeId := rfl
@[simp] theorem State.modPort_pkg (s : State) (i : Nat) (f : Port → Port) : (s.modPort i f).pkg = s.pkg := rfl
@[simp] theorem State.modPort_expect (s : State) (i : Nat) (f : Port → Port) : (s.modPort i f).expect = s.expect := rfl
@[simp] theorem State.modPort_domains (s : State) (i : Nat) (f : Port → Port) : (s.modPort i f).domains = s.domains := rfl
@[simp] theorem State.modPort_power (s : State) (i : Nat) (f : Port → Port) : (s.modPort i f).power = s.power := rfl
@[simp] theorem State.modPort_boot (s : State) (i : Nat) (f : Port → Port) : (s.modPort i f).boot = s.boot := rfl
@[simp] theorem State.modPort_nv (s : State) (i : Nat) (f : Port → Port) : (s.modPort i f).nv = s.nv := rfl
@[simp] theorem State.modPort_job (s : State) (i : Nat) (f : Port → Port) : (s.modPort i f).job = s.job := rfl
@[simp] theorem State.modPort_ckpt (s : State) (i : Nat) (f : Port → Port) : (s.modPort i f).ckpt = s.ckpt := rfl
@[simp] theorem State.modPort_genhan (s : State) (i : Nat) (f : Port → Port) : (s.modPort i f).genhan = s.genhan := rfl
@[simp] theorem State.modPort_host (s : State) (i : Nat) (f : Port → Port) : (s.modPort i f).host = s.host := rfl
@[simp] theorem State.modPort_ctr (s : State) (i : Nat) (f : Port → Port) : (s.modPort i f).ctr = s.ctr := rfl
@[simp] theorem State.modPort_out (s : State) (i : Nat) (f : Port → Port) : (s.modPort i f).out = s.out := rfl
@[simp] theorem State.modPort_freeCtr (s : State) (i : Nat) (f : Port → Port) : (s.modPort i f).freeCtr = s.freeCtr := rfl
@[simp] theorem State.modPort_emitted (s : State) (i : Nat) (f : Port → Port) : (s.modPort i f).emitted = s.emitted := rfl

@[simp] theorem State.setEntry_pending (s : State) (k : ClusterAt) (role : Nat) (cl : BitVec 9) : (s.setEntry k role cl).pending = s.pending := rfl
@[simp] theorem State.setEntry_cores (s : State) (k : ClusterAt) (role : Nat) (cl : BitVec 9) : (s.setEntry k role cl).cores = s.cores := rfl
@[simp] theorem State.setEntry_clusters (s : State) (k : ClusterAt) (role : Nat) (cl : BitVec 9) : (s.setEntry k role cl).clusters = s.clusters := rfl
@[simp] theorem State.setEntry_mesh (s : State) (k : ClusterAt) (role : Nat) (cl : BitVec 9) : (s.setEntry k role cl).mesh = s.mesh := rfl
@[simp] theorem State.setEntry_spent (s : State) (k : ClusterAt) (role : Nat) (cl : BitVec 9) : (s.setEntry k role cl).spent = s.spent := rfl
@[simp] theorem State.setEntry_rr (s : State) (k : ClusterAt) (role : Nat) (cl : BitVec 9) : (s.setEntry k role cl).rr = s.rr := rfl
@[simp] theorem State.setEntry_cuts (s : State) (k : ClusterAt) (role : Nat) (cl : BitVec 9) : (s.setEntry k role cl).cuts = s.cuts := rfl
@[simp] theorem State.setEntry_waiting (s : State) (k : ClusterAt) (role : Nat) (cl : BitVec 9) : (s.setEntry k role cl).waiting = s.waiting := rfl
@[simp] theorem State.setEntry_repairSeq (s : State) (k : ClusterAt) (role : Nat) (cl : BitVec 9) : (s.setEntry k role cl).repairSeq = s.repairSeq := rfl
@[simp] theorem State.setEntry_deep (s : State) (k : ClusterAt) (role : Nat) (cl : BitVec 9) : (s.setEntry k role cl).deep = s.deep := rfl
@[simp] theorem State.setEntry_deepErr (s : State) (k : ClusterAt) (role : Nat) (cl : BitVec 9) : (s.setEntry k role cl).deepErr = s.deepErr := rfl
@[simp] theorem State.setEntry_streams (s : State) (k : ClusterAt) (role : Nat) (cl : BitVec 9) : (s.setEntry k role cl).streams = s.streams := rfl
@[simp] theorem State.setEntry_homes (s : State) (k : ClusterAt) (role : Nat) (cl : BitVec 9) : (s.setEntry k role cl).homes = s.homes := rfl
@[simp] theorem State.setEntry_homeWait (s : State) (k : ClusterAt) (role : Nat) (cl : BitVec 9) : (s.setEntry k role cl).homeWait = s.homeWait := rfl
@[simp] theorem State.setEntry_ports (s : State) (k : ClusterAt) (role : Nat) (cl : BitVec 9) : (s.setEntry k role cl).ports = s.ports := rfl
@[simp] theorem State.setEntry_conns (s : State) (k : ClusterAt) (role : Nat) (cl : BitVec 9) : (s.setEntry k role cl).conns = s.conns := rfl
@[simp] theorem State.setEntry_croutes (s : State) (k : ClusterAt) (role : Nat) (cl : BitVec 9) : (s.setEntry k role cl).croutes = s.croutes := rfl
@[simp] theorem State.setEntry_time (s : State) (k : ClusterAt) (role : Nat) (cl : BitVec 9) : (s.setEntry k role cl).time = s.time := rfl
@[simp] theorem State.setEntry_cascadeId (s : State) (k : ClusterAt) (role : Nat) (cl : BitVec 9) : (s.setEntry k role cl).cascadeId = s.cascadeId := rfl
@[simp] theorem State.setEntry_pkg (s : State) (k : ClusterAt) (role : Nat) (cl : BitVec 9) : (s.setEntry k role cl).pkg = s.pkg := rfl
@[simp] theorem State.setEntry_expect (s : State) (k : ClusterAt) (role : Nat) (cl : BitVec 9) : (s.setEntry k role cl).expect = s.expect := rfl
@[simp] theorem State.setEntry_domains (s : State) (k : ClusterAt) (role : Nat) (cl : BitVec 9) : (s.setEntry k role cl).domains = s.domains := rfl
@[simp] theorem State.setEntry_power (s : State) (k : ClusterAt) (role : Nat) (cl : BitVec 9) : (s.setEntry k role cl).power = s.power := rfl
@[simp] theorem State.setEntry_boot (s : State) (k : ClusterAt) (role : Nat) (cl : BitVec 9) : (s.setEntry k role cl).boot = s.boot := rfl
@[simp] theorem State.setEntry_nv (s : State) (k : ClusterAt) (role : Nat) (cl : BitVec 9) : (s.setEntry k role cl).nv = s.nv := rfl
@[simp] theorem State.setEntry_job (s : State) (k : ClusterAt) (role : Nat) (cl : BitVec 9) : (s.setEntry k role cl).job = s.job := rfl
@[simp] theorem State.setEntry_ckpt (s : State) (k : ClusterAt) (role : Nat) (cl : BitVec 9) : (s.setEntry k role cl).ckpt = s.ckpt := rfl
@[simp] theorem State.setEntry_genhan (s : State) (k : ClusterAt) (role : Nat) (cl : BitVec 9) : (s.setEntry k role cl).genhan = s.genhan := rfl
@[simp] theorem State.setEntry_host (s : State) (k : ClusterAt) (role : Nat) (cl : BitVec 9) : (s.setEntry k role cl).host = s.host := rfl
@[simp] theorem State.setEntry_ctr (s : State) (k : ClusterAt) (role : Nat) (cl : BitVec 9) : (s.setEntry k role cl).ctr = s.ctr := rfl
@[simp] theorem State.setEntry_out (s : State) (k : ClusterAt) (role : Nat) (cl : BitVec 9) : (s.setEntry k role cl).out = s.out := rfl
@[simp] theorem State.setEntry_freeCtr (s : State) (k : ClusterAt) (role : Nat) (cl : BitVec 9) : (s.setEntry k role cl).freeCtr = s.freeCtr := rfl
@[simp] theorem State.setEntry_emitted (s : State) (k : ClusterAt) (role : Nat) (cl : BitVec 9) : (s.setEntry k role cl).emitted = s.emitted := rfl

@[simp] theorem State.modHost_pending (s : State) (f : HostIf → HostIf) : (s.modHost f).pending = s.pending := rfl
@[simp] theorem State.modHost_cores (s : State) (f : HostIf → HostIf) : (s.modHost f).cores = s.cores := rfl
@[simp] theorem State.modHost_clusters (s : State) (f : HostIf → HostIf) : (s.modHost f).clusters = s.clusters := rfl
@[simp] theorem State.modHost_mesh (s : State) (f : HostIf → HostIf) : (s.modHost f).mesh = s.mesh := rfl
@[simp] theorem State.modHost_spent (s : State) (f : HostIf → HostIf) : (s.modHost f).spent = s.spent := rfl
@[simp] theorem State.modHost_rr (s : State) (f : HostIf → HostIf) : (s.modHost f).rr = s.rr := rfl
@[simp] theorem State.modHost_cuts (s : State) (f : HostIf → HostIf) : (s.modHost f).cuts = s.cuts := rfl
@[simp] theorem State.modHost_waiting (s : State) (f : HostIf → HostIf) : (s.modHost f).waiting = s.waiting := rfl
@[simp] theorem State.modHost_repairMap (s : State) (f : HostIf → HostIf) : (s.modHost f).repairMap = s.repairMap := rfl
@[simp] theorem State.modHost_repairSeq (s : State) (f : HostIf → HostIf) : (s.modHost f).repairSeq = s.repairSeq := rfl
@[simp] theorem State.modHost_deep (s : State) (f : HostIf → HostIf) : (s.modHost f).deep = s.deep := rfl
@[simp] theorem State.modHost_deepErr (s : State) (f : HostIf → HostIf) : (s.modHost f).deepErr = s.deepErr := rfl
@[simp] theorem State.modHost_streams (s : State) (f : HostIf → HostIf) : (s.modHost f).streams = s.streams := rfl
@[simp] theorem State.modHost_homes (s : State) (f : HostIf → HostIf) : (s.modHost f).homes = s.homes := rfl
@[simp] theorem State.modHost_homeWait (s : State) (f : HostIf → HostIf) : (s.modHost f).homeWait = s.homeWait := rfl
@[simp] theorem State.modHost_ports (s : State) (f : HostIf → HostIf) : (s.modHost f).ports = s.ports := rfl
@[simp] theorem State.modHost_conns (s : State) (f : HostIf → HostIf) : (s.modHost f).conns = s.conns := rfl
@[simp] theorem State.modHost_croutes (s : State) (f : HostIf → HostIf) : (s.modHost f).croutes = s.croutes := rfl
@[simp] theorem State.modHost_time (s : State) (f : HostIf → HostIf) : (s.modHost f).time = s.time := rfl
@[simp] theorem State.modHost_cascadeId (s : State) (f : HostIf → HostIf) : (s.modHost f).cascadeId = s.cascadeId := rfl
@[simp] theorem State.modHost_pkg (s : State) (f : HostIf → HostIf) : (s.modHost f).pkg = s.pkg := rfl
@[simp] theorem State.modHost_expect (s : State) (f : HostIf → HostIf) : (s.modHost f).expect = s.expect := rfl
@[simp] theorem State.modHost_domains (s : State) (f : HostIf → HostIf) : (s.modHost f).domains = s.domains := rfl
@[simp] theorem State.modHost_power (s : State) (f : HostIf → HostIf) : (s.modHost f).power = s.power := rfl
@[simp] theorem State.modHost_boot (s : State) (f : HostIf → HostIf) : (s.modHost f).boot = s.boot := rfl
@[simp] theorem State.modHost_nv (s : State) (f : HostIf → HostIf) : (s.modHost f).nv = s.nv := rfl
@[simp] theorem State.modHost_job (s : State) (f : HostIf → HostIf) : (s.modHost f).job = s.job := rfl
@[simp] theorem State.modHost_ckpt (s : State) (f : HostIf → HostIf) : (s.modHost f).ckpt = s.ckpt := rfl
@[simp] theorem State.modHost_genhan (s : State) (f : HostIf → HostIf) : (s.modHost f).genhan = s.genhan := rfl
@[simp] theorem State.modHost_ctr (s : State) (f : HostIf → HostIf) : (s.modHost f).ctr = s.ctr := rfl
@[simp] theorem State.modHost_out (s : State) (f : HostIf → HostIf) : (s.modHost f).out = s.out := rfl
@[simp] theorem State.modHost_freeCtr (s : State) (f : HostIf → HostIf) : (s.modHost f).freeCtr = s.freeCtr := rfl
@[simp] theorem State.modHost_emitted (s : State) (f : HostIf → HostIf) : (s.modHost f).emitted = s.emitted := rfl

@[simp] theorem State.setJob_pending (s : State) (st : JobState) (status reason : Nat) (src : Option LCore) (step : BitVec 48) : (s.setJob st status reason src step).pending = s.pending := by unfold State.setJob; dsimp only; split <;> simp
@[simp] theorem State.setJob_cores (s : State) (st : JobState) (status reason : Nat) (src : Option LCore) (step : BitVec 48) : (s.setJob st status reason src step).cores = s.cores := by unfold State.setJob; dsimp only; split <;> simp
@[simp] theorem State.setJob_clusters (s : State) (st : JobState) (status reason : Nat) (src : Option LCore) (step : BitVec 48) : (s.setJob st status reason src step).clusters = s.clusters := by unfold State.setJob; dsimp only; split <;> simp
@[simp] theorem State.setJob_mesh (s : State) (st : JobState) (status reason : Nat) (src : Option LCore) (step : BitVec 48) : (s.setJob st status reason src step).mesh = s.mesh := by unfold State.setJob; dsimp only; split <;> simp
@[simp] theorem State.setJob_spent (s : State) (st : JobState) (status reason : Nat) (src : Option LCore) (step : BitVec 48) : (s.setJob st status reason src step).spent = s.spent := by unfold State.setJob; dsimp only; split <;> simp
@[simp] theorem State.setJob_rr (s : State) (st : JobState) (status reason : Nat) (src : Option LCore) (step : BitVec 48) : (s.setJob st status reason src step).rr = s.rr := by unfold State.setJob; dsimp only; split <;> simp
@[simp] theorem State.setJob_cuts (s : State) (st : JobState) (status reason : Nat) (src : Option LCore) (step : BitVec 48) : (s.setJob st status reason src step).cuts = s.cuts := by unfold State.setJob; dsimp only; split <;> simp
@[simp] theorem State.setJob_waiting (s : State) (st : JobState) (status reason : Nat) (src : Option LCore) (step : BitVec 48) : (s.setJob st status reason src step).waiting = s.waiting := by unfold State.setJob; dsimp only; split <;> simp
@[simp] theorem State.setJob_repairMap (s : State) (st : JobState) (status reason : Nat) (src : Option LCore) (step : BitVec 48) : (s.setJob st status reason src step).repairMap = s.repairMap := by unfold State.setJob; dsimp only; split <;> simp
@[simp] theorem State.setJob_repairSeq (s : State) (st : JobState) (status reason : Nat) (src : Option LCore) (step : BitVec 48) : (s.setJob st status reason src step).repairSeq = s.repairSeq := by unfold State.setJob; dsimp only; split <;> simp
@[simp] theorem State.setJob_deep (s : State) (st : JobState) (status reason : Nat) (src : Option LCore) (step : BitVec 48) : (s.setJob st status reason src step).deep = s.deep := by unfold State.setJob; dsimp only; split <;> simp
@[simp] theorem State.setJob_deepErr (s : State) (st : JobState) (status reason : Nat) (src : Option LCore) (step : BitVec 48) : (s.setJob st status reason src step).deepErr = s.deepErr := by unfold State.setJob; dsimp only; split <;> simp
@[simp] theorem State.setJob_streams (s : State) (st : JobState) (status reason : Nat) (src : Option LCore) (step : BitVec 48) : (s.setJob st status reason src step).streams = s.streams := by unfold State.setJob; dsimp only; split <;> simp
@[simp] theorem State.setJob_homes (s : State) (st : JobState) (status reason : Nat) (src : Option LCore) (step : BitVec 48) : (s.setJob st status reason src step).homes = s.homes := by unfold State.setJob; dsimp only; split <;> simp
@[simp] theorem State.setJob_homeWait (s : State) (st : JobState) (status reason : Nat) (src : Option LCore) (step : BitVec 48) : (s.setJob st status reason src step).homeWait = s.homeWait := by unfold State.setJob; dsimp only; split <;> simp
@[simp] theorem State.setJob_ports (s : State) (st : JobState) (status reason : Nat) (src : Option LCore) (step : BitVec 48) : (s.setJob st status reason src step).ports = s.ports := by unfold State.setJob; dsimp only; split <;> simp
@[simp] theorem State.setJob_conns (s : State) (st : JobState) (status reason : Nat) (src : Option LCore) (step : BitVec 48) : (s.setJob st status reason src step).conns = s.conns := by unfold State.setJob; dsimp only; split <;> simp
@[simp] theorem State.setJob_croutes (s : State) (st : JobState) (status reason : Nat) (src : Option LCore) (step : BitVec 48) : (s.setJob st status reason src step).croutes = s.croutes := by unfold State.setJob; dsimp only; split <;> simp
@[simp] theorem State.setJob_time (s : State) (st : JobState) (status reason : Nat) (src : Option LCore) (step : BitVec 48) : (s.setJob st status reason src step).time = s.time := by unfold State.setJob; dsimp only; split <;> simp
@[simp] theorem State.setJob_cascadeId (s : State) (st : JobState) (status reason : Nat) (src : Option LCore) (step : BitVec 48) : (s.setJob st status reason src step).cascadeId = s.cascadeId := by unfold State.setJob; dsimp only; split <;> simp
@[simp] theorem State.setJob_pkg (s : State) (st : JobState) (status reason : Nat) (src : Option LCore) (step : BitVec 48) : (s.setJob st status reason src step).pkg = s.pkg := by unfold State.setJob; dsimp only; split <;> simp
@[simp] theorem State.setJob_expect (s : State) (st : JobState) (status reason : Nat) (src : Option LCore) (step : BitVec 48) : (s.setJob st status reason src step).expect = s.expect := by unfold State.setJob; dsimp only; split <;> simp
@[simp] theorem State.setJob_domains (s : State) (st : JobState) (status reason : Nat) (src : Option LCore) (step : BitVec 48) : (s.setJob st status reason src step).domains = s.domains := by unfold State.setJob; dsimp only; split <;> simp
@[simp] theorem State.setJob_power (s : State) (st : JobState) (status reason : Nat) (src : Option LCore) (step : BitVec 48) : (s.setJob st status reason src step).power = s.power := by unfold State.setJob; dsimp only; split <;> simp
@[simp] theorem State.setJob_boot (s : State) (st : JobState) (status reason : Nat) (src : Option LCore) (step : BitVec 48) : (s.setJob st status reason src step).boot = s.boot := by unfold State.setJob; dsimp only; split <;> simp
@[simp] theorem State.setJob_nv (s : State) (st : JobState) (status reason : Nat) (src : Option LCore) (step : BitVec 48) : (s.setJob st status reason src step).nv = s.nv := by unfold State.setJob; dsimp only; split <;> simp
@[simp] theorem State.setJob_ckpt (s : State) (st : JobState) (status reason : Nat) (src : Option LCore) (step : BitVec 48) : (s.setJob st status reason src step).ckpt = s.ckpt := by unfold State.setJob; dsimp only; split <;> simp
@[simp] theorem State.setJob_genhan (s : State) (st : JobState) (status reason : Nat) (src : Option LCore) (step : BitVec 48) : (s.setJob st status reason src step).genhan = s.genhan := by unfold State.setJob; dsimp only; split <;> simp
@[simp] theorem State.setJob_ctr (s : State) (st : JobState) (status reason : Nat) (src : Option LCore) (step : BitVec 48) : (s.setJob st status reason src step).ctr = s.ctr := by unfold State.setJob; dsimp only; split <;> simp
@[simp] theorem State.setJob_freeCtr (s : State) (st : JobState) (status reason : Nat) (src : Option LCore) (step : BitVec 48) : (s.setJob st status reason src step).freeCtr = s.freeCtr := by unfold State.setJob; dsimp only; split <;> simp
@[simp] theorem State.setJob_emitted (s : State) (st : JobState) (status reason : Nat) (src : Option LCore) (step : BitVec 48) : (s.setJob st status reason src step).emitted = s.emitted := by unfold State.setJob; dsimp only; split <;> simp

@[simp] theorem State.deepWrite_pending (s : State) (a : Nat) (b : Bytes) : (s.deepWrite a b).pending = s.pending := rfl
@[simp] theorem State.deepWrite_cores (s : State) (a : Nat) (b : Bytes) : (s.deepWrite a b).cores = s.cores := rfl
@[simp] theorem State.deepWrite_clusters (s : State) (a : Nat) (b : Bytes) : (s.deepWrite a b).clusters = s.clusters := rfl
@[simp] theorem State.deepWrite_mesh (s : State) (a : Nat) (b : Bytes) : (s.deepWrite a b).mesh = s.mesh := rfl
@[simp] theorem State.deepWrite_spent (s : State) (a : Nat) (b : Bytes) : (s.deepWrite a b).spent = s.spent := rfl
@[simp] theorem State.deepWrite_rr (s : State) (a : Nat) (b : Bytes) : (s.deepWrite a b).rr = s.rr := rfl
@[simp] theorem State.deepWrite_cuts (s : State) (a : Nat) (b : Bytes) : (s.deepWrite a b).cuts = s.cuts := rfl
@[simp] theorem State.deepWrite_waiting (s : State) (a : Nat) (b : Bytes) : (s.deepWrite a b).waiting = s.waiting := rfl
@[simp] theorem State.deepWrite_repairMap (s : State) (a : Nat) (b : Bytes) : (s.deepWrite a b).repairMap = s.repairMap := rfl
@[simp] theorem State.deepWrite_repairSeq (s : State) (a : Nat) (b : Bytes) : (s.deepWrite a b).repairSeq = s.repairSeq := rfl
@[simp] theorem State.deepWrite_streams (s : State) (a : Nat) (b : Bytes) : (s.deepWrite a b).streams = s.streams := rfl
@[simp] theorem State.deepWrite_homes (s : State) (a : Nat) (b : Bytes) : (s.deepWrite a b).homes = s.homes := rfl
@[simp] theorem State.deepWrite_homeWait (s : State) (a : Nat) (b : Bytes) : (s.deepWrite a b).homeWait = s.homeWait := rfl
@[simp] theorem State.deepWrite_ports (s : State) (a : Nat) (b : Bytes) : (s.deepWrite a b).ports = s.ports := rfl
@[simp] theorem State.deepWrite_conns (s : State) (a : Nat) (b : Bytes) : (s.deepWrite a b).conns = s.conns := rfl
@[simp] theorem State.deepWrite_croutes (s : State) (a : Nat) (b : Bytes) : (s.deepWrite a b).croutes = s.croutes := rfl
@[simp] theorem State.deepWrite_time (s : State) (a : Nat) (b : Bytes) : (s.deepWrite a b).time = s.time := rfl
@[simp] theorem State.deepWrite_cascadeId (s : State) (a : Nat) (b : Bytes) : (s.deepWrite a b).cascadeId = s.cascadeId := rfl
@[simp] theorem State.deepWrite_pkg (s : State) (a : Nat) (b : Bytes) : (s.deepWrite a b).pkg = s.pkg := rfl
@[simp] theorem State.deepWrite_expect (s : State) (a : Nat) (b : Bytes) : (s.deepWrite a b).expect = s.expect := rfl
@[simp] theorem State.deepWrite_domains (s : State) (a : Nat) (b : Bytes) : (s.deepWrite a b).domains = s.domains := rfl
@[simp] theorem State.deepWrite_power (s : State) (a : Nat) (b : Bytes) : (s.deepWrite a b).power = s.power := rfl
@[simp] theorem State.deepWrite_boot (s : State) (a : Nat) (b : Bytes) : (s.deepWrite a b).boot = s.boot := rfl
@[simp] theorem State.deepWrite_nv (s : State) (a : Nat) (b : Bytes) : (s.deepWrite a b).nv = s.nv := rfl
@[simp] theorem State.deepWrite_job (s : State) (a : Nat) (b : Bytes) : (s.deepWrite a b).job = s.job := rfl
@[simp] theorem State.deepWrite_ckpt (s : State) (a : Nat) (b : Bytes) : (s.deepWrite a b).ckpt = s.ckpt := rfl
@[simp] theorem State.deepWrite_genhan (s : State) (a : Nat) (b : Bytes) : (s.deepWrite a b).genhan = s.genhan := rfl
@[simp] theorem State.deepWrite_host (s : State) (a : Nat) (b : Bytes) : (s.deepWrite a b).host = s.host := rfl
@[simp] theorem State.deepWrite_ctr (s : State) (a : Nat) (b : Bytes) : (s.deepWrite a b).ctr = s.ctr := rfl
@[simp] theorem State.deepWrite_out (s : State) (a : Nat) (b : Bytes) : (s.deepWrite a b).out = s.out := rfl
@[simp] theorem State.deepWrite_freeCtr (s : State) (a : Nat) (b : Bytes) : (s.deepWrite a b).freeCtr = s.freeCtr := rfl
@[simp] theorem State.deepWrite_emitted (s : State) (a : Nat) (b : Bytes) : (s.deepWrite a b).emitted = s.emitted := rfl

@[simp] theorem State.phaseDone_pending (s : State) (k : Nat) (findings : Bool) : (s.phaseDone k findings).pending = s.pending := rfl
@[simp] theorem State.phaseDone_cores (s : State) (k : Nat) (findings : Bool) : (s.phaseDone k findings).cores = s.cores := rfl
@[simp] theorem State.phaseDone_clusters (s : State) (k : Nat) (findings : Bool) : (s.phaseDone k findings).clusters = s.clusters := rfl
@[simp] theorem State.phaseDone_mesh (s : State) (k : Nat) (findings : Bool) : (s.phaseDone k findings).mesh = s.mesh := rfl
@[simp] theorem State.phaseDone_spent (s : State) (k : Nat) (findings : Bool) : (s.phaseDone k findings).spent = s.spent := rfl
@[simp] theorem State.phaseDone_rr (s : State) (k : Nat) (findings : Bool) : (s.phaseDone k findings).rr = s.rr := rfl
@[simp] theorem State.phaseDone_cuts (s : State) (k : Nat) (findings : Bool) : (s.phaseDone k findings).cuts = s.cuts := rfl
@[simp] theorem State.phaseDone_waiting (s : State) (k : Nat) (findings : Bool) : (s.phaseDone k findings).waiting = s.waiting := rfl
@[simp] theorem State.phaseDone_repairMap (s : State) (k : Nat) (findings : Bool) : (s.phaseDone k findings).repairMap = s.repairMap := rfl
@[simp] theorem State.phaseDone_repairSeq (s : State) (k : Nat) (findings : Bool) : (s.phaseDone k findings).repairSeq = s.repairSeq := rfl
@[simp] theorem State.phaseDone_deep (s : State) (k : Nat) (findings : Bool) : (s.phaseDone k findings).deep = s.deep := rfl
@[simp] theorem State.phaseDone_deepErr (s : State) (k : Nat) (findings : Bool) : (s.phaseDone k findings).deepErr = s.deepErr := rfl
@[simp] theorem State.phaseDone_streams (s : State) (k : Nat) (findings : Bool) : (s.phaseDone k findings).streams = s.streams := rfl
@[simp] theorem State.phaseDone_homes (s : State) (k : Nat) (findings : Bool) : (s.phaseDone k findings).homes = s.homes := rfl
@[simp] theorem State.phaseDone_homeWait (s : State) (k : Nat) (findings : Bool) : (s.phaseDone k findings).homeWait = s.homeWait := rfl
@[simp] theorem State.phaseDone_ports (s : State) (k : Nat) (findings : Bool) : (s.phaseDone k findings).ports = s.ports := rfl
@[simp] theorem State.phaseDone_conns (s : State) (k : Nat) (findings : Bool) : (s.phaseDone k findings).conns = s.conns := rfl
@[simp] theorem State.phaseDone_croutes (s : State) (k : Nat) (findings : Bool) : (s.phaseDone k findings).croutes = s.croutes := rfl
@[simp] theorem State.phaseDone_time (s : State) (k : Nat) (findings : Bool) : (s.phaseDone k findings).time = s.time := rfl
@[simp] theorem State.phaseDone_cascadeId (s : State) (k : Nat) (findings : Bool) : (s.phaseDone k findings).cascadeId = s.cascadeId := rfl
@[simp] theorem State.phaseDone_pkg (s : State) (k : Nat) (findings : Bool) : (s.phaseDone k findings).pkg = s.pkg := rfl
@[simp] theorem State.phaseDone_expect (s : State) (k : Nat) (findings : Bool) : (s.phaseDone k findings).expect = s.expect := rfl
@[simp] theorem State.phaseDone_domains (s : State) (k : Nat) (findings : Bool) : (s.phaseDone k findings).domains = s.domains := rfl
@[simp] theorem State.phaseDone_power (s : State) (k : Nat) (findings : Bool) : (s.phaseDone k findings).power = s.power := rfl
@[simp] theorem State.phaseDone_nv (s : State) (k : Nat) (findings : Bool) : (s.phaseDone k findings).nv = s.nv := rfl
@[simp] theorem State.phaseDone_job (s : State) (k : Nat) (findings : Bool) : (s.phaseDone k findings).job = s.job := rfl
@[simp] theorem State.phaseDone_ckpt (s : State) (k : Nat) (findings : Bool) : (s.phaseDone k findings).ckpt = s.ckpt := rfl
@[simp] theorem State.phaseDone_genhan (s : State) (k : Nat) (findings : Bool) : (s.phaseDone k findings).genhan = s.genhan := rfl
@[simp] theorem State.phaseDone_host (s : State) (k : Nat) (findings : Bool) : (s.phaseDone k findings).host = s.host := rfl
@[simp] theorem State.phaseDone_ctr (s : State) (k : Nat) (findings : Bool) : (s.phaseDone k findings).ctr = s.ctr := rfl
@[simp] theorem State.phaseDone_out (s : State) (k : Nat) (findings : Bool) : (s.phaseDone k findings).out = s.out := rfl
@[simp] theorem State.phaseDone_freeCtr (s : State) (k : Nat) (findings : Bool) : (s.phaseDone k findings).freeCtr = s.freeCtr := rfl
@[simp] theorem State.phaseDone_emitted (s : State) (k : Nat) (findings : Bool) : (s.phaseDone k findings).emitted = s.emitted := rfl

@[simp] theorem State.draw_pending (s : State) : s.draw.2.pending = s.pending := rfl
@[simp] theorem State.draw_cores (s : State) : s.draw.2.cores = s.cores := rfl
@[simp] theorem State.draw_clusters (s : State) : s.draw.2.clusters = s.clusters := rfl
@[simp] theorem State.draw_mesh (s : State) : s.draw.2.mesh = s.mesh := rfl
@[simp] theorem State.draw_spent (s : State) : s.draw.2.spent = s.spent := rfl
@[simp] theorem State.draw_rr (s : State) : s.draw.2.rr = s.rr := rfl
@[simp] theorem State.draw_cuts (s : State) : s.draw.2.cuts = s.cuts := rfl
@[simp] theorem State.draw_waiting (s : State) : s.draw.2.waiting = s.waiting := rfl
@[simp] theorem State.draw_emitted (s : State) : s.draw.2.emitted = s.emitted := rfl
@[simp] theorem State.draw_repairMap (s : State) : s.draw.2.repairMap = s.repairMap := rfl
@[simp] theorem State.draw_repairSeq (s : State) : s.draw.2.repairSeq = s.repairSeq := rfl
@[simp] theorem State.draw_deep (s : State) : s.draw.2.deep = s.deep := rfl
@[simp] theorem State.draw_deepErr (s : State) : s.draw.2.deepErr = s.deepErr := rfl
@[simp] theorem State.draw_streams (s : State) : s.draw.2.streams = s.streams := rfl
@[simp] theorem State.draw_homes (s : State) : s.draw.2.homes = s.homes := rfl
@[simp] theorem State.draw_homeWait (s : State) : s.draw.2.homeWait = s.homeWait := rfl
@[simp] theorem State.draw_ports (s : State) : s.draw.2.ports = s.ports := rfl
@[simp] theorem State.draw_conns (s : State) : s.draw.2.conns = s.conns := rfl
@[simp] theorem State.draw_croutes (s : State) : s.draw.2.croutes = s.croutes := rfl
@[simp] theorem State.draw_time (s : State) : s.draw.2.time = s.time := rfl
@[simp] theorem State.draw_cascadeId (s : State) : s.draw.2.cascadeId = s.cascadeId := rfl
@[simp] theorem State.draw_pkg (s : State) : s.draw.2.pkg = s.pkg := rfl
@[simp] theorem State.draw_expect (s : State) : s.draw.2.expect = s.expect := rfl
@[simp] theorem State.draw_domains (s : State) : s.draw.2.domains = s.domains := rfl
@[simp] theorem State.draw_power (s : State) : s.draw.2.power = s.power := rfl
@[simp] theorem State.draw_boot (s : State) : s.draw.2.boot = s.boot := rfl
@[simp] theorem State.draw_nv (s : State) : s.draw.2.nv = s.nv := rfl
@[simp] theorem State.draw_job (s : State) : s.draw.2.job = s.job := rfl
@[simp] theorem State.draw_ckpt (s : State) : s.draw.2.ckpt = s.ckpt := rfl
@[simp] theorem State.draw_genhan (s : State) : s.draw.2.genhan = s.genhan := rfl
@[simp] theorem State.draw_host (s : State) : s.draw.2.host = s.host := rfl
@[simp] theorem State.draw_ctr (s : State) : s.draw.2.ctr = s.ctr := rfl
@[simp] theorem State.draw_out (s : State) : s.draw.2.out = s.out := rfl

@[simp] theorem State.logRead_pending (s : State) (k : FailedRead) : (s.logRead k).pending = s.pending := rfl
@[simp] theorem State.logRead_cores (s : State) (k : FailedRead) : (s.logRead k).cores = s.cores := rfl
@[simp] theorem State.logRead_clusters (s : State) (k : FailedRead) : (s.logRead k).clusters = s.clusters := rfl
@[simp] theorem State.logRead_mesh (s : State) (k : FailedRead) : (s.logRead k).mesh = s.mesh := rfl
@[simp] theorem State.logRead_spent (s : State) (k : FailedRead) : (s.logRead k).spent = s.spent := rfl
@[simp] theorem State.logRead_rr (s : State) (k : FailedRead) : (s.logRead k).rr = s.rr := rfl
@[simp] theorem State.logRead_cuts (s : State) (k : FailedRead) : (s.logRead k).cuts = s.cuts := rfl
@[simp] theorem State.logRead_waiting (s : State) (k : FailedRead) : (s.logRead k).waiting = s.waiting := rfl
@[simp] theorem State.logRead_emitted (s : State) (k : FailedRead) : (s.logRead k).emitted = s.emitted := rfl
@[simp] theorem State.logRead_repairMap (s : State) (k : FailedRead) : (s.logRead k).repairMap = s.repairMap := rfl
@[simp] theorem State.logRead_repairSeq (s : State) (k : FailedRead) : (s.logRead k).repairSeq = s.repairSeq := rfl
@[simp] theorem State.logRead_deep (s : State) (k : FailedRead) : (s.logRead k).deep = s.deep := rfl
@[simp] theorem State.logRead_deepErr (s : State) (k : FailedRead) : (s.logRead k).deepErr = s.deepErr := rfl
@[simp] theorem State.logRead_streams (s : State) (k : FailedRead) : (s.logRead k).streams = s.streams := rfl
@[simp] theorem State.logRead_homes (s : State) (k : FailedRead) : (s.logRead k).homes = s.homes := rfl
@[simp] theorem State.logRead_homeWait (s : State) (k : FailedRead) : (s.logRead k).homeWait = s.homeWait := rfl
@[simp] theorem State.logRead_ports (s : State) (k : FailedRead) : (s.logRead k).ports = s.ports := rfl
@[simp] theorem State.logRead_conns (s : State) (k : FailedRead) : (s.logRead k).conns = s.conns := rfl
@[simp] theorem State.logRead_croutes (s : State) (k : FailedRead) : (s.logRead k).croutes = s.croutes := rfl
@[simp] theorem State.logRead_time (s : State) (k : FailedRead) : (s.logRead k).time = s.time := rfl
@[simp] theorem State.logRead_cascadeId (s : State) (k : FailedRead) : (s.logRead k).cascadeId = s.cascadeId := rfl
@[simp] theorem State.logRead_pkg (s : State) (k : FailedRead) : (s.logRead k).pkg = s.pkg := rfl
@[simp] theorem State.logRead_expect (s : State) (k : FailedRead) : (s.logRead k).expect = s.expect := rfl
@[simp] theorem State.logRead_domains (s : State) (k : FailedRead) : (s.logRead k).domains = s.domains := rfl
@[simp] theorem State.logRead_power (s : State) (k : FailedRead) : (s.logRead k).power = s.power := rfl
@[simp] theorem State.logRead_boot (s : State) (k : FailedRead) : (s.logRead k).boot = s.boot := rfl
@[simp] theorem State.logRead_nv (s : State) (k : FailedRead) : (s.logRead k).nv = s.nv := rfl
@[simp] theorem State.logRead_job (s : State) (k : FailedRead) : (s.logRead k).job = s.job := rfl
@[simp] theorem State.logRead_ckpt (s : State) (k : FailedRead) : (s.logRead k).ckpt = s.ckpt := rfl
@[simp] theorem State.logRead_genhan (s : State) (k : FailedRead) : (s.logRead k).genhan = s.genhan := rfl
@[simp] theorem State.logRead_ctr (s : State) (k : FailedRead) : (s.logRead k).ctr = s.ctr := rfl
@[simp] theorem State.logRead_out (s : State) (k : FailedRead) : (s.logRead k).out = s.out := rfl
@[simp] theorem State.logRead_freeCtr (s : State) (k : FailedRead) : (s.logRead k).freeCtr = s.freeCtr := rfl

@[simp] theorem State.freeFlits_pending (s : State) (p : Packet) (n : Nat) : (s.freeFlits p n).pending = s.pending := by unfold State.freeFlits; split <;> rfl
@[simp] theorem State.freeFlits_cores (s : State) (p : Packet) (n : Nat) : (s.freeFlits p n).cores = s.cores := by unfold State.freeFlits; split <;> rfl
@[simp] theorem State.freeFlits_clusters (s : State) (p : Packet) (n : Nat) : (s.freeFlits p n).clusters = s.clusters := by unfold State.freeFlits; split <;> rfl
@[simp] theorem State.freeFlits_mesh (s : State) (p : Packet) (n : Nat) : (s.freeFlits p n).mesh = s.mesh := by unfold State.freeFlits; split <;> rfl
@[simp] theorem State.freeFlits_rr (s : State) (p : Packet) (n : Nat) : (s.freeFlits p n).rr = s.rr := by unfold State.freeFlits; split <;> rfl
@[simp] theorem State.freeFlits_waiting (s : State) (p : Packet) (n : Nat) : (s.freeFlits p n).waiting = s.waiting := by unfold State.freeFlits; split <;> rfl
@[simp] theorem State.freeFlits_emitted (s : State) (p : Packet) (n : Nat) : (s.freeFlits p n).emitted = s.emitted := by unfold State.freeFlits; split <;> rfl
@[simp] theorem State.freeFlits_repairMap (s : State) (p : Packet) (n : Nat) : (s.freeFlits p n).repairMap = s.repairMap := by unfold State.freeFlits; split <;> rfl
@[simp] theorem State.freeFlits_repairSeq (s : State) (p : Packet) (n : Nat) : (s.freeFlits p n).repairSeq = s.repairSeq := by unfold State.freeFlits; split <;> rfl
@[simp] theorem State.freeFlits_deep (s : State) (p : Packet) (n : Nat) : (s.freeFlits p n).deep = s.deep := by unfold State.freeFlits; split <;> rfl
@[simp] theorem State.freeFlits_deepErr (s : State) (p : Packet) (n : Nat) : (s.freeFlits p n).deepErr = s.deepErr := by unfold State.freeFlits; split <;> rfl
@[simp] theorem State.freeFlits_streams (s : State) (p : Packet) (n : Nat) : (s.freeFlits p n).streams = s.streams := by unfold State.freeFlits; split <;> rfl
@[simp] theorem State.freeFlits_homes (s : State) (p : Packet) (n : Nat) : (s.freeFlits p n).homes = s.homes := by unfold State.freeFlits; split <;> rfl
@[simp] theorem State.freeFlits_homeWait (s : State) (p : Packet) (n : Nat) : (s.freeFlits p n).homeWait = s.homeWait := by unfold State.freeFlits; split <;> rfl
@[simp] theorem State.freeFlits_ports (s : State) (p : Packet) (n : Nat) : (s.freeFlits p n).ports = s.ports := by unfold State.freeFlits; split <;> rfl
@[simp] theorem State.freeFlits_conns (s : State) (p : Packet) (n : Nat) : (s.freeFlits p n).conns = s.conns := by unfold State.freeFlits; split <;> rfl
@[simp] theorem State.freeFlits_croutes (s : State) (p : Packet) (n : Nat) : (s.freeFlits p n).croutes = s.croutes := by unfold State.freeFlits; split <;> rfl
@[simp] theorem State.freeFlits_time (s : State) (p : Packet) (n : Nat) : (s.freeFlits p n).time = s.time := by unfold State.freeFlits; split <;> rfl
@[simp] theorem State.freeFlits_cascadeId (s : State) (p : Packet) (n : Nat) : (s.freeFlits p n).cascadeId = s.cascadeId := by unfold State.freeFlits; split <;> rfl
@[simp] theorem State.freeFlits_pkg (s : State) (p : Packet) (n : Nat) : (s.freeFlits p n).pkg = s.pkg := by unfold State.freeFlits; split <;> rfl
@[simp] theorem State.freeFlits_expect (s : State) (p : Packet) (n : Nat) : (s.freeFlits p n).expect = s.expect := by unfold State.freeFlits; split <;> rfl
@[simp] theorem State.freeFlits_domains (s : State) (p : Packet) (n : Nat) : (s.freeFlits p n).domains = s.domains := by unfold State.freeFlits; split <;> rfl
@[simp] theorem State.freeFlits_power (s : State) (p : Packet) (n : Nat) : (s.freeFlits p n).power = s.power := by unfold State.freeFlits; split <;> rfl
@[simp] theorem State.freeFlits_boot (s : State) (p : Packet) (n : Nat) : (s.freeFlits p n).boot = s.boot := by unfold State.freeFlits; split <;> rfl
@[simp] theorem State.freeFlits_nv (s : State) (p : Packet) (n : Nat) : (s.freeFlits p n).nv = s.nv := by unfold State.freeFlits; split <;> rfl
@[simp] theorem State.freeFlits_job (s : State) (p : Packet) (n : Nat) : (s.freeFlits p n).job = s.job := by unfold State.freeFlits; split <;> rfl
@[simp] theorem State.freeFlits_ckpt (s : State) (p : Packet) (n : Nat) : (s.freeFlits p n).ckpt = s.ckpt := by unfold State.freeFlits; split <;> rfl
@[simp] theorem State.freeFlits_genhan (s : State) (p : Packet) (n : Nat) : (s.freeFlits p n).genhan = s.genhan := by unfold State.freeFlits; split <;> rfl
@[simp] theorem State.freeFlits_host (s : State) (p : Packet) (n : Nat) : (s.freeFlits p n).host = s.host := by unfold State.freeFlits; split <;> rfl
@[simp] theorem State.freeFlits_ctr (s : State) (p : Packet) (n : Nat) : (s.freeFlits p n).ctr = s.ctr := by unfold State.freeFlits; split <;> rfl
@[simp] theorem State.freeFlits_out (s : State) (p : Packet) (n : Nat) : (s.freeFlits p n).out = s.out := by unfold State.freeFlits; split <;> rfl
@[simp] theorem State.freeFlits_freeCtr (s : State) (p : Packet) (n : Nat) : (s.freeFlits p n).freeCtr = s.freeCtr := by unfold State.freeFlits; split <;> rfl

@[simp] theorem State.removeAt_pending (s : State) (n : Nat) (p : Packet) : (s.removeAt n p).pending = s.pending := by unfold State.removeAt; simp
@[simp] theorem State.removeAt_cores (s : State) (n : Nat) (p : Packet) : (s.removeAt n p).cores = s.cores := by unfold State.removeAt; simp
@[simp] theorem State.removeAt_clusters (s : State) (n : Nat) (p : Packet) : (s.removeAt n p).clusters = s.clusters := by unfold State.removeAt; simp
@[simp] theorem State.removeAt_rr (s : State) (n : Nat) (p : Packet) : (s.removeAt n p).rr = s.rr := by unfold State.removeAt; simp
@[simp] theorem State.removeAt_waiting (s : State) (n : Nat) (p : Packet) : (s.removeAt n p).waiting = s.waiting := by unfold State.removeAt; simp
@[simp] theorem State.removeAt_emitted (s : State) (n : Nat) (p : Packet) : (s.removeAt n p).emitted = s.emitted := by unfold State.removeAt; simp
@[simp] theorem State.removeAt_repairMap (s : State) (n : Nat) (p : Packet) : (s.removeAt n p).repairMap = s.repairMap := by unfold State.removeAt; simp
@[simp] theorem State.removeAt_repairSeq (s : State) (n : Nat) (p : Packet) : (s.removeAt n p).repairSeq = s.repairSeq := by unfold State.removeAt; simp
@[simp] theorem State.removeAt_deep (s : State) (n : Nat) (p : Packet) : (s.removeAt n p).deep = s.deep := by unfold State.removeAt; simp
@[simp] theorem State.removeAt_deepErr (s : State) (n : Nat) (p : Packet) : (s.removeAt n p).deepErr = s.deepErr := by unfold State.removeAt; simp
@[simp] theorem State.removeAt_streams (s : State) (n : Nat) (p : Packet) : (s.removeAt n p).streams = s.streams := by unfold State.removeAt; simp
@[simp] theorem State.removeAt_homes (s : State) (n : Nat) (p : Packet) : (s.removeAt n p).homes = s.homes := by unfold State.removeAt; simp
@[simp] theorem State.removeAt_homeWait (s : State) (n : Nat) (p : Packet) : (s.removeAt n p).homeWait = s.homeWait := by unfold State.removeAt; simp
@[simp] theorem State.removeAt_ports (s : State) (n : Nat) (p : Packet) : (s.removeAt n p).ports = s.ports := by unfold State.removeAt; simp
@[simp] theorem State.removeAt_conns (s : State) (n : Nat) (p : Packet) : (s.removeAt n p).conns = s.conns := by unfold State.removeAt; simp
@[simp] theorem State.removeAt_croutes (s : State) (n : Nat) (p : Packet) : (s.removeAt n p).croutes = s.croutes := by unfold State.removeAt; simp
@[simp] theorem State.removeAt_time (s : State) (n : Nat) (p : Packet) : (s.removeAt n p).time = s.time := by unfold State.removeAt; simp
@[simp] theorem State.removeAt_cascadeId (s : State) (n : Nat) (p : Packet) : (s.removeAt n p).cascadeId = s.cascadeId := by unfold State.removeAt; simp
@[simp] theorem State.removeAt_pkg (s : State) (n : Nat) (p : Packet) : (s.removeAt n p).pkg = s.pkg := by unfold State.removeAt; simp
@[simp] theorem State.removeAt_expect (s : State) (n : Nat) (p : Packet) : (s.removeAt n p).expect = s.expect := by unfold State.removeAt; simp
@[simp] theorem State.removeAt_domains (s : State) (n : Nat) (p : Packet) : (s.removeAt n p).domains = s.domains := by unfold State.removeAt; simp
@[simp] theorem State.removeAt_power (s : State) (n : Nat) (p : Packet) : (s.removeAt n p).power = s.power := by unfold State.removeAt; simp
@[simp] theorem State.removeAt_boot (s : State) (n : Nat) (p : Packet) : (s.removeAt n p).boot = s.boot := by unfold State.removeAt; simp
@[simp] theorem State.removeAt_nv (s : State) (n : Nat) (p : Packet) : (s.removeAt n p).nv = s.nv := by unfold State.removeAt; simp
@[simp] theorem State.removeAt_job (s : State) (n : Nat) (p : Packet) : (s.removeAt n p).job = s.job := by unfold State.removeAt; simp
@[simp] theorem State.removeAt_ckpt (s : State) (n : Nat) (p : Packet) : (s.removeAt n p).ckpt = s.ckpt := by unfold State.removeAt; simp
@[simp] theorem State.removeAt_genhan (s : State) (n : Nat) (p : Packet) : (s.removeAt n p).genhan = s.genhan := by unfold State.removeAt; simp
@[simp] theorem State.removeAt_host (s : State) (n : Nat) (p : Packet) : (s.removeAt n p).host = s.host := by unfold State.removeAt; simp
@[simp] theorem State.removeAt_ctr (s : State) (n : Nat) (p : Packet) : (s.removeAt n p).ctr = s.ctr := by unfold State.removeAt; simp
@[simp] theorem State.removeAt_out (s : State) (n : Nat) (p : Packet) : (s.removeAt n p).out = s.out := by unfold State.removeAt; simp
@[simp] theorem State.removeAt_freeCtr (s : State) (n : Nat) (p : Packet) : (s.removeAt n p).freeCtr = s.freeCtr := by unfold State.removeAt; simp

@[simp] theorem State.arrived_pending (s : State) (f : Packet → Bool) (i : Nat) : (s.arrived f i).pending = s.pending := by unfold State.arrived; (repeat' split) <;> simp
@[simp] theorem State.arrived_cores (s : State) (f : Packet → Bool) (i : Nat) : (s.arrived f i).cores = s.cores := by unfold State.arrived; (repeat' split) <;> simp
@[simp] theorem State.arrived_clusters (s : State) (f : Packet → Bool) (i : Nat) : (s.arrived f i).clusters = s.clusters := by unfold State.arrived; (repeat' split) <;> simp
@[simp] theorem State.arrived_rr (s : State) (f : Packet → Bool) (i : Nat) : (s.arrived f i).rr = s.rr := by unfold State.arrived; (repeat' split) <;> simp
@[simp] theorem State.arrived_waiting (s : State) (f : Packet → Bool) (i : Nat) : (s.arrived f i).waiting = s.waiting := by unfold State.arrived; (repeat' split) <;> simp
@[simp] theorem State.arrived_emitted (s : State) (f : Packet → Bool) (i : Nat) : (s.arrived f i).emitted = s.emitted := by unfold State.arrived; (repeat' split) <;> simp
@[simp] theorem State.arrived_repairMap (s : State) (f : Packet → Bool) (i : Nat) : (s.arrived f i).repairMap = s.repairMap := by unfold State.arrived; (repeat' split) <;> simp
@[simp] theorem State.arrived_repairSeq (s : State) (f : Packet → Bool) (i : Nat) : (s.arrived f i).repairSeq = s.repairSeq := by unfold State.arrived; (repeat' split) <;> simp
@[simp] theorem State.arrived_deep (s : State) (f : Packet → Bool) (i : Nat) : (s.arrived f i).deep = s.deep := by unfold State.arrived; (repeat' split) <;> simp
@[simp] theorem State.arrived_deepErr (s : State) (f : Packet → Bool) (i : Nat) : (s.arrived f i).deepErr = s.deepErr := by unfold State.arrived; (repeat' split) <;> simp
@[simp] theorem State.arrived_streams (s : State) (f : Packet → Bool) (i : Nat) : (s.arrived f i).streams = s.streams := by unfold State.arrived; (repeat' split) <;> simp
@[simp] theorem State.arrived_homes (s : State) (f : Packet → Bool) (i : Nat) : (s.arrived f i).homes = s.homes := by unfold State.arrived; (repeat' split) <;> simp
@[simp] theorem State.arrived_homeWait (s : State) (f : Packet → Bool) (i : Nat) : (s.arrived f i).homeWait = s.homeWait := by unfold State.arrived; (repeat' split) <;> simp
@[simp] theorem State.arrived_ports (s : State) (f : Packet → Bool) (i : Nat) : (s.arrived f i).ports = s.ports := by unfold State.arrived; (repeat' split) <;> simp
@[simp] theorem State.arrived_conns (s : State) (f : Packet → Bool) (i : Nat) : (s.arrived f i).conns = s.conns := by unfold State.arrived; (repeat' split) <;> simp
@[simp] theorem State.arrived_croutes (s : State) (f : Packet → Bool) (i : Nat) : (s.arrived f i).croutes = s.croutes := by unfold State.arrived; (repeat' split) <;> simp
@[simp] theorem State.arrived_time (s : State) (f : Packet → Bool) (i : Nat) : (s.arrived f i).time = s.time := by unfold State.arrived; (repeat' split) <;> simp
@[simp] theorem State.arrived_cascadeId (s : State) (f : Packet → Bool) (i : Nat) : (s.arrived f i).cascadeId = s.cascadeId := by unfold State.arrived; (repeat' split) <;> simp
@[simp] theorem State.arrived_pkg (s : State) (f : Packet → Bool) (i : Nat) : (s.arrived f i).pkg = s.pkg := by unfold State.arrived; (repeat' split) <;> simp
@[simp] theorem State.arrived_expect (s : State) (f : Packet → Bool) (i : Nat) : (s.arrived f i).expect = s.expect := by unfold State.arrived; (repeat' split) <;> simp
@[simp] theorem State.arrived_domains (s : State) (f : Packet → Bool) (i : Nat) : (s.arrived f i).domains = s.domains := by unfold State.arrived; (repeat' split) <;> simp
@[simp] theorem State.arrived_power (s : State) (f : Packet → Bool) (i : Nat) : (s.arrived f i).power = s.power := by unfold State.arrived; (repeat' split) <;> simp
@[simp] theorem State.arrived_boot (s : State) (f : Packet → Bool) (i : Nat) : (s.arrived f i).boot = s.boot := by unfold State.arrived; (repeat' split) <;> simp
@[simp] theorem State.arrived_nv (s : State) (f : Packet → Bool) (i : Nat) : (s.arrived f i).nv = s.nv := by unfold State.arrived; (repeat' split) <;> simp
@[simp] theorem State.arrived_job (s : State) (f : Packet → Bool) (i : Nat) : (s.arrived f i).job = s.job := by unfold State.arrived; (repeat' split) <;> simp
@[simp] theorem State.arrived_ckpt (s : State) (f : Packet → Bool) (i : Nat) : (s.arrived f i).ckpt = s.ckpt := by unfold State.arrived; (repeat' split) <;> simp
@[simp] theorem State.arrived_genhan (s : State) (f : Packet → Bool) (i : Nat) : (s.arrived f i).genhan = s.genhan := by unfold State.arrived; (repeat' split) <;> simp
@[simp] theorem State.arrived_host (s : State) (f : Packet → Bool) (i : Nat) : (s.arrived f i).host = s.host := by unfold State.arrived; (repeat' split) <;> simp
@[simp] theorem State.arrived_ctr (s : State) (f : Packet → Bool) (i : Nat) : (s.arrived f i).ctr = s.ctr := by unfold State.arrived; (repeat' split) <;> simp
@[simp] theorem State.arrived_out (s : State) (f : Packet → Bool) (i : Nat) : (s.arrived f i).out = s.out := by unfold State.arrived; (repeat' split) <;> simp
@[simp] theorem State.arrived_freeCtr (s : State) (f : Packet → Bool) (i : Nat) : (s.arrived f i).freeCtr = s.freeCtr := by unfold State.arrived; (repeat' split) <;> simp

@[simp] theorem State.emitAt_pending (s : State) (a : Nat × Nat) (port : Nat) (p : Packet) : (s.emitAt a port p).pending = s.pending := rfl
@[simp] theorem State.emitAt_cores (s : State) (a : Nat × Nat) (port : Nat) (p : Packet) : (s.emitAt a port p).cores = s.cores := rfl
@[simp] theorem State.emitAt_clusters (s : State) (a : Nat × Nat) (port : Nat) (p : Packet) : (s.emitAt a port p).clusters = s.clusters := rfl
@[simp] theorem State.emitAt_mesh (s : State) (a : Nat × Nat) (port : Nat) (p : Packet) : (s.emitAt a port p).mesh = s.mesh := rfl
@[simp] theorem State.emitAt_spent (s : State) (a : Nat × Nat) (port : Nat) (p : Packet) : (s.emitAt a port p).spent = s.spent := rfl
@[simp] theorem State.emitAt_rr (s : State) (a : Nat × Nat) (port : Nat) (p : Packet) : (s.emitAt a port p).rr = s.rr := rfl
@[simp] theorem State.emitAt_cuts (s : State) (a : Nat × Nat) (port : Nat) (p : Packet) : (s.emitAt a port p).cuts = s.cuts := rfl
@[simp] theorem State.emitAt_repairMap (s : State) (a : Nat × Nat) (port : Nat) (p : Packet) : (s.emitAt a port p).repairMap = s.repairMap := rfl
@[simp] theorem State.emitAt_repairSeq (s : State) (a : Nat × Nat) (port : Nat) (p : Packet) : (s.emitAt a port p).repairSeq = s.repairSeq := rfl
@[simp] theorem State.emitAt_deep (s : State) (a : Nat × Nat) (port : Nat) (p : Packet) : (s.emitAt a port p).deep = s.deep := rfl
@[simp] theorem State.emitAt_deepErr (s : State) (a : Nat × Nat) (port : Nat) (p : Packet) : (s.emitAt a port p).deepErr = s.deepErr := rfl
@[simp] theorem State.emitAt_streams (s : State) (a : Nat × Nat) (port : Nat) (p : Packet) : (s.emitAt a port p).streams = s.streams := rfl
@[simp] theorem State.emitAt_homes (s : State) (a : Nat × Nat) (port : Nat) (p : Packet) : (s.emitAt a port p).homes = s.homes := rfl
@[simp] theorem State.emitAt_homeWait (s : State) (a : Nat × Nat) (port : Nat) (p : Packet) : (s.emitAt a port p).homeWait = s.homeWait := rfl
@[simp] theorem State.emitAt_ports (s : State) (a : Nat × Nat) (port : Nat) (p : Packet) : (s.emitAt a port p).ports = s.ports := rfl
@[simp] theorem State.emitAt_conns (s : State) (a : Nat × Nat) (port : Nat) (p : Packet) : (s.emitAt a port p).conns = s.conns := rfl
@[simp] theorem State.emitAt_croutes (s : State) (a : Nat × Nat) (port : Nat) (p : Packet) : (s.emitAt a port p).croutes = s.croutes := rfl
@[simp] theorem State.emitAt_time (s : State) (a : Nat × Nat) (port : Nat) (p : Packet) : (s.emitAt a port p).time = s.time := rfl
@[simp] theorem State.emitAt_cascadeId (s : State) (a : Nat × Nat) (port : Nat) (p : Packet) : (s.emitAt a port p).cascadeId = s.cascadeId := rfl
@[simp] theorem State.emitAt_pkg (s : State) (a : Nat × Nat) (port : Nat) (p : Packet) : (s.emitAt a port p).pkg = s.pkg := rfl
@[simp] theorem State.emitAt_expect (s : State) (a : Nat × Nat) (port : Nat) (p : Packet) : (s.emitAt a port p).expect = s.expect := rfl
@[simp] theorem State.emitAt_domains (s : State) (a : Nat × Nat) (port : Nat) (p : Packet) : (s.emitAt a port p).domains = s.domains := rfl
@[simp] theorem State.emitAt_power (s : State) (a : Nat × Nat) (port : Nat) (p : Packet) : (s.emitAt a port p).power = s.power := rfl
@[simp] theorem State.emitAt_boot (s : State) (a : Nat × Nat) (port : Nat) (p : Packet) : (s.emitAt a port p).boot = s.boot := rfl
@[simp] theorem State.emitAt_nv (s : State) (a : Nat × Nat) (port : Nat) (p : Packet) : (s.emitAt a port p).nv = s.nv := rfl
@[simp] theorem State.emitAt_job (s : State) (a : Nat × Nat) (port : Nat) (p : Packet) : (s.emitAt a port p).job = s.job := rfl
@[simp] theorem State.emitAt_ckpt (s : State) (a : Nat × Nat) (port : Nat) (p : Packet) : (s.emitAt a port p).ckpt = s.ckpt := rfl
@[simp] theorem State.emitAt_genhan (s : State) (a : Nat × Nat) (port : Nat) (p : Packet) : (s.emitAt a port p).genhan = s.genhan := rfl
@[simp] theorem State.emitAt_host (s : State) (a : Nat × Nat) (port : Nat) (p : Packet) : (s.emitAt a port p).host = s.host := rfl
@[simp] theorem State.emitAt_ctr (s : State) (a : Nat × Nat) (port : Nat) (p : Packet) : (s.emitAt a port p).ctr = s.ctr := rfl
@[simp] theorem State.emitAt_out (s : State) (a : Nat × Nat) (port : Nat) (p : Packet) : (s.emitAt a port p).out = s.out := rfl
@[simp] theorem State.emitAt_freeCtr (s : State) (a : Nat × Nat) (port : Nat) (p : Packet) : (s.emitAt a port p).freeCtr = s.freeCtr := rfl

@[simp] theorem State.inject_pending (s : State) (c : CoreAt) (p : Packet) : (s.inject c p).pending = s.pending := rfl
@[simp] theorem State.inject_cores (s : State) (c : CoreAt) (p : Packet) : (s.inject c p).cores = s.cores := rfl
@[simp] theorem State.inject_clusters (s : State) (c : CoreAt) (p : Packet) : (s.inject c p).clusters = s.clusters := rfl
@[simp] theorem State.inject_mesh (s : State) (c : CoreAt) (p : Packet) : (s.inject c p).mesh = s.mesh := rfl
@[simp] theorem State.inject_spent (s : State) (c : CoreAt) (p : Packet) : (s.inject c p).spent = s.spent := rfl
@[simp] theorem State.inject_rr (s : State) (c : CoreAt) (p : Packet) : (s.inject c p).rr = s.rr := rfl
@[simp] theorem State.inject_cuts (s : State) (c : CoreAt) (p : Packet) : (s.inject c p).cuts = s.cuts := rfl
@[simp] theorem State.inject_repairMap (s : State) (c : CoreAt) (p : Packet) : (s.inject c p).repairMap = s.repairMap := rfl
@[simp] theorem State.inject_repairSeq (s : State) (c : CoreAt) (p : Packet) : (s.inject c p).repairSeq = s.repairSeq := rfl
@[simp] theorem State.inject_deep (s : State) (c : CoreAt) (p : Packet) : (s.inject c p).deep = s.deep := rfl
@[simp] theorem State.inject_deepErr (s : State) (c : CoreAt) (p : Packet) : (s.inject c p).deepErr = s.deepErr := rfl
@[simp] theorem State.inject_streams (s : State) (c : CoreAt) (p : Packet) : (s.inject c p).streams = s.streams := rfl
@[simp] theorem State.inject_homes (s : State) (c : CoreAt) (p : Packet) : (s.inject c p).homes = s.homes := rfl
@[simp] theorem State.inject_homeWait (s : State) (c : CoreAt) (p : Packet) : (s.inject c p).homeWait = s.homeWait := rfl
@[simp] theorem State.inject_ports (s : State) (c : CoreAt) (p : Packet) : (s.inject c p).ports = s.ports := rfl
@[simp] theorem State.inject_conns (s : State) (c : CoreAt) (p : Packet) : (s.inject c p).conns = s.conns := rfl
@[simp] theorem State.inject_croutes (s : State) (c : CoreAt) (p : Packet) : (s.inject c p).croutes = s.croutes := rfl
@[simp] theorem State.inject_time (s : State) (c : CoreAt) (p : Packet) : (s.inject c p).time = s.time := rfl
@[simp] theorem State.inject_cascadeId (s : State) (c : CoreAt) (p : Packet) : (s.inject c p).cascadeId = s.cascadeId := rfl
@[simp] theorem State.inject_pkg (s : State) (c : CoreAt) (p : Packet) : (s.inject c p).pkg = s.pkg := rfl
@[simp] theorem State.inject_expect (s : State) (c : CoreAt) (p : Packet) : (s.inject c p).expect = s.expect := rfl
@[simp] theorem State.inject_domains (s : State) (c : CoreAt) (p : Packet) : (s.inject c p).domains = s.domains := rfl
@[simp] theorem State.inject_power (s : State) (c : CoreAt) (p : Packet) : (s.inject c p).power = s.power := rfl
@[simp] theorem State.inject_boot (s : State) (c : CoreAt) (p : Packet) : (s.inject c p).boot = s.boot := rfl
@[simp] theorem State.inject_nv (s : State) (c : CoreAt) (p : Packet) : (s.inject c p).nv = s.nv := rfl
@[simp] theorem State.inject_job (s : State) (c : CoreAt) (p : Packet) : (s.inject c p).job = s.job := rfl
@[simp] theorem State.inject_ckpt (s : State) (c : CoreAt) (p : Packet) : (s.inject c p).ckpt = s.ckpt := rfl
@[simp] theorem State.inject_genhan (s : State) (c : CoreAt) (p : Packet) : (s.inject c p).genhan = s.genhan := rfl
@[simp] theorem State.inject_host (s : State) (c : CoreAt) (p : Packet) : (s.inject c p).host = s.host := rfl
@[simp] theorem State.inject_ctr (s : State) (c : CoreAt) (p : Packet) : (s.inject c p).ctr = s.ctr := rfl
@[simp] theorem State.inject_out (s : State) (c : CoreAt) (p : Packet) : (s.inject c p).out = s.out := rfl
@[simp] theorem State.inject_freeCtr (s : State) (c : CoreAt) (p : Packet) : (s.inject c p).freeCtr = s.freeCtr := rfl

@[simp] theorem State.injectUnit_pending (s : State) (k : ClusterAt) (p : Packet) : (s.injectUnit k p).pending = s.pending := rfl
@[simp] theorem State.injectUnit_cores (s : State) (k : ClusterAt) (p : Packet) : (s.injectUnit k p).cores = s.cores := rfl
@[simp] theorem State.injectUnit_clusters (s : State) (k : ClusterAt) (p : Packet) : (s.injectUnit k p).clusters = s.clusters := rfl
@[simp] theorem State.injectUnit_mesh (s : State) (k : ClusterAt) (p : Packet) : (s.injectUnit k p).mesh = s.mesh := rfl
@[simp] theorem State.injectUnit_spent (s : State) (k : ClusterAt) (p : Packet) : (s.injectUnit k p).spent = s.spent := rfl
@[simp] theorem State.injectUnit_rr (s : State) (k : ClusterAt) (p : Packet) : (s.injectUnit k p).rr = s.rr := rfl
@[simp] theorem State.injectUnit_cuts (s : State) (k : ClusterAt) (p : Packet) : (s.injectUnit k p).cuts = s.cuts := rfl
@[simp] theorem State.injectUnit_repairMap (s : State) (k : ClusterAt) (p : Packet) : (s.injectUnit k p).repairMap = s.repairMap := rfl
@[simp] theorem State.injectUnit_repairSeq (s : State) (k : ClusterAt) (p : Packet) : (s.injectUnit k p).repairSeq = s.repairSeq := rfl
@[simp] theorem State.injectUnit_deep (s : State) (k : ClusterAt) (p : Packet) : (s.injectUnit k p).deep = s.deep := rfl
@[simp] theorem State.injectUnit_deepErr (s : State) (k : ClusterAt) (p : Packet) : (s.injectUnit k p).deepErr = s.deepErr := rfl
@[simp] theorem State.injectUnit_streams (s : State) (k : ClusterAt) (p : Packet) : (s.injectUnit k p).streams = s.streams := rfl
@[simp] theorem State.injectUnit_homes (s : State) (k : ClusterAt) (p : Packet) : (s.injectUnit k p).homes = s.homes := rfl
@[simp] theorem State.injectUnit_homeWait (s : State) (k : ClusterAt) (p : Packet) : (s.injectUnit k p).homeWait = s.homeWait := rfl
@[simp] theorem State.injectUnit_ports (s : State) (k : ClusterAt) (p : Packet) : (s.injectUnit k p).ports = s.ports := rfl
@[simp] theorem State.injectUnit_conns (s : State) (k : ClusterAt) (p : Packet) : (s.injectUnit k p).conns = s.conns := rfl
@[simp] theorem State.injectUnit_croutes (s : State) (k : ClusterAt) (p : Packet) : (s.injectUnit k p).croutes = s.croutes := rfl
@[simp] theorem State.injectUnit_time (s : State) (k : ClusterAt) (p : Packet) : (s.injectUnit k p).time = s.time := rfl
@[simp] theorem State.injectUnit_cascadeId (s : State) (k : ClusterAt) (p : Packet) : (s.injectUnit k p).cascadeId = s.cascadeId := rfl
@[simp] theorem State.injectUnit_pkg (s : State) (k : ClusterAt) (p : Packet) : (s.injectUnit k p).pkg = s.pkg := rfl
@[simp] theorem State.injectUnit_expect (s : State) (k : ClusterAt) (p : Packet) : (s.injectUnit k p).expect = s.expect := rfl
@[simp] theorem State.injectUnit_domains (s : State) (k : ClusterAt) (p : Packet) : (s.injectUnit k p).domains = s.domains := rfl
@[simp] theorem State.injectUnit_power (s : State) (k : ClusterAt) (p : Packet) : (s.injectUnit k p).power = s.power := rfl
@[simp] theorem State.injectUnit_boot (s : State) (k : ClusterAt) (p : Packet) : (s.injectUnit k p).boot = s.boot := rfl
@[simp] theorem State.injectUnit_nv (s : State) (k : ClusterAt) (p : Packet) : (s.injectUnit k p).nv = s.nv := rfl
@[simp] theorem State.injectUnit_job (s : State) (k : ClusterAt) (p : Packet) : (s.injectUnit k p).job = s.job := rfl
@[simp] theorem State.injectUnit_ckpt (s : State) (k : ClusterAt) (p : Packet) : (s.injectUnit k p).ckpt = s.ckpt := rfl
@[simp] theorem State.injectUnit_genhan (s : State) (k : ClusterAt) (p : Packet) : (s.injectUnit k p).genhan = s.genhan := rfl
@[simp] theorem State.injectUnit_host (s : State) (k : ClusterAt) (p : Packet) : (s.injectUnit k p).host = s.host := rfl
@[simp] theorem State.injectUnit_ctr (s : State) (k : ClusterAt) (p : Packet) : (s.injectUnit k p).ctr = s.ctr := rfl
@[simp] theorem State.injectUnit_out (s : State) (k : ClusterAt) (p : Packet) : (s.injectUnit k p).out = s.out := rfl
@[simp] theorem State.injectUnit_freeCtr (s : State) (k : ClusterAt) (p : Packet) : (s.injectUnit k p).freeCtr = s.freeCtr := rfl

@[simp] theorem State.injectComp_pending (s : State) (exit comp : Nat) (a : Nat × Nat) (p : Packet) : (s.injectComp exit comp a p).pending = s.pending := rfl
@[simp] theorem State.injectComp_cores (s : State) (exit comp : Nat) (a : Nat × Nat) (p : Packet) : (s.injectComp exit comp a p).cores = s.cores := rfl
@[simp] theorem State.injectComp_clusters (s : State) (exit comp : Nat) (a : Nat × Nat) (p : Packet) : (s.injectComp exit comp a p).clusters = s.clusters := rfl
@[simp] theorem State.injectComp_mesh (s : State) (exit comp : Nat) (a : Nat × Nat) (p : Packet) : (s.injectComp exit comp a p).mesh = s.mesh := rfl
@[simp] theorem State.injectComp_spent (s : State) (exit comp : Nat) (a : Nat × Nat) (p : Packet) : (s.injectComp exit comp a p).spent = s.spent := rfl
@[simp] theorem State.injectComp_rr (s : State) (exit comp : Nat) (a : Nat × Nat) (p : Packet) : (s.injectComp exit comp a p).rr = s.rr := rfl
@[simp] theorem State.injectComp_cuts (s : State) (exit comp : Nat) (a : Nat × Nat) (p : Packet) : (s.injectComp exit comp a p).cuts = s.cuts := rfl
@[simp] theorem State.injectComp_repairMap (s : State) (exit comp : Nat) (a : Nat × Nat) (p : Packet) : (s.injectComp exit comp a p).repairMap = s.repairMap := rfl
@[simp] theorem State.injectComp_repairSeq (s : State) (exit comp : Nat) (a : Nat × Nat) (p : Packet) : (s.injectComp exit comp a p).repairSeq = s.repairSeq := rfl
@[simp] theorem State.injectComp_deep (s : State) (exit comp : Nat) (a : Nat × Nat) (p : Packet) : (s.injectComp exit comp a p).deep = s.deep := rfl
@[simp] theorem State.injectComp_deepErr (s : State) (exit comp : Nat) (a : Nat × Nat) (p : Packet) : (s.injectComp exit comp a p).deepErr = s.deepErr := rfl
@[simp] theorem State.injectComp_streams (s : State) (exit comp : Nat) (a : Nat × Nat) (p : Packet) : (s.injectComp exit comp a p).streams = s.streams := rfl
@[simp] theorem State.injectComp_homes (s : State) (exit comp : Nat) (a : Nat × Nat) (p : Packet) : (s.injectComp exit comp a p).homes = s.homes := rfl
@[simp] theorem State.injectComp_homeWait (s : State) (exit comp : Nat) (a : Nat × Nat) (p : Packet) : (s.injectComp exit comp a p).homeWait = s.homeWait := rfl
@[simp] theorem State.injectComp_ports (s : State) (exit comp : Nat) (a : Nat × Nat) (p : Packet) : (s.injectComp exit comp a p).ports = s.ports := rfl
@[simp] theorem State.injectComp_conns (s : State) (exit comp : Nat) (a : Nat × Nat) (p : Packet) : (s.injectComp exit comp a p).conns = s.conns := rfl
@[simp] theorem State.injectComp_croutes (s : State) (exit comp : Nat) (a : Nat × Nat) (p : Packet) : (s.injectComp exit comp a p).croutes = s.croutes := rfl
@[simp] theorem State.injectComp_time (s : State) (exit comp : Nat) (a : Nat × Nat) (p : Packet) : (s.injectComp exit comp a p).time = s.time := rfl
@[simp] theorem State.injectComp_cascadeId (s : State) (exit comp : Nat) (a : Nat × Nat) (p : Packet) : (s.injectComp exit comp a p).cascadeId = s.cascadeId := rfl
@[simp] theorem State.injectComp_pkg (s : State) (exit comp : Nat) (a : Nat × Nat) (p : Packet) : (s.injectComp exit comp a p).pkg = s.pkg := rfl
@[simp] theorem State.injectComp_expect (s : State) (exit comp : Nat) (a : Nat × Nat) (p : Packet) : (s.injectComp exit comp a p).expect = s.expect := rfl
@[simp] theorem State.injectComp_domains (s : State) (exit comp : Nat) (a : Nat × Nat) (p : Packet) : (s.injectComp exit comp a p).domains = s.domains := rfl
@[simp] theorem State.injectComp_power (s : State) (exit comp : Nat) (a : Nat × Nat) (p : Packet) : (s.injectComp exit comp a p).power = s.power := rfl
@[simp] theorem State.injectComp_boot (s : State) (exit comp : Nat) (a : Nat × Nat) (p : Packet) : (s.injectComp exit comp a p).boot = s.boot := rfl
@[simp] theorem State.injectComp_nv (s : State) (exit comp : Nat) (a : Nat × Nat) (p : Packet) : (s.injectComp exit comp a p).nv = s.nv := rfl
@[simp] theorem State.injectComp_job (s : State) (exit comp : Nat) (a : Nat × Nat) (p : Packet) : (s.injectComp exit comp a p).job = s.job := rfl
@[simp] theorem State.injectComp_ckpt (s : State) (exit comp : Nat) (a : Nat × Nat) (p : Packet) : (s.injectComp exit comp a p).ckpt = s.ckpt := rfl
@[simp] theorem State.injectComp_genhan (s : State) (exit comp : Nat) (a : Nat × Nat) (p : Packet) : (s.injectComp exit comp a p).genhan = s.genhan := rfl
@[simp] theorem State.injectComp_host (s : State) (exit comp : Nat) (a : Nat × Nat) (p : Packet) : (s.injectComp exit comp a p).host = s.host := rfl
@[simp] theorem State.injectComp_ctr (s : State) (exit comp : Nat) (a : Nat × Nat) (p : Packet) : (s.injectComp exit comp a p).ctr = s.ctr := rfl
@[simp] theorem State.injectComp_out (s : State) (exit comp : Nat) (a : Nat × Nat) (p : Packet) : (s.injectComp exit comp a p).out = s.out := rfl
@[simp] theorem State.injectComp_freeCtr (s : State) (exit comp : Nat) (a : Nat × Nat) (p : Packet) : (s.injectComp exit comp a p).freeCtr = s.freeCtr := rfl

@[simp] theorem State.injectFrom_pending (s : State) (exit comp : Nat) (c : CoreAt) (p : Packet) : (s.injectFrom exit comp c p).pending = s.pending := rfl
@[simp] theorem State.injectFrom_cores (s : State) (exit comp : Nat) (c : CoreAt) (p : Packet) : (s.injectFrom exit comp c p).cores = s.cores := rfl
@[simp] theorem State.injectFrom_clusters (s : State) (exit comp : Nat) (c : CoreAt) (p : Packet) : (s.injectFrom exit comp c p).clusters = s.clusters := rfl
@[simp] theorem State.injectFrom_mesh (s : State) (exit comp : Nat) (c : CoreAt) (p : Packet) : (s.injectFrom exit comp c p).mesh = s.mesh := rfl
@[simp] theorem State.injectFrom_spent (s : State) (exit comp : Nat) (c : CoreAt) (p : Packet) : (s.injectFrom exit comp c p).spent = s.spent := rfl
@[simp] theorem State.injectFrom_rr (s : State) (exit comp : Nat) (c : CoreAt) (p : Packet) : (s.injectFrom exit comp c p).rr = s.rr := rfl
@[simp] theorem State.injectFrom_cuts (s : State) (exit comp : Nat) (c : CoreAt) (p : Packet) : (s.injectFrom exit comp c p).cuts = s.cuts := rfl
@[simp] theorem State.injectFrom_repairMap (s : State) (exit comp : Nat) (c : CoreAt) (p : Packet) : (s.injectFrom exit comp c p).repairMap = s.repairMap := rfl
@[simp] theorem State.injectFrom_repairSeq (s : State) (exit comp : Nat) (c : CoreAt) (p : Packet) : (s.injectFrom exit comp c p).repairSeq = s.repairSeq := rfl
@[simp] theorem State.injectFrom_deep (s : State) (exit comp : Nat) (c : CoreAt) (p : Packet) : (s.injectFrom exit comp c p).deep = s.deep := rfl
@[simp] theorem State.injectFrom_deepErr (s : State) (exit comp : Nat) (c : CoreAt) (p : Packet) : (s.injectFrom exit comp c p).deepErr = s.deepErr := rfl
@[simp] theorem State.injectFrom_streams (s : State) (exit comp : Nat) (c : CoreAt) (p : Packet) : (s.injectFrom exit comp c p).streams = s.streams := rfl
@[simp] theorem State.injectFrom_homes (s : State) (exit comp : Nat) (c : CoreAt) (p : Packet) : (s.injectFrom exit comp c p).homes = s.homes := rfl
@[simp] theorem State.injectFrom_homeWait (s : State) (exit comp : Nat) (c : CoreAt) (p : Packet) : (s.injectFrom exit comp c p).homeWait = s.homeWait := rfl
@[simp] theorem State.injectFrom_ports (s : State) (exit comp : Nat) (c : CoreAt) (p : Packet) : (s.injectFrom exit comp c p).ports = s.ports := rfl
@[simp] theorem State.injectFrom_conns (s : State) (exit comp : Nat) (c : CoreAt) (p : Packet) : (s.injectFrom exit comp c p).conns = s.conns := rfl
@[simp] theorem State.injectFrom_croutes (s : State) (exit comp : Nat) (c : CoreAt) (p : Packet) : (s.injectFrom exit comp c p).croutes = s.croutes := rfl
@[simp] theorem State.injectFrom_time (s : State) (exit comp : Nat) (c : CoreAt) (p : Packet) : (s.injectFrom exit comp c p).time = s.time := rfl
@[simp] theorem State.injectFrom_cascadeId (s : State) (exit comp : Nat) (c : CoreAt) (p : Packet) : (s.injectFrom exit comp c p).cascadeId = s.cascadeId := rfl
@[simp] theorem State.injectFrom_pkg (s : State) (exit comp : Nat) (c : CoreAt) (p : Packet) : (s.injectFrom exit comp c p).pkg = s.pkg := rfl
@[simp] theorem State.injectFrom_expect (s : State) (exit comp : Nat) (c : CoreAt) (p : Packet) : (s.injectFrom exit comp c p).expect = s.expect := rfl
@[simp] theorem State.injectFrom_domains (s : State) (exit comp : Nat) (c : CoreAt) (p : Packet) : (s.injectFrom exit comp c p).domains = s.domains := rfl
@[simp] theorem State.injectFrom_power (s : State) (exit comp : Nat) (c : CoreAt) (p : Packet) : (s.injectFrom exit comp c p).power = s.power := rfl
@[simp] theorem State.injectFrom_boot (s : State) (exit comp : Nat) (c : CoreAt) (p : Packet) : (s.injectFrom exit comp c p).boot = s.boot := rfl
@[simp] theorem State.injectFrom_nv (s : State) (exit comp : Nat) (c : CoreAt) (p : Packet) : (s.injectFrom exit comp c p).nv = s.nv := rfl
@[simp] theorem State.injectFrom_job (s : State) (exit comp : Nat) (c : CoreAt) (p : Packet) : (s.injectFrom exit comp c p).job = s.job := rfl
@[simp] theorem State.injectFrom_ckpt (s : State) (exit comp : Nat) (c : CoreAt) (p : Packet) : (s.injectFrom exit comp c p).ckpt = s.ckpt := rfl
@[simp] theorem State.injectFrom_genhan (s : State) (exit comp : Nat) (c : CoreAt) (p : Packet) : (s.injectFrom exit comp c p).genhan = s.genhan := rfl
@[simp] theorem State.injectFrom_host (s : State) (exit comp : Nat) (c : CoreAt) (p : Packet) : (s.injectFrom exit comp c p).host = s.host := rfl
@[simp] theorem State.injectFrom_ctr (s : State) (exit comp : Nat) (c : CoreAt) (p : Packet) : (s.injectFrom exit comp c p).ctr = s.ctr := rfl
@[simp] theorem State.injectFrom_out (s : State) (exit comp : Nat) (c : CoreAt) (p : Packet) : (s.injectFrom exit comp c p).out = s.out := rfl
@[simp] theorem State.injectFrom_freeCtr (s : State) (exit comp : Nat) (c : CoreAt) (p : Packet) : (s.injectFrom exit comp c p).freeCtr = s.freeCtr := rfl

@[simp] theorem State.injectLink_pending (s : State) (l : Nat) (p : Packet) : (s.injectLink l p).pending = s.pending := rfl
@[simp] theorem State.injectLink_cores (s : State) (l : Nat) (p : Packet) : (s.injectLink l p).cores = s.cores := rfl
@[simp] theorem State.injectLink_clusters (s : State) (l : Nat) (p : Packet) : (s.injectLink l p).clusters = s.clusters := rfl
@[simp] theorem State.injectLink_mesh (s : State) (l : Nat) (p : Packet) : (s.injectLink l p).mesh = s.mesh := rfl
@[simp] theorem State.injectLink_spent (s : State) (l : Nat) (p : Packet) : (s.injectLink l p).spent = s.spent := rfl
@[simp] theorem State.injectLink_rr (s : State) (l : Nat) (p : Packet) : (s.injectLink l p).rr = s.rr := rfl
@[simp] theorem State.injectLink_cuts (s : State) (l : Nat) (p : Packet) : (s.injectLink l p).cuts = s.cuts := rfl
@[simp] theorem State.injectLink_repairMap (s : State) (l : Nat) (p : Packet) : (s.injectLink l p).repairMap = s.repairMap := rfl
@[simp] theorem State.injectLink_repairSeq (s : State) (l : Nat) (p : Packet) : (s.injectLink l p).repairSeq = s.repairSeq := rfl
@[simp] theorem State.injectLink_deep (s : State) (l : Nat) (p : Packet) : (s.injectLink l p).deep = s.deep := rfl
@[simp] theorem State.injectLink_deepErr (s : State) (l : Nat) (p : Packet) : (s.injectLink l p).deepErr = s.deepErr := rfl
@[simp] theorem State.injectLink_streams (s : State) (l : Nat) (p : Packet) : (s.injectLink l p).streams = s.streams := rfl
@[simp] theorem State.injectLink_homes (s : State) (l : Nat) (p : Packet) : (s.injectLink l p).homes = s.homes := rfl
@[simp] theorem State.injectLink_homeWait (s : State) (l : Nat) (p : Packet) : (s.injectLink l p).homeWait = s.homeWait := rfl
@[simp] theorem State.injectLink_ports (s : State) (l : Nat) (p : Packet) : (s.injectLink l p).ports = s.ports := rfl
@[simp] theorem State.injectLink_conns (s : State) (l : Nat) (p : Packet) : (s.injectLink l p).conns = s.conns := rfl
@[simp] theorem State.injectLink_croutes (s : State) (l : Nat) (p : Packet) : (s.injectLink l p).croutes = s.croutes := rfl
@[simp] theorem State.injectLink_time (s : State) (l : Nat) (p : Packet) : (s.injectLink l p).time = s.time := rfl
@[simp] theorem State.injectLink_cascadeId (s : State) (l : Nat) (p : Packet) : (s.injectLink l p).cascadeId = s.cascadeId := rfl
@[simp] theorem State.injectLink_pkg (s : State) (l : Nat) (p : Packet) : (s.injectLink l p).pkg = s.pkg := rfl
@[simp] theorem State.injectLink_expect (s : State) (l : Nat) (p : Packet) : (s.injectLink l p).expect = s.expect := rfl
@[simp] theorem State.injectLink_domains (s : State) (l : Nat) (p : Packet) : (s.injectLink l p).domains = s.domains := rfl
@[simp] theorem State.injectLink_power (s : State) (l : Nat) (p : Packet) : (s.injectLink l p).power = s.power := rfl
@[simp] theorem State.injectLink_boot (s : State) (l : Nat) (p : Packet) : (s.injectLink l p).boot = s.boot := rfl
@[simp] theorem State.injectLink_nv (s : State) (l : Nat) (p : Packet) : (s.injectLink l p).nv = s.nv := rfl
@[simp] theorem State.injectLink_job (s : State) (l : Nat) (p : Packet) : (s.injectLink l p).job = s.job := rfl
@[simp] theorem State.injectLink_ckpt (s : State) (l : Nat) (p : Packet) : (s.injectLink l p).ckpt = s.ckpt := rfl
@[simp] theorem State.injectLink_genhan (s : State) (l : Nat) (p : Packet) : (s.injectLink l p).genhan = s.genhan := rfl
@[simp] theorem State.injectLink_host (s : State) (l : Nat) (p : Packet) : (s.injectLink l p).host = s.host := rfl
@[simp] theorem State.injectLink_ctr (s : State) (l : Nat) (p : Packet) : (s.injectLink l p).ctr = s.ctr := rfl
@[simp] theorem State.injectLink_out (s : State) (l : Nat) (p : Packet) : (s.injectLink l p).out = s.out := rfl
@[simp] theorem State.injectLink_freeCtr (s : State) (l : Nat) (p : Packet) : (s.injectLink l p).freeCtr = s.freeCtr := rfl

@[simp] theorem State.atLink_pending (s : State) (l : Nat) (p : Packet) : (s.atLink l p).pending = s.pending := rfl
@[simp] theorem State.atLink_cores (s : State) (l : Nat) (p : Packet) : (s.atLink l p).cores = s.cores := rfl
@[simp] theorem State.atLink_clusters (s : State) (l : Nat) (p : Packet) : (s.atLink l p).clusters = s.clusters := rfl
@[simp] theorem State.atLink_spent (s : State) (l : Nat) (p : Packet) : (s.atLink l p).spent = s.spent := rfl
@[simp] theorem State.atLink_rr (s : State) (l : Nat) (p : Packet) : (s.atLink l p).rr = s.rr := rfl
@[simp] theorem State.atLink_cuts (s : State) (l : Nat) (p : Packet) : (s.atLink l p).cuts = s.cuts := rfl
@[simp] theorem State.atLink_waiting (s : State) (l : Nat) (p : Packet) : (s.atLink l p).waiting = s.waiting := rfl
@[simp] theorem State.atLink_repairMap (s : State) (l : Nat) (p : Packet) : (s.atLink l p).repairMap = s.repairMap := rfl
@[simp] theorem State.atLink_repairSeq (s : State) (l : Nat) (p : Packet) : (s.atLink l p).repairSeq = s.repairSeq := rfl
@[simp] theorem State.atLink_deep (s : State) (l : Nat) (p : Packet) : (s.atLink l p).deep = s.deep := rfl
@[simp] theorem State.atLink_deepErr (s : State) (l : Nat) (p : Packet) : (s.atLink l p).deepErr = s.deepErr := rfl
@[simp] theorem State.atLink_streams (s : State) (l : Nat) (p : Packet) : (s.atLink l p).streams = s.streams := rfl
@[simp] theorem State.atLink_homes (s : State) (l : Nat) (p : Packet) : (s.atLink l p).homes = s.homes := rfl
@[simp] theorem State.atLink_homeWait (s : State) (l : Nat) (p : Packet) : (s.atLink l p).homeWait = s.homeWait := rfl
@[simp] theorem State.atLink_ports (s : State) (l : Nat) (p : Packet) : (s.atLink l p).ports = s.ports := rfl
@[simp] theorem State.atLink_conns (s : State) (l : Nat) (p : Packet) : (s.atLink l p).conns = s.conns := rfl
@[simp] theorem State.atLink_croutes (s : State) (l : Nat) (p : Packet) : (s.atLink l p).croutes = s.croutes := rfl
@[simp] theorem State.atLink_time (s : State) (l : Nat) (p : Packet) : (s.atLink l p).time = s.time := rfl
@[simp] theorem State.atLink_cascadeId (s : State) (l : Nat) (p : Packet) : (s.atLink l p).cascadeId = s.cascadeId := rfl
@[simp] theorem State.atLink_pkg (s : State) (l : Nat) (p : Packet) : (s.atLink l p).pkg = s.pkg := rfl
@[simp] theorem State.atLink_expect (s : State) (l : Nat) (p : Packet) : (s.atLink l p).expect = s.expect := rfl
@[simp] theorem State.atLink_domains (s : State) (l : Nat) (p : Packet) : (s.atLink l p).domains = s.domains := rfl
@[simp] theorem State.atLink_power (s : State) (l : Nat) (p : Packet) : (s.atLink l p).power = s.power := rfl
@[simp] theorem State.atLink_boot (s : State) (l : Nat) (p : Packet) : (s.atLink l p).boot = s.boot := rfl
@[simp] theorem State.atLink_nv (s : State) (l : Nat) (p : Packet) : (s.atLink l p).nv = s.nv := rfl
@[simp] theorem State.atLink_job (s : State) (l : Nat) (p : Packet) : (s.atLink l p).job = s.job := rfl
@[simp] theorem State.atLink_ckpt (s : State) (l : Nat) (p : Packet) : (s.atLink l p).ckpt = s.ckpt := rfl
@[simp] theorem State.atLink_genhan (s : State) (l : Nat) (p : Packet) : (s.atLink l p).genhan = s.genhan := rfl
@[simp] theorem State.atLink_host (s : State) (l : Nat) (p : Packet) : (s.atLink l p).host = s.host := rfl
@[simp] theorem State.atLink_ctr (s : State) (l : Nat) (p : Packet) : (s.atLink l p).ctr = s.ctr := rfl
@[simp] theorem State.atLink_out (s : State) (l : Nat) (p : Packet) : (s.atLink l p).out = s.out := rfl
@[simp] theorem State.atLink_freeCtr (s : State) (l : Nat) (p : Packet) : (s.atLink l p).freeCtr = s.freeCtr := rfl

@[simp] theorem State.homeLater_pending (s : State) (x : HomeOp) : (s.homeLater x).pending = s.pending := rfl
@[simp] theorem State.homeLater_cores (s : State) (x : HomeOp) : (s.homeLater x).cores = s.cores := rfl
@[simp] theorem State.homeLater_clusters (s : State) (x : HomeOp) : (s.homeLater x).clusters = s.clusters := rfl
@[simp] theorem State.homeLater_mesh (s : State) (x : HomeOp) : (s.homeLater x).mesh = s.mesh := rfl
@[simp] theorem State.homeLater_spent (s : State) (x : HomeOp) : (s.homeLater x).spent = s.spent := rfl
@[simp] theorem State.homeLater_rr (s : State) (x : HomeOp) : (s.homeLater x).rr = s.rr := rfl
@[simp] theorem State.homeLater_cuts (s : State) (x : HomeOp) : (s.homeLater x).cuts = s.cuts := rfl
@[simp] theorem State.homeLater_waiting (s : State) (x : HomeOp) : (s.homeLater x).waiting = s.waiting := rfl
@[simp] theorem State.homeLater_emitted (s : State) (x : HomeOp) : (s.homeLater x).emitted = s.emitted := rfl
@[simp] theorem State.homeLater_repairMap (s : State) (x : HomeOp) : (s.homeLater x).repairMap = s.repairMap := rfl
@[simp] theorem State.homeLater_repairSeq (s : State) (x : HomeOp) : (s.homeLater x).repairSeq = s.repairSeq := rfl
@[simp] theorem State.homeLater_deep (s : State) (x : HomeOp) : (s.homeLater x).deep = s.deep := rfl
@[simp] theorem State.homeLater_deepErr (s : State) (x : HomeOp) : (s.homeLater x).deepErr = s.deepErr := rfl
@[simp] theorem State.homeLater_streams (s : State) (x : HomeOp) : (s.homeLater x).streams = s.streams := rfl
@[simp] theorem State.homeLater_homes (s : State) (x : HomeOp) : (s.homeLater x).homes = s.homes := rfl
@[simp] theorem State.homeLater_ports (s : State) (x : HomeOp) : (s.homeLater x).ports = s.ports := rfl
@[simp] theorem State.homeLater_conns (s : State) (x : HomeOp) : (s.homeLater x).conns = s.conns := rfl
@[simp] theorem State.homeLater_croutes (s : State) (x : HomeOp) : (s.homeLater x).croutes = s.croutes := rfl
@[simp] theorem State.homeLater_time (s : State) (x : HomeOp) : (s.homeLater x).time = s.time := rfl
@[simp] theorem State.homeLater_cascadeId (s : State) (x : HomeOp) : (s.homeLater x).cascadeId = s.cascadeId := rfl
@[simp] theorem State.homeLater_pkg (s : State) (x : HomeOp) : (s.homeLater x).pkg = s.pkg := rfl
@[simp] theorem State.homeLater_expect (s : State) (x : HomeOp) : (s.homeLater x).expect = s.expect := rfl
@[simp] theorem State.homeLater_domains (s : State) (x : HomeOp) : (s.homeLater x).domains = s.domains := rfl
@[simp] theorem State.homeLater_power (s : State) (x : HomeOp) : (s.homeLater x).power = s.power := rfl
@[simp] theorem State.homeLater_boot (s : State) (x : HomeOp) : (s.homeLater x).boot = s.boot := rfl
@[simp] theorem State.homeLater_nv (s : State) (x : HomeOp) : (s.homeLater x).nv = s.nv := rfl
@[simp] theorem State.homeLater_job (s : State) (x : HomeOp) : (s.homeLater x).job = s.job := rfl
@[simp] theorem State.homeLater_ckpt (s : State) (x : HomeOp) : (s.homeLater x).ckpt = s.ckpt := rfl
@[simp] theorem State.homeLater_genhan (s : State) (x : HomeOp) : (s.homeLater x).genhan = s.genhan := rfl
@[simp] theorem State.homeLater_host (s : State) (x : HomeOp) : (s.homeLater x).host = s.host := rfl
@[simp] theorem State.homeLater_ctr (s : State) (x : HomeOp) : (s.homeLater x).ctr = s.ctr := rfl
@[simp] theorem State.homeLater_out (s : State) (x : HomeOp) : (s.homeLater x).out = s.out := rfl
@[simp] theorem State.homeLater_freeCtr (s : State) (x : HomeOp) : (s.homeLater x).freeCtr = s.freeCtr := rfl

end Sys2Proof.Machine
end

