-- ==== Sys2Proof/Laws/Quiesce.lean ====
section
/-! SUPPORT. What refusing the accesses that wait on a fabric side does (R365, R373): the cores of the part lose their waiting accesses, no other
core changes, and clusters, job and Genhan's records stay. -/

namespace Sys2Proof.Machine

/-- What the fabric side of a core does not touch: the other cores, every cluster, the job and Genhan's records. -/
structure OnlyCore (c : CoreAt) (s t : State) : Prop where
  other : ∀ e, e ≠ c → t.core e = s.core e
  clusters : t.clusters = s.clusters
  job : t.job = s.job
  genhan : t.genhan = s.genhan
  repairMap : t.repairMap = s.repairMap

theorem OnlyCore.refl (c : CoreAt) (s : State) : OnlyCore c s s := ⟨fun _ _ => rfl, rfl, rfl, rfl, rfl⟩

theorem OnlyCore.trans {c : CoreAt} {s t u : State} (h : OnlyCore c s t) (g : OnlyCore c t u) : OnlyCore c s u :=
  ⟨fun e n => (g.other e n).trans (h.other e n), g.clusters.trans h.clusters, g.job.trans h.job, g.genhan.trans h.genhan,
   g.repairMap.trans h.repairMap⟩

/-- A state that differs in what is no core, cluster, job or record of Genhan. -/
theorem OnlyCore.of_eq {c : CoreAt} {s t : State} (h1 : t.cores = s.cores) (h2 : t.clusters = s.clusters) (h3 : t.job = s.job)
    (h4 : t.genhan = s.genhan) (h5 : t.repairMap = s.repairMap) : OnlyCore c s t :=
  ⟨fun _ _ => by simp only [State.core, h1], h2, h3, h4, h5⟩

theorem onlyCore_modCore (s : State) (c : CoreAt) (f : Core → Core) : OnlyCore c s (s.modCore c f) :=
  ⟨fun _ n => State.core_modCore_ne s f n, rfl, rfl, rfl, rfl⟩

/-- Nothing of a state changes but what waits for the mesh, the count of packets emitted, the counters and the number of free values drawn. -/
def State.sendsOnly (s t : State) : Prop :=
  t = { s with waiting := t.waiting, emitted := t.emitted, ctr := t.ctr, freeCtr := t.freeCtr }

theorem State.sendsOnly.cores {s t : State} (h : s.sendsOnly t) : t.cores = s.cores := by rw [h]
theorem State.sendsOnly.onlyCore {s t : State} (h : s.sendsOnly t) (c : CoreAt) : OnlyCore c s t :=
  .of_eq (by rw [h]) (by rw [h]) (by rw [h]) (by rw [h]) (by rw [h])
theorem State.sendsOnly.refl (s : State) : s.sendsOnly s := rfl
theorem State.sendsOnly.trans {s t u : State} (h : s.sendsOnly t) (g : t.sendsOnly u) : s.sendsOnly u := by
  unfold State.sendsOnly at *
  rw [g, h]

theorem sendsOnly_inject (s : State) (c : CoreAt) (p : Packet) : s.sendsOnly (s.inject c p) := rfl

theorem sendsOnly_injectAny (s : State) (c : CoreAt) (p : Packet) : s.sendsOnly (s.injectAny c p) := by
  unfold State.injectAny State.toPackage
  dsimp only
  split
  · exact sendsOnly_inject _ _ _
  · exact State.sendsOnly.trans (t := s.draw.2) rfl (sendsOnly_inject _ _ _)

theorem sendsOnly_answer (s : State) (c : CoreAt) (p : Packet) (txn : Option Nat) : s.sendsOnly (s.answer c p txn) := by
  unfold State.answer
  dsimp only
  split
  · exact sendsOnly_inject _ _ _
  · exact sendsOnly_injectAny _ _ _

theorem sendsOnly_ackRecord (s : State) (c : CoreAt) (h : BitVec 128) (status : BitVec 4) : s.sendsOnly (s.ackRecord c h status) :=
  sendsOnly_injectAny _ _ _

/-- A record that is recorded changes its endpoint only. -/
theorem onlyCore_recorded (s : State) (c : CoreAt) (ep : Nat) (ack : Option (BitVec 128)) :
    OnlyCore c s (s.recorded c ep ack) ∧ ((s.recorded c ep ack).core c).fabricJobs = (s.core c).fabricJobs := by
  have hc (t : State) (n m : Nat) : t.sendsOnly (t.countRecord c n m) := rfl
  unfold State.recorded
  dsimp only
  split
  · refine ⟨(onlyCore_modCore s c _).trans (((hc _ _ _).trans (sendsOnly_ackRecord _ c _ _)).onlyCore c), ?_⟩
    rw [State.core, ((hc _ _ _).trans (sendsOnly_ackRecord _ c _ _)).cores]
    exact (congrArg Core.fabricJobs (State.core_modCore_same s c _)).trans rfl
  · refine ⟨(onlyCore_modCore s c _).trans ((hc _ _ _).onlyCore c), ?_⟩
    rw [State.core, (hc _ _ _).cores]
    exact (congrArg Core.fabricJobs (State.core_modCore_same s c _)).trans rfl

theorem fabricJobs_writes (l : List FabricOp) (x : Core) :
    (l.foldl (fun x o => match o with
      | .write a b => x.write a b
      | _ => x) x).fabricJobs = x.fabricJobs := by
  induction l generalizing x with
  | nil => rfl
  | cons o l ih =>
    rw [List.foldl_cons, ih]
    split
    · rfl
    · rfl

/-- The writes of an access that has begun change its core's scratchpad, not what waits there. -/
theorem onlyCore_finishWrite (s : State) (c : CoreAt) (j : FabricJob) :
    OnlyCore c s (s.finishWrite c j) ∧ ((s.finishWrite c j).core c).fabricJobs = (s.core c).fabricJobs := by
  refine ⟨onlyCore_modCore s c _, ?_⟩
  unfold State.finishWrite
  rw [State.core_modCore_same]
  exact fabricJobs_writes _ _

theorem onlyCore_refuseJob (s : State) (c : CoreAt) (j : FabricJob) :
    OnlyCore c s (s.refuseJob c j) ∧ ((s.refuseJob c j).core c).fabricJobs = (s.core c).fabricJobs := by
  have send {t : State} (h : s.sendsOnly t) : OnlyCore c s t ∧ (t.core c).fabricJobs = (s.core c).fabricJobs :=
    ⟨h.onlyCore c, by rw [State.core, h.cores]; rfl⟩
  unfold State.refuseJob
  split
  · exact onlyCore_recorded s c _ _
  · split
    · next a _ _ =>
      have w := onlyCore_finishWrite s c j
      have h : (s.finishWrite c j).sendsOnly ((s.finishWrite c j).ackWrite c a 0 j.txn) := sendsOnly_answer _ _ _ _
      exact ⟨w.1.trans (h.onlyCore c), by rw [State.core, h.cores]; exact w.2⟩
    · exact send (sendsOnly_answer _ _ _ _)
  · exact send (sendsOnly_answer _ _ _ _)
  · exact send (sendsOnly_ackRecord _ _ _ _)
  · exact send (State.sendsOnly.refl s)

/-- The fabric side of one core is emptied. -/
theorem flushCore_spec (s : State) (c : CoreAt) : OnlyCore c s (s.flushCore c) ∧ ((s.flushCore c).core c).fabricJobs = [] := by
  unfold State.flushCore
  generalize (s.core c).fabricJobs = l
  suffices h : ∀ (l : List FabricJob) (t : State), OnlyCore c s t → (t.core c).fabricJobs = [] →
      OnlyCore c s (l.foldl (fun s j => s.refuseJob c j) t) ∧ ((l.foldl (fun s j => s.refuseJob c j) t).core c).fabricJobs = [] from
    h l _ (onlyCore_modCore s c _) (by simp [Core.fabricJobs])
  intro l
  induction l with
  | nil => exact fun t h e => ⟨h, e⟩
  | cons j l ih =>
    intro t h e
    have r := onlyCore_refuseJob t c j
    exact ih _ (h.trans r.1) (r.2.trans e)

/-- The fabric sides of some cores are emptied, one after the other. -/
theorem flushCores_spec (l : List CoreAt) (s : State) :
    (∀ e, e ∉ l → (l.foldl State.flushCore s).core e = s.core e) ∧ (∀ e, e ∈ l → ((l.foldl State.flushCore s).core e).fabricJobs = []) ∧
    (l.foldl State.flushCore s).clusters = s.clusters ∧ (l.foldl State.flushCore s).job = s.job ∧ (l.foldl State.flushCore s).genhan = s.genhan ∧
    (l.foldl State.flushCore s).repairMap = s.repairMap := by
  induction l generalizing s with
  | nil => exact ⟨fun _ _ => rfl, by simp, rfl, rfl, rfl, rfl⟩
  | cons c l ih =>
    obtain ⟨h1, h2, h3, h4, h5, h6⟩ := ih (s.flushCore c)
    obtain ⟨o, z⟩ := flushCore_spec s c
    refine ⟨fun e n => ?_, fun e m => ?_, h3.trans o.clusters, h4.trans o.job, h5.trans o.genhan, h6.trans o.repairMap⟩
    · simp only [List.mem_cons, not_or] at n
      exact (h1 e n.2).trans (o.other e n.1)
    · by_cases hm : e ∈ l
      · exact h2 e hm
      · simp only [List.mem_cons, hm, or_false] at m
        subst m
        exact (congrArg Core.fabricJobs (h1 e hm)).trans z

end Sys2Proof.Machine
end

