-- ==== Sys2Proof/Laws/Rings.lean ====
section
/-! SUPPORT. What a decision does: the completion entry is written where the ring's index stands, and the descriptor is in progress no more. -/

namespace Sys2Proof.Machine

/-! ### Events and interrupts leave the other rings alone -/

theorem State.ring_sendMsix (s : State) (v p : Nat) : (s.sendMsix v).ring p = s.ring p := by
  unfold State.sendMsix
  dsimp only
  (repeat' split) <;> rfl

theorem State.ring_sendPaced (s : State) (v p : Nat) : (s.sendPaced v).ring p = s.ring p := by
  have h := s.ring_sendMsix v p
  unfold State.sendPaced
  dsimp only
  split
  · exact h
  · exact h

theorem State.ring_pend (s : State) (v : Nat) (i : BitVec 10) (p : Nat) : (s.pend v i).ring p = s.ring p := by
  unfold State.pend
  dsimp only
  split
  · rfl
  · rw [State.ring_sendPaced]; rfl

theorem State.ring_dropEvent (s : State) (p : Nat) (h : p ≠ 64) : s.dropEvent.ring p = s.ring p := State.ring_putRing_ne _ _ h

theorem State.ring_writeEvent (s : State) (n : Nat) (d : Bytes) (p : Nat) (h : p ≠ 64) : (s.writeEvent n d).ring p = s.ring p := by
  unfold State.writeEvent
  dsimp only
  split
  · rw [State.ring_pend, State.ring_putRing_ne _ _ h]; rfl
  · exact State.ring_dropEvent s p h

/-- An event changes no ring but the event ring. -/
theorem State.ring_raiseEvent (s : State) (code : Nat) (src : Option LCore) (d : Bytes) (p : Nat) (h : p ≠ 64) :
    (s.raiseEvent code src d).ring p = s.ring p := by
  unfold State.raiseEvent
  dsimp only
  split
  · exact State.ring_writeEvent _ _ _ _ h
  · split
    · rfl
    · exact State.ring_dropEvent s p h

theorem State.linkUp_sendMsix (s : State) (v : Nat) : (s.sendMsix v).host.linkUp = s.host.linkUp := by
  unfold State.sendMsix
  dsimp only
  (repeat' split) <;> rfl

theorem State.linkUp_sendPaced (s : State) (v : Nat) : (s.sendPaced v).host.linkUp = s.host.linkUp := by
  have h := s.linkUp_sendMsix v
  unfold State.sendPaced
  dsimp only
  split
  · exact h
  · exact h

theorem State.linkUp_pend (s : State) (v : Nat) (i : BitVec 10) : (s.pend v i).host.linkUp = s.host.linkUp := by
  unfold State.pend
  dsimp only
  split
  · rfl
  · rw [State.linkUp_sendPaced]

/-! ### Outputs only grow -/

/-- Every output of `s` is one of `t`. -/
def Outgrows (s t : State) : Prop := ∀ o, o ∈ s.out → o ∈ t.out

theorem Outgrows.refl (s : State) : Outgrows s s := fun _ h => h
theorem Outgrows.trans {s t u : State} (h : Outgrows s t) (g : Outgrows t u) : Outgrows s u := fun o k => g o (h o k)

/-- A fold of a step that only adds outputs only adds outputs. -/
theorem outgrows_foldl {α : Type} {f : State → α → State} (h : ∀ s a, Outgrows s (f s a)) (l : List α) (s : State) : Outgrows s (l.foldl f s) := by
  induction l generalizing s with
  | nil => exact Outgrows.refl s
  | cons a r ih => exact Outgrows.trans (h s a) (ih _)

theorem outgrows_emit (s : State) (o : Output) : Outgrows s (s.emit o) := fun _ h => List.mem_append_left _ h

theorem outgrows_sendMsix (s : State) (v : Nat) : Outgrows s (s.sendMsix v) := by
  unfold State.sendMsix
  dsimp only
  split
  · exact Outgrows.refl s
  · split
    · exact outgrows_emit s _
    · exact Outgrows.refl s

theorem outgrows_sendPaced (s : State) (v : Nat) : Outgrows s (s.sendPaced v) := by
  have h := outgrows_sendMsix s v
  unfold State.sendPaced
  dsimp only
  split
  · exact h
  · exact h

theorem outgrows_pend (s : State) (v : Nat) (i : BitVec 10) : Outgrows s (s.pend v i) := by
  unfold State.pend
  dsimp only
  split
  · exact Outgrows.refl s
  · exact fun o h => outgrows_sendPaced _ _ o h

theorem outgrows_writeCompletion (s : State) (p : Nat) (e : BitVec 128) (irq : Bool) : Outgrows s (s.writeCompletion p e irq) := by
  unfold State.writeCompletion
  dsimp only
  split
  · intro o h
    exact outgrows_pend _ _ _ o (List.mem_append_left _ h)
  · intro o h
    exact List.mem_append_left _ h

theorem outgrows_flushHeld (n : Nat) (s : State) (p : Nat) : Outgrows s (s.flushHeld n p) := by
  induction n generalizing s with
  | zero => exact Outgrows.refl s
  | succ n ih =>
    unfold State.flushHeld
    split
    · exact Outgrows.refl s
    · exact Outgrows.refl s
    · split
      · next m _ _ _ hn _ _ =>
        obtain rfl : n = m := Nat.succ.inj hn
        intro o h
        apply ih
        exact outgrows_writeCompletion _ p _ _ o h
      · exact Outgrows.refl s

theorem outgrows_decideOne (s : State) (p : Nat) (d : Desc) (st : Nat) (res : BitVec 32) (a l : Bool) : Outgrows s (s.decideOne p d st res a l) :=
  fun o h => outgrows_flushHeld _ _ _ o h

theorem outgrows_dropReplies (s : State) : Outgrows s s.dropReplies :=
  outgrows_foldl (f := State.lose) (fun u i => (outgrows_foldl (f := fun s q => s.freeFlits q q.here) (fun _ _ _ h => by simpa using h) _ u).trans fun _ h => h) _ _

theorem outgrows_conclude_rest (s : State) (p : Nat) (d : Desc) (st : Nat) (res : BitVec 32) (a l : Bool) :
    Outgrows (s.decideOne p d st res a l) (s.conclude p d st res a l) := by
  unfold State.conclude
  dsimp only
  refine Outgrows.trans (outgrows_foldl ?_ _ _) (outgrows_dropReplies _)
  intro t b
  split
  · exact outgrows_decideOne _ _ _ _ _ _ _
  · exact Outgrows.refl t

theorem outgrows_conclude (s : State) (p : Nat) (d : Desc) (st : Nat) (res : BitVec 32) (a l : Bool) : Outgrows s (s.conclude p d st res a l) :=
  (outgrows_decideOne s p d st res a l).trans (outgrows_conclude_rest _ _ _ _ _ _ _)

/-! ### What leaves the descriptors in progress -/

/-- Every descriptor in progress in `t` is one of `s`. -/
def Shrinks (s t : State) : Prop := ∀ p x, x ∈ (t.ring p).inProgress → x ∈ (s.ring p).inProgress

theorem Shrinks.refl (s : State) : Shrinks s s := fun _ _ h => h
theorem Shrinks.trans {s t u : State} (h : Shrinks s t) (g : Shrinks t u) : Shrinks s u := fun p x k => h p x (g p x k)

theorem shrinks_foldl {α : Type} {f : State → α → State} (h : ∀ s a, Shrinks s (f s a)) (l : List α) (s : State) : Shrinks s (l.foldl f s) := by
  induction l generalizing s with
  | nil => exact Shrinks.refl s
  | cons a r ih => exact Shrinks.trans (h s a) (ih _)

theorem shrinks_modRing (s : State) (p : Nat) (f : Ring → Ring) (h : ∀ g x, x ∈ (f g).inProgress → x ∈ g.inProgress) : Shrinks s (s.modRing p f) := by
  intro q x hx
  by_cases hq : q = p
  · subst hq
    rw [State.ring_modRing_same] at hx
    exact h _ _ hx
  · rwa [State.ring_modRing_ne _ _ hq] at hx

theorem ringAdvance_inProgress (r : Ring) : (ringAdvance r).inProgress = r.inProgress := by
  unfold ringAdvance
  dsimp only
  split <;> rfl

theorem shrinks_writeCompletion (s : State) (p : Nat) (e : BitVec 128) (irq : Bool) : Shrinks s (s.writeCompletion p e irq) := by
  have hb : ∀ a b, Shrinks s ((s.emit (.hostWrite a b)).putRing p (ringAdvance (s.ring p))) := by
    intro a b q x hx
    by_cases hq : q = p
    · subst hq
      rw [State.ring_putRing_same, ringAdvance_inProgress] at hx
      exact hx
    · rw [State.ring_putRing_ne _ _ hq] at hx
      exact hx
  unfold State.writeCompletion
  dsimp only
  split
  · intro q x hx
    rw [State.ring_pend] at hx
    exact hb _ _ q x hx
  · exact hb _ _

theorem shrinks_flushHeld (n : Nat) (s : State) (p : Nat) : Shrinks s (s.flushHeld n p) := by
  induction n generalizing s with
  | zero => exact Shrinks.refl s
  | succ n ih =>
    unfold State.flushHeld
    split
    · exact Shrinks.refl s
    · exact Shrinks.refl s
    · split
      · next m _ _ _ hn _ _ =>
        obtain rfl : n = m := Nat.succ.inj hn
        intro q x hx
        replace hx := ih _ q x hx
        replace hx := shrinks_writeCompletion _ _ _ _ q x hx
        refine shrinks_modRing s p _ ?_ q x hx
        exact fun _ _ h => h
      · exact Shrinks.refl s

theorem shrinks_decideOne (s : State) (p : Nat) (d : Desc) (st : Nat) (res : BitVec 32) (a l : Bool) : Shrinks s (s.decideOne p d st res a l) :=
  (shrinks_modRing s p _ fun _ _ h => (List.mem_filter.1 h).1).trans (shrinks_flushHeld _ _ _)

/-- What `decideOne` decides is in progress no more. -/
theorem gone_decideOne (s : State) (p : Nat) (d : Desc) (st : Nat) (res : BitVec 32) (a l : Bool) :
    ∀ x ∈ ((s.decideOne p d st res a l).ring p).inProgress, x.serial ≠ d.serial := by
  intro x hx
  have h := shrinks_flushHeld _ _ _ p x hx
  rw [State.ring_modRing_same] at h
  simpa using (List.mem_filter.1 h).2

theorem shrinks_dropReplies (s : State) : Shrinks s s.dropReplies :=
  shrinks_foldl (f := State.lose) (fun u i => (shrinks_foldl (f := fun s q => s.freeFlits q q.here) (fun _ _ _ _ h => by simpa [State.ring] using h) _ u).trans fun _ _ h => h) _ _

theorem shrinks_conclude_rest (s : State) (p : Nat) (d : Desc) (st : Nat) (res : BitVec 32) (a l : Bool) :
    Shrinks (s.decideOne p d st res a l) (s.conclude p d st res a l) := by
  unfold State.conclude
  dsimp only
  refine Shrinks.trans (shrinks_foldl ?_ _ _) (shrinks_dropReplies _)
  intro t b
  split
  · exact shrinks_decideOne _ _ _ _ _ _ _
  · exact Shrinks.refl t

/-- A decision on a ring that takes completions: the entry stands where R311 puts it, and the descriptor is in progress no more. -/
theorem decided_conclude (s : State) (r : Fin 64) (d : Desc) (st : Nat) (res : BitVec 32) (a l : Bool) (h : s.ringReady r) :
    Decided s (s.conclude r.val d st res a l) r d st res a l := by
  obtain ⟨h1, h2, h3⟩ := h
  refine ⟨?_, fun x hx => gone_decideOne s r.val d st res a l x (shrinks_conclude_rest _ _ _ _ _ _ _ _ _ hx)⟩
  have key : Output.hostWrite ((s.ring r.val).cqBase + BitVec.ofNat 64 (16 * (s.ring r.val).cqWr.toNat))
      (leBytes 16 (if (s.ring r.val).cqPhase then
        completionEntry (s.time.sc.setWidth 48) d.tag st a l r.val res ||| BitVec.ofNat 128 (2 ^ 53)
        else completionEntry (s.time.sc.setWidth 48) d.tag st a l r.val res).toNat) ∈ (s.decideOne r.val d st res a l).out := by
    unfold State.decideOne State.flushRing
    dsimp only
    rw [State.ring_modRing_same]
    simp only [h1, List.nil_append, List.length_singleton]
    unfold State.flushHeld
    rw [State.ring_modRing_same]
    have hl : ((s.modRing r.val fun g => { g with
        inProgress := g.inProgress.filter fun x => decide (x.serial ≠ d.serial)
        decided := ((d.tag, BitVec.ofNat 8 d.op) :: g.decided).take 64
        heldC := g.heldC ++ [(completionEntry (s.time.sc.setWidth 48) d.tag st a l r.val res, d.irq)] }).linkLive && decide (0 < ringFree
          { s.ring r.val with
            inProgress := (s.ring r.val).inProgress.filter fun x => decide (x.serial ≠ d.serial)
            decided := ((d.tag, BitVec.ofNat 8 d.op) :: (s.ring r.val).decided).take 64
            heldC := (s.ring r.val).heldC ++ [(completionEntry (s.time.sc.setWidth 48) d.tag st a l r.val res, d.irq)] })) = true := by
      simp only [Bool.and_eq_true, decide_eq_true_eq]
      exact ⟨h2, h3⟩
    simp only [h1, List.nil_append] at hl ⊢
    rw [if_pos hl]
    simp only [State.flushHeld]
    unfold State.writeCompletion
    dsimp only
    rw [State.ring_modRing_same, State.ring_modRing_same]
    split
    · exact outgrows_pend _ _ _ _ (List.mem_append_right _ (List.mem_singleton.2 rfl))
    · exact List.mem_append_right _ (List.mem_singleton.2 rfl)
  exact outgrows_conclude_rest _ _ _ _ _ _ _ _ key

end Sys2Proof.Machine
end

