-- ==== Sys2Proof/Tests/Slice0.lean ====
section
/-! SUPPORT. Tests: an ill-formed term for each check of WellFormed, and for each statement a theorem showing states and operands that meet its
hypotheses together, one conjunct per clause, in the order of the clauses, at a boundary of its range where it has one. -/

open Sys2Proof Sys2Proof.Machine

namespace Sys2Proof.Tests

/- One theorem at a time: the checks below are evaluated by the kernel, and together they would take much memory. -/
set_option Elab.async false

/-! ### Small states -/

def c0 : CoreAt := ⟨0, 0, 0⟩
def k0 : ClusterAt := ⟨0, 0⟩

/-- A word or an entry from its fields: value and lowest bit. -/
def fields (l : List (Nat × Nat)) : Nat := l.foldr (fun p r => p.1 * 2 ^ p.2 + r) 0
def wd (l : List (Nat × Nat)) : Word := BitVec.ofNat 128 (fields l)

/-- One core and one cluster. -/
def single (x : Core) (k : Cluster := {}) : State := { State.reset with cores := [(0, x)], clusters := [(0, k)] }

/-- A running cluster whose core 0 has accepted a word of which every unit operation waits. -/
def issuing (w : Word) (x : Core := {}) (k : Cluster := {}) : State :=
  single { x with store := [(0, w)], todo := { te := true, ve := true, ag0 := true, ag1 := true, ce := true, pt := 0xFFFF } }
    { k with run := .running, accepted := true }

/-- The same, with the word's unit operations performed. -/
def stepping (w : Word) (x : Core := {}) (k : Cluster := {}) : State :=
  single { x with store := [(0, w)] } { k with run := .running, accepted := true }

/-- A state with its first half die switched on. -/
def lit (s : State) : State := { s with domains := [(0, { powered := true })] }

/-- A package whose host has its link, with some rings. -/
def hosted (r : SMap Ring) (h : HostIf := {}) : State := { State.reset with host := { h with linkUp := true, rings := r } }

/-! ### Well-formed commands -/

theorem test_wf_meshLink : (Instr.meshLinkFail 768 0 0 false).wellFormed = false ∧ (Instr.meshLinkFail 0 576 0 false).wellFormed = false ∧
    (Instr.meshLinkFail 0 0 4 false).wellFormed = false ∧ (Instr.meshLinkFail 767 575 3 true).wellFormed = true := by decide
theorem test_wf_payload : (Instr.channelRecordArrival c0 0 (List.replicate 4081 0)).wellFormed = false := by decide +kernel
theorem test_wf_parts : (Instr.partWrite 0 0 []).wellFormed = false ∧ (Instr.dmaWrite 0 0 (List.replicate 4097 0)).wellFormed = false := by
  decide +kernel
theorem test_wf_segments : (Instr.tileSegmentArrival c0 0 []).wellFormed = false ∧ (Instr.segmentWrite 0 0 []).wellFormed = false ∧
    (Instr.deliver c0 0 []).wellFormed = false ∧ (Instr.tileSegmentArrival c0 0 (List.replicate 4081 0)).wellFormed = false ∧
    (Instr.segmentWrite 0 0 (List.replicate 4081 0)).wellFormed = false ∧ (Instr.deliver c0 0 (List.replicate 4081 0)).wellFormed = false := by
  decide +kernel
theorem test_wf_stallAge : (Instr.stallAge c0 true 16).wellFormed = false ∧ (Instr.stallAge c0 true 15).wellFormed = true := by decide
theorem test_wf_edits : (Instr.routeTableChange [⟨k0, true, 24, none⟩]).wellFormed = false ∧
    (Instr.routeTableChange [⟨k0, false, 6912, none⟩]).wellFormed = false ∧ (Instr.routeTableChange [⟨k0, false, 0, some (96, 0)⟩]).wellFormed = false ∧
    (Instr.routeTableChange [⟨k0, false, 0, some (0, 72)⟩]).wellFormed = false ∧
    (Instr.hull 0 0 { edits := [⟨k0, true, 24, none⟩] } 0 0).wellFormed = false ∧
    (Instr.hull 0 0 { bad := [(768, 0, 0)] } 0 0).wellFormed = false ∧ (Instr.hull 0 0 { bad := [(767, 575, 3)] } 0 0).wellFormed = true := by decide
theorem test_wf_frames : (Instr.dataFrame 0 [] []).wellFormed = false ∧ (Instr.idleFrame 0 [] []).wellFormed = false ∧
    (Instr.linkFrame 0 [] []).wellFormed = false ∧ (Instr.id 0 []).wellFormed = false ∧
    (Instr.dataFrame 0 (List.replicate 344 0) [(8, 0)]).wellFormed = false ∧ (Instr.dataFrame 0 (List.replicate 344 0) [(7, 0)]).wellFormed = true ∧
    (Instr.linkDieIngress 1 0 (packet 0 ⟨0, 0, 0, 0⟩ ⟨0, 0, 0, 0⟩ 0 [])).wellFormed = false := by decide +kernel
theorem test_wf_host : (Instr.sqTailDoorbell 64 0).wellFormed = false ∧ (Instr.cqHeadDoorbell 81 0).wellFormed = false ∧
    (Instr.test 0 0 { results := [(k0, .pass), (k0, .void)] }).wellFormed = false ∧ (Instr.registerWrite 4 true 0).wellFormed = false ∧
    (Instr.registerWrite 2 false 0).wellFormed = false ∧ (Instr.registerWrite 4 false 0x100000000).wellFormed = false ∧
    (Instr.requestReport none [] (List.replicate 7552 0)).wellFormed = false ∧ (Instr.requestReport none (List.replicate 128 0) []).wellFormed = false ∧
    (Instr.loadToken (some []) true true).wellFormed = false ∧ (Instr.setCascade (some []) true).wellFormed = false := by decide +kernel
theorem test_wf_power : (Instr.busSample 16384 0 0).wellFormed = false ∧ (Instr.busSample 0 8192 0).wellFormed = false ∧
    (Instr.surge 720 0).wellFormed = false ∧ (Instr.inputReversed 0).wellFormed = false ∧ (Instr.powerLoop [] 0).wellFormed = false ∧
    (Instr.firmware [k0, k0]).wellFormed = false ∧ (Instr.knownAnswer [⟨k0, 0, 0, 0⟩, ⟨k0, 0, 0, 1⟩]).wellFormed = false ∧
    (Instr.eclipseReturn 0 [⟨k0, 1, 1, 0⟩, ⟨k0, 1, 1, 0⟩]).wellFormed = false ∧ (Instr.grade [] true true).wellFormed = false ∧
    (Instr.quiesceReturn { part := .host, fails := [⟨k0, 0, 0, 0⟩, ⟨k0, 0, 0, 0⟩] }).wellFormed = false := by decide

theorem test_table_gives_no_bits : decodeTableWord 32 0 = none ∧ State.reset.withFetchWord 32 0 = State.reset := by decide +kernel

/-! ### Time -/

/-- A counter in a state; its settings name the parent port 5, or make it the starter. -/
def timed (st : TimeState) (un : Nat) (starter : Bool) (alt : Nat := 0) : State := { State.reset with
  ports := [(5, { state := .up, width := 8 })]
  time := { running := true, settings := BitVec.ofNat 32 (fields [(if starter then 1 else 0, 0), (1, 1), (5, 2), (alt, 8), (6, 9)])
            state := st, unanswered := un, probe := some 7 } }

theorem test_time_witness :
    (State.reset.pending = [] ∧ State.reset.time.running = false) ∧
    ((timed .acquire 0 true).pending = [] ∧ (timed .acquire 0 true).time.running = true ∧ (timed .acquire 0 true).time.acc < 1000000 ∧
      (timed .acquire 0 true).time.state = .acquire) ∧
    ((timed .locked 0 false).pending = [] ∧ (timed .locked 0 false).time.running = true ∧ (timed .locked 0 false).time.acc < 1000000) ∧
    ((timed .locked 0 true).port 5).carries = true ∧
    ((timed .locked 0 false).time.starterBit = false ∧ (timed .locked 0 false).time.state ≠ .starter ∧
      (timed .locked 0 false).time.activePort.toList = [5]) ∧
    ((timed .holdover 0 false 1).time.state = .holdover ∧
      ((timed .holdover 0 false 1).time.parentPort.toList ++ (timed .holdover 0 false 1).time.altPort.toList).dedup = [5, 6]) ∧
    ((timed .locked 0 false).time.activePort = some (5 : Fin 64).val ∧ (timed .locked 0 false).time.probe = some 7 ∧ far50 (50 * 65536) = false ∧ far50 (50 * 65536 + 1) = true ∧
      (50 * 65536 : Int) = (((7 + 50 * 65536 : BitVec 80).toNat : Int) - (7 : BitVec 80).toNat) -
        ((((7 : BitVec 80).toNat : Int) - (7 : BitVec 80).toNat) - (((7 + 50 * 65536 : BitVec 80).toNat : Int) - (7 + 50 * 65536 : BitVec 80).toNat)) / 2) ∧
    ((timed .acquire 0 false).time.state = .acquire ∧ (timed .acquire 0 false).time.stepped = false ∧ (timed .acquire 0 false).job.relOwnDone = false ∧ near2 (2 * 65536) = true ∧
      near2 (2 * 65536 + 1) = false) ∧
    ((timed .locked 8 false).time.starterBit = false ∧ (timed .locked 8 false).time.state ≠ .starter ∧ 8 ≤ (timed .locked 8 false).time.unanswered ∧ (timed .locked 8 false).time.state ≠ .holdover ∧
      (timed .locked 8 false).time.altPort = none) ∧
    ((timed .locked 8 false 1).time.onAlt = false ∧ (timed .locked 8 false 1).time.altPort = some 6) := by decide +kernel

/-! ### A core's word -/

/-- A loop nest of one level over slots 3 to 5, COUNT repeats. -/
def oneLevel (count : Nat) : BitVec 256 := BitVec.ofNat 256 (fields [(3, 0), (5, 10), (count, 20), (1, 216)])

/-- Core 0 at slot p of a running cluster, its word to be finished. -/
def at_ (p : BitVec 10) (w : Word) (n : Nest) (cond : Bool := false) : State :=
  single { store := [(p.toNat, w)], slot := p, nest := n, todo := { cond := cond } } { run := .running, accepted := true }

/-- A core whose sequencer operation is due while core 1 has still to issue. -/
def due (s : State) (n : Nat) : Bool :=
  let t := s.accept k0
  (t.cluster k0).accepted && !(t.core c0).halted && !(t.cluster k0).issued.getLsbD 0 && (t.core c0).unitsDone && !(t.core ⟨0, 0, 1⟩).halted &&
    !(t.cluster k0).issued.getLsbD 1 && decide (seqOp (t.core c0).word = n)

theorem test_sequencer_witness :
    (due (at_ 1022 0 {}) 0 = true ∧ ((at_ 1022 0 {}).core c0).nest.active = false ∧ ((at_ 1022 0 {}).core c0).slot.toNat < 1023) ∧
    (due (at_ 5 0 ⟨true, oneLevel 1, []⟩) 0 = true ∧ loopStep (oneLevel 1) 5 (nestTop (oneLevel 1) + 1) 0 [] = (some 3, [(0, 1)])) ∧
    (due (at_ 5 0 ⟨true, oneLevel 1, [(0, 1)]⟩) 0 = true ∧ loopStep (oneLevel 1) 5 (nestTop (oneLevel 1) + 1) 0 [(0, 1)] = (none, [])) ∧
    due (at_ 5 (wd [(1, 124), (1023, 112)]) {}) 1 = true ∧
    (due (at_ 5 (wd [(2, 124)]) {} true) 2 = true ∧ ((at_ 5 (wd [(2, 124)]) {} true).core c0).todo.cond = true) ∧
    (due (at_ 1022 (wd [(2, 124)]) {}) 2 = true ∧ ((at_ 1022 (wd [(2, 124)]) {}).core c0).todo.cond = false) ∧
    due (at_ 5 (wd [(3, 124), (1020, 112)]) {}) 3 = true ∧ due (at_ 5 (wd [(4, 124)]) {}) 4 = true := by decide +kernel

/-- The same core as the last of its cluster. -/
def last (w : Word) : State :=
  let s := stepping w {} { issued := ~~~1 }
  { s with job := { state := .running } }

theorem test_last_core_witness :
    ((last 0).accept k0).job.between = .none ∧ ((last 0).accept k0).job.state = .running ∧ (((last 0).accept k0).core c0).unitsDone = true ∧
    (((last 0).accept k0).cluster k0).accepted = true ∧ (((last 0).accept k0).core c0).halted = false ∧
    (((last 0).accept k0).cluster k0).issued.getLsbD 0 = false ∧
    (∀ j : Fin 64, j ≠ 0 → (((last 0).accept k0).core (coreIn k0 j)).halted = true ∨ (((last 0).accept k0).cluster k0).issued.getLsbD j.val = true) ∧
    ([0, 1, 2, 3].all fun n => decide (seqOp (((last (wd [(n, 124)])).accept k0).core c0).word = n)) = true := by decide +kernel

theorem test_stall_witness : (((single {} { run := .running, stallLine := true }).accept k0).cluster k0).stallLine = true := by decide +kernel

/-! ### Tensor engine -/

/-- An anchor register with the explicit anchor 0 for two formats. -/
def axOf (a b : Nat) : BitVec 32 := BitVec.ofNat 32 (fields [(1, 31), (b, 24), (a, 20)])

def mmaWord (sparse : Nat) : Word := wd [(1, 108), (1, 103), (sparse, 102)]

theorem test_tensor_witness :
    (((issuing (mmaWord 0) { ax := [(0, axOf 0 0)] }).accept k0).ready c0 (·.te) = true ∧ teOp (mmaWord 0) = 1 ∧
      anchorOf (axOf 0 0) = some ⟨.int8, .int8, 0, true⟩ ∧ pairKind .int8 .int8 = some .eight) ∧
    (((issuing (mmaWord 1) { ax := [(0, axOf 8 8)] }).accept k0).ready c0 (·.te) = true ∧ teSpa (mmaWord 1) = true ∧
      anchorOf (axOf 8 8) = some ⟨.bf16, .bf16, 0, true⟩ ∧ pairKind .bf16 .bf16 = some .bf16) ∧
    (((issuing (wd [(2, 108), (9, 96)])).accept k0).ready c0 (·.te) = true ∧ teOp (wd [(2, 108), (9, 96)]) = 2 ∧ fmtOf (teArg (wd [(2, 108), (9, 96)])) = some .fp32) ∧
    (((issuing (wd [(3, 108)])).accept k0).ready c0 (·.te) = true ∧ teOp (wd [(3, 108)]) = 3) ∧
    (((issuing (wd [(4, 108)]) { ax := [(0, axOf 0 0)] }).accept k0).ready c0 (·.te) = true ∧ teOp (wd [(4, 108)]) = 4) ∧
    (((issuing (wd [(5, 108)])).accept k0).ready c0 (·.te) = true ∧ teOp (wd [(5, 108)]) = 5) ∧
    (((issuing (wd [(6, 108)]) { ax := [(0, axOf 0 0)] }).accept k0).ready c0 (·.te) = true ∧ teOp (wd [(6, 108)]) = 6) := by decide +kernel

/-! ### Vector engine -/

theorem test_vector_witness :
    ([1, 4, 7, 0xB].all fun n => ((issuing (wd [(n, 92)])).accept k0).ready c0 (·.ve) && decide (veOp (wd [(n, 92)]) = n)) = true ∧
    ([2, 3, 6].all fun n => ((issuing (wd [(n, 92)]) { ax := [(0, axOf 9 9)] }).accept k0).ready c0 (·.ve) && decide (veOp (wd [(n, 92)]) = n)) = true ∧
    anchorOf (axOf 9 9) = some ⟨.fp32, .fp32, 0, true⟩ ∧
    (((issuing (wd [(5, 92), (9, 77)])).accept k0).ready c0 (·.ve) = true ∧ veOp (wd [(5, 92), (9, 77)]) = 5 ∧ fmtOf (veY (wd [(5, 92), (9, 77)])) = some .fp32) := by
  decide +kernel

theorem test_sparsity_witness :
    ([8, 9].all fun n => ((issuing (wd [(n, 92)])).accept k0).ready c0 (·.ve) && decide (veOp (wd [(n, 92)]) = n)) = true ∧
    ([0, 1, 2, 3, 4, 5].all fun n => ((issuing (wd [(0xA, 92), (n, 89)])).accept k0).ready c0 (·.ve) && decide (veOp (wd [(0xA, 92), (n, 89)]) = 0xA) &&
      decide (veCfgN (wd [(0xA, 92), (n, 89)]) / 4 = n)) = true ∧
    rateExceeded 1 1 0 = true ∧ rateExceeded 0 1 0 = false := by decide +kernel

/-! ### Memory engine -/

def agWord (g op port part : Nat) : Word := wd [(op, agBase (if g = 0 then 0 else 1) + 15), (port, agBase (if g = 0 then 0 else 1) + 6), (part, agBase (if g = 0 then 0 else 1))]

theorem test_address_generator_witness :
    (∀ g : Fin 2, ((issuing (agWord g.val 1 8 15)).accept k0).ready c0 (agTodo g) = true ∧ agOp (agWord g.val 1 8 15) g = 1 ∧
      readDest (agPort (agWord g.val 1 8 15) g) (agPart (agWord g.val 1 8 15) g) (descWidth (({} : Core).desc g 0)) = some (.kreg 15)) ∧
    (∀ g : Fin 2, ((issuing (agWord g.val 2 0xA 4)).accept k0).ready c0 (agTodo g) = true ∧ agOp (agWord g.val 2 0xA 4) g = 2 ∧
      (({} : Core).writeSource (agPort (agWord g.val 2 0xA 4) g) (agPart (agWord g.val 2 0xA 4) g) (descWidth (({} : Core).desc g 0))).isSome = true) ∧
    (∀ g : Fin 2, ((issuing (agWord g.val 3 0 0)).accept k0).ready c0 (agTodo g) = true ∧ agOp (agWord g.val 3 0 0) g = 3) := by decide +kernel

/-! ### Deliveries and the fabric side -/

/-- A cluster between two cycles, whose core 0 has these effects in flight. -/
def between (l : List Pending) : State := single { pipe := l } { run := .running, cycle := 4 }

/-- A core with one access in its bulk queue. -/
def bulk (ops : List FabricOp) (fin : FabricEnd) (x : Core := {}) : State := lit (single { x with fqBulk := [{ ops := ops, fin := fin }] } { run := .running })

/-- The access is made in this cycle: its first bank operation is free of errors, or not. -/
def served (ops : List FabricOp) (fin : FabricEnd) (x : Core := {}) (bad : Bool := false) : Bool :=
  let s := bulk ops fin x
  s.fabricWorks c0 && !(s.core c0).fabUsed && (s.core c0).generating.isEmpty && decide (s.fabricPick c0 = some (1, { ops := ops, fin := fin })) &&
    ops.head?.any fun o => (s.core c0).opBad o == bad

/-- A packet to a port of the last link die. -/
def outPacket : Packet := toComp (packet 2 ⟨0, 0, 0, 0⟩ ⟨0, 0, 0, 0⟩ 0) 2 7

theorem test_deliveries_witness :
    ((issuing (wd [(0x8000, 0)])).accept k0).ready c0 (fun r => r.pt.getLsbD 15) = true ∧
    (((between [⟨4, 0, .land (.kreg 15) [1, 2, 3, 4]⟩]).cluster k0).run = .running ∧
      ((between [⟨4, 0, .land (.kreg 15) [1, 2, 3, 4]⟩]).cluster k0).accepted = false ∧
      ((between [⟨4, 0, .land (.kreg 15) [1, 2, 3, 4]⟩]).cluster k0).stallLine = false ∧
      (between [⟨4, 0, .land (.kreg 15) [1, 2, 3, 4]⟩]).stallsNow k0 = false ∧
      ((between [⟨4, 0, .land (.kreg 15) [1, 2, 3, 4]⟩]).core c0).forwards = [] ∧
      ((between [⟨4, 0, .land (.kreg 15) [1, 2, 3, 4]⟩]).core c0).pipe.filter (fun p => decide (p.due ≤ 4)) = [⟨4, 0, .land (.kreg 15) [1, 2, 3, 4]⟩] ∧
      (Dest.kreg 15).targets ≠ []) ∧
    ((between [⟨4, 0, .land (.kreg 0) [1]⟩, ⟨3, 0, .land (.kreg 0) [2]⟩]).stallsNow k0 = false ∧
      ((between [⟨4, 0, .land (.kreg 0) [1]⟩, ⟨3, 0, .land (.kreg 0) [2]⟩]).core c0).forwards = [] ∧
      ((between [⟨4, 0, .land (.kreg 0) [1]⟩, ⟨3, 0, .land (.kreg 0) [2]⟩]).core c0).pipe.filter (fun p => decide (p.due ≤ 4)) =
        [⟨4, 0, .land (.kreg 0) [1]⟩, ⟨3, 0, .land (.kreg 0) [2]⟩]) := by decide +kernel

theorem test_transpose_witness :
    ((stepping 0 { pipe := [⟨4, 0, .land (.transpose true) (List.replicate 32 0)⟩] }).cluster k0).accepted = true ∧
    (transposeDeliver true (List.replicate 32 0)).isSome = true ∧ transposeDeliver false (List.replicate 32 0xFF) = none := by decide +kernel

theorem test_fabric_witness :
    served [.read 0 32, .read 32 32] .done = true ∧ served [.read 131040 32] .header = true ∧ served [.write 131068 [1, 2, 3, 4]] .done = true ∧
    served [.read 131040 32] (.send [outPacket] none none) = true ∧ served [.read 0 32] (.send [outPacket] (some []) (some 15)) = true ∧
    served [.read 131068 4] .token = true ∧ served [.write 0 [1]] (.recorded 15 none) = true ∧ served [.write 0 [1]] (.reply 15 3 0) = true ∧
    (served [.atomic 0 0 0 1] .done { ecc := [(0, some true)] } true = true ∧ ((bulk [.read 0 4] .done).cluster k0).run ≠ .halted) ∧
    ((bulk [] .done { generating := [(0, { ops := [], fin := .send [outPacket] (some []) none })] }).fabricWorks c0 = true ∧
      ((bulk [] .done).cluster k0).run = .running) ∧
    (({ wback := [16383] } : Core).wback.find? (fun w => (single { wback := [16383] }).bankFree c0 (bankOf (8 * w))) = some 16383) := by decide +kernel

/-! ### Channel engine -/

/-- A send endpoint: VALID, TYPE, MCAST, RSLOTS and source slots, with its credits. -/
def sendEntry (type mcast rslots src : Nat) : BitVec 128 := BitVec.ofNat 128 (fields [(1, 127), (type, 125), (mcast, 124), (rslots, 108), (src, 86)])

/-- A core that sends, and has read the header of the tile at its source, of format INT8 in the dense form. -/
def sending (w : Word) (e : SendEp) : State := issuing w { se := [(0, e)], hdrRead := some (List.replicate 64 0) }

theorem test_sends_witness :
    (((sending (wd [(1, 29), (63, 17)]) { entry := sendEntry 0 0 63 63, credits := 64, rslots := 63 }).accept k0).ready c0 (·.ce) = true ∧
      (({ entry := sendEntry 0 0 63 63 } : SendEp)).type = 0 ∧ ceOp (wd [(1, 29), (63, 17)]) = 1) ∧
    (((sending (wd [(2, 29), (63, 17)]) { entry := sendEntry 0 1 63 63, rslots := 63, tcredits := [64] }).accept k0).ready c0 (·.ce) = true ∧
      (({ entry := sendEntry 0 1 63 63 } : SendEp)).mcast = true ∧ ceOp (wd [(2, 29), (63, 17)]) = 2) ∧
    (((sending (wd [(1, 29)]) { entry := sendEntry 1 0 63 63, credits := 64, rslots := 63 }).accept k0).ready c0 (·.ce) = true ∧
      (({ entry := sendEntry 1 0 63 63 } : SendEp)).type = 1 ∧ (({ entry := sendEntry 1 0 63 63 } : SendEp)).stream = false ∧
      (fmtRow (segFmt ((some (List.replicate 64 (0 : Byte))).getD []))).isSome = true) ∧
    (((sending (wd [(1, 29)]) { entry := sendEntry 1 0 14 63 ||| 24 <<< 63 }).accept k0).ready c0 (·.ce) = true ∧
      (({ entry := sendEntry 1 0 14 63 ||| 24 <<< 63 } : SendEp)).stream = true ∧ (({ entry := sendEntry 1 0 14 63 ||| 24 <<< 63 } : SendEp)).readStream = false) ∧
    (((sending (wd [(2, 29)]) { entry := sendEntry 1 1 63 63 }).accept k0).ready c0 (·.ce) = true ∧ (({ entry := sendEntry 1 1 63 63 } : SendEp)).type = 1) ∧
    (((sending (wd [(1, 29), (255, 17)]) { entry := sendEntry 1 0 15 63 ||| 27 <<< 63, credits := 1 }).accept k0).ready c0 (·.ce) = true ∧
      (({ entry := sendEntry 1 0 15 63 ||| 27 <<< 63 } : SendEp)).readStream = true ∧ (({ entry := sendEntry 1 0 15 63 ||| 27 <<< 63 } : SendEp)).mcast = false ∧
      ((sending 0 {}).accept k0).genhan.held = false) := by decide +kernel

def receiving (op arg : Nat) (r : RecvEp) : State := issuing (wd [(op, 29), (arg, 17)]) { re := [(0, r)] }

theorem test_receives_witness :
    (((receiving 3 0 { recs := [{ kind := 0, pos := 0, slots := 1 }] }).accept k0).ready c0 (·.ce) = true ∧ ceOp (wd [(3, 29), (0, 17)]) = 3 ∧
      ((({ recs := [{ kind := 0, pos := 0, slots := 1 }] } : RecvEp).unwaited.take 1).any (·.ovf)) = false) ∧
    (((receiving 3 0 { recs := [{ kind := 3, pos := 0, slots := 1, ovf := true }] }).accept k0).ready c0 (·.ce) = true ∧
      ((({ recs := [{ kind := 3, pos := 0, slots := 1, ovf := true }] } : RecvEp).unwaited.take 1).any (·.ovf)) = true) ∧
    (((receiving 4 0 { recs := [{ kind := 0, pos := 0, slots := 1, waited := true }] }).accept k0).ready c0 (·.ce) = true ∧ ceOp (wd [(4, 29), (0, 17)]) = 4 ∧
      (((receiving 4 0 { recs := [{ kind := 0, pos := 0, slots := 1, waited := true }] }).accept k0).core c0).demands = []) ∧
    (freeRecs 2 1 [{ kind := 0, pos := 0, slots := 1, waited := true }]).2 ≠ 0 ∧
    ([23, 24].all fun d =>
      let s := (receiving 4 0 { recs := [{ kind := 0, pos := 0, slots := 1, waited := true }], feed := some (⟨0, d, 0, 0⟩, 15) }).accept k0
      s.ready c0 (·.ce) && decide (((s.core c0).recvEp 0).type ≠ 2) && ((s.core c0).recvEp 0).peer.isNone && ((s.core c0).recvEp 0).feed.isSome) = true ∧
    (let s := (receiving 4 0 { recs := [{ kind := 0, pos := 0, slots := 1, waited := true }], peer := some ⟨7, 4095, ⟨1, 0, 0, 0⟩, 15⟩ }).accept k0;
      s.ready c0 (·.ce) && decide (((s.core c0).recvEp 0).type ≠ 2) && ((s.core c0).recvEp 0).peer.isSome) = true ∧
    (let s := (receiving 4 0 { entry := 2 <<< 125 }).accept k0;
      s.ready c0 (·.ce) && decide (((s.core c0).recvEp 0).type = 2)) = true := by decide +kernel

/-! ### Remote requests -/

theorem test_remote_requests_witness :
    ([5, 6, 7].all fun n => ((issuing (wd [(n, 29), (127, 17)])).accept k0).ready c0 (·.ce) && decide (ceOp (wd [(n, 29), (127, 17)]) = n) &&
      decide (ceArg (wd [(n, 29), (127, 17)]) < 128)) = true ∧
    (((issuing (wd [(7, 29), (128, 17)])).accept k0).ready c0 (·.ce) = true ∧ localAtomic (wd [(7, 29), (128, 17)]) = true) ∧
    (((issuing (wd [(5, 29), (128, 17)]) {} { reds := [(0, { entry := 1 <<< 255 })] }).accept k0).ready c0 (·.ce) = true ∧
      128 ≤ ceArg (wd [(5, 29), (128, 17)])) := by decide +kernel

/-- A record: fabric address, length, local offset. -/
def record (space length loc : Nat) : BitVec 256 := BitVec.ofNat 256 (fields [(space, 48), (loc, 162), (length, 179)])

def requested (op : BitVec 2) (b : BitVec 256) (checked : Bool) (cycle : Nat) : State :=
  single { reqQ := [⟨0, op, 0, some b, checked, 0, 0⟩] } { run := .running, accepted := true, cycle := cycle }

theorem test_request_record_witness :
    (((requested 0 (record 3 4 0) false 3).cluster k0).accepted = true ∧ 0 + 3 ≤ ((requested 0 (record 3 4 0) false 3).cluster k0).cycle ∧
      (requested 0 (record 3 4 0) false 3).recordFault c0 ⟨0, 0, 0, some (record 3 4 0), false, 0, 0⟩ (record 3 4 0) = none) ∧
    (requested 1 (record 3 4033 0) false 3).recordFault c0 ⟨0, 1, 0, some (record 3 4033 0), false, 0, 0⟩ (record 3 4033 0) = some fFaInvalid ∧
    (((requested 0 (record 3 4064 0) true 3).core c0).reqQ = [⟨0, 0, 0, some (record 3 4064 0), true, 0, 0⟩] ∧
      (requested 0 (record 3 4064 0) true 3).genhan.held = false ∧ ((requested 0 (record 3 4064 0) true 3).cluster k0).run = .running) ∧
    (((requested 1 (record 3 4 0) true 3).core c0).recvEp 0).canReserve (replySlots 1 (record 3 4 0)) = true ∧
    faSpace (recFA (record 3 4 0)) = 3 ∧ (faSpace (recFA (record 0 4 0)) ≠ 3 ∧ faPkg (recFA (record 0 4 0)) = State.reset.pkg) ∧
    (faSpace (recFA (record 0 4 0 ||| 1 <<< 52)) ≠ 3 ∧ faPkg (recFA (record 0 4 0 ||| 1 <<< 52)) ≠ State.reset.pkg) := by decide +kernel

/-! ### Ordering, steering, connections -/

/-- A steering unit with one token and one data message admitted and one pair asked for; the token. -/
def steered (mask : Nat) (top : BitVec 32) (credits : Nat) : State :=
  single { steer := { cfg := BitVec.ofNat 64 (fields [(1, 0), (2, 8), (mask, 16), (1, 32)]), tq := 1, dq := 1, pending := 1, toks := [top] }
           re := [(1, { recs := [{ kind := 0, pos := 0, slots := 1 }] }), (2, { recs := [{ kind := 0, pos := 0, slots := 2 }] })]
           se := [(0, { credits := credits, rslots := 1 })] } { run := .running }

theorem test_ordering_witness :
    (((issuing (wd [(8, 29), (2, 17)])).accept k0).ready c0 (·.ce) = true ∧ ceOp (wd [(8, 29), (2, 17)]) = 8 ∧ ceArg (wd [(8, 29), (2, 17)]) < 3) ∧
    (((issuing (wd [(8, 29), (3, 17)])).accept k0).ready c0 (·.ce) = true ∧ 3 ≤ ceArg (wd [(8, 29), (3, 17)])) ∧
    ([9, 10, 11, 12].all fun n => ((issuing (wd [(n, 29)])).accept k0).ready c0 (·.ce) && decide (ceOp (wd [(n, 29)]) = n)) = true := by decide +kernel

/-- What the clauses about the steering unit ask of a state, with its token. -/
def pairWaits (s : State) : Option (BitVec 32 × BitVec 16) :=
  let x := (s.core c0).takeIn (s.now c0)
  if (s.core c0).steer.enabled && decide ((s.cluster k0).run = .running) && decide (x.steer.pending ≠ 0) && decide (x.steer.dq ≠ 0) &&
      (x.recvEp x.steer.dataEp).head.isSome then x.token.map fun t => (t, x.steer.outMask) else none

theorem test_steering_witness :
    (pairWaits (steered 0 0 2) = some (0, 0) ∧ tokenOk 0 0 = false) ∧
    (pairWaits (steered 1 0x80000000 2) = some (0x80000000, 1) ∧ tokenOk 0x80000000 1 = true ∧ bitsOf (0x80000000 : BitVec 32).toNat 31 30 = 2) ∧
    (pairWaits (steered 1 0 2) = some (0, 1) ∧ tokenOk 0 1 = true ∧ bitsOf (0 : BitVec 32).toNat 31 30 < 2 ∧ (steered 1 0 2).genhan.held = false ∧
      tokenTargets 0 = [0] ∧ (({ credits := 2, rslots := 1 } : SendEp)).hasCredit ((({ credits := 2, rslots := 1 } : SendEp)).need 2) = true) := by decide +kernel

def connected (st : ConnState) (op : Nat) : State := issuing (wd [(op, 29)]) { se := [(0, { entry := 1 <<< 127, conn := st })] }

theorem test_connection_witness :
    (((connected .closed 13).accept k0).ready c0 (·.ce) = true ∧ ceOp (wd [(13, 29)]) = 13) ∧
    ([ConnState.open_, .pending, .failed].all fun st => ((connected st 14).accept k0).ready c0 (·.ce) && decide (ceOp (wd [(14, 29)]) = 14) &&
      decide (((((connected st 14).accept k0).core c0).sendEp (ceEp (wd [(14, 29)]))).conn = st)) = true := by decide +kernel

/-- A package whose core 0 may receive a connection on its endpoint 0. -/
def peerable (conns : SMap (BitVec 128)) : State :=
  { single { re := [(0, { entry := BitVec.ofNat 128 (fields [(1, 127), (1, 124)]) })] } with
    domains := [(0, { powered := true })], conns := conns }

theorem test_connection_table_witness :
    ((peerable []).freeConns 7 ≠ [] ∧ (peerable []).openStatus 0 = 0 ∧ (peerable []).coreAt (ccDst 0) = some c0) ∧
    State.reset.openStatus 0 ≠ 0 ∧
    ((ccConn (4095 <<< 236)).toNat = 4095 ∧ ((peerable [(4095, 1 <<< 127)]).conn 0 4095).getLsbD 127 = true ∧
      entryPeer ((peerable [(4095, 1 <<< 127)]).conn 0 4095) = ccSrc (4095 <<< 236) ∧
      entryPeerEp ((peerable [(4095, 1 <<< 127)]).conn 0 4095) = ccSrcEp (4095 <<< 236)) := by decide +kernel

theorem test_connection_answer_witness :
    ((peerable []).waits (isForComp 2 7 9 0 []) = false ∧ (peerable []).waits ((peerable []).isFor c0 9 0 []) c0.core.val = false) ∧
    (ccStatus 0 = 0 ∧ ccStatus (1 <<< 248) ≠ 0 ∧ ccStatus (1 <<< 248) < 6 ∧ ccStatus (5 <<< 248) ≠ 0 ∧ ccStatus (5 <<< 248) < 6) ∧
    ([ConnState.pending, .closing, .open_].all fun st => decide ((((single { se := [(0, { conn := st })] }).core c0).sendEp (ccSrcEp 0).toNat).conn = st) &&
      !(((single { se := [(0, { conn := st })] }).core c0).sendEp 0).closeAfter) = true := by decide +kernel

/-! ### Launches and relaunches -/

def jobOf (st : JobState) (b : Between := .none) : Job := { state := st, members := [k0], between := b }

def armed (st : JobState) (sc : BitVec 64) : State := { single {} { run := .held, armed := true } with
  job := { jobOf st with launch := 100 }, time := { running := true, sc := sc } }

def finished : State := { State.reset with
  cores := (List.range 64).map fun i => (i, { halted := true }), clusters := [(0, { run := .running })], job := jobOf .running }

def waitingFor (b : Between) (run : Run) (own : Bool) (st : TimeState) : State := { single {} { run := run } with
  job := { jobOf .running b with relOwnDone := own }, time := { state := st, settings := 0 } }

theorem test_launch_witness :
    ((armed .running 100).time.running = true ∧ ((armed .running 100).cluster k0).run = .held ∧ ((armed .running 100).cluster k0).armed = true ∧
      (armed .running 100).job.launch.toNat ≤ (armed .running 100).time.sc.toNat ∧ (armed .running 100).job.state = .running) ∧
    ((armed .armed 100).job.state = .armed ∧ (armed .armed 100).job.launch.toNat ≤ (armed .armed 100).time.sc.toNat) ∧
    ((finished.cluster k0).run = .running ∧ (finished.cluster k0).accepted = false ∧ (∀ i, (finished.core (coreIn k0 i)).halted = true) ∧
      (∀ i, (finished.core (coreIn k0 i)).settledAll = true) ∧ finished.job.state = .running ∧ finished.job.between = .none) := by decide +kernel

theorem test_relaunch_witness :
    ((waitingFor (.transfer 7 true) .complete false .acquire).job.state = .running ∧ (waitingFor (.transfer 7 true) .complete false .acquire).timeOk = false ∧
      (∀ k ∈ (waitingFor (.transfer 7 true) .complete false .acquire).job.members, ((waitingFor (.transfer 7 true) .complete false .acquire).cluster k).run = .complete)) ∧
    ((waitingFor (.transfer 7 true) .complete false .locked).timeOk = true ∧ (waitingFor (.transfer 7 true) .complete false .locked).job.relParent = none ∧
      (waitingFor (.transfer 7 true) .complete false .locked).job.relChildren = []) ∧
    (waitingFor (.phaseRun 0) .held false .locked).job.relOwnDone = false ∧ (waitingFor (.phaseRun 0) .held false .locked).job.relParent = none ∧
    (waitingFor (.phaseRun 0) .held false .locked).job.between.waits = true ∧
    ([coxBody 3 0 none false 0, coxBody 4 0 none false 0, coxBody 5 0 none false 0 0, coxBody 6 0 none false 0].all fun b =>
      !(waitingFor (.phaseRun 0) .held false .locked).waits (isForGenhan (some 4095) b)) = true ∧
    ((waitingFor (.phaseRun 0) .held true .holdover).job.relOwnDone = true ∧ (waitingFor (.phaseRun 0) .held true .holdover).timeOk = false) := by decide +kernel

/-! ### The mesh -/

def bound (kind col row : Nat) (at_ : Nat × Nat) (mask : Nat := 0) : Packet :=
  let p := packet kind ⟨0, 0, 0, 0⟩ ⟨0, 0, 0, 0⟩ 0
  { p with route := routeHeader col row none p ||| BitVec.ofNat 128 mask, col := BitVec.ofNat 10 at_.1, row := BitVec.ofNat 10 at_.2, come := 1 }

def meshed (p : Packet) : State := lit { State.reset with mesh := [p] }

/-- The packet is the only one of the mesh and may make its hop. -/
def hops (p : Packet) : Bool :=
  let s := meshed p
  decide (s.mesh[0]? = some p) && s.onAt p.at_.1 p.at_.2 && firstInBuffer s.mesh 0 p && p.proper && !p.out && !s.intoDead p && !s.delayedAt p && s.mayGo p && s.wins 0 p

theorem test_packet_witness :
    (hops (bound 2 8 0 (7, 0)) = true ∧ (bound 2 8 0 (7, 0)).forking = false ∧ (meshed (bound 2 8 0 (7, 0))).stopsAt (bound 2 8 0 (7, 0)) = false ∧
      (bound 2 8 0 (7, 0)).passing.step = some (1, (8, 0)) ∧ (bound 2 8 0 (7, 0)).gone = 0) ∧
    (hops { bound 2 8 0 (7, 0) (2 ^ 82) with come := 2, gone := 1 } = true ∧ (bound 2 8 0 (7, 0) (2 ^ 82)).flits = 2) ∧
    (hops (bound 2 8 0 (8, 0)) = true ∧ (bound 2 8 0 (8, 0)).passing.step = none) ∧
    (hops (bound 2 0 0 (0, 0) (2 ^ 71 + 2 ^ 63 + 1)) = true ∧ (bound 2 0 0 (0, 0) (2 ^ 71 + 2 ^ 63 + 1)).forking = true ∧
      (bound 2 0 0 (0, 0) (2 ^ 71 + 2 ^ 63 + 1)).gone = 0 ∧ (bound 2 0 0 (0, 0) (2 ^ 71 + 2 ^ 63 + 1)).flits = 1) ∧
    firstInBuffer [bound 2 8 0 (7, 0), bound 2 0 0 (7, 0)] 1 (bound 2 0 0 (7, 0)) = false ∧
    ((meshed { bound 2 8 0 (7, 0) with come := 0 }).mayGo { bound 2 8 0 (7, 0) with come := 0 } = false ∧ (bound 2 8 0 (7, 0)).proper = true ∧
      (meshed (bound 2 8 0 (7, 0))).intoDead (bound 2 8 0 (7, 0)) = false) ∧
    ({ meshed (bound 2 8 0 (7, 0)) with genhan := { deadLinks := [(7, 0, 1)] } } : State).intoDead (bound 2 8 0 (7, 0)) = true ∧
    (let p := { bound 2 8 0 (7, 0) with come := 0, port := 4 };
      let s : State := { lit State.reset with waiting := [p] };
      s.firstAtSource 0 p && decide (p.gone = 0) && p.wait.isNone && (s.entryDelay p).isNone && (s.routed p).any fun q => s.mayEnter q && s.winsEdge 0 q) = true ∧
    ((bound 2 0 0 (0, 0) (2 ^ 64)).proper = false ∧ (meshed (bound 2 0 0 (0, 0) (2 ^ 64))).onAt 0 0 = true ∧
      firstInBuffer [bound 2 0 0 (0, 0) (2 ^ 64)] 0 (bound 2 0 0 (0, 0) (2 ^ 64)) = true) := by decide +kernel

/-! ### Arrivals at a core -/

/-- A receive endpoint with a ring of two slots at 8,192: its frames, of 4,160 bytes, start at 0. -/
def ring2 (type : Nat) : BitVec 128 := BitVec.ofNat 128 (fields [(1, 127), (type, 125), (1, 118), (65, 99), (1, 77), (128, 66)])

/-- A segment without blocks of format INT8 in block form 0, number 0 of two. -/
def emptySegment : Bytes := withCode (List.replicate 16 0 ++ [1, 8] ++ List.replicate 46 0)

def arriving (x : Core) : State := lit (single x { run := .running })
def tileRing : RecvEp := { entry := ring2 1 }

theorem test_channel_arrivals_witness :
    ((arriving {}).offline k0 = false ∧ ({} : Core).fabricRoom 1 = true ∧ (arriving {}).waits ((arriving {}).isFor c0 0 1 []) 0 = false ∧
      ({ fqBulk := List.replicate 8 { ops := [], fin := .done } } : Core).fabricRoom 1 = false ∧
      (({ entry := ring2 0, wpos := 1, expSeq := 0xFFFFFF } : RecvEp)).takes (0xFFFFFF <<< 64) (List.replicate 48 7) = true ∧
      (({ entry := ring2 0 } : RecvEp)).takes 1 (List.replicate 112 7) = true ∧
      (({ entry := ring2 0 } : RecvEp)).takes 2 (List.replicate 176 7) = false ∧ ((arriving {}).cluster k0).run ≠ .halted) ∧
    (tileRing.valid = true ∧ tileRing.type = 1 ∧ hdrKind 0x80 = 2 ∧ hdrClean 0x80 = true ∧ hdrSeq 0x80 = tileRing.expSeq ∧ 1 ≤ tileRing.free ∧ hdrSlots 0x80 = 1 ∧
      draocOk (emptySegment.take 63) = false ∧ draocOk emptySegment = true ∧ segmentOk emptySegment = true ∧ segSeg emptySegment = tileRing.seg ∧
      segSeglog emptySegment = tileRing.seglog ∧ rangeOk emptySegment tileRing.frameStride = true ∧
      (unpackWrites emptySegment).2 = false) ∧
    ((({ credits := 1, rslots := 63 } : SendEp)).mcast = false ∧ creditSlots (63 <<< 100) = 63 ∧ 1 + 0 + 63 ≤ 63 + 1 ∧ 63 + 1 < 2 + 0 + 63) ∧
    ((({ entry := 1 <<< 124, rslots := 63, tcredits := [1] } : SendEp)).mcast = true ∧ ((arriving {}).targetsOf c0 { entry := 1 <<< 124 }).findIdx?
      (fun t => decide (t = creditFrom (arriving {}).pkg (63 <<< 100))) = some 0) := by decide +kernel

/-! ### Remote accesses -/

/-- The window of the whole scratchpad, for everyone, with these permission bits; the host's logical place included. -/
def openWindow (perms : Nat) : BitVec 128 :=
  BitVec.ofNat 128 (fields [(1, 127), (perms, 124), (4095, 100), (4095, 88), (31, 71), (511, 57)])

/-- An access: offset, length, operation of an atomic and its value, issued from the host's place. -/
def access (off n atop value : Nat) (space : Nat := 0) : BitVec 256 :=
  BitVec.ofNat 256 (fields [(off, 0), (space, 48), (n, 151), (31, 203), (atop, 222), (value, 224)])

def windowed (perms : Nat) : Core := { win := [(7, openWindow perms)] }

theorem test_remote_accesses_witness :
    (faSpace (accFA (access 131068 4 0 0)) ≠ 3 ∧ (arriving (windowed 7)).offline k0 = false ∧ (windowed 7).fabricRoom 1 = true) ∧
    ((arriving (windowed 2)).waits ((arriving (windowed 2)).isFor c0 2 (access 131068 4 0 0) [1, 2, 3, 4]) 0 = false ∧
      (windowed 2).admits 125 131068 4 (accSrc (access 131068 4 0 0)) = true ∧ (windowed 5).admits 125 131068 4 (accSrc (access 131068 4 0 0)) = false) ∧
    ((arriving (windowed 4)).waits ((arriving (windowed 4)).isFor c0 3 (access 131071 1 0 0) []) 0 = false ∧
      (windowed 4).admits 126 131071 1 (accSrc (access 131071 1 0 0)) = true ∧ (windowed 3).admits 126 131071 1 (accSrc (access 131071 1 0 0)) = false) ∧
    ([(131068, 0), (131064, 1), (131008, 2)].all fun p =>
      let a := access p.1 4 p.2 15
      let sp := atomicWindow p.1 a
      (windowed 1).admits 124 sp.1 sp.2 (accSrc a) && decide (p.1 % atopAlign (accAtop a).toNat = 0) && !(windowed 6).admits 124 sp.1 sp.2 (accSrc a)) = true ∧
    (faSpace (accFA (access 4092 4 0 0 3)) = 3 ∧ (hosted [] { hwEnable := true }).windowHolds (access 4092 4 0 0 3) = true ∧
      (hosted [] { hwEnable := true }).windowHolds (access 4093 4 0 0 3) = false ∧
      (hosted [] {}).waits (isForComp 3 0 2 (access 4092 4 0 0 3) []) = false ∧ (hosted [] {}).waits (isForComp 3 0 3 (access 4092 4 0 0 3) []) = false) := by
  decide +kernel

theorem test_remote_accesses_made_witness :
    served [.write 131071 [1]] (.written 0) = true ∧ served [.atomic 131068 0 0 1] (.replied 0) = true ∧
    served [.atomic 131064 1 0 1] (.replied 0) = true ∧ served [.atomic 131008 2 0 15] (.replied 0) = true := by decide +kernel

def request (op : BitVec 2) (isRecord : Bool) : Outstanding :=
  { serial := 2048, op := op, isRecord := isRecord, tag := 255, scope := 4, ep := 15, pos := 3, fa := 0, linkDie := 7 }
def asked (op : BitVec 2) (isRecord : Bool) (late : List Outstanding := []) : Core :=
  { outstanding := [request op isRecord], late := late
    re := [(15, { entry := BitVec.ofNat 128 (fields [(1, 127), (2, 125)]), resv := [{ pos := 3, slots := hdrSlots 0xF0C0, serial := 2048 }] })] }

/-- Which outstanding request a reply record answers. -/
def answersAt (o : Outstanding) : Bool := answersTo none (fun o => decide (o.op ≠ 0) && decide (o.ep.toNat = hdrEp 0xF0C0) && decide (o.pos = (3 : BitVec 11).toNat)) o

theorem test_answers_witness :
    (hdrKind 0xF0C0 = 3 ∧ hdrClean 0xF0C0 = true ∧ (lit (single (asked 1 false))).routerHolds c0 1 = false ∧
      (lit (single (asked 1 false))).waits ((lit (single (asked 1 false))).isReply c0 3 0xF0C0 0 []) 0 = false ∧
      (lit (single (asked 1 false))).txnOf ((lit (single (asked 1 false))).isReply c0 3 0xF0C0 0 []) 0 = none) ∧
    ((asked 1 false).late.any answersAt = false ∧ (asked 1 false).outstanding.find? (fun o => answersAt o && !o.answered) = some (request 1 false) ∧
      ((asked 1 false).recvEp (hdrEp 0xF0C0)).takesReply 2048 0xF0C0 3 = true) ∧
    (asked 1 false [request 1 false]).late.any answersAt = true ∧
    ([false, true].all fun r =>
      let b : BitVec 128 := (255 <<< 120 ||| 4 <<< 113) ||| (if r then 1 <<< 112 else 0)
      let s := lit (single (asked 0 r))
      let f := s.isFor c0 5 (b.setWidth 256) []
      let g : Outstanding → Bool := fun o => decide (o.op = 0) && (o.isRecord == b.getLsbD 112) && decide (o.scope = b.extractLsb' 113 3) &&
        (b.getLsbD 112 || (decide (o.tag = b.extractLsb' 120 8) && answersTo (s.txnOf f 0) (fun _ => true) o))
      !s.waits f 0 && !(asked 0 r).late.any g && decide ((asked 0 r).outstanding.find? g = some (request 0 r))) = true ∧
    ((asked 0 false).outstanding[0]? = some (request 0 false) ∧ (request 0 false).answered = false ∧
      (asked 2 false).outstanding[0]? = some (request 2 false) ∧ (request 2 false).isRecord = false) := by decide +kernel

/-! ### Reductions -/

def reducing (mask : Nat) (x : Core := {}) (spent : Nat := 0) (st : BitVec 2 := 0) : State :=
  lit (single x { run := .running, reds := [(0, { entry := BitVec.ofNat 256 (2 ^ 255 + mask), parentSpent := spent, s0 := { state := st } })] })

def reserved : Core := { re := [(0, { resv := [{ pos := 0, slots := 1, red := some 0 }] })] }

/-- BUF_CORE, which is core 0, with the last operation of an access of the unit in its Reduce queue. -/
def unitAt (fin : FabricEnd) (spent : Nat) (st : BitVec 2) : State :=
  reducing 1 { fqReduce := [{ ops := [.read 0 4], fin := fin }] } spent st

/-- That access is the one that the fabric side makes. -/
def unitServed (fin : FabricEnd) (spent : Nat) (st : BitVec 2) : Bool :=
  let s := unitAt fin spent st
  s.fabricWorks c0 && !(s.core c0).fabUsed && (s.core c0).generating.isEmpty && decide (s.fabricPick c0 = some (0, { ops := [.read 0 4], fin := fin })) &&
    !(s.core c0).opBad (.read 0 4) && decide ((((s.cluster k0).redOf 0).slot 0).state = st) && decide (((s.cluster k0).redOf 0).parentSpent = spent) &&
    !((s.cluster k0).redOf 0).root

theorem test_reductions_witness :
    ([0, 1].all fun st => let s := reducing 3 {} 0 st; let r := (s.cluster k0).redOf 0
      !s.offline k0 && !(s.cluster k0).drained && !s.unitBusy k0 && !s.waits (s.isRed k0 6 0 []) 36 && decide ((s.cluster k0).redIndex (redRid 0) = some 0) &&
      decide (r.slotFor (s.node k0) (redSrc 0) = some 0) && decide ((redSrc 0).pkg = (s.node k0).pkg) && decide ((redSrc 0).die = (s.node k0).die) &&
      decide ((redSrc 0).cl = (s.node k0).cl) && r.mask.getLsbD (redSrc 0).core.toNat && decide ((r.slot 0).state = st) && !redFault (r.slot 0).header) = true ∧
    ((unitAt (.combine 0 0 0 0 []) 0 1).offline k0 = false ∧ (unitAt (.combine 0 0 0 0 []) 0 1).unitBusy k0 = true) ∧
    (unitServed (.combine 0 0 0 0 []) 0 1 = true ∧
      ((redSrc 0).pkg, (redSrc 0).die, (redSrc 0).cl) = (((reducing 1).node k0).pkg, ((reducing 1).node k0).die, ((reducing 1).node k0).cl)) ∧
    (unitServed (.slot 0 0) 1 2 = true ∧ unitServed (.slot 0 0) 2 2 = true ∧ unitServed (.partial_ 0 0) 2 2 = true) ∧
    ((reducing 1 reserved 1 2).offline k0 = false ∧ ((reducing 1 reserved 1 2).cluster k0).drained = false ∧ (reducing 1 reserved 1 2).unitBusy k0 = false ∧
      (reducing 1 reserved 1 2).waits ((reducing 1 reserved 1 2).isRed k0 7 0 []) 36 = false ∧ ((reducing 1 reserved 1 2).cluster k0).redIndex (redRid 0) = some 0 ∧
      (((reducing 1 reserved 1 2).cluster k0).redOf 0).oldest (fun t => decide (t.state = 2) && !t.waiting) = some 0 ∧
      (∀ c ∈ (reducing 1 reserved 1 2).treeCores k0 (((reducing 1 reserved 1 2).cluster k0).redOf 0) 0,
        ((reducing 1 reserved 1 2).core (coreIn k0 c)).redRoom (((reducing 1 reserved 1 2).cluster k0).redOf 0) 0 = true) ∧
      ((((reducing 1 reserved 1 2).cluster k0).redOf 0).slot 1).waiting = false) ∧
    ((reducing 1 reserved 1 2).waits ((reducing 1 reserved 1 2).isFor c0 7 0 []) 0 = false ∧ reserved.fabricRoom 0 = true ∧
      ((reducing 1 reserved 1 2).core c0).redRoom (((reducing 1 reserved 1 2).cluster k0).redOf 0) 0 = true) := by decide +kernel

/-! ### Catches, stops, stall ages -/

/-- A catch with two children, one of which has joined. -/
def catching (kids : Nat) (run : Run := .running) : State :=
  single {} { run := run, catches := [(15, { entry := BitVec.ofNat 64 (fields [(1, 63), (2, 51)]), children := List.replicate kids ⟨0, 0, 1, 0⟩ })] }

def stopping (run : Run) (accepted : Bool := false) : State := { single {} { run := run, accepted := accepted } with job := jobOf .running }

theorem test_catches_witness :
    ((catching 0).waits ((catching 0).isJoin k0 15 ⟨0, 0, 0, 0⟩) = false ∧ (catching 0).waits ((catching 0).isCatch k0 1 15) = false ∧
      (stopping .running).waits ((stopping .running).isStop k0 0) = false) ∧
    ((catching 0).job.between = .none ∧ (((catching 0).cluster k0).catchOf 15).valid = true ∧
      (((catching 0).cluster k0).catchOf 15).children.length + 1 < (((catching 0).cluster k0).catchOf 15).childCount) ∧
    ((((catching 0).cluster k0).catchOf 14).valid = false ∧ (((catching 2).cluster k0).catchOf 15).childCount ≤ (((catching 2).cluster k0).catchOf 15).children.length ∧
      ((catching 2).cluster k0).run ≠ .halted) ∧
    ((0xDF : BitVec 8).getLsbD 5 = false ∧ (0xFF : BitVec 8).getLsbD 5 = true) ∧
    ((stopping .running).job.tag = 0 ∧ (stopping .running).job.between = .none ∧ ((stopping .running).cluster k0).run = .running ∧
      ((stopping .running).cluster k0).accepted = false ∧ ((stopping .running true).cluster k0).accepted = true ∧ ((stopping .held).cluster k0).run = .held ∧
      (stopping .running).job.state = .running ∧ (stopping .running).genhan.stopsSeen.contains (0, 5, (stopping .running).time.sc) = false ∧
      (stopping .running).arriving (isStopFor 0 5) = none ∧ (stopping .running).waits (isStopFor 0 5) = false ∧
      ({ stopping .running with genhan := { stopsSeen := [(0, 5, 0)] } } : State).genhan.stopsSeen.contains (0, 5, 0) = true) := by decide +kernel


theorem test_stall_age_witness :
    ([0, 16, 47].all fun n =>
      let s := single { age := [(n, 2 ^ 26)], se := [(0, { entry := BitVec.allOnes 128 })], re := [(0, { entry := BitVec.allOnes 128 })] }
        { catches := [(15, { entry := BitVec.allOnes 64 })] }
      decide (s.ageLog c0 n ≠ 0) && decide (2 ^ (s.ageLog c0 n + 11) ≤ SMap.get 0 (s.core c0).age n) &&
      decide (SMap.get false (s.core c0).ageRaised n = false)) = true := by decide +kernel

/-! ### Deep memory -/

/-- A segment without blocks of format FP4, alone in its tile. -/
def loneSegment : Bytes := withCode (List.replicate 16 0 ++ [0xA1, 0] ++ List.replicate 46 0)

/-- Deep memory of one stack with the moon dies on, and a stream of one tile of 64 bytes and index up to 255. -/
def deepAt (t : Stream) (b : Bytes := []) (x : Core := {}) : State :=
  { single x { run := .running } with
    domains := [0, 56, 57, 58, 59].map fun d => (d, { powered := true }), boot := { record := BitVec.ofNat 512 (2 ^ 384) }, deep := SMap.setRun 0 [] 0 b, streams := [(0, t)] }

def reads : Stream := { entry := BitVec.ofNat 256 (fields [(1, 255), (255, 240), (1, 192)]) }
def writes (stride : Nat) (base : Nat := 0) : Stream := { entry := BitVec.ofNat 256 (fields [(3, 254), (stride, 192), (base, 112)]) }

def demandOf (claim : Bool) (i : Nat) : BitVec 128 := deepHeader 1 false claim 0 i 0 0 0

/-- A packet for moon die 0 or 1 waits on the mesh, or none. -/
def quiet (s : State) (h : BitVec 128) (b : Bytes := []) : Bool := !s.waits (isForComp 1 0 0xA (h.setWidth 256) b)

theorem test_demand_witness :
    (reads.valid = true ∧ reads.isWrite = false ∧ reads.faulted = false ∧ deepHeaderOk 1 (demandOf true 255) = true ∧ deepHeaderOk 1 (demandOf false 255) = true ∧
      dhSpec (demandOf true 255) = false ∧ dhStream (demandOf true 255) = 0 ∧ quiet (deepAt reads) (demandOf true 255) = true ∧
      quiet (deepAt reads) (demandOf false 255) = true ∧ (deepAt reads).stream 0 0 = reads) ∧
    ({ deepAt reads with homes := [(0, some (.write 0 0 0 0 [] []))] } : State).serving 0 = true ∧
    ((deepAt reads).serving 0 = false ∧ (deepAt reads).home 0 = none ∧ (deepAt reads).moonOff 0 = false ∧ dhIndex (demandOf true 255) ≤ reads.f 247 240 ∧ dhClaim (demandOf true 255) = true) ∧
    ((deepAt reads).coreAt (reads.owner (deepAt reads).pkg) = some c0 ∧ ((deepAt reads).cluster k0).run ≠ .halted) ∧
    ({ deepAt reads with domains := [(0, { powered := true })] } : State).moonOff 0 = true ∧
    (let t : Stream := { entry := BitVec.ofNat 256 (fields [(1, 255), (254, 240), (1, 192)]) };
      (deepAt t).moonOff 0 = false ∧ t.f 247 240 < dhIndex (demandOf false 255) ∧ (deepAt t).coreAt (t.owner 0) = some c0) ∧
    (dhClaim (demandOf false 255) = false ∧ 64 ≤ reads.stride ∧ anyPart (deepAt reads).moonOff (reads.tileAt 0) 64 = false ∧ moonOf (reads.tileAt 0) = 0 ∧
      (({ deepAt reads with deepErr := [(0, some true)] } : State).deepBad (reads.tileAt 0) (regionCut (reads.tileAt 0) 64)).isSome = true ∧
      (0 * (reads.f 247 240 + 1) + dhIndex (demandOf false 255)) % reads.tiles = 0) := by decide +kernel

theorem test_segment_write_witness :
    ((writes 1).valid = true ∧ (writes 1).isWrite = true ∧ (writes 1).faulted = false ∧ (writes 1).held = [] ∧ (∀ j : Fin 4, (deepAt (writes 1)).moonOff j.val = false) ∧
      (deepAt (writes 1)).serving 0 = false ∧ (deepAt (writes 1)).home 0 = none ∧ deepHeaderOk 2 (deepHeader 2 false false 0 0 0 0 0) = true ∧
      quiet (deepAt (writes 1)) (deepHeader 2 false false 0 0 0 0 0) emptySegment = true ∧ quiet (deepAt (writes 1)) (deepHeader 2 false false 0 0 0 0 0) loneSegment = true ∧
      draocOk emptySegment = true ∧ identityOk emptySegment (writes 1).tensor 0 0 0 = true ∧ 0 + 1 < 2 ^ segSeglog emptySegment) ∧
    (draocOk loneSegment = true ∧ identityOk loneSegment (writes 1).tensor 0 0 0 = true ∧ 2 ^ segSeglog loneSegment = 1 ∧
      pad64 loneSegment.length ≤ (writes 1).stride ∧ (writes 1).tileAt 0 + pad64 loneSegment.length ≤ (deepAt (writes 1)).areaBase 0 ∧
      moonOf ((writes 1).tileAt 0) = 0 ∧ (writes 1).tileAt 0 % 4096 + pad64 loneSegment.length ≤ 4096) ∧
    (let seg := loneSegment ++ List.replicate 64 7;
      (writes 2 63).tileAt 0 = 4032 ∧ pad64 seg.length = 128 ∧ 128 ≤ (writes 2 63).stride ∧ 4032 + 128 ≤ (deepAt (writes 2 63)).areaBase 0 ∧ 2 ^ segSeglog seg = 1 ∧
      draocOk seg = true ∧ identityOk seg (writes 2 63).tensor 0 0 0 = true ∧ quiet (deepAt (writes 2 63)) (deepHeader 2 false false 0 0 0 0 0) seg = true) ∧
    (let s : State := { deepAt (writes 1) with homes := [(0, some (.write 1 0 0 0 [] []))] };
      s.serving 0 = false ∧ (s.home (moonOf ((writes 1).tileAt 0))).isSome = true ∧ loneSegment ≠ []) ∧
    (writes 0).stride < pad64 loneSegment.length := by decide +kernel

def speculated : BitVec 128 := deepHeader 7 true false 0 255 0 0 0
def delivered : BitVec 128 := deepHeader 7 false false 0 255 0 0 0

theorem test_deliver_witness :
    ((deepAt reads).moonFrom c0 ((deepAt reads).isFor c0 0xB (delivered.setWidth 256) []) 0 = 0 ∧ reads.rcvEp = 0 ∧ (deepAt reads).offline k0 = false ∧
      (deepAt reads).waits ((deepAt reads).isFor c0 0xB (delivered.setWidth 256) emptySegment) 0 = false ∧ deepHeaderOk 7 delivered = true ∧ deepHeaderOk 7 speculated = true) ∧
    ({ fqBulk := List.replicate 8 { ops := [], fin := .done } } : Core).fabricRoom 1 = false ∧
    (({} : Core).fabricRoom 1 = true ∧ dhSpec speculated = true ∧ dhIndex speculated = 255 ∧
      (let b : RunTile := { stream := 0, sweep := 0, index := 255, need := 1 };
        b.fits (32768 * 0 + dhStream speculated) (dhIndex speculated) none && decide (b.segs.length < b.need)) = true) ∧
    (dhSpec delivered = false ∧ tileRing.valid = true ∧ tileRing.type = 1 ∧ tileRing.free ≠ 0 ∧ draocOk (emptySegment.take 63) = false) ∧
    (draocOk emptySegment = true ∧ segmentOk emptySegment = true ∧ segSeg emptySegment = tileRing.seg ∧ segSeglog emptySegment = tileRing.seglog ∧
      rangeOk emptySegment tileRing.frameStride = true ∧ (unpackWrites emptySegment).2 = false) := by decide +kernel

/-- A part of 64 bytes at the offset, for an operation; at 4,096 it lies in moon die 1. -/
def part (op o : Nat) : BitVec 128 := deepHeader op false false 0 0 o 64 0

/-- Moon die 0 waits as a home for a part at 4,096, and the request has come to moon die 1. -/
def asking (op : Nat) (j : HomeOp) (b : Bytes) : State :=
  let s := (({ deepAt (writes 2 63) with deepErr := [(64, some true)] } : State).setHome 0 (some j)).askPart 0 op 4096 64 b
  { s with waiting := [], mesh := s.waiting.map fun p => { p with port := 7, come := p.flits } }

/-- One mapped cluster in each die, with the areas of its records, and a job. -/
def withAreas (st : JobState) : State :=
  { deepAt reads with boot := { record := BitVec.ofNat 512 (2 ^ 384 + 2 ^ 272) }, job := jobOf st }

/-- A DMA of 64 bytes behind the start of area 0, which lies in moon die `areaDie`. -/
def areaPart : BitVec 128 := part 6 ((withAreas .armed).areaBase 0)
def areaDie : Nat := moonOf ((withAreas .armed).areaBase 0)

theorem test_parts_witness :
    (dhOffset (part 4 4096) = 4096 ∧ dhLength (part 4 4096) = 64 ∧ (List.replicate 64 (7 : Byte)).length = 64 ∧ 4096 + 64 ≤ (deepAt reads).areaBase 0 ∧
      (deepAt reads).holdsPart 1 4096 64 = true ∧ deepHeaderOk 4 (part 4 4096) = true ∧ deepHeaderOk 6 (part 6 4096) = true ∧ (deepAt reads).moonOff 1 = false ∧
      (deepAt reads).home 1 = none ∧
      (deepAt reads).asker (isForComp 1 1 0xA ((part 4 4096).setWidth 256) (List.replicate 64 7)) 4096 = none ∧
      (deepAt reads).waits (isForComp 1 1 0xA ((part 4 4096).setWidth 256) (List.replicate 64 7)) = false) ∧
    (let s := asking 4 (.write 0 0 0 4032 [(0, loneSegment ++ loneSegment, true)] loneSegment) loneSegment;
      let f := isForComp 1 1 0xA ((part 4 4096).setWidth 256) loneSegment;
      s.waits f = false ∧ s.asker f 4096 = some 0 ∧ loneSegment.length ≤ 64 ∧ s.homeWait = []) ∧
    ([JobState.armed, .running, .halting].all fun st => decide ((withAreas st).holdsPart areaDie (dhOffset areaPart) 64 = true) && deepHeaderOk 6 areaPart &&
      decide ((withAreas st).areaBase 0 < dhOffset areaPart + 64) && !(withAreas st).waits (isForComp 1 areaDie 0xA (areaPart.setWidth 256) (List.replicate 64 7))) = true ∧
    (({ deepAt reads with homes := [(1, some (.get 4096 64 none []))] } : State).home 1).isSome = true ∧
    (deepHeaderOk 3 (part 3 4096) = true ∧ deepHeaderOk 5 (part 5 4096) = true ∧ (deepAt reads).waits (isForComp 1 1 0xA ((part 3 4096).setWidth 256) []) = false ∧
      (deepAt reads).homeWait = []) ∧
    (let s := asking 3 (.read 0 0 none 0 0 4032 128 (List.replicate 64 0) []) [];
      let f := isForComp 1 1 0xA ((part 3 4096).setWidth 256) [];
      s.waits f = false ∧ s.asker f 4096 = some 0 ∧ (s.deepBad 4096 64).isSome = true ∧ s.homeWait = []) ∧
    (deepAt reads).holdsPart 0 4096 64 = false := by decide +kernel

/-! ### Telemetry, heat, coolant -/

/-- An entry of kind 3 and the selection of every kind in every interval. -/
def entry3 : BitVec 512 := BitVec.ofNat 512 (3 * 2 ^ 460)
def everyKind : BitVec 128 := 15

def sampled (size : BitVec 5) (sent : Nat := 0) : State :=
  { hosted [(80, { cqEnable := true, cqSize := size, lost := 0xFFFE })] { telem := [(15, everyKind)] } with genhan := { sent := sent } }

/-- The entry of interval 1, while one of interval 0 is on its way. -/
def laterEntry : BitVec 512 := BitVec.ofNat 512 (100000 * 2 ^ 464)
def behindOlder : State :=
  { State.reset with
    time := { sc := 200000 }
    waiting := [{ packet 0xC ⟨0, 0, 0, 0⟩ ⟨0, 0, 0, 0⟩ 0 (leBytes 64 0) with exit := 4 }] }

theorem test_telemetry_witness :
    (behindOlder.waits (isSample laterEntry) = false ∧ behindOlder.genhan.samples = [] ∧
      (behindOlder.arrived (isSample laterEntry)).olderDue (behindOlder.countOf laterEntry) = true) ∧
    (State.reset.linkLive = false ∧ State.reset.waits (isSample entry3) = false ∧
      (State.reset.arrived (isSample entry3)).olderDue (State.reset.countOf entry3) = false) ∧
    ([sampled 4, sampled 0, sampled 4 25000].all fun s => !s.waits (isSample entry3) && s.genhan.samples.isEmpty &&
      !(s.arrived (isSample entry3)).olderDue (s.countOf entry3) && s.linkLive &&
      (List.finRange 16).all (fun i => (s.ring (65 + i.val)).cqEnable == decide (i = 15)) &&
      selects (SMap.get 0 s.host.telem 15) entry3 (s.fullCount (bitsOf entry3.toNat 511 464))) = true ∧
    (0 < ringFree ((sampled 4).ring 80) ∧ (sampled 4).sentNow < telemetryLimit) ∧
    (ringFree ((sampled 0).ring 80) = 0 ∧ telemetryLimit ≤ (sampled 4 25000).sentNow ∧ ((sampled 0).ring 80).lost ≠ 0xFFFF) := by decide +kernel

/-- A hot cluster under a stress test: the test is void (R393). -/
def hotTest : State := { single {} { hotRun := 10, testing := true, stress := true } with domains := [(0, { powered := true })] }

theorem test_hot_test :
    (hotTest.cluster k0).testing = true ∧ (hotTest.cluster k0).stress = true ∧ 10 ≤ (hotTest.cluster k0).hotRun ∧ hotTest.atCheckpoint = none ∧
      hotTest.job.inPlace.contains k0 = false ∧ (∀ j ∈ halfClusters 0, j ≠ k0 → (hotTest.cluster j).testing = false) := by decide +kernel

def heated (st : JobState) (d : Domain := { powered := true }) (p : Power := {}) (g : Genhan := {}) : State :=
  { single {} { hotRun := 10 } with domains := [(0, d)], job := jobOf st, power := p, genhan := g, time := { running := true } }

theorem test_heat_witness :
    ((heated .idle).time.running = true ∧ ((heated .idle).domain (domainOf k0)).powered = true ∧ (domainOf k0).val = 0) ∧
    (((heated .idle).cluster k0).testing = false ∧ ((heated .idle).cluster k0).hotRun = 10 ∧ (heated .idle).eclipseDue k0 = false ∧
      (heated .idle).power.eclipsing = [] ∧ (∀ j ∈ halfClusters 0, ((heated .idle).cluster j).testing = false) ∧ (heated .idle).heatRow 0 = 0) ∧
    ((heated .running).heatRow 0 = 1 ∧ (heated .armed).heatRow 0 = 1 ∧ (heated .halted).heatRow 0 = 2 ∧ (heated .running).eclipseDue k0 = false) ∧
    (let s := heated .idle {} { eclipsing := [(0, 1, true)] } { held := true, wanted := [.halfDie 0] };
      s.mayWriteTables = true ∧ s.partsClear = true ∧ s.power.eclipsing = [(0, 1, true)] ∧ s.genhan.unwanted = [] ∧ s.atCheckpoint = none) ∧
    (((heated .idle { eclipsed := true }).domain (domainOf k0)).eclipsed = true ∧
      ((heated .idle { eclipsed := true }).domain (domainOf k0)).coolRun < tenSeconds) ∧
    (let s := heated .idle { eclipsed := true, coolRun := 100000 } { coolantRun := 100000 } { avoid := [.halfDie 0] };
      tenSeconds ≤ (s.domain (domainOf k0)).coolRun ∧ tenSeconds ≤ s.power.coolantRun ∧ s.genhan.avoid.contains (.halfDie 0) = true) ∧
    (let s := heated .idle {} {} { held := true, unwanted := [.halfDie 0] };
      s.mayWriteTables = true ∧ s.partsClear = true ∧ s.genhan.wanted = [] ∧ s.power.eclipsing = [] ∧ s.atCheckpoint = none) ∧
    (coolantOut 321 480 = true ∧ coolantOut 79 480 = true ∧ coolantOut 256 199 = true ∧ coolantOut 320 200 = false ∧ State.reset.power.coolantStop = false) := by
  decide +kernel

/-! ### Genhan -/

def spared (at_ : Nat) (x : Cluster := {}) (r : Genhan := {}) (j : Job := {}) : State :=
  { State.reset with
    clusters := [(at_, x)], repairMap := [(at_, 1 <<< 30)], genhan := r, job := j
    domains := [(0, { powered := true }), (1, { powered := true })] }

theorem test_heartbeat_witness :
    ((lit (single {} { run := .running })).domain (domainOf k0)).powered = true ∧ ((lit (single {} { run := .running })).cluster k0).diag = false ∧
    (lit (single {} { run := .running })).logical k0 = some 0 ∧ ((lit (single {} { run := .running })).cluster k0).run ≠ .idle ∧
    ((lit (single {} { run := .running })).cluster k0).quiesced = false ∧
    ((spared 0).logical k0 = none ∧ (spared 0).genhan.toRetire = [] ∧ ((spared 0).domain (domainOf k0)).powered = true) ∧
    ({ State.reset with genhan := { reports := [{ entry := 1 }] } } : State).genhan.reports = [{ entry := 1, quiet := false }] ∧
    ({ State.reset with genhan := { reports := [{ entry := 1, quiet := true }] } } : State).genhan.reports = [{ entry := 1, quiet := true }] ∧
    ({ State.reset with job := jobOf .running } : State).jobLive = true := by decide +kernel

/-- A digest layout of these replica entries. -/
def replicas (l : List (BitVec 32)) : State := { State.reset with job := { digReplicas := l } }
def ownReplicas (s : State) : List Nat := (s.job.digReplicas.zipIdx.filter fun e => decide (e.1.extractLsb' 16 12 = s.pkg)).map (·.2)

theorem test_digest_witness :
    (ownReplicas (replicas [0, 255, 0x00010000]) = [0, 1] ∧ [0, 1].find? (fun i => decide ((replicas [0, 255]).replicaRid i = (255 : BitVec 8).toNat)) = some 1 ∧
      (replicas [0, 255]).genhan.digPending = [] ∧ (replicas [0, 255]).waits (isDigest 255 [3]) = false ∧ ([0, 1].any fun j => decide (j < 256) && decide (j ≠ 1)) = true) ∧
    (ownReplicas (replicas [7]) = [0] ∧ [0].find? (fun i => decide ((replicas [7]).replicaRid i = (7 : BitVec 8).toNat)) = some 0 ∧
      (replicas [7]).genhan.digests.length + 16383 < 16384 ∧ (replicas [7]).waits (isDigest 7 []) = false) := by decide +kernel

def drained (area : Bool) (st : JobState := .running) : State :=
  { lit (single {} { run := .stopped }) with job := jobOf st (.checkpoint 9 area), host := { testPolicy := 0 }, time := { state := .acquire, settings := 0 } }

theorem test_checkpoint_witness :
    ([JobState.running, .halting, .faulted].all fun st => let s := drained true st
      decide (s.job.between = .checkpoint 9 true) && s.membersQuiet && !s.job.window &&
      !s.power.drainOwed && s.settled s.job.members && s.job.members.all fun k => (s.logical k).isSome) = true ∧
    ({ drained true with homes := [(0, some (.write 0 0 0 0 [] []))] } : State).settled (drained true).job.members = false ∧
    (drained true).job.relOwnDone = false ∧ (drained true).host.testPolicy = 0 ∧ (drained true).job.nextPhase = none ∧ (drained true).timeOk = false ∧
    (∀ k ∈ (drained true).job.members, ((drained true).cluster k).testing = false ∧ ((drained true).cluster k).quiesced = false) ∧
    (drained true).digestsMatched 9 = true := by decide +kernel

/-- Whatever the digest of the bytes, there is one that differs. -/
theorem test_wrong_digest_witness (n : Nat) (b : Bytes) : ∃ d, shake256 n b ≠ d := ⟨0 :: shake256 n b, by simp⟩

/-- The package with a spare of die 0 whose last pass lies back so many counts, a cluster to be retired, and the tables free to write. -/
def toMove (passed : Option (BitVec 64)) (held : Bool) : State := spared 287 { passed := passed } { toRetire := [k0], held := held }

theorem test_parts_moved_witness :
    ((spared 0).logical k0 = none ∧ (({ fwTries := 1 } : Cluster)).fwTries = 1 ∧ (spared 0).waits ((spared 0).isConfig k0 [1]) = false) ∧
    ((spared 287).physical 0 0 = some k0 ∧ (spared 287).genhan.toRetire.contains k0 = false) ∧
    ([toMove (some 0) false, toMove none false, toMove (some 0) true].all fun s => decide (s.physical 0 0 = some k0) && s.genhan.toRetire.contains k0 && !s.jobLive &&
      decide (s.job.state = .idle) && s.settled s.job.members && decide (s.chosenSpare 0 = some ⟨0, 287⟩) && !(s.cluster ⟨0, 287⟩).quiesced &&
      !s.genhan.toRetire.contains ⟨0, 287⟩) = true ∧
    ((toMove (some 0) false).passedLately ⟨0, 287⟩ = true ∧ (toMove (some 0) false).mayWriteTables = false ∧ (toMove none false).passedLately ⟨0, 287⟩ = false ∧
      (toMove none false).testsOn 0 < 8 ∧ (toMove (some 0) true).mayWriteTables = true) ∧
    (({ meshed (bound 2 8 0 (0, 0)) with genhan := { held := true } } : State).mayWriteTables = false ∧ State.reset.mayWriteTables = false) ∧
    (let s := spared 287 {} { held := true, wanted := [.cluster k0] };
      s.mayWriteTables = true ∧ s.partsClear = true ∧ s.genhan.unwanted = [] ∧ s.atCheckpoint = none) ∧
    (let s := spared 287 {} { held := true };
      s.mayWriteTables = true ∧ s.genhan.wanted = [] ∧ s.genhan.unwanted = [] ∧ s.power.eclipsing = [] ∧ s.atCheckpoint = none ∧
      s.editOk ⟨k0, false, 0, none⟩ = true) := by decide +kernel

theorem test_quiesce_witness :
    ((spared 287).job.members.contains k0 = false ∧ (spared 287).genhan.avoid.contains (.cluster k0) = false ∧ (∀ f ∈ ([] : List TileFail), f.at_ ≠ k0)) ∧
    (spared 287 {} { avoid := [.cluster k0] }).genhan.avoid.contains (.cluster k0) = true ∧
    (let s := spared 287 {} { held := true, unwanted := [.cluster k0] };
      s.mayWriteTables = true ∧ s.partsClear = true ∧ s.genhan.wanted = [] ∧ s.power.eclipsing = [] ∧ s.atCheckpoint = none) ∧
    ((⟨k0, 0, 3, 0⟩ : TileFail).at_ = k0 ∧ (spared 0).logical k0 = none) ∧
    (State.reset.genhan.avoid.contains (.moon 3) = false ∧ State.reset.homesFree = true) := by decide +kernel

theorem test_stress_witness :
    ((toMove (some 0) true).role ⟨0, 287⟩ ≠ rDefective ∧ (toMove (some 0) true).testDue ⟨0, 287⟩ = false ∧ (toMove none true).testDue ⟨0, 287⟩ = true) ∧
    ((spared 287).role ⟨0, 287⟩ ≠ rDefective ∧ ((spared 287).cluster ⟨0, 287⟩).testing = false ∧ (spared 287).testDue ⟨0, 287⟩ = true ∧
      (spared 287).eligible ⟨0, 287⟩ = true ∧ (spared 287).job.members.contains ⟨0, 287⟩ = false ∧ (spared 287).testsOn 0 < 8) ∧
    (let s : State := { State.reset with job := jobOf .running };
      s.role k0 ≠ rDefective ∧ s.testDue k0 = true ∧ s.job.members.contains k0 = true ∧ s.suspect k0 = false ∧ (s.cluster k0).deferred = none ∧
      (s.cluster k0).testing = false) ∧
    ((spared 287 {} { wanted := [.cluster ⟨0, 287⟩] }).genhan.wanted.contains (.cluster ⟨0, 287⟩) = true) ∧
    ([false, true].all fun v => let s := spared 287 { testing := true, stress := true, testVoid := v }
      (s.cluster ⟨0, 287⟩).testing && (s.cluster ⟨0, 287⟩).stress &&
      !s.genhan.wanted.contains (.cluster ⟨0, 287⟩) && decide (s.atCheckpoint = none) && s.genhan.suspectTests.isEmpty && !s.job.inPlace.contains ⟨0, 287⟩ &&
      ((s.cluster ⟨0, 287⟩).testVoid == v) && decide (s.logical ⟨0, 287⟩ = none)) = true ∧
    ((TestRun.mk [] .pass).verdict = .pass ∧ (TestRun.mk [] (.fail 63 3 1)).verdict = .fail 63 3 1) ∧
    ((spared 287 { deferred := some 0 }).cluster ⟨0, 287⟩).deferred = some 0 := by decide +kernel

/-! ### Ports -/

/-- The 336 bytes of a frame: header and the content of slot 0. -/
def inner (h : Nat) (slot : Bytes := []) : Bytes := leBytes 16 h ++ (slot ++ List.replicate 320 0).take 320

/-- A frame with its CRC. -/
def sealed (h : Nat) (slot : Bytes := []) : Bytes := inner h slot ++ leBytes 8 (crc64 (inner h slot)).toNat

theorem leBytes_length (n x : Nat) : (leBytes n x).length = n := by
  induction n generalizing x with
  | zero => rfl
  | succ k ih => simp [leBytes, ih]

theorem leNat_leBytes (n x : Nat) : leNat (leBytes n x) = x % 256 ^ n := by
  induction n generalizing x with
  | zero => simp [leBytes, leNat, Nat.mod_one]
  | succ k ih =>
    have h : (2 : Nat) ^ 8 = 256 := by decide
    simp only [leBytes, leNat, ih, BitVec.toNat_ofNat, h]
    rw [Nat.pow_succ, Nat.mul_comm (256 ^ k) 256, Nat.mod_mul]

theorem inner_length (h : Nat) (slot : Bytes) : (inner h slot).length = 336 := by
  rw [inner, List.length_append, leBytes_length, List.length_take, List.length_append, List.length_replicate]
  omega

/-- The length and the CRC of a sealed frame are right. -/
theorem sealed_good (h : Nat) (slot : Bytes) :
    (sealed h slot).length = 344 ∧ (crc64 ((sealed h slot).take 336)).toNat = numAt (sealed h slot) 336 8 := by
  have ht : (sealed h slot).take 336 = inner h slot := by rw [sealed, List.take_left' (inner_length h slot)]
  have hd : (sealed h slot).drop 336 = leBytes 8 (crc64 (inner h slot)).toNat := by rw [sealed, List.drop_left' (inner_length h slot)]
  refine ⟨by rw [sealed, List.length_append, inner_length, leBytes_length], ?_⟩
  have hl : (leBytes 8 (crc64 (inner h slot)).toNat).take 8 = leBytes 8 (crc64 (inner h slot)).toNat := by
    rw [List.take_of_length_le (Nat.le_of_eq (leBytes_length _ _))]
  rw [ht, numAt, bytesAt, hd, hl, leNat_leBytes]
  exact (Nat.mod_eq_of_lt (BitVec.isLt _)).symm

/-- The kind, the sequence number and the content of slot 0 of a sealed frame that breaks no rule and says no NAK. -/
def reads1 (b : Bytes) (kind seq : Nat) (slots : List (Nat × Bytes)) : Bool :=
  !malformed b && decide (bitsOf (numAt b 0 16) 127 124 = kind) && decide (bitsOf (numAt b 0 16) 123 112 = seq) && !(numAt b 0 16).testBit 98 &&
    decide (slotsOf b = slots)

theorem test_frames_witness :
    ((({ state := .up, rxExp := 4095 } : Port)).carries = true ∧ (({ state := .up, rxExp := 4095 } : Port)).txWait = [] ∧
      (({ state := .up, rxExp := 4095 } : Port)).badFrame [] = false ∧ (({ state := .up, rxExp := 4095 } : Port)).badFrame [(0, 0)] = true ∧
      ((sealed 0).take 343).length ≠ 344) ∧ reads1 (sealed (2 ^ 124 + 4095 * 2 ^ 112)) kData 4095 [] = true ∧
    reads1 (sealed (2 * 2 ^ 124)) kIdle 0 [] = true ∧
    reads1 (sealed (3 * 2 ^ 124 + 2 ^ 93) [5, 255]) kLink 0 [(0, [5, 255] ++ List.replicate 62 0)] = true ∧
    linkMsgOk ([5, 255] ++ List.replicate 62 0) = true := by decide +kernel

theorem test_replays_witness :
    (({ state := .upNarrow, replay := [(0, [])], replays := 6 } : Port)).carries = true ∧ 6 < 7 ∧ (({ state := .up, replay := [(0, [])], replays := 7 } : Port)).carries = true ∧
    (({ state := .up, lock := true, badRun := 8 } : Port)).carries = true ∧ (({ state := .retrain } : Port)).state = .retrain := by decide +kernel

/-- Port 63 may be trained. -/
def trainable (p : Port := {}) : State :=
  { State.reset with boot := { record := BitVec.ofNat 512 (2 ^ 383) }, domains := [(55, { powered := true })], ports := [(63, p)] }

/-- An ID message of flags 0, with the peer's good lanes and least width, for a cascade. -/
def idMsg (good least : Byte) (cascade : Byte := 0) : Bytes :=
  [1] ++ List.replicate 12 0 ++ [good, least, 0, cascade] ++ List.replicate 47 0

/-- A training that passes every step, with the saved settings or by full adaptation, and the peer's ID. -/
def trained (m : Bytes) (saved : Bool := false) : Training :=
  { terminated := 0xFF, seen := some (1, 2), peerSaved := saved, savedOk := saved, savedQualified := if saved then 0xFF else 0
    laneOrderBad := false, eqOk := !saved, qualified := 0xFF, lockOk := true, peerId := some m }

theorem test_training_witness :
    (laneSet { trained [] with terminated := 1, shorted := 1 } = 0 ∧ laneSet (trained []) = 0xFF ∧ (trainable).savedStand 63 (trained []) = false ∧
      ({ trainable with nv := { pairings := [(63, 1, 2)] } } : State).savedStand 63 (trained [] true) = true ∧ (trained [] true).eqOk = false ∧
      ((trainable).port 63).txWait = []) ∧
    ((({ state := .up, lanes := 0xFF } : Port)).otherPeer (trained (idMsg 0xFF 8)) = false ∧ (0xFF : BitVec 8) &&& (trained (idMsg 0xFF 8)).qualified ≠ 0 ∧
      (({ state := .up, peerSerial := 1 } : Port)).otherPeer { trained (idMsg 0xFF 8) with terminated := 0 } = true ∧
      (trained (idMsg 0xFF 8)).lockOk = true ∧ (trained (idMsg 0xFF 8)).qualified ≠ 0) ∧
    ((trainable).portEnabled 63 = true ∧ ((trainable).port 63).carries = false ∧ ((trainable).port 63).state ≠ .retrain) ∧
    ((trainable).idOk 63 (idMsg 0xF0 4) = true ∧ widthOf (0xFF &&& 0xF0) (BitVec.ofNat 8 (numAt (idMsg 0xF0 4) 13 1)) = 4 ∧
      max (bitsOf ((trainable).portEntry 63).toNat 27 24) (numAt (idMsg 0xF0 4) 14 1) = 4 ∧ widthOf 0xFF (BitVec.ofNat 8 (numAt (idMsg 0xFF 8) 13 1)) = 8 ∧
      max (bitsOf ((trainable).portEntry 63).toNat 27 24) (numAt (idMsg 0xFF 8) 14 1) = 8) ∧
    (((trainable { state := .up, lanes := 0xFF }).port 63).carries = true ∧ ((trainable { state := .up, lanes := 0xFF }).port 63).txWait = [] ∧ ((trainable { state := .down }).port 63).state = .down) ∧
    (linkMsgOk (idMsg 0xFF 8) = true ∧ numAt (idMsg 0xFF 8) 0 1 = 1 ∧ ((trainable { state := .training }).port 63).state ≠ .disabled ∧
      ((trainable { state := .up }).port 63).otherId (idMsg 0xFF 8) = false ∧ linkMsgOk (idMsg 0xFF 8 1) = true ∧ numAt (idMsg 0xFF 8 1) 16 4 ≠ (trainable).cascadeId.toNat ∧
      ((trainable { state := .retrain }).port 63).otherId (idMsg 0xFF 8 1) = false) ∧
    (((trainable { state := .up, peerSerial := 1 }).port 63).carries = true ∧ numAt (idMsg 0xFF 8) 2 8 ≠ (1 : BitVec 64).toNat ∧
      numAt (idMsg 0xFF 8) 12 1 ≠ (1 : BitVec 6).toNat) ∧
    (({ lock := true, idAccepted := true } : Port)).peerAccepted = false := by decide +kernel

def crosser (pkg : BitVec 12) (kind : Nat := 2) : Packet := packet kind ⟨0, 0, 0, 0⟩ ⟨pkg, 0, 0, 0⟩ 0
/-- Link die 0 reaches package 4,095 through its port 7, which has these credits, and package 4,094 by way of link die 7. -/
def routed (credits : SMap Nat) : State :=
  { State.reset with croutes := [(4094, 0xF800), (4095, 0x8800)], ports := [(7, { state := .up, txCredits := credits, replay := List.replicate 1023 (0, []) })] }

theorem test_link_die_witness :
    (63 / 8 = (7 : Fin 8).val ∧ (crosser 0).dst.pkg = State.reset.pkg ∧ (crosser 0).pkind = 2 ∧ (State.reset.coreAt (crosser 0).dst).isSome = true ∧
      State.reset.portDelay 63 true = none) ∧
    ([[(creditClass (crossing (crosser 4095) false), 1)], []].all fun cr =>
      let s := routed cr
      !decide ((crosser 4095).dst.pkg = s.pkg) && (crosser 4095).wait.isNone && !s.waits (fun q => decide (q = crosser 4095)) &&
      (s.croute 0 4095).getLsbD 15 && decide (bitsOf (s.croute 0 4095).toNat 14 12 = 0) && decide (s.portsToward (s.croute 0 4095) = [7]) &&
      (s.portDelay 7 false).isNone && (s.port 7).carries && (s.port 7).txWait.isEmpty && !s.dateline 7) = true ∧
    (flitCount (crosser 4095) = 1 ∧ ((routed []).port 7).replay.length + (flitCount (crosser 4095) + 4) / 5 ≤ 1024 ∧
      SMap.get 0 ((routed []).port 7).txCredits (creditClass (crossing (crosser 4095) false)) < 1) ∧
    (((routed []).croute 0 4094).getLsbD 15 = true ∧ bitsOf ((routed []).croute 0 4094).toNat 14 12 = 7 ∧
      (routed []).waits (fun q => decide (q = crosser 4094)) = false) ∧
    (crosser 4095 0xA).pkind = 0xA := by decide +kernel

/-! ### Rings -/

/-- A host-ready package with one ring. -/
def ready (p : Nat) (r : Ring) : State := { hosted [(p, r)] with boot := { hostReady := true } }

theorem test_ring_register_witness :
    ((ready 63 { sqEnable := true, sqSize := 4 }).hears = true ∧ (0x8000000F : BitVec 32).toNat % 65536 < 2 ^ (4 : BitVec 5).toNat ∧
      2 ^ (4 : BitVec 5).toNat ≤ (0x10 : BitVec 32).toNat % 65536) ∧
    (((ready 80 { cqEnable := true, cqSize := 4, cqUsed := 15 }).ring 80).cqEnable = true ∧ (15 + 2 ^ (4 : BitVec 5).toNat - 0) % 2 ^ (4 : BitVec 5).toNat ≤ 15) ∧
    ((0x80000004 : BitVec 32).getLsbD 31 = true ∧ 4 ≤ ((0x80000004 : BitVec 32).extractLsb' 0 5).toNat ∧ ((0x80000010 : BitVec 32).extractLsb' 0 5).toNat ≤ 16 ∧
      ((0x80000003 : BitVec 32).extractLsb' 0 5).toNat < 4 ∧ 16 < ((0x80000011 : BitVec 32).extractLsb' 0 5).toNat ∧ (4 : BitVec 32).getLsbD 31 = false) := by
  decide +kernel

/-! ### Descriptors -/

def descOf (op q1 q2 q3 : Nat) (started : Bool := false) : Desc :=
  { bits := BitVec.ofNat 512 (fields [(op, 0), (7, 16), (q1, 64), (q2, 128), (q3, 192)]), serial := 3, started := started }

/-- Ring 63 with one descriptor in progress, in a package of one stack. -/
def running (d : Desc) (st : JobState := .idle) : State :=
  { hosted [(63, { sqEnable := true, sqSize := 4, sqTail := 1, cqEnable := true, cqSize := 4, inProgress := [d] })] with
    boot := { hostReady := true, record := BitVec.ofNat 512 (2 ^ 384) }
    domains := [(0, { powered := true })], job := jobOf st, time := { sc := 1000 } }

def startsOk (s : State) (op : Nat) (d : Desc) : Bool :=
  decide (s.findDesc 63 7 (fun x => decide (x.op = op) && s.mayStart 63 x) = some d) && decide ((s.ring 63).heldC = []) && s.host.linkUp &&
    decide (0 < ringFree (s.ring 63))

theorem test_fetch_witness :
    (running (descOf 0 0 0 0)).mayFetch 63 = true ∧
    (let d := { descOf 3 0 0 64 true with ended := some (0, 1), cut := true };
      (running d).findDesc 63 7 ((running d).ripe 63) = some d) ∧
    (let d := { descOf 9 0 0 0 true with ended := some (0, 0) };
      (running d).findDesc 63 7 ((running d).ripe 63) = some d ∧ d.op = 9) ∧
    (let d := descOf 0xD 0 0 0;
      (running d).findDesc 63 7 ((running d).ripe 63) = some d ∧ startsOk (running d) 0xD d = true) ∧
    (running (descOf 0 0 0 0)).findDesc 63 7 ((running (descOf 0 0 0 0)).ripe 63) = none := by decide +kernel

theorem test_check_witness :
    startsOk (running (descOf 0 0 0 0)) 0 (descOf 0 0 0 0) = true ∧ (running (descOf 0 0 0 0)).startFault (descOf 0 0 0 0) = none ∧
    startsOk (running (descOf 2 0 0 0)) 2 (descOf 2 0 0 0) = true ∧ (running (descOf 2 0 0 0)).descMalformed (descOf 2 0 0 0) = true ∧
    (running (descOf 2 0 0 0)).findDesc 63 7 (fun x => decide (x.op = 2) && x.started && x.ended.isNone) = none ∧
    (running (descOf 1 0 0 0)).homesFree = true ∧ startsOk (running (descOf 9 0 0 0)) 9 (descOf 9 0 0 0) = true ∧ (running (descOf 9 0 0 0)).descMalformed (descOf 9 0 0 0) = false ∧
    stateAllowed 9 (running (descOf 9 0 0 0)).job.state = false := by decide +kernel

/-- Deep memory on, and what it holds at an offset. -/
def deepOn (s : State) (o : Nat) (b : Bytes) : State :=
  { s with
    deep := SMap.setRun 0 [] o b
    domains := s.domains ++ [(56, { powered := true }), (57, { powered := true }), (58, { powered := true }), (59, { powered := true })] }

/-- A DMA of a run of 64 bytes at an offset, with a segment of it in progress or none. -/
def dmaDesc (op o n : Nat) (out : Bool) (by_ : List (Fin 64 × Nat) := []) : Desc :=
  { descOf op 0 o n true with part := if out then some (o, 64) else none, got := if op = 2 ∧ out then emptySegment else [], abortedBy := by_ }

/-- Its home has the request for the segment: a DMA_WRITE or a DMA_READ. -/
def dmaAsked (s : State) (op o : Nat) (d : Desc) : Bool :=
  let h := part (if op = 2 then 6 else 5) o
  let data := if op = 2 then emptySegment else []
  let f := isForComp 1 (moonOf o) 0xA (h.setWidth 256) data
  decide (dhOffset h = o) && decide (dhLength h = 64) && deepHeaderOk (if op = 2 then 6 else 5) h && decide (data.length = if op = 2 then 64 else 0) &&
    !s.waits f && decide (o + 64 ≤ s.capacity) && decide (s.dmaFor o 64 (s.txnOf f) = some (63, d)) && decide (d ∈ (s.ring 63).inProgress)

theorem test_load_image_witness :
    (({ running (descOf 1 0 0 0) with homes := [(0, some (.write 0 0 0 0 [] []))] } : State).homesFree = false) ∧
    (let s := running (descOf 1 0 0 0);
      s.homesFree = true ∧ startsOk s 1 (descOf 1 0 0 0) = true ∧ s.startFault (descOf 1 0 0 0) = none ∧ s.deepOff = false) ∧
    (({ running (descOf 1 0 0 0) with power := { coolantStop := true } } : State).power.coolantStop = true) := by decide +kernel

theorem test_segments_move_witness :
    ([2, 3].all fun op =>
      let s := deepOn (running (dmaDesc op 0 64 false)) 0 emptySegment
      decide (s.findDesc 63 7 (fun x => decide (x.op = op) && x.started && x.ended.isNone) = some (dmaDesc op 0 64 false)) &&
        (s.dmaRefused (dmaDesc op 0 64 false)).isNone) = true ∧
    (emptySegment.length = segSpace emptySegment ∧ segPlen emptySegment ≤ 4016 ∧ draocOk emptySegment = true ∧ emptySegment.length = 64) ∧
    ([2, 3].all fun op =>
      let d := dmaDesc op 0 64 true
      let s := deepOn (running d) 0 emptySegment
      dmaAsked s op 0 d && dmaAsked (running d) op 0 d && (running d).moonOff 0 && !s.moonOff 0 && !s.areaClosed 0 64 && decide (s.home 0 = none) &&
        decide (d.bytes + 64 = d.q3.toNat)) = true ∧
    (let d := dmaDesc 2 0 128 true [(0, 9)];
      dmaAsked (deepOn (running d) 0 []) 2 0 d = true ∧ d.bytes + d.got.length ≠ d.q3.toNat ∧ d.abortedBy ≠ []) ∧
    (let d := dmaDesc 2 (withAreas .armed).capacity.pred 64 true; let o := (withAreas .armed).areaBase 0;
      let e := dmaDesc 2 o 64 true;
      let s : State := { deepOn (running e .armed) 0 [] with boot := { (withAreas .armed).boot with hostReady := true } };
      d.op = 2 ∧ dmaAsked s 2 o e = true ∧ s.areaClosed o 64 = true) ∧
    (let d := dmaDesc 2 4064 64 true;
      let s := deepOn (running d) 0 [];
      dmaAsked s 2 4064 d = true ∧ anyPart s.moonOff 4064 64 = false ∧ s.home 0 = none ∧ s.areaClosed 4064 64 = false ∧ 4096 - 4064 % 4096 = 32) ∧
    (let s := deepOn (running (dmaDesc 3 0 64 true)) 0 emptySegment;
      s.deepBytes 0 64 = emptySegment ∧ segSpace emptySegment = 64 ∧ s.deepBad 0 64 = none ∧ s.deepBytes 64 0 = []) := by decide +kernel

theorem test_job_descriptor_witness :
    (startsOk (running (descOf 4 101000 0 0) .loaded) 4 (descOf 4 101000 0 0) = true ∧ (running (descOf 4 101000 0 0) .loaded).startFault (descOf 4 101000 0 0) = none ∧
      (running (descOf 4 101000 0 0) .loaded).namesUnmapped = false ∧ (running (descOf 4 101000 0 0) .loaded).timeOk = true ∧
      (running (descOf 4 101000 0 0) .loaded).time.sc.toNat + 100000 = (descOf 4 101000 0 0).q1.toNat ∧
      (descOf 4 100999 0 0).q1.toNat < (running (descOf 4 100999 0 0)).time.sc.toNat + 100000 ∧
      ({ running (descOf 4 0 0 0) .halted with time := { state := .holdover, settings := 0 } } : State).timeOk = false) ∧
    (let s : State := { running (descOf 4 101000 0 0) .halted with job := jobOf .halted (.transfer 5 false) };
      startsOk s 4 (descOf 4 101000 0 0) = true ∧ s.startFault (descOf 4 101000 0 0) = none ∧ s.namesUnmapped = false ∧ s.timeOk = true ∧
      s.job.between = .transfer 5 false) ∧
    (startsOk (running (descOf 7 0 0 0) .armed) 7 (descOf 7 0 0 0) = true ∧ (running (descOf 7 0 0 0) .armed).startFault (descOf 7 0 0 0) = none ∧
      (running (descOf 7 0 0 0) .armed).jobLive = true ∧ (running (descOf 7 0 0 0) .halting).startFault (descOf 7 0 0 0) = none ∧
      (running (descOf 7 0 0 0) .halting).jobLive = false) ∧
    (startsOk (running (descOf 8 0 0 0) .halted) 8 (descOf 8 0 0 0) = true ∧ (running (descOf 8 0 0 0) .halted).startFault (descOf 8 0 0 0) = none ∧
      ((running (descOf 8 0 0 0) .halted).membersQuiet && (running (descOf 8 0 0 0) .halted).settled (running (descOf 8 0 0 0) .halted).job.members) = true ∧
      (let s : State := { running (descOf 8 0 0 0) .halted with homes := [(0, some (.write 0 0 0 0 [] []))] };
        startsOk s 8 (descOf 8 0 0 0) = true ∧ (s.membersQuiet && s.settled s.job.members) = false) ∧
      (running (descOf 8 0 0 0) .halted).deepOff = false ∧ (running (descOf 8 0 0 0) .halted).job.members.any (running (descOf 8 0 0 0) .halted).offline = false) ∧
    (startsOk (running (descOf 9 0 0 0) .faulted) 9 (descOf 9 0 0 0) = true ∧ (running (descOf 9 0 0 0) .faulted).startFault (descOf 9 0 0 0) = none ∧
      (running (descOf 9 0 0 0) .faulted).homesFree = true ∧ (running (descOf 9 0 0 0) .faulted).ckpt.latest = none ∧
      (let s : State := { running (descOf 9 0 0 0) .faulted with ckpt := { latest := some true, image1 := some 0 } };
        startsOk s 9 (descOf 9 0 0 0) = true ∧ s.startFault (descOf 9 0 0 0) = none ∧ s.deepOff = false ∧ s.power.coolantStop = false ∧ s.ckpt.image1 = some s.imageId) ∧
      ([] : List Snapshot).filterMap (fun x => State.reset.physical x.die.val x.logical) = []) := by decide +kernel

/-- RESTORE reads back an area whose records are those of no cluster: nothing can stop it. -/
theorem test_restore_witness (s : State) : (s.clearCounters.restoreAll 1 [] 0).2.2 = none := rfl

/-- A WAIT in progress, whose reply with a status has come to the host interface die. -/
def answered (st : Nat) : State :=
  let s := (running (descOf 6 0 0 1 true)).inject c0
    { packet 4 ⟨0, 0, 0, 0⟩ ⟨0, 31, 511, 0⟩ 0 [5, 0, 0, 0] (BitVec.ofNat 128 (st * 2 ^ 84)) with exit := 3, txn := some 3 }
  { s with
    waiting := [], mesh := s.waiting.map fun p => { p with port := 7, come := p.flits } }

theorem test_request_witness :
    (startsOk (running (descOf 5 0 1 0) .loaded) 5 (descOf 5 0 1 0) = true ∧ (running (descOf 5 0 1 0) .loaded).startFault (descOf 5 0 1 0) = none ∧
      (running (descOf 5 0 1 0) .loaded).coreAt (faCore (descOf 5 0 1 0).q1) = some c0) ∧
    (startsOk (running (descOf 6 0 1 0) .loaded) 6 (descOf 6 0 1 0) = true ∧ (running (descOf 6 0 1 0) .loaded).startFault (descOf 6 0 1 0) = none) ∧
    ([0, 3].all fun st =>
      let s := answered st
      decide (s.findDesc 63 7 (fun x => decide (x.op = 6) && x.started && (s.arriving (isHostReply x.serial)).isSome) = some (descOf 6 0 0 1 true)) &&
        (s.arriving (isHostReply 3)).any fun q => decide (bitsOf q.hdr2.toNat 87 84 = st) && decide (leNat (q.data.take 4) = 5)) = true ∧
    (condHolds ((descOf 6 0 5 0).q2.extractLsb' 32 2) 5 ((descOf 6 0 5 0).q2.extractLsb' 0 32) = true ∧
      condHolds ((descOf 6 0 5 0).q2.extractLsb' 32 2) 6 ((descOf 6 0 5 0).q2.extractLsb' 0 32) = false) ∧
    (running (descOf 6 0 0 1 true)).findDesc 63 7 (fun x => decide (x.op = 6) && x.started && decide (x.q3.toNat ≠ 0) &&
      decide (x.startSc.toNat + 1000 * x.q3.toNat ≤ (running (descOf 6 0 0 1 true)).time.sc.toNat)) = some (descOf 6 0 0 1 true) := by decide +kernel

/-- Two rings: the ABORT of ring 63 names tag 7 of ring 0, which has this descriptor in progress. -/
def aborting (x : Desc) : State :=
  let s := running (descOf 0xC 0x00070000 0 0)
  { s with host := { s.host with rings :=
      [(0, { cqEnable := true, cqSize := 4, inProgress := [x] }), (63, { cqEnable := true, cqSize := 4, inProgress := [{ descOf 0xC 0x00070000 0 0 with serial := 4 }] })] } }

/-- It is found as the target, and the ABORT starts. -/
def aborts (x : Desc) : Bool :=
  let d := { descOf 0xC 0x00070000 0 0 with serial := 4 }
  let s := aborting x
  startsOk s 0xC d && (s.startFault d).isNone && decide (((s.begun 63 d).findDesc 0 7 (fun _ => true)) = some x) && decide (0 < ringFree (s.ring 0))

/-- A TEST of cluster 1 of die 0 in progress, its test over but for the decision. -/
def testing : State :=
  let d := { descOf 0xB 32 0 0 true with batch := [(⟨0, 1⟩, .fail 0 0 1)] }
  { running d with clusters := [(1, { testing := true })] }

theorem test_abort_witness :
    (startsOk (running (descOf 0xA 0 0 0)) 0xA (descOf 0xA 0 0 0) = true ∧ (running (descOf 0xA 0 0 0)).startFault (descOf 0xA 0 0 0) = none) ∧
    (startsOk (running (descOf 0xB 1 0 0)) 0xB (descOf 0xB 1 0 0) = true ∧ (running (descOf 0xB 1 0 0)).startFault (descOf 0xB 1 0 0) = none ∧
      (running (descOf 0xB 1 0 0)).testNamed (descOf 0xB 1 0 0) = none) ∧
    (let s : State := { running (descOf 0xB 16384 0 0) with nv := { defects := allClusters.map clusterKey } };
      startsOk s 0xB (descOf 0xB 16384 0 0) = true ∧ s.startFault (descOf 0xB 16384 0 0) = none ∧ (descOf 0xB 16384 0 0).q1.getLsbD 14 = true) ∧
    (startsOk (running (descOf 0xB 32 0 0)) 0xB (descOf 0xB 32 0 0) = true ∧ (running (descOf 0xB 32 0 0)).startFault (descOf 0xB 32 0 0) = none ∧
      (running (descOf 0xB 32 0 0)).testNamed (descOf 0xB 32 0 0) = some [⟨0, 1⟩] ∧ (running (descOf 0xB 32 0 0)).testsOn 0 < 8) ∧
    (let d := { descOf 0xB 32 0 0 true with batch := [(⟨0, 1⟩, Verdict.fail 0 0 1)] };
      testing.findDesc 63 7 (testing.ripe 63) = some d ∧ d.op = 0xB ∧ d.verdicts = [] ∧ d.ops = [] ∧ (testing.cluster ⟨0, 1⟩).testing = true ∧
      testing.genhan.suspectTests = [] ∧ testing.job.inPlace.contains ⟨0, 1⟩ = false ∧ testing.startFault d = none) ∧
    aborts (descOf 8 0 0 0) = true ∧ (aborts (dmaDesc 2 0 128 false) = true ∧ (dmaDesc 2 0 128 false).part = none) ∧
    (aborts (dmaDesc 3 0 128 true) = true ∧ (dmaDesc 3 0 128 true).part.isSome = true) ∧
    (startsOk (running (descOf 0xC 0x00080000 0 0)) 0xC (descOf 0xC 0x00080000 0 0) = true ∧
      (running (descOf 0xC 0x00080000 0 0)).startFault (descOf 0xC 0x00080000 0 0) = none ∧
      ((running (descOf 0xC 0x00080000 0 0)).begun 63 (descOf 0xC 0x00080000 0 0)).findDesc 0 ((descOf 0xC 0x00080000 0 0).q1.extractLsb' 16 16) (fun _ => true) = none ∧
      ((running (descOf 0xC 0x00080000 0 0)).ring 0).decided = []) := by decide +kernel

/-- With every cluster marked defective none is eligible: a TEST of them all names none. -/
theorem test_none_named_witness (s : State) (d : Desc) (h : d.q1.getLsbD 14 = true) (g : ∀ k, s.nv.defects.contains (clusterKey k) = true) :
    s.testNamed d = some [] := by
  simp only [State.testNamed, h, if_true]
  simp only [Option.some.injEq, List.filter_eq_nil_iff]
  intro a _
  unfold State.eligible
  rw [g a]
  simp

/-! ### A whole image -/

/-- An image of one identity record and one region table that names cluster 0 of die 0, padded to one container. -/
def image : Bytes :=
  leBytes 16 (1 + 112 * 2 ^ 32) ++ (List.replicate 40 0 ++ [1, 1] ++ List.replicate 14 0 ++ [1] ++ List.replicate 39 0) ++
  leBytes 16 (2 + 48 * 2 ^ 32) ++ ([1] ++ List.replicate 31 0) ++ List.replicate 1888 0

/-- A container segment: PLEN 2,048. -/
def bare : Bytes := List.replicate 31 0 ++ [8] ++ List.replicate 32 0 ++ image
def container : Bytes := withCode bare

theorem drop_withCode (b : Bytes) : (withCode b).drop 4 = b.drop 4 := by
  rw [withCode, List.drop_left' (leBytes_length _ _)]

theorem numAt_withCode (b : Bytes) (n : Nat) : numAt (withCode b) 16 n = numAt b 16 n := by
  have h : (withCode b).drop 16 = b.drop 16 := by
    rw [← List.drop_drop (i := 12) (j := 4) (l := withCode b), drop_withCode, List.drop_drop]
  rw [numAt, numAt, bytesAt, bytesAt, h]

theorem withCode_length (b : Bytes) (h : 4 ≤ b.length) : (withCode b).length = b.length := by
  rw [withCode, List.length_append, leBytes_length, List.length_drop]
  omega

/-- A segment with its code passes its check. -/
theorem draocOk_withCode (b : Bytes) (h : segLen b = b.length) (hp : segPlen b ≤ 4016) : draocOk (withCode b) = true := by
  have e1 : segPlen (withCode b) = segPlen b := by rw [segPlen, segPlen, b4, b4, numAt_withCode]
  have e2 : segLen (withCode b) = segLen b := by rw [segLen, segLen, e1]
  have h4 : 4 ≤ b.length := by rw [← h, segLen]; omega
  have hl := withCode_length b h4
  have ht : (withCode b).take b.length = withCode b := List.take_of_length_le (Nat.le_of_eq hl)
  have hc : segCode (withCode b) = (crc32c (List.replicate 4 0 ++ b.drop 4)).toNat := by
    rw [segCode, numAt, bytesAt, List.drop_zero, withCode, List.take_left' (leBytes_length _ _), leNat_leBytes]
    exact Nat.mod_eq_of_lt (BitVec.isLt _)
  simp only [draocOk, e1, e2, h, hl, hc, ht, drop_withCode, hp, Nat.le_refl, decide_true, Bool.and_self]

theorem getRun_setRun (v : Bytes) : SMap.getRun 0 (SMap.setRun 0 [] 0 v) 0 v.length = v := by
  refine List.ext_getElem (by simp [SMap.getRun]) fun i h1 h2 => ?_
  have := SMap.get_setRun_in (0 : Byte) [] 0 v i h2
  simp only [SMap.getRun, List.getElem_map, List.getElem_range]
  rw [this]
  simp [List.getD_eq_getElem?_getD, h2]

/-- A package of sixteen stacks and 270 clusters a die, with the image in deep memory. -/
def loading : State :=
  { running (descOf 1 0 2112 0) with
    boot := { hostReady := true, record := BitVec.ofNat 512 (fields [(0xFFFF, 384), (270, 272)]) }
    deep := SMap.setRun 0 [] 0 container }

theorem bare_fields : segLen bare = bare.length ∧ segPlen bare ≤ 4016 ∧ bare.length = 2112 := by decide +kernel

theorem container_length : container.length = 2112 := by
  rw [container, withCode_length _ (by rw [bare_fields.2.2]; decide), bare_fields.2.2]

theorem container_read (s : State) (h : s.deep = SMap.setRun 0 [] 0 container) (ha : 2112 ≤ s.areaBase 0) : s.deepBytes 0 2112 = container := by
  have := getRun_setRun container
  rw [container_length] at this
  rw [State.deepBytes, if_pos (by omega), State.deepRead, h, this]

theorem container_image : bytesAt container 64 2048 = image := by
  have hb : bare.drop 64 = image := List.drop_left' (by decide +kernel)
  rw [bytesAt, container, ← List.drop_drop (i := 60) (j := 4), drop_withCode, List.drop_drop, hb]
  exact List.take_of_length_le (by decide +kernel)

/-- The state after the one container of the image is read. -/
def afterRead (s : State) : State := (s.deepSoft 0 2112).countBytes 1 0 2112

theorem image_read (s : State) (h : s.deep = SMap.setRun 0 [] 0 container) (ha : 2112 ≤ s.areaBase 0) (he : s.deepErr = []) :
    s.readContainers 0 1 = (afterRead s, .inr image) := by
  have hs : s.deepSoft 0 2112 = s := by
    rw [State.deepSoft, he]
    show ({ s with deepErr := [] } : State) = s
    rw [← he]
  have hm : s.moonRead 0 2112 = (s, .inl container) := by
    have hb : s.deepBad 0 2112 = none := by rw [State.deepBad, he]; rfl
    rw [State.moonRead, hs, hb]
    dsimp only
    rw [container_read s h ha]
  have hc : draocOk container = true := draocOk_withCode bare bare_fields.1 bare_fields.2.1
  simp only [State.readContainers, hm, hc, container_image, List.append_nil, Bool.not_true, Bool.false_eq_true, if_false]
  rw [afterRead, hs]

theorem begun_deep (s : State) (r : Fin 64) (d : Desc) : (s.begun r d).deep = s.deep := rfl
theorem begun_deepErr (s : State) (r : Fin 64) (d : Desc) : (s.begun r d).deepErr = s.deepErr := rfl
theorem loading_deep : loading.deep = SMap.setRun 0 [] 0 container := by unfold loading; dsimp only
theorem loading_deepErr : loading.deepErr = [] := by unfold loading; dsimp only; rfl

/-- LOAD_IMAGE finds a descriptor that may start, a readable area, and an image without a rejected record. -/
theorem test_image_accepted_witness :
    startsOk loading 1 (descOf 1 0 2112 0) = true ∧ loading.startFault (descOf 1 0 2112 0) = none ∧ loading.deepOff = false ∧
    loading.power.coolantStop = false ∧ (descOf 1 0 2112 0).q2.toNat % 2112 = 0 ∧
    (descOf 1 0 2112 0).q1.toNat + (descOf 1 0 2112 0).q2.toNat ≤ (loading.begun 63 (descOf 1 0 2112 0)).areaBase 0 ∧
    (loading.begun 63 (descOf 1 0 2112 0)).readContainers 0 1 = (afterRead (loading.begun 63 (descOf 1 0 2112 0)), .inr image) ∧
    (afterRead (loading.begun 63 (descOf 1 0 2112 0))).verdictOf image = none ∧
    ({ loading with boot := { loading.boot with deepUnavailable := true } } : State).deepOff = true :=
  ⟨by decide +kernel, by decide +kernel, by decide +kernel, by decide +kernel, by decide +kernel, by decide +kernel,
    image_read _ ((begun_deep _ _ _).trans loading_deep) (by decide +kernel) ((begun_deepErr _ _ _).trans loading_deepErr), by decide +kernel, by decide +kernel⟩

/-! ### Interrupts, registers, mailbox -/

def masked (h : HostIf) : State := { hosted [] { h with msix := [(63, 0)] } with domains := [(60, { powered := true })] }

theorem test_interrupts_witness :
    ((masked { modRun := 2 ^ 63 }).host.modRun.getLsbD 63 = true ∧ (masked { modRun := 2 ^ 63 }).host.modWait.getLsbD 63 = false) ∧
    ((masked { modRun := 2 ^ 63, modWait := 2 ^ 63 }).host.modWait.getLsbD 63 = true ∧ ((masked {}).msixEntry 63).getLsbD 96 = false ∧
      (masked {}).host.d3hot = false ∧ (masked {}).host.linkUp = true) ∧
    (masked { d3hot := true, pba := 2 ^ 63, modRun := 2 ^ 63 }).host.modRun.getLsbD 63 = true ∧ (masked { pba := 2 ^ 63 }).host.modRun.getLsbD 63 = false ∧
    ((masked { d3hot := true, pba := 2 ^ 63 }).host.d3hot = true ∧ (masked { d3hot := true, pba := 2 ^ 63 }).host.pba.getLsbD 63 = true ∧
      ((masked {}).msixEntry 62).getLsbD 96 = true) ∧
    ((63, descOf 3 0 0 64 true) ∈ (running (descOf 3 0 0 64 true)).allDescs ∧ (descOf 3 0 0 64 true).isDma = true) ∧
    ((({ masked {} with host := {} } : State).domain 60).powered = true ∧ ({ masked {} with host := {} } : State).host.perst = false ∧
      ({ masked {} with host := {} } : State).host.linkUp = false) := by decide +kernel

def opened (h : HostIf := {}) (b : Boot := { hostReady := true }) : State := { hosted [] h with boot := b }

theorem test_register_write_witness :
    State.reset.bar0Open = false ∧ (opened).bar0Open = true ∧ (opened).boot.hostReady = true ∧ (0x20C2 : BitVec 26).toNat % 4 ≠ 0 ∧
    (0x80000001 : BitVec 64).getLsbD 31 = true ∧ (opened).host.mbox.busy = false ∧ (opened { mbox := { busy := true } }).host.mbox.busy = true ∧
    (opened).host.dbg.loaded = false ∧ 0x400100 ≤ (0x4001FC : BitVec 26).toNat ∧ (0x4001FC : BitVec 26).toNat < 0x400200 ∧
    (opened).hears = true ∧ (1 : BitVec 32).getLsbD 0 = true ∧ (0x80000001 : BitVec 64).extractLsb' 0 8 ≠ 2 ∧ (opened).windowLocked = false ∧
    (0x80000002 : BitVec 64).getLsbD 31 = true ∧ (0x80000002 : BitVec 64).extractLsb' 0 8 = 2 ∧
    (opened { mbox := { busy := true, lastOp := 2 } }).host.mbox.lastOp = 2 := by decide +kernel

/-- A mailbox at work on an opcode, with its two first arguments. -/
def mailing (op : BitVec 8) (a1 : BitVec 64 := 0) (b : Boot := { hostReady := true }) (j : JobState := .idle) : State :=
  { opened { mbox := { busy := true, lastOp := op, latched := [(1, a1)] } } b with job := jobOf j }


theorem test_mailbox_witness :
    ([1, 2, 3, 4, 5, 7].all fun op => (mailing op 0 {}).mboxAt op && !(mailing op 0 {}).boot.hostReady) = true ∧
    ((mailing 1 4608).mboxAt 1 = true ∧ (mailing 1 4608).boot.hostReady = true ∧ (mailing 1 4608).mboxAligned = true ∧ ((mailing 1 4608).mboxArg 1).toNat = 4608) ∧
    ((mailing 2 7936).mboxAt 2 = true ∧ 7936 ≤ ((mailing 2 7936).mboxArg 1).toNat) ∧
    ((mailing 3).mboxAt 3 = true ∧ (mailing 3).mboxAligned = true) ∧ (mailing 4).mboxAt 4 = true ∧ (mailing 6).mboxAt 6 = true ∧ (mailing 7).mboxAt 7 = true ∧
    ((opened { mbox := { busy := true, outcome := some (0, 5) } }).host.mbox.busy = true ∧
      (opened { mbox := { busy := true, outcome := some (0, 5) } }).host.mbox.outcome = some (0, 5)) ∧
    ((mailing 1 4608).boot.slot = false ∧ (mailing 1 4608 { hostReady := true, slot := true }).boot.slot = true ∧ (mailing 1 4608).boot.writing = none) ∧
    ((mailing 9).host.mbox.outcome = none ∧ 8 < (mailing 9).host.mbox.lastOp ∧ (mailing 0).host.mbox.lastOp = 0) ∧
    ((mailing 5 65808).mboxAt 5 = true ∧ ((mailing 5 65808).mboxArg 1).toNat = 65808 ∧ (mailing 5 65808).jobLive = false ∧
      (mailing 5 65808 { hostReady := true } .armed).jobLive = true) := by decide +kernel

/-- A management image of an empty payload, of version 1. -/
def mgmtImage : Bytes :=
  ([0x47, 0x4E, 0x48, 0x4E, 1, 0, 0, 0, 1] ++ List.replicate 23 0) ++ (shake256 64 [] ++ ([1] ++ List.replicate 4511 0))

theorem empty_digest_length : (shake256 64 []).length = 64 := by decide +kernel

theorem mgmtImage_digest : bytesAt mgmtImage 32 64 = shake256 64 [] := by
  rw [bytesAt, mgmtImage, List.drop_left' (by decide), List.take_left' empty_digest_length]

theorem mgmtImage_payload : mgmtImage.drop 4608 = [] :=
  List.drop_eq_nil_of_le (by
    rw [mgmtImage]
    simp only [List.length_append, empty_digest_length, List.length_replicate, List.length_cons, List.length_nil]
    omega)

/-- A management image that passes its checks, and fits the slot. -/
theorem test_image_witness :
    slotPasses 0 (some (imageSlot mgmtImage true true)) = true ∧ 4608 ≤ mgmtImage.length ∧ mgmtImage.length ≤ 4608 + 67108864 := by
  have hl : mgmtImage.length = 4608 := by
    rw [mgmtImage]
    simp only [List.length_append, empty_digest_length, List.length_replicate, List.length_cons, List.length_nil]
  refine ⟨?_, by omega, by omega⟩
  have hp : payloadOk mgmtImage = true := by
    simp only [payloadOk, mgmtImage_payload, mgmtImage_digest, Bool.and_eq_true, decide_eq_true_eq]
    exact ⟨⟨⟨by decide +kernel, by decide⟩, by decide⟩, trivial⟩
  have hc : imageCheck mgmtImage true true = .passed := by
    rw [imageCheck, if_neg (by decide +kernel), if_neg (by decide +kernel), if_neg (by decide +kernel), if_neg (by decide), if_neg (by decide), if_pos hp]
  have hs : ∀ x : ImageSlot, x.check = .passed → slotPasses 0 (some x) = true := by
    intro x hx
    have hz : ¬ x.sv < 0 := by rw [BitVec.lt_def]; exact Nat.not_lt_zero _
    simp only [slotPasses, slotCheck, hx, hz, and_false, if_false, decide_true]
  have hx : (imageSlot mgmtImage true true).check = .passed := by simp only [imageSlot, hc]
  exact hs (imageSlot mgmtImage true true) hx

theorem leNat_zeros (n : Nat) : leNat (List.replicate n 0) = 0 := by
  induction n with
  | zero => rfl
  | succ k ih =>
    have h : leNat (List.replicate k 0#8) = 0 := ih
    simp [List.replicate_succ, leNat, h]

/-- A cascade configuration: package 1, ports of least width 1, no route. -/
def cascadeHead : Bytes := [1, 0] ++ List.replicate 6 0 ++ [1] ++ List.replicate 7 0 ++ (List.range 256).map fun i => if i % 4 = 3 then 1 else 0
def cascade : Bytes := cascadeHead ++ List.replicate 65536 0

theorem cascade_route (l p : Nat) : cfgRoute cascade l p = 0 := by
  have h : numAt cascade (272 + 8192 * l + 2 * p) 2 = 0 := by
    have hl : cascadeHead.length = 272 := by decide +kernel
    rw [numAt, bytesAt, cascade, show 272 + 8192 * l + 2 * p = cascadeHead.length + (8192 * l + 2 * p) by omega, ← List.drop_drop,
      List.drop_left' rfl, List.drop_replicate, List.take_replicate, leNat_zeros]
  rw [cfgRoute, h]
  rfl

theorem test_cascade_witness : State.reset.cascadeOk cascade = true := by
  simp only [State.cascadeOk, Bool.and_eq_true, decide_eq_true_eq]
  refine ⟨⟨⟨⟨⟨⟨⟨⟨⟨⟨?_, ?_⟩, ?_⟩, ?_⟩, ?_⟩, ?_⟩, ?_⟩, ?_⟩, ?_⟩, ?_⟩, ?_⟩
  · rw [cascade, List.length_append, List.length_replicate]
    decide +kernel
  · decide +kernel
  · decide +kernel
  · decide +kernel
  · decide +kernel
  · decide +kernel
  · decide +kernel
  · decide +kernel
  · decide +kernel
  · decide +kernel
  · simp only [cascade_route, List.all_eq_true]
    intros
    decide

/-- A token that grants every permission. -/
def token : Bytes :=
  [0x44, 0x42, 0x47, 0x54, 1] ++ List.replicate 43 0 ++ [31] ++ List.replicate 15 0 ++ [4] ++ List.replicate 4415 0

theorem test_token_witness : (mailing 3).tokenOk token true true = true := by decide +kernel

/-! ### Perturbations and resets -/

/-- A slot whose target word has these fields: control, kind, and the rest. -/
def slotted (control kind rest param left : Nat) (m : List Packet := []) : State :=
  { opened { dbg := { loaded := true, perms := 31, slots := [(15, ⟨BitVec.ofNat 64 (control * 2 ^ 60 + kind * 2 ^ 57 + rest), BitVec.ofNat 32 param, BitVec.ofNat 32 param, left⟩)] } } with
    mesh := m, job := jobOf .running, domains := [(0, { powered := true })] }

def tiled : Packet := packet 0 ⟨0, 0, 0, 0⟩ ⟨0, 0, 0, 0⟩ 0x80 emptySegment

theorem test_perturbation_witness :
    (slotControl ((slotted 3 4 0 2 0).pert 15).target = 3 ∧ slotCluster ((slotted 3 4 0 2 0).pert 15).target = some k0) ∧
    (slotControl ((slotted 4 4 0 500 0).pert 15).target = 4 ∧ slotCluster ((slotted 4 4 0 500 0).pert 15).target = some k0) ∧
    (slotControl ((slotted 2 2 0 1 0).pert 15).target = 2 ∧ slotField ((slotted 2 2 0 1 0).pert 15).target 59 57 = 2 ∧
      (slotted 2 2 0 1 0).slotEndpoint ((slotted 2 2 0 1 0).pert 15).target = some (c0, {})) ∧
    (slotControl ((slotted 5 5 0 1 1 [tiled]).pert 15).target = 5 ∧ (slotted 5 5 0 1 1 [tiled]).targetOn ((slotted 5 5 0 1 1 [tiled]).pert 15).target = true ∧
      (slotted 5 5 0 1 1 [tiled]).jobLive = true ∧ (slotted 5 5 0 1 1 [tiled]).mesh[0]? = some tiled ∧ 0 < ((slotted 5 5 0 1 1 [tiled]).pert 15).left ∧
      (slotted 5 5 0 1 1 [tiled]).segmentOf ((slotted 5 5 0 1 1 [tiled]).pert 15).target tiled = true ∧ tiled.hdr2.getLsbD 0 = false) ∧
    (slotControl ((slotted 2 3 0 1 0).pert 15).target = 2 ∧ slotField ((slotted 2 3 0 1 0).pert 15).target 59 57 = 3 ∧
      (bufferKeys ((slotted 2 3 0 1 0).pert 15).target).length = 2) ∧
    ((slotted 1 0 (2 ^ 26) 10000 0).delayOf 15 (bound 2 8 0 (7, 0)) = some 10000 ∧ (bound 2 8 0 (7, 0)).wait = none ∧
      (slotted 1 0 0 1 0).time.sc < 1) ∧
    (let p := { bound 2 8 0 (0, 0) with port := 3 };
      let s := slotted 1 0 (2 ^ 56 + 3 * 2 ^ 26) 10000 0;
      ({ s with waiting := [p] } : State).waiting[0 - s.mesh.length]? = some p ∧ p.wait = none ∧ p.gone = 0 ∧ (s.onlySlot 15).entryDelay p = some 10000) ∧
    ((slotted 1 0 0 1 0).hears = true ∧ (slotted 1 0 0 1 0).host.dbg.loaded = true) := by decide +kernel

/-- A package whose bring-up has finished a phase, its input in full range. -/
def booted (phase : BitVec 4) (n : NonVolatile := {}) (rec : Nat := 0) : State :=
  { hosted [] { mbox := { busy := true, lastOp := 8 } } with
    boot := { started := true, phase := phase, record := BitVec.ofNat 512 rec }, power := { band := .full }, nv := n }

theorem test_resets_witness :
    (hosted []).host.linkUp = true ∧ (hosted []).host.perst = false ∧ (booted 2).mboxAt 8 = true ∧ (booted 2).canReset = true ∧ (booted 1).canReset = true ∧
    (let d := { descOf 2 0 0 128 true with part := some (0, 64) };
      (63, d) ∈ (running d).allDescs ∧ d.isDma = true ∧ d.ended = none ∧ d.part.isSome = true ∧ (running d).host.linkUp = true) := by
  decide +kernel

/-! ### Power -/

def powered (p : Power) (b : Boot := {}) (j : Job := {}) : State := { State.reset with power := p, boot := b, job := j }

theorem test_surge_witness :
    (720 < 721 ∧ 1000 ≤ 1000 ∧ 100 ≤ 100 ∧ 7200 < 7201 ∧ 1000 < 1001 ∧ 100 < 101) ∧
    ((sampled 4).host.linkUp = true ∧ ((hosted [(64, { cqEnable := true, cqSize := 4 })]).ring 64).cqEnable = true ∧
      0 < ringFree ((hosted [(64, { cqEnable := true, cqSize := 4 })]).ring 64)) ∧
    (powered { switchOpen := true }).power.switchOpen = true ∧
    (State.reset.power.band = .off ∧ State.reset.power.switchOpen = false ∧ State.reset.power.drainOwed = false ∧ State.reset.power.operating = false ∧
      4599 < 4600 ∧ 4600 ≤ 4600 ∧ 7200 ≤ 7200) := by decide +kernel

theorem test_input_witness :
    (powered { band := .full } { hostReady := true }).power.supplied = true ∧ (powered { band := .retention } { hostReady := true }).power.supplied = true ∧
    (powered { band := .full } { hostReady := true }).boot.hostReady = true ∧ (powered { band := .off }).power.supplied = false := by decide +kernel

theorem test_orderly_stop_witness :
    ((powered { band := .reduced } { hostReady := true }).power.operating = true ∧ 4399 < 4400 ∧
      (powered { band := .reduced } { hostReady := true }).holdsState = false ∧
      (powered { band := .full } { hostReady := true } (jobOf .running)).holdsState = true) ∧
    (({ powered { drainOwed := true } with homes := [(0, some (.write 0 0 0 0 [] []))] } : State).settled [] = false ∧
      (powered { band := .retention, orderly := true, drainOwed := true }).settled [] = true ∧ (powered {}).job.members = []) ∧
    ((powered { band := .retention, orderly := true, drainOwed := true }).membersQuiet = true ∧
      (powered { band := .retention, orderly := true, drainOwed := true }).jobLive = false ∧
      (powered { band := .retention, orderly := true, drainOwed := true }).holdsState = false ∧
      (powered { band := .retention, orderly := true, drainOwed := true }).power.operating = false) ∧
    ((47 : Fin 48) ∈ (powered { drainOwed := true, eclipseOwed := [47] }).power.eclipseOwed ∧ (powered {}).power.orderly = false ∧
      (({ powered { drainOwed := true, eclipseOwed := [47] } with domains := [(47, { powered := true })] } : State).domain 47).powered = true ∧
      (powered { drainOwed := true, eclipseOwed := [47] }).power.eclipsing = [] ∧ (powered { drainOwed := true, eclipseOwed := [47] }).membersQuiet = true ∧
      (powered { drainOwed := true, eclipseOwed := [47] }).settled [] = true) ∧
    ((powered { band := .reduced }).power.operating = true ∧ (powered { band := .reduced }).boot.hostReady = false) := by decide +kernel

theorem test_bus_witness :
    ((powered { band := .full }).power.operating = true ∧ min (min (563 * 5400 / 100) (2564 * (powered {}).power.modules.cpop.toNat)) 27000 = 27000 ∧
      4800 ≤ 5400 ∧ 5629 < 5630 ∧ 27000 ≤ 27000 ∧ 27000 < 27001) ∧
    ((powered {}).power.need 27000 28000 = 1 ∧ (powered {}).power.level < 1 ∧ (powered { level := 1 }).power.need 27000 20000 = 0 ∧
      (powered { level := 1 }).power.need 27000 20000 < (powered { level := 1 }).power.level ∧
      100 ≤ (powered { level := 1, sinceChange := 99 }).power.sinceChange + 1 ∧ (powered { level := 1, sinceChange := 98 }).power.sinceChange + 1 < 100) ∧
    ((powered { band := .retention, drainOwed := true }).power.band = .retention ∧ (powered { band := .retention, drainOwed := true }).power.drainOwed = true) ∧
    ((powered {}).power.modules.getLsbD 11 ≠ false ∧ (powered { modules := 0 }).power.modules.getLsbD 11 ≠ true ∧
      (powered {}).power.plim = min 27000 (2564 * (11 + 1)) ∧ (powered { modules := 0x7FF }).power.plim = min 27000 (2564 * (10 + 1))) ∧
    (97 * 27000 * (840 * 1) < 100 * drawSum [(26191, 0)] ∧ 100 * drawSum [(25379, 0)] < 94 * 27000 * (840 * 1) ∧
      100 * drawSum [(26190, 0)] ≤ 97 * 27000 * (840 * 1) ∧ 94 * 27000 * (840 * 1) ≤ 100 * drawSum [(25380, 0)]) := by decide +kernel

theorem test_domain_witness :
    ([0, 47, 48, 55, 56, 59, 60].all fun d : Fin 61 => (({ State.reset with domains := SMap.run {} 0 (List.replicate 61 { powered := true }) } : State).domain d).powered) = true ∧
    (State.reset.domain 60).powered = false ∧ State.reset.homesFree = true := by decide +kernel

/-! ### Bring-up -/

/-- A grade record of the first part of Table 1.5, whose certificate has key usage 2. -/
def goodGrade : Bytes :=
  leBytes 64 gradeFields ++ ([2] ++ List.replicate 4415 0)
where gradeFields : Nat :=
  fields [(0x31445247, 0), (1, 32), (leNat [0x43, 0x57, 0x32, 0x34, 0x2D, 0x41, 0x35, 0x37, 0x36], 128), (0xB1, 256), (0xA, 264),
    (270, 272), (3300, 288), (6, 304), (2 ^ 64 - 1, 320), (0xFFFF, 384), (1, 400), (1, 408)]

def slotOf (v : BitVec 64) : ImageSlot := { check := .passed, version := v, sv := 0, digest := 0 }

theorem test_bring_up_witness :
    ([1, 2, 3, 4, 5, 6, 7, 8, 9, 10, 11].all fun k => (booted (BitVec.ofNat 4 (k - 1))).mayRun k) = true ∧ (booted 0).power.operating = true ∧
    (booted 1 { slotA := some (slotOf 5), slotB := some (slotOf 5) }).nv.startSlot = some (false, slotOf 5) ∧
    (booted 1 { slotA := some (slotOf 5), slotB := some (slotOf 6) }).nv.startSlot = some (true, slotOf 6) ∧ (booted 1).nv.startSlot = none ∧
    gradeAccepted 0 ((booted 2).gradeRecord goodGrade) true true = true ∧ gradeAccepted 0 ((booted 2).gradeRecord []) true true = false ∧
    (∀ k ∈ (booted 6).fwTargets, k ∉ ([] : List ClusterAt)) ∧ (50 : Int).natAbs ≤ 50 ∧ 50 < (-51 : Int).natAbs ∧
    coolantOut 320 200 = false ∧ coolantOut 321 200 = true ∧ (booted 2).power.supplied = true ∧ (booted 3).power.leak = false ∧
    (powered { band := .full, leak := true } { halted := .noCoolant }).boot.halted = .noCoolant ∧
    (powered { band := .full, leak := true } { halted := .noCoolant }).power.leak = true := by decide +kernel

/-- A spare whose copy of the firmware has failed so often. -/
def loadingFw (tries : Nat) : State :=
  { booted 6 with domains := [(0, { powered := true })], repairMap := [(0, 0x40000000)], clusters := [(0, { fwTries := tries })] }

theorem test_firmware_witness :
    ([0, 1].all fun n => (loadingFw n).mayRun 7 && decide (k0 ∈ (loadingFw n).fwTargets) && decide (((loadingFw n).cluster k0).fwTries = n) &&
      decide ((loadingFw n).role k0 = rSpare) && !(loadingFw n).nv.marked (clusterKey k0)) = true ∧
    (let s := { loadingFw 0 with boot := { (loadingFw 0).boot with phase := 7, done := true } };
      s.mayRun 8 = true ∧ s.role k0 ≠ rDefective ∧ (s.domain (domainOf k0)).powered = true) := by decide +kernel

/-- A cluster in a powered domain whose V/F table fails (R388); it is not in use once the map is loaded. -/
def badTable : State :=
  { booted 5 with domains := [(0, { powered := true })], repairMap := [(0, 0x40000000)], nv := { vfBad := [0] } }

theorem test_vf_witness :
    badTable.mayRun 6 = true ∧ clusterKey k0 ∈ badTable.nv.vfBad ∧ badTable.nv.marked (clusterKey k0) = false ∧ (badTable.domain (domainOf k0)).powered = true ∧
      (badTable.failInBoot [k0] k0).role k0 = rDefective := by decide +kernel

/-- A map in which every cluster is a spare; a grade of no mapped cluster takes it. -/
def allSpare : SMap (BitVec 32) := SMap.run 0 0 (List.replicate 6912 0x40000000)

theorem get_replicate (v : BitVec 32) (m n : Nat) (h : n < m) : SMap.get 0 (SMap.run 0 0 (List.replicate m v)) n = v := by
  have := SMap.get_run (0 : BitVec 32) (List.replicate m v) 0 n
  rw [Nat.zero_add] at this
  rw [this, List.getD_replicate _ h]

theorem spare_mapOk (bad : Nat → Bool) (m : SMap (BitVec 32)) (hm : ∀ n, n < 6912 → SMap.get 0 m n = 0x40000000) : mapOk bad 0 m = true := by
  rw [mapOk, List.all_eq_true]
  intro d hd
  have hd := List.mem_range.mp hd
  have hn : (((List.range 288).map fun p => SMap.get 0 m (d * 288 + p)).filter fun e => decide (roleOf e = 0) || decide (roleOf e = 3)) = [] := by
    rw [List.filter_eq_nil_iff]
    intro e he
    obtain ⟨p, hp, rfl⟩ := List.mem_map.mp he
    have hp := List.mem_range.mp hp
    rw [hm _ (by omega)]
    decide
  have hb : ((List.range 288).all fun p => !(decide (roleOf (SMap.get 0 m (d * 288 + p)) = 0) && bad (d * 288 + p))) = true := by
    rw [List.all_eq_true]
    intro p hp
    have hp := List.mem_range.mp hp
    have hr : decide (roleOf (0x40000000 : BitVec 32) = 0) = false := by decide
    rw [hm _ (by omega), hr]
    rfl
  simp only [hn, hb]
  decide

theorem best_first (m : SMap (BitVec 32)) (h : ∀ bad, mapOk bad 0 m = true) :
    ({ repair0 := some ⟨7, true, m⟩ } : NonVolatile).bestCopy 0 = some ⟨7, true, m⟩ := by
  simp only [NonVolatile.bestCopy, Option.filter_some, h, Bool.and_self, if_true]
  rfl

theorem allSpare_get (n : Nat) (h : n < 6912) : SMap.get 0 allSpare n = 0x40000000 := by
  unfold allSpare
  exact get_replicate 0x40000000 6912 n h

theorem test_map_witness : ({ repair0 := some ⟨7, true, allSpare⟩ } : NonVolatile).bestCopy 0 = some ⟨7, true, allSpare⟩ :=
  best_first allSpare fun _ => spare_mapOk _ allSpare allSpare_get

theorem test_no_map_witness : State.reset.nv.bestCopy 0 = none := rfl

/-- Every domain on, and phase 6 next. -/
def mapping (n : NonVolatile) : State := { booted 5 n with domains := SMap.run {} 0 (List.replicate 61 { powered := true }) }

theorem test_repair_witness :
    (mapping {}).mayRun 6 = true ∧ (mapping {}).nv.vfBad = [] ∧ (mapping {}).mappedPerDie = 0 ∧ (∀ d, ((mapping {}).domain d).powered = true) ∧
    roleOf 0xC0000005 = 3 ∧ roleOf 0x40000000 ≠ 3 ∧ (mapping {}).nv.marked 5 = false := by decide +kernel

theorem test_links_witness :
    (({ booted 9 {} (2 ^ 383) with domains := [(55, { powered := true })], ports := [(63, { state := .down })] } : State).portEnabled 63 = true) ∧
    (∀ i : Fin 64, (({ booted 9 {} (2 ^ 383) with domains := [(55, { powered := true })], ports := [(63, { state := .down })] } : State).portEnabled i.val = true →
      (({ booted 9 {} (2 ^ 383) with domains := [(55, { powered := true })], ports := [(63, { state := .down })] } : State).port i.val).settled = true)) := by
  decide +kernel

/-! ### Invariants -/

/-- Limits at the ends of their ranges, a full log, and a byte in deep memory. -/
def bordered : State :=
  { opened { powerLimit := 10, maxDefer := 720, testPolicy := 2 } with genhan := { log := List.replicate 64 1 }, deep := [(5, 1)] }

theorem test_invariant_witness :
    bordered.limitsOk = true ∧ bordered.logOk = true ∧ bordered.deepWf = true ∧ bordered.pending = [] ∧
    (opened { powerLimit := 271 }).limitsOk = false ∧ ({ bordered with deep := [(5, 1), (5, 2)] } : State).deepWf = false := by decide +kernel

theorem test_step_witness : ∃ t, step bordered = .next t := ⟨_, rfl⟩
theorem test_exec_witness : ∃ t, exec .leakRelease bordered = .next t := ⟨_, rfl⟩

/-! ### Check values -/

/-- CRC-32C of the ASCII digits 1 to 9 is the published check value of the polynomial that R274 names. -/
theorem test_crc32c : crc32c [0x31, 0x32, 0x33, 0x34, 0x35, 0x36, 0x37, 0x38, 0x39] = 0xE3069283 := by decide +kernel

end Sys2Proof.Tests
end

/-! PROOFS. What the resets leave: the state before the first bring-up (R13), EVENT_LOST (R14), and FLR, PERST# and package reset (R330, R331, R448).

A function reset disables every ring first, so the events that its later parts raise are dropped: they reach EVENT_LOST and the ring's count of lost
events, and nothing else of the host interface. `State.lasting` is what is left alone in this way; one lemma for each operation of a reset says so. -/

namespace Sys2Proof.Machine

/-! ### What the signals of a reset leave alone -/

/-- The host interface but for its rings, EVENT_LOST, and the nonce and slots of the debug block. -/
def HostIf.lasting (h : HostIf) : HostIf := { h with rings := [], eventLost := false, dbg := { h.dbg with nonce := 0, slots := [] } }

/-- Management flash but for its lines of incidents. -/
def NonVolatile.lasting (n : NonVolatile) : NonVolatile := { n with incidents := [] }

/-- Power, bring-up, deep memory, the flash but for its lines of incidents, and, while the event ring is disabled, the lasting part of the host
interface. -/
def State.lasting (s : State) : Power × Boot × SMap Byte × NonVolatile × Option HostIf :=
  (s.power, s.boot, s.deep, s.nv.lasting, if (s.ring 64).cqEnable then none else some s.host.lasting)

/-- A step that leaves a reading of the state alone does so any number of times. -/
theorem foldl_leaves {α β : Type} (g : State → β) {f : State → α → State} (h : ∀ s a, g (f s a) = g s) (l : List α) (s : State) :
    g (l.foldl f s) = g s := by
  induction l generalizing s with
  | nil => rfl
  | cons a l ih => exact (ih _).trans (h s a)

theorem lasting_foldl {α : Type} {f : State → α → State} (h : ∀ s a, (f s a).lasting = s.lasting) (l : List α) (s : State) :
    (l.foldl f s).lasting = s.lasting := foldl_leaves State.lasting h l s

theorem power_of_lasting {s t : State} (h : t.lasting = s.lasting) : t.power = s.power := congrArg (·.1) h
theorem boot_of_lasting {s t : State} (h : t.lasting = s.lasting) : t.boot = s.boot := congrArg (·.2.1) h
theorem deep_of_lasting {s t : State} (h : t.lasting = s.lasting) : t.deep = s.deep := congrArg (·.2.2.1) h
theorem flash_of_lasting {s t : State} (h : t.lasting = s.lasting) : t.nv.lasting = s.nv.lasting := congrArg (·.2.2.2.1) h

theorem host_of_lasting {s t : State} (h : t.lasting = s.lasting) (hs : (s.ring 64).cqEnable = false) : t.host.lasting = s.host.lasting := by
  have e : (if (t.ring 64).cqEnable then none else some t.host.lasting) = if (s.ring 64).cqEnable then none else some s.host.lasting :=
    congrArg (·.2.2.2.2) h
  rw [hs] at e
  split at e
  · simp at e
  · simpa using e

/-! ### Events -/

theorem lasting_dropEvent (s : State) : s.dropEvent.lasting = s.lasting := by
  have hr : (s.dropEvent.ring 64).cqEnable = (s.ring 64).cqEnable := by
    unfold State.dropEvent
    exact (congrArg Ring.cqEnable (State.ring_putRing_same s 64 _)).trans rfl
  have hh : s.dropEvent.host.lasting = s.host.lasting := rfl
  unfold State.lasting
  rw [hr, hh]
  rfl

/-- While the event ring is enabled nothing is said of the host interface. -/
theorem lasting_of_enabled {s t : State} (hp : t.power = s.power) (hb : t.boot = s.boot) (hd : t.deep = s.deep) (hn : t.nv = s.nv)
    (hs : (s.ring 64).cqEnable = true) (ht : (t.ring 64).cqEnable = true) : t.lasting = s.lasting := by
  unfold State.lasting
  rw [hp, hb, hd, hn, if_pos hs, if_pos ht]

theorem ringAdvance_cqEnable (r : Ring) : (ringAdvance r).cqEnable = r.cqEnable := by
  unfold ringAdvance
  dsimp only
  split
  · rfl
  · rfl

theorem lasting_writeEvent (s : State) (n : Nat) (d : Bytes) : (s.writeEvent n d).lasting = s.lasting := by
  unfold State.writeEvent
  dsimp only
  split
  case isTrue h =>
    have hs : (s.ring 64).cqEnable = true := (Bool.and_eq_true_iff.1 h).1
    refine lasting_of_enabled (State.pend_power _ _ _) (State.pend_boot _ _ _) (State.pend_deep _ _ _) (State.pend_nv _ _ _) hs ?_
    rw [State.ring_pend, State.ring_putRing_same]
    exact (ringAdvance_cqEnable _).trans hs
  case isFalse => exact lasting_dropEvent s

theorem lasting_raiseEvent (s : State) (code : Nat) (src : Option LCore) (d : Bytes) : (s.raiseEvent code src d).lasting = s.lasting := by
  unfold State.raiseEvent
  dsimp only
  split
  · exact lasting_writeEvent _ _ _
  · split
    case isTrue h =>
      have hs : (s.ring 64).cqEnable = true := (Bool.and_eq_true_iff.1 h).1
      exact lasting_of_enabled rfl rfl rfl rfl hs hs
    case isFalse => exact lasting_dropEvent s

theorem lasting_incidentEvent (s : State) (x : Incident) (v : BitVec 8) : (s.incidentEvent x v).lasting = s.lasting :=
  (lasting_raiseEvent _ _ _ _).trans rfl

theorem lasting_incidentsUndecided (s : State) : s.incidentsUndecided.lasting = s.lasting :=
  (lasting_foldl (fun u x => lasting_incidentEvent u x 3) _ _).trans rfl

theorem lasting_quiesceEvent (s : State) (p : Part) (b : Bool) : (s.quiesceEvent p b).lasting = s.lasting := lasting_raiseEvent _ _ _ _

/-! ### Packets, ports and links -/

theorem lasting_of_sendsOnly {s t : State} (h : s.sendsOnly t) : t.lasting = s.lasting := by
  rw [h]
  rfl

theorem lasting_sendFrame (s : State) (i : Nat) (b : Bytes) (nak : Bool) : (s.sendFrame i b nak).lasting = s.lasting := by
  unfold State.sendFrame
  dsimp only
  split
  · rfl
  · rfl

theorem lasting_sendOffline (s : State) (l reason : Nat) : (s.sendOffline l reason).lasting = s.lasting := by
  refine lasting_foldl (fun u j => ?_) _ _
  split
  · exact lasting_sendFrame _ _ _ _
  · rfl

theorem lasting_sendFlits (n : Nat) (s : State) (i : Nat) (l : List OutFlit) : (s.sendFlits n i l).lasting = s.lasting := by
  induction n generalizing s l with
  | zero => rfl
  | succ n ih =>
    unfold State.sendFlits
    split
    · rfl
    · exact (ih _ _).trans (lasting_sendFrame (s.putPort i _) i _ false)

theorem lasting_sendPacket (s : State) (i : Nat) (p : Packet) : (s.sendPacket i p).lasting = s.lasting := by
  unfold State.sendPacket State.flush
  dsimp only
  split
  · exact (lasting_sendFlits _ _ _ _).trans rfl
  · rfl

theorem lasting_genhanSend (s : State) (p : Packet) : (s.genhanSend p).lasting = s.lasting := by
  unfold State.genhanSend
  split
  · split
    · rfl
    · rfl
  · rfl

/-! ### The stop of the job, and its end -/

theorem lasting_injectStop (s : State) : s.injectStop.lasting = s.lasting := by
  have hc : (s.stopCoxes s.job.tag).lasting = s.lasting := lasting_foldl (fun u k => lasting_genhanSend u _) _ _
  exact (lasting_foldl (fun u i => lasting_sendPacket u i _) _ _).trans hc

theorem lasting_addDigest (s : State) (r : BitVec 512) : (s.addDigest r).lasting = s.lasting := by
  unfold State.addDigest
  dsimp only
  split
  · rfl
  · rfl

theorem lasting_addReplica (s : State) (r : BitVec 8) (step sc : BitVec 48) (es : List (BitVec 64)) (f : Nat → Nat) (w : Nat) :
    (s.addReplica r step sc es f w).lasting = s.lasting :=
  (lasting_addDigest _ _).trans (lasting_foldl (fun _ _ => lasting_addDigest _ _) _ _)

theorem lasting_flushDigests (s : State) : s.flushDigests.lasting = s.lasting :=
  (lasting_foldl (fun _ _ => lasting_addReplica _ _ _ _ _ _ _) _ _).trans rfl

theorem lasting_modCluster (s : State) (k : ClusterAt) (f : Cluster → Cluster) : (s.modCluster k f).lasting = s.lasting := rfl

theorem lasting_modCores (s : State) (k : ClusterAt) (f : CoreAt → Core → Core) : (s.modCores k f).lasting = s.lasting :=
  lasting_foldl (f := fun s c => s.modCore c (f c)) (fun _ _ => rfl) _ _

theorem lasting_clearCluster (s : State) (k : ClusterAt) : (s.clearCluster k).lasting = s.lasting :=
  (lasting_modCluster _ _ _).trans (lasting_modCores _ _ _)

theorem lasting_setJob (s : State) (st : JobState) (status reason : Nat) (src : Option LCore) (step : BitVec 48) :
    (s.setJob st status reason src step).lasting = s.lasting := by
  unfold State.setJob
  split
  · rfl
  · refine (lasting_raiseEvent _ _ _ _).trans ?_
    split
    · rfl
    · rfl

theorem lasting_setTrim (s : State) (k : ClusterAt) : (s.setTrim k).lasting = s.lasting := by
  unfold State.setTrim
  dsimp only
  split
  · rfl
  · rfl

theorem lasting_setVoltages (s : State) : s.setVoltages.lasting = s.lasting := by
  refine (lasting_foldl lasting_setTrim _ _).trans (lasting_foldl (fun t d => ?_) _ s)
  split
  · rfl
  · rfl

theorem lasting_discardJob (s : State) (status reason : Nat) : (s.discardJob status reason).lasting = s.lasting := by
  unfold State.discardJob
  extract_lets t u
  have ht : t.lasting = s.lasting := lasting_foldl lasting_clearCluster _ _
  have hu : u.lasting = t.lasting := lasting_setJob _ _ _ _ _ _
  exact (lasting_setVoltages _).trans (hu.trans ht)

theorem lasting_jobRegsReset (s : State) : s.jobRegsReset.lasting = s.lasting := rfl

theorem lasting_resetJob (s : State) : s.resetJob.lasting = s.lasting := by
  unfold State.resetJob
  extract_lets live t u
  have ht : t.lasting = s.lasting := by
    simp only [t]
    split
    · exact (lasting_flushDigests _).trans (lasting_injectStop s)
    · rfl
  have hu : u.lasting = t.lasting := (lasting_incidentsUndecided _).trans rfl
  exact (lasting_jobRegsReset _).trans ((lasting_discardJob u 0 5).trans (hu.trans ht))

/-! ### Replies and the debug block -/

theorem lasting_freeFlits (s : State) (p : Packet) (n : Nat) : (s.freeFlits p n).lasting = s.lasting := by
  unfold State.freeFlits
  split
  · rfl
  · rfl

theorem lasting_lose (s : State) (id : Nat) : (s.lose id).lasting = s.lasting :=
  lasting_foldl (f := fun s q => s.freeFlits q q.here) (fun u q => lasting_freeFlits u q q.here) (s.mesh.filter fun q => decide (q.id = id)) s

theorem lasting_dropReplies (s : State) : s.dropReplies.lasting = s.lasting := lasting_foldl lasting_lose _ _

theorem lasting_newNonce (s : State) : s.newNonce.lasting = s.lasting := rfl

theorem lasting_putPert (s : State) (n : Nat) (x : Slot) : (s.putPert n x).lasting = s.lasting := rfl

/-- A slot that clears changes, of the host interface, that slot only. -/
theorem clearSlot_frame (s : State) (n : Nat) : ∃ t : State, s.clearSlot n = t.putPert n {} ∧ t.lasting = s.lasting ∧ t.host = s.host := by
  unfold State.clearSlot
  dsimp only
  refine ⟨_, rfl, ?_⟩
  (repeat' split) <;> exact ⟨rfl, rfl⟩

theorem lasting_clearSlot (s : State) (n : Nat) : (s.clearSlot n).lasting = s.lasting := by
  obtain ⟨t, ht, hl, -⟩ := clearSlot_frame s n
  rw [ht, lasting_putPert, hl]

theorem lasting_clearSlots (s : State) : s.clearSlots.lasting = s.lasting := lasting_foldl lasting_clearSlot _ _

/-- The slots of the debug block are none of what the reset of the host interface keeps. -/
theorem afterReset_clearSlots (s : State) : s.clearSlots.host.afterReset = s.host.afterReset := by
  refine foldl_leaves (fun u => u.host.afterReset) (fun u n => ?_) _ _
  obtain ⟨t, ht, -, hh⟩ := clearSlot_frame u n
  rw [ht, ← hh]
  rfl

/-! ### The fabric side -/

theorem lasting_recorded (s : State) (c : CoreAt) (ep : Nat) (ack : Option (BitVec 128)) : (s.recorded c ep ack).lasting = s.lasting := by
  unfold State.recorded
  dsimp only
  split
  · exact (lasting_of_sendsOnly (sendsOnly_ackRecord _ _ _ _)).trans rfl
  · rfl

theorem lasting_refuseJob (s : State) (c : CoreAt) (j : FabricJob) : (s.refuseJob c j).lasting = s.lasting := by
  have answered (t : State) (p : Packet) (txn : Option Nat) : (t.answer c p txn).lasting = t.lasting := lasting_of_sendsOnly (sendsOnly_answer t c p txn)
  unfold State.refuseJob
  split
  · exact lasting_recorded _ _ _ _
  · split
    · exact (answered _ _ _).trans rfl
    · exact answered _ _ _
  · exact answered _ _ _
  · exact lasting_of_sendsOnly (sendsOnly_ackRecord _ _ _ _)
  · rfl

theorem lasting_flushPart (s : State) (p : Part) : (s.flushPart p).lasting = s.lasting :=
  lasting_foldl (f := State.flushCore) (fun _ c => (lasting_foldl (fun u j => lasting_refuseJob u c j) _ _).trans rfl) _ _

/-! ### FLR and PERST# (R330, R331) -/

theorem setVoltages_job (s : State) : s.setVoltages.job = s.job := by
  have trim (u : State) (k : ClusterAt) : (u.setTrim k).job = u.job := by
    unfold State.setTrim
    dsimp only
    split
    · rfl
    · rfl
  refine (foldl_leaves State.job trim _ _).trans (foldl_leaves State.job (fun t d => ?_) _ s)
  split
  · rfl
  · rfl

theorem discardJob_job (s : State) (status reason : Nat) : ∃ tag, (s.discardJob status reason).job = { tag := tag } := by
  unfold State.discardJob
  extract_lets t u
  exact ⟨u.job.tag, setVoltages_job _⟩

/-- A reset leaves no job, no job fault log and no NUM_STATUS_OR. -/
theorem resetJob_job (s : State) : s.resetJob.job = {} ∧ s.resetJob.genhan.log = [] ∧ s.resetJob.genhan.numOr = 0 := by
  unfold State.resetJob
  extract_lets live t u
  obtain ⟨tag, h⟩ := discardJob_job u 0 5
  refine ⟨?_, rfl, rfl⟩
  unfold State.jobRegsReset
  dsimp only
  rw [h]

/-- The reset of the host interface disables the event ring. -/
theorem lasting_afterReset {s t : State} (h : t.lasting = s.lasting) (hh : t.host.afterReset = s.host.afterReset) :
    (t.modHost HostIf.afterReset).lasting = (s.modHost HostIf.afterReset).lasting := by
  change (t.power, t.boot, t.deep, t.nv.lasting, some t.host.afterReset.lasting) = _
  rw [power_of_lasting h, boot_of_lasting h, deep_of_lasting h, flash_of_lasting h, hh]
  rfl

/-- A function reset: behind the reset of the host interface nothing reaches its lasting part; the job goes once the host is ready. -/
theorem functionReset_eq (s : State) : ∃ t : State, s.functionReset = (if s.boot.hostReady then t.resetJob else t).modHost HostIf.noLoss ∧
    t.lasting = (s.modHost HostIf.afterReset).lasting := by
  unfold State.functionReset
  extract_lets had t1 t2 t3
  have h1 : t1.lasting = (s.modHost HostIf.afterReset).lasting := by
    simp only [t1]
    split
    · exact lasting_afterReset (lasting_clearSlots s) (afterReset_clearSlots s)
    · rfl
  have h2 : t2.lasting = t1.lasting := by
    simp only [t2]
    split
    · exact lasting_newNonce _
    · rfl
  have h3 : t3.lasting = (s.modHost HostIf.afterReset).lasting := (lasting_dropReplies _).trans (h2.trans h1)
  exact ⟨t3, by rw [boot_of_lasting h3]; rfl, h3⟩

theorem functionReset_lasting (s : State) : s.functionReset.host.lasting = s.host.afterReset.lasting ∧ s.functionReset.deep = s.deep := by
  obtain ⟨t, ht, hl⟩ := functionReset_eq s
  have hu : (if s.boot.hostReady then t.resetJob else t).lasting = (s.modHost HostIf.afterReset).lasting := by
    split
    · exact (lasting_resetJob t).trans hl
    · exact hl
  have hd := deep_of_lasting hu
  rw [ht]
  exact ⟨host_of_lasting hu rfl, hd⟩

theorem functionReset_job (s : State) (h : s.boot.hostReady = true) :
    s.functionReset.job = {} ∧ s.functionReset.genhan.log = [] ∧ s.functionReset.genhan.numOr = 0 := by
  obtain ⟨t, ht, -⟩ := functionReset_eq s
  rw [ht, if_pos h]
  exact resetJob_job t

/-- Of a DMA, the segment that is begun stays to be completed (R330). -/
theorem mem_abandoned_afterReset (s : State) (p : Nat) (d : Desc) (hd : (p, d) ∈ s.allDescs) (hdma : d.isDma = true) (hend : d.ended = none)
    (hpart : d.part.isSome = true) : d ∈ s.host.afterReset.abandoned := by
  obtain ⟨r, hr, hin⟩ := List.mem_flatMap.1 hd
  have hprog : d ∈ r.2.inProgress := by
    split at hin
    · obtain ⟨x, hx, e⟩ := List.mem_map.1 hin
      rwa [← (Prod.mk.inj e).2]
    · simp at hin
  refine List.mem_append_right _ (List.mem_flatMap.2 ⟨r, hr, List.mem_filter.2 ⟨hprog, ?_⟩⟩)
  simp [hdma, hend, hpart]

/-- What FLR and PERST# leave (Table 11.14). -/
structure FunctionReset (s t : State) : Prop where
  rings : ∀ p, (t.ring p).sqEnable = false ∧ (t.ring p).cqEnable = false ∧ (t.ring p).inProgress = [] ∧ (t.ring p).heldC = []
  vectors : ∀ v, t.msixEntry v = msixReset
  pba : t.host.pba = 0
  window : t.host.hwEnable = false
  limit : t.host.powerLimit = 270
  token : t.host.dbg.loaded = false
  mailbox : t.host.mbox.seq = s.host.mbox.seq
  eventLost : t.host.eventLost = false
  segments : ∀ p d, (p, d) ∈ s.allDescs → d.isDma = true → d.ended = none → d.part.isSome = true → d ∈ t.host.abandoned
  job : s.boot.hostReady = true → t.job = {} ∧ t.genhan.log = [] ∧ t.genhan.numOr = 0
  deep : t.deep = s.deep
  link : t.host.linkUp = s.host.linkUp

theorem functionReset_spec (s : State) : FunctionReset s s.functionReset := by
  obtain ⟨h, hd⟩ := functionReset_lasting s
  have hm : s.functionReset.host.msix = [] := congrArg HostIf.msix h
  have ha : s.functionReset.host.abandoned = s.host.afterReset.abandoned := (congrArg HostIf.abandoned h :)
  have hl : s.functionReset.host.linkUp = s.host.linkUp := (congrArg HostIf.linkUp h :)
  exact {
    rings := fun _ => ⟨rfl, rfl, rfl, rfl⟩
    vectors := fun v => by rw [State.msixEntry, hm]; rfl
    pba := congrArg HostIf.pba h
    window := congrArg HostIf.hwEnable h
    limit := congrArg HostIf.powerLimit h
    token := congrArg (fun x => x.dbg.loaded) h
    mailbox := congrArg (fun x => x.mbox.seq) h
    eventLost := rfl
    segments := fun p d h1 h2 h3 h4 => ha ▸ mem_abandoned_afterReset s p d h1 h2 h3 h4
    job := functionReset_job s
    deep := hd
    link := hl }

theorem exec_flr (s : State) (h : s.host.linkUp = true) : exec .flr s = .next s.functionReset := congrArg Host.Outcome.next (if_pos h)

theorem exec_perst (s : State) (h : s.host.perst = false) :
    exec (.perst true) s = .next (s.modHost fun h => { h with perst := true, linkUp := false }).functionReset :=
  if_neg (by rw [h]; exact Bool.false_ne_true)

/-! ### Package reset (R448) -/

/-- A package reset is a bring-up from phase 2 on, of a state that has the power and the flash of the one before. -/
theorem packageReset_eq (s : State) : ∃ t : State, s.packageReset = t.startBringUp 2 false ∧ t.lasting = s.lasting := by
  unfold State.packageReset
  extract_lets t1 t2 t3
  have h1 : t1.lasting = s.lasting := lasting_foldl (fun u l => lasting_sendOffline u l 2) _ _
  have h2 : t2.lasting = t1.lasting := (lasting_flushPart _ _).trans (lasting_quiesceEvent _ _ _)
  have h3 : t3.lasting = t2.lasting := (lasting_incidentsUndecided _).trans (lasting_clearSlots _)
  exact ⟨t3, rfl, h3.trans (h2.trans h1)⟩

theorem exec_packageReset (s : State) (hm : s.mboxAt 8 = true) (hc : s.canReset = true) : exec .packageReset s = .next s.packageReset :=
  congrArg Host.Outcome.next (if_pos (by rw [hm, hc]; rfl))

theorem exec_pkgResetPin_long (s : State) (held : Nat) (hh : 10000 ≤ held) (hc : s.canReset = true) :
    exec (.pkgResetPin held) s = .next s.packageReset := by
  have hlong : ¬ held < 1000 := by omega
  change execPkgResetPin held s = _
  unfold execPkgResetPin
  rw [if_neg (by simp [hc, hlong]), if_pos hh]

theorem exec_pkgResetPin_short (s : State) (held : Nat) (hh : held < 1000) : exec (.pkgResetPin held) s = .next s :=
  if_pos (by simp [hh])

/-! ### The obligations -/

/-- Settles O46: both function resets by `functionReset_spec`, the package resets by `packageReset_eq`. -/
theorem resetsReachTheirStates : Obligations.ResetsReachTheirStates := by
  intro s i held
  refine ⟨?_, rfl, ?_, exec_pkgResetPin_short s held⟩
  · rintro (⟨rfl, hl⟩ | ⟨rfl, hp⟩)
    · have f := functionReset_spec s
      exact ⟨_, exec_flr s hl, f.rings, f.vectors, f.pba, f.window, f.limit, f.token, f.mailbox, f.eventLost, f.segments, f.job, f.deep, f.link⟩
    · have f := functionReset_spec (s.modHost fun h => { h with perst := true, linkUp := false })
      exact ⟨_, exec_perst s hp, f.rings, f.vectors, f.pba, f.window, f.limit, f.token, f.mailbox, f.eventLost, f.segments, f.job, f.deep, f.link⟩
  · intro h
    have he : exec i s = .next s.packageReset := by
      rcases h with ⟨rfl, hm, hc⟩ | ⟨rfl, hh, hc⟩
      · exact exec_packageReset s hm hc
      · exact exec_pkgResetPin_long s held hh hc
    obtain ⟨t, ht, hl⟩ := packageReset_eq s
    have hn := flash_of_lasting hl
    have hw : t.nv.waitMask = s.nv.waitMask := (congrArg NonVolatile.waitMask hn :)
    have ha : t.nv.slotA = s.nv.slotA := (congrArg NonVolatile.slotA hn :)
    have hb : t.nv.slotB = s.nv.slotB := (congrArg NonVolatile.slotB hn :)
    have hv : t.nv.minSv = s.nv.minSv := (congrArg NonVolatile.minSv hn :)
    have hp : t.power.band = s.power.band := congrArg Power.band (power_of_lasting hl)
    rw [ht] at he
    rw [← hw, ← ha, ← hb, ← hv, ← hp]
    exact ⟨_, he, rfl, rfl, rfl, rfl, rfl, rfl, rfl, fun _ => rfl⟩

/-- Settles O42: what the device sets is set after what the host clears (R14). -/
theorem eventLostEndsSet : Obligations.EventLostEndsSet := by
  intro v s hh hv
  have ht : (if s.hears then s.clearEventLost v else s) = s.modHost fun h => { h with eventLost := false } := by
    rw [if_pos hh, State.clearEventLost, if_pos hv]
  change execEventLostClear v true s = _ ∧ execEventLostClear v false s = _
  unfold execEventLostClear
  rw [ht]
  exact ⟨rfl, rfl⟩

/-- Settles O55: the reset state is written out, and every file of like things in it is empty. -/
theorem resetState : Obligations.ResetState :=
  ⟨rfl, rfl, rfl, rfl, rfl, rfl, rfl, rfl, rfl, rfl, rfl, fun _ => ⟨rfl, rfl⟩, fun _ => rfl, fun _ => rfl, fun _ => rfl⟩

end Sys2Proof.Machine

/-! PROOFS. A move to the last spare of a die writes the repair map more than once, so that REPAIR_SEQ, modulo 2^64, may fall (R344, R364, R367). -/

namespace Sys2Proof.Machine

/-- The move of a retired cluster whose spare is fit, with the tables free to write. -/
theorem exec_clusterMove_eq_moveCluster {s : State} {k : ClusterAt} {logical : BitVec 9} {spare : Fin 288}
    (hk : s.physical k.die.val logical = some k) (hr : s.genhan.toRetire.contains k = true) (hl : s.jobLive = false) (hh : s.job.state ≠ .halting)
    (hs : s.settled s.job.members = true) (hc : s.chosenSpare k.die = some ⟨k.die, spare⟩) (hq : (s.cluster ⟨k.die, spare⟩).quiesced = false)
    (hp : s.passedLately ⟨k.die, spare⟩ = true) (hw : s.mayWriteTables = true) :
    exec (.clusterMove k.die logical spare false) s = .next (s.moveCluster k ⟨k.die, spare⟩ logical false none).release := by
  change execClusterMove k.die logical spare false s = _
  have hm : k ∈ s.genhan.toRetire := List.contains_iff_mem.1 hr
  simp [execClusterMove, State.recover, hk, hm, hl, hh, hs, hc, hq, hp, hw]

/-- Clusters 0 and 2 of die 0, with their logical numbers 0 and 1, are to be retired, cluster 1 is its one spare and fit, the tables are
free to write, and the map in force carries the last sequence number but one. -/
def lastSpare : State :=
  { State.reset with
    clusters := [(1, { passed := some 0 })], repairMap := [(1, mapEntry rSpare 0), (2, mapEntry rMapped 1)]
    repairSeq := BitVec.ofNat 64 (2 ^ 64 - 2)
    genhan := { toRetire := [⟨0, 0⟩, ⟨0, 2⟩], held := true }
    domains := [(0, { powered := true })] }

/-- Cluster 0 of die 0. -/
def retiring : ClusterAt := ⟨0, 0⟩

/-- What a move of cluster 0 asks of the state. -/
theorem lastSpare_recovers :
    lastSpare.physical retiring.die.val 0 = some retiring ∧ lastSpare.genhan.toRetire.contains retiring = true ∧ lastSpare.jobLive = false ∧
    lastSpare.job.state = .idle ∧ lastSpare.settled lastSpare.job.members = true ∧ lastSpare.chosenSpare retiring.die = some ⟨retiring.die, 1⟩ ∧
    (lastSpare.cluster ⟨retiring.die, 1⟩).quiesced = false ∧ lastSpare.passedLately ⟨retiring.die, 1⟩ = true ∧ lastSpare.mayWriteTables = true ∧
    lastSpare.genhan.toRetire.contains ⟨retiring.die, 1⟩ = false := by decide +kernel

/-- The move writes the map once; it takes the last spare, so cluster 2 loses its number and the map is written again: the number wraps to 0. -/
theorem lastSpare_move_wraps :
    lastSpare.repairSeq + 1 = BitVec.allOnes 64 ∧ (lastSpare.moveCluster retiring ⟨retiring.die, 1⟩ 0 false none).release.repairSeq = 0 := by
  decide +kernel

/-- Refutes O28: of a move it says that REPAIR_SEQ ends no lower than one above its old value. The number has 64 bits, and a move that takes the last
spare of a die while another cluster there waits for one writes the map twice: from 2^64 − 2 the number comes to 0. -/
theorem not_partsAreConfiguredMovedAndQuiesced : ¬ Obligations.PartsAreConfiguredMovedAndQuiesced := by
  rintro ⟨-, hmoves, -⟩
  obtain ⟨-, hretired, -⟩ := hmoves lastSpare
  obtain ⟨hk, hr, hl, hi, hs, hc, hq, hp, hw, hn⟩ := lastSpare_recovers
  have hh : lastSpare.job.state ≠ .halting := by rw [hi]; decide
  obtain ⟨-, -, hmoved⟩ := hretired 0 1 retiring hk hr hl hh hs hc hq
  obtain ⟨t, ht, -, -, -, hseq⟩ := hmoved hp hw hn hi
  have hrun := exec_clusterMove_eq_moveCluster hk hr hl hh hs hc hq hp hw
  have hzero : t.repairSeq = 0 :=
    (congrArg State.repairSeq (Host.Outcome.next.inj (ht.symm.trans hrun))).trans lastSpare_move_wraps.2
  rw [hzero, lastSpare_move_wraps.1] at hseq
  exact absurd hseq (by decide)

end Sys2Proof.Machine

/-! PROOFS. The unit operations of an issue word: tensor engine, vector engine, address generators (R77 to R91, Table 3.6). -/

namespace Sys2Proof.Machine

/-! ### A unit operation of a word -/

/-- A unit operation that the word names and that is still waiting is performed, in the cycle that the accepted words belong to (R113). -/
theorem unitOp_eq {s : State} {c : CoreAt} {f : Todo → Bool} {op : Word → Bool} (act : State → Core → Word → Nat → Core)
    (hr : (s.accept (clusterOf c)).ready c f = true) (ho : op ((s.accept (clusterOf c)).core c).word = true) :
    s.unitOp c f op act = (s.accept (clusterOf c)).putCore c
      (act (s.accept (clusterOf c)) ((s.accept (clusterOf c)).core c) ((s.accept (clusterOf c)).core c).word ((s.accept (clusterOf c)).now c)) :=
  if_pos (by rw [hr, ho]; rfl)

/-! ### Tensor engine -/

/-- A TE operation that the word names is performed; `y` is the core after it. -/
theorem teUnit_eq {s : State} {c : CoreAt} {op : Nat} {y : Core} (act : Core → Word → Nat → Core)
    (hr : (s.accept (clusterOf c)).ready c (·.te) = true) (ho : teOp ((s.accept (clusterOf c)).core c).word = op)
    (hy : (act ((s.accept (clusterOf c)).core c) ((s.accept (clusterOf c)).core c).word ((s.accept (clusterOf c)).now c)).teDone = y) :
    s.teUnit c op act = (s.accept (clusterOf c)).putCore c y :=
  hy ▸ unitOp_eq (fun _ x w t => (act x w t).teDone) hr (decide_eq_true ho)

/-- The results of an MMA go behind every earlier accumulator operation; a sparse BF16 one reads its operands a second time (R79, R82). -/
theorem mma_pipe {x : Core} {w : Word} {an : Anchor} {p : PairKind} (t : Nat) (ha : anchorOf (x.ax' (teAx w)) = some an)
    (hp : pairKind an.fa an.fb = some p) :
    (x.mma w t).pipe = x.pipe ++ ⟨x.eaDue (t + mmaLatency p (teSpa w || teSpb w)) 10, x.slot,
            .eaMma (teOvw w) an.e (mmaTerms x.latches x.sparseCtrl w p an)⟩ ::
          (if (teSpa w || teSpb w) && p == .bf16 then [⟨t + 1, x.slot, .mmaUpper w x.latchA x.latchB x.metadata⟩] else []) := by
  simp only [Core.mma, ha, hp]
  split
  · cases teOvw w
    · exact List.append_assoc _ _ _
    · exact List.append_assoc _ _ _
  · cases teOvw w
    · rfl
    · rfl

/-- What an MMA leaves in the core: an overwriting one opens the accumulation anew (R35, R40). -/
theorem mma_frame {x : Core} {w : Word} {an : Anchor} {p : PairKind} (t : Nat) (ha : anchorOf (x.ax' (teAx w)) = some an)
    (hp : pairKind an.fa an.fb = some p) :
    x.mma w t = { x with
      pipe := (x.mma w t).pipe, teMx := (x.mma w t).teMx, teOpen := (x.mma w t).teOpen
      teK := (if teOvw w then 0 else x.teK) + BitVec.ofNat 5 (kcOf p (teSpa w || teSpb w))
      teIss := if teOvw w then some an.e else x.teIss, lastMma := some (t, mmaInterval p) } := by
  simp only [Core.mma, ha, hp]
  cases teOvw w
  · split
    · rfl
    · rfl
  · split
    · rfl
    · rfl

theorem cvt_teDone {x : Core} {w : Word} {f : Fmt} (t : Nat) (hf : fmtOf (teArg w) = some f) :
    (x.cvt w t).teDone = { x with
      teOpen := false, todo := { x.todo with te := false }
      pipe := x.pipe ++ [⟨x.hold (t + 3) [(9, 0)], x.slot, .teOut 0 (x.cvtTile f).1 (x.cvtTile f).2⟩] } := by
  rw [Core.cvt, hf]
  rfl

theorem eaStore_teDone (x : Core) (t : Nat) :
    (x.eaStore t).teDone = { x with
      teOpen := false, todo := { x.todo with te := false }
      pipe := x.pipe ++ [⟨x.hold (t + 2) [(9, 0)], x.slot, .teOut 0 x.eaStoreBytes.1 x.eaStoreBytes.2⟩] } := rfl

theorem eaLoadOp_teDone {x : Core} {w : Word} {an : Anchor} (t : Nat) (ha : anchorOf (x.ax' (teAx w)) = some an) :
    (x.eaLoadOp w t).teDone = { x with
      teOpen := true, teK := 0, teMx := false, teIss := some an.e, todo := { x.todo with te := false }
      pipe := x.pipe ++ [⟨x.eaDue (t + 2) 10, x.slot, .eaLoad an.e x.eaInVals⟩] } := by
  rw [Core.eaLoadOp, ha]
  rfl

theorem eaAddOp_teDone (x : Core) (t : Nat) :
    (x.eaAddOp t).teDone = { x with
      todo := { x.todo with te := false }, pipe := x.pipe ++ [⟨x.eaDue (t + 3) 10, x.slot, .eaAdd x.eaInVals⟩] } := rfl

theorem reanchorOp_teDone {x : Core} {w : Word} {an : Anchor} (t : Nat) (ha : anchorOf (x.ax' (teAx w)) = some an) :
    (x.reanchorOp w t).teDone = { x with
      teOpen := false, teIss := some an.e, todo := { x.todo with te := false }
      pipe := x.pipe ++ [⟨x.eaDue (t + 2) 10, x.slot, .eaReanchor an.e⟩] } := by
  rw [Core.reanchorOp, ha]
  rfl

/-- Settles O4, each operation by what it leaves of the core. -/
theorem tensorOperationsEnterThePipeline : Obligations.TensorOperationsEnterThePipeline := by
  rintro c s _ _ _ _ rfl rfl rfl rfl hr
  refine ⟨fun an p ho ha hp => ?mma, fun f ho hf => ?cvt, fun ho => ?eastore, fun an ho ha => ?eaload, fun ho => ?eaadd, fun an ho ha => ?reanchor⟩
  case mma =>
    refine ⟨_, congrArg Host.Outcome.next (teUnit_eq Core.mma hr ho rfl), mma_pipe _ ha hp, ?_, ?_, ?_, ?_⟩
    all_goals rw [Core.teDone, mma_frame _ ha hp]
  case cvt => exact congrArg Host.Outcome.next (teUnit_eq _ hr ho (cvt_teDone _ hf))
  case eastore => exact congrArg Host.Outcome.next (teUnit_eq _ hr ho (eaStore_teDone _ _))
  case eaload => exact congrArg Host.Outcome.next (teUnit_eq _ hr ho (eaLoadOp_teDone _ ha))
  case eaadd => exact congrArg Host.Outcome.next (teUnit_eq _ hr ho (eaAddOp_teDone _ _))
  case reanchor => exact congrArg Host.Outcome.next (teUnit_eq _ hr ho (reanchorOp_teDone _ ha))

/-! ### Vector engine -/

/-- A VE operation that the word names is performed; `y` is the core after it. -/
theorem veUnit_eq {s : State} {c : CoreAt} {op : Nat} {y : Core} (act : State → Core → Word → Nat → Core)
    (hr : (s.accept (clusterOf c)).ready c (·.ve) = true) (ho : veOp ((s.accept (clusterOf c)).core c).word = op)
    (hy : (act (s.accept (clusterOf c)) ((s.accept (clusterOf c)).core c) ((s.accept (clusterOf c)).core c).word
      ((s.accept (clusterOf c)).now c)).veDone = y) :
    s.veUnit c op act = (s.accept (clusterOf c)).putCore c y :=
  hy ▸ unitOp_eq (fun s x w t => (act s x w t).veDone) hr (decide_eq_true ho)

/-- A lane operation (R87) moves the lanes' anchors in issue order, and sends its effect down the pipeline. -/
theorem noteLanes_push_veDone (x : Core) (l : List (Nat × Option (BitVec 10))) (due : Nat) (e : Effect) :
    ((x.noteLanes l).push due e).veDone = { x with
      laneIss := (x.noteLanes l).laneIss, todo := { x.todo with ve := false }, pipe := x.pipe ++ [⟨due, x.slot, e⟩] } := rfl

theorem sumOp_veDone {x : Core} {w : Word} {an : Anchor} (sq : Bool) (t : Nat) (ha : anchorOf (x.ax' (veCfgN w)) = some an) :
    ∃ l, (x.sumOp sq w t).veDone = { x with
      laneIss := l, todo := { x.todo with ve := false }
      pipe := x.pipe ++ [⟨x.eaDue (t + 10) 11, x.slot, .laneSum an.e (sumTerms sq (x.vreg (veX w)) an.e)⟩] } := by
  rw [Core.sumOp, ha]
  exact ⟨_, noteLanes_push_veDone _ _ _ _⟩

theorem foldOp_veDone (x : Core) (t : Nat) :
    ∃ l, (x.foldOp t).veDone = { x with
      laneIss := l, todo := { x.todo with ve := false }, pipe := x.pipe ++ [⟨x.eaDue (t + 6) 11, x.slot, .laneFold⟩] } :=
  ⟨_, noteLanes_push_veDone _ _ _ _⟩

theorem laneLoadOp_veDone {x : Core} {w : Word} {an : Anchor} (t : Nat) (ha : anchorOf (x.ax' (veCfgN w)) = some an) :
    ∃ l, (x.laneLoadOp w t).veDone = { x with
      laneIss := l, todo := { x.todo with ve := false }
      pipe := x.pipe ++ [⟨x.eaDue (t + 2) 11, x.slot, .laneLoad an.e ((x.vreg (veX w)).extractLsb' 0 80)⟩] } := by
  rw [Core.laneLoadOp, ha]
  exact ⟨_, noteLanes_push_veDone _ _ _ _⟩

theorem eaOutOp_eq {x : Core} {w : Word} {f : Fmt} (t : Nat) (hf : fmtOf (veY w) = some f) :
    x.eaOutOp w t = x.pushHeld (t + 4) (.vreg (regD w) 16 (x.eaOut f).1 none (x.eaOut f).2) := by
  rw [Core.eaOutOp, hf]
  rfl

/-- Settles O5, each operation by what it leaves of the core. -/
theorem vectorOperationsEnterThePipeline : Obligations.VectorOperationsEnterThePipeline := by
  rintro c s _ _ _ _ _ rfl rfl rfl rfl hr rfl
  refine ⟨fun ho => ?pipelined, fun an ho ha => ?sumx, fun an ho ha => ?sqsumx, fun ho => ?fold, fun f ho hf => ?eaout, fun an ho ha => ?eaload,
    fun ho => ?eastore, fun ho => ?status⟩
  case pipelined => exact congrArg Host.Outcome.next (veUnit_eq _ hr ho rfl)
  case sumx => exact (sumOp_veDone false _ ha).imp fun _ hl => congrArg Host.Outcome.next (veUnit_eq _ hr ho hl)
  case sqsumx => exact (sumOp_veDone true _ ha).imp fun _ hl => congrArg Host.Outcome.next (veUnit_eq _ hr ho hl)
  case fold => exact (foldOp_veDone _ _).imp fun _ hl => congrArg Host.Outcome.next (veUnit_eq _ hr ho hl)
  case eaout => exact congrArg Host.Outcome.next (veUnit_eq _ hr ho (congrArg Core.veDone (eaOutOp_eq _ hf)))
  case eaload => exact (laneLoadOp_veDone _ ha).imp fun _ hl => congrArg Host.Outcome.next (veUnit_eq _ hr ho hl)
  case eastore => exact congrArg Host.Outcome.next (veUnit_eq _ hr ho rfl)
  case status => exact congrArg Host.Outcome.next (veUnit_eq _ hr ho rfl)

/-! ### Address generators -/

theorem agUnit_eq {s : State} {c : CoreAt} {g : Fin 2} {op : Nat} {y : Core} (act : Core → Word → Nat → Core)
    (hr : (s.accept (clusterOf c)).ready c (agTodo g) = true) (ho : agOp ((s.accept (clusterOf c)).core c).word g = op)
    (hy : (act ((s.accept (clusterOf c)).core c) ((s.accept (clusterOf c)).core c).word ((s.accept (clusterOf c)).now c)).agDone g = y) :
    s.agUnit c g op act = (s.accept (clusterOf c)).putCore c y :=
  hy ▸ unitOp_eq (fun _ x w t => (act x w t).agDone g) hr (decide_eq_true ho)

theorem agReadOp_eq {g : Fin 2} {x : Core} {w : Word} {dest : Dest} (t : Nat)
    (hd : readDest (agPort w g) (agPart w g) (descWidth (x.desc g (agDesc w g))) = some dest) :
    x.agReadOp g w t =
      (x.push (t + 2) (.bankRead (x.agAddr g (agDesc w g)).toNat (descWidth (x.desc g (agDesc w g))) dest (x.readLands dest t))).advanceIf w g := by
  simp only [Core.agReadOp, hd]

theorem agWriteOp_eq {g : Fin 2} {x : Core} {w : Word} {b : Bytes} (t : Nat)
    (hb : x.writeSource (agPort w g) (agPart w g) (descWidth (x.desc g (agDesc w g))) = some b) :
    x.agWriteOp g w t =
      (x.push (t + 2) (.bankWrite (x.agAddr g (agDesc w g)).toNat (b.take (descWidth (x.desc g (agDesc w g)))))).advanceIf w g := by
  simp only [Core.agWriteOp, hb]

theorem agDesc_lt (w : Word) (g : Fin 2) : agDesc w g < 8 := by
  have h : agBase g + 13 + 1 - (agBase g + 11) = 3 := by omega
  rw [agDesc, fld, bitsOf, h]
  exact Nat.mod_lt _ (by decide)

theorem agI_agReset (x : Core) (g : Fin 2) (d : Nat) {n : Nat} (hn : n < 6) : (x.agReset g d).agI g d n = 0 :=
  (SMap.get_setRun_in 0 x.agi (6 * (8 * g.val + d)) (List.replicate 6 0) n hn).trans (List.getD_replicate _ hn)

/-- A reset clears the WRAPPED bit of its descriptor alone (R90). -/
theorem wrappedBit_agReset (x : Core) (g : Fin 2) {d e : Nat} (he : e < 8) :
    (x.agReset g d).wrappedBit g e = (x.wrappedBit g e && decide (e ≠ d)) := by
  have hlt : 8 * g.val + e < 16 := by have := g.isLt; omega
  have hbit : (BitVec.ofNat 16 (2 ^ (8 * g.val + d))).getLsbD (8 * g.val + e) = decide (e = d) := by
    rw [BitVec.getLsbD_ofNat, Nat.testBit_two_pow, decide_eq_true hlt, Bool.true_and]
    exact decide_eq_decide.2 (by omega)
  rw [Core.wrappedBit, Core.agReset, BitVec.getLsbD_and, BitVec.getLsbD_not, hbit, decide_eq_true hlt, Bool.true_and, decide_not]
  rfl

/-- A reset changes nothing but the counters and the WRAPPED bits, and is then done (R90). -/
theorem agReset_frame (x : Core) (g : Fin 2) (d : Nat) :
    (x.agReset g d).agDone g = { x with
      agi := ((x.agReset g d).agDone g).agi, wrapped := ((x.agReset g d).agDone g).wrapped, todo := ((x.agReset g d).agDone g).todo } := rfl

/-- Settles O7: the accesses by what they send down the pipeline, the reset by what it leaves readable. -/
theorem addressGeneratorOperations : Obligations.AddressGeneratorOperations := by
  rintro c g s _ _ y _ _ rfl rfl rfl rfl hr
  refine ⟨fun dest ho hd hy => ?read, fun b ho hb hy => ?write, fun ho => ?reset⟩
  case read => exact hy ▸ congrArg Host.Outcome.next (agUnit_eq _ hr ho (congrArg (Core.agDone · g) (agReadOp_eq _ hd)))
  case write => exact hy ▸ congrArg Host.Outcome.next (agUnit_eq _ hr ho (congrArg (Core.agDone · g) (agWriteOp_eq _ hb)))
  case reset =>
    have hd := agDesc_lt ((s.accept (clusterOf c)).core c).word g
    refine ⟨_, congrArg Host.Outcome.next (agUnit_eq _ hr ho rfl), fun n hn => agI_agReset _ g _ hn, ?_, fun e he hne => ?_, agReset_frame _ g _⟩
    · exact (wrappedBit_agReset _ g hd).trans (by simp)
    · exact (wrappedBit_agReset _ g he).trans (by simp [hne])

end Sys2Proof.Machine

/-! PROOFS. Remote requests, the local atomic and the reduce form (R94, R221, R238 to R240). -/

namespace Sys2Proof

theorem SMap.set_set {α : Type} [DecidableEq α] (d : α) (m : SMap α) (k : Nat) (v w : α) : set d (set d m k v) k w = set d m k w := by
  have none_below (u : α) : ((if u = d then [] else [(k, u)]) : SMap α).filter (fun p => decide (p.1 < k)) = [] := by split <;> simp
  have none_above (u : α) : ((if u = d then [] else [(k, u)]) : SMap α).filter (fun p => decide (k + 1 ≤ p.1)) = [] := by split <;> simp
  have between : m.filter (fun p => decide (k + 1 ≤ p.1) && decide (p.1 < k)) = [] := List.filter_eq_nil_iff.2 fun p _ => by simp; omega
  have between' : m.filter (fun p => decide (p.1 < k) && decide (k + 1 ≤ p.1)) = [] := List.filter_eq_nil_iff.2 fun p _ => by simp; omega
  simp only [set, splice, List.filter_append, List.filter_filter, none_below, none_above, between, between', Bool.and_self, List.nil_append,
    List.append_nil]

end Sys2Proof

namespace Sys2Proof.Machine

theorem putCore_putCore (s : State) (c : CoreAt) (x y : Core) : (s.putCore c x).putCore c y = s.putCore c y :=
  congrArg (fun m => { s with cores := m }) (SMap.set_set _ _ _ _ _)

theorem modCore_putCore (s : State) (c : CoreAt) (x : Core) (f : Core → Core) : (s.putCore c x).modCore c f = s.putCore c (f x) := by
  rw [State.modCore, State.core_putCore_same, putCore_putCore]

/-- The CE operation of the word is done. -/
def Core.ceDone (x : Core) : Core := { x with todo := { x.todo with ce := false } }

/-- A CE operation that the word names is performed, in the cycle that the accepted words belong to; `y` is the core behind its own part. -/
theorem ceUnit_eq {s : State} {c : CoreAt} {op : Word → Core → Bool} {y : Core} (act : State → CoreAt → Word → State)
    (hr : (s.accept (clusterOf c)).ready c (·.ce) = true)
    (ho : op ((s.accept (clusterOf c)).core c).word ((s.accept (clusterOf c)).core c) = true)
    (hy : act (s.accept (clusterOf c)) c ((s.accept (clusterOf c)).core c).word = (s.accept (clusterOf c)).putCore c y) :
    s.ceUnit c op act = (s.accept (clusterOf c)).putCore c y.ceDone := by
  rw [← modCore_putCore _ _ _ Core.ceDone, ← hy]
  exact if_pos (by rw [hr, ho]; rfl)

theorem localAtomicOp_eq {x : Core} {w : Word} {r : Fin 16} (t : Nat) (hr : r.val = agPart w 0 % 16) :
    x.localAtomicOp w t = ({ x with pipe := x.pipe ++
         [⟨t + 2, x.slot, .atomic (x.agAddr 0 (agDesc w 0)).toNat (BitVec.ofNat 2 (fld w 23 22)) (BitVec.ofNat 2 (fld w 21 20))
             (x.kreg (ceEp w)) r (x.hold (t + 7) [(7, r.val)])⟩,
           ⟨t + 3, x.slot, .atomicSecond (x.agAddr 0 (agDesc w 0)).toNat⟩] } : Core).advanceIf w 0 := by
  simp only [Core.localAtomicOp, Core.push, ← hr, List.append_assoc, List.singleton_append]

/-! ### The reduce form -/

/-- An access that enters the Bulk queue, or waits for it, leaves the Reduce queue and its room as they are (R72). -/
theorem enqueue_bulk_frame (x : Core) (j : FabricJob) :
    (x.enqueue 1 j).fqReduce = x.fqReduce ∧ (x.enqueue 1 j).redSpent = x.redSpent ∧ (x.enqueue 1 j).fabricRoom 0 = x.fabricRoom 0 := by
  unfold Core.enqueue
  split
  · exact ⟨rfl, rfl, rfl⟩
  · exact ⟨rfl, rfl, by simp [Core.fabricRoom, Core.fq]⟩

/-- A reservation writes no more than a skip record, through the Bulk queue (R239). -/
theorem reserve_frame (x : Core) (ep n serial : Nat) (red : Option (Fin 16)) (now : Nat) :
    (x.reserve ep n serial red now).1.fqReduce = x.fqReduce ∧ (x.reserve ep n serial red now).1.redSpent = x.redSpent ∧
    (x.reserve ep n serial red now).1.fabricRoom 0 = x.fabricRoom 0 := by
  unfold Core.reserve
  dsimp only
  split
  · exact ⟨rfl, rfl, rfl⟩
  · exact enqueue_bulk_frame x _

theorem enqueue_reduce_fqReduce (x : Core) (j : FabricJob) :
    (x.enqueue 0 j).fqReduce = if x.fabricRoom 0 then x.fqReduce ++ [j] else x.fqReduce := by
  unfold Core.enqueue
  split
  · rfl
  · rfl

theorem enqueue_reduce_re (x : Core) (j : FabricJob) : (x.enqueue 0 j).re = x.re := by
  unfold Core.enqueue
  split
  · rfl
  · rfl

/-- A remote form leaves its entry in the request queue and the read of its record in the pipeline (R238, R239). -/
def Core.requesting (x : Core) (op : BitVec 2) (w : Word) (t : Nat) : Core :=
  { x with
    serial := x.serial + 1
    reqQ := x.reqQ ++ [{ serial := x.serial, op := op, ep := BitVec.ofNat 4 (ceEp w), slot := x.slot, cycle := t }]
    pipe := x.pipe ++ [⟨t + 2, x.slot, .bankRead (x.reqBase.toNat * 64 + ceArg w * 32) 32 (.request x.serial) (t + 2)⟩] }

theorem requestOp_eq (s : State) (op : BitVec 2) (c : CoreAt) (w : Word) :
    s.requestOp op c w = s.putCore c ((s.core c).requesting op w (s.now c)) := rfl

/-- The reduction slot that a word of the reduce form names. -/
def redSlot (w : Word) : Fin 16 := ⟨ceEp w % 16, by omega⟩

/-- The access by which the reduce form reads its contribution (R221). -/
def contribution (s : State) (c : CoreAt) (w : Word) (r : RedSt) : FabricJob :=
  { ops := readOps (r.srcBase + ceArg w % 128 * r.w * 64) r.p
    fin := .send [packet 6 (s.lcore c) { s.lcore c with core := unitCore } ((redHeader r
      (if r.mode = 0 then ((anchorOf ((s.core c).ax' r.ax)).map (·.e)).getD 0 else 0) (s.lcore c)).setWidth 256)] none none
    cycle := s.now c }

/-- A core whose contribution joins the Reduce queue, with one credit of slot `i` spent. -/
def Core.contribute (x : Core) (i : Nat) (j : FabricJob) : Core :=
  { x.enqueue 0 j with redSpent := SMap.set 0 x.redSpent i (SMap.get 0 x.redSpent i + 1) }

theorem reduceOp_eq (s : State) (c : CoreAt) (w : Word) (r : RedSt) (hr : r = (s.cluster (clusterOf c)).redOf (ceEp w % 16)) :
    s.reduceOp c w = s.putCore c
      (((s.core c).reserve r.replyEp r.l 0 (some (redSlot w)) (s.now c)).1.contribute (redSlot w).val (contribution s c w r)) := by
  subst hr
  rfl

/-- Behind a reservation the contribution joins the Reduce queue as it would have without it. -/
theorem reserve_contribute (x : Core) (ep n serial i : Nat) (red : Option (Fin 16)) (now : Nat) (j : FabricJob) :
    ((x.reserve ep n serial red now).1.contribute i j).ceDone.fqReduce = (x.enqueue 0 j).fqReduce ∧
    SMap.get 0 ((x.reserve ep n serial red now).1.contribute i j).ceDone.redSpent i = SMap.get 0 x.redSpent i + 1 := by
  obtain ⟨hq, hs, hroom⟩ := reserve_frame x ep n serial red now
  generalize (x.reserve ep n serial red now).1 = y at *
  constructor
  · simp only [Core.ceDone, Core.contribute, enqueue_reduce_fqReduce, hq, hroom]
  · simp only [Core.ceDone, Core.contribute, SMap.get_set_same, hs]

/-- The contribution of a core touches neither its receive endpoints nor what waits for another queue. -/
theorem contribute_frame (x : Core) (i : Nat) (j : FabricJob) :
    (x.contribute i j).ceDone.ceWait = (x.enqueue 0 j).ceWait ∧ (x.contribute i j).ceDone.re = x.re :=
  ⟨by simp only [Core.ceDone, Core.contribute], by simp only [Core.ceDone, Core.contribute, enqueue_reduce_re]⟩

/-! ### The obligation -/

/-- A remote form whose word is accepted. -/
theorem ceUnit_requestOp {s : State} {c : CoreAt} {ok : Word → Core → Bool} (op : BitVec 2) (hr : (s.accept (clusterOf c)).ready c (·.ce) = true)
    (ho : ok ((s.accept (clusterOf c)).core c).word ((s.accept (clusterOf c)).core c) = true) :
    s.ceUnit c ok (State.requestOp · op) = (s.accept (clusterOf c)).putCore c
      (((s.accept (clusterOf c)).core c).requesting op ((s.accept (clusterOf c)).core c).word ((s.accept (clusterOf c)).now c)).ceDone :=
  ceUnit_eq _ hr ho (requestOp_eq _ _ _ _)

/-- Settles O11: the remote forms and the local atomic by what they leave of the core, the reduce form by the frame of its reservation. -/
theorem remoteRequestsAndLocalAtomics : Obligations.RemoteRequestsAndLocalAtomics := by
  refine ⟨?remote, fun c s _ _ y _ _ r hs hx hw ht hr => ⟨fun hl hrv hy => ?loc, fun d hop harg hd => ?reduce⟩⟩
  case remote =>
    rintro c s _ _ _ _ op i rfl rfl rfl rfl hr harg (⟨ho, rfl, rfl⟩ | ⟨ho, rfl, rfl⟩ | ⟨ho, rfl, rfl⟩)
    · exact congrArg Host.Outcome.next (ceUnit_requestOp 0 hr (Bool.and_eq_true_iff.2 ⟨decide_eq_true ho, decide_eq_true harg⟩))
    · exact congrArg Host.Outcome.next (ceUnit_requestOp 1 hr (decide_eq_true ho))
    · exact congrArg Host.Outcome.next (ceUnit_requestOp 2 hr (Bool.and_eq_true_iff.2 ⟨decide_eq_true ho, decide_eq_true harg⟩))
  case loc =>
    subst hs hx hw ht hy
    exact ⟨_, rfl, congrArg Host.Outcome.next (ceUnit_eq _ hr hl (congrArg _ (localAtomicOp_eq _ hrv)))⟩
  case reduce =>
    subst hs hx hw ht
    refine ⟨_, contribution (s.accept (clusterOf c)) c ((s.accept (clusterOf c)).core c).word d, congrArg Host.Outcome.next
      (ceUnit_eq State.reduceOp hr (Bool.and_eq_true_iff.2 ⟨decide_eq_true hop, decide_eq_true harg⟩) (reduceOp_eq _ _ _ _ hd)), ?_⟩
    rw [State.core_putCore_same]
    exact ⟨(reserve_contribute _ _ _ _ _ _ _ _).1, (contribute_frame _ _ _).1, rfl, (reserve_contribute _ _ _ _ _ _ _ _).2,
      congrArg (fun m => (SMap.get {} m d.replyEp).resv) (contribute_frame _ _ _).2, rfl, rfl, rfl⟩

end Sys2Proof.Machine

/-! PROOFS. Pass-through, landings, the transpose unit and the fabric side of a scratchpad (R69 to R74, R95 to R97, R113 to R115, R145). -/

namespace Sys2Proof.Machine

/-! ### Pass-through (R97, R115) -/

theorem toNeighbour_of_some {c : CoreAt} {p : Fin 16} {i : Fin 64} (s : State) (d : BitVec 256) (t : Nat)
    (h : neighbour c.core (p.val / 4) = some i) :
    s.toNeighbour c p d t = s.modCore (coreIn (clusterOf c) i) fun y => y.push t (.ptIn (inboundOf p) d) := by
  rw [State.toNeighbour, h]

/-- A word on its way to a neighbour is one more effect of a core. -/
theorem toNeighbour_frame (s : State) (c : CoreAt) (p : Fin 16) (d : BitVec 256) (t : Nat) :
    s.toNeighbour c p d t = { s with cores := (s.toNeighbour c p d t).cores } := by
  unfold State.toNeighbour
  split
  · rfl
  · rfl

theorem neighbour_ne {i j : Fin 64} {dir : Nat} (h : neighbour i dir = some j) : j ≠ i := by
  rintro rfl
  unfold neighbour at h
  dsimp only at h
  split at h
  all_goals
    split at h
    · cases h
    · have := congrArg Fin.val (Option.some.inj h)
      simp only at this
      omega

/-- A word to a neighbour leaves the core that it comes from as it is. -/
theorem toNeighbour_core_self (s : State) (c : CoreAt) (p : Fin 16) (d : BitVec 256) (t : Nat) : (s.toNeighbour c p d t).core c = s.core c := by
  unfold State.toNeighbour
  split
  · rfl
  · next n hn =>
    refine State.core_modCore_ne _ _ fun e => neighbour_ne hn ?_
    exact (congrArg CoreAt.core e).symm

/-- The core whose word forwards into outbound register `o`. -/
def Core.forward (x : Core) (o : Fin 16) (d : BitVec 256) : Core :=
  { x with ptOut := SMap.set 0 x.ptOut o.val d, todo := { x.todo with pt := x.todo.pt &&& ~~~(BitVec.ofNat 16 (2 ^ o.val)) } }

theorem ptForward_eq {s : State} {c : CoreAt} {o : Fin 16} (hr : (s.accept (clusterOf c)).ready c (fun r => r.pt.getLsbD o.val) = true) :
    s.ptForward c o = ((s.accept (clusterOf c)).putCore c (((s.accept (clusterOf c)).core c).forward o
        (SMap.get 0 ((s.accept (clusterOf c)).core c).ptIn (ptSource (((s.accept (clusterOf c)).core c).ptEntry o.val))))).toNeighbour c o
      (SMap.get 0 ((s.accept (clusterOf c)).core c).ptIn (ptSource (((s.accept (clusterOf c)).core c).ptEntry o.val)))
      ((s.accept (clusterOf c)).now c + 1) := if_pos hr

theorem getLsbD_clear (x : BitVec 16) (n : Nat) (h : n < 16) : (x &&& ~~~(BitVec.ofNat 16 (2 ^ n))).getLsbD n = false := by
  rw [BitVec.getLsbD_and, BitVec.getLsbD_not, BitVec.getLsbD_ofNat, Nat.testBit_two_pow_self]
  simp [h]

/-! ### Landings (R69, R113, R114) -/

/-- The core without the effects that are due in issue cycle `t`. -/
def Core.landed (x : Core) (t : Nat) : Core := { x with pipe := x.pipe.filter fun p => !decide (p.due ≤ t) }

theorem targets_nodup (d : Dest) : d.targets.Nodup := by
  cases d
  case transpose => exact List.nodup_cons.2 ⟨by decide, List.nodup_singleton _⟩
  case request => exact List.nodup_nil
  all_goals exact List.nodup_singleton _

/-- The targets that deliveries share, of which each is listed as often as a delivery has it. -/
theorem no_clash {l : List (Nat × Nat)} (h : l.Nodup) : l.filter (fun g => decide (1 < l.count g)) = [] := by
  refine List.filter_eq_nil_iff.2 fun g _ => ?_
  have hg := List.nodup_iff_count_le_one.1 h g
  simpa using hg

theorem bankOnly_land (d : Dest) (b : Bytes) : (Effect.land d b).bankOnly = false := rfl
theorem targets_land (d : Dest) (b : Bytes) : (Effect.land d b).targets = d.targets := rfl

/-- The one delivery that is due lands. -/
theorem landCore_land {x : Core} {t : Nat} {p : Pending} {d : Dest} {b : Bytes} (self : Fin 64)
    (hp : x.pipe.filter (fun p => decide (p.due ≤ t)) = [p]) (he : p.eff = .land d b) (hf : x.forwards = []) :
    (x.landCore self t).core = (x.landed t).deliver d b ∧ (x.landCore self t).faults = [] ∧ (x.landCore self t).events = [] ∧
    (x.landCore self t).soft = 0 := by
  unfold Core.landCore
  extract_lets due ts clash hit keep order busy x0 r
  have hdue : due = [p] := hp
  have hts : ts = d.targets.filter fun g => decide (g.1 ≤ 8) := by
    change (due.filter fun p => !p.eff.bankOnly).flatMap _ ++ x.forwards = _
    rw [hdue, hf, List.filter_singleton, he, bankOnly_land]
    simp [he, targets_land]
  have hclash : clash = [] := no_clash (hts ▸ (targets_nodup d).filter _)
  have hmiss : hit p = false := by simp [hit, hclash]
  have hkeep : keep = [p] := by
    change due.flatMap _ = _
    rw [hdue, List.flatMap_singleton, hmiss]
    rfl
  have horder : order = [p] := by simp [order, hkeep, he, Effect.early, Effect.late]
  have hx0 : x0 = x.landed t := by simp [x0, busy, hdue, he, Effect.bank, Core.landed]
  have hr : r = { (x.landed t).landOne self p with } := by simp [r, horder, hx0]
  simp only [hclash, List.isEmpty_nil, if_true, hr, Core.landOne, he, and_self]

theorem clash_pair (g : Nat × Nat) : [g, g].filter (fun h => decide (1 < [g, g].count h)) = [g, g] := by
  have h : [g, g].count g = 2 := by rw [List.count_cons_self, List.count_cons_self, List.count_nil]
  exact List.filter_eq_self.2 fun e he => by simp_all

/-- Two deliveries that are due on one constant register are a LANDING_CONFLICT, and neither lands (R114). -/
theorem landCore_clash {x : Core} {t : Nat} {p q : Pending} {r : Fin 16} {a b : Bytes} (self : Fin 64)
    (hp : x.pipe.filter (fun p => decide (p.due ≤ t)) = [p, q]) (ha : p.eff = .land (.kreg r) a) (hb : q.eff = .land (.kreg r) b)
    (hf : x.forwards = []) :
    (x.landCore self t).core = x.landed t ∧ (x.landCore self t).faults = [raised self x.slot fLandingConflict] := by
  unfold Core.landCore
  extract_lets due ts clash hit keep order busy x0 r'
  have hdue : due = [p, q] := hp
  have hts : ts = [(7, r.val), (7, r.val)] := by
    change (due.filter fun p => !p.eff.bankOnly).flatMap _ ++ x.forwards = _
    rw [hdue, hf]
    rw [List.filter_cons, ha, List.filter_singleton, hb, bankOnly_land, bankOnly_land]
    change p.eff.targets.filter _ ++ (q.eff.targets.filter _ ++ []) ++ [] = _
    rw [ha, hb]
    rfl
  have hclash : clash = [(7, r.val), (7, r.val)] := by
    change ts.filter (fun g => decide (1 < ts.count g)) = _
    rw [hts]
    exact clash_pair _
  have hhit (e : Pending) (d : Bytes) (he : e.eff = .land (.kreg r) d) : (if hit e then afterClash e else [e]) = [] := by
    have h : hit e = true := by
      change (!e.eff.bankOnly && e.eff.targets.any clash.contains) = true
      rw [he, hclash]
      exact Bool.and_eq_true_iff.2 ⟨rfl, List.any_eq_true.2 ⟨_, List.mem_singleton_self _, List.contains_iff_mem.2 List.mem_cons_self⟩⟩
    rw [if_pos h, afterClash, he]
  have hkeep : keep = [] := by
    change due.flatMap _ = _
    rw [hdue, List.flatMap_cons, List.flatMap_singleton, hhit p a ha, hhit q b hb, List.nil_append]
  have hx0 : x0 = x.landed t := by simp [x0, busy, hdue, ha, hb, Effect.bank, Core.landed]
  have hr : r' = { core := x.landed t } := by
    change order.foldl _ _ = _
    rw [show order = [] by simp [order, hkeep], List.foldl_nil, hx0]
  rw [if_neg (by simp [hclash]), hr]
  exact ⟨rfl, rfl⟩

/-- What lands at a core reaches no cluster, and of the core itself nothing else. -/
theorem landAt_spec (s : State) (c : CoreAt) :
    (s.landAt c).1.core c = ((s.core c).landCore c.core (s.cluster (clusterOf c)).cycle).core ∧ (s.landAt c).1.clusters = s.clusters ∧
    (s.landAt c).2 = ((s.core c).landCore c.core (s.cluster (clusterOf c)).cycle).faults := by
  unfold State.landAt
  extract_lets t r s1 s2 s3 s4
  have h2 : s2.core c = r.core ∧ s2.clusters = s.clusters := by
    have h := foldl_leaves (fun u : State => (u.core c, u.clusters)) (f := fun u o => u.toNeighbour c o.1 o.2 (t + 1))
      (fun u o => by rw [toNeighbour_core_self, toNeighbour_frame]) r.outs s1
    rw [State.core_putCore_same] at h
    exact ⟨congrArg (·.1) h, congrArg (·.2) h⟩
  have h3 : s3.core c = s2.core c ∧ s3.clusters = s2.clusters := by
    have h := foldl_leaves (fun u : State => (u.core c, u.clusters)) (f := fun u e => u.missEvent c e) (fun u e => by rw [State.missEvent, State.core, State.raiseEvent_cores, State.raiseEvent_clusters]; rfl) r.events s2
    exact ⟨congrArg (·.1) h, congrArg (·.2) h⟩
  have h4 : s4.core c = s3.core c ∧ s4.clusters = s3.clusters := by
    simp only [s4, State.countSoft]
    split
    · exact ⟨rfl, rfl⟩
    · exact ⟨rfl, rfl⟩
  exact ⟨h4.1.trans (h3.1.trans h2.1), h4.2.trans (h3.2.trans h2.2), rfl⟩

/-- A command for the landings of a core that is between two cycles. -/
theorem exec_deliveryLanding {s : State} {c : CoreAt} (hrun : (s.cluster (clusterOf c)).run = .running)
    (hacc : (s.cluster (clusterOf c)).accepted = false) (hline : (s.cluster (clusterOf c)).stallLine = false)
    (hstall : s.stallsNow (clusterOf c) = false) :
    ∃ t, exec (.deliveryLanding c) s = .next t ∧
      t.core c = ((s.core c).landCore c.core (s.cluster (clusterOf c)).cycle).core ∧
      (t.cluster (clusterOf c)).endFaults =
        (s.cluster (clusterOf c)).endFaults ++ ((s.core c).landCore c.core (s.cluster (clusterOf c)).cycle).faults := by
  obtain ⟨h1, h2, h3⟩ := landAt_spec s c
  refine ⟨_, if_pos (by simp [hrun, hacc, hline, hstall]), ?_, ?_⟩
  · rw [State.addFaults, State.core_modCluster, h1]
  · rw [State.addFaults, State.cluster_modCluster_same, State.cluster, h2, h3]
    rfl

/-! ### The transpose unit (R145) -/

theorem exec_transposeCheck {s : State} {c : CoreAt} (hacc : (s.cluster (clusterOf c)).accepted = true) :
    ∃ t, exec (.transposeCheck c) s = .next t ∧ t.core c = ((s.core c).transposeChecks c.core).1 ∧
      (t.cluster (clusterOf c)).endFaults = (s.cluster (clusterOf c)).endFaults ++ ((s.core c).transposeChecks c.core).2 := by
  refine ⟨_, if_pos hacc, ?_, ?_⟩
  · rw [State.addFaults, State.core_modCluster, State.core_putCore_same]
  · rw [State.addFaults, State.cluster_modCluster_same]
    rfl

theorem transposeChecks_clean {x : Core} {p : Pending} {h : Bool} {b v g : Bytes} (self : Fin 64) (hp : x.pipe = [p])
    (he : p.eff = .land (.transpose h) b) (ht : transposeDeliver h b = some (v, g)) :
    x.transposeChecks self = ({ x with pipe := [⟨p.due, p.slot, .land (.latchA false) v⟩, ⟨p.due, p.slot, .land .metadata g⟩] }, []) := by
  rw [Core.transposeChecks, hp, List.foldl_cons, List.foldl_nil, he]
  simp only [ht, List.nil_append]

theorem transposeChecks_malformed {x : Core} {p : Pending} {h : Bool} {b : Bytes} (self : Fin 64) (hp : x.pipe = [p])
    (he : p.eff = .land (.transpose h) b) (ht : transposeDeliver h b = none) :
    x.transposeChecks self = ({ x with pipe := [] }, [raised self p.slot fSparseMeta]) := by
  rw [Core.transposeChecks, hp, List.foldl_cons, List.foldl_nil, he]
  simp only [ht, List.nil_append]

/-! ### What a bank operation leaves alone (R70, R72) -/

/-- What a bank operation of the fabric side does not touch: receive endpoints, the steering unit, requests outstanding, codes being formed. -/
structure FabricFrame (x y : Core) : Prop where
  re : y.re = x.re
  steer : y.steer = x.steer
  outstanding : y.outstanding = x.outstanding
  generating : y.generating = x.generating

theorem FabricFrame.refl (x : Core) : FabricFrame x x := ⟨rfl, rfl, rfl, rfl⟩

theorem FabricFrame.trans {x y z : Core} (h : FabricFrame x y) (g : FabricFrame y z) : FabricFrame x z :=
  ⟨g.re.trans h.re, g.steer.trans h.steer, g.outstanding.trans h.outstanding, g.generating.trans h.generating⟩

theorem fabricFrame_atomic (x : Core) (a : Nat) (op cond : BitVec 2) (v : BitVec 32) : FabricFrame x (x.atomic a op cond v).1 := by
  unfold Core.atomic
  dsimp only
  split
  · exact ⟨rfl, rfl, rfl, rfl⟩
  · dsimp only
    split
    · exact ⟨rfl, rfl, rfl, rfl⟩
    · exact .refl x
  · exact ⟨rfl, rfl, rfl, rfl⟩

theorem fabricFrame_noteSofts (l : List (Nat × Nat)) (x : Core) : FabricFrame x (l.foldl (fun y p => y.noteSoft p.1 p.2) x) := by
  induction l generalizing x with
  | nil => exact .refl x
  | cons p l ih => exact (show FabricFrame x (x.noteSoft p.1 p.2) from ⟨rfl, rfl, rfl, rfl⟩).trans (ih _)

theorem fabricFrame_performOp (x : Core) (j : FabricJob) (o : FabricOp) : FabricFrame x (x.performOp j o).1 := by
  have h := fabricFrame_noteSofts o.tested x
  unfold Core.performOp
  cases o with
  | read a n => exact h
  | write a b => exact h.trans ⟨rfl, rfl, rfl, rfl⟩
  | atomic a op cond v => exact h.trans (fabricFrame_atomic _ _ _ _ _)

theorem fabricFrame_generate (x : Core) (j : FabricJob) : FabricFrame x (x.generate j) := by
  unfold Core.generate
  split
  · exact ⟨rfl, rfl, rfl, rfl⟩
  · exact .refl x

theorem fabricFrame_usedBank (x : Core) (o : FabricOp) : FabricFrame x (x.usedBank o) := ⟨rfl, rfl, rfl, rfl⟩

theorem fabricFrame_setFq (x : Core) (q : Nat) (l : List FabricJob) : FabricFrame x (x.setFq q l) ∧ (x.setFq q l).spad = x.spad := by
  unfold Core.setFq
  split
  · exact ⟨⟨rfl, rfl, rfl, rfl⟩, rfl⟩
  · exact ⟨⟨rfl, rfl, rfl, rfl⟩, rfl⟩
  · exact ⟨⟨rfl, rfl, rfl, rfl⟩, rfl⟩

theorem fabricFrame_popHead (x : Core) (q : Nat) : FabricFrame x (x.popHead q) ∧ (x.popHead q).spad = x.spad := by
  unfold Core.popHead
  dsimp only
  obtain ⟨h1, e1⟩ := fabricFrame_setFq x q ((x.fq q).drop 1)
  generalize x.setFq q ((x.fq q).drop 1) = y at *
  split
  · exact ⟨h1, e1⟩
  · next w _ =>
    obtain ⟨h2, e2⟩ := fabricFrame_setFq y q (y.fq q ++ [w.2])
    exact ⟨h1.trans ⟨h2.re, h2.steer, h2.outstanding, h2.generating⟩, e2.trans e1⟩

theorem performOp_fin (x : Core) (j : FabricJob) (o : FabricOp) : (x.performOp j o).2.fin = j.fin := by cases o <;> rfl

/-! ### A cycle of the fabric side (R72) -/

/-- The core behind a bank operation: in a running cluster the bank is used in this cycle. -/
def Core.served (x : Core) (running : Bool) (j : FabricJob) (o : FabricOp) : Core :=
  let y := (x.performOp j o).1.generate (x.performOp j o).2
  if running then y.usedBank o else y

theorem fabricFrame_served (x : Core) (running : Bool) (j : FabricJob) (o : FabricOp) : FabricFrame x (x.served running j o) := by
  have h := (fabricFrame_performOp x j o).trans (fabricFrame_generate _ (x.performOp j o).2)
  unfold Core.served
  dsimp only
  split
  · exact h.trans (fabricFrame_usedBank _ o)
  · exact h

theorem genTick_of_nil {x : Core} (h : x.generating = []) : x.genTick = x := by
  rw [Core.genTick, h, List.map_nil, ← h]

/-- A fabric side that has not used its bank in this cycle, with no code being formed, serves the access that it picks. -/
theorem fabricCycle_eq {s : State} {c : CoreAt} {q : Nat} {j : FabricJob} (hu : (s.core c).fabUsed = false) (hg : (s.core c).generating = [])
    (hp : s.fabricPick c = some (q, j)) : s.fabricCycle c = (s.putCore c (s.core c)).fabricStep c q j := by
  unfold State.fabricCycle
  dsimp only
  rw [genTick_of_nil hg, ite_self, hg, hu, hp]
  rfl

/-- A bank operation without an uncorrectable error: counted, and the access ends with its last. -/
theorem fabricStep_good {s : State} {c : CoreAt} {q : Nat} {j : FabricJob} {o : FabricOp} {rest : List FabricOp} (ho : j.ops = o :: rest)
    (hb : (s.core c).opBad o = false) :
    ∃ u : State, u = { s with ctr := u.ctr } ∧ s.fabricStep c q j =
      let y := (s.core c).served (decide ((s.cluster (clusterOf c)).run = .running)) j o
      let k := { ((s.core c).performOp j o).2 with ops := rest }
      if rest.isEmpty then (u.putCore c (y.popHead q)).fabricDone c k else u.putCore c (y.setHead q k) := by
  refine ⟨(s.countSoft c ((s.core c).opSoft o)).count 1 (coreUnit c) 0 1 o.cycles, ?_, ?_⟩
  · unfold State.countSoft
    split
    · rfl
    · rfl
  · unfold State.fabricStep
    dsimp only
    rw [ho]
    dsimp only
    rw [if_neg (by rw [hb]; exact Bool.false_ne_true)]
    rfl

/-- A command for a fabric side with an access to serve. -/
theorem exec_fabricAccess {s : State} {c : CoreAt} {q : Nat} {j : FabricJob} (hw : s.fabricWorks c = true) (hu : (s.core c).fabUsed = false)
    (hg : (s.core c).generating = []) (hp : s.fabricPick c = some (q, j)) :
    exec (.fabricAccess c) s = .next ((s.putCore c (s.core c)).fabricStep c q j) :=
  congrArg Host.Outcome.next ((if_pos hw).trans (fabricCycle_eq hu hg hp))

/-- A bank operation that is not the last of its access. -/
theorem exec_fabricAccess_more {s : State} {c : CoreAt} {q : Nat} {j : FabricJob} {o : FabricOp} {rest : List FabricOp}
    (hw : s.fabricWorks c = true) (hu : (s.core c).fabUsed = false) (hg : (s.core c).generating = []) (hp : s.fabricPick c = some (q, j))
    (ho : j.ops = o :: rest) (hb : (s.core c).opBad o = false) (hr : rest ≠ []) :
    ∃ t : State, exec (.fabricAccess c) s = .next t ∧ t = { s with cores := t.cores, ctr := t.ctr } ∧
      t.core c = ((s.core c).served (decide ((s.cluster (clusterOf c)).run = .running)) j o).setHead q
        { ((s.core c).performOp j o).2 with ops := rest } := by
  obtain ⟨u, hu', h⟩ := fabricStep_good (s := s.putCore c (s.core c)) (q := q) ho (by rwa [State.core_putCore_same])
  rw [State.core_putCore_same, if_neg (by simpa using hr)] at h
  rw [exec_fabricAccess hw hu hg hp, h]
  refine ⟨_, rfl, ?_, State.core_putCore_same _ _ _⟩
  rw [hu']
  rfl

/-- The last bank operation of an access: `u` is the state in which the access ends. -/
theorem exec_fabricAccess_last {s : State} {c : CoreAt} {q : Nat} {j : FabricJob} {o : FabricOp}
    (hw : s.fabricWorks c = true) (hu : (s.core c).fabUsed = false) (hg : (s.core c).generating = []) (hp : s.fabricPick c = some (q, j))
    (ho : j.ops = [o]) (hb : (s.core c).opBad o = false) :
    ∃ u : State, exec (.fabricAccess c) s = .next (u.fabricDone c { ((s.core c).performOp j o).2 with ops := [] }) ∧
      u = { s with cores := u.cores, ctr := u.ctr } ∧
      u.core c = ((s.core c).served (decide ((s.cluster (clusterOf c)).run = .running)) j o).popHead q := by
  obtain ⟨u, hu', h⟩ := fabricStep_good (s := s.putCore c (s.core c)) (q := q) ho (by rwa [State.core_putCore_same])
  rw [State.core_putCore_same, if_pos List.isEmpty_nil] at h
  rw [exec_fabricAccess hw hu hg hp, h]
  refine ⟨_, rfl, ?_, State.core_putCore_same _ _ _⟩
  rw [hu']
  rfl

/-! ### What follows the last bank operation -/

theorem fabricDone_header {s : State} {c : CoreAt} {j : FabricJob} (h : j.fin = .header) :
    s.fabricDone c j = s.modCore c fun x => { x with hdrRead := some j.got } := by
  rw [State.fabricDone, h]
  dsimp only
  rw [State.fabricEnd, h]

theorem fabricDone_done {s : State} {c : CoreAt} {j : FabricJob} (h : j.fin = .done) : s.fabricDone c j = s := by
  rw [State.fabricDone, h]
  dsimp only
  rw [State.fabricEnd, h]

theorem fabricDone_token {s : State} {c : CoreAt} {j : FabricJob} (h : j.fin = .token) :
    s.fabricDone c j = s.modCore c fun x => { x with steer := { x.steer with toks := x.steer.toks ++ [BitVec.ofNat 32 (leNat j.got)] } } := by
  rw [State.fabricDone, h]
  dsimp only
  rw [State.fabricEnd, h]

theorem fabricDone_recorded {s : State} {c : CoreAt} {j : FabricJob} {ep : Nat} {ack : Option (BitVec 128)} (h : j.fin = .recorded ep ack) :
    s.fabricDone c j = s.recorded c ep ack := by
  rw [State.fabricDone, h]
  dsimp only
  rw [State.fabricEnd, h]

theorem fabricDone_reply {s : State} {c : CoreAt} {j : FabricJob} {ep n : Nat} {st : BitVec 4} (h : j.fin = .reply ep n st) :
    s.fabricDone c j = s.replied c ep n st := by
  rw [State.fabricDone, h]
  dsimp only
  rw [State.fabricEnd, h]

theorem fabricDone_segment {s : State} {c : CoreAt} {j : FabricJob} {ps : List Packet} {b : Bytes} {rel : Option (Fin 16)}
    (h : j.fin = .send ps (some b) rel) : s.fabricDone c j = s.modCore c fun x => { x with generating := x.generating ++ [(3, j)] } := by
  rw [State.fabricDone, h]

/-- A source read that is not a segment sends its packets (R95). -/
theorem fabricDone_send {s : State} {c : CoreAt} {j : FabricJob} {ps : List Packet} (h : j.fin = .send ps none none) :
    s.fabricDone c j = (sendPackets ps none j.got).foldl (fun s p => s.inject c p) s := by
  rw [State.fabricDone, h]
  dsimp only
  rw [State.fabricEnd, h]

/-- Packets that a core injects wait at its router, in order, as they are (R203, R213). -/
theorem inject_all (l : List Packet) (s : State) (c : CoreAt) :
    ∃ m, (l.foldl (fun s p => s.inject c p) s).waiting = s.waiting ++ m ∧ m.length = l.length ∧
      ∀ (i : Nat) (a b : Packet), l[i]? = some a → m[i]? = some b →
        b.pkind = a.pkind ∧ b.dst = a.dst ∧ b.hdr = a.hdr ∧ b.data = a.data ∧ b.id = s.emitted + i := by
  induction l generalizing s with
  | nil => exact ⟨[], by simp, rfl, by simp⟩
  | cons p l ih =>
    obtain ⟨m, hm, hl, h⟩ := ih (s.inject c p)
    refine ⟨{ p.arriving with col := BitVec.ofNat 10 (s.sourceAt (corePos c) p).1, row := BitVec.ofNat 10 (s.sourceAt (corePos c) p).2
                              port := 4, id := s.emitted } :: m, hm.trans (List.append_assoc _ _ _), congrArg (· + 1) hl, ?_⟩
    rintro (_ | i) a b ha hb
    · obtain rfl := Option.some.inj ha
      obtain rfl := Option.some.inj hb
      exact ⟨rfl, rfl, rfl, rfl, rfl⟩
    · obtain ⟨h1, h2, h3, h4, h5⟩ := h i a b ha hb
      exact ⟨h1, h2, h3, h4, h5.trans (Nat.add_right_comm _ _ _ |>.trans (Nat.add_assoc _ _ _))⟩

theorem sendsOnly_injects (l : List Packet) (s : State) (c : CoreAt) : s.sendsOnly (l.foldl (fun s p => s.inject c p) s) := by
  induction l generalizing s with
  | nil => exact State.sendsOnly.refl s
  | cons p l ih => exact (sendsOnly_inject s c p).trans (ih _)

theorem State.sendsOnly.core {s t : State} (h : s.sendsOnly t) (c : CoreAt) : t.core c = s.core c := by rw [State.core, h.cores]; rfl
theorem State.sendsOnly.cluster {s t : State} (h : s.sendsOnly t) (k : ClusterAt) : t.cluster k = s.cluster k := by rw [h]; rfl

theorem countRecord_core (s : State) (c : CoreAt) (sub slots : Nat) (e : CoreAt) : (s.countRecord c sub slots).core e = s.core e := rfl

/-- A record that stands in its ring is recorded there (R182, R242). -/
theorem recorded_core (s : State) (c : CoreAt) (ep : Nat) (ack : Option (BitVec 128)) :
    (s.recorded c ep ack).core c =
      (s.core c).putRecv ep { (s.core c).recvEp ep with recs := landFirst ((s.core c).recvEp ep).recs } := by
  unfold State.recorded
  dsimp only
  split
  · rw [(sendsOnly_ackRecord _ _ _ _).core, countRecord_core, State.core_modCore_same]
  · rw [countRecord_core, State.core_modCore_same]

/-- The reply of a request stands in its slots (R241). -/
theorem replied_core (s : State) (c : CoreAt) (ep n : Nat) (st : BitVec 4) :
    (s.replied c ep n st).core c = { (s.core c).filled ep (·.isFor n) st 0 false with
      outstanding := (s.core c).outstanding.filter fun o => !(decide (o.serial = n) && decide (o.op ≠ 0)) } := by
  rw [State.replied, countRecord_core, State.core_modCore_same]
  rfl

theorem haltBy_cores (s : State) (c : CoreAt) (code : Nat) (detail : BitVec 64) (suspect : Option ClusterAt) :
    (s.haltBy c code detail suspect).cores = s.cores := by
  unfold State.haltBy State.haltOn
  split
  · rfl
  · split
    · rfl
    · rfl

theorem haltBy_core (s : State) (c : CoreAt) (code : Nat) (detail : BitVec 64) (suspect : Option ClusterAt) (e : CoreAt) :
    (s.haltBy c code detail suspect).core e = s.core e := congrArg (fun m => SMap.get ({} : Core) m (coreKey e)) (haltBy_cores s c code detail suspect)

/-- A fault that no word caused halts its cluster, if it has not halted before (R353). -/
theorem haltBy_cluster {s : State} {c : CoreAt} (code : Nat) (detail : BitVec 64) (suspect : Option ClusterAt)
    (h : (s.cluster (clusterOf c)).run ≠ .halted) :
    (s.haltBy c code detail suspect).cluster (clusterOf c) =
      { s.cluster (clusterOf c) with run := .halted, faultCode := some (BitVec.ofNat 16 code), stallLine := false } := by
  have hone (r : Raised) : onePerWord [r] = [r] := rfl
  rw [State.haltBy, State.haltOn, hone]
  dsimp only
  rw [if_neg h]
  exact State.cluster_modCluster_same s (clusterOf c) fun x =>
    { x with run := .halted, faultCode := some (BitVec.ofNat 16 code), stallLine := false }

/-- An access that meets an uncorrectable error halts the cluster, and is answered (R74, R75). -/
theorem fabricBad_sendsOnly (s : State) (c : CoreAt) (j : FabricJob) : (s.haltBy c fSpadUe).sendsOnly (s.fabricBad c j) := by
  unfold State.fabricBad
  dsimp only
  split
  · exact sendsOnly_answer _ _ _ _
  · exact sendsOnly_answer _ _ _ _
  · exact State.sendsOnly.refl _

/-- An access that meets an uncorrectable error is dropped. -/
theorem exec_fabricAccess_bad {s : State} {c : CoreAt} {q : Nat} {j : FabricJob} {o : FabricOp} {rest : List FabricOp}
    (hw : s.fabricWorks c = true) (hu : (s.core c).fabUsed = false) (hg : (s.core c).generating = []) (hp : s.fabricPick c = some (q, j))
    (ho : j.ops = o :: rest) (hb : (s.core c).opBad o = true) (hrun : (s.cluster (clusterOf c)).run ≠ .halted) :
    ∃ t, exec (.fabricAccess c) s = .next t ∧ t.core c = (s.core c).popHead q ∧ (t.cluster (clusterOf c)).run = .halted ∧
      (t.cluster (clusterOf c)).faultCode = some (BitVec.ofNat 16 fSpadUe) := by
  have hstep : (s.putCore c (s.core c)).fabricStep c q j = ((s.putCore c (s.core c)).putCore c ((s.core c).popHead q)).fabricBad c j := by
    unfold State.fabricStep
    dsimp only
    rw [ho, State.core_putCore_same]
    exact if_pos hb
  rw [exec_fabricAccess hw hu hg hp, hstep]
  refine ⟨_, rfl, ?_⟩
  have hs := fabricBad_sendsOnly ((s.putCore c (s.core c)).putCore c ((s.core c).popHead q)) c j
  have hk := haltBy_cluster (s := (s.putCore c (s.core c)).putCore c ((s.core c).popHead q)) (c := c) fSpadUe 0 none hrun
  rw [hs.core, hs.cluster, haltBy_core, hk]
  exact ⟨State.core_putCore_same _ _ _, rfl, rfl⟩

/-- A segment whose code is ready leaves before any access (R95). -/
theorem exec_fabricAccess_codeReady {s : State} {c : CoreAt} {j : FabricJob} {g : List (Nat × FabricJob)} {ps : List Packet} {h : Bytes}
    (hw : s.fabricWorks c = true) (hrun : (s.cluster (clusterOf c)).run = .running) (hg : (s.core c).generating = (0, j) :: g)
    (hf : j.fin = .send ps (some h) none) :
    exec (.fabricAccess c) s = .next ((sendPackets ps (some h) j.got).foldl (fun s p => s.inject c p)
      (s.putCore c { s.core c with generating := g })) := by
  refine congrArg Host.Outcome.next ((if_pos hw).trans ?_)
  unfold State.fabricCycle
  dsimp only
  rw [if_pos (decide_eq_true hrun), hg]
  change (s.putCore c (s.core c)).codeReady c j = _
  rw [State.codeReady, modCore_putCore, hg, State.fabricEnd, hf]
  rfl

/-- A write-back of a corrected word takes a free bank (R73). -/
theorem exec_spadWriteback {s : State} {c : CoreAt} {w : Nat} (h : (s.core c).wback.find? (fun w => s.bankFree c (bankOf (8 * w))) = some w) :
    exec (.spadWriteback c) s = .next (s.putCore c { s.core c with
        wback := (s.core c).wback.erase w
        ecc := (s.core c).ecc.filter (fun p => decide (p.1 ≠ w))
        fabBanks := (s.core c).fabBanks ||| BitVec.ofNat 8 (2 ^ bankOf (8 * w)) }) := by
  change execSpadWriteback c s = _
  rw [execSpadWriteback]
  dsimp only
  rw [h]

theorem getElem?_sendPackets {ps : List Packet} {i : Nat} {a : Packet} (got : Bytes) (ha : ps[i]? = some a) :
    ∃ b, (sendPackets ps none got)[i]? = some b ∧ b.pkind = a.pkind ∧ b.dst = a.dst ∧ b.hdr = a.hdr ∧
      b.data = if a.pkind = 0 ∧ bitsOf a.hdr.toNat 7 6 = 1 then a.data else got := by
  refine ⟨_, (List.getElem?_map ..).trans (congrArg _ ha), ?_⟩
  dsimp only
  by_cases h : a.pkind = 0 ∧ bitsOf a.hdr.toNat 7 6 = 1
  · rw [if_pos h, if_pos (Bool.and_eq_true_iff.2 ⟨decide_eq_true h.1, decide_eq_true h.2⟩)]
    exact ⟨rfl, rfl, rfl, rfl⟩
  · rw [if_neg h, if_neg fun hb => h ((Bool.and_eq_true_iff.1 hb).imp of_decide_eq_true of_decide_eq_true)]
    exact ⟨rfl, rfl, rfl, rfl⟩

/-! ### The obligation -/

/-- Settles O8: each command by what it leaves of its core, the fabric side by the way its access goes on. -/
theorem deliveriesAndTheFabricSide : Obligations.DeliveriesAndTheFabricSide := by
  refine ⟨?forward, ?landing, ?transpose, ?fabric, ?codeReady, ?writeback⟩
  case forward =>
    intro c o s s' x d hs hx hr hd
    subst hs hx
    have ht := ptForward_eq hr
    rw [← hd] at ht
    refine ⟨_, congrArg Host.Outcome.next ht, ?_⟩
    generalize s.accept (clusterOf c) = u at *
    have hc := toNeighbour_core_self (u.putCore c ((u.core c).forward o d)) c o d (u.now c + 1)
    rw [State.core_putCore_same] at hc
    have hf := toNeighbour_frame (u.putCore c ((u.core c).forward o d)) c o d (u.now c + 1)
    rw [hc]
    refine ⟨SMap.get_set_same _ _ _ _, getLsbD_clear _ _ o.isLt, rfl, rfl, ?_, ?_, fun n hn => ?_⟩
    · rw [hf]; rfl
    · rw [hf]; rfl
    · have hne : coreIn (clusterOf c) n ≠ c := fun e => neighbour_ne hn (congrArg CoreAt.core e)
      rw [toNeighbour_of_some _ _ _ hn, State.core_modCore_same, State.core_putCore_ne _ _ hne]
      rfl
  case landing =>
    rintro c s _ _ rfl rfl hrun hacc hline hstall hf
    obtain ⟨t, ht, hcore, hend⟩ := exec_deliveryLanding hrun hacc hline hstall
    refine ⟨fun p d b hp he _ => ?_, fun p q r a b hp ha hb => ?_⟩
    · obtain ⟨h1, h2, -⟩ := landCore_land c.core hp he hf
      exact ⟨t, ht, hcore.trans h1, by rw [hend, h2, List.append_nil]⟩
    · obtain ⟨h1, h2⟩ := landCore_clash c.core hp ha hb hf
      exact ⟨t, ht, hcore.trans h1, by rw [hend, h2]⟩
  case transpose =>
    intro c s p h b hacc hp he
    obtain ⟨t, ht, hcore, hend⟩ := exec_transposeCheck hacc
    refine ⟨fun v g hd => ⟨t, ht, ?_, ?_⟩, fun hd => ⟨t, ht, ?_, ?_⟩⟩
    · rw [hcore, transposeChecks_clean _ hp he hd]
    · rw [hend, transposeChecks_clean _ hp he hd, List.append_nil]
    · rw [hcore, transposeChecks_malformed _ hp he hd]
    · rw [hend, transposeChecks_malformed _ hp he hd]
  case fabric =>
    intro c s x y q j o rest p hx hw hu hg hpick ho hp hy
    have hserved : y = x.served (decide ((s.cluster (clusterOf c)).run = .running)) j o := by
      rw [hy, hp, Core.served]
      simp only [decide_eq_true_eq]
    subst hx
    obtain ⟨hframe, hspad⟩ := fabricFrame_popHead y q
    have hfr := (hserved ▸ fabricFrame_served (s.core c) _ j o : FabricFrame (s.core c) y).trans hframe
    have hfin : p.2.fin = j.fin := hp ▸ performOp_fin _ _ _
    -- the state in which an access ends that makes its last operation
    have last (hb : (s.core c).opBad o = false) (hr : rest = []) : ∃ u : State,
        exec (.fabricAccess c) s = .next (u.fabricDone c { p.2 with ops := [] }) ∧ u = { s with cores := u.cores, ctr := u.ctr } ∧
        u.core c = y.popHead q := by
      obtain ⟨u, h⟩ := exec_fabricAccess_last hw hu hg hpick (hr ▸ ho) hb
      rw [← hserved, ← hp] at h
      exact ⟨u, h⟩
    refine ⟨fun hb hr => ?more, fun hb hr hf => ?header, fun hb hr hf => ?done, fun ps hb hr hf => ?send, fun ps h rel hb hr hf => ?segment,
      fun hb hr hf => ?token, fun ep ack hb hr hf => ?recorded, fun ep n st hb hr hf => ?reply, exec_fabricAccess_bad hw hu hg hpick ho⟩
    case more =>
      obtain ⟨t, ht, hs, hc⟩ := exec_fabricAccess_more hw hu hg hpick ho hb hr
      refine ⟨t, ht, by rw [hc, hserved, hp], ?_⟩
      rw [hs]
      exact ⟨rfl, rfl, rfl, rfl⟩
    all_goals
      obtain ⟨u, hexec, hstate, hcore⟩ := last hb hr
      have hk : ({ p.2 with ops := [] } : FabricJob).fin = _ := hfin.trans hf
    case header =>
      rw [fabricDone_header hk] at hexec
      refine ⟨_, hexec, by rw [State.core_modCore_same, hcore], ?_⟩
      rw [State.modCore_mesh, State.modCore_clusters, hstate]
      exact ⟨rfl, rfl⟩
    case done =>
      rw [fabricDone_done hk] at hexec
      refine ⟨_, hexec, hcore, ?_⟩
      rw [hstate]
      exact ⟨rfl, rfl⟩
    case send =>
      rw [fabricDone_send hk] at hexec
      have hs := sendsOnly_injects (sendPackets ps none p.2.got) u c
      obtain ⟨m, hm, hlen, hpk⟩ := inject_all (sendPackets ps none p.2.got) u c
      have hwait : u.waiting = s.waiting := by rw [hstate]
      have hemit : u.emitted = s.emitted := by rw [hstate]
      rw [hwait] at hm
      refine ⟨_, hexec, by rw [hs.core, hcore], ?_, fun i a b ha hb' => ?_, ?_⟩
      · rw [hm, List.length_append, hlen, sendPackets, List.length_map]
      · rw [hm, List.getElem?_append_right (Nat.le_add_right _ _), Nat.add_sub_cancel_left] at hb'
        obtain ⟨a', ha', e1, e2, e3, e4⟩ := getElem?_sendPackets p.2.got ha
        obtain ⟨h1, h2, h3, h4, h5⟩ := hpk i a' b ha' hb'
        exact ⟨h1.trans e1, h2.trans e2, h3.trans e3, by rw [h5, hemit], h4.trans e4⟩
      · rw [hs, hstate]
        exact ⟨rfl, rfl⟩
    case segment =>
      rw [fabricDone_segment hk] at hexec
      refine ⟨_, hexec, ?_, ?_⟩
      · rw [State.core_modCore_same, hcore, hfr.generating, hg, List.nil_append]
      · rw [State.modCore_mesh, State.modCore_waiting, hstate]
        exact ⟨rfl, rfl⟩
    case token =>
      rw [fabricDone_token hk] at hexec
      refine ⟨_, hexec, ?_⟩
      rw [State.core_modCore_same, hcore, hfr.steer, hspad]
      exact ⟨rfl, rfl⟩
    case recorded =>
      rw [fabricDone_recorded hk] at hexec
      refine ⟨_, hexec, ?_, ?_, ?_⟩
      · rw [recorded_core, hcore]
        exact (SMap.get_set_same _ _ _ _).trans (by rw [Core.recvEp, hframe.re]; rfl)
      · rw [recorded_core, hcore]
        exact hspad
      · rw [(onlyCore_recorded u c ep ack).1.clusters, hstate]
    case reply =>
      rw [fabricDone_reply hk] at hexec
      refine ⟨_, hexec, ?_, ?_, ?_⟩
      · rw [replied_core, hcore, hfr.outstanding]
      · rw [replied_core, hcore]
        exact hspad
      · exact (show (u.replied c ep n st).clusters = u.clusters from rfl).trans (by rw [hstate])
  case codeReady =>
    rintro c s _ j g ps h rfl hw hrun hg hf
    have hs := sendsOnly_injects (sendPackets ps (some h) j.got) (s.putCore c { s.core c with generating := g }) c
    obtain ⟨m, hm, hlen, -⟩ := inject_all (sendPackets ps (some h) j.got) (s.putCore c { s.core c with generating := g }) c
    refine ⟨_, exec_fabricAccess_codeReady hw hrun hg hf, by rw [hs.core, State.core_putCore_same], ?_, ?_⟩
    · rw [hm, List.length_append, hlen, sendPackets, List.length_map]
      rfl
    · rw [hs]
      exact ⟨rfl, rfl⟩
  case writeback =>
    rintro c s _ w rfl hfind
    exact exec_spadWriteback hfind

end Sys2Proof.Machine

/-! PROOFS. What arrives at a core: channel records, tile segments, credit returns (R96, R158, R178 to R182). -/

namespace Sys2Proof.Machine

/-! ### A packet is taken (R72, R210) -/

@[simp] theorem core_arrived (s : State) (f : Packet → Bool) (i : Nat) (c : CoreAt) : (s.arrived f i).core c = s.core c := by
  rw [State.core, State.arrived_cores]
  rfl

@[simp] theorem cluster_arrived (s : State) (f : Packet → Bool) (i : Nat) (k : ClusterAt) : (s.arrived f i).cluster k = s.cluster k := by
  rw [State.cluster, State.arrived_clusters]
  rfl

@[simp] theorem now_arrived (s : State) (f : Packet → Bool) (i : Nat) (c : CoreAt) : (s.arrived f i).now c = s.now c := by
  rw [State.now, cluster_arrived]
  rfl

@[simp] theorem offline_arrived (s : State) (f : Packet → Bool) (i : Nat) (k : ClusterAt) : (s.arrived f i).offline k = s.offline k := by
  rw [State.offline, cluster_arrived, State.domain, State.arrived_domains]
  rfl

@[simp] theorem targetsOf_arrived (s : State) (f : Packet → Bool) (i : Nat) (c : CoreAt) (e : SendEp) :
    (s.arrived f i).targetsOf c e = s.targetsOf c e := by
  rw [State.targetsOf, cluster_arrived, State.arrived_pkg]
  rfl

theorem onArrival_taken {s : State} {f : Packet → Bool} {i : Nat} (act : State → State) (hw : s.waits f i = false) :
    s.onArrival f i act = act (s.arrived f i) := if_neg (by rw [hw]; exact Bool.false_ne_true)

/-- A packet for whose access there is room, and that can be taken. -/
theorem onQueue_taken {s : State} {c : CoreAt} {q : Nat} {f : Packet → Bool} {i : Nat} (act : State → State)
    (hroom : (s.core c).fabricRoom q = true) (hw : s.waits f i = false) : s.onQueue c q f i act = act (s.arrived f i) := by
  rw [State.onQueue, State.routerHolds, hroom, Bool.not_true, Bool.and_false, if_neg Bool.false_ne_true, onArrival_taken act hw]

/-- A packet for whose access there is no room, or that cannot be taken yet, stays where it is. -/
theorem onQueue_kept {s : State} {c : CoreAt} {q : Nat} {f : Packet → Bool} {i : Nat} (act : State → State)
    (hoff : s.offline (clusterOf c) = false) (h : (s.core c).fabricRoom q = false ∨ s.waits f i = true) : s.onQueue c q f i act = s := by
  rcases h with hroom | hw
  · exact if_pos (by rw [State.routerHolds, hoff, hroom]; rfl)
  · rw [State.onQueue, State.onArrival, if_pos hw, ite_self]

theorem enqueue_bulk_of_room {x : Core} (h : x.fabricRoom 1 = true) (j : FabricJob) : x.enqueue 1 j = { x with fqBulk := x.fqBulk ++ [j] } :=
  if_pos h

theorem fabricRoom_putRecv (x : Core) (i : Nat) (e : RecvEp) (q : Nat) : (x.putRecv i e).fabricRoom q = x.fabricRoom q := rfl

/-! ### Records (R179, R180) -/

/-- A record that its endpoint takes, where the fabric side has room: the endpoint has it at its write position, its bytes are on their way. -/
theorem recordArrives_taken {s : State} {c : CoreAt} {h : BitVec 128} {payload : Bytes} (hoff : s.offline (clusterOf c) = false)
    (hroom : (s.core c).fabricRoom 1 = true) (ht : ((s.core c).recvEp (hdrEp h)).takes h payload = true) :
    s.recordArrives c h payload = s.putCore c { s.core c with
      re := SMap.set {} (s.core c).re (hdrEp h) (((s.core c).recvEp (hdrEp h)).append (BitVec.ofNat 2 (hdrKind h)) (hdrSlots h))
      fqBulk := (s.core c).fqBulk ++ [{
        ops := writeOps (((s.core c).recvEp (hdrEp h)).base + ((s.core c).recvEp (hdrEp h)).wpos * 64) (leBytes 16 h.toNat ++ payload)
        fin := .recorded (hdrEp h) (some h), cycle := s.now c }] } := by
  unfold State.recordArrives
  dsimp only
  rw [if_neg (by rw [hoff]; exact Bool.false_ne_true), if_pos ht, enqueue_bulk_of_room ((fabricRoom_putRecv _ _ _ _).trans hroom)]
  rfl

theorem recordArrives_refused {s : State} {c : CoreAt} {h : BitVec 128} {payload : Bytes} (hoff : s.offline (clusterOf c) = false)
    (ht : ((s.core c).recvEp (hdrEp h)).takes h payload = false) :
    s.recordArrives c h payload = s.haltBy c fChannelProto 0 (s.clusterNamed (hdrSrc h)) := by
  unfold State.recordArrives
  dsimp only
  rw [if_neg (by rw [hoff]; exact Bool.false_ne_true), if_neg (by rw [ht]; exact Bool.false_ne_true)]

/-! ### Tile segments (R158, R182) -/

/-- A message that a tile endpoint passes on to its checker (R179). -/
theorem segmentArrives_checked {s : State} {c : CoreAt} {h : BitVec 128} {seg : Bytes} {e : RecvEp} (inj : Bool)
    (hoff : s.offline (clusterOf c) = false) (he : e = (s.core c).recvEp (hdrEp h)) (hv : e.valid = true) (hty : e.type = 1) (hk : hdrKind h = 2)
    (hc : hdrClean h = true) (hs : hdrSeq h = e.expSeq) (hf : 1 ≤ e.free) (hl : hdrSlots h = 1) :
    s.segmentArrives c h seg inj = (s.landSegment c (hdrEp h) seg (fun _ frame => withFrame h frame) (some h) inj).1 := by
  subst he
  unfold State.segmentArrives
  dsimp only
  rw [if_neg (by rw [hoff]; exact Bool.false_ne_true), if_pos (by simp [hv, hty, hk, hc, hs, hf, hl])]

/-- A segment whose code does not fit halts the cluster; the checker has its code (R158). -/
theorem landSegment_failed {s : State} {c : CoreAt} {ep : Nat} {seg : Bytes} (mk : RecvEp → Nat → BitVec 128) (ack : Option (BitVec 128)) (inj : Bool)
    (hd : draocOk seg = false) :
    s.landSegment c ep seg mk ack inj = ((s.putCore c { s.core c with draocChk := partialCode seg }).haltBy c fCheckFail (checkDetail seg inj)
      (((s.core c).recvEp ep).feed.bind fun f => s.clusterNamed f.1), false) := by
  unfold State.landSegment
  dsimp only
  rw [if_pos (by rw [hd]; rfl)]
  rfl

/-- The endpoint behind a segment of its tile; the last one completes the tile (R182). -/
def RecvEp.segmentDone (e : RecvEp) : RecvEp :=
  { e.append 2 1 with
    seg := if e.seg + 1 = 2 ^ e.seglog then 0 else e.seg + 1
    tile := if e.seg + 1 = 2 ^ e.seglog then e.tile + 1 else e.tile }

/-- A segment that passes its checks goes to the fabric side for its place in the frame, with its tile record behind it (R158, R182). -/
theorem landSegment_landed {s : State} {c : CoreAt} {ep : Nat} {seg : Bytes} {e : RecvEp} {w : List (Nat × Bytes)} (mk : RecvEp → Nat → BitVec 128)
    (ack : Option (BitVec 128)) (inj : Bool) (he : e = (s.core c).recvEp ep) (hroom : (s.core c).fabricRoom 1 = true)
    (hd : draocOk seg = true) (hok : segmentOk seg = true) (hseg : segSeg seg = e.seg) (hlog : segSeglog seg = e.seglog)
    (hr : rangeOk seg e.frameStride = true) (hw : unpackWrites seg = (w, false)) :
    s.landSegment c ep seg mk ack inj = (s.putCore c { s.core c with
      draocChk := partialCode seg
      re := SMap.set {} (s.core c).re ep e.segmentDone
      fqBulk := (s.core c).fqBulk ++ [{
        ops := (w.flatMap fun p => writeOps (e.frameBase + e.tile % e.frames * e.frameStride + p.1) p.2) ++
          writeOps (e.base + e.wpos * 64) (leBytes 16 (mk e (e.tile % e.frames)).toNat ++ List.replicate 48 0)
        fin := .recorded ep ack, cycle := s.now c }] }, true) := by
  subst he
  have hroom' : ({ s.core c with draocChk := partialCode seg } : Core).fabricRoom 1 = true := hroom
  have hx : ({ s.core c with draocChk := partialCode seg } : Core).recvEp ep = (s.core c).recvEp ep := rfl
  unfold State.landSegment
  dsimp only
  rw [hx, if_neg (by simp [hd]), if_neg (by simp [hok, hseg, hlog]), if_neg (by simp [hr]), hw]
  dsimp only
  rw [if_neg Bool.false_ne_true, enqueue_bulk_of_room ((fabricRoom_putRecv _ _ _ _).trans hroom')]
  rfl

/-! ### Credit returns (R178, R184) -/

theorem credited_of_nothing_withheld {e : SendEp} (n : Nat) (h : e.toWithhold = 0) : e.credited n = { e with credits := e.credits + n } := by
  simp [SendEp.credited, h]

theorem getD_creditAt (l : List Nat) (j n i : Nat) : (creditAt j n l).getD i 0 = if i = j ∧ j < l.length then l.getD i 0 + n else l.getD i 0 := by
  rw [List.getD_eq_getElem?_getD, creditAt, List.getElem?_map, List.getElem?_zipIdx]
  rcases Nat.lt_or_ge i l.length with h | h
  · simp only [List.getElem?_eq_getElem h, Option.map_some, Option.getD_some, Nat.zero_add, List.getD_eq_getElem _ _ h]
    by_cases hij : i = j
    · subst hij
      simp [h]
    · simp [hij]
  · have hn : ¬(i = j ∧ j < l.length) := by omega
    simp [List.getElem?_eq_none h, hn, List.getD_eq_getElem?_getD]

/-- A credit return that fits. -/
theorem creditArrives_credited {s : State} {c : CoreAt} {b : BitVec 128} {e : SendEp} (he : e = (s.core c).sendEp (creditEp b)) (hm : e.mcast = false)
    (hfit : e.credits + e.withheld + creditSlots b ≤ e.rslots + 1) :
    s.creditArrives c b = s.putCore c ((s.core c).putSend (creditEp b) (e.credited (creditSlots b))) := by
  subst he
  unfold State.creditArrives
  dsimp only
  rw [if_neg (by rw [hm]; exact Bool.false_ne_true), if_neg (Nat.not_lt.2 hfit)]

/-- A credit return that would lift the credits above the ring's size. -/
theorem creditArrives_refused {s : State} {c : CoreAt} {b : BitVec 128} {e : SendEp} (he : e = (s.core c).sendEp (creditEp b)) (hm : e.mcast = false)
    (hover : e.rslots + 1 < e.credits + e.withheld + creditSlots b) :
    s.creditArrives c b = s.haltBy c fChannelProto 0 (s.clusterNamed (creditFrom s.pkg b)) := by
  subst he
  unfold State.creditArrives
  dsimp only
  rw [if_neg (by rw [hm]; exact Bool.false_ne_true), if_pos hover]

/-- A credit return of target `j` of a group that fits. -/
theorem creditArrives_target {s : State} {c : CoreAt} {b : BitVec 128} {e : SendEp} {j : Nat} (he : e = (s.core c).sendEp (creditEp b))
    (hm : e.mcast = true) (hj : (s.targetsOf c e).findIdx? (fun t => decide (t = creditFrom s.pkg b)) = some j)
    (hfit : e.tcredits.getD j 0 + e.twithheld.getD j 0 + creditSlots b ≤ e.rslots + 1) :
    s.creditArrives c b = s.putCore c ((s.core c).putSend (creditEp b) (e.creditedBy j (creditSlots b))) := by
  subst he
  unfold State.creditArrives
  dsimp only
  rw [if_pos hm, hj]
  exact if_neg (Nat.not_lt.2 hfit)

theorem exec_creditReturn {s : State} {c : CoreAt} {b : BitVec 128} (hw : s.waits (s.isFor c 1 (b.setWidth 256) []) c.core.val = false) :
    exec (.creditReturn c b) s = .next ((s.arrived (s.isFor c 1 (b.setWidth 256) []) c.core.val).creditArrives c b) :=
  congrArg Host.Outcome.next (onArrival_taken _ hw)

/-! ### The obligation -/

/-- Settles O17: each arrival taken, kept or refused, by what it leaves of its core and its cluster. -/
theorem channelArrivalsLand : Obligations.ChannelArrivalsLand := by
  refine ⟨?record, ?segment, ?credit⟩
  case record =>
    intro c h payload s x e f hx he hoff hf
    subst hx he hf
    have taken (hroom : (s.core c).fabricRoom 1 = true) (hw : s.waits (s.isFor c 0 (h.setWidth 256) payload) c.core.val = false) :
        exec (.channelRecordArrival c h payload) s =
          .next ((s.arrived (s.isFor c 0 (h.setWidth 256) payload) c.core.val).recordArrives c h payload) :=
      congrArg Host.Outcome.next (onQueue_taken _ hroom hw)
    refine ⟨fun hk => congrArg Host.Outcome.next (onQueue_kept _ hoff hk), fun hroom hw ht => ?_, fun hroom hw ht hrun => ?_⟩
    · rw [taken hroom hw, recordArrives_taken (by rwa [offline_arrived]) (by rwa [core_arrived]) (by rwa [core_arrived]), core_arrived, now_arrived]
      refine ⟨_, rfl, ?_⟩
      rw [State.core_putCore_same]
      refine ⟨SMap.get_set_same _ _ _ _, rfl, fun j hj => SMap.get_set_ne _ _ _ hj, rfl, rfl, rfl, ?_, ?_⟩
      · exact State.arrived_clusters _ _ _
      · exact State.arrived_deep _ _ _
    · rw [taken hroom hw, recordArrives_refused (by rwa [offline_arrived]) (by rwa [core_arrived])]
      refine ⟨_, rfl, ?_⟩
      rw [haltBy_cluster _ _ _ (by rwa [cluster_arrived]), haltBy_cores, State.arrived_cores]
      exact ⟨rfl, rfl, rfl⟩
  case segment =>
    intro c h seg s x e base hx he hoff hroom hw hv hty hk hc hs hf hl hb
    subst hx hb
    have taken : exec (.tileSegmentArrival c h seg) s = .next ((s.arrived (s.isFor c 0 (h.setWidth 256) seg) c.core.val).landSegment c
        (hdrEp h) seg (fun _ frame => withFrame h frame) (some h) (s.injectedIn (s.isFor c 0 (h.setWidth 256) seg) c.core.val)).1 :=
      congrArg Host.Outcome.next ((onQueue_taken _ hroom hw).trans
        (segmentArrives_checked _ (by rwa [offline_arrived]) (by rwa [core_arrived]) hv hty hk hc hs hf hl))
    refine ⟨fun hd hrun => ?_, fun w hd hok hseg hlog hr hun => ?_⟩
    · rw [taken, landSegment_failed _ _ _ hd, core_arrived]
      dsimp only
      refine ⟨_, rfl, ?_⟩
      rw [haltBy_cluster _ _ _ (by rwa [State.cluster_putCore, cluster_arrived]), haltBy_core]
      exact ⟨rfl, rfl, State.core_putCore_same _ _ _⟩
    · rw [taken, landSegment_landed _ _ _ (by rwa [core_arrived]) (by rwa [core_arrived]) hd hok hseg hlog hr hun, core_arrived, now_arrived]
      dsimp only
      refine ⟨_, rfl, ?_⟩
      rw [State.core_putCore_same]
      exact ⟨SMap.get_set_same _ _ _ _, rfl, rfl, rfl, State.arrived_clusters _ _ _, State.arrived_deep _ _ _⟩
  case credit =>
    intro c b s x e hx he hw
    subst hx
    rw [exec_creditReturn hw]
    refine ⟨fun hm hfit hz => ?_, fun j hm hj hz hfit hlen => ?_, fun hm hover hrun => ?_⟩
    · rw [creditArrives_credited (by rwa [core_arrived]) hm hfit, core_arrived, credited_of_nothing_withheld _ hz]
      refine ⟨_, rfl, ?_⟩
      rw [State.core_putCore_same]
      exact ⟨SMap.get_set_same _ _ _ _, fun j hj => SMap.get_set_ne _ _ _ hj, rfl, State.arrived_clusters _ _ _⟩
    · rw [creditArrives_target (by rwa [core_arrived]) hm (by rwa [targetsOf_arrived, State.arrived_pkg]) hfit, core_arrived]
      refine ⟨_, rfl, ?_⟩
      have he' : ((s.core c).putSend (creditEp b) (e.creditedBy j (creditSlots b))).sendEp (creditEp b) = e.creditedBy j (creditSlots b) :=
        SMap.get_set_same _ _ _ _
      have ht : (e.creditedBy j (creditSlots b)).tcredits = creditAt j (creditSlots b) e.tcredits := by simp [SendEp.creditedBy, hz]
      rw [State.core_putCore_same, he', ht]
      refine ⟨?_, fun i hi => ?_, State.arrived_clusters _ _ _⟩
      · rw [getD_creditAt, if_pos ⟨rfl, hlen⟩]
      · rw [getD_creditAt, if_neg fun hn => hi hn.1]
    · rw [creditArrives_refused (by rwa [core_arrived]) hm hover]
      refine ⟨_, rfl, ?_⟩
      rw [haltBy_cluster _ _ _ (by rwa [cluster_arrived]), haltBy_cores]
      exact ⟨State.arrived_cores _ _ _, rfl, rfl⟩

end Sys2Proof.Machine

/-! PROOFS. Remote requests at their target and the host window (R72, R93, R241, R242, R245, R246, R304). -/

namespace Sys2Proof

theorem SMap.getRun_setRun_same {α : Type} [DecidableEq α] (d : α) (m : SMap α) (k : Nat) (vs : List α) :
    getRun d (setRun d m k vs) k vs.length = vs := by
  refine List.ext_getElem (by simp [getRun]) fun i h₁ h₂ => ?_
  simp only [getRun]
  rw [List.getElem_map, List.getElem_range, get_setRun_in d m k vs i h₂, List.getD_eq_getElem _ _ h₂]

end Sys2Proof

namespace Sys2Proof.Machine

/-! ### Answers leave the counters alone (R245) -/

theorem answer_ctr (s : State) (c : CoreAt) (p : Packet) (txn : Option Nat) : (s.answer c p txn).ctr = s.ctr := by
  unfold State.answer
  dsimp only
  split
  · rfl
  · unfold State.injectAny State.toPackage
    dsimp only
    split
    · rfl
    · rfl

/-- A refused request is counted, and answered (R245). -/
theorem denied_answer (s : State) (c : CoreAt) (p : Packet) (txn : Option Nat) :
    ((s.denied c).answer c p txn).cores = s.cores ∧ ((s.denied c).answer c p txn).ctr = (s.count 1 (coreUnit c) 0 5).ctr :=
  ⟨(sendsOnly_answer _ _ _ _).cores, answer_ctr _ _ _ _⟩

theorem count_arrived (s : State) (f : Packet → Bool) (i group unit sub n : Nat) : ((s.arrived f i).count group unit sub n).ctr = (s.count group unit sub n).ctr := by
  rw [State.count, State.counter, State.arrived_ctr]
  rfl

/-- An access of a request for which there is room. -/
theorem toFabric_of_room {s : State} {c : CoreAt} (ops : List FabricOp) (fin : FabricEnd) (txn : Option Nat) (h : (s.core c).fabricRoom 1 = true) :
    s.toFabric c ops fin txn = s.putCore c { s.core c with
      fqBulk := (s.core c).fqBulk ++ [{ ops := ops, fin := fin, cycle := s.now c, txn := txn }] } := by
  rw [State.toFabric, State.modCore, enqueue_bulk_of_room h]

/-! ### Requests at their target (R245) -/

section
variable {s : State} {c : CoreAt} {a : BitVec 256} (txn : Option Nat) (hoff : s.offline (clusterOf c) = false)
include hoff

theorem writeArrives_admitted (data : Bytes) (h : (s.core c).admits 125 (faOffset (accFA a)) (accLength a) (accSrc a) = true) :
    s.writeArrives c a data txn = s.toFabric c (writeOps (faOffset (accFA a)) (data.take (accLength a))) (.written a) txn := by
  rw [State.writeArrives, hoff, h]
  rfl

theorem writeArrives_denied (data : Bytes) (h : (s.core c).admits 125 (faOffset (accFA a)) (accLength a) (accSrc a) = false) :
    s.writeArrives c a data txn = (s.denied c).ackWrite c a 1 txn := by
  rw [State.writeArrives, hoff, h]
  rfl

theorem readArrives_admitted (h : (s.core c).admits 126 (faOffset (accFA a)) (accLength a) (accSrc a) = true) :
    s.readArrives c a txn = s.toFabric c (readOps (faOffset (accFA a)) (accLength a)) (.replied a) txn := by
  rw [State.readArrives, hoff, h]
  rfl

theorem readArrives_denied (h : (s.core c).admits 126 (faOffset (accFA a)) (accLength a) (accSrc a) = false) :
    s.readArrives c a txn = (s.denied c).replyTo c a 1 0 [] txn := by
  rw [State.readArrives, hoff, h]
  rfl

theorem atomicArrives_admitted
    (h : (s.core c).admits 124 (atomicWindow (faOffset (accFA a)) a).1 (atomicWindow (faOffset (accFA a)) a).2 (accSrc a) = true)
    (hal : faOffset (accFA a) % atopAlign (accAtop a).toNat = 0) :
    s.atomicArrives c a txn = s.toFabric c [.atomic (faOffset (accFA a)) (accAtop a) (accCond a) (accValue a)] (.replied a) txn := by
  rw [State.atomicArrives, hoff, h, hal]
  rfl

theorem atomicArrives_denied
    (h : (s.core c).admits 124 (atomicWindow (faOffset (accFA a)) a).1 (atomicWindow (faOffset (accFA a)) a).2 (accSrc a) = false) :
    s.atomicArrives c a txn = (s.denied c).replyTo c a 1 0 [] txn := by
  rw [State.atomicArrives, hoff, h]
  rfl

end

/-- A request of an admitted access: the core has one access more, and no cluster changes. -/
theorem toFabric_arrived {s : State} {c : CoreAt} (f : Packet → Bool) (i : Nat) (ops : List FabricOp) (fin : FabricEnd) (txn : Option Nat)
    (h : (s.core c).fabricRoom 1 = true) :
    ((s.arrived f i).toFabric c ops fin txn).core c =
      { s.core c with fqBulk := (s.core c).fqBulk ++ [{ ops := ops, fin := fin, cycle := s.now c, txn := txn }] } ∧
    ((s.arrived f i).toFabric c ops fin txn).clusters = s.clusters ∧ ((s.arrived f i).toFabric c ops fin txn).deep = s.deep := by
  rw [toFabric_of_room _ _ _ (by rwa [core_arrived]), State.core_putCore_same, core_arrived, now_arrived]
  exact ⟨rfl, State.arrived_clusters _ _ _, State.arrived_deep _ _ _⟩

/-- A refused request: nothing of the cores changes, and the refusal is counted. -/
theorem denied_arrived (s : State) (c : CoreAt) (f : Packet → Bool) (i : Nat) (p : Packet) (txn : Option Nat) :
    (((s.arrived f i).denied c).answer c p txn).cores = s.cores ∧
    (((s.arrived f i).denied c).answer c p txn).ctr = (s.count 1 (coreUnit c) 0 5).ctr := by
  obtain ⟨h1, h2⟩ := denied_answer (s.arrived f i) c p txn
  exact ⟨h1.trans (State.arrived_cores _ _ _), h2.trans (count_arrived _ _ _ _ _ _ _)⟩

/-! ### The bank operations of remote accesses (R93, R246) -/

theorem read_write_same (x : Core) (a : Nat) (b : Bytes) : (x.write a b).read a b.length = b := SMap.getRun_setRun_same _ _ _ _

theorem read_write_outside (x : Core) {a i : Nat} {b : Bytes} (h : i < a ∨ a + b.length ≤ i) : (x.write a b).read i 1 = x.read i 1 := by
  simp only [Core.read, SMap.getRun, List.range_one, List.map_cons, List.map_nil, Nat.add_zero]
  exact congrArg ([·]) (SMap.get_setRun_out 0 x.spad a b i h)

/-- What a core's scratchpad holds is all that a read of it sees. -/
theorem read_of_spad {x y : Core} (h : y.spad = x.spad) (a n : Nat) : y.read a n = x.read a n := by rw [Core.read, h]; rfl

theorem noteSofts_spad (l : List (Nat × Nat)) (x : Core) : (l.foldl (fun y p => y.noteSoft p.1 p.2) x).spad = x.spad := by
  induction l generalizing x with
  | nil => rfl
  | cons p l ih => exact ih _

theorem served_spad (x : Core) (running : Bool) (j : FabricJob) (o : FabricOp) : (x.served running j o).spad = (x.performOp j o).1.spad := by
  have hg (y : Core) (k : FabricJob) : (y.generate k).spad = y.spad := by
    unfold Core.generate
    split
    · rfl
    · rfl
  unfold Core.served
  dsimp only
  split
  · exact hg _ _
  · exact hg _ _

theorem performOp_write_spad (x : Core) (j : FabricJob) (a : Nat) (b : Bytes) : (x.performOp j (.write a b)).1.spad = (x.write a b).spad :=
  congrArg (fun m => SMap.setRun 0 m a b) (noteSofts_spad _ x)

/-- An atomic reads and writes the scratchpad alone. -/
theorem atomic_spad_of_spad {x y : Core} (h : y.spad = x.spad) (a : Nat) (op cond : BitVec 2) (v : BitVec 32) :
    (y.atomic a op cond v).1.spad = (x.atomic a op cond v).1.spad := by
  have hw (b : Nat) (d : Bytes) : (y.write b d).spad = (x.write b d).spad := congrArg (fun m => SMap.setRun 0 m b d) h
  unfold Core.atomic
  simp only [read_of_spad h]
  split
  · exact hw _ _
  · dsimp only
    split
    · exact hw _ _
    · exact h
  · exact hw _ _

theorem performOp_atomic_spad (x : Core) (j : FabricJob) (a : Nat) (op cond : BitVec 2) (v : BitVec 32) :
    (x.performOp j (.atomic a op cond v)).1.spad = (x.atomic a op cond v).1.spad := atomic_spad_of_spad (noteSofts_spad _ x) _ _ _ _

/-- An access of a request ends with its answer (R241, R242). -/
theorem fabricDone_answered {j : FabricJob} {a : BitVec 256} (s : State) (c : CoreAt) (h : j.fin = .written a ∨ j.fin = .replied a) :
    s.sendsOnly (s.fabricDone c j) := by
  rcases h with h | h
  · rw [State.fabricDone, h]
    dsimp only
    rw [State.fabricEnd, h]
    exact sendsOnly_answer _ _ _ _
  · rw [State.fabricDone, h]
    dsimp only
    rw [State.fabricEnd, h]
    dsimp only
    unfold State.sendReply
    split
    · exact sendsOnly_answer _ _ _ _
    · exact sendsOnly_answer _ _ _ _

/-- The one bank operation of a request: the scratchpad is as the operation leaves it, and no cluster and nothing of deep memory changes. -/
theorem exec_fabricAccess_answered {s : State} {c : CoreAt} {q : Nat} {j : FabricJob} {o : FabricOp} {a : BitVec 256}
    (hw : s.fabricWorks c = true) (hu : (s.core c).fabUsed = false) (hg : (s.core c).generating = []) (hp : s.fabricPick c = some (q, j))
    (hf : j.fin = .written a ∨ j.fin = .replied a) (ho : j.ops = [o]) (hb : (s.core c).opBad o = false) :
    ∃ t, exec (.fabricAccess c) s = .next t ∧ (t.core c).spad = ((s.core c).performOp j o).1.spad ∧ t.clusters = s.clusters ∧ t.deep = s.deep := by
  obtain ⟨u, hexec, hstate, hcore⟩ := exec_fabricAccess_last hw hu hg hp ho hb
  have hs := fabricDone_answered (j := { ((s.core c).performOp j o).2 with ops := [] }) (a := a) u c (by
    change ((s.core c).performOp j o).2.fin = _ ∨ ((s.core c).performOp j o).2.fin = _
    rwa [performOp_fin])
  refine ⟨_, hexec, ?_, ?_⟩
  · rw [hs.core, hcore, (fabricFrame_popHead _ q).2, served_spad]
  · rw [hs, hstate]
    exact ⟨rfl, rfl⟩

/-! ### The host window (R242, R304) -/

/-- The answer of the host interface die is one packet more. -/
theorem hostAnswer_frame (s : State) (p : Packet) :
    (s.hostAnswer p).cores = s.cores ∧ (s.hostAnswer p).out = s.out ∧ (s.hostAnswer p).deep = s.deep ∧ (s.hostAnswer p).host = s.host := by
  unfold State.hostAnswer
  split
  · exact ⟨rfl, rfl, rfl, rfl⟩
  · exact ⟨rfl, rfl, rfl, rfl⟩

theorem windowHolds_arrived (s : State) (f : Packet → Bool) (i : Nat) (a : BitVec 256) : (s.arrived f i).windowHolds a = s.windowHolds a := by
  rw [State.windowHolds, State.arrived_host]
  rfl

theorem windowAddr_arrived (s : State) (f : Packet → Bool) (i : Nat) (a : BitVec 256) : (s.arrived f i).windowAddr a = s.windowAddr a := by
  rw [State.windowAddr, State.arrived_host]
  rfl

theorem hostWriteArrives_held {s : State} {a : BitVec 256} (data : Bytes) (txn : Option Nat) (h : s.windowHolds a = true) :
    (s.hostWriteArrives a data txn).cores = s.cores ∧
    (s.hostWriteArrives a data txn).out = s.out ++ [.hostWrite (s.windowAddr a) (data.take (accLength a))] := by
  unfold State.hostWriteArrives
  dsimp only
  rw [if_pos h]
  exact ⟨(hostAnswer_frame _ _).1, (hostAnswer_frame _ _).2.1⟩

theorem hostWriteArrives_refused {s : State} {a : BitVec 256} (data : Bytes) (txn : Option Nat) (h : s.windowHolds a = false) :
    (s.hostWriteArrives a data txn).cores = s.cores ∧ (s.hostWriteArrives a data txn).out = s.out := by
  unfold State.hostWriteArrives
  dsimp only
  rw [h, if_neg Bool.false_ne_true]
  exact ⟨(hostAnswer_frame _ _).1, (hostAnswer_frame _ _).2.1⟩

/-- A read of host memory changes nothing that the statement names; one that fails is logged. -/
theorem hostReadArrives_frame (s : State) (a : BitVec 256) (hst : Option Bytes) (txn : Option Nat) :
    (s.hostReadArrives a hst txn).cores = s.cores ∧ (s.hostReadArrives a hst txn).out = s.out ∧ (s.hostReadArrives a hst txn).deep = s.deep := by
  unfold State.hostReadArrives
  extract_lets r t rep
  have ht : t.cores = s.cores ∧ t.out = s.out ∧ t.deep = s.deep := by
    simp only [t]
    split
    · exact ⟨rfl, rfl, rfl⟩
    · exact ⟨rfl, rfl, rfl⟩
  obtain ⟨h1, h2, h3⟩ := ht
  exact ⟨(hostAnswer_frame t _).1.trans h1, (hostAnswer_frame t _).2.1.trans h2, (hostAnswer_frame t _).2.2.1.trans h3⟩

theorem hostReadArrives_failed {s : State} {a : BitVec 256} (txn : Option Nat) (h : s.windowHolds a = true) :
    (s.hostReadArrives a none txn).host.aer = s.host.aer ++ [.window] := by
  unfold State.hostReadArrives
  dsimp only
  rw [h]
  exact congrArg HostIf.aer (hostAnswer_frame _ _).2.2.2

/-! ### The obligation -/

/-- Settles O18: requests at their target admitted or refused, the bank operations by what a read of the scratchpad then sees, the host window. -/
theorem remoteAccessesAndTheHostWindow : Obligations.RemoteAccessesAndTheHostWindow := by
  refine ⟨?target, ?bank, ?window⟩
  case target =>
    intro c a s x off n hx hoff hn hspace hon hroom
    subst hx hoff hn
    refine ⟨fun data f hf hw => ?_, fun hst f hf hw => ?_⟩
    · subst hf
      have written : exec (.remoteWrite c a data) s = .next ((s.arrived (s.isFor c 2 a data) c.core.val).writeArrives c a data
          (s.txnOf (s.isFor c 2 a data) c.core.val)) :=
        (if_neg hspace).trans (congrArg Host.Outcome.next (onQueue_taken _ hroom hw))
      rw [written]
      refine ⟨fun h => ?_, fun h => ?_⟩
      · rw [writeArrives_admitted _ (by rwa [offline_arrived]) _ (by rwa [core_arrived])]
        exact ⟨_, rfl, toFabric_arrived _ _ _ _ _ hroom⟩
      · rw [writeArrives_denied _ (by rwa [offline_arrived]) _ (by rwa [core_arrived])]
        exact ⟨_, rfl, denied_arrived _ _ _ _ _ _⟩
    · subst hf
      have read : exec (.remoteReadRequest c a hst) s = .next ((s.arrived (s.isFor c 3 a []) c.core.val).readArrives c a
          (s.txnOf (s.isFor c 3 a []) c.core.val)) :=
        (if_neg hspace).trans (congrArg Host.Outcome.next (onQueue_taken _ hroom hw))
      have atomic : exec (.remoteAtomicRequest c a) s = .next ((s.arrived (s.isFor c 3 a []) c.core.val).atomicArrives c a
          (s.txnOf (s.isFor c 3 a []) c.core.val)) := congrArg Host.Outcome.next (onQueue_taken _ hroom hw)
      rw [read, atomic]
      refine ⟨fun h => ?_, fun h => ?_, fun sp hsp h hal => ?_, fun sp hsp h => ?_⟩
      · rw [readArrives_admitted _ (by rwa [offline_arrived]) (by rwa [core_arrived])]
        exact ⟨_, rfl, toFabric_arrived _ _ _ _ _ hroom⟩
      · rw [readArrives_denied _ (by rwa [offline_arrived]) (by rwa [core_arrived])]
        exact ⟨_, rfl, denied_arrived _ _ _ _ _ _⟩
      · subst hsp
        rw [atomicArrives_admitted _ (by rwa [offline_arrived]) (by rwa [core_arrived]) hal]
        obtain ⟨h1, h2, -⟩ := toFabric_arrived (s.isFor c 3 a []) c.core.val [.atomic (faOffset (accFA a)) (accAtop a) (accCond a) (accValue a)]
          (.replied a) (s.txnOf (s.isFor c 3 a []) c.core.val) hroom
        exact ⟨_, rfl, h1, h2⟩
      · subst hsp
        rw [atomicArrives_denied _ (by rwa [offline_arrived]) (by rwa [core_arrived])]
        exact ⟨_, rfl, denied_arrived _ _ _ _ _ _⟩
  case bank =>
    intro c s x q j a hx hw hu hg hp hf
    subst hx
    refine ⟨fun o b ho hb => ?_, fun o cd v ho hb => ?_, fun o cd v ho hb => ?_, fun o cd v m ho hm hb => ?_⟩
    all_goals obtain ⟨t, ht, hspad, hk, hd⟩ := exec_fabricAccess_answered hw hu hg hp hf ho hb
    · exact ⟨t, ht, hspad.trans (performOp_write_spad _ _ _ _), hk, hd⟩
    · have hread := read_of_spad (hspad.trans (performOp_atomic_spad _ _ _ _ _ _))
      refine ⟨t, ht, ?_, fun b hb' => ?_, hk⟩
      · rw [hread]
        exact read_write_same (s.core c) o (leBytes 4 _)
      · rw [hread]
        exact read_write_outside _ hb'
    · have hread := read_of_spad (hspad.trans (performOp_atomic_spad _ _ _ _ _ _))
      have hres : ((s.core c).atomic o 1 cd v).1 = if condHolds cd (BitVec.ofNat 32 (leNat ((s.core c).read o 4))) v then
          (s.core c).write (o + 4) (leBytes 4 (BitVec.ofNat 32 (leNat ((s.core c).read (o + 4) 4)) + 1).toNat) else s.core c := rfl
      rw [hres] at hread
      refine ⟨t, ht, ?_, fun b hb' => ?_, hk⟩
      · rw [hread]
        split
        · exact read_write_same (s.core c) (o + 4) (leBytes 4 _)
        · rfl
      · rw [hread]
        split
        · exact read_write_outside _ hb'
        · rfl
    · subst hm
      have hread := read_of_spad (hspad.trans (performOp_atomic_spad _ _ _ _ _ _))
      refine ⟨t, ht, ?_, fun b hb' => ?_, hk⟩
      · rw [hread]
        exact read_write_same (s.core c) (o + 4 * (v.toNat % 16)) (leBytes 4 _)
      · rw [hread]
        exact read_write_outside _ hb'
  case window =>
    intro c a data hst s hspace hw hr
    have written : exec (.remoteWrite c a data) s = .next ((s.arrived (isForComp 3 0 2 a data)).hostWriteArrives a data
        (s.txnOf (isForComp 3 0 2 a data))) := (if_pos hspace).trans (congrArg Host.Outcome.next (onArrival_taken _ hw))
    have read : exec (.remoteReadRequest c a hst) s = .next ((s.arrived (isForComp 3 0 3 a [])).hostReadArrives a hst
        (s.txnOf (isForComp 3 0 3 a []))) := (if_pos hspace).trans (congrArg Host.Outcome.next (onArrival_taken _ hr))
    rw [written, read]
    refine ⟨fun h => ⟨_, rfl, ?_⟩, fun h => ⟨_, rfl, ?_⟩, ⟨_, rfl, ?_⟩⟩
    · obtain ⟨h1, h2⟩ := hostWriteArrives_held (s := s.arrived (isForComp 3 0 2 a data)) data (s.txnOf (isForComp 3 0 2 a data))
        (by rwa [windowHolds_arrived])
      exact ⟨h1.trans (State.arrived_cores _ _ _), by rw [h2, State.arrived_out, windowAddr_arrived]⟩
    · obtain ⟨h1, h2⟩ := hostWriteArrives_refused (s := s.arrived (isForComp 3 0 2 a data)) data (s.txnOf (isForComp 3 0 2 a data))
        (by rwa [windowHolds_arrived])
      exact ⟨h1.trans (State.arrived_cores _ _ _), h2.trans (State.arrived_out _ _ _)⟩
    · obtain ⟨h1, h2, h3⟩ := hostReadArrives_frame (s.arrived (isForComp 3 0 3 a [])) a hst (s.txnOf (isForComp 3 0 3 a []))
      refine ⟨h1.trans (State.arrived_cores _ _ _), h2.trans (State.arrived_out _ _ _), h3.trans (State.arrived_deep _ _ _), ?_⟩
      rintro h rfl
      rw [hostReadArrives_failed _ (by rwa [windowHolds_arrived]), State.arrived_host]
      rfl

end Sys2Proof.Machine

/-! PROOFS. Stress tests (R101, R103, R104, R368 to R371). `State.testView` is what a test rests on and what its verdict is noted in; the operations
on the test network, which are any that its tiles have, leave it alone, one lemma for each operation of the model. -/

namespace Sys2Proof.Machine

/-! ### What a test rests on -/

/-- What a cluster keeps of its tests: whether it is under one, a stress test, a void one, its last pass and its deferral. -/
structure TestRecord where
  testing : Bool
  stress : Bool
  void : Bool
  passed : Option (BitVec 64)
  deferred : Option Nat

/-- A cluster's own record of its tests. -/
def Cluster.testRecord (x : Cluster) : TestRecord := ⟨x.testing, x.stress, x.testVoid, x.passed, x.deferred⟩

/-- The job, the repair map, the time, Genhan's open tests and reports of tiles, and a cluster's record of its tests. -/
structure TestView where
  job : Job
  repairMap : SMap (BitVec 32)
  time : Time
  suspects : List (BitVec 16 × BitVec 48 × List ClusterAt × Bool)
  diags : List TileFail
  record : TestRecord

/-- The test view of a state, for one cluster. -/
def State.testView (s : State) (k : ClusterAt) : TestView :=
  ⟨s.job, s.repairMap, s.time, s.genhan.suspectTests, s.genhan.diags, (s.cluster k).testRecord⟩

section
variable (s : State) (k : ClusterAt) (c : CoreAt)

@[simp] theorem testView_putCore (x : Core) : (s.putCore c x).testView k = s.testView k := rfl
@[simp] theorem testView_modCore (f : Core → Core) : (s.modCore c f).testView k = s.testView k := rfl
@[simp] theorem testView_count (g u n m i : Nat) : (s.count g u n m i).testView k = s.testView k := rfl
@[simp] theorem testView_inject (p : Packet) : (s.inject c p).testView k = s.testView k := rfl
@[simp] theorem testView_injectUnit (j : ClusterAt) (p : Packet) : (s.injectUnit j p).testView k = s.testView k := rfl
@[simp] theorem testView_putStream (m n : Nat) (t : Stream) : (s.putStream m n t).testView k = s.testView k := rfl
@[simp] theorem testView_noteTile (a : BitVec 22) (v : BitVec 1280) : (s.noteTile a v).testView k = s.testView k := rfl
@[simp] theorem testView_tileInject (o : Fin 5) (p : Packet) : (s.tileInject c o p).testView k = s.testView k := rfl
@[simp] theorem testView_noteRed (j : ClusterAt) (h : BitVec 128) (v : BitVec 2) : (s.noteRed j h v).testView k = s.testView k := rfl
@[simp] theorem testView_countRecord (n m : Nat) : (s.countRecord c n m).testView k = s.testView k := rfl
@[simp] theorem testView_unitAccess (j : ClusterAt) (r : RedSt) (l : List FabricOp) (e : FabricEnd) :
    (s.unitAccess j r l e).testView k = s.testView k := rfl

end

theorem testView_of_sendsOnly {s t : State} (h : s.sendsOnly t) (k : ClusterAt) : t.testView k = s.testView k := by
  rw [h]
  rfl

/-- A change of a cluster that is none of its record of tests. -/
theorem testView_modCluster (s : State) (j k : ClusterAt) {f : Cluster → Cluster} (h : (f (s.cluster j)).testRecord = (s.cluster j).testRecord) :
    (s.modCluster j f).testView k = s.testView k := by
  have hk : ((s.modCluster j f).cluster k).testRecord = (s.cluster k).testRecord := by
    by_cases e : k = j
    · rw [e, State.cluster_modCluster_same, h]
    · rw [State.cluster_modCluster_ne s f e]
  unfold State.testView
  rw [hk]
  rfl

theorem testView_foldl {α : Type} {f : State → α → State} (k : ClusterAt) (h : ∀ s a, (f s a).testView k = s.testView k) (l : List α) (s : State) :
    (l.foldl f s).testView k = s.testView k := foldl_leaves (fun t => t.testView k) h l s

/-! ### Halts and answers -/

@[simp] theorem testView_haltOn (s : State) (j k : ClusterAt) (fs : List Raised) : (s.haltOn j fs).testView k = s.testView k := by
  unfold State.haltOn
  split
  · rfl
  · split
    · rfl
    · exact testView_modCluster s j k rfl

@[simp] theorem testView_haltBy (s : State) (k : ClusterAt) (c : CoreAt) (code : Nat) (d : BitVec 64) (j : Option ClusterAt) :
    (s.haltBy c code d j).testView k = s.testView k := testView_haltOn _ _ _ _

@[simp] theorem testView_countSoft (s : State) (k : ClusterAt) (c : CoreAt) (n : Nat) : (s.countSoft c n).testView k = s.testView k := by
  unfold State.countSoft
  split
  · rfl
  · rfl

section
variable (s : State) (k : ClusterAt) (c : CoreAt)

@[simp] theorem testView_answer (p : Packet) (txn : Option Nat) : (s.answer c p txn).testView k = s.testView k :=
  testView_of_sendsOnly (sendsOnly_answer s c p txn) k

@[simp] theorem testView_ackWrite (a : BitVec 256) (v : BitVec 4) (txn : Option Nat) : (s.ackWrite c a v txn).testView k = s.testView k :=
  testView_answer s k c _ _

@[simp] theorem testView_replyTo (a : BitVec 256) (v : BitVec 4) (p : BitVec 32) (b : Bytes) (txn : Option Nat) :
    (s.replyTo c a v p b txn).testView k = s.testView k := testView_answer s k c _ _

@[simp] theorem testView_ackRecord (h : BitVec 128) (v : BitVec 4) : (s.ackRecord c h v).testView k = s.testView k :=
  testView_of_sendsOnly (sendsOnly_ackRecord s c h v) k

end

/-! ### Streams and channels -/

theorem sendsOnly_moonSend (s : State) (m : Nat) (p : Packet) : s.sendsOnly (s.moonSend m p) := by
  unfold State.moonSend
  split
  · rfl
  · exact State.sendsOnly.refl s

theorem sendsOnly_streamCredit (s : State) (m : Nat) (t : Stream) (n : Nat) : s.sendsOnly (s.streamCredit m t n) := sendsOnly_moonSend _ _ _

theorem testView_pump (fuel : Nat) (s : State) (k : ClusterAt) (m n : Nat) : (s.pump fuel m n).testView k = s.testView k := by
  induction fuel generalizing s with
  | zero => rfl
  | succ f ih =>
    unfold State.pump
    dsimp only
    split
    · rfl
    · split
      · rfl
      · refine (ih _).trans ?_
        have sent (t : State) (p : Packet) := testView_of_sendsOnly (sendsOnly_moonSend t m p) k
        have credit (t : State) (x : Stream) := testView_of_sendsOnly (sendsOnly_streamCredit t m x 1) k
        split <;> split <;> simp [sent, credit]

@[simp] theorem testView_ringCredit (s : State) (k : ClusterAt) (m n v : Nat) : (s.ringCredit m n v).testView k = s.testView k :=
  (testView_pump _ _ k m n).trans rfl

@[simp] theorem testView_releaseRecs (s : State) (k : ClusterAt) (c : CoreAt) (ep n : Nat) : (s.releaseRecs c ep n).testView k = s.testView k := by
  have credits (t : State) (slots : Nat) : (t.returnCredits c ep slots).testView k = t.testView k := by
    unfold State.returnCredits
    dsimp only
    (repeat' split) <;> simp
  exact (credits _ _).trans rfl

@[simp] theorem testView_recorded (s : State) (k : ClusterAt) (c : CoreAt) (ep : Nat) (ack : Option (BitVec 128)) :
    (s.recorded c ep ack).testView k = s.testView k := by
  unfold State.recorded
  dsimp only
  split
  · simp
  · simp

@[simp] theorem testView_replied (s : State) (k : ClusterAt) (c : CoreAt) (ep n : Nat) (v : BitVec 4) :
    (s.replied c ep n v).testView k = s.testView k := rfl

@[simp] theorem testView_landSegment (s : State) (k : ClusterAt) (c : CoreAt) (ep : Nat) (seg : Bytes) (mk : RecvEp → Nat → BitVec 128)
    (ack : Option (BitVec 128)) (inj : Bool) : (s.landSegment c ep seg mk ack inj).1.testView k = s.testView k := by
  unfold State.landSegment
  dsimp only
  (repeat' split) <;> simp

@[simp] theorem testView_landClaims (s : State) (k : ClusterAt) (c : CoreAt) (ep : Nat) : (s.landClaims c ep).testView k = s.testView k := by
  have land (fuel : Nat) (s : State) : (s.landClaimsN fuel c ep).testView k = s.testView k := by
    induction fuel generalizing s with
    | zero => rfl
    | succ f ih =>
      unfold State.landClaimsN
      dsimp only
      split
      · rfl
      · next d _ =>
        have all (l : List (Bytes × Bool)) (p : State × Bool) :
            (l.foldl (fun p seg => if p.2 then p.1.landSegment c ep seg.1 (deliveryHeader ep) none seg.2 else p) p).1.testView k =
              p.1.testView k := by
          induction l generalizing p with
          | nil => rfl
          | cons a l ih =>
            refine (ih _).trans ?_
            dsimp only
            split
            · exact testView_landSegment _ _ _ _ _ _ _ _
            · rfl
        split
        · rfl
        · split
          · exact (ih _).trans ((all _ _).trans rfl)
          · exact (all _ _).trans rfl
  exact land _ s

@[simp] theorem testView_speculate (s : State) (k : ClusterAt) (c : CoreAt) (m n g need : Nat) (step : BitVec 16) (l : List Nat) :
    (s.speculate c m n g need step l).testView k = s.testView k := by
  induction l generalizing s with
  | nil => rfl
  | cons j l ih =>
    unfold State.speculate
    dsimp only
    refine (ih _).trans ?_
    split
    · rfl
    · rfl

@[simp] theorem testView_launchRecord (s : State) (k : ClusterAt) (c : CoreAt) (ep n a : Nat) (r : Option (Fin 16)) :
    (s.launchRecord c ep n a r).testView k = s.testView k := rfl

@[simp] theorem testView_sendTile (s : State) (k : ClusterAt) (c : CoreAt) (w : Word) : (s.sendTile c w).testView k = s.testView k := by
  unfold State.sendTile
  dsimp only
  split
  · rfl
  · rfl

@[simp] theorem testView_demandOp (s : State) (k : ClusterAt) (c : CoreAt) (w : Word) : (s.demandOp c w).testView k = s.testView k := by
  unfold State.demandOp
  extract_lets ep x e i m n t g step d u rc rep v hit z
  have hu : u.testView k = s.testView k := rfl
  clear_value u rc
  have hv : v.testView k = s.testView k := by
    cases rc with
    | none => exact hu
    | some r =>
      by_cases h : g = e.wpos
      · exact (congrArg (fun t => State.testView t k) (if_pos h)).trans hu
      · exact (congrArg (fun t => State.testView t k) (if_neg h)).trans hu
  clear_value v hit
  have hz : z.testView k = s.testView k := hv
  clear_value z
  cases rc with
  | none => exact hz
  | some r =>
    dsimp only
    rw [testView_speculate, testView_landClaims]
    cases hit with
    | none => exact hz
    | some b => exact hz

@[simp] theorem testView_closeOp (s : State) (k : ClusterAt) (c : CoreAt) (w : Word) : (s.closeOp c w).testView k = s.testView k := by
  unfold State.closeOp State.sendClose
  dsimp only
  (repeat' split) <;> rfl

@[simp] theorem testView_ceOf (s : State) (k : ClusterAt) (c : CoreAt) (w : Word) : (s.ceOf c w).testView k = s.testView k := by
  unfold State.ceOf
  split
  · dsimp only
    split
    · simp
    · split
      · rfl
      · simp
  · dsimp only
    split
    · simp
    · split
      · rfl
      · simp
  · rfl
  · simp
  · split
    · rfl
    · rfl
  · rfl
  · split
    · rfl
    · rfl
  · rfl
  · simp
  · rfl

/-! ### The reduction unit -/

@[simp] theorem testView_unitSend (s : State) (k j : ClusterAt) (kind : Nat) (dst : LCore) (l : BitVec 3) (h : BitVec 128) (b : Bytes) :
    (s.unitSend j kind dst l h b).testView k = s.testView k := rfl

theorem testRecord_putRed (x : Cluster) (i : Nat) (r : RedSt) : (x.putRed i r).testRecord = x.testRecord := rfl

@[simp] theorem testView_sendPartial (s : State) (k j : ClusterAt) (i : Fin 16) (n : Fin 2) : (s.sendPartial j i n).testView k = s.testView k := by
  unfold State.sendPartial State.readSlot
  dsimp only
  split
  · exact testView_modCluster s j k rfl
  · exact (testView_unitAccess _ k j _ _ _).trans (testView_modCluster s j k (by rfl))

@[simp] theorem testView_combined (s : State) (k j : ClusterAt) (i : Fin 16) (n : Fin 2) (h : BitVec 128) (l : BitVec 3) (a b : Bytes) :
    (s.combined j i n h l a b).testView k = s.testView k := by
  unfold State.combined
  extract_lets r nd src isLocal t v u entered kids full t'
  refine (testView_unitAccess _ _ _ _ _ _).trans ((testView_modCluster u j k (by rfl)).trans ?_)
  simp only [u]
  split
  · rfl
  · rfl

@[simp] theorem testView_returnChunk (s : State) (k j : ClusterAt) (i : Fin 16) (n : Fin 2) (h : BitVec 128) (b : Bytes) :
    (s.returnChunk j i n h b).testView k = s.testView k := by
  unfold State.returnChunk State.reduceProto
  extract_lets r cores h' s1 kids s2
  split
  · exact testView_haltBy _ _ _ _ _ _
  · refine (testView_unitAccess _ _ _ _ _ _).trans ((testView_modCluster s2 j k (by rfl)).trans ?_)
    refine (testView_foldl k (fun _ _ => ?_) _ _).trans (testView_foldl k (fun _ _ => ?_) _ _)
    · rfl
    · rfl

@[simp] theorem testView_startReturn (s : State) (k j : ClusterAt) (i : Fin 16) (n : Fin 2) (b : Bytes) :
    (s.startReturn j i n b).testView k = s.testView k := by
  have copy (t : State) (r : RedSt) (h : BitVec 128) : (t.copyDigest j r h b).testView k = t.testView k := by
    unfold State.copyDigest
    split
    · rfl
    · rfl
  unfold State.startReturn
  dsimp only
  rw [testView_returnChunk]
  split <;> split <;> simp [copy]

@[simp] theorem testView_redSlotWritten (s : State) (k j : ClusterAt) (i : Fin 16) (n : Fin 2) : (s.redSlotWritten j i n).testView k = s.testView k := by
  unfold State.redSlotWritten State.readSlot
  dsimp only
  (repeat' split) <;> simp

/-! ### The fabric side and the tiles -/

@[simp] theorem testView_fabricEnd (s : State) (k : ClusterAt) (c : CoreAt) (j : FabricJob) : (s.fabricEnd c j).testView k = s.testView k := by
  unfold State.fabricEnd
  split
  case h_1 ps seg rel _ =>
    have sent := testView_of_sendsOnly (sendsOnly_injects (sendPackets ps seg j.got) s c) k
    dsimp only
    split
    · rw [testView_releaseRecs, sent]
    · exact sent
  case h_4 =>
    unfold State.sendReply
    split
    · simp
    · simp
  all_goals simp [State.partialRead]

theorem testView_fabricBad (s : State) (k : ClusterAt) (c : CoreAt) (j : FabricJob) : (s.fabricBad c j).testView k = s.testView k := by
  unfold State.fabricBad
  dsimp only
  (repeat' split) <;> simp

theorem testView_fabricStep (s : State) (k : ClusterAt) (c : CoreAt) (q : Nat) (j : FabricJob) :
    (s.fabricStep c q j).testView k = s.testView k := by
  have done (t : State) (j : FabricJob) : (t.fabricDone c j).testView k = t.testView k := by
    unfold State.fabricDone
    split
    · rfl
    · simp
  unfold State.fabricStep
  dsimp only
  (repeat' split) <;> simp [done, testView_fabricBad]

theorem testView_fabricDry (fuel : Nat) (s : State) (k : ClusterAt) (c : CoreAt) : (s.fabricDry fuel c).testView k = s.testView k := by
  induction fuel generalizing s with
  | zero => rfl
  | succ n ih =>
    unfold State.fabricDry
    split
    · exact (ih _).trans ((testView_fabricEnd _ _ _ _).trans rfl)
    · exact (ih _).trans (testView_fabricStep _ _ _ _ _)
    · rfl

theorem testView_dryCycle (s : State) (k : ClusterAt) (c : CoreAt) (t : Nat) : (s.dryCycle c t).testView k = s.testView k :=
  (testView_countSoft _ _ _ _).trans rfl

theorem testView_runDry (s : State) (k : ClusterAt) (c : CoreAt) (t : Nat) : (s.runDry c t).testView k = s.testView k :=
  testView_foldl (f := fun s i => s.dryCycle c (t + i)) k (fun _ _ => testView_dryCycle _ _ _ _) _ _

theorem testView_hopOf (s : State) (k : ClusterAt) (c : CoreAt) (w : Word) (t : Nat) (o : Fin 16) : (s.hopOf c w t o).testView k = s.testView k := by
  have there (u : State) (d : BitVec 256) : (u.toNeighbour c o d t).testView k = u.testView k := by
    unfold State.toNeighbour
    split
    · rfl
    · rfl
  unfold State.hopOf
  dsimp only
  (repeat' split) <;> simp [testView_dryCycle, there]

theorem testView_tileIssue (s : State) (k : ClusterAt) (c : CoreAt) (i : Fin 4) (w : Word) : (s.tileIssue c i w).testView k = s.testView k := by
  unfold State.tileIssue
  dsimp only
  split
  · rw [testView_runDry, testView_modCore]
  · rw [testView_runDry, testView_modCore]
  · rw [testView_runDry, testView_modCore]
  · rw [testView_fabricDry, testView_runDry, testView_foldl k fun _ _ => testView_hopOf _ _ _ _ _ _, testView_ceOf]

theorem testView_tileCapture (s : State) (k : ClusterAt) (a : BitVec 22) (c : CoreAt) (o : Fin 5) : (s.tileCapture a c o).testView k = s.testView k := by
  have free (t : State) (p : Packet) : (t.freeFlits p 1).testView k = t.testView k := by
    unfold State.freeFlits
    split
    · rfl
    · rfl
  unfold State.tileCapture
  split
  · rfl
  · exact (free _ _).trans rfl

theorem testView_tileDo (s : State) (k : ClusterAt) (a : BitVec 22) (o : TileOp) : (s.tileDo a o).testView k = s.testView k := by
  unfold State.tileDo
  dsimp only
  (repeat' split) <;> simp [testView_tileIssue, testView_tileCapture]

/-- The operations of a test change nothing that its verdict rests on. -/
theorem testView_tileRun (s : State) (k : ClusterAt) (l : List (BitVec 22 × TileOp)) : (s.tileRun l).testView k = s.testView k :=
  testView_foldl k (fun _ _ => testView_tileDo _ _ _ _) l s

/-! ### QUIESCE, voltages and the reset state -/

theorem testView_raiseEvent (s : State) (k : ClusterAt) (code : Nat) (src : Option LCore) (d : Bytes) :
    (s.raiseEvent code src d).testView k = s.testView k := by
  simp only [State.testView, State.cluster, State.raiseEvent_job, State.raiseEvent_repairMap, State.raiseEvent_time, State.raiseEvent_genhan,
    State.raiseEvent_clusters]

theorem testView_setQuiesce (s : State) (j k : ClusterAt) (q : Bool) : (s.setQuiesce (.cluster j) q).testView k = s.testView k :=
  testView_modCluster s j k (by rfl)

theorem testView_flushPart (s : State) (k : ClusterAt) (p : Part) : (s.flushPart p).testView k = s.testView k := by
  have refused (u : State) (c : CoreAt) (j : FabricJob) : (u.refuseJob c j).testView k = u.testView k := by
    unfold State.refuseJob State.finishWrite
    (repeat' split) <;> simp
  exact testView_foldl (f := State.flushCore) k (fun _ c => (testView_foldl k (fun u j => refused u c j) _ _).trans rfl) _ _

theorem testView_enterQuiesce (s : State) (j k : ClusterAt) : (s.enterQuiesce (.cluster j)).testView k = s.testView k :=
  calc (s.enterQuiesce (.cluster j)).testView k
    _ = (((s.setQuiesce (.cluster j) true).quiesceEvent (.cluster j) false).flushPart (.cluster j)).testView k := rfl
    _ = ((s.setQuiesce (.cluster j) true).quiesceEvent (.cluster j) false).testView k := testView_flushPart _ _ _
    _ = (s.setQuiesce (.cluster j) true).testView k := testView_raiseEvent _ _ _ _ _
    _ = s.testView k := testView_setQuiesce s j k true

/-- A cluster in QUIESCE takes no request; the cores of other clusters stay. -/
theorem enterQuiesce_cluster (s : State) (k : ClusterAt) :
    ((s.enterQuiesce (.cluster k)).cluster k).quiesced = true ∧
    ∀ c : CoreAt, clusterOf c ≠ k → (s.enterQuiesce (.cluster k)).core c = s.core c := by
  have hq : (((s.setQuiesce (.cluster k) true).quiesceEvent (.cluster k) false).cluster k).quiesced = true :=
    (congrArg (fun m => (SMap.get ({} : Cluster) m (clusterKey k)).quiesced) (State.raiseEvent_clusters _ _ _ _)).trans
      (congrArg Cluster.quiesced (State.cluster_modCluster_same s k _))
  have hc : ((s.setQuiesce (.cluster k) true).quiesceEvent (.cluster k) false).cores = s.cores := State.raiseEvent_cores _ _ _ _
  generalize ht : (s.setQuiesce (.cluster k) true).quiesceEvent (.cluster k) false = t at hq hc
  have he : s.enterQuiesce (.cluster k) = (t.flushPart (.cluster k)).fence (.cluster k) := by rw [← ht]; rfl
  obtain ⟨hother, -, hcl, -⟩ := flushCores_spec
    ((t.cores.filterMap fun q => coreAtKey q.1).filter fun c => partHas (.cluster k) (clusterOf c) && !(t.core c).fabricJobs.isEmpty) t
  rw [he]
  refine ⟨(congrArg (fun m => (SMap.get ({} : Cluster) m (clusterKey k)).quiesced) hcl).trans hq, fun c hne => ?_⟩
  refine (hother c fun hm => hne ?_).trans (congrArg (fun m => SMap.get ({} : Core) m (coreKey c)) hc)
  have hp : partHas (.cluster k) (clusterOf c) = true := (Bool.and_eq_true_iff.1 (List.mem_filter.1 hm).2).1
  exact (of_decide_eq_true hp).symm

theorem setVoltages_cores (s : State) : s.setVoltages.cores = s.cores := by
  have trim (u : State) (j : ClusterAt) : (u.setTrim j).cores = u.cores := by
    unfold State.setTrim
    dsimp only
    split
    · rfl
    · rfl
  refine (foldl_leaves State.cores trim _ _).trans (foldl_leaves State.cores (fun t d => ?_) _ s)
  split
  · rfl
  · rfl

/-- Setting the voltages changes of a cluster its trim, and whether its test is void. -/
theorem setVoltages_cluster {β : Type} (g : Cluster → β) (h : ∀ x t v, g { x with trim := t, testVoid := v } = g x) (s : State) (k : ClusterAt) :
    g (s.setVoltages.cluster k) = g (s.cluster k) := by
  have mod (u : State) (j : ClusterAt) (f : Cluster → Cluster) (hf : ∀ x, g (f x) = g x) : g ((u.modCluster j f).cluster k) = g (u.cluster k) := by
    by_cases e : k = j
    · rw [e, State.cluster_modCluster_same, hf]
    · rw [State.cluster_modCluster_ne u f e]
  have trim (u : State) (j : ClusterAt) : g ((u.setTrim j).cluster k) = g (u.cluster k) := by
    unfold State.setTrim
    dsimp only
    split
    · exact mod u j _ fun x => h x x.trim true
    · exact mod u j _ fun x => h x _ _
  refine (foldl_leaves (fun u => g (u.cluster k)) trim _ _).trans (foldl_leaves (fun u => g (u.cluster k)) (fun t d => ?_) _ s)
  split
  · rfl
  · rfl

/-- A change of another cluster. -/
theorem testView_modCluster_ne (s : State) {j k : ClusterAt} (f : Cluster → Cluster) (h : k ≠ j) :
    (s.modCluster j f).testView k = s.testView k := by
  unfold State.testView
  rw [State.cluster_modCluster_ne s f h]
  rfl

theorem testView_setTrims (l : List ClusterAt) (s : State) {k : ClusterAt} (h : k ∉ l) : (l.foldl State.setTrim s).testView k = s.testView k := by
  induction l generalizing s with
  | nil => rfl
  | cons j l ih =>
    obtain ⟨hj, hl⟩ := not_or.1 (mt List.mem_cons.2 h)
    refine (ih _ hl).trans ?_
    unfold State.setTrim
    dsimp only
    split
    · exact testView_modCluster_ne s _ hj
    · exact testView_modCluster_ne s _ hj

/-- Setting the voltages leaves a cluster that is not under test alone. -/
theorem testView_setVoltages (s : State) {k : ClusterAt} (h : (s.cluster k).testing = false) : s.setVoltages.testView k = s.testView k := by
  unfold State.setVoltages
  extract_lets ks t
  have ht : t.testView k = s.testView k := by
    refine testView_foldl k (fun u d => ?_) _ s
    split
    · rfl
    · rfl
  clear_value t
  have hk : (t.cluster k).testing = false := by
    have e : (t.cluster k).testing = (s.cluster k).testing := congrArg (·.record.testing) ht
    exact e.trans h
  refine (testView_setTrims _ t fun hm => ?_).trans ht
  have := (List.mem_filter.1 hm).2
  rw [hk] at this
  exact Bool.false_ne_true this

theorem core_modCore_all (x : Core) (l : List CoreAt) (s : State) (c : CoreAt) (h : s.core c = x ∨ c ∈ l) :
    (l.foldl (fun s e => s.modCore e fun _ => x) s).core c = x := by
  induction l generalizing s with
  | nil => exact h.resolve_right List.not_mem_nil
  | cons e l ih =>
    refine ih _ ?_
    by_cases he : c = e
    · exact .inl (by rw [he]; exact State.core_modCore_same s e _)
    · rcases h with h | h
      · exact .inl ((State.core_modCore_ne s _ he).trans h)
      · exact .inr ((List.mem_cons.1 h).resolve_left he)

/-- The cores of a cleared cluster hold the reset state. -/
theorem core_clearCluster (s : State) (k : ClusterAt) (i : Fin 64) : (s.clearCluster k).core (coreIn k i) = {} := by
  unfold State.clearCluster
  dsimp only
  rw [State.core_modCluster]
  exact core_modCore_all {} (coresOf k) s (coreIn k i) (.inr (List.mem_map.2 ⟨i, List.mem_finRange i, rfl⟩))

theorem testView_clearCores (s : State) (j k : ClusterAt) : (s.modCores j fun _ _ => {}).testView k = s.testView k :=
  testView_foldl (f := fun s c => s.modCore c fun _ => {}) k (fun _ _ => rfl) _ _

theorem testView_clearCluster_ne (s : State) {j k : ClusterAt} (h : k ≠ j) : (s.clearCluster j).testView k = s.testView k := by
  unfold State.clearCluster
  dsimp only
  rw [testView_modCluster_ne _ _ h, testView_clearCores s j k]

/-- A cleared cluster is under no test; the count of its passes and deferrals stays. -/
theorem testRecord_clearCluster (s : State) (k : ClusterAt) :
    ((s.clearCluster k).cluster k).testRecord = ⟨false, false, false, (s.cluster k).passed, (s.cluster k).deferred⟩ := by
  have hc : ((s.modCores k fun _ _ => {}).cluster k).testRecord = (s.cluster k).testRecord := congrArg TestView.record (testView_clearCores s k k)
  have hp : ((s.modCores k fun _ _ => {}).cluster k).passed = (s.cluster k).passed := congrArg TestRecord.passed hc
  have hd : ((s.modCores k fun _ _ => {}).cluster k).deferred = (s.cluster k).deferred := congrArg TestRecord.deferred hc
  unfold State.clearCluster
  dsimp only
  rw [State.cluster_modCluster_same, ← hp, ← hd]
  rfl

/-! ### A test begins -/

/-- The cluster of a test, once it is in QUIESCE: in diagnostic fabric mode. -/
def Cluster.underTest (x : Cluster) (stress : Bool) : Cluster :=
  { x with testing := true, stress := stress, diag := true, gated := false, stallLine := false, testVoid := false }

/-- A stress test that has room begins. -/
theorem startTest_eq (s : State) (k : ClusterAt) (h : s.testsOn k.die < 8) :
    s.startTest true k = ((if (s.cluster k).quiesced then s else s.enterQuiesce (.cluster k)).modCluster k (·.underTest true)).setVoltages :=
  (if_neg (by omega)).trans (if_pos rfl)

theorem startTest_spec (s : State) (k : ClusterAt) (h : s.testsOn k.die < 8) :
    ((s.startTest true k).cluster k).testing = true ∧ ((s.startTest true k).cluster k).stress = true ∧
    ((s.startTest true k).cluster k).diag = true ∧ ((s.startTest true k).cluster k).quiesced = true ∧
    ∀ c : CoreAt, clusterOf c ≠ k → (s.startTest true k).core c = s.core c := by
  rw [startTest_eq s k h]
  have hq : ((if (s.cluster k).quiesced then s else s.enterQuiesce (.cluster k)).cluster k).quiesced = true ∧
      ∀ c : CoreAt, clusterOf c ≠ k → (if (s.cluster k).quiesced then s else s.enterQuiesce (.cluster k)).core c = s.core c := by
    split
    case isTrue hq => exact ⟨hq, fun _ _ => rfl⟩
    case isFalse => exact enterQuiesce_cluster s k
  generalize (if (s.cluster k).quiesced then s else s.enterQuiesce (.cluster k)) = t at hq ⊢
  obtain ⟨hquiet, hcores⟩ := hq
  have v : (fun x : Cluster => (x.testing, x.stress, x.diag, x.quiesced)) ((t.modCluster k (·.underTest true)).setVoltages.cluster k) =
      (true, true, true, true) := by
    refine (setVoltages_cluster (fun x : Cluster => (x.testing, x.stress, x.diag, x.quiesced)) (fun _ _ _ => rfl) _ k).trans ?_
    rw [State.cluster_modCluster_same]
    exact congrArg (fun q => (true, true, true, q)) hquiet
  simp only [Prod.mk.injEq] at v
  obtain ⟨htesting, hstress, hdiag, hquiesced⟩ := v
  refine ⟨htesting, hstress, hdiag, hquiesced, fun c hc => ?_⟩
  exact (congrArg (fun m => SMap.get ({} : Core) m (coreKey c)) (setVoltages_cores _)).trans (hcores c hc)

/-! ### A test ends -/

/-- A cluster after its test: in the reset state, back from QUIESCE unless it failed, with the voltages set again. -/
def State.testLeft (s : State) (k : ClusterAt) (failed : Bool) : State :=
  (if failed then s.clearCluster k else (s.clearCluster k).returnPart (.cluster k)).setVoltages

theorem endTest_eq (s : State) (k : ClusterAt) (v : Verdict) (h : (s.cluster k).stress = true) :
    s.endTest k v = ((s.testLeft k (verdictFailed (s.ruled k v))).testEvent k (s.ruled k v)).noteVerdict true k (s.ruled k v) := by
  unfold State.endTest State.testLeft
  extract_lets stress w t u z
  have hs : stress = true := h
  have hz : z = u.setVoltages := if_pos hs
  have hu : u = if verdictFailed w then t else t.returnPart (.cluster k) := by
    simp only [u]
    cases w with
    | pass => rfl
    | void => rfl
    | fail c kd out => rfl
  rw [hs, hz, hu]

theorem returnPart_cluster (s : State) (j k : ClusterAt) :
    (s.returnPart (.cluster j)).testView k = s.testView k ∧ (s.returnPart (.cluster j)).cores = s.cores := by
  unfold State.returnPart
  dsimp only
  split
  · exact ⟨rfl, rfl⟩
  · exact ⟨(testView_raiseEvent _ k _ _ _).trans ((testView_setQuiesce _ j k false).trans rfl), (State.raiseEvent_cores _ _ _ _).trans rfl⟩

/-- What a test leaves: the cores in the reset state, the cluster under no test, and the counts of its passes and deferrals as before. -/
structure TestLeft (k : ClusterAt) (s t : State) : Prop where
  cores : ∀ i, t.core (coreIn k i) = {}
  job : t.job = s.job
  repairMap : t.repairMap = s.repairMap
  time : t.time = s.time
  suspects : t.genhan.suspectTests = s.genhan.suspectTests
  diags : t.genhan.diags = s.genhan.diags
  record : (t.cluster k).testRecord = ⟨false, false, false, (s.cluster k).passed, (s.cluster k).deferred⟩

theorem clearCluster_frame (s : State) (k : ClusterAt) :
    (s.clearCluster k).job = s.job ∧ (s.clearCluster k).repairMap = s.repairMap ∧ (s.clearCluster k).time = s.time ∧
    (s.clearCluster k).genhan.suspectTests = s.genhan.suspectTests ∧ (s.clearCluster k).genhan.diags = s.genhan.diags := by
  have h := testView_clearCores s k k
  simp only [State.testView, TestView.mk.injEq] at h
  obtain ⟨hj, hm, ht, hs, hd, -⟩ := h
  unfold State.clearCluster
  simp only [State.modCluster_job, State.modCluster_repairMap, State.modCluster_time, State.modCluster_genhan]
  exact ⟨hj, hm, ht, hs, hd⟩

theorem testLeft_spec (s : State) (k : ClusterAt) (failed : Bool) : TestLeft k s (s.testLeft k failed) := by
  have hv : (if failed then s.clearCluster k else (s.clearCluster k).returnPart (.cluster k)).testView k = (s.clearCluster k).testView k ∧
      (if failed then s.clearCluster k else (s.clearCluster k).returnPart (.cluster k)).cores = (s.clearCluster k).cores := by
    split
    · exact ⟨rfl, rfl⟩
    · exact returnPart_cluster _ _ _
  have hclear := core_clearCluster s k
  have hrec := testRecord_clearCluster s k
  have hcl := clearCluster_frame s k
  unfold State.testLeft
  generalize s.clearCluster k = u at *
  generalize (if failed then u else u.returnPart (.cluster k)) = w at *
  obtain ⟨hview, hcores⟩ := hv
  have hw : (w.cluster k).testRecord = (u.cluster k).testRecord := congrArg TestView.record hview
  have ht : (w.cluster k).testing = false := congrArg TestRecord.testing (hw.trans hrec)
  have hset := (testView_setVoltages w ht).trans hview
  simp only [State.testView, TestView.mk.injEq] at hset
  obtain ⟨hj, hm, hti, hsu, hd, hre⟩ := hset
  obtain ⟨cj, cm, ct, cs, cd⟩ := hcl
  exact ⟨fun i => (congrArg (fun m => SMap.get ({} : Core) m (coreKey (coreIn k i))) ((setVoltages_cores w).trans hcores)).trans (hclear i),
    hj.trans cj, hm.trans cm, hti.trans ct, hsu.trans cs, hd.trans cd, hre.trans hrec⟩

theorem TestLeft.event {k : ClusterAt} {s t : State} (h : TestLeft k s t) (v : Verdict) : TestLeft k s (t.testEvent k v) := by
  have hv : (t.testEvent k v).testView k = t.testView k := testView_raiseEvent _ _ _ _ _
  have hc : (t.testEvent k v).cores = t.cores := State.raiseEvent_cores _ _ _ _
  simp only [State.testView, TestView.mk.injEq] at hv
  obtain ⟨hj, hm, hti, hsu, hd, hre⟩ := hv
  exact ⟨fun i => (congrArg (fun m => SMap.get ({} : Core) m (coreKey (coreIn k i))) hc).trans (h.cores i),
    hj.trans h.job, hm.trans h.repairMap, hti.trans h.time, hsu.trans h.suspects, hd.trans h.diags, hre.trans h.record⟩

/-- A retired cluster after a failed test: marked defective, under no test, with a report that stays. -/
structure FailedTest (k : ClusterAt) (s t : State) : Prop where
  role : roleOf (t.entryOf k) = 2
  testing : (t.cluster k).testing = false
  job : t.job = s.job
  suspects : t.genhan.suspectTests = s.genhan.suspectTests
  diags : t.genhan.diags = s.genhan.diags

theorem entryOf_setEntry_ne (s : State) {j k : ClusterAt} (role : Nat) (cl : BitVec 9) (h : k ≠ j) :
    (s.setEntry j role cl).entryOf k = s.entryOf k := SMap.get_set_ne _ _ _ fun e => h (clusterKey_inj e)

theorem FailedTest.event {k : ClusterAt} {s t : State} (h : FailedTest k s t) (code : Nat) (src : Option LCore) (d : Bytes) :
    FailedTest k s (t.raiseEvent code src d) := by
  have hm : (t.raiseEvent code src d).repairMap = t.repairMap := State.raiseEvent_repairMap _ _ _ _
  have hc : (t.raiseEvent code src d).clusters = t.clusters := State.raiseEvent_clusters _ _ _ _
  have hg : (t.raiseEvent code src d).genhan = t.genhan := State.raiseEvent_genhan _ _ _ _
  exact ⟨(congrArg (fun m => roleOf (SMap.get 0 m (clusterKey k))) hm).trans h.role,
    (congrArg (fun m => (SMap.get ({} : Cluster) m (clusterKey k)).testing) hc).trans h.testing, (State.raiseEvent_job _ _ _ _).trans h.job,
    (congrArg Genhan.suspectTests hg).trans h.suspects, (congrArg Genhan.diags hg).trans h.diags⟩

/-- A cluster of the die that loses its number is another one: the retired cluster is defective already. -/
theorem FailedTest.strandOne {k : ClusterAt} {s t : State} (h : FailedTest k s t) (j : ClusterAt) : FailedTest k s (t.strandOne j) := by
  unfold State.strandOne
  split
  · exact h
  case h_2 cl hl =>
    have hne : k ≠ j := by
      rintro rfl
      have hn : t.logical k = none := if_neg (by rw [h.role]; decide)
      rw [hn] at hl
      cases hl
    extract_lets u g v
    have hu : FailedTest k s u :=
      ⟨(congrArg roleOf ((entryOf_setEntry_ne _ _ _ hne).trans (entryOf_setEntry_ne t _ _ hne))).trans h.role, h.testing, h.job, h.suspects, h.diags⟩
    have hw (w : State) (hw : FailedTest k s w) : FailedTest k s (w.clearCluster j) := by
      obtain ⟨cj, cm, -, cs, cd⟩ := clearCluster_frame w j
      exact ⟨(congrArg (fun m => roleOf (SMap.get 0 m (clusterKey k))) cm).trans hw.role,
        (congrArg (·.record.testing) (testView_clearCluster_ne w hne)).trans hw.testing, cj.trans hw.job, cs.trans hw.suspects, cd.trans hw.diags⟩
    have hv : FailedTest k s v := hw _ ⟨hu.role, hu.testing, hu.job, hu.suspects, hu.diags⟩
    clear_value v
    have hr : FailedTest k s v.writeRepair := ⟨hv.role, hv.testing, hv.job, hv.suspects, hv.diags⟩
    exact (hr.event _ _ _).event _ _ _

theorem FailedTest.strandAll {k : ClusterAt} {s t : State} (h : FailedTest k s t) (l : List ClusterAt) :
    FailedTest k s (l.foldl State.strandOne t) := by
  induction l generalizing t with
  | nil => exact h
  | cons j l ih => exact ih (h.strandOne j)

theorem FailedTest.strand {k : ClusterAt} {s t : State} (h : FailedTest k s t) (die : Fin 24) : FailedTest k s (t.strand die) := by
  unfold State.strand
  split
  · exact h.strandAll _
  · exact h

/-- A cluster that carries no number is marked defective when it is retired. -/
theorem retire_unmapped (s : State) (k : ClusterAt) (hl : s.logical k = none) (ht : (s.cluster k).testing = false) : FailedTest k s (s.retire k) := by
  have hq : (if (s.cluster k).quiesced then s else s.enterQuiesce (.cluster k)).testView k = s.testView k := by
    split
    · rfl
    · exact testView_enterQuiesce s k k
  unfold State.retire
  generalize (if (s.cluster k).quiesced then s else s.enterQuiesce (.cluster k)) = u at hq
  simp only [State.testView, TestView.mk.injEq] at hq
  obtain ⟨hj, hm, -, hs, hd, hr⟩ := hq
  have hn : u.logical k = none := by
    rw [State.logical, State.entryOf, hm]
    exact hl
  have hrole : roleOf ((u.markDefective k).entryOf k) = 2 := (congrArg roleOf (SMap.get_set_same _ _ _ _)).trans rfl
  have hf : FailedTest k s (u.markDefective k).writeRepair := ⟨hrole, (congrArg TestRecord.testing hr).trans ht, hj, hs, hd⟩
  dsimp only
  split
  · refine FailedTest.strand ?_ _
    unfold State.spareCheck
    dsimp only
    split
    · exact hf.event _ _ _
    · exact hf
  case h_2 cl hl' =>
    rw [hn] at hl'
    cases hl'

/-! ### The verdict -/

theorem suspectDone_none (s : State) (k : ClusterAt) (failed : Bool) (h : s.genhan.suspectTests = []) : s.suspectDone k failed = s := by
  have hg : ({ s.genhan with suspectTests := [] } : Genhan) = s.genhan := by rw [← h]
  unfold State.suspectDone
  rw [h]
  exact congrArg (fun g => { s with genhan := g }) hg

/-- With no suspects under test, outside a test window, and for a cluster that is not tested in place, the end of the test is all. -/
theorem testEnds_eq (s : State) (k : ClusterAt) (v : Verdict) (hs : (s.endTest k (s.ruled k v)).genhan.suspectTests = [])
    (hj : (s.endTest k (s.ruled k v)).job = s.job) (hp : s.job.inPlace.contains k = false) (hw : s.atCheckpoint = none) :
    s.testEnds k v = s.endTest k (s.ruled k v) := by
  have hover : s.testOver k v = s.endTest k (s.ruled k v) := by
    unfold State.testOver
    dsimp only
    rw [hp, suspectDone_none _ _ _ hs]
    exact (if_neg Bool.false_ne_true).trans (ite_self _)
  have hc : (s.endTest k (s.ruled k v)).atCheckpoint = none := by
    rw [State.atCheckpoint, hj]
    exact hw
  rw [State.testEnds, hover, State.tryWindow, hc]

theorem ruled_ruled (s : State) (k : ClusterAt) (v : Verdict) : s.ruled k (s.ruled k v) = s.ruled k v := by
  unfold State.ruled
  split
  · rfl
  · rfl

/-- A stress test that ends by itself, behind its detours and outside a test window, has the end of the test as its whole effect. -/
theorem exec_stressTestDone (s : State) (k : ClusterAt) (run : TestRun) (ht : (s.cluster k).testing = true)
    (hs : (s.cluster k).stress = true) (hd : s.genhan.wanted.contains (.cluster k) = false) (hc : s.atCheckpoint = none) :
    ∃ u : State, exec (.stressTestDone k run) s = .next (u.testEnds k run.verdict) ∧ u.testView k = s.testView k ∧
      u.ruled k run.verdict = s.ruled k run.verdict ∧ (u.cluster k).stress = true ∧ u.atCheckpoint = none := by
  have hv := testView_tileRun s k run.ops
  have hvoid : ((s.tileRun run.ops).cluster k).testVoid = (s.cluster k).testVoid := congrArg (·.record.void) hv
  have hstress : ((s.tileRun run.ops).cluster k).stress = (s.cluster k).stress := congrArg (·.record.stress) hv
  have hjob : (s.tileRun run.ops).job = s.job := congrArg TestView.job hv
  refine ⟨s.tileRun run.ops, ?_, hv, ?_, hstress.trans hs, ?_⟩
  · change execStressTestDone k run s = _
    unfold execStressTestDone
    rw [ht, hd, hc]
    simp
  · rw [State.ruled, State.ruled, hvoid]
  · rw [State.atCheckpoint, hjob]
    exact hc

/-- What stands behind a test that did not fail, before its outcome is noted. -/
theorem testEnds_of_noted (s : State) (k : ClusterAt) (v : Verdict) (hp : s.job.inPlace.contains k = false)
    (hc : s.atCheckpoint = none) (hst : (s.cluster k).stress = true) :
    ∃ t, TestLeft k s t ∧ ((t.noteVerdict true k (s.ruled k v)).genhan.suspectTests = [] → (t.noteVerdict true k (s.ruled k v)).job = s.job →
      s.testEnds k v = t.noteVerdict true k (s.ruled k v)) := by
  have he := endTest_eq s k (s.ruled k v) hst
  rw [ruled_ruled] at he
  refine ⟨_, (testLeft_spec s k (verdictFailed (s.ruled k v))).event (s.ruled k v), fun h1 h2 => ?_⟩
  rw [← he] at h1 h2 ⊢
  exact testEnds_eq s k v h1 h2 hp hc

/-- Settles O29: `startTest_spec` for the beginning of a test, `testView_tileRun` for its operations, `testLeft_spec` for its end, and `retire_unmapped`
for a spare that fails. -/
theorem stressTests : Obligations.StressTests := by
  intro k s hrole
  refine ⟨fun h => ?_, fun ht hd he hm h8 => ?_, fun ht hd hm hsu hdef => ?_, fun run h => ?_, fun run ht hs hd hc hsus hp => ?_, fun n hn => ?_⟩
  · exact if_pos (.inr (.inr (by rw [h]; rfl)))
  · refine ⟨s.startTest true k, ?_, startTest_spec s k h8⟩
    change execStressTestDue k s = _
    unfold execStressTestDue
    rw [ht, hd, he, hm]
    simp [hrole]
  · refine ⟨s.modCluster k fun x => { x with deferred := if x.deferred.isNone then some 0 else x.deferred }, ?_, ?_, ?_, rfl⟩
    · change execStressTestDue k s = _
      unfold execStressTestDue
      rw [ht, hd, hm, hsu]
      simp [hrole]
    · rw [State.cluster_modCluster_same, hdef]
      rfl
    · rw [State.cluster_modCluster_same]
      exact ht
  · exact if_pos (by rw [h, Bool.or_true])
  · obtain ⟨u, hexec, hview, hruled, hstress, hcu⟩ := exec_stressTestDone s k run ht hs hd hc
    simp only [State.testView, Cluster.testRecord, TestView.mk.injEq, TestRecord.mk.injEq] at hview
    obtain ⟨hj, hm, hti, hsu, hdi, -, -, -, hpass, hdef⟩ := hview
    obtain ⟨t, hleft, hends⟩ := testEnds_of_noted u k run.verdict (by rw [hj]; exact hp) hcu hstress
    have hnone : t.genhan.suspectTests = [] := hleft.suspects.trans (hsu.trans hsus)
    have hrec := hleft.record
    rw [hruled] at hends
    generalize hv : s.ruled k run.verdict = v at hends
    simp only [Cluster.testRecord, TestRecord.mk.injEq] at hrec
    obtain ⟨rtest, -, -, rpass, rdef⟩ := hrec
    refine ⟨fun hvoid hok => ?_, fun hvoid => ?_, fun c kd out hvoid hfail hl => ?_⟩
    · obtain rfl : v = .pass := by rw [← hv, State.ruled, hvoid, hok]; rfl
      refine ⟨_, hexec, ?_⟩
      rw [hends hnone hleft.job]
      dsimp only [State.noteVerdict]
      rw [if_pos rfl, State.cluster_modCluster_same]
      exact ⟨rtest, congrArg (fun x => some x.sc) (hleft.time.trans hti), rfl, hleft.cores, hleft.repairMap.trans hm⟩
    · obtain rfl : v = .void := by rw [← hv, State.ruled, hvoid]; rfl
      refine ⟨_, hexec, ?_⟩
      rw [hends hnone hleft.job]
      dsimp only [State.noteVerdict]
      rw [if_pos rfl, State.cluster_modCluster_same]
      refine ⟨rtest, rpass.trans hpass, ?_, hleft.repairMap.trans hm⟩
      dsimp only
      cases (t.cluster k).deferred with
      | none => rfl
      | some n => rfl
    · obtain rfl : v = .fail c kd out := by rw [← hv, State.ruled, hvoid, hfail]; rfl
      have hlog : (t.noteDiag ⟨k, c, kd, out⟩).logical k = none := by
        change t.logical k = none
        rw [State.logical, State.entryOf, hleft.repairMap, hm]
        exact hl
      have hf := retire_unmapped (t.noteDiag ⟨k, c, kd, out⟩) k hlog rtest
      refine ⟨_, hexec, ?_⟩
      rw [hends (hf.suspects.trans hnone) (hf.job.trans hleft.job)]
      exact ⟨hf.testing, hf.role, hf.diags.trans (congrArg (· ++ [_]) (hleft.diags.trans hdi))⟩
  · have hx : execTestOverdue k s = .next ((s.modCluster k fun x => { x with deferred := some (n + s.host.maxDefer.toNat) }).raiseEvent 0x0017 none
        ([BitVec.ofNat 8 k.die.val] ++ leBytes 2 k.pcl.val ++ List.replicate 5 0 ++ leBytes 4 (n + s.host.maxDefer.toNat))) := by
      unfold execTestOverdue
      rw [hn]
    refine ⟨_, hx, ?_, (State.raiseEvent_cores _ _ _ _).trans rfl⟩
    exact (congrArg (fun m => SMap.get ({} : Cluster) m (clusterKey k)) (State.raiseEvent_clusters _ _ _ _)).trans
      (State.cluster_modCluster_same s k _)

end Sys2Proof.Machine

/-! PROOFS. Streams of deep memory (R182, R253, R260, R267 to R270, R276): demands at their moon die, segments of write streams, deliveries. -/

namespace Sys2Proof.Machine

/-! ### Deep memory -/

theorem deepRead_deepWrite_same (s : State) (o : Nat) (b : Bytes) : (s.deepWrite o b).deepRead o b.length = b := SMap.getRun_setRun_same _ _ _ _

theorem deepRead_deepWrite_outside (s : State) {o a : Nat} {b : Bytes} (h : a < o ∨ o + b.length ≤ a) :
    (s.deepWrite o b).deepRead a 1 = s.deepRead a 1 := by
  simp only [State.deepRead, SMap.getRun, List.range_one, List.map_cons, List.map_nil, Nat.add_zero]
  exact congrArg ([·]) (SMap.get_setRun_out 0 s.deep o b a h)

/-- What deep memory holds is all that a read of it sees. -/
theorem deepRead_of_deep {s t : State} (h : t.deep = s.deep) (a n : Nat) : t.deepRead a n = s.deepRead a n := by rw [State.deepRead, h]; rfl

theorem areaBase_of_boot {s t : State} (h : t.boot = s.boot) (a : Nat) : t.areaBase a = s.areaBase a := by
  simp only [State.areaBase, State.capacity, State.stacks, State.stackMask, State.areaSize, State.mappedPerDie, State.grade, h]

theorem sendsOnly_foldl {α : Type} {f : State → α → State} (h : ∀ (s : State) a, s.sendsOnly (f s a)) (l : List α) (s : State) : s.sendsOnly (l.foldl f s) := by
  induction l generalizing s with
  | nil => exact State.sendsOnly.refl s
  | cons a l ih => exact (h s a).trans (ih _)

theorem sendsOnly_countBytes (s : State) (n o len : Nat) : s.sendsOnly (s.countBytes n o len) := by
  refine sendsOnly_foldl (fun t i => ?_) _ s
  exact rfl

/-- Below the drain areas a write is counted and made. -/
theorem deepPut_below (s : State) (o : Nat) (b : Bytes) (h : o + b.length ≤ s.areaBase 0) :
    s.deepPut o b = (s.countBytes 2 o b.length).deepWrite o b := by
  have hb : (s.countBytes 2 o b.length).areaBase 0 = s.areaBase 0 := areaBase_of_boot (by rw [sendsOnly_countBytes s 2 o b.length]) 0
  exact if_pos (by rw [hb]; exact h)

/-! ### Moon dies -/

theorem stream_arrived (s : State) (f : Packet → Bool) (i m n : Nat) : (s.arrived f i).stream m n = s.stream m n := by
  rw [State.stream, State.arrived_streams]
  rfl

theorem moonOff_arrived (s : State) (f : Packet → Bool) (i : Nat) : (s.arrived f i).moonOff = s.moonOff := by
  funext m
  rw [State.moonOff, State.arrived_domains]
  rfl

theorem home_arrived (s : State) (f : Packet → Bool) (i m : Nat) : (s.arrived f i).home m = s.home m := by
  rw [State.home, State.arrived_homes]
  rfl

theorem deepBad_arrived (s : State) (f : Packet → Bool) (i o n : Nat) : (s.arrived f i).deepBad o n = s.deepBad o n := by
  rw [State.deepBad, State.arrived_deepErr]
  rfl

/-- Names are read from the repair map alone (R24). -/
theorem coreAt_of_repairMap {s t : State} (h : t.repairMap = s.repairMap) (l : LCore) : t.coreAt l = s.coreAt l := by
  have he : t.logical = s.logical := by
    funext k
    rw [State.logical, State.entryOf, h]
    rfl
  rw [State.coreAt, State.physical, he]
  rfl

/-! ### What leaves a moon die -/

/-- What the deliveries of a stream change: the stream's entries owed and credits, and what waits for the mesh. -/
structure Pumped (m n : Nat) (s t : State) : Prop where
  frame : t = { s with streams := t.streams, waiting := t.waiting, emitted := t.emitted }
  stream : ∃ l k, t.stream m n = { s.stream m n with owed := l, dcredits := k }

theorem moonSend_frame (s : State) (m : Nat) (p : Packet) :
    s.moonSend m p = { s with waiting := (s.moonSend m p).waiting, emitted := (s.moonSend m p).emitted } := by
  unfold State.moonSend
  split
  · rfl
  · rfl

theorem Pumped.refl (m n : Nat) (s : State) : Pumped m n s s := ⟨rfl, _, _, rfl⟩

theorem Pumped.trans {m n : Nat} {s t u : State} (h : Pumped m n s t) (g : Pumped m n t u) : Pumped m n s u := by
  obtain ⟨hf, l, k, hs⟩ := h
  obtain ⟨gf, l', k', gs⟩ := g
  refine ⟨?_, l', k', ?_⟩
  · rw [gf, hf]
  · rw [gs, hs]

theorem pumped_moonSend (s : State) (m n i : Nat) (p : Packet) : Pumped m n s (s.moonSend i p) := by
  refine ⟨?_, (s.stream m n).owed, (s.stream m n).dcredits, ?_⟩
  · rw [moonSend_frame]
  · rw [moonSend_frame]
    rfl

theorem pumped_putStream (s : State) (m n : Nat) (l : List Owed) (k : Nat) :
    Pumped m n s (s.putStream m n { s.stream m n with owed := l, dcredits := k }) := ⟨rfl, l, k, State.stream_putStream_same _ _ _ _⟩

theorem pumped_pump (fuel : Nat) (s : State) (m n : Nat) : Pumped m n s (s.pump fuel m n) := by
  induction fuel generalizing s with
  | zero => exact Pumped.refl m n s
  | succ f ih =>
    unfold State.pump
    extract_lets t
    split
    · exact Pumped.refl m n s
    next o r _ =>
      split
      · exact Pumped.refl m n s
      · extract_lets u v
        have hu : Pumped m n s u := pumped_putStream s m n _ _
        have hv : Pumped m n u v := by
          simp only [v]
          split
          · exact pumped_moonSend _ _ _ _ _
          · exact Pumped.refl m n u
        refine (hu.trans hv).trans (Pumped.trans ?_ (ih _))
        split
        · exact pumped_moonSend _ _ _ _ _
        · exact Pumped.refl m n v

theorem pumped_pumpStream (s : State) (m n : Nat) : Pumped m n s (s.pumpStream m n) := pumped_pump _ s m n

/-! ### The fault of a stream (R276) -/

/-- What the fault of a stream does: deep memory and the cores stay, the stream is faulted, and the owner's cluster halts. -/
structure StreamFaulted (m n code : Nat) (s t : State) : Prop where
  deep : t.deep = s.deep
  cores : t.cores = s.cores
  stream : t.stream m n = { s.stream m n with faulted := true, owed := [] }
  halted : ∀ c, s.coreAt ((s.stream m n).owner s.pkg) = some c → (s.cluster (clusterOf c)).run ≠ .halted →
    (t.cluster (clusterOf c)).run = .halted ∧ (t.cluster (clusterOf c)).faultCode = some (BitVec.ofNat 16 code)

theorem haltOn_cores (s : State) (k : ClusterAt) (fs : List Raised) :
    (s.haltOn k fs).deep = s.deep ∧ (s.haltOn k fs).cores = s.cores ∧ (s.haltOn k fs).streams = s.streams := by
  unfold State.haltOn
  split
  · exact ⟨rfl, rfl, rfl⟩
  · split
    · exact ⟨rfl, rfl, rfl⟩
    · exact ⟨rfl, rfl, rfl⟩

/-- One fault halts a cluster that has not halted before (R353). -/
theorem haltOn_cluster {s : State} {k : ClusterAt} (r : Raised) (h : (s.cluster k).run ≠ .halted) :
    (s.haltOn k [r]).cluster k = { s.cluster k with run := .halted, faultCode := some (BitVec.ofNat 16 r.code), stallLine := false } := by
  have hone : onePerWord [r] = [r] := rfl
  rw [State.haltOn, hone]
  dsimp only
  rw [if_neg h]
  exact State.cluster_modCluster_same s k fun x => { x with run := .halted, faultCode := some (BitVec.ofNat 16 r.code), stallLine := false }

theorem streamFault_spec (s : State) (m n i o code : Nat) : StreamFaulted m n code s (s.streamFault m n i o code) := by
  unfold State.streamFault
  extract_lets t left u v
  have hu : u = s.putStream m n { t with faulted := true, owed := [] } := rfl
  have hv : v = { u with waiting := v.waiting, emitted := v.emitted } := by
    simp only [v]
    split
    · rfl
    · exact moonSend_frame _ _ _
  have hstream : v.stream m n = { t with faulted := true, owed := [] } := by
    rw [hv, hu]
    exact State.stream_putStream_same s m n _
  have hat (l : LCore) : v.coreAt l = s.coreAt l := by rw [hv]; rfl
  have hpkg : v.pkg = s.pkg := by rw [hv]; rfl
  have hdeep : v.deep = s.deep := by rw [hv]; rfl
  have hcores : v.cores = s.cores := by rw [hv]; rfl
  have hclusters : v.clusters = s.clusters := by rw [hv]; rfl
  clear_value v
  rw [hat, hpkg]
  split
  case h_1 hn =>
    refine ⟨hdeep, hcores, hstream, fun c hc => ?_⟩
    rw [hn] at hc
    cases hc
  case h_2 c hn =>
    have hcl : v.cluster (clusterOf c) = s.cluster (clusterOf c) := by rw [State.cluster, hclusters]; rfl
    refine ⟨(haltOn_cores _ _ _).1.trans hdeep, (haltOn_cores _ _ _).2.1.trans hcores, ?_, fun e he hrun => ?_⟩
    · rw [State.stream, (haltOn_cores _ _ _).2.2]
      exact hstream
    · obtain rfl : c = e := Option.some.inj (hn.symm.trans he)
      rw [haltOn_cluster _ (by rw [hcl]; exact hrun)]
      exact ⟨rfl, rfl⟩


/-! ### The reading of a tile (R267, R270) -/

/-- What no read of a tile changes: deep memory, the cores, and of the stream the last index and the sweep. -/
def State.demandView (s : State) (m n : Nat) : SMap Byte × SMap Core × Option Nat × Nat :=
  (s.deep, s.cores, (s.stream m n).last, (s.stream m n).sweep)

theorem demandView_of_sendsOnly {s t : State} (h : s.sendsOnly t) (m n : Nat) : t.demandView m n = s.demandView m n := by
  rw [h]
  rfl

theorem demandView_of_pumped {m n : Nat} {s t : State} (h : Pumped m n s t) : t.demandView m n = s.demandView m n := by
  obtain ⟨hf, l, k, hs⟩ := h
  have hd : t.deep = s.deep := by rw [hf]
  have hc : t.cores = s.cores := by rw [hf]
  rw [State.demandView, hd, hc, hs]
  rfl

theorem demandView_streamFault (s : State) (m n i o code : Nat) : (s.streamFault m n i o code).demandView m n = s.demandView m n := by
  have h := streamFault_spec s m n i o code
  rw [State.demandView, h.deep, h.cores, h.stream]
  rfl

theorem sendsOnly_demandServed (s : State) (t : Stream) (tile : Nat) (segs : List Bytes) : s.sendsOnly (s.demandServed t tile segs) :=
  State.sendsOnly.trans (t := s.countStack (s.stackOf (t.tileAt tile)) 0) rfl (sendsOnly_countBytes _ _ _ _)

/-- What a demand brings is owed to the stream, and delivered as far as its ring has credits. -/
theorem pumped_owe (s : State) (m n : Nat) (l : List Owed) : Pumped m n s ((s.putStream m n { s.stream m n with owed := l }).pumpStream m n) :=
  (pumped_putStream s m n l (s.stream m n).dcredits).trans (pumped_pumpStream _ m n)

theorem demandView_readDone (s : State) (m : Nat) (h : BitVec 128) (txn : Option Nat) (tile : Nat) (segs : List Bytes) (err : Option (Nat × Nat))
    (hspec : dhSpec h = false) : (s.readDone m h txn tile segs err).demandView m (dhStream h) = s.demandView m (dhStream h) := by
  unfold State.readDone
  dsimp only
  rw [if_neg (by rw [hspec]; exact Bool.false_ne_true)]
  split
  · have hs := sendsOnly_demandServed s (s.stream m (dhStream h)) tile segs
    have ht : (s.demandServed (s.stream m (dhStream h)) tile segs).stream m (dhStream h) = s.stream m (dhStream h) := by rw [hs]; rfl
    generalize s.demandServed (s.stream m (dhStream h)) tile segs = u at hs ht
    rw [← ht]
    exact (demandView_of_pumped (pumped_owe u m (dhStream h) _)).trans (demandView_of_sendsOnly hs _ _)
  · exact (demandView_streamFault _ _ _ _ _ _).trans (demandView_of_pumped (pumped_owe _ _ _ _))

theorem deepSoft_frame (s : State) (o n : Nat) : s.deepSoft o n = { s with deepErr := (s.deepSoft o n).deepErr, ctr := (s.deepSoft o n).ctr } := by
  unfold State.deepSoft
  extract_lets hit ws
  have h (l : List (Nat × Option Bool)) (t : State) : l.foldl (fun s w => s.countDeepCe (s.stackOf (64 * w.1))) t =
      { t with ctr := (l.foldl (fun s w => s.countDeepCe (s.stackOf (64 * w.1))) t).ctr } := by
    induction l generalizing t with
    | nil => rfl
    | cons a l ih =>
      rw [List.foldl_cons, ih]
      rfl
  rw [h]

theorem demandView_raiseEvent (s : State) (m n code : Nat) (src : Option LCore) (d : Bytes) :
    (s.raiseEvent code src d).demandView m n = s.demandView m n := by
  rw [State.demandView, State.stream, State.raiseEvent_deep, State.raiseEvent_cores, State.raiseEvent_streams]
  rfl

theorem demandView_moonRead (s : State) (m i o n : Nat) : (s.moonRead o n).1.demandView m i = s.demandView m i := by
  have hs : (s.deepSoft o n).demandView m i = s.demandView m i := by
    rw [deepSoft_frame]
    rfl
  unfold State.moonRead
  dsimp only
  split
  · exact (demandView_raiseEvent _ _ _ _ _ _).trans hs
  · exact hs

/-- A demand, as far as it is read, changes neither deep memory nor a core, and its index and sweep stay noted. -/
theorem demandView_homeOn (fuel : Nat) (s : State) (m : Nat) (h : BitVec 128) (txn : Option Nat) (tile sg o left : Nat) (got : Bytes)
    (segs : List Bytes) (hspec : dhSpec h = false) :
    (s.homeOn fuel (.read m h txn tile sg o left got segs)).demandView m (dhStream h) = s.demandView m (dhStream h) := by
  induction fuel generalizing s sg o left got segs with
  | zero => rfl
  | succ k ih =>
    unfold State.homeOn
    dsimp -zeta only
    extract_lets busy st want seg fail a c r
    have hf (t : State) (code p : Nat) : (fail t code p).demandView m (dhStream h) = t.demandView m (dhStream h) :=
      demandView_readDone _ _ _ _ _ _ _ hspec
    have hr : r.1.demandView m (dhStream h) = s.demandView m (dhStream h) := demandView_moonRead _ _ _ _ _
    clear_value fail r
    (iterate 5 (split; exact hf _ _ _))
    split
    · split
      · rfl
      · split
        · split
          · exact (hf _ _ _).trans hr
          · exact (ih _ _ _ _ _ _).trans hr
        · rfl
    · split
      · exact hf _ _ _
      · split
        · exact demandView_readDone _ _ _ _ _ _ _ hspec
        · exact ih _ _ _ _ _ _

/-! ### Demands (R267, R269, R276) -/

/-- What stays until a stream is faulted, if it is: deep memory, cores and clusters, the names, and the stream's entry. -/
structure BeforeFault (m n : Nat) (s t : State) : Prop where
  deep : t.deep = s.deep
  cores : t.cores = s.cores
  clusters : t.clusters = s.clusters
  repairMap : t.repairMap = s.repairMap
  pkg : t.pkg = s.pkg
  entry : (t.stream m n).entry = (s.stream m n).entry

theorem BeforeFault.trans {m n : Nat} {s t u : State} (h : BeforeFault m n s t) (g : BeforeFault m n t u) : BeforeFault m n s u :=
  ⟨g.deep.trans h.deep, g.cores.trans h.cores, g.clusters.trans h.clusters, g.repairMap.trans h.repairMap, g.pkg.trans h.pkg, g.entry.trans h.entry⟩

theorem beforeFault_arrived (s : State) (f : Packet → Bool) (i m n : Nat) : BeforeFault m n s (s.arrived f i) :=
  ⟨State.arrived_deep _ _ _, State.arrived_cores _ _ _, State.arrived_clusters _ _ _, State.arrived_repairMap _ _ _, State.arrived_pkg _ _ _,
    congrArg Stream.entry (stream_arrived s f i m n)⟩

theorem beforeFault_of_pumped {m n : Nat} {s t : State} (h : Pumped m n s t) : BeforeFault m n s t := by
  obtain ⟨hf, l, k, hs⟩ := h
  refine ⟨?_, ?_, ?_, ?_, ?_, by rw [hs]⟩ <;> rw [hf]

theorem beforeFault_moonRead (s : State) (m n o l : Nat) : BeforeFault m n s (s.moonRead o l).1 := by
  have hs : BeforeFault m n s (s.deepSoft o l) := by
    rw [deepSoft_frame]
    exact ⟨rfl, rfl, rfl, rfl, rfl, rfl⟩
  unfold State.moonRead
  dsimp only
  split
  · refine hs.trans ⟨State.raiseEvent_deep _ _ _ _, State.raiseEvent_cores _ _ _ _, State.raiseEvent_clusters _ _ _ _,
      State.raiseEvent_repairMap _ _ _ _, State.raiseEvent_pkg _ _ _ _, ?_⟩
    exact congrArg (fun x => (SMap.get ({} : Stream) x (32768 * m + n)).entry) (State.raiseEvent_streams _ _ _ _)
  · exact hs

/-- The stream faults and its owner's cluster halts; deep memory and the cores stay. -/
theorem BeforeFault.faulted {m n : Nat} {s u : State} (h : BeforeFault m n s u) {c : CoreAt} (i o code : Nat)
    (hc : s.coreAt ((s.stream m n).owner s.pkg) = some c) (hrun : (s.cluster (clusterOf c)).run ≠ .halted) :
    ((u.streamFault m n i o code).stream m n).faulted = true ∧ ((u.streamFault m n i o code).cluster (clusterOf c)).run = .halted ∧
    ((u.streamFault m n i o code).cluster (clusterOf c)).faultCode = some (BitVec.ofNat 16 code) ∧
    (u.streamFault m n i o code).deep = s.deep ∧ (u.streamFault m n i o code).cores = s.cores := by
  have f := streamFault_spec u m n i o code
  have howner : (u.stream m n).owner u.pkg = (s.stream m n).owner s.pkg := by rw [Stream.owner, h.entry, h.pkg]; rfl
  have hcl : u.cluster (clusterOf c) = s.cluster (clusterOf c) := by rw [State.cluster, h.clusters]; rfl
  obtain ⟨hr, hf⟩ := f.halted c (by rw [howner, coreAt_of_repairMap h.repairMap]; exact hc) (by rw [hcl]; exact hrun)
  exact ⟨congrArg Stream.faulted f.stream, hr, hf, f.deep.trans h.deep, f.cores.trans h.cores⟩

/-- The bad word of an extent stays bad when the corrected words are written back. -/
theorem deepBad_deepSoft {s : State} {o n : Nat} (h : (s.deepBad o n).isSome = true) : ((s.deepSoft o n).deepBad o n).isSome = true := by
  have he : (s.deepSoft o n).deepErr = s.deepErr.filter fun p => !(decide (p.2 = some false) && decide (o / 64 ≤ p.1) && decide (p.1 < (o + n + 63) / 64)) := by
    unfold State.deepSoft
    extract_lets hit ws
    exact foldl_leaves (f := fun (s : State) (w : Nat × Option Bool) => s.countDeepCe (s.stackOf (64 * w.1))) State.deepErr (fun _ _ => rfl) _ _
  simp only [State.deepBad, Option.isSome_map, List.find?_isSome] at h ⊢
  obtain ⟨p, hp, hb⟩ := h
  refine ⟨p, ?_, hb⟩
  simp only [Bool.and_eq_true, decide_eq_true_eq] at hb
  rw [he]
  exact List.mem_filter.2 ⟨hp, by simp [hb.1.1]⟩

theorem moonRead_bad {s : State} {o n : Nat} (h : (s.deepBad o n).isSome = true) : ∃ w, (s.moonRead o n).2 = .inr w := by
  obtain ⟨w, hw⟩ := Option.isSome_iff_exists.1 (deepBad_deepSoft h)
  refine ⟨w, ?_⟩
  unfold State.moonRead
  dsimp only
  rw [hw]

/-- A demand that fails delivers what it has read, and faults its stream. -/
theorem readDone_failed (s : State) (m : Nat) {h : BitVec 128} (txn : Option Nat) (tile : Nat) (segs : List Bytes) (code o : Nat)
    (hspec : dhSpec h = false) : ∃ u, s.readDone m h txn tile segs (some (code, o)) = u.streamFault m (dhStream h) (dhIndex h) o code ∧
      Pumped m (dhStream h) s u := by
  refine ⟨(s.putStream m (dhStream h) { s.stream m (dhStream h) with
    owed := (s.stream m (dhStream h)).owed ++ (owedOf h segs).map fun o => { o with last := false } }).pumpStream m (dhStream h), ?_, pumped_owe _ _ _ _⟩
  unfold State.readDone
  dsimp only
  rw [if_neg (by rw [hspec]; exact Bool.false_ne_true)]

/-- The read of a tile whose first word cannot be read faults the stream (R275, R276). -/
theorem homeOn_read_bad (k : Nat) {s : State} {m : Nat} {h : BitVec 128} (txn : Option Nat) (tile : Nat) {o left : Nat} (hspec : dhSpec h = false)
    (hleft : 64 ≤ left) (hoff : s.moonOff m = false) (hpart : anyPart s.moonOff o 64 = false) (hhome : s.home (moonOf o) = none)
    (hbad : (s.deepBad o (regionCut o 64)).isSome = true) :
    ∃ u p, s.homeOn (k + 1) (.read m h txn tile 0 o left [] []) = u.streamFault m (dhStream h) (dhIndex h) p fDataError ∧
      BeforeFault m (dhStream h) s u := by
  obtain ⟨w, hw⟩ := moonRead_bad hbad
  have hb := beforeFault_moonRead s m (dhStream h) o (regionCut o 64)
  obtain ⟨u, hu, hp⟩ := readDone_failed (s.moonRead o (regionCut o 64)).1 m txn tile [] fDataError (64 * w) hspec
  refine ⟨u, 64 * w, Eq.trans ?_ hu, hb.trans (beforeFault_of_pumped hp)⟩
  unfold State.homeOn
  dsimp -zeta only
  extract_lets busy st want seg fail a c r
  have hwant : want = 64 := rfl
  have hr : r = s.moonRead o (regionCut o 64) := rfl
  have hbusy : busy = false := by
    simp only [busy, HomeOp.off]
    rw [hhome]
    rfl
  have ha : a = o := rfl
  rw [if_neg (by omega), if_neg (by rw [hoff, hpart]; exact Bool.false_ne_true), if_neg (by simp), hwant, if_neg (by omega),
    if_neg (by rw [hpart]; exact Bool.false_ne_true), if_pos (by simp), if_neg (by simp [hbusy]), ha, if_pos rfl, hr, hw]

/-- The sweep that a demand for index `i` is of: the next one once the indices wrap (R267). -/
def Stream.sweepAt (t : Stream) (i : Nat) : Nat :=
  match t.last with
  | some l => if i ≤ l then t.sweep + 1 else t.sweep
  | none => t.sweep

/-- The tile that a demand for index `i` names (R267). -/
def Stream.tileOfDemand (t : Stream) (i : Nat) : Nat := (t.sweepAt i * (t.f 247 240 + 1) + i) % t.tiles

/-- The slots that a tile takes in the ring of a stream's receiver. -/
def State.ringSlots (s : State) (t : Stream) : Nat :=
  match s.coreAt (t.rcv s.pkg) with
  | some c => 2 ^ ((s.core c).recvEp t.rcvEp).seglog
  | none => 1

/-- A read stream that is not faulted, and a demand that is no run-ahead. -/
structure Demanded (s : State) (m : Nat) (h : BitVec 128) : Prop where
  valid : (s.stream m (dhStream h)).valid = true
  reads : (s.stream m (dhStream h)).isWrite = false
  whole : (s.stream m (dhStream h)).faulted = false
  demand : dhSpec h = false

section
variable {s : State} {m : Nat} {h : BitVec 128}

theorem demandAt_off (txn : Option Nat) (hd : Demanded s m h) (hoff : s.moonOff m = true) : s.demandAt m h txn =
    s.streamFault m (dhStream h) (dhIndex h) ((s.stream m (dhStream h)).tileAt 0) fTargetOffline := by
  unfold State.demandAt
  dsimp only
  simp only [hd.valid, hd.reads, hd.whole, hd.demand, hoff, Bool.not_true, Bool.or_self, Bool.false_eq_true, if_false, if_true]

theorem demandAt_range (txn : Option Nat) (hd : Demanded s m h) (hoff : s.moonOff m = false) (hi : (s.stream m (dhStream h)).f 247 240 < dhIndex h) :
    s.demandAt m h txn = s.streamFault m (dhStream h) (dhIndex h) ((s.stream m (dhStream h)).tileAt 0) fStreamRange := by
  unfold State.demandAt
  dsimp only
  simp only [hd.valid, hd.reads, hd.whole, hd.demand, hoff, hi, Bool.not_true, Bool.or_self, Bool.false_eq_true, if_false, if_true]

/-- A claim is noted, and owes what the ring gets from the buffer (R270). -/
theorem demandAt_claim (txn : Option Nat) (hd : Demanded s m h) (hoff : s.moonOff m = false) (hi : dhIndex h ≤ (s.stream m (dhStream h)).f 247 240)
    (hc : dhClaim h = true) : ∃ (v : State) (l : List Owed), s.sendsOnly v ∧ s.demandAt m h txn = (v.putStream m (dhStream h) { s.stream m (dhStream h) with
      sweep := (s.stream m (dhStream h)).sweepAt (dhIndex h), last := some (dhIndex h), owed := l }).pumpStream m (dhStream h) := by
  refine ⟨s.countStack (s.stackOf ((s.stream m (dhStream h)).tileAt ((s.stream m (dhStream h)).tileOfDemand (dhIndex h)))) 5,
    (s.stream m (dhStream h)).owed ++
      [{ hdr := deliverHeader h, seg := none, slots := s.ringSlots (s.stream m (dhStream h)), last := true }], rfl, ?_⟩
  unfold State.demandAt
  dsimp only
  simp only [hd.valid, hd.reads, hd.whole, hd.demand, hoff, hc, Nat.not_lt.2 hi, Bool.not_true, Bool.or_self, Bool.false_eq_true, if_false, if_true]
  rfl

/-- A demand is noted, and its tile is read. -/
theorem demandAt_read (txn : Option Nat) (hd : Demanded s m h) (hoff : s.moonOff m = false) (hi : dhIndex h ≤ (s.stream m (dhStream h)).f 247 240)
    (hc : dhClaim h = false) : s.demandAt m h txn = (s.putStream m (dhStream h) { s.stream m (dhStream h) with
      sweep := (s.stream m (dhStream h)).sweepAt (dhIndex h), last := some (dhIndex h) }).readTile m h txn
        ((s.stream m (dhStream h)).tileOfDemand (dhIndex h)) := by
  unfold State.demandAt
  dsimp only
  simp only [hd.valid, hd.reads, hd.whole, hd.demand, hoff, hc, Nat.not_lt.2 hi, Bool.not_true, Bool.or_self, Bool.false_eq_true, if_false]
  rfl

end

theorem exec_demand {m : Fin 4} {h : BitVec 128} {s : State} (hserve : s.serving m.val = false)
    (hw : s.waits (isForComp 1 m.val 0xA (h.setWidth 256) []) = false) (hok : deepHeaderOk 1 h = true) :
    exec (.demand m h) s = .next ((s.arrived (isForComp 1 m.val 0xA (h.setWidth 256) [])).demandAt m.val h
      (s.txnOf (isForComp 1 m.val 0xA (h.setWidth 256) []))) :=
  congrArg Host.Outcome.next ((if_neg (by rw [hserve]; exact Bool.false_ne_true)).trans ((onArrival_taken _ hw).trans (if_pos hok)))

theorem demanded_arrived {s : State} {m : Nat} {h : BitVec 128} (hd : Demanded s m h) (f : Packet → Bool) (i : Nat) :
    Demanded (s.arrived f i) m h :=
  ⟨by rw [stream_arrived]; exact hd.valid, by rw [stream_arrived]; exact hd.reads, by rw [stream_arrived]; exact hd.whole, hd.demand⟩

/-- A demand within SWEEP, at a moon die that is on. -/
theorem demandAt_noted {s : State} {m : Nat} {h : BitVec 128} (txn : Option Nat) (hd : Demanded s m h) (hoff : s.moonOff m = false)
    (hi : dhIndex h ≤ (s.stream m (dhStream h)).f 247 240) :
    (s.demandAt m h txn).demandView m (dhStream h) = (s.deep, s.cores, some (dhIndex h), (s.stream m (dhStream h)).sweepAt (dhIndex h)) ∧
    (dhClaim h = true → ((s.demandAt m h txn).stream m (dhStream h)).faulted = false ∧ (s.demandAt m h txn).clusters = s.clusters) := by
  cases hc : dhClaim h with
  | true =>
    obtain ⟨v, l, hv, he⟩ := demandAt_claim txn hd hoff hi hc
    rw [he]
    generalize hu : v.putStream m (dhStream h) _ = u
    have hs : u.stream m (dhStream h) = { s.stream m (dhStream h) with
        sweep := (s.stream m (dhStream h)).sweepAt (dhIndex h), last := some (dhIndex h), owed := l } := by
      rw [← hu]
      exact State.stream_putStream_same _ _ _ _
    have hp := pumped_pumpStream u m (dhStream h)
    have hdc : u.deep = s.deep ∧ u.cores = s.cores ∧ u.clusters = s.clusters := by
      rw [← hu, hv]
      exact ⟨rfl, rfl, rfl⟩
    refine ⟨(demandView_of_pumped hp).trans ?_, fun _ => ⟨?_, ?_⟩⟩
    · rw [State.demandView, hs, hdc.1, hdc.2.1]
    · obtain ⟨-, l', k, hst⟩ := hp
      rw [hst, hs]
      exact hd.whole
    · rw [hp.frame]
      exact hdc.2.2
  | false =>
    rw [demandAt_read txn hd hoff hi hc]
    refine ⟨(demandView_homeOn _ _ _ _ _ _ _ _ _ _ _ hd.demand).trans ?_, fun hn => absurd hn Bool.false_ne_true⟩
    rw [State.demandView, State.stream_putStream_same]
    rfl

/-- A demand that cannot be served faults the stream: its die is off, its index lies above SWEEP, or its first word cannot be read. -/
theorem demandAt_faulted {s : State} {m : Nat} {h : BitVec 128} (txn : Option Nat) {code tile : Nat} (hd : Demanded s m h)
    (ht : tile = (s.stream m (dhStream h)).tileOfDemand (dhIndex h))
    (hc : (s.moonOff m = true ∧ code = fTargetOffline) ∨
      (s.moonOff m = false ∧ (s.stream m (dhStream h)).f 247 240 < dhIndex h ∧ code = fStreamRange) ∨
      (s.moonOff m = false ∧ dhIndex h ≤ (s.stream m (dhStream h)).f 247 240 ∧ dhClaim h = false ∧ code = fDataError ∧
        64 ≤ (s.stream m (dhStream h)).stride ∧ anyPart s.moonOff ((s.stream m (dhStream h)).tileAt tile) 64 = false ∧
        s.home (moonOf ((s.stream m (dhStream h)).tileAt tile)) = none ∧
        (s.deepBad ((s.stream m (dhStream h)).tileAt tile) (regionCut ((s.stream m (dhStream h)).tileAt tile) 64)).isSome = true)) :
    ∃ u o, s.demandAt m h txn = u.streamFault m (dhStream h) (dhIndex h) o code ∧ BeforeFault m (dhStream h) s u := by
  have refl : BeforeFault m (dhStream h) s s := ⟨rfl, rfl, rfl, rfl, rfl, rfl⟩
  rcases hc with ⟨hoff, rfl⟩ | ⟨hoff, hi, rfl⟩ | ⟨hoff, hi, hcl, rfl, hstride, hpart, hhome, hbad⟩
  · exact ⟨s, _, demandAt_off txn hd hoff, refl⟩
  · exact ⟨s, _, demandAt_range txn hd hoff hi, refl⟩
  · rw [demandAt_read txn hd hoff hi hcl, ← ht]
    generalize hv : s.putStream m (dhStream h) _ = v
    have hs : v.stream m (dhStream h) = { s.stream m (dhStream h) with
        sweep := (s.stream m (dhStream h)).sweepAt (dhIndex h), last := some (dhIndex h) } := by
      rw [← hv]
      exact State.stream_putStream_same _ _ _ _
    have hb : BeforeFault m (dhStream h) s v := by
      refine ⟨?_, ?_, ?_, ?_, ?_, by rw [hs]⟩ <;> rw [← hv] <;> rfl
    have ho : (v.stream m (dhStream h)).tileAt tile = (s.stream m (dhStream h)).tileAt tile := by rw [hs]; rfl
    have hl : (v.stream m (dhStream h)).stride = (s.stream m (dhStream h)).stride := by rw [hs]; rfl
    have hm : v.moonOff = s.moonOff := by rw [← hv]; rfl
    have hh : v.home = s.home := by rw [← hv]; rfl
    have hbd : v.deepBad = s.deepBad := by rw [← hv]; rfl
    obtain ⟨u, p, hu, hg⟩ := homeOn_read_bad 63 (s := v) (m := m) txn tile (o := (v.stream m (dhStream h)).tileAt tile)
      (left := (v.stream m (dhStream h)).stride) hd.demand (by rw [hl]; exact hstride) (by rw [hm]; exact hoff) (by rw [hm, ho]; exact hpart)
      (by rw [hh, ho]; exact hhome) (by rw [hbd, ho]; exact hbad)
    exact ⟨u, p, hu, hb.trans hg⟩

/-! ### Segments of write streams (R260, R268) -/

theorem le_pad64 (n : Nat) : n ≤ pad64 n := by
  unfold pad64
  omega

theorem firstPadded_one (o : Nat) (seg : Bytes) (good : Bool) :
    firstPadded [(o, seg, good)] = seg ++ List.replicate (pad64 seg.length - seg.length) 0 := rfl

theorem length_firstPadded_one (o : Nat) (seg : Bytes) (good : Bool) : (firstPadded [(o, seg, good)]).length = pad64 seg.length := by
  have h := le_pad64 seg.length
  rw [firstPadded_one, List.length_append, List.length_replicate]
  omega

/-- Every moon die takes requests. -/
def State.moonsOn (s : State) : Prop := ∀ j : Fin 4, s.moonOff j.val = false

theorem moonsOn_of_domains {s t : State} (h : t.domains = s.domains) (hs : s.moonsOn) : t.moonsOn := by
  intro j
  have := hs j
  rw [State.moonOff] at this ⊢
  rw [h]
  exact this

theorem anyPart_none {f : Nat → Bool} (h : ∀ j : Fin 4, f j.val = false) (o n : Nat) : anyPart f o n = false := by
  unfold anyPart
  rw [List.any_eq_false]
  intro i _
  rw [h ⟨(o / 4096 + i) % 4, Nat.mod_lt _ (by decide)⟩]
  exact Bool.false_ne_true

section
variable {s : State} (hon : s.moonsOn)
include hon

theorem State.moonsOn.gone (j : Fin 4) : s.moonGone j.val = false := (Bool.or_eq_false_iff.1 (hon j)).1

theorem State.moonsOn.partsOn (o n : Nat) : anyPart s.moonOff o n = false := anyPart_none hon o n

theorem State.moonsOn.partsThere (o n : Nat) : anyPart s.moonGone o n = false := anyPart_none hon.gone o n

theorem State.moonsOn.on {m : Nat} (hm : m < 4) (o n : Nat) : ¬(s.moonOff m || anyPart s.moonOff o n) = true := by
  rw [hon ⟨m, hm⟩, hon.partsOn]
  exact Bool.false_ne_true

theorem State.moonsOn.there {m : Nat} (hm : m < 4) (o n : Nat) : ¬(s.moonGone m || anyPart s.moonGone o n) = true := by
  rw [hon.gone ⟨m, hm⟩, hon.partsThere]
  exact Bool.false_ne_true

end

theorem ackSegment_frame (s : State) (m : Nat) (t : Stream) (v : BitVec 4) : s.ackSegment m t v =
    { s with waiting := (s.ackSegment m t v).waiting, emitted := (s.ackSegment m t v).emitted } := by
  unfold State.ackSegment State.streamCredit
  rw [moonSend_frame, moonSend_frame s]

/-- The tile is written: nothing is left to do. -/
theorem homeOn_written (k : Nat) (s : State) (m n tile o : Nat) (rest : Bytes) : s.homeOn k (.write m n tile o [] rest) = s := by
  cases k with
  | zero => rfl
  | succ k => rfl

section
variable {s : State} {m n tile o : Nat} {seg rest : Bytes} (k : Nat)

/-- The last segment of a tile is written whole, and acknowledged. -/
theorem homeOn_write_acked : s.homeOn (k + 1) (.write m n tile o [(0, seg, true)] []) = s.ackSegment m (s.stream m n) 0 := by
  unfold State.homeOn
  dsimp only
  rw [if_neg (by simp), if_pos rfl]
  exact homeOn_written _ _ _ _ _ _ _

/-- A segment whose home is at work waits. -/
theorem homeOn_write_later (hm : m < 4) (hon : s.moonsOn) (hr : rest ≠ []) (hlen : rest.length = pad64 seg.length)
    (hbusy : (s.home (moonOf o)).isSome = true) :
    s.homeOn (k + 1) (.write m n tile o [(0, seg, true)] rest) = s.homeLater (.write m n tile o [(0, seg, true)] rest) := by
  unfold State.homeOn
  dsimp only
  rw [if_neg (by simp), if_neg hr, if_neg (hon.there hm _ _), if_neg (hon.on hm _ _), if_pos ⟨hlen, hbusy⟩]

/-- The home writes what lies in its own region itself. -/
theorem homeOn_write_put (hm : m < 4) (hon : s.moonsOn) (hr : rest ≠ []) (hfree : s.home (moonOf o) = none)
    (hmoon : moonOf (o + (pad64 seg.length - rest.length)) = moonOf o) :
    s.homeOn (k + 1) (.write m n tile o [(0, seg, true)] rest) =
      (s.deepPut (o + (pad64 seg.length - rest.length)) (rest.take (regionCut (o + (pad64 seg.length - rest.length)) rest.length))).homeOn k
        (.write m n tile o [(0, seg, true)] (rest.drop (regionCut (o + (pad64 seg.length - rest.length)) rest.length))) := by
  conv_lhs => unfold State.homeOn
  dsimp only
  rw [if_neg (by simp), if_neg hr, if_neg (hon.there hm _ _), if_neg (hon.on hm _ _), if_neg (by simp [HomeOp.off, hfree])]
  exact if_pos hmoon

/-- What lies in another region goes there by PART_WRITE, for which the home waits. -/
theorem homeOn_write_part (hm : m < 4) (hon : s.moonsOn) (hr : rest ≠ []) (hfree : s.home (moonOf o) = none)
    (hmoon : moonOf (o + (pad64 seg.length - rest.length)) ≠ moonOf o) :
    s.homeOn (k + 1) (.write m n tile o [(0, seg, true)] rest) =
      s.awaitPart (.write m n tile o [(0, seg, true)] rest) 4 (o + (pad64 seg.length - rest.length))
        (regionCut (o + (pad64 seg.length - rest.length)) rest.length) (rest.take (regionCut (o + (pad64 seg.length - rest.length)) rest.length)) := by
  unfold State.homeOn
  dsimp only
  rw [if_neg (by simp), if_neg hr, if_neg (hon.there hm _ _), if_neg (hon.on hm _ _), if_neg (by simp [HomeOp.off, hfree])]
  exact if_neg hmoon

end

/-- A write stream that is not faulted, with every moon die on, and a segment that passes its check there. -/
structure Fits (s : State) (m : Nat) (h : BitVec 128) (seg : Bytes) : Prop where
  valid : (s.stream m (dhStream h)).valid = true
  writes : (s.stream m (dhStream h)).isWrite = true
  whole : (s.stream m (dhStream h)).faulted = false
  moons : s.moonsOn
  code : draocOk seg = true
  identity : identityOk seg (s.stream m (dhStream h)).tensor
    ((s.stream m (dhStream h)).k % (s.stream m (dhStream h)).tiles / (s.stream m (dhStream h)).tcols)
    ((s.stream m (dhStream h)).k % (s.stream m (dhStream h)).tiles % (s.stream m (dhStream h)).tcols) (s.stream m (dhStream h)).held.length = true

/-- Where the segments of a stream's present tile that have arrived end. -/
def Stream.heldEnd (t : Stream) : Nat := (t.held.map fun x => pad64 x.2.1.length).sum

/-- The tile that a write stream is at. -/
def Stream.writes (t : Stream) : Nat := t.k % t.tiles

section
variable {s : State} {m : Nat} {h : BitVec 128} {seg : Bytes} (inj : Bool)

/-- A segment before the last of its tile is kept. -/
theorem segmentAt_held (hm : m < 4) (hf : Fits s m h seg) (hn : (s.stream m (dhStream h)).held.length + 1 < 2 ^ segSeglog seg) :
    s.segmentAt m h seg inj = s.putStream m (dhStream h) { s.stream m (dhStream h) with
      held := (s.stream m (dhStream h)).held ++ [((s.stream m (dhStream h)).heldEnd, seg, true)] } := by
  have hg := hf.moons.gone ⟨m, hm⟩
  have ho := hf.moons ⟨m, hm⟩
  dsimp only at hg ho
  unfold State.segmentAt
  dsimp only
  simp only [hf.valid, hf.writes, hf.whole, hf.code, hf.identity, hg, ho, hf.moons.partsOn, hf.moons.partsThere, hn, Bool.not_true, Bool.or_self,
    Bool.and_self, Bool.false_eq_true, if_false, if_true]
  rfl

/-- The one segment of a tile that is longer than the extent faults the stream (R268). -/
theorem segmentAt_long (hm : m < 4) (hf : Fits s m h seg) (hh : (s.stream m (dhStream h)).held = []) (hn : 2 ^ segSeglog seg = 1)
    (hl : (s.stream m (dhStream h)).stride < pad64 seg.length) :
    ∃ (u : State) (o : Nat), s.segmentAt m h seg inj = u.streamFault m (dhStream h) 0 o fStreamRange ∧ u.deep = s.deep := by
  have hg := hf.moons.gone ⟨m, hm⟩
  have ho := hf.moons ⟨m, hm⟩
  have hid := hf.identity
  rw [hh] at hid
  dsimp only [List.length_nil] at hg ho hid
  refine ⟨s.putStream m (dhStream h) { s.stream m (dhStream h) with held := [], k := (s.stream m (dhStream h)).k + 1 },
    (s.stream m (dhStream h)).tileAt (s.stream m (dhStream h)).writes, ?_, rfl⟩
  unfold State.segmentAt
  dsimp only
  simp only [hf.valid, hf.writes, hf.whole, hf.code, hid, hg, ho, hf.moons.partsOn, hf.moons.partsThere, hh, hn, hl, Bool.not_true, Bool.or_self,
    Bool.and_self, Bool.false_eq_true, if_false, if_true, List.length_nil, List.map_nil, List.sum_nil, Nat.zero_add, Nat.lt_irrefl]
  rfl

/-- The one segment of a tile that fits its extent is written there (R268). -/
theorem segmentAt_written (hm : m < 4) (hf : Fits s m h seg) (hh : (s.stream m (dhStream h)).held = []) (hn : 2 ^ segSeglog seg = 1)
    (hl : pad64 seg.length ≤ (s.stream m (dhStream h)).stride) :
    s.segmentAt m h seg inj =
      (s.putStream m (dhStream h) { s.stream m (dhStream h) with held := [], k := (s.stream m (dhStream h)).k + 1 }).homeOn homeFuel
        (.write m (dhStream h) (s.stream m (dhStream h)).writes ((s.stream m (dhStream h)).tileAt (s.stream m (dhStream h)).writes)
          [(0, seg, true)] (firstPadded [(0, seg, true)])) := by
  have hg := hf.moons.gone ⟨m, hm⟩
  have ho := hf.moons ⟨m, hm⟩
  have hid := hf.identity
  rw [hh] at hid
  dsimp only [List.length_nil] at hg ho hid
  unfold State.segmentAt
  dsimp only
  simp only [hf.valid, hf.writes, hf.whole, hf.code, hid, hg, ho, hf.moons.partsOn, hf.moons.partsThere, hh, hn, Nat.not_lt.2 hl, Bool.not_true,
    Bool.or_self, Bool.and_self, Bool.false_eq_true, if_false, if_true, List.length_nil, List.map_nil, List.sum_nil, Nat.zero_add, Nat.lt_irrefl,
    List.nil_append]
  rfl

end

/-- Bytes have been written to deep memory at an offset, and nowhere else. -/
structure DeepWritten (o : Nat) (b : Bytes) (s t : State) : Prop where
  inside : t.deepRead o b.length = b
  outside : ∀ a, a < o ∨ o + b.length ≤ a → t.deepRead a 1 = s.deepRead a 1
  cores : t.cores = s.cores
  clusters : t.clusters = s.clusters
  streams : t.streams = s.streams

theorem deepWritten_deepPut {s : State} {o : Nat} {b : Bytes} (h : o + b.length ≤ s.areaBase 0) : DeepWritten o b s (s.deepPut o b) := by
  rw [deepPut_below s o b h, sendsOnly_countBytes s 2 o b.length]
  exact ⟨deepRead_deepWrite_same _ o b, fun a ha => (deepRead_deepWrite_outside _ ha).trans rfl, rfl, rfl, rfl⟩

theorem deepPut_places {s : State} {o : Nat} {b : Bytes} (h : o + b.length ≤ s.areaBase 0) :
    (s.deepPut o b).domains = s.domains ∧ (s.deepPut o b).homes = s.homes := by
  rw [deepPut_below s o b h, sendsOnly_countBytes s 2 o b.length]
  exact ⟨rfl, rfl⟩

/-- What follows a write sends packets, or has a home wait. -/
theorem DeepWritten.after {o : Nat} {b : Bytes} {s t u : State} (h : DeepWritten o b s t) (hd : u.deep = t.deep) (hc : u.cores = t.cores)
    (hk : u.clusters = t.clusters) (hs : u.streams = t.streams) : DeepWritten o b s u :=
  ⟨(deepRead_of_deep hd _ _).trans h.inside, fun a ha => (deepRead_of_deep hd _ _).trans (h.outside a ha), hc.trans h.cores, hk.trans h.clusters,
    hs.trans h.streams⟩

theorem DeepWritten.acked {o : Nat} {b : Bytes} {s t : State} (h : DeepWritten o b s t) (m : Nat) (x : Stream) (v : BitVec 4) :
    DeepWritten o b s (t.ackSegment m x v) := by
  rw [ackSegment_frame]
  exact h.after rfl rfl rfl rfl

theorem regionCut_all {o n : Nat} (h : n ≤ 4096 - o % 4096) : regionCut o n = n := Nat.min_eq_left h

theorem regionCut_end {o n : Nat} (h : 4096 - o % 4096 < n) : regionCut o n = 4096 - o % 4096 := Nat.min_eq_right h.le

section
variable {s : State} {m n tile o : Nat} {seg : Bytes} (hm : m < 4) (hon : s.moonsOn) (hfree : s.home (moonOf o) = none)
  (hfit : o + pad64 seg.length ≤ s.areaBase 0)
include hm hon hfree hfit

/-- A segment that lies in one region is written by its home. -/
theorem homeOn_write_whole (hreg : pad64 seg.length ≤ 4096 - o % 4096) :
    DeepWritten o (firstPadded [(0, seg, true)]) s (s.homeOn homeFuel (.write m n tile o [(0, seg, true)] (firstPadded [(0, seg, true)]))) := by
  have hlen := length_firstPadded_one 0 seg true
  generalize firstPadded [(0, seg, true)] = b at hlen
  by_cases hb : b = []
  · subst hb
    rw [homeFuel, homeOn_write_acked]
    exact DeepWritten.acked ⟨rfl, fun _ _ => rfl, rfl, rfl, rfl⟩ _ _ _
  · have hz : o + (pad64 seg.length - b.length) = o := by omega
    rw [homeFuel, homeOn_write_put 63 hm hon hb hfree (by rw [hz]), hz, regionCut_all (by omega), List.take_length, List.drop_length,
      homeOn_write_acked]
    exact (deepWritten_deepPut (by omega)).acked _ _ _

/-- Of a segment that reaches into the next region its home writes the part in its own, and sends the rest by PART_WRITE. -/
theorem homeOn_write_split (hreg : 4096 - o % 4096 < pad64 seg.length) : ∃ v, DeepWritten o ((firstPadded [(0, seg, true)]).take (4096 - o % 4096)) s v ∧
    s.homeOn homeFuel (.write m n tile o [(0, seg, true)] (firstPadded [(0, seg, true)])) =
      v.awaitPart (.write m n tile o [(0, seg, true)] ((firstPadded [(0, seg, true)]).drop (4096 - o % 4096))) 4 (o + (4096 - o % 4096))
        (regionCut (o + (4096 - o % 4096)) (pad64 seg.length - (4096 - o % 4096)))
        (((firstPadded [(0, seg, true)]).drop (4096 - o % 4096)).take
          (regionCut (o + (4096 - o % 4096)) (pad64 seg.length - (4096 - o % 4096)))) := by
  have hlen := length_firstPadded_one 0 seg true
  generalize firstPadded [(0, seg, true)] = b at hlen
  have hpos : 0 < 4096 - o % 4096 := by omega
  have hnext : moonOf (o + (4096 - o % 4096)) ≠ moonOf o := by
    unfold moonOf
    omega
  have hcut := regionCut_end hreg
  generalize 4096 - o % 4096 = l at *
  have hdrop : (b.drop l).length = pad64 seg.length - l := by rw [List.length_drop, hlen]
  have htake : (b.take l).length = l := by rw [List.length_take]; omega
  have hput : o + (b.take l).length ≤ s.areaBase 0 := by omega
  have hz : o + (pad64 seg.length - b.length) = o := by omega
  have hr : o + (pad64 seg.length - (b.drop l).length) = o + l := by omega
  have hb : b ≠ [] := List.ne_nil_of_length_pos (by omega)
  have hrest : b.drop l ≠ [] := List.ne_nil_of_length_pos (by omega)
  obtain ⟨hdom, hhomes⟩ := deepPut_places hput
  have hfree' : (s.deepPut o (b.take l)).home (moonOf o) = none := by
    rw [State.home, hhomes]
    exact hfree
  refine ⟨s.deepPut o (b.take l), deepWritten_deepPut hput, ?_⟩
  rw [homeFuel, homeOn_write_put 63 hm hon hb hfree (by rw [hz]), hz, hlen, hcut,
    homeOn_write_part 62 hm (moonsOn_of_domains hdom hon) hrest hfree' (by rw [hr]; exact hnext), hr, hdrop]

end

theorem awaitPart_spec (s : State) (x : HomeOp) (o n : Nat) (data : Bytes) :
    ((s.awaitPart x 4 o n data).home (moonOf x.off)).isSome = true ∧
    ∃ p ∈ (s.awaitPart x 4 o n data).waiting, p.pkind = 0xA ∧ p.exit = 1 ∧ p.comp.toNat = moonOf o ∧
      p.hdr = (deepHeader 4 false false 0 0 o n 0).setWidth 256 ∧ p.data = data := by
  have hcomp : (BitVec.ofNat 3 (moonOf o)).toNat = moonOf o := by
    have : moonOf o < 4 := Nat.mod_lt _ (by decide)
    rw [BitVec.toNat_ofNat]
    omega
  refine ⟨?_, _, List.mem_append_right _ (List.mem_singleton.2 rfl), rfl, rfl, hcomp, rfl, rfl⟩
  exact congrArg Option.isSome (SMap.get_set_same _ s.homes (moonOf x.off) (some x))

/-! ### The outcomes of a whole tile -/

section
variable {s : State} {m : Nat} {h : BitVec 128} {seg : Bytes} {o : Nat} (inj : Bool) (hm : m < 4) (hf : Fits s m h seg)
  (hh : (s.stream m (dhStream h)).held = []) (hn : 2 ^ segSeglog seg = 1) (hl : pad64 seg.length ≤ (s.stream m (dhStream h)).stride)
  (ho : o = (s.stream m (dhStream h)).tileAt (s.stream m (dhStream h)).writes)
include hm hf hh hn hl ho

/-- The stream goes on to its next tile, and deep memory holds the segment. -/
theorem segmentAt_whole (hfit : o + pad64 seg.length ≤ s.areaBase 0) (hfree : s.home (moonOf o) = none)
    (hreg : pad64 seg.length ≤ 4096 - o % 4096) :
    ((s.segmentAt m h seg inj).stream m (dhStream h)).k = (s.stream m (dhStream h)).k + 1 ∧
    (s.segmentAt m h seg inj).deepRead o (pad64 seg.length) = firstPadded [(0, seg, true)] ∧
    (∀ a, a < o ∨ o + pad64 seg.length ≤ a → (s.segmentAt m h seg inj).deepRead a 1 = s.deepRead a 1) ∧
    (s.segmentAt m h seg inj).cores = s.cores ∧ (s.segmentAt m h seg inj).clusters = s.clusters := by
  rw [segmentAt_written inj hm hf hh hn hl, ← ho]
  have hk := State.stream_putStream_same s m (dhStream h) { s.stream m (dhStream h) with held := [], k := (s.stream m (dhStream h)).k + 1 }
  have hw := homeOn_write_whole (s := s.putStream m (dhStream h) { s.stream m (dhStream h) with held := [], k := (s.stream m (dhStream h)).k + 1 })
    (n := dhStream h) (tile := (s.stream m (dhStream h)).writes) (seg := seg) hm hf.moons hfree hfit hreg
  have hin := hw.inside
  have hout := hw.outside
  rw [length_firstPadded_one] at hin hout
  refine ⟨?_, hin, hout, hw.cores, hw.clusters⟩
  rw [State.stream, hw.streams]
  exact congrArg Stream.k hk

/-- The part in the home's region is in deep memory, and the rest is on its way to the next region's moon die. -/
theorem segmentAt_split (hfit : o + pad64 seg.length ≤ s.areaBase 0) (hfree : s.home (moonOf o) = none)
    (hreg : 4096 - o % 4096 < pad64 seg.length) : ∃ p ∈ (s.segmentAt m h seg inj).waiting,
    ((s.segmentAt m h seg inj).home (moonOf o)).isSome = true ∧ p.pkind = 0xA ∧ p.exit = 1 ∧ p.comp.toNat = moonOf (o + (4096 - o % 4096)) ∧
    p.hdr = (deepHeader 4 false false 0 0 (o + (4096 - o % 4096))
      (regionCut (o + (4096 - o % 4096)) (pad64 seg.length - (4096 - o % 4096))) 0).setWidth 256 ∧
    p.data = ((firstPadded [(0, seg, true)]).drop (4096 - o % 4096)).take (regionCut (o + (4096 - o % 4096)) (pad64 seg.length - (4096 - o % 4096))) ∧
    (s.segmentAt m h seg inj).deepRead o (4096 - o % 4096) = (firstPadded [(0, seg, true)]).take (4096 - o % 4096) ∧
    (∀ a, a < o ∨ o + (4096 - o % 4096) ≤ a → (s.segmentAt m h seg inj).deepRead a 1 = s.deepRead a 1) ∧
    (s.segmentAt m h seg inj).cores = s.cores ∧ (s.segmentAt m h seg inj).clusters = s.clusters := by
  rw [segmentAt_written inj hm hf hh hn hl, ← ho]
  obtain ⟨v, hw, he⟩ := homeOn_write_split
    (s := s.putStream m (dhStream h) { s.stream m (dhStream h) with held := [], k := (s.stream m (dhStream h)).k + 1 })
    (n := dhStream h) (tile := (s.stream m (dhStream h)).writes) (seg := seg) hm hf.moons hfree hfit hreg
  have hlen : ((firstPadded [(0, seg, true)]).take (4096 - o % 4096)).length = 4096 - o % 4096 := by
    rw [List.length_take, length_firstPadded_one]
    omega
  have hin := hw.inside
  have hout := hw.outside
  rw [hlen] at hin hout
  rw [he]
  obtain ⟨hhome, p, hp, hkind, hexit, hcomp, hhdr, hdata⟩ := awaitPart_spec v
    (.write m (dhStream h) (s.stream m (dhStream h)).writes o [(0, seg, true)] ((firstPadded [(0, seg, true)]).drop (4096 - o % 4096)))
    (o + (4096 - o % 4096)) (regionCut (o + (4096 - o % 4096)) (pad64 seg.length - (4096 - o % 4096)))
    (((firstPadded [(0, seg, true)]).drop (4096 - o % 4096)).take (regionCut (o + (4096 - o % 4096)) (pad64 seg.length - (4096 - o % 4096))))
  exact ⟨p, hp, hhome, hkind, hexit, hcomp, hhdr, hdata, hin, hout, hw.cores, hw.clusters⟩

/-- While the home is at work the tile waits for it. -/
theorem segmentAt_later (hbusy : (s.home (moonOf o)).isSome = true) (hs : seg ≠ []) :
    (s.segmentAt m h seg inj).homeWait.length = s.homeWait.length + 1 ∧ (s.segmentAt m h seg inj).deep = s.deep ∧
    (s.segmentAt m h seg inj).waiting = s.waiting := by
  have hne : firstPadded [(0, seg, true)] ≠ [] := List.append_ne_nil_of_left_ne_nil hs _
  rw [segmentAt_written inj hm hf hh hn hl, ← ho]
  have hw := homeOn_write_later (s := s.putStream m (dhStream h) { s.stream m (dhStream h) with held := [], k := (s.stream m (dhStream h)).k + 1 })
    (n := dhStream h) (tile := (s.stream m (dhStream h)).writes) 63 hm hf.moons hne (length_firstPadded_one 0 seg true) hbusy
  rw [homeFuel, hw]
  exact ⟨List.length_append, rfl, rfl⟩

end

/-! ### Deliveries (R182, R253, R270) -/

theorem bufferSegment_found {s : State} {c : CoreAt} {stream : Nat} {h : BitVec 128} {seg : Bytes} {inj : Bool} {txn : Option Nat} {b : RunTile}
    (hb : (s.core c).runAhead.find? (fun b => b.fits stream (dhIndex h) txn && decide (b.segs.length < b.need)) = some b) :
    ∃ v, s.bufferSegment c stream h seg inj txn = v ∧ v.core c = { s.core c with
      runAhead := (s.core c).runAhead.map fun y => if y = b then { b with segs := b.segs ++ [(seg, inj)] } else y } ∧ v.clusters = s.clusters := by
  refine ⟨_, rfl, ?_⟩
  unfold State.bufferSegment
  dsimp only
  rw [hb]
  exact ⟨State.core_putCore_same _ _ _, rfl⟩

theorem demandDone_copies {x : Core} (h : ∀ d ∈ x.demands, d.copy = []) (n : Nat) : ∀ d ∈ (x.demandDone n).demands, d.copy = [] := by
  unfold Core.demandDone
  split
  · exact h
  next d hd =>
    have hdc : d.copy = [] := h d (List.mem_of_find?_eq_some hd)
    dsimp only
    split
    · exact fun e he => h e (List.mem_of_mem_erase he)
    · intro e he
      obtain ⟨y, hy, rfl⟩ := List.mem_map.1 he
      split
      · exact hdc
      · exact h y hy

/-- With no claimed copy at a ring nothing lands from the buffer. -/
theorem landClaims_none {s : State} {r : CoreAt} (ep : Nat) (h : ∀ d ∈ (s.core r).demands, d.copy = []) : s.landClaims r ep = s := by
  unfold State.landClaims State.landClaimsN
  dsimp only
  split
  · rfl
  next d hd =>
    have hd' := h d (List.mem_of_find?_eq_some hd)
    exact if_pos (by rw [hd']; rfl)

/-- Run-ahead changes neither the receive endpoints nor the fabric queue of the core it is for, and no cluster (R270). -/
theorem speculate_keeps (s : State) (r : CoreAt) (m n g need : Nat) (step : BitVec 16) (l : List Nat) :
    ((s.speculate r m n g need step l).core r).re = (s.core r).re ∧ ((s.speculate r m n g need step l).core r).fqBulk = (s.core r).fqBulk ∧
    (s.speculate r m n g need step l).clusters = s.clusters := by
  induction l generalizing s with
  | nil => exact ⟨rfl, rfl, rfl⟩
  | cons j l ih =>
    unfold State.speculate
    extract_lets x y p u
    obtain ⟨h1, h2, h3⟩ := ih u
    have hu : (u.core r).re = x.re ∧ (u.core r).fqBulk = x.fqBulk ∧ u.clusters = s.clusters := by
      simp only [u]
      split
      · exact ⟨rfl, rfl, rfl⟩
      · refine ⟨?_, ?_, rfl⟩
        · exact (congrArg Core.re (State.core_putCore_same s r y)).trans rfl
        · exact (congrArg Core.fqBulk (State.core_putCore_same s r y)).trans rfl
    exact ⟨h1.trans hu.1, h2.trans hu.2.1, h3.trans hu.2.2⟩

theorem speculateOn_keeps (s : State) (r : CoreAt) (m n : Nat) : ((s.speculateOn r m n).core r).re = (s.core r).re ∧
    ((s.speculateOn r m n).core r).fqBulk = (s.core r).fqBulk ∧ (s.speculateOn r m n).clusters = s.clusters := by
  unfold State.speculateOn
  dsimp only
  split
  · exact ⟨rfl, rfl, rfl⟩
  · exact speculate_keeps _ _ _ _ _ _ _ _

/-- What follows a delivery that has landed: a demand has one segment less, claimed copies land, and the run-ahead goes on. -/
def State.afterLanding (s : State) (c : CoreAt) (m n ep : Nat) : State :=
  ((s.modCore c fun x => x.demandDone (32768 * m + n)).landClaims c ep).speculateOn c m n

/-- A demanded segment for a ring that takes it goes through the check of its core. -/
theorem deliverAt_checked {s : State} {c : CoreAt} {m : Nat} {h : BitVec 128} {seg : Bytes} {e : RecvEp} (inj : Bool) (txn : Option Nat)
    (he : e = (s.core c).recvEp (s.stream m (dhStream h)).rcvEp) (hoff : s.offline (clusterOf c) = false) (hspec : dhSpec h = false)
    (hv : e.valid = true) (hty : e.type = 1) (hfree : e.free ≠ 0) :
    s.deliverAt c m h seg inj txn =
      (if (s.landSegment c (s.stream m (dhStream h)).rcvEp seg (deliveryHeader (s.stream m (dhStream h)).rcvEp) none inj).2 then
        (s.landSegment c (s.stream m (dhStream h)).rcvEp seg (deliveryHeader (s.stream m (dhStream h)).rcvEp) none inj).1.afterLanding c m (dhStream h)
          (s.stream m (dhStream h)).rcvEp
      else (s.landSegment c (s.stream m (dhStream h)).rcvEp seg (deliveryHeader (s.stream m (dhStream h)).rcvEp) none inj).1) := by
  subst he
  unfold State.deliverAt
  dsimp only
  rw [if_neg (by rw [hoff]; exact Bool.false_ne_true), if_neg (by rw [hspec]; exact Bool.false_ne_true), if_neg (by simp [hv, hty, hfree])]
  rfl

theorem deliverAt_speculative {s : State} {c : CoreAt} {m : Nat} {h : BitVec 128} {seg : Bytes} (inj : Bool) (txn : Option Nat)
    (hoff : s.offline (clusterOf c) = false) (hspec : dhSpec h = true) :
    s.deliverAt c m h seg inj txn = s.bufferSegment c (32768 * m + dhStream h) h seg inj txn := by
  unfold State.deliverAt
  dsimp only
  rw [if_neg (by rw [hoff]; exact Bool.false_ne_true), if_pos hspec]

/-- With no claimed copy about, what follows leaves the endpoints and the fabric queue of the core alone. -/
theorem afterLanding_keeps (s : State) (c : CoreAt) (m n ep : Nat) (h : ∀ d ∈ (s.core c).demands, d.copy = []) :
    ((s.afterLanding c m n ep).core c).re = (s.core c).re ∧ ((s.afterLanding c m n ep).core c).fqBulk = (s.core c).fqBulk ∧
    (s.afterLanding c m n ep).clusters = s.clusters := by
  have hdone (x : Core) : (x.demandDone (32768 * m + n)).re = x.re ∧ (x.demandDone (32768 * m + n)).fqBulk = x.fqBulk := by
    unfold Core.demandDone
    split
    · exact ⟨rfl, rfl⟩
    · exact ⟨rfl, rfl⟩
  rw [State.afterLanding, landClaims_none ep (by rw [State.core_modCore_same]; exact demandDone_copies h _)]
  obtain ⟨h1, h2, h3⟩ := speculateOn_keeps (s.modCore c fun x => x.demandDone (32768 * m + n)) c m n
  rw [State.core_modCore_same] at h1 h2
  exact ⟨h1.trans (hdone _).1, h2.trans (hdone _).2, h3⟩

/-- The record of a segment that has landed stands at its endpoint, and its bytes with the fabric side. -/
theorem afterLanding_record {s s' : State} {c : CoreAt} {y : Core} {m n ep : Nat} {e : RecvEp} {q : List FabricJob} (hd : ∀ d ∈ y.demands, d.copy = [])
    (he : y.recvEp ep = e.segmentDone) (hq : y.fqBulk = q) (hk : s.clusters = s'.clusters) :
    ((((s.putCore c y).afterLanding c m n ep).core c).recvEp ep).recs = e.recs ++ [{ kind := 2, pos := e.wpos, slots := 1, landed := false }] ∧
    ((((s.putCore c y).afterLanding c m n ep).core c).recvEp ep).expSeq = e.expSeq + 1 ∧
    (((s.putCore c y).afterLanding c m n ep).core c).fqBulk = q ∧ ((s.putCore c y).afterLanding c m n ep).clusters = s'.clusters := by
  obtain ⟨h1, h2, h3⟩ := afterLanding_keeps (s.putCore c y) c m n ep (by rw [State.core_putCore_same]; exact hd)
  rw [State.core_putCore_same] at h1 h2
  have hr := (congrArg (fun r => SMap.get ({} : RecvEp) r ep) h1).trans he
  exact ⟨congrArg RecvEp.recs hr, congrArg RecvEp.expSeq hr, h2.trans hq, h3.trans hk⟩

theorem exec_deliver {c : CoreAt} {h : BitVec 128} {seg : Bytes} {s : State} {f : Packet → Bool} (hf : f = s.isFor c 0xB (h.setWidth 256) seg)
    (hroom : (s.core c).fabricRoom 1 = true) (hw : s.waits f c.core.val = false) (hok : deepHeaderOk 7 h = true) :
    exec (.deliver c h seg) s = .next ((s.arrived f c.core.val).deliverAt c (s.moonFrom c f (dhStream h)) h seg
      (s.injectedIn f c.core.val) (s.txnOf f c.core.val)) := by
  subst hf
  exact congrArg Host.Outcome.next ((onQueue_taken _ hroom hw).trans (if_pos hok))

theorem exec_segmentWrite {m : Fin 4} {h : BitVec 128} {seg : Bytes} {s : State} {f : Packet → Bool}
    (hf : f = isForComp 1 m.val 0xA (h.setWidth 256) seg) (hserve : s.serving m.val = false) (hw : s.waits f = false) (hok : deepHeaderOk 2 h = true) :
    exec (.segmentWrite m h seg) s = .next ((s.arrived f).segmentAt m.val h seg (s.injectedIn f)) := by
  subst hf
  exact congrArg Host.Outcome.next ((if_neg (by rw [hserve]; exact Bool.false_ne_true)).trans ((onArrival_taken _ hw).trans (if_pos hok)))

theorem fits_arrived {s : State} {m : Nat} {h : BitVec 128} {seg : Bytes} (hf : Fits s m h seg) (f : Packet → Bool) (i : Nat) :
    Fits (s.arrived f i) m h seg := by
  have hs := stream_arrived s f i m (dhStream h)
  exact ⟨by rw [hs]; exact hf.valid, by rw [hs]; exact hf.writes, by rw [hs]; exact hf.whole, moonsOn_of_domains (State.arrived_domains _ _ _) hf.moons,
    hf.code, by rw [hs]; exact hf.identity⟩

/-! ### The obligation -/

/-- Settles O22: a demand by `demandAt_noted` and `demandAt_faulted`, a segment of a write stream by `homeOn_write_whole` and `homeOn_write_split`, a
delivery by `deliverAt_checked` and `afterLanding_keeps`. -/
theorem deepMemoryStreams : Obligations.DeepMemoryStreams := by
  refine ⟨?demand, ?segment, ?delivery⟩
  case demand =>
    intro m h s t g tile ht hv hr hf hspec hok hw hg htile
    subst ht
    have hd : Demanded s m.val h := ⟨hv, hr, hf, hspec⟩
    have hda := demanded_arrived hd (isForComp 1 m.val 0xA (h.setWidth 256) []) 0
    have hst := stream_arrived s (isForComp 1 m.val 0xA (h.setWidth 256) []) 0 m.val (dhStream h)
    have hmo := moonOff_arrived s (isForComp 1 m.val 0xA (h.setWidth 256) []) 0
    refine ⟨fun hserve => congrArg Host.Outcome.next (if_pos hserve), fun hserve hoff hi => ?_, fun c code hserve hc hrun hcase => ?_⟩
    · obtain ⟨hview, hclaim⟩ := demandAt_noted (s.txnOf (isForComp 1 m.val 0xA (h.setWidth 256) [])) hda (by rw [hmo]; exact hoff) (by rw [hst]; exact hi)
      rw [hst, State.arrived_deep, State.arrived_cores] at hview
      rw [State.arrived_clusters] at hclaim
      simp only [State.demandView, Prod.mk.injEq] at hview
      obtain ⟨hdeep, hcores, hlast, hsweep⟩ := hview
      exact ⟨_, exec_demand hserve hw hok, hlast, hsweep.trans hg.symm, hdeep, hcores, hclaim⟩
    · have htile' : tile = (s.stream m.val (dhStream h)).tileOfDemand (dhIndex h) := htile.trans (by rw [hg]; rfl)
      obtain ⟨u, o, hu, hb⟩ := demandAt_faulted (code := code) (tile := tile) (s.txnOf (isForComp 1 m.val 0xA (h.setWidth 256) [])) hda
        (by rw [hst]; exact htile') (by rw [hst, hmo, home_arrived, deepBad_arrived]; exact hcase)
      refine ⟨_, exec_demand hserve hw hok, ?_⟩
      rw [hu]
      exact ((beforeFault_arrived s _ 0 _ _).trans hb).faulted _ _ _ hc hrun
  case segment =>
    intro m h seg s t o n l b ht hv hr hf hon hserve hok hw ho hn hl hb hcode hid
    subst ht
    generalize hfp : isForComp 1 m.val 0xA (h.setWidth 256) seg = f at hw
    have hexec := exec_segmentWrite hfp.symm hserve hw hok
    have hfit : Fits (s.arrived f) m.val h seg := fits_arrived ⟨hv, hr, hf, hon, hcode, hid⟩ f 0
    have hst := stream_arrived s f 0 m.val (dhStream h)
    have hdeep := State.arrived_deep s f 0
    have harea : (s.arrived f).areaBase 0 = s.areaBase 0 := areaBase_of_boot (State.arrived_boot s f 0) 0
    have hread (a k : Nat) : (s.arrived f).deepRead a k = s.deepRead a k := deepRead_of_deep hdeep a k
    have hhome (j : Nat) := home_arrived s f 0 j
    have hcores := State.arrived_cores s f 0
    have hclusters := State.arrived_clusters s f 0
    have hwait := State.arrived_waiting s f 0
    have hlater : (s.arrived f).homeWait = s.homeWait := State.arrived_homeWait s f 0
    have hb' : b = firstPadded [(0, seg, true)] := by rw [hb, hn, firstPadded_one]
    have ho' : o = ((s.arrived f).stream m.val (dhStream h)).tileAt ((s.arrived f).stream m.val (dhStream h)).writes := by
      rw [hst]
      exact ho
    subst hn hl hb'
    generalize s.arrived f = u at *
    refine ⟨fun hheld => ?_, fun hh h1 hs hfits hfree hreg => ?_, fun hh h1 hs hfits hfree hreg => ?_, fun hh h1 hs hbusy hne => ?_,
      fun hh h1 hs => ?_⟩
    · refine ⟨_, hexec, ?_⟩
      rw [segmentAt_held _ m.isLt hfit (by rw [hst]; exact hheld), State.stream_putStream_same, hst]
      exact ⟨List.length_append, rfl, hdeep⟩
    · obtain ⟨hk, hin, hout, hc, hcl⟩ := segmentAt_whole (s.injectedIn f) m.isLt hfit (by rw [hst]; exact hh) h1 (by rw [hst]; exact hs) ho'
        (by rw [harea]; exact hfits) (by rw [hhome]; exact hfree) hreg
      rw [hst] at hk
      exact ⟨_, hexec, hk, hin, fun a ha => (hout a ha).trans (hread _ _), hc.trans hcores, hcl.trans hclusters⟩
    · obtain ⟨p, hp, hsome, hkind, hexit, hcomp, hhdr, hdata, hin, hout, hc, hcl⟩ := segmentAt_split (s.injectedIn f) m.isLt hfit
        (by rw [hst]; exact hh) h1 (by rw [hst]; exact hs) ho' (by rw [harea]; exact hfits) (by rw [hhome]; exact hfree) hreg
      exact ⟨_, p, hexec, hsome, hp, hkind, hexit, hcomp, hhdr, hdata, hin, fun a ha => (hout a ha).trans (hread _ _), hc.trans hcores,
        hcl.trans hclusters⟩
    · obtain ⟨h2, h3, h4⟩ := segmentAt_later (s.injectedIn f) m.isLt hfit (by rw [hst]; exact hh) h1 (by rw [hst]; exact hs) ho'
        (by rw [hhome]; exact hbusy) hne
      rw [hlater] at h2
      exact ⟨_, hexec, h2, h3.trans hdeep, h4.trans hwait⟩
    · obtain ⟨v, p, hv, hvd⟩ := segmentAt_long (s.injectedIn f) m.isLt hfit (by rw [hst]; exact hh) h1 (by rw [hst]; exact hs)
      have hfault := streamFault_spec v m.val (dhStream h) 0 p fStreamRange
      rw [hv] at hexec
      exact ⟨_, hexec, congrArg Stream.faulted hfault.stream, hfault.deep.trans (hvd.trans hdeep)⟩
  case delivery =>
    intro c h seg s x f m ep e hx hf hm hep he hoff hw hok
    subst hx
    have hoff' : (s.arrived f c.core.val).offline (clusterOf c) = false := (offline_arrived _ _ _ _).trans hoff
    have hst := stream_arrived s f c.core.val m (dhStream h)
    have hcore := core_arrived s f c.core.val c
    refine ⟨fun hroom => ?_, fun b hroom hspec hfind => ?_, fun hroom hspec hv hty hfree hcode hrun => ?_,
      fun w hroom hspec hv hty hfree hcode hsok hseg hlog hrange hclaims hunpack => ?_⟩
    · exact congrArg Host.Outcome.next (onQueue_kept _ hoff (.inl hroom))
    all_goals
      have hexec := exec_deliver hf hroom hw hok
      rw [← hm] at hexec
    · rw [deliverAt_speculative _ _ hoff' hspec] at hexec
      obtain ⟨v, hb, hvc, hvk⟩ := bufferSegment_found (s := s.arrived f c.core.val) (c := c) (stream := 32768 * m + dhStream h) (h := h) (seg := seg)
        (inj := s.injectedIn f c.core.val) (txn := s.txnOf f c.core.val) (by rw [hcore]; exact hfind)
      rw [hb] at hexec
      rw [hcore] at hvc
      exact ⟨v, hexec, hvc, hvk.trans (State.arrived_clusters _ _ _)⟩
    · rw [deliverAt_checked (e := e) _ _ (by rw [hst, hcore, ← hep]; exact he) hoff' hspec hv hty hfree, hst, ← hep, landSegment_failed _ _ _ hcode] at hexec
      refine ⟨_, hexec, ?_⟩
      rw [if_neg Bool.false_ne_true, haltBy_core, haltBy_cluster _ _ _ (by rw [State.cluster_putCore, cluster_arrived]; exact hrun), State.core_putCore_same, hcore]
      exact ⟨rfl, rfl, rfl⟩
    · rw [deliverAt_checked (e := e) _ _ (by rw [hst, hcore, ← hep]; exact he) hoff' hspec hv hty hfree, hst, ← hep,
        landSegment_landed (e := e) _ _ _ (by rw [hcore]; exact he) (by rw [hcore]; exact hroom) hcode hsok hseg hlog hrange hunpack, hcore, now_arrived]
        at hexec
      refine ⟨_, hexec, ?_⟩
      rw [if_pos rfl]
      refine afterLanding_record ?_ (SMap.get_set_same _ _ _ _) rfl (State.arrived_clusters _ _ _)
      exact hclaims

end Sys2Proof.Machine

/-! PROOFS. Sequencer operations, the end of an issue cycle, and stall cycles (R105 to R109, R116 to R118, R193). -/

namespace Sys2Proof.Machine

/-! ### Readings of cores and clusters -/

/-- A change of one core leaves a reading of every core alone that it leaves alone there. -/
theorem reading_modCore {β : Type} {g : Core → β} {f : Core → Core} (hf : ∀ x, g (f x) = g x) (s : State) (e c : CoreAt) :
    g ((s.modCore e f).core c) = g (s.core c) := by
  by_cases h : c = e
  · rw [h, State.core_modCore_same, hf]
  · rw [State.core_modCore_ne s f h]

theorem reading_modCores {β : Type} {g : Core → β} {f : CoreAt → Core → Core} (hf : ∀ e x, g (f e x) = g x) (s : State) (k : ClusterAt)
    (c : CoreAt) : g ((s.modCores k f).core c) = g (s.core c) :=
  foldl_leaves (fun s => g (s.core c)) (fun s e => reading_modCore (hf e) s e c) _ s

theorem reading_modCluster {β : Type} {g : Cluster → β} {f : Cluster → Cluster} (hf : ∀ x, g (f x) = g x) (s : State) (j k : ClusterAt) :
    g ((s.modCluster j f).cluster k) = g (s.cluster k) := by
  by_cases h : k = j
  · rw [h, State.cluster_modCluster_same, hf]
  · rw [State.cluster_modCluster_ne s f h]

theorem core_of_cores {s t : State} (h : t.cores = s.cores) (c : CoreAt) : t.core c = s.core c := congrArg (fun m => SMap.get ({} : Core) m (coreKey c)) h
theorem cluster_of_clusters {s t : State} (h : t.clusters = s.clusters) (k : ClusterAt) : t.cluster k = s.cluster k :=
  congrArg (fun m => SMap.get ({} : Cluster) m (clusterKey k)) h

theorem coreIn_ne {c : CoreAt} {j : Fin 64} (h : j ≠ c.core) : coreIn (clusterOf c) j ≠ c := fun e => h (congrArg CoreAt.core e)

theorem mem_coresOf (k : ClusterAt) (j : Fin 64) : coreIn k j ∈ coresOf k := List.mem_map.2 ⟨j, List.mem_finRange j, rfl⟩

/-- A fold of steps that are each related to what they start from is so as a whole. -/
theorem foldl_related {α : Type} {R : State → State → Prop} (hr : ∀ s, R s s) (ht : ∀ {s t u}, R s t → R t u → R s u) {f : State → α → State}
    (h : ∀ s a, R s (f s a)) (l : List α) (s : State) : R s (l.foldl f s) := by
  induction l generalizing s with
  | nil => exact hr s
  | cons a l ih => exact ht (h s a) (ih _)

/-- Nothing of a state changes but its cores. -/
def State.coresOnly (s t : State) : Prop := t = { s with cores := t.cores }

theorem State.coresOnly.refl (s : State) : s.coresOnly s := rfl

theorem State.coresOnly.trans {s t u : State} (h : s.coresOnly t) (g : t.coresOnly u) : s.coresOnly u := by
  unfold State.coresOnly at *
  rw [g, h]

theorem coresOnly_modCore (s : State) (c : CoreAt) (f : Core → Core) : s.coresOnly (s.modCore c f) := rfl

theorem coresOnly_foldl {α : Type} {f : State → α → State} (h : ∀ (s : State) a, s.coresOnly (f s a)) (l : List α) (s : State) :
    s.coresOnly (l.foldl f s) :=
  foldl_related (R := State.coresOnly) (fun _ => rfl) State.coresOnly.trans h l s

/-! ### Rounds of a catch (R193, R194) -/

theorem coxSend_cores (s : State) (k : ClusterAt) (d : LCore) (b : BitVec 256) : (s.coxSend k d b).cores = s.cores :=
  (sendsOnly_injectAny _ _ _).cores

theorem coxSend_clusters (s : State) (k : ClusterAt) (d : LCore) (b : BitVec 256) : (s.coxSend k d b).clusters = s.clusters := by
  have h : s.sendsOnly (s.coxSend k d b) := sendsOnly_injectAny _ _ _
  rw [h]

theorem noteRelease_parts (s : State) (k : ClusterAt) (e : CatchSt) (arg : BitVec 8) :
    (s.noteRelease k e arg).cores = s.cores ∧ (s.noteRelease k e arg).clusters = s.clusters := by
  unfold State.noteRelease
  dsimp only
  (repeat' split) <;> exact ⟨rfl, rfl⟩

theorem incidentEvent_parts (s : State) (x : Incident) (v : BitVec 8) :
    (s.incidentEvent x v).cores = s.cores ∧ (s.incidentEvent x v).clusters = s.clusters :=
  ⟨State.raiseEvent_cores _ _ _ _, State.raiseEvent_clusters _ _ _ _⟩

theorem incidentsPass_parts (s : State) (n : BitVec 48) : (s.incidentsPass n).cores = s.cores ∧ (s.incidentsPass n).clusters = s.clusters := by
  unfold State.incidentsPass State.decideIncidents
  dsimp only
  exact ⟨foldl_leaves State.cores (fun t x => (incidentEvent_parts t x 1).1) _ _, foldl_leaves State.clusters (fun t x => (incidentEvent_parts t x 1).2) _ _⟩

theorem catchSendJoin_cores (s : State) (k : ClusterAt) (id : Nat) : (s.catchSendJoin k id).cores = s.cores := by
  unfold State.catchSendJoin
  dsimp only
  split
  · exact coxSend_cores _ _ _ _
  · rfl

theorem ckptCheck_cores (s : State) (k : ClusterAt) : (s.ckptCheck k).cores = s.cores := by
  unfold State.ckptCheck
  dsimp only
  split
  · rfl
  · split <;> rfl

section
variable {β : Type} {g : Core → β} (hg : ∀ x l, g { x with runAhead := l } = g x) (s : State) (k : ClusterAt) (c : CoreAt)
include hg

/-- Of the cores, a round of a catch changes the run-ahead tiles alone, which its release discards (R253). -/
theorem reading_dropOwned (cs : List CoreAt) : g ((s.dropOwned cs).core c) = g (s.core c) := by
  refine foldl_leaves (fun s => g (s.core c)) (fun t p => ?_) _ s
  split
  · split
    · exact reading_modCore (fun x => hg x _) _ _ _
    · rfl
  · rfl

theorem reading_catchRelease (id : Fin 16) (arg : BitVec 8) (faulted : Bool) : g ((s.catchRelease k id arg faulted).core c) = g (s.core c) := by
  unfold State.catchRelease
  extract_lets e s1 n e' s2 s3 s4 s5
  have h1 : s1.cores = s.cores := foldl_leaves State.cores (fun t d => coxSend_cores t k d _) _ s
  have h3 : g (s3.core c) = g (s.core c) :=
    (reading_dropOwned hg _ c _).trans ((reading_modCores (fun _ x => hg x _) s2 k c).trans (congrArg g (core_of_cores (t := s1) h1 c)))
  have h4 : s4.cores = s3.cores := by
    unfold s4
    split
    · exact (incidentsPass_parts _ _).1
    · rfl
  have h5 : s5.cores = s4.cores := by
    unfold s5
    split
    · rfl
    · exact (ckptCheck_cores _ _).trans (noteRelease_parts _ _ _ _).1
  exact (congrArg g (core_of_cores ((catchSendJoin_cores _ _ _).trans (h5.trans h4)) c)).trans h3

theorem reading_catchTry (id : Fin 16) : g ((s.catchTry k id).core c) = g (s.core c) := by
  unfold State.catchTry
  extract_lets e
  split
  · exact congrArg g (core_of_cores (catchSendJoin_cores _ _ _) c)
  · split
    · split
      · exact reading_catchRelease hg _ _ _ _ _ _
      · split
        · exact reading_catchRelease hg _ _ _ _ _ _
        · rfl
    · rfl

theorem reading_catchHalted : g ((s.catchHalted k).core c) = g (s.core c) :=
  (congrArg g (core_of_cores (ckptCheck_cores _ _) c)).trans (foldl_leaves (fun t => g (t.core c)) (fun t id => reading_catchTry hg t k c id) _ s)

end

/-- A round of a catch changes no cluster's record of the cores that have issued. -/
theorem catchSendJoin_issued (s : State) (k j : ClusterAt) (id : Nat) : ((s.catchSendJoin k id).cluster j).issued = (s.cluster j).issued := by
  unfold State.catchSendJoin
  dsimp only
  split
  · exact (congrArg Cluster.issued (cluster_of_clusters (coxSend_clusters _ _ _ _) j)).trans (reading_modCluster (g := Cluster.issued) (by exact fun _ => rfl) s k j)
  · rfl

theorem ckptCheck_issued (s : State) (k j : ClusterAt) : ((s.ckptCheck k).cluster j).issued = (s.cluster j).issued := by
  unfold State.ckptCheck
  dsimp only
  split
  · rfl
  · split
    · exact reading_modCluster (g := Cluster.issued) (by exact fun _ => rfl) s k j
    · rfl

theorem dropOwned_clusters (s : State) (cs : List CoreAt) : (s.dropOwned cs).clusters = s.clusters := by
  refine foldl_leaves State.clusters (fun t p => ?_) _ s
  split
  · split <;> rfl
  · rfl

theorem catchRelease_issued (s : State) (k j : ClusterAt) (id : Fin 16) (arg : BitVec 8) (faulted : Bool) :
    ((s.catchRelease k id arg faulted).cluster j).issued = (s.cluster j).issued := by
  unfold State.catchRelease
  extract_lets e s1 n e' s2 s3 s4 s5
  have h1 : s1.clusters = s.clusters := foldl_leaves State.clusters (fun t d => coxSend_clusters t k d _) _ s
  have h2 : (s2.cluster j).issued = (s1.cluster j).issued := by
    refine reading_modCluster (g := Cluster.issued) (fun x => ?_) s1 k j
    split <;> rfl
  have h3 : s3.clusters = s2.clusters :=
    (dropOwned_clusters _ _).trans (foldl_leaves State.clusters (fun t e => State.modCore_clusters t e _) _ s2)
  have h4 : s4.clusters = s3.clusters := by
    unfold s4
    split
    · exact (incidentsPass_parts _ _).2
    · rfl
  have h5 : (s5.cluster j).issued = (s4.cluster j).issued := by
    unfold s5
    split
    · rfl
    · exact (ckptCheck_issued _ k j).trans (congrArg Cluster.issued (cluster_of_clusters (noteRelease_parts _ _ _ _).2 j))
  rw [catchSendJoin_issued, h5, cluster_of_clusters (h4.trans h3), h2, cluster_of_clusters h1]

theorem catchTry_issued (s : State) (k j : ClusterAt) (id : Fin 16) : ((s.catchTry k id).cluster j).issued = (s.cluster j).issued := by
  unfold State.catchTry
  extract_lets e
  split
  · exact catchSendJoin_issued _ _ _ _
  · split
    · split
      · exact catchRelease_issued _ _ _ _ _ _
      · split
        · exact catchRelease_issued _ _ _ _ _ _
        · rfl
    · rfl

theorem catchHalted_issued (s : State) (k j : ClusterAt) : ((s.catchHalted k).cluster j).issued = (s.cluster j).issued :=
  (ckptCheck_issued _ _ _).trans (foldl_leaves (fun t => (t.cluster j).issued) (fun t id => catchTry_issued t k j id) _ s)

/-! ### The next slot (R109) -/

theorem slot_succ (x : BitVec 10) : BitVec.ofNat 10 (x.toNat + 1) = x + 1 := by
  rw [BitVec.ofNat_add, BitVec.ofNat_toNat, BitVec.setWidth_eq]
  rfl

/-- Outside a loop the next slot follows. -/
theorem goOn_outside {x : Core} (ha : x.nest.active = false) (hs : x.slot.toNat < 1023) : x.goOn = { x with slot := x.slot + 1 } := by
  simp only [Core.goOn, Core.fall, ha, if_neg hs.ne, Bool.false_eq_true, if_false, slot_succ]

/-- A level that repeats leads back to its first slot. -/
theorem goOn_repeats {x : Core} {n : Nat} {i : SMap (BitVec 16)} (ha : x.nest.active = true)
    (hl : loopStep x.nest.header x.slot.toNat (nestTop x.nest.header + 1) 0 x.nest.i = (some n, i)) :
    x.goOn = { x with slot := BitVec.ofNat 10 n, nest := { x.nest with i := i } } := by
  simp only [Core.goOn, Core.fall, ha, if_true, hl]

/-- Where no level repeats the next slot follows; behind the last slot of the outermost level the loop is over. -/
theorem goOn_through {x : Core} {i : SMap (BitVec 16)} (ha : x.nest.active = true) (hs : x.slot.toNat < 1023)
    (hl : loopStep x.nest.header x.slot.toNat (nestTop x.nest.header + 1) 0 x.nest.i = (none, i)) :
    x.goOn = { x with
         slot := x.slot + 1
         nest := { x.nest with i := i, active := !decide (x.slot.toNat = nestLast x.nest.header (nestTop x.nest.header)) } } := by
  by_cases hp : x.slot.toNat = nestLast x.nest.header (nestTop x.nest.header)
  · simp only [Core.goOn, Core.fall, ha, if_true, hl, if_neg hs.ne, slot_succ, if_pos hp, decide_eq_true hp, Bool.not_true]
  · simp only [Core.goOn, Core.fall, ha, if_true, hl, if_neg hs.ne, slot_succ, if_neg hp, decide_eq_false hp, Bool.not_false]

/-! ### A sequencer operation (R109) -/

/-- The unit operations of a core's word are done, and its sequencer operation is due. -/
structure SeqDue (s : State) (c : CoreAt) : Prop where
  accepted : (s.cluster (clusterOf c)).accepted = true
  live : (s.core c).halted = false
  waits : (s.cluster (clusterOf c)).issued.getLsbD c.core.val = false
  done : (s.core c).unitsDone = true

/-- The core of an issued word stands at its next position `y`, and the word is counted. -/
def State.seqIssued (s : State) (c : CoreAt) (y : Core) : State :=
  ((s.putCore c y).modCluster (clusterOf c) fun x => { x with issued := x.issued ||| coreBit c }).countWord c (s.core c).word

theorem seqUnit_eq {s : State} {c : CoreAt} {op : Nat} (act : Core → Word → Core) (after : State → State) (h : SeqDue (s.accept (clusterOf c)) c)
    (hop : seqOp ((s.accept (clusterOf c)).core c).word = op) :
    s.seqUnit c op act after = (after ((s.accept (clusterOf c)).seqIssued c
      (act ((s.accept (clusterOf c)).core c) ((s.accept (clusterOf c)).core c).word))).closeIfDone (clusterOf c) :=
  if_pos (by rw [h.accepted, h.live, h.waits, h.done, hop]; simp)

theorem core_seqIssued (s : State) (c : CoreAt) (y : Core) : (s.seqIssued c y).core c = y := State.core_putCore_same _ _ _

theorem core_seqIssued_ne (s : State) {c e : CoreAt} (y : Core) (h : e ≠ c) : (s.seqIssued c y).core e = s.core e := State.core_putCore_ne _ _ h

theorem issued_seqIssued (s : State) (c : CoreAt) (y : Core) (j : Fin 64) :
    ((s.seqIssued c y).cluster (clusterOf c)).issued.getLsbD j.val =
      ((s.cluster (clusterOf c)).issued.getLsbD j.val || decide (c.core = j)) := by
  have h : ((s.seqIssued c y).cluster (clusterOf c)).issued = (s.cluster (clusterOf c)).issued ||| coreBit c :=
    congrArg Cluster.issued (State.cluster_modCluster_same (s.putCore c y) (clusterOf c) fun x => { x with issued := x.issued ||| coreBit c })
  rw [h, BitVec.getLsbD_or, coreBit, BitVec.getLsbD_ofNat, Nat.testBit_two_pow, decide_eq_true j.isLt, Bool.true_and]
  simp only [Fin.ext_iff]

theorem closeIfDone_waits {s : State} {k : ClusterAt} {j : Fin 64} (hh : (s.core (coreIn k j)).halted = false)
    (hi : (s.cluster k).issued.getLsbD j.val = false) : s.closeIfDone k = s :=
  if_neg (by
    rw [Bool.not_eq_true, State.allIssued, List.all_eq_false]
    exact ⟨_, mem_coresOf k j, by rw [hh, show (coreIn k j).core = j from rfl, hi]; exact Bool.false_ne_true⟩)

theorem closeIfDone_done {s : State} {k : ClusterAt} (h : s.allIssued k = true) : s.closeIfDone k = (s.endCycle k).jobStep := if_pos h

/-- While another core of its cluster has still to issue, a sequencer operation moves its core and does nothing else to the cores. -/
theorem seqUnit_core {s : State} {c : CoreAt} {op : Nat} {y : Core} (act : Core → Word → Core) (h : SeqDue (s.accept (clusterOf c)) c)
    (hop : seqOp ((s.accept (clusterOf c)).core c).word = op)
    (hj : ∃ j : Fin 64, j ≠ c.core ∧ ((s.accept (clusterOf c)).core (coreIn (clusterOf c) j)).halted = false ∧
      ((s.accept (clusterOf c)).cluster (clusterOf c)).issued.getLsbD j.val = false)
    (hy : act ((s.accept (clusterOf c)).core c) ((s.accept (clusterOf c)).core c).word = y) : (s.seqUnit c op act id).core c = y := by
  obtain ⟨j, hjc, hlive, hwaits⟩ := hj
  rw [seqUnit_eq act id h hop, hy, id, closeIfDone_waits, core_seqIssued]
  · rwa [core_seqIssued_ne _ _ (coreIn_ne hjc)]
  · rw [issued_seqIssued, hwaits, Bool.false_or]
    exact decide_eq_false (Ne.symm hjc)

/-- A core that halts stays where it is, and counts as joined in every catch. -/
theorem seqUnit_halt {s : State} {c : CoreAt} (h : SeqDue (s.accept (clusterOf c)) c) (hop : seqOp ((s.accept (clusterOf c)).core c).word = 4)
    (hj : ∃ j : Fin 64, j ≠ c.core ∧ ((s.accept (clusterOf c)).core (coreIn (clusterOf c) j)).halted = false ∧
      ((s.accept (clusterOf c)).cluster (clusterOf c)).issued.getLsbD j.val = false) :
    ∃ t, exec (.halt c) s = .next t ∧ (t.core c).halted = true ∧ (t.core c).slot = ((s.accept (clusterOf c)).core c).slot := by
  obtain ⟨j, hjc, hlive, hwaits⟩ := hj
  refine ⟨_, rfl, ?_⟩
  rw [seqUnit_eq _ _ h hop, closeIfDone_waits]
  · rw [reading_catchHalted (g := Core.halted) (fun _ _ => rfl), reading_catchHalted (g := Core.slot) (fun _ _ => rfl), core_seqIssued]
    exact ⟨rfl, rfl⟩
  · rwa [reading_catchHalted (g := Core.halted) (fun _ _ => rfl), core_seqIssued_ne _ _ (coreIn_ne hjc)]
  · rw [catchHalted_issued, issued_seqIssued, hwaits, Bool.false_or]
    exact decide_eq_false (Ne.symm hjc)

/-! ### The end of an issue cycle -/

/-- What closing an issue cycle leaves alone, but for the cluster: deep memory, the flash, the host interface and the job. -/
def State.besides (s : State) : SMap Byte × NonVolatile × HostIf × Job := (s.deep, s.nv, s.host, s.job)

theorem deep_of_besides {s t : State} (h : t.besides = s.besides) : t.deep = s.deep := congrArg (fun b => b.1) h
theorem nv_of_besides {s t : State} (h : t.besides = s.besides) : t.nv = s.nv := congrArg (fun b => b.2.1) h
theorem host_of_besides {s t : State} (h : t.besides = s.besides) : t.host = s.host := congrArg (fun b => b.2.2.1) h
theorem job_of_besides {s t : State} (h : t.besides = s.besides) : t.job = s.job := congrArg (fun b => b.2.2.2) h

theorem besides_of_sendsOnly {s t : State} (h : s.sendsOnly t) : t.besides = s.besides := by
  rw [h]
  rfl

theorem clusters_of_sendsOnly {s t : State} (h : s.sendsOnly t) : t.clusters = s.clusters := by rw [h]

theorem sendsOnly_count (s : State) (g u n m i : Nat) : s.sendsOnly (s.count g u n m i) := rfl

theorem sendsOnly_countQueues (s : State) (c : CoreAt) : s.sendsOnly (s.countQueues c) := by
  unfold State.countQueues
  dsimp only
  split
  · exact .refl s
  · split <;> rfl

theorem sendsOnly_countEndpoints (s : State) (c : CoreAt) : s.sendsOnly (s.countEndpoints c) := by
  unfold State.countEndpoints
  extract_lets x add t
  have ha (u : State) (n m : Nat) : u.sendsOnly (add u n m) := by
    unfold add
    split <;> rfl
  refine State.sendsOnly.trans (t := t) (sendsOnly_foldl (fun u p => ?_) _ _) (sendsOnly_foldl (fun u p => ?_) _ _)
  · split
    · exact ha _ _ _
    · exact .refl u
  · split
    · exact ha _ _ _
    · exact .refl u

theorem sendsOnly_countSlots (s : State) (k : ClusterAt) : s.sendsOnly (s.countSlots k) := by
  unfold State.countSlots
  dsimp only
  split <;> rfl

theorem requestChecks_frame (s : State) (c : CoreAt) (x : Core) :
    ((s.putCore c x).requestChecks c).1.clusters = s.clusters ∧ ((s.putCore c x).requestChecks c).1.besides = s.besides := ⟨rfl, rfl⟩

theorem closeCore_frame (s : State) (c : CoreAt) : (s.closeCore c).1.clusters = s.clusters ∧ (s.closeCore c).1.besides = s.besides := by
  unfold State.closeCore
  extract_lets x n t r
  have ht : s.sendsOnly t := by
    unfold t
    split <;> rfl
  clear_value t x
  have hq : s.sendsOnly ((t.countQueues c).countEndpoints c) := ht.trans ((sendsOnly_countQueues t c).trans (sendsOnly_countEndpoints _ c))
  obtain ⟨hc, hb⟩ := requestChecks_frame ((t.countQueues c).countEndpoints c) c x.1.fabricTick
  exact ⟨hc.trans (clusters_of_sendsOnly hq), hb.trans (besides_of_sendsOnly hq)⟩

theorem haltOn_frame (s : State) (k : ClusterAt) (fs : List Raised) :
    (s.haltOn k fs).besides = s.besides ∧ ((s.haltOn k fs).cluster k).cycle = (s.cluster k).cycle ∧
    ((s.haltOn k fs).cluster k).clocks = (s.cluster k).clocks := by
  unfold State.haltOn
  split
  · exact ⟨rfl, rfl, rfl⟩
  · split
    · exact ⟨rfl, rfl, rfl⟩
    · next f r _ _ =>
      have h (g : Cluster → Nat) (hg : ∀ x, g { x with run := .halted, faultCode := some (BitVec.ofNat 16 f.code), stallLine := false } = g x) :=
        reading_modCluster hg s k k
      exact ⟨rfl, h Cluster.cycle fun _ => rfl, h Cluster.clocks fun _ => rfl⟩

/-- The state after the checks that close an issue cycle, and the faults they find. -/
def State.closed (s : State) (k : ClusterAt) : State × List Raised :=
  (coresOf k).foldl (fun p c => let r := p.1.closeCore c; (r.1, p.2 ++ r.2)) (s, (s.cluster k).endFaults)

theorem foldl_fst_leaves {α β γ : Type} (g : State → γ) {f : State × β → α → State × β} (h : ∀ p a, g (f p a).1 = g p.1) (l : List α)
    (p : State × β) : g (l.foldl f p).1 = g p.1 := by
  induction l generalizing p with
  | nil => rfl
  | cons a l ih => exact (ih _).trans (h p a)

theorem closed_frame (s : State) (k : ClusterAt) : (s.closed k).1.clusters = s.clusters ∧ (s.closed k).1.besides = s.besides := by
  unfold State.closed
  generalize coresOf k = l
  exact ⟨foldl_fst_leaves State.clusters (f := fun p c => let r := p.1.closeCore c; (r.1, p.2 ++ r.2)) (fun p c => (closeCore_frame p.1 c).1) _ _,
    foldl_fst_leaves State.besides (f := fun p c => let r := p.1.closeCore c; (r.1, p.2 ++ r.2)) (fun p c => (closeCore_frame p.1 c).2) _ _⟩

/-- A cluster behind the cycle that has ended; a stop that waited for its end takes effect. -/
def Cluster.nextCycle (x : Cluster) : Cluster :=
  { x with
    cycle := x.cycle + 1, clocks := x.clocks + 1, accepted := false, issued := 0, endFaults := [],
    run := if x.ckptStopped && decide (x.run = .running) then .stopped else x.run }

theorem endCycle_eq (s : State) (k : ClusterAt) :
    s.endCycle k = (((s.closed k).1.haltOn k (s.closed k).2).modCluster k Cluster.nextCycle |>.countSlots k).count 8 (coxUnit k) 0 0 := rfl

theorem endCycle_spec (s : State) (k : ClusterAt) :
    (s.endCycle k).besides = s.besides ∧ ((s.endCycle k).cluster k).cycle = (s.cluster k).cycle + 1 ∧
    ((s.endCycle k).cluster k).clocks = (s.cluster k).clocks + 1 ∧
    ((s.endCycle k).cluster k).accepted = false ∧ ((s.endCycle k).cluster k).issued = 0 := by
  obtain ⟨hcl, hb⟩ := closed_frame s k
  obtain ⟨hb', hcy, hck⟩ := haltOn_frame (s.closed k).1 k (s.closed k).2
  rw [endCycle_eq]
  generalize (s.closed k).1.haltOn k (s.closed k).2 = u at *
  have hv := (sendsOnly_countSlots (u.modCluster k Cluster.nextCycle) k).trans (sendsOnly_count _ 8 (coxUnit k) 0 0 1)
  rw [cluster_of_clusters (clusters_of_sendsOnly hv) k, besides_of_sendsOnly hv, State.cluster_modCluster_same]
  refine ⟨hb'.trans hb, ?_, ?_, rfl, rfl⟩
  · exact congrArg (· + 1) (hcy.trans (congrArg Cluster.cycle (cluster_of_clusters hcl k)))
  · exact congrArg (· + 1) (hck.trans (congrArg Cluster.clocks (cluster_of_clusters hcl k)))

theorem jobStep_running {s : State} (hs : s.job.state = .running) (hb : s.job.between = .none) : s.jobStep = s := by
  unfold State.jobStep
  simp only [hs, hb]

theorem job_endCycle (s : State) (k : ClusterAt) : (s.endCycle k).job = s.job := job_of_besides (endCycle_spec s k).1

theorem cluster_seqIssued (s : State) (c : CoreAt) (y : Core) : (s.seqIssued c y).cluster (clusterOf c) =
    { s.cluster (clusterOf c) with issued := (s.cluster (clusterOf c)).issued ||| coreBit c } :=
  State.cluster_modCluster_same (s.putCore c y) (clusterOf c) fun x => { x with issued := x.issued ||| coreBit c }

theorem besides_seqIssued (s : State) (c : CoreAt) (y : Core) : (s.seqIssued c y).besides = s.besides := rfl

/-- The last sequencer operation of a cluster ends its cycle; while the job runs and nothing of it is due, nothing else follows. -/
theorem seqUnit_last {s : State} {c : CoreAt} {op : Nat} (act : Core → Word → Core) (h : SeqDue (s.accept (clusterOf c)) c)
    (hop : seqOp ((s.accept (clusterOf c)).core c).word = op)
    (hall : ∀ j : Fin 64, j ≠ c.core → ((s.accept (clusterOf c)).core (coreIn (clusterOf c) j)).halted = true ∨
      ((s.accept (clusterOf c)).cluster (clusterOf c)).issued.getLsbD j.val = true)
    (hb : (s.accept (clusterOf c)).job.between = .none) (hr : (s.accept (clusterOf c)).job.state = .running) :
    ∃ u : State, s.seqUnit c op act id = u.endCycle (clusterOf c) ∧ u.besides = (s.accept (clusterOf c)).besides ∧
      (u.cluster (clusterOf c)).cycle = ((s.accept (clusterOf c)).cluster (clusterOf c)).cycle ∧
      (u.cluster (clusterOf c)).clocks = ((s.accept (clusterOf c)).cluster (clusterOf c)).clocks := by
  rw [seqUnit_eq act id h hop, id]
  generalize s.accept (clusterOf c) = t at *
  generalize act (t.core c) (t.core c).word = y
  have hdone : (t.seqIssued c y).allIssued (clusterOf c) = true := by
    refine List.all_eq_true.2 fun e he => ?_
    obtain ⟨j, -, rfl⟩ := List.mem_map.1 he
    rw [show (coreIn (clusterOf c) j).core = j from rfl, issued_seqIssued]
    by_cases hj : j = c.core
    · simp [hj]
    · rw [core_seqIssued_ne _ _ (coreIn_ne hj)]
      rcases hall j hj with hh | hi
      · simp [hh]
      · simp [hi]
  have hjob : ((t.seqIssued c y).endCycle (clusterOf c)).job = t.job := (job_endCycle _ _).trans (job_of_besides (besides_seqIssued t c y))
  refine ⟨t.seqIssued c y, (closeIfDone_done hdone).trans (jobStep_running (by rw [hjob, hr]) (by rw [hjob, hb])), besides_seqIssued t c y, ?_, ?_⟩
  · rw [cluster_seqIssued]
  · rw [cluster_seqIssued]

/-! ### Stall cycles (R118) -/

theorem core_modEach (f : CoreAt → Core → Core) (l : List CoreAt) (hl : l.Nodup) (s : State) (c : CoreAt) :
    (l.foldl (fun s e => s.modCore e (f e)) s).core c = if c ∈ l then f c (s.core c) else s.core c := by
  induction l generalizing s with
  | nil => rfl
  | cons e l ih =>
    obtain ⟨he, hl⟩ := List.nodup_cons.1 hl
    rw [List.foldl_cons, ih hl]
    by_cases h : c = e
    · rw [h, if_neg he, if_pos List.mem_cons_self, State.core_modCore_same]
    · simp only [State.core_modCore_ne s (f e) h, List.mem_cons, h, false_or]

theorem nodup_coresOf (k : ClusterAt) : (coresOf k).Nodup := (List.nodup_finRange 64).map fun _ _ h => congrArg CoreAt.core h

/-- A change of every core of a cluster reaches each of them once. -/
theorem core_modCores (s : State) (k : ClusterAt) (f : CoreAt → Core → Core) (j : Fin 64) :
    (s.modCores k f).core (coreIn k j) = f (coreIn k j) (s.core (coreIn k j)) :=
  (core_modEach f _ (nodup_coresOf k) s _).trans (if_pos (mem_coresOf k j))

theorem coresOnly_modCores (s : State) (k : ClusterAt) (f : CoreAt → Core → Core) : s.coresOnly (s.modCores k f) :=
  coresOnly_foldl (fun t c => coresOnly_modCore t c (f c)) (coresOf k) s

theorem sendsOnly_countEpisode (s : State) (c : CoreAt) : s.sendsOnly (s.countEpisode c) := by
  unfold State.countEpisode
  split
  · dsimp only
    split <;> rfl
  · rfl

theorem sendsOnly_countStall (s : State) (k : ClusterAt) : s.sendsOnly (s.countStall k) := by
  unfold State.countStall
  dsimp only
  refine State.sendsOnly.trans (sendsOnly_foldl (fun u c => ?_) _ _) ((sendsOnly_countSlots _ k).trans (sendsOnly_foldl (fun u c => ?_) _ _))
  · split
    · exact (sendsOnly_count _ _ _ _ _ _).trans (sendsOnly_countEpisode _ c)
    · exact .refl u
  · exact (sendsOnly_countQueues u c).trans (sendsOnly_countEndpoints _ c)

/-- In a stall cycle a core's side of the fabric goes on, and its age may rise. -/
theorem ages_eq (x : Core) : ∃ a, x.ages = { x.fabricTick with age := a } := by
  unfold Core.ages
  split
  · exact ⟨_, rfl⟩
  · exact ⟨x.fabricTick.age, rfl⟩

/-- What counting and the ages of a cluster's cores leave alone. -/
theorem modCores_counted {s u : State} (hc : s.sendsOnly u) (k : ClusterAt) (f : CoreAt → Core → Core) :
    (u.modCores k f).clusters = s.clusters ∧ (u.modCores k f).deep = s.deep ∧ (u.modCores k f).mesh = s.mesh ∧
    (u.modCores k f).host = s.host ∧ (u.modCores k f).genhan = s.genhan := by
  have hm := coresOnly_modCores u k f
  generalize u.modCores k f = w at *
  rw [hm, hc]
  exact ⟨rfl, rfl, rfl, rfl, rfl⟩

theorem exec_next (c : CoreAt) (s : State) : exec (.next c) s = .next (s.seqUnit c 0 (fun x _ => x.goOn) id) := rfl
theorem exec_jump (c : CoreAt) (s : State) : exec (.jump c) s = .next (s.seqUnit c 1 (fun x w => x.jumpTo (seqTarget w)) id) := rfl
theorem exec_branch (c : CoreAt) (s : State) :
    exec (.branch c) s = .next (s.seqUnit c 2 (fun x w => if x.todo.cond then x.jumpTo (seqTarget w) else x.goOn) id) := rfl
theorem exec_nest (c : CoreAt) (s : State) : exec (.nest c) s = .next (s.seqUnit c 3 Core.loadNest id) := rfl

/-- The end of a stall cycle: the words are tested again in the next, and the clock goes on. -/
def State.stallOver (s : State) (k : ClusterAt) : State :=
  (s.modCluster k fun x => { x with stallLine := false, clocks := x.clocks + 1 }).count 8 (coxUnit k) 0 1

theorem stallOver_frame (s : State) (k : ClusterAt) :
    (s.stallOver k).cores = s.cores ∧ (s.stallOver k).deep = s.deep ∧ (s.stallOver k).mesh = s.mesh ∧ (s.stallOver k).host = s.host ∧
    (s.stallOver k).genhan = s.genhan := ⟨rfl, rfl, rfl, rfl, rfl⟩

theorem cluster_stallOver (s : State) (k : ClusterAt) :
    (s.stallOver k).cluster k = { s.cluster k with stallLine := false, clocks := (s.cluster k).clocks + 1 } :=
  State.cluster_modCluster_same s k fun x => { x with stallLine := false, clocks := x.clocks + 1 }

theorem exec_stallCycle {k : ClusterAt} {s : State} (h : ((s.accept k).cluster k).stallLine = true) :
    exec (.stallCycle k) s = .next ((((s.accept k).countStall k).modCores k fun _ x => x.ages).stallOver k) := by
  change execStallCycle k s = _
  unfold execStallCycle
  exact if_pos h

theorem core_stalled {s u : State} (hc : s.sendsOnly u) (k : ClusterAt) (j : Fin 64) :
    ∃ a, ((u.modCores k fun _ x => x.ages).stallOver k).core (coreIn k j) = { (s.core (coreIn k j)).fabricTick with age := a } := by
  obtain ⟨a, ha⟩ := ages_eq (s.core (coreIn k j))
  refine ⟨a, Eq.trans ?_ ha⟩
  rw [core_of_cores (stallOver_frame _ k).1, core_modCores, core_of_cores hc.cores]

theorem cluster_stalled {s u : State} (hc : s.sendsOnly u) (k : ClusterAt) :
    ((u.modCores k fun _ x => x.ages).stallOver k).cluster k = { s.cluster k with stallLine := false, clocks := (s.cluster k).clocks + 1 } := by
  rw [cluster_stallOver, cluster_of_clusters (modCores_counted hc k _).1]

theorem stalled_frame {s u : State} (hc : s.sendsOnly u) (k : ClusterAt) :
    ((u.modCores k fun _ x => x.ages).stallOver k).deep = s.deep ∧ ((u.modCores k fun _ x => x.ages).stallOver k).mesh = s.mesh ∧
    ((u.modCores k fun _ x => x.ages).stallOver k).host = s.host ∧ ((u.modCores k fun _ x => x.ages).stallOver k).genhan = s.genhan := by
  obtain ⟨-, hd, hm, hh, hg⟩ := stallOver_frame (u.modCores k fun _ x => x.ages) k
  obtain ⟨-, hd', hm', hh', hg'⟩ := modCores_counted hc k fun _ x => x.ages
  exact ⟨hd.trans hd', hm.trans hm', hh.trans hh', hg.trans hg'⟩

/-- The last sequencer operation of a cluster ends its cycle (R118). -/
theorem exec_last_spec {i : Instr} {s : State} {c : CoreAt} {op : Nat} (act : Core → Word → Core) (he : exec i s = .next (s.seqUnit c op act id))
    (h : SeqDue (s.accept (clusterOf c)) c) (hop : seqOp ((s.accept (clusterOf c)).core c).word = op)
    (hall : ∀ j : Fin 64, j ≠ c.core → ((s.accept (clusterOf c)).core (coreIn (clusterOf c) j)).halted = true ∨
      ((s.accept (clusterOf c)).cluster (clusterOf c)).issued.getLsbD j.val = true)
    (hb : (s.accept (clusterOf c)).job.between = .none) (hr : (s.accept (clusterOf c)).job.state = .running) :
    ∃ t, exec i s = .next t ∧ (t.cluster (clusterOf c)).cycle = ((s.accept (clusterOf c)).cluster (clusterOf c)).cycle + 1 ∧
      (t.cluster (clusterOf c)).clocks = ((s.accept (clusterOf c)).cluster (clusterOf c)).clocks + 1 ∧
      (t.cluster (clusterOf c)).accepted = false ∧ (t.cluster (clusterOf c)).issued = 0 ∧
      t.deep = (s.accept (clusterOf c)).deep ∧ t.nv = (s.accept (clusterOf c)).nv ∧ t.host = (s.accept (clusterOf c)).host := by
  obtain ⟨u, hu, hbes, hcy, hck⟩ := seqUnit_last act h hop hall hb hr
  obtain ⟨h1, h2, h3, h4, h5⟩ := endCycle_spec u (clusterOf c)
  have hbs := h1.trans hbes
  exact ⟨_, he.trans (congrArg Host.Outcome.next hu), h2.trans (congrArg (· + 1) hcy), h3.trans (congrArg (· + 1) hck), h4, h5,
    deep_of_besides hbs, nv_of_besides hbs, host_of_besides hbs⟩

/-! ### The obligation -/

/-- Settles O3: a sequencer operation moves its core by R109; with the last core of a cluster the cycle ends; a stall cycle keeps the cores. -/
theorem sequencerAndCycles : Obligations.SequencerAndCycles := by
  refine ⟨fun c s s' x w hs' hx hw hacc hlive hwaits hdone hj => ?_, fun c s s' n i hs' hacc hlive hwaits hdone hall hb hr hop hi => ?_,
    fun k s s' hs' hstall => ?_⟩
  · subst hx hw hs'
    have due : SeqDue (s.accept (clusterOf c)) c := ⟨hacc, hlive, hwaits, hdone⟩
    have core {op : Nat} {y : Core} (act : Core → Word → Core) (hop : seqOp ((s.accept (clusterOf c)).core c).word = op)
        (hy : act ((s.accept (clusterOf c)).core c) ((s.accept (clusterOf c)).core c).word = y) : (s.seqUnit c op act id).core c = y :=
      seqUnit_core act due hop hj hy
    refine ⟨fun hop ha hs => ⟨_, exec_next c s, core _ hop (goOn_outside ha hs)⟩,
      fun hop ha i n hl => ⟨_, exec_next c s, core _ hop (goOn_repeats ha hl)⟩,
      fun hop ha hs i hl => ⟨_, exec_next c s, core _ hop (goOn_through ha hs hl)⟩, fun hop => ⟨_, exec_jump c s, core _ hop rfl⟩,
      fun hop ht => ⟨_, exec_branch c s, core _ hop (if_pos ht)⟩, fun hop hf ha hs => ⟨_, exec_branch c s, core _ hop ?_⟩,
      fun hop => ⟨_, exec_nest c s, core _ hop rfl⟩, fun hop => seqUnit_halt due hop hj⟩
    rw [if_neg (by rw [hf]; exact Bool.false_ne_true), goOn_outside ha hs]
  · subst hs'
    have due : SeqDue (s.accept (clusterOf c)) c := ⟨hacc, hlive, hwaits, hdone⟩
    rcases hi with ⟨rfl, rfl⟩ | ⟨rfl, rfl⟩ | ⟨rfl, rfl⟩ | ⟨rfl, rfl⟩
    · exact exec_last_spec _ (exec_next c s) due hop hall hb hr
    · exact exec_last_spec _ (exec_jump c s) due hop hall hb hr
    · exact exec_last_spec _ (exec_branch c s) due hop hall hb hr
    · exact exec_last_spec _ (exec_nest c s) due hop hall hb hr
  · subst hs'
    have hc := sendsOnly_countStall (s.accept k) k
    exact ⟨_, exec_stallCycle hstall, core_stalled hc k, cluster_stalled hc k, stalled_frame hc k⟩

end Sys2Proof.Machine

/-! PROOFS. FENCE, catches and steering operations as they issue, and a cycle of the steering unit (R126, R193, R248, R253). -/

namespace Sys2Proof.Machine

/-! ### CE operations that act beyond their core -/

/-- A CE operation that the word names has its effect, and its core has done its part. -/
theorem ceUnit_act {s : State} {c : CoreAt} {op : Word → Core → Bool} (act : State → CoreAt → Word → State)
    (hr : (s.accept (clusterOf c)).ready c (·.ce) = true)
    (ho : op ((s.accept (clusterOf c)).core c).word ((s.accept (clusterOf c)).core c) = true) :
    s.ceUnit c op act = (act (s.accept (clusterOf c)) c ((s.accept (clusterOf c)).core c).word).modCore c Core.ceDone :=
  if_pos (by rw [hr, ho]; rfl)

/-! ### FENCE (R248, R253) -/

theorem coreAt_modCore (s : State) (c : CoreAt) (f : Core → Core) (l : LCore) : (s.modCore c f).coreAt l = s.coreAt l :=
  coreAt_of_repairMap (State.modCore_repairMap s c f) l

/-- One stream's part of what `dropOwned` discards. -/
def State.dropStream (s : State) (cs : List CoreAt) (p : Nat × Stream) : State :=
  match s.coreAt (p.2.owner s.pkg), s.coreAt (p.2.rcv s.pkg) with
    | some c, some r => if cs.contains c then s.modCore r fun y => { y with runAhead := y.runAhead.filter fun b => decide (b.stream ≠ p.1) } else s
    | _, _ => s

theorem coresOnly_dropStream (s : State) (cs : List CoreAt) (p : Nat × Stream) : s.coresOnly (s.dropStream cs p) := by
  unfold State.dropStream
  split
  · split <;> rfl
  · rfl

theorem coresOnly_dropOwned (s : State) (cs : List CoreAt) : s.coresOnly (s.dropOwned cs) :=
  coresOnly_foldl (fun t p => coresOnly_dropStream t cs p) _ s

/-- Discarding run-ahead tiles brings no core one that it had not. -/
theorem runAhead_dropStream (s : State) (cs : List CoreAt) (p : Nat × Stream) (e : CoreAt) :
    ((s.dropStream cs p).core e).runAhead ⊆ (s.core e).runAhead := by
  unfold State.dropStream
  split
  · next c r _ _ =>
    split
    · by_cases h : e = r
      · subst h
        rw [State.core_modCore_same]
        exact List.filter_subset_self _
      · rw [State.core_modCore_ne s _ h]
        exact List.Subset.refl _
    · exact List.Subset.refl _
  · exact List.Subset.refl _

theorem runAhead_dropStreams (cs : List CoreAt) (l : List (Nat × Stream)) (s : State) (e : CoreAt) :
    ((l.foldl (fun s p => s.dropStream cs p) s).core e).runAhead ⊆ (s.core e).runAhead := by
  induction l generalizing s with
  | nil => exact List.Subset.refl _
  | cons p l ih => exact List.Subset.trans (ih _) (runAhead_dropStream s cs p e)

/-- The core that a stream feeds loses the stream's tiles when one of its owner's cores asks for it. -/
theorem dropStream_own {s : State} {cs : List CoreAt} {p : Nat × Stream} {c r : CoreAt} (hc : s.coreAt (p.2.owner s.pkg) = some c)
    (hr : s.coreAt (p.2.rcv s.pkg) = some r) (hm : c ∈ cs) : ∀ b ∈ ((s.dropStream cs p).core r).runAhead, b.stream ≠ p.1 := by
  intro b hb
  have he : s.dropStream cs p = s.modCore r fun y => { y with runAhead := y.runAhead.filter fun b => decide (b.stream ≠ p.1) } := by
    unfold State.dropStream
    rw [hc, hr]
    exact if_pos (List.contains_iff_mem.2 hm)
  rw [he, State.core_modCore_same] at hb
  exact of_decide_eq_true (List.mem_filter.1 hb).2

theorem dropStreams_own {cs : List CoreAt} {l : List (Nat × Stream)} {s : State} {p : Nat × Stream} {c r : CoreAt} (hp : p ∈ l)
    (hc : s.coreAt (p.2.owner s.pkg) = some c) (hr : s.coreAt (p.2.rcv s.pkg) = some r) (hm : c ∈ cs) :
    ∀ b ∈ ((l.foldl (fun s p => s.dropStream cs p) s).core r).runAhead, b.stream ≠ p.1 := by
  induction l generalizing s with
  | nil => exact absurd hp List.not_mem_nil
  | cons q l ih =>
    intro b hb
    rcases List.mem_cons.1 hp with rfl | hp
    · exact dropStream_own hc hr hm b (runAhead_dropStreams cs l _ r hb)
    · have g := coresOnly_dropStream s cs q
      have hmap : (s.dropStream cs q).repairMap = s.repairMap := by rw [g]
      have hpkg : (s.dropStream cs q).pkg = s.pkg := by rw [g]
      exact ih hp (by rw [coreAt_of_repairMap hmap, hpkg, hc]) (by rw [coreAt_of_repairMap hmap, hpkg, hr]) b hb

/-- A fence of wide scope: the core's own run-ahead buffer is empty, and no core holds a tile of a stream that the core owns. -/
theorem exec_fence_wide {s s' : State} {c : CoreAt} {x : Core} (hs' : s' = s.accept (clusterOf c)) (hx : x = s'.core c)
    (hr : s'.ready c (·.ce) = true) (hop : ceOp x.word = 8) (hw : 3 ≤ ceArg x.word) :
    ∃ t, exec (.fence c) s = .next t ∧ t.core c = { x with runAhead := [], todo := { x.todo with ce := false } } ∧
      (∀ m st r b, (m, st) ∈ s'.streams → s'.coreAt (st.owner s'.pkg) = some c → s'.coreAt (st.rcv s'.pkg) = some r → b ∈ (t.core r).runAhead →
        b.stream ≠ m) ∧ t.clusters = s'.clusters ∧ t.streams = s'.streams ∧ t.deep = s'.deep := by
  have he : exec (.fence c) s = .next (((s'.modCore c fun x => { x with runAhead := [] }).dropOwned [c]).modCore c Core.ceDone) := by
    change Host.Outcome.next (s.ceUnit c _ _) = _
    subst hs' hx
    rw [ceUnit_act _ hr (decide_eq_true hop), if_pos hw]
  generalize hu : s'.modCore c (fun x => { x with runAhead := [] }) = u at he
  have hucore : u.core c = { x with runAhead := [] } := by rw [← hu, State.core_modCore_same, hx]
  have hf := coresOnly_dropOwned u [c]
  refine ⟨_, he, ?_, fun m st r b hst ho hrc hb => ?_, ?_⟩
  · rw [State.core_modCore_same]
    have hempty : ((u.dropOwned [c]).core c).runAhead = [] :=
      List.subset_nil.1 (List.Subset.trans (runAhead_dropStreams [c] u.streams u c) (by rw [hucore]; exact List.Subset.refl _))
    have hrest := reading_dropOwned (g := fun y : Core => ({ y with runAhead := [] } : Core)) (fun _ _ => rfl) u c [c]
    rw [hucore] at hrest
    generalize (u.dropOwned [c]).core c = y at hempty hrest
    have hy : y = { y with runAhead := [] } := by rw [← hempty]
    rw [hy, hrest]
    rfl
  · have hb' : b ∈ ((u.dropOwned [c]).core r).runAhead := by
      rwa [reading_modCore (g := Core.runAhead) (f := Core.ceDone) (fun _ => rfl)] at hb
    subst hu
    exact dropStreams_own (p := (m, st)) hst (by rw [coreAt_modCore]; exact ho) (by rw [coreAt_modCore]; exact hrc) List.mem_cons_self b hb'
  · subst hu
    generalize State.dropOwned _ [c] = v at *
    rw [hf]
    exact ⟨rfl, rfl, rfl⟩

/-! ### Catches (R193, R196) -/

theorem deep_of_guarded {s t : State} (h : t.guarded = s.guarded) : t.deep = s.deep := ((guarded_iff s t).1 h).2.2.1

/-- A core that joins notes the round behind those released; what follows of the round changes its run-ahead tiles alone. -/
theorem coreJoins_core (s : State) (c : CoreAt) (id : Fin 16) (arg : BitVec 8) :
    ((s.coreJoins c id arg).core c).joined =
      SMap.set 0 (s.core c).joined id.val (((s.cluster (clusterOf c)).catchOf id.val).released + 1) ∧
    ((s.coreJoins c id arg).core c).todo = (s.core c).todo ∧ ((s.coreJoins c id arg).core c).spad = (s.core c).spad := by
  unfold State.coreJoins
  extract_lets k t
  have ht : t.core c = { s.core c with
      joined := SMap.set 0 (s.core c).joined id.val (((s.cluster k).catchOf id.val).released + 1)
      joinArg := SMap.set 0 (s.core c).joinArg id.val arg } := State.core_modCore_same s c _
  rw [reading_catchTry (g := Core.joined) (fun _ _ => rfl), reading_catchTry (g := Core.todo) (fun _ _ => rfl),
    reading_catchTry (g := Core.spad) (fun _ _ => rfl), State.core_modCluster, ht]
  exact ⟨rfl, rfl, rfl⟩

/-- A core joins a catch, in the round that follows those released. -/
theorem exec_catch_joins {s s' : State} {c : CoreAt} {x : Core} (hs' : s' = s.accept (clusterOf c)) (hx : x = s'.core c)
    (hr : s'.ready c (·.ce) = true) (hop : ceOp x.word = 9) :
    ∃ t, exec (.catch_ c) s = .next t ∧
      SMap.get 0 (t.core c).joined (ceEp x.word % 16) = ((s'.cluster (clusterOf c)).catchOf (ceEp x.word % 16)).released + 1 ∧
      (t.core c).todo = { x.todo with ce := false } ∧ (t.core c).spad = x.spad ∧ t.deep = s'.deep := by
  have he : exec (.catch_ c) s = .next ((s'.coreJoins c ⟨ceEp x.word % 16, by omega⟩ (BitVec.ofNat 8 (ceArg x.word))).modCore c Core.ceDone) := by
    change Host.Outcome.next (s.ceUnit c _ _) = _
    subst hs' hx
    rw [ceUnit_act _ hr (decide_eq_true hop)]
  obtain ⟨hj, ht, hsp⟩ := coreJoins_core s' c ⟨ceEp x.word % 16, by omega⟩ (BitVec.ofNat 8 (ceArg x.word))
  rw [← hx] at hj ht hsp
  refine ⟨_, he, ?_, ?_, ?_, ?_⟩
  · rw [State.core_modCore_same]
    exact (congrArg (SMap.get 0 · _) hj).trans (SMap.get_set_same _ _ _ _)
  · rw [State.core_modCore_same]
    exact congrArg (fun d : Todo => { d with ce := false }) ht
  · rw [State.core_modCore_same]
    exact hsp
  · exact deep_of_guarded (guarded_coreJoins _ _ _ _)

theorem ckptCheck_mesh (s : State) (k : ClusterAt) : (s.ckptCheck k).mesh = s.mesh := by
  unfold State.ckptCheck
  dsimp only
  split
  · rfl
  · split <;> rfl

/-- CATCH_WAIT notes the round that its core has joined. -/
theorem exec_catchWait_notes {s s' : State} {c : CoreAt} {x : Core} (hs' : s' = s.accept (clusterOf c)) (hx : x = s'.core c)
    (hr : s'.ready c (·.ce) = true) (hop : ceOp x.word = 10) :
    ∃ t, exec (.catchWait c) s = .next t ∧
      t.core c = { x with waited := SMap.set 0 x.waited (ceEp x.word) (SMap.get 0 x.joined (ceEp x.word)), todo := { x.todo with ce := false } } ∧
      t.mesh = s'.mesh := by
  have he : exec (.catchWait c) s = .next (((s'.modCore c fun y =>
      { y with waited := SMap.set 0 y.waited (ceEp x.word) (SMap.get 0 y.joined (ceEp x.word)) }).ckptCheck (clusterOf c)).modCore c Core.ceDone) := by
    change Host.Outcome.next (s.ceUnit c _ _) = _
    subst hs' hx
    rw [ceUnit_act _ hr (decide_eq_true hop)]
  refine ⟨_, he, ?_, ?_⟩
  · rw [State.core_modCore_same, core_of_cores (ckptCheck_cores _ _), State.core_modCore_same, ← hx]
    rfl
  · rw [State.modCore_mesh, ckptCheck_mesh, State.modCore_mesh]

/-! ### A cycle of the steering unit (R125, R126) -/

/-- The Bulk queue of a core, and the accesses that wait for a queue. -/
def Core.bulk (x : Core) : List FabricJob × List (Nat × FabricJob) := (x.fqBulk, x.ceWait)

/-- An access that enters the Bulk queue, or waits for it, changes these alone. -/
theorem enqueue_bulk_eq (x : Core) (j : FabricJob) :
    x.enqueue 1 j = { x with fqBulk := (x.enqueue 1 j).fqBulk, ceWait := (x.enqueue 1 j).ceWait } := by
  unfold Core.enqueue
  split <;> rfl

theorem bulk_enqueue {x y : Core} (h : x.bulk = y.bulk) (j : FabricJob) : (x.enqueue 1 j).bulk = (y.enqueue 1 j).bulk := by
  obtain ⟨hq, hw⟩ := Prod.mk.inj h
  have hroom : x.fabricRoom 1 = y.fabricRoom 1 := by
    unfold Core.fabricRoom
    rw [hw]
    exact congrArg (fun l : List FabricJob => decide (l.length < 8) && _) hq
  unfold Core.enqueue
  rw [hroom]
  split
  · exact Prod.ext (congrArg (· ++ [j]) hq) hw
  · exact Prod.ext hq (congrArg (· ++ [(1, j)]) hw)

theorem bulk_enqueues {x y : Core} (h : x.bulk = y.bulk) (l : List FabricJob) :
    (l.foldl (fun y j => y.enqueue 1 j) x).bulk = (l.foldl (fun y j => y.enqueue 1 j) y).bulk := by
  induction l generalizing x y with
  | nil => exact h
  | cons j l ih => exact ih (bulk_enqueue h j)

/-- What a record that leaves shares with its core from before: the steering unit and the scratchpad. -/
theorem launchRecord_spec (s : State) (c : CoreAt) (ep n from_ : Nat) (rel : Option (Fin 16)) :
    ∃ j, ((s.launchRecord c ep n from_ rel).core c).bulk = ((s.core c).enqueue 1 j).bulk ∧
      ((s.launchRecord c ep n from_ rel).core c).steer = (s.core c).steer ∧ ((s.launchRecord c ep n from_ rel).core c).spad = (s.core c).spad := by
  unfold State.launchRecord
  extract_lets x e size tail self dep wrap seq1 pos skips data src e' y job
  have hy : y.bulk = x.bulk ∧ y.steer = x.steer ∧ y.spad = x.spad := by
    unfold y
    split <;> exact ⟨rfl, rfl, rfl⟩
  obtain ⟨hb, hst, hsp⟩ := hy
  have he := enqueue_bulk_eq (y.putSend ep e') job
  have hcore : (((s.putCore c ((y.putSend ep e').enqueue 1 job)).countRecord c ep (e.need n)).core c) = (y.putSend ep e').enqueue 1 job :=
    State.core_putCore_same s c _
  refine ⟨job, ?_⟩
  rw [hcore]
  exact ⟨bulk_enqueue (x := y.putSend ep e') hb job, by rw [he]; exact hst, by rw [he]; exact hsp⟩

/-- Records that leave on a list of endpoints, one access for each. -/
theorem launchRecords_spec (c : CoreAt) (n from_ : Nat) (rel : Fin 16 × Nat → Option (Fin 16)) (l : List (Fin 16 × Nat)) (s : State) :
    ∃ jobs : List FabricJob, jobs.length = l.length ∧
      ((l.foldl (fun s p => s.launchRecord c p.1.val n from_ (rel p)) s).core c).bulk = (jobs.foldl (fun y j => y.enqueue 1 j) (s.core c)).bulk ∧
      ((l.foldl (fun s p => s.launchRecord c p.1.val n from_ (rel p)) s).core c).steer = (s.core c).steer ∧
      ((l.foldl (fun s p => s.launchRecord c p.1.val n from_ (rel p)) s).core c).spad = (s.core c).spad := by
  induction l generalizing s with
  | nil => exact ⟨[], rfl, rfl, rfl, rfl⟩
  | cons p l ih =>
    obtain ⟨j, hb, hst, hsp⟩ := launchRecord_spec s c p.1.val n from_ (rel p)
    obtain ⟨jobs, hlen, hb', hst', hsp'⟩ := ih (s.launchRecord c p.1.val n from_ (rel p))
    exact ⟨j :: jobs, congrArg (· + 1) hlen, hb'.trans (bulk_enqueues hb jobs), hst'.trans hst, hsp'.trans hsp⟩

theorem returnCredits_cores (s : State) (c : CoreAt) (ep n : Nat) : (s.returnCredits c ep n).cores = s.cores := by
  unfold State.returnCredits
  dsimp only
  split
  · rfl
  · split
    · rfl
    · split
      · split
        · unfold State.ringCredit
          dsimp only
          rw [(pumped_pumpStream _ _ _).frame]
          rfl
        · rfl
      · rfl

/-- Released records leave the receive endpoints alone changed. -/
theorem reading_releaseRecs {β : Type} {g : Core → β} (hg : ∀ x l, g { x with re := l } = g x) (s : State) (c : CoreAt) (ep n : Nat) :
    g ((s.releaseRecs c ep n).core c) = g (s.core c) := by
  unfold State.releaseRecs
  dsimp only
  rw [core_of_cores (returnCredits_cores _ _ _ _), State.core_putCore_same, hg]

/-- The core of a steering unit behind a pair: both messages are taken, and the pair is counted. -/
def Core.paired (x : Core) : Core := ((x.takeHead x.steer.tokenEp).takeHead x.steer.dataEp).pairDone

section
variable {s : State} {c : CoreAt} {x : Core} {tk : BitVec 32} {d : Rec} (hx : x = (s.core c).takeIn (s.now c)) (hpend : x.steer.pending ≠ 0)
  (hdq : x.steer.dq ≠ 0) (htok : x.token = some tk) (hhead : (x.recvEp x.steer.dataEp).head = some d)
include hx hpend hdq htok hhead

/-- A malformed token halts the cluster (R126). -/
theorem steerCycle_malformed (hok : tokenOk tk x.steer.outMask = false) : s.steerCycle c = (s.putCore c x).haltBy c fSteerToken := by
  unfold State.steerCycle
  simp only [← hx, hpend, hdq, or_self, if_false, htok, hhead, hok, Bool.not_false, if_true]

/-- A pair that its token drops frees both records (R126). -/
theorem steerCycle_dropped (hok : tokenOk tk x.steer.outMask = true) (hdrop : bitsOf tk.toNat 31 30 = 2) :
    s.steerCycle c = (((s.putCore c x).putCore c x.paired).releaseRecs c x.steer.dataEp 1).releaseRecs c x.steer.tokenEp 1 := by
  unfold State.steerCycle
  simp only [← hx, hpend, hdq, or_self, if_false, htok, hhead, hok, Bool.not_true, Bool.false_eq_true, hdrop, if_true]
  rfl

/-- A valid pair whose targets have the credits sends one record to each (R126). -/
theorem steerCycle_sent (hok : tokenOk tk x.steer.outMask = true) (hsend : bitsOf tk.toNat 31 30 ≠ 2) (hheld : s.genhan.held = false)
    (hcred : ∀ i ∈ tokenTargets tk, (x.sendEp i.val).hasCredit ((x.sendEp i.val).need d.slots) = true) :
    ∃ (n : Nat) (rel : Fin 16 × Nat → Option (Fin 16)), s.steerCycle c = (tokenTargets tk).zipIdx.foldl (fun s p => s.launchRecord c p.1.val d.slots n (rel p))
      (((s.putCore c x).putCore c x.paired).releaseRecs c x.steer.tokenEp 1) := by
  have hall : ((tokenTargets tk).all fun i => (x.sendEp i.val).hasCredit ((x.sendEp i.val).need d.slots)) = true := List.all_eq_true.2 hcred
  unfold State.steerCycle
  simp only [← hx, hpend, hdq, or_self, if_false, htok, hhead, hok, Bool.not_true, Bool.false_eq_true, hsend, State.putCore_genhan, hheld, hall]
  exact ⟨_, fun p => if p.2 = (tokenTargets tk).length - 1 then some ⟨x.steer.dataEp % 16, by omega⟩ else none, rfl⟩

end

theorem exec_steerCycle {s : State} {c : CoreAt} (hen : (s.core c).steer.enabled = true) (hrun : (s.cluster (clusterOf c)).run = .running) :
    exec (.steerCycle c) s = .next (s.steerCycle c) :=
  if_pos (by rw [hen, hrun]; rfl)

/-! ### The obligation -/

/-- Settles O13: FENCE, the catches and the steering operations as they issue, and the steering unit's outcomes for the pair at its heads. -/
theorem orderingCatchAndSteering : Obligations.OrderingCatchAndSteering := by
  refine ⟨fun c s s' x w d hs' hx hw hr hd => ?_, fun c s x tk d hen hrun hx hpend hdq htok hhead => ?_⟩
  · subst hw hd
    refine ⟨fun hop hn => ?_, exec_fence_wide hs' hx hr, exec_catch_joins hs' hx hr, exec_catchWait_notes hs' hx hr, fun hop => ?_, fun hop => ?_⟩
    all_goals subst hs' hx
    · have hy : (if 3 ≤ ceArg ((s.accept (clusterOf c)).core c).word then
            (((s.accept (clusterOf c)).modCore c fun x => { x with runAhead := [] }).dropOwned [c]) else s.accept (clusterOf c)) =
          (s.accept (clusterOf c)) := if_neg (by omega)
      refine congrArg Host.Outcome.next ((ceUnit_act _ hr (decide_eq_true hop)).trans ?_)
      rw [hy]
      rfl
    · refine congrArg Host.Outcome.next ((ceUnit_act _ hr (decide_eq_true hop)).trans (modCore_putCore _ c _ Core.ceDone))
    · exact congrArg Host.Outcome.next (ceUnit_act _ hr (decide_eq_true hop))
  · have he := exec_steerCycle hen hrun
    refine ⟨fun hok => ⟨_, he, ?_⟩, fun hok hdrop => ⟨_, he, ?_⟩, fun hok hsend hheld hcred => ?_⟩
    · rw [steerCycle_malformed hx hpend hdq htok hhead hok]
      have hrun' : ((s.putCore c x).cluster (clusterOf c)).run ≠ .halted := by
        rw [State.cluster_putCore, hrun]
        exact nofun
      unfold State.haltBy
      rw [haltOn_cluster _ hrun', core_of_cores (haltOn_cores _ _ _).2.1, State.core_putCore_same]
      exact ⟨rfl, rfl, rfl⟩
    · rw [steerCycle_dropped hx hpend hdq htok hhead hok hdrop, reading_releaseRecs (g := Core.steer) (fun _ _ => rfl),
        reading_releaseRecs (g := Core.steer) (fun _ _ => rfl), reading_releaseRecs (g := Core.fqBulk) (fun _ _ => rfl),
        reading_releaseRecs (g := Core.fqBulk) (fun _ _ => rfl), reading_releaseRecs (g := Core.spad) (fun _ _ => rfl),
        reading_releaseRecs (g := Core.spad) (fun _ _ => rfl), State.core_putCore_same]
      exact ⟨rfl, rfl, rfl⟩
    · obtain ⟨n, rel, hs⟩ := steerCycle_sent hx hpend hdq htok hhead hok hsend.ne hheld hcred
      obtain ⟨jobs, hlen, hb, hst, hsp⟩ := launchRecords_spec c d.slots n rel (tokenTargets tk).zipIdx
        (((s.putCore c x).putCore c x.paired).releaseRecs c x.steer.tokenEp 1)
      rw [← hs] at hb hst hsp
      rw [reading_releaseRecs (g := Core.steer) (fun _ _ => rfl), State.core_putCore_same] at hst
      rw [reading_releaseRecs (g := Core.spad) (fun _ _ => rfl), State.core_putCore_same] at hsp
      have hb0 : ((((s.putCore c x).putCore c x.paired).releaseRecs c x.steer.tokenEp 1).core c).bulk = x.bulk := by
        rw [reading_releaseRecs (g := Core.bulk) (fun _ _ => rfl), State.core_putCore_same]
        rfl
      obtain ⟨hq, hw⟩ := Prod.mk.inj (hb.trans (bulk_enqueues hb0 jobs))
      exact ⟨_, jobs, he, hst, hq, hw, hlen.trans List.length_zipIdx, hsp⟩

end Sys2Proof.Machine

/-! PROOFS. Launches and completions of clusters, and the procedure between two starts of a job (R116, R133, R197). -/

namespace Sys2Proof.Machine

/-! ### The job's state (R323) -/

theorem setJob_job (s : State) (st : JobState) (status reason : Nat) (src : Option LCore) (step : BitVec 48) :
    (s.setJob st status reason src step).job = { s.job with state := st } := by
  unfold State.setJob
  split
  · next h => rw [← h]
  · exact State.raiseEvent_job _ _ _ _

/-! ### Changes of clusters -/

/-- Nothing of a state changes but its clusters. -/
def State.clustersOnly (s t : State) : Prop := t = { s with clusters := t.clusters }

theorem State.clustersOnly.trans {s t u : State} (h : s.clustersOnly t) (g : t.clustersOnly u) : s.clustersOnly u := by
  unfold State.clustersOnly at *
  rw [g, h]

theorem State.clustersOnly.job {s t : State} (h : s.clustersOnly t) : t.job = s.job := by rw [h]
theorem State.clustersOnly.time {s t : State} (h : s.clustersOnly t) : t.time = s.time := by rw [h]
theorem State.clustersOnly.cores {s t : State} (h : s.clustersOnly t) : t.cores = s.cores := by rw [h]

theorem clustersOnly_foldl {α : Type} {f : State → α → State} (h : ∀ (s : State) a, s.clustersOnly (f s a)) (l : List α) (s : State) :
    s.clustersOnly (l.foldl f s) :=
  foldl_related (R := State.clustersOnly) (fun _ => rfl) State.clustersOnly.trans h l s

theorem clustersOnly_modCluster (s : State) (k : ClusterAt) (f : Cluster → Cluster) : s.clustersOnly (s.modCluster k f) := rfl

/-! ### What Genhan sends -/

theorem sendsOnly_genhanSend (s : State) (p : Packet) : s.sendsOnly (s.genhanSend p) := by
  unfold State.genhanSend
  split
  · split <;> rfl
  · rfl

theorem sendsOnly_relSend (s : State) (pkg : BitVec 12) (kind : Nat) (count : BitVec 64) : s.sendsOnly (s.relSend pkg kind count) :=
  sendsOnly_genhanSend _ _

theorem job_of_sendsOnly {s t : State} (h : s.sendsOnly t) : t.job = s.job := by rw [h]

/-! ### Launches (R116) -/

theorem exec_clusterLaunch {k : ClusterAt} {s : State} (hheld : (s.cluster k).run = .held) (harm : (s.cluster k).armed = true)
    (htime : s.time.running = true) (hat : s.job.launch.toNat ≤ s.time.sc.toNat) (hjob : s.job.state = .armed ∨ s.job.state = .running) :
    exec (.clusterLaunch k) s = .next (if s.job.state = .armed then
      (s.putCluster k { s.cluster k with run := .running, armed := false }).setJob .running 0 0
        (some ((s.putCluster k { s.cluster k with run := .running, armed := false }).coxName k)) (s.cluster k).step
      else s.putCluster k { s.cluster k with run := .running, armed := false }) := by
  change execClusterLaunch k s = _
  unfold execClusterLaunch
  refine if_pos ?_
  rw [hheld, harm, htime, decide_eq_true hat]
  rcases hjob with h | h <;> rw [h] <;> rfl

/-! ### Completion (R116, Table 11.10) -/

/-- Empty pipelines need no cycle to run dry. -/
theorem drainPipes_empty (fuel : Nat) {s : State} {k : ClusterAt} (h : ∀ i, (s.core (coreIn k i)).pipe = []) : s.drainPipes fuel k = s := by
  cases fuel with
  | zero => rfl
  | succ n =>
    refine if_pos (.inr (List.all_eq_true.2 fun c hc => ?_))
    obtain ⟨i, -, rfl⟩ := List.mem_map.1 hc
    rw [h]
    rfl

/-- A cluster whose cores have all halted, with nothing of theirs pending, is complete. -/
theorem exec_clusterComplete {k : ClusterAt} {s : State} (hrun : (s.cluster k).run = .running) (hacc : (s.cluster k).accepted = false)
    (hhalt : ∀ i, (s.core (coreIn k i)).halted = true) (hset : ∀ i, (s.core (coreIn k i)).settledAll = true) (hjob : s.job.state = .running)
    (hb : s.job.between = .none) :
    exec (.clusterComplete k) s = .next (if s.job.members.all fun j =>
        decide (((s.putCluster k { s.cluster k with run := .complete, stallLine := false }).cluster j).run = .complete)
      then (s.putCluster k { s.cluster k with run := .complete, stallLine := false }).setJob .halted 0 1
      else s.putCluster k { s.cluster k with run := .complete, stallLine := false }) := by
  have all (f : Core → Bool) (h : ∀ i, f (s.core (coreIn k i)) = true) : (coresOf k).all (fun c => f (s.core c)) = true := by
    refine List.all_eq_true.2 fun c hc => ?_
    obtain ⟨i, -, rfl⟩ := List.mem_map.1 hc
    exact h i
  have hpipe (i : Fin 64) : (s.core (coreIn k i)).pipe = [] := by
    have := hset i
    simp only [Core.settledAll, Bool.and_eq_true, List.isEmpty_iff] at this
    exact this.1.1.1.1
  change execClusterComplete k s = _
  unfold execClusterComplete
  extract_lets x t u
  have ht : t = s := drainPipes_empty _ hpipe
  have hu : u = s.putCluster k { s.cluster k with run := .complete, stallLine := false } := by
    unfold u
    rw [ht]
    rfl
  rw [if_pos (by rw [show x.run = .running from hrun, show x.accepted = false from hacc, all Core.halted hhalt]; rfl), ht,
    if_pos (by rw [hrun, all Core.settledAll hset]; rfl), hu]
  have hj : (s.putCluster k { s.cluster k with run := .complete, stallLine := false }).job = s.job := rfl
  clear_value u
  generalize s.putCluster k { s.cluster k with run := .complete, stallLine := false } = v at *
  rw [jobStep_running (by rw [hj, hjob]) (by rw [hj, hb]), hj]
  split
  · next h => rw [if_pos h.2.2]
  · next h => rw [if_neg fun hm => h ⟨hjob, hb, hm⟩]

theorem run_complete_iff (s : State) (k j : ClusterAt) (x : Cluster) (hx : x.run = .complete) :
    decide (((s.putCluster k x).cluster j).run = .complete) = (decide (j = k) || decide ((s.cluster j).run = .complete)) := by
  by_cases h : j = k
  · rw [h, State.cluster_putCluster_same, hx]
    simp
  · rw [State.cluster_putCluster_ne s x h, decide_eq_false h, Bool.false_or]

/-! ### Loading a run of records (R122, R133) -/

/-- Only cores, clusters and streams change. -/
def State.loadsOnly (s t : State) : Prop := t = { s with cores := t.cores, clusters := t.clusters, streams := t.streams }

theorem State.loadsOnly.refl (s : State) : s.loadsOnly s := rfl

theorem State.loadsOnly.trans {s t u : State} (h : s.loadsOnly t) (g : t.loadsOnly u) : s.loadsOnly u := by
  unfold State.loadsOnly at *
  rw [g, h]

theorem loadsOnly_members {s t : State} (h : s.loadsOnly t) (ks : List ClusterAt) :
    ({ s with job := { s.job with members := ks } } : State).loadsOnly { t with job := { t.job with members := ks } } := by
  unfold State.loadsOnly at *
  rw [h]

theorem State.loadsOnly.job {s t : State} (h : s.loadsOnly t) : t.job = s.job := by rw [h]
theorem State.loadsOnly.time {s t : State} (h : s.loadsOnly t) : t.time = s.time := by rw [h]
theorem State.loadsOnly.ckpt {s t : State} (h : s.loadsOnly t) : t.ckpt = s.ckpt := by rw [h]

theorem State.clustersOnly.loadsOnly {s t : State} (h : s.clustersOnly t) : s.loadsOnly t := by
  unfold State.loadsOnly
  rw [h]

theorem loadsOnly_foldl {α : Type} {f : State → α → State} (h : ∀ (s : State) a, s.loadsOnly (f s a)) (l : List α) (s : State) :
    s.loadsOnly (l.foldl f s) :=
  foldl_related (R := State.loadsOnly) (fun _ => rfl) State.loadsOnly.trans h l s

theorem loadsOnly_loadCluster (s : State) (rs : List ImgRec) (fs : List Feed) (streams : List (Nat × Nat × BitVec 256)) (d : Nat × Nat) :
    s.loadsOnly (s.loadCluster rs fs streams d) := by
  unfold State.loadCluster
  split
  · exact .refl s
  · dsimp only
    rw [coresOnly_modCores]
    rfl

theorem loadsOnly_freshStreams (s : State) (rs : List ImgRec) (streams : List (Nat × Nat × BitVec 256)) :
    s.loadsOnly (s.freshStreams rs streams) := by
  refine loadsOnly_foldl (fun t e => ?_) _ s
  extract_lets f
  split <;> rfl

/-- A run changes what its records set, and the clusters of the job. -/
theorem loadRun_frame (s : State) (rs : List ImgRec) (cls : List (Nat × Nat)) :
    ∃ ks, ({ s with job := { s.job with members := ks } } : State).loadsOnly (s.loadRun rs cls) := by
  unfold State.loadRun
  extract_lets _ region streams fs u ks reps v w
  have hu : s.loadsOnly u := loadsOnly_foldl (fun t d => loadsOnly_loadCluster t rs fs streams d) cls s
  have hv : u.clustersOnly v := clustersOnly_foldl (fun t k => clustersOnly_modCluster t k _) ks u
  have hw : s.loadsOnly w := (hu.trans hv.loadsOnly).trans (loadsOnly_freshStreams v rs streams)
  exact ⟨ks, loadsOnly_members hw ks⟩

theorem loadPhase_frame (s : State) (q : Nat) : ∃ ks, ({ s with job := { s.job with members := ks } } : State).loadsOnly (s.loadPhase q) := by
  unfold State.loadPhase
  extract_lets _ recs region u
  obtain ⟨ks, hu⟩ := loadRun_frame s ((phaseRun recs q).getD []) (phaseMembers region q)
  refine ⟨ks, hu.trans (loadsOnly_foldl (fun t e => ?_) _ u)⟩
  split <;> rfl

/-! ### Arming (R116, R197) -/

theorem armAt_frame (s : State) (count : BitVec 64) :
    (∃ st, (s.armAt count).job = { s.job with launch := count, state := st }) ∧ (s.armAt count).cores = s.cores := by
  unfold State.armAt
  extract_lets u j v
  have hu : s.clustersOnly u := clustersOnly_foldl (fun t k => clustersOnly_modCluster t k _) s.job.members s
  have hv : v.job = { s.job with launch := count } := by rw [← hu.job]
  split
  · exact ⟨⟨.halted, by rw [setJob_job, hv]⟩, by rw [State.setJob_cores]; exact hu.cores⟩
  · exact ⟨⟨s.job.state, hv⟩, hu.cores⟩

theorem relaunchAt_frame (s : State) (count : BitVec 64) :
    (∃ st, (s.relaunchAt count).job = { s.job.launched with launch := count, state := st }) ∧ (s.relaunchAt count).cores = s.cores := by
  unfold State.relaunchAt
  extract_lets u
  have hu : s.sendsOnly u := sendsOnly_foldl (fun t p => sendsOnly_relSend t p 5 count) _ s
  obtain ⟨⟨st, hj⟩, hc⟩ := armAt_frame { u with job := u.job.launched } count
  exact ⟨⟨st, by rw [hj, job_of_sendsOnly hu]⟩, hc.trans hu.cores⟩

/-! ### The procedure between two starts (R197) -/

/-- HOLD leaves a running job HALTED, with what is left of a phase change. -/
theorem relaunchHoldAll_frame (s : State) :
    s.relaunchHoldAll.job = { s.job with between := s.job.between.change, relReady := [], relOwnDone := false, state := .halted } ∧
    s.relaunchHoldAll.clusters = s.clusters := by
  unfold State.relaunchHoldAll
  extract_lets u j v
  have hu : s.sendsOnly u := sendsOnly_foldl (fun t p => sendsOnly_relSend t p 6 0) _ s
  have hcl : u.clusters = s.clusters := clusters_of_sendsOnly hu
  refine ⟨?_, (State.setJob_clusters _ _ _ _ _ _).trans hcl⟩
  rw [setJob_job]
  exact congrArg (fun j : Job => { j with between := j.between.change, relReady := [], relOwnDone := false, state := .halted }) (job_of_sendsOnly hu)

/-- The packet is one of those that have come, or none is on its way: the arrival takes place. -/
theorem relArrival_eq {s : State} {src : Option (BitVec 12)} {body : BitVec 256} (act : State → State) (h : s.waits (isForGenhan src body) = false) :
    s.relArrival src body act = act (s.arrived (isForGenhan src body) 0) :=
  if_neg (by rw [h]; exact Bool.false_ne_true)

/-- The root starts the job 10 ms after it is ready (R197 step 2). -/
theorem relaunchTry_root {s : State} (hj : s.job.state = .running) (hown : s.job.relOwnDone = true) (ht : s.timeOk = true)
    (hroot : s.job.relParent = none) (hkids : s.job.relChildren = []) : s.relaunchTry = s.relaunchAt (s.time.sc + 10000000) := by
  unfold State.relaunchTry
  rw [if_pos ⟨hj, hown, ht, by rw [hkids]; rfl⟩, hroot]

theorem relaunchTry_waits {s : State} (h : s.job.relOwnDone = false ∨ s.timeOk = false) : s.relaunchTry = s := by
  unfold State.relaunchTry
  rw [if_neg]
  rintro ⟨-, hown, ht, -⟩
  rcases h with h | h
  · exact Bool.false_ne_true (h.symm.trans hown)
  · exact Bool.false_ne_true (h.symm.trans ht)

/-- The record run of a phase is loaded, and this package's part of the change is finished (R133). -/
def State.phaseLoaded (s : State) (q : BitVec 3) : State := { s with job := { s.job with between := .phaseRun q, relOwnDone := true } }

/-- The state behind the change into a phase, but for its start. -/
def State.phaseIn (s : State) (q : BitVec 3) : State := (s.loadPhase q.toNat).phaseLoaded q

theorem exec_phaseTransferComplete {s : State} {q : BitVec 3} (hj : s.job.state = .running) (hb : s.job.between = .transfer q true)
    (hall : ∀ k ∈ s.job.members, (s.cluster k).run = .complete) : exec .phaseTransferComplete s = .next (s.phaseIn q).relaunchTry := by
  change execPhaseTransferComplete s = _
  unfold execPhaseTransferComplete
  have hdue : (decide (s.job.state = .running) && s.job.members.all fun k => decide ((s.cluster k).run = .complete)) = true := by
    rw [hj, List.all_eq_true.2 fun k hk => decide_eq_true (hall k hk)]
    rfl
  simp only [hb, if_pos hdue, State.ownDone, State.phaseIn]
  rfl

theorem phaseIn_frame (s : State) (q : BitVec 3) :
    (∃ ks, (s.phaseIn q).job = { s.job with members := ks, between := .phaseRun q, relOwnDone := true }) ∧ (s.phaseIn q).time = s.time := by
  obtain ⟨ks, hu⟩ := loadPhase_frame s q.toNat
  have hj := hu.job
  have ht := hu.time
  unfold State.phaseIn
  generalize s.loadPhase q.toNat = u at *
  exact ⟨⟨ks, congrArg (fun j : Job => { j with between := Between.phaseRun q, relOwnDone := true }) hj⟩, ht⟩

theorem timeOk_of_time {s t : State} (h : t.time = s.time) : t.timeOk = s.timeOk := by
  unfold State.timeOk Time.starterBit
  rw [h]

/-- What is not ready at the root of the tree leads to HOLD (R197 step 5). -/
theorem notReady_root {s : State} (h : s.job.relParent = none) : s.notReady = s.relaunchHoldAll := by
  unfold State.notReady
  rw [h]

theorem exec_relaunchTimeout {s : State} (hj : s.job.state = .running) (hown : s.job.relOwnDone = true) (ht : s.timeOk = false) :
    exec .relaunchTimeout s = .next ({ s with job := { s.job with relOwnDone := false } } : State).notReady :=
  if_pos ⟨hj, hown, by rw [ht]; exact Bool.false_ne_true⟩

/-! ### The obligation -/

/-- Settles O15: launches, completions, and each step of the procedure between two starts. -/
theorem launchesAndRelaunches : Obligations.LaunchesAndRelaunches := by
  refine ⟨fun k s x hx => ?_, fun s hj => ?_⟩
  · subst hx
    refine ⟨fun hheld harm ht hat hj => ?_, fun hheld harm ht hat hj => ?_, fun hrun hacc hhalt hset hj hb => ?_⟩
    · rw [exec_clusterLaunch hheld harm ht hat (.inr hj), if_neg (by rw [hj]; exact nofun)]
    · refine ⟨_, (exec_clusterLaunch hheld harm ht hat (.inl hj)).trans (congrArg Host.Outcome.next (if_pos hj)), ?_⟩
      rw [cluster_of_clusters (State.setJob_clusters _ _ _ _ _ _), State.cluster_putCluster_same, setJob_job, State.setJob_cores, State.setJob_deep]
      exact ⟨rfl, rfl, rfl, rfl, rfl⟩
    · refine ⟨_, exec_clusterComplete hrun hacc hhalt hset hj hb, ?_⟩
      simp only [run_complete_iff s k _ { s.cluster k with run := .complete, stallLine := false } rfl]
      split
      · rw [cluster_of_clusters (State.setJob_clusters _ _ _ _ _ _), State.cluster_putCluster_same, setJob_job, State.setJob_cores, State.setJob_deep]
        exact ⟨rfl, rfl, rfl, rfl⟩
      · rw [State.cluster_putCluster_same]
        exact ⟨rfl, rfl, rfl, hj⟩
  · refine ⟨fun q hb hall ht => ?_, fun q hb hall ht hroot hkids => ?_, fun child hw hown => ?_, fun child hw hroot => ?_, fun tag count hw htag hb => ?_,
      fun tag hw htag hb => ?_, fun hown ht hroot => ?_⟩
    · obtain ⟨⟨ks, hjob⟩, htime⟩ := phaseIn_frame s q
      refine ⟨_, exec_phaseTransferComplete hj hb hall, ?_⟩
      rw [relaunchTry_waits (.inr ((timeOk_of_time htime).trans ht)), hjob]
      exact ⟨rfl, rfl⟩
    · obtain ⟨⟨ks, hjob⟩, htime⟩ := phaseIn_frame s q
      obtain ⟨⟨st, hl⟩, -⟩ := relaunchAt_frame (s.phaseIn q) ((s.phaseIn q).time.sc + 10000000)
      refine ⟨_, exec_phaseTransferComplete hj hb hall, ?_⟩
      rw [relaunchTry_root (by rw [hjob]; exact hj) (by rw [hjob]) ((timeOk_of_time htime).trans ht) (by rw [hjob]; exact hroot)
        (by rw [hjob]; exact hkids), hl, hjob, htime]
      exact ⟨rfl, rfl⟩
    · refine ⟨_, congrArg Host.Outcome.next (relArrival_eq _ hw), ?_⟩
      rw [relaunchTry_waits (.inl (by rw [State.arrived_job]; exact hown)), State.arrived_job]
      exact ⟨rfl, State.arrived_clusters _ _ _⟩
    · refine ⟨_, congrArg Host.Outcome.next (relArrival_eq _ hw), ?_⟩
      rw [if_pos (by rw [State.arrived_job]; exact hj), notReady_root (by rw [State.arrived_job]; exact hroot)]
      obtain ⟨hjob, hcl⟩ := relaunchHoldAll_frame (s.arrived (isForGenhan (some child) (coxBody 4 0 none false s.job.tag)) 0)
      rw [hjob, hcl, State.arrived_job]
      exact ⟨rfl, rfl, rfl, State.arrived_clusters _ _ _⟩
    · refine ⟨_, congrArg Host.Outcome.next (relArrival_eq _ hw), ?_⟩
      rw [if_pos (by rw [State.arrived_job]; exact ⟨hj, htag, hb⟩)]
      obtain ⟨⟨st, hl⟩, hc⟩ := relaunchAt_frame (s.arrived (isForGenhan none (coxBody 5 0 none false tag count)) 0) count
      rw [hl, hc, State.arrived_job]
      exact ⟨rfl, rfl, State.arrived_cores _ _ _⟩
    · refine ⟨_, congrArg Host.Outcome.next (relArrival_eq _ hw), ?_⟩
      rw [if_pos (by rw [State.arrived_job]; exact ⟨hj, htag, hb⟩)]
      obtain ⟨hjob, hcl⟩ := relaunchHoldAll_frame (s.arrived (isForGenhan none (coxBody 6 0 none false tag)) 0)
      rw [hjob, hcl, State.arrived_job]
      exact ⟨rfl, rfl, State.arrived_clusters _ _ _⟩
    · obtain ⟨hjob, hcl⟩ := relaunchHoldAll_frame { s with job := { s.job with relOwnDone := false } }
      refine ⟨_, exec_relaunchTimeout hj hown ht, ?_⟩
      rw [notReady_root (s := { s with job := { s.job with relOwnDone := false } }) hroot, hjob, hcl]
      exact ⟨rfl, rfl, rfl⟩

end Sys2Proof.Machine

/-! PROOFS. What the stop of a job sends and records, and an orderly stop (R129, R217, R379, R395). -/

namespace Sys2Proof.Machine

/-! ### Reports: what the host is told -/

/-- Only the host interface and the outputs change. -/
def State.reportsOnly (s t : State) : Prop := t = { s with host := t.host, out := t.out }

theorem State.reportsOnly.refl (s : State) : s.reportsOnly s := rfl

theorem State.reportsOnly.trans {s t u : State} (h : s.reportsOnly t) (g : t.reportsOnly u) : s.reportsOnly u := by
  unfold State.reportsOnly at *
  rw [g, h]

/-- The same with the second part first, where it says what lies between. -/
theorem State.reportsOnly.after {s t u : State} (g : t.reportsOnly u) (h : s.reportsOnly t) : s.reportsOnly u := h.trans g

theorem reportsOnly_sendPaced (s : State) (v : Nat) : s.reportsOnly (s.sendPaced v) := by
  unfold State.sendPaced State.sendMsix
  dsimp only
  (repeat' split) <;> rfl

theorem reportsOnly_pend (s : State) (v : Nat) (interval : BitVec 10) : s.reportsOnly (s.pend v interval) := by
  unfold State.pend
  dsimp only
  split
  · rfl
  · exact (reportsOnly_sendPaced _ _).after rfl

theorem reportsOnly_writeEvent (s : State) (n : Nat) (d : Bytes) : s.reportsOnly (s.writeEvent n d) := by
  unfold State.writeEvent
  extract_lets r h t
  split
  · exact (reportsOnly_pend _ _ _).after rfl
  · rfl

theorem reportsOnly_raiseEvent (s : State) (code : Nat) (src : Option LCore) (d : Bytes) : s.reportsOnly (s.raiseEvent code src d) := by
  unfold State.raiseEvent
  dsimp only
  split
  · exact reportsOnly_writeEvent _ _ _
  · split <;> rfl

theorem reportsOnly_writeCompletion (s : State) (p : Nat) (e : BitVec 128) (irq : Bool) : s.reportsOnly (s.writeCompletion p e irq) := by
  unfold State.writeCompletion
  extract_lets g h t
  have ht : s.reportsOnly t := rfl
  split
  · exact ht.trans (reportsOnly_pend t _ _)
  · exact ht

/-! ### Signals: packets, frames, events and records of Genhan -/

/-- Only what leaves the package or waits to leave it, the records of Genhan and of the host interface, counters and free values change. -/
def State.signalsOnly (s t : State) : Prop :=
  t = { s with
    waiting := t.waiting, emitted := t.emitted, ctr := t.ctr, freeCtr := t.freeCtr, ports := t.ports, out := t.out, genhan := t.genhan, host := t.host }

theorem State.signalsOnly.refl (s : State) : s.signalsOnly s := rfl

theorem State.signalsOnly.trans {s t u : State} (h : s.signalsOnly t) (g : t.signalsOnly u) : s.signalsOnly u := by
  unfold State.signalsOnly at *
  rw [g, h]

/-- The same with the second part first, where it says what lies between. -/
theorem State.signalsOnly.after {s t u : State} (g : t.signalsOnly u) (h : s.signalsOnly t) : s.signalsOnly u := h.trans g

theorem State.reportsOnly.signalsOnly {s t : State} (h : s.reportsOnly t) : s.signalsOnly t := by
  unfold State.signalsOnly
  rw [h]

theorem signalsOnly_of_sendsOnly {s t : State} (h : s.sendsOnly t) : s.signalsOnly t := by
  unfold State.signalsOnly
  rw [h]

theorem signalsOnly_foldl {α : Type} {f : State → α → State} (h : ∀ (s : State) a, s.signalsOnly (f s a)) (l : List α) (s : State) :
    s.signalsOnly (l.foldl f s) :=
  foldl_related (R := State.signalsOnly) (fun _ => rfl) State.signalsOnly.trans h l s

theorem signalsOnly_raiseEvent (s : State) (code : Nat) (src : Option LCore) (d : Bytes) : s.signalsOnly (s.raiseEvent code src d) :=
  (reportsOnly_raiseEvent s code src d).signalsOnly

theorem signalsOnly_sendFrame (s : State) (i : Nat) (b : Bytes) (nak : Bool) : s.signalsOnly (s.sendFrame i b nak) := by
  unfold State.sendFrame
  dsimp only
  split <;> rfl

theorem signalsOnly_sendFlits (n : Nat) (s : State) (i : Nat) (l : List OutFlit) : s.signalsOnly (s.sendFlits n i l) := by
  induction n generalizing s l with
  | zero => exact .refl s
  | succ n ih =>
    unfold State.sendFlits
    split
    · exact .refl s
    · exact (ih _ _).after (.trans ((signalsOnly_sendFrame (s.putPort i _) i _ _).after rfl) (signalsOnly_of_sendsOnly (sendsOnly_count _ _ _ _ _ _)))

theorem signalsOnly_sendPacket (s : State) (i : Nat) (p : Packet) : s.signalsOnly (s.sendPacket i p) := by
  unfold State.sendPacket State.flush
  dsimp only
  split
  · exact (signalsOnly_sendFlits _ _ _ _).after rfl
  · rfl

theorem signalsOnly_sendOffline (s : State) (l reason : Nat) : s.signalsOnly (s.sendOffline l reason) := by
  refine signalsOnly_foldl (fun u j => ?_) _ _
  split
  · exact signalsOnly_sendFrame _ _ _ _
  · exact .refl u

theorem signalsOnly_injectStop (s : State) : s.signalsOnly s.injectStop :=
  have hc : s.sendsOnly (s.stopCoxes s.job.tag) := sendsOnly_foldl (fun u _ => sendsOnly_genhanSend u _) _ _
  have hr : s.signalsOnly ((s.stopCoxes s.job.tag).recordStop s.job.tag s.pkg s.time.sc) := (signalsOnly_of_sendsOnly hc).trans rfl
  hr.trans (signalsOnly_foldl (fun u _ => signalsOnly_sendPacket u _ _) _ _)

theorem signalsOnly_addDigest (s : State) (r : BitVec 512) : s.signalsOnly (s.addDigest r) := by
  unfold State.addDigest
  dsimp only
  split <;> rfl

theorem signalsOnly_addReplica (s : State) (r : BitVec 8) (step sc : BitVec 48) (es : List (BitVec 64)) (f : Nat → Nat) (w : Nat) :
    s.signalsOnly (s.addReplica r step sc es f w) :=
  .trans (signalsOnly_foldl (fun u _ => signalsOnly_addDigest u _) _ _) (signalsOnly_addDigest _ _)

theorem signalsOnly_flushDigests (s : State) : s.signalsOnly s.flushDigests :=
  (signalsOnly_foldl (fun u _ => signalsOnly_addReplica u _ _ _ _ _ _) _ _).after rfl

/-! ### The stop of a job -/

/-- Besides signals, only the job's own record changes. -/
def State.jobSignals (s t : State) : Prop := ({ s with job := t.job } : State).signalsOnly t

theorem State.jobSignals.refl (s : State) : s.jobSignals s := rfl

theorem State.jobSignals.trans {s t u : State} (h : s.jobSignals t) (g : t.jobSignals u) : s.jobSignals u := by
  unfold State.jobSignals State.signalsOnly at *
  rw [g, h]

theorem State.jobSignals.after {s t u : State} (g : t.jobSignals u) (h : s.jobSignals t) : s.jobSignals u := h.trans g

theorem State.signalsOnly.jobSignals {s t : State} (h : s.signalsOnly t) : s.jobSignals t := by
  unfold State.jobSignals State.signalsOnly at *
  rw [h]

section
variable {s t : State} (h : s.jobSignals t)
include h

theorem State.jobSignals.domains : t.domains = s.domains := by rw [h]
theorem State.jobSignals.power : t.power = s.power := by rw [h]
theorem State.jobSignals.deep : t.deep = s.deep := by rw [h]
theorem State.jobSignals.nv : t.nv = s.nv := by rw [h]
theorem State.jobSignals.time : t.time = s.time := by rw [h]
theorem State.jobSignals.clusters : t.clusters = s.clusters := by rw [h]
theorem State.jobSignals.cores : t.cores = s.cores := by rw [h]

end

theorem domain_of_domains {s t : State} (h : t.domains = s.domains) (d : Fin 61) : t.domain d = s.domain d :=
  congrArg (fun m => SMap.get ({} : Domain) m d.val) h

theorem jobSignals_setJob (s : State) (st : JobState) (status reason : Nat) (src : Option LCore) (step : BitVec 48) :
    s.jobSignals (s.setJob st status reason src step) := by
  unfold State.setJob
  split
  · exact .refl s
  · exact (signalsOnly_raiseEvent _ _ _ _).jobSignals.after rfl

theorem jobSignals_checkHalted (s : State) : s.jobSignals s.checkHalted := by
  unfold State.checkHalted
  split
  · exact (signalsOnly_flushDigests s).jobSignals.trans (jobSignals_setJob _ _ _ _ _ _)
  · exact .refl s

/-- A job that is HALTING is left HALTING, HALTED or FAULTED. -/
theorem checkHalted_ended {s : State} (h : s.job.state = .halting) : s.checkHalted.jobLive = false := by
  unfold State.checkHalted State.jobLive
  split
  · rw [setJob_job]
    split <;> rfl
  · rw [h]
    rfl

theorem jobStep_halting {s : State} (h : s.job.state = .halting) : s.jobStep = s.checkHalted := by
  unfold State.jobStep
  rw [h]

theorem haltJob_halting {s : State} (h : s.jobLive = true) (reason status : Nat) (fault : Bool) (src : Option LCore) (step : BitVec 48) :
    (s.haltJob reason status fault src step).job.state = .halting := by
  have hl : s.job.state = .armed ∨ s.job.state = .running := by simpa [State.jobLive] using h
  unfold State.haltJob
  rw [if_pos hl, setJob_job]

theorem jobSignals_haltJob (s : State) (reason status : Nat) (fault : Bool) (src : Option LCore) (step : BitVec 48) :
    s.jobSignals (s.haltJob reason status fault src step) := by
  unfold State.haltJob
  split
  · exact (jobSignals_setJob _ _ _ _ _ _).after rfl
  · exact .refl s

/-- A stop goes out for a job that is HALTING, which ends once its clusters are quiet. -/
theorem injectStop_jobStep {s : State} (h : s.job.state = .halting) :
    s.jobSignals s.injectStop.jobStep ∧ s.injectStop.jobStep.jobLive = false := by
  have hi := signalsOnly_injectStop s
  have hj : s.injectStop.job.state = .halting := by rw [hi]; exact h
  rw [jobStep_halting hj]
  exact ⟨hi.jobSignals.trans (jobSignals_checkHalted _), checkHalted_ended hj⟩

/-- A stop of a job by Genhan: signals and the job's own record, and the job is not live. -/
theorem stopFor_frame (s : State) (reason : Nat) : s.jobSignals (s.stopFor reason) ∧ (s.stopFor reason).jobLive = false := by
  unfold State.stopFor
  split
  case isTrue hl =>
    obtain ⟨hs, he⟩ := injectStop_jobStep (haltJob_halting hl reason 0 true none 0)
    exact ⟨(jobSignals_haltJob s reason 0 true none 0).trans hs, he⟩
  case isFalse hl =>
    split
    case isTrue hh =>
      obtain ⟨hs, he⟩ := injectStop_jobStep (s := { s with job := { s.job with faultArose := true, reason := BitVec.ofNat 8 reason } }) hh
      exact ⟨hs.after rfl, he⟩
    case isFalse => exact ⟨.refl s, by simpa using hl⟩

/-! ### Retention (R379, Table 12.6) -/

/-- The moon dies that have power. -/
def State.moons (s : State) : List (Fin 61) := (List.finRange 61).filter fun d => decide (56 ≤ d.val) && decide (d.val < 60) && (s.domain d).powered

theorem mem_moons (s : State) (d : Fin 61) : d ∈ s.moons ↔ 56 ≤ d.val ∧ d.val < 60 ∧ (s.domain d).powered = true := by
  simp [State.moons, and_assoc]

/-- Powers the domains named. -/
def State.powerUp (s : State) (l : List (Fin 61)) : State := l.foldl (fun t d => t.modDomain d fun x => { x with powered := true }) s

/-- Only the domains change. -/
theorem powerUp_eq (l : List (Fin 61)) (s : State) : s.powerUp l = { s with domains := (s.powerUp l).domains } := by
  induction l generalizing s with
  | nil => rfl
  | cons d l ih => exact (ih (s.modDomain d fun x => { x with powered := true })).trans rfl

theorem powered_powerUp (l : List (Fin 61)) (s : State) (d : Fin 61) :
    ((s.powerUp l).domain d).powered = (decide (d ∈ l) || (s.domain d).powered) := by
  induction l generalizing s with
  | nil => simp [State.powerUp]
  | cons e l ih =>
    refine (ih (s.modDomain e fun x => { x with powered := true })).trans ?_
    by_cases h : d = e
    · subst h
      simp
    · rw [State.domain_modDomain_ne s _ h]
      simp [h]

theorem domain_fresh (s : State) (keep : Bool) (d : Fin 61) : (s.fresh keep).domain d = {} := by
  cases keep <;> rfl

theorem signalsOnly_offlineAll (s : State) : s.signalsOnly s.offlineAll := signalsOnly_foldl (fun u l => signalsOnly_sendOffline u l 3) _ _

/-- The package in retention: moon dies that had power keep it, with deep memory's contents, and nothing else has. -/
theorem enterRetention_eq (s : State) : s.enterRetention = { (s.offlineAll.fresh true).powerUp s.offlineAll.moons with
    power := { ((s.offlineAll.fresh true).powerUp s.offlineAll.moons).power with retention := true }, time := s.offlineAll.time } := by
  unfold State.enterRetention State.powerUp State.moons
  rfl

theorem retained (s : State) : s.enterRetention.power.retention = true ∧ s.enterRetention.power.band = s.power.band ∧ s.enterRetention.deep = s.deep ∧
    s.enterRetention.job = {} ∧ s.enterRetention.power.drainOwed = false ∧ s.enterRetention.nv.powerRecord = s.nv.powerRecord := by
  have hs := signalsOnly_offlineAll s
  rw [enterRetention_eq, powerUp_eq, hs]
  exact ⟨rfl, rfl, rfl, rfl, rfl, rfl⟩

theorem powered_retained (s : State) (d : Fin 61) :
    (s.enterRetention.domain d).powered = (decide (56 ≤ d.val) && decide (d.val < 60) && (s.domain d).powered) := by
  have hd : s.offlineAll.domain d = s.domain d := domain_of_domains (signalsOnly_offlineAll s).jobSignals.domains d
  have hr : s.enterRetention.domain d = ((s.offlineAll.fresh true).powerUp s.offlineAll.moons).domain d :=
    domain_of_domains (by rw [enterRetention_eq]) d
  rw [hr, powered_powerUp, domain_fresh, ← hd, Bool.or_false, Bool.eq_iff_iff]
  simp [mem_moons, and_assoc]

/-! ### The orderly stop (R379) -/

/-- The record of an orderly stop. -/
def State.orderlyRecord (s : State) : PowerRecord where
  cause := 0
  jobState := BitVec.ofNat 8 (jobCode s.job.state)
  drainDone := false
  stacksKept := true
  area := s.nextArea
  tag := s.job.tag
  step := s.jobStepIndex
  sc := s.time.sc

/-- The input is below its band, and the stop is announced. -/
def State.stopAnnounced (s : State) (vin : Nat) : State :=
  ({ s with power := { s.power with band := .retention } } : State).raiseEvent 0x0021 none
    ([BitVec.ofNat 8 (jobCode s.job.state), if s.holdsState then 1 else 0] ++ leBytes 2 (vin / 10))

/-- The stop announced and recorded, and the job stopped for it. -/
def State.orderlyStopped (s : State) (vin : Nat) : State :=
  ({ s.stopAnnounced vin with
    power := { (s.stopAnnounced vin).power with orderly := true }
    nv := { (s.stopAnnounced vin).nv with
      powerRecord := some { (s.stopAnnounced vin).orderlyRecord with jobState := BitVec.ofNat 8 (jobCode s.job.state) } } } : State).stopFor 6

/-- Before host-ready: everything is off, and nothing is kept. -/
def State.downEarly (s : State) : State :=
  let t := s.offlineAll.fresh false
  { t with
    power := { t.power with managed := s.managed }
    nv := { t.nv with powerRecord := t.nv.powerRecord.map fun r => { r with stacksKept := false } } }

theorem downEarly_frame (s : State) : s.downEarly.power.retention = false ∧ s.downEarly.power.band = s.power.band ∧ s.downEarly.deep = [] ∧
    s.downEarly.job = {} ∧ s.downEarly.nv.slotA = s.nv.slotA ∧ s.downEarly.nv.slotB = s.nv.slotB ∧
    (∀ r, s.downEarly.nv.powerRecord = some r → r.stacksKept = false) ∧ ∀ d, (s.downEarly.domain d).powered = false := by
  have ho := (signalsOnly_offlineAll s).jobSignals
  have hband : s.offlineAll.power.band = s.power.band := congrArg Power.band ho.power
  have ha : s.offlineAll.nv.slotA = s.nv.slotA := congrArg NonVolatile.slotA ho.nv
  have hb : s.offlineAll.nv.slotB = s.nv.slotB := congrArg NonVolatile.slotB ho.nv
  unfold State.downEarly
  generalize s.offlineAll = u at hband ha hb
  refine ⟨rfl, hband, rfl, rfl, ha, hb, fun r hr => ?_, fun d => congrArg Domain.powered (domain_fresh u false d)⟩
  obtain ⟨q, -, rfl⟩ := Option.map_eq_some_iff.1 hr
  rfl

section
variable {s : State} {vin : Nat} (hv : vin < 4400) (hop : s.power.operating = true)
include hv hop

theorem exec_orderlyStop_drains (hr : s.boot.hostReady = true) (hh : s.holdsState = true) :
    exec (.orderlyStop vin) s = .next { s.orderlyStopped vin with power := { (s.orderlyStopped vin).power with drainOwed := true } } := by
  change execOrderlyStop vin s = _
  unfold execOrderlyStop
  rw [if_pos ⟨hv, hop⟩]
  dsimp only
  rw [hr]
  exact congrArg Host.Outcome.next (if_pos hh)

theorem exec_orderlyStop_retains (hr : s.boot.hostReady = true) (hh : s.holdsState = false) :
    exec (.orderlyStop vin) s = .next (s.orderlyStopped vin).enterRetention := by
  change execOrderlyStop vin s = _
  unfold execOrderlyStop
  rw [if_pos ⟨hv, hop⟩]
  dsimp only
  rw [hr]
  exact congrArg Host.Outcome.next (if_neg (Bool.eq_false_iff.1 hh))

theorem exec_orderlyStop_early (hr : s.boot.hostReady = false) :
    exec (.orderlyStop vin) s = .next ({ s with power := { s.power with band := .retention } } : State).downEarly := by
  change execOrderlyStop vin s = _
  unfold execOrderlyStop
  rw [if_pos ⟨hv, hop⟩]
  dsimp only
  rw [hr]
  exact if_pos rfl

end

/-- The stop is announced, recorded and carried out; domains and deep memory stay. -/
theorem orderlyStopped_frame (s : State) (vin : Nat) : (s.orderlyStopped vin).domains = s.domains ∧ (s.orderlyStopped vin).deep = s.deep ∧
    (s.orderlyStopped vin).power = { s.power with band := .retention, orderly := true } ∧ (s.orderlyStopped vin).jobLive = false ∧
    ∃ r, (s.orderlyStopped vin).nv.powerRecord = some r ∧ r.cause = 0 ∧ r.stacksKept = true ∧ r.tag = s.job.tag ∧ r.sc = s.time.sc := by
  have ht : ({ s with power := { s.power with band := .retention } } : State).signalsOnly (s.stopAnnounced vin) := signalsOnly_raiseEvent _ _ _ _
  obtain ⟨hs, hl⟩ := stopFor_frame ({ s.stopAnnounced vin with
    power := { (s.stopAnnounced vin).power with orderly := true }
    nv := { (s.stopAnnounced vin).nv with
      powerRecord := some { (s.stopAnnounced vin).orderlyRecord with jobState := BitVec.ofNat 8 (jobCode s.job.state) } } } : State) 6
  have hpower : (s.stopAnnounced vin).power = { s.power with band := .retention } := ht.jobSignals.power
  have hjob : (s.stopAnnounced vin).job = s.job := by rw [ht]
  refine ⟨hs.domains.trans ht.jobSignals.domains, hs.deep.trans ht.jobSignals.deep, hs.power.trans ?_, hl, _, congrArg NonVolatile.powerRecord hs.nv,
    rfl, rfl, congrArg Job.tag hjob, congrArg Time.sc ht.jobSignals.time⟩
  rw [hpower]

/-! ### A drain is complete (R129, R217, R395) -/

/-- What is done once the drain for a loss of input, or for domains that are to go off, is complete. -/
def State.drainedDown (s : State) : State :=
  if s.power.orderly then (if s.enterRetention.power.operating then s.enterRetention.startBringUp 1 true else s.enterRetention)
  else
    (List.finRange 48).foldl (fun t d =>
      if s.power.eclipseOwed.contains d then t.eclipse d (if t.power.coolantStop then 2 else 1) true
      else if t.power.coolantStop then t.eclipse d 2 false
      else t) { s with power := { s.power with eclipseOwed := [] } }

theorem drainedDown_orderly {s : State} (h : s.power.orderly = true) (hop : s.power.operating = false) : s.drainedDown = s.enterRetention := by
  obtain ⟨-, hband, -⟩ := retained s
  have hoff : s.enterRetention.power.operating = false := by
    unfold Power.operating at hop ⊢
    rw [hband]
    exact hop
  unfold State.drainedDown
  rw [if_pos h, if_neg (by simp [hoff])]

theorem exec_powerDrainDone_waits {s : State} (h : s.settled s.job.members = false) : exec .powerDrainDone s = .next s := by
  change execPowerDrainDone s = _
  unfold execPowerDrainDone
  refine if_neg ?_
  simp [h]

theorem exec_powerDrainDone {s : State} (ho : s.power.drainOwed = true) (hq : s.membersQuiet = true) (hs : s.settled s.job.members = true)
    (hl : s.jobLive = false) (hh : s.holdsState = false) :
    exec .powerDrainDone s = .next ({ s with power := { s.power with drainOwed := false } } : State).drainedDown := by
  have hd : s.stopDrain = s := if_neg (by simp [hh])
  change execPowerDrainDone s = _
  unfold execPowerDrainDone State.drainedDown
  rw [if_pos (by simp [ho, hq, hs, hl]), hd]
  dsimp only
  split <;> rfl

/-! ### Domains go into QUIESCE -/

/-- Only cores and what they send change. -/
def State.fabricOnly (s t : State) : Prop :=
  t = { s with cores := t.cores, waiting := t.waiting, emitted := t.emitted, ctr := t.ctr, freeCtr := t.freeCtr }

theorem State.fabricOnly.refl (s : State) : s.fabricOnly s := rfl

theorem State.fabricOnly.trans {s t u : State} (h : s.fabricOnly t) (g : t.fabricOnly u) : s.fabricOnly u := by
  unfold State.fabricOnly at *
  rw [g, h]

theorem State.fabricOnly.domains {s t : State} (h : s.fabricOnly t) : t.domains = s.domains := by rw [h]
theorem State.fabricOnly.power {s t : State} (h : s.fabricOnly t) : t.power = s.power := by rw [h]

theorem fabricOnly_of_sendsOnly {s t : State} (h : s.sendsOnly t) : s.fabricOnly t := by
  unfold State.fabricOnly
  rw [h]

theorem fabricOnly_foldl {α : Type} {f : State → α → State} (h : ∀ (s : State) a, s.fabricOnly (f s a)) (l : List α) (s : State) :
    s.fabricOnly (l.foldl f s) :=
  foldl_related (R := State.fabricOnly) (fun _ => rfl) State.fabricOnly.trans h l s

theorem fabricOnly_recorded (s : State) (c : CoreAt) (ep : Nat) (ack : Option (BitVec 128)) : s.fabricOnly (s.recorded c ep ack) := by
  unfold State.recorded
  extract_lets e slots t
  have ht : s.fabricOnly t := rfl
  split
  · exact ht.trans (fabricOnly_of_sendsOnly (sendsOnly_ackRecord t c _ 0))
  · exact ht

theorem fabricOnly_refuseJob (s : State) (c : CoreAt) (j : FabricJob) : s.fabricOnly (s.refuseJob c j) := by
  have answered (t : State) (p : Packet) (txn : Option Nat) : t.fabricOnly (t.answer c p txn) := fabricOnly_of_sendsOnly (sendsOnly_answer t c p txn)
  unfold State.refuseJob
  split
  · exact fabricOnly_recorded _ _ _ _
  · split
    · exact .trans (t := s.finishWrite c j) rfl (answered _ _ _)
    · exact answered _ _ _
  · exact answered _ _ _
  · exact fabricOnly_of_sendsOnly (sendsOnly_ackRecord _ _ _ _)
  · exact .refl s

theorem fabricOnly_flushCore (s : State) (c : CoreAt) : s.fabricOnly (s.flushCore c) :=
  .trans (t := s.modCore c fun x => { x with fqReduce := [], fqBulk := [], fqMgmt := [], ceWait := [], generating := [] }) rfl
    (fabricOnly_foldl (fun u j => fabricOnly_refuseJob u c j) _ _)

theorem fabricOnly_flushPart (s : State) (p : Part) : s.fabricOnly (s.flushPart p) := fabricOnly_foldl fabricOnly_flushCore _ _

theorem enterQuiesce_half (s : State) (d : Fin 48) : (s.enterQuiesce (.halfDie d)).power = s.power ∧
    (s.enterQuiesce (.halfDie d)).domains = (s.setQuiesce (.halfDie d) true).domains := by
  have he := (signalsOnly_raiseEvent (s.setQuiesce (.halfDie d) true) 0x0019 none
    [BitVec.ofNat 8 (partCode (.halfDie d)).1, BitVec.ofNat 8 (partCode (.halfDie d)).2, 0]).jobSignals
  have hf := fabricOnly_flushPart ((s.setQuiesce (.halfDie d) true).quiesceEvent (.halfDie d) false) (.halfDie d)
  exact ⟨hf.power.trans he.power, hf.domains.trans he.domains⟩

/-- Where half-die domain `d` stands as a domain. -/
abbrev halfDomain (d : Fin 48) : Fin 61 := ⟨d.val, by omega⟩

theorem halfDomain_ne {d e : Fin 48} (h : d ≠ e) : halfDomain d ≠ halfDomain e := fun q => h (Fin.ext (congrArg (fun x : Fin 61 => x.val) q))

/-- What eclipses have to do with half-die domain `d`: its state, its own entries among the eclipses under way, and why domains are to go off. -/
def State.eclipseView (s : State) (d : Fin 48) : Domain × List (Fin 48 × Nat × Bool) × Bool × List (Fin 48) × Bool :=
  (s.domain (halfDomain d), s.power.eclipsing.filter fun e => decide (e.1 = d), s.power.coolantStop, s.power.eclipseOwed, s.power.drainOwed)

/-- A domain that is to go off stands among the eclipses under way, and in QUIESCE. -/
theorem eclipse_begins {s : State} {d : Fin 48} (cause : Nat) (unmap : Bool) (hp : (s.domain (halfDomain d)).powered = true)
    (he : s.power.eclipsing.any (fun e => decide (e.1 = d)) = false) :
    (s.eclipse d cause unmap).power = { s.power with eclipsing := s.power.eclipsing ++ [(d, cause, unmap)] } ∧
    (s.eclipse d cause unmap).domains = (if (s.domain (halfDomain d)).quiesced then s else s.setQuiesce (.halfDie d) true).domains := by
  unfold State.eclipse
  rw [if_neg (by simp [hp, he])]
  dsimp only
  split
  · exact ⟨rfl, rfl⟩
  · exact enterQuiesce_half _ d

/-- One that is off, or is about to go off, stays as it is. -/
theorem eclipse_again {s : State} {d : Fin 48} (cause : Nat) (unmap : Bool)
    (h : (s.domain (halfDomain d)).powered = false ∨ s.power.eclipsing.any (fun e => decide (e.1 = d)) = true) : s.eclipse d cause unmap = s :=
  if_pos (by simpa using h)

theorem eclipseView_eclipse_ne (s : State) {d e : Fin 48} (h : d ≠ e) (cause : Nat) (unmap : Bool) :
    (s.eclipse e cause unmap).eclipseView d = s.eclipseView d := by
  by_cases hp : (s.domain (halfDomain e)).powered = false ∨ s.power.eclipsing.any (fun x => decide (x.1 = e)) = true
  · rw [eclipse_again cause unmap hp]
  · obtain ⟨hon, hnew⟩ : (s.domain (halfDomain e)).powered = true ∧ s.power.eclipsing.any (fun x => decide (x.1 = e)) = false := by
      rwa [not_or, Bool.not_eq_false, Bool.not_eq_true] at hp
    obtain ⟨hw, hd⟩ := eclipse_begins cause unmap hon hnew
    have hdom : (s.eclipse e cause unmap).domain (halfDomain d) = s.domain (halfDomain d) := by
      rw [domain_of_domains hd]
      split
      · rfl
      · exact State.domain_modDomain_ne s _ (halfDomain_ne h)
    unfold State.eclipseView
    rw [hdom, hw]
    simp [Ne.symm h]

/-- One domain of a drain that is complete: it goes off where it was owed, or where the coolant has stopped. -/
def State.goOff (owed : List (Fin 48)) (t : State) (d : Fin 48) : State :=
  if owed.contains d then t.eclipse d (if t.power.coolantStop then 2 else 1) true
  else if t.power.coolantStop then t.eclipse d 2 false
  else t

theorem eclipseView_goOff_ne (owed : List (Fin 48)) (s : State) {d e : Fin 48} (h : d ≠ e) :
    (State.goOff owed s e).eclipseView d = s.eclipseView d := by
  unfold State.goOff
  split
  · exact eclipseView_eclipse_ne s h _ _
  · split
    · exact eclipseView_eclipse_ne s h _ _
    · rfl

/-- Domains other than `d` go off without a change of `d`. -/
theorem eclipseView_goOffs (owed : List (Fin 48)) (l : List (Fin 48)) (s : State) {d : Fin 48} (h : d ∉ l) :
    (l.foldl (State.goOff owed) s).eclipseView d = s.eclipseView d := by
  induction l generalizing s with
  | nil => rfl
  | cons e l ih =>
    obtain ⟨hne, hl⟩ := not_or.1 (mt List.mem_cons.2 h)
    exact (ih _ hl).trans (eclipseView_goOff_ne owed s hne)

/-- A domain that is owed goes off. -/
theorem eclipseView_goOff_self {owed : List (Fin 48)} {s : State} {d : Fin 48} (h : d ∈ owed) (hp : (s.domain (halfDomain d)).powered = true)
    (he : s.power.eclipsing.filter (fun e => decide (e.1 = d)) = []) :
    ((State.goOff owed s d).domain (halfDomain d)).quiesced = true ∧ ((State.goOff owed s d).domain (halfDomain d)).powered = true ∧
    (State.goOff owed s d).power =
      { s.power with eclipsing := s.power.eclipsing ++ [(d, if s.power.coolantStop then 2 else 1, true)] } := by
  have hnew : s.power.eclipsing.any (fun e => decide (e.1 = d)) = false := by
    simpa [List.filter_eq_nil_iff] using he
  obtain ⟨hw, hd⟩ := eclipse_begins (if s.power.coolantStop then 2 else 1) true hp hnew
  unfold State.goOff
  rw [if_pos (by simpa using h), domain_of_domains hd]
  refine ⟨?_, ?_, hw⟩
  · split
    case isTrue hq => exact hq
    case isFalse => exact congrArg Domain.quiesced (State.domain_modDomain_same s _ _)
  · split
    · exact hp
    · exact (congrArg Domain.powered (State.domain_modDomain_same s _ _)).trans hp

/-- Every domain in turn: one that is owed is among the eclipses under way and in QUIESCE, and still on. -/
theorem eclipses_owed {owed : List (Fin 48)} {s : State} {d : Fin 48} (h : d ∈ owed) (hp : (s.domain (halfDomain d)).powered = true)
    (he : s.power.eclipsing = []) {t : State} (ht : t = (List.finRange 48).foldl (State.goOff owed) s) :
    (d, (if s.power.coolantStop then 2 else 1), true) ∈ t.power.eclipsing ∧ (t.domain (halfDomain d)).quiesced = true ∧
    (t.domain (halfDomain d)).powered = true ∧ t.power.eclipseOwed = s.power.eclipseOwed ∧ t.power.drainOwed = s.power.drainOwed := by
  obtain ⟨a, b, hab⟩ := List.append_of_mem (List.mem_finRange d)
  have hnd : (a ++ d :: b).Nodup := hab ▸ List.nodup_finRange 48
  obtain ⟨hb, -⟩ := List.nodup_cons.1 (List.nodup_append.1 hnd).2.1
  have ha : d ∉ a := fun hd => (List.nodup_append.1 hnd).2.2 d hd d List.mem_cons_self rfl
  rw [hab, List.foldl_append, List.foldl_cons] at ht
  have hu := eclipseView_goOffs owed a s ha
  generalize a.foldl (State.goOff owed) s = u at ht hu
  have hv := eclipseView_goOffs owed b (State.goOff owed u d) hb
  rw [← ht] at hv
  simp only [State.eclipseView, Prod.mk.injEq] at hu hv
  obtain ⟨hdom, hecl, hcool, howed, hdrain⟩ := hu
  obtain ⟨hdom', hecl', -, howed', hdrain'⟩ := hv
  obtain ⟨hq, hon, hw⟩ := eclipseView_goOff_self h (by rw [hdom]; exact hp) (by rw [hecl, he]; rfl)
  rw [hw] at hecl' howed' hdrain'
  refine ⟨List.mem_of_mem_filter (p := fun e => decide (e.1 = d)) ?_, by rw [hdom']; exact hq, by rw [hdom']; exact hon, howed'.trans howed,
    hdrain'.trans hdrain⟩
  rw [hecl', hcool]
  simp

/-- Settles O49: the stop's signals leave deep memory, domains and the recorded contents alone, and each domain's eclipse leaves the others alone. -/
theorem orderlyStops : Obligations.OrderlyStops := by
  unfold Obligations.OrderlyStops
  intro s vin
  refine ⟨?_, ?_, ?_, ?_, exec_powerDrainDone_waits, ?_, ?_⟩
  · intro hv hop hr hh
    obtain ⟨hdom, hdeep, hpow, -, r, hrec, hcause, hkept, htag, hsc⟩ := orderlyStopped_frame s vin
    obtain ⟨hret, hband, hdeep', hjob, -, hnv⟩ := retained (s.orderlyStopped vin)
    refine ⟨_, exec_orderlyStop_retains hv hop hr hh, hret, hband.trans (congrArg Power.band hpow), hdeep'.trans hdeep, hjob, ?_, ?_, r, hnv.trans hrec,
      hcause, hkept, htag, hsc⟩
    · intro d hd
      rw [powered_retained]
      simp
      omega
    · intro d hlo hhi
      rw [powered_retained, domain_of_domains hdom]
      simp [hlo, hhi]
  · intro hv hop hr hh
    obtain ⟨-, hdeep, hpow, hl, -⟩ := orderlyStopped_frame s vin
    exact ⟨_, exec_orderlyStop_drains hv hop hr hh, rfl, congrArg Power.orderly hpow, hl, hdeep⟩
  · intro hv hop hr
    exact ⟨_, exec_orderlyStop_early hv hop hr, downEarly_frame _⟩
  · intro hv
    exact if_neg fun h => absurd h.1 (by omega)
  · intro ho hq hs hl hh hord hop
    obtain ⟨u, hu⟩ : ∃ u : State, u = { s with power := { s.power with drainOwed := false } } := ⟨_, rfl⟩
    have hop' : u.power.operating = false := by rw [hu]; exact hop
    obtain ⟨hret, -, hdeep, -, hdrain, -⟩ := retained u
    have hx : exec .powerDrainDone s = .next u.enterRetention := by
      rw [exec_powerDrainDone ho hq hs hl hh, ← hu, drainedDown_orderly (by rw [hu]; exact hord) hop']
    exact ⟨_, hx, hret, hdeep.trans (by rw [hu]), hdrain⟩
  · intro d ho hq hs hl hh hord hd hp he
    obtain ⟨hmem, hqs, hon, howed, hdrain⟩ := eclipses_owed (s := { s with power := { s.power with drainOwed := false, eclipseOwed := [] } }) hd hp he rfl
    exact ⟨_, (exec_powerDrainDone ho hq hs hl hh).trans (congrArg Host.Outcome.next (if_neg (by simp [hord]))), hmem, hqs, hon, howed, hdrain⟩

end Sys2Proof.Machine

/-! PROOFS. Drains of a job into an area (R73, R129, R263, R361). -/

namespace Sys2Proof.Machine

/-! ### Scans of scratchpads (R73) -/

/-- Only cores, clusters, counters and free values change. -/
def State.drainsOnly (s t : State) : Prop := t = { s with cores := t.cores, clusters := t.clusters, ctr := t.ctr, freeCtr := t.freeCtr }

theorem State.drainsOnly.refl (s : State) : s.drainsOnly s := rfl

theorem State.drainsOnly.trans {s t u : State} (h : s.drainsOnly t) (g : t.drainsOnly u) : s.drainsOnly u := by
  unfold State.drainsOnly at *
  rw [g, h]

/-- Of clusters nothing changes. -/
def State.scansOnly (s t : State) : Prop := t = { s with cores := t.cores, ctr := t.ctr }

theorem State.scansOnly.trans {s t u : State} (h : s.scansOnly t) (g : t.scansOnly u) : s.scansOnly u := by
  unfold State.scansOnly at *
  rw [g, h]

theorem State.scansOnly.drainsOnly {s t : State} (h : s.scansOnly t) : s.drainsOnly t := by
  unfold State.drainsOnly
  rw [h]

theorem State.scansOnly.clusters {s t : State} (h : s.scansOnly t) : t.clusters = s.clusters := by rw [h]

theorem scansOnly_scanSpad (s : State) (c : CoreAt) : s.scansOnly (s.scanSpad c) := by
  unfold State.scanSpad State.countSoft
  split <;> rfl

theorem scansOnly_scans (l : List CoreAt) (s : State) : s.scansOnly (l.foldl State.scanSpad s) := by
  induction l generalizing s with
  | nil => rfl
  | cons c l ih => exact (scansOnly_scanSpad s c).trans (ih _)

/-- A core whose scratchpad has been scanned. -/
def Core.afterScan (x : Core) : Core := { x.noteSoft 0 131072 with runAhead := [] }

theorem cores_scanSpad (s : State) (c : CoreAt) : (s.scanSpad c).cores = (s.modCore c Core.afterScan).cores := by
  unfold State.scanSpad State.countSoft
  split <;> rfl

/-- What a scan of core `c` leaves of core `e`. -/
theorem core_scanSpad (s : State) (c e : CoreAt) : (s.scanSpad c).core e = if e = c then (s.core e).afterScan else s.core e := by
  rw [core_of_cores (cores_scanSpad s c)]
  split
  case isTrue h => rw [h, State.core_modCore_same]
  case isFalse h => exact State.core_modCore_ne s _ h

/-- What a drain leaves as it is of a core, whose run-ahead buffer is discarded (R277). -/
def Core.stays (x y : Core) : Prop := y.spad = x.spad ∧ y.v = x.v ∧ y.store = x.store ∧ (x.runAhead = [] → y.runAhead = [])

theorem Core.stays.refl (x : Core) : x.stays x := ⟨rfl, rfl, rfl, id⟩

theorem Core.stays.trans {x y z : Core} (h : x.stays y) (g : y.stays z) : x.stays z := by
  obtain ⟨h1, h2, h3, h4⟩ := h
  obtain ⟨g1, g2, g3, g4⟩ := g
  exact ⟨g1.trans h1, g2.trans h2, g3.trans h3, g4 ∘ h4⟩

theorem stays_scanSpad (s : State) (c e : CoreAt) : (s.core e).stays ((s.scanSpad c).core e) := by
  rw [core_scanSpad]
  split
  · exact ⟨rfl, rfl, rfl, fun _ => rfl⟩
  · exact .refl _

theorem stays_scans (l : List CoreAt) (s : State) (e : CoreAt) : (s.core e).stays ((l.foldl State.scanSpad s).core e) := by
  induction l generalizing s with
  | nil => exact .refl _
  | cons c l ih => exact (stays_scanSpad s c e).trans (ih _)

theorem runAhead_scans {l : List CoreAt} {e : CoreAt} (h : e ∈ l) (s : State) : ((l.foldl State.scanSpad s).core e).runAhead = [] := by
  induction l generalizing s with
  | nil => exact absurd h List.not_mem_nil
  | cons c l ih =>
    by_cases he : e = c
    · obtain ⟨-, -, -, hr⟩ := stays_scans l (s.scanSpad c) e
      refine hr ?_
      rw [core_scanSpad, if_pos he]
      rfl
    · exact ih ((List.mem_cons.1 h).resolve_left he) _

/-! ### Drain records (R263) -/

theorem drainCluster_none {s : State} {k : ClusterAt} (h : s.logical k = none) : s.drainCluster k = (none, s) := by
  unfold State.drainCluster
  rw [h]

/-- A cluster that carries a logical one: its record, its cores scanned, and its mark. -/
theorem drainCluster_some {s : State} {k : ClusterAt} {cl : BitVec 9} (h : s.logical k = some cl) : (s.drainCluster k).1.isSome = true ∧
    (s.drainCluster k).2 = (coresOf k).foldl State.scanSpad
      (({ s with freeCtr := s.freeCtr + 16512 + 16384 * 64 } : State).modCluster k fun x => { x with drained := true }) := by
  unfold State.drainCluster
  rw [h]
  dsimp only
  exact ⟨Option.isSome_some, rfl⟩

theorem drainsOnly_drainCluster (s : State) (k : ClusterAt) : s.drainsOnly (s.drainCluster k).2 := by
  cases h : s.logical k with
  | none => rw [drainCluster_none h]; exact .refl s
  | some cl =>
    rw [(drainCluster_some h).2]
    exact .trans (by exact rfl) (scansOnly_scans (coresOf k) _).drainsOnly

theorem logical_of_drainsOnly {s t : State} (h : s.drainsOnly t) (k : ClusterAt) : t.logical k = s.logical k := by
  have hr : t.repairMap = s.repairMap := by rw [h]
  unfold State.logical State.entryOf
  rw [hr]

/-- A cluster with the mark of a drain where `p` says so. -/
def Cluster.markDrained (x : Cluster) (p : Prop) [Decidable p] : Cluster := if p then { x with drained := true } else x

theorem markDrained_congr (x : Cluster) {p q : Prop} [Decidable p] [Decidable q] (h : p ↔ q) : x.markDrained p = x.markDrained q := by
  unfold Cluster.markDrained
  simp only [h]

theorem markDrained_markDrained (x : Cluster) (p q : Prop) [Decidable p] [Decidable q] : (x.markDrained p).markDrained q = x.markDrained (p ∨ q) := by
  unfold Cluster.markDrained
  by_cases hp : p
  · simp [hp]
  · simp [hp]

theorem cluster_drainCluster (s : State) (k j : ClusterAt) :
    (s.drainCluster k).2.cluster j = (s.cluster j).markDrained (j = k ∧ (s.logical k).isSome = true) := by
  unfold Cluster.markDrained
  cases h : s.logical k with
  | none => rw [drainCluster_none h, if_neg (by simp)]
  | some cl =>
    rw [(drainCluster_some h).2, cluster_of_clusters (scansOnly_scans (coresOf k) _).clusters]
    by_cases hj : j = k
    · rw [if_pos ⟨hj, rfl⟩, hj]
      exact State.cluster_putCluster_same _ _ _
    · rw [if_neg fun h => hj h.1]
      exact State.cluster_putCluster_ne _ _ hj

theorem stays_drainCluster (s : State) (k : ClusterAt) (c : CoreAt) : (s.core c).stays ((s.drainCluster k).2.core c) := by
  cases h : s.logical k with
  | none => rw [drainCluster_none h]; exact .refl _
  | some cl =>
    rw [(drainCluster_some h).2]
    exact .trans (by exact .refl _) (stays_scans (coresOf k) _ c)

theorem runAhead_drainCluster {s : State} {c : CoreAt} (h : (s.logical (clusterOf c)).isSome = true) :
    ((s.drainCluster (clusterOf c)).2.core c).runAhead = [] := by
  obtain ⟨cl, hcl⟩ := Option.isSome_iff_exists.1 h
  rw [(drainCluster_some hcl).2]
  exact runAhead_scans (mem_coresOf (clusterOf c) c.core) _

/-! ### Clusters one after the other -/

theorem drainList_cons (s : State) (k : ClusterAt) (ks : List ClusterAt) : (s.drainList (k :: ks)).1 =
    (s.drainCluster k).1.toList ++ ((s.drainCluster k).2.drainList ks).1 ∧ (s.drainList (k :: ks)).2 = ((s.drainCluster k).2.drainList ks).2 :=
  ⟨rfl, rfl⟩

theorem drainsOnly_drainList (ks : List ClusterAt) (s : State) : s.drainsOnly (s.drainList ks).2 := by
  induction ks generalizing s with
  | nil => exact .refl s
  | cons k ks ih => exact (drainsOnly_drainCluster s k).trans (ih _)

theorem logical_drainCluster (s : State) (k j : ClusterAt) : (s.drainCluster k).2.logical j = s.logical j :=
  logical_of_drainsOnly (drainsOnly_drainCluster s k) j

/-- Each cluster that carries a logical one has a record. -/
theorem length_drainList (ks : List ClusterAt) (s : State) (h : ∀ k ∈ ks, (s.logical k).isSome = true) : (s.drainList ks).1.length = ks.length := by
  induction ks generalizing s with
  | nil => rfl
  | cons k ks ih =>
    obtain ⟨cl, hcl⟩ := Option.isSome_iff_exists.1 (h k List.mem_cons_self)
    obtain ⟨x, hx⟩ := Option.isSome_iff_exists.1 (drainCluster_some hcl).1
    have hrest := ih (s.drainCluster k).2 fun j hj => by
      rw [logical_drainCluster]
      exact h j (List.mem_cons_of_mem _ hj)
    rw [(drainList_cons s k ks).1, List.length_append, hrest, hx, List.length_cons, Nat.add_comm]
    rfl

theorem cluster_drainList (ks : List ClusterAt) (s : State) (j : ClusterAt) :
    (s.drainList ks).2.cluster j = (s.cluster j).markDrained (j ∈ ks ∧ (s.logical j).isSome = true) := by
  induction ks generalizing s with
  | nil => exact (if_neg fun h => List.not_mem_nil h.1).symm
  | cons k ks ih =>
    rw [(drainList_cons s k ks).2, ih, cluster_drainCluster, logical_drainCluster, markDrained_markDrained]
    refine markDrained_congr _ ⟨?_, fun ⟨hm, hl⟩ => ?_⟩
    · rintro (⟨rfl, hl⟩ | ⟨hm, hl⟩)
      · exact ⟨List.mem_cons_self, hl⟩
      · exact ⟨List.mem_cons_of_mem k hm, hl⟩
    · rcases List.mem_cons.1 hm with rfl | hm
      · exact .inl ⟨rfl, hl⟩
      · exact .inr ⟨hm, hl⟩

theorem stays_drainList (ks : List ClusterAt) (s : State) (c : CoreAt) : (s.core c).stays ((s.drainList ks).2.core c) := by
  induction ks generalizing s with
  | nil => exact .refl _
  | cons k ks ih => exact (stays_drainCluster s k c).trans (ih _)

theorem runAhead_drainList {ks : List ClusterAt} {c : CoreAt} (hc : clusterOf c ∈ ks) (s : State) (h : (s.logical (clusterOf c)).isSome = true) :
    ((s.drainList ks).2.core c).runAhead = [] := by
  induction ks generalizing s with
  | nil => exact absurd hc List.not_mem_nil
  | cons k ks ih =>
    rw [(drainList_cons s k ks).2]
    by_cases hk : clusterOf c = k
    · obtain ⟨-, -, -, hr⟩ := stays_drainList ks (s.drainCluster k).2 c
      exact hr (hk ▸ runAhead_drainCluster h)
    · exact ih ((List.mem_cons.1 hc).resolve_left hk) _ (by rw [logical_drainCluster]; exact h)

/-! ### The job into an area, and its promotion (R263, R361) -/

/-- The areas of the records. -/
def Checkpoints.area (x : Checkpoints) (a : Bool) : List Snapshot := if a then x.area1 else x.area0

/-- The image identity and the phase of an area. -/
def Checkpoints.origin (x : Checkpoints) (a : Bool) : Option (BitVec 64) × BitVec 3 := if a then (x.image1, x.phase1) else (x.image0, x.phase0)

theorem State.drainsOnly.ckpt {s t : State} (h : s.drainsOnly t) : t.ckpt = s.ckpt := by rw [h]
theorem State.drainsOnly.job {s t : State} (h : s.drainsOnly t) : t.job = s.job := by rw [h]

/-- The records of the job's clusters fill the area; the other area stays. -/
theorem drainJob_eq (s : State) (a : Bool) : ∃ c, s.drainJob a = { (s.drainList s.job.members).2 with ckpt := c } ∧
    c.area a = (s.drainList s.job.members).1 ∧ c.area (!a) = s.ckpt.area (!a) ∧ c.origin a = (some s.imageId, s.job.phase) := by
  have h := drainsOnly_drainList s.job.members s
  have hc := h.ckpt
  have hj := h.job
  refine ⟨_, rfl, ?_⟩
  generalize s.drainList s.job.members = r at hc hj
  unfold State.imageId
  rw [hj, hc]
  cases a <;> exact ⟨rfl, rfl, rfl⟩

end Sys2Proof.Machine

/-! PROOFS. Digest results and the checkpoint drain (R196, R357 to R361, R375). -/

namespace Sys2Proof.Machine

/-! ### Digest records (R360) -/

theorem addDigest_room {s : State} (r : BitVec 512) (h : s.genhan.digests.length < 16384) :
    s.addDigest r = { s with genhan := { s.genhan with digests := s.genhan.digests ++ [r] } } := by
  unfold State.addDigest
  exact if_neg (by omega)

/-- Only the buffer of digest records changes. -/
def State.digestsOnly (s t : State) : Prop :=
  t = { s with genhan := { s.genhan with digests := t.genhan.digests, digLost := t.genhan.digLost } }

/-- While there is room, each record of a list lengthens the buffer by one. -/
theorem addDigests_room {α : Type} (f : State → α → BitVec 512) (l : List α) (s : State) (h : s.genhan.digests.length + l.length ≤ 16384) :
    s.digestsOnly (l.foldl (fun s a => s.addDigest (f s a)) s) ∧
    (l.foldl (fun s a => s.addDigest (f s a)) s).genhan.digests.length = s.genhan.digests.length + l.length := by
  induction l generalizing s with
  | nil => exact ⟨rfl, rfl⟩
  | cons a l ih =>
    rw [List.length_cons] at h
    have ha := addDigest_room (s := s) (f s a) (by omega)
    have hl : (s.addDigest (f s a)).genhan.digests.length = s.genhan.digests.length + 1 := by
      rw [ha]
      exact List.length_append
    obtain ⟨ho, hn⟩ := ih (s.addDigest (f s a)) (by omega)
    rw [List.foldl_cons, List.length_cons, hn, hl]
    refine ⟨?_, by omega⟩
    generalize l.foldl _ (s.addDigest (f s a)) = t at ho
    unfold State.digestsOnly at *
    rw [ho, ha]

theorem addReplica_room (s : State) (r : BitVec 8) (step sc : BitVec 48) (es : List (BitVec 64)) (f : Nat → Nat) (w : Nat)
    (h : s.genhan.digests.length + es.length < 16384) : s.digestsOnly (s.addReplica r step sc es f w) ∧
    (s.addReplica r step sc es f w).genhan.digests.length = s.genhan.digests.length + es.length + 1 := by
  unfold State.addReplica
  extract_lets rid t
  obtain ⟨ho, hn⟩ := addDigests_room (fun s e => digestRecord s.pkg e.1 step r.toNat e.2 (f e.2) rid sc) es.zipIdx s (by rw [List.length_zipIdx]; omega)
  rw [List.length_zipIdx] at hn
  have hl : t.genhan.digests.length = s.genhan.digests.length + es.length := hn
  have ht : s.digestsOnly t := ho
  clear_value t
  rw [addDigest_room _ (by omega)]
  refine ⟨?_, ?_⟩
  · unfold State.digestsOnly at *
    rw [ht]
  · rw [← hl]
    exact List.length_append

/-- A digest result that came, kept until the others of its step have come. -/
def State.keepDigest (s : State) (p : BitVec 8 × BitVec 48 × BitVec 48 × List (BitVec 64)) : State :=
  { s with genhan := { s.genhan with digPending := s.genhan.digPending ++ [p] } }

/-- Every replica of the package has reported a step. -/
def State.stepReported (s : State) (mine : List Nat) (step : BitVec 48) : Bool :=
  mine.all fun j => s.genhan.digPending.any fun q => decide (q.1.toNat = j) && decide (q.2.1 = step)

theorem exec_digestResult {rid : BitVec 8} {step : BitVec 48} {elems : List (BitVec 64)} {s : State} {mine : List Nat} {i : Nat}
    (hm : mine = (s.job.digReplicas.zipIdx.filter fun e => decide (e.1.extractLsb' 16 12 = s.pkg)).map (·.2))
    (hf : mine.find? (fun i => decide (s.replicaRid i = rid.toNat)) = some i) (hw : s.waits (isDigest rid elems) = false) {t : State}
    (ht : t = (s.arrived (isDigest rid elems) 0).keepDigest (BitVec.ofNat 8 i, step, s.time.sc.setWidth 48, elems)) :
    exec (.digestResult rid step elems) s = .next (if t.stepReported mine step then t.compareDigests step else t) := by
  subst ht
  change execDigestResult rid step elems s = _
  unfold execDigestResult
  rw [← hm]
  dsimp only
  rw [hf]
  exact congrArg Host.Outcome.next (onArrival_taken _ hw)

/-- One replica of the package has reported: its records, and nothing to compare. -/
theorem compareDigests_one {s : State} {step : BitVec 48} {p : BitVec 8 × BitVec 48 × BitVec 48 × List (BitVec 64)}
    (h : s.genhan.digPending.filter (fun p => decide (p.2.1 = step)) = [p]) :
    s.compareDigests step = ({ s with genhan := { s.genhan with
      digPending := s.genhan.digPending.filter fun p => decide (p.2.1 ≠ step) } } : State).addReplica p.1 step p.2.2.1 p.2.2.2 (fun _ => 0) 0 := by
  unfold State.compareDigests
  rw [h]
  rfl

/-- What a digest result that came leaves, and what it adds. -/
theorem keepDigest_frame (s : State) (rid : BitVec 8) (elems : List (BitVec 64)) (p : BitVec 8 × BitVec 48 × BitVec 48 × List (BitVec 64)) {t : State}
    (ht : t = (s.arrived (isDigest rid elems) 0).keepDigest p) : t.genhan.digPending = s.genhan.digPending ++ [p] ∧
    t.genhan.digests = s.genhan.digests ∧ t.job = s.job ∧ t.cores = s.cores := by
  subst ht
  have hg : (s.arrived (isDigest rid elems) 0).genhan = s.genhan := State.arrived_genhan _ _ _
  have hd : (s.arrived (isDigest rid elems) 0).genhan.digests = s.genhan.digests := congrArg Genhan.digests hg
  refine ⟨?_, hd, State.arrived_job _ _ _, State.arrived_cores _ _ _⟩
  rw [← hg]
  rfl

/-- Another replica of the package has still to report the step. -/
theorem stepReported_waits {t : State} {l : List (BitVec 8 × BitVec 48 × BitVec 48 × List (BitVec 64))} {mine : List Nat} {step : BitVec 48} {j : Nat}
    {p : BitVec 8 × BitVec 48 × BitVec 48 × List (BitVec 64)} (ht : t.genhan.digPending = l ++ [p]) (hj : j ∈ mine) (hp : p.1.toNat ≠ j)
    (hl : ∀ q ∈ l, q.1.toNat = j → q.2.1 ≠ step) : t.stepReported mine step = false := by
  unfold State.stepReported
  rw [ht]
  refine Bool.eq_false_iff.2 fun hall => ?_
  obtain ⟨q, hq, hqj⟩ := List.any_eq_true.1 (List.all_eq_true.1 hall j hj)
  obtain ⟨h1, h2⟩ := Bool.and_eq_true_iff.1 hqj
  rcases List.mem_append.1 hq with hq | hq
  · exact hl q hq (of_decide_eq_true h1) (of_decide_eq_true h2)
  · exact hp (List.mem_singleton.1 hq ▸ of_decide_eq_true h1)

/-- The one replica of the package has reported the step. -/
theorem stepReported_one {t : State} {l : List (BitVec 8 × BitVec 48 × BitVec 48 × List (BitVec 64))} {step : BitVec 48} {i : Nat}
    {p : BitVec 8 × BitVec 48 × BitVec 48 × List (BitVec 64)} (ht : t.genhan.digPending = l ++ [p]) (hp : p.1.toNat = i) (hs : p.2.1 = step) :
    t.stepReported [i] step = true := by
  unfold State.stepReported
  rw [ht]
  simp [hp, hs]

theorem digestResult_waits {rid : BitVec 8} {step : BitVec 48} {elems : List (BitVec 64)} {s : State} {mine : List Nat} {i : Nat}
    (hm : mine = (s.job.digReplicas.zipIdx.filter fun e => decide (e.1.extractLsb' 16 12 = s.pkg)).map (·.2))
    (hf : mine.find? (fun i => decide (s.replicaRid i = rid.toNat)) = some i) (hw : s.waits (isDigest rid elems) = false)
    (hj : ∃ j ∈ mine, j < 256 ∧ j ≠ i ∧ ∀ q ∈ s.genhan.digPending, q.1.toNat = j → q.2.1 ≠ step) (hi : i < 256) :
    ∃ t, exec (.digestResult rid step elems) s = .next t ∧
      t.genhan.digPending = s.genhan.digPending ++ [(BitVec.ofNat 8 i, step, s.time.sc.setWidth 48, elems)] ∧
      t.genhan.digests = s.genhan.digests ∧ t.job = s.job ∧ t.cores = s.cores := by
  obtain ⟨j, hmem, -, hne, hnone⟩ := hj
  obtain ⟨t, ht⟩ : ∃ t, t = (s.arrived (isDigest rid elems) 0).keepDigest (BitVec.ofNat 8 i, step, s.time.sc.setWidth 48, elems) := ⟨_, rfl⟩
  have hk := keepDigest_frame s rid elems _ ht
  have hi' : (BitVec.ofNat 8 i).toNat ≠ j := by
    rw [BitVec.toNat_ofNat]
    omega
  have hr := stepReported_waits hk.1 hmem hi' hnone
  exact ⟨t, (exec_digestResult hm hf hw ht).trans (by rw [hr]; rfl), hk⟩

theorem digestResult_one {rid : BitVec 8} {step : BitVec 48} {elems : List (BitVec 64)} {s : State} {i : Nat}
    (hm : [i] = (s.job.digReplicas.zipIdx.filter fun e => decide (e.1.extractLsb' 16 12 = s.pkg)).map (·.2))
    (hf : [i].find? (fun i => decide (s.replicaRid i = rid.toNat)) = some i) (hw : s.waits (isDigest rid elems) = false)
    (hi : i < 256) (hnone : ∀ q ∈ s.genhan.digPending, q.2.1 ≠ step) (hroom : s.genhan.digests.length + elems.length < 16384) :
    ∃ t, exec (.digestResult rid step elems) s = .next t ∧ t.genhan.digPending = s.genhan.digPending ∧
      t.genhan.digests.length = s.genhan.digests.length + elems.length + 1 ∧ t.job = s.job ∧ t.cores = s.cores := by
  obtain ⟨t, ht⟩ : ∃ t, t = (s.arrived (isDigest rid elems) 0).keepDigest (BitVec.ofNat 8 i, step, s.time.sc.setWidth 48, elems) := ⟨_, rfl⟩
  obtain ⟨hpend, hdig, hjob, hcores⟩ := keepDigest_frame s rid elems _ ht
  have hr := stepReported_one (step := step) hpend (show (BitVec.ofNat 8 i).toNat = i by rw [BitVec.toNat_ofNat]; omega) rfl
  have hold : t.genhan.digPending.filter (fun q => decide (q.2.1 ≠ step)) = s.genhan.digPending := by
    rw [hpend, List.filter_append, List.filter_eq_self.2 fun q hq => decide_eq_true (hnone q hq)]
    simp
  have hnew : t.genhan.digPending.filter (fun q => decide (q.2.1 = step)) = [(BitVec.ofNat 8 i, step, s.time.sc.setWidth 48, elems)] := by
    rw [hpend, List.filter_append, List.filter_eq_nil_iff.2 fun q hq => by simpa using hnone q hq]
    simp
  have hx := exec_digestResult hm hf hw ht
  rw [hr, if_pos rfl, compareDigests_one hnew, hold] at hx
  obtain ⟨ho, hn⟩ := addReplica_room ({ t with genhan := { t.genhan with digPending := s.genhan.digPending } } : State) (BitVec.ofNat 8 i) step
    (s.time.sc.setWidth 48) elems (fun _ => 0) 0 (by rw [← hdig] at hroom; exact hroom)
  refine ⟨_, hx, ?_, hn.trans (by rw [← hdig]), ?_, ?_⟩ <;> rw [ho]
  · exact hjob
  · exact hcores

/-! ### The promotion of a drain (R361, R263) -/

theorem digestsMatched_of {s t : State} (hj : t.job = s.job) (hp : t.pkg = s.pkg) (hg : t.genhan = s.genhan) (step : BitVec 48) :
    t.digestsMatched step = s.digestsMatched step := by
  unfold State.digestsMatched State.comparesAt State.mismatchOpen
  rw [hj, hp, hg]

/-- A promotion changes, besides signals, which area is the latest and the note of it in management flash. -/
theorem promote_frame (s : State) (area : Bool) (step : BitVec 48) :
    ({ s with ckpt := (s.promote area step).ckpt, nv := (s.promote area step).nv } : State).signalsOnly (s.promote area step) ∧
    (∀ b, (s.promote area step).ckpt.area b = s.ckpt.area b) ∧ (s.digestsMatched step = true → (s.promote area step).ckpt.latest = some area) := by
  unfold State.promote
  split
  case isTrue h =>
    dsimp only
    refine ⟨?_, fun b => ?_, fun _ => ?_⟩
    · rw [State.raiseEvent_ckpt, State.raiseEvent_nv]
      exact (signalsOnly_raiseEvent _ _ _ _).after rfl
    · rw [State.raiseEvent_ckpt]
      rfl
    · rw [State.raiseEvent_ckpt]
  case isFalse h => exact ⟨rfl, fun _ => rfl, fun hm => absurd hm h⟩

/-- The job drained into an area, and promoted where its digests allow. -/
def State.drained (s : State) (area : Bool) (step : BitVec 48) : State := (s.drainJob area).promote area step

theorem drained_frame (s : State) (area : Bool) (step : BitVec 48) {t : State} (ht : t = s.drained area step) :
    t.job = s.job ∧ t.time = s.time ∧ t.host.testPolicy = s.host.testPolicy ∧
    (∀ k, t.cluster k = (s.cluster k).markDrained (k ∈ s.job.members ∧ (s.logical k).isSome = true)) ∧
    (∀ c, (t.core c).spad = (s.core c).spad) ∧ t.ckpt.area area = (s.drainList s.job.members).1 ∧ t.ckpt.area (!area) = s.ckpt.area (!area) ∧
    (s.digestsMatched step = true → t.ckpt.latest = some area) := by
  obtain ⟨c, hd, harea, hother, -⟩ := drainJob_eq s area
  obtain ⟨hsig, hareas, hlatest⟩ := promote_frame (s.drainJob area) area step
  have hlim := (guarded_promote (s.drainJob area) area step).trans (guarded_drainJob s area)
  have hl := drainsOnly_drainList s.job.members s
  have hcl := cluster_drainList s.job.members s
  have hst := stays_drainList s.job.members s
  unfold State.drained at ht
  rw [← ht] at hsig hareas hlatest hlim
  generalize s.drainJob area = u at *
  generalize (s.drainList s.job.members).2 = v at *
  subst hd
  have hpolicy : t.host.testPolicy = s.host.testPolicy := congrArg (fun l => l.2.2) ((guarded_iff s t).1 hlim).1
  have hjob : t.job = s.job := (show t.job = v.job by rw [hsig]).trans hl.job
  have htime : t.time = s.time := (show t.time = v.time by rw [hsig]).trans (by rw [hl])
  have hclusters : t.clusters = v.clusters := by rw [hsig]
  have hcores : t.cores = v.cores := by rw [hsig]
  refine ⟨hjob, htime, hpolicy, fun k => (cluster_of_clusters hclusters k).trans (hcl k), fun c => ?_, (hareas area).trans harea,
    (hareas !area).trans hother, fun hm => hlatest ?_⟩
  · obtain ⟨hs, -⟩ := hst c
    rw [core_of_cores hcores, hs]
  · rw [← hm]
    exact digestsMatched_of hl.job (by rw [hl]) (by rw [hl]) step

/-! ### Behind the drain: the test window and the relaunch keep the checkpoints (R369, R375) -/

theorem ckpt_sendsOnly {s t : State} (h : s.sendsOnly t) : t.ckpt = s.ckpt := by rw [h]

theorem armAt_ckpt (s : State) (count : BitVec 64) : (s.armAt count).ckpt = s.ckpt := by
  unfold State.armAt
  extract_lets u j v
  have hu : s.clustersOnly u := clustersOnly_foldl (fun t k => clustersOnly_modCluster t k _) s.job.members s
  have hv : v.ckpt = s.ckpt := hu.loadsOnly.ckpt
  split
  · exact (State.setJob_ckpt _ _ _ _ _ _).trans hv
  · exact hv

theorem relaunchTry_ckpt (s : State) : s.relaunchTry.ckpt = s.ckpt := by
  unfold State.relaunchTry
  split
  · split
    · unfold State.relaunchAt
      extract_lets u
      have hu : s.sendsOnly u := sendsOnly_foldl (fun t p => sendsOnly_relSend t p 5 _) _ s
      exact (armAt_ckpt _ _).trans (show u.ckpt = s.ckpt from ckpt_sendsOnly hu)
    · exact (ckpt_sendsOnly (sendsOnly_relSend _ _ _ _)).trans rfl
  · rfl

theorem ownDone_ckpt (s : State) : s.ownDone.ckpt = s.ckpt := (relaunchTry_ckpt _).trans rfl

theorem loadTransfer_ckpt (s : State) (q : BitVec 3) : (s.loadTransfer q).ckpt = s.ckpt := by
  unfold State.loadTransfer State.transferIn
  extract_lets rs _ t
  obtain ⟨ks, hl⟩ := loadRun_frame t rs (clustersIn rs)
  exact (ownDone_ckpt _).trans hl.ckpt

theorem afterCheckpoint_ckpt (s : State) : s.afterCheckpoint.ckpt = s.ckpt := by
  unfold State.afterCheckpoint
  split
  · exact loadTransfer_ckpt _ _
  · exact ownDone_ckpt _

theorem tryWindow_ckpt (s : State) : s.tryWindow.ckpt = s.ckpt := by
  unfold State.tryWindow
  split
  · split
    · rfl
    · exact (afterCheckpoint_ckpt _).trans rfl
  · rfl

theorem setVoltages_ckpt (s : State) : s.setVoltages.ckpt = s.ckpt := by
  have trim (u : State) (k : ClusterAt) : (u.setTrim k).ckpt = u.ckpt := by
    unfold State.setTrim
    dsimp only
    split <;> rfl
  refine (foldl_leaves State.ckpt trim _ _).trans (foldl_leaves State.ckpt (fun t d => ?_) _ s)
  split <;> rfl

theorem State.fabricOnly.ckpt {s t : State} (h : s.fabricOnly t) : t.ckpt = s.ckpt := by rw [h]

theorem enterQuiesce_cluster_ckpt (s : State) (k : ClusterAt) : (s.enterQuiesce (.cluster k)).ckpt = s.ckpt :=
  (fabricOnly_flushPart _ _).ckpt.trans (State.raiseEvent_ckpt _ _ _ _)

theorem startTest_ckpt (s : State) (stress : Bool) (k : ClusterAt) : (s.startTest stress k).ckpt = s.ckpt := by
  unfold State.startTest
  split
  · rfl
  · extract_lets u v
    have hu : u.ckpt = s.ckpt := by
      unfold u
      split
      · rfl
      · exact enterQuiesce_cluster_ckpt s k
    have hv : v.ckpt = s.ckpt := hu
    split
    · exact (setVoltages_ckpt v).trans hv
    · exact hv

theorem testInPlace_ckpt (s : State) : s.testInPlace.ckpt = s.ckpt :=
  (foldl_leaves State.ckpt (fun t k => startTest_ckpt t true k) _ _).trans rfl

/-- No rotation is due, and no cluster of the job is away: the window ends at once, and this package's part is finished. -/
theorem tryWindow_ends {s : State} {a : Bool} (hw : s.atCheckpoint = some a) (hp : s.host.testPolicy = 0)
    (hk : ∀ k ∈ s.job.members, (s.cluster k).testing = false ∧ (s.cluster k).quiesced = false) (hn : s.job.nextPhase = none) :
    s.tryWindow = ({ s with job := { s.job with window := false, rotated := [] } } : State).ownDone := by
  have hr (k sp : ClusterAt) : s.rotation a k sp = none := if_neg (by simp [hp])
  have hdue : (s.rotationDue a || s.job.members.any fun k => (s.cluster k).testing || (s.cluster k).quiesced) = false := by
    have haway : (s.job.members.any fun k => (s.cluster k).testing || (s.cluster k).quiesced) = false :=
      List.any_eq_false.2 fun k hm => by simp [hk k hm]
    rw [haway]
    simp [State.rotationDue, hr]
  unfold State.tryWindow
  rw [hw]
  dsimp only
  rw [hdue]
  unfold State.afterCheckpoint
  dsimp only
  rw [hn]
  rfl

/-! ### The drain of a checkpoint is complete -/

/-- The test window of a checkpoint opens. -/
def State.windowOpen (s : State) (area : Bool) : State :=
  { s with job := { s.job with window := true, rotated := [], windowArea := area, inPlace := [] } }

section
variable {s : State} {step : BitVec 48} {area : Bool} (hb : s.job.between = .checkpoint step area)
include hb

theorem exec_checkpointDrainDone_waits (hs : s.settled s.job.members = false) : exec .checkpointDrainDone s = .next s := by
  change execCheckpointDrainDone s = _
  unfold execCheckpointDrainDone
  rw [hb]
  exact if_pos (by simp [hs])

variable (hq : s.membersQuiet = true) (hw : s.job.window = false) (ho : s.power.drainOwed = false) (hs : s.settled s.job.members = true)
include hq hw ho hs

theorem exec_checkpointDrainDone {t : State} (ht : t = s.drained area step) : exec .checkpointDrainDone s = .next (if t.job.state = .running then
      (if (t.windowOpen area).host.testPolicy = 2 then (t.windowOpen area).testInPlace else t.windowOpen area).tryWindow
    else { t with job := { t.job with between := t.job.phaseLeft } }) := by
  subst ht
  change execCheckpointDrainDone s = _
  unfold execCheckpointDrainDone
  rw [hb]
  dsimp only
  rw [if_neg (by simp [hq, hw, ho, hs])]
  unfold State.drained
  split <;> rfl

end

theorem Checkpoints.area_not (x : Checkpoints) (a : Bool) : x.area (!a) = if a then x.area0 else x.area1 := by
  cases a <;> rfl

theorem markDrained_member (x : Cluster) {p : Prop} [Decidable p] {b : Bool} (h : p ↔ b = true) :
    x.markDrained p = { x with drained := x.drained || b } := by
  unfold Cluster.markDrained
  cases b with
  | true => rw [if_pos (h.2 rfl), Bool.or_true]
  | false => rw [if_neg fun hp => Bool.false_ne_true (h.1 hp), Bool.or_false]

theorem markDrained_away (x : Cluster) (p : Prop) [Decidable p] : (x.markDrained p).testing = x.testing ∧ (x.markDrained p).quiesced = x.quiesced := by
  unfold Cluster.markDrained
  split <;> exact ⟨rfl, rfl⟩

/-- The window of a running job, with nothing to test and the time not locked: the job waits for its relaunch, its own part finished. -/
theorem windowOpen_tryWindow {t : State} {step : BitVec 48} {area : Bool} (hb : t.job.between = .checkpoint step area) (hj : t.job.state = .running)
    (hp : t.host.testPolicy = 0) (hk : ∀ k ∈ t.job.members, (t.cluster k).testing = false ∧ (t.cluster k).quiesced = false)
    (hn : t.job.nextPhase = none) (ht : t.timeOk = false) : (t.windowOpen area).tryWindow =
      { t with job := { t.job with window := false, rotated := [], windowArea := area, inPlace := [], relOwnDone := true } } := by
  have hat : (t.windowOpen area).atCheckpoint = some area := by
    unfold State.atCheckpoint State.windowOpen
    dsimp only
    rw [hb]
    exact if_pos ⟨rfl, hj⟩
  rw [tryWindow_ends hat hp hk hn]
  exact relaunchTry_waits (.inr ht)

/-- Settles O27: a result waits for its step's replicas; a drain fills its area, whatever follows it, and leaves the job waiting. -/
theorem digestsAndCheckpoints : Obligations.DigestsAndCheckpoints := by
  refine ⟨fun rid step elems s mine i hm hf hw => ⟨digestResult_waits hm hf hw, ?_⟩, fun s step area hb hq hwin ho => ⟨exec_checkpointDrainDone_waits hb, ?_⟩⟩
  · rintro rfl hi hnone hroom
    exact digestResult_one hm hf hw hi hnone hroom
  · intro hs hl
    obtain ⟨t, ht⟩ : ∃ t, t = s.drained area step := ⟨_, rfl⟩
    obtain ⟨hjob, htime, hpolicy, hclusters, hcores, harea, hother, hlatest⟩ := drained_frame s area step ht
    have hlen : (t.ckpt.area area).length = s.job.members.length := by rw [harea, length_drainList _ _ hl]
    rw [Checkpoints.area_not, Checkpoints.area_not] at hother
    have hx := exec_checkpointDrainDone hb hq hwin ho hs ht
    by_cases hrun : t.job.state = .running
    · rw [if_pos hrun] at hx
      refine ⟨_, hx, ?_⟩
      have hckpt : (if (t.windowOpen area).host.testPolicy = 2 then (t.windowOpen area).testInPlace else t.windowOpen area).tryWindow.ckpt = t.ckpt := by
        refine (tryWindow_ckpt _).trans ?_
        split
        · exact (testInPlace_ckpt _).trans rfl
        · rfl
      rw [hckpt]
      refine ⟨hlen, hother, hlatest, fun h => absurd (hjob ▸ hrun) h, fun _ _ hp hn htm hk => ?_⟩
      have hp' : t.host.testPolicy = 0 := hpolicy.trans hp
      have hk' (k : ClusterAt) (hm : k ∈ t.job.members) : (t.cluster k).testing = false ∧ (t.cluster k).quiesced = false := by
        rw [hclusters k, (markDrained_away _ _).1, (markDrained_away _ _).2]
        exact hk k (hjob ▸ hm)
      rw [if_neg (by rw [show (t.windowOpen area).host.testPolicy = 0 from hp']; decide),
        windowOpen_tryWindow (by rw [hjob]; exact hb) hrun hp' hk' (by rw [hjob]; exact hn) ((timeOk_of_time htime).trans htm)]
      refine ⟨?_, hcores, fun k => (hclusters k).trans (markDrained_member _ ?_)⟩
      · rw [hjob]
      · rw [List.contains_iff_mem]
        exact ⟨And.left, fun hm => ⟨hm, hl k hm⟩⟩
    · rw [if_neg hrun] at hx
      refine ⟨_, hx, hlen, hother, hlatest, fun _ => ⟨?_, hcores⟩, fun h => absurd (hjob ▸ h) hrun⟩
      rw [hjob]

end Sys2Proof.Machine

/-! PROOFS. ARM_LAUNCH, CATCH_STOP, DRAIN and RESTORE (R129, R132, R197, R200, R263, R301, Table 11.10). -/

namespace Sys2Proof.Machine

/-! ### A descriptor that starts, and its decision (R317, R321) -/

/-- A descriptor as it starts. -/
def Desc.startedAt (d : Desc) (sc : BitVec 64) : Desc := { d with started := true, startSc := sc }

theorem exec_begin {s : State} {r : Fin 64} {tag : BitVec 16} {op : Nat} {d : Desc} (hs : s.starts r tag op d) (hf : s.startFault d = none)
    (go : State → Desc → State) : s.begin r tag op go = go (s.begun r d) (d.startedAt s.time.sc) := by
  unfold State.starts at hs
  unfold State.begin
  rw [hs]
  dsimp only
  rw [hf]
  rfl

/-- What starts is in progress, and has the opcode. -/
theorem mem_of_starts {s : State} {r : Fin 64} {tag : BitVec 16} {op : Nat} {d : Desc} (hs : s.starts r tag op d) :
    d ∈ (s.ring r.val).inProgress ∧ d.op = op := by
  unfold State.starts State.findDesc at hs
  refine ⟨List.mem_of_find?_eq_some hs, ?_⟩
  have h := List.find?_some hs
  simp only [Bool.and_eq_true, decide_eq_true_eq] at h
  exact h.2.1

theorem ring_putDesc (s : State) (p : Nat) (d : Desc) : (s.putDesc p d).ring p =
    { s.ring p with inProgress := (s.ring p).inProgress.map fun x => if x.serial = d.serial then d else x } := State.ring_putRing_same s p _

/-- A descriptor of a serial number is in progress. -/
def State.inProgress (s : State) (p n : Nat) : Prop := ∃ x ∈ (s.ring p).inProgress, x.serial = n

theorem inProgress_putDesc {s : State} {p n : Nat} (h : s.inProgress p n) (d : Desc) : (s.putDesc p d).inProgress p n := by
  obtain ⟨x, hx, hn⟩ := h
  unfold State.inProgress
  rw [ring_putDesc]
  refine ⟨_, List.mem_map_of_mem hx, ?_⟩
  split
  case isTrue h => exact h ▸ hn
  case isFalse => exact hn

theorem workEnded_endDesc {s : State} {r : Fin 64} {d : Desc} (h : s.inProgress r.val d.serial) (status result : Nat) {e : Desc}
    (he : e.serial = d.serial) : WorkEnded (s.endDesc r.val d status result) r e status result := by
  obtain ⟨x, hx, hn⟩ := h
  unfold WorkEnded State.endDesc
  rw [ring_putDesc]
  exact ⟨_, List.mem_map_of_mem hx, by rw [if_pos hn]; exact he.symm, by rw [if_pos hn]⟩

theorem ringReady_begun {s : State} {r : Fin 64} {d : Desc} (h : s.ringReady r) : (s.begun r d).ringReady r := by
  unfold State.ringReady State.begun at *
  rw [ring_putDesc]
  exact h

/-- A decision after the start is one between the state before it and the state behind it. -/
theorem decided_begun {s t : State} {r : Fin 64} {d : Desc} {status : Nat} {result : BitVec 32} {aborted late : Bool}
    (h : Decided (s.begun r d) t r (d.startedAt s.time.sc) status result aborted late) :
    Decided s t r d status result aborted late := by
  unfold Decided State.begun at *
  rw [ring_putDesc] at h
  exact h

/-- Only rings, outputs, and replies that nothing waits for change. -/
def State.repliesOnly (s t : State) : Prop :=
  t = { s with host := t.host, out := t.out, mesh := t.mesh, waiting := t.waiting, spent := t.spent, cuts := t.cuts }

theorem State.repliesOnly.refl (s : State) : s.repliesOnly s := rfl

theorem State.repliesOnly.trans {s t u : State} (h : s.repliesOnly t) (g : t.repliesOnly u) : s.repliesOnly u := by
  unfold State.repliesOnly at *
  rw [g, h]

/-- The same with the second part first, where it says what lies between. -/
theorem State.repliesOnly.after {s t u : State} (g : t.repliesOnly u) (h : s.repliesOnly t) : s.repliesOnly u := h.trans g

theorem repliesOnly_foldl {α : Type} {f : State → α → State} (h : ∀ (s : State) a, s.repliesOnly (f s a)) (l : List α) (s : State) :
    s.repliesOnly (l.foldl f s) :=
  foldl_related (R := State.repliesOnly) (fun _ => rfl) State.repliesOnly.trans h l s

theorem State.reportsOnly.repliesOnly {s t : State} (h : s.reportsOnly t) : s.repliesOnly t := by
  unfold State.repliesOnly
  rw [h]

theorem repliesOnly_flushHeld (n : Nat) (s : State) (p : Nat) : s.repliesOnly (s.flushHeld n p) := by
  induction n generalizing s with
  | zero =>
    unfold State.flushHeld
    exact .refl s
  | succ n ih =>
    unfold State.flushHeld
    split
    · exact .refl s
    · exact .refl s
    · split
      · next m _ _ _ hn _ _ =>
        obtain rfl : n = m := Nat.succ.inj hn
        exact (ih _).after ((reportsOnly_writeCompletion (s.modRing p _) p _ _).repliesOnly.after rfl)
      · exact .refl s

theorem repliesOnly_decideOne (s : State) (p : Nat) (d : Desc) (status : Nat) (result : BitVec 32) (aborted late : Bool) :
    s.repliesOnly (s.decideOne p d status result aborted late) := (repliesOnly_flushHeld _ _ _).after rfl

theorem repliesOnly_freeFlits (s : State) (p : Packet) (n : Nat) : s.repliesOnly (s.freeFlits p n) := by
  unfold State.freeFlits
  split <;> rfl

theorem repliesOnly_lose (s : State) (id : Nat) : s.repliesOnly (s.lose id) :=
  (repliesOnly_foldl (f := fun s q => s.freeFlits q q.here) (fun t q => repliesOnly_freeFlits t q q.here) (s.mesh.filter fun q => decide (q.id = id)) s).trans rfl

theorem repliesOnly_conclude (s : State) (p : Nat) (d : Desc) (status : Nat) (result : BitVec 32) (aborted late : Bool) :
    s.repliesOnly (s.conclude p d status result aborted late) := by
  refine .trans (repliesOnly_decideOne s p d status result aborted late) (.trans (repliesOnly_foldl (fun t a => ?_) d.abortedBy _)
    (repliesOnly_foldl repliesOnly_lose _ _))
  split
  · exact repliesOnly_decideOne _ _ _ _ _ _ _
  · exact .refl t

theorem State.repliesOnly.job {s t : State} (h : s.repliesOnly t) : t.job = s.job := by rw [h]
theorem State.repliesOnly.genhan {s t : State} (h : s.repliesOnly t) : t.genhan = s.genhan := by rw [h]
theorem State.repliesOnly.clusters {s t : State} (h : s.repliesOnly t) : t.clusters = s.clusters := by rw [h]

/-- A descriptor that starts and is decided at once: the job stays. -/
theorem conclude_begun {s : State} {r : Fin 64} {d : Desc} (h : s.ringReady r) (status : Nat) (result : BitVec 32) {t : State}
    (ht : t = (s.begun r d).conclude r.val (d.startedAt s.time.sc) status result) :
    Decided s t r d status result false false ∧ t.job = s.job := by
  subst ht
  exact ⟨decided_begun (decided_conclude _ r _ status result false false (ringReady_begun h)), (repliesOnly_conclude _ _ _ _ _ _ _).job⟩

/-! ### What the start of a descriptor leaves to read -/

theorem physical_of_repairMap {s t : State} (h : t.repairMap = s.repairMap) : t.physical = s.physical := by
  funext die cl
  unfold State.physical State.logical State.entryOf
  rw [h]

theorem namesUnmapped_of {s t : State} (hj : t.job = s.job) (hr : t.repairMap = s.repairMap) : t.namesUnmapped = s.namesUnmapped := by
  unfold State.namesUnmapped
  rw [hj, physical_of_repairMap hr]

/-! ### Clusters of the job, each changed alike -/

/-- A change of clusters that is the same when made twice: each cluster of the list is changed, and no other. -/
theorem cluster_modClusters {f : Cluster → Cluster} (hf : ∀ x, f (f x) = f x) (l : List ClusterAt) (s : State) (k : ClusterAt) :
    (l.foldl (fun s k => s.modCluster k f) s).cluster k = if k ∈ l then f (s.cluster k) else s.cluster k := by
  induction l generalizing s with
  | nil => exact (if_neg List.not_mem_nil).symm
  | cons j l ih =>
    rw [List.foldl_cons, ih]
    by_cases h : k = j
    · subst h
      rw [State.cluster_modCluster_same, hf, ite_self, if_pos List.mem_cons_self]
    · rw [State.cluster_modCluster_ne s f h]
      simp only [List.mem_cons, h, false_or]

/-! ### ARM_LAUNCH (R133, R197, R301) -/

/-- A cluster as its job is armed: one that is held or stopped waits for the launch. -/
def Cluster.rearmed (x : Cluster) : Cluster :=
  let y : Cluster := { x with ckptStopped := false, ckptId := none, drained := false }
  if x.run = .held ∨ x.run = .stopped then { y with run := .held, armed := true } else y

theorem Cluster.rearmed_rearmed (x : Cluster) : x.rearmed.rearmed = x.rearmed := by
  by_cases h : x.run = .held ∨ x.run = .stopped
  · simp [Cluster.rearmed, h]
  · simp [Cluster.rearmed, h]

/-- A job that is ARMED takes its launch count, and each of its clusters waits for the launch. -/
theorem armAt_armed {s : State} (h : s.job.state = .armed) (count : BitVec 64) : (s.armAt count).job = { s.job with launch := count } ∧
    (s.armAt count).genhan = s.genhan ∧
    ∀ k, (s.armAt count).cluster k = if k ∈ s.job.members then (s.cluster k).rearmed else s.cluster k := by
  have hf := cluster_modClusters Cluster.rearmed_rearmed s.job.members s
  unfold State.armAt
  extract_lets u j v
  have hu : s.clustersOnly u := clustersOnly_foldl (fun t k => clustersOnly_modCluster t k _) s.job.members s
  have hj : v.job = { s.job with launch := count } := congrArg (fun j : Job => { j with launch := count }) hu.job
  rw [if_neg fun hr => by rw [hj, h] at hr; exact absurd hr.1 nofun]
  exact ⟨hj, by rw [show v.genhan = u.genhan from rfl, hu], hf⟩

/-- A job from LOADED starts with a fresh log, its clusters at the step given. -/
def State.freshStart (s : State) (step : BitVec 48) : State :=
  if s.job.state = .loaded then
    s.job.members.foldl (fun s k => s.modCluster k fun x => { x with step := step }) { s with genhan := { s.genhan with log := [], numOr := 0 } }
  else s

theorem freshStart_job (s : State) (step : BitVec 48) : (s.freshStart step).job = s.job := by
  unfold State.freshStart
  split
  · exact (clustersOnly_foldl (fun t k => clustersOnly_modCluster t k _) _ _).job
  · rfl

theorem freshStart_genhan (s : State) (step : BitVec 48) :
    (s.freshStart step).genhan = if s.job.state = .loaded then { s.genhan with log := [], numOr := 0 } else s.genhan := by
  unfold State.freshStart
  split
  · rw [clustersOnly_foldl (fun t k => clustersOnly_modCluster t k _) _ _]
  · rfl

theorem freshStart_cluster (s : State) (step : BitVec 48) (k : ClusterAt) : (s.freshStart step).cluster k =
    if s.job.state = .loaded ∧ k ∈ s.job.members then { s.cluster k with step := step } else s.cluster k := by
  unfold State.freshStart
  by_cases h : s.job.state = .loaded
  · rw [if_pos h, cluster_modClusters (f := fun x => { x with step := step }) (fun _ => rfl)]
    simp only [h, true_and]
    rfl
  · rw [if_neg h, if_neg fun hk => h hk.1]

/-- The job ARMED anew, its clusters as they were but for a fresh start. -/
def State.armedAnew (s : State) (d : Desc) : State :=
  ({ s.freshStart (d.q2.extractLsb' 0 48) with
    job := Job.launched { (s.freshStart (d.q2.extractLsb' 0 48)).job with
      tag := d.q3.extractLsb' 0 32, reason := 0, status := 0, faultArose := false, phaseReported := false } } : State).setJob .armed 0 0

/-- The transfer schedule of a phase change is loaded, where that is still to come. -/
def State.transferDue (s : State) : State :=
  match s.job.between with
  | .transfer q false => s.transferIn q
  | _ => s

theorem armJob_eq (s : State) (d : Desc) : s.armJob d = (s.armedAnew d).transferDue.armAt d.q1 := by
  unfold State.armJob State.armedAnew State.freshStart
  by_cases h : s.job.state = .loaded
  · simp only [h, decide_true, if_true]
    rfl
  · simp only [h, decide_false, if_false, Bool.false_eq_true]
    rfl

theorem transferDue_none {s : State} (h : ∀ q, s.job.between ≠ .transfer q false) : s.transferDue = s := by
  unfold State.transferDue
  split
  case h_1 q hq => exact absurd hq (h q)
  case h_2 => rfl

theorem transferDue_some {s : State} {q : BitVec 3} (h : s.job.between = .transfer q false) : s.transferDue = s.transferIn q := by
  unfold State.transferDue
  rw [h]

theorem transferIn_job (s : State) (q : BitVec 3) :
    ∃ ks, (s.transferIn q).job = { s.job with between := .transfer q true, nextPhase := none, members := ks } := by
  unfold State.transferIn
  extract_lets rs _ t
  obtain ⟨ks, hl⟩ := loadRun_frame t rs (clustersIn rs)
  exact ⟨ks, hl.job⟩

/-- A launch keeps the transfer of a phase change ahead where there is one (R133). -/
theorem launched_between (j : Job) (q : BitVec 3) (l : Bool) : j.launched.between = .transfer q l ↔ j.between = .transfer q l := by
  unfold Job.launched
  cases j.between <;> simp

section
variable (s : State) (d : Desc)

theorem armedAnew_job : (s.armedAnew d).job = { Job.launched { s.job with
    tag := d.q3.extractLsb' 0 32, reason := 0, status := 0, faultArose := false, phaseReported := false } with state := .armed } := by
  unfold State.armedAnew
  rw [setJob_job, freshStart_job]

theorem armedAnew_genhan :
    (s.armedAnew d).genhan = if s.job.state = .loaded then { s.genhan with log := [], numOr := 0 } else s.genhan := by
  unfold State.armedAnew
  rw [State.setJob_genhan]
  exact freshStart_genhan s _

theorem armedAnew_cluster (k : ClusterAt) : (s.armedAnew d).cluster k =
    if s.job.state = .loaded ∧ k ∈ s.job.members then { s.cluster k with step := d.q2.extractLsb' 0 48 } else s.cluster k := by
  rw [← freshStart_cluster]
  exact cluster_of_clusters (State.setJob_clusters _ _ _ _ _ _) k

theorem armedAnew_between (q : BitVec 3) (l : Bool) : (s.armedAnew d).job.between = .transfer q l ↔ s.job.between = .transfer q l := by
  rw [armedAnew_job]
  exact launched_between _ q l

theorem rearmed_waits {x : Cluster} (h : x.run = .held ∨ x.run = .stopped) : x.rearmed.run = .held ∧ x.rearmed.armed = true ∧ x.rearmed.step = x.step := by
  unfold Cluster.rearmed
  rw [if_pos h]
  exact ⟨rfl, rfl, rfl⟩

/-- A job that was HALTED before its transfer schedule: the schedule is loaded and awaits its launch. -/
theorem armJob_transfer {q : BitVec 3} (h : s.job.between = .transfer q false) :
    (s.armJob d).job.state = .armed ∧ (s.armJob d).job.launch = d.q1 ∧ (s.armJob d).job.between = .transfer q true := by
  obtain ⟨ks, hk⟩ := transferIn_job (s.armedAnew d) q
  have hstate : (s.armedAnew d).job.state = .armed := by rw [armedAnew_job]
  obtain ⟨hj, -, -⟩ := armAt_armed (s := (s.armedAnew d).transferIn q) (by rw [hk]; exact hstate) d.q1
  rw [armJob_eq, transferDue_some ((armedAnew_between s d q false).2 h), hj, hk]
  exact ⟨hstate, rfl, rfl⟩

/-- Another job is ARMED as it stands, from LOADED with a fresh log and the step given. -/
theorem armJob_plain (h : ∀ q, s.job.between ≠ .transfer q false) :
    (s.armJob d).job.state = .armed ∧ (s.armJob d).job.launch = d.q1 ∧ (s.armJob d).job.tag = d.q3.extractLsb' 0 32 ∧
    (s.job.state = .loaded → (s.armJob d).genhan.log = [] ∧ (s.armJob d).genhan.numOr = 0) ∧
    (s.job.state ≠ .loaded → (s.armJob d).genhan.log = s.genhan.log) ∧
    ∀ k ∈ s.job.members, (s.cluster k).run = .held ∨ (s.cluster k).run = .stopped →
      ((s.armJob d).cluster k).run = .held ∧ ((s.armJob d).cluster k).armed = true ∧
      (s.job.state = .loaded → ((s.armJob d).cluster k).step = d.q2.extractLsb' 0 48) := by
  have hjob := armedAnew_job s d
  have hgenhan := armedAnew_genhan s d
  have hcluster := armedAnew_cluster s d
  have hnone := transferDue_none (s := s.armedAnew d) fun q hq => h q ((armedAnew_between s d q false).1 hq)
  rw [armJob_eq, hnone]
  generalize s.armedAnew d = t at hjob hgenhan hcluster
  obtain ⟨hj, hg, hc⟩ := armAt_armed (s := t) (by rw [hjob]) d.q1
  rw [hj, hg, hgenhan, hjob]
  refine ⟨rfl, rfl, rfl, fun hl => ?_, fun hl => ?_, fun k hk hrun => ?_⟩
  · rw [if_pos hl]
    exact ⟨rfl, rfl⟩
  · rw [if_neg hl]
  · have hmem : k ∈ t.job.members := by rw [hjob]; exact hk
    have hrun' : (t.cluster k).run = .held ∨ (t.cluster k).run = .stopped := by
      rw [hcluster]
      split <;> exact hrun
    obtain ⟨hheld, harmed, hstep⟩ := rearmed_waits hrun'
    rw [hc, if_pos hmem]
    refine ⟨hheld, harmed, fun hl => ?_⟩
    rw [hstep, hcluster, if_pos ⟨hl, hk⟩]

end

/-! ### CATCH_STOP (R200) -/

/-- A live job is stopped. -/
theorem catchStop_frame {s : State} (h : s.jobLive = true) {t : State} (ht : t = (s.haltJob 0 0 false).injectStop.jobStep) :
    t.jobLive = false ∧ t.deep = s.deep := by
  subst ht
  obtain ⟨hs, he⟩ := injectStop_jobStep (haltJob_halting h 0 0 false none 0)
  exact ⟨he, ((jobSignals_haltJob s 0 0 false none 0).trans hs).deep⟩

/-! ### DRAIN (R129, R263) -/

/-- Of the state only the host interface changes. -/
def State.hostOnly (s t : State) : Prop := t = { s with host := t.host }

theorem hostOnly_begun (s : State) (r : Fin 64) (d : Desc) : s.hostOnly (s.begun r d) := rfl

/-- What decides whether a drain may scan is not of the host interface. -/
theorem maySettle_hostOnly {s t : State} (h : s.hostOnly t) :
    (t.membersQuiet && t.settled t.job.members) = (s.membersQuiet && s.settled s.job.members) := by
  rw [h]
  rfl

theorem begun_inProgress {s : State} {r : Fin 64} {d : Desc} (h : d ∈ (s.ring r.val).inProgress) : (s.begun r d).inProgress r.val d.serial :=
  inProgress_putDesc ⟨d, h, rfl⟩ _

theorem drainStart_eq {s : State} (hoff : s.deepOff = false) (hk : s.job.members.any s.offline = false) (p : Nat) (d : Desc) :
    s.drainStart p d = (s.putDesc p { d with area := s.nextArea }).drainOn p { d with area := s.nextArea } := by
  unfold State.drainStart
  exact if_neg (by rw [hoff, hk]; exact Bool.false_ne_true)

theorem drainOn_waits {s : State} (h : (s.membersQuiet && s.settled s.job.members) = false) (p : Nat) (d : Desc) : s.drainOn p d = s :=
  if_neg (by rw [h]; exact Bool.false_ne_true)

theorem drainOn_done {s : State} (h : (s.membersQuiet && s.settled s.job.members) = true) (p : Nat) (d : Desc) :
    s.drainOn p d = (s.drainJob d.area).endDesc p d 0 (if d.area then 1 else 0) := if_pos h

/-- The job is drained into the area: the descriptor's work has ended, and what the scan leaves. -/
theorem drainJob_endDesc {s : State} {r : Fin 64} {d e : Desc} (hp : s.inProgress r.val d.serial) (he : e.serial = d.serial) (area : Bool) {t : State}
    (ht : t = (s.drainJob area).endDesc r.val e 0 (if area then 1 else 0)) :
    WorkEnded t r d 0 (if area then 1 else 0) ∧ t.job = s.job ∧
    (∀ c, (t.core c).spad = (s.core c).spad ∧ (t.core c).v = (s.core c).v ∧ (t.core c).store = (s.core c).store) ∧
    (∀ c, clusterOf c ∈ s.job.members → (s.logical (clusterOf c)).isSome = true → (t.core c).runAhead = []) ∧
    (∀ k, t.cluster k = s.cluster k ∨ t.cluster k = { s.cluster k with drained := true }) ∧
    t.ckpt.origin area = (some s.imageId, s.job.phase) ∧ t.ckpt.area (!area) = s.ckpt.area (!area) := by
  obtain ⟨c, hd, -, hother, horigin⟩ := drainJob_eq s area
  have hl := drainsOnly_drainList s.job.members s
  have hcl := cluster_drainList s.job.members s
  have hst := stays_drainList s.job.members s
  have hra (c : CoreAt) := runAhead_drainList (c := c) (ks := s.job.members)
  have hra' (c : CoreAt) (hm : clusterOf c ∈ s.job.members) := hra c hm s
  generalize s.drainJob area = u at hd ht
  generalize (s.drainList s.job.members).2 = v at hl hcl hst hd hra'
  have hh : u.host = s.host := by rw [hd, hl]
  have hpu : u.inProgress r.val e.serial := by
    unfold State.inProgress State.ring at *
    rw [hh, he]
    exact hp
  have hto : u.hostOnly t := by rw [ht]; rfl
  have hcores : t.cores = v.cores := by rw [hto, hd]
  have hclusters : t.clusters = v.clusters := by rw [hto, hd]
  have hckpt : t.ckpt = c := by rw [hto, hd]
  have hjob : t.job = s.job := by rw [hto, hd, hl]
  refine ⟨by rw [ht]; exact workEnded_endDesc hpu 0 _ he.symm, hjob, fun c => ?_, fun c hm hlog => ?_, fun k => ?_, by rw [hckpt]; exact horigin,
    by rw [hckpt]; exact hother⟩
  · obtain ⟨h1, h2, h3, -⟩ := hst c
    rw [core_of_cores hcores]
    exact ⟨h1, h2, h3⟩
  · rw [core_of_cores hcores]
    exact hra' c hm hlog
  · rw [cluster_of_clusters hclusters, hcl]
    unfold Cluster.markDrained
    split
    · exact .inr rfl
    · exact .inl rfl

/-- The same from the state before the descriptor started. -/
theorem drainJob_hostOnly {s u : State} {r : Fin 64} {d e : Desc} (h : s.hostOnly u) (hp : u.inProgress r.val d.serial) (he : e.serial = d.serial)
    (area : Bool) {t : State} (ht : t = (u.drainJob area).endDesc r.val e 0 (if area then 1 else 0)) :
    WorkEnded t r d 0 (if area then 1 else 0) ∧ t.job = s.job ∧
    (∀ c, (t.core c).spad = (s.core c).spad ∧ (t.core c).v = (s.core c).v ∧ (t.core c).store = (s.core c).store) ∧
    (∀ c, clusterOf c ∈ s.job.members → (s.logical (clusterOf c)).isSome = true → (t.core c).runAhead = []) ∧
    (∀ k, t.cluster k = s.cluster k ∨ t.cluster k = { s.cluster k with drained := true }) ∧
    t.ckpt.origin area = (some s.imageId, s.job.phase) ∧ t.ckpt.area (!area) = s.ckpt.area (!area) := by
  obtain ⟨g, hg⟩ : ∃ g, u = { s with host := g } := ⟨u.host, h⟩
  subst hg
  exact drainJob_endDesc hp he area ht

/-! ### RESTORE (R132) -/

/-- Only what a restore reads back, and errors and counters of deep memory, change. -/
def State.restoresOnly (s t : State) : Prop :=
  t = { s with cores := t.cores, clusters := t.clusters, streams := t.streams, deepErr := t.deepErr, ctr := t.ctr }

theorem State.restoresOnly.refl (s : State) : s.restoresOnly s := rfl

theorem State.restoresOnly.trans {s t u : State} (h : s.restoresOnly t) (g : t.restoresOnly u) : s.restoresOnly u := by
  unfold State.restoresOnly at *
  rw [g, h]

theorem restoresOnly_foldl {α : Type} {f : State → α → State} (h : ∀ (s : State) a, s.restoresOnly (f s a)) (l : List α) (s : State) :
    s.restoresOnly (l.foldl f s) :=
  foldl_related (R := State.restoresOnly) (fun _ => rfl) State.restoresOnly.trans h l s

theorem restoresOnly_deepSoft (s : State) (o n : Nat) : s.restoresOnly (s.deepSoft o n) := by
  unfold State.deepSoft
  extract_lets hit ws
  exact State.restoresOnly.trans (t := { s with deepErr := s.deepErr.filter fun p => !hit p }) rfl
    (restoresOnly_foldl (fun t w => by exact rfl) ws _)

theorem restoresOnly_restoreCluster (s : State) (x : Snapshot) : s.restoresOnly (s.restoreCluster x) := by
  unfold State.restoreCluster
  split
  · exact .refl s
  · extract_lets u v
    have hv : s.restoresOnly v := by
      have hu : s.restoresOnly u := rfl
      have hc : u.coresOnly v := coresOnly_modCores u _ _
      refine hu.trans ?_
      unfold State.restoresOnly
      rw [hc]
    exact hv.trans (restoresOnly_foldl (fun t p => by exact rfl) _ _)

/-- A restore in which no record fails reads nothing else. -/
theorem restoresOnly_restoreAll {a : Nat} {l : List Snapshot} {s u : State} {m n : Nat} (h : s.restoreAll a l m = (u, n, none)) : s.restoresOnly u := by
  induction l generalizing s m with
  | nil =>
    obtain rfl := congrArg Prod.fst h
    exact .refl s
  | cons x l ih =>
    unfold State.restoreAll at h
    extract_lets o t at h
    have ht : s.restoresOnly t := restoresOnly_deepSoft s o drainSize
    split at h
    · exact absurd (congrArg (fun p => p.2.2) h) nofun
    · split at h
      · exact absurd (congrArg (fun p => p.2.2) h) nofun
      · exact (ht.trans (restoresOnly_restoreCluster t _)).trans (ih h)

theorem restoreStart_none {s : State} (h : s.ckpt.latest = none) (p : Nat) (d : Desc) : s.restoreStart p d = s.conclude p d 0x11 0 := by
  unfold State.restoreStart
  rw [h]

/-- The state in which every record of an area has been read back. -/
def State.restored (s u : State) (a : Bool) (l : List Snapshot) : State :=
  { u with
    conns := if a then s.ckpt.conns1 else s.ckpt.conns0
    job := { u.job with
      members := l.filterMap fun x => u.physical x.die.val x.logical
      phase := if a then s.ckpt.phase1 else s.ckpt.phase0
      between := if a then s.ckpt.between1 else s.ckpt.between0
      nextPhase := none, window := false }
    ckpt := { u.ckpt with unproven := none }, genhan := { u.genhan with digSeen := [] } }

theorem restoreStart_done {s u : State} {a : Bool} {l : List Snapshot} {n : Nat} (h : s.ckpt.latest = some a)
    (hl : l = if a then s.ckpt.area1 else s.ckpt.area0) (hoff : s.deepOff = false) (hcool : s.power.coolantStop = false)
    (hk : (l.filterMap fun x => s.physical x.die.val x.logical).any s.offline = false)
    (hi : (if a then s.ckpt.image1 else s.ckpt.image0) = some s.imageId)
    (hr : s.clearCounters.restoreAll (if a then 1 else 0) l 0 = (u, n, none)) (p : Nat) (d : Desc) :
    s.restoreStart p d = (s.restored u a l).endDesc p { d with area := a } 0 (if a then 1 else 0) := by
  subst hl
  unfold State.restoreStart
  rw [h]
  dsimp only
  rw [if_neg (by rw [hoff, hcool, hk]; exact Bool.false_ne_true), if_neg (not_not_intro hi), hr]
  rfl

/-- The same with what is read of the state before the descriptor started. -/
theorem restoreStart_hostOnly {s b u : State} (hb : s.hostOnly b) {a : Bool} {l : List Snapshot} {n : Nat} (h : s.ckpt.latest = some a)
    (hl : l = if a then s.ckpt.area1 else s.ckpt.area0) (hoff : s.deepOff = false) (hcool : s.power.coolantStop = false)
    (hk : (l.filterMap fun x => s.physical x.die.val x.logical).any s.offline = false)
    (hi : (if a then s.ckpt.image1 else s.ckpt.image0) = some s.imageId)
    (hr : b.clearCounters.restoreAll (if a then 1 else 0) l 0 = (u, n, none)) (p : Nat) (d : Desc) :
    b.restoreStart p d = (s.restored u a l).endDesc p { d with area := a } 0 (if a then 1 else 0) := by
  obtain ⟨g, hg⟩ : ∃ g, b = { s with host := g } := ⟨b.host, hb⟩
  subst hg
  exact restoreStart_done (s := { s with host := g }) h hl hoff hcool hk hi hr p d

/-- Descriptors in progress stay so while records are read back. -/
theorem restored_inProgress {s b u : State} {p n : Nat} (h : b.inProgress p n) (hu : b.clearCounters.restoresOnly u) (a : Bool) (l : List Snapshot) :
    (s.restored u a l).inProgress p n := by
  have hh : (s.restored u a l).host = b.host := (show u.host = b.clearCounters.host by rw [hu]).trans rfl
  unfold State.inProgress State.ring at *
  rw [hh]
  exact h

/-- The records are back and the descriptor's work has ended. -/
theorem restored_endDesc {s u : State} {r : Fin 64} {d e : Desc} {a : Bool} {l : List Snapshot} (hp : (s.restored u a l).inProgress r.val e.serial)
    (he : d.serial = e.serial) {t : State} (ht : t = (s.restored u a l).endDesc r.val e 0 (if a then 1 else 0)) :
    WorkEnded t r d 0 (if a then 1 else 0) ∧ t.job.phase = (if a then s.ckpt.phase1 else s.ckpt.phase0) ∧
    t.conns = (if a then s.ckpt.conns1 else s.ckpt.conns0) ∧ t.clusters = u.clusters ∧ t.cores = u.cores ∧
    t.job.members = l.filterMap fun x => u.physical x.die.val x.logical := by
  subst ht
  exact ⟨workEnded_endDesc hp 0 _ he, rfl, rfl, rfl, rfl, rfl⟩

/-! ### The obligation -/

section
variable {s : State} {r : Fin 64} {tag : BitVec 16} {d : Desc} (hf : s.startFault d = none)
include hf

theorem exec_armLaunch (hs : s.starts r tag 4 d) (hn : s.namesUnmapped = false) : exec (.armLaunch r tag) s = .next
    (if s.timeOk = false then (s.begun r d).conclude r.val (d.startedAt s.time.sc) 0x0B 0
    else if d.q1.toNat < s.time.sc.toNat + 100000 then (s.begun r d).conclude r.val (d.startedAt s.time.sc) 0x0C 0
    else ((s.begun r d).armJob (d.startedAt s.time.sc)).conclude r.val (d.startedAt s.time.sc) 0 0) := by
  have hn' : (s.begun r d).namesUnmapped = false := (namesUnmapped_of rfl rfl).trans hn
  have ht : (s.begun r d).time = s.time := rfl
  have hq : (d.startedAt s.time.sc).q1 = d.q1 := rfl
  change execArmLaunch r tag s = _
  unfold execArmLaunch
  rw [exec_begin hs hf, hn', timeOk_of_time ht, ht, hq, if_neg Bool.false_ne_true]
  cases s.timeOk with
  | false => rw [if_pos rfl, if_pos Bool.not_false]
  | true => rw [if_neg (c := (!true) = true) Bool.false_ne_true, if_neg (c := true = false) Bool.true_eq_false_eq_False]

theorem exec_catchStop (hs : s.starts r tag 7 d) : exec (.catchStop r tag) s = .next
    (if s.jobLive = true then ((s.begun r d).haltJob 0 0 false).injectStop.jobStep else s.begun r d) := by
  change execCatchStop r tag s = _
  unfold execCatchStop
  rw [exec_begin hs hf]
  rfl

/-- A drain of clusters that are all on: whether it scans is decided by what is on its way. -/
theorem exec_drain (hs : s.starts r tag 8 d) (hoff : s.deepOff = false) (hk : s.job.members.any s.offline = false) {c : State} {e : Desc}
    (hc : c = (s.begun r d).putDesc r.val e) (he : e = { d.startedAt s.time.sc with area := s.nextArea }) :
    exec (.drain r tag) s = .next (c.drainOn r.val e) := by
  subst hc he
  change execDrain r tag s = _
  unfold execDrain
  rw [exec_begin hs hf]
  exact congrArg Host.Outcome.next (drainStart_eq (s := s.begun r d) hoff hk r.val _)

theorem exec_restore (hs : s.starts r tag 9 d) (hh : s.homesFree = true) :
    exec (.restore r tag) s = .next ((s.begun r d).restoreStart r.val (d.startedAt s.time.sc)) := by
  change execRestore r tag s = _
  unfold execRestore
  rw [if_pos hh, exec_begin hs hf]

/-- A drain that may scan: the records stand, and its work has ended. -/
theorem drain_done (hs : s.starts r tag 8 d) (hoff : s.deepOff = false) (hk : s.job.members.any s.offline = false)
    (hq : (s.membersQuiet && s.settled s.job.members) = true) : ∃ t, exec (.drain r tag) s = .next t ∧
      WorkEnded t r d 0 (if s.nextArea then 1 else 0) ∧ t.job = s.job ∧
      (∀ c, (t.core c).spad = (s.core c).spad ∧ (t.core c).v = (s.core c).v ∧ (t.core c).store = (s.core c).store) ∧
      (∀ c, clusterOf c ∈ s.job.members → (s.logical (clusterOf c)).isSome = true → (t.core c).runAhead = []) ∧
      (∀ k, t.cluster k = s.cluster k ∨ t.cluster k = { s.cluster k with drained := true }) ∧
      t.ckpt.origin s.nextArea = (some s.imageId, s.job.phase) ∧ t.ckpt.area (!s.nextArea) = s.ckpt.area (!s.nextArea) := by
  obtain ⟨e, he⟩ : ∃ e, e = { d.startedAt s.time.sc with area := s.nextArea } := ⟨_, rfl⟩
  obtain ⟨c, hc⟩ : ∃ c, c = (s.begun r d).putDesc r.val e := ⟨_, rfl⟩
  have hcs : s.hostOnly c := by rw [hc]; rfl
  have hp : c.inProgress r.val d.serial := by
    rw [hc]
    exact inProgress_putDesc (begun_inProgress (mem_of_starts hs).1) e
  have harea : e.area = s.nextArea := by rw [he]
  have hserial : e.serial = d.serial := by rw [he]; rfl
  have hx := exec_drain hf hs hoff hk hc he
  rw [drainOn_done ((maySettle_hostOnly hcs).trans hq), harea] at hx
  exact ⟨_, hx, drainJob_hostOnly hcs hp hserial s.nextArea rfl⟩

end

/-- Settles O37: what each of the four does once it starts, on the state in which its descriptor has started. -/
theorem jobDescriptors : Obligations.JobDescriptors := by
  rintro r tag s b d rfl hf
  refine ⟨fun hs hn ht hr => ?_, fun hs hn ht hc hr => ?_, fun q hs hn ht hc hb => ?_, fun hs hn ht hc hb => ?_, fun hs hl => ?_, fun hs hl => ?_,
    fun hs hoff hk hq => ?_, fun hs hoff hk hq => ?_, fun hh => ?_, fun hs hh hnone hr => ?_, fun a l u n hs hh hlat hl hoff hcool hk hi hres => ?_⟩
  · exact ⟨_, (exec_armLaunch hf hs hn).trans (congrArg Host.Outcome.next (if_pos ht)), conclude_begun hr 0x0B 0 rfl⟩
  · rw [exec_armLaunch hf hs hn, if_neg (by rw [ht]; exact Bool.true_eq_false_eq_False), if_pos hc]
    exact ⟨_, rfl, conclude_begun hr 0x0C 0 rfl⟩
  · rw [exec_armLaunch hf hs hn, if_neg (by rw [ht]; exact Bool.true_eq_false_eq_False), if_neg (Nat.not_lt.2 hc)]
    have hj := (repliesOnly_conclude ((s.begun r d).armJob (d.startedAt s.time.sc)) r.val (d.startedAt s.time.sc) 0 0 false false).job
    obtain ⟨hstate, hlaunch, hbetween⟩ := armJob_transfer (s.begun r d) (d.startedAt s.time.sc) hb
    exact ⟨_, rfl, by rw [hj, hstate], by rw [hj, hlaunch]; rfl, by rw [hj, hbetween]⟩
  · rw [exec_armLaunch hf hs hn, if_neg (by rw [ht]; exact Bool.true_eq_false_eq_False), if_neg (Nat.not_lt.2 hc)]
    have ho := repliesOnly_conclude ((s.begun r d).armJob (d.startedAt s.time.sc)) r.val (d.startedAt s.time.sc) 0 0 false false
    obtain ⟨hj, hg, hcl⟩ := And.intro ho.job (And.intro ho.genhan ho.clusters)
    refine ⟨_, rfl, ?_⟩
    rw [hj, hg]
    simp only [cluster_of_clusters hcl]
    exact armJob_plain (s.begun r d) (d.startedAt s.time.sc) hb
  · exact ⟨_, (exec_catchStop hf hs).trans (congrArg Host.Outcome.next (if_pos hl)), catchStop_frame (s := s.begun r d) hl rfl⟩
  · exact (exec_catchStop hf hs).trans (congrArg Host.Outcome.next (if_neg (by rw [hl]; exact Bool.false_ne_true)))
  · obtain ⟨t, hx, hw, hj, hcore, hra, hcl, horigin, hother⟩ := drain_done hf hs hoff hk hq
    refine ⟨t, hx, hw, hj, hcore, hra, hcl, fun ha => ?_, fun ha => ?_⟩
    all_goals
      rw [ha] at horigin hother
      exact ⟨congrArg Prod.fst horigin, congrArg Prod.snd horigin, hother⟩
  · have hc : s.hostOnly ((s.begun r d).putDesc r.val { d.startedAt s.time.sc with area := s.nextArea }) := rfl
    exact ⟨_, (exec_drain hf hs hoff hk rfl rfl).trans (congrArg Host.Outcome.next (drainOn_waits ((maySettle_hostOnly hc).trans hq) _ _)), rfl, rfl, rfl⟩
  · change execRestore r tag s = _
    unfold execRestore
    rw [if_neg (by rw [hh]; exact Bool.false_ne_true)]
  · rw [exec_restore hf hs hh, restoreStart_none (s := s.begun r d) hnone]
    exact ⟨_, rfl, conclude_begun hr 0x11 0 rfl⟩
  · have hstart := restoreStart_hostOnly (hostOnly_begun s r d) hlat hl hoff hcool hk hi hres r.val (d.startedAt s.time.sc)
    have hp := restored_inProgress (s := s) (begun_inProgress (mem_of_starts hs).1) (restoresOnly_restoreAll hres) a l
    exact ⟨_, (exec_restore hf hs hh).trans (congrArg Host.Outcome.next hstart), restored_endDesc (e := { d.startedAt s.time.sc with area := a }) hp rfl rfl⟩

end Sys2Proof.Machine

/-! PROOFS. SEND, MSEND and the demands of a read stream (R157, R175, R181, R184, R267, R268). -/

namespace Sys2Proof.Machine

/-! ### A core behind the records that it sends -/

/-- The core with other accesses in its Bulk queue and waiting for a queue. -/
def Core.setBulk (x : Core) (b : List FabricJob × List (Nat × FabricJob)) : Core := { x with fqBulk := b.1, ceWait := b.2 }

/-- The core with accesses added to its Bulk queue, in order; those that find it full wait in the channel engine (R72). -/
def Core.enqueues (x : Core) (jobs : List FabricJob) : Core := jobs.foldl (fun y j => y.enqueue 1 j) x

/-- The core `x` behind records on endpoint `ep`: the endpoint as `e`, a source read for each record, and what is to be acknowledged. -/
def Core.sending (x : Core) (ep : Nat) (e : SendEp) (o : List Outstanding) (jobs : List FabricJob) : Core :=
  (({ x with outstanding := o } : Core).putSend ep e).setBulk (x.enqueues jobs).bulk

theorem enqueues_eq (x : Core) (jobs : List FabricJob) : x.enqueues jobs = x.setBulk (x.enqueues jobs).bulk := by
  induction jobs generalizing x with
  | nil => rfl
  | cons j jobs ih => exact (ih (x.enqueue 1 j)).trans (congrArg (·.setBulk ((x.enqueue 1 j).enqueues jobs).bulk) (enqueue_bulk_eq x j))

theorem bulk_enqueues_congr {x y : Core} (h : y.bulk = x.bulk) (jobs : List FabricJob) : (y.enqueues jobs).bulk = (x.enqueues jobs).bulk :=
  bulk_enqueues h jobs

/-- The source reads join the queue as they would have without the changes to the endpoint and to what is outstanding. -/
theorem enqueues_putSend (x : Core) (ep : Nat) (e : SendEp) (o : List Outstanding) (jobs : List FabricJob) :
    (({ x with outstanding := o } : Core).putSend ep e).enqueues jobs = x.sending ep e o jobs := by
  have hb : ((({ x with outstanding := o } : Core).putSend ep e).enqueues jobs).bulk = (x.enqueues jobs).bulk :=
    bulk_enqueues_congr (by rfl) jobs
  rw [enqueues_eq, hb, Core.sending]

theorem sendEp_sending_same (x : Core) (ep : Nat) (e : SendEp) (o : List Outstanding) (jobs : List FabricJob) :
    (x.sending ep e o jobs).sendEp ep = e := SMap.get_set_same _ _ _ _

theorem sendEp_sending_ne (x : Core) {ep j : Nat} (e : SendEp) (o : List Outstanding) (jobs : List FabricJob) (h : j ≠ ep) :
    (x.sending ep e o jobs).sendEp j = x.sendEp j := SMap.get_set_ne _ _ _ h

/-- A later change of the same endpoint takes the place of the earlier one. -/
theorem putSend_sending (x : Core) (ep : Nat) (e e' : SendEp) (o : List Outstanding) (jobs : List FabricJob) :
    (x.sending ep e o jobs).putSend ep e' = x.sending ep e' o jobs :=
  congrArg (fun m => { x.sending ep e' o jobs with se := m }) (SMap.set_set _ _ _ _ _)

/-- What the records leave of the core, behind its word: the source reads in their queue, the rest of the CE operations done, and nothing else new. -/
theorem ceDone_sending (x : Core) (ep : Nat) (e : SendEp) (o : List Outstanding) (jobs : List FabricJob) {y : Core}
    (hy : y = (x.sending ep e o jobs).ceDone) :
    y.sendEp ep = e ∧ (∀ j, j ≠ ep → y.sendEp j = x.sendEp j) ∧ y.fqBulk = (x.enqueues jobs).fqBulk ∧ y.ceWait = (x.enqueues jobs).ceWait ∧
    y.spad = x.spad ∧ y.re = x.re ∧ y.hdrRead = x.hdrRead ∧ y.todo = { x.todo with ce := false } := by
  subst hy
  exact ⟨sendEp_sending_same x ep e o jobs, fun j hj => sendEp_sending_ne x e o jobs hj, rfl, rfl, rfl, rfl, rfl, rfl⟩

/-! ### Byte messages (R175, R184) -/

/-- The endpoint behind a record of `n` slots: its credits, SEQ and the position of the next record, with those of a skip where it would wrap (R175). -/
def SendEp.launched (e : SendEp) (n : Nat) : SendEp :=
  { e.debit (e.need n) with
    seq := e.seq + (if e.rslots + 1 - e.wpos < n then 2 else 1)
    wpos := ((if e.rslots + 1 - e.wpos < n then 0 else e.wpos) + n) % (e.rslots + 1) }

/-- A record leaves its core one source read, and its endpoint behind the record. -/
theorem launchRecord_eq (s : State) (c : CoreAt) (ep n from_ : Nat) (rel : Option (Fin 16)) :
    ∃ (o : List Outstanding) (job : FabricJob), job.ops = readOps from_ (64 * n - 16) ∧ job.cycle = s.now c ∧
      s.launchRecord c ep n from_ rel = (s.putCore c ((s.core c).sending ep (((s.core c).sendEp ep).launched n) o [job])).countRecord c ep
        (((s.core c).sendEp ep).need n) := by
  unfold State.launchRecord
  extract_lets x e size tail self dep wrap seq1 pos skips data src e' y job
  have hy : ∃ o, y = { x with outstanding := o } := by
    unfold y
    split
    · exact ⟨_, rfl⟩
    · exact ⟨_, rfl⟩
  obtain ⟨o, ho⟩ := hy
  have he : e' = e.launched n := by
    by_cases h : e.rslots + 1 - e.wpos < n
    · simp [e', src, SendEp.launched, seq1, pos, wrap, tail, size, h, BitVec.add_assoc]
    · simp [e', src, SendEp.launched, seq1, pos, wrap, tail, size, h]
  refine ⟨o, job, rfl, rfl, ?_⟩
  rw [ho, he]
  exact congrArg (fun z => (s.putCore c z).countRecord c ep (e.need n)) (enqueues_putSend x ep (e.launched n) o [job])

/-- The slot of the source range from which a byte message is read: a bit of the word, or the end of the range, leads back to its begin (R175). -/
def SendEp.sourceSlot (e : SendEp) (w : Word) (n : Nat) : Nat :=
  if (ceArg w).testBit 7 || decide (e.srcSize + 1 < e.srcPos + n) then 0 else e.srcPos

/-- The endpoint behind a byte message of `n` slots, which it has read from slot `src` of its source range. -/
def SendEp.messaged (e : SendEp) (n src : Nat) : SendEp := { e.launched n with srcPos := src + n }

/-- SEND and MSEND of a byte message as one change of the core. -/
theorem sendBytes_eq {s : State} {c : CoreAt} {w : Word} {e : SendEp} {n : Nat} (he : e = (s.core c).sendEp (ceEp w)) (hn : n = ceArg w % 64 + 1) :
    ∃ (o : List Outstanding) (job : FabricJob), job.ops = readOps (e.srcBase + e.sourceSlot w n * 64 + 16) (64 * n - 16) ∧ job.cycle = s.now c ∧
      s.sendBytes c w = (s.putCore c ((s.core c).sending (ceEp w) (e.messaged n (e.sourceSlot w n)) o [job])).countRecord c (ceEp w) (e.need n) := by
  subst he hn
  obtain ⟨o, job, hops, hcyc, heq⟩ := launchRecord_eq s c (ceEp w) (ceArg w % 64 + 1) (((s.core c).sendEp (ceEp w)).srcBase +
    ((s.core c).sendEp (ceEp w)).sourceSlot w (ceArg w % 64 + 1) * 64 + 16) none
  refine ⟨o, job, hops, hcyc, ?_⟩
  have hs : s.sendBytes c w = (s.launchRecord c (ceEp w) (ceArg w % 64 + 1) (((s.core c).sendEp (ceEp w)).srcBase +
      ((s.core c).sendEp (ceEp w)).sourceSlot w (ceArg w % 64 + 1) * 64 + 16)).modCore c fun x => x.putSend (ceEp w) { x.sendEp (ceEp w) with
        srcPos := ((s.core c).sendEp (ceEp w)).sourceSlot w (ceArg w % 64 + 1) + (ceArg w % 64 + 1) } := rfl
  rw [hs]
  rw [heq, State.modCore, countRecord_core, State.core_putCore_same, sendEp_sending_same]
  rw [putSend_sending]
  exact congrArg (fun t : State => t.countRecord c (ceEp w) _) (putCore_putCore s c _ _)

/-! ### Tiles (R157, R181, R184, R268) -/

/-- The endpoint behind a tile of `n` segments (R181): one credit and one SEQ for each. -/
def SendEp.tiled (e : SendEp) (n : Nat) : SendEp :=
  { e.debit n with seq := e.seq + BitVec.ofNat 24 n, wpos := (e.wpos + n) % (e.rslots + 1) }

/-- The core without the block header that its channel engine had read for a tile. -/
def Core.headerTaken (x : Core) : Core := { x with hdrRead := none, hdrAsked := false }

theorem headerTaken_bulk (x : Core) : x.headerTaken.bulk = x.bulk := rfl

/-- Records to be acknowledged join those outstanding. -/
theorem awaitRecords_foldl (s : State) (c : CoreAt) (e : SendEp) (ep : Nat) {α : Type} (l : List α) (x : Core) :
    ∃ o, l.foldl (fun y _ => s.awaitRecords c e ep y) x = { x with outstanding := o } := by
  induction l generalizing x with
  | nil => exact ⟨_, rfl⟩
  | cons a l ih => exact ih (s.awaitRecords c e ep x)

/-- A tile as one change of the core: a source read for each segment, whose granules stand in the frame that the word names. -/
theorem sendTile_eq {s : State} {c : CoreAt} {w : Word} {e : SendEp} {h : Bytes} {f : FmtRow} (he : e = (s.core c).sendEp (ceEp w))
    (hh : h = (s.core c).hdrRead.getD []) (hf : fmtRow (segFmt h) = some f) :
    ∃ (o : List Outstanding) (jobs : List FabricJob), jobs.length = 2 ^ f.seglog ∧
      (∀ (i : Nat) (j : FabricJob), jobs[i]? = some j → j.cycle = s.now c ∧
        j.ops = (packRanges h f (e.frameAt (ceArg w)) i).flatMap fun r => readOps r.1 r.2) ∧
      s.sendTile c w = (s.putCore c ((s.core c).headerTaken.sending (ceEp w) (e.tiled (2 ^ f.seglog)) o jobs)).countRecord c (ceEp w) (2 ^ f.seglog) := by
  subst he hh
  unfold State.sendTile
  extract_lets ep x e at_ h self dep
  rw [hf]
  dsimp -zeta only
  extract_lets n jobs y src e'
  obtain ⟨o, ho⟩ := awaitRecords_foldl s c e ep (List.range n) x.headerTaken
  refine ⟨o, jobs, (List.length_map _).trans List.length_range, fun i j hj => ?_, ?_⟩
  · obtain ⟨k, hk, rfl⟩ := Option.map_eq_some_iff.1 ((List.getElem?_map ..).symm.trans hj)
    obtain ⟨_, rfl⟩ := List.getElem?_eq_some_iff.1 hk
    rw [List.getElem_range]
    exact ⟨rfl, rfl⟩
  · have hy : y = { x.headerTaken with outstanding := o } := ho
    rw [hy]
    exact congrArg (fun z => (s.putCore c z).countRecord c ep n) (enqueues_putSend x.headerTaken ep (e.tiled n) o jobs)

/-! ### Demands of a read stream (R267, R270) -/

/-- What a demand leaves alone once it is on its way: every send endpoint, deep memory, the host interface, and each packet that waits. -/
structure KeepsSends (s t : State) : Prop where
  sends : ∀ c, (t.core c).se = (s.core c).se
  deep : t.deep = s.deep
  host : t.host = s.host
  waiting : s.waiting ⊆ t.waiting

theorem KeepsSends.refl (s : State) : KeepsSends s s := ⟨fun _ => rfl, rfl, rfl, List.Subset.refl _⟩

theorem KeepsSends.trans {s t u : State} (h : KeepsSends s t) (g : KeepsSends t u) : KeepsSends s u :=
  ⟨fun c => (g.sends c).trans (h.sends c), g.deep.trans h.deep, g.host.trans h.host, fun _ hp => g.waiting (h.waiting hp)⟩

theorem KeepsSends.sendEp {s t : State} (h : KeepsSends s t) (c : CoreAt) (i : Nat) : (t.core c).sendEp i = (s.core c).sendEp i :=
  congrArg (fun m => SMap.get ({} : SendEp) m i) (h.sends c)

theorem sendEp_putCore_putSend (s : State) (c : CoreAt) (x : Core) (i : Nat) (e : SendEp) :
    ((s.putCore c (x.putSend i e)).core c).sendEp i = e := by
  rw [State.core_putCore_same]
  exact SMap.get_set_same _ _ _ _

theorem keepsSends_putCore {s : State} {c : CoreAt} {x : Core} (h : x.se = (s.core c).se) : KeepsSends s (s.putCore c x) := by
  refine ⟨fun e => ?_, rfl, rfl, List.Subset.refl _⟩
  by_cases he : e = c
  · subst he
    rw [State.core_putCore_same, h]
  · rw [State.core_putCore_ne _ _ he]

theorem keepsSends_modCore {f : Core → Core} (hf : ∀ x, (f x).se = x.se) (s : State) (c : CoreAt) : KeepsSends s (s.modCore c f) :=
  keepsSends_putCore (hf _)

theorem keepsSends_count (s : State) (g u n m i : Nat) : KeepsSends s (s.count g u n m i) := ⟨fun _ => rfl, rfl, rfl, List.Subset.refl _⟩

theorem keepsSends_inject (s : State) (c : CoreAt) (p : Packet) : KeepsSends s (s.inject c p) :=
  ⟨fun _ => rfl, rfl, rfl, List.subset_append_left _ _⟩

theorem keepsSends_haltBy (s : State) (c : CoreAt) (code : Nat) (detail : BitVec 64) (suspect : Option ClusterAt) :
    KeepsSends s (s.haltBy c code detail suspect) := by
  obtain ⟨hb, -, -⟩ := haltOn_frame s (clusterOf c) [{ raised c.core (s.core c).slot code detail with suspect := suspect }]
  refine ⟨fun e => congrArg Core.se (haltBy_core s c code detail suspect e), deep_of_besides hb, host_of_besides hb, ?_⟩
  unfold State.haltBy State.haltOn
  split
  · exact List.Subset.refl _
  · split
    · exact List.Subset.refl _
    · exact List.Subset.refl _

theorem se_enqueue_bulk (x : Core) (j : FabricJob) : (x.enqueue 1 j).se = x.se := by rw [enqueue_bulk_eq]

/-- A segment that lands, or fails its check, changes its ring and the fabric queue of its core, or halts its cluster (R158). -/
theorem keepsSends_landSegment (s : State) (c : CoreAt) (ep : Nat) (seg : Bytes) (mk : RecvEp → Nat → BitVec 128) (ack : Option (BitVec 128))
    (inj : Bool) : KeepsSends s (s.landSegment c ep seg mk ack inj).1 := by
  have halts {x : Core} (hx : x.se = (s.core c).se) (code : Nat) (d : BitVec 64) (k : Option ClusterAt) :
      KeepsSends s ((s.putCore c x).haltBy c code d k) := (keepsSends_putCore hx).trans (keepsSends_haltBy _ _ _ _ _)
  unfold State.landSegment
  extract_lets src x e frame base w ops rec_ last src' e'
  have hx : x.se = (s.core c).se := rfl
  clear_value x
  split
  · exact halts hx _ _ _
  split
  · exact halts hx _ _ _
  split
  · exact halts hx _ _ _
  split
  · exact halts ((se_enqueue_bulk _ _).trans hx) _ _ _
  · exact keepsSends_putCore ((se_enqueue_bulk _ _).trans hx)

/-- Claimed copies land as segments do (R270). -/
theorem keepsSends_landClaims (s : State) (r : CoreAt) (ep : Nat) : KeepsSends s (s.landClaims r ep) := by
  have copies (l : List (Bytes × Bool)) (p : State × Bool) :
      KeepsSends p.1 (l.foldl (fun p seg => if p.2 then p.1.landSegment r ep seg.1 (deliveryHeader ep) none seg.2 else p) p).1 := by
    induction l generalizing p with
    | nil => exact .refl _
    | cons seg l ih =>
      refine KeepsSends.trans ?_ (ih _)
      dsimp only
      split
      · exact keepsSends_landSegment _ _ _ _ _ _ _
      · exact .refl _
  unfold State.landClaims
  generalize (s.core r).demands.length + 1 = fuel
  induction fuel generalizing s with
  | zero => exact .refl s
  | succ k ih =>
    unfold State.landClaimsN
    extract_lets x e
    split
    · exact .refl s
    next d _ =>
      have hland := (keepsSends_putCore (s := s) (c := r) (x := { x with demands := x.demands.erase d }) rfl).trans
        (copies d.copy (s.putCore r { x with demands := x.demands.erase d }, true))
      split
      · exact .refl s
      · dsimp only
        split
        · exact hland.trans (ih _)
        · exact hland

/-- Speculative demands are packets more, and tiles to come at their core (R270). -/
theorem keepsSends_speculate (s : State) (r : CoreAt) (m n g need : Nat) (step : BitVec 16) (l : List Nat) :
    KeepsSends s (s.speculate r m n g need step l) := by
  induction l generalizing s with
  | nil => exact .refl s
  | cons j l ih =>
    unfold State.speculate
    extract_lets x y p u
    have hu : KeepsSends s u := by
      unfold u
      split
      · exact .refl s
      · exact ((keepsSends_putCore (x := y) rfl).trans (keepsSends_inject _ _ _)).trans (keepsSends_count _ _ _ _ _ _)
    exact hu.trans (ih u)

/-- The endpoint behind a demand for index `i` in sweep `g` of its stream (R267). -/
def SendEp.demanded (e : SendEp) (g i : Nat) : SendEp := { e.debit 1 with wpos := g, srcPos := i + 1 }

/-- A demand packet for index `i` of the stream of an endpoint, among those that wait (R267, Table 9.4). -/
def State.hasDemand (s : State) (e : SendEp) (i : Nat) : Prop :=
  ∃ (claim : Bool) (step : BitVec 16), ∃ p ∈ s.waiting, p.pkind = 0xA ∧ p.exit = 1 ∧ p.comp = BitVec.ofNat 3 e.moon ∧
    p.hdr = (deepHeader 1 false claim e.streamNo i 0 0 step).setWidth 256

theorem KeepsSends.hasDemand {s t : State} {e : SendEp} {i : Nat} (h : KeepsSends s t) (hd : s.hasDemand e i) : t.hasDemand e i := by
  obtain ⟨claim, step, p, hp, hrest⟩ := hd
  exact ⟨claim, step, p, h.waiting hp, hrest⟩

/-- A demand has changed its endpoint alone of all send endpoints, and its packet waits to leave for the home moon die (R267). -/
theorem demandOp_spec {s : State} {c : CoreAt} {w : Word} {e : SendEp} (he : e = (s.core c).sendEp (ceEp w)) :
    ∃ g, KeepsSends (s.putCore c ((s.core c).putSend (ceEp w) (e.demanded g (ceArg w)))) (s.demandOp c w) ∧
      (s.demandOp c w).hasDemand e (ceArg w) := by
  subst he
  unfold State.demandOp
  extract_lets ep x e i m n t g step src u rc rep v hit z copy
  refine ⟨g, ?_⟩
  clear_value rc
  have hv : KeepsSends u v := by
    unfold v
    split
    · exact .refl u
    · split
      · exact .refl u
      · exact keepsSends_modCore (fun _ => by rfl) _ _
  have hz : KeepsSends u z := hv.trans (keepsSends_inject _ _ _)
  have hd : z.hasDemand e i := ⟨hit.isSome, step, _, List.mem_append_right _ (List.mem_singleton_self _), rfl, rfl, rfl, rfl⟩
  suffices h : KeepsSends z _ from ⟨hz.trans h, h.hasDemand hd⟩
  clear_value z hit
  split
  · exact .refl z
  · refine KeepsSends.trans (KeepsSends.trans ?_ (keepsSends_landClaims _ _ _)) (keepsSends_speculate _ _ _ _ _ _ _ _)
    split
    · exact (keepsSends_modCore (fun _ => by rfl) _ _).trans (keepsSends_count _ _ _ _ _ _)
    · exact keepsSends_modCore (fun _ => by rfl) _ _

/-- The stream and the index that a deep-memory header carries (Table 9.4). -/
theorem extractLsb'_deepHeader (op : Nat) (spec claim : Bool) (stream index offset length : Nat) (step : BitVec 16) :
    (deepHeader op spec claim stream index offset length step).extractLsb' 107 15 = BitVec.ofNat 15 stream ∧
    (deepHeader op spec claim stream index offset length step).extractLsb' 99 8 = BitVec.ofNat 8 index := by
  unfold deepHeader
  constructor
  · simp only [BitVec.extractLsb'_append_eq_of_le, Nat.reduceLeDiff, Nat.reduceSub, BitVec.extractLsb'_append_eq_right]
  · simp only [BitVec.extractLsb'_append_eq_of_le, Nat.reduceLeDiff, Nat.reduceSub, BitVec.extractLsb'_append_eq_right]

/-- A field of a 128-bit header, read in the header of its packet. -/
theorem bitsOf_setWidth (h : BitVec 128) {hi lo : Nat} (hw : lo + (hi + 1 - lo) ≤ 256) :
    bitsOf (h.setWidth 256).toNat hi lo = (h.extractLsb' lo (hi + 1 - lo)).toNat := by
  rw [← BitVec.extractLsb'_setWidth_of_le hw, BitVec.extractLsb'_toNat, bitsOf]

theorem bitsOf_lt (x hi lo : Nat) : bitsOf x hi lo < 2 ^ (hi + 1 - lo) := Nat.mod_lt _ (Nat.two_pow_pos _)

/-- The packet of a demand names the stream of its endpoint and the index of its word. -/
theorem hasDemand_fields {s : State} {e : SendEp} {w : Word} (h : s.hasDemand e (ceArg w)) :
    ∃ p ∈ s.waiting, p.pkind = 0xA ∧ p.exit = 1 ∧ p.comp = BitVec.ofNat 3 e.moon ∧ bitsOf p.hdr.toNat 121 107 = e.streamNo ∧
      bitsOf p.hdr.toNat 106 99 = ceArg w := by
  obtain ⟨claim, step, p, hp, hkind, hexit, hcomp, hhdr⟩ := h
  obtain ⟨hstream, hindex⟩ := extractLsb'_deepHeader 1 false claim e.streamNo (ceArg w) 0 0 step
  refine ⟨p, hp, hkind, hexit, hcomp, ?_, ?_⟩
  · rw [hhdr, bitsOf_setWidth _ (by decide), hstream, BitVec.toNat_ofNat]
    exact Nat.mod_eq_of_lt (bitsOf_lt _ 62 48)
  · rw [hhdr, bitsOf_setWidth _ (by decide), hindex, BitVec.toNat_ofNat]
    exact Nat.mod_eq_of_lt (bitsOf_lt _ 24 17)

/-! ### The obligation -/

section
variable {s : State} {c : CoreAt} {e : SendEp} (hr : (s.accept (clusterOf c)).ready c (·.ce) = true)
  (he : e = ((s.accept (clusterOf c)).core c).sendEp (ceEp ((s.accept (clusterOf c)).core c).word))
include hr he

/-- SEND and MSEND on an endpoint of byte messages. -/
theorem exec_sendBytes {i : Instr} (hty : e.type = 0) (hop : (ceOp ((s.accept (clusterOf c)).core c).word = 1 ∧ i = .send c) ∨
      (ceOp ((s.accept (clusterOf c)).core c).word = 2 ∧ i = .msend c)) :
    exec i s = .next (((s.accept (clusterOf c)).sendBytes c ((s.accept (clusterOf c)).core c).word).modCore c Core.ceDone) := by
  subst he
  obtain ⟨ho, rfl⟩ | ⟨ho, rfl⟩ := hop
  · exact congrArg Host.Outcome.next (ceUnit_act State.sendBytes hr (Bool.and_eq_true_iff.2 ⟨decide_eq_true ho, decide_eq_true hty⟩))
  · refine congrArg Host.Outcome.next ((ceUnit_act _ hr (decide_eq_true ho)).trans ?_)
    rw [if_pos hty]

/-- SEND and MSEND of a tile, and a write on a stream. -/
theorem exec_sendTile {i : Instr} (hty : e.type = 1) (hop : (ceOp ((s.accept (clusterOf c)).core c).word = 1 ∧ e.stream = false ∧ i = .tileSend c) ∨
      (ceOp ((s.accept (clusterOf c)).core c).word = 1 ∧ e.stream = true ∧ e.readStream = false ∧ i = .streamWrite c) ∨
      (ceOp ((s.accept (clusterOf c)).core c).word = 2 ∧ i = .msend c)) :
    exec i s = .next (((s.accept (clusterOf c)).sendTile c ((s.accept (clusterOf c)).core c).word).modCore c Core.ceDone) := by
  subst he
  obtain ⟨ho, hs, rfl⟩ | ⟨ho, hs, hw, rfl⟩ | ⟨ho, rfl⟩ := hop
  · exact congrArg Host.Outcome.next (ceUnit_act State.sendTile hr (by rw [decide_eq_true ho, decide_eq_true hty, hs]; rfl))
  · exact congrArg Host.Outcome.next (ceUnit_act State.sendTile hr (by rw [decide_eq_true ho, hs, hw]; rfl))
  · refine congrArg Host.Outcome.next ((ceUnit_act _ hr (decide_eq_true ho)).trans ?_)
    rw [if_neg (by rw [hty]; decide)]

/-- SEND on a read stream. -/
theorem exec_streamDemand (ho : ceOp ((s.accept (clusterOf c)).core c).word = 1) (hrd : e.readStream = true) :
    exec (.streamDemand c) s = .next (((s.accept (clusterOf c)).demandOp c ((s.accept (clusterOf c)).core c).word).modCore c Core.ceDone) := by
  subst he
  exact congrArg Host.Outcome.next (ceUnit_act State.demandOp hr (Bool.and_eq_true_iff.2 ⟨decide_eq_true ho, hrd⟩))

end

/-- A send is one change of its core, and two counts. -/
theorem core_sent (s : State) (c : CoreAt) (x : Core) (ep n : Nat) :
    (((s.putCore c x).countRecord c ep n).modCore c Core.ceDone).core c = x.ceDone := by
  rw [State.core_modCore_same, countRecord_core, State.core_putCore_same]

/-- Nothing leaves the core within the word of a send. -/
theorem sent_frame (s : State) (c : CoreAt) (x : Core) (ep n : Nat) {t : State}
    (ht : t = ((s.putCore c x).countRecord c ep n).modCore c Core.ceDone) :
    t.mesh = s.mesh ∧ t.waiting = s.waiting ∧ t.deep = s.deep ∧ t.clusters = s.clusters := by
  subst ht
  exact ⟨rfl, rfl, rfl, rfl⟩

/-- Settles O9: a message by `sendBytes_eq`, a tile by `sendTile_eq`, a demand by `demandOp_spec`. -/
theorem sendsDebitAndQueue : Obligations.SendsDebitAndQueue := by
  refine ⟨?message, ?tile, ?demand⟩
  case message =>
    rintro c s u x w e _ n _ _ i hu hxu rfl hr he hty hop hn rfl rfl rfl
    subst hu hxu
    have hx := exec_sendBytes hr he hty hop
    obtain ⟨o, job, hops, hcycle, hsent⟩ := sendBytes_eq he hn
    rw [hsent] at hx
    refine ⟨_, job, hx, ?_⟩
    obtain ⟨hep, hne, hq, hwait, hspad, hre, -, htodo⟩ := ceDone_sending _ _ _ o [job] (core_sent (s.accept (clusterOf c)) c _ _ _)
    refine ⟨hep.trans ?_, hq, hwait, hops, hcycle, hne, hspad, hre, htodo, sent_frame _ _ _ _ _ rfl⟩
    simp only [SendEp.messaged, SendEp.launched, SendEp.debit, SendEp.sourceSlot, decide_eq_true_eq]
  case tile =>
    rintro c s u x w e f i hu hxu rfl hr he hty hop hf
    subst hu hxu
    have hx := exec_sendTile hr he hty hop
    obtain ⟨o, jobs, hlen, hjobs, hsent⟩ := sendTile_eq he rfl hf
    rw [hsent] at hx
    refine ⟨_, jobs, hx, ?_⟩
    obtain ⟨hep, hne, hq, hwait, hspad, -, hhdr, htodo⟩ := ceDone_sending _ _ _ o jobs (core_sent (s.accept (clusterOf c)) c _ _ _)
    obtain ⟨hq', hwait'⟩ := Prod.mk.inj (bulk_enqueues_congr (headerTaken_bulk ((s.accept (clusterOf c)).core c)) jobs)
    rw [hep]
    refine ⟨hq.trans hq', hwait.trans hwait', hlen, hhdr, hjobs, rfl, fun hm => ?_, fun hm => ?_, rfl, hne, hspad, htodo, sent_frame _ _ _ _ _ rfl⟩
    · rw [SendEp.tiled, SendEp.debit, if_neg (by rw [hm]; exact Bool.false_ne_true)]
    · rw [SendEp.tiled, SendEp.debit, if_pos hm]
  case demand =>
    rintro c s u x w e hu hxu rfl hr he ho hrd hm
    subst hu hxu
    obtain ⟨g, hkeeps, hdemand⟩ := demandOp_spec he
    have hdone := keepsSends_modCore (f := Core.ceDone) (fun _ => rfl) ((s.accept (clusterOf c)).demandOp c ((s.accept (clusterOf c)).core c).word) c
    have hall := hkeeps.trans hdone
    refine ⟨_, exec_streamDemand hr he ho hrd, ?_⟩
    rw [(hall.sendEp c _).trans (sendEp_putCore_putSend _ _ _ _ _)]
    refine ⟨?_, rfl, hasDemand_fields (hdone.hasDemand hdemand), hall.deep, hall.host⟩
    rw [SendEp.demanded, SendEp.debit, if_neg (by rw [hm]; exact Bool.false_ne_true)]

end Sys2Proof.Machine

/-! PROOFS. The sparsity operations of the VE (R146 to R167, Table 3.6). -/

namespace Sys2Proof.Machine

/-! ### PRUNE and the modes of PSELECT -/

/-- A mode of PSELECT that the word names is performed; `y` is the core after it. -/
theorem pselUnit_eq {s : State} {c : CoreAt} {mode : Nat} {y : Core} (act : State → Core → Word → Nat → Core)
    (hr : (s.accept (clusterOf c)).ready c (·.ve) = true) (ho : veOp ((s.accept (clusterOf c)).core c).word = 0xA)
    (hm : veCfgN ((s.accept (clusterOf c)).core c).word / 4 = mode)
    (hy : (act (s.accept (clusterOf c)) ((s.accept (clusterOf c)).core c) ((s.accept (clusterOf c)).core c).word
      ((s.accept (clusterOf c)).now c)).veDone = y) :
    s.pselUnit c mode act = (s.accept (clusterOf c)).putCore c y :=
  hy ▸ unitOp_eq (fun s x w t => (act s x w t).veDone) hr (Bool.and_eq_true_iff.2 ⟨decide_eq_true ho, decide_eq_true hm⟩)

theorem pruneOp_veDone (x : Core) (w : Word) (t : Nat) :
    (x.pruneOp w t).veDone = { x.pushHeld (t + 14) (.vreg (regD w) 16 (prune (decide (16 ≤ veCfgN w)) (x.vreg (veX w))).2
      (some (mselOf (veCfgN w / 4), (prune (decide (16 ≤ veCfgN w)) (x.vreg (veX w))).1)) 0) with
      lastPrune := some t, todo := { x.todo with ve := false } } := rfl

/-- RATE with its limit exceeded sends the sums down the pipeline behind its mask (R167). -/
theorem rateOp_hit {x : Core} {w : Word} (t : Nat)
    (h : rateExceeded (lane64 (x.vreg (veX w)) 0) (lane64 (x.vreg (veX w)) 1) (laneOf (x.vreg (veZ w)) 0) = true) :
    x.rateOp w t = (x.pushHeld (t + 8) (.maskOnly (mselOf (veCfgN w)) 1)).push (t + 8)
      (.missRate (lane64 (x.vreg (veX w)) 0) (lane64 (x.vreg (veX w)) 1)) := by
  simp only [Core.rateOp, h, if_true]

theorem rateOp_miss {x : Core} {w : Word} (t : Nat)
    (h : rateExceeded (lane64 (x.vreg (veX w)) 0) (lane64 (x.vreg (veX w)) 1) (laneOf (x.vreg (veZ w)) 0) = false) :
    x.rateOp w t = x.pushHeld (t + 8) (.maskOnly (mselOf (veCfgN w)) 0) := by
  simp only [Core.rateOp, h, Bool.false_eq_true, if_false]

/-! ### COMPRESS -/

/-- The core behind a COMPRESS whose result is `r`: the packed values, the excess, the flags (R150 to R152). -/
def Core.compressed (x : Core) (w : Word) (t : Nat) (r : BitVec 512 × Nat × BitVec 8) : Core :=
  { (x.push (x.hold (t + 6) [(6, 2 * (regD w).val), (6, 2 * (regD w).val + 1)]) (.vreg (regD w) 16 r.1 none r.2.2)).push
      (x.hold (x.hold (t + 6) [(6, 2 * (regD w).val), (6, 2 * (regD w).val + 1)]) [(13, 0)]) (.excess r.2.1 (excessTrap x)) with
    todo := { x.todo with ve := false } }

/-- COMPRESS rounds by the random bits of its cycle (R63). -/
theorem exec_veCompress {s : State} {c : CoreAt} (hr : (s.accept (clusterOf c)).ready c (·.ve) = true)
    (ho : veOp ((s.accept (clusterOf c)).core c).word = 9) :
    exec (.veCompress c) s = .next ((s.accept (clusterOf c)).putCore c (((s.accept (clusterOf c)).core c).compressed
      ((s.accept (clusterOf c)).core c).word ((s.accept (clusterOf c)).now c)
      (compress (veCfgN ((s.accept (clusterOf c)).core c).word / 8) (veY ((s.accept (clusterOf c)).core c).word)
        (((s.accept (clusterOf c)).core c).vreg (veX ((s.accept (clusterOf c)).core c).word)) ((s.accept (clusterOf c)).rounding c)))) :=
  congrArg Host.Outcome.next (veUnit_eq (fun s => Core.compressOp (s.rounding c)) hr ho rfl)

/-- The pipeline behind a COMPRESS tells its result. -/
theorem compressed_inj {x : Core} {w : Word} {t : Nat} {r q : BitVec 512 × Nat × BitVec 8} (h : x.compressed w t r = x.compressed w t q) : r = q := by
  have hp := congrArg Core.pipe h
  simp only [Core.compressed, Core.push, List.append_assoc, List.append_cancel_left_eq, List.cons_append, List.nil_append, List.cons.injEq,
    Pending.mk.injEq, Effect.vreg.injEq, Effect.excess.injEq, true_and, and_true] at hp
  obtain ⟨⟨h1, h2⟩, h3⟩ := hp
  exact Prod.ext h1 (Prod.ext h3 h2)

/-- Every COMPRESS gives what it would give without stochastic rounding. -/
def CompressNeverRounds : Prop :=
  ∀ (c : CoreAt) (s s' : State) (x : Core) (w : Word), s' = s.accept (clusterOf c) → x = s'.core c → w = x.word →
    s'.ready c (·.ve) = true → veOp w = 9 →
    compress (veCfgN w / 8) (veY w) (x.vreg (veX w)) (s'.rounding c) = compress (veCfgN w / 8) (veY w) (x.vreg (veX w))

/-- O6 says of COMPRESS that its result takes no random bits, where the model rounds by those of R63: it holds just where these never show. -/
theorem sparsityOperationsEnterThePipeline_iff : Obligations.SparsityOperationsEnterThePipeline ↔ CompressNeverRounds := by
  constructor
  · rintro h c s _ _ _ rfl rfl rfl hr ho
    obtain ⟨-, hc, -⟩ := h c s _ _ _ _ _ rfl rfl rfl rfl hr rfl
    obtain ⟨v, n, f, hv, hx⟩ := hc ho
    have hput := Host.Outcome.next.inj ((exec_veCompress hr ho).symm.trans hx)
    have hcore := congrArg (fun t : State => t.core c) hput
    simp only [State.core_putCore_same] at hcore
    exact (compressed_inj (q := (v, n, f)) hcore).trans hv.symm
  · rintro h c s _ _ _ _ _ rfl rfl rfl rfl hr rfl
    refine ⟨fun ho => ?prune, fun ho => ?compress, fun sel i ho hmode => ?select, fun ho hm => ?verdict, fun ho hm => ?counts,
      fun ho hm a b ha hb => ?rate, fun ho hm => ?quant⟩
    case prune => exact ⟨_, _, rfl, congrArg Host.Outcome.next (veUnit_eq _ hr ho (pruneOp_veDone _ _ _))⟩
    case compress =>
      refine ⟨_, _, _, rfl, ?_⟩
      rw [exec_veCompress hr ho, h c s _ _ _ rfl rfl rfl hr ho]
      rfl
    case select =>
      refine ⟨_, rfl, ?_⟩
      obtain ⟨hm, rfl, rfl⟩ | ⟨hm, rfl, rfl⟩ := hmode
      · exact congrArg Host.Outcome.next (pselUnit_eq _ hr ho hm rfl)
      · exact congrArg Host.Outcome.next (pselUnit_eq _ hr ho hm rfl)
    case verdict => exact ⟨_, _, _, rfl, congrArg Host.Outcome.next (pselUnit_eq _ hr ho hm rfl)⟩
    case counts => exact congrArg Host.Outcome.next (pselUnit_eq _ hr ho hm rfl)
    case rate =>
      subst ha hb
      exact ⟨fun hit => congrArg Host.Outcome.next (pselUnit_eq _ hr ho hm (congrArg Core.veDone (rateOp_hit _ hit))),
        fun miss => congrArg Host.Outcome.next (pselUnit_eq _ hr ho hm (congrArg Core.veDone (rateOp_miss _ miss)))⟩
    case quant => exact congrArg Host.Outcome.next (pselUnit_eq _ hr ho hm rfl)

/-! ### The free value that O6 turns on

Which lanes of a conversion round at random is `Config.roundsInto`, of whose values nothing can be proved (log entry 43). With one choice of them O6
holds, with another it fails: the model settles neither it nor its negation. -/

/-- Where no conversion rounds at random, O6 holds. -/
theorem sparsityOperationsEnterThePipeline_of_no_rounding (h : ∀ image core cycle lane, Config.roundsInto image core cycle lane = none) :
    Obligations.SparsityOperationsEnterThePipeline := by
  refine sparsityOperationsEnterThePipeline_iff.2 fun c _ s' _ _ _ _ _ _ _ => ?_
  have hnone : s'.rounding c = fun _ => none := funext fun lane => by rw [State.rounding, h]
  rw [hnone]

/-- An image of one identity record, whose one tensor rounds at random (R402, Table 15.3). -/
def roundingImage : Bytes :=
  [1, 0, 0, 0, 112] ++ List.replicate 67 0 ++ [1] ++ List.replicate 19 0 ++ [0x20] ++ List.replicate 19 0

/-- A COMPRESS of a register whose lane 0 holds 5/8, to INT8 in the form S24, waits in core 0 of a cluster whose cycle has begun. -/
def compressing : State :=
  { State.reset with
    job := { image := roundingImage }
    clusters := [(0, { accepted := true })]
    cores := [(0, { store := [(0, BitVec.ofNat _ (9 * 2 ^ 92))], v := [(0, 0x3f200000)], todo := { ve := true } })] }

/-- The core that compresses. -/
def compressor : CoreAt := ⟨0, 0, 0⟩

theorem compressing_ready : compressing.accept (clusterOf compressor) = compressing ∧ compressing.ready compressor (·.ve) = true ∧
    veOp (compressing.core compressor).word = 9 ∧ compressing.srTensors = [0] := by decide +kernel

/-- To nearest 5/8 becomes 1; by the random bits of seed 0 it becomes 0 (R63). -/
theorem compress_rounds_down :
    (compress 0 0 0x3f200000 fun _ => some (roundingBits 0 0 0 0)).1 ≠ (compress 0 0 0x3f200000).1 := by decide +kernel

/-- Where every conversion rounds at random into the first element of tensor 0, O6 fails: `compressing` is the counterexample. -/
theorem not_sparsityOperationsEnterThePipeline_of_rounding (h : ∀ image core cycle lane, Config.roundsInto image core cycle lane = some (0, [], [])) :
    ¬ Obligations.SparsityOperationsEnterThePipeline := by
  intro ho
  obtain ⟨haccept, hready, hop, hsr⟩ := compressing_ready
  have hsame := sparsityOperationsEnterThePipeline_iff.1 ho compressor compressing _ _ _ rfl rfl rfl (by rwa [haccept]) (by rwa [haccept])
  have hbits : compressing.rounding compressor = fun _ => some (roundingBits 0 0 0 0) := funext fun lane => by
    rw [State.rounding, h]
    dsimp only
    rw [hsr]
    rfl
  rw [haccept, hbits] at hsame
  exact compress_rounds_down (congrArg Prod.fst hsame)

end Sys2Proof.Machine

/-! PROOFS. RECV_WAIT and RELEASE (R177, R178). -/

namespace Sys2Proof.Machine

/-! ### RECV_WAIT (R177) -/

theorem recvOp_clear {s : State} {c : CoreAt} {w : Word} {e : RecvEp} (he : e = (s.core c).recvEp (ceEp w))
    (h : (e.unwaited.take (ceArg w + 1)).any (·.ovf) = false) :
    s.recvOp c w = s.putCore c ((s.core c).putRecv (ceEp w) { e with recs := waitRecs (ceArg w + 1) e.recs }) := by
  subst he
  unfold State.recvOp
  dsimp only
  rw [h, if_neg Bool.false_ne_true]

/-- An EA_OVF among the records waited for sets its flag in the cycle after (R226). -/
theorem recvOp_overflowed {s : State} {c : CoreAt} {w : Word} {e : RecvEp} (he : e = (s.core c).recvEp (ceEp w))
    (h : (e.unwaited.take (ceArg w + 1)).any (·.ovf) = true) :
    s.recvOp c w = s.putCore c (((s.core c).putRecv (ceEp w) { e with recs := waitRecs (ceArg w + 1) e.recs }).push (s.now c + 1) (.statusSet flEaOvf)) := by
  subst he
  unfold State.recvOp
  dsimp only
  rw [h, if_pos rfl]

/-! ### Credits returned (R178, Table 10.10) -/

/-- What a core injects waits at its router with the kind, the destination and the header that it was formed with. -/
theorem inject_waits (s : State) (c : CoreAt) (p : Packet) :
    ∃ q, (s.inject c p).waiting = s.waiting ++ [q] ∧ q.pkind = p.pkind ∧ q.exit = p.exit ∧ q.comp = p.comp ∧ q.dst = p.dst ∧ q.hdr = p.hdr :=
  ⟨_, rfl, rfl, rfl, rfl, rfl, rfl⟩

theorem moonSend_streams (s : State) (m : Nat) (p : Packet) : (s.moonSend m p).streams = s.streams := by rw [moonSend_frame]

/-- What a moon die delivers depends on its streams alone. -/
theorem pump_streams_congr {s t : State} (h : t.streams = s.streams) (fuel m n : Nat) : (t.pump fuel m n).streams = (s.pump fuel m n).streams := by
  induction fuel generalizing s t with
  | zero => exact h
  | succ k ih =>
    have hst : t.stream m n = s.stream m n := congrArg (fun l => SMap.get ({} : Stream) l (32768 * m + n)) h
    unfold State.pump
    rw [hst]
    dsimp only
    cases (s.stream m n).owed with
    | nil => exact h
    | cons o r =>
      dsimp only
      by_cases hcr : (s.stream m n).dcredits < o.slots
      · rwa [if_pos hcr, if_pos hcr]
      · rw [if_neg hcr, if_neg hcr]
        refine ih ?_
        have hput (y : Stream) : (t.putStream m n y).streams = (s.putStream m n y).streams := congrArg (fun l => SMap.set ({} : Stream) l (32768 * m + n) y) h
        cases o.seg <;> cases o.last <;> simp only [State.streamCredit, moonSend_streams, hput, if_true, Bool.false_eq_true, if_false]

theorem ringCredit_streams_congr {s t : State} (h : t.streams = s.streams) (m n k : Nat) :
    (t.ringCredit m n k).streams = (s.ringCredit m n k).streams := by
  have hst : t.stream m n = s.stream m n := congrArg (fun l => SMap.get ({} : Stream) l (32768 * m + n)) h
  unfold State.ringCredit State.pumpStream
  rw [hst]
  simp only [State.stream_putStream_same]
  exact pump_streams_congr (congrArg (fun l => SMap.set ({} : Stream) l (32768 * m + n) _) h) _ _ _

/-- Returned credits change the streams of the moon dies and what waits for the mesh alone. -/
theorem returnCredits_frame (s : State) (c : CoreAt) (ep n : Nat) : s.returnCredits c ep n =
    { s with streams := (s.returnCredits c ep n).streams, waiting := (s.returnCredits c ep n).waiting, emitted := (s.returnCredits c ep n).emitted } := by
  unfold State.returnCredits
  extract_lets e self
  split
  · rfl
  · split
    · rfl
    · split
      · split
        · exact (pumped_pumpStream _ _ _).frame
        · rfl
      · rfl

section
variable {s : State} {c : CoreAt} {ep n : Nat} {e : RecvEp} (he : (s.core c).recvEp ep = e)
include he

theorem returnCredits_reply (ht : e.type = 2) : s.returnCredits c ep n = s := by
  subst he
  exact if_pos (Or.inr ht)

variable (hn : n ≠ 0) (ht : e.type ≠ 2)
include hn ht

/-- Across packages: to the peer of the connection through its link die. -/
theorem returnCredits_peer {p : Peer} (hp : e.peer = some p) : s.returnCredits c ep n = s.inject c
    (toComp (packet 1 (s.lcore c) p.src ((creditBody p.conn p.linkDie true n (s.lcore c) p.ep).setWidth 256)) 2 p.linkDie.toNat) := by
  subst he
  unfold State.returnCredits
  simp only [hn, ht, or_self, if_false, hp]

/-- Inside the package: to the sending core. -/
theorem returnCredits_sender {l : LCore} {sep : BitVec 4} (hp : e.peer = none) (hf : e.feed = some (l, sep)) (hl : l.die.toNat < 24) :
    s.returnCredits c ep n = s.inject c (packet 1 (s.lcore c) l ((creditBody 0 0 false n (s.lcore c) sep).setWidth 256)) := by
  subst he
  unfold State.returnCredits
  simp only [hn, ht, or_self, if_false, hp, hf, Nat.not_le.2 hl]

/-- For a read stream: to its home. -/
theorem returnCredits_home {l : LCore} {sep : BitVec 4} (hp : e.peer = none) (hf : e.feed = some (l, sep)) (hl : 24 ≤ l.die.toNat) :
    s.returnCredits c ep n = s.ringCredit (l.die.toNat - 24) (l.cl.toNat * 64 + l.core.toNat) n := by
  subst he
  unfold State.returnCredits
  simp only [hn, ht, or_self, if_false, hp, hf, hl, if_true]

end

/-! ### RELEASE (R178) -/

/-- The core of a ring whose oldest `n` waited records are gone. -/
def Core.freed (x : Core) (ep n : Nat) : Core :=
  x.putRecv ep { x.recvEp ep with recs := (freeRecs ((x.recvEp ep).recs.length + 1) n (x.recvEp ep).recs).1 }

theorem recvEp_putRecv_same (x : Core) (i : Nat) (e : RecvEp) : (x.putRecv i e).recvEp i = e := SMap.get_set_same _ _ _ _
theorem recvEp_putRecv_ne (x : Core) {i j : Nat} (e : RecvEp) (h : j ≠ i) : (x.putRecv i e).recvEp j = x.recvEp j := SMap.get_set_ne _ _ _ h

/-- A RELEASE at a core with no demand in progress frees the records and returns their slots. -/
theorem exec_release {s s' : State} {c : CoreAt} {x : Core} {n : Nat} (hs' : s' = s.accept (clusterOf c)) (hx : x = s'.core c)
    (hr : s'.ready c (·.ce) = true) (hop : ceOp x.word = 4) (hn : n = ceArg x.word + 1) (hd : x.demands = []) :
    exec (.release c) s = .next (((s'.putCore c (x.freed (ceEp x.word) n)).returnCredits c (ceEp x.word)
      (freeRecs ((x.recvEp (ceEp x.word)).recs.length + 1) n (x.recvEp (ceEp x.word)).recs).2).modCore c Core.ceDone) := by
  subst hs' hx hn
  have hland (u : State) (hu : (u.core c).demands = []) (ep : Nat) : u.landClaims c ep = u :=
    landClaims_none ep fun d h => by rw [hu] at h; exact absurd h List.not_mem_nil
  refine congrArg Host.Outcome.next ((ceUnit_act _ hr (decide_eq_true hop)).trans (congrArg (fun u : State => u.modCore c Core.ceDone) (hland _ ?_ _)))
  exact (reading_releaseRecs (g := Core.demands) (fun _ _ => rfl) _ c _ _).trans hd

/-! ### The obligation -/

/-- Settles O10: RECV_WAIT marks, RELEASE frees and returns the slots to whoever produces the ring's records. -/
theorem receivesWaitAndRelease : Obligations.ReceivesWaitAndRelease := by
  intro c s s' x w e n hs' hx hw hr he hn
  subst hw
  refine ⟨fun hop hovf => ?_, fun hop hovf => ?_, fun hop hd => ?_⟩
  · subst hs' hx he hn
    exact congrArg Host.Outcome.next (ceUnit_eq _ hr (decide_eq_true hop) (recvOp_clear rfl hovf))
  · subst hs' hx he hn
    refine ⟨_, congrArg Host.Outcome.next (ceUnit_eq _ hr (decide_eq_true hop) (recvOp_overflowed rfl hovf)), ?_, ?_⟩
    · rw [State.core_putCore_same]
      exact recvEp_putRecv_same _ _ _
    · rw [State.core_putCore_same]
      rfl
  · have hexec := exec_release hs' hx hr hop hn hd
    rw [← he] at hexec
    generalize hk : (freeRecs (e.recs.length + 1) n e.recs).2 = k at *
    generalize hu : s'.putCore c (x.freed (ceEp x.word) n) = u at hexec
    have hcore : u.core c = x.freed (ceEp x.word) n := by rw [← hu, State.core_putCore_same]
    have hep : (u.core c).recvEp (ceEp x.word) = { e with recs := (freeRecs (e.recs.length + 1) n e.recs).1 } := by
      rw [hcore, he]
      exact recvEp_putRecv_same _ _ _
    have hleft : ((u.returnCredits c (ceEp x.word) k).modCore c Core.ceDone).core c = (x.freed (ceEp x.word) n).ceDone := by
      rw [State.core_modCore_same, core_of_cores (returnCredits_cores _ _ _ _) c, hcore]
    have hframe := returnCredits_frame u c (ceEp x.word) k
    refine ⟨_, hexec, ?_, fun j hj => ?_, ?_, ?_, ?_, ?_, fun l sep ht hp hf hl h0 => ?_, fun p ht hp h0 => ?_, fun l sep ht hp hf hl h0 => ?_, fun ht => ?_⟩
    · rw [hleft, ← hep, hcore]
      rfl
    · rw [hleft]
      exact recvEp_putRecv_ne _ _ hj
    · rw [hleft]
      rfl
    · rw [hleft]
      rfl
    · rw [State.modCore_clusters, hframe, ← hu]
      rfl
    · rw [State.modCore_deep, hframe, ← hu]
      rfl
    · rw [State.modCore_waiting, returnCredits_sender hep h0 ht hp hf hl]
      obtain ⟨q, hq, hkind, hexit, -, hdst, hhdr⟩ := inject_waits u c (packet 1 (u.lcore c) l ((creditBody 0 0 false k (u.lcore c) sep).setWidth 256))
      subst hu
      exact ⟨q, hq, hkind, hexit, hdst, hhdr⟩
    · rw [State.modCore_waiting, returnCredits_peer hep h0 ht hp]
      obtain ⟨q, hq, hkind, hexit, hcomp, hdst, hhdr⟩ := inject_waits u c
        (toComp (packet 1 (u.lcore c) p.src ((creditBody p.conn p.linkDie true k (u.lcore c) p.ep).setWidth 256)) 2 p.linkDie.toNat)
      subst hu
      refine ⟨q, hq, hkind, hexit, ?_, hdst, hhdr⟩
      rw [hcomp]
      exact congrArg BitVec.toNat ((BitVec.ofNat_toNat 3 p.linkDie).trans (BitVec.setWidth_eq _))
    · rw [State.modCore_streams, returnCredits_home hep h0 ht hp hf hl]
      exact ringCredit_streams_congr (by rw [← hu]; rfl) _ _ _
    · rw [State.modCore_waiting, State.modCore_streams, returnCredits_reply hep ht, ← hu]
      exact ⟨rfl, rfl⟩

end Sys2Proof.Machine

/-! PROOFS. A BROKEN notice about the path that a connection has left for its alternate changes nothing (R188, log entry 131). -/

namespace Sys2Proof.Machine

/-- A connection that runs through its alternate is not marked by a notice that names another link die. -/
theorem breakSender_of_left_path {s : State} {c : CoreAt} {b : BitVec 256} {e : SendEp} (he : e = (s.core c).sendEp (ccSrcEp b).toNat)
    (hv : e.viaAlt = true) (hl : (ccSrcLink b).toNat ≠ e.link) : s.breakSender c b = s := by
  subst he
  exact if_pos (Or.inr ⟨hv, hl⟩)

theorem exec_broken {s : State} {c : CoreAt} {b : BitVec 256} (hw : s.waits (s.isFor c 9 b []) c.core.val = false) :
    exec (.broken c b) s = .next ((s.arrived (s.isFor c 9 b []) c.core.val).breakSender c b) :=
  congrArg Host.Outcome.next (onArrival_taken (fun u => u.breakSender c b) hw)

/-- An open remote endpoint with LINK_DIE 0 and ALT_LINK_DIE 1, whose connection runs through its alternate. -/
def rerouted : SendEp := { entry := 1 <<< 127 ||| 1 <<< 123 ||| 1 <<< 38 ||| 1 <<< 37, conn := .open_, viaAlt := true }

/-- Core 0 of cluster 0 of die 0, whose send endpoint 0 that is. -/
def reroutedCore : CoreAt := ⟨0, 0, 0⟩
def reroutedState : State := { State.reset with cores := [(0, { se := [(0, rerouted)] })] }

/-- The notice BROKEN for that endpoint's connection through link die 0. -/
def lateNotice : BitVec 256 := connBody 5 0 0 0 ⟨0, 0, 0, 0⟩ 0 0 ⟨1, 0, 0, 0⟩ 0 0 0 0 0 0

/-- The notice is for that endpoint, names a link die that its connection does not run through, and can be taken. -/
theorem lateNotice_names_left_path :
    (reroutedState.core reroutedCore).sendEp (ccSrcEp lateNotice).toNat = rerouted ∧ (ccSrcLink lateNotice).toNat ≠ rerouted.link ∧
    reroutedState.waits (reroutedState.isFor reroutedCore 9 lateNotice []) reroutedCore.core.val = false := by decide +kernel

/-- Refutes O14: it says that a BROKEN notice marks every open connection. The model has it go on through its declared alternate, and then a late
notice about the path that it has left changes nothing: `lateNotice` leaves `rerouted` open and unmarked. -/
theorem not_connectionsThroughTheirLife : ¬ Obligations.ConnectionsThroughTheirLife := by
  rintro ⟨-, -, hsender⟩
  obtain ⟨hep, hlink, hwaits⟩ := lateNotice_names_left_path
  obtain ⟨-, -, -, hbroken⟩ := hsender reroutedCore lateNotice reroutedState rerouted hep.symm hwaits
  obtain ⟨t, ht, hmarked, -⟩ := hbroken rfl
  have hsame : t = reroutedState.arrived (reroutedState.isFor reroutedCore 9 lateNotice []) reroutedCore.core.val := by
    rw [exec_broken hwaits, breakSender_of_left_path (e := rerouted) (by rw [core_arrived, hep]) rfl hlink] at ht
    exact (Host.Outcome.next.inj ht).symm
  rw [hsame, core_arrived, hep] at hmarked
  exact Bool.false_ne_true (congrArg SendEp.broken hmarked)

end Sys2Proof.Machine

/-! PROOFS. Joins and releases of a catch, stops, and stall ages (R191, R193, R194, R200, R201). -/

namespace Sys2Proof.Machine

/-- With no transfer of a phase change to load, what is due in the job sends signals and changes its record alone. -/
theorem jobSignals_jobStep {s : State} (h : ∀ q, s.job.between ≠ .transfer q false) : s.jobSignals s.jobStep := by
  unfold State.jobStep
  split
  · exact jobSignals_checkHalted s
  · split
    · next q hq => exact absurd hq (h q)
    · exact .refl s
  · exact .refl s

theorem between_ne_transfer {s : State} (h : s.job.between = .none) (q : BitVec 3) : s.job.between ≠ .transfer q false := by
  rw [h]
  exact nofun

/-! ### Joins (R193, R194) -/

theorem catchOf_putCatch_same (x : Cluster) (id : Nat) (e : CatchSt) : (x.putCatch id e).catchOf id = e := SMap.get_set_same _ _ _ _

/-- A round that a child has not joined is not complete. -/
theorem catchTry_incomplete {s : State} {k : ClusterAt} {id : Fin 16}
    (h : ((s.cluster k).catchOf id.val).children.length ≠ ((s.cluster k).catchOf id.val).childCount) : s.catchTry k id = s := by
  have hc : s.catchComplete k id.val = false := by
    unfold State.catchComplete
    simp only [h, decide_false, Bool.and_false, Bool.false_and]
  unfold State.catchTry State.catchSendJoin
  simp only [hc, Bool.false_and, Bool.false_eq_true, if_false, ite_self]

theorem haltBy_job (s : State) (c : CoreAt) (code : Nat) (detail : BitVec 64) (suspect : Option ClusterAt) :
    (s.haltBy c code detail suspect).job = s.job := job_of_besides (haltOn_frame s (clusterOf c) _).1

section
variable {s : State} {k : ClusterAt} {id : Fin 16} {e : CatchSt} (arg : Option (BitVec 8)) (faulted : Bool) (src : LCore)
  (he : e = (s.cluster k).catchOf id.val)
include he

/-- A join that leaves the round open is kept with its argument. -/
theorem childJoins_open (hv : e.valid = true) (hn : e.children.length + 1 < e.childCount) : s.childJoins k id arg faulted src =
    s.modCluster k fun x => x.putCatch id.val { e.merge arg faulted with children := e.children ++ [src] } := by
  subst he
  unfold State.childJoins
  dsimp only
  rw [if_neg (by rw [hv]; simpa using Nat.lt_of_succ_lt hn)]
  refine catchTry_incomplete ?_
  rw [State.cluster_modCluster_same, catchOf_putCatch_same, List.length_append]
  exact hn.ne

/-- A join that the entry does not expect. -/
theorem childJoins_refused (h : e.valid = false ∨ e.childCount ≤ e.children.length) :
    s.childJoins k id arg faulted src = s.haltBy (coreIn k 0) fCatchArg := by
  subst he
  exact if_pos (by simpa using h)

/-- What is then due in the job leaves the round and the cluster as the join has left them. -/
theorem childJoins_open_jobStep (hb : s.job.between = .none) (hv : e.valid = true) (hn : e.children.length + 1 < e.childCount) :
    (((s.childJoins k id arg faulted src).jobStep).cluster k).catchOf id.val = { e.merge arg faulted with children := e.children ++ [src] } ∧
    (((s.childJoins k id arg faulted src).jobStep).cluster k).run = (s.cluster k).run := by
  rw [childJoins_open arg faulted src he hv hn, cluster_of_clusters (jobSignals_jobStep (between_ne_transfer (by exact hb))).clusters,
    State.cluster_modCluster_same, catchOf_putCatch_same]
  exact ⟨rfl, rfl⟩

theorem childJoins_refused_jobStep (hb : s.job.between = .none) (h : e.valid = false ∨ e.childCount ≤ e.children.length)
    (hrun : (s.cluster k).run ≠ .halted) :
    ((s.childJoins k id arg faulted src).jobStep).cluster k =
      { s.cluster k with run := .halted, faultCode := some (BitVec.ofNat 16 fCatchArg), stallLine := false } := by
  rw [childJoins_refused arg faulted src he h, cluster_of_clusters (jobSignals_jobStep (between_ne_transfer (by rw [haltBy_job, hb]))).clusters]
  exact haltBy_cluster (c := coreIn k 0) fCatchArg 0 none hrun

end

theorem exec_catchJoin {s : State} {k : ClusterAt} {id : Fin 16} {src : LCore} (arg : Option (BitVec 8)) (faulted : Bool)
    (hw : s.waits (s.isJoin k id.val src) = false) :
    exec (.catchJoin k id arg faulted src) s = .next (((s.arrived (s.isJoin k id.val src) 0).childJoins k id arg faulted src).jobStep) :=
  congrArg Host.Outcome.next (onArrival_taken (fun u => (u.childJoins k id arg faulted src).jobStep) hw)

/-! ### Releases (R193, R194) -/

/-- What a release changes of a catch, and the step index: rounds released, children that have joined since, steps. -/
def Cluster.roundOf (x : Cluster) (id : Nat) : Nat × List LCore × BitVec 48 := ((x.catchOf id).released, (x.catchOf id).children, x.step)

theorem roundOf_putCatch (x : Cluster) (id : Nat) (e : CatchSt) : (x.putCatch id e).roundOf id = (e.released, e.children, x.step) := by
  unfold Cluster.roundOf
  rw [catchOf_putCatch_same]
  rfl

theorem catchSendJoin_roundOf (s : State) (k : ClusterAt) (id : Nat) : ((s.catchSendJoin k id).cluster k).roundOf id = (s.cluster k).roundOf id := by
  unfold State.catchSendJoin
  extract_lets e
  split
  · rw [cluster_of_clusters (coxSend_clusters _ _ _ _), State.cluster_modCluster_same, roundOf_putCatch]
    rfl
  · rfl

theorem ckptCheck_roundOf (s : State) (k : ClusterAt) (id : Nat) : ((s.ckptCheck k).cluster k).roundOf id = (s.cluster k).roundOf id := by
  unfold State.ckptCheck
  dsimp only
  split
  · rfl
  · split
    · exact reading_modCluster (g := fun x => x.roundOf id) (by exact fun _ => rfl) s k k
    · rfl

/-- A release ends the round; its STEP flag advances the step index. -/
theorem catchRelease_roundOf (s : State) (k : ClusterAt) (id : Fin 16) (arg : BitVec 8) (faulted : Bool) :
    ((s.catchRelease k id arg faulted).cluster k).roundOf id.val = (((s.cluster k).catchOf id.val).released + 1, [],
      if faulted = false ∧ arg.getLsbD 7 = true then (s.cluster k).step + 1 else (s.cluster k).step) := by
  unfold State.catchRelease
  extract_lets e s1 n e' s2 s3 s4 s5
  have h1 : s1.clusters = s.clusters := foldl_leaves State.clusters (fun t d => coxSend_clusters t k d _) _ s
  have h2 : (s2.cluster k).roundOf id.val = (e.released + 1, [],
      if faulted = false ∧ arg.getLsbD 7 = true then (s.cluster k).step + 1 else (s.cluster k).step) := by
    unfold s2
    rw [State.cluster_modCluster_same, cluster_of_clusters h1]
    have hround := roundOf_putCatch (s.cluster k) id.val e'
    cases faulted
    · cases arg.getLsbD 7
      · exact hround
      · exact congrArg (fun r => (r.1, r.2.1, r.2.2 + 1)) hround
    · exact hround
  have h3 : s3.clusters = s2.clusters :=
    (dropOwned_clusters _ _).trans (foldl_leaves State.clusters (fun t e => State.modCore_clusters t e _) _ s2)
  have h4 : s4.clusters = s3.clusters := by
    unfold s4
    split
    · exact (incidentsPass_parts _ _).2
    · rfl
  have h5 : (s5.cluster k).roundOf id.val = (s4.cluster k).roundOf id.val := by
    unfold s5
    split
    · rfl
    · exact (ckptCheck_roundOf _ k id.val).trans (congrArg (fun x => x.roundOf id.val) (cluster_of_clusters (noteRelease_parts _ _ _ _).2 k))
  rw [catchSendJoin_roundOf, h5, cluster_of_clusters (h4.trans h3), h2]

/-- A release without PHASE sets no transfer going. -/
theorem noteRelease_between {s : State} (hb : s.job.between = .none) (k : ClusterAt) (e : CatchSt) {arg : BitVec 8} (h : arg.getLsbD 5 = false)
    (q : BitVec 3) : (s.noteRelease k e arg).job.between ≠ .transfer q false := by
  have hphase : changesPhase arg = false := by rw [changesPhase, h, Bool.and_false]
  unfold State.noteRelease
  extract_lets ckpt phase q' kids job j area j'
  split
  · exact between_ne_transfer hb q
  · rw [if_pos (by rw [show phase = false from hphase]; rfl)]
    change j'.between ≠ _
    unfold j'
    split
    · exact nofun
    · exact between_ne_transfer hb q

theorem incidentEvent_job (s : State) (x : Incident) (v : BitVec 8) : (s.incidentEvent x v).job = s.job := State.raiseEvent_job _ _ _ _

theorem incidentsPass_job (s : State) (n : BitVec 48) : (s.incidentsPass n).job = s.job :=
  foldl_leaves State.job (fun t x => incidentEvent_job t x 1) _ { s with genhan := _ }

theorem ckptCheck_job (s : State) (k : ClusterAt) : (s.ckptCheck k).job = s.job := by
  unfold State.ckptCheck
  dsimp only
  split
  · rfl
  · split <;> rfl

theorem catchSendJoin_job (s : State) (k : ClusterAt) (id : Nat) : (s.catchSendJoin k id).job = s.job := by
  unfold State.catchSendJoin State.coxSend
  dsimp only
  split
  · exact (job_of_sendsOnly (sendsOnly_injectAny _ _ _)).trans (State.modCluster_job _ _ _)
  · rfl

theorem catchRelease_between {s : State} (hb : s.job.between = .none) (k : ClusterAt) (id : Fin 16) {arg : BitVec 8} {faulted : Bool}
    (h : faulted = true ∨ arg.getLsbD 5 = false) (q : BitVec 3) : (s.catchRelease k id arg faulted).job.between ≠ .transfer q false := by
  unfold State.catchRelease
  extract_lets e s1 n e' s2 s3 s4 s5
  have h1 : s1.job = s.job := job_of_sendsOnly (sendsOnly_foldl (fun t d => sendsOnly_injectAny t _ _) _ s)
  have h3 : s3.job = s.job := by
    have hcores : s2.coresOnly s3 := (coresOnly_modCores s2 k _).trans (coresOnly_dropOwned _ _)
    rw [hcores]
    exact h1
  have h4 : s4.job = s.job := by
    unfold s4
    split
    · exact (incidentsPass_job _ _).trans h3
    · exact h3
  rw [catchSendJoin_job]
  unfold s5
  rw [State.count_job]
  rcases h with rfl | h
  · exact between_ne_transfer (s := s4) (by rw [h4, hb]) q
  · split
    · exact between_ne_transfer (s := s4) (by rw [h4, hb]) q
    · rw [ckptCheck_job]
      exact noteRelease_between (by rw [h4, hb]) k e h q

/-- What is then due in the job leaves the ended round as the release has left it. -/
theorem catchRelease_jobStep {s : State} (hb : s.job.between = .none) (k : ClusterAt) (id : Fin 16) {arg : BitVec 8} {faulted : Bool}
    (h : faulted = true ∨ arg.getLsbD 5 = false) :
    (((s.catchRelease k id arg faulted).jobStep).cluster k).roundOf id.val = (((s.cluster k).catchOf id.val).released + 1, [],
      if faulted = false ∧ arg.getLsbD 7 = true then (s.cluster k).step + 1 else (s.cluster k).step) ∧
    ((s.catchRelease k id arg faulted).jobStep).deep = s.deep := by
  have hstep := jobSignals_jobStep (catchRelease_between hb k id h)
  rw [cluster_of_clusters hstep.clusters]
  exact ⟨catchRelease_roundOf s k id arg faulted, hstep.deep.trans (deep_of_guarded (guarded_catchRelease s k id arg faulted))⟩

theorem exec_catchRelease {s : State} {k : ClusterAt} {id : Fin 16} (arg : BitVec 8) (faulted : Bool) (hw : s.waits (s.isCatch k 1 id.val) = false)
    (hv : ((s.cluster k).catchOf id.val).valid = true) :
    exec (.catchRelease k id arg faulted) s = .next (((s.arrived (s.isCatch k 1 id.val) 0).catchRelease k id arg faulted).jobStep) := by
  refine congrArg Host.Outcome.next ((onArrival_taken _ hw).trans ?_)
  rw [cluster_arrived, hv, if_pos rfl]

/-! ### A stop at a cluster (R200, R201) -/

/-- A cluster that was running or held, behind a stop that it has recorded. -/
def Cluster.stopNoted (x : Cluster) : Cluster :=
  if x.run = .running then
    if x.accepted then { x with ckptStopped := true, ckptId := none, armed := false }
    else { x with run := .stopped, stallLine := false, ckptId := none, armed := false }
  else { x with armed := false, ckptId := none }

theorem stopCluster_cluster {s : State} {k : ClusterAt} (h : (s.cluster k).run = .running ∨ (s.cluster k).run = .held) :
    (s.stopCluster k).cluster k = (s.cluster k).stopNoted := by
  unfold State.stopCluster Cluster.stopNoted
  extract_lets x t
  have hcores : (t.modCores k fun _ y => { y with age := [], ageRaised := [], blocked := none }).clusters = t.clusters := by
    rw [coresOnly_modCores t k _]
  rw [if_pos h, State.cluster_modCluster_same, cluster_of_clusters hcores]
  unfold t
  rw [State.cluster_modCluster_same]
  by_cases hrun : (s.cluster k).run = .running
  · simp only [hrun, if_true]
    split <;> rfl
  · simp only [hrun, if_false]

theorem stopCluster_job (s : State) (k : ClusterAt) : (s.stopCluster k).job = s.job := by
  unfold State.stopCluster
  extract_lets x t
  split
  · have hcores := coresOnly_modCores t k fun _ y => { y with age := [], ageRaised := [], blocked := none }
    rw [State.modCluster_job, hcores]
    rfl
  · rfl

theorem stopCluster_jobStep {s : State} {k : ClusterAt} (hb : s.job.between = .none) (h : (s.cluster k).run = .running ∨ (s.cluster k).run = .held) :
    ((s.stopCluster k).jobStep).cluster k = (s.cluster k).stopNoted ∧ ((s.stopCluster k).jobStep).deep = s.deep := by
  have hstep := jobSignals_jobStep (between_ne_transfer (s := s.stopCluster k) (by rw [stopCluster_job, hb]))
  rw [cluster_of_clusters hstep.clusters, stopCluster_cluster h]
  exact ⟨rfl, hstep.deep.trans (deep_of_guarded (guarded_stopCluster s k))⟩

/-- A cox records a stop with the tag of its job. -/
theorem exec_stop_cluster {s : State} {k : ClusterAt} {tag : BitVec 32} (origin : BitVec 12) (hw : s.waits (s.isStop k tag) = false)
    (htag : tag = s.job.tag) (hb : s.job.between = .none) (h : (s.cluster k).run = .running ∨ (s.cluster k).run = .held) :
    ∃ t, exec (.stop (some k) tag origin) s = .next t ∧ t.cluster k = (s.cluster k).stopNoted ∧ t.deep = s.deep := by
  have hnoted := stopCluster_jobStep (s := s.arrived (s.isStop k tag) 0) (k := k) (by rw [State.arrived_job, hb]) (by rw [cluster_arrived]; exact h)
  rw [cluster_arrived, State.arrived_deep] at hnoted
  refine ⟨_, congrArg Host.Outcome.next ((onArrival_taken _ hw).trans ?_), hnoted⟩
  rw [State.arrived_job, if_pos htag]

/-! ### A stop at Genhan (R200, R201) -/

theorem sendFrame_genhan (s : State) (i : Nat) (b : Bytes) (nak : Bool) : (s.sendFrame i b nak).genhan = s.genhan := by
  unfold State.sendFrame
  dsimp only
  split <;> rfl

theorem sendFlits_genhan (n : Nat) (s : State) (i : Nat) (l : List OutFlit) : (s.sendFlits n i l).genhan = s.genhan := by
  induction n generalizing s l with
  | zero => rfl
  | succ n ih =>
    unfold State.sendFlits
    split
    · rfl
    · exact (ih _ _).trans (sendFrame_genhan (s.putPort i _) _ _ _)

theorem sendPacket_genhan (s : State) (i : Nat) (p : Packet) : (s.sendPacket i p).genhan = s.genhan := by
  unfold State.sendPacket State.flush
  dsimp only
  split
  · exact sendFlits_genhan _ _ _ _
  · rfl

/-- A stop that goes on over the ports changes none of Genhan's records. -/
theorem stopOut_frame (s : State) (tag : BitVec 32) (origin : BitVec 12) (count : BitVec 64) (skip : Option Nat) :
    s.signalsOnly (s.stopOut tag origin count skip) ∧ (s.stopOut tag origin count skip).genhan = s.genhan :=
  ⟨signalsOnly_foldl (fun u _ => signalsOnly_sendPacket u _ _) _ s, foldl_leaves State.genhan (fun u _ => sendPacket_genhan u _ _) _ s⟩

theorem haltJob_genhan (s : State) (reason status : Nat) (fault : Bool) (src : Option LCore) (step : BitVec 48) :
    (s.haltJob reason status fault src step).genhan = s.genhan := by
  unfold State.haltJob
  split
  · exact State.setJob_genhan _ _ _ _ _ _
  · rfl

theorem haltJob_job {s : State} (h : s.job.state = .armed ∨ s.job.state = .running) (reason status : Nat) (fault : Bool) (src : Option LCore)
    (step : BitVec 48) : (s.haltJob reason status fault src step).job = { s.job with
      state := .halting, reason := BitVec.ofNat 8 reason, status := BitVec.ofNat 8 status, faultArose := fault, between := s.leftBetween
      window := false, relReady := [], relOwnDone := false } := by
  unfold State.haltJob
  rw [if_pos h, setJob_job]

theorem sendsOnly_stopCoxes (s : State) (tag : BitVec 32) : s.sendsOnly (s.stopCoxes tag) :=
  sendsOnly_foldl (fun u _ => sendsOnly_genhanSend u _) _ s

section
variable {s : State} {tag : BitVec 32} {origin : BitVec 12} {count : BitVec 64} (port : Option Nat)

theorem stopReceived_seen (h : s.genhan.stopsSeen.contains (tag, origin, count) = true) : s.stopReceived tag origin count port = s := if_pos h

/-- A stop that Genhan has not seen is recorded, and halts a running job of its tag. -/
theorem stopReceived_new (h : s.genhan.stopsSeen.contains (tag, origin, count) = false) (htag : tag = s.job.tag) (hrun : s.job.state = .running) :
    s.jobSignals (s.stopReceived tag origin count port) ∧ (s.stopReceived tag origin count port).job.state = .halting ∧
    (s.stopReceived tag origin count port).job.reason = 2 ∧
    (s.stopReceived tag origin count port).genhan.stopsSeen = s.genhan.stopsSeen ++ [(tag, origin, count)] := by
  generalize hu : (s.recordStop tag origin count).stopOut tag origin count port = u
  obtain ⟨hsig, hgen⟩ := stopOut_frame (s.recordStop tag origin count) tag origin count port
  rw [hu] at hsig hgen
  have hjob : u.job = s.job := by rw [hsig]; rfl
  have hlive : u.job.state = .armed ∨ u.job.state = .running := by rw [hjob, hrun]; exact Or.inr rfl
  have he : s.stopReceived tag origin count port = (u.haltJob 2 0 false).stopCoxes tag := by
    unfold State.stopReceived
    rw [h, if_neg Bool.false_ne_true]
    dsimp only
    rw [hu, if_pos ⟨by rw [hjob]; exact htag, hlive⟩]
  have hsend := sendsOnly_stopCoxes (u.haltJob 2 0 false) tag
  have hj := (job_of_sendsOnly hsend).trans (haltJob_job hlive 2 0 false none 0)
  rw [he]
  refine ⟨?_, by rw [hj], by rw [hj]; rfl, ?_⟩
  · exact (hsig.jobSignals.after rfl).trans ((jobSignals_haltJob u 2 0 false none 0).trans (signalsOnly_of_sendsOnly hsend).jobSignals)
  · have hg : ((u.haltJob 2 0 false).stopCoxes tag).genhan = { s.genhan with stopsSeen := s.genhan.stopsSeen ++ [(tag, origin, count)] } := by
      rw [hsend]
      exact (haltJob_genhan _ _ _ _ _ _).trans hgen
    rw [hg]

end

/-! ### Stall ages (R191) -/

section
variable {c : CoreAt} {isCatch : Bool} {ep : Fin 32} {s : State} {n : Nat} (hn : n = if isCatch then 32 + ep.val % 16 else ep.val)
include hn

/-- The event STALL_AGE leaves the mark of its episode at the core. -/
theorem exec_stallAge_raises (hlog : s.ageLog c n ≠ 0) (hage : 2 ^ (s.ageLog c n + 11) ≤ SMap.get 0 (s.core c).age n)
    (hr : SMap.get false (s.core c).ageRaised n = false) :
    ∃ t, exec (.stallAge c isCatch ep) s = .next t ∧
      (s.putCore c { s.core c with ageRaised := SMap.set false (s.core c).ageRaised n true }).reportsOnly t := by
  subst hn
  exact ⟨_, if_pos ⟨hlog, hage, hr⟩, reportsOnly_raiseEvent _ _ _ _⟩

theorem exec_stallAge_raised (hr : SMap.get false (s.core c).ageRaised n = true) : exec (.stallAge c isCatch ep) s = .next s := by
  subst hn
  exact if_neg fun h => Bool.false_ne_true (h.2.2.symm.trans hr)

end

/-! ### The obligation -/

/-- Settles O21: joins and releases of a catch, stops at a cluster and at Genhan, and the one STALL_AGE of an episode. -/
theorem catchesStopsAndStallAges : Obligations.CatchesStopsAndStallAges := by
  refine ⟨fun k id s e he hb => ⟨fun arg faulted src hw hv hn => ?_, fun arg faulted src hw hno hrun => ?_, fun arg faulted hw hv hp => ?_⟩,
    fun s origin tag => ⟨fun k hw htag hb hrun hacc => ?_, fun k hw htag hb hrun hacc => ?_, fun k hw htag hb hrun => ?_,
      fun n hw htag hrun hn => ?_⟩,
    fun c isCatch ep s n hn hlog hage hr => ?_⟩
  · have hkept := childJoins_open_jobStep (s := s.arrived (s.isJoin k id.val src) 0) arg faulted src (he.trans (by rw [cluster_arrived]))
      (by rw [State.arrived_job, hb]) hv hn
    rw [cluster_arrived] at hkept
    exact ⟨_, exec_catchJoin arg faulted hw, hkept⟩
  · have hhalted := childJoins_refused_jobStep (s := s.arrived (s.isJoin k id.val src) 0) arg faulted src (he.trans (by rw [cluster_arrived]))
      (by rw [State.arrived_job, hb]) hno (by rw [cluster_arrived]; exact hrun)
    rw [cluster_arrived] at hhalted
    exact ⟨_, exec_catchJoin arg faulted hw, by rw [hhalted], by rw [hhalted], by rw [hhalted]⟩
  · have hended := catchRelease_jobStep (s := s.arrived (s.isCatch k 1 id.val) 0) (by rw [State.arrived_job, hb]) k id hp
    rw [cluster_arrived, State.arrived_deep, ← he] at hended
    obtain ⟨hround, hdeep⟩ := hended
    obtain ⟨hreleased, hrest⟩ := Prod.mk.inj hround
    obtain ⟨hchildren, hindex⟩ := Prod.mk.inj hrest
    exact ⟨_, exec_catchRelease arg faulted hw (by rw [← he]; exact hv), hreleased, hchildren, hindex, hdeep⟩
  · obtain ⟨t, ht, hcl, hdeep⟩ := exec_stop_cluster origin hw htag hb (Or.inl hrun)
    refine ⟨t, ht, ?_⟩
    simp [hcl, hdeep, Cluster.stopNoted, hrun, hacc]
  · obtain ⟨t, ht, hcl, -⟩ := exec_stop_cluster origin hw htag hb (Or.inl hrun)
    refine ⟨t, ht, ?_⟩
    simp [hcl, Cluster.stopNoted, hrun, hacc]
  · obtain ⟨t, ht, hcl, -⟩ := exec_stop_cluster origin hw htag hb (Or.inr hrun)
    refine ⟨t, ht, ?_⟩
    simp [hcl, Cluster.stopNoted, hrun]
  · have hexec : ∃ port, exec (.stop none tag origin) s = .next ((s.arrived (isStopFor tag origin) 0).stopReceived tag origin n port) := by
      subst hn
      exact ⟨_, congrArg Host.Outcome.next (onArrival_taken _ hw)⟩
    obtain ⟨port, hexec⟩ := hexec
    refine ⟨fun hnew => ?_, fun hold => ?_⟩
    · obtain ⟨hsig, hstate, hreason, hseen⟩ := stopReceived_new (s := s.arrived (isStopFor tag origin) 0) port
        (by rw [State.arrived_genhan, hnew]) (by rw [State.arrived_job, htag]) (by rw [State.arrived_job, hrun])
      rw [State.arrived_genhan] at hseen
      exact ⟨_, hexec, hstate, hreason, hseen, hsig.cores.trans (State.arrived_cores _ _ _), hsig.clusters.trans (State.arrived_clusters _ _ _)⟩
    · rw [stopReceived_seen port (by rw [State.arrived_genhan, hold])] at hexec
      exact ⟨_, hexec, State.arrived_job _ _ _, State.arrived_genhan _ _ _, State.arrived_cores _ _ _, State.arrived_clusters _ _ _⟩
  · obtain ⟨t, ht, hrep⟩ := exec_stallAge_raises hn hlog hage hr
    have hcore : t.core c = { s.core c with ageRaised := SMap.set false (s.core c).ageRaised n true } := by
      rw [hrep]
      exact State.core_putCore_same _ _ _
    refine ⟨t, ht, hcore, by rw [hrep]; rfl, by rw [hrep]; rfl, exec_stallAge_raised hn ?_⟩
    rw [hcore]
    exact SMap.get_set_same _ _ _ _

end Sys2Proof.Machine

/-! PROOFS. Packets in the mesh: hops, forks, packets that are discarded or lost, entry from a source, and failed links (R203 to R208, R212, R213,
R218). -/

namespace Sys2Proof

/-- The output of a branch of a multicast copy, and the copy as it will stand beyond (R218). -/
def Packet.branch (p : Packet) (b : Option Nat × Packet) : Nat × Packet :=
  match b.1 with
  | some d => (d, b.2.moved (beyond p.at_ d) d)
  | none => (4, b.2.taken)

end Sys2Proof

namespace Sys2Proof.Machine

/-! ### One flit moves (R204, R207, R208) -/

/-- Only the mesh, the credits and pointers of its ports, and counters change. -/
def State.flitsOnly (s t : State) : Prop := t = { s with mesh := t.mesh, spent := t.spent, cuts := t.cuts, rr := t.rr, ctr := t.ctr }

theorem State.flitsOnly.refl (s : State) : s.flitsOnly s := rfl

theorem State.flitsOnly.trans {s t u : State} (h : s.flitsOnly t) (g : t.flitsOnly u) : s.flitsOnly u := by
  unfold State.flitsOnly at *
  rw [g, h]

theorem countFlit_eq (s : State) (p : Packet) (o : Nat × Packet) : s.countFlit p o = { s with ctr := (s.countFlit p o).ctr } := by
  unfold State.countFlit
  dsimp only
  (repeat' split) <;> rfl

theorem flitsOnly_enter (s : State) (p : Packet) (o : Nat × Packet) : s.flitsOnly (s.enter p o) := by
  unfold State.enter
  rw [countFlit_eq]
  rfl

theorem enter_mesh (s : State) (p : Packet) (o : Nat × Packet) : (s.enter p o).mesh = oneMore s.mesh (decide (p.gone = 0)) o.2 := by
  unfold State.enter
  rw [countFlit_eq]

theorem enter_spent (s : State) (p : Packet) (o : Nat × Packet) :
    (s.enter p o).spent = if o.2.out then s.spent else SMap.set 0 s.spent o.2.buffer (SMap.get 0 s.spent o.2.buffer + 1) := by
  unfold State.enter
  rw [countFlit_eq]

theorem enter_rr (s : State) (p : Packet) (o : Nat × Packet) :
    (s.enter p o).rr = SMap.set 0 s.rr (linkNo o.2.link) (ptrAfter (SMap.get 0 s.rr (linkNo o.2.link)) p.lane) := by
  unfold State.enter
  rw [countFlit_eq]

theorem flitsOnly_freeFlits (s : State) (p : Packet) (n : Nat) : s.flitsOnly (s.freeFlits p n) := by
  unfold State.freeFlits
  split <;> rfl

/-- A flit that leaves a buffer of the mesh gives its credit back. -/
theorem freeFlits_spent (s : State) {p : Packet} (n : Nat) (h : p.out = false) :
    (s.freeFlits p n).spent = SMap.set 0 s.spent p.buffer (SMap.get 0 s.spent p.buffer - n) := by
  unfold State.freeFlits
  rw [if_neg (by rw [h]; exact Bool.false_ne_true)]

theorem lessAt_eq (l : List Packet) (i : Nat) (p : Packet) :
    lessAt l i p = if p.gone + 1 = p.flits then l.eraseIdx i else l.set i { p with gone := p.gone + 1, wait := none } := by
  unfold lessAt oneLess
  by_cases h : p.gone + 1 = p.flits
  · simp only [if_pos h]
  · simp only [if_neg h]

/-- The first flit of a packet opens its place beyond each output that it enters. -/
theorem enterAll_mesh {p : Packet} (hg : p.gone = 0) (l : List (Nat × Packet)) (s : State) :
    (l.foldl (fun s o => s.enter p o) s).mesh = s.mesh ++ l.map fun o => { o.2 with come := 1 } := by
  induction l generalizing s with
  | nil => exact (List.append_nil _).symm
  | cons o l ih =>
    have ho : (s.enter p o).mesh = s.mesh ++ [{ o.2 with come := 1 }] := (enter_mesh s p o).trans (if_pos (decide_eq_true hg))
    rw [List.foldl_cons, ih, ho, List.append_assoc, List.map_cons, List.singleton_append]

theorem flitsOnly_enterAll (p : Packet) (l : List (Nat × Packet)) (s : State) : s.flitsOnly (l.foldl (fun s o => s.enter p o) s) :=
  foldl_related (R := State.flitsOnly) State.flitsOnly.refl State.flitsOnly.trans (fun u o => flitsOnly_enter u p o) l s

theorem flitsOnly_advance (s : State) (i : Nat) (p : Packet) : s.flitsOnly (s.advance i p) :=
  ((flitsOnly_freeFlits { s with mesh := lessAt s.mesh i p } p 1).trans (flitsOnly_enterAll p (s.asks p) _) :
    ({ s with mesh := lessAt s.mesh i p } : State).flitsOnly _)

/-! ### Where a packet goes (R213, R218) -/

theorem asks_onward {s : State} {p : Packet} {d : Nat} {b : Nat × Nat} (hout : p.out = false) (hf : p.forking = false) (hs : s.stopsAt p = false)
    (h : p.passing.step = some (d, b)) : s.asks p = [(d, p.passing.moved b d)] := by
  simp [State.asks, Packet.asks, hout, hf, hs, h]

theorem asks_taken {s : State} {p : Packet} (hout : p.out = false) (hf : p.forking = false) (hs : s.stopsAt p = false)
    (h : p.passing.step = none) : s.asks p = [(if p.exit = 0 then 4 else 5, p.passing.taken)] := by
  simp [State.asks, Packet.asks, hout, hf, hs, h]

theorem asks_forking {s : State} {p : Packet} (hout : p.out = false) (hf : p.forking = true) : s.asks p = p.fork.map p.branch := by
  have hs : s.stopsAt p = false := by simp [State.stopsAt, hf]
  rw [State.asks, hs, if_neg Bool.false_ne_true, Packet.asks, hout, if_neg Bool.false_ne_true, if_pos hf]
  rfl

/-! ### A hop (R203 to R206, R210) -/

section
variable {s : State} {i : Nat} {p : Packet}

theorem exec_packetHop (hi : s.mesh[i]? = some p) : exec (.packetHop i) s = .next (s.hop i p false) := by
  change execPacketHop i s = _
  unfold execPacketHop
  rw [hi]

theorem hop_behind (hf : firstInBuffer s.mesh i p = false) : s.hop i p false = s := if_pos (by simp [hf])

variable (hout : p.out = false) (hon : s.onAt p.at_.1 p.at_.2 = true) (hf : firstInBuffer s.mesh i p = true)
include hout hon hf

theorem hop_malformed (hp : p.proper = false) : s.hop i p false = s.meshProto p := by simp [State.hop, hout, hon, hf, hp]

theorem hop_intoDead (hp : p.proper = true) (hd : s.intoDead p = true) : s.hop i p false = s.lose p.id := by
  simp [State.hop, hout, hon, hf, hp, hd]

theorem hop_stays (hp : p.proper = true) (hd : s.intoDead p = false) (h : s.delayedAt p = true ∨ s.mayGo p = false ∨ s.wins i p = false) :
    s.hop i p false = s := by
  rcases h with h | h | h
  all_goals simp [State.hop, hout, hon, hf, hp, hd, h]

theorem hop_advances (hp : p.proper = true) (hd : s.intoDead p = false) (hl : s.delayedAt p = false) (hg : s.mayGo p = true) (hw : s.wins i p = true) :
    s.hop i p false = s.advance i p := by
  simp [State.hop, hout, hon, hf, hp, hd, hl, hg, hw]

end

/-- One flit through the one output that its packet asks for (R204, R207, R208). -/
theorem advance_onward {s : State} {i : Nat} {p : Packet} {o : Nat × Packet} (hout : p.out = false) (ho : s.asks p = [o]) :
    (s.advance i p).mesh = oneMore (lessAt s.mesh i p) (decide (p.gone = 0)) o.2 ∧
    (s.advance i p).spent = (let f := SMap.set 0 s.spent p.buffer (SMap.get 0 s.spent p.buffer - 1)
      if o.2.out then f else SMap.set 0 f o.2.buffer (SMap.get 0 f o.2.buffer + 1)) ∧
    (s.advance i p).rr = SMap.set 0 s.rr (linkNo o.2.link) (ptrAfter (SMap.get 0 s.rr (linkNo o.2.link)) p.lane) := by
  have h : s.advance i p = (({ s with mesh := lessAt s.mesh i p } : State).freeFlits p 1).enter p o := by rw [State.advance, ho]; rfl
  rw [h, enter_mesh, enter_spent, enter_rr, State.freeFlits_mesh, State.freeFlits_rr, freeFlits_spent _ 1 hout]
  exact ⟨rfl, rfl, rfl⟩

/-- A multicast copy of one flit at its fork goes on in all its branches (R218). -/
theorem advance_forking {s : State} {i : Nat} {p : Packet} (hout : p.out = false) (hf : p.forking = true) (hg : p.gone = 0) (hl : p.flits = 1) :
    (s.advance i p).mesh = s.mesh.eraseIdx i ++ p.fork.map fun b => { (p.branch b).2 with come := 1 } := by
  rw [State.advance, enterAll_mesh hg, State.freeFlits_mesh, asks_forking hout hf, List.map_map, lessAt_eq, if_pos (by rw [hg, hl])]
  rfl

/-! ### Packets that are lost (R205, R206) -/

theorem lose_mesh (s : State) (id : Nat) : (s.lose id).mesh = s.mesh.filter fun q => decide (q.id ≠ id) :=
  congrArg (List.filter _) (foldl_leaves State.mesh (f := fun s q => s.freeFlits q q.here) (fun t q => State.freeFlits_mesh t q q.here)
    (s.mesh.filter fun q => decide (q.id = id)) s)

/-- A packet with a reserved header is lost, and Genhan notes the router. -/
theorem meshProto_spec (s : State) (p : Packet) : (s.meshProto p).mesh = s.mesh.filter (fun q => decide (q.id ≠ p.id)) ∧
    (∃ x, (s.meshProto p).genhan.notes = s.genhan.notes ++ [(0x000A, x)]) ∧ (s.meshProto p).cores = s.cores ∧ (s.meshProto p).clusters = s.clusters ∧
    (s.meshProto p).deep = s.deep := by
  unfold State.meshProto
  extract_lets g u
  have hl := repliesOnly_lose u p.id
  refine ⟨(State.raiseEvent_mesh _ _ _ _).trans (lose_mesh u p.id), ⟨BitVec.ofNat 64 (p.row.toNat * 1024 + p.col.toNat), ?_⟩, ?_, ?_, ?_⟩
  · rw [State.raiseEvent_genhan, hl]
  · rw [State.raiseEvent_cores, hl]
  · rw [State.raiseEvent_clusters, hl]
  · rw [State.raiseEvent_deep, hl]

/-! ### Entry from a source (R203, R210, R213) -/

/-- The cox at its source gives a packet its routing header, and changes nothing else of it. -/
theorem routed_eq {s : State} {p q : Packet} (h : s.routed p = some q) : q = { p with route := q.route } := by
  unfold State.routed at h
  dsimp only at h
  split at h
  · obtain rfl := Option.some.inj h
    rfl
  · split at h
    · obtain ⟨d, -, rfl⟩ := Option.map_eq_some_iff.1 h
      rfl
    · obtain rfl := Option.some.inj h
      rfl

/-- The link by which a packet enters from a companion does not turn on its routing header. -/
theorem link_of_route {p : Packet} (r : BitVec 128) (h : p.port.toNat < 4) : ({ p with route := r } : Packet).link = p.link := by
  unfold Packet.link
  dsimp only
  generalize p.port.toNat = n at h
  match n, h with
  | 0, _ | 1, _ | 2, _ | 3, _ => rfl

theorem winsEdge_of_route (s : State) (j : Nat) (p : Packet) (r : BitVec 128) : s.winsEdge j { p with route := r } = s.winsEdge j p := by
  unfold State.winsEdge
  rcases Nat.lt_or_ge p.port.toNat 4 with h | h
  · rw [link_of_route r h]
  · simp [h]

theorem exec_packetHop_waiting {s : State} {j : Nat} {p : Packet} (hj : s.waiting[j]? = some p) :
    exec (.packetHop (s.mesh.length + j)) s = .next (s.injectFlit j p false) := by
  change execPacketHop _ s = _
  unfold execPacketHop
  rw [List.getElem?_eq_none (Nat.le_add_right _ _), Nat.add_sub_cancel_left, hj]

/-- The first flit of a packet that wins its way in. -/
theorem injectFlit_enters {s : State} {j : Nat} {p q : Packet} (hf : s.firstAtSource j p = true) (hwait : p.wait = none)
    (hdelay : s.entryDelay p = none) (hr : s.routed p = some q) (hm : s.mayEnter q = true) (hw : s.winsEdge j q = true) :
    s.injectFlit j p false = s.comeIn j q := by
  have hwp : s.winsEdge j p = true := by
    rw [routed_eq hr, winsEdge_of_route] at hw
    exact hw
  simp [State.injectFlit, hf, hwait, hdelay, hr, hm, hwp]

/-- The first flit of a packet stands in the buffer of its port, last of all. -/
theorem comeIn_first (s : State) (j : Nat) {q : Packet} (hg : q.gone = 0) :
    (s.comeIn j q).mesh = s.mesh ++ [{ q.arriving with come := 1 }] ∧
    (s.comeIn j q).waiting = (if q.gone + 1 = q.flits then s.waiting.eraseIdx j else s.waiting.set j { q with gone := q.gone + 1, wait := none }) ∧
    (s.comeIn j q).spent = SMap.set 0 s.spent q.buffer (SMap.get 0 s.spent q.buffer + 1) ∧
    (s.comeIn j q).cores = s.cores ∧ (s.comeIn j q).clusters = s.clusters ∧ (s.comeIn j q).deep = s.deep := by
  rw [← lessAt_eq]
  unfold State.comeIn
  extract_lets n k u
  have hu : u = { s with ctr := u.ctr } := by
    simp only [u]
    split <;> rfl
  rw [decide_eq_true hg, hu]
  exact ⟨rfl, rfl, rfl, rfl, rfl, rfl⟩

/-! ### A link fails (R206, R212) -/

theorem repliesOnly_dropFailed (s : State) (l : Nat × Nat × Nat) : s.repliesOnly (s.dropFailed l) := by
  unfold State.dropFailed
  split
  · exact repliesOnly_lose _ _
  · exact .refl s

/-- A link out of use, its retries counted, and, for a hull channel, injection held. -/
def State.linkDead (s : State) (a : Nat × Nat) (port : Nat) (hull : Bool) : State :=
  let t := ((s.dropFailed (linkKey a port)).killLink a port hull).countRetries a port
  if hull then t.hold else t

theorem linkDead_genhan (s : State) (a : Nat × Nat) (port : Nat) (hull : Bool) :
    (s.linkDead a port hull).genhan.reports = s.genhan.reports ∧
    (s.linkDead a port hull).genhan.deadLinks = s.genhan.deadLinks ++ (if hull then [linkKey a port, linkInto a port] else [linkKey a port]) := by
  have hd : (s.dropFailed (linkKey a port)).genhan = s.genhan := by rw [repliesOnly_dropFailed]
  have hc (t : State) : (t.countRetries a port).genhan = t.genhan := by
    unfold State.countRetries
    dsimp only
    split <;> rfl
  unfold State.linkDead
  cases hull
  · simp [hc, State.killLink, hd]
  · simp [hc, State.killLink, hd, State.hold]

theorem linkDead_frame (s : State) (a : Nat × Nat) (port : Nat) (hull : Bool) :
    (s.linkDead a port hull).mesh = (s.dropFailed (linkKey a port)).mesh ∧ (s.linkDead a port hull).cores = s.cores ∧
    (s.linkDead a port hull).clusters = s.clusters ∧ (s.linkDead a port hull).deep = s.deep ∧ (s.linkDead a port hull).job = s.job := by
  have hd := repliesOnly_dropFailed s (linkKey a port)
  have hc (t : State) : t.countRetries a port = { t with ctr := (t.countRetries a port).ctr } := by
    unfold State.countRetries
    dsimp only
    split <;> rfl
  unfold State.linkDead
  dsimp only
  rw [hc]
  split
  · exact ⟨rfl, by rw [hd]; rfl, by rw [hd]; rfl, by rw [hd]; rfl, by rw [hd]; rfl⟩
  · exact ⟨rfl, by rw [hd]; rfl, by rw [hd]; rfl, by rw [hd]; rfl, by rw [hd]; rfl⟩

/-- The code and the class of a fault stand in its entry (R429). -/
theorem faultEntry_code (s : State) (k : ClusterAt) (f : Raised) : (faultEntry s k f).extractLsb' 0 16 = BitVec.ofNat 16 f.code := by
  unfold faultEntry
  exact BitVec.extractLsb'_append_eq_right

theorem faultEntry_class (s : State) (k : ClusterAt) (f : Raised) : (faultEntry s k f).extractLsb' 50 2 = f.cls := by
  unfold faultEntry
  exact (BitVec.extractLsb'_append_eq_of_le (by decide)).trans ((BitVec.extractLsb'_append_eq_of_le (by decide)).trans
    ((BitVec.extractLsb'_append_eq_of_le (by decide)).trans BitVec.extractLsb'_append_eq_right))

theorem exec_meshLinkFail (s : State) (col row : BitVec 10) (port : Fin 5) (hull : Bool) :
    ∃ (u : State) (k : ClusterAt) (f : Raised), (s.linkDead (col.toNat, row.toNat) port.val hull).reportsOnly u ∧ f.code = 0x21 ∧
      f.cls = (if hull then 1 else 2) ∧
      exec (.meshLinkFail col row port hull) s =
        .next { u with genhan := { u.genhan with reports := u.genhan.reports ++ [{ entry := faultEntry u k f }] } } :=
  ⟨_, _, _, reportsOnly_raiseEvent _ _ _ _, rfl, rfl, rfl⟩

/-! ### The obligation -/

/-- Settles O16: a hop by the branches of `State.hop`, the entry of a first flit, and the failure of a link. -/
theorem packetsHopAndFailedLinks : Obligations.PacketsHopAndFailedLinks := by
  refine ⟨fun s => ⟨fun i p hi hout hon => ?hop, fun j p q hj hf hg hwait hdelay hr hm hw => ?entry⟩, fun col row port hull s l hl => ?fail⟩
  case hop =>
    rw [exec_packetHop hi]
    refine ⟨fun hf hp hd hl hgo hw => ⟨fun o hfork hstop ho => ?onward, fun hfork hg h1 => ?fork⟩, fun h => ?stays, fun hf hp => ?malformed,
      fun hf hp hd => ?lost⟩
    case onward =>
      have hasks : s.asks p = [o] := by
        subst ho
        cases h : p.passing.step with
        | none => exact asks_taken hout hfork hstop h
        | some x => exact asks_onward hout hfork hstop h
      obtain ⟨hmesh, hspent, hrr⟩ := advance_onward (i := i) hout hasks
      rw [hop_advances hout hon hf hp hd hl hgo hw]
      refine ⟨_, lessAt s.mesh i p, rfl, lessAt_eq _ _ _, fun hg => ?_, fun hg => ?_, hspent, hrr, flitsOnly_advance s i p⟩
      · exact hmesh.trans (if_pos (decide_eq_true hg))
      · exact hmesh.trans (if_neg (by simp [hg]))
    case fork =>
      rw [hop_advances hout hon hf hp hd hl hgo hw]
      refine ⟨_, rfl, (advance_forking hout hfork hg h1).trans (congrArg _ (List.map_congr_left fun b _ => ?_)), flitsOnly_advance s i p⟩
      obtain ⟨d, r⟩ := b
      cases d <;> rfl
    case stays =>
      cases hf : firstInBuffer s.mesh i p with
      | false => rw [hop_behind hf]
      | true =>
        obtain ⟨hp, hd, h⟩ := h.resolve_left (by simp [hf])
        rw [hop_stays hout hon hf hp hd h]
    case malformed =>
      rw [hop_malformed hout hon hf hp]
      exact ⟨_, rfl, meshProto_spec s p⟩
    case lost =>
      rw [hop_intoDead hout hon hf hp hd]
      refine ⟨_, rfl, lose_mesh s p.id, ?_, ?_⟩
      · rw [repliesOnly_lose]
      · rw [repliesOnly_lose]
  case entry =>
    have hgq : q.gone = 0 := by rw [routed_eq hr]; exact hg
    rw [exec_packetHop_waiting hj, injectFlit_enters hf hwait hdelay hr hm hw]
    exact ⟨_, rfl, comeIn_first s j hgq⟩
  case fail =>
    subst hl
    obtain ⟨u, k, f, hu, hcode, hcls, hexec⟩ := exec_meshLinkFail s col row port hull
    obtain ⟨hrep, hdead⟩ := linkDead_genhan s (col.toNat, row.toNat) port.val hull
    obtain ⟨hmesh, hcores, hclusters, hdeep, hjob⟩ := linkDead_frame s (col.toNat, row.toNat) port.val hull
    have hgen : u.genhan = (s.linkDead (col.toNat, row.toNat) port.val hull).genhan := by rw [hu]
    refine ⟨_, faultEntry u k f, hexec, ?_, ?_, ?_, ?_, ?_, ?_, ?_, ?_, ?_⟩
    · exact congrArg (· ++ _) ((congrArg Genhan.reports hgen).trans hrep)
    · rw [faultEntry_code, hcode]
      rfl
    · rw [faultEntry_class, hcls]
    · exact (congrArg Genhan.deadLinks hgen).trans hdead
    · exact (by rw [hu] : u.mesh = _).trans hmesh
    · exact (by rw [hu] : u.cores = _).trans hcores
    · exact (by rw [hu] : u.clusters = _).trans hclusters
    · exact (by rw [hu] : u.deep = _).trans hdeep
    · exact (by rw [hu] : u.job = _).trans hjob

end Sys2Proof.Machine

/-! PROOFS. Reductions at their nodes: contributions and partials, returns, results, and the accesses of the reduction unit (R219, R223 to R225). -/

namespace Sys2Proof.Machine

/-! ### Slots of an entry -/

theorem slot_putSlot_same (r : RedSt) (j : Fin 2) (t : RedSlot) : (r.putSlot j t).slot j = t := by
  match j with
  | 0 => rfl
  | 1 => rfl

theorem slot_putSlot_other (r : RedSt) (j : Fin 2) (t : RedSlot) : (r.putSlot j t).slot (1 - j) = r.slot (1 - j) := by
  match j with
  | 0 => rfl
  | 1 => rfl

/-- A slot that is written leaves the entry and its other counts alone. -/
theorem putSlot_frame (r : RedSt) (j : Fin 2) (t : RedSlot) : (r.putSlot j t).entry = r.entry ∧ (r.putSlot j t).opened = r.opened ∧
    (r.putSlot j t).parentSpent = r.parentSpent := by
  match j with
  | 0 => exact ⟨rfl, rfl, rfl⟩
  | 1 => exact ⟨rfl, rfl, rfl⟩

/-- The slots are `j` and `1 - j`: with neither meeting a condition there is no oldest that does. -/
theorem oldest_none {r : RedSt} {f : RedSlot → Bool} (j : Fin 2) (h : f (r.slot j) = false) (g : f (r.slot (1 - j)) = false) : r.oldest f = none := by
  have both : f r.s0 = false ∧ f r.s1 = false := by
    match j with
    | 0 => exact ⟨h, g⟩
    | 1 => exact ⟨g, h⟩
  rw [RedSt.oldest, both.1, both.2]

theorem redOf_putRed (x : Cluster) (i : Nat) (r : RedSt) : (x.putRed i r).redOf i = r := SMap.get_set_same _ _ _ _

theorem redOf_of_clusters {s t : State} (h : t.clusters = s.clusters) (k : ClusterAt) (i : Nat) :
    (t.cluster k).redOf i = (s.cluster k).redOf i := congrArg (fun x : Cluster => x.redOf i) (cluster_of_clusters h k)

@[simp] theorem unitAccess_cluster (s : State) (k j : ClusterAt) (r : RedSt) (ops : List FabricOp) (fin : FabricEnd) :
    (s.unitAccess k r ops fin).cluster j = s.cluster j := rfl

/-- An access of the unit joins the Reduce queue of BUF_CORE (R219). -/
theorem unitAccess_core (s : State) (k : ClusterAt) (r : RedSt) (ops : List FabricOp) (fin : FabricEnd) :
    (s.unitAccess k r ops fin).core (coreIn k r.bufCore) =
      (s.core (coreIn k r.bufCore)).enqueue 0 { ops := ops, fin := fin, cycle := s.now (coreIn k r.bufCore) } := State.core_modCore_same _ _ _

/-! ### The unit takes a packet (R219, R223) -/

@[simp] theorem node_arrived (s : State) (f : Packet → Bool) (i : Nat) (k : ClusterAt) : (s.arrived f i).node k = s.node k := by
  rw [State.node, State.coxName, State.lcore, State.logical, State.entryOf, State.arrived_pkg, State.arrived_repairMap]
  rfl

theorem unitStopped_of_busy {s : State} {k : ClusterAt} (ho : s.offline k = false) (hb : s.unitBusy k = true) : s.unitStopped k = true := by
  simp [State.unitStopped, ho, hb]

section
variable {s : State} {k : ClusterAt} {h : BitVec 128} {elems : Bytes} {i : Fin 16} (ho : s.offline k = false) (hd : (s.cluster k).drained = false)
  (hb : s.unitBusy k = false) (hi : (s.cluster k).redIndex (redRid h) = some i)
include ho hd hb hi

theorem exec_reductionContribution (link : BitVec 3) (hw : s.waits (s.isRed k 6 h elems) 36 = false) :
    exec (.reductionContribution k h link elems) s = .next ((s.arrived (s.isRed k 6 h elems) 36).nodeArrive k i h link elems) := by
  refine (if_neg (by simp [State.unitStopped, hd, hb])).trans (congrArg Host.Outcome.next ((onArrival_taken _ hw).trans ?_))
  rw [offline_arrived, ho, cluster_arrived, hi]
  rfl

theorem exec_reductionReturn (hw : s.waits (s.isRed k 7 h elems) 36 = false) :
    exec (.reductionReturn k h elems) s = .next ((s.arrived (s.isRed k 7 h elems) 36).returnArrives k i h elems) := by
  refine (if_neg (by simp [State.unitStopped, hd, hb])).trans (congrArg Host.Outcome.next ((onArrival_taken _ hw).trans ?_))
  rw [offline_arrived, ho, cluster_arrived, hi]
  rfl

end

/-- A result where its target core has slots reserved for it is recorded there (R225). -/
theorem exec_reductionResult {s : State} {c : CoreAt} {h : BitVec 128} {elems : Bytes} {i : Fin 16} {r : RedSt} (ho : s.offline (clusterOf c) = false)
    (hq : (s.core c).fabricRoom 0 = true) (hw : s.waits (s.isFor c 7 (h.setWidth 256) elems) c.core.val = false)
    (hi : (s.cluster (clusterOf c)).redIndex (redRid h) = some i) (hr : r = (s.cluster (clusterOf c)).redOf i.val)
    (hroom : (s.core c).redRoom r i = true) :
    exec (.reductionResult c h elems) s =
      .next ((s.arrived (s.isFor c 7 (h.setWidth 256) elems) c.core.val).modCore c fun x => x.redRecord r i h elems (s.now c)) := by
  subst hr
  refine congrArg Host.Outcome.next ((onQueue_taken _ hq hw).trans ?_)
  rw [offline_arrived, ho, cluster_arrived, hi]
  dsimp only
  rw [core_arrived, hroom, now_arrived]
  rfl

/-! ### A contribution at its node (R223) -/

/-- The one core of a contribution in the mask of a slot. -/
theorem cpop_one_core (c : BitVec 6) : (BitVec.ofNat 64 (2 ^ c.toNat)).cpop.toNat = 1 := by
  revert c
  decide

/-- A slot behind a contribution of a core of its cluster: `old` are the elements that stood there. -/
def RedSt.contributed (r : RedSt) (j : Fin 2) (h : BitVec 128) (elems old : Bytes) : RedSlot :=
  let t := if (r.slot j).state = 0 then ({ order := r.opened } : RedSlot) else r.slot j
  let e := t.entered ||| BitVec.ofNat 64 (2 ^ (redSrc h).core.toNat)
  { t with
    state := if e.cpop.toNat + t.children.length = r.mask.cpop.toNat + r.children then 2 else 1
    header := (r.combine t old h elems).1
    entered := e }

theorem contributed_first {r : RedSt} {j : Fin 2} (h : BitVec 128) (elems old : Bytes) (hst : (r.slot j).state = 0) :
    r.contributed j h elems old = {
      order := r.opened, state := if 1 = r.mask.cpop.toNat + r.children then 2 else 1, header := (r.combine { order := r.opened } old h elems).1
      entered := BitVec.ofNat 64 (2 ^ (redSrc h).core.toNat) } := by
  have he : (0 : BitVec 64) ||| BitVec.ofNat 64 (2 ^ (redSrc h).core.toNat) = BitVec.ofNat 64 (2 ^ (redSrc h).core.toNat) := BitVec.zero_or
  unfold RedSt.contributed
  rw [if_pos hst]
  dsimp only
  rw [he, cpop_one_core]
  rfl

theorem contributed_joined {r : RedSt} {j : Fin 2} {t : BitVec 64} {v : BitVec 128 × Bytes × Option (BitVec 2)} (h : BitVec 128) (elems old : Bytes)
    (hst : (r.slot j).state ≠ 0) (hv : v = r.combine (r.slot j) old h elems)
    (ht : t = (r.slot j).entered ||| BitVec.ofNat 64 (2 ^ (redSrc h).core.toNat)) :
    r.contributed j h elems old = { r.slot j with
      header := v.1, entered := t
      state := if t.cpop.toNat + (r.slot j).children.length = r.mask.cpop.toNat + r.children then 2 else 1 } := by
  subst hv ht
  unfold RedSt.contributed
  rw [if_neg hst]

/-- Genhan notes where a chunk faulted, if it did (R223). -/
def State.redNoted (s : State) (k : ClusterAt) (h : BitVec 128) (code : Option (BitVec 2)) : State :=
  match code with
  | some c => s.noteRed k h c
  | none => s

theorem redNoted_eq (s : State) (k : ClusterAt) (h : BitVec 128) (code : Option (BitVec 2)) :
    s.redNoted k h code = { s with genhan := (s.redNoted k h code).genhan } := by
  cases code <;> rfl

section
variable {s : State} {k : ClusterAt} {i : Fin 16} {j : Fin 2} {r : RedSt} {h : BitVec 128} (hr : r = (s.cluster k).redOf i.val)
  (hloc : ((redSrc h).pkg, (redSrc h).die, (redSrc h).cl) = ((s.node k).pkg, (s.node k).die, (s.node k).cl))
include hr hloc

/-- A contribution enters its slot, which goes back to the buffer area. -/
theorem combined_eq {v : BitVec 128 × Bytes × Option (BitVec 2)} (link : BitVec 3) (elems old : Bytes)
    (hv : v = r.combine (if (r.slot j).state = 0 then { order := r.opened } else r.slot j) old h elems) :
    s.combined k i j h link elems old = ((s.redNoted k h v.2.2).modCluster k fun x => x.putRed i.val {
      (x.redOf i.val).putSlot j (r.contributed j h elems old) with
      opened := if (r.slot j).state = 0 then ((x.redOf i.val).putSlot j (r.contributed j h elems old)).opened + 1
        else ((x.redOf i.val).putSlot j (r.contributed j h elems old)).opened }).unitAccess k r
          (writeOps (r.slotBase j) (slotBytes (r.contributed j h elems old) ++ v.2.1)) (.slot i j) := by
  subst hr hv
  unfold State.combined RedSt.contributed
  by_cases hst : (((s.cluster k).redOf i.val).slot j).state = 0
  · simp only [if_pos hloc, if_pos hst, decide_eq_true_eq]
    rfl
  · simp only [if_pos hloc, if_neg hst, decide_eq_true_eq]
    rfl

theorem combined_spec {v : BitVec 128 × Bytes × Option (BitVec 2)} (link : BitVec 3) (elems old : Bytes)
    (hv : v = r.combine (if (r.slot j).state = 0 then { order := r.opened } else r.slot j) old h elems) :
    ((s.combined k i j h link elems old).cluster k).redOf i.val =
      { r.putSlot j (r.contributed j h elems old) with opened := if (r.slot j).state = 0 then r.opened + 1 else r.opened } ∧
    ((s.combined k i j h link elems old).cluster k).run = (s.cluster k).run ∧
    (s.combined k i j h link elems old).core (coreIn k r.bufCore) = (s.core (coreIn k r.bufCore)).enqueue 0 {
      ops := writeOps (r.slotBase j) (slotBytes (r.contributed j h elems old) ++ v.2.1), fin := .slot i j, cycle := s.now (coreIn k r.bufCore) } := by
  have hu := redNoted_eq s k h v.2.2
  rw [combined_eq hr hloc link elems old hv]
  generalize s.redNoted k h v.2.2 = u at hu
  have hcl : u.cluster k = s.cluster k := by rw [hu]; rfl
  have hcore : u.core (coreIn k r.bufCore) = s.core (coreIn k r.bufCore) := by rw [hu]; rfl
  rw [unitAccess_core, unitAccess_cluster, State.cluster_modCluster_same, redOf_putRed, State.core_modCluster, hcl, hcore, ← hr]
  refine ⟨by rw [(putSlot_frame r j _).2.1], rfl, ?_⟩
  congr 2
  exact (congrArg Cluster.cycle (State.cluster_modCluster_same u k _)).trans
    (congrArg Cluster.cycle hcl : (u.cluster k).cycle = (s.cluster k).cycle)

theorem nodeArrive_joins (link : BitVec 3) (elems : Bytes) (hs : r.slotFor (s.node k) (redSrc h) = some j)
    (hm : r.mask.getLsbD (redSrc h).core.toNat = true) (hst : (r.slot j).state ≠ 0) (hf : redFault (r.slot j).header = false) :
    s.nodeArrive k i h link elems = s.readSlot k r j (.combine i j h link elems) := by
  subst hr
  unfold State.nodeArrive
  dsimp only
  rw [hs]
  dsimp only
  rw [if_neg (by simp [hloc, hm]), if_pos ⟨hst, hf⟩]

theorem nodeArrive_opens (link : BitVec 3) (elems : Bytes) (hs : r.slotFor (s.node k) (redSrc h) = some j)
    (hm : r.mask.getLsbD (redSrc h).core.toNat = true) (hst : (r.slot j).state = 0) :
    s.nodeArrive k i h link elems = s.combined k i j h link elems [] := by
  subst hr
  unfold State.nodeArrive
  dsimp only
  rw [hs]
  dsimp only
  rw [if_neg (by simp [hloc, hm]), if_neg fun hn => hn.1 hst]

end

/-! ### A return at its node (R224, R225) -/

/-- A return that every contributor of the cluster can record frees the slot of its chunk. -/
theorem returnChunk_cluster {s : State} {k : ClusterAt} {i : Fin 16} {r : RedSt} {h : BitVec 128} (j : Fin 2) (elems : Bytes)
    (hr : r = (s.cluster k).redOf i.val) (hroom : ∀ c ∈ s.treeCores k r h, (s.core (coreIn k c)).redRoom r i = true) :
    (s.returnChunk k i j h elems).cluster k = (s.cluster k).putRed i.val (r.putSlot j {}) := by
  unfold State.returnChunk
  rw [← hr]
  dsimp only
  rw [if_neg (by simpa [List.all_eq_true] using hroom), unitAccess_cluster, State.cluster_modCluster_same, hr]
  refine congrArg (fun x : Cluster => x.putRed i.val ((x.redOf i.val).putSlot j {})) (cluster_of_clusters
    ((foldl_leaves State.clusters (fun _ _ => ?_) _ _).trans (foldl_leaves State.clusters (fun _ _ => ?_) _ _)) k)
  · rfl
  · rfl

/-- One parent credit of an entry is free again. -/
def State.parentFreed (s : State) (k : ClusterAt) (i : Fin 16) : State :=
  s.modCluster k fun x => x.putRed i.val { x.redOf i.val with parentSpent := (x.redOf i.val).parentSpent - 1 }

section
variable {s : State} {k : ClusterAt} {i : Fin 16} {j : Fin 2} {r : RedSt} {h : BitVec 128} {elems : Bytes} (hr : r = (s.cluster k).redOf i.val)
include hr

theorem parentFreed_cluster : (s.parentFreed k i).cluster k = (s.cluster k).putRed i.val { r with parentSpent := r.parentSpent - 1 } := by
  subst hr
  exact State.cluster_modCluster_same _ _ _

variable (hj : r.oldest (fun t => decide (t.state = 2) && !t.waiting) = some j)
include hj

/-- A return where no other slot waits for a parent credit. -/
theorem returnArrives_eq
    (hn : ((((s.parentFreed k i).returnChunk k i j h elems).cluster k).redOf i.val).oldest (fun t => t.waiting) = none) :
    s.returnArrives k i h elems = (s.parentFreed k i).returnChunk k i j h elems := by
  unfold State.returnArrives
  rw [← hr]
  dsimp only
  rw [hj]
  unfold State.parentFreed at hn ⊢
  dsimp only
  rw [hn]

/-- A return frees the slot of its chunk and one parent credit. -/
theorem returnArrives_cluster (hroom : ∀ c ∈ s.treeCores k r h, (s.core (coreIn k c)).redRoom r i = true) (hw : (r.slot (1 - j)).waiting = false) :
    ((s.returnArrives k i h elems).cluster k).redOf i.val = { r with parentSpent := r.parentSpent - 1 }.putSlot j {} ∧
    ((s.returnArrives k i h elems).cluster k).run = (s.cluster k).run := by
  have ht := parentFreed_cluster hr
  have hu : ((s.parentFreed k i).returnChunk k i j h elems).cluster k =
      ((s.parentFreed k i).cluster k).putRed i.val ({ r with parentSpent := r.parentSpent - 1 }.putSlot j {}) :=
    returnChunk_cluster j elems (by rw [ht, redOf_putRed]) hroom
  rw [returnArrives_eq hr hj, hu, redOf_putRed, ht]
  · exact ⟨rfl, rfl⟩
  · rw [hu, redOf_putRed]
    refine oldest_none j ?_ ?_
    · rw [slot_putSlot_same]
    · rw [slot_putSlot_other]
      exact hw

end

/-! ### The accesses of the unit (R223, R224) -/

theorem fabricDone_combine {s : State} {c : CoreAt} {a : FabricJob} {i : Fin 16} {j : Fin 2} {h : BitVec 128} {link : BitVec 3} {elems : Bytes}
    (hf : a.fin = .combine i j h link elems) : s.fabricDone c a = s.combined (clusterOf c) i j h link elems a.got := by
  rw [State.fabricDone, hf]
  dsimp only
  rw [State.fabricEnd, hf]

theorem fabricDone_slot {s : State} {c : CoreAt} {a : FabricJob} {i : Fin 16} {j : Fin 2} (hf : a.fin = .slot i j) :
    s.fabricDone c a = s.redSlotWritten (clusterOf c) i j := by
  rw [State.fabricDone, hf]
  dsimp only
  rw [State.fabricEnd, hf]

theorem fabricDone_partial {s : State} {c : CoreAt} {a : FabricJob} {i : Fin 16} {j : Fin 2} (hf : a.fin = .partial_ i j) :
    s.fabricDone c a = s.partialRead (clusterOf c) i j a.got := by
  rw [State.fabricDone, hf]
  dsimp only
  rw [State.fabricEnd, hf]

section
variable {s : State} {k : ClusterAt} {i : Fin 16} {j : Fin 2} {r : RedSt} (hr : r = (s.cluster k).redOf i.val)
include hr

/-- A complete slot below the root that stands in the buffer area goes on to the parent. -/
theorem redSlotWritten_complete (hst : (r.slot j).state = 2) (hroot : r.root = false) :
    s.redSlotWritten k i j = (s.count 8 (coxUnit k) 0 3).sendPartial k i j := by
  unfold State.redSlotWritten
  rw [← hr]
  dsimp only
  rw [if_neg (fun hn => hn hst), hroot]
  exact if_pos rfl

/-- It spends a parent credit, and its elements are read. -/
theorem sendPartial_credited (hc : r.parentSpent < 2) :
    ((s.sendPartial k i j).cluster k).redOf i.val = { r.putSlot j { r.slot j with waiting := false } with parentSpent := r.parentSpent + 1 } ∧
    (s.sendPartial k i j).waiting = s.waiting := by
  unfold State.sendPartial
  rw [← hr]
  dsimp only
  rw [if_neg (by omega), State.readSlot, unitAccess_cluster, State.cluster_modCluster_same, redOf_putRed]
  exact ⟨rfl, rfl⟩

/-- With no parent credit it waits for one. -/
theorem sendPartial_waits (hc : 2 ≤ r.parentSpent) :
    ((s.sendPartial k i j).cluster k).redOf i.val = r.putSlot j { r.slot j with waiting := true } ∧ (s.sendPartial k i j).waiting = s.waiting := by
  unfold State.sendPartial
  rw [← hr]
  dsimp only
  rw [if_pos hc, State.cluster_modCluster_same, redOf_putRed]
  exact ⟨rfl, rfl⟩

/-- The partial of a slot waits at the unit's port for the parent (R227). -/
theorem partialRead_spec (elems : Bytes) : ∃ p, (s.partialRead k i j elems).waiting = s.waiting ++ [p] ∧ p.pkind = 6 ∧
    p.dst = { r.parent with core := unitCore } ∧ p.data = elems ∧ p.port = 5 ∧ (s.partialRead k i j elems).clusters = s.clusters := by
  subst hr
  refine ⟨_, rfl, ?_, ?_, ?_, rfl, rfl⟩
  all_goals
    unfold toward
    split <;> rfl

end

/-! ### The obligation -/

/-- Settles O20: contributions by `combined_spec`, returns by `returnArrives_cluster`, and each access of the unit by what follows its last operation. -/
theorem reductionsAtTheirNodes : Obligations.ReductionsAtTheirNodes := by
  refine ⟨⟨?contribution, ?busy, ?access⟩, ?returns⟩
  case contribution =>
    intro k h link elems s i j r v t1 b ho hd hb hw hi hr hbuf hs hp hdie hcl hm
    subst hbuf
    have hx := exec_reductionContribution ho hd hb hi link hw
    have hdeep (t : State) (ht : exec (.reductionContribution k h link elems) s = .next t) : t.deep = s.deep :=
      deep_of_guarded (guarded_execReductionContribution k h link elems s t ht)
    generalize hu : s.arrived (s.isRed k 6 h elems) 36 = u at hx
    have hnode : u.node k = s.node k := hu ▸ node_arrived s _ _ k
    have hcluster : u.cluster k = s.cluster k := hu ▸ cluster_arrived s _ _ k
    have hcore : u.core (coreIn k r.bufCore) = s.core (coreIn k r.bufCore) := hu ▸ core_arrived s _ _ _
    have hnow : u.now (coreIn k r.bufCore) = s.now (coreIn k r.bufCore) := hu ▸ now_arrived s _ _ _
    have hclusters : u.clusters = s.clusters := hu ▸ State.arrived_clusters s _ _
    have hr' : r = (u.cluster k).redOf i.val := hcluster ▸ hr
    have hs' : r.slotFor (u.node k) (redSrc h) = some j := hnode ▸ hs
    have hloc : ((redSrc h).pkg, (redSrc h).die, (redSrc h).cl) = ((u.node k).pkg, (u.node k).die, (u.node k).cl) := by rw [hnode, hp, hdie, hcl]
    refine ⟨fun hst hf => ?joins, fun hst hv ht1 => ?opens⟩
    case joins =>
      rw [nodeArrive_joins hr' hloc link elems hs' hm hst hf] at hx
      refine ⟨_, hx, ?_, hclusters, hdeep _ hx⟩
      rw [State.readSlot, unitAccess_core, hcore, hnow]
    case opens =>
      rw [nodeArrive_opens hr' hloc link elems hs' hm hst] at hx
      have hv' : v = r.combine (if (r.slot j).state = 0 then { order := r.opened } else r.slot j) [] h elems := by rw [if_pos hst]; exact hv
      obtain ⟨hred, hrun, hq⟩ := combined_spec hr' hloc link elems [] hv'
      have hslot : r.contributed j h elems [] = t1 := by rw [ht1, hv]; exact contributed_first h elems [] hst
      rw [hslot, if_pos hst] at hred
      refine ⟨_, hx, ?_, ?_, ?_, hrun.trans (congrArg Cluster.run hcluster), ?_, hdeep _ hx⟩
      · rw [hred]
        exact slot_putSlot_same r j t1
      · rw [hred]
        exact slot_putSlot_other r j t1
      · rw [hred]
      · rw [hq, hslot, hcore, hnow]
  case busy =>
    intro k h link elems s ho hb
    have hstop := unitStopped_of_busy ho hb
    exact ⟨if_pos hstop, if_pos hstop⟩
  case access =>
    intro c s x q job o i j r hx hw hu hg hpick ho hb hr
    subst hx
    obtain ⟨u, hexec, hstate, -⟩ := exec_fabricAccess_last hw hu hg hpick ho hb
    have hcluster (k : ClusterAt) : u.cluster k = s.cluster k := by rw [hstate]; rfl
    have hwait : u.waiting = s.waiting := by rw [hstate]
    have hr' : r = (u.cluster (clusterOf c)).redOf i.val := by rw [hcluster]; exact hr
    have hfin : ({ ((s.core c).performOp job o).2 with ops := [] } : FabricJob).fin = job.fin := performOp_fin _ _ _
    have hcount : r = ((u.count 8 (coxUnit (clusterOf c)) 0 3).cluster (clusterOf c)).redOf i.val := hr'
    refine ⟨fun h link elems v t0 hf hst hp hdie hcl hv ht0 => ?combine, fun hf hst hroot hc => ?credited, fun hf hst hroot hc => ?waits,
      fun hf => ?upward⟩
    case combine =>
      have hloc : ((redSrc h).pkg, (redSrc h).die, (redSrc h).cl) =
          ((u.node (clusterOf c)).pkg, (u.node (clusterOf c)).die, (u.node (clusterOf c)).cl) := by
        rw [show u.node (clusterOf c) = s.node (clusterOf c) by rw [hstate]; rfl, hp, hdie, hcl]
      rw [fabricDone_combine (hfin.trans hf)] at hexec
      obtain ⟨hred, -, -⟩ := combined_spec hr' hloc link elems ((s.core c).performOp job o).2.got rfl
      rw [if_neg hst, contributed_joined h elems _ hst hv ht0] at hred
      refine ⟨_, hexec, ?_, ?_, ?_, deep_of_guarded (guarded_execFabricAccess c s _ hexec)⟩
      · rw [hred]
        exact slot_putSlot_same r j _
      · rw [hred]
        exact slot_putSlot_other r j _
      · rw [hred]
        exact (putSlot_frame r j _).2.2
    case credited =>
      rw [fabricDone_slot (hfin.trans hf), redSlotWritten_complete hr' hst hroot] at hexec
      obtain ⟨hred, hsent⟩ := sendPartial_credited (j := j) hcount hc
      refine ⟨_, hexec, ?_, by rw [hred], hsent.trans hwait⟩
      rw [hred]
      exact slot_putSlot_same r j _
    case waits =>
      rw [fabricDone_slot (hfin.trans hf), redSlotWritten_complete hr' hst hroot] at hexec
      obtain ⟨hred, hsent⟩ := sendPartial_waits (j := j) hcount hc
      refine ⟨_, hexec, ?_, ?_, hsent.trans hwait⟩
      · rw [hred, slot_putSlot_same]
      · rw [hred, (putSlot_frame r j _).2.2]
    case upward =>
      rw [fabricDone_partial (hfin.trans hf)] at hexec
      obtain ⟨p, hp, hkind, hdst, hdata, hport, hcl⟩ := partialRead_spec (j := j) hr' ((s.core c).performOp job o).2.got
      exact ⟨_, p, hexec, hp.trans (by rw [hwait]), hkind, hdst, hdata, hport, hcl.trans (by rw [hstate])⟩
  case returns =>
    intro h elems s i r
    refine ⟨fun k j ho hd hb hw hi hr hj hroom hwait => ?_, fun c ho hq hw hi hr hroom => ?_⟩
    · have hx := exec_reductionReturn ho hd hb hi hw
      have htree : (s.arrived (s.isRed k 7 h elems) 36).treeCores k r h = s.treeCores k r h := by
        rw [State.treeCores, node_arrived]
        rfl
      obtain ⟨hred, hrun⟩ := returnArrives_cluster (s := s.arrived (s.isRed k 7 h elems) 36) (k := k) (i := i) (h := h) (elems := elems)
        (by rw [cluster_arrived]; exact hr) hj (by rw [htree]; simpa using hroom) hwait
      refine ⟨_, hx, ?_, ?_, hrun.trans (by rw [cluster_arrived]), deep_of_guarded (guarded_execReductionReturn k h elems s _ hx)⟩
      · rw [hred, slot_putSlot_same]
      · rw [hred, (putSlot_frame _ j _).2.2]
    · refine ⟨_, exec_reductionResult ho hq hw hi hr hroom, ?_, State.arrived_clusters _ _ _⟩
      rw [State.core_modCore_same, core_arrived]

end Sys2Proof.Machine

/-! PROOFS. Heat and coolant (R217, R393 to R398, R449). `State.heatView` is what the eclipse of a domain rests on; what the model does beside it leaves it
alone, one lemma for each operation. -/

namespace Sys2Proof.Machine

/-! ### What an eclipse rests on -/

/-- The switches of a domain, which neither its voltage nor its samples touch. -/
structure DomainSwitches where
  powered : Bool
  eclipsed : Bool
  quiesced : Bool
  fifoReset : Bool
  cause : BitVec 8

def Domain.switches (x : Domain) : DomainSwitches := ⟨x.powered, x.eclipsed, x.quiesced, x.fifoReset, x.cause⟩

/-- The switches of a domain, power, the job, and the parts behind detours. -/
structure HeatView where
  switches : DomainSwitches
  power : Power
  job : Job
  avoid : List Part

/-- The heat view of a state, for one domain. -/
def State.heatView (s : State) (d : Fin 61) : HeatView := ⟨(s.domain d).switches, s.power, s.job, s.genhan.avoid⟩

theorem heatView_foldl {α : Type} {f : State → α → State} {d : Fin 61} (h : ∀ s a, (f s a).heatView d = s.heatView d) (l : List α) (s : State) :
    (l.foldl f s).heatView d = s.heatView d := foldl_leaves (fun t => t.heatView d) h l s

section
variable (s : State) (d : Fin 61)

theorem heatView_raiseEvent (code : Nat) (src : Option LCore) (b : Bytes) : (s.raiseEvent code src b).heatView d = s.heatView d := by
  rw [reportsOnly_raiseEvent s code src b]
  rfl

theorem heatView_flushPart (p : Part) : (s.flushPart p).heatView d = s.heatView d := by
  rw [fabricOnly_flushPart s p]
  rfl

theorem heatView_lose (id : Nat) : (s.lose id).heatView d = s.heatView d := by
  rw [repliesOnly_lose s id]
  rfl

theorem heatView_answerOffline (a : Nat × Nat) (p : Packet) : (s.answerOffline a p).heatView d = s.heatView d := by
  unfold State.answerOffline State.redOffline State.toPackage
  dsimp only
  (repeat' split) <;> rfl

theorem heatView_evict (q : Part) : (s.evict q).heatView d = s.heatView d := by
  unfold State.evict
  refine (heatView_foldl (fun u i => ?_) _ _).trans (heatView_foldl (fun u i => heatView_lose u d i) _ _)
  split
  · exact (heatView_answerOffline _ _ _ _).trans (heatView_lose _ _ _)
  · rfl

theorem heatView_clearCores (k : ClusterAt) : (s.modCores k fun _ _ => {}).heatView d = s.heatView d :=
  heatView_foldl (f := fun s c => s.modCore c fun _ => {}) (fun _ _ => rfl) (coresOf k) s

theorem heatView_clearCluster (k : ClusterAt) : (s.clearCluster k).heatView d = s.heatView d := by
  have hc := heatView_clearCores s d k
  unfold State.clearCluster
  generalize s.modCores k (fun _ _ => {}) = t at hc
  exact hc

theorem heatView_strandOne (k : ClusterAt) : (s.strandOne k).heatView d = s.heatView d := by
  unfold State.strandOne
  split
  · rfl
  case h_2 cl _ =>
    extract_lets u g v
    have hv : v.heatView d = s.heatView d := (heatView_clearCluster _ d k).trans rfl
    clear_value v
    exact (heatView_raiseEvent _ d _ _ _).trans ((heatView_raiseEvent v.writeRepair d _ _ _).trans hv)

theorem heatView_strand (die : Fin 24) : (s.strand die).heatView d = s.heatView d := by
  unfold State.strand
  split
  · exact heatView_foldl (fun u k => heatView_strandOne u d k) _ _
  · rfl

theorem heatView_enterQuiesce (k : ClusterAt) : (s.enterQuiesce (.cluster k)).heatView d = s.heatView d :=
  calc (s.enterQuiesce (.cluster k)).heatView d
    _ = (((s.setQuiesce (.cluster k) true).quiesceEvent (.cluster k) false).flushPart (.cluster k)).heatView d := rfl
    _ = ((s.setQuiesce (.cluster k) true).quiesceEvent (.cluster k) false).heatView d := heatView_flushPart _ d _
    _ = (s.setQuiesce (.cluster k) true).heatView d := heatView_raiseEvent _ d _ _ _
    _ = s.heatView d := rfl

theorem heatView_retire (k : ClusterAt) : (s.retire k).heatView d = s.heatView d := by
  have hq : (if (s.cluster k).quiesced then s else s.enterQuiesce (.cluster k)).heatView d = s.heatView d := by
    split
    · rfl
    · exact heatView_enterQuiesce s d k
  have spares (u : State) : (u.spareCheck k.die).heatView d = u.heatView d := by
    unfold State.spareCheck
    dsimp only
    split
    · exact heatView_raiseEvent _ _ _ _ _
    · rfl
  unfold State.retire
  generalize (if (s.cluster k).quiesced then s else s.enterQuiesce (.cluster k)) = u at hq
  dsimp only
  split
  · exact (heatView_strand _ d _).trans ((spares _).trans hq)
  · exact (heatView_strand _ d _).trans hq

theorem heatView_setVoltages : s.setVoltages.heatView d = s.heatView d := by
  have trim (u : State) (k : ClusterAt) : (u.setTrim k).heatView d = u.heatView d := by
    unfold State.setTrim
    dsimp only
    split <;> rfl
  refine (heatView_foldl trim _ _).trans (heatView_foldl (fun t e => ?_) _ s)
  split
  · by_cases h : d = e
    · subst h
      unfold State.heatView
      rw [State.domain_modDomain_same]
      rfl
    · unfold State.heatView
      rw [State.domain_modDomain_ne t _ h]
      rfl
  · rfl

theorem heatView_applyEdit (e : RouteEdit) : (s.applyEdit e).heatView d = s.heatView d := by
  unfold State.applyEdit
  split <;> rfl

end

theorem atCheckpoint_of_job {s t : State} (h : t.job = s.job) : t.atCheckpoint = s.atCheckpoint := by
  rw [State.atCheckpoint, h]
  rfl

theorem tryWindow_away {s : State} (h : s.atCheckpoint = none) : s.tryWindow = s := by
  rw [State.tryWindow, h]

theorem power_of_heatView {s t : State} {d : Fin 61} (h : t.heatView d = s.heatView d) : t.power = s.power := congrArg HeatView.power h
theorem job_of_heatView {s t : State} {d : Fin 61} (h : t.heatView d = s.heatView d) : t.job = s.job := congrArg HeatView.job h
theorem avoid_of_heatView {s t : State} {d : Fin 61} (h : t.heatView d = s.heatView d) : t.genhan.avoid = s.genhan.avoid := congrArg HeatView.avoid h
theorem switches_of_heatView {s t : State} {d : Fin 61} (h : t.heatView d = s.heatView d) : (t.domain d).switches = (s.domain d).switches :=
  congrArg HeatView.switches h

/-! ### Hot domains (R393 to R395) -/

/-- A part that is fenced has detours, or they are wanted, with injection held. -/
theorem fence_spec (s : State) (q : Part) : (s.fence q).genhan.held = true ∧ (q ∈ (s.fence q).genhan.wanted ∨ q ∈ (s.fence q).genhan.avoid) := by
  refine ⟨rfl, ?_⟩
  change q ∈ (if s.genhan.avoid.contains q || s.genhan.wanted.contains q then s.genhan.wanted else s.genhan.wanted ++ [q]) ∨ q ∈ s.genhan.avoid
  by_cases h : q ∈ s.genhan.avoid ∨ q ∈ s.genhan.wanted
  · rw [if_pos (by simpa using h)]
    exact h.symm
  · rw [if_neg (by simpa using h)]
    exact .inl (List.mem_append_right _ List.mem_cons_self)

/-- A domain that is to go off is fenced. -/
theorem eclipse_fenced {s : State} {d : Fin 48} (cause : Nat) (unmap : Bool) (hp : (s.domain (halfDomain d)).powered = true)
    (he : s.power.eclipsing.any (fun e => decide (e.1 = d)) = false) :
    (s.eclipse d cause unmap).genhan.held = true ∧
    (.halfDie d ∈ (s.eclipse d cause unmap).genhan.wanted ∨ .halfDie d ∈ (s.eclipse d cause unmap).genhan.avoid) := by
  unfold State.eclipse
  rw [if_neg (by simp [hp, he])]
  dsimp only
  split
  · exact fence_spec _ _
  · exact fence_spec _ _

theorem clearCluster_genhan (s : State) (k : ClusterAt) : (s.clearCluster k).genhan = s.genhan := by
  have hc : (s.modCores k fun _ _ => {}).genhan = s.genhan := by rw [coresOnly_modCores s k fun _ _ => {}]
  unfold State.clearCluster
  generalize s.modCores k (fun _ _ => {}) = t at hc
  exact hc

/-- Clusters that lose their numbers change nothing of Genhan's records but the list of those that wait for a move. -/
theorem strandOne_genhan (s : State) (k : ClusterAt) : ∃ l, (s.strandOne k).genhan = { s.genhan with toRetire := l } := by
  unfold State.strandOne
  split
  · exact ⟨_, rfl⟩
  case h_2 cl _ =>
    extract_lets u g v
    have hv : v.genhan = { s.genhan with toRetire := s.genhan.toRetire.erase k } := (clearCluster_genhan _ k).trans rfl
    clear_value v
    exact ⟨_, (State.raiseEvent_genhan _ _ _ _).trans ((State.raiseEvent_genhan v.writeRepair _ _ _).trans hv)⟩

theorem strandAll_genhan (l : List ClusterAt) (s : State) : ∃ r, (l.foldl State.strandOne s).genhan = { s.genhan with toRetire := r } := by
  induction l generalizing s with
  | nil => exact ⟨_, rfl⟩
  | cons k l ih =>
    obtain ⟨a, ha⟩ := ih (s.strandOne k)
    obtain ⟨b, hb⟩ := strandOne_genhan s k
    exact ⟨a, ha.trans (by rw [hb])⟩

theorem strand_genhan (s : State) (die : Fin 24) : ∃ l, (s.strand die).genhan = { s.genhan with toRetire := l } := by
  unfold State.strand
  split
  · exact strandAll_genhan _ s
  · exact ⟨_, rfl⟩

/-- With no test in a domain there is none to be made void. -/
theorem voidTests_none {s : State} {l : List ClusterAt} (h : ∀ j ∈ l, (s.cluster j).testing = false) :
    l.foldl (fun s j => if (s.cluster j).testing then s.testOver j .void else s) s = s := by
  induction l with
  | nil => rfl
  | cons j l ih =>
    rw [List.foldl_cons, if_neg (by rw [h j List.mem_cons_self]; exact Bool.false_ne_true)]
    exact ih fun i hi => h i (List.mem_cons_of_mem j hi)

theorem untested_of_others {s : State} {k : ClusterAt} {l : List ClusterAt} (hk : (s.cluster k).testing = false)
    (h : ∀ j ∈ l, j ≠ k → (s.cluster j).testing = false) : ∀ j ∈ l, (s.cluster j).testing = false := by
  intro j hj
  by_cases hjk : j = k
  · rw [hjk, hk]
  · exact h j hj hjk

/-- A heat alarm is reported: the domain, the cluster, the sensor, the temperature and what follows. -/
def State.alarmed (s : State) (k : ClusterAt) (sensor : Bool) (temp : BitVec 12) : State :=
  s.raiseEvent 0x0028 none ([BitVec.ofNat 8 (domainOf k).val] ++ leBytes 2 k.pcl.val ++ [if sensor then 1 else 0] ++ leBytes 2 temp.toNat ++
    [BitVec.ofNat 8 (s.heatRow (domainOf k).val)])

theorem reportsOnly_alarmed (s : State) (k : ClusterAt) (sensor : Bool) (temp : BitVec 12) : s.reportsOnly (s.alarmed k sensor temp) :=
  reportsOnly_raiseEvent s 0x0028 none _

theorem voidTests_alarmed {s : State} {l : List ClusterAt} (k : ClusterAt) (sensor : Bool) (temp : BitVec 12)
    (hq : ∀ j ∈ l, (s.cluster j).testing = false) :
    l.foldl (fun s j => if (s.cluster j).testing then s.testOver j .void else s) (s.alarmed k sensor temp) = s.alarmed k sensor temp :=
  voidTests_none fun j hj => (congrArg Cluster.testing (cluster_of_clusters (State.raiseEvent_clusters s _ _ _) j)).trans (hq j hj)

/-- The stop's drain is owed, and after it the eclipse of a domain (R394). -/
def State.oweEclipse (s : State) (d : Fin 48) : State :=
  { s with power := { s.power with drainOwed := true, eclipseOwed := s.power.eclipseOwed ++ [d] } }

theorem domainOf_lt (k : ClusterAt) : (domainOf k).val < 48 := by
  have := k.die.isLt
  have := k.pcl.isLt
  simp only [domainOf]
  omega

section
variable {s : State} {k : ClusterAt} {d : Fin 48} (hd : d.val = (domainOf k).val) (sensor : Bool) (temp : BitVec 12)
include hd

theorem halfDomain_of_cluster : halfDomain d = domainOf k := Fin.ext hd

section
variable (hq : ∀ j ∈ halfClusters d.val, (s.cluster j).testing = false) (ht : (s.cluster k).testing = false) (hhot : 10 ≤ (s.cluster k).hotRun)
  (hp : (s.domain (domainOf k)).powered = true) (hdue : s.eclipseDue k = false)
include hq ht hhot hp hdue

/-- Heat in a domain that no job maps begins its eclipse. -/
theorem exec_heatAlarm_eclipse (hrow : s.heatRow d.val = 0) :
    exec (.heatAlarm k sensor temp) s = .next (((s.alarmed k sensor temp).eclipse d 1 true).strand k.die) := by
  have hv := voidTests_alarmed k sensor temp hq
  obtain rfl : d = ⟨_, domainOf_lt k⟩ := Fin.ext hd
  refine (if_neg (by simp [ht])).trans ((if_neg (by simp [hp, hdue, hhot])).trans ?_)
  refine (if_neg (by omega)).trans (congrArg (fun u : State => Host.Outcome.next ((u.eclipse _ 1 true).strand k.die)) ?_)
  exact (if_pos hrow).trans hv

/-- Heat in a domain that the job maps stops the job for a drain first (R394). -/
theorem exec_heatAlarm_stop (hrow : s.heatRow d.val = 1 ∨ s.heatRow d.val = 2) : exec (.heatAlarm k sensor temp) s =
    .next (((((s.alarmed k sensor temp).remapRequired 4 d.val).oweEclipse d).stopFor 4).strand k.die) := by
  have hv := voidTests_alarmed k sensor temp hq
  have hne : s.heatRow d.val ≠ 0 := by omega
  obtain rfl : d = ⟨_, domainOf_lt k⟩ := Fin.ext hd
  refine (if_neg (by simp [ht])).trans ((if_neg (by simp [hp, hdue, hhot])).trans ?_)
  refine (if_pos hrow).trans (congrArg (fun u : State => Host.Outcome.next (((u.oweEclipse _).stopFor 4).strand k.die)) ?_)
  exact (if_neg hne).trans (congrArg (State.remapRequired · 4 (domainOf k).val) hv)

end

end

/-- What stands of a domain that begins to go off, with the clusters of its die without numbers: it is in QUIESCE, still on, and fenced. -/
theorem eclipse_strand_spec {s : State} {d : Fin 48} (cause : Nat) (unmap : Bool) (die : Fin 24) (hp : (s.domain (halfDomain d)).powered = true)
    (he : s.power.eclipsing.any (fun e => decide (e.1 = d)) = false) {t : State} (ht : t = (s.eclipse d cause unmap).strand die) :
    (t.domain (halfDomain d)).powered = true ∧ (t.domain (halfDomain d)).quiesced = true ∧
    t.power.eclipsing = s.power.eclipsing ++ [(d, cause, unmap)] ∧ t.genhan.held = true ∧
    (.halfDie d ∈ t.genhan.wanted ∨ .halfDie d ∈ t.genhan.avoid) := by
  have hv := heatView_strand (s.eclipse d cause unmap) (halfDomain d) die
  obtain ⟨l, hg⟩ := strand_genhan (s.eclipse d cause unmap) die
  obtain ⟨hw, hdom⟩ := eclipse_begins cause unmap hp he
  have hf := eclipse_fenced cause unmap hp he
  rw [← ht] at hv hg
  generalize s.eclipse d cause unmap = u at *
  have hsw := switches_of_heatView hv
  have hon : (u.domain (halfDomain d)).powered = true ∧ (u.domain (halfDomain d)).quiesced = true := by
    rw [domain_of_domains hdom]
    split
    case isTrue hq => exact ⟨hp, hq⟩
    case isFalse =>
      have hm : (s.setQuiesce (.halfDie d) true).domain (halfDomain d) = _ := State.domain_modDomain_same s _ _
      rw [hm]
      exact ⟨hp, rfl⟩
  refine ⟨(congrArg DomainSwitches.powered hsw).trans hon.1, (congrArg DomainSwitches.quiesced hsw).trans hon.2,
    congrArg Power.eclipsing ((power_of_heatView hv).trans hw), ?_⟩
  rw [hg]
  exact hf

/-- A job that is not live neither runs nor is armed. -/
theorem jobLive_false {s : State} (h : s.jobLive = false) : s.job.state ≠ .running ∧ s.job.state ≠ .armed := by
  unfold State.jobLive at h
  constructor <;> (intro e; rw [e] at h; cases h)

/-- The stop for an eclipse leaves the domain on, and the drain and the eclipse owed. -/
theorem oweEclipse_stop_spec (s : State) (d : Fin 48) (dom : Fin 61) (die : Fin 24) {t : State} (ht : t = ((s.oweEclipse d).stopFor 4).strand die) :
    t.power.drainOwed = true ∧ t.power.eclipseOwed = s.power.eclipseOwed ++ [d] ∧ (t.domain dom).powered = (s.domain dom).powered ∧
    t.jobLive = false := by
  obtain ⟨hstop, hlive⟩ := stopFor_frame (s.oweEclipse d) 4
  have hv := heatView_strand ((s.oweEclipse d).stopFor 4) dom die
  rw [← ht] at hv
  generalize (s.oweEclipse d).stopFor 4 = u at *
  have hpow : t.power = (s.oweEclipse d).power := (power_of_heatView hv).trans hstop.power
  refine ⟨by rw [hpow]; rfl, by rw [hpow]; rfl, (congrArg DomainSwitches.powered (switches_of_heatView hv)).trans ?_, ?_⟩
  · exact congrArg Domain.powered (domain_of_domains hstop.domains dom)
  · rw [State.jobLive, job_of_heatView hv]
    exact hlive

/-! ### A domain goes off (R217, R395) -/

/-- A domain that is sealed off has its boundary held in reset. -/
theorem heatView_seal (s : State) (d : Fin 48) : (s.seal (.halfDie d)).heatView (halfDomain d) =
    { s.heatView (halfDomain d) with switches := { (s.domain (halfDomain d)).switches with fifoReset := true } } := by
  have h := State.domain_modDomain_same s (halfDomain d) fun x => { x with fifoReset := true }
  exact congrArg (fun x : Domain => HeatView.mk x.switches s.power s.job s.genhan.avoid) h

theorem heatView_switchOff (s : State) (d : Fin 48) (c : Nat) (unmap : Bool) : (s.switchOff (d, c, unmap)).heatView (halfDomain d) =
    { s.heatView (halfDomain d) with
      switches := { (s.domain (halfDomain d)).switches with powered := false, eclipsed := true, cause := BitVec.ofNat 8 c } } := by
  unfold State.switchOff
  extract_lets e dom u v w x
  have hv : v.heatView (halfDomain d) = s.heatView (halfDomain d) := by
    refine (heatView_foldl (fun t k => (heatView_clearCluster _ _ k).trans ?_) _ _).trans
      ((heatView_evict _ _ _).trans (heatView_flushPart _ _ _))
    split
    · split <;> rfl
    · rfl
  clear_value v
  have hw := State.domain_modDomain_same v (halfDomain d) fun x => { x with powered := false, eclipsed := true, cause := BitVec.ofNat 8 c, coolRun := 0 }
  calc (x.raiseEvent _ none _).heatView (halfDomain d)
    _ = w.heatView (halfDomain d) := heatView_raiseEvent x _ _ _ _
    _ = { v.heatView (halfDomain d) with
          switches := { (v.domain (halfDomain d)).switches with powered := false, eclipsed := true, cause := BitVec.ofNat 8 c } } :=
      congrArg (fun x : Domain => HeatView.mk x.switches v.power v.job v.genhan.avoid) hw
    _ = _ := by rw [hv, switches_of_heatView hv]

/-- The tables are edited around the parts that want detours, and the domain is sealed off. -/
def State.sealedOff (s : State) (edits : List RouteEdit) (d : Fin 48) : State := (edits.foldl State.applyEdit s.detoured).seal (.halfDie d)

theorem heatView_sealedOff (s : State) (edits : List RouteEdit) (d : Fin 48) : (s.sealedOff edits d).heatView (halfDomain d) =
    ⟨{ (s.domain (halfDomain d)).switches with fifoReset := true }, s.power, s.job, s.detoured.genhan.avoid⟩ := by
  have hv : (edits.foldl State.applyEdit s.detoured).heatView (halfDomain d) = s.detoured.heatView (halfDomain d) :=
    heatView_foldl (fun u e => heatView_applyEdit u _ e) edits s.detoured
  refine (heatView_seal _ d).trans ?_
  rw [hv, switches_of_heatView hv]
  rfl

/-- The domains whose detours stand go off. -/
def State.switchOffs (s : State) : State :=
  (s.power.eclipsing.filter fun e => s.genhan.avoid.contains (.halfDie e.1)).foldl State.switchOff
    { s with power := { s.power with eclipsing := s.power.eclipsing.filter fun e => !s.genhan.avoid.contains (.halfDie e.1) } }

theorem switchOffs_one {s : State} {e : Fin 48 × Nat × Bool} (he : s.power.eclipsing = [e]) (ha : s.genhan.avoid.contains (.halfDie e.1) = true) :
    s.switchOffs = ({ s with power := { s.power with eclipsing := [] } } : State).switchOff e := by
  unfold State.switchOffs
  have hoff : [e].filter (fun e => s.genhan.avoid.contains (.halfDie e.1)) = [e] := List.filter_cons_of_pos ha
  have hleft : [e].filter (fun e => !s.genhan.avoid.contains (.halfDie e.1)) = [] := List.filter_cons_of_neg (by rw [ha]; exact Bool.false_ne_true)
  rw [he, hoff, hleft]
  rfl

/-- Once its detours stand a domain goes off, and injection goes on. -/
theorem exec_routeTableChange_off {s : State} {d : Fin 48} {edits : List RouteEdit} {c : Nat} {u : Bool} (hmay : s.mayWriteTables = true)
    (hclear : s.partsClear = true) (hw : s.genhan.wanted = [.halfDie d]) (hu : s.genhan.unwanted = [])
    (he : s.power.eclipsing = [(d, c, u)]) : exec (.routeTableChange edits) s = .next ((({ s.sealedOff edits d with
      power := { s.power with eclipsing := [] } } : State).switchOff (d, c, u)).release.tryWindow) := by
  have hv := heatView_sealedOff s edits d
  have ha : (s.sealedOff edits d).genhan.avoid.contains (.halfDie d) = true := by
    rw [show (s.sealedOff edits d).genhan.avoid = s.detoured.genhan.avoid from congrArg HeatView.avoid hv]
    simp [State.detoured, hw]
  have hp : (s.sealedOff edits d).power = s.power := congrArg HeatView.power hv
  refine (if_pos (by rw [hmay, hclear]; rfl)).trans ?_
  rw [hu, hw, if_pos rfl]
  change Host.Outcome.next ((s.sealedOff edits d).switchOffs.release.tryWindow) = _
  rw [switchOffs_one (by rw [hp, he]) ha, hp]

/-- A domain off with its boundary in reset, and no eclipse left under way. -/
theorem sealedOff_switchOff_spec (s : State) (edits : List RouteEdit) (d : Fin 48) (c : Nat) (u : Bool) {t : State}
    (ht : t = ({ s.sealedOff edits d with power := { s.power with eclipsing := [] } } : State).switchOff (d, c, u)) :
    (t.domain (halfDomain d)).powered = false ∧ (t.domain (halfDomain d)).eclipsed = true ∧ (t.domain (halfDomain d)).fifoReset = true ∧
    (t.domain (halfDomain d)).cause = BitVec.ofNat 8 c ∧ t.power.eclipsing = [] ∧ t.job = s.job := by
  have hv := heatView_sealedOff s edits d
  have ho := heatView_switchOff ({ s.sealedOff edits d with power := { s.power with eclipsing := [] } } : State) d c u
  rw [← ht] at ho
  generalize s.sealedOff edits d = v at *
  have hsw : (v.domain (halfDomain d)).switches = { (s.domain (halfDomain d)).switches with fifoReset := true } := congrArg HeatView.switches hv
  have hj : v.job = s.job := congrArg HeatView.job hv
  have hto : (t.domain (halfDomain d)).switches = { (v.domain (halfDomain d)).switches with
    powered := false, eclipsed := true, cause := BitVec.ofNat 8 c } := congrArg HeatView.switches ho
  rw [hsw] at hto
  exact ⟨congrArg DomainSwitches.powered hto, congrArg DomainSwitches.eclipsed hto, congrArg DomainSwitches.fifoReset hto,
    congrArg DomainSwitches.cause hto, congrArg (fun x => x.power.eclipsing) ho, (congrArg HeatView.job ho).trans hj⟩

/-! ### A stress test in the heat is void (R368) -/

/-- A void test only defers the next one. -/
def State.deferTest (s : State) (k : ClusterAt) : State :=
  s.modCluster k fun x => { x with deferred := if x.deferred.isNone then some 0 else x.deferred }

/-- A stress test that ends void in no checkpoint: what its end leaves, and the deferral. -/
theorem testOver_void {s : State} {k : ClusterAt} (hs : (s.cluster k).stress = true) (hin : s.job.inPlace.contains k = false) :
    s.testOver k .void = ((s.testLeft k false).testEvent k .void).deferTest k := by
  have hr : s.ruled k .void = .void := ite_self _
  unfold State.testOver
  dsimp only
  rw [hr, if_pos rfl, if_neg (by rw [hin]; exact Bool.false_ne_true), endTest_eq s k .void hs, hr]
  rfl

/-- Heat ends a stress test without a verdict; `t` is what its end leaves. -/
theorem exec_heatAlarm_test {s : State} {k : ClusterAt} (sensor : Bool) (temp : BitVec 12) (ht : (s.cluster k).testing = true)
    (hs : (s.cluster k).stress = true) (hhot : 10 ≤ (s.cluster k).hotRun) (hc : s.atCheckpoint = none) (hin : s.job.inPlace.contains k = false) :
    ∃ t, TestLeft k s t ∧ exec (.heatAlarm k sensor temp) s = .next ((t.deferTest k).modCluster k fun y => { y with hotRun := 0 }) := by
  have hl := (testLeft_spec s k false).event .void
  have hover := testOver_void hs hin
  generalize (s.testLeft k false).testEvent k .void = t at hl hover
  have hjob : (t.deferTest k).job = s.job := (State.modCluster_job t k _).trans hl.job
  refine ⟨t, hl, (if_pos ht).trans ((congrArg Host.Outcome.next (if_pos hhot)).trans ?_)⟩
  rw [State.testEnds, hover, tryWindow_away ((atCheckpoint_of_job hjob).trans hc)]

/-! ### A domain returns (R395, R217) -/

/-- A part that returns behind its detours waits for the tables, and injection is held for them. -/
theorem returnPart_waits {s : State} {q : Part} (h : s.genhan.avoid.contains q = true) :
    (s.returnPart q).domains = s.domains ∧ (s.returnPart q).genhan.held = true ∧ q ∈ (s.returnPart q).genhan.unwanted := by
  unfold State.returnPart
  dsimp only
  rw [if_pos h, h]
  refine ⟨rfl, rfl, ?_⟩
  change q ∈ if (true && !s.genhan.unwanted.contains q) then s.genhan.unwanted ++ [q] else s.genhan.unwanted
  by_cases hu : q ∈ s.genhan.unwanted
  · rw [if_neg (by simpa using hu)]
    exact hu
  · rw [if_pos (by simpa using hu)]
    exact List.mem_append_right _ List.mem_cons_self

/-- The domain has power again, with its clusters in the reset state at their voltages, and those whose known-answer run failed are retired. -/
def State.repowered (s : State) (d : Fin 48) (fails : List TileFail) : State :=
  fails.foldl (fun s f => if (domainOf f.at_).val = d.val then ((s.testEvent f.at_ (.fail f.core f.kind f.out)).noteDiag f).retire f.at_ else s)
    ((halfClusters d.val).foldl (fun s k => s.clearCluster k)
      (s.modDomain (halfDomain d) fun y => { y with powered := true, eclipsed := false, quiesced := true, fifoReset := true })).setVoltages

theorem heatView_repowered (s : State) (d : Fin 48) (fails : List TileFail) : (s.repowered d fails).heatView (halfDomain d) =
    { s.heatView (halfDomain d) with switches := ⟨true, false, true, true, (s.domain (halfDomain d)).cause⟩ } := by
  have hm := State.domain_modDomain_same s (halfDomain d) fun y => { y with powered := true, eclipsed := false, quiesced := true, fifoReset := true }
  refine (heatView_foldl (fun u f => ?_) fails _).trans ((heatView_setVoltages _ _).trans ((heatView_foldl (fun u k => heatView_clearCluster u _ k) _ _).trans
    (congrArg (fun x : Domain => HeatView.mk x.switches s.power s.job s.genhan.avoid) hm)))
  split
  · exact (heatView_retire _ _ f.at_).trans (heatView_raiseEvent u _ _ _ _)
  · rfl

theorem exec_eclipseReturn_waits {s : State} {d : Fin 48} (fails : List TileFail)
    (h : (s.domain (halfDomain d)).coolRun < tenSeconds ∨ s.power.coolantRun < tenSeconds) : exec (.eclipseReturn d fails) s = .next s :=
  if_neg (by rcases h with h | h <;> simp [Nat.not_le.2 h])

theorem exec_eclipseReturn_cool {s : State} {d : Fin 48} (fails : List TileFail) (he : (s.domain (halfDomain d)).eclipsed = true)
    (hd : tenSeconds ≤ (s.domain (halfDomain d)).coolRun) (hp : tenSeconds ≤ s.power.coolantRun) :
    exec (.eclipseReturn d fails) s = .next ((s.repowered d fails).returnPart (.halfDie d)) :=
  if_pos (by rw [Bool.and_eq_true, Bool.and_eq_true]; exact ⟨⟨he, decide_eq_true hd⟩, decide_eq_true hp⟩)

/-- What keeps a domain from requests, and the job. -/
def State.gate (s : State) (d : Fin 48) : Bool × Bool × Job := ((s.domain (halfDomain d)).quiesced, (s.domain (halfDomain d)).fifoReset, s.job)

theorem gate_raiseEvent (s : State) (d : Fin 48) (code : Nat) (src : Option LCore) (b : Bytes) : (s.raiseEvent code src b).gate d = s.gate d := by
  rw [reportsOnly_raiseEvent s code src b]
  rfl

theorem gate_modDomain (s : State) (d : Fin 48) (f : Domain → Domain) : (s.modDomain (halfDomain d) f).gate d =
    ((f (s.domain (halfDomain d))).quiesced, (f (s.domain (halfDomain d))).fifoReset, s.job) := by
  unfold State.gate
  rw [State.domain_modDomain_same]
  rfl

/-- The end of an eclipse is reported. -/
theorem gate_eclipseOver (s : State) (d : Fin 48) : (s.eclipseOver d).gate d = s.gate d := by
  unfold State.eclipseOver
  extract_lets x u
  have hu : u.gate d = s.gate d := (gate_raiseEvent _ d _ _ _).trans (gate_modDomain s d _)
  clear_value u
  split
  · rfl
  · split
    · exact (gate_raiseEvent _ d _ _ _).trans hu
    · exact hu

/-- A domain that leaves QUIESCE takes requests again. -/
theorem gate_leaveQuiesce (s : State) (d : Fin 48) : (s.leaveQuiesce (.halfDie d)).gate d = (false, false, s.job) :=
  calc (s.leaveQuiesce (.halfDie d)).gate d
    _ = ((s.setQuiesce (.halfDie d) false).quiesceEvent (.halfDie d) true).gate d := gate_eclipseOver _ d
    _ = (s.setQuiesce (.halfDie d) false).gate d := gate_raiseEvent _ d _ _ _
    _ = (false, false, s.job) := gate_modDomain s d _

theorem dropDetours_frame (s : State) : s.dropDetours.job = s.job ∧ s.dropDetours.power = s.power := by
  unfold State.dropDetours
  exact ⟨foldl_leaves State.job (fun u k => State.modCluster_job u k _) _ s, foldl_leaves State.power (fun u k => State.modCluster_power u k _) _ s⟩

/-- With nothing else to do the tables are restored, and the domain leaves QUIESCE. -/
theorem exec_routeTableChange_return {s : State} {d : Fin 48} (hmay : s.mayWriteTables = true) (hclear : s.partsClear = true)
    (hw : s.genhan.wanted = []) (hu : s.genhan.unwanted = [.halfDie d]) (he : s.power.eclipsing = []) :
    ∃ u : State, u.job = s.job ∧ exec (.routeTableChange []) s = .next ((u.leaveQuiesce (.halfDie d)).release.tryWindow) := by
  have hf := dropDetours_frame s.detoured
  refine ⟨{ s.detoured.dropDetours with power := { s.detoured.dropDetours.power with eclipsing := [] } }, hf.1, ?_⟩
  refine (if_pos (by rw [hmay, hclear]; rfl)).trans ?_
  rw [hu, hw, if_neg (List.cons_ne_nil _ _)]
  dsimp only [List.foldl]
  rw [hf.2, show s.detoured.power = s.power from rfl, he]
  rfl

/-! ### The coolant (R398, R449) -/

/-- The coolant's last readings. -/
def State.coolantRead (s : State) : Nat × Nat := (s.genhan.inlet, s.genhan.flow)

theorem coolantRead_of_genhan {s t : State} (h : t.genhan = s.genhan) : t.coolantRead = s.coolantRead :=
  congrArg (fun g : Genhan => (g.inlet, g.flow)) h

theorem coolantRead_injectStop (s : State) : s.injectStop.coolantRead = s.coolantRead := by
  have hc : (s.stopCoxes s.job.tag).genhan = s.genhan := by rw [sendsOnly_stopCoxes s s.job.tag]
  calc s.injectStop.coolantRead
    _ = ((s.stopCoxes s.job.tag).recordStop s.job.tag s.pkg s.time.sc).coolantRead := coolantRead_of_genhan (stopOut_frame _ _ _ _ _).2
    _ = (s.stopCoxes s.job.tag).coolantRead := rfl
    _ = s.coolantRead := coolantRead_of_genhan hc

theorem coolantRead_addDigest (s : State) (r : BitVec 512) : (s.addDigest r).coolantRead = s.coolantRead := by
  unfold State.addDigest
  dsimp only
  split <;> rfl

theorem coolantRead_flushDigests (s : State) : s.flushDigests.coolantRead = s.coolantRead :=
  foldl_leaves State.coolantRead (fun _ _ => (coolantRead_addDigest _ _).trans
    (foldl_leaves State.coolantRead (fun u _ => coolantRead_addDigest u _) _ _)) _ _

theorem coolantRead_checkHalted (s : State) : s.checkHalted.coolantRead = s.coolantRead := by
  unfold State.checkHalted
  split
  · exact (coolantRead_of_genhan (State.setJob_genhan _ _ _ _ _ _)).trans (coolantRead_flushDigests s)
  · rfl

/-- A stop goes out for a job that is HALTING without a change of the readings. -/
theorem coolantRead_stopStep {s : State} (h : s.job.state = .halting) : s.injectStop.jobStep.coolantRead = s.coolantRead := by
  have hj : s.injectStop.job.state = .halting := by rw [signalsOnly_injectStop s]; exact h
  rw [jobStep_halting hj]
  exact (coolantRead_checkHalted _).trans (coolantRead_injectStop s)

theorem coolantRead_stopFor (s : State) (reason : Nat) : (s.stopFor reason).coolantRead = s.coolantRead := by
  unfold State.stopFor
  split
  case isTrue hl =>
    exact (coolantRead_stopStep (haltJob_halting hl reason 0 true none 0)).trans (coolantRead_of_genhan (haltJob_genhan s reason 0 true none 0))
  case isFalse =>
    split
    case isTrue hh =>
      exact (coolantRead_stopStep (s := { s with job := { s.job with faultArose := true, reason := BitVec.ofNat 8 reason } }) hh).trans rfl
    case isFalse => rfl

/-- The coolant, its stop, and whether a job is live. -/
def State.coolantView (s : State) : Bool × Bool × Bool × Nat × Nat := (s.jobLive, s.power.coolantStop, s.power.leak, s.coolantRead)

theorem coolantView_enterQuiesce (s : State) (d : Fin 48) : (s.enterQuiesce (.halfDie d)).coolantView = s.coolantView := by
  have hf : (((s.setQuiesce (.halfDie d) true).quiesceEvent (.halfDie d) false).flushPart (.halfDie d)).coolantView =
      ((s.setQuiesce (.halfDie d) true).quiesceEvent (.halfDie d) false).coolantView := by
    rw [fabricOnly_flushPart _ (.halfDie d)]
    rfl
  have he : ((s.setQuiesce (.halfDie d) true).quiesceEvent (.halfDie d) false).coolantView = s.coolantView := by
    rw [State.quiesceEvent, reportsOnly_raiseEvent (s.setQuiesce (.halfDie d) true) 0x0019 none _]
    rfl
  exact hf.trans he

/-- An eclipse that begins touches neither the job nor the coolant. -/
theorem coolantView_eclipse (s : State) (d : Fin 48) (cause : Nat) (unmap : Bool) : (s.eclipse d cause unmap).coolantView = s.coolantView := by
  unfold State.eclipse
  dsimp only
  split
  · rfl
  · split
    · rfl
    · exact (coolantView_enterQuiesce _ d).trans rfl

theorem coolantView_stopFor (s : State) (reason : Nat) :
    (s.stopFor reason).coolantView = (false, s.power.coolantStop, s.power.leak, s.coolantRead) := by
  obtain ⟨hstop, hlive⟩ := stopFor_frame s reason
  rw [State.coolantView, hlive, hstop.power, coolantRead_stopFor]

theorem coolantEvent_frame (s : State) (kind : Nat) : (s.coolantEvent kind).power = s.power ∧ (s.coolantEvent kind).coolantRead = s.coolantRead :=
  ⟨State.raiseEvent_power _ _ _ _, coolantRead_of_genhan (State.raiseEvent_genhan _ _ _ _)⟩

/-- A coolant stop that begins leaves no job running. -/
theorem coolantView_coolantStop {s : State} (h : s.power.coolantStop = false) :
    s.coolantStop.coolantView = (false, true, s.power.leak, s.coolantRead) := by
  unfold State.coolantStop
  rw [if_neg (by rw [h]; exact Bool.false_ne_true)]
  generalize hv : ({ s with power := { s.power with coolantStop := true, coolantRun := 0 } } : State) = v
  obtain ⟨hpow, hread⟩ := coolantEvent_frame v 2
  have hu : ((v.coolantEvent 2).stopFor 4).coolantView = (false, true, s.power.leak, s.coolantRead) := by
    rw [coolantView_stopFor, hpow, hread, ← hv]
    rfl
  dsimp only
  generalize (v.coolantEvent 2).stopFor 4 = u at hu
  split
  · exact hu
  · exact (foldl_leaves State.coolantView (fun t d => coolantView_eclipse t d _ _) _ u).trans hu

/-! ### The obligation -/

/-- Settles O25: the alarm's three outcomes, the domain off and back by way of the route tables, and the stop for the coolant; each other operation
in between leaves the domain's switches alone. -/
theorem heatAndCoolant : Obligations.HeatAndCoolant := by
  refine ⟨fun k d s hd hothers => ⟨?_, ?_, ?_, ?_, ?_, ?_, ?_⟩, fun s => ⟨?_, ?_, rfl⟩⟩
  · intro sensor temp ht hhot hp hdue hnone hrow
    have hq := untested_of_others ht hothers
    have hexec := exec_heatAlarm_eclipse hd sensor temp hq ht hhot hp hdue hrow
    have hr := reportsOnly_alarmed s k sensor temp
    have hpow : (s.alarmed k sensor temp).power = s.power := by rw [hr]
    have hdom : (s.alarmed k sensor temp).domain (halfDomain d) = s.domain (halfDomain d) := by rw [hr]; rfl
    obtain ⟨hon, hquiet, hecl, hheld, hwant⟩ := eclipse_strand_spec (s := s.alarmed k sensor temp) (d := d) 1 true k.die
      (by rw [hdom, halfDomain_of_cluster hd]; exact hp) (by rw [hpow]; simpa using hnone) rfl
    rw [← halfDomain_of_cluster hd]
    exact ⟨_, hexec, hon, hquiet, by rw [hecl, hpow], hheld, hwant, deep_of_guarded (guarded_execHeatAlarm k sensor temp s _ hexec)⟩
  · intro edits c u hmay hclear hw hu he hc
    have hexec := exec_routeTableChange_off hmay hclear (edits := edits) hw hu he
    have hspec := sealedOff_switchOff_spec s edits d c u rfl
    obtain ⟨hoff, hecl, hfifo, hcause, hdone, hjob⟩ := hspec
    have hdeep := deep_of_guarded (guarded_execRouteTableChange edits s _ hexec)
    generalize ({ s.sealedOff edits d with power := { s.power with eclipsing := [] } } : State).switchOff (d, c, u) = v at *
    have hstay : v.release.tryWindow = v.release := tryWindow_away ((atCheckpoint_of_job hjob).trans hc)
    rw [hstay] at hexec hdeep
    rw [← halfDomain_of_cluster hd]
    exact ⟨_, hexec, hoff, hecl, hfifo, hcause, hdone, rfl, hdeep⟩
  · intro sensor temp ht hhot hp hdue hrow
    have hq := untested_of_others ht hothers
    have hexec := exec_heatAlarm_stop hd sensor temp hq ht hhot hp hdue hrow
    have hr : s.reportsOnly ((s.alarmed k sensor temp).remapRequired 4 d.val) :=
      (reportsOnly_alarmed s k sensor temp).trans (reportsOnly_raiseEvent _ 0x0014 none _)
    have hdeep := deep_of_guarded (guarded_execHeatAlarm k sensor temp s _ hexec)
    generalize (s.alarmed k sensor temp).remapRequired 4 d.val = u at *
    obtain ⟨hdrain, howed, hon, hlive⟩ := oweEclipse_stop_spec u d (domainOf k) k.die rfl
    obtain ⟨hrun, harm⟩ := jobLive_false hlive
    have hpow : u.power = s.power := by rw [hr]
    have hdom : u.domain (domainOf k) = s.domain (domainOf k) := by rw [hr]; rfl
    exact ⟨_, hexec, hdrain, by rw [howed, hpow], by rw [hon, hdom, hp], hrun, harm, hdeep⟩
  · intro sensor temp ht hs hhot hc hin
    obtain ⟨t, hl, hexec⟩ := exec_heatAlarm_test sensor temp ht hs hhot hc hin
    have hcl : ((t.deferTest k).modCluster k fun y => { y with hotRun := 0 }).cluster k = { t.cluster k with
        deferred := if (t.cluster k).deferred.isNone then some 0 else (t.cluster k).deferred
        hotRun := 0 } := by
      rw [State.cluster_modCluster_same, State.deferTest, State.cluster_modCluster_same]
    refine ⟨_, hexec, ?_⟩
    rw [hcl]
    refine ⟨congrArg TestRecord.testing hl.record, rfl, ?_, congrArg TestRecord.passed hl.record, hl.repairMap,
      deep_of_guarded (guarded_execHeatAlarm k sensor temp s _ hexec)⟩
    cases hn : (t.cluster k).deferred with
    | none => rfl
    | some n => rfl
  · rw [← halfDomain_of_cluster hd]
    exact fun _ hcool fails => exec_eclipseReturn_waits fails hcool
  · rw [← halfDomain_of_cluster hd]
    intro hecl hcool hpump havoid fails
    have hexec := exec_eclipseReturn_cool fails hecl hcool hpump
    have hv := heatView_repowered s d fails
    have hdeep := deep_of_guarded (guarded_execEclipseReturn d fails s _ hexec)
    generalize s.repowered d fails = u at *
    have hsw : (u.domain (halfDomain d)).switches = _ := congrArg HeatView.switches hv
    have ha : u.genhan.avoid = s.genhan.avoid := congrArg HeatView.avoid hv
    obtain ⟨hdom, hheld, hun⟩ := returnPart_waits (q := .halfDie d) (s := u) (by rw [ha]; exact havoid)
    refine ⟨_, hexec, ?_⟩
    rw [domain_of_domains hdom]
    exact ⟨congrArg DomainSwitches.powered hsw, congrArg DomainSwitches.eclipsed hsw, congrArg DomainSwitches.quiesced hsw, hun, hheld, hdeep⟩
  · intro hmay hclear hw hu he hc
    obtain ⟨u, hj, hexec⟩ := exec_routeTableChange_return hmay hclear hw hu he
    have hg := gate_leaveQuiesce u d
    have hdeep := deep_of_guarded (guarded_execRouteTableChange [] s _ hexec)
    generalize u.leaveQuiesce (.halfDie d) = v at *
    have hjob : v.release.job = s.job := (congrArg (·.2.2) hg).trans hj
    rw [tryWindow_away ((atCheckpoint_of_job hjob).trans hc)] at hexec hdeep
    rw [← halfDomain_of_cluster hd]
    exact ⟨_, hexec, congrArg (·.1) hg, congrArg (·.2.1) hg, rfl, hdeep⟩
  · intro inlet flow hout hstop
    have hexec : exec (.coolantStop inlet flow) s = .next ({ s with genhan := { s.genhan with inlet := inlet, flow := flow } } : State).coolantStop :=
      congrArg Host.Outcome.next (if_pos hout)
    have hv := coolantView_coolantStop (s := { s with genhan := { s.genhan with inlet := inlet, flow := flow } }) hstop
    obtain ⟨hrun, harm⟩ := jobLive_false (congrArg (·.1) hv)
    exact ⟨_, hexec, congrArg (·.2.1) hv, hrun, harm, congrArg (·.2.2.2.1) hv, congrArg (·.2.2.2.2) hv,
      deep_of_guarded (guarded_execCoolantStop inlet flow s _ hexec)⟩
  · intro hstop
    have hv := coolantView_coolantStop (s := { s with power := { s.power with leak := true, coolantRun := 0 } }) hstop
    obtain ⟨hrun, harm⟩ := jobLive_false (congrArg (·.1) hv)
    exact ⟨_, rfl, congrArg (·.2.2.1) hv, congrArg (·.2.1) hv, hrun, harm, deep_of_guarded (guarded_execLeak s _ rfl)⟩

end Sys2Proof.Machine

/-! PROOFS. Request records and their launch (R237 to R239, R241). -/

namespace Sys2Proof.Machine

/-! ### The check of a record (R238) -/

/-- The one record in the queue is due, and breaks no rule. -/
theorem requestChecks_good {s : State} {c : CoreAt} {r : Request} {b : BitVec 256} (hq : (s.core c).reqQ = [r]) (hc : r.checked = false)
    (hb : r.record = some b) (hdue : r.cycle + 3 ≤ (s.cluster (clusterOf c)).cycle) (hok : s.recordFault c r b = none) :
    s.requestChecks c = (s.putCore c { s.core c with reqQ := [{ r with checked := true }] }, []) := by
  simp [State.requestChecks, hq, hc, hb, hdue, hok]

/-- The one record in the queue is due, and breaks a rule. -/
theorem requestChecks_bad {s : State} {c : CoreAt} {r : Request} {b : BitVec 256} {n : Nat} (hq : (s.core c).reqQ = [r]) (hc : r.checked = false)
    (hb : r.record = some b) (hdue : r.cycle + 3 ≤ (s.cluster (clusterOf c)).cycle) (hbad : s.recordFault c r b = some n) :
    s.requestChecks c = (s.putCore c { s.core c with reqQ := [] }, [raised c.core r.slot n (recFA b)]) := by
  simp [State.requestChecks, hq, hc, hb, hdue, hbad]

/-- The check leaves the core as it finds it due, and its faults with those that fall at the end of the cycle. -/
theorem exec_requestRecordCheck {s : State} {c : CoreAt} {y : Core} {fs : List Raised} (ha : (s.cluster (clusterOf c)).accepted = true)
    (h : s.requestChecks c = (s.putCore c y, fs)) :
    ∃ t, exec (.requestRecordCheck c) s = .next t ∧ t.core c = y ∧
      (t.cluster (clusterOf c)).endFaults = (s.cluster (clusterOf c)).endFaults ++ fs := by
  refine ⟨(s.putCore c y).addFaults (clusterOf c) fs, (if_pos ha).trans (by rw [h]), ?_, ?_⟩
  · rw [State.addFaults, State.core_modCluster, State.core_putCore_same]
  · rw [State.addFaults, State.cluster_modCluster_same]
    rfl

/-! ### The packet of a request, and what is outstanding (R237, R241, Table 8.7) -/

/-- A request to another package leaves through the alternate that its record declares: the link die that it names carries nothing. -/
def State.byAlternate (s : State) (b : BitVec 256) : Bool := !s.linkUp (bitsOf b.toNat 219 217) && b.getLsbD 213

/-- The link die of a request to another package. -/
def State.requestLink (s : State) (b : BitVec 256) : Nat := if s.byAlternate b then bitsOf b.toNat 216 214 else bitsOf b.toNat 219 217

/-- The packet of a request of that kind, with its reply at that position of its ring. -/
def State.requestPacket (s : State) (c : CoreAt) (r : Request) (b : BitVec 256) (kind pos : Nat) : Packet :=
  let p := packet kind (s.lcore c) (if faSpace (recFA b) = 3 then s.lcore c else faCore (recFA b))
    (accessHeader b (s.lcore c) r.ep pos (s.requestScope c (recFA b)) r.op)
  { (if faSpace (recFA b) = 3 then toComp p 3 0 else if faPkg (recFA b) = s.pkg then p else toComp p 2 (s.requestLink b)) with txn := some r.serial }

/-- The request as it waits for its answer. -/
def State.awaited (s : State) (c : CoreAt) (r : Request) (b : BitVec 256) (pos : Nat) : Outstanding :=
  { serial := r.serial, op := r.op, isRecord := false, tag := recTag b, scope := s.requestScope c (recFA b), ep := r.ep, pos := pos, fa := recFA b
    linkDie := BitVec.ofNat 3 (s.requestLink b), alt := b.getLsbD 213 && !s.byAlternate b }

/-- The source read of a write: its packet leaves with the bytes. -/
def State.requestRead (s : State) (c : CoreAt) (r : Request) (b : BitVec 256) : FabricJob :=
  { ops := readOps (recLocal b) (recLength b), fin := .send [s.requestPacket c r b 2 0] none none, cycle := r.cycle }

/-- The core once its oldest request has left the queue. -/
def Core.launching (x : Core) (q : List Request) (o : Outstanding) : Core := { x with reqQ := q, outstanding := x.outstanding ++ [o] }

theorem requestPacket_window {s : State} {c : CoreAt} {r : Request} {b : BitVec 256} (kind pos : Nat) (h : faSpace (recFA b) = 3) :
    (s.requestPacket c r b kind pos).exit = 3 ∧ (s.requestPacket c r b kind pos).comp = 0 := by
  simp [State.requestPacket, h, toComp]

theorem requestPacket_dst {s : State} {c : CoreAt} {r : Request} {b : BitVec 256} (kind pos : Nat) (h : faSpace (recFA b) ≠ 3) :
    (s.requestPacket c r b kind pos).dst = faCore (recFA b) := by
  unfold State.requestPacket
  dsimp only
  rw [if_neg h, if_neg h]
  split <;> rfl

theorem requestPacket_inside {s : State} {c : CoreAt} {r : Request} {b : BitVec 256} (kind pos : Nat) (h : faSpace (recFA b) ≠ 3)
    (hp : faPkg (recFA b) = s.pkg) : (s.requestPacket c r b kind pos).exit = 0 := by
  simp [State.requestPacket, h, hp, packet]

theorem requestPacket_outside {s : State} {c : CoreAt} {r : Request} {b : BitVec 256} (kind pos : Nat) (h : faSpace (recFA b) ≠ 3)
    (hp : faPkg (recFA b) ≠ s.pkg) :
    (s.requestPacket c r b kind pos).exit = 2 ∧ (s.requestPacket c r b kind pos).comp = BitVec.ofNat 3 (s.requestLink b) := by
  simp [State.requestPacket, h, hp, toComp]

/-- Where it goes does not change what it carries. -/
theorem requestPacket_frame (s : State) (c : CoreAt) (r : Request) (b : BitVec 256) (kind pos : Nat) :
    (s.requestPacket c r b kind pos).pkind = BitVec.ofNat 4 kind ∧ (s.requestPacket c r b kind pos).src = s.lcore c ∧
    (s.requestPacket c r b kind pos).data = [] ∧
    (s.requestPacket c r b kind pos).hdr = accessHeader b (s.lcore c) r.ep pos (s.requestScope c (recFA b)) r.op := by
  unfold State.requestPacket
  dsimp only
  split
  · exact ⟨rfl, rfl, rfl, rfl⟩
  · split <;> exact ⟨rfl, rfl, rfl, rfl⟩

theorem requestLink_eq (s : State) (b : BitVec 256) :
    s.requestLink b =
      if s.linkUp (bitsOf b.toNat 219 217) = false ∧ b.getLsbD 213 = true then bitsOf b.toNat 216 214 else bitsOf b.toNat 219 217 := by
  simp [State.requestLink, State.byAlternate]

/-! ### The launch (R239) -/

section
variable {s : State} {c : CoreAt} {r : Request} {q : List Request} {b : BitVec 256}
variable (hq : (s.core c).reqQ = r :: q) (hb : r.record = some b) (hc : r.checked = true) (hheld : s.genhan.held = false)
  (hhalt : (s.cluster (clusterOf c)).run ≠ .halted) (hstop : (s.cluster (clusterOf c)).run ≠ .stopped)
include hq hb hc hheld hhalt hstop

/-- A request that may leave does: as a source read, or as a packet. -/
theorem exec_requestLaunch_ready (hready : r.op = 0 ∨ ((s.core c).recvEp r.ep.toNat).canReserve (replySlots r.op b) = true) {v : Core × Nat}
    (hv : v = if r.op = 0 then (s.core c, 0) else (s.core c).reserve r.ep.toNat (replySlots r.op b) r.serial none (s.now c)) :
    exec (.requestLaunch c) s =
      if r.op = 0 then .next (s.putCore c ((v.1.launching q (s.awaited c r b v.2)).enqueue 1
        { ops := readOps (recLocal b) (recLength b), fin := .send [s.requestPacket c r b (if r.op = 0 then 2 else 3) v.2] none none
          cycle := r.cycle }))
      else .next ((s.putCore c (v.1.launching q (s.awaited c r b v.2))).inject c (s.requestPacket c r b (if r.op = 0 then 2 else 3) v.2)) := by
  subst hv
  change execRequestLaunch c s = _
  unfold execRequestLaunch
  extract_lets x k
  rw [show x.reqQ = r :: q from hq]
  dsimp only
  rw [hb]
  dsimp only
  rw [if_neg (by rcases hready with h | h <;> simp [x, k, hc, hheld, hhalt, hstop, h])]
  rfl

/-- A write has its source read; its packet waits for the bytes. -/
theorem exec_requestLaunch_write (hop : r.op = 0) :
    exec (.requestLaunch c) s = .next (s.putCore c (((s.core c).launching q (s.awaited c r b 0)).enqueue 1 (s.requestRead c r b))) := by
  rw [exec_requestLaunch_ready hq hb hc hheld hhalt hstop (.inl hop) (if_pos hop).symm, if_pos hop, if_pos hop]
  rfl

/-- A read or an atomic leaves at once, with its reply slots reserved. -/
theorem exec_requestLaunch_read (hop : r.op ≠ 0) (hres : ((s.core c).recvEp r.ep.toNat).canReserve (replySlots r.op b) = true) {v : Core × Nat}
    (hv : v = (s.core c).reserve r.ep.toNat (replySlots r.op b) r.serial none (s.now c)) :
    exec (.requestLaunch c) s =
      .next ((s.putCore c (v.1.launching q (s.awaited c r b v.2))).inject c (s.requestPacket c r b 3 v.2)) := by
  rw [exec_requestLaunch_ready hq hb hc hheld hhalt hstop (.inr hres) (hv.trans (if_neg hop).symm), if_neg hop, if_neg hop]

end

/-- A reservation leaves what is outstanding alone. -/
theorem reserve_outstanding (x : Core) (ep n serial : Nat) (red : Option (Fin 16)) (now : Nat) :
    (x.reserve ep n serial red now).1.outstanding = x.outstanding := by
  unfold Core.reserve
  dsimp only
  split
  · rfl
  · rw [enqueue_bulk_eq]
    rfl

/-! ### The obligation -/

/-- Settles O12: the check by the one record in the queue, the launch by the core that it leaves and the packet of the request. -/
theorem requestRecordsAreCheckedAndLaunched : Obligations.RequestRecordsAreCheckedAndLaunched := by
  refine ⟨?check, ?launch⟩
  case check =>
    rintro c s _ _ r b rfl rfl ha hq hc hb hdue
    refine ⟨fun hok => ?_, fun n hbad => exec_requestRecordCheck ha (requestChecks_bad hq hc hb hdue hbad)⟩
    obtain ⟨t, ht, hcore, hf⟩ := exec_requestRecordCheck ha (requestChecks_good hq hc hb hdue hok)
    exact ⟨t, ht, hcore, hf.trans (List.append_nil _)⟩
  case launch =>
    rintro c s _ r q b rfl hq hb hc hheld hhalt hstop
    refine ⟨fun hop => ?write, fun hop hres => ?read⟩
    case write =>
      have hbulk := bulk_enqueue (x := (s.core c).launching q (s.awaited c r b 0)) (y := s.core c) rfl (s.requestRead c r b)
      refine ⟨_, s.requestRead c r b, s.awaited c r b 0, exec_requestLaunch_write hq hb hc hheld hhalt hstop hop, ?_⟩
      rw [State.core_putCore_same]
      exact ⟨by rw [enqueue_bulk_eq]; rfl, congrArg (·.1) hbulk, congrArg (·.2) hbulk, rfl, by rw [enqueue_bulk_eq]; rfl,
        rfl, rfl, rfl, rfl, rfl, rfl, rfl⟩
    case read =>
      generalize hv : (s.core c).reserve r.ep.toNat (replySlots r.op b) r.serial none (s.now c) = v
      have hout : v.1.outstanding = (s.core c).outstanding := hv ▸ reserve_outstanding _ _ _ _ _ _
      obtain ⟨hkind, hsrc, hdata, hhdr⟩ := requestPacket_frame s c r b 3 v.2
      refine ⟨_, s.awaited c r b v.2, exec_requestLaunch_read hq hb hc hheld hhalt hstop hop hres hv.symm, ?_⟩
      rw [core_of_cores (State.inject_cores _ _ _), State.core_putCore_same]
      exact ⟨rfl, rfl, congrArg (· ++ [s.awaited c r b v.2]) hout, rfl, rfl, rfl, rfl, rfl,
        ⟨_, rfl, hkind, rfl, hsrc, hdata, hhdr, requestPacket_window 3 v.2, requestPacket_dst 3 v.2, requestPacket_inside 3 v.2,
          fun h hp => requestLink_eq s b ▸ requestPacket_outside 3 v.2 h hp⟩, rfl, rfl⟩

end Sys2Proof.Machine

/-! PROOFS. A reply at a core of an offline cluster whose Bulk queue is full waits for the queue (R72, R241). -/

namespace Sys2Proof.Machine

/-- An access that finds its queue full leaves it as it is. -/
theorem fqBulk_enqueue_of_full {x : Core} (h : x.fabricRoom 1 = false) (j : FabricJob) : (x.enqueue 1 j).fqBulk = x.fqBulk := by
  rw [Core.enqueue, if_neg (by rw [h]; exact Bool.false_ne_true)]

/-- The record of a reply stays out of a Bulk queue that is full. -/
theorem fqBulk_replyArrives_of_full {s : State} {c : CoreAt} (h : (s.core c).fabricRoom 1 = false) (o : Outstanding) (info : BitVec 128)
    (data : Bytes) :
    ((s.replyArrives c o info data).core c).fqBulk = (s.core c).fqBulk := by
  rw [State.replyArrives, State.core_modCore_same]
  unfold Core.fillReserved
  dsimp only
  split
  · rfl
  · exact fqBulk_enqueue_of_full ((fabricRoom_putRecv _ _ _ _).trans h) _

/-- A reply record in the slots reserved for a request that waits for its answer (R239, R241). -/
theorem replyRecord_answers {s : State} {c : CoreAt} {pos : BitVec 11} {msg : BitVec 128} {txn : Option Nat} {g : Outstanding → Bool}
    {o : Outstanding} (rep : BitVec 128) (data : Bytes) (hk : hdrKind msg = 3) (hc : hdrClean msg = true)
    (hg : g = answersTo txn (fun o => decide (o.op ≠ 0) && decide (o.ep.toNat = hdrEp msg) && decide (o.pos = pos.toNat)))
    (hlate : (s.core c).late.any g = false) (ho : (s.core c).outstanding.find? (fun o => g o && !o.answered) = some o)
    (ht : ((s.core c).recvEp (hdrEp msg)).takesReply o.serial msg pos = true) :
    s.replyRecord c pos msg rep data txn = s.replyArrives c o rep data := by
  subst hg
  unfold State.replyRecord
  dsimp only
  rw [if_neg (by simp [hk, hc]), if_neg (by rw [hlate]; exact Bool.false_ne_true), ho]
  exact if_pos ht

/-- That reply, where the router does not hold it back and it has come whole. -/
theorem exec_reply_answers {s : State} {c : CoreAt} {pos : BitVec 11} {msg rep : BitVec 128} {data : Bytes} {f : Packet → Bool}
    {g : Outstanding → Bool} {o : Outstanding} (hf : f = s.isReply c pos msg rep data) (hr : s.routerHolds c 1 = false)
    (hw : s.waits f c.core.val = false)
    (hk : hdrKind msg = 3) (hc : hdrClean msg = true)
    (hg : g = answersTo (s.txnOf f c.core.val) (fun o => decide (o.op ≠ 0) && decide (o.ep.toNat = hdrEp msg) && decide (o.pos = pos.toNat)))
    (hlate : (s.core c).late.any g = false) (ho : (s.core c).outstanding.find? (fun o => g o && !o.answered) = some o)
    (ht : ((s.core c).recvEp (hdrEp msg)).takesReply o.serial msg pos = true) :
    exec (.reply c pos msg rep data) s = .next ((s.arrived f c.core.val).replyArrives c o rep data) := by
  subst hf
  rw [← core_arrived s (s.isReply c pos msg rep data) c.core.val c] at hlate ho ht
  refine congrArg Host.Outcome.next ?_
  rw [State.onQueue, if_neg (by rw [hr]; exact Bool.false_ne_true), onArrival_taken _ hw]
  exact replyRecord_answers rep data hk hc hg hlate ho ht

/-- Core 0 of cluster 0 of die 0. -/
def repliedCore : CoreAt := ⟨0, 0, 0⟩

/-- A read of eight bytes, waiting for its reply at slot 0 of the reply ring of endpoint 0. -/
def waitingRead : Outstanding :=
  { serial := 1, op := 1, isRecord := false, tag := 0, scope := 2, ep := 0, pos := 0, fa := 0, linkDie := 0 }

/-- Its one slot. -/
def waitingSlot : Resv := { pos := 0, slots := 1, serial := 1 }

/-- Its cluster is in QUIESCE, so its router holds nothing back; the core has eight accesses in its Bulk queue. -/
def offlineFull : State :=
  { State.reset with
    domains := [(0, { powered := true })]
    clusters := [(0, { quiesced := true })]
    cores := [(0, { outstanding := [waitingRead], fqBulk := List.replicate 8 { ops := [], fin := .done }
                    re := [(0, { entry := 1 <<< 127 ||| 2 <<< 125, resv := [waitingSlot] })] })] }

/-- The header of the reply's record: KIND 3, one slot, endpoint 0. -/
def replyMsg : BitVec 128 := replyHeader 0 1

/-- Which request it answers. -/
def repliedTo : Outstanding → Bool :=
  answersTo (offlineFull.txnOf (offlineFull.isReply repliedCore 0 replyMsg 0 []) repliedCore.core.val)
    (fun o => decide (o.op ≠ 0) && decide (o.ep.toNat = hdrEp replyMsg) && decide (o.pos = (0 : BitVec 11).toNat))

/-- The reply can be taken, and stands where slots are reserved for it; the queue is full. -/
theorem offlineFull_takes_reply :
    hdrKind replyMsg = 3 ∧ hdrClean replyMsg = true ∧ offlineFull.routerHolds repliedCore 1 = false ∧
    offlineFull.waits (offlineFull.isReply repliedCore 0 replyMsg 0 []) repliedCore.core.val = false ∧
    (offlineFull.core repliedCore).late.any repliedTo = false ∧
    (offlineFull.core repliedCore).outstanding.find? (fun o => repliedTo o && !o.answered) = some waitingRead ∧
    ((offlineFull.core repliedCore).recvEp (hdrEp replyMsg)).takesReply waitingRead.serial replyMsg 0 = true ∧
    ((offlineFull.core repliedCore).recvEp (hdrEp replyMsg)).resv.find? (fun r => r.isFor waitingRead.serial && r.open_) = some waitingSlot ∧
    (offlineFull.core repliedCore).fabricRoom 1 = false := by decide +kernel

/-- Refutes O19: it says that a reply joins the Bulk queue wherever the router does not hold it back. The routers of an offline cluster hold nothing
back for want of room, and there the access of a reply that finds eight entries waits beside the queue: `offlineFull` keeps the eight that it has. -/
theorem not_answersEndRequests : ¬ Obligations.AnswersEndRequests := by
  intro h
  obtain ⟨hk, hc, hr, hw, hlate, ho, ht, hslot, hfull⟩ := offlineFull_takes_reply
  obtain ⟨hreply, -⟩ := h repliedCore offlineFull _ rfl
  obtain ⟨hanswers, -⟩ := hreply 0 replyMsg 0 [] _ repliedTo waitingRead hk hc rfl hr hw rfl
  obtain ⟨t, hexec, -, hjoins, -⟩ := hanswers hlate ho ht
  have hrun := Host.Outcome.next.inj (hexec.symm.trans (exec_reply_answers rfl hr hw hk hc rfl hlate ho ht))
  have hkept : (t.core repliedCore).fqBulk = (offlineFull.core repliedCore).fqBulk := by
    rw [hrun, fqBulk_replyArrives_of_full (by rw [core_arrived]; exact hfull), core_arrived]
  have hlen := congrArg List.length (hkept.symm.trans (hjoins waitingSlot hslot))
  rw [List.length_append] at hlen
  exact absurd hlen (by simp)

end Sys2Proof.Machine

/-! PROOFS. Deep memory in its canonical form along every step (R258, R260), by way of `Keeps`: each command keeps every invariant. -/

namespace Sys2Proof.Machine

/-- Every command keeps the invariants: those of Laws/Keeps.lean, which write what the invariants read, and the others, which leave it alone. -/
theorem keeps_exec {i : Instr} {s u : State} (h : exec i s = .next u) : Keeps s u := by
  cases i with
  | next => exact .of_guarded (guarded_execNext _ _ _ h)
  | jump => exact .of_guarded (guarded_execJump _ _ _ h)
  | branch => exact .of_guarded (guarded_execBranch _ _ _ h)
  | nest => exact .of_guarded (guarded_execNest _ _ _ h)
  | halt => exact .of_guarded (guarded_execHalt _ _ _ h)
  | stallCycle => exact .of_guarded (guarded_execStallCycle _ _ _ h)
  | teMma => exact .of_guarded (guarded_execTeMma _ _ _ h)
  | teCvt => exact .of_guarded (guarded_execTeCvt _ _ _ h)
  | teEastore => exact .of_guarded (guarded_execTeEastore _ _ _ h)
  | teEaload => exact .of_guarded (guarded_execTeEaload _ _ _ h)
  | teEaadd => exact .of_guarded (guarded_execTeEaadd _ _ _ h)
  | teReanchor => exact .of_guarded (guarded_execTeReanchor _ _ _ h)
  | vePipelined => exact .of_guarded (guarded_execVePipelined _ _ _ h)
  | veSumx => exact .of_guarded (guarded_execVeSumx _ _ _ h)
  | veSqsumx => exact .of_guarded (guarded_execVeSqsumx _ _ _ h)
  | veFold => exact .of_guarded (guarded_execVeFold _ _ _ h)
  | veEaout => exact .of_guarded (guarded_execVeEaout _ _ _ h)
  | veEaload => exact .of_guarded (guarded_execVeEaload _ _ _ h)
  | veEastore => exact .of_guarded (guarded_execVeEastore _ _ _ h)
  | veStatus => exact .of_guarded (guarded_execVeStatus _ _ _ h)
  | vePrune => exact .of_guarded (guarded_execVePrune _ _ _ h)
  | veCompress => exact .of_guarded (guarded_execVeCompress _ _ _ h)
  | pselThreshold => exact .of_guarded (guarded_execPselThreshold _ _ _ h)
  | pselTopK => exact .of_guarded (guarded_execPselTopK _ _ _ h)
  | pselVerdict => exact .of_guarded (guarded_execPselVerdict _ _ _ h)
  | pselCounts => exact .of_guarded (guarded_execPselCounts _ _ _ h)
  | pselRate => exact .of_guarded (guarded_execPselRate _ _ _ h)
  | pselQuant4 => exact .of_guarded (guarded_execPselQuant4 _ _ _ h)
  | agRead => exact .of_guarded (guarded_execAgRead _ _ _ _ h)
  | agWrite => exact .of_guarded (guarded_execAgWrite _ _ _ _ h)
  | agReset => exact .of_guarded (guarded_execAgReset _ _ _ _ h)
  | ptForward => exact .of_guarded (guarded_execPtForward _ _ _ _ h)
  | deliveryLanding => exact .of_guarded (guarded_execDeliveryLanding _ _ _ h)
  | transposeCheck => exact .of_guarded (guarded_execTransposeCheck _ _ _ h)
  | fabricAccess => exact .of_guarded (guarded_execFabricAccess _ _ _ h)
  | spadWriteback => exact .of_guarded (guarded_execSpadWriteback _ _ _ h)
  | send => exact .of_guarded (guarded_execSend _ _ _ h)
  | tileSend => exact .of_guarded (guarded_execTileSend _ _ _ h)
  | streamDemand => exact .of_guarded (guarded_execStreamDemand _ _ _ h)
  | streamWrite => exact .of_guarded (guarded_execStreamWrite _ _ _ h)
  | msend => exact .of_guarded (guarded_execMsend _ _ _ h)
  | recvWait => exact .of_guarded (guarded_execRecvWait _ _ _ h)
  | release => exact .of_guarded (guarded_execRelease _ _ _ h)
  | rwrite => exact .of_guarded (guarded_execRwrite _ _ _ h)
  | rread => exact .of_guarded (guarded_execRread _ _ _ h)
  | ratomic => exact .of_guarded (guarded_execRatomic _ _ _ h)
  | ratomicLocal => exact .of_guarded (guarded_execRatomicLocal _ _ _ h)
  | reduceContribute => exact .of_guarded (guarded_execReduceContribute _ _ _ h)
  | requestRecordCheck => exact .of_guarded (guarded_execRequestRecordCheck _ _ _ h)
  | requestLaunch => exact .of_guarded (guarded_execRequestLaunch _ _ _ h)
  | fence => exact .of_guarded (guarded_execFence _ _ _ h)
  | catch_ => exact .of_guarded (guarded_execCatch _ _ _ h)
  | catchWait => exact .of_guarded (guarded_execCatchWait _ _ _ h)
  | steerArm => exact .of_guarded (guarded_execSteerArm _ _ _ h)
  | steerWait => exact .of_guarded (guarded_execSteerWait _ _ _ h)
  | steerCycle => exact .of_guarded (guarded_execSteerCycle _ _ _ h)
  | open_ => exact .of_guarded (guarded_execOpen _ _ _ h)
  | close => exact .of_guarded (guarded_execClose _ _ _ h)
  | clusterLaunch => exact .of_guarded (guarded_execClusterLaunch _ _ _ h)
  | clusterComplete => exact .of_guarded (guarded_execClusterComplete _ _ _ h)
  | packetHop => exact .of_guarded (guarded_execPacketHop _ _ _ h)
  | meshLinkFail => exact .of_guarded (guarded_execMeshLinkFail _ _ _ _ _ _ h)
  | channelRecordArrival => exact .of_guarded (guarded_execChannelRecordArrival _ _ _ _ _ h)
  | tileSegmentArrival => exact .of_guarded (guarded_execTileSegmentArrival _ _ _ _ _ h)
  | creditReturn => exact .of_guarded (guarded_execCreditReturn _ _ _ _ h)
  | remoteWrite => exact .of_guarded (guarded_execRemoteWrite _ _ _ _ _ h)
  | remoteReadRequest => exact .of_guarded (guarded_execRemoteReadRequest _ _ _ _ _ h)
  | remoteAtomicRequest => exact .of_guarded (guarded_execRemoteAtomicRequest _ _ _ _ h)
  | reply => exact .of_guarded (guarded_execReply _ _ _ _ _ _ _ h)
  | writeAck => exact .of_guarded (guarded_execWriteAck _ _ _ _ h)
  | requestNoPathTimeout => exact .of_guarded (guarded_execRequestNoPathTimeout _ _ _ _ h)
  | reductionContribution => exact .of_guarded (guarded_execReductionContribution _ _ _ _ _ _ h)
  | reductionReturn => exact .of_guarded (guarded_execReductionReturn _ _ _ _ _ h)
  | reductionResult => exact .of_guarded (guarded_execReductionResult _ _ _ _ _ h)
  | catchJoin => exact .of_guarded (guarded_execCatchJoin _ _ _ _ _ _ _ h)
  | catchRelease => exact .of_guarded (guarded_execCatchRelease _ _ _ _ _ _ h)
  | phaseTransferComplete => exact .of_guarded (guarded_execPhaseTransferComplete _ _ h)
  | stop => exact .of_guarded (guarded_execStop _ _ _ _ _ h)
  | stallAge => exact .of_guarded (guarded_execStallAge _ _ _ _ _ h)
  | openRequest => exact .of_guarded (guarded_execOpenRequest _ _ _ _ h)
  | answer => exact .of_guarded (guarded_execAnswer _ _ _ _ h)
  | closeRequest => exact .of_guarded (guarded_execCloseRequest _ _ _ _ h)
  | closeAnswer => exact .of_guarded (guarded_execCloseAnswer _ _ _ _ h)
  | broken => exact .of_guarded (guarded_execBroken _ _ _ _ h)
  | demand => exact keeps_execDemand _ _ _ _ h
  | segmentWrite => exact keeps_execSegmentWrite _ _ _ _ _ h
  | partRead => exact keeps_execPartRead _ _ _ _ h
  | partWrite => exact keeps_execPartWrite _ _ _ _ _ h
  | dmaRead => exact keeps_execDmaRead _ _ _ _ h
  | dmaWrite => exact keeps_execDmaWrite _ _ _ _ _ h
  | deliver => exact .of_guarded (guarded_execDeliver _ _ _ _ _ h)
  | scrub => exact .of_guarded (guarded_execScrub _ _ _ h)
  | telemetrySample => exact .of_guarded (guarded_execTelemetrySample _ _ _ h)
  | telemetryInterval => exact .of_guarded (guarded_execTelemetryInterval _ _ _ h)
  | heatAlarm => exact .of_guarded (guarded_execHeatAlarm _ _ _ _ _ h)
  | eclipseReturn => exact .of_guarded (guarded_execEclipseReturn _ _ _ _ h)
  | configurationWrite => exact .of_guarded (guarded_execConfigurationWrite _ _ _ _ _ h)
  | heartbeat => exact .of_guarded (guarded_execHeartbeat _ _ _ h)
  | heartbeatLost => exact .of_guarded (guarded_execHeartbeatLost _ _ _ h)
  | faultReport => exact keeps_execFaultReport _ _ h
  | digestResult => exact .of_guarded (guarded_execDigestResult _ _ _ _ _ h)
  | checkpointDrainDone => exact .of_guarded (guarded_execCheckpointDrainDone _ _ h)
  | relaunchReady => exact .of_guarded (guarded_execRelaunchReady _ _ _ h)
  | relaunchNotReady => exact .of_guarded (guarded_execRelaunchNotReady _ _ _ h)
  | relaunch => exact .of_guarded (guarded_execRelaunch _ _ _ _ h)
  | relaunchHold => exact .of_guarded (guarded_execRelaunchHold _ _ _ h)
  | relaunchTimeout => exact .of_guarded (guarded_execRelaunchTimeout _ _ h)
  | clusterMove => exact .of_guarded (guarded_execClusterMove _ _ _ _ _ _ h)
  | routeTableChange => exact .of_guarded (guarded_execRouteTableChange _ _ _ h)
  | quiesce => exact keeps_execQuiesce _ _ _ h
  | quiesceReturn => exact .of_guarded (guarded_execQuiesceReturn _ _ _ h)
  | stressTestDue => exact .of_guarded (guarded_execStressTestDue _ _ _ h)
  | stressTestDone => exact .of_guarded (guarded_execStressTestDone _ _ _ _ h)
  | testOverdue => exact .of_guarded (guarded_execTestOverdue _ _ _ h)
  | dataFrame => exact .of_guarded (guarded_execDataFrame _ _ _ _ _ h)
  | idleFrame => exact .of_guarded (guarded_execIdleFrame _ _ _ _ _ h)
  | linkFrame => exact .of_guarded (guarded_execLinkFrame _ _ _ _ _ h)
  | replayTimeout => exact .of_guarded (guarded_execReplayTimeout _ _ _ h)
  | frameLockLoss => exact .of_guarded (guarded_execFrameLockLoss _ _ _ h)
  | id => exact .of_guarded (guarded_execId _ _ _ _ h)
  | idTimer => exact .of_guarded (guarded_execIdTimer _ _ _ h)
  | timeProbe => exact .of_guarded (guarded_execTimeProbe _ _ _ _ _ h)
  | timeProbeTimer => exact .of_guarded (guarded_execTimeProbeTimer _ _ h)
  | timeReply _ _ _ _ _ _ tstate => exact .of_guarded (guarded_execTimeReply _ _ _ _ _ _ tstate _ _ h)
  | timeHoldover => exact .of_guarded (guarded_execTimeHoldover _ _ h)
  | retrain => exact .of_guarded (guarded_execRetrain _ _ _ _ h)
  | retrainTimeout => exact .of_guarded (guarded_execRetrainTimeout _ _ _ h)
  | offline => exact .of_guarded (guarded_execOffline _ _ _ _ h)
  | portTraining => exact .of_guarded (guarded_execPortTraining _ _ _ _ h)
  | portRetryTimer => exact .of_guarded (guarded_execPortRetryTimer _ _ _ h)
  | linkDieIngress => exact .of_guarded (guarded_execLinkDieIngress _ _ _ _ _ h)
  | linkDieEgress => exact .of_guarded (guarded_execLinkDieEgress _ _ _ _ h)
  | sqTailDoorbell => exact .of_guarded (guarded_execSqTailDoorbell _ _ _ _ h)
  | cqHeadDoorbell => exact .of_guarded (guarded_execCqHeadDoorbell _ _ _ _ h)
  | descriptorFetch => exact .of_guarded (guarded_execDescriptorFetch _ _ _ _ h)
  | completionDecision => exact .of_guarded (guarded_execCompletionDecision _ _ _ _ h)
  | msixModerationExpiry => exact .of_guarded (guarded_execMsixModerationExpiry _ _ _ h)
  | nop => exact .of_guarded (guarded_execNop _ _ _ _ h)
  | loadImage => exact .of_guarded (guarded_execLoadImage _ _ _ _ h)
  | dmaToDeep => exact .of_guarded (guarded_execDmaToDeep _ _ _ _ _ h)
  | dmaFromDeep => exact .of_guarded (guarded_execDmaFromDeep _ _ _ _ _ h)
  | armLaunch => exact keeps_execArmLaunch _ _ _ _ h
  | signal => exact .of_guarded (guarded_execSignal _ _ _ _ h)
  | wait => exact .of_guarded (guarded_execWait _ _ _ _ h)
  | waitPoll => exact .of_guarded (guarded_execWaitPoll _ _ _ _ h)
  | waitTimeLimit => exact .of_guarded (guarded_execWaitTimeLimit _ _ _ _ h)
  | catchStop => exact .of_guarded (guarded_execCatchStop _ _ _ _ h)
  | drain => exact .of_guarded (guarded_execDrain _ _ _ _ h)
  | restore => exact .of_guarded (guarded_execRestore _ _ _ _ h)
  | digest => exact .of_guarded (guarded_execDigest _ _ _ _ h)
  | test => exact .of_guarded (guarded_execTest _ _ _ _ _ h)
  | abort => exact .of_guarded (guarded_execAbort _ _ _ _ h)
  | sqEnableWrite => exact .of_guarded (guarded_execSqEnableWrite _ _ _ _ h)
  | cqEnableWrite => exact .of_guarded (guarded_execCqEnableWrite _ _ _ _ h)
  | eventLostClear => exact .of_guarded (guarded_execEventLostClear _ _ _ _ h)
  | registerWrite => exact keeps_execRegisterWrite _ _ _ _ _ h
  | writeImage => exact .of_guarded (guarded_execWriteImage _ _ _ _ _ _ h)
  | requestReport => exact .of_guarded (guarded_execRequestReport _ _ _ _ _ h)
  | loadToken => exact .of_guarded (guarded_execLoadToken _ _ _ _ _ h)
  | unloadToken => exact .of_guarded (guarded_execUnloadToken _ _ h)
  | setCascade => exact .of_guarded (guarded_execSetCascade _ _ _ _ h)
  | setWaitMask => exact .of_guarded (guarded_execSetWaitMask _ _ _ h)
  | reportSuspect => exact .of_guarded (guarded_execReportSuspect _ _ h)
  | packageReset => exact keeps_execPackageReset _ _ h
  | mailboxCommandEnd => exact .of_guarded (guarded_execMailboxCommandEnd _ _ h)
  | linkDelay => exact .of_guarded (guarded_execLinkDelay _ _ _ _ _ h)
  | creditCut => exact .of_guarded (guarded_execCreditCut _ _ _ h)
  | forcedStall => exact .of_guarded (guarded_execForcedStall _ _ _ h)
  | clockSkew => exact .of_guarded (guarded_execClockSkew _ _ _ h)
  | checkInsertion => exact .of_guarded (guarded_execCheckInsertion _ _ _ _ h)
  | perturbationSlotClear => exact .of_guarded (guarded_execPerturbationSlotClear _ _ _ h)
  | flr => exact keeps_execFlr _ _ h
  | perst => exact keeps_execPerst _ _ _ h
  | d3hotEntry => exact .of_guarded (guarded_execD3hotEntry _ _ h)
  | d0Return => exact .of_guarded (guarded_execD0Return _ _ h)
  | pkgResetPin => exact keeps_execPkgResetPin _ _ _ h
  | leak => exact .of_guarded (guarded_execLeak _ _ h)
  | inputInRange => exact keeps_execInputInRange _ _ _ h
  | busSample => exact .of_guarded (guarded_execBusSample _ _ _ _ _ h)
  | orderlyStop => exact keeps_execOrderlyStop _ _ _ h
  | inputLoss => exact keeps_execInputLoss _ _ _ h
  | surge => exact keeps_execSurge _ _ _ _ h
  | overVoltage => exact keeps_execOverVoltage _ _ _ h
  | inputSwitchReclose => exact .of_guarded (guarded_execInputSwitchReclose _ _ h)
  | inputReversed => exact keeps_execInputReversed _ _ _ h
  | busModule => exact .of_guarded (guarded_execBusModule _ _ _ _ h)
  | domainFault => exact keeps_execDomainFault _ _ _ _ h
  | thermalTrip => exact keeps_execThermalTrip _ _ _ h
  | powerLoop => exact .of_guarded (guarded_execPowerLoop _ _ _ _ h)
  | coolantStop => exact .of_guarded (guarded_execCoolantStop _ _ _ _ h)
  | powerGood => exact .of_guarded (guarded_execPowerGood _ _ _ _ h)
  | boot => exact .of_guarded (guarded_execBoot _ _ h)
  | smiImage => exact .of_guarded (guarded_execSmiImage _ _ _ _ _ h)
  | grade => exact .of_guarded (guarded_execGrade _ _ _ _ _ h)
  | hull => exact .of_guarded (guarded_execHull _ _ _ _ _ _ _ h)
  | noCoolant => exact .of_guarded (guarded_execNoCoolant _ _ _ _ h)
  | domains => exact .of_guarded (guarded_execDomains _ _ _ h)
  | repair => exact .of_guarded (guarded_execRepair _ _ h)
  | firmware => exact .of_guarded (guarded_execFirmware _ _ _ h)
  | knownAnswer => exact .of_guarded (guarded_execKnownAnswer _ _ _ h)
  | memory => exact keeps_execMemory _ _ _ _ h
  | links => exact .of_guarded (guarded_execLinks _ _ h)
  | hostReady => exact keeps_execHostReady _ _ h
  | powerDrainDone => exact keeps_execPowerDrainDone _ _ h
  | leakRelease => exact .of_guarded (guarded_execLeakRelease _ _ h)
  | pcieLinkDown => exact .of_guarded (guarded_execPcieLinkDown _ _ h)
  | pcieLinkUp => exact .of_guarded (guarded_execPcieLinkUp _ _ h)

/-- One step keeps the invariants: the queue gives up its front command, which none of them but the queue's reads. -/
theorem keeps_step_but_queue {s t : State} (h : step s = .next t) : ∃ q, Keeps { s with pending := q } t := by
  unfold step at h
  split at h
  next hq => exact ⟨s.pending, Host.Outcome.next.inj h ▸ .of_guarded (guarded_idleTick s)⟩
  next c rest hq => exact ⟨rest, keeps_exec h⟩

/-- Settles O58: no command writes deep memory but through `deepWrite`, or empties it. -/
theorem deepMemoryStaysCanonical : Obligations.DeepMemoryStaysCanonical := by
  intro s t hs h
  obtain ⟨q, -, -, -, -, hdeep⟩ := keeps_step_but_queue h
  exact hdeep hs

end Sys2Proof.Machine

/-! PROOFS. Accesses at the homes of deep memory: parts, DMA requests and the scrub (R258, R260, R264, R271, R272, R275). -/

namespace Sys2Proof.Machine

/-! ### Arrivals -/

/-- An arrival changes only what stands in the mesh and its credits. -/
theorem arrived_frame (s : State) (f : Packet → Bool) (i : Nat) : s.arrived f i =
    { s with mesh := (s.arrived f i).mesh, spent := (s.arrived f i).spent, cuts := (s.arrived f i).cuts } := by
  unfold State.arrived State.removeAt State.freeFlits
  dsimp only
  (repeat' split) <;> rfl

theorem holdsPart_arrived (s : State) (f : Packet → Bool) (i m o n : Nat) : (s.arrived f i).holdsPart m o n = s.holdsPart m o n := by
  rw [arrived_frame]
  rfl

theorem areaClosed_arrived (s : State) (f : Packet → Bool) (i o n : Nat) : (s.arrived f i).areaClosed o n = s.areaClosed o n := by
  rw [arrived_frame]
  rfl

theorem dmaFor_arrived (s : State) (f : Packet → Bool) (i o n : Nat) (txn : Option Nat) : (s.arrived f i).dmaFor o n txn = s.dmaFor o n txn := by
  rw [arrived_frame]
  rfl

theorem ring_arrived (s : State) (f : Packet → Bool) (i p : Nat) : (s.arrived f i).ring p = s.ring p := by
  rw [arrived_frame]
  rfl

/-! ### What a read sees (R258, R263) -/

theorem record_congr {s t : State} (hb : t.boot = s.boot) (hk : t.ckpt = s.ckpt) (a j : Nat) : t.record a j = s.record a j := by
  have hm : t.mappedPerDie = s.mappedPerDie := by simp only [State.mappedPerDie, State.grade, hb]
  rw [State.record, hk, hm]
  rfl

theorem deepWord_congr {s t : State} (hd : t.deep = s.deep) (hb : t.boot = s.boot) (hk : t.ckpt = s.ckpt) (i : Nat) : t.deepWord i = s.deepWord i := by
  simp only [State.deepWord, areaBase_of_boot hb, deepRead_of_deep hd, record_congr hb hk, hk]

/-- Bytes of deep memory are read from its contents, the drain records, and the areas that the boot gives. -/
theorem deepBytes_congr {s t : State} (hd : t.deep = s.deep) (hb : t.boot = s.boot) (hk : t.ckpt = s.ckpt) (o n : Nat) :
    t.deepBytes o n = s.deepBytes o n := by
  simp only [State.deepBytes, areaBase_of_boot hb, deepRead_of_deep hd, deepWord_congr hd hb hk]

theorem deepBytes_arrived (s : State) (f : Packet → Bool) (i o n : Nat) : (s.arrived f i).deepBytes o n = s.deepBytes o n :=
  deepBytes_congr (State.arrived_deep _ _ _) (State.arrived_boot _ _ _) (State.arrived_ckpt _ _ _) o n

/-- What a write leaves in deep memory depends on what it held, the drain records and the areas. -/
theorem deepPut_deep_congr {s t : State} (hd : t.deep = s.deep) (hb : t.boot = s.boot) (hk : t.ckpt = s.ckpt) (o : Nat) (b : Bytes) :
    (t.deepPut o b).deep = (s.deepPut o b).deep := by
  have hc (u : State) : (u.countBytes 2 o b.length).deep = u.deep ∧ (u.countBytes 2 o b.length).boot = u.boot ∧
      (u.countBytes 2 o b.length).ckpt = u.ckpt := by
    rw [sendsOnly_countBytes u 2 o b.length]
    exact ⟨rfl, rfl, rfl⟩
  obtain ⟨sd, sb, sk⟩ := hc s
  obtain ⟨td, tb, tk⟩ := hc t
  unfold State.deepPut
  dsimp only
  generalize s.countBytes 2 o b.length = u at *
  generalize t.countBytes 2 o b.length = v at *
  have hd' := td.trans (hd.trans sd.symm)
  have hb' := tb.trans (hb.trans sb.symm)
  have hk' := tk.trans (hk.trans sk.symm)
  simp only [areaBase_of_boot hb', deepBytes_congr hd' hb' hk', apply_ite State.deep, State.deepWrite, hd']
/-! ### Extents within one region (R258, R260) -/

theorem moonOf_lt (o : Nat) : moonOf o < 4 := Nat.mod_lt _ (by decide)

/-- A moon die that holds the first byte holds a part. -/
theorem anyPart_first {f : Nat → Bool} {o n : Nat} (hn : 1 ≤ n) (h : f (moonOf o) = true) : anyPart f o n = true :=
  List.any_eq_true.2 ⟨0, List.mem_range.2 (by omega), h⟩

/-- An extent within a region lies in one moon die. -/
theorem anyPart_region {f : Nat → Bool} {o n : Nat} (hr : o % 4096 + n ≤ 4096) (h : f (moonOf o) = false) : anyPart f o n = false := by
  refine List.any_eq_false.2 fun i hi => ?_
  have hz : i = 0 := by
    rw [List.mem_range] at hi
    omega
  rw [hz]
  exact Bool.eq_false_iff.1 h

theorem regionCut_region {o n : Nat} (h : o % 4096 + n ≤ 4096) : regionCut o n = n := regionCut_all (by omega)

theorem moonOf_inside {o k : Nat} (h : o % 4096 + k < 4096) : moonOf (o + k) = moonOf o := by
  unfold moonOf
  omega

/-- The offset past the end of a region lies in another moon die, and begins a region. -/
theorem moonOf_next (o : Nat) : moonOf (o + (4096 - o % 4096)) ≠ moonOf o := by
  unfold moonOf
  omega

/-! ### Answers to a DMA request (R272, R316, R320) -/

theorem reportsOnly_endDesc (s : State) (p : Nat) (d : Desc) (status result : Nat) : s.reportsOnly (s.endDesc p d status result) := rfl

theorem reportsOnly_dmaEnds (s : State) (p : Nat) (d : Desc) (e : Nat × Bool) : s.reportsOnly (s.dmaEnds p d e) := by
  unfold State.dmaEnds
  refine (reportsOnly_endDesc _ _ _ _ _).after ?_
  split
  · exact reportsOnly_raiseEvent _ _ _ _
  · exact .refl s

theorem reportsOnly_dmaMoved (s : State) (p : Nat) (d : Desc) : s.reportsOnly (s.dmaMoved p d) := by
  unfold State.dmaMoved
  dsimp only
  split
  · rfl
  · split <;> rfl

theorem reportsOnly_dmaLeft (s : State) (o n : Nat) (txn : Option Nat) (a : Nat ⊕ Bytes) : s.reportsOnly (s.dmaLeft o n txn a) := by
  unfold State.dmaLeft
  split
  · rfl
  · dsimp only
    split
    · rfl
    · split <;> rfl

/-- The answer to a DMA request changes only what the host sees of it. -/
theorem reportsOnly_dmaAnswer (s : State) (o n : Nat) (txn : Option Nat) (a : Nat ⊕ Bytes) : s.reportsOnly (s.dmaAnswer o n txn a) := by
  unfold State.dmaAnswer
  split
  · exact reportsOnly_dmaLeft _ _ _ _ _
  · split
    · exact reportsOnly_dmaEnds _ _ _ _
    · split
      · exact reportsOnly_dmaMoved _ _ _
      · dsimp only
        split
        · exact reportsOnly_dmaEnds _ _ _ _
        · exact (reportsOnly_dmaMoved _ _ _).after rfl

theorem dmaEnds_workEnded {s : State} {r : Fin 64} {d : Desc} (h : d ∈ (s.ring r.val).inProgress) (status : Nat) :
    WorkEnded (s.dmaEnds r.val d (status, false)) r d status d.moved :=
  workEnded_endDesc (d := { d with part := none, cut := !d.abortedBy.isEmpty && !d.atLast }) ⟨d, h, rfl⟩ status d.moved rfl

/-! ### A DMA_WRITE at the home of its segment (R260, R264, R272) -/

section
variable {s : State} {o n : Nat} {txn : Option Nat} {rest : Bytes} (k : Nat)

/-- With nothing left to store the host interface die has its answer. -/
theorem homeOn_put_stored : s.homeOn (k + 1) (.put o n txn []) = s.dmaAnswer o n txn (.inr []) := by
  unfold State.homeOn
  exact if_pos rfl

/-- Into a drain area that is closed nothing is written. -/
theorem homeOn_put_closed (hr : rest ≠ []) (hlen : rest.length = n) (hc : s.areaClosed o n = true) :
    s.homeOn (k + 1) (.put o n txn rest) = s.dmaAnswer o n txn (.inl 7) := by
  unfold State.homeOn
  exact (if_neg hr).trans (if_pos ⟨hlen, hc⟩)

/-- A part in a moon die that is off ends the request. -/
theorem homeOn_put_off (hr : rest ≠ []) (hc : s.areaClosed o n = false) (hoff : anyPart s.moonOff o n = true) :
    s.homeOn (k + 1) (.put o n txn rest) = s.dmaAnswer o n txn (.inl 0x0E) := by
  unfold State.homeOn
  exact (if_neg hr).trans ((if_neg fun h => Bool.false_ne_true (hc.symm.trans h.2)).trans (if_pos hoff))

/-- A request whose home is at work is put off. -/
theorem homeOn_put_later (hr : rest ≠ []) (hlen : rest.length = n) (hc : s.areaClosed o n = false) (hon : anyPart s.moonOff o n = false)
    (hbusy : (s.home (moonOf o)).isSome = true) :
    s.homeOn (k + 1) (.put o n txn rest) = s.homeLater (.put o n txn rest) := by
  unfold State.homeOn
  exact (if_neg hr).trans ((if_neg fun h => Bool.false_ne_true (hc.symm.trans h.2)).trans
    ((if_neg (by rw [hon]; exact Bool.false_ne_true)).trans (if_pos ⟨hlen, hbusy⟩)))

/-- The home stores what lies in its own region. -/
theorem homeOn_put_here (hr : rest ≠ []) (hc : rest.length = n → s.areaClosed o n = false) (hon : anyPart s.moonOff o n = false)
    (hfree : s.home (moonOf o) = none) (hmoon : moonOf (o + (n - rest.length)) = moonOf o) :
    s.homeOn (k + 1) (.put o n txn rest) = (s.deepPut (o + (n - rest.length)) (rest.take (regionCut (o + (n - rest.length)) rest.length))).homeOn k
      (.put o n txn (rest.drop (regionCut (o + (n - rest.length)) rest.length))) := by
  conv_lhs => unfold State.homeOn
  dsimp only
  rw [if_neg hr, if_neg fun h => Bool.false_ne_true ((hc h.1).symm.trans h.2), if_neg (by rw [hon]; exact Bool.false_ne_true),
    if_neg (by simp [HomeOp.off, hfree])]
  exact if_pos hmoon

/-- What lies in another region goes to the moon die that holds it, and the home waits. -/
theorem homeOn_put_part (hr : rest ≠ []) (hc : rest.length = n → s.areaClosed o n = false) (hon : anyPart s.moonOff o n = false)
    (hfree : s.home (moonOf o) = none) (hmoon : moonOf (o + (n - rest.length)) ≠ moonOf o) :
    s.homeOn (k + 1) (.put o n txn rest) = s.awaitPart (.put o n txn rest) 4 (o + (n - rest.length))
      (regionCut (o + (n - rest.length)) rest.length) (rest.take (regionCut (o + (n - rest.length)) rest.length)) := by
  unfold State.homeOn
  dsimp only
  rw [if_neg hr, if_neg fun h => Bool.false_ne_true ((hc h.1).symm.trans h.2), if_neg (by rw [hon]; exact Bool.false_ne_true),
    if_neg (by simp [HomeOp.off, hfree])]
  exact if_neg hmoon

end

/-- A write within one region is stored by the home at once, and answered. -/
theorem homeOn_put_whole {s : State} {o n : Nat} {txn : Option Nat} {b : Bytes} (k : Nat) (hb : b ≠ []) (hlen : b.length = n)
    (hc : s.areaClosed o n = false) (hoff : s.moonOff (moonOf o) = false) (hfree : s.home (moonOf o) = none) (hreg : o % 4096 + n ≤ 4096) :
    s.homeOn (k + 2) (.put o n txn b) = (s.deepPut o b).dmaAnswer o n txn (.inr []) := by
  have hz : o + (n - b.length) = o := by omega
  have hcut : regionCut o b.length = b.length := regionCut_region (by omega)
  rw [homeOn_put_here (k + 1) hb (fun _ => hc) (anyPart_region hreg hoff) hfree (by rw [hz]), hz, hcut, List.take_length, List.drop_length,
    homeOn_put_stored]

/-! ### The end of a tile's read -/

/-- What the end of a read leaves alone: deep memory, the accesses at the homes and those put off, and the scratchpads. -/
def State.readView (s : State) : SMap Byte × SMap (Option HomeOp) × List HomeOp × (CoreAt → SMap Byte) :=
  (s.deep, s.homes, s.homeWait, fun c => (s.core c).spad)

theorem readView_of_sendsOnly {s t : State} (h : s.sendsOnly t) : t.readView = s.readView := by
  rw [h]
  rfl

theorem readView_of_reportsOnly {s t : State} (h : s.reportsOnly t) : t.readView = s.readView := by
  rw [h]
  rfl

theorem readView_of_pumped {m n : Nat} {s t : State} (h : Pumped m n s t) : t.readView = s.readView := by
  rw [h.frame]
  rfl

theorem readView_haltOn (s : State) (k : ClusterAt) (fs : List Raised) : (s.haltOn k fs).readView = s.readView := by
  unfold State.haltOn
  split
  · rfl
  · split <;> rfl

theorem readView_moonSend (s : State) (m : Nat) (p : Packet) : (s.moonSend m p).readView = s.readView := by
  rw [moonSend_frame]
  rfl

theorem readView_streamFault (s : State) (m n i o code : Nat) : (s.streamFault m n i o code).readView = s.readView := by
  unfold State.streamFault
  extract_lets t left u v
  have hv : v.readView = s.readView := by
    simp only [v]
    split
    · rfl
    · exact readView_moonSend _ _ _
  split
  · exact hv
  · exact (readView_haltOn _ _ _).trans hv

/-- A change of a core other than of its scratchpad. -/
theorem readView_modCore {f : Core → Core} (h : ∀ x, (f x).spad = x.spad) (s : State) (c : CoreAt) : (s.modCore c f).readView = s.readView := by
  have hs : (fun e => ((s.modCore c f).core e).spad) = fun e => (s.core e).spad := by
    funext e
    by_cases he : e = c
    · rw [he, State.core_modCore_same, h]
    · rw [State.core_modCore_ne s f he]
  exact congrArg (fun g => (s.deep, s.homes, s.homeWait, g)) hs

theorem readView_readDone (s : State) (m : Nat) (h : BitVec 128) (txn : Option Nat) (tile : Nat) (segs : List Bytes) (err : Option (Nat × Nat)) :
    (s.readDone m h txn tile segs err).readView = s.readView := by
  have served := readView_of_sendsOnly (sendsOnly_demandServed s (s.stream m (dhStream h)) tile segs)
  unfold State.readDone
  dsimp only
  split
  · split
    · exact (foldl_leaves State.readView (fun u b => readView_moonSend u m _) segs _).trans served
    · split
      · refine Eq.trans (readView_modCore ?_ _ _) (readView_of_sendsOnly (sendsOnly_count s _ _ _ _ _))
        exact fun _ => rfl
      · rfl
  · split
    · refine Eq.trans (readView_of_pumped (pumped_pumpStream _ _ _)) ?_
      exact served
    · exact (readView_streamFault _ _ _ _ _ _).trans (readView_of_pumped (pumped_owe _ _ _ _))

/-! ### Accesses that read -/

/-- An access that reads. -/
def HomeOp.reads (x : HomeOp) : Prop :=
  match x with
  | .read _ _ _ _ _ _ _ _ _ => True
  | .get _ _ _ _ => True
  | .write _ _ _ _ _ _ => False
  | .put _ _ _ _ => False

/-- What the reads at the homes leave alone: deep memory and the scratchpads; and what they put off are reads. -/
structure ReadLeaves (s t : State) : Prop where
  deep : t.deep = s.deep
  spad : ∀ c, (t.core c).spad = (s.core c).spad
  waits : (∀ x ∈ s.homeWait, x.reads) → ∀ x ∈ t.homeWait, x.reads

theorem ReadLeaves.refl (s : State) : ReadLeaves s s := ⟨rfl, fun _ => rfl, id⟩

theorem ReadLeaves.trans {s t u : State} (h : ReadLeaves s t) (g : ReadLeaves t u) : ReadLeaves s u :=
  ⟨g.deep.trans h.deep, fun c => (g.spad c).trans (h.spad c), g.waits ∘ h.waits⟩

theorem ReadLeaves.of_readView {s t : State} (h : t.readView = s.readView) : ReadLeaves s t := by
  simp only [State.readView, Prod.mk.injEq] at h
  obtain ⟨hdeep, -, hwait, hspad⟩ := h
  exact ⟨hdeep, congrFun hspad, fun hs => hwait ▸ hs⟩

theorem readLeaves_homeLater (s : State) {x : HomeOp} (hx : x.reads) : ReadLeaves s (s.homeLater x) := by
  refine ⟨rfl, fun _ => rfl, fun hs y hy => ?_⟩
  rcases List.mem_append.1 hy with h | h
  · exact hs y h
  · exact List.mem_singleton.1 h ▸ hx

theorem readLeaves_awaitPart (s : State) (x : HomeOp) (op o n : Nat) (data : Bytes) : ReadLeaves s (s.awaitPart x op o n data) :=
  ⟨rfl, fun _ => rfl, id⟩

theorem readView_moonRead (s : State) (o n : Nat) : (s.moonRead o n).1.readView = s.readView := by
  have hs : (s.deepSoft o n).readView = s.readView := by
    rw [deepSoft_frame]
    rfl
  unfold State.moonRead
  dsimp only
  split
  · exact (readView_of_reportsOnly (reportsOnly_raiseEvent _ _ _ _)).trans hs
  · exact hs

theorem readLeaves_homeOn_read (fuel : Nat) (s : State) (m : Nat) (h : BitVec 128) (txn : Option Nat) (tile sg o left : Nat) (got : Bytes)
    (segs : List Bytes) : ReadLeaves s (s.homeOn fuel (.read m h txn tile sg o left got segs)) := by
  induction fuel generalizing s sg o left got segs with
  | zero => exact .refl s
  | succ k ih =>
    unfold State.homeOn
    dsimp -zeta only
    extract_lets busy st want seg fail a c r
    have hf (t : State) (code p : Nat) : ReadLeaves t (fail t code p) := .of_readView (readView_readDone _ _ _ _ _ _ _)
    have hr : ReadLeaves s r.1 := .of_readView (readView_moonRead _ _ _)
    clear_value fail r
    (iterate 5 (split; exact hf _ _ _))
    split
    · split
      · exact readLeaves_homeLater s trivial
      · split
        · split
          · exact hr.trans (hf _ _ _)
          · exact hr.trans (ih _ _ _ _ _ _)
        · exact readLeaves_awaitPart _ _ _ _ _ _
    · split
      · exact hf _ _ _
      · split
        · exact .of_readView (readView_readDone _ _ _ _ _ _ _)
        · exact ih _ _ _ _ _ _

/-- What a DMA_READ at a home changes: what the host sees of it, corrected errors and their counters, and where the access stands. -/
def State.getsOnly (s t : State) : Prop :=
  t = { s with host := t.host, out := t.out, deepErr := t.deepErr, ctr := t.ctr, homes := t.homes, homeWait := t.homeWait,
               waiting := t.waiting, emitted := t.emitted, freeCtr := t.freeCtr }

theorem State.getsOnly.trans {s t u : State} (h : s.getsOnly t) (g : t.getsOnly u) : s.getsOnly u := by
  unfold State.getsOnly at *
  rw [g, h]

theorem State.reportsOnly.getsOnly {s t : State} (h : s.reportsOnly t) : s.getsOnly t := by
  unfold State.getsOnly
  rw [h]

theorem getsOnly_of_sendsOnly {s t : State} (h : s.sendsOnly t) : s.getsOnly t := by
  unfold State.getsOnly
  rw [h]

theorem getsOnly_moonRead (s : State) (o n : Nat) : s.getsOnly (s.moonRead o n).1 := by
  have hs : s.getsOnly (s.deepSoft o n) := by
    rw [deepSoft_frame]
    rfl
  unfold State.moonRead
  dsimp only
  split
  · exact hs.trans (reportsOnly_raiseEvent _ _ _ _).getsOnly
  · exact hs

/-- A DMA_READ at a home, with what it puts off. -/
theorem homeOn_get_leaves (fuel : Nat) (s : State) (o n : Nat) (txn : Option Nat) (got : Bytes) :
    s.getsOnly (s.homeOn fuel (.get o n txn got)) ∧ ReadLeaves s (s.homeOn fuel (.get o n txn got)) := by
  have both {u v : State} (h : u.getsOnly v) (hw : v.homeWait = u.homeWait) : u.getsOnly v ∧ ReadLeaves u v := by
    refine ⟨h, ?_, fun c => ?_, fun hs => hw ▸ hs⟩
    · rw [h]
    · rw [h]
      rfl
  have report {u v : State} (h : u.reportsOnly v) : u.getsOnly v ∧ ReadLeaves u v := both h.getsOnly (by rw [h])
  induction fuel generalizing s got with
  | zero => exact ⟨rfl, .refl s⟩
  | succ k ih =>
    unfold State.homeOn
    dsimp -zeta only
    extract_lets busy want a c r
    have hr : s.getsOnly r.1 ∧ ReadLeaves s r.1 := ⟨getsOnly_moonRead _ _ _, .of_readView (readView_moonRead _ _ _)⟩
    clear_value r
    split
    · exact report (reportsOnly_dmaAnswer _ _ _ _ _)
    split
    · exact report (reportsOnly_dmaAnswer _ _ _ _ _)
    split
    · exact ⟨rfl, readLeaves_homeLater s trivial⟩
    split
    · split
      · have hd := report (reportsOnly_dmaAnswer r.1 o n txn (.inl 9))
        exact ⟨hr.1.trans hd.1, hr.2.trans hd.2⟩
      · have hc := sendsOnly_countBytes r.1 1 a c
        obtain ⟨hg, hl⟩ := ih (r.1.countBytes 1 a c) _
        exact ⟨(hr.1.trans (getsOnly_of_sendsOnly hc)).trans hg, (hr.2.trans (.of_readView (readView_of_sendsOnly hc))).trans hl⟩
    · exact ⟨rfl, readLeaves_awaitPart _ _ _ _ _ _⟩

/-- An access that reads leaves deep memory and the scratchpads alone. -/
theorem readLeaves_homeOn {x : HomeOp} (hx : x.reads) (fuel : Nat) (s : State) : ReadLeaves s (s.homeOn fuel x) := by
  cases x with
  | read => exact readLeaves_homeOn_read _ _ _ _ _ _ _ _ _ _ _
  | get => exact (homeOn_get_leaves _ _ _ _ _ _).2
  | write => exact hx.elim
  | put => exact hx.elim

/-! ### A home that is free again (R260) -/

/-- With nothing put off nothing goes on. -/
theorem wake_idle {s : State} (h : s.homeWait = []) (k : Nat) : s.wake k = s := by
  cases k with
  | zero => rfl
  | succ k =>
    unfold State.wake
    rw [h]
    rfl

theorem readLeaves_wake (k : Nat) {s : State} (h : ∀ x ∈ s.homeWait, x.reads) : ReadLeaves s (s.wake k) := by
  induction k generalizing s with
  | zero => exact .refl s
  | succ k ih =>
    unfold State.wake
    split
    · exact .refl s
    next x hx =>
      have hl := readLeaves_homeOn (h x (List.mem_of_find?_eq_some hx)) homeFuel { s with homeWait := s.homeWait.erase x }
      have hw := hl.waits fun y hy => h y (List.mem_of_mem_erase hy)
      exact ⟨(ih hw).deep.trans hl.deep, fun c => ((ih hw).spad c).trans (hl.spad c), fun _ => (ih hw).waits hw⟩

/-- A home that goes on with reads, while only reads are put off. -/
theorem readLeaves_homeFree {s : State} (hw : ∀ x ∈ s.homeWait, x.reads) (m : Nat) {act : State → State} (h : ∀ t, ReadLeaves t (act t)) :
    ReadLeaves s (s.homeFree m act) :=
  have ht : ReadLeaves s (act (s.setHome m none)) := .trans (t := s.setHome m none) ⟨rfl, fun _ => rfl, id⟩ (h _)
  ht.trans (readLeaves_wake _ (ht.waits hw))

theorem readLeaves_partCame {s : State} (hw : ∀ x ∈ s.homeWait, x.reads) (m : Nat) (b : Bytes ⊕ Nat) : ReadLeaves s (s.partCame m b) := by
  unfold State.partCame
  split
  · exact readLeaves_homeFree hw m fun t => readLeaves_homeOn (by trivial) _ _
  · exact readLeaves_homeFree hw m fun t => .of_readView (readView_readDone _ _ _ _ _ _ _)
  · exact readLeaves_homeFree hw m fun t => readLeaves_homeOn (by trivial) _ _
  · exact readLeaves_homeFree hw m fun t => .of_readView (readView_of_reportsOnly (reportsOnly_dmaAnswer _ _ _ _ _))
  · exact .refl s

/-- With no access put off, a home whose access ends without another is free. -/
theorem home_homeFree {s : State} (hw : s.homeWait = []) (m : Nat) {act : State → State}
    (h : ∀ t, (act t).homes = t.homes ∧ (act t).homeWait = t.homeWait) :
    s.homeFree m act = act (s.setHome m none) ∧ (s.homeFree m act).home m = none := by
  obtain ⟨hh, hl⟩ := h (s.setHome m none)
  have he : s.homeFree m act = act (s.setHome m none) := wake_idle (hl.trans hw) _
  refine ⟨he, ?_⟩
  rw [he, State.home, hh]
  exact SMap.get_set_same _ _ _ _

/-! ### The commands at a moon die (R271, Table 9.4) -/

/-- The length of an access to an extent is that of one segment at most. -/
theorem dhLength_range {op : Nat} {h : BitVec 128} (hok : deepHeaderOk op h = true) (hop : 3 ≤ op ∧ op ≤ 6) :
    1 ≤ dhLength h ∧ dhLength h ≤ 4096 := by
  unfold deepHeaderOk at hok
  dsimp only at hok
  rw [if_neg (by omega)] at hok
  simp only [Bool.and_eq_true, decide_eq_true_eq] at hok
  obtain ⟨-, ⟨-, hlo⟩, hhi⟩ := hok
  exact ⟨hlo, hhi⟩

theorem holdsPart_iff {s : State} {m o n : Nat} : s.holdsPart m o n = true ↔ moonOf o = m ∧ o % 4096 + n ≤ 4096 ∧ o + n ≤ s.capacity := by
  unfold State.holdsPart
  simp only [Bool.and_eq_true, decide_eq_true_eq, and_assoc]

/-- A moon die has read a part: its bytes are counted, where they could be read. -/
def State.partRead (s : State) (o n : Nat) : State := if (s.moonRead o n).2.isLeft then (s.moonRead o n).1.countBytes 1 o n else (s.moonRead o n).1

theorem partRead_leaves (s : State) (o n : Nat) : s.getsOnly (s.partRead o n) ∧ (s.partRead o n).readView = s.readView := by
  have hg := getsOnly_moonRead s o n
  have hv := readView_moonRead s o n
  have hc := sendsOnly_countBytes (s.moonRead o n).1 1 o n
  unfold State.partRead
  split
  · exact ⟨hg.trans (getsOnly_of_sendsOnly hc), (readView_of_sendsOnly hc).trans hv⟩
  · exact ⟨hg, hv⟩

section
variable {m : Fin 4} {h : BitVec 128} {data : Bytes} {s : State} {f : Packet → Bool}

theorem exec_partWrite (hf : f = isForComp 1 m.val 0xA (h.setWidth 256) data) (hw : s.waits f = false) (hok : deepHeaderOk 4 h = true)
    (hp : s.holdsPart m.val (dhOffset h) (dhLength h) = true) (hlen : data.length = dhLength h) :
    (s.asker f (dhOffset h) = none → exec (.partWrite m h data) s = .next ((s.arrived f).deepPut (dhOffset h) data)) ∧
    (∀ j, s.asker f (dhOffset h) = some j →
      exec (.partWrite m h data) s = .next (((s.arrived f).deepPut (dhOffset h) data).partWritten j (dhLength h))) := by
  subst hf
  have hc : (deepHeaderOk 4 h && (s.arrived (isForComp 1 m.val 0xA (h.setWidth 256) data)).holdsPart m.val (dhOffset h) (dhLength h)) = true := by
    rw [hok, holdsPart_arrived, hp]
    rfl
  refine ⟨fun ha => congrArg Host.Outcome.next ((onArrival_taken _ hw).trans ((if_pos hc).trans ?_)),
    fun j ha => congrArg Host.Outcome.next ((onArrival_taken _ hw).trans ((if_pos hc).trans ?_))⟩
  · rw [ha, List.take_of_length_le hlen.le]
  · rw [ha, List.take_of_length_le hlen.le]

theorem exec_partRead (hf : f = isForComp 1 m.val 0xA (h.setWidth 256) []) (hw : s.waits f = false) (hok : deepHeaderOk 3 h = true)
    (hp : s.holdsPart m.val (dhOffset h) (dhLength h) = true) :
    (s.asker f (dhOffset h) = none → exec (.partRead m h) s = .next ((s.arrived f).partRead (dhOffset h) (dhLength h))) ∧
    (∀ j, s.asker f (dhOffset h) = some j → exec (.partRead m h) s =
      .next (((s.arrived f).partRead (dhOffset h) (dhLength h)).partCame j ((s.arrived f).moonRead (dhOffset h) (dhLength h)).2)) := by
  subst hf
  have hc : (deepHeaderOk 3 h && (s.arrived (isForComp 1 m.val 0xA (h.setWidth 256) [])).holdsPart m.val (dhOffset h) (dhLength h)) = true := by
    rw [hok, holdsPart_arrived, hp]
    rfl
  refine ⟨fun ha => congrArg Host.Outcome.next ((onArrival_taken _ hw).trans ((if_pos hc).trans ?_)),
    fun j ha => congrArg Host.Outcome.next ((onArrival_taken _ hw).trans ((if_pos hc).trans ?_))⟩
  all_goals
    unfold State.partRead
    rw [ha]
    generalize (s.arrived (isForComp 1 m.val 0xA (h.setWidth 256) [])).moonRead (dhOffset h) (dhLength h) = r
    obtain ⟨v, b | w⟩ := r
    · rfl
    · rfl

/-- A part that the moon die does not hold is neither read nor written. -/
theorem exec_part_outside (hp : s.holdsPart m.val (dhOffset h) (dhLength h) = false) : ∃ t u, exec (.partRead m h) s = .next t ∧
    exec (.partWrite m h data) s = .next u ∧ (t = s ∨ ∃ f, t = s.arrived f) ∧ (u = s ∨ ∃ f, u = s.arrived f) := by
  have kept (f : Packet → Bool) (c : State → Bool) (act : State → State) (hc : c (s.arrived f) = false) :
      s.onArrival f 0 (fun t => if c t then act t else t) = s ∨ s.onArrival f 0 (fun t => if c t then act t else t) = s.arrived f := by
    unfold State.onArrival
    split
    · exact .inl rfl
    · exact .inr (if_neg (by rw [hc]; exact Bool.false_ne_true))
  refine ⟨_, _, rfl, rfl, (kept _ _ _ ?_).imp_right fun h => ⟨_, h⟩, (kept _ _ _ ?_).imp_right fun h => ⟨_, h⟩⟩
  · rw [holdsPart_arrived, hp, Bool.and_false]
  · rw [holdsPart_arrived, hp, Bool.and_false]

theorem exec_dmaWrite (hf : f = isForComp 1 m.val 0xA (h.setWidth 256) data) (hw : s.waits f = false) (hok : deepHeaderOk 6 h = true)
    (hm : moonOf (dhOffset h) = m.val) (hcap : dhOffset h + dhLength h ≤ s.capacity) (hlen : data.length = dhLength h) :
    exec (.dmaWrite m h data) s = .next ((s.arrived f).homeOn homeFuel (.put (dhOffset h) (dhLength h) (s.txnOf f) data)) := by
  subst hf
  have hcap' : (s.arrived (isForComp 1 m.val 0xA (h.setWidth 256) data)).capacity = s.capacity := by
    rw [arrived_frame]
    rfl
  exact congrArg Host.Outcome.next ((onArrival_taken _ hw).trans (if_pos (by
    rw [hok, hcap', decide_eq_true hm, decide_eq_true hcap, decide_eq_true hlen]
    rfl)))

theorem exec_dmaRead (hf : f = isForComp 1 m.val 0xA (h.setWidth 256) []) (hw : s.waits f = false) (hok : deepHeaderOk 5 h = true)
    (hm : moonOf (dhOffset h) = m.val) (hcap : dhOffset h + dhLength h ≤ s.capacity) :
    exec (.dmaRead m h) s = .next ((s.arrived f).homeOn homeFuel (.get (dhOffset h) (dhLength h) (s.txnOf f) [])) := by
  subst hf
  have hcap' : (s.arrived (isForComp 1 m.val 0xA (h.setWidth 256) [])).capacity = s.capacity := by
    rw [arrived_frame]
    rfl
  exact congrArg Host.Outcome.next ((onArrival_taken _ hw).trans (if_pos (by
    rw [hok, hcap', decide_eq_true hm, decide_eq_true hcap]
    rfl)))

end

/-! ### What the accesses leave (R260, R264, R272) -/

theorem home_of_homes {s t : State} (h : t.homes = s.homes) (j : Nat) : t.home j = s.home j := congrArg (fun x => SMap.get none x j) h

/-- The frame of a write that is stored and answered. -/
theorem deepWritten_answered {s : State} {o : Nat} {b : Bytes} (h : o + b.length ≤ s.areaBase 0) (n : Nat) (txn : Option Nat) (a : Nat ⊕ Bytes) :
    DeepWritten o b s ((s.deepPut o b).dmaAnswer o n txn a) := by
  have hr := reportsOnly_dmaAnswer (s.deepPut o b) o n txn a
  refine (deepWritten_deepPut h).after ?_ ?_ ?_ ?_ <;> rw [hr]

/-- An extent below the drain areas is never closed. -/
theorem areaClosed_below {s : State} {o n : Nat} (h : o + n ≤ s.areaBase 0) : s.areaClosed o n = false := by
  unfold State.areaClosed
  rw [decide_eq_false (by omega)]
  rfl

/-- A drain area is closed while the job may run (R264). -/
theorem areaClosed_running {s : State} {o n : Nat} (h : s.areaBase 0 < o + n)
    (hj : s.job.state = .armed ∨ s.job.state = .running ∨ s.job.state = .halting) : s.areaClosed o n = true := by
  unfold State.areaClosed
  rw [decide_eq_true h]
  rcases hj with hj | hj | hj <;> rw [hj] <;> rfl

/-- A home whose last part has been written acknowledges the segment, or had it refused, and waits no more. -/
theorem partWritten_last {s : State} {j d st tile o n : Nat} {x : Nat × Bytes × Bool} {rest : Bytes}
    (hj : s.home j = some (.write d st tile o [x] rest)) (hrest : rest.length ≤ n) (hw : s.homeWait = []) :
    (s.partWritten j n).home j = none ∧ (s.partWritten j n).deep = s.deep ∧ (s.partWritten j n).cores = s.cores := by
  have acked (t : State) : ∃ v, t.homeOn homeFuel (.write d st tile o [x] (rest.drop n)) = t.ackSegment d (t.stream d st) v := by
    rw [List.drop_eq_nil_of_le hrest]
    unfold homeFuel State.homeOn
    dsimp only
    split
    · exact ⟨3, homeOn_written _ _ _ _ _ _ _⟩
    · exact ⟨0, (if_pos rfl).trans (homeOn_written _ _ _ _ _ _ _)⟩
  have frame (t : State) : (t.homeOn homeFuel (.write d st tile o [x] (rest.drop n))).homes = t.homes ∧
      (t.homeOn homeFuel (.write d st tile o [x] (rest.drop n))).homeWait = t.homeWait := by
    obtain ⟨v, hv⟩ := acked t
    rw [hv, ackSegment_frame]
    exact ⟨rfl, rfl⟩
  have he : s.partWritten j n = s.homeFree j fun t => t.homeOn homeFuel (.write d st tile o [x] (rest.drop n)) := by
    unfold State.partWritten
    rw [hj]
  obtain ⟨hf, hh⟩ := home_homeFree hw j frame
  obtain ⟨v, hv⟩ := acked (s.setHome j none)
  rw [he]
  refine ⟨hh, ?_, ?_⟩ <;> rw [hf, hv, ackSegment_frame] <;> rfl

/-- A word of the part that cannot be read ends the read of its tile: the home waits no more (R275, R276). -/
theorem partCame_bad {s : State} {j d tile sg o left w : Nat} {hd : BitVec 128} {txn : Option Nat} {got : Bytes} {segs : List Bytes}
    (hj : s.home j = some (.read d hd txn tile sg o left got segs)) (hw : s.homeWait = []) : (s.partCame j (.inr w)).home j = none := by
  have he : s.partCame j (.inr w) = s.homeFree j fun t => t.readDone d hd txn tile segs (some (fDataError, 64 * w)) := by
    unfold State.partCame
    rw [hj]
  rw [he]
  refine (home_homeFree hw j fun t => ?_).2
  have hview := readView_readDone t d hd txn tile segs (some (fDataError, 64 * w))
  simp only [State.readView, Prod.mk.injEq] at hview
  exact ⟨hview.2.1, hview.2.2.1⟩

/-! ### The scrub (R275) -/

/-- The single-bit errors of a moon die's stacks are corrected and counted, and each uncorrectable one is told to the host. -/
theorem exec_scrub_spec (m : Fin 4) (s : State) : ∃ t, exec (.scrub m) s = .next t ∧
    t = { s with
      deepErr := s.deepErr.filter fun p => !(decide (moonOf (64 * p.1) = m.val) && decide (p.2 = some false))
      ctr := t.ctr, host := t.host, out := t.out } := by
  have soft (l : List (Nat × Option Bool)) (u : State) : l.foldl (fun s p => s.countDeepCe (s.stackOf (64 * p.1))) u =
      { u with ctr := (l.foldl (fun s p => s.countDeepCe (s.stackOf (64 * p.1))) u).ctr } := by
    induction l generalizing u with
    | nil => rfl
    | cons a l ih =>
      rw [List.foldl_cons, ih]
      rfl
  have bad (l : List (Nat × Option Bool)) (u : State) : u.reportsOnly (l.foldl (fun s p => s.deepUe (64 * p.1)) u) :=
    foldl_related (R := State.reportsOnly) .refl .trans (fun _ _ => reportsOnly_raiseEvent _ _ _ _) l u
  refine ⟨_, rfl, ?_⟩
  rw [bad, soft]

/-! ### The outcomes of the commands -/

/-- What an arrival was is nothing that a write leaves. -/
theorem DeepWritten.of_arrived {o : Nat} {b : Bytes} {s t : State} {f : Packet → Bool} (h : DeepWritten o b (s.arrived f) t) : DeepWritten o b s t :=
  ⟨h.inside, fun a ha => (h.outside a ha).trans (deepRead_of_deep (State.arrived_deep _ _ _) _ _), h.cores.trans (State.arrived_cores _ _ _),
    h.clusters.trans (State.arrived_clusters _ _ _), h.streams.trans (State.arrived_streams _ _ _)⟩

theorem areaBase_arrived (s : State) (f : Packet → Bool) (a : Nat) : (s.arrived f).areaBase a = s.areaBase a :=
  areaBase_of_boot (State.arrived_boot _ _ _) a

theorem readView_arrived (s : State) (f : Packet → Bool) : (s.arrived f).readView = s.readView := by
  rw [arrived_frame]
  rfl

section
variable {m : Fin 4} {h : BitVec 128} {data : Bytes} {s : State} {f : Packet → Bool} (hf : f = isForComp 1 m.val 0xA (h.setWidth 256) data)
  (hw : s.waits f = false) (hp : s.holdsPart m.val (dhOffset h) (dhLength h) = true) (hlen : data.length = dhLength h)
include hf hw hp hlen

/-- A part that no home waits for is stored. -/
theorem partWrite_stored (hok : deepHeaderOk 4 h = true) (hfit : dhOffset h + dhLength h ≤ s.areaBase 0) (hask : s.asker f (dhOffset h) = none) :
    ∃ t, exec (.partWrite m h data) s = .next t ∧ DeepWritten (dhOffset h) data s t :=
  ⟨_, (exec_partWrite hf hw hok hp hlen).1 hask, (deepWritten_deepPut (by rw [hlen, areaBase_arrived]; exact hfit)).of_arrived⟩

/-- The last part of a tile is stored, and its home waits no more. -/
theorem partWrite_last {j d st tile o : Nat} {x : Nat × Bytes × Bool} {rest : Bytes} (hok : deepHeaderOk 4 h = true)
    (hfit : dhOffset h + dhLength h ≤ s.areaBase 0) (hask : s.asker f (dhOffset h) = some j)
    (hj : s.home j = some (.write d st tile o [x] rest)) (hrest : rest.length ≤ dhLength h) (hidle : s.homeWait = []) :
    ∃ t, exec (.partWrite m h data) s = .next t ∧ t.home j = none ∧ t.deepRead (dhOffset h) data.length = data ∧
      (∀ a, a < dhOffset h ∨ dhOffset h + data.length ≤ a → t.deepRead a 1 = s.deepRead a 1) ∧ t.cores = s.cores := by
  have hbelow : dhOffset h + data.length ≤ (s.arrived f).areaBase 0 := by rw [hlen, areaBase_arrived]; exact hfit
  have hput : DeepWritten (dhOffset h) data s ((s.arrived f).deepPut (dhOffset h) data) := (deepWritten_deepPut hbelow).of_arrived
  have hwait : ((s.arrived f).deepPut (dhOffset h) data).homeWait = s.homeWait := by
    rw [deepPut_below _ _ _ hbelow, sendsOnly_countBytes]
    exact State.arrived_homeWait _ _ _
  obtain ⟨hnone, hd, hc⟩ := partWritten_last (s := (s.arrived f).deepPut (dhOffset h) data) (n := dhLength h)
    ((home_of_homes (deepPut_places hbelow).2 j).trans ((home_arrived _ _ _ _).trans hj)) hrest (hwait.trans hidle)
  exact ⟨_, (exec_partWrite hf hw hok hp hlen).2 j hask, hnone, (deepRead_of_deep hd _ _).trans hput.inside,
    fun a ha => (deepRead_of_deep hd _ _).trans (hput.outside a ha), hc.trans hput.cores⟩

section
variable (hok : deepHeaderOk 6 h = true)
include hok

/-- The access of a DMA_WRITE that a moon die holds, at its home. -/
theorem dmaWrite_atHome : data ≠ [] ∧ moonOf (dhOffset h) = m.val ∧ dhOffset h % 4096 + dhLength h ≤ 4096 ∧
    exec (.dmaWrite m h data) s = .next ((s.arrived f).homeOn homeFuel (.put (dhOffset h) (dhLength h) (s.txnOf f) data)) := by
  obtain ⟨hm, hreg, hcap⟩ := holdsPart_iff.1 hp
  obtain ⟨hpos, -⟩ := dhLength_range hok (by decide)
  exact ⟨List.ne_nil_of_length_pos (by omega), hm, hreg, exec_dmaWrite hf hw hok hm hcap hlen⟩

theorem dmaWrite_stored (hfit : dhOffset h + dhLength h ≤ s.areaBase 0) (hon : s.moonOff m.val = false) (hfree : s.home m.val = none) :
    ∃ t, exec (.dmaWrite m h data) s = .next t ∧ DeepWritten (dhOffset h) data s t := by
  obtain ⟨hne, hm, hreg, hexec⟩ := dmaWrite_atHome hf hw hp hlen hok
  refine ⟨_, hexec, ?_⟩
  rw [homeFuel, homeOn_put_whole 62 hne hlen (by rw [areaClosed_arrived]; exact areaClosed_below hfit) (by rw [moonOff_arrived, hm]; exact hon)
    (by rw [home_arrived, hm]; exact hfree) hreg]
  exact (deepWritten_answered (by rw [hlen, areaBase_arrived]; exact hfit) _ _ _).of_arrived

/-- Nothing is written into a drain area while the job may run (R264). -/
theorem dmaWrite_closed (hfit : s.areaBase 0 < dhOffset h + dhLength h)
    (hj : s.job.state = .armed ∨ s.job.state = .running ∨ s.job.state = .halting) :
    ∃ t, exec (.dmaWrite m h data) s = .next t ∧ (s.arrived f).reportsOnly t := by
  obtain ⟨hne, -, -, hexec⟩ := dmaWrite_atHome hf hw hp hlen hok
  refine ⟨_, hexec, ?_⟩
  rw [homeFuel, homeOn_put_closed 63 hne hlen (by rw [areaClosed_arrived]; exact areaClosed_running hfit hj)]
  exact reportsOnly_dmaAnswer _ _ _ _ _

/-- While its home is at work the request is put off. -/
theorem dmaWrite_later {x : HomeOp} (hfit : dhOffset h + dhLength h ≤ s.areaBase 0) (hon : s.moonOff m.val = false) (hbusy : s.home m.val = some x) :
    exec (.dmaWrite m h data) s = .next ((s.arrived f).homeLater (.put (dhOffset h) (dhLength h) (s.txnOf f) data)) := by
  obtain ⟨hne, hm, hreg, hexec⟩ := dmaWrite_atHome hf hw hp hlen hok
  rw [hexec, homeFuel, homeOn_put_later 63 hne hlen (by rw [areaClosed_arrived]; exact areaClosed_below hfit)
    (anyPart_region hreg (by rw [moonOff_arrived, hm]; exact hon)) (by rw [home_arrived, hm, hbusy]; rfl)]

end

end

section
variable {m : Fin 4} {h : BitVec 128} {s : State} {f : Packet → Bool} (hf : f = isForComp 1 m.val 0xA (h.setWidth 256) [])
  (hw : s.waits f = false) (hp : s.holdsPart m.val (dhOffset h) (dhLength h) = true)
include hf hw hp

/-- The read of a part, and what its home does then, change nothing of deep memory or a scratchpad. -/
theorem exec_partRead_leaves (hok : deepHeaderOk 3 h = true) (hidle : s.homeWait = []) :
    ∃ t, exec (.partRead m h) s = .next t ∧ ReadLeaves s t := by
  obtain ⟨hnone, hsome⟩ := exec_partRead hf hw hok hp
  have hl : ReadLeaves s ((s.arrived f).partRead (dhOffset h) (dhLength h)) :=
    .of_readView ((partRead_leaves _ _ _).2.trans (readView_arrived s f))
  have hreads := hl.waits fun x hx => by rw [hidle] at hx; cases hx
  cases ha : s.asker f (dhOffset h) with
  | none => exact ⟨_, hnone ha, hl⟩
  | some j => exact ⟨_, hsome j ha, hl.trans (readLeaves_partCame hreads j _)⟩

/-- A home whose part holds a word that cannot be read waits no more. -/
theorem exec_partRead_bad {j d tile sg o left : Nat} {hd : BitVec 128} {txn : Option Nat} {got : Bytes} {segs : List Bytes}
    (hok : deepHeaderOk 3 h = true) (hask : s.asker f (dhOffset h) = some j) (hj : s.home j = some (.read d hd txn tile sg o left got segs))
    (hbad : (s.deepBad (dhOffset h) (dhLength h)).isSome = true) (hidle : s.homeWait = []) :
    ∃ t, exec (.partRead m h) s = .next t ∧ t.home j = none := by
  obtain ⟨w, hbadw⟩ := moonRead_bad (s := s.arrived f) (by rw [deepBad_arrived]; exact hbad)
  have hexec := (exec_partRead hf hw hok hp).2 j hask
  have hview := (partRead_leaves (s.arrived f) (dhOffset h) (dhLength h)).2.trans (readView_arrived s f)
  simp only [State.readView, Prod.mk.injEq] at hview
  obtain ⟨-, hhomes, hlater, -⟩ := hview
  rw [hbadw] at hexec
  exact ⟨_, hexec, partCame_bad ((home_of_homes hhomes j).trans hj) (hlater.trans hidle)⟩

theorem exec_dmaRead_leaves (hok : deepHeaderOk 5 h = true) : ∃ t, exec (.dmaRead m h) s = .next t ∧ (s.arrived f).getsOnly t := by
  obtain ⟨hm, -, hcap⟩ := holdsPart_iff.1 hp
  exact ⟨_, exec_dmaRead hf hw hok hm hcap, (homeOn_get_leaves _ _ _ _ _ _).1⟩

end

/-! ### The obligation -/

/-- Settles O23: the writes by `DeepWritten`, the reads by `ReadLeaves`, the homes that wait by `home_homeFree`, the scrub by `exec_scrub_spec`. -/
theorem partAndDmaAccessesAndScrub : Obligations.PartAndDmaAccessesAndScrub := by
  refine ⟨fun m h data s o n ho hn => ?_, fun m s => ?_⟩
  · subst ho hn
    refine ⟨fun f hf hw hlen hp => ⟨fun hok hfit hask => ?_, fun j d st tile o' x rest hok hfit hask hj hrest hidle => ?_,
      fun hok hfit hon hfree => ?_, fun hok hfit hj => ?_, fun x hok hfit hon hbusy => ?_⟩,
      fun f hf hw hp => ⟨fun hok hidle => ?_, fun j d hd txn tile sg o' left got segs hok hask hj hbad hidle => ?_, fun hok => ?_⟩, fun hp => ?_⟩
    · obtain ⟨t, ht, hput⟩ := partWrite_stored hf hw hp hlen hok hfit hask
      exact ⟨t, ht, hlen ▸ hput.inside, hlen ▸ hput.outside, hput.cores, hput.clusters, hput.streams⟩
    · exact hlen ▸ partWrite_last hf hw hp hlen hok hfit hask hj hrest hidle
    · obtain ⟨t, ht, hput⟩ := dmaWrite_stored hf hw hp hlen hok hfit hon hfree
      exact ⟨t, ht, hlen ▸ hput.inside, hlen ▸ hput.outside, hput.cores, hput.clusters, hput.streams⟩
    · obtain ⟨t, ht, hr⟩ := dmaWrite_closed hf hw hp hlen hok hfit hj
      rw [State.reportsOnly, arrived_frame] at hr
      refine ⟨t, ht, ?_, ?_, ?_⟩ <;> rw [hr]
    · refine ⟨_, dmaWrite_later hf hw hp hlen hok hfit hon hbusy, ?_, State.arrived_deep _ _ _, State.arrived_host _ _ _⟩
      exact congrArg (· ++ _) (State.arrived_homeWait _ _ _)
    · obtain ⟨t, ht, hl⟩ := exec_partRead_leaves hf hw hp hok hidle
      exact ⟨t, ht, hl.deep, hl.spad⟩
    · exact exec_partRead_bad hf hw hp hok hask hj hbad hidle
    · obtain ⟨t, ht, hg⟩ := exec_dmaRead_leaves hf hw hp hok
      rw [State.getsOnly, arrived_frame] at hg
      refine ⟨t, ht, ?_, ?_, ?_, ?_⟩ <;> rw [hg]
    · obtain ⟨t, u, ht, hu, htk, huk⟩ := exec_part_outside (data := data) hp
      have kept {v : State} (hv : v = s ∨ ∃ f, v = s.arrived f) : v.deep = s.deep ∧ v.cores = s.cores ∧ v.streams = s.streams := by
        rcases hv with rfl | ⟨f, rfl⟩
        · exact ⟨rfl, rfl, rfl⟩
        · exact ⟨State.arrived_deep _ _ _, State.arrived_cores _ _ _, State.arrived_streams _ _ _⟩
      obtain ⟨td, tc, ts⟩ := kept htk
      obtain ⟨ud, uc, us⟩ := kept huk
      exact ⟨t, u, ht, hu, td, ud, tc, uc, ts, us⟩
  · obtain ⟨t, ht, hframe⟩ := exec_scrub_spec m s
    refine ⟨t, ht, ?_, ?_, ?_, ?_, ?_, ?_⟩ <;> rw [hframe]

end Sys2Proof.Machine

/-! PROOFS. LOAD_IMAGE, and the segments of a DMA on their way between the host and their homes (R260, R262, R264, R271, R272, R304, R320, R326,
R404). -/

namespace Sys2Proof.Machine

/-! ### What a write leaves in place -/

/-- A write changes the bytes, their errors and counters, and which words of a drain record are the host's. -/
theorem deepPut_frame (s : State) (o : Nat) (b : Bytes) : s.deepPut o b = { s with
    deep := (s.deepPut o b).deep, deepErr := (s.deepPut o b).deepErr, ckpt := (s.deepPut o b).ckpt, ctr := (s.deepPut o b).ctr,
    waiting := (s.deepPut o b).waiting, emitted := (s.deepPut o b).emitted, freeCtr := (s.deepPut o b).freeCtr } := by
  have hc := sendsOnly_countBytes s 2 o b.length
  unfold State.deepPut
  extract_lets u lo hi full ws v
  have hu : s.sendsOnly u := hc
  have hv : v = u.deepWrite lo full := rfl
  clear_value u v
  split
  · rw [hu]
    rfl
  · rw [hv, hu]
    rfl

theorem deepPut_waiting (s : State) (o : Nat) (b : Bytes) : (s.deepPut o b).waiting = s.waiting := by
  have hc : (s.countBytes 2 o b.length).waiting = s.waiting := by
    refine foldl_leaves State.waiting (fun t i => ?_) _ s
    rfl
  unfold State.deepPut
  extract_lets u lo hi full ws v
  split
  · exact hc
  · exact hc

/-! ### A home asks another moon die for a part -/

theorem comp_moonOf (o : Nat) : (BitVec.ofNat 3 (moonOf o)).toNat = moonOf o := by
  have := moonOf_lt o
  rw [BitVec.toNat_ofNat]
  omega

/-- The home waits for the part, and the request or the bytes are on their way to the moon die that holds it. -/
theorem awaitPart_asks (s : State) (x : HomeOp) (op o n : Nat) (data : Bytes) :
    (s.awaitPart x op o n data).home (moonOf x.off) = some x ∧
    ∃ p, (s.awaitPart x op o n data).waiting = s.waiting ++ [p] ∧ p.pkind = 0xA ∧ p.exit = 1 ∧ p.comp.toNat = moonOf o ∧
      p.hdr = (deepHeader op false false 0 0 o n 0).setWidth 256 ∧ p.data = data :=
  ⟨SMap.get_set_same _ s.homes (moonOf x.off) (some x), _, rfl, rfl, rfl,
    comp_moonOf o, rfl, rfl⟩

/-- The home of a DMA_WRITE that reaches into the next region stores the part in its own, and sends the rest there. -/
theorem homeOn_put_split {s : State} {o n c : Nat} {txn : Option Nat} {b : Bytes} (k : Nat) (hlen : b.length = n) (hn : n ≤ 4096)
    (hc : s.areaClosed o n = false) (hon : anyPart s.moonOff o n = false) (hfree : s.home (moonOf o) = none) (hcut : c = 4096 - o % 4096)
    (hreg : c < n) :
    s.homeOn (k + 2) (.put o n txn b) = (s.deepPut o (b.take c)).awaitPart (.put o n txn (b.drop c)) 4 (o + c) (n - c) (b.drop c) := by
  have hz : o + (n - b.length) = o := by omega
  have hfirst : regionCut o b.length = c := by
    rw [regionCut_end (by omega), hcut]
  have hdrop : (b.drop c).length = n - c := by rw [List.length_drop, hlen]
  have hrest : o + (n - (b.drop c).length) = o + c := by omega
  have hsecond : regionCut (o + c) (n - c) = n - c := regionCut_region (by omega)
  have hv := deepPut_frame s o (b.take c)
  have hoff : (s.deepPut o (b.take c)).moonOff = s.moonOff := by
    rw [hv]
    rfl
  have hhome : (s.deepPut o (b.take c)).home (moonOf o) = none := by
    rw [hv]
    exact hfree
  rw [homeOn_put_here (k + 1) (List.ne_nil_of_length_pos (by omega)) (fun _ => hc) hon hfree (by rw [hz]), hz, hfirst,
    homeOn_put_part k (List.ne_nil_of_length_pos (by omega)) (fun h => by omega) (by rw [hoff]; exact hon) hhome
      (by rw [hrest, hcut]; exact moonOf_next o), hrest, hdrop, hsecond, List.take_of_length_le hdrop.le]

/-! ### The descriptor's side of a DMA (R272, R304, R316, R326) -/

section
variable {s : State} {p : Nat} {d : Desc} {o n : Nat} {txn : Option Nat} (hfor : s.dmaFor o n txn = some (p, d))
include hfor

theorem dmaAnswer_status (e : Nat) : s.dmaAnswer o n txn (.inl e) = s.dmaEnds p d (e, false) := by
  unfold State.dmaAnswer
  rw [hfor]

theorem dmaAnswer_stored (hop : d.op = 2) (b : Bytes) : s.dmaAnswer o n txn (.inr b) = s.dmaMoved p d := by
  unfold State.dmaAnswer
  rw [hfor]
  exact if_pos hop

/-- A segment that passes the host interface die's check goes to host memory. -/
theorem dmaAnswer_read (hop : d.op = 3) {b : Bytes} (hb : dmaBad { d with got := b } b = none) :
    s.dmaAnswer o n txn (.inr b) = (s.dmaOut d b).dmaMoved p { d with got := b } := by
  unfold State.dmaAnswer
  rw [hfor]
  refine (if_neg (by omega)).trans ?_
  dsimp only
  rw [hb]
  rfl

end

/-- A descriptor whose segment in progress has moved, and whether an ABORT has cut it. -/
def Desc.segmentMoved (d : Desc) (cut : Bool) : Desc :=
  { d with moved := d.moved + 1, bytes := d.bytes + d.got.length, got := [], part := none, cut := cut }

theorem dmaMoved_at_end {d : Desc} (h : d.bytes + d.got.length = d.q3.toNat) (s : State) (p : Nat) :
    s.dmaMoved p d = s.endDesc p (d.segmentMoved d.cut) 0 (d.moved + 1) := by
  unfold State.dmaMoved
  exact if_pos h

theorem dmaMoved_aborted {d : Desc} (h : d.bytes + d.got.length ≠ d.q3.toNat) (ha : d.abortedBy ≠ []) (s : State) (p : Nat) :
    s.dmaMoved p d = s.endDesc p (d.segmentMoved true) 0 (d.moved + 1) := by
  unfold State.dmaMoved
  exact (if_neg h).trans (if_neg ha)

section
variable {s : State} {r : Fin 64} {d : Desc} (hd : s.inProgress r.val d.serial)
include hd

/-- The last segment of a run ends it. -/
theorem dmaMoved_last (h : d.bytes + d.got.length = d.q3.toNat) : WorkEnded (s.dmaMoved r.val d) r d 0 (d.moved + 1) := by
  rw [dmaMoved_at_end h]
  exact workEnded_endDesc (d := d.segmentMoved d.cut) hd 0 (d.moved + 1) rfl

/-- An ABORT ends a run at the segment that moves, before its last (Table 11.6). -/
theorem dmaMoved_cut (h : d.bytes + d.got.length ≠ d.q3.toNat) (ha : d.abortedBy ≠ []) : WorkEnded (s.dmaMoved r.val d) r d 0 (d.moved + 1) ∧
    ∃ x ∈ ((s.dmaMoved r.val d).ring r.val).inProgress, x.serial = d.serial ∧ x.cut = true := by
  rw [dmaMoved_aborted h ha]
  refine ⟨workEnded_endDesc (d := d.segmentMoved true) hd 0 (d.moved + 1) rfl, ?_⟩
  obtain ⟨x, hx, hn⟩ := hd
  unfold State.endDesc
  rw [ring_putDesc]
  refine ⟨_, List.mem_map_of_mem hx, ?_, ?_⟩ <;> rw [if_pos (by exact hn)] <;> rfl

/-- A request for a segment is on its way to the segment's home, and its descriptor waits for it. -/
theorem dmaAsk_asks (op o n : Nat) (data : Bytes) : ∃ p x, (s.dmaAsk r.val d op o n data).waiting = s.waiting ++ [p] ∧ p.pkind = 0xA ∧ p.exit = 1 ∧
    p.comp.toNat = moonOf o ∧ p.hdr = (deepHeader op false false 0 0 o n 0).setWidth 256 ∧ p.data = data ∧ p.txn = some d.serial ∧
    (s.dmaAsk r.val d op o n data).deep = s.deep ∧ x ∈ ((s.dmaAsk r.val d op o n data).ring r.val).inProgress ∧ x.serial = d.serial ∧
    x.part = some (o, n) ∧ x.got = d.got := by
  obtain ⟨x, hx, hn⟩ := hd
  have hring : (s.dmaAsk r.val d op o n data).ring r.val = (s.putDesc r.val { d with part := some (o, n) }).ring r.val := rfl
  rw [hring, ring_putDesc]
  exact ⟨_, _, rfl, rfl, rfl, comp_moonOf o, rfl, rfl, rfl, rfl, List.mem_map_of_mem hx,
    by rw [if_pos hn], by rw [if_pos hn], by rw [if_pos hn]⟩

end

/-- A DMA descriptor in progress that nothing stops, and that waits for no request, goes on. -/
theorem dma_goes {s : State} {r : Fin 64} {tag : BitVec 16} {op : Nat} {d : Desc}
    (hd : s.findDesc r.val tag (fun x => decide (x.op = op) && x.started && x.ended.isNone) = some d) (hr : s.dmaRefused d = none)
    (hp : d.part = none) (go : State → Desc → State) : s.dma r tag op go = go s d := by
  unfold State.dma
  dsimp only
  rw [hd]
  dsimp only
  rw [hr]
  exact if_neg (by rw [hp]; exact Bool.false_ne_true)

theorem mem_of_findDesc {s : State} {p : Nat} {tag : BitVec 16} {f : Desc → Bool} {d : Desc} (h : s.findDesc p tag f = some d) :
    s.inProgress p d.serial := ⟨d, List.mem_of_find?_eq_some h, rfl⟩

/-- A whole segment that passes the host interface die's check is sent to its home. -/
theorem dmaIn_whole {s : State} {p : Nat} {d : Desc} {seg : Bytes} (h64 : 64 ≤ seg.length) (hlen : seg.length = segSpace seg)
    (hplen : segPlen seg ≤ 4016) (hcode : draocOk seg = true) (hfit : d.bytes + seg.length ≤ d.q3.toNat) :
    s.dmaIn p d seg = s.dmaPut p d seg := by
  have hbad : dmaBad d seg = none := by
    unfold dmaBad
    rw [if_neg (by omega), if_neg (by omega), if_neg (by simp [hcode])]
  unfold State.dmaIn
  dsimp only
  rw [if_neg (by omega), ← hlen, List.take_length, hbad]

/-! ### Reads without an error (R275) -/

/-- A read that met no error: at most corrected words and counters changed. -/
structure CleanRead (s t : State) : Prop where
  frame : t = { s with deepErr := t.deepErr, ctr := t.ctr, waiting := t.waiting, emitted := t.emitted, freeCtr := t.freeCtr }
  errors : ∀ p ∈ t.deepErr, p ∈ s.deepErr

theorem CleanRead.trans {s t u : State} (h : CleanRead s t) (g : CleanRead t u) : CleanRead s u := by
  refine ⟨?_, fun p hp => h.errors p (g.errors p hp)⟩
  rw [g.frame, h.frame]

theorem cleanRead_countBytes (s : State) (n o len : Nat) : CleanRead s (s.countBytes n o len) := by
  rw [sendsOnly_countBytes]
  exact ⟨rfl, fun _ h => h⟩

theorem cleanRead_deepSoft (s : State) (o n : Nat) : CleanRead s (s.deepSoft o n) := by
  refine ⟨by rw [deepSoft_frame], fun p hp => ?_⟩
  unfold State.deepSoft at hp
  extract_lets hit ws at hp
  have he := foldl_leaves (f := fun (s : State) (w : Nat × Option Bool) => s.countDeepCe (s.stackOf (64 * w.1))) State.deepErr (fun _ _ => rfl) ws
    { s with deepErr := s.deepErr.filter fun p => !hit p }
  exact (List.mem_filter.1 (he ▸ hp)).1

/-- An extent with no uncorrectable error has none in a part of it, nor when fewer errors are about. -/
theorem deepBad_none_part {s t : State} {o n a l : Nat} (h : s.deepBad o n = none) (he : ∀ p ∈ t.deepErr, p ∈ s.deepErr) (ha : o ≤ a)
    (hl : a + l ≤ o + n) : t.deepBad a l = none := by
  unfold State.deepBad at *
  rw [Option.map_eq_none_iff, List.find?_eq_none] at *
  intro p hp
  have := h p (he p hp)
  simp only [Bool.and_eq_true, decide_eq_true_eq] at *
  rintro ⟨⟨hb, hlo⟩, hhi⟩
  exact this ⟨⟨hb, by omega⟩, by omega⟩

/-- The read of an extent without an uncorrectable error gives its bytes. -/
theorem moonRead_good {s : State} {o n : Nat} (h : s.deepBad o n = none) : s.moonRead o n = (s.deepSoft o n, .inl (s.deepBytes o n)) := by
  have hs := deepSoft_frame s o n
  have hbytes : (s.deepSoft o n).deepBytes o n = s.deepBytes o n := by
    refine deepBytes_congr ?_ ?_ ?_ o n <;> rw [hs]
  unfold State.moonRead
  dsimp only
  rw [deepBad_none_part h (cleanRead_deepSoft s o n).errors (Nat.le_refl o) (Nat.le_refl _)]
  exact congrArg (fun b => (s.deepSoft o n, Sum.inl b)) hbytes

theorem length_deepBytes_le (s : State) (o n : Nat) : (s.deepBytes o n).length ≤ n := by
  unfold State.deepBytes State.deepRead SMap.getRun bytesAt
  split
  · simp
  · rw [List.length_take]
    exact Nat.min_le_left _ _

theorem deepBytes_zero (s : State) (o : Nat) : s.deepBytes o 0 = [] := List.length_eq_zero_iff.1 (Nat.le_zero.1 (length_deepBytes_le s o 0))

/-! ### A DMA_READ at the home of its segment (R260, R262, R272) -/

section
variable {s : State} {o n : Nat} {txn : Option Nat} {got : Bytes} (k : Nat)

/-- A part in a moon die that is off ends the request. -/
theorem homeOn_get_off (hn : 1 ≤ n) (hoff : s.moonOff (moonOf o) = true) : s.homeOn (k + 1) (.get o n txn []) = s.dmaAnswer o n txn (.inl 0x0E) := by
  have hpart : anyPart s.moonOff o (min 64 n) = true := anyPart_first (by omega) hoff
  unfold State.homeOn
  exact if_pos hpart

/-- How much of a segment is wanted: its header first, then what the header says. -/
def getWant (n : Nat) (got : Bytes) : Nat := if got.length < 64 then min 64 n else if segPlen got ≤ 4016 then min n (segSpace got) else got.length

/-- A segment that has been read whole answers the request. -/
theorem homeOn_get_whole (hon : anyPart s.moonOff o (getWant n got) = false) (hw : getWant n got ≤ got.length) :
    s.homeOn (k + 1) (.get o n txn got) = s.dmaAnswer o n txn (.inr got) := by
  unfold State.homeOn
  exact (if_neg (by rw [← getWant, hon]; exact Bool.false_ne_true)).trans (if_pos hw)

/-- The home reads what is wanted where it lies in its own region. -/
theorem homeOn_get_here (hoff : s.moonOff (moonOf o) = false) (hfree : s.home (moonOf o) = none) (hreg : o % 4096 + getWant n got ≤ 4096)
    (hw : got.length < getWant n got) (hgood : s.deepBad (o + got.length) (getWant n got - got.length) = none) :
    ∃ v, CleanRead s v ∧ s.homeOn (k + 1) (.get o n txn got) =
      v.homeOn k (.get o n txn (got ++ s.deepBytes (o + got.length) (getWant n got - got.length))) := by
  refine ⟨_, (cleanRead_deepSoft s (o + got.length) (getWant n got - got.length)).trans
    (cleanRead_countBytes _ 1 (o + got.length) (getWant n got - got.length)), ?_⟩
  have hmoon : moonOf (o + got.length) = moonOf o := moonOf_inside (by omega)
  have hcut : regionCut (o + got.length) (getWant n got - got.length) = getWant n got - got.length := regionCut_region (by omega)
  have hread := moonRead_good hgood
  conv_lhs => unfold State.homeOn
  dsimp only
  rw [← getWant, if_neg (by rw [anyPart_region hreg hoff]; exact Bool.false_ne_true), if_neg (by omega), if_neg (by simp [HomeOp.off, hfree]),
    if_pos hmoon, hcut, hread]

end

/-- The segment that begins at an offset, where it can be read within one region: its header, and what the header says follows. -/
theorem homeOn_get_segment {s : State} {o n l : Nat} {txn : Option Nat} {g b : Bytes} (hon : s.moonOff (moonOf o) = false)
    (hfree : s.home (moonOf o) = none) (hg : g = s.deepBytes o 64) (hl : l = segSpace g) (hb : b = g ++ s.deepBytes (o + 64) (l - 64))
    (hn : l ≤ n) (hreg : o % 4096 + l ≤ 4096) (hgood : s.deepBad o l = none) (hlen : b.length = l) (hplen : segPlen b = segPlen g)
    (hmax : segPlen b ≤ 4016) :
    ∃ v, CleanRead s v ∧ s.homeOn homeFuel (.get o n txn []) = v.dmaAnswer o n txn (.inr b) := by
  have h64 : 64 ≤ l := by rw [hl]; exact Nat.le_add_right _ _
  have hglen : g.length = 64 := by
    have h1 := length_deepBytes_le s o 64
    have h2 := length_deepBytes_le s (o + 64) (l - 64)
    rw [hb, List.length_append, hg] at hlen
    rw [hg]
    omega
  have hwant0 : getWant n [] = 64 := by
    unfold getWant
    rw [if_pos (by simp)]
    omega
  have hwantg : getWant n g = l := by
    unfold getWant
    rw [if_neg (by omega), if_pos (by omega), ← hl]
    omega
  have hwantb : getWant n b = l := by
    have hspace : segSpace b = l := by rw [hl, segSpace, hplen, ← segSpace]
    unfold getWant
    rw [if_neg (by omega), if_pos (by omega), hspace]
    omega
  obtain ⟨v, hv, hfirst⟩ := homeOn_get_here (txn := txn) (got := []) (n := n) 63 hon hfree (by rw [hwant0]; omega) (by rw [hwant0]; decide)
    (by rw [hwant0]; exact deepBad_none_part hgood (fun _ h => h) (Nat.le_refl o) (by simpa using h64))
  rw [hwant0, List.length_nil, Nat.sub_zero, List.nil_append, Nat.add_zero o, ← hg] at hfirst
  have hvon : v.moonOff (moonOf o) = false := by
    rw [hv.frame]
    exact hon
  by_cases hll : l = 64
  · have hbg : b = g := by rw [hb, hll, deepBytes_zero, List.append_nil]
    refine ⟨v, hv, ?_⟩
    rw [homeFuel, hfirst, hbg, homeOn_get_whole 62 (by rw [hwantg]; exact anyPart_region hreg hvon) (by omega)]
  · obtain ⟨u, hu, hsecond⟩ := homeOn_get_here (s := v) (txn := txn) (got := g) (n := n) 62 hvon (by rw [hv.frame]; exact hfree)
      (by rw [hwantg]; exact hreg) (by omega) (by rw [hwantg]; exact deepBad_none_part hgood hv.errors (Nat.le_add_right _ _) (by omega))
    have hbytes : v.deepBytes (o + 64) (l - 64) = s.deepBytes (o + 64) (l - 64) := by
      refine deepBytes_congr ?_ ?_ ?_ _ _ <;> rw [hv.frame]
    have huon : u.moonOff (moonOf o) = false := by
      rw [hu.frame]
      exact hvon
    rw [hwantg, hglen, hbytes, ← hb] at hsecond
    refine ⟨u, hv.trans hu, ?_⟩
    rw [homeFuel, hfirst, hsecond, homeOn_get_whole 61 (by rw [hwantb]; exact anyPart_region hreg huon) (by omega)]

/-! ### LOAD_IMAGE (R401 to R404, R455) -/

/-- Reports and events reach no ring of the host's descriptors. -/
theorem ring_decideIncidents (s : State) (f : Incident → Bool) (verdict : BitVec 8) {p : Nat} (hp : p ≠ 64) :
    (s.decideIncidents f verdict).ring p = s.ring p := by
  unfold State.decideIncidents
  extract_lets hit l
  refine (foldl_leaves (fun u => u.ring p) (fun u x => ?_) l _).trans rfl
  exact State.ring_raiseEvent _ _ _ _ _ hp

theorem ring_moonRead (s : State) (o n : Nat) {p : Nat} (hp : p ≠ 64) : (s.moonRead o n).1.ring p = s.ring p := by
  have hs : (s.deepSoft o n).ring p = s.ring p := by
    rw [deepSoft_frame]
    rfl
  unfold State.moonRead
  dsimp only
  split
  · exact (State.ring_raiseEvent _ _ _ _ _ hp).trans hs
  · exact hs

theorem ring_readContainers (s : State) (o n : Nat) {p : Nat} (hp : p ≠ 64) : (s.readContainers o n).1.ring p = s.ring p := by
  induction n generalizing s o with
  | zero => rfl
  | succ k ih =>
    unfold State.readContainers
    extract_lets r u t
    have hr : r.1.ring p = s.ring p := ring_moonRead _ _ _ hp
    split
    · exact hr
    · have hu : u.ring p = s.ring p := by
        simp only [u]
        rw [sendsOnly_countBytes]
        exact hr
      split
      · exact (State.ring_raiseEvent _ _ _ _ _ hp).trans hu
      · split
        · exact (ih _ _).trans hu
        · exact (ih _ _).trans hu

/-- Only domains and clusters change. -/
def State.voltagesOnly (s t : State) : Prop := t = { s with domains := t.domains, clusters := t.clusters }

theorem State.voltagesOnly.trans {s t u : State} (h : s.voltagesOnly t) (g : t.voltagesOnly u) : s.voltagesOnly u := by
  unfold State.voltagesOnly at *
  rw [g, h]

/-- Voltages stand in domains, and trims in clusters. -/
theorem voltagesOnly_setVoltages (s : State) : s.voltagesOnly s.setVoltages := by
  refine .trans (foldl_related (R := State.voltagesOnly) (fun _ => rfl) .trans (fun t d => ?_) (List.finRange 61) s)
    (foldl_related (R := State.voltagesOnly) (fun _ => rfl) .trans (fun t k => ?_) _ _)
  · split <;> rfl
  · unfold State.setTrim
    dsimp only
    split <;> rfl

theorem setVoltages_conns (s : State) : s.setVoltages.conns = s.conns := by rw [voltagesOnly_setVoltages]

theorem ring_setVoltages (s : State) (p : Nat) : s.setVoltages.ring p = s.ring p := by
  have hhost : s.setVoltages.host = s.host := by rw [voltagesOnly_setVoltages]
  rw [State.ring, State.ring, hhost]

/-- A change of the job's state, its event aside. -/
theorem ring_setJob (s : State) (st : JobState) (status reason : Nat) {p : Nat} (hp : p ≠ 64) : (s.setJob st status reason).ring p = s.ring p := by
  unfold State.setJob
  split
  · rfl
  · refine (State.ring_raiseEvent _ _ _ _ _ hp).trans ?_
    dsimp only [State.ring]
    split <;> rfl

/-- The first phase of an image that stands is loaded, and the job is LOADED. -/
theorem firstPhase_spec (s : State) (q : Nat) : (∃ ks, ((s.loadPhase q).setJob .loaded 0 0).setVoltages.job =
      { s.job with members := ks, state := .loaded }) ∧ ((s.loadPhase q).setJob .loaded 0 0).setVoltages.conns = s.conns ∧
    ∀ p, p ≠ 64 → ((s.loadPhase q).setJob .loaded 0 0).setVoltages.ring p = s.ring p := by
  obtain ⟨ks, hl⟩ := loadPhase_frame s q
  have hjob := hl.job
  have hconns : (s.loadPhase q).conns = s.conns := by rw [hl]
  have hring (p : Nat) : (s.loadPhase q).ring p = s.ring p := by
    rw [hl]
    rfl
  generalize s.loadPhase q = u at *
  refine ⟨⟨ks, by rw [setVoltages_job, setJob_job, hjob]⟩, ?_, fun p hp => ?_⟩
  · rw [setVoltages_conns, State.setJob_conns, hconns]
  · rw [ring_setVoltages, ring_setJob _ _ _ _ hp, hring]

/-- The image is in force and the job LOADED, with no connection; the descriptors stay. -/
theorem writeImage_spec (s : State) (off len : Nat) (img : Bytes) : (s.writeImage off len img).job.state = .loaded ∧
    (s.writeImage off len img).job.image = img ∧ (s.writeImage off len img).job.imageOffset = BitVec.ofNat 48 off ∧
    (s.writeImage off len img).conns = [] ∧ ∀ p, p ≠ 64 → (s.writeImage off len img).ring p = s.ring p := by
  unfold State.writeImage
  extract_lets u v j y ckpt genhan w recs x
  have hu (p : Nat) (hp : p ≠ 64) : u.ring p = s.ring p := ring_decideIncidents _ _ _ hp
  have hw : w.job = j.1 ∧ w.conns = [] ∧ ∀ p, w.ring p = u.ring p := ⟨rfl, rfl, fun _ => rfl⟩
  have hx : w.loadsOnly x := loadsOnly_foldl (fun t e => by rfl) _ w
  have hj : j.1.image = img ∧ j.1.imageOffset = BitVec.ofNat 48 off := ⟨rfl, rfl⟩
  obtain ⟨himg, hoffs⟩ := hj
  clear_value x w j u
  obtain ⟨⟨ks, hjob⟩, hconns, hring⟩ := firstPhase_spec x j.1.phase.toNat
  have hxring (p : Nat) : x.ring p = w.ring p := by
    rw [hx]
    rfl
  rw [hx.job, hw.1] at hjob
  rw [hjob]
  refine ⟨rfl, himg, hoffs, hconns.trans ?_, fun p hp => (hring p hp).trans ((hxring p).trans ((hw.2.2 p).trans (hu p hp)))⟩
  rw [hx]
  exact hw.2.1

/-- An image without a fault is written, and the work of its descriptor has ended. -/
theorem loadImage_accepted {s u : State} {p : Nat} {d : Desc} {img : Bytes} (hoff : s.deepOff = false) (hcool : s.power.coolantStop = false)
    (hlen : d.q2.toNat % 2112 = 0) (hfit : d.q1.toNat + d.q2.toNat ≤ s.areaBase 0)
    (hread : s.readContainers d.q1.toNat (d.q2.toNat / 2112) = (u, .inr img)) (hok : u.verdictOf img = none) :
    s.loadImage p d = (u.writeImage d.q1.toNat d.q2.toNat img).endDesc p d 0 0 := by
  unfold State.loadImage
  extract_lets off len r
  have hr : r = (u, .inr img) := hread
  rw [if_neg (by rw [hoff, hcool]; exact Bool.false_ne_true), if_neg (by omega), hr]
  dsimp only
  rw [hok]

/-- With deep memory or the coolant unfit the image is refused. -/
theorem loadImage_offline {s : State} (h : s.deepOff = true ∨ s.power.coolantStop = true) (p : Nat) (d : Desc) :
    s.loadImage p d = s.conclude p d 0x0E 0 := if_pos (by simpa using h)

theorem exec_loadImage_starts {s : State} {r : Fin 64} {tag : BitVec 16} {d : Desc} (hfree : s.homesFree = true) (hs : s.starts r tag 1 d)
    (hf : s.startFault d = none) :
    exec (.loadImage r tag) s = .next ((s.begun r d).loadImage r.val (d.startedAt s.time.sc)) :=
  congrArg Host.Outcome.next ((if_pos hfree).trans (exec_begin hs hf _))

/-- An image without a fault: the job is LOADED with it, and the descriptor's work has ended. -/
theorem exec_loadImage_accepted {s u : State} {r : Fin 64} {tag : BitVec 16} {d : Desc} {img : Bytes} (hfree : s.homesFree = true)
    (hs : s.starts r tag 1 d) (hf : s.startFault d = none) (hoff : s.deepOff = false) (hcool : s.power.coolantStop = false)
    (hlen : d.q2.toNat % 2112 = 0) (hfit : d.q1.toNat + d.q2.toNat ≤ (s.begun r d).areaBase 0)
    (hread : (s.begun r d).readContainers d.q1.toNat (d.q2.toNat / 2112) = (u, .inr img)) (hok : u.verdictOf img = none) :
    ∃ t, exec (.loadImage r tag) s = .next t ∧ WorkEnded t r d 0 0 ∧ t.job.state = .loaded ∧ t.job.image = img ∧
      t.job.imageOffset = d.q1.setWidth 48 ∧ t.conns = [] := by
  have hp : r.val ≠ 64 := by omega
  obtain ⟨hstate, himg, hoffset, hconns, hring⟩ := writeImage_spec u d.q1.toNat d.q2.toNat img
  have hu : u.ring r.val = (s.begun r d).ring r.val := by
    rw [← ring_readContainers (s.begun r d) d.q1.toNat (d.q2.toNat / 2112) hp, hread]
  have hin : (u.writeImage d.q1.toNat d.q2.toNat img).inProgress r.val (d.startedAt s.time.sc).serial := by
    unfold State.inProgress
    rw [hring _ hp, hu]
    exact begun_inProgress (mem_of_starts hs).1
  have hload : (s.begun r d).loadImage r.val (d.startedAt s.time.sc) =
      (u.writeImage d.q1.toNat d.q2.toNat img).endDesc r.val (d.startedAt s.time.sc) 0 0 :=
    loadImage_accepted hoff hcool hlen hfit hread hok
  generalize u.writeImage d.q1.toNat d.q2.toNat img = w at *
  refine ⟨_, (exec_loadImage_starts hfree hs hf).trans (congrArg Host.Outcome.next hload), workEnded_endDesc hin 0 0 rfl, hstate, himg, ?_, hconns⟩
  refine hoffset.trans (BitVec.eq_of_toNat_eq ?_)
  rw [BitVec.toNat_ofNat, BitVec.toNat_setWidth]

/-! ### Segments that the host interface die sends or asks for (R272, R304) -/

section
variable {s : State} {r : Fin 64} {tag : BitVec 16} {d : Desc} (hr : s.dmaRefused d = none) (hp : d.part = none)
include hr hp

section
variable (hd : s.findDesc r.val tag (fun x => decide (x.op = 2) && x.started && x.ended.isNone) = some d)
include hd

theorem exec_dmaToDeep_segment {seg : Bytes} (h64 : 64 ≤ seg.length) (hlen : seg.length = segSpace seg)
    (hplen : segPlen seg ≤ 4016) (hcode : draocOk seg = true) (hfit : d.bytes + seg.length ≤ d.q3.toNat) :
    exec (.dmaToDeep r tag (some seg)) s = .next (s.dmaAsk r.val { d with got := seg } 6 (d.q2.toNat + d.bytes) seg.length seg) := by
  refine congrArg Host.Outcome.next ((dma_goes hd hr hp _).trans ?_)
  dsimp only
  rw [List.take_of_length_le (by omega), dmaIn_whole h64 hlen hplen hcode hfit]
  rfl

theorem exec_dmaToDeep_failed : exec (.dmaToDeep r tag none) s = .next ((s.logRead .dma).dmaEnds r.val d (0x0A, false)) :=
  congrArg Host.Outcome.next (dma_goes hd hr hp _)

end

theorem exec_dmaFromDeep_one (hd : s.findDesc r.val tag (fun x => decide (x.op = 3) && x.started && x.ended.isNone) = some d) :
    exec (.dmaFromDeep r tag 1) s =
      .next (s.dmaAsk r.val { d with got := [] } 5 (d.q2.toNat + d.bytes) (min 4096 (d.q3.toNat - d.bytes)) []) :=
  congrArg Host.Outcome.next (dma_goes hd hr hp _)

end

/-! ### Segments at their home (R260, R264, R271, R272, R326) -/

theorem dmaFor_of_host {s t : State} (h : t.host = s.host) (o n : Nat) (txn : Option Nat) : t.dmaFor o n txn = s.dmaFor o n txn := by
  rw [State.dmaFor, State.dmaFor, h]

theorem ring_of_host {s t : State} (h : t.host = s.host) (p : Nat) : t.ring p = s.ring p := by rw [State.ring, State.ring, h]

/-- A status ends the descriptor that waits, with the segments that have moved. -/
theorem dmaAnswer_ends {s : State} {r : Fin 64} {d : Desc} {o n : Nat} {txn : Option Nat} (hfor : s.dmaFor o n txn = some (r.val, d))
    (hd : d ∈ (s.ring r.val).inProgress) (e : Nat) :
    WorkEnded (s.dmaAnswer o n txn (.inl e)) r d e d.moved ∧ (s.dmaAnswer o n txn (.inl e)).deep = s.deep := by
  refine ⟨?_, by rw [reportsOnly_dmaAnswer]⟩
  rw [dmaAnswer_status hfor]
  exact dmaEnds_workEnded hd e

section
variable {m : Fin 4} {h : BitVec 128} {data : Bytes} {s : State} {f : Packet → Bool} {r : Fin 64} {d : Desc}
  (hf : f = isForComp 1 m.val 0xA (h.setWidth 256) data) (hw : s.waits f = false) (hm : moonOf (dhOffset h) = m.val)
  (hcap : dhOffset h + dhLength h ≤ s.capacity) (hfor : s.dmaFor (dhOffset h) (dhLength h) (s.txnOf f) = some (r.val, d))
  (hd : d ∈ (s.ring r.val).inProgress)
include hf hw hm hcap hfor hd

section
variable (hok : deepHeaderOk 6 h = true) (hlen : data.length = dhLength h)
include hok hlen

/-- A DMA_WRITE goes to the access at its home. -/
theorem exec_dmaWrite_starts : data ≠ [] ∧ (s.arrived f).dmaFor (dhOffset h) (dhLength h) (s.txnOf f) = some (r.val, d) ∧
    d ∈ ((s.arrived f).ring r.val).inProgress ∧
    exec (.dmaWrite m h data) s = .next ((s.arrived f).homeOn (63 + 1) (.put (dhOffset h) (dhLength h) (s.txnOf f) data)) := by
  obtain ⟨hpos, -⟩ := dhLength_range hok (by decide)
  exact ⟨List.ne_nil_of_length_pos (by omega), (dmaFor_arrived _ _ _ _ _ _).trans hfor, (ring_arrived s f 0 r.val).symm ▸ hd,
    exec_dmaWrite hf hw hok hm hcap hlen⟩

/-- The home of the segment is off. -/
theorem dmaWrite_ends_off (hoff : s.moonOff m.val = true) (hc : s.areaClosed (dhOffset h) (dhLength h) = false) :
    ∃ t, exec (.dmaWrite m h data) s = .next t ∧ WorkEnded t r d 0x0E d.moved ∧ t.deep = s.deep := by
  obtain ⟨hne, hfor', hd', hexec⟩ := exec_dmaWrite_starts hf hw hm hcap hfor hd hok hlen
  have hput := homeOn_put_off (s := s.arrived f) (o := dhOffset h) (n := dhLength h) (txn := s.txnOf f) 63 hne (by rw [areaClosed_arrived]; exact hc)
    (anyPart_first (dhLength_range hok (by decide)).1 (by rw [moonOff_arrived, hm]; exact hoff))
  obtain ⟨hend, hdeep⟩ := dmaAnswer_ends hfor' hd' 0x0E
  exact ⟨_, hexec.trans (congrArg Host.Outcome.next hput), hend, hdeep.trans (State.arrived_deep _ _ _)⟩

/-- The drain area that the segment reaches into was closed meanwhile (R264). -/
theorem dmaWrite_ends_closed (hc : s.areaClosed (dhOffset h) (dhLength h) = true) :
    ∃ t, exec (.dmaWrite m h data) s = .next t ∧ WorkEnded t r d 7 d.moved ∧ t.deep = s.deep := by
  obtain ⟨hne, hfor', hd', hexec⟩ := exec_dmaWrite_starts hf hw hm hcap hfor hd hok hlen
  have hput := homeOn_put_closed (s := s.arrived f) (o := dhOffset h) (txn := s.txnOf f) 63 hne hlen (by rw [areaClosed_arrived]; exact hc)
  obtain ⟨hend, hdeep⟩ := dmaAnswer_ends hfor' hd' 7
  exact ⟨_, hexec.trans (congrArg Host.Outcome.next hput), hend, hdeep.trans (State.arrived_deep _ _ _)⟩

/-- A segment within one region is stored whole: the run ends with its last segment, and an ABORT ends it before (Table 11.6). -/
theorem dmaWrite_moves (hop : d.op = 2) (hc : s.areaClosed (dhOffset h) (dhLength h) = false) (hon : s.moonOff m.val = false) (hfree : s.home m.val = none)
    (hreg : dhOffset h % 4096 + dhLength h ≤ 4096) :
    ∃ t, exec (.dmaWrite m h data) s = .next t ∧ t.deep = (s.deepPut (dhOffset h) data).deep ∧ t.home m.val = none ∧
      (d.bytes + d.got.length = d.q3.toNat → WorkEnded t r d 0 (d.moved + 1)) ∧
      (d.bytes + d.got.length ≠ d.q3.toNat → d.abortedBy ≠ [] → WorkEnded t r d 0 (d.moved + 1) ∧
        ∃ x ∈ (t.ring r.val).inProgress, x.serial = d.serial ∧ x.cut = true) := by
  obtain ⟨hne, hfor', hd', hexec⟩ := exec_dmaWrite_starts hf hw hm hcap hfor hd hok hlen
  have hput := homeOn_put_whole (s := s.arrived f) (txn := s.txnOf f) 62 hne hlen (by rw [areaClosed_arrived]; exact hc)
    (by rw [moonOff_arrived, hm]; exact hon) (by rw [home_arrived, hm]; exact hfree) hreg
  have hframe := deepPut_frame (s.arrived f) (dhOffset h) data
  have hdeep : ((s.arrived f).deepPut (dhOffset h) data).deep = (s.deepPut (dhOffset h) data).deep :=
    deepPut_deep_congr (State.arrived_deep _ _ _) (State.arrived_boot _ _ _) (State.arrived_ckpt _ _ _) _ _
  have hhost : ((s.arrived f).deepPut (dhOffset h) data).host = (s.arrived f).host := by rw [hframe]
  have hhomes : ((s.arrived f).deepPut (dhOffset h) data).homes = s.homes := by
    rw [hframe]
    exact State.arrived_homes _ _ _
  have hanswer := dmaAnswer_stored ((dmaFor_of_host hhost _ _ _).trans hfor') hop []
  have hin : ((s.arrived f).deepPut (dhOffset h) data).inProgress r.val d.serial := by
    refine ⟨d, ?_, rfl⟩
    rw [ring_of_host hhost]
    exact hd'
  rw [hput, hanswer] at hexec
  generalize (s.arrived f).deepPut (dhOffset h) data = v at hexec hdeep hhomes hin
  have hr := reportsOnly_dmaMoved v r.val d
  refine ⟨_, hexec, ?_, ?_, dmaMoved_last hin, dmaMoved_cut hin⟩
  · rw [hr]
    exact hdeep
  · rw [hr]
    exact (home_of_homes hhomes m.val).trans hfree

/-- Of a segment that reaches into the next region the home stores its part, and has the rest stored there. -/
theorem dmaWrite_splits {c : Nat} (hc : s.areaClosed (dhOffset h) (dhLength h) = false) (hon : anyPart s.moonOff (dhOffset h) (dhLength h) = false)
    (hfree : s.home m.val = none) (hcut : c = 4096 - dhOffset h % 4096) (hreg : c < dhLength h) :
    ∃ t p, exec (.dmaWrite m h data) s = .next t ∧ t.deep = (s.deepPut (dhOffset h) (data.take c)).deep ∧
      t.home m.val = some (.put (dhOffset h) (dhLength h) (s.txnOf f) (data.drop c)) ∧ t.waiting = s.waiting ++ [p] ∧ p.pkind = 0xA ∧ p.exit = 1 ∧
      p.comp.toNat = moonOf (dhOffset h + c) ∧ p.hdr = (deepHeader 4 false false 0 0 (dhOffset h + c) (dhLength h - c) 0).setWidth 256 ∧
      p.data = data.drop c := by
  obtain ⟨hne, -, -, hexec⟩ := exec_dmaWrite_starts hf hw hm hcap hfor hd hok hlen
  have hput := homeOn_put_split (s := s.arrived f) (txn := s.txnOf f) 62 hlen (dhLength_range hok (by decide)).2
    (by rw [areaClosed_arrived]; exact hc) (by rw [moonOff_arrived]; exact hon) (by rw [home_arrived, hm]; exact hfree) hcut hreg
  have hdeep : ((s.arrived f).deepPut (dhOffset h) (data.take c)).deep = (s.deepPut (dhOffset h) (data.take c)).deep :=
    deepPut_deep_congr (State.arrived_deep _ _ _) (State.arrived_boot _ _ _) (State.arrived_ckpt _ _ _) _ _
  have hwaiting := (deepPut_waiting (s.arrived f) (dhOffset h) (data.take c)).trans (State.arrived_waiting _ _ _)
  rw [hput] at hexec
  generalize (s.arrived f).deepPut (dhOffset h) (data.take c) = v at hexec hdeep hwaiting
  obtain ⟨hhome, p, hwait, hkind, hexit, hcomp, hhdr, hdata⟩ := awaitPart_asks v
    (.put (dhOffset h) (dhLength h) (s.txnOf f) (data.drop c)) 4 (dhOffset h + c) (dhLength h - c) (data.drop c)
  exact ⟨_, p, hexec, hdeep, hm ▸ hhome, hwait.trans (congrArg (· ++ [p]) hwaiting), hkind, hexit, hcomp, hhdr, hdata⟩

end

section
variable (hok : deepHeaderOk 5 h = true) (hnil : data = [])
include hok hnil

/-- A DMA_READ goes to the access at its home. -/
theorem exec_dmaRead_starts : (s.arrived f).dmaFor (dhOffset h) (dhLength h) (s.txnOf f) = some (r.val, d) ∧
    d ∈ ((s.arrived f).ring r.val).inProgress ∧
    exec (.dmaRead m h) s = .next ((s.arrived f).homeOn homeFuel (.get (dhOffset h) (dhLength h) (s.txnOf f) [])) :=
  ⟨(dmaFor_arrived _ _ _ _ _ _).trans hfor, (ring_arrived s f 0 r.val).symm ▸ hd, exec_dmaRead (hnil ▸ hf) hw hok hm hcap⟩

/-- The home of the segment is off. -/
theorem dmaRead_ends_off (hoff : s.moonOff m.val = true) :
    ∃ t, exec (.dmaRead m h) s = .next t ∧ WorkEnded t r d 0x0E d.moved ∧ t.deep = s.deep := by
  obtain ⟨hfor', hd', hexec⟩ := exec_dmaRead_starts hf hw hm hcap hfor hd hok hnil
  have hget := homeOn_get_off (s := s.arrived f) (o := dhOffset h) (n := dhLength h) (txn := s.txnOf f) 63 (dhLength_range hok (by decide)).1
    (by rw [moonOff_arrived, hm]; exact hoff)
  obtain ⟨hend, hdeep⟩ := dmaAnswer_ends hfor' hd' 0x0E
  exact ⟨_, hexec.trans (congrArg Host.Outcome.next hget), hend, hdeep.trans (State.arrived_deep _ _ _)⟩

/-- The last segment of a run, read whole at its home, goes to host memory and ends the run. -/
theorem dmaRead_moves {g b : Bytes} {l : Nat} (hop : d.op = 3) (hon : s.moonOff m.val = false) (hfree : s.home m.val = none)
    (hg : g = s.deepBytes (dhOffset h) 64) (hl : l = segSpace g) (hb : b = g ++ s.deepBytes (dhOffset h + 64) (l - 64))
    (hn : l ≤ dhLength h) (hreg : dhOffset h % 4096 + l ≤ 4096) (hgood : s.deepBad (dhOffset h) l = none) (hlen : b.length = l)
    (hplen : segPlen b = segPlen g) (hmax : segPlen b ≤ 4016) (hcode : draocOk b = true) (hlast : d.bytes + l = d.q3.toNat) :
    ∃ t, exec (.dmaRead m h) s = .next t ∧ WorkEnded t r d 0 (d.moved + 1) ∧ t.deep = s.deep ∧
      Output.hostWrite (d.q1 + BitVec.ofNat 64 d.bytes) b ∈ t.out := by
  obtain ⟨hfor', hd', hexec⟩ := exec_dmaRead_starts hf hw hm hcap hfor hd hok hnil
  obtain ⟨v, hv, hget⟩ := homeOn_get_segment (s := s.arrived f) (txn := s.txnOf f) (by rw [moonOff_arrived, hm]; exact hon)
    (by rw [home_arrived, hm]; exact hfree) (by rw [deepBytes_arrived]; exact hg) hl (by rw [deepBytes_arrived]; exact hb) hn hreg
    (by rw [deepBad_arrived]; exact hgood) hlen hplen hmax
  have hhost : v.host = (s.arrived f).host := by rw [hv.frame]
  have hspace : segSpace b = l := by rw [hl, segSpace, hplen, ← segSpace]
  have hbad : dmaBad { d with got := b } b = none := by
    have hfits : ¬({ d with got := b } : Desc).q3.toNat < ({ d with got := b } : Desc).bytes + segSpace b := by
      change ¬d.q3.toNat < d.bytes + segSpace b
      omega
    unfold dmaBad
    rw [if_neg (by omega), if_neg hfits, if_neg (by simp [hcode])]
  have hin : (v.dmaOut d b).inProgress r.val ({ d with got := b } : Desc).serial := by
    refine ⟨d, ?_, rfl⟩
    rw [ring_of_host (s := s.arrived f) (t := v.dmaOut d b) hhost]
    exact hd'
  have hdeep : v.deep = s.deep := by
    rw [hv.frame]
    exact State.arrived_deep _ _ _
  have hend := dmaMoved_last hin (by
    change d.bytes + b.length = d.q3.toNat
    omega)
  rw [hget, dmaAnswer_read ((dmaFor_of_host hhost _ _ _).trans hfor') hop hbad] at hexec
  refine ⟨_, hexec, hend, ?_, ?_⟩
  · rw [reportsOnly_dmaMoved]
    exact hdeep
  · rw [dmaMoved_at_end (by change d.bytes + b.length = d.q3.toNat; omega)]
    exact List.mem_append_right _ (List.mem_singleton.2 rfl)

end

end

/-! ### The obligation -/

/-- Settles O36: an image by `writeImage_spec`, the requests of a run by `dmaAsk_asks`, its segments at their homes by `homeOn_put_whole`,
`homeOn_put_split` and `homeOn_get_segment`, and the ends of a run by `dmaAnswer_ends` and `dmaMoved_last`. -/
theorem imagesAndSegmentsMove : Obligations.ImagesAndSegmentsMove := by
  intro r tag s d
  refine ⟨fun hbusy => ?_, fun hfree hs hf => ⟨fun hoff hready => ?_, fun b u img hb hoff hcool hlen hfit hread hok => ?_⟩,
    fun op o hop hd hr hp ho => ?_, fun m h o n data f i ho hn hi hop hwr hrd hf hw hm hcap hfor hd => ?_⟩
  · exact congrArg Host.Outcome.next (if_neg (by rw [hbusy]; exact Bool.false_ne_true))
  · refine ⟨_, exec_loadImage_starts hfree hs hf, ?_⟩
    rw [loadImage_offline (s := s.begun r d) hoff]
    exact (conclude_begun hready 0x0E 0 rfl).1
  · subst hb
    exact exec_loadImage_accepted hfree hs hf hoff hcool hlen hfit hread hok
  · subst ho
    refine ⟨fun seg h2 h64 hlen hplen hcode hfit => ?_, fun h2 => ?_, fun n h3 hn => ?_⟩
    · subst h2
      have hin := mem_of_findDesc hd
      obtain ⟨p, x, hask⟩ := dmaAsk_asks (d := { d with got := seg }) hin 6 (d.q2.toNat + d.bytes) seg.length seg
      exact ⟨_, p, x, exec_dmaToDeep_segment hr hp hd h64 hlen hplen hcode hfit, hask⟩
    · subst h2
      refine ⟨_, exec_dmaToDeep_failed hr hp hd, ?_, ?_, ?_⟩
      · exact dmaEnds_workEnded (s := s.logRead .dma) (List.mem_of_find?_eq_some hd) 0x0A
      · rw [reportsOnly_dmaEnds]
        rfl
      · rfl
    · subst h3 hn
      have hin := mem_of_findDesc hd
      obtain ⟨p, x, hwait, hkind, hexit, hcomp, hhdr, hdata, htxn, hdeep, hx, hserial, hpart, -⟩ :=
        dmaAsk_asks (d := { d with got := [] }) hin 5 (d.q2.toNat + d.bytes) (min 4096 (d.q3.toNat - d.bytes)) []
      exact ⟨_, p, x, exec_dmaFromDeep_one hr hp hd, hwait, hkind, hexit, hcomp, hhdr, hdata, htxn, hdeep, hx, hserial, hpart⟩
  · subst ho hn
    have two : d.op = 2 → i = .dmaWrite m h data := fun h2 => hi.trans (if_pos h2)
    have three : d.op = 3 → i = .dmaRead m h := fun h3 => hi.trans (if_neg (by omega))
    refine ⟨fun hoff hc => ?_, fun h2 hc => ?_, fun h2 hc hon hfree hreg => ?_, fun c h2 hc hon hfree hcut hreg => ?_,
      fun g l b h3 hon hfree hg hl hb hn hreg hgood hlen hplen hmax hcode hlast => ?_⟩
    · rcases hop with h2 | h3
      · obtain ⟨hok, hdl⟩ := hwr h2
        exact two h2 ▸ dmaWrite_ends_off hf hw hm hcap hfor hd hok hdl hoff (hc h2)
      · obtain ⟨hok, hnil⟩ := hrd h3
        exact three h3 ▸ dmaRead_ends_off hf hw hm hcap hfor hd hok hnil hoff
    · obtain ⟨hok, hdl⟩ := hwr h2
      exact two h2 ▸ dmaWrite_ends_closed hf hw hm hcap hfor hd hok hdl hc
    · obtain ⟨hok, hdl⟩ := hwr h2
      exact two h2 ▸ dmaWrite_moves hf hw hm hcap hfor hd hok hdl h2 hc hon hfree hreg
    · obtain ⟨hok, hdl⟩ := hwr h2
      exact two h2 ▸ dmaWrite_splits hf hw hm hcap hfor hd hok hdl hc hon hfree hcut hreg
    · obtain ⟨hok, hnil⟩ := hrd h3
      exact three h3 ▸ dmaRead_moves hf hw hm hcap hfor hd hok hnil h3 hon hfree hg hl hb hn hreg hgood hlen hplen hmax hcode hlast

end Sys2Proof.Machine

/-! PROOFS. Frames at a Vevas port: acceptance in sequence, acknowledgement and replay, frame lock, and the ways that a port loses (R279, R280, R284,
R286 to R288, R302). -/

namespace Sys2Proof.Machine

/-! ### Readings of a port -/

theorem port_of_ports {s t : State} (h : t.ports = s.ports) (i : Nat) : t.port i = s.port i := by
  unfold State.port
  rw [h]

@[simp] theorem port_countPort (s : State) (i n m j : Nat) : (s.countPort i n m).port j = s.port j := rfl

/-- A port that carries is in neither of the states that carry nothing. -/
theorem Port.carries_iff {p : Port} : p.carries = true ↔ p.state = .up ∨ p.state = .upNarrow := by
  simp [Port.carries]

theorem signalsOnly_modPort (s : State) (i : Nat) (f : Port → Port) : s.signalsOnly (s.modPort i f) := rfl

theorem signalsOnly_countPort (s : State) (i n m : Nat) : s.signalsOnly (s.countPort i n m) := rfl

theorem State.signalsOnly.mesh {s t : State} (h : s.signalsOnly t) : t.mesh = s.mesh := by rw [h]

theorem State.signalsOnly.cores {s t : State} (h : s.signalsOnly t) : t.cores = s.cores := h.jobSignals.cores

theorem State.signalsOnly.deep {s t : State} (h : s.signalsOnly t) : t.deep = s.deep := h.jobSignals.deep

theorem State.signalsOnly.time {s t : State} (h : s.signalsOnly t) : t.time = s.time := h.jobSignals.time

/-! ### Frames that leave (R280, R285) -/

/-- A port behind a frame that left it: the credits that the frame returned are no longer owed. -/
def Port.frameSent (p : Port) : Port := { p with
  freed := (List.range 5).foldl (fun m c => SMap.set 0 m (8 * p.creditSet + c) (SMap.get 0 m (8 * p.creditSet + c) - p.creditOf c)) p.freed
  txFrames := p.txFrames + 1 }

theorem port_sendFrame (s : State) (i : Nat) (b : Bytes) (nak : Bool) : (s.sendFrame i b nak).port i = (s.port i).frameSent := by
  unfold State.sendFrame
  dsimp only
  split
  · exact State.port_putPort_same s i _
  · exact State.port_putPort_same s i _

theorem sendFrame_out (s : State) (port : Fin 64) (b : Bytes) (nak : Bool) :
    (s.sendFrame port.val b nak).out = s.out ++ [.frame port ((s.port port.val).frameBytes nak b)] := by
  unfold State.sendFrame
  dsimp only
  rw [dif_pos port.isLt]
  rfl

/-- Between two states of a port only frames have left: what it owes in credits and its count of frames may differ. -/
def Port.sendsFrames (p q : Port) : Prop := q = { p with freed := q.freed, txFrames := q.txFrames }

theorem Port.sendsFrames.trans {p q r : Port} (h : p.sendsFrames q) (g : q.sendsFrames r) : p.sendsFrames r := by
  unfold Port.sendsFrames at *
  rw [g, h]

/-- Several frames leave one after the other. -/
theorem sendFrames_port {α : Type} (f : α → Bytes) (i : Nat) (l : List α) (s : State) :
    (s.port i).sendsFrames ((l.foldl (fun s a => s.sendFrame i (f a)) s).port i) := by
  induction l generalizing s with
  | nil => rfl
  | cons a l ih => exact Port.sendsFrames.trans (q := (s.sendFrame i (f a)).port i) (by rw [port_sendFrame]; rfl) (ih _)

theorem sendFrames_out {α : Type} (f : α → Bytes) (port : Fin 64) (l : List α) (s : State) :
    (l.foldl (fun s a => s.sendFrame port.val (f a)) s).out.length = s.out.length + l.length := by
  induction l generalizing s with
  | nil => rfl
  | cons a l ih => rw [List.foldl_cons, ih, sendFrame_out, List.length_append, List.length_cons, List.length_cons, List.length_nil]; omega

theorem signalsOnly_sendFrames {α : Type} (f : α → Bytes) (i : Nat) (l : List α) (s : State) :
    s.signalsOnly (l.foldl (fun s a => s.sendFrame i (f a)) s) := signalsOnly_foldl (fun u a => signalsOnly_sendFrame u i (f a) false) l s

/-! ### A port enters a state (R295, R348) -/

@[simp] theorem parentUp_ports (s : State) (i : Nat) (st : PortState) : (s.parentUp i st).ports = s.ports := by
  unfold State.parentUp
  dsimp only
  split <;> rfl

theorem port_setPortState (s : State) (i : Nat) (st : PortState) (reason width : Nat) : (s.setPortState i st reason width).port i =
    { s.port i with state := st, reason := BitVec.ofNat 4 reason, width := BitVec.ofNat 4 width } := by
  have hput : ((s.putPort i { s.port i with state := st, reason := BitVec.ofNat 4 reason, width := BitVec.ofNat 4 width }).parentUp i st).port i =
      { s.port i with state := st, reason := BitVec.ofNat 4 reason, width := BitVec.ofNat 4 width } :=
    (port_of_ports (parentUp_ports _ _ _) i).trans (State.port_putPort_same s i _)
  unfold State.setPortState
  dsimp only
  split
  · exact hput
  · exact (port_of_ports (State.raiseEvent_ports _ _ _ _) i).trans hput

/-- Besides signals, only the state of the time discipline changes: a time parent port that carries starts it (R348). -/
def State.linkSignals (s t : State) : Prop := ({ s with time := { s.time with state := t.time.state } } : State).signalsOnly t

theorem State.linkSignals.trans {s t u : State} (h : s.linkSignals t) (g : t.linkSignals u) : s.linkSignals u := by
  unfold State.linkSignals State.signalsOnly at *
  rw [g, h]

theorem State.linkSignals.after {s t u : State} (g : t.linkSignals u) (h : s.linkSignals t) : s.linkSignals u := h.trans g

theorem State.signalsOnly.linkSignals {s t : State} (h : s.signalsOnly t) : s.linkSignals t := by
  unfold State.linkSignals State.signalsOnly at *
  rw [h]

theorem linkSignals_parentUp (s : State) (i : Nat) (st : PortState) : s.linkSignals (s.parentUp i st) := by
  unfold State.parentUp
  dsimp only
  split <;> rfl

theorem linkSignals_setPortState (s : State) (i : Nat) (st : PortState) (reason width : Nat) :
    s.linkSignals (s.setPortState i st reason width) := by
  unfold State.setPortState
  extract_lets p u
  have hu : s.linkSignals u := .trans (t := s.putPort i _) rfl (linkSignals_parentUp _ i st)
  split
  · exact hu
  · exact hu.trans (signalsOnly_raiseEvent _ _ _ _).linkSignals

section
variable {s t : State} (h : s.linkSignals t)
include h

theorem State.linkSignals.cores : t.cores = s.cores := by rw [h]
theorem State.linkSignals.deep : t.deep = s.deep := by rw [h]
theorem State.linkSignals.nv : t.nv = s.nv := by rw [h]
theorem State.linkSignals.portEntry (i : Nat) : t.portEntry i = s.portEntry i := by rw [h]; rfl
theorem State.linkSignals.idOk (i : Nat) (m : Bytes) : t.idOk i m = s.idOk i m := by rw [h]; rfl

end

/-! ### Replays (R287, R288) -/

/-- Every unacknowledged frame goes out again; nothing else of the port changes but its count of replays and the ACK where this one began. -/
theorem replayAll_spec {s : State} {port : Fin 64} {f : BitVec 12 × Bytes} {r : List (BitVec 12 × Bytes)} (h : (s.port port.val).replay = f :: r) :
    s.signalsOnly (s.replayAll port.val) ∧ (s.replayAll port.val).out.length = s.out.length + (f :: r).length ∧
    ∃ q, (s.port port.val).sendsFrames q ∧
      (s.replayAll port.val).port port.val = { q with replays := (s.port port.val).replays + 1, naked := some (f.1 - 1) } := by
  have hout := sendFrames_out (fun x : BitVec 12 × Bytes => x.2) port (f :: r) s
  have hsig := signalsOnly_sendFrames (fun x : BitVec 12 × Bytes => x.2) port.val (f :: r) s
  have hport := sendFrames_port (fun x : BitVec 12 × Bytes => x.2) port.val (f :: r) s
  have heq : s.replayAll port.val = (((f :: r).foldl (fun s f => s.sendFrame port.val f.2) s).countPort port.val 2 (f :: r).length).modPort port.val
      fun q => { q with replays := q.replays + 1, naked := some (f.1 - 1) } := by
    unfold State.replayAll
    dsimp only
    rw [h]
    rfl
  rw [heq]
  refine ⟨(signalsOnly_modPort _ _ _).after (hsig.trans (signalsOnly_countPort _ _ _ _)), hout, _, hport, ?_⟩
  rw [State.port_modPort_same, port_countPort]
  generalize State.port _ _ = q at hport ⊢
  rw [hport]

/-- A port that retrains at the loss of its frames or of frame lock: the peer is told, and traffic waits. -/
theorem beginRetrain_spec {s : State} {i : Nat} (h : (s.port i).carries = true) :
    s.linkSignals (s.beginRetrain i) ∧ ((s.beginRetrain i).port i).state = .retrain ∧ ((s.beginRetrain i).port i).replay = (s.port i).replay ∧
    ((s.beginRetrain i).port i).lock = (s.port i).lock := by
  have heq : s.beginRetrain i = (s.sendLink i [4]).setPortState i .retrain 0 0 := if_pos h
  rw [heq, port_setPortState, State.sendLink, port_sendFrame]
  exact ⟨(signalsOnly_sendFrame _ _ _ _).linkSignals.trans (linkSignals_setPortState _ _ _ _ _), rfl, rfl, rfl⟩

/-! ### A port that is flushed with nothing to send (R281) -/

/-- With nothing waiting nothing leaves. -/
theorem flush_idle {s : State} {i : Nat} (h : (s.port i).txWait = []) : s.signalsOnly (s.flush i) ∧ (s.flush i).port i = s.port i ∧
    (s.flush i).out = s.out := by
  unfold State.flush
  dsimp only
  split
  · have hp : ({ s.port i with txWait := [] } : Port) = s.port i := by rw [← h]
    rw [h, hp]
    exact ⟨rfl, State.port_putPort_same s i _, rfl⟩
  · exact ⟨rfl, rfl, rfl⟩

/-! ### A frame comes in (R279, R280, R285, R286) -/

/-- A frame has come in at a port: it is counted, and so is the run of good or bad frames. -/
def State.frameNoted (s : State) (i : Nat) (bad : List (Nat × Nat)) (hit : Bool) : State :=
  (((s.countCorrected i).modPort i fun p => p.noteFrame bad).countPort i 4 bad.length).modPort i fun p => p.noteRun hit

theorem port_frameNoted (s : State) (i : Nat) (bad : List (Nat × Nat)) (hit : Bool) :
    (s.frameNoted i bad hit).port i = ((s.port i).noteFrame bad).noteRun hit := by
  rw [State.frameNoted, State.port_modPort_same, port_countPort, State.port_modPort_same]
  rfl

theorem signalsOnly_frameNoted (s : State) (i : Nat) (bad : List (Nat × Nat)) (hit : Bool) : s.signalsOnly (s.frameNoted i bad hit) :=
  have hcorrected : s.signalsOnly (s.countCorrected i) := (signalsOnly_countPort _ _ _ _).after rfl
  (hcorrected.trans (signalsOnly_modPort _ _ _)).trans ((signalsOnly_modPort _ _ _).after (signalsOnly_countPort _ _ _ _))

theorem Port.noteRun_carries (p : Port) (bad : List (Nat × Nat)) (hit : Bool) : ((p.noteFrame bad).noteRun hit).carries = p.carries := by
  cases hit <;> rfl

theorem Port.noteRun_txWait (p : Port) (bad : List (Nat × Nat)) (hit : Bool) : ((p.noteFrame bad).noteRun hit).txWait = p.txWait := by
  cases hit <;> rfl

/-- The length and the CRC of a frame are right. -/
def crcGood (b : Bytes) : Prop := b.length = 344 ∧ (crc64 (b.take 336)).toNat = numAt b 336 8

/-- A frame in a DATA position whose CRC fails draws a NAK. -/
theorem frameIn_crcBad {s : State} {i : Nat} {b : Bytes} (bad : List (Nat × Nat)) (hc : (s.port i).carries = true) (hb : ¬crcGood b) :
    s.frameIn i b bad true = (s.frameNoted i bad true).nakOnce i := by
  have hcrc : (decide (b.length = 344) && decide ((crc64 (b.take 336)).toNat = numAt b 336 8)) = false := by
    rw [← Bool.decide_and]
    exact decide_eq_false hb
  have hcar : ((s.frameNoted i bad true).port i).carries = true := by rw [port_frameNoted, Port.noteRun_carries, hc]
  unfold State.frameIn
  simp only [hcrc, Bool.not_false, Bool.or_true, if_true, Bool.true_and]
  exact if_pos hcar

/-- A port behind the ACK and the credits of a frame. -/
def Port.acked (p : Port) (b : Bytes) : Port :=
  let h := numAt b 0 16
  let a := BitVec.ofNat 12 (bitsOf h 111 100)
  let r := if h.testBit 99 then ackReplay a p.replay else p.replay
  let moved := decide (r.length < p.replay.length)
  { p with
    replay := r
    unacked := p.unacked.filter fun u => r.any fun f => decide (f.1 = u.1)
    replays := if moved then 0 else p.replays
    naked := if moved && p.naked ≠ some a then none else p.naked
    txCredits := (List.range 5).foldl (fun m c => SMap.set 0 m (8 * bitsOf h 37 37 + c)
      (SMap.get 0 m (8 * bitsOf h 37 37 + c) + bitsOf h (8 * c + 45) (8 * c + 38))) p.txCredits }

/-- A frame that says no NAK, at a port where nothing waits, moves only its acknowledgements and credits. -/
theorem takeAcks_quiet {s : State} {i : Nat} {b : Bytes} (hn : (numAt b 0 16).testBit 98 = false) (hw : (s.port i).txWait = []) :
    s.signalsOnly (s.takeAcks i b) ∧ (s.takeAcks i b).port i = (s.port i).acked b := by
  have heq : s.takeAcks i b = (s.modPort i fun p => p.acked b).flush i := by
    unfold State.takeAcks
    simp only [hn, Bool.false_and, Bool.false_eq_true, if_false]
    rfl
  have hport : (s.modPort i fun p => p.acked b).port i = (s.port i).acked b := State.port_modPort_same s i _
  have hidle : ((s.modPort i fun p => p.acked b).port i).txWait = [] := by rw [hport]; exact hw
  obtain ⟨hsig, hflush, -⟩ := flush_idle hidle
  rw [heq, hflush, hport]
  exact ⟨hsig.after (signalsOnly_modPort _ _ _), rfl⟩

/-- A frame that is read: the state behind its counts, its acknowledgement and its credits. -/
def State.frameRead (s : State) (i : Nat) (b : Bytes) (bad : List (Nat × Nat)) : State :=
  (s.frameNoted i bad ((s.port i).badFrame bad)).takeAcks i b

section
variable {s : State} {i : Nat} {b : Bytes} {bad : List (Nat × Nat)} (hc : (s.port i).carries = true) (hw : (s.port i).txWait = [])
  (hn : (numAt b 0 16).testBit 98 = false)
include hw hn

theorem frameRead_spec : s.signalsOnly (s.frameRead i b bad) ∧
    (s.frameRead i b bad).port i = (((s.port i).noteFrame bad).noteRun ((s.port i).badFrame bad)).acked b := by
  obtain ⟨hsig, hport⟩ := takeAcks_quiet (s := s.frameNoted i bad ((s.port i).badFrame bad)) hn
    (by rw [port_frameNoted, Port.noteRun_txWait, hw])
  rw [port_frameNoted] at hport
  exact ⟨(signalsOnly_frameNoted _ _ _ _).trans hsig, hport⟩

include hc

theorem frameRead_carries : ((s.frameRead i b bad).port i).carries = true := by
  rw [(frameRead_spec hw hn).2]
  exact (Port.noteRun_carries _ _ _).trans hc

/-- What a frame that breaks no rule does, by its kind. -/
theorem frameIn_read (data : Bool) (hb : crcGood b) (hm : malformed b = false) : s.frameIn i b bad data =
    if bitsOf (numAt b 0 16) 127 124 = kData then
      if (s.port i).badFrame bad then (s.frameRead i b bad).nakOnce i else (s.frameRead i b bad).acceptData i b
    else if bitsOf (numAt b 0 16) 127 124 = kLink ∧ !(s.port i).badFrame bad then
      (slotsOf b).foldl (fun s m => s.linkMsg i m.2) (s.frameRead i b bad)
    else s.frameRead i b bad := by
  have hcrc : (decide (b.length = 344) && decide ((crc64 (b.take 336)).toNat = numAt b 336 8)) = true := by
    rw [← Bool.decide_and]
    exact decide_eq_true hb
  have hcar : ((s.frameNoted i bad ((s.port i).badFrame bad)).port i).carries = true := by rw [port_frameNoted, Port.noteRun_carries, hc]
  have hcar' := frameRead_carries (bad := bad) hc hw hn
  unfold State.frameRead at hcar' ⊢
  unfold State.frameIn
  simp only [hcrc, hm, Bool.not_true, Bool.or_false, Bool.false_eq_true, if_false]
  have hu : ((((s.countCorrected i).modPort i fun p => p.noteFrame bad).countPort i 4 bad.length).modPort i
      fun p => p.noteRun ((s.port i).badFrame bad)) = s.frameNoted i bad ((s.port i).badFrame bad) := rfl
  simp only [hu, hcar, hcar', Bool.not_true, Bool.false_eq_true, if_true, if_false]

end

/-- The first of a loss draws a NAK; nothing of the port changes but the mark of it. -/
theorem nakOnce_spec (s : State) (i : Nat) : s.signalsOnly (s.nakOnce i) ∧
    ∃ q, (s.port i).sendsFrames q ∧ (s.nakOnce i).port i = { q with nakSent := true } := by
  unfold State.nakOnce
  split
  case isTrue h => exact ⟨rfl, s.port i, rfl, by rw [← h]⟩
  case isFalse =>
    refine ⟨(signalsOnly_sendFrame _ _ _ _).after rfl, (s.port i).frameSent, rfl, ?_⟩
    rw [State.sendIdle, port_sendFrame, State.port_modPort_same]
    rfl

/-- A DATA frame in sequence is accepted whole. -/
theorem acceptData_inSequence {s : State} {i : Nat} {b : Bytes} (h : BitVec.ofNat 12 (bitsOf (numAt b 0 16) 123 112) = (s.port i).rxExp) :
    s.signalsOnly (s.acceptData i b) ∧ (s.acceptData i b).port i = Port.frameSent { s.port i with
      rxExp := (s.port i).rxExp + 1, rxAny := true, nakSent := false, rxFlits := (s.port i).rxFlits ++ slotsOf b } := by
  unfold State.acceptData
  dsimp only
  rw [if_pos h]
  refine ⟨(signalsOnly_sendFrame _ _ _ _).after rfl, ?_⟩
  rw [State.sendIdle, port_sendFrame, port_countPort, State.port_putPort_same]

/-- A DATA frame out of sequence is not accepted. -/
theorem acceptData_outOfSequence {s : State} {i : Nat} {b : Bytes} (h : BitVec.ofNat 12 (bitsOf (numAt b 0 16) 123 112) ≠ (s.port i).rxExp) :
    s.acceptData i b = s.nakOnce i := if_neg h

/-! ### What the loss of a path leaves (R188, R243, R284, R302) -/

/-- A fold whose every step leaves the ports alone does so as a whole. -/
theorem ports_foldl {α : Type} {f : State → α → State} (h : ∀ s a, (f s a).ports = s.ports) (l : List α) (s : State) :
    (l.foldl f s).ports = s.ports := foldl_leaves State.ports h l s

theorem notifyBroken_ports (s : State) (l : Nat) (n : ConnName) : (s.notifyBroken l n).ports = s.ports := by
  unfold State.notifyBroken
  dsimp only
  split
  · exact State.injectLink_ports _ _ _
  · exact State.atLink_ports _ _ _

theorem reduceLost_ports (s : State) (l port rid : Nat) : (s.reduceLost l port rid).ports = s.ports := State.raiseEvent_ports _ _ _ _

theorem completeRequest_ports (s : State) (c : CoreAt) (o : Outstanding) (status : BitVec 4) : (s.completeRequest c o status).ports = s.ports := by
  unfold State.completeRequest
  dsimp only
  split <;> rfl

theorem breakSenders_ports (s o : State) (i : Nat) : (s.breakSenders o i).ports = s.ports := by
  refine ports_foldl (fun t q => ?_) _ _
  split
  · rfl
  · refine ports_foldl (fun u e => ?_) _ _
    split
    · split
      · rfl
      · exact notifyBroken_ports _ _ _
    · rfl

theorem breakPeers_ports (s o : State) (i : Nat) : (s.breakPeers o i).ports = s.ports := by
  refine ports_foldl (fun t q => ?_) _ _
  dsimp only
  split
  · exact notifyBroken_ports _ _ _
  · rfl

theorem failRequests_ports (s o : State) (i : Nat) (status : BitVec 4) : (s.failRequests o i status).ports = s.ports := by
  refine ports_foldl (fun t q => ?_) _ _
  split
  · rfl
  · refine ports_foldl (fun u r => ?_) _ _
    split
    · exact completeRequest_ports _ _ _ _
    · rfl

theorem failReductions_ports (s o : State) (i : Nat) : (s.failReductions o i).ports = s.ports := by
  refine ports_foldl (fun t q => ?_) _ _
  split
  · rfl
  · refine ports_foldl (fun u r => ?_) _ _
    dsimp only
    split
    · exact reduceLost_ports _ _ _ _
    · rfl

/-- The loss of a path changes connections, requests and reductions, and no port. -/
theorem losePort_ports (s o : State) (i : Nat) (status : BitVec 4) : (s.losePort o i status).ports = s.ports := by
  unfold State.losePort
  rw [failReductions_ports, failRequests_ports, breakPeers_ports, breakSenders_ports]

/-- A packet that has no path is answered through the mesh or from a link die. -/
theorem noRoute_ports (s : State) (l : Nat) (p : Packet) : (s.noRoute l p).ports = s.ports := by
  have sent (t : State) (q : Packet) : (if q.dst.pkg = t.pkg then t.injectLink l q else t.atLink l q).ports = t.ports := by
    split
    · exact State.injectLink_ports _ _ _
    · exact State.atLink_ports _ _ _
  unfold State.noRoute
  extract_lets send
  split
  · exact notifyBroken_ports _ _ _
  · exact notifyBroken_ports _ _ _
  · exact sent _ _
  · exact sent _ _
  · exact reduceLost_ports _ _ _ _
  · exact reduceLost_ports _ _ _ _
  · split
    · exact (sent _ _).trans (State.raiseEvent_ports _ _ _ _)
    · exact State.raiseEvent_ports _ _ _ _
  · rfl
  · rfl
  · rfl
  · rfl
  · exact State.raiseEvent_ports _ _ _ _

theorem port_reroute (s : State) (i : Nat) : (s.reroute i).port i = { s.port i with txWait := [] } := by
  have hmod : (s.modPort i fun q => { q with txWait := [] }).port i = { s.port i with txWait := [] } := State.port_modPort_same s i _
  unfold State.reroute
  dsimp only
  split
  · exact (port_of_ports (ports_foldl (fun t p => State.atLink_ports t _ p) _ _) i).trans hmod
  · exact hmod

/-- A port that lost its path holds nothing to replay and nothing that waits. -/
theorem port_dropPort (s o : State) (i : Nat) : (s.dropPort o i).port i =
    { s.port i with replay := [], unacked := [], replays := 0, naked := none, txWait := [] } := by
  unfold State.dropPort
  extract_lets u
  have hu : u.port i = { s.port i with replay := [], unacked := [], replays := 0, naked := none, txWait := [] } := by
    rw [port_reroute, port_of_ports (losePort_ports _ _ _ _), State.port_modPort_same]
  refine (port_of_ports (ports_foldl (fun t p => ?_) _ _) i).trans hu
  split
  · exact noRoute_ports _ _ _
  · rfl

/-- A port that carried, or was in a retrain, goes to another state and loses what it held. -/
theorem port_takeDown_of_held {s : State} {i : Nat} (h : (s.port i).carries = true ∨ (s.port i).state = .retrain) (st : PortState) (reason : Nat) :
    (s.takeDown i st reason).port i = { s.port i with
      state := st, reason := BitVec.ofNat 4 reason, width := 0, replay := [], unacked := [], replays := 0, naked := none, txWait := [] } := by
  have hheld : ((s.port i).carries || decide ((s.port i).state = .retrain)) = true := by simpa using h
  unfold State.takeDown
  dsimp only
  rw [if_pos hheld, port_dropPort, port_setPortState]
  rfl

/-- A port that held nothing goes to another state. -/
theorem takeDown_of_idle {s : State} {i : Nat} (hc : (s.port i).carries = false) (hr : (s.port i).state ≠ .retrain) (st : PortState) (reason : Nat) :
    s.takeDown i st reason = s.setPortState i st reason 0 := by
  unfold State.takeDown
  dsimp only
  rw [hc, decide_eq_false hr]
  rfl

/-- However it stood, the port is in its new state, with the reason of it. -/
theorem takeDown_state (s : State) (i : Nat) (st : PortState) (reason : Nat) :
    ((s.takeDown i st reason).port i).state = st ∧ ((s.takeDown i st reason).port i).reason = BitVec.ofNat 4 reason := by
  by_cases h : (s.port i).carries = true ∨ (s.port i).state = .retrain
  · rw [port_takeDown_of_held h]
    exact ⟨rfl, rfl⟩
  · obtain ⟨hc, hr⟩ := not_or.1 h
    rw [takeDown_of_idle (by simpa using hc) hr, port_setPortState]
    exact ⟨rfl, rfl⟩

/-- A training or retrain that ends without the port leaves it DOWN, with its reason and nothing to replay. -/
theorem portDown_spec (s : State) (i : Nat) (reason : Nat) : ((s.portDown i reason).port i).state = .down ∧
    ((s.portDown i reason).port i).reason = BitVec.ofNat 4 reason ∧ ((s.portDown i reason).port i).replay = [] := by
  obtain ⟨hstate, hreason⟩ := takeDown_state s i .down reason
  unfold State.portDown
  rw [State.port_modPort_same]
  exact ⟨hstate, hreason, rfl⟩

/-- OFFLINE from the peer: the port takes no traffic any more, and stays in its state. -/
theorem port_offlineArrives {s : State} {i : Nat} (h : (s.port i).carries = true) (r : BitVec 8) :
    (s.offlineArrives i r).port i = { s.port i with offline := some r, txWait := [] } := by
  unfold State.offlineArrives
  rw [if_pos h, port_reroute, port_of_ports (losePort_ports _ _ _ _), State.port_modPort_same]

/-! ### Loss of acknowledgement and of frame lock (R280, R287, R288) -/

section
variable {s : State} {port : Fin 64}

theorem exec_replayTimeout (hc : (s.port port.val).carries = true) (hr : (s.port port.val).replay ≠ []) :
    exec (.replayTimeout port) s = .next (s.replayOrRetrain port.val) := by
  have hdue : ((s.port port.val).carries && !(s.port port.val).replay.isEmpty) = true := by simp [hc, hr]
  exact if_pos hdue

/-- Every unacknowledged frame goes out again. -/
theorem replayTimeout_replays (hc : (s.port port.val).carries = true) (hr : (s.port port.val).replay ≠ []) (hn : (s.port port.val).replays < 7) :
    ∃ t, exec (.replayTimeout port) s = .next t ∧ (t.port port.val).replays = (s.port port.val).replays + 1 ∧
      (t.port port.val).replay = (s.port port.val).replay ∧ (t.port port.val).state = (s.port port.val).state ∧
      (∀ f r, (s.port port.val).replay = f :: r → (t.port port.val).naked = some (f.1 - 1)) ∧
      t.out.length = s.out.length + (s.port port.val).replay.length ∧ t.cores = s.cores := by
  obtain ⟨f, r, hf⟩ := List.exists_cons_of_ne_nil hr
  obtain ⟨hsig, hout, q, hq, hport⟩ := replayAll_spec hf
  have hagain : s.replayOrRetrain port.val = s.replayAll port.val := if_neg (by rw [hport]; change ¬8 ≤ _ + 1; omega)
  refine ⟨_, (exec_replayTimeout hc hr).trans (congrArg _ hagain), ?_⟩
  rw [hport, hq]
  refine ⟨rfl, rfl, rfl, fun g r' h => ?_, hf ▸ hout, hsig.cores⟩
  rw [(List.cons.inj (hf.symm.trans h)).1]

/-- The eighth replay without progress begins a retrain. -/
theorem replayTimeout_retrains (hc : (s.port port.val).carries = true) (hr : (s.port port.val).replay ≠ []) (hn : 7 ≤ (s.port port.val).replays) :
    ∃ t, exec (.replayTimeout port) s = .next t ∧ (t.port port.val).state = .retrain ∧
      (t.port port.val).replay = (s.port port.val).replay ∧ t.cores = s.cores := by
  obtain ⟨f, r, hf⟩ := List.exists_cons_of_ne_nil hr
  obtain ⟨hsig, -, q, hq, hport⟩ := replayAll_spec hf
  have hlast : s.replayOrRetrain port.val = (s.replayAll port.val).beginRetrain port.val := if_pos (by rw [hport]; change 8 ≤ _ + 1; omega)
  obtain ⟨hretrain, hstate, hreplay, -⟩ := beginRetrain_spec (s := s.replayAll port.val) (i := port.val) (by rw [hport, hq]; exact hc)
  refine ⟨_, (exec_replayTimeout hc hr).trans (congrArg _ hlast), hstate, hreplay.trans ?_, hretrain.cores.trans hsig.cores⟩
  rw [hport, hq]

/-- Eight bad frames in a row begin a retrain. -/
theorem frameLockLoss_retrains (hl : (s.port port.val).lock = true) (hb : 8 ≤ (s.port port.val).badRun) (hc : (s.port port.val).carries = true) :
    ∃ t, exec (.frameLockLoss port) s = .next t ∧ (t.port port.val).lock = false ∧ (t.port port.val).state = .retrain ∧
      (t.port port.val).replay = (s.port port.val).replay ∧ t.cores = s.cores := by
  have hlost : ((s.port port.val).lock && decide (8 ≤ (s.port port.val).badRun)) = true := by simp [hl, hb]
  have hput := State.port_putPort_same s port.val { s.port port.val with lock := false, goodRun := 0 }
  obtain ⟨hsig, hstate, hreplay, hlock⟩ := beginRetrain_spec (s := s.putPort port.val { s.port port.val with lock := false, goodRun := 0 })
    (i := port.val) (by rw [hput]; exact hc)
  rw [hput] at hreplay hlock
  exact ⟨_, if_pos hlost, hlock, hstate, hreplay, hsig.cores⟩

/-- A retrain that does not end takes the port down. -/
theorem retrainTimeout_down (h : (s.port port.val).state = .retrain) : ∃ t, exec (.retrainTimeout port) s = .next t ∧
    (t.port port.val).state = .down ∧ (t.port port.val).reason = BitVec.ofNat 4 rRetrainFail ∧ (t.port port.val).replay = [] ∧ t.deep = s.deep := by
  obtain ⟨hstate, hreason, hreplay⟩ := portDown_spec s port.val rRetrainFail
  exact ⟨_, if_pos h, hstate, hreason, hreplay, deep_of_guarded (guarded_portDown _ _ _)⟩

end

/-! ### The outcomes of a frame (R279, R280, R286) -/

section
variable {s : State} {port : Fin 64} {b : Bytes} {bad : List (Nat × Nat)} (hc : (s.port port.val).carries = true)
include hc

/-- A frame in a DATA position whose CRC fails. -/
theorem dataFrame_crcBad (hb : ¬crcGood b) : ∃ t, exec (.dataFrame port b bad) s = .next t ∧ (t.port port.val).rxExp = (s.port port.val).rxExp ∧
    (t.port port.val).rxFlits = (s.port port.val).rxFlits ∧ (t.port port.val).replay = (s.port port.val).replay ∧
    (t.port port.val).nakSent = true ∧ (t.port port.val).badRun = (s.port port.val).badRun + 1 ∧ (t.port port.val).goodRun = 0 ∧
    t.cores = s.cores ∧ t.mesh = s.mesh := by
  obtain ⟨hsig, q, hq, hport⟩ := nakOnce_spec (s.frameNoted port.val bad true) port.val
  have hall := (signalsOnly_frameNoted s port.val bad true).trans hsig
  refine ⟨_, congrArg Host.Outcome.next (frameIn_crcBad bad hc hb), ?_⟩
  rw [hport, hq, port_frameNoted]
  exact ⟨rfl, rfl, rfl, rfl, rfl, rfl, hall.cores, hall.mesh⟩

variable (hw : (s.port port.val).txWait = []) (hn : (numAt b 0 16).testBit 98 = false) (hb : crcGood b) (hm : malformed b = false)
include hw hn hb hm

/-- A frame in a DATA position with a good CRC that an uncorrectable codeword overlaps still gives its acknowledgement. -/
theorem dataFrame_overlapped (hbad : (s.port port.val).badFrame bad = true) (hk : bitsOf (numAt b 0 16) 127 124 = kData) :
    ∃ t, exec (.dataFrame port b bad) s = .next t ∧ (t.port port.val).rxExp = (s.port port.val).rxExp ∧
    (t.port port.val).rxFlits = (s.port port.val).rxFlits ∧ (t.port port.val).replay = (if (numAt b 0 16).testBit 99 = true then
      ackReplay (BitVec.ofNat 12 (bitsOf (numAt b 0 16) 111 100)) (s.port port.val).replay else (s.port port.val).replay) ∧
    (t.port port.val).nakSent = true ∧ (t.port port.val).badRun = (s.port port.val).badRun + 1 ∧ (t.port port.val).goodRun = 0 ∧
    t.cores = s.cores ∧ t.mesh = s.mesh := by
  obtain ⟨hread, hrport⟩ := frameRead_spec (bad := bad) hw hn
  obtain ⟨hsig, q, hq, hport⟩ := nakOnce_spec (s.frameRead port.val b bad) port.val
  have hall := hread.trans hsig
  refine ⟨_, congrArg Host.Outcome.next (frameIn_read hc hw hn true hb hm), ?_⟩
  rw [if_pos hk, if_pos hbad, hport, hq, hrport, hbad]
  exact ⟨rfl, rfl, rfl, rfl, rfl, rfl, hall.cores, hall.mesh⟩

variable (hbad : (s.port port.val).badFrame bad = false)
include hbad

theorem dataFrame_inSequence (hk : bitsOf (numAt b 0 16) 127 124 = kData)
    (hseq : BitVec.ofNat 12 (bitsOf (numAt b 0 16) 123 112) = (s.port port.val).rxExp) :
    ∃ t, exec (.dataFrame port b bad) s = .next t ∧ (t.port port.val).rxExp = (s.port port.val).rxExp + 1 ∧
      (t.port port.val).rxFlits = (s.port port.val).rxFlits ++ slotsOf b ∧ (t.port port.val).nakSent = false ∧ (t.port port.val).badRun = 0 ∧
      (t.port port.val).state = (s.port port.val).state ∧ t.cores = s.cores ∧ t.mesh = s.mesh ∧ t.deep = s.deep := by
  obtain ⟨hread, hrport⟩ := frameRead_spec (bad := bad) hw hn
  obtain ⟨hsig, hport⟩ := acceptData_inSequence (s := s.frameRead port.val b bad) (i := port.val) (b := b) (by
    rw [hrport, hbad]
    exact hseq)
  have hall := hread.trans hsig
  refine ⟨_, congrArg Host.Outcome.next (frameIn_read hc hw hn true hb hm), ?_⟩
  rw [if_pos hk, hbad, if_neg Bool.false_ne_true, hport, hrport, hbad]
  exact ⟨rfl, rfl, rfl, rfl, rfl, hall.cores, hall.mesh, hall.deep⟩

theorem dataFrame_outOfSequence (hk : bitsOf (numAt b 0 16) 127 124 = kData)
    (hseq : BitVec.ofNat 12 (bitsOf (numAt b 0 16) 123 112) ≠ (s.port port.val).rxExp) :
    ∃ t, exec (.dataFrame port b bad) s = .next t ∧ (t.port port.val).rxExp = (s.port port.val).rxExp ∧
      (t.port port.val).rxFlits = (s.port port.val).rxFlits ∧ (t.port port.val).nakSent = true ∧ t.cores = s.cores ∧ t.mesh = s.mesh := by
  obtain ⟨hread, hrport⟩ := frameRead_spec (bad := bad) hw hn
  obtain ⟨hsig, q, hq, hport⟩ := nakOnce_spec (s.frameRead port.val b bad) port.val
  have hseq' : BitVec.ofNat 12 (bitsOf (numAt b 0 16) 123 112) ≠ ((s.frameRead port.val b bad).port port.val).rxExp := by
    rw [hrport, hbad]
    exact hseq
  have hall := hread.trans hsig
  refine ⟨_, congrArg Host.Outcome.next (frameIn_read hc hw hn true hb hm), ?_⟩
  rw [if_pos hk, hbad, if_neg Bool.false_ne_true, acceptData_outOfSequence hseq', hport, hq, hrport, hbad]
  exact ⟨rfl, rfl, rfl, hall.cores, hall.mesh⟩

theorem idleFrame_read (hk : bitsOf (numAt b 0 16) 127 124 = kIdle) :
    ∃ t, exec (.idleFrame port b bad) s = .next t ∧ (t.port port.val).rxExp = (s.port port.val).rxExp ∧
      (t.port port.val).rxFlits = (s.port port.val).rxFlits ∧ (t.port port.val).replay = (if (numAt b 0 16).testBit 99 = true then
        ackReplay (BitVec.ofNat 12 (bitsOf (numAt b 0 16) 111 100)) (s.port port.val).replay else (s.port port.val).replay) ∧
      (t.port port.val).goodRun = (s.port port.val).goodRun + 1 ∧ t.cores = s.cores ∧ t.mesh = s.mesh := by
  obtain ⟨hread, hrport⟩ := frameRead_spec (bad := bad) hw hn
  have hdata : ¬bitsOf (numAt b 0 16) 127 124 = kData := by rw [hk]; decide
  have hlink : ¬(bitsOf (numAt b 0 16) 127 124 = kLink ∧ (!(s.port port.val).badFrame bad) = true) := by
    rw [hk]
    exact fun h => absurd h.1 (by decide)
  refine ⟨_, congrArg Host.Outcome.next (frameIn_read hc hw hn false hb hm), ?_⟩
  rw [if_neg hdata, if_neg hlink, hrport, hbad]
  exact ⟨rfl, rfl, rfl, rfl, hread.cores, hread.mesh⟩

/-- A LINK frame with the message OFFLINE. -/
theorem linkFrame_offline {x : Nat} {m : Bytes} (hk : bitsOf (numAt b 0 16) 127 124 = kLink) (hs : slotsOf b = [(x, m)]) (hok : linkMsgOk m = true)
    (hmsg : numAt m 0 1 = 5) : ∃ t, exec (.linkFrame port b bad) s = .next t ∧
      (t.port port.val).offline = some (BitVec.ofNat 8 (numAt m 1 1)) ∧ (t.port port.val).rxExp = (s.port port.val).rxExp ∧
      (t.port port.val).state = (s.port port.val).state ∧ t.deep = s.deep := by
  have hrport := (frameRead_spec (bad := bad) hw hn).2
  have hoff := port_offlineArrives (frameRead_carries (bad := bad) hc hw hn) (BitVec.ofNat 8 (numAt m 1 1))
  have hdata : ¬bitsOf (numAt b 0 16) 127 124 = kData := by rw [hk]; decide
  have hlink : bitsOf (numAt b 0 16) 127 124 = kLink ∧ (!(s.port port.val).badFrame bad) = true := ⟨hk, by rw [hbad]; rfl⟩
  have hdone : (slotsOf b).foldl (fun s m => s.linkMsg port.val m.2) (s.frameRead port.val b bad) =
      (s.frameRead port.val b bad).offlineArrives port.val (BitVec.ofNat 8 (numAt m 1 1)) := by
    rw [hs]
    change State.linkMsg _ _ _ = _
    unfold State.linkMsg
    rw [hok, hmsg]
    rfl
  refine ⟨_, congrArg Host.Outcome.next (frameIn_read hc hw hn false hb hm), ?_⟩
  rw [if_neg hdata, if_pos hlink, hdone, hoff, hrport, hbad]
  refine ⟨rfl, rfl, rfl, deep_of_guarded ?_⟩
  rw [guarded_offlineArrives, State.frameRead, guarded_takeAcks]
  simp only [State.frameNoted, guarded_modPort, guarded_countPort, guarded_countCorrected]

end

/-! ### The obligation -/

/-- A frame is good in the sense of the statement when its length and CRC are right and it breaks no rule (R286). -/
theorem goodFrame_iff {b : Bytes} {good : Nat}
    (h : good = if b.length = 344 ∧ (crc64 (b.take 336)).toNat = numAt b 336 8 ∧ malformed b = false then 1 else 0) :
    good = 1 ↔ crcGood b ∧ malformed b = false := by
  rw [h, crcGood, and_assoc]
  split <;> simp_all

/-- Settles O30: a frame by what it reads as (`frameIn_crcBad`, `frameIn_read`), a replay by `replayAll_spec`, the retrains by `beginRetrain_spec`, and
the loss of the port by `portDown_spec`. -/
theorem framesAndReplays : Obligations.FramesAndReplays := by
  refine ⟨fun port b bad s p h good hp hc hw hh hgood => ?_, fun port s p hp => ?_⟩
  · subst hp hh
    have hread := goodFrame_iff hgood
    refine ⟨fun hg hbad hk hn hseq => ?_, fun hg hbad hk hn hseq => ?_, fun hloss => ?_, fun hg hbad hk hn => ?_,
      fun x m hg hbad hk hn hs hok hmsg => ?_⟩
    · obtain ⟨hb, hm⟩ := hread.1 hg
      exact dataFrame_inSequence hc hw hn hb hm hbad hk hseq
    · obtain ⟨hb, hm⟩ := hread.1 hg
      exact dataFrame_outOfSequence hc hw hn hb hm hbad hk hseq
    · by_cases hb : crcGood b
      · have hover : good = 1 ∧ (s.port port.val).badFrame bad = true ∧ bitsOf (numAt b 0 16) 127 124 = kData ∧
            (numAt b 0 16).testBit 98 = false :=
          hloss.resolve_left fun hcrc => hcrc.elim (· hb.1) (· hb.2)
        obtain ⟨hg, hbad, hk, hn⟩ := hover
        simp only [hg, true_and]
        exact dataFrame_overlapped hc hw hn hb (hread.1 hg).2 hbad hk
      · have hg : good ≠ 1 := fun hg => hb (hread.1 hg).1
        simp only [hg, false_and, if_false]
        exact dataFrame_crcBad hc hb
    · obtain ⟨hb, hm⟩ := hread.1 hg
      exact idleFrame_read hc hw hn hb hm hbad hk
    · obtain ⟨hb, hm⟩ := hread.1 hg
      exact linkFrame_offline hc hw hn hb hm hbad hk hs hok hmsg
  · subst hp
    refine ⟨replayTimeout_replays, replayTimeout_retrains, frameLockLoss_retrains, retrainTimeout_down, fun r hc => ?_⟩
    refine ⟨_, rfl, ?_, ?_, deep_of_guarded (guarded_offlineArrives _ _ _)⟩ <;> rw [port_offlineArrives hc]

end Sys2Proof.Machine

/-! PROOFS. Training of a Vevas port, retrains and retries, and the identity that the peer shows (R288, R290 to R294, R348). -/

namespace Sys2Proof.Machine

/-! ### Identity and settings along a training (R291, R292) -/

theorem port_noteId (s : State) (i : Nat) (m : Bytes) : (s.noteId i m).port i = { s.port i with
    peerSerial := BitVec.ofNat 64 (numAt m 2 8), peerPkg := BitVec.ofNat 12 (numAt m 10 2), peerPort := BitVec.ofNat 6 (numAt m 12 1)
    peerGrade := BitVec.ofNat 4 (numAt m 15 1), peerDepth := BitVec.ofNat 8 (numAt m 26 1), peerStepping := BitVec.ofNat 8 (numAt m 27 1)
    peerAccepted := decide (numAt m 1 1 / 2 % 2 = 1) } := State.port_modPort_same s i _

theorem noteId_idOk (s : State) (i : Nat) (m n : Bytes) : (s.noteId i m).idOk i n = s.idOk i n := rfl

/-- Only the list of settings to be saved changes. -/
theorem savePairing_eq (s : State) (i : Nat) (t : Training) :
    s.savePairing i t = { s with nv := { s.nv with newPairings := (s.savePairing i t).nv.newPairings } } := by
  unfold State.savePairing
  split <;> rfl

theorem savePairing_mem {s : State} {i : Nat} {t : Training} {k : BitVec 64 × BitVec 6} (h : t.seen = some k) :
    (i, k.1, k.2) ∈ (s.savePairing i t).nv.newPairings := by
  unfold State.savePairing
  rw [h]
  exact List.mem_append_right _ (List.mem_singleton.2 rfl)

/-! ### Steps 5 to 7 passed (R291, R294) -/

/-- A port that has passed steps 5 to 7 with the lanes `good` and the ID `m`: UP at the width that both ends share; a full training starts the
sequence numbers and credits anew, and a retrain keeps them. -/
def Port.passed (p : Port) (fresh : Bool) (good : BitVec 8) (m : Bytes) : Port :=
  let peerGood := BitVec.ofNat 8 (numAt m 13 1)
  let w := widthOf good peerGood
  let q : Port := { p with
    state := if w = 8 then .up else .upNarrow, reason := 0, width := BitVec.ofNat 4 w, good := good, group := groupMask good peerGood
    peerSerial := BitVec.ofNat 64 (numAt m 2 8), peerPkg := BitVec.ofNat 12 (numAt m 10 2), peerPort := BitVec.ofNat 6 (numAt m 12 1)
    peerGrade := BitVec.ofNat 4 (numAt m 15 1), peerDepth := BitVec.ofNat 8 (numAt m 26 1), peerStepping := BitVec.ofNat 8 (numAt m 27 1)
    peerAccepted := decide (numAt m 1 1 / 2 % 2 = 1), idAccepted := true, offline := none, retries := 0
    lock := true, goodRun := 4, badRun := 0, rxFrames := 0, txFrames := 0, badWords := [] }
  if fresh then { q with
    rxExp := 0, rxAny := false, nakSent := false, rxFlits := [], freed := [], txSeq := 0, replay := [], unacked := [], replays := 0, naked := none
    txCredits := startCredits }
  else { q with replays := 0 }

theorem Port.passed_txWait (p : Port) (fresh : Bool) (good : BitVec 8) (m : Bytes) : (p.passed fresh good m).txWait = p.txWait := by
  cases fresh <;> rfl

/-- Between two states of a port its replay may have gone out, and nothing else has happened. -/
def Port.resumes (p q : Port) : Prop := q = { p with freed := q.freed, txFrames := q.txFrames, replays := q.replays, naked := q.naked }

/-- What the port held goes on, where nothing new waits. -/
theorem resume_spec {s : State} {port : Fin 64} (fresh : Bool) (hw : (s.port port.val).txWait = []) :
    s.signalsOnly (s.resume port.val fresh) ∧ (s.port port.val).resumes ((s.resume port.val fresh).port port.val) := by
  have hreplay : s.signalsOnly (s.replayAll port.val) ∧ (s.port port.val).resumes ((s.replayAll port.val).port port.val) := by
    cases h : (s.port port.val).replay with
    | nil =>
      have hnone : s.replayAll port.val = s := if_pos (by rw [h]; rfl)
      rw [hnone]
      exact ⟨.refl s, rfl⟩
    | cons f r =>
      obtain ⟨hsig, -, q, hq, hport⟩ := replayAll_spec h
      rw [hport, hq]
      exact ⟨hsig, rfl⟩
  cases fresh with
  | true =>
    obtain ⟨hsig, hport, -⟩ := flush_idle hw
    exact ⟨hsig, by rw [State.resume, if_pos rfl, hport]; rfl⟩
  | false =>
    obtain ⟨hsig, hres⟩ := hreplay
    obtain ⟨hflush, hport, -⟩ := flush_idle (s := s.replayAll port.val) (i := port.val) (by rw [hres]; exact hw)
    exact ⟨hsig.trans hflush, hport.symm ▸ hres⟩

/-- A training with lanes, frame lock, an accepted ID and a width that is enough brings the port UP. -/
theorem finishTraining_passes {s : State} {port : Fin 64} {good : BitVec 8} {tr : Training} {m : Bytes} (fresh : Bool)
    (hw : (s.port port.val).txWait = []) (hg : good ≠ 0) (hl : tr.lockOk = true) (hm : tr.peerId = some m) (hid : s.idOk port.val m = true)
    (hwide : widthOf good (BitVec.ofNat 8 (numAt m 13 1)) ≠ 0)
    (hleast : max (bitsOf (s.portEntry port.val).toNat 27 24) (numAt m 14 1) ≤ widthOf good (BitVec.ofNat 8 (numAt m 13 1))) :
    s.linkSignals (s.finishTraining port.val fresh good tr) ∧
    ((s.port port.val).passed fresh good m).resumes ((s.finishTraining port.val fresh good tr).port port.val) := by
  have hup : ∃ u : State, s.linkSignals u ∧ u.port port.val = (s.port port.val).passed fresh good m ∧
      s.finishTraining port.val fresh good tr = u.resume port.val fresh := by
    have hok (f : Port → Port) : ((s.modPort port.val f).noteId port.val m).idOk port.val m = true := hid
    have hentry (f : Port → Port) : ((s.modPort port.val f).noteId port.val m).portEntry port.val = s.portEntry port.val := rfl
    unfold State.finishTraining
    simp only [if_neg hg, hl, hm, hok, hentry, if_neg hwide, if_neg (Nat.not_lt.2 hleast), Bool.not_true, Bool.false_eq_true, if_false]
    refine ⟨_, ?_, ?_, rfl⟩
    · exact (linkSignals_setPortState _ _ _ _ _).after rfl
    · rw [port_setPortState, State.port_modPort_same, port_noteId, State.port_modPort_same]
      cases fresh <;> rfl
  obtain ⟨u, hsig, hport, heq⟩ := hup
  obtain ⟨hres, hend⟩ := resume_spec (s := u) (port := port) fresh (by rw [hport, Port.passed_txWait, hw])
  rw [heq]
  exact ⟨hsig.trans hres.linkSignals, hport ▸ hend⟩

/-! ### A full training (R290, R291, R293) -/

/-- The lanes that pass step 1 stand at a port. -/
def State.lanesNoted (s : State) (i : Nat) (tr : Training) : State := s.modPort i fun p => { p with
  good := laneSet tr, lanes := laneSet tr, group := 0, driversOff := tr.shorted, reversed := false, polarity := 0 }

/-- The state in which step 4 begins: the lanes that pass step 1 stand, and what the pattern corrects. -/
def State.trainStarts (s : State) (i : Nat) (tr : Training) : State :=
  ((s.setPortState i .training 0 0).lanesNoted i tr).modPort i fun p => { p with reversed := tr.reversed, polarity := tr.inverted }

theorem trainStarts_spec (s : State) (i : Nat) (tr : Training) : s.linkSignals (s.trainStarts i tr) ∧ (s.trainStarts i tr).port i = { s.port i with
    state := .training, reason := 0, width := 0, good := laneSet tr, lanes := laneSet tr, group := 0, driversOff := tr.shorted
    reversed := tr.reversed, polarity := tr.inverted } := by
  refine ⟨(linkSignals_setPortState s i .training 0 0).trans rfl, ?_⟩
  rw [State.trainStarts, State.port_modPort_same, State.lanesNoted, State.port_modPort_same, port_setPortState]
  rfl

section
variable {s : State} {port : Fin 64} {tr : Training}

/-- A port that may be trained trains. -/
theorem exec_portTraining (he : s.portEnabled port.val = true) (hc : (s.port port.val).carries = false) (hr : (s.port port.val).state ≠ .retrain) :
    exec (.portTraining port tr) s = .next ((s.setPortState port.val .training 0 0).train port.val tr) := by
  have hfree : (!s.portEnabled port.val || (s.port port.val).carries || decide ((s.port port.val).state = .retrain)) = false := by simp [he, hc, hr]
  exact if_neg (by rw [hfree]; exact Bool.false_ne_true)

/-- A training that steps 1 or 2 end: the port held nothing, and is DOWN with the reason. -/
theorem training_portDown {u : State} {i : Nat} (hu : (u.port i).state = .training) (reason : Nat) :
    u.linkSignals (u.portDown i reason) ∧ ((u.portDown i reason).port i).state = .down ∧
    ((u.portDown i reason).port i).reason = BitVec.ofNat 4 reason ∧ ((u.portDown i reason).port i).driversOff = (u.port i).driversOff := by
  have hc : (u.port i).carries = false := by simp [Port.carries, hu]
  have hidle := takeDown_of_idle hc (by rw [hu]; decide) .down reason
  unfold State.portDown
  rw [hidle, State.port_modPort_same, port_setPortState]
  exact ⟨(linkSignals_setPortState _ _ _ _ _).trans rfl, rfl, rfl, rfl⟩

/-- The lanes of step 1 stand at a port that begins a training. -/
theorem port_lanesNoted (s : State) (i : Nat) (tr : Training) : ((s.setPortState i .training 0 0).lanesNoted i tr).port i = { s.port i with
    state := .training, reason := 0, width := 0, good := laneSet tr, lanes := laneSet tr, group := 0, driversOff := tr.shorted
    reversed := false, polarity := 0 } := by
  rw [State.lanesNoted, State.port_modPort_same, port_setPortState]
  rfl

/-- No termination: the port has no peer. -/
theorem train_noPeer (u : State) (i : Nat) (h : tr.terminated = 0) : u.train i tr = (u.lanesNoted i tr).portDown i rNoPeer := if_pos h

/-- No lane is left of step 1. -/
theorem train_openLanes (u : State) (i : Nat) (h : tr.terminated ≠ 0) (hl : laneSet tr = 0) :
    u.train i tr = (u.lanesNoted i tr).portDown i rOpenLanes := (if_neg h).trans (if_pos hl)

/-- Step 1 needs a termination to leave a lane. -/
theorem terminated_ne_zero (h : laneSet tr ≠ 0) : tr.terminated ≠ 0 := fun h0 => h (by rw [laneSet, h0]; exact BitVec.zero_and)

/-- Steps 1 and 2 passed. -/
theorem train_equalises (s : State) (i : Nat) (hl : laneSet tr ≠ 0) (ho : tr.laneOrderBad = false) :
    (s.setPortState i .training 0 0).train i tr = (s.trainStarts i tr).equalise i tr :=
  (if_neg (terminated_ne_zero hl)).trans ((if_neg hl).trans (if_neg (by rw [ho]; exact Bool.false_ne_true)))

/-- Steps 3 and 4 passed, with the saved settings or by full adaptation, whose settings are then to be saved. -/
theorem equalise_finishes {u : State} {i : Nat} {g : BitVec 8} (hs : u.savedStand i tr = true ∨ tr.eqOk = true)
    (hg : g = laneSet tr &&& (if u.savedStand i tr = true then tr.savedQualified else tr.qualified)) (h0 : g ≠ 0) :
    u.equalise i tr = (if u.savedStand i tr = true then u else u.savePairing i tr).finishTraining i true g tr := by
  unfold State.equalise
  cases h : u.savedStand i tr with
  | true =>
    rw [h] at hg
    rw [hg]
    rfl
  | false =>
    have heq : tr.eqOk = true := hs.resolve_left (by rw [h]; exact Bool.false_ne_true)
    rw [h] at hg
    have hq : laneSet tr &&& tr.qualified = g := hg.symm
    simp only [heq, hq, if_neg h0, Bool.not_true, Bool.false_eq_true, if_false]

/-- The state in which step 5 begins differs from the one where step 4 began in the settings to be saved alone. -/
theorem adapted_eq (u : State) (i : Nat) (tr : Training) : (if u.savedStand i tr = true then u else u.savePairing i tr) =
    { u with nv := { u.nv with newPairings := (if u.savedStand i tr = true then u else u.savePairing i tr).nv.newPairings } } := by
  split
  · rfl
  · exact savePairing_eq _ _ _

/-- A port without a peer. -/
theorem portTraining_noPeer (he : s.portEnabled port.val = true) (hc : (s.port port.val).carries = false) (hr : (s.port port.val).state ≠ .retrain)
    (h : tr.terminated = 0) : ∃ t, exec (.portTraining port tr) s = .next t ∧ (t.port port.val).state = .down ∧
      (t.port port.val).reason = BitVec.ofNat 4 rNoPeer ∧ t.cores = s.cores ∧ t.deep = s.deep := by
  obtain ⟨hsig, hstate, hreason, -⟩ := training_portDown (congrArg Port.state (port_lanesNoted s port.val tr)) rNoPeer
  have hall := (linkSignals_setPortState s port.val .training 0 0).trans (hsig.after rfl)
  exact ⟨_, (exec_portTraining he hc hr).trans (congrArg _ (train_noPeer _ _ h)), hstate, hreason, hall.cores, hall.deep⟩

/-- A port with no lane left; the drivers of shorted lanes are off. -/
theorem portTraining_openLanes (he : s.portEnabled port.val = true) (hc : (s.port port.val).carries = false)
    (hr : (s.port port.val).state ≠ .retrain) (h : tr.terminated ≠ 0) (hl : laneSet tr = 0) :
    ∃ t, exec (.portTraining port tr) s = .next t ∧ (t.port port.val).state = .down ∧ (t.port port.val).reason = BitVec.ofNat 4 rOpenLanes ∧
      (t.port port.val).driversOff = tr.shorted ∧ t.cores = s.cores ∧ t.deep = s.deep := by
  obtain ⟨hsig, hstate, hreason, hoff⟩ := training_portDown (congrArg Port.state (port_lanesNoted s port.val tr)) rOpenLanes
  have hall := (linkSignals_setPortState s port.val .training 0 0).trans (hsig.after rfl)
  refine ⟨_, (exec_portTraining he hc hr).trans (congrArg _ (train_openLanes _ _ h hl)), hstate, hreason, hoff.trans ?_, hall.cores, hall.deep⟩
  rw [port_lanesNoted]

/-- A port that passes every step. -/
theorem portTraining_passes {m : Bytes} {g : BitVec 8} {w : Nat} (he : s.portEnabled port.val = true) (hc : (s.port port.val).carries = false)
    (hr : (s.port port.val).state ≠ .retrain) (hw : (s.port port.val).txWait = []) (hl : laneSet tr ≠ 0) (ho : tr.laneOrderBad = false)
    (heq : s.savedStand port.val tr = true ∨ tr.eqOk = true) (hlock : tr.lockOk = true) (hm : tr.peerId = some m) (hid : s.idOk port.val m = true)
    (hg : g = laneSet tr &&& (if s.savedStand port.val tr = true then tr.savedQualified else tr.qualified)) (h0 : g ≠ 0)
    (hwidth : w = widthOf g (BitVec.ofNat 8 (numAt m 13 1))) (hw0 : w ≠ 0)
    (hleast : max (bitsOf (s.portEntry port.val).toNat 27 24) (numAt m 14 1) ≤ w) :
    ∃ t, exec (.portTraining port tr) s = .next t ∧ (t.port port.val).state = (if w = 8 then .up else .upNarrow) ∧
      (t.port port.val).width = BitVec.ofNat 4 w ∧ (t.port port.val).good = g ∧ (t.port port.val).txSeq = 0 ∧ (t.port port.val).rxExp = 0 ∧
      (t.port port.val).replay = [] ∧ (t.port port.val).txCredits = startCredits ∧ (t.port port.val).peerSerial = BitVec.ofNat 64 (numAt m 2 8) ∧
      (t.port port.val).group = groupMask g (BitVec.ofNat 8 (numAt m 13 1)) ∧ (t.port port.val).reversed = tr.reversed ∧
      (t.port port.val).polarity = tr.inverted ∧ (t.port port.val).driversOff = tr.shorted ∧
      (∀ k, s.savedStand port.val tr = false → tr.seen = some k → (port.val, k.1, k.2) ∈ t.nv.newPairings) ∧
      t.cores = s.cores ∧ t.deep = s.deep := by
  subst hwidth
  obtain ⟨hsig, hport⟩ := trainStarts_spec s port.val tr
  generalize hu : s.trainStarts port.val tr = u at hsig hport
  have hstand : u.savedStand port.val tr = s.savedStand port.val tr := by
    unfold State.savedStand State.savedFor
    rw [hsig.nv]
  have hrun : (s.setPortState port.val .training 0 0).train port.val tr =
      (if s.savedStand port.val tr = true then u else u.savePairing port.val tr).finishTraining port.val true g tr := by
    rw [train_equalises s port.val hl ho, hu, equalise_finishes (hstand.symm ▸ heq) (hstand.symm ▸ hg) h0, hstand]
  have hadapted := adapted_eq u port.val tr
  have hsaved (k : BitVec 64 × BitVec 6) (hno : s.savedStand port.val tr = false) (hk : tr.seen = some k) :
      (port.val, k.1, k.2) ∈ (if s.savedStand port.val tr = true then u else u.savePairing port.val tr).nv.newPairings := by
    rw [hno]
    exact savePairing_mem hk
  rw [hstand] at hadapted
  generalize (if s.savedStand port.val tr = true then u else u.savePairing port.val tr) = v at hrun hadapted hsaved
  have hvport : v.port port.val = u.port port.val := by rw [hadapted]; rfl
  have hvid : v.idOk port.val m = true := by rw [hadapted]; exact (hsig.idOk port.val m).trans hid
  have hventry : v.portEntry port.val = s.portEntry port.val := by rw [hadapted]; exact hsig.portEntry port.val
  obtain ⟨hfin, hend⟩ := finishTraining_passes (s := v) (port := port) true (by rw [hvport, hport]; exact hw) h0 hlock hm hvid hw0
    (by rw [hventry]; exact hleast)
  rw [hvport, hport] at hend
  refine ⟨_, (exec_portTraining he hc hr).trans (congrArg _ hrun), ?_⟩
  rw [hend]
  refine ⟨rfl, rfl, rfl, rfl, rfl, rfl, rfl, rfl, rfl, rfl, rfl, rfl, fun k hno hk => ?_, ?_, ?_⟩
  · rw [hfin.nv]
    exact hsaved k hno hk
  · rw [hfin.cores, hadapted]
    exact hsig.cores
  · rw [hfin.deep, hadapted]
    exact hsig.deep

/-! ### Retrains and retries (R288, R348) -/

/-- A retrain of a port that carries: with another peer a full training, and steps 5 to 7 where step 4 passed. -/
theorem exec_retrain_carries (hc : (s.port port.val).carries = true) : exec (.retrain port tr) s =
    .next (if (s.port port.val).otherPeer tr then
        ((s.setPortState port.val .retrain 0 0).takeDown port.val .training 0).train port.val tr
      else if tr.qualified ≠ 0 ∧ tr.lockOk ∧ tr.peerId.isSome then
        (s.setPortState port.val .retrain 0 0).finishTraining port.val false ((s.port port.val).lanes &&& tr.qualified) tr
      else s.setPortState port.val .retrain 0 0) := by
  have hnot : (s.port port.val).state ≠ .retrain := by
    rcases Port.carries_iff.1 hc with h | h <;> rw [h] <;> decide
  change execRetrain port tr s = _
  unfold execRetrain
  simp only [hc, if_neg hnot, Bool.true_or, if_true]

/-- A port that carries retrains by steps 5 to 7 on the lanes that it had, and keeps its numbers. -/
theorem retrain_passes {m : Bytes} {g : BitVec 8} {w : Nat} (hc : (s.port port.val).carries = true) (hw : (s.port port.val).txWait = [])
    (hpeer : (s.port port.val).otherPeer tr = false) (hlock : tr.lockOk = true) (hq : tr.qualified ≠ 0) (hm : tr.peerId = some m)
    (hid : s.idOk port.val m = true) (hg : g = (s.port port.val).lanes &&& tr.qualified) (h0 : g ≠ 0)
    (hwidth : w = widthOf g (BitVec.ofNat 8 (numAt m 13 1))) (hw0 : w ≠ 0)
    (hleast : max (bitsOf (s.portEntry port.val).toNat 27 24) (numAt m 14 1) ≤ w) :
    ∃ t, exec (.retrain port tr) s = .next t ∧ (t.port port.val).state = (if w = 8 then .up else .upNarrow) ∧
      (t.port port.val).width = BitVec.ofNat 4 w ∧ (t.port port.val).txSeq = (s.port port.val).txSeq ∧
      (t.port port.val).rxExp = (s.port port.val).rxExp ∧ (t.port port.val).replay = (s.port port.val).replay ∧ t.cores = s.cores ∧
      t.deep = s.deep := by
  subst hwidth hg
  have hsig := linkSignals_setPortState s port.val .retrain 0 0
  have hport := port_setPortState s port.val .retrain 0 0
  obtain ⟨hfin, hend⟩ := finishTraining_passes (s := s.setPortState port.val .retrain 0 0) (port := port) false (by rw [hport]; exact hw) h0 hlock
    hm ((hsig.idOk port.val m).trans hid) hw0 (by rw [hsig.portEntry]; exact hleast)
  have hall := hsig.trans hfin
  have hgo : tr.qualified ≠ 0 ∧ tr.lockOk = true ∧ tr.peerId.isSome = true := ⟨hq, hlock, by rw [hm]; rfl⟩
  have hsame : ¬(s.port port.val).otherPeer tr = true := by rw [hpeer]; exact Bool.false_ne_true
  refine ⟨_, (exec_retrain_carries hc).trans (congrArg _ ((if_neg hsame).trans (if_pos hgo))), ?_⟩
  rw [hend, hport]
  exact ⟨rfl, rfl, rfl, rfl, rfl, hall.cores, hall.deep⟩

/-- A retrain that shows another peer is a full training of a port that has lost what it held; here it finds no termination. -/
theorem retrain_otherPeer (hc : (s.port port.val).carries = true) (hpeer : (s.port port.val).otherPeer tr = true) (h : tr.terminated = 0) :
    ∃ t, exec (.retrain port tr) s = .next t ∧ (t.port port.val).state = .down ∧ (t.port port.val).reason = BitVec.ofNat 4 rNoPeer ∧
      (t.port port.val).replay = [] ∧ t.deep = s.deep := by
  obtain ⟨hstate, hreason, hreplay⟩ := portDown_spec
    (((s.setPortState port.val .retrain 0 0).takeDown port.val .training 0).lanesNoted port.val tr) port.val rNoPeer
  refine ⟨_, (exec_retrain_carries hc).trans (congrArg _ ((if_pos hpeer).trans (train_noPeer _ _ h))), hstate, hreason, hreplay,
    deep_of_guarded ?_⟩
  rw [guarded_portDown, State.lanesNoted, guarded_modPort, guarded_takeDown, guarded_setPortState]

/-- A DOWN port that may be trained trains anew. -/
theorem portRetryTimer_trains (he : s.portEnabled port.val = true) (hd : (s.port port.val).state = .down) :
    ∃ t, exec (.portRetryTimer port) s = .next t ∧ (t.port port.val).state = .training ∧
      (t.port port.val).retries = (s.port port.val).retries + 1 ∧ t.cores = s.cores := by
  have hdue : (s.portEnabled port.val && decide ((s.port port.val).state = .down)) = true := by rw [he, hd]; rfl
  have hsig := linkSignals_setPortState (s.modPort port.val fun p => { p with retries := p.retries + 1 }) port.val .training 0 0
  refine ⟨_, if_pos hdue, ?_⟩
  rw [port_setPortState, State.port_modPort_same]
  exact ⟨rfl, rfl, hsig.cores⟩

/-! ### ID messages (R291, R292, Table 10.12) -/

variable {m : Bytes}

/-- A well-formed ID message arrives at its port. -/
theorem exec_id (hok : linkMsgOk m = true) (hk : numAt m 0 1 = 1) : exec (.id port m) s = .next (s.idArrives port.val m) :=
  if_pos (by rw [hok, hk]; rfl)

/-- An identity that a port does not take for another peer's is noted, and then accepted or refused. -/
theorem idArrives_noted (hd : (s.port port.val).state ≠ .disabled)
    (hsame : (s.port port.val).carries = true ∨ (s.port port.val).state = .retrain → (s.port port.val).otherId m = false) :
    s.idArrives port.val m = if s.idOk port.val m then (s.noteId port.val m).modPort port.val fun q => { q with idAccepted := true }
      else (s.noteId port.val m).takeDown port.val .held rMiswire := by
  have hnot : (((s.port port.val).carries || decide ((s.port port.val).state = .retrain)) && (s.port port.val).otherId m) = false := by
    by_cases h : (s.port port.val).carries = true ∨ (s.port port.val).state = .retrain
    · rw [hsame h, Bool.and_false]
    · obtain ⟨hc, hr⟩ := not_or.1 h
      rw [Bool.not_eq_true _ |>.mp hc, decide_eq_false hr]
      rfl
  unfold State.idArrives
  simp only [if_neg hd, hnot, Bool.false_eq_true, if_false, noteId_idOk]
  rfl

/-- Another identity at a port that carried, or was in a retrain, brings a full training. -/
theorem idArrives_other (hc : (s.port port.val).carries = true ∨ (s.port port.val).state = .retrain)
    (hother : numAt m 2 8 ≠ (s.port port.val).peerSerial.toNat ∨ numAt m 12 1 ≠ (s.port port.val).peerPort.toNat) :
    s.idArrives port.val m = s.takeDown port.val .training 0 := by
  have hd : (s.port port.val).state ≠ .disabled := by
    rcases hc with h | h
    · rcases Port.carries_iff.1 h with h | h <;> rw [h] <;> decide
    · rw [h]
      decide
  have hdiff : (((s.port port.val).carries || decide ((s.port port.val).state = .retrain)) && (s.port port.val).otherId m) = true := by
    simpa [Port.otherId, or_iff_not_imp_left] using And.intro hc hother
  unfold State.idArrives
  simp only [if_neg hd, hdiff, if_true]

/-- Until both ends have accepted, a locked port sends its own ID. -/
theorem idTimer_sends (hl : (s.port port.val).lock = true) (ha : (s.port port.val).idAccepted = false ∨ (s.port port.val).peerAccepted = false) :
    ∃ t b, exec (.idTimer port) s = .next t ∧ t.out = s.out ++ [.frame port b] ∧ t.cores = s.cores ∧ t.mesh = s.mesh := by
  have hdue : ((s.port port.val).lock && !((s.port port.val).idAccepted && (s.port port.val).peerAccepted)) = true := by
    rcases ha with h | h <;> simp [hl, h]
  have hsig := signalsOnly_sendFrame s port.val (frameBody kLink 0 [(0, s.ownId port.val)]) false
  exact ⟨_, _, if_pos hdue, sendFrame_out _ _ _ _, hsig.cores, hsig.mesh⟩

end

/-! ### The obligation -/

/-- Settles O31: a training ends by `portDown_spec` or `finishTraining_passes`, and an ID is noted, refused or brings a training by
`idArrives_noted` and `idArrives_other`. -/
theorem portTrainingAndIdentity : Obligations.PortTrainingAndIdentity := by
  refine ⟨fun port tr s p hp => ?_, fun port m s p hp => ?_⟩
  · subst hp
    refine ⟨portTraining_noPeer, portTraining_openLanes, fun m g w he hc hr hw hl ho heq hlock hm hid hg h0 hwidth hw0 hleast => ?_,
      fun m g w hc hw hpeer hlock hq hm hid hg h0 hwidth hw0 hleast => ?_, retrain_otherPeer, portRetryTimer_trains⟩
    · exact portTraining_passes he hc hr hw hl ho heq hlock hm hid hg h0 hwidth hw0 hleast
    · exact retrain_passes hc hw hpeer hlock hq hm hid hg h0 hwidth hw0 hleast
  · subst hp
    refine ⟨fun hok hk hd hsame hid => ?_, fun hok hk hd hsame hcascade => ?_, fun hok hk hc hother => ?_, idTimer_sends⟩
    · refine ⟨_, (exec_id hok hk).trans (congrArg _ ((idArrives_noted hd hsame).trans (if_pos hid))), ?_, rfl⟩
      rw [State.port_modPort_same, port_noteId]
    · have hid : s.idOk port.val m ≠ true := fun h => by simp [State.idOk, hcascade] at h
      obtain ⟨hstate, hreason⟩ := takeDown_state (s.noteId port.val m) port.val .held rMiswire
      refine ⟨_, (exec_id hok hk).trans (congrArg _ ((idArrives_noted hd hsame).trans (if_neg hid))), hstate, hreason, deep_of_guarded ?_⟩
      rw [guarded_takeDown, guarded_noteId]
    · refine ⟨_, (exec_id hok hk).trans (congrArg _ (idArrives_other hc hother)), ?_⟩
      rw [port_takeDown_of_held hc]
      exact ⟨rfl, rfl, rfl, deep_of_guarded (guarded_takeDown _ _ _ _)⟩

end Sys2Proof.Machine

/-! PROOFS. Packets that cross a link die: from a port into the mesh, and out through a port or another link die (R281 to R285, R287). -/

namespace Sys2Proof.Machine

/-! ### A packet comes in (R283, R285) -/

/-- The flits of a packet leave the receiver's buffer, which is its port's. -/
theorem takeFlits_eq (s : State) (i : Nat) (p : Packet) : s.takeFlits i p = { s with ports := (s.takeFlits i p).ports } := by
  unfold State.takeFlits
  dsimp only
  split <;> rfl

/-- A write for a core of this package enters the mesh from the link die. -/
theorem ingress_write {s : State} {l i : Nat} {p : Packet} (hd : p.dst.pkg = s.pkg) (hk : p.pkind = 2) (hc : (s.coreAt p.dst).isSome = true) :
    s.ingress l i p = (s.takeFlits i p).injectLink l { p with route := 0, wait := none, exit := 0, comp := 0 } := by
  have hhere : p.dst.pkg = (s.takeFlits i p).pkg := by rw [takeFlits_eq]; exact hd
  have hcore : ((s.takeFlits i p).coreAt p.dst).isNone = false := by
    rw [takeFlits_eq, Option.isNone_eq_false_iff]
    exact hc
  unfold State.ingress
  simp [hhere, hk, hcore]

/-- No inward delay holds what has come in. -/
theorem exec_linkDieIngress {s u : State} {l : Fin 8} {port : Fin 64} {p : Packet} (hl : port.val / 8 = l.val)
    (hu : s.ingress l.val port.val p = u) (hd : u.portDelay port.val true = none) : exec (.linkDieIngress l port p) s = .next u := by
  change execLinkDieIngress l port p s = _
  unfold execLinkDieIngress
  simp only [if_pos hl, hu, hd]

/-! ### Flits leave through a port (R281, R287) -/

/-- A packet has at least one flit. -/
theorem outFlits_ne_nil (p : Packet) : outFlits p ≠ [] := by
  have hlen : (outFlits p).length = flitCount p := by simp [outFlits, packetFlits, cutFlits, flitCount]
  have hpos : 1 ≤ flitCount p := by unfold flitCount; omega
  intro h
  rw [h] at hlen
  exact absurd hlen (by rw [List.length_nil]; omega)

/-- A frame of flits joins those that are unacknowledged, and the rest goes on. -/
theorem sendFlits_succ (n : Nat) (s : State) (i : Nat) {l : List OutFlit} (h : l ≠ []) : ∃ (u : State) (r : List OutFlit) (body : Bytes),
    s.sendFlits (n + 1) i l = u.sendFlits n i r ∧ (u.port i).replay = (s.port i).replay ++ [((s.port i).txSeq, body)] ∧
    (u.port i).txWait = (s.port i).txWait := by
  have hl : ¬l.isEmpty = true := by simpa using h
  refine ⟨_, _, frameBody kData (s.port i).txSeq ((fillSlots 5 (s.port i).txRr l).1.map fun f => (f.1, f.2.1)), if_neg hl, ?_⟩
  rw [port_countPort, port_sendFrame, State.port_putPort_same]
  exact ⟨rfl, rfl⟩

/-- Flits only add to what a port has to replay, and leave alone what waits for it. -/
theorem sendFlits_port (n : Nat) (s : State) (i : Nat) (l : List OutFlit) :
    (s.port i).replay <+: ((s.sendFlits n i l).port i).replay ∧ ((s.sendFlits n i l).port i).txWait = (s.port i).txWait := by
  induction n generalizing s l with
  | zero => exact ⟨List.prefix_rfl, rfl⟩
  | succ n ih =>
    by_cases h : l = []
    · subst h
      exact ⟨List.prefix_rfl, rfl⟩
    · obtain ⟨u, r, body, heq, hreplay, hwait⟩ := sendFlits_succ n s i h
      obtain ⟨hgrow, hkeep⟩ := ih u r
      rw [heq, hkeep, hwait]
      exact ⟨(List.prefix_append _ _).trans (hreplay ▸ hgrow), rfl⟩

/-- All flits that leave are unacknowledged at first. -/
theorem sendFlits_grows (s : State) (i : Nat) {l : List OutFlit} (h : l ≠ []) :
    (s.port i).replay.length < ((s.sendFlits l.length i l).port i).replay.length := by
  obtain ⟨n, hn⟩ := Nat.exists_eq_succ_of_ne_zero (mt List.length_eq_zero_iff.1 h)
  obtain ⟨u, r, body, heq, hreplay, -⟩ := sendFlits_succ n s i h
  have hlen := (sendFlits_port n u i r).1.length_le
  rw [hreplay, List.length_append, List.length_singleton] at hlen
  rw [hn, Nat.succ_eq_add_one, heq]
  omega

/-- A packet at a port where nothing waits, with credits and room for its frames, spends credits and goes with its flits. -/
theorem admitOne_leaves {x : Port} {d : Bool} {p o : Packet} (ho : o = crossing p d) (hw : x.txWait = [])
    (hcredit : flitCount o ≤ SMap.get 0 x.txCredits (creditClass o)) (hroom : x.replay.length + (flitCount o + 4) / 5 ≤ 1024) :
    ∃ c, Port.admitOne d (x, []) p = ({ x with txCredits := c }, outFlits o) := by
  subst ho
  refine ⟨_, if_neg ?_⟩
  dsimp only
  rw [hw]
  simp only [List.any_nil, Bool.false_or, Bool.or_eq_true, decide_eq_true_eq, List.length_nil, Nat.zero_add]
  omega

/-- Without credits it stays. -/
theorem admitOne_waits {x : Port} {d : Bool} {p o : Packet} (ho : o = crossing p d) (hw : x.txWait = [])
    (hcredit : SMap.get 0 x.txCredits (creditClass o) < flitCount o) : Port.admitOne d (x, []) p = ({ x with txWait := [p] }, []) := by
  subst ho
  unfold Port.admitOne
  simp only [hw, List.any_nil, Bool.false_or, decide_eq_true hcredit, Bool.true_or, if_true, List.nil_append]

section
variable {s : State} {i : Nat} {p : Packet} (hc : (s.port i).carries = true) (ho : (s.port i).offline = none) (hw : (s.port i).txWait = [])
include hc ho hw

/-- A packet is handed to a port where nothing waits: what `Port.admitOne` admits of it leaves. -/
theorem sendPacket_alone : ∃ u : State, u.out = s.out ∧ s.sendPacket i p =
    (u.putPort i (Port.admitOne (s.dateline i) (s.port i, []) p).1).sendFlits (Port.admitOne (s.dateline i) (s.port i, []) p).2.length i
      (Port.admitOne (s.dateline i) (s.port i, []) p).2 := by
  have hmod := State.port_modPort_same s i fun q => { q with txWait := q.txWait ++ [p] }
  have hempty : ({ s.port i with txWait := [] } : Port) = s.port i := by rw [← hw]
  have hgo : ((s.port i).carries && (s.port i).offline.isNone) = true := by rw [hc, ho]; rfl
  refine ⟨s.modPort i fun q => { q with txWait := q.txWait ++ [p] }, rfl, ?_⟩
  unfold State.sendPacket State.flush
  simp only [hmod, hw, List.nil_append]
  refine (if_pos hgo).trans ?_
  rw [List.foldl_cons, List.foldl_nil, hempty]
  rfl

variable {o : Packet} (hx : o = crossing p (s.dateline i))
include hx

/-- With credits and room its flits leave, and nothing waits. -/
theorem sendPacket_leaves (hcredit : flitCount o ≤ SMap.get 0 (s.port i).txCredits (creditClass o))
    (hroom : (s.port i).replay.length + (flitCount o + 4) / 5 ≤ 1024) :
    (s.port i).replay.length < ((s.sendPacket i p).port i).replay.length ∧ ((s.sendPacket i p).port i).txWait = [] := by
  obtain ⟨u, -, heq⟩ := sendPacket_alone (p := p) hc ho hw
  obtain ⟨c, hadmit⟩ := admitOne_leaves hx hw hcredit hroom
  rw [hadmit] at heq
  have hput := State.port_putPort_same u i { s.port i with txCredits := c }
  have hgrow := sendFlits_grows (u.putPort i { s.port i with txCredits := c }) i (outFlits_ne_nil o)
  have hkeep := (sendFlits_port (outFlits o).length (u.putPort i { s.port i with txCredits := c }) i (outFlits o)).2
  rw [hput] at hgrow hkeep
  rw [heq]
  exact ⟨hgrow, hkeep.trans hw⟩

/-- Without credits it waits, and nothing leaves. -/
theorem sendPacket_waits (hcredit : SMap.get 0 (s.port i).txCredits (creditClass o) < flitCount o) :
    ((s.sendPacket i p).port i).replay = (s.port i).replay ∧ ((s.sendPacket i p).port i).txWait = [p] ∧ (s.sendPacket i p).out = s.out := by
  obtain ⟨u, hout, heq⟩ := sendPacket_alone (p := p) hc ho hw
  rw [admitOne_waits hx hw hcredit] at heq
  have hstay : s.sendPacket i p = u.putPort i { s.port i with txWait := [p] } := heq
  rw [hstay, State.port_putPort_same]
  exact ⟨rfl, rfl, hout⟩

end

/-! ### A packet goes out (R284, Table 9.6) -/

/-- A port that may be used toward a package has heard no OFFLINE from its peer (R302). -/
theorem offline_of_portsToward {s : State} {e : BitVec 16} {i : Nat} (h : i ∈ s.portsToward e) : (s.port i).offline = none := by
  obtain ⟨j, hj, rfl⟩ := List.mem_map.1 h
  have husable : (s.port (8 * bitsOf e.toNat 14 12 + j)).usable = true := (Bool.and_eq_true_iff.1 (List.mem_filter.1 hj).2).2
  exact Option.isNone_iff_eq_none.1 (Bool.and_eq_true_iff.1 husable).2

/-- What arrives at a link die changes no port. -/
@[simp] theorem port_arrived (s : State) (f : Packet → Bool) (n i : Nat) : (s.arrived f n).port i = s.port i :=
  port_of_ports (State.arrived_ports _ _ _) i

theorem croute_arrived (s : State) (f : Packet → Bool) (n l : Nat) (pkg : BitVec 12) : (s.arrived f n).croute l pkg = s.croute l pkg := by
  unfold State.croute
  rw [State.arrived_croutes]

theorem dateline_arrived (s : State) (f : Packet → Bool) (n i : Nat) : (s.arrived f n).dateline i = s.dateline i := by
  unfold State.dateline State.portEntry
  rw [State.arrived_expect]

theorem portDelay_arrived (s : State) (f : Packet → Bool) (n i : Nat) (inward : Bool) :
    (s.arrived f n).portDelay i inward = s.portDelay i inward := by
  unfold State.portDelay
  rw [State.arrived_host]

theorem portsToward_arrived (s : State) (f : Packet → Bool) (n : Nat) (e : BitVec 16) : (s.arrived f n).portsToward e = s.portsToward e := by
  simp only [State.portsToward, port_arrived]

section
variable {s : State} {l : Fin 8} {p : Packet} {f : Packet → Bool}
  (hf : f = fun q => decide (q = p)) (hd : p.dst.pkg ≠ s.pkg) (hwait : p.wait = none)
include hf hd hwait

/-- A packet that cannot be taken yet stays where it is. -/
theorem exec_linkDieEgress_waits (hw : s.waits f = true) : exec (.linkDieEgress l p) s = .next s := by
  subst hf
  have hgo : ¬(p.dst.pkg = s.pkg ∨ p.wait.isSome = true) := by simp [hd, hwait]
  exact (if_neg hgo).trans (congrArg Host.Outcome.next (if_pos hw))

/-- A packet that can be taken at its link die, and that no delay holds there, leaves it. -/
theorem exec_linkDieEgress {u : State} (hw : s.waits f = false) (hu : (s.arrived f).egress l.val p false = some u) :
    exec (.linkDieEgress l p) s = .next u := by
  subst hf
  have hgo : ¬(p.dst.pkg = s.pkg ∨ p.wait.isSome = true) := by simp [hd, hwait]
  refine (if_neg hgo).trans (congrArg Host.Outcome.next ((onArrival_taken _ hw).trans ?_))
  rw [hu]
  rfl

end

section
variable {t : State} {l : Nat} {p : Packet} (hk : p.pkind = 2) (hv : (t.croute l p.dst.pkg).getLsbD 15 = true)
include hk hv

/-- A write whose route leads to another link die goes there over the hull. -/
theorem egress_toDie (he : bitsOf (t.croute l p.dst.pkg).toNat 14 12 ≠ l) : t.egress l p false =
    some (t.injectLink l (toComp { p with route := 0, wait := none } 2 (bitsOf (t.croute l p.dst.pkg).toNat 14 12))) := by
  unfold State.egress
  simp [State.creditKnown, tilePacket, hk, hv, he]

/-- One whose route leads through a port of this link die is handed to it. -/
theorem egress_toPort {i : Nat} (he : bitsOf (t.croute l p.dst.pkg).toNat 14 12 = l)
    (hi : (t.portsToward (t.croute l p.dst.pkg))[sourceK p.src % (t.portsToward (t.croute l p.dst.pkg)).length]? = some i)
    (hdelay : t.portDelay i false = none) : t.egress l p false = some (t.sendPacket i { p with route := 0, wait := none }) := by
  unfold State.egress
  simp [State.creditKnown, tilePacket, hk, hv, he, hi, hdelay]

end

/-- A kind that no link carries is discarded (R282), and noted. -/
theorem egress_management {t : State} {l : Nat} {p : Packet} (hk : p.pkind = 0xA) :
    t.egress l p false = some { t with genhan := { t.genhan with notes := t.genhan.notes ++ [(0x000A, BitVec.ofNat 64 l)] } } := by
  unfold State.egress State.noRoute
  simp [State.creditKnown, hk]

/-! ### The obligation -/

/-- Settles O32: what comes in by `ingress_write`, what goes out by `egress_toPort`, `egress_toDie` and `egress_management`, and the port by
`sendPacket_leaves` and `sendPacket_waits`. -/
theorem packetsCrossLinkDies : Obligations.PacketsCrossLinkDies := by
  refine fun l port p s => ⟨fun hl hd hk hc hdelay => ?_, fun i f hf hd hwait hk hw hv he _ hi hdelay hcar hidle => ?_,
    fun f eg hf hd hwait hk hw hv heg hne => ?_, fun hd hwait hk => ?_⟩
  · have hin := exec_linkDieIngress hl (ingress_write (l := l.val) hd hk hc) (by rw [takeFlits_eq]; exact hdelay)
    rw [takeFlits_eq] at hin
    refine ⟨_, _, hin, rfl, hk, rfl, rfl, rfl, rfl, ?_, rfl, rfl, rfl⟩
    change BitVec.ofNat 3 (if l.val < 4 then 3 else 1) = _
    split <;> rfl
  · have hone := egress_toPort (t := s.arrived f) (l := l.val) (i := i) hk (by rw [croute_arrived]; exact hv) (by rw [croute_arrived]; exact he)
      (by rw [croute_arrived, portsToward_arrived]; exact hi) (by rw [portDelay_arrived]; exact hdelay)
    have hexec := exec_linkDieEgress hf hd hwait hw hone
    have hsig := signalsOnly_sendPacket (s.arrived f) i { p with route := 0, wait := none }
    have hoff := offline_of_portsToward (List.mem_of_getElem? hi)
    have hcar' : ((s.arrived f).port i).carries = true := by rw [port_arrived, hcar]
    have hoff' : ((s.arrived f).port i).offline = none := by rw [port_arrived, hoff]
    have hidle' : ((s.arrived f).port i).txWait = [] := by rw [port_arrived, hidle]
    have hcross : crossing p (s.dateline i) = crossing { p with route := 0, wait := none } ((s.arrived f).dateline i) := by
      rw [dateline_arrived]
      rfl
    refine ⟨fun hcredit hroom => ?_, fun hcredit => ?_⟩
    · obtain ⟨hgrow, hnone⟩ := sendPacket_leaves hcar' hoff' hidle' hcross (by rw [port_arrived]; exact hcredit)
        (by rw [port_arrived]; exact hroom)
      rw [port_arrived] at hgrow
      exact ⟨_, hexec, hsig.mesh, hgrow, hnone, hsig.cores.trans (State.arrived_cores _ _ _), hsig.deep.trans (State.arrived_deep _ _ _)⟩
    · obtain ⟨hsame, hstays, hout⟩ := sendPacket_waits hcar' hoff' hidle' hcross (by rw [port_arrived]; exact hcredit)
      rw [port_arrived] at hsame
      exact ⟨_, hexec, hsig.mesh, hsame, hstays, hout.trans (State.arrived_out _ _ _), hsig.cores.trans (State.arrived_cores _ _ _)⟩
  · subst heg
    have hover := egress_toDie (t := s.arrived f) (l := l.val) hk (by rw [croute_arrived]; exact hv) (by rw [croute_arrived]; exact hne)
    rw [croute_arrived] at hover
    exact exec_linkDieEgress hf hd hwait hw hover
  · cases hw : s.waits (fun q => decide (q = p)) with
    | true => exact ⟨s, exec_linkDieEgress_waits rfl hd hwait hw, rfl, rfl, rfl⟩
    | false => exact ⟨_, exec_linkDieEgress rfl hd hwait hw (egress_management hk), State.arrived_cores _ _ _, State.arrived_deep _ _ _,
        State.arrived_ports _ _ _⟩

end Sys2Proof.Machine

/-! PROOFS. The Stroke Counter: the tick of an idle step, probes and replies, and holdover (R298, R299). -/

namespace Sys2Proof.Machine

/-! ### An idle step (R298, R299) -/

theorem step_idle {s : State} (h : s.pending = []) : step s = .next (idleTick s) := by
  unfold step
  rw [h]

theorem idleTick_stopped {s : State} (h : s.time.running = false) : idleTick s = { s with nv := s.nv.finishWrites } := by
  unfold idleTick
  simp only [h, Bool.false_eq_true, if_false]

theorem idleTick_running {s : State} (h : s.time.running = true) : idleTick s = { s with
    nv := s.nv.finishWrites, time := s.time.tick
    power := if s.time.tick.sc.toNat / 100000 = s.time.sc.toNat / 100000 then s.power else s.power.newInterval } := by
  unfold idleTick
  simp only [h, if_true]

/-- A tick changes, beside the counter and the flash, only the stretch levels of the telemetry interval. -/
theorem idleTick_frame {s : State} (h : s.time.running = true) : (idleTick s).time = s.time.tick ∧ idleTick s = { s with
    time := (idleTick s).time, nv := s.nv.finishWrites
    power := { s.power with topLevel := (idleTick s).power.topLevel, lastTop := (idleTick s).power.lastTop } } := by
  rw [idleTick_running h]
  refine ⟨rfl, ?_⟩
  split <;> rfl

/-- A counter that nothing disciplines yet counts one tick. -/
theorem tick_undisciplined {t : Time} (hacc : t.acc < 1000000) (h : t.state = .starter ∨ t.state = .acquire) :
    t.tick = { t with sc := t.sc + 1, left := t.left - 1 } := by
  have hrate : t.rate = 0 := by
    unfold Time.rate
    rcases h with h | h <;> rw [h]
  have hslew : t.state ≠ .slewing := by rcases h with h | h <;> rw [h] <;> decide
  have hzero : ((t.acc : Int) + 0) / 1000000 = 0 := by omega
  have hkept : (((t.acc : Int) + 0) % 1000000).toNat = t.acc := by omega
  have hfrac := t.frac.isLt
  have hwhole : (t.sc.toNat * 65536 + t.frac.toNat + 65536) / 65536 = t.sc.toNat + 1 := by omega
  have hpart : (t.sc.toNat * 65536 + t.frac.toNat + 65536) % 65536 = t.frac.toNat := by omega
  have hsc : BitVec.ofNat 64 (t.sc.toNat + 1) = t.sc + 1 := by
    rw [BitVec.ofNat_add, BitVec.ofNat_toNat, BitVec.setWidth_eq]
    rfl
  unfold Time.tick
  simp only [hrate, hzero, hkept, if_neg hslew]
  simp only [show ((65536 : Int) + 0).toNat = 65536 from rfl, hwhole, hpart, hsc, BitVec.ofNat_toNat, BitVec.setWidth_eq]

theorem clamp100_range (x : Int) : -6553600 ≤ clamp100 x ∧ clamp100 x ≤ 6553600 := by
  unfold clamp100
  omega

/-- The correction is 100 ppm at most. -/
theorem rate_range (t : Time) : -6553600 ≤ t.rate ∧ t.rate ≤ 6553600 := by
  unfold Time.rate
  split
  · decide
  · decide
  · exact clamp100_range _
  · split
    · decide
    · split
      · decide
      · exact clamp100_range _
  · exact clamp100_range _

/-- A count in 2^-16 tick, cut into its 64-bit and its 16-bit part. -/
theorem tick_parts (v : Nat) : v / 65536 % 2 ^ 64 * 65536 + v % 65536 % 2 ^ 16 = v % 2 ^ 80 := by
  have hlow : v % 65536 % 2 ^ 16 = v % 65536 := Nat.mod_mod v 65536
  have hcut : v % (65536 * 2 ^ 64) = v % 65536 + 65536 * (v / 65536 % 2 ^ 64) := Nat.mod_mul
  rw [hlow, show (2 : Nat) ^ 80 = 65536 * 2 ^ 64 from rfl, hcut, Nat.mul_comm, Nat.add_comm]

/-- The counter behind a tick, with the correction that is due. -/
theorem tick_count (t : Time) : t.tick.sc.toNat * 65536 + t.tick.frac.toNat =
    (t.sc.toNat * 65536 + t.frac.toNat + (65536 + (t.acc + t.rate) / 1000000).toNat) % 2 ^ 80 := by
  unfold Time.tick
  rw [← tick_parts, ← BitVec.toNat_ofNat, ← BitVec.toNat_ofNat]

/-- Any counter advances by a tick and a correction of at most 7/65,536 of it. -/
theorem tick_advances (t : Time) (hacc : t.acc < 1000000) : ∃ m : Int, -7 ≤ m ∧ m ≤ 7 ∧ t.tick.acc < 1000000 ∧
    t.tick.sc.toNat * 65536 + t.tick.frac.toNat = (t.sc.toNat * 65536 + t.frac.toNat + (65536 + m).toNat) % 2 ^ 80 := by
  obtain ⟨hlow, hhigh⟩ := rate_range t
  refine ⟨(t.acc + t.rate) / 1000000, by omega, by omega, ?_, tick_count t⟩
  change ((t.acc + t.rate) % 1000000).toNat < 1000000
  omega

/-! ### Probes (R298) -/

/-- A frame that leaves a port does not change which ports carry. -/
theorem carries_sendFrame (s : State) (i j : Nat) (b : Bytes) (nak : Bool) : ((s.sendFrame i b nak).port j).carries = (s.port j).carries := by
  by_cases h : j = i
  · subst h
    rw [port_sendFrame]
    rfl
  · have hother : (s.sendFrame i b nak).port j = s.port j := by
      unfold State.sendFrame
      dsimp only
      split
      · exact State.port_putPort_ne s _ h
      · exact State.port_putPort_ne s _ h
    rw [hother]

theorem carries_sendProbe (s : State) (i j : Nat) : ((s.sendProbe i).port j).carries = (s.port j).carries := by
  unfold State.sendProbe
  split
  · exact carries_sendFrame _ _ _ _ _
  · rfl

theorem signalsOnly_sendProbe (s : State) (i : Nat) : s.signalsOnly (s.sendProbe i) := by
  unfold State.sendProbe
  split
  · exact signalsOnly_sendFrame _ _ _ _
  · exact .refl s

/-- One frame leaves each port that carries. -/
theorem sendProbes_out {l : List Nat} (hl : ∀ i ∈ l, i < 64) (s : State) :
    (l.foldl State.sendProbe s).out.length = s.out.length + (l.filter fun i => (s.port i).carries).length := by
  induction l generalizing s with
  | nil => rfl
  | cons i l ih =>
    have hfilter : (l.filter fun j => ((s.sendProbe i).port j).carries) = l.filter fun j => (s.port j).carries := by
      simp only [carries_sendProbe]
    rw [List.foldl_cons, ih (fun j hj => hl j (List.mem_cons_of_mem _ hj)), hfilter, List.filter_cons]
    unfold State.sendProbe
    split
    · have hsent := sendFrame_out s ⟨i, hl i List.mem_cons_self⟩
        (frameBody kLink 0 [(0, [2] ++ List.replicate 7 0 ++ leBytes 10 s.stamp.toNat)]) false
      rw [State.sendLink, hsent, List.length_append, List.length_singleton, List.length_cons]
      omega
    · rfl

/-- Time ports are ports of the package. -/
theorem parentPort_lt {t : Time} {i : Nat} (h : t.parentPort = some i) : i < 64 := by
  unfold Time.parentPort at h
  split at h
  · exact Option.some.inj h ▸ bitsOf_lt _ 7 2
  · simp at h

theorem altPort_lt {t : Time} {i : Nat} (h : t.altPort = some i) : i < 64 := by
  unfold Time.altPort at h
  split at h
  · exact Option.some.inj h ▸ bitsOf_lt _ 14 9
  · simp at h

theorem probes_lt {t : Time} {i : Nat} (h : i ∈ t.probes) : i < 64 := by
  unfold Time.probes Time.activePort at h
  split at h
  · rw [List.mem_dedup, List.mem_append, Option.mem_toList, Option.mem_toList] at h
    exact h.elim parentPort_lt altPort_lt
  · rw [Option.mem_toList] at h
    split at h
    · exact altPort_lt h
    · exact parentPort_lt h

/-- A probe is answered with a frame. -/
theorem timeProbe_answered {s : State} {port : Fin 64} (t1 t2 : BitVec 80) (hc : (s.port port.val).carries = true) :
    ∃ t b, exec (.timeProbe port t1 t2) s = .next t ∧ t.out = s.out ++ [.frame port b] ∧ t.time = s.time ∧ t.cores = s.cores := by
  have hsig (msg : Bytes) := signalsOnly_sendFrame s port.val (frameBody kLink 0 [(0, msg)]) false
  exact ⟨_, _, congrArg Host.Outcome.next (if_pos hc), sendFrame_out _ _ _ _, (hsig _).time, (hsig _).cores⟩

/-- A non-starter sends a probe through each of its time ports in use, and counts one that is unanswered. -/
theorem timeProbeTimer_probes {s : State} (hs : s.time.starterBit = false) (hn : s.time.state ≠ .starter) (hl : s.time.probes ≠ []) :
    ∃ t, exec .timeProbeTimer s = .next t ∧ t.time.probe = some s.stamp ∧
      t.time.unanswered = (if s.time.probe.isSome then s.time.unanswered + 1 else s.time.unanswered) ∧ t.time.sc = s.time.sc ∧
      t.out.length = s.out.length + (s.time.probes.filter fun i => (s.port i).carries).length ∧ t.cores = s.cores := by
  have hgo : (s.time.starterBit || decide (s.time.state = .starter) || s.time.probes.isEmpty) = false := by simp [hs, hn, hl]
  have hsig (u : State) : u.signalsOnly (s.time.probes.foldl State.sendProbe u) := signalsOnly_foldl signalsOnly_sendProbe _ _
  refine ⟨_, if_neg (by rw [hgo]; exact Bool.false_ne_true), ?_, ?_, ?_, sendProbes_out (fun i hi => probes_lt hi) _, (hsig _).cores⟩ <;>
    rw [(hsig _).time]

/-! ### Replies (R298, R299) -/

/-- A reply is taken at its port: the probe is answered, and the offset is noted. -/
def State.replyTaken (s : State) (port : Nat) (depth : BitVec 8) (x : Int) : State := { s with time := { s.time with
  probe := none, unanswered := 0, depth := (depth + 1).setWidth 4, lastOffset := BitVec.ofInt 64 x
  onAlt := decide (s.time.parentPort ≠ some port) } }

section
variable {s : State} {port : Fin 64} {t1 t2 t3 t4 : BitVec 80} {x : Int} (d st : BitVec 8)
  (hs : s.time.starterBit = false) (ha : s.time.activePort = some port.val) (hp : s.time.probe = some t1)
  (hx : x = ((t2.toNat : Int) - t1.toNat) - (((t4.toNat : Int) - t1.toNat) - ((t3.toNat : Int) - t2.toNat)) / 2)
include hs ha hp hx

/-- The reply to the probe that is out disciplines the counter; a relaunch goes on when it brings the lock back (R197). -/
theorem exec_timeReply : exec (.timeReply port t1 t2 t3 t4 d st) s = .next
    (if ((s.replyTaken port.val d x).discipline x).timeOk && !(s.replyTaken port.val d x).timeOk then
      ((s.replyTaken port.val d x).discipline x).relaunchTry else (s.replyTaken port.val d x).discipline x) := by
  have hgo : (s.time.starterBit || !s.time.listens port.val || decide (s.time.probe ≠ some t1)) = false := by simp [hs, ha, hp, Time.listens]
  subst hx
  exact congrArg Host.Outcome.next (if_neg (by rw [hgo]; exact Bool.false_ne_true))

/-- LOCKED corrects the frequency, and slews a quarter of the offset over the next probe interval. -/
theorem timeReply_locked (hl : s.time.state = .locked) (hf : far50 x = false) : ∃ t, exec (.timeReply port t1 t2 t3 t4 d st) s = .next t ∧
    t.time.state = .locked ∧ t.time.freq = s.time.freq + x / 64 ∧ t.time.slew = x / 4 ∧ t.time.left = 1000000 ∧ t.time.sc = s.time.sc ∧
    t.time.rate = clamp100 (s.time.freq + x / 64 + x / 4) ∧ t.time.unanswered = 0 ∧ t.cores = s.cores := by
  have hdone : (s.replyTaken port.val d x).discipline x = { s.replyTaken port.val d x with time := { (s.replyTaken port.val d x).time with
      freq := s.time.freq + x / 64, slew := x / 4, left := 1000000 } } := by
    have htaken : (s.replyTaken port.val d x).time.state = .locked := hl
    unfold State.discipline
    simp only [htaken, hf, Bool.false_eq_true, if_false]
    rfl
  have hlock : (s.replyTaken port.val d x).timeOk = true := by simp [State.timeOk, State.replyTaken, hl]
  have hkept : ¬(((s.replyTaken port.val d x).discipline x).timeOk && !(s.replyTaken port.val d x).timeOk) = true := by simp [hlock]
  refine ⟨_, (exec_timeReply d st hs ha hp hx).trans (congrArg _ (if_neg hkept)), ?_⟩
  rw [hdone]
  refine ⟨hl, rfl, rfl, rfl, rfl, ?_, rfl, rfl⟩
  unfold Time.rate
  simp only [State.replyTaken, hl]
  rfl

/-- The first reply of ACQUIRE steps the counter. -/
theorem timeReply_acquire (hst : s.time.state = .acquire) (hstep : s.time.stepped = false) (hown : s.job.relOwnDone = false) :
    ∃ t, exec (.timeReply port t1 t2 t3 t4 d st) s = .next t ∧
      t.time.sc = BitVec.ofNat 64 (((s.time.sc.toNat * 65536 + s.time.frac.toNat : Nat) + x).toNat / 65536) ∧ t.time.stepped = true ∧
      t.time.state = (if near2 x = true ∧ 2 ≤ s.time.inBound then .locked else .acquire) ∧ t.cores = s.cores := by
  have hdone : (s.replyTaken port.val d x).discipline x = { s.replyTaken port.val d x with time := { (s.replyTaken port.val d x).time.stepBy x with
      stepped := true, inBound := if near2 x then s.time.inBound + 1 else 0
      state := if 3 ≤ (if near2 x then s.time.inBound + 1 else 0) then .locked else .acquire } } := by
    have htaken : (s.replyTaken port.val d x).time.state = .acquire := hst
    have hfirst : (s.replyTaken port.val d x).time.stepped = false := hstep
    unfold State.discipline
    simp only [htaken, hfirst, Bool.false_eq_true, if_false]
    rfl
  have hsame : ((s.replyTaken port.val d x).discipline x).relaunchTry = (s.replyTaken port.val d x).discipline x :=
    relaunchTry_waits (.inl (by rw [hdone]; exact hown))
  have hexec := exec_timeReply d st hs ha hp hx
  rw [hsame, ite_self, hdone] at hexec
  refine ⟨_, hexec, rfl, rfl, ?_, rfl⟩
  change (if 3 ≤ (if near2 x = true then s.time.inBound + 1 else 0) then TimeState.locked else .acquire) = _
  cases near2 x with
  | true => simp only [if_true, true_and, Nat.add_le_add_iff_right (n := 1), show 3 = 2 + 1 from rfl]
  | false => rfl

end

/-! ### Holdover (R299) -/

/-- A package that unlocks is in its new state; nothing else of its time or its cores changes. -/
theorem unlock_spec (s : State) (st : TimeState) : (s.unlock st).time = { s.time with state := st } ∧ (s.unlock st).cores = s.cores := by
  unfold State.unlock
  dsimp only
  split
  · exact ⟨State.raiseEvent_time _ _ _ _, State.raiseEvent_cores _ _ _ _⟩
  · exact ⟨rfl, rfl⟩

section
variable {s : State} (hs : s.time.starterBit = false) (hn : s.time.state ≠ .starter) (hu : 8 ≤ s.time.unanswered)
  (hh : s.time.state ≠ .holdover)
include hs hn hu hh

/-- Eight probes unanswered: the alternate is taken, or HOLDOVER. -/
theorem exec_timeHoldover : exec .timeHoldover s = .next (if !s.time.onAlt && s.time.altPort.isSome then
    ({ s with time := { s.time with
      onAlt := true, unanswered := 0, probe := none, inBound := 0, stepped := false, slew := 0 } } : State).unlock s.unlockedState
    else ({ s with time := { s.time with state := .holdover } } : State).raiseEvent 0x0007 none [BitVec.ofNat 8 (s.time.parentPort.getD 0)]) := by
  have hgo : (s.time.starterBit || decide (s.time.state = .starter) || decide (s.time.unanswered < 8) ||
      decide (s.time.state = .holdover)) = false := by
    simp [hs, hn, hh, hu]
  refine (if_neg (by rw [hgo]; exact Bool.false_ne_true)).trans ?_
  split <;> rfl

theorem timeHoldover_holds (ha : s.time.altPort = none) : ∃ t, exec .timeHoldover s = .next t ∧ t.time = { s.time with state := .holdover } ∧
    t.time.rate = clamp100 s.time.freq ∧ t.cores = s.cores := by
  have hnone : ¬(!s.time.onAlt && s.time.altPort.isSome) = true := by simp [ha]
  refine ⟨_, (exec_timeHoldover hs hn hu hh).trans (congrArg _ (if_neg hnone)), State.raiseEvent_time _ _ _ _, ?_, State.raiseEvent_cores _ _ _ _⟩
  rw [State.raiseEvent_time]
  rfl

theorem timeHoldover_alternate {i : Nat} (ho : s.time.onAlt = false) (ha : s.time.altPort = some i) : ∃ t, exec .timeHoldover s = .next t ∧
    t.time = { s.time with
      onAlt := true, unanswered := 0, probe := none, inBound := 0, stepped := false, slew := 0, state := s.unlockedState } ∧ t.cores = s.cores := by
  have hsome : (!s.time.onAlt && s.time.altPort.isSome) = true := by simp [ho, ha]
  obtain ⟨htime, hcores⟩ := unlock_spec
    { s with time := { s.time with onAlt := true, unanswered := 0, probe := none, inBound := 0, stepped := false, slew := 0 } } s.unlockedState
  exact ⟨_, (exec_timeHoldover hs hn hu hh).trans (congrArg _ (if_pos hsome)), htime, hcores⟩

end

/-! ### The obligation -/

/-- Settles O2: an idle step by `tick_undisciplined` and `tick_advances`, probes by `sendProbes_out`, and each reply by the state that it finds. -/
theorem timeAndIdleSteps : Obligations.TimeAndIdleSteps := by
  refine ⟨fun s hq => ⟨fun hr => ?_, fun hr hacc hst => ?_, fun hr hacc => ?_⟩, fun s => ⟨fun port t1 t2 hc => timeProbe_answered t1 t2 hc,
    fun l hs hn hl hne => ?_, fun port t1 t2 t3 t4 d st x hs ha hp hx => ⟨timeReply_locked d st hs ha hp hx, timeReply_acquire d st hs ha hp hx⟩,
    timeHoldover_holds, fun i hs hn hu hh ho ha => timeHoldover_alternate hs hn hu hh ho ha⟩⟩
  · rw [step_idle hq, idleTick_stopped hr]
  · exact ⟨_, step_idle hq, (idleTick_frame hr).1.trans (tick_undisciplined hacc hst)⟩
  · obtain ⟨htime, hframe⟩ := idleTick_frame hr
    obtain ⟨m, hlow, hhigh, hleft, hcount⟩ := tick_advances s.time hacc
    rw [← htime] at hleft hcount
    exact ⟨_, m, step_idle hq, hlow, hhigh, hleft, hcount, hframe⟩
  · subst hl
    exact timeProbeTimer_probes hs hn hne

end Sys2Proof.Machine
